-- ==== Sys2Proof/Syntax.lean ====
section
/-! DEFINITION. The abstract syntax: one constructor per row of spec/opcode_table.json. The first 294 are the word
instructions of the opcode map (R332 to R335), each with the fields its encoding gives it; a word that may be
extended by a LIT word carries the literal (R315, R336). The others are the indivisible steps of the part's engines
(95_what_each_step_holds.md), each with plain data naming what it acts on. -/

namespace Sys2Proof

/-- A link with a compressor: fabric port LPj (R27), or UCIe module m of a die identifier (R21). -/
inductive LinkId where
  | port (j : BitVec 7)
  | ucie (die : BitVec 4) (m : BitVec 3)
deriving DecidableEq, Repr

/-- Every row of the opcode table. `c` is the chain bit, `x` the index bit (R316). -/
inductive Instr where
  /-- R312. A word occupying no pipe and having no effect. -/
  | nop (c : Bool)
  /-- R315. A literal word extending the immediate of the word before it. -/
  | lit (c : Bool) (l : BitVec 25)
  /-- R343. Per-lane 32-bit add. -/
  | iadd (c x : Bool) (d a b : BitVec 7)
  /-- R343. Per-lane 32-bit subtract. -/
  | isub (c x : Bool) (d a b : BitVec 7)
  /-- R343. Per-lane signed minimum. -/
  | iminS (c x : Bool) (d a b : BitVec 7)
  /-- R343. Per-lane unsigned minimum. -/
  | iminN (c x : Bool) (d a b : BitVec 7)
  /-- R343. Per-lane signed maximum. -/
  | imaxS (c x : Bool) (d a b : BitVec 7)
  /-- R343. Per-lane unsigned maximum. -/
  | imaxN (c x : Bool) (d a b : BitVec 7)
  /-- R343. Add with carry in and out through p6. -/
  | iaddc (c x : Bool) (d a b : BitVec 7)
  /-- R343. Subtract with borrow in and out through p6. -/
  | isubb (c x : Bool) (d a b : BitVec 7)
  /-- R344. iadd with a uniform scalar second operand. -/
  | iaddScalarB (c x : Bool) (d a : BitVec 7) (s : BitVec 6)
  /-- R344. isub with a scalar second operand. -/
  | isubScalarB (c x : Bool) (d a : BitVec 7) (s : BitVec 6)
  /-- R344. imin.s with a scalar second operand. -/
  | iminSScalarB (c x : Bool) (d a : BitVec 7) (s : BitVec 6)
  /-- R344. imin.n with a scalar second operand. -/
  | iminNScalarB (c x : Bool) (d a : BitVec 7) (s : BitVec 6)
  /-- R344. imax.s with a scalar second operand. -/
  | imaxSScalarB (c x : Bool) (d a : BitVec 7) (s : BitVec 6)
  /-- R344. imax.n with a scalar second operand. -/
  | imaxNScalarB (c x : Bool) (d a : BitVec 7) (s : BitVec 6)
  /-- R344. iaddc with a scalar second operand. -/
  | iaddcScalarB (c x : Bool) (d a : BitVec 7) (s : BitVec 6)
  /-- R344. isubb with a scalar second operand. -/
  | isubbScalarB (c x : Bool) (d a : BitVec 7) (s : BitVec 6)
  /-- R345. Low 32 bits of the product. -/
  | imul (c x : Bool) (d a b : BitVec 7)
  /-- R345. High 32 bits of the signed product. -/
  | imulhS (c x : Bool) (d a b : BitVec 7)
  /-- R345. High 32 bits of the unsigned product. -/
  | imulhN (c x : Bool) (d a b : BitVec 7)
  /-- R345. Low product bits plus the old destination. -/
  | imad (c x : Bool) (d a b : BitVec 7)
  /-- R345. Signed high product plus the old destination. -/
  | imadhS (c x : Bool) (d a b : BitVec 7)
  /-- R345. Unsigned high product plus the old destination. -/
  | imadhN (c x : Bool) (d a b : BitVec 7)
  /-- R345. Signed absolute value. -/
  | iabs (c x : Bool) (d a : BitVec 7)
  /-- R345. Two's-complement negation. -/
  | ineg (c x : Bool) (d a : BitVec 7)
  /-- R347. Bitwise AND. -/
  | and (c x : Bool) (d a b : BitVec 7)
  /-- R347. Bitwise OR. -/
  | or (c x : Bool) (d a b : BitVec 7)
  /-- R347. Bitwise XOR. -/
  | xor (c x : Bool) (d a b : BitVec 7)
  /-- R347. A AND NOT B. -/
  | andn (c x : Bool) (d a b : BitVec 7)
  /-- R347. A OR NOT B. -/
  | orn (c x : Bool) (d a b : BitVec 7)
  /-- R347. Population count. -/
  | popc (c x : Bool) (d a : BitVec 7)
  /-- R347. Count leading zeros. -/
  | clz (c x : Bool) (d a : BitVec 7)
  /-- R347. Count trailing zeros. -/
  | ctz (c x : Bool) (d a : BitVec 7)
  /-- R344. and with a scalar second operand. -/
  | andScalarB (c x : Bool) (d a : BitVec 7) (s : BitVec 6)
  /-- R344. or with a scalar second operand. -/
  | orScalarB (c x : Bool) (d a : BitVec 7) (s : BitVec 6)
  /-- R344. xor with a scalar second operand. -/
  | xorScalarB (c x : Bool) (d a : BitVec 7) (s : BitVec 6)
  /-- R344. andn with a scalar second operand. -/
  | andnScalarB (c x : Bool) (d a : BitVec 7) (s : BitVec 6)
  /-- R344. orn with a scalar second operand. -/
  | ornScalarB (c x : Bool) (d a : BitVec 7) (s : BitVec 6)
  /-- R348. Shift left. -/
  | shl (c x : Bool) (d a b : BitVec 7)
  /-- R348. Logical shift right. -/
  | shr (c x : Bool) (d a b : BitVec 7)
  /-- R348. Arithmetic shift right. -/
  | sar (c x : Bool) (d a b : BitVec 7)
  /-- R348. Rotate left. -/
  | rotl (c x : Bool) (d a b : BitVec 7)
  /-- R348. Unsigned bit-field extract. -/
  | bfeN (c x : Bool) (d a b : BitVec 7)
  /-- R348. Signed bit-field extract. -/
  | bfeS (c x : Bool) (d a b : BitVec 7)
  /-- R348. Bit-field insert into the old destination. -/
  | bfi (c x : Bool) (d a b : BitVec 7)
  /-- R348. Byte permute from the old destination and A. -/
  | bperm (c x : Bool) (d a b : BitVec 7)
  /-- R349. Integer equal compare into a predicate. -/
  | icmpEq (c x : Bool) (p : BitVec 3) (a b : BitVec 7)
  /-- R349. Integer not-equal compare. -/
  | icmpNe (c x : Bool) (p : BitVec 3) (a b : BitVec 7)
  /-- R349. Signed less-than compare. -/
  | icmpLtS (c x : Bool) (p : BitVec 3) (a b : BitVec 7)
  /-- R349. Signed less-or-equal compare. -/
  | icmpLeS (c x : Bool) (p : BitVec 3) (a b : BitVec 7)
  /-- R349. Signed greater-than compare. -/
  | icmpGtS (c x : Bool) (p : BitVec 3) (a b : BitVec 7)
  /-- R349. Signed greater-or-equal compare. -/
  | icmpGeS (c x : Bool) (p : BitVec 3) (a b : BitVec 7)
  /-- R349. Unsigned less-than compare. -/
  | icmpLtN (c x : Bool) (p : BitVec 3) (a b : BitVec 7)
  /-- R349. Unsigned greater-or-equal compare. -/
  | icmpGeN (c x : Bool) (p : BitVec 3) (a b : BitVec 7)
  /-- R350. Per-lane select of A or B by a predicate. -/
  | sel (c x : Bool) (p : BitVec 3) (d a b : BitVec 7)
  /-- R351. Vector register move. -/
  | mov (c x : Bool) (d a : BitVec 7)
  /-- R351. Vector pair move. -/
  | mov64 (c x : Bool) (d a : BitVec 7)
  /-- R351. Broadcast a scalar into a vector register. -/
  | movs (c x : Bool) (d : BitVec 7) (s : BitVec 6)
  /-- R352. Per-lane indexed register read. -/
  | vrd (c x : Bool) (d a b : BitVec 7)
  /-- R352. Per-lane indexed register write. -/
  | vwr (c x : Bool) (d a b : BitVec 7)
  /-- R351. Set a predicate from a non-zero register. -/
  | pmov (c x : Bool) (p : BitVec 3) (a : BitVec 7)
  /-- R351. Read a predicate into a register. -/
  | pget (c x : Bool) (d : BitVec 7) (p : BitVec 3)
  /-- R346. Add an immediate. -/
  | iaddi (c x : Bool) (d a : BitVec 7) (i : BitVec 10) (lit : Option (BitVec 25))
  /-- R346. Move an immediate. -/
  | movi (c x : Bool) (d : BitVec 7) (i : BitVec 10) (lit : Option (BitVec 25))
  /-- R360. FP32 add. -/
  | fadd (c x : Bool) (d a b : BitVec 7)
  /-- R360. FP32 subtract. -/
  | fsub (c x : Bool) (d a b : BitVec 7)
  /-- R360. FP32 minimum under the min–max rule. -/
  | fmin (c x : Bool) (d a b : BitVec 7)
  /-- R360. FP32 maximum under the min–max rule. -/
  | fmax (c x : Bool) (d a b : BitVec 7)
  /-- R360. Clear the sign bit. -/
  | fabs (c x : Bool) (d a : BitVec 7)
  /-- R360. Invert the sign bit. -/
  | fneg (c x : Bool) (d a : BitVec 7)
  /-- R360. Round to integral under RM. -/
  | frnd (c x : Bool) (d a : BitVec 7)
  /-- R360. Fractional part clamped below 1. -/
  | fract (c x : Bool) (d a : BitVec 7)
  /-- R362. fadd with a scalar second operand. -/
  | faddScalarB (c x : Bool) (d a : BitVec 7) (s : BitVec 6)
  /-- R362. fsub with a scalar second operand. -/
  | fsubScalarB (c x : Bool) (d a : BitVec 7) (s : BitVec 6)
  /-- R362. fmin with a scalar second operand. -/
  | fminScalarB (c x : Bool) (d a : BitVec 7) (s : BitVec 6)
  /-- R362. fmax with a scalar second operand. -/
  | fmaxScalarB (c x : Bool) (d a : BitVec 7) (s : BitVec 6)
  /-- R361. FP32 multiply. -/
  | fmul (c x : Bool) (d a b : BitVec 7)
  /-- R361. Fused multiply-add with D as addend. -/
  | fma (c x : Bool) (d a b : BitVec 7)
  /-- R361. Fused multiply-subtract. -/
  | fms (c x : Bool) (d a b : BitVec 7)
  /-- R361. Negated fused multiply-add. -/
  | fnma (c x : Bool) (d a b : BitVec 7)
  /-- R362. fmul with a scalar second operand. -/
  | fmulScalarB (c x : Bool) (d a : BitVec 7) (s : BitVec 6)
  /-- R362. fma with a scalar second operand. -/
  | fmaScalarB (c x : Bool) (d a : BitVec 7) (s : BitVec 6)
  /-- R362. fms with a scalar second operand. -/
  | fmsScalarB (c x : Bool) (d a : BitVec 7) (s : BitVec 6)
  /-- R362. fnma with a scalar second operand. -/
  | fnmaScalarB (c x : Bool) (d a : BitVec 7) (s : BitVec 6)
  /-- R363. FP32 equal compare. -/
  | fcmpEq (c x : Bool) (p : BitVec 3) (a b : BitVec 7)
  /-- R363. FP32 not-equal compare. -/
  | fcmpNe (c x : Bool) (p : BitVec 3) (a b : BitVec 7)
  /-- R363. FP32 less-than compare. -/
  | fcmpLt (c x : Bool) (p : BitVec 3) (a b : BitVec 7)
  /-- R363. FP32 less-or-equal compare. -/
  | fcmpLe (c x : Bool) (p : BitVec 3) (a b : BitVec 7)
  /-- R363. FP32 greater-than compare. -/
  | fcmpGt (c x : Bool) (p : BitVec 3) (a b : BitVec 7)
  /-- R363. FP32 greater-or-equal compare. -/
  | fcmpGe (c x : Bool) (p : BitVec 3) (a b : BitVec 7)
  /-- R363. True when either operand is NaN. -/
  | fcmpUnord (c x : Bool) (p : BitVec 3) (a b : BitVec 7)
  /-- R363. True when neither operand is NaN. -/
  | fcmpOrd (c x : Bool) (p : BitVec 3) (a b : BitVec 7)
  /-- R364. Packed FP16 add. -/
  | haddF16x2 (c x : Bool) (d a b : BitVec 7)
  /-- R364. Packed FP16 multiply. -/
  | hmulF16x2 (c x : Bool) (d a b : BitVec 7)
  /-- R364. Packed FP16 fused multiply-add. -/
  | hfmaF16x2 (c x : Bool) (d a b : BitVec 7)
  /-- R364. Packed BF16 add. -/
  | haddBf16x2 (c x : Bool) (d a b : BitVec 7)
  /-- R364. Packed BF16 multiply. -/
  | hmulBf16x2 (c x : Bool) (d a b : BitVec 7)
  /-- R364. Packed BF16 fused multiply-add. -/
  | hfmaBf16x2 (c x : Bool) (d a b : BitVec 7)
  /-- R364. Packed FP16 minimum. -/
  | hminF16x2 (c x : Bool) (d a b : BitVec 7)
  /-- R364. Packed FP16 maximum. -/
  | hmaxF16x2 (c x : Bool) (d a b : BitVec 7)
  /-- R365. FP32 reciprocal on the SFU. -/
  | frcp (c x : Bool) (d a : BitVec 7)
  /-- R365. FP32 reciprocal square root. -/
  | frsq (c x : Bool) (d a : BitVec 7)
  /-- R365. FP32 square root, correctly rounded. -/
  | fsqrt (c x : Bool) (d a : BitVec 7)
  /-- R365. Base-2 exponential. -/
  | fexp2 (c x : Bool) (d a : BitVec 7)
  /-- R365. Base-2 logarithm. -/
  | flog2 (c x : Bool) (d a : BitVec 7)
  /-- R365. Sine. -/
  | fsin (c x : Bool) (d a : BitVec 7)
  /-- R365. Cosine. -/
  | fcos (c x : Bool) (d a : BitVec 7)
  /-- R365. Hyperbolic tangent. -/
  | ftanh (c x : Bool) (d a : BitVec 7)
  /-- R366. FP64 add. -/
  | dadd (c x : Bool) (d a b : BitVec 7)
  /-- R366. FP64 subtract. -/
  | dsub (c x : Bool) (d a b : BitVec 7)
  /-- R366. FP64 multiply. -/
  | dmul (c x : Bool) (d a b : BitVec 7)
  /-- R366. FP64 fused multiply-add. -/
  | dfma (c x : Bool) (d a b : BitVec 7)
  /-- R366. FP64 minimum. -/
  | dmin (c x : Bool) (d a b : BitVec 7)
  /-- R366. FP64 maximum. -/
  | dmax (c x : Bool) (d a b : BitVec 7)
  /-- R366. FP64 reciprocal. -/
  | drcp (c x : Bool) (d a : BitVec 7)
  /-- R366. FP64 square root. -/
  | dsqrt (c x : Bool) (d a : BitVec 7)
  /-- R367. Convert between f32, f16, bf16, f64, s32 and n32 under a chosen rounding. -/
  | cvt (c x : Bool) (t : BitVec 3) (d a : BitVec 7) (r s : BitVec 3)
  /-- R368. Narrow four FP32 values to E4M3 under RM. -/
  | cvtnE4m3 (c x : Bool) (d a : BitVec 7)
  /-- R368. Narrow four FP32 values to E4M3 stochastically. -/
  | cvtnE4m3Sr (c x : Bool) (d a : BitVec 7)
  /-- R368. Narrow four FP32 values to E5M2 under RM. -/
  | cvtnE5m2 (c x : Bool) (d a : BitVec 7)
  /-- R368. Narrow four FP32 values to E5M2 stochastically. -/
  | cvtnE5m2Sr (c x : Bool) (d a : BitVec 7)
  /-- R369. Narrow a block of eight FP32 values to block-scaled E2M1. -/
  | cvtnE2m1b (c x : Bool) (d a b : BitVec 7)
  /-- R369. Block-scaled E2M1 narrowing with stochastic rounding. -/
  | cvtnE2m1bSr (c x : Bool) (d a b : BitVec 7)
  /-- R370. Widen four E4M3 bytes to FP32. -/
  | cvtwE4m3 (c x : Bool) (d a : BitVec 7)
  /-- R370. Widen four E5M2 bytes to FP32. -/
  | cvtwE5m2 (c x : Bool) (d a : BitVec 7)
  /-- R371. FP64 position minus a scalar origin, rounded once to FP32. -/
  | xrel (c x : Bool) (d a : BitVec 7) (s : BitVec 6)
  /-- R371. Three-component camera-relative subtraction. -/
  | xrel3 (c x : Bool) (d a : BitVec 7) (s : BitVec 6)
  /-- R372. FP64 equal compare. -/
  | dcmpEq (c x : Bool) (p : BitVec 3) (a b : BitVec 7)
  /-- R372. FP64 less-than compare. -/
  | dcmpLt (c x : Bool) (p : BitVec 3) (a b : BitVec 7)
  /-- R372. FP64 less-or-equal compare. -/
  | dcmpLe (c x : Bool) (p : BitVec 3) (a b : BitVec 7)
  /-- R372. FP64 unordered compare. -/
  | dcmpUnord (c x : Bool) (p : BitVec 3) (a b : BitVec 7)
  /-- R373. Read A from an indexed lane. -/
  | shflIdx (c x : Bool) (d a b : BitVec 7)
  /-- R373. Read A from a lower lane. -/
  | shflUp (c x : Bool) (d a b : BitVec 7)
  /-- R373. Read A from a higher lane. -/
  | shflDown (c x : Bool) (d a b : BitVec 7)
  /-- R373. Read A from the lane XOR c. -/
  | shflXor (c x : Bool) (d a b : BitVec 7)
  /-- R374. 1 if any active lane's predicate is set. -/
  | voteAny (c x : Bool) (d : BitVec 7) (p : BitVec 3)
  /-- R374. 1 if every active lane's predicate is set. -/
  | voteAll (c x : Bool) (d : BitVec 7) (p : BitVec 3)
  /-- R374. Mask of active lanes with the predicate set. -/
  | voteBallot (c x : Bool) (d : BitVec 7) (p : BitVec 3)
  /-- R375. Exchange values within quads of four lanes. -/
  | qswz (c x : Bool) (d a : BitVec 7) (k : BitVec 2)
  /-- R376. Integer sum over active lanes. -/
  | redAddS32 (c x : Bool) (d a : BitVec 7)
  /-- R376. FP32 sum over active lanes in lane order. -/
  | redAddF32 (c x : Bool) (d a : BitVec 7)
  /-- R376. FP32 minimum over active lanes. -/
  | redMinF32 (c x : Bool) (d a : BitVec 7)
  /-- R376. FP32 maximum over active lanes. -/
  | redMaxF32 (c x : Bool) (d a : BitVec 7)
  /-- R376. Inclusive integer scan over active lanes. -/
  | scanAddS32 (c x : Bool) (d a : BitVec 7)
  /-- R376. Inclusive FP32 scan over active lanes. -/
  | scanAddF32 (c x : Bool) (d a : BitVec 7)
  /-- R376. Bitwise AND over active lanes. -/
  | redAnd (c x : Bool) (d a : BitVec 7)
  /-- R376. Bitwise OR over active lanes. -/
  | redOr (c x : Bool) (d a : BitVec 7)
  /-- R471. Horizontal quad derivative per warped pixel. -/
  | ddx (c x : Bool) (d a b : BitVec 7)
  /-- R471. Vertical quad derivative per warped pixel. -/
  | ddy (c x : Bool) (d a b : BitVec 7)
  /-- R472. Perspective-correct attribute at the coarse-pixel centre. -/
  | ipa (c x : Bool) (d a n : BitVec 7)
  /-- R472. Attribute at the centroid of covered samples. -/
  | ipac (c x : Bool) (d a n : BitVec 7)
  /-- R475. Initialise a ray traversal state and push the root. -/
  | rtravInit (c x : Bool) (d a b : BitVec 7)
  /-- R475. Advance traversal until a candidate, completion or 64 visits. -/
  | rtravStep (c x : Bool) (d : BitVec 7)
  /-- R475. Commit a pending candidate hit. -/
  | rhit (c x : Bool) (d : BitVec 7)
  /-- R353. Scalar add. -/
  | sadd (c : Bool) (d a b : BitVec 6)
  /-- R353. Scalar subtract. -/
  | ssub (c : Bool) (d a b : BitVec 6)
  /-- R353. Scalar multiply low. -/
  | smul (c : Bool) (d a b : BitVec 6)
  /-- R353. Scalar signed multiply high. -/
  | smulh (c : Bool) (d a b : BitVec 6)
  /-- R353. Scalar AND. -/
  | sand (c : Bool) (d a b : BitVec 6)
  /-- R353. Scalar OR. -/
  | sor (c : Bool) (d a b : BitVec 6)
  /-- R353. Scalar XOR. -/
  | sxor (c : Bool) (d a b : BitVec 6)
  /-- R353. Scalar AND NOT. -/
  | sandn (c : Bool) (d a b : BitVec 6)
  /-- R353. Scalar shift left. -/
  | sshl (c : Bool) (d a b : BitVec 6)
  /-- R353. Scalar logical shift right. -/
  | sshr (c : Bool) (d a b : BitVec 6)
  /-- R353. Scalar arithmetic shift right. -/
  | ssar (c : Bool) (d a b : BitVec 6)
  /-- R353. Scalar signed minimum. -/
  | smin (c : Bool) (d a b : BitVec 6)
  /-- R353. Scalar signed maximum. -/
  | smax (c : Bool) (d a b : BitVec 6)
  /-- R353. Scalar move. -/
  | smov (c : Bool) (d a : BitVec 6)
  /-- R353. 64-bit scalar pair add. -/
  | sadd64 (c : Bool) (d a b : BitVec 6)
  /-- R353. 64-bit scalar pair subtract. -/
  | ssub64 (c : Bool) (d a b : BitVec 6)
  /-- R354. Add a sign-extended immediate to a scalar. -/
  | saddi (c : Bool) (d : BitVec 6) (i : BitVec 15) (lit : Option (BitVec 25))
  /-- R354. AND a scalar with an immediate. -/
  | sandi (c : Bool) (d : BitVec 6) (i : BitVec 15) (lit : Option (BitVec 25))
  /-- R354. OR a scalar with an immediate. -/
  | sori (c : Bool) (d : BitVec 6) (i : BitVec 15) (lit : Option (BitVec 25))
  /-- R354. XOR a scalar with an immediate. -/
  | sxori (c : Bool) (d : BitVec 6) (i : BitVec 15) (lit : Option (BitVec 25))
  /-- R354. Shift a scalar left by an immediate. -/
  | sshli (c : Bool) (d : BitVec 6) (i : BitVec 15) (lit : Option (BitVec 25))
  /-- R354. Shift a scalar right by an immediate. -/
  | sshri (c : Bool) (d : BitVec 6) (i : BitVec 15) (lit : Option (BitVec 25))
  /-- R354. Move an immediate into a scalar. -/
  | smovi (c : Bool) (d : BitVec 6) (i : BitVec 15) (lit : Option (BitVec 25))
  /-- R354. Move a 64-bit sign-extended immediate into a scalar pair. -/
  | smovhi (c : Bool) (d : BitVec 6) (i : BitVec 15) (lit : Option (BitVec 25))
  /-- R355. Scalar equal compare into a predicate in all lanes. -/
  | scmpEq (c : Bool) (p : BitVec 3) (a b : BitVec 6)
  /-- R355. Scalar not-equal compare. -/
  | scmpNe (c : Bool) (p : BitVec 3) (a b : BitVec 6)
  /-- R355. Scalar signed less-than compare. -/
  | scmpLtS (c : Bool) (p : BitVec 3) (a b : BitVec 6)
  /-- R355. Scalar signed less-or-equal compare. -/
  | scmpLeS (c : Bool) (p : BitVec 3) (a b : BitVec 6)
  /-- R355. Scalar unsigned less-than compare. -/
  | scmpLtN (c : Bool) (p : BitVec 3) (a b : BitVec 6)
  /-- R355. Scalar unsigned less-or-equal compare. -/
  | scmpLeN (c : Bool) (p : BitVec 3) (a b : BitVec 6)
  /-- R355. Scalar select on sD non-zero. -/
  | ssel (c : Bool) (d a b : BitVec 6)
  /-- R356. Read a special register. -/
  | getsr (c : Bool) (d n : BitVec 6)
  /-- R356. Write a special register. -/
  | setsr (c : Bool) (n b : BitVec 6)
  /-- R357. Set the index register. -/
  | setix (c : Bool) (a : BitVec 6)
  /-- R357. Add to the index register modulo 256. -/
  | addix (c : Bool) (a : BitVec 6)
  /-- R357. Read the index register. -/
  | getix (c : Bool) (d : BitVec 6)
  /-- R404. Bind a window to an address and set its limit. -/
  | bind (c : Bool) (w : BitVec 3) (a : BitVec 6)
  /-- R405. Clear every field of a window. -/
  | unbind (c : Bool) (w : BitVec 3)
  /-- R406. Copy a window's fields into six scalars. -/
  | wquery (c : Bool) (d : BitVec 6) (w : BitVec 3)
  /-- R407. Windowed per-lane load. -/
  | ld (c x : Bool) (z : BitVec 3) (d a : BitVec 7) (w : BitVec 3) (i : BitVec 4) (lit : Option (BitVec 25))
  /-- R407. Windowed per-lane store. -/
  | st (c x : Bool) (z : BitVec 3) (d a : BitVec 7) (w : BitVec 3) (i : BitVec 4) (lit : Option (BitVec 25))
  /-- R408. Gather load with per-lane commit. -/
  | ldg (c x : Bool) (z : BitVec 3) (d a : BitVec 7) (i : BitVec 4) (lit : Option (BitVec 25))
  /-- R408. Scatter store with per-lane commit. -/
  | stg (c x : Bool) (z : BitVec 3) (d a : BitVec 7) (i : BitVec 4) (lit : Option (BitVec 25))
  /-- R409. Scratchpad load. -/
  | lds (c x : Bool) (z : BitVec 3) (d a : BitVec 7) (i : BitVec 4) (lit : Option (BitVec 25))
  /-- R409. Scratchpad store. -/
  | sts (c x : Bool) (z : BitVec 3) (d a : BitVec 7) (i : BitVec 4) (lit : Option (BitVec 25))
  /-- R410. Uniform load into scalars. -/
  | ldc (c : Bool) (z : BitVec 4) (d a b : BitVec 6)
  /-- R411. Per-lane atomic through a window at the home point. -/
  | atom (c x : Bool) (o : BitVec 4) (d a : BitVec 7) (w : BitVec 3) (s : BitVec 2) (r : BitVec 1)
  /-- R411. Per-lane atomic on the team's scratchpad. -/
  | atoms (c x : Bool) (o : BitVec 4) (d a : BitVec 7) (s : BitVec 2) (r : BitVec 1)
  /-- R417. Tiered load with fallback, status and flue logging. -/
  | ldt (c x : Bool) (z : BitVec 3) (d a : BitVec 7) (w : BitVec 3)
  /-- R418. Point-sampled tiered texture read. -/
  | smpPoint (c x : Bool) (d a : BitVec 7) (w : BitVec 3) (v u : BitVec 2)
  /-- R418. Bilinear tiered texture sample. -/
  | smpBilinear (c x : Bool) (d a : BitVec 7) (w : BitVec 3) (v u : BitVec 2)
  /-- R418. Trilinear tiered texture sample. -/
  | smpTrilinear (c x : Bool) (d a : BitVec 7) (w : BitVec 3) (v u : BitVec 2)
  /-- R222. Acquire fence at a scope. -/
  | fenceAcq (c : Bool) (s : BitVec 2)
  /-- R222. Release fence at a scope. -/
  | fenceRel (c : Bool) (s : BitVec 2)
  /-- R223. Acquire-release fence, totally ordered among inclusive scopes. -/
  | fenceAr (c : Bool) (s : BitVec 2)
  /-- R414. Invalidate the core's L1. -/
  | cinv (c : Bool)
  /-- R415. Write back dirty LLC lines of a virtual range. -/
  | cwb (c : Bool) (d a : BitVec 6)
  /-- R416. Prefetch lines into the L1. -/
  | pf (c x : Bool) (a : BitVec 7) (w : BitVec 3)
  /-- R262. Wait for residency invalidations and in-flight tiered loads, and empty descriptor caches. -/
  | resfence (c : Bool)
  /-- R421. Start per-lane copies between global memory and scratchpad. -/
  | cpa (c x : Bool) (d a : BitVec 7) (w : BitVec 3) (s : BitVec 2) (r : BitVec 1)
  /-- R423. Close the current copy batch. -/
  | cpseal (c : Bool)
  /-- R424. Wait for a batch's copies and report failures. -/
  | cpwait (c : Bool) (t : BitVec 2)
  /-- R425. Read batch counts and flags. -/
  | cpstat (c : Bool) (d : BitVec 6)
  /-- R426. Start a descriptor-driven bulk copy counted on a transaction barrier. -/
  | cpbulk (c : Bool) (d a b : BitVec 6)
  /-- R431. Start a quantising bulk copy into scratchpad. -/
  | cpq (c : Bool) (d a b : BitVec 6)
  /-- R433. Initialise a transaction barrier. -/
  | tbinit (c : Bool) (a b : BitVec 6)
  /-- R433. Release and arrive at a transaction barrier. -/
  | tbarrive (c : Bool) (a b : BitVec 6)
  /-- R433. Add expected sectors to a transaction barrier. -/
  | tbexpect (c : Bool) (a b : BitVec 6)
  /-- R433. Wait for a barrier phase to flip, then acquire. -/
  | tbwait (c : Bool) (a b : BitVec 6)
  /-- R433. Test whether a barrier phase has flipped. -/
  | tbtest (c : Bool) (d a b : BitVec 6)
  /-- R438. Set awaiting bits of a register range. -/
  | rarm (c x : Bool) (a : BitVec 7) (n : BitVec 3)
  /-- R438. Clear awaiting bits of a register range. -/
  | rdisarm (c x : Bool) (a : BitVec 7) (n : BitVec 3)
  /-- R439. Mint a register-naming capability. -/
  | mkcap (c : Bool) (d a : BitVec 6)
  /-- R440. Relaxed register send under a capability. -/
  | rsend (c x : Bool) (d : BitVec 6) (a : BitVec 7) (k : BitVec 5)
  /-- R440. Register send that waits for and traps on a failing status. -/
  | rsendT (c x : Bool) (d : BitVec 6) (a : BitVec 7) (k : BitVec 5)
  /-- R440. Release register send. -/
  | rsendRel (c x : Bool) (d : BitVec 6) (a : BitVec 7) (k : BitVec 5)
  /-- R440. Release register send that traps on a failing status. -/
  | rsendRelT (c x : Bool) (d : BitVec 6) (a : BitVec 7) (k : BitVec 5)
  /-- R441. Advance the team's GEN, revoking its capabilities. -/
  | rrevoke (c : Bool) (d : BitVec 6)
  /-- R438. Report awaiting bits of 32 registers. -/
  | rtest (c x : Bool) (d : BitVec 6) (a : BitVec 7)
  /-- R438. Read and clear the overwrite counter. -/
  | rtestCount (c : Bool) (d : BitVec 6)
  /-- R442. Configure and enable a message ring. -/
  | mring (c : Bool) (r : BitVec 3) (a b : BitVec 6)
  /-- R443. Send a message payload to a ring capability. -/
  | msend (c : Bool) (d a b : BitVec 6)
  /-- R444. Free the previous slot and wait for the next message. -/
  | mwait (c : Bool) (d : BitVec 6) (r : BitVec 3)
  /-- R420. Mark pages resident with release semantics. -/
  | resset (c x : Bool) (a : BitVec 7) (w : BitVec 3)
  /-- R420. Mark pages not resident. -/
  | resclr (c x : Bool) (a : BitVec 7) (w : BitVec 3)
  /-- R420. Query residency bits, optionally clearing the flue filter. -/
  | resq (c x : Bool) (d a : BitVec 7) (w : BitVec 3) (r : BitVec 1)
  /-- R464. Emit a meshlet vertex. -/
  | memitV (c x : Bool) (d a n : BitVec 7)
  /-- R465. Emit a meshlet primitive. -/
  | memitP (c x : Bool) (d a : BitVec 7)
  /-- R466. Request mesh groups through the payload ring. -/
  | tamp (c x : Bool) (d a b : BitVec 7)
  /-- R467. Read tile colour or depth. -/
  | tload (c x : Bool) (d a : BitVec 7)
  /-- R468. Tag-tested colour write to a coarse pixel. -/
  | tstore (c x : Bool) (d a : BitVec 7)
  /-- R469. Hand the team's tile to the serialiser. -/
  | tseal (c : Bool)
  /-- R470. Read the latest gaze latch of a view and strip. -/
  | gzrd (c x : Bool) (d a : BitVec 7)
  /-- R396. Device-wide TLB and window shootdown of a virtual range. -/
  | tlbinv (c : Bool) (d a b : BitVec 6)
  /-- R397. Clear LIVE in windows over a physical range. -/
  | winv (c : Bool) (d a : BitVec 6)
  /-- R398. Switch an interleave domain, or refuse. -/
  | hmask (c : Bool) (k : BitVec 4) (a b : BitVec 6)
  /-- R399. Evict a team to a save area or request its restore. -/
  | evict (c : Bool) (d a b : BitVec 6)
  /-- R400. Send a snapshot trigger to the root. -/
  | snap (c : Bool)
  /-- R401. Map first-touch pages for faulting lanes from the pool. -/
  | pgmap (c : Bool) (d : BitVec 6)
  /-- R378. Unconditional branch. -/
  | bra (c : Bool) (o : BitVec 19) (lit : Option (BitVec 25))
  /-- R378. Divergent branch on predicate true. -/
  | brc (c : Bool) (p : BitVec 3) (o : BitVec 19) (lit : Option (BitVec 25))
  /-- R378. Divergent branch on predicate false. -/
  | brcn (c : Bool) (p : BitVec 3) (o : BitVec 19) (lit : Option (BitVec 25))
  /-- R378. Uniform branch if any active lane's predicate is set. -/
  | bru (c : Bool) (p : BitVec 3) (o : BitVec 19) (lit : Option (BitVec 25))
  /-- R379. Switch to the other path, reconverge, or return from a trap. -/
  | join (c : Bool)
  /-- R381. Branch to an address held in a scalar pair. -/
  | brx (c : Bool) (s : BitVec 6)
  /-- R380. Per-lane loop back edge. -/
  | loop (c : Bool) (p : BitVec 3) (o : BitVec 19) (lit : Option (BitVec 25))
  /-- R384. Push a CALL entry and branch. -/
  | call (c : Bool) (o : BitVec 19) (lit : Option (BitVec 25))
  /-- R384. Pop a CALL entry and return. -/
  | ret (c : Bool)
  /-- R382. End the predicated lanes, vacating the group if none remain. -/
  | exit (c : Bool) (p : BitVec 3)
  /-- R385. Raise TRAPINSN in the predicated lanes. -/
  | trap (c : Bool) (p : BitVec 3)
  /-- R385. Raise BREAK in the predicated lanes. -/
  | brk (c : Bool) (p : BitVec 3)
  /-- R386. Reset the group's age. -/
  | yield (c : Bool)
  /-- R386. Make the group not ready for n clocks. -/
  | sleep (c : Bool) (n : BitVec 19)
  /-- R387. Arrive at and wait on the team barrier. -/
  | bar (c : Bool)
  /-- R229. Team barrier with release and acquire halves publishing copies. -/
  | barPub (c : Bool)
  /-- R162. Team barrier requesting a new register and scratchpad allotment. -/
  | barRealloc (c : Bool) (d a : BitVec 6)
  /-- R387. Arrive at the team barrier without waiting. -/
  | barArrive (c : Bool)
  /-- R388. Wait for the phase of the latest arrival. -/
  | barWait (c : Bool)
  /-- R391. Post a job card to this or a neighbouring die pair. -/
  | post (c : Bool) (e : BitVec 2) (a : BitVec 6)
  /-- R392. Add to the launch's team count. -/
  | lgrow (c : Bool) (d a : BitVec 6)
  /-- R393. Enter an event record into the die's event queue. -/
  | evpost (c : Bool) (a : BitVec 6)
  /-- R394. Decrement a dependency counter, trapping on underflow. -/
  | depdec (c : Bool) (a : BitVec 6)
  /-- R391. Set a dependency counter. -/
  | depset (c : Bool) (a b : BitVec 6)
  /-- R446. Quarter matrix multiply-accumulate with A from registers. -/
  | mmq (c : Bool) (d a : BitVec 7) (s : BitVec 6) (h : BitVec 1)
  /-- R446. Quarter matrix operation with A from scratchpad. -/
  | mmqs (c : Bool) (d a : BitVec 7) (s : BitVec 6) (h : BitVec 1)
  /-- R446. Quarter matrix operation with A from memory under the shadow. -/
  | mmqg (c : Bool) (d a : BitVec 7) (s : BitVec 6) (h : BitVec 1)
  /-- R450. Start the macro sequencer over a command block. -/
  | mtile (c : Bool) (d : BitVec 7) (s : BitVec 6) (h : BitVec 1)
  /-- R454. Load a weight image into a team slot. -/
  | wbld (c : Bool) (d a : BitVec 6)
  /-- R455. Free a weight-buffer slot. -/
  | wbinv (c : Bool) (a : BitVec 6)
  /-- R455. Read a weight-buffer slot's status. -/
  | wbstat (c : Bool) (d a : BitVec 6)
  /-- R458. 16-point Hadamard transform on the transform pipe. -/
  | had16 (c x : Bool) (d a : BitVec 7) (m : BitVec 6)
  /-- R458. 32-point Hadamard transform. -/
  | had32 (c x : Bool) (d a : BitVec 7) (m : BitVec 6)
  /-- R458. 64-point Hadamard transform. -/
  | had64 (c x : Bool) (d a : BitVec 7) (m : BitVec 6)
  /-- R459. Block absolute maxima. -/
  | absmax (c x : Bool) (d a : BitVec 7) (m : BitVec 6)
  /-- R460. Quantise to E4M3 or block E2M1 by a scale. -/
  | quant (c x : Bool) (d a : BitVec 7) (m : BitVec 6)
  /-- R461. Encode a bitmap-sparse unit. -/
  | bmenc (c x : Bool) (d a : BitVec 7) (m : BitVec 6)
  /-- R461. Decode a bitmap-sparse unit. -/
  | bmdec (c x : Bool) (d a : BitVec 7) (m : BitVec 6)
  /-- R462. Inclusive scan over group indices. -/
  | pscan (c x : Bool) (d a : BitVec 7) (m : BitVec 6)
  /-- R463. Parse one LZ4 sequence header. -/
  | lztok (c x : Bool) (d a : BitVec 7)
  /-- R46. At power-on the boot ROM checks the flash image (magic, key digest, SVN, body digest, signature) and either starts the firmware in M mode or records a boot failure and waits for a reload. -/
  | powerOn
  /-- R49. A component is measured: MEAS := SM3(MEAS ‖ SM3(component)) and a log entry is appended. -/
  | measureComponent (code : BitVec 16) (component : List (BitVec 8))
  /-- R54. Management command 0x01 returns the boot state, package identifier, die states, link states and whether the retired list is full. -/
  | status (dgram : List (BitVec 8))
  /-- R53. Management command 0x02 answers and then performs a full device reset, discarding any partial LOADIMG stream. -/
  | reset (dgram : List (BitVec 8))
  /-- R54. Management command 0x03 accepts one chunk of up to 1,024 image bytes at its stated offset; a chunk marked last starts verification. -/
  | loadimg (dgram : List (BitVec 8))
  /-- R50. Management command 0x04 returns part of a signed quote over the nonce, MEAS, package identifier, SVN and measurement log. -/
  | attest (dgram : List (BitVec 8))
  /-- R55. Management command 0x05 sends a snapshot trigger to the trigger root and returns its sequence number. -/
  | snapCommand (dgram : List (BitVec 8))
  /-- R54. Management command 0x06 returns part of the latched snapshot registers of one die or I/O die. -/
  | rdsnap (dgram : List (BitVec 8))
  /-- R54. Management command 0x07 returns part of the lifetime record. -/
  | rdlife (dgram : List (BitVec 8))
  /-- R53. Management command 0x08 sets the package identifier for step 6 of bring-up, or holds it as pending for the next boot. -/
  | setpkg (dgram : List (BitVec 8))
  /-- R53. Management command 0x09 issues the context kill command for one context and returns the CTXCMD status. -/
  | killctx (dgram : List (BitVec 8))
  /-- R53. A datagram with command code 0x0A to 0xFF is refused with status unknown command. -/
  | unknownCommand (dgram : List (BitVec 8))
  /-- R62. Every 60 s the control complex writes the accumulated lifetime counts to the non-volatile store. -/
  | lifetimeFlush
  /-- R43. CTXCMD operation 0 checks a context table entry and sets VALID, clearing STRAY, FREASON and FAULTED. -/
  | ctxCreate (w : BitVec 32)
  /-- R43. CTXCMD operation 1 kills a context's teams, discards its evicted teams and queued cards, marks it faulted and writes a KILLED record. -/
  | ctxKill (w : BitVec 32)
  /-- R43. CTXCMD operation 2 clears VALID and invalidates TLB entries and windows of the ASID when no team, save area or card of the context remains. -/
  | ctxDestroy (w : BitVec 32)
  /-- R67. A write of RCBINV starts invalidation of the cached fields of the named region control block on that die pair. -/
  | rcbinvWrite (die : BitVec 3) (w : BitVec 32)
  /-- R67. The die pair holds no cached field of the named RCB any more and BUSY clears, completing any held write. -/
  | rcbInvalidationDone (die : BitVec 3)
  /-- R195. WTREPLAY mode 0 wakes the groups parked under the page entry of the ASID and key (and under the overflow entry), to re-execute or take the recorded fault in-lane. -/
  | wtreplayByPage (die : BitVec 3) (w : BitVec 64)
  /-- R195. WTREPLAY mode 1 wakes the groups parked under the wait-table entry of the given index and frees it. -/
  | wtreplayByToken (die : BitVec 3) (w : BitVec 64)
  /-- R195. WTREPLAY mode 2 wakes every group parked under any entry of the ASID. -/
  | wtreplayByAsid (die : BitVec 3) (w : BitVec 64)
  /-- R81. A control core's DSPOST write reads a card from physical memory and posts it to the die pair on behalf of a context, held while the card store is full. -/
  | dspostWrite (die : BitVec 3) (cc : BitVec 4) (w : BitVec 64)
  /-- R81. A DCTRn write with OP 1 sets the dependency counter as a control-core set operation. -/
  | dctrSet (die : BitVec 3) (n : BitVec 12) (cc : BitVec 4) (w : BitVec 64)
  /-- R81. A DCTRn write with OP 2 decrements the dependency counter as a control-core decrement operation. -/
  | dctrDecrement (die : BitVec 3) (n : BitVec 12) (cc : BitVec 4) (w : BitVec 64)
  /-- R25. Writing 1 to LCCTL.CNTCLR clears every counter of that compressor. -/
  | lcctlCntclr (link : LinkId) (w : BitVec 32)
  /-- R25. A write of LCCTL.TCDIS forces raw mode for the chosen traffic classes from the next flit boundary. -/
  | lcctlTcdis (link : LinkId) (w : BitVec 32)
  /-- R57. Writing 1 to SNAPCTL.CLR clears FULL and MISSED. -/
  | snapctlClr (die : BitVec 4) (w : BitVec 32)
  /-- R38. Writing RELEASE brings a thermally held compute die up zeroed and empty, unless TEMP is 90 °C or above. -/
  | thermctlRelease (die : BitVec 3) (w : BitVec 32)
  /-- R496. A DOMSW write checks the staged IDWSk and HMASKSk values and starts the switch of domain k, or refuses it and sets REFUSED. -/
  | domswWrite (w : BitVec 32)
  /-- R213. A write of a format window FWk, directly or through the broadcast alias, takes effect after every LLC line of its old and new view range is invalidated. -/
  | fwWrite (mc : Option (BitVec 5)) (k : BitVec 4) (part : BitVec 2) (w : BitVec 64)
  /-- R140. A SERCLK write sets the strip-clock multiplier, divisor and enable, ignored when out of range or changing MUL or DIV while running. -/
  | serclkWrite (w : BitVec 32)
  /-- R141. A write of a view output block configures a view, only PERIOD and PEN changing while it runs, and PERIOD 0 disabling it. -/
  | vobWrite (v : BitVec 4) (part : BitVec 3) (w : BitVec 64)
  /-- R499. A VRECv write names the view record that the serialiser reads from the next strip start. -/
  | vrecWrite (v : BitVec 4) (w : BitVec 64)
  /-- R120. A single 32-bit write of GAZEv changes GX and GY together for the next strip latch. -/
  | gazeWrite (v : BitVec 4) (w : BitVec 32)
  /-- R176. An EMBCTL write sets the ember-token count, withdrawing surplus tokens or inserting new ones at cluster 0. -/
  | embctlWrite (die : BitVec 3) (w : BitVec 32)
  /-- R89. A DSCTL write sets the co-resident hold time, the hearth view and the hearth reserve of the die. -/
  | dsctlWrite (die : BitVec 3) (w : BitVec 32)
  /-- R84. An NRBASE write sets the notify ring base, size and enable, ignored if it changes BASE or NRLOG while EN is 1. -/
  | nrbaseWrite (die : BitVec 3) (w : BitVec 64)
  /-- R18. A store to any other device register, or to an offset holding none, takes effect under the access rules of device register space. -/
  | deviceRegisterWrite (pa : BitVec 46) (wide : Bool) (w : BitVec 64)
  /-- R23. A link transmitter compresses a flit payload in the mode needing fewest beats, adds the link header and keeps the flit in its replay buffer. -/
  | flitSend (link : LinkId) (tc : BitVec 2) (payload : List (BitVec 8))
  /-- R26. A receiver checks a flit's CRC and beat count, expands the payload, records acknowledgements and treats a bad flit as failed. -/
  | flitReceive (link : LinkId) (header : BitVec 64) (beats : List (BitVec 8))
  /-- R31. A port or module seeing more than 8 CRC retries within 10^6 flits retrains, holding its queued and unacknowledged flits. -/
  | linkRetrain (link : LinkId)
  /-- R31. At the end of retraining the replay buffer is sent first, then the held flits. -/
  | retrainComplete (link : LinkId)
  /-- R32. A link failing four retraining attempts in a row is taken down and each request in its replay buffer or queue completes with an error. -/
  | linkDown (link : LinkId)
  /-- R34. An endpoint memory request is checked and translated through the DMA function table and the context's page table, then performed or failed with a DMAFAULT record. -/
  | dmaRequest (port : BitVec 2) (rid : BitVec 16) (write : Bool) (addr : BitVec 64) (len : Nat) (data : List (BitVec 8))
  /-- R34. A completion for a load through a PCIe memory window returns its data, or with an error status completes as a NOPHYS late failure. -/
  | pcieWindowCompletion (req : Nat) (ok : Bool) (data : BitVec 64)
  /-- R37. A compute die reaching 100 °C has its token count set to 1. -/
  | thermalThrottle (die : BitVec 3) (temp : BitVec 8)
  /-- R37. A compute die reaching 110 °C is held in reset and every context with work on it is marked faulted with a THERMAL record. -/
  | thermalReset (die : BitVec 3) (temp : BitVec 8)
  /-- R38. After a token reduction the power manager restores the earlier token count once TEMP falls below 95 °C. -/
  | thermalTokenRestore (die : BitVec 3) (temp : BitVec 8)
  /-- R68. A 64-byte fault record is written into its region's fault queue, or dropped and counted in LOST when the ring is full. -/
  | faultRecordWrite (die : BitVec 4)
  /-- R73. A post reaches the target die sequencer, which copies the card into its card store and parks or releases it on its gate. -/
  | cardPostArrival (die : BitVec 3)
  /-- R73. An entry freeing in a full card store lets a stalled or held post proceed. -/
  | cardStoreEntryFreed (die : BitVec 3)
  /-- R78. In one clock a counter applies every set, decrement and park that reached it, in the order of R80, as one atomic step. -/
  | counterUpdate (die : BitVec 3) (n : BitVec 12)
  /-- R76. A released card becomes ready once every earlier card of its queue is ready, and takes a readiness sequence number. -/
  | cardReady (die : BitVec 3)
  /-- R88. The distributor serves ready cards in ready order and places a card's next team on the first eligible core. -/
  | teamPlacement (die : BitVec 3)
  /-- R87. A co-resident card first in its class for ADMHOLD µs stops admission of equal or lower-ranked teams until it is placed. -/
  | admholdExpiry (die : BitVec 3)
  /-- R94. A victim team still resident at its drain deadline forces a reset of its context on the draining cores. -/
  | drainDeadline (team : Nat)
  /-- R91. A launch whose indices are issued and teams exited waits for its stores, writes its statistics, decrements its successors and frees its card. -/
  | launchRetirement (die : BitVec 3) (slot : BitVec 12)
  /-- R83. The die sequencer takes one event record from its queue, applies its decrement then its post, and appends it to the notify ring if asked. -/
  | eventRecord (die : BitVec 3)
  /-- R82. A slot freeing in a full event queue lets a held engine completion enter its record and update its barrier. -/
  | eventQueueSlotFreed (die : BitVec 3)
  /-- R437. A finished decompression job writes its output, OUTLEN and STATUS, enters its event record and retires its card. -/
  | decompressionJobEnd (die : BitVec 3) (slot : BitVec 12)
  /-- R194. After a page-keyed entry is created the table walks the page again and wakes the group if the access now succeeds. -/
  | waitTableRewalk (die : BitVec 3) (entry : BitVec 10)
  /-- R173. A sibling receiving the halt stops at a packet boundary within 2 packets and pushes a SIBHALT entry. -/
  | siblingStop (group : Nat)
  /-- R175. When the team's parked count reaches zero each SIBHALT entry is popped and its group resumes. -/
  | sibhaltPop (group : Nat)
  /-- R498. A failure found after issue gives zero to the failing load lanes, writes a record and raises ACCESS at the next chain boundary if the group is resident. -/
  | lateFailure (req : Nat)
  /-- R386. A sleeping group becomes ready again when its clock count ends or an arrival clears an awaiting bit. -/
  | sleepExpiry (group : Nat)
  /-- R177. An ember token arrives at a cluster, which keeps it if a matrix word waits and otherwise forwards it. -/
  | tokenHop (die : BitVec 3) (token : Nat)
  /-- R177. A cluster's burst ends after 4,096 clocks or 16 clocks without a matrix word and its token hops on. -/
  | burstEnd (die : BitVec 3) (cluster : Nat)
  /-- R163. Once pending writes and copies into the team are done the core decides a renegotiation and gives every group its status. -/
  | reallocDecision (team : Nat)
  /-- R203. A request reaches its slice and bank, takes the line lock or a miss entry, waits in the conflict queue, or is NACKed BUSY. -/
  | llcRequest (req : Nat)
  /-- R203. A BUSY-NACKed request is resent 16 clocks later, before the sender's later requests to the line. -/
  | nackResend (req : Nat)
  /-- R212. An interleave domain switch drains and invalidates the old range, loads the new values everywhere, then accepts requests again. -/
  | domainSwitchPhase
  /-- R212. A DOMAIN-NACKed request is resent to its newly computed slice in its original order. -/
  | domainNackResend (req : Nat)
  /-- R200. A 0xFD access is resolved at the relay slice by its team's state and performed at the core, on the save area, held, or failed. -/
  | remoteScratchAccess (req : Nat)
  /-- R422. The coalescer performs or fails a lane copy, marking failures on the batch tag. -/
  | cpaCopyComplete (copy : Nat)
  /-- R430. A bulk copy performs its writes, invalidates L1 lines, subtracts its sectors at the barrier and enters its event record. -/
  | bulkCopyComplete (copy : Nat)
  /-- R454. A weight-buffer load ends, leaving the slot VALID or FAILED and entering its event record. -/
  | wbldComplete (team : Nat) (slot : BitVec 9)
  /-- R457. The transform pipe's reply writes its destination registers and releases them. -/
  | xfmReply (reply : Nat)
  /-- R451. The macro sequencer loads a step's image and runs one mmqg-equivalent operation, advancing the progress register. -/
  | mtileStep (group : Nat)
  /-- R278. A register send reaches the relay slice, which checks the capability and forwards, logs or refuses it. -/
  | sendAtRelay (send : Nat)
  /-- R280. At a resident target core an arrival writes awaiting registers and clears their bits, or is refused and counted in OVWC. -/
  | sendArrival (send : Nat)
  /-- R281. A send returned MOVED is resent by the sender's core to the new relay slice in order. -/
  | sendMoved (send : Nat)
  /-- R278. A send's status reply reaches the sender and is written to its scalar status register. -/
  | sendStatusReply (send : Nat) (far : Option (BitVec 3))
  /-- R288. A message is checked at the relay and written into the next ring slot of the target team. -/
  | messageAtRelay (send : Nat)
  /-- R303. An eviction stops the team, waits for its work, writes the save area and marks the team evicted. -/
  | teamEviction (team : Nat)
  /-- R305. A restored team is placed, loaded from its save area, acquires, applies its drift log and resumes. -/
  | teamRestore (team : Nat)
  /-- R269. A flue record is written to its ring, or dropped and counted when the ring or queue is full or unusable. -/
  | flueRecordWrite (die : BitVec 3)
  /-- R262. A residency map word is invalidated in a core's residency cache after resset or resclr. -/
  | residencyInvalidation (core : Nat) (word : Nat)
  /-- R55. A trigger reaches the root on IOD0, takes the next sequence number and is broadcast down the tree. -/
  | snapTriggerRoot
  /-- R56. A block latches its snapshot registers, or counts a miss when HOLD and FULL are set. -/
  | snapshotLatch (die : BitVec 4)
  /-- R104. A mesh-group request enters the mesh payload ring whole when enough entries are free. -/
  | meshRingEntry (die : BitVec 3)
  /-- R109. The cull unit tests one instance against each view, writes its visibility bit and requests its mesh group or lists it for rejection. -/
  | cullInstance (die : BitVec 3)
  /-- R122. A primitive reaching the binner waits for its strip's latch, is dropped if late, and is sent to the owner of each tile it covers. -/
  | primitiveAtBinner (die : BitVec 3)
  /-- R126. A primitive reaching a tile owner joins its tile lists in TLBUF. -/
  | primitiveAtOwner (die : BitVec 3)
  /-- R124. A draw-end marker reaches an owner and makes later draws' primitives applicable. -/
  | drawEndMarker (die : BitVec 3)
  /-- R131. The raster engine covers and depth-tests an applicable primitive's samples in the tile team's scratchpad. -/
  | primitiveApply (die : BitVec 3) (tile : Nat)
  /-- R121. At a strip start the serialiser latches the gaze, reads the view record and emits the strip's header. -/
  | stripStart (view : BitVec 4)
  /-- R138. A seal reaching the serialiser by the replacement instant is resolved and emitted; a later or repeated seal is dropped. -/
  | sealArrival
  /-- R143. At a strip's replacement instant every unaccepted tile is replaced from history, firn image or fill. -/
  | replacementInstant (view : BitVec 4)
  /-- R139. A replacement notice reaches the tile team's core; later tile instructions trap DEADLINE. -/
  | replacementNotice (team : Nat)
  /-- R62. The supply is lost; all volatile state goes, and lifetime counts gathered since the last 60 s write are lost while retired-location entries survive. -/
  | powerLoss
  /-- R205. A load's data, an atomic's return value or a store's acknowledgement comes back to the requesting core on the reverse network, writes the destination lanes, clears the scoreboard and counts towards fences and retirement. -/
  | memoryReply (req : Nat)
  /-- R203. A miss entry's read from HBM (decoded by the controller for a format-window view) completes, the line is filled and the requests attached to the entry are served. -/
  | llcMissFill (line : Nat)
  /-- R60. The control complex resets a core that a core-store ECC error left refusing new teams, so that the core accepts teams again. -/
  | coreReset (core : Nat)
  /-- R32. A retraining attempt of a port or die-to-die module fails, counts towards the four in a row that take the link down, and retraining starts again. -/
  | retrainingAttemptFailure (link : LinkId)
deriving DecidableEq, Repr

end Sys2Proof
end

