-- ==== Sys2Proof/Word.lean ====
section
/-! DEFINITION. The unit sizes of R1 and the sparse map type that every large piece of state is held in. -/

namespace Sys2Proof

/-- A byte, half, word and dword of R1, and a 64-byte line. -/
abbrev Byte := BitVec 8
abbrev Half := BitVec 16
abbrev Word := BitVec 32
abbrev Dword := BitVec 64
abbrev Line := BitVec 512

/-- A sparse map: pairs of key and value, keys strictly rising in its canonical form. -/
abbrev AMap (α : Type) := List (Nat × α)

end Sys2Proof
end

