-- ==== Sys2Proof/WellFormed.lean ====
section
/-! DEFINITION. The checks that an instruction's own fields decide, before any register is read: reserved codes (R322,
R332) and the alignment of scalar pairs and quadruples (R318, R332). A word that fails one raises ILLEGAL. -/

namespace Sys2Proof

/-- The start of a scalar pair (R318). -/
def even6 (n : BitVec 6) : Bool := n.toNat % 2 == 0
/-- The start of a scalar quadruple (R332). -/
def quad6 (n : BitVec 6) : Bool := n.toNat % 4 == 0
/-- R319: size 7 is reserved. -/
def sizeOk (z : BitVec 3) : Bool := z.toNat < 7
/-- R319: a store has no signed sizes. -/
def storeSizeOk (z : BitVec 3) : Bool := sizeOk z && z.toNat != 1 && z.toNat != 3
/-- R417: 4, 8 or 16 bytes. -/
def wideSizeOk (z : BitVec 3) : Bool := z.toNat == 4 || z.toNat == 5 || z.toNat == 6
/-- R410: sizes b32, b64 and b128, the destination aligned to its size, the address pair even. -/
def ldcOk (z : BitVec 4) (d a : BitVec 6) : Bool :=
  even6 a && (z.toNat == 4 || (z.toNat == 5 && even6 d) || (z.toNat == 6 && quad6 d))
/-- R418: sampling mode 3 is reserved. -/
def modeOk (v u : BitVec 2) : Bool := v.toNat != 3 && u.toNat != 3
/-- R367: type codes above 5, rounding codes above 4 and equal types are reserved. -/
def cvtOk (t r s : BitVec 3) : Bool := t.toNat ≤ 5 && r.toNat ≤ 4 && s.toNat ≤ 5 && t.toNat != s.toNat
/-- R321, R356: numbers 15 to 63 are reserved, and a 64-bit register is read into a pair. -/
def getsrOk (d n : BitVec 6) : Bool :=
  n.toNat ≤ 14 && ((n.toNat != 6 && n.toNat != 11 && n.toNat != 12 && n.toNat != 14) || even6 d)
/-- R321: only sr.fpm, sr.tag, sr.mode, sr.trapbase and sr.rsbase can be written, the last two from a pair. -/
def setsrOk (n b : BitVec 6) : Bool :=
  n.toNat == 7 || n.toNat == 8 || n.toNat == 10 || ((n.toNat == 11 || n.toNat == 12) && even6 b)
/-- R458: type 3 is reserved and mode[5:2] is zero. -/
def hadOk (m : BitVec 6) : Bool := m.toNat < 3
/-- R459: type 3 and block code 3 are reserved, mode[5:4] is zero. -/
def absmaxOk (m : BitVec 6) : Bool := m.toNat % 4 != 3 && m.toNat / 4 < 3
/-- R460: type 3 is reserved, mode[5:4] is zero. -/
def quantOk (m : BitVec 6) : Bool := m.toNat % 4 != 3 && m.toNat / 16 == 0
/-- R461: width 3 is reserved and mode[5:2] is zero. -/
def bmOk (m : BitVec 6) : Bool := m.toNat < 3
/-- R462: operation 3 is reserved. -/
def pscanOk (m : BitVec 6) : Bool := m.toNat % 4 != 3

/-- An instruction whose own fields hold no reserved code and no misaligned scalar group. A bare LIT word is well
formed; its place in a chain is not this check's (R315). A device step has no encoding and is well formed. -/
def Instr.wellFormed (i : Instr) : Bool :=
  match i with
  | .cvt _ _ t _ _ r s => cvtOk t r s
  | .xrel _ _ _ _ s => even6 s
  | .xrel3 _ _ _ _ s => even6 s && decide (s.toNat ≤ 58)
  | .ipa _ _ _ _ n => decide (n.toNat ≤ 15)
  | .ipac _ _ _ _ n => decide (n.toNat ≤ 15)
  | .sadd64 _ d a b => even6 d && even6 a && even6 b
  | .ssub64 _ d a b => even6 d && even6 a && even6 b
  | .smovhi _ d _ _ => even6 d
  | .getsr _ d n => getsrOk d n
  | .setsr _ n b => setsrOk n b
  | .bind _ _ a => even6 a
  | .wquery _ d _ => even6 d && decide (d.toNat ≤ 58)
  | .ld _ _ z _ _ _ _ _ => sizeOk z
  | .st _ _ z _ _ _ _ _ => storeSizeOk z
  | .ldg _ _ z _ _ _ _ => sizeOk z
  | .stg _ _ z _ _ _ _ => storeSizeOk z
  | .lds _ _ z _ _ _ _ => sizeOk z
  | .sts _ _ z _ _ _ _ => storeSizeOk z
  | .ldc _ z d a _ => ldcOk z d a
  | .ldt _ _ z _ _ _ => wideSizeOk z
  | .smpPoint _ _ _ _ _ v u => modeOk v u
  | .smpBilinear _ _ _ _ _ v u => modeOk v u
  | .smpTrilinear _ _ _ _ _ v u => modeOk v u
  | .cwb _ d _ => even6 d
  | .cpbulk _ d _ _ => even6 d
  | .cpq _ d _ _ => even6 d
  | .mkcap _ d _ => even6 d
  | .rsend _ _ d _ _ => even6 d && decide (d.toNat ≤ 60)
  | .rsendT _ _ d _ _ => even6 d && decide (d.toNat ≤ 60)
  | .rsendRel _ _ d _ _ => even6 d && decide (d.toNat ≤ 60)
  | .rsendRelT _ _ d _ _ => even6 d && decide (d.toNat ≤ 60)
  | .msend _ _ a _ => even6 a
  | .memitV _ _ _ _ n => decide (n.toNat ≤ 16)
  | .tlbinv _ d a _ => even6 d && even6 a
  | .winv _ d a => even6 d && even6 a
  | .hmask _ _ a _ => quad6 a
  | .evict _ _ _ b => even6 b
  | .brx _ s => even6 s
  | .post _ e a => decide (e.toNat ≠ 3) && even6 a
  | .evpost _ a => quad6 a
  | .mtile _ _ s _ => even6 s
  | .wbld _ d _ => even6 d
  | .had16 _ _ _ _ m => hadOk m
  | .had32 _ _ _ _ m => hadOk m
  | .had64 _ _ _ _ m => hadOk m
  | .absmax _ _ _ _ m => absmaxOk m
  | .quant _ _ _ _ m => quantOk m
  | .bmenc _ _ _ _ m => bmOk m
  | .bmdec _ _ _ _ m => bmOk m
  | .pscan _ _ _ _ m => pscanOk m
  | .nop .. | .lit .. | .iadd .. | .isub .. | .iminS .. | .iminN .. | .imaxS .. | .imaxN .. | .iaddc ..
  | .isubb .. | .iaddScalarB .. | .isubScalarB .. | .iminSScalarB .. | .iminNScalarB .. | .imaxSScalarB ..
  | .imaxNScalarB .. | .iaddcScalarB .. | .isubbScalarB .. | .imul .. | .imulhS .. | .imulhN .. | .imad ..
  | .imadhS .. | .imadhN .. | .iabs .. | .ineg .. | .and .. | .or .. | .xor .. | .andn .. | .orn .. | .popc ..
  | .clz .. | .ctz .. | .andScalarB .. | .orScalarB .. | .xorScalarB .. | .andnScalarB .. | .ornScalarB ..
  | .shl .. | .shr .. | .sar .. | .rotl .. | .bfeN .. | .bfeS .. | .bfi .. | .bperm .. | .icmpEq .. | .icmpNe ..
  | .icmpLtS .. | .icmpLeS .. | .icmpGtS .. | .icmpGeS .. | .icmpLtN .. | .icmpGeN .. | .sel .. | .mov ..
  | .mov64 .. | .movs .. | .vrd .. | .vwr .. | .pmov .. | .pget .. | .iaddi .. | .movi .. | .fadd .. | .fsub ..
  | .fmin .. | .fmax .. | .fabs .. | .fneg .. | .frnd .. | .fract .. | .faddScalarB .. | .fsubScalarB ..
  | .fminScalarB .. | .fmaxScalarB .. | .fmul .. | .fma .. | .fms .. | .fnma .. | .fmulScalarB .. | .fmaScalarB ..
  | .fmsScalarB .. | .fnmaScalarB .. | .fcmpEq .. | .fcmpNe .. | .fcmpLt .. | .fcmpLe .. | .fcmpGt .. | .fcmpGe ..
  | .fcmpUnord .. | .fcmpOrd .. | .haddF16x2 .. | .hmulF16x2 .. | .hfmaF16x2 .. | .haddBf16x2 .. | .hmulBf16x2 ..
  | .hfmaBf16x2 .. | .hminF16x2 .. | .hmaxF16x2 .. | .frcp .. | .frsq .. | .fsqrt .. | .fexp2 .. | .flog2 ..
  | .fsin .. | .fcos .. | .ftanh .. | .dadd .. | .dsub .. | .dmul .. | .dfma .. | .dmin .. | .dmax .. | .drcp ..
  | .dsqrt .. | .cvtnE4m3 .. | .cvtnE4m3Sr .. | .cvtnE5m2 .. | .cvtnE5m2Sr .. | .cvtnE2m1b .. | .cvtnE2m1bSr ..
  | .cvtwE4m3 .. | .cvtwE5m2 .. | .dcmpEq .. | .dcmpLt .. | .dcmpLe .. | .dcmpUnord .. | .shflIdx .. | .shflUp ..
  | .shflDown .. | .shflXor .. | .voteAny .. | .voteAll .. | .voteBallot .. | .qswz .. | .redAddS32 ..
  | .redAddF32 .. | .redMinF32 .. | .redMaxF32 .. | .scanAddS32 .. | .scanAddF32 .. | .redAnd .. | .redOr ..
  | .ddx .. | .ddy .. | .rtravInit .. | .rtravStep .. | .rhit .. | .sadd .. | .ssub .. | .smul .. | .smulh ..
  | .sand .. | .sor .. | .sxor .. | .sandn .. | .sshl .. | .sshr .. | .ssar .. | .smin .. | .smax .. | .smov ..
  | .saddi .. | .sandi .. | .sori .. | .sxori .. | .sshli .. | .sshri .. | .smovi .. | .scmpEq .. | .scmpNe ..
  | .scmpLtS .. | .scmpLeS .. | .scmpLtN .. | .scmpLeN .. | .ssel .. | .setix .. | .addix .. | .getix ..
  | .unbind .. | .atom .. | .atoms .. | .fenceAcq .. | .fenceRel .. | .fenceAr .. | .cinv .. | .pf ..
  | .resfence .. | .cpa .. | .cpseal .. | .cpwait .. | .cpstat .. | .tbinit .. | .tbarrive .. | .tbexpect ..
  | .tbwait .. | .tbtest .. | .rarm .. | .rdisarm .. | .rrevoke .. | .rtest .. | .rtestCount .. | .mring ..
  | .mwait .. | .resset .. | .resclr .. | .resq .. | .memitP .. | .tamp .. | .tload .. | .tstore .. | .tseal ..
  | .gzrd .. | .snap .. | .pgmap .. | .bra .. | .brc .. | .brcn .. | .bru .. | .join .. | .loop .. | .call ..
  | .ret .. | .exit .. | .trap .. | .brk .. | .yield .. | .sleep .. | .bar .. | .barPub .. | .barRealloc ..
  | .barArrive .. | .barWait .. | .lgrow .. | .depdec .. | .depset .. | .mmq .. | .mmqs .. | .mmqg .. | .wbinv ..
  | .wbstat .. | .lztok .. | .powerOn .. | .measureComponent .. | .status .. | .reset .. | .loadimg ..
  | .attest .. | .snapCommand .. | .rdsnap .. | .rdlife .. | .setpkg .. | .killctx .. | .unknownCommand ..
  | .lifetimeFlush .. | .ctxCreate .. | .ctxKill .. | .ctxDestroy .. | .rcbinvWrite .. | .rcbInvalidationDone ..
  | .wtreplayByPage .. | .wtreplayByToken .. | .wtreplayByAsid .. | .dspostWrite .. | .dctrSet ..
  | .dctrDecrement .. | .lcctlCntclr .. | .lcctlTcdis .. | .snapctlClr .. | .thermctlRelease .. | .domswWrite ..
  | .fwWrite .. | .serclkWrite .. | .vobWrite .. | .vrecWrite .. | .gazeWrite .. | .embctlWrite ..
  | .dsctlWrite .. | .nrbaseWrite .. | .deviceRegisterWrite .. | .flitSend .. | .flitReceive .. | .linkRetrain ..
  | .retrainComplete .. | .linkDown .. | .dmaRequest .. | .pcieWindowCompletion .. | .thermalThrottle ..
  | .thermalReset .. | .thermalTokenRestore .. | .faultRecordWrite .. | .cardPostArrival ..
  | .cardStoreEntryFreed .. | .counterUpdate .. | .cardReady .. | .teamPlacement .. | .admholdExpiry ..
  | .drainDeadline .. | .launchRetirement .. | .eventRecord .. | .eventQueueSlotFreed .. | .decompressionJobEnd ..
  | .waitTableRewalk .. | .siblingStop .. | .sibhaltPop .. | .lateFailure .. | .sleepExpiry .. | .tokenHop ..
  | .burstEnd .. | .reallocDecision .. | .llcRequest .. | .nackResend .. | .domainSwitchPhase ..
  | .domainNackResend .. | .remoteScratchAccess .. | .cpaCopyComplete .. | .bulkCopyComplete .. | .wbldComplete ..
  | .xfmReply .. | .mtileStep .. | .sendAtRelay .. | .sendArrival .. | .sendMoved .. | .sendStatusReply ..
  | .messageAtRelay .. | .teamEviction .. | .teamRestore .. | .flueRecordWrite .. | .residencyInvalidation ..
  | .snapTriggerRoot .. | .snapshotLatch .. | .meshRingEntry .. | .cullInstance .. | .primitiveAtBinner ..
  | .primitiveAtOwner .. | .drawEndMarker .. | .primitiveApply .. | .stripStart .. | .sealArrival ..
  | .replacementInstant .. | .replacementNotice .. | .powerLoss .. | .memoryReply .. | .llcMissFill ..
  | .coreReset .. | .retrainingAttemptFailure .. => true

end Sys2Proof
end

