-- ==== Sys2Proof/Decode.lean ====
section
/-! DEFINITION. From words to instructions and back (chapters 13 and 14): total on any word, a word that is no
instruction rejected by name, and the encoder written from the same tables. -/

namespace Sys2Proof

/-- Why a word is no instruction (R322). -/
inductive Reject where
  /-- A major opcode that R151 reserves. -/
  | reservedMajor
  /-- A member code that R332 reserves. -/
  | reservedCode
  /-- A bit or field that must hold a fixed value and does not (R316, R317). -/
  | fixedField
  /-- A field value that the member reserves, or a misaligned scalar group (R322). -/
  | illFormed
  /-- A LIT with no word to extend, or after one that takes none (R315, R336). -/
  | strayLit
  /-- No word is left. -/
  | noWord
deriving DecidableEq, Repr

/-- The number in `len` bits of a word from bit `lo`. -/
def num (w : Word) (lo len : Nat) : Nat := w.toNat / 2 ^ lo % 2 ^ len
/-- A field of a word: `len` bits from bit `lo`. -/
def fld (w : Word) (lo len : Nat) : BitVec len := BitVec.ofNat len (w.toNat / 2 ^ lo)
/-- One bit of a word. -/
def bit (w : Word) (lo : Nat) : Bool := w.toNat / 2 ^ lo % 2 == 1
/-- Field values added up, each at the bit it is paired with. -/
def places : List (Nat × Nat) → Nat
  | [] => 0
  | (v, lo) :: rest => v * 2 ^ lo + places rest

/-- A word with chain bit `c`, major `op` and the other fields in their places (R312). -/
def pack (c : Bool) (op : Nat) (fs : List (Nat × Nat)) : Word :=
  BitVec.ofNat 32 (places ((c.toNat, 31) :: (op, 25) :: fs))

/-- Major 0x01 (R333). -/
def major01 (w : Word) : Except Reject Instr :=
  match num w 21 3 with
  | 0 => .ok (.iadd (bit w 31) (bit w 24) (fld w 14 7) (fld w 7 7) (fld w 0 7))
  | 1 => .ok (.isub (bit w 31) (bit w 24) (fld w 14 7) (fld w 7 7) (fld w 0 7))
  | 2 => .ok (.iminS (bit w 31) (bit w 24) (fld w 14 7) (fld w 7 7) (fld w 0 7))
  | 3 => .ok (.iminN (bit w 31) (bit w 24) (fld w 14 7) (fld w 7 7) (fld w 0 7))
  | 4 => .ok (.imaxS (bit w 31) (bit w 24) (fld w 14 7) (fld w 7 7) (fld w 0 7))
  | 5 => .ok (.imaxN (bit w 31) (bit w 24) (fld w 14 7) (fld w 7 7) (fld w 0 7))
  | 6 => .ok (.iaddc (bit w 31) (bit w 24) (fld w 14 7) (fld w 7 7) (fld w 0 7))
  | 7 => .ok (.isubb (bit w 31) (bit w 24) (fld w 14 7) (fld w 7 7) (fld w 0 7))
  | _ => .error .reservedCode

/-- Major 0x18 (R333). -/
def major18 (w : Word) : Except Reject Instr :=
  match num w 21 3 with
  | 0 => if num w 6 1 = 0 then .ok (.iaddScalarB (bit w 31) (bit w 24) (fld w 14 7) (fld w 7 7) (fld w 0 6)) else .error .fixedField
  | 1 => if num w 6 1 = 0 then .ok (.isubScalarB (bit w 31) (bit w 24) (fld w 14 7) (fld w 7 7) (fld w 0 6)) else .error .fixedField
  | 2 => if num w 6 1 = 0 then .ok (.iminSScalarB (bit w 31) (bit w 24) (fld w 14 7) (fld w 7 7) (fld w 0 6)) else .error .fixedField
  | 3 => if num w 6 1 = 0 then .ok (.iminNScalarB (bit w 31) (bit w 24) (fld w 14 7) (fld w 7 7) (fld w 0 6)) else .error .fixedField
  | 4 => if num w 6 1 = 0 then .ok (.imaxSScalarB (bit w 31) (bit w 24) (fld w 14 7) (fld w 7 7) (fld w 0 6)) else .error .fixedField
  | 5 => if num w 6 1 = 0 then .ok (.imaxNScalarB (bit w 31) (bit w 24) (fld w 14 7) (fld w 7 7) (fld w 0 6)) else .error .fixedField
  | 6 => if num w 6 1 = 0 then .ok (.iaddcScalarB (bit w 31) (bit w 24) (fld w 14 7) (fld w 7 7) (fld w 0 6)) else .error .fixedField
  | 7 => if num w 6 1 = 0 then .ok (.isubbScalarB (bit w 31) (bit w 24) (fld w 14 7) (fld w 7 7) (fld w 0 6)) else .error .fixedField
  | _ => .error .reservedCode

/-- Major 0x02 (R333). -/
def major02 (w : Word) : Except Reject Instr :=
  match num w 21 3 with
  | 0 => .ok (.imul (bit w 31) (bit w 24) (fld w 14 7) (fld w 7 7) (fld w 0 7))
  | 1 => .ok (.imulhS (bit w 31) (bit w 24) (fld w 14 7) (fld w 7 7) (fld w 0 7))
  | 2 => .ok (.imulhN (bit w 31) (bit w 24) (fld w 14 7) (fld w 7 7) (fld w 0 7))
  | 3 => .ok (.imad (bit w 31) (bit w 24) (fld w 14 7) (fld w 7 7) (fld w 0 7))
  | 4 => .ok (.imadhS (bit w 31) (bit w 24) (fld w 14 7) (fld w 7 7) (fld w 0 7))
  | 5 => .ok (.imadhN (bit w 31) (bit w 24) (fld w 14 7) (fld w 7 7) (fld w 0 7))
  | 6 => if num w 0 7 = 0 then .ok (.iabs (bit w 31) (bit w 24) (fld w 14 7) (fld w 7 7)) else .error .fixedField
  | 7 => if num w 0 7 = 0 then .ok (.ineg (bit w 31) (bit w 24) (fld w 14 7) (fld w 7 7)) else .error .fixedField
  | _ => .error .reservedCode

/-- Major 0x03 (R333). -/
def major03 (w : Word) : Except Reject Instr :=
  match num w 21 3 with
  | 0 => .ok (.and (bit w 31) (bit w 24) (fld w 14 7) (fld w 7 7) (fld w 0 7))
  | 1 => .ok (.or (bit w 31) (bit w 24) (fld w 14 7) (fld w 7 7) (fld w 0 7))
  | 2 => .ok (.xor (bit w 31) (bit w 24) (fld w 14 7) (fld w 7 7) (fld w 0 7))
  | 3 => .ok (.andn (bit w 31) (bit w 24) (fld w 14 7) (fld w 7 7) (fld w 0 7))
  | 4 => .ok (.orn (bit w 31) (bit w 24) (fld w 14 7) (fld w 7 7) (fld w 0 7))
  | 5 => if num w 0 7 = 0 then .ok (.popc (bit w 31) (bit w 24) (fld w 14 7) (fld w 7 7)) else .error .fixedField
  | 6 => if num w 0 7 = 0 then .ok (.clz (bit w 31) (bit w 24) (fld w 14 7) (fld w 7 7)) else .error .fixedField
  | 7 => if num w 0 7 = 0 then .ok (.ctz (bit w 31) (bit w 24) (fld w 14 7) (fld w 7 7)) else .error .fixedField
  | _ => .error .reservedCode

/-- Major 0x19 (R333). -/
def major19 (w : Word) : Except Reject Instr :=
  match num w 21 3 with
  | 0 => if num w 6 1 = 0 then .ok (.andScalarB (bit w 31) (bit w 24) (fld w 14 7) (fld w 7 7) (fld w 0 6)) else .error .fixedField
  | 1 => if num w 6 1 = 0 then .ok (.orScalarB (bit w 31) (bit w 24) (fld w 14 7) (fld w 7 7) (fld w 0 6)) else .error .fixedField
  | 2 => if num w 6 1 = 0 then .ok (.xorScalarB (bit w 31) (bit w 24) (fld w 14 7) (fld w 7 7) (fld w 0 6)) else .error .fixedField
  | 3 => if num w 6 1 = 0 then .ok (.andnScalarB (bit w 31) (bit w 24) (fld w 14 7) (fld w 7 7) (fld w 0 6)) else .error .fixedField
  | 4 => if num w 6 1 = 0 then .ok (.ornScalarB (bit w 31) (bit w 24) (fld w 14 7) (fld w 7 7) (fld w 0 6)) else .error .fixedField
  | _ => .error .reservedCode

/-- Major 0x04 (R333). -/
def major04 (w : Word) : Except Reject Instr :=
  match num w 21 3 with
  | 0 => .ok (.shl (bit w 31) (bit w 24) (fld w 14 7) (fld w 7 7) (fld w 0 7))
  | 1 => .ok (.shr (bit w 31) (bit w 24) (fld w 14 7) (fld w 7 7) (fld w 0 7))
  | 2 => .ok (.sar (bit w 31) (bit w 24) (fld w 14 7) (fld w 7 7) (fld w 0 7))
  | 3 => .ok (.rotl (bit w 31) (bit w 24) (fld w 14 7) (fld w 7 7) (fld w 0 7))
  | 4 => .ok (.bfeN (bit w 31) (bit w 24) (fld w 14 7) (fld w 7 7) (fld w 0 7))
  | 5 => .ok (.bfeS (bit w 31) (bit w 24) (fld w 14 7) (fld w 7 7) (fld w 0 7))
  | 6 => .ok (.bfi (bit w 31) (bit w 24) (fld w 14 7) (fld w 7 7) (fld w 0 7))
  | 7 => .ok (.bperm (bit w 31) (bit w 24) (fld w 14 7) (fld w 7 7) (fld w 0 7))
  | _ => .error .reservedCode

/-- Major 0x05 (R333). -/
def major05 (w : Word) : Except Reject Instr :=
  match num w 21 3 with
  | 0 => if num w 17 4 = 0 then .ok (.icmpEq (bit w 31) (bit w 24) (fld w 14 3) (fld w 7 7) (fld w 0 7)) else .error .fixedField
  | 1 => if num w 17 4 = 0 then .ok (.icmpNe (bit w 31) (bit w 24) (fld w 14 3) (fld w 7 7) (fld w 0 7)) else .error .fixedField
  | 2 => if num w 17 4 = 0 then .ok (.icmpLtS (bit w 31) (bit w 24) (fld w 14 3) (fld w 7 7) (fld w 0 7)) else .error .fixedField
  | 3 => if num w 17 4 = 0 then .ok (.icmpLeS (bit w 31) (bit w 24) (fld w 14 3) (fld w 7 7) (fld w 0 7)) else .error .fixedField
  | 4 => if num w 17 4 = 0 then .ok (.icmpGtS (bit w 31) (bit w 24) (fld w 14 3) (fld w 7 7) (fld w 0 7)) else .error .fixedField
  | 5 => if num w 17 4 = 0 then .ok (.icmpGeS (bit w 31) (bit w 24) (fld w 14 3) (fld w 7 7) (fld w 0 7)) else .error .fixedField
  | 6 => if num w 17 4 = 0 then .ok (.icmpLtN (bit w 31) (bit w 24) (fld w 14 3) (fld w 7 7) (fld w 0 7)) else .error .fixedField
  | 7 => if num w 17 4 = 0 then .ok (.icmpGeN (bit w 31) (bit w 24) (fld w 14 3) (fld w 7 7) (fld w 0 7)) else .error .fixedField
  | _ => .error .reservedCode

/-- Major 0x06 (R333). -/
def major06 (w : Word) : Except Reject Instr :=
  .ok (.sel (bit w 31) (bit w 24) (fld w 21 3) (fld w 14 7) (fld w 7 7) (fld w 0 7))

/-- Major 0x07 (R333). -/
def major07 (w : Word) : Except Reject Instr :=
  match num w 21 3 with
  | 0 => if num w 0 7 = 0 then .ok (.mov (bit w 31) (bit w 24) (fld w 14 7) (fld w 7 7)) else .error .fixedField
  | 1 => if num w 0 7 = 0 then .ok (.mov64 (bit w 31) (bit w 24) (fld w 14 7) (fld w 7 7)) else .error .fixedField
  | 2 => if num w 6 8 = 0 then .ok (.movs (bit w 31) (bit w 24) (fld w 14 7) (fld w 0 6)) else .error .fixedField
  | 3 => .ok (.vrd (bit w 31) (bit w 24) (fld w 14 7) (fld w 7 7) (fld w 0 7))
  | 4 => .ok (.vwr (bit w 31) (bit w 24) (fld w 14 7) (fld w 7 7) (fld w 0 7))
  | 5 => if num w 0 7 = 0 ∧ num w 17 4 = 0 then .ok (.pmov (bit w 31) (bit w 24) (fld w 14 3) (fld w 7 7)) else .error .fixedField
  | 6 => if num w 0 7 = 0 ∧ num w 10 4 = 0 then .ok (.pget (bit w 31) (bit w 24) (fld w 14 7) (fld w 7 3)) else .error .fixedField
  | _ => .error .reservedCode

/-- Major 0x08 (R333). -/
def major08 (w : Word) : Except Reject Instr :=
  .ok (.iaddi (bit w 31) (bit w 24) (fld w 17 7) (fld w 10 7) (fld w 0 10) none)

/-- Major 0x09 (R333). -/
def major09 (w : Word) : Except Reject Instr :=
  if num w 10 7 = 0 then .ok (.movi (bit w 31) (bit w 24) (fld w 17 7) (fld w 0 10) none) else .error .fixedField

/-- Major 0x0A (R333). -/
def major0A (w : Word) : Except Reject Instr :=
  match num w 21 3 with
  | 0 => .ok (.fadd (bit w 31) (bit w 24) (fld w 14 7) (fld w 7 7) (fld w 0 7))
  | 1 => .ok (.fsub (bit w 31) (bit w 24) (fld w 14 7) (fld w 7 7) (fld w 0 7))
  | 2 => .ok (.fmin (bit w 31) (bit w 24) (fld w 14 7) (fld w 7 7) (fld w 0 7))
  | 3 => .ok (.fmax (bit w 31) (bit w 24) (fld w 14 7) (fld w 7 7) (fld w 0 7))
  | 4 => if num w 0 7 = 0 then .ok (.fabs (bit w 31) (bit w 24) (fld w 14 7) (fld w 7 7)) else .error .fixedField
  | 5 => if num w 0 7 = 0 then .ok (.fneg (bit w 31) (bit w 24) (fld w 14 7) (fld w 7 7)) else .error .fixedField
  | 6 => if num w 0 7 = 0 then .ok (.frnd (bit w 31) (bit w 24) (fld w 14 7) (fld w 7 7)) else .error .fixedField
  | 7 => if num w 0 7 = 0 then .ok (.fract (bit w 31) (bit w 24) (fld w 14 7) (fld w 7 7)) else .error .fixedField
  | _ => .error .reservedCode

/-- Major 0x1A (R333). -/
def major1A (w : Word) : Except Reject Instr :=
  match num w 21 3 with
  | 0 => if num w 6 1 = 0 then .ok (.faddScalarB (bit w 31) (bit w 24) (fld w 14 7) (fld w 7 7) (fld w 0 6)) else .error .fixedField
  | 1 => if num w 6 1 = 0 then .ok (.fsubScalarB (bit w 31) (bit w 24) (fld w 14 7) (fld w 7 7) (fld w 0 6)) else .error .fixedField
  | 2 => if num w 6 1 = 0 then .ok (.fminScalarB (bit w 31) (bit w 24) (fld w 14 7) (fld w 7 7) (fld w 0 6)) else .error .fixedField
  | 3 => if num w 6 1 = 0 then .ok (.fmaxScalarB (bit w 31) (bit w 24) (fld w 14 7) (fld w 7 7) (fld w 0 6)) else .error .fixedField
  | _ => .error .reservedCode

/-- Major 0x0B (R333). -/
def major0B (w : Word) : Except Reject Instr :=
  match num w 21 3 with
  | 0 => .ok (.fmul (bit w 31) (bit w 24) (fld w 14 7) (fld w 7 7) (fld w 0 7))
  | 1 => .ok (.fma (bit w 31) (bit w 24) (fld w 14 7) (fld w 7 7) (fld w 0 7))
  | 2 => .ok (.fms (bit w 31) (bit w 24) (fld w 14 7) (fld w 7 7) (fld w 0 7))
  | 3 => .ok (.fnma (bit w 31) (bit w 24) (fld w 14 7) (fld w 7 7) (fld w 0 7))
  | _ => .error .reservedCode

/-- Major 0x1B (R333). -/
def major1B (w : Word) : Except Reject Instr :=
  match num w 21 3 with
  | 0 => if num w 6 1 = 0 then .ok (.fmulScalarB (bit w 31) (bit w 24) (fld w 14 7) (fld w 7 7) (fld w 0 6)) else .error .fixedField
  | 1 => if num w 6 1 = 0 then .ok (.fmaScalarB (bit w 31) (bit w 24) (fld w 14 7) (fld w 7 7) (fld w 0 6)) else .error .fixedField
  | 2 => if num w 6 1 = 0 then .ok (.fmsScalarB (bit w 31) (bit w 24) (fld w 14 7) (fld w 7 7) (fld w 0 6)) else .error .fixedField
  | 3 => if num w 6 1 = 0 then .ok (.fnmaScalarB (bit w 31) (bit w 24) (fld w 14 7) (fld w 7 7) (fld w 0 6)) else .error .fixedField
  | _ => .error .reservedCode

/-- Major 0x0C (R333). -/
def major0C (w : Word) : Except Reject Instr :=
  match num w 21 3 with
  | 0 => if num w 17 4 = 0 then .ok (.fcmpEq (bit w 31) (bit w 24) (fld w 14 3) (fld w 7 7) (fld w 0 7)) else .error .fixedField
  | 1 => if num w 17 4 = 0 then .ok (.fcmpNe (bit w 31) (bit w 24) (fld w 14 3) (fld w 7 7) (fld w 0 7)) else .error .fixedField
  | 2 => if num w 17 4 = 0 then .ok (.fcmpLt (bit w 31) (bit w 24) (fld w 14 3) (fld w 7 7) (fld w 0 7)) else .error .fixedField
  | 3 => if num w 17 4 = 0 then .ok (.fcmpLe (bit w 31) (bit w 24) (fld w 14 3) (fld w 7 7) (fld w 0 7)) else .error .fixedField
  | 4 => if num w 17 4 = 0 then .ok (.fcmpGt (bit w 31) (bit w 24) (fld w 14 3) (fld w 7 7) (fld w 0 7)) else .error .fixedField
  | 5 => if num w 17 4 = 0 then .ok (.fcmpGe (bit w 31) (bit w 24) (fld w 14 3) (fld w 7 7) (fld w 0 7)) else .error .fixedField
  | 6 => if num w 17 4 = 0 then .ok (.fcmpUnord (bit w 31) (bit w 24) (fld w 14 3) (fld w 7 7) (fld w 0 7)) else .error .fixedField
  | 7 => if num w 17 4 = 0 then .ok (.fcmpOrd (bit w 31) (bit w 24) (fld w 14 3) (fld w 7 7) (fld w 0 7)) else .error .fixedField
  | _ => .error .reservedCode

/-- Major 0x0D (R333). -/
def major0D (w : Word) : Except Reject Instr :=
  match num w 21 3 with
  | 0 => .ok (.haddF16x2 (bit w 31) (bit w 24) (fld w 14 7) (fld w 7 7) (fld w 0 7))
  | 1 => .ok (.hmulF16x2 (bit w 31) (bit w 24) (fld w 14 7) (fld w 7 7) (fld w 0 7))
  | 2 => .ok (.hfmaF16x2 (bit w 31) (bit w 24) (fld w 14 7) (fld w 7 7) (fld w 0 7))
  | 3 => .ok (.haddBf16x2 (bit w 31) (bit w 24) (fld w 14 7) (fld w 7 7) (fld w 0 7))
  | 4 => .ok (.hmulBf16x2 (bit w 31) (bit w 24) (fld w 14 7) (fld w 7 7) (fld w 0 7))
  | 5 => .ok (.hfmaBf16x2 (bit w 31) (bit w 24) (fld w 14 7) (fld w 7 7) (fld w 0 7))
  | 6 => .ok (.hminF16x2 (bit w 31) (bit w 24) (fld w 14 7) (fld w 7 7) (fld w 0 7))
  | 7 => .ok (.hmaxF16x2 (bit w 31) (bit w 24) (fld w 14 7) (fld w 7 7) (fld w 0 7))
  | _ => .error .reservedCode

/-- Major 0x0E (R333). -/
def major0E (w : Word) : Except Reject Instr :=
  match num w 21 3 with
  | 0 => if num w 0 7 = 0 then .ok (.frcp (bit w 31) (bit w 24) (fld w 14 7) (fld w 7 7)) else .error .fixedField
  | 1 => if num w 0 7 = 0 then .ok (.frsq (bit w 31) (bit w 24) (fld w 14 7) (fld w 7 7)) else .error .fixedField
  | 2 => if num w 0 7 = 0 then .ok (.fsqrt (bit w 31) (bit w 24) (fld w 14 7) (fld w 7 7)) else .error .fixedField
  | 3 => if num w 0 7 = 0 then .ok (.fexp2 (bit w 31) (bit w 24) (fld w 14 7) (fld w 7 7)) else .error .fixedField
  | 4 => if num w 0 7 = 0 then .ok (.flog2 (bit w 31) (bit w 24) (fld w 14 7) (fld w 7 7)) else .error .fixedField
  | 5 => if num w 0 7 = 0 then .ok (.fsin (bit w 31) (bit w 24) (fld w 14 7) (fld w 7 7)) else .error .fixedField
  | 6 => if num w 0 7 = 0 then .ok (.fcos (bit w 31) (bit w 24) (fld w 14 7) (fld w 7 7)) else .error .fixedField
  | 7 => if num w 0 7 = 0 then .ok (.ftanh (bit w 31) (bit w 24) (fld w 14 7) (fld w 7 7)) else .error .fixedField
  | _ => .error .reservedCode

/-- Major 0x0F (R333). -/
def major0F (w : Word) : Except Reject Instr :=
  match num w 21 3 with
  | 0 => .ok (.dadd (bit w 31) (bit w 24) (fld w 14 7) (fld w 7 7) (fld w 0 7))
  | 1 => .ok (.dsub (bit w 31) (bit w 24) (fld w 14 7) (fld w 7 7) (fld w 0 7))
  | 2 => .ok (.dmul (bit w 31) (bit w 24) (fld w 14 7) (fld w 7 7) (fld w 0 7))
  | 3 => .ok (.dfma (bit w 31) (bit w 24) (fld w 14 7) (fld w 7 7) (fld w 0 7))
  | 4 => .ok (.dmin (bit w 31) (bit w 24) (fld w 14 7) (fld w 7 7) (fld w 0 7))
  | 5 => .ok (.dmax (bit w 31) (bit w 24) (fld w 14 7) (fld w 7 7) (fld w 0 7))
  | 6 => if num w 0 7 = 0 then .ok (.drcp (bit w 31) (bit w 24) (fld w 14 7) (fld w 7 7)) else .error .fixedField
  | 7 => if num w 0 7 = 0 then .ok (.dsqrt (bit w 31) (bit w 24) (fld w 14 7) (fld w 7 7)) else .error .fixedField
  | _ => .error .reservedCode

/-- Major 0x10 (R333). -/
def major10 (w : Word) : Except Reject Instr :=
  if num w 6 1 = 0 then .ok (.cvt (bit w 31) (bit w 24) (fld w 21 3) (fld w 14 7) (fld w 7 7) (fld w 3 3) (fld w 0 3)) else .error .fixedField

/-- Major 0x11 (R333). -/
def major11 (w : Word) : Except Reject Instr :=
  match num w 21 3 with
  | 0 => if num w 0 7 = 0 then .ok (.cvtnE4m3 (bit w 31) (bit w 24) (fld w 14 7) (fld w 7 7)) else .error .fixedField
  | 1 => if num w 0 7 = 0 then .ok (.cvtnE4m3Sr (bit w 31) (bit w 24) (fld w 14 7) (fld w 7 7)) else .error .fixedField
  | 2 => if num w 0 7 = 0 then .ok (.cvtnE5m2 (bit w 31) (bit w 24) (fld w 14 7) (fld w 7 7)) else .error .fixedField
  | 3 => if num w 0 7 = 0 then .ok (.cvtnE5m2Sr (bit w 31) (bit w 24) (fld w 14 7) (fld w 7 7)) else .error .fixedField
  | 4 => .ok (.cvtnE2m1b (bit w 31) (bit w 24) (fld w 14 7) (fld w 7 7) (fld w 0 7))
  | 5 => .ok (.cvtnE2m1bSr (bit w 31) (bit w 24) (fld w 14 7) (fld w 7 7) (fld w 0 7))
  | 6 => if num w 0 7 = 0 then .ok (.cvtwE4m3 (bit w 31) (bit w 24) (fld w 14 7) (fld w 7 7)) else .error .fixedField
  | 7 => if num w 0 7 = 0 then .ok (.cvtwE5m2 (bit w 31) (bit w 24) (fld w 14 7) (fld w 7 7)) else .error .fixedField
  | _ => .error .reservedCode

/-- Major 0x12 (R333). -/
def major12 (w : Word) : Except Reject Instr :=
  match num w 21 3 with
  | 0 => if num w 6 1 = 0 then .ok (.xrel (bit w 31) (bit w 24) (fld w 14 7) (fld w 7 7) (fld w 0 6)) else .error .fixedField
  | 1 => if num w 6 1 = 0 then .ok (.xrel3 (bit w 31) (bit w 24) (fld w 14 7) (fld w 7 7) (fld w 0 6)) else .error .fixedField
  | 2 => if num w 17 4 = 0 then .ok (.dcmpEq (bit w 31) (bit w 24) (fld w 14 3) (fld w 7 7) (fld w 0 7)) else .error .fixedField
  | 3 => if num w 17 4 = 0 then .ok (.dcmpLt (bit w 31) (bit w 24) (fld w 14 3) (fld w 7 7) (fld w 0 7)) else .error .fixedField
  | 4 => if num w 17 4 = 0 then .ok (.dcmpLe (bit w 31) (bit w 24) (fld w 14 3) (fld w 7 7) (fld w 0 7)) else .error .fixedField
  | 5 => if num w 17 4 = 0 then .ok (.dcmpUnord (bit w 31) (bit w 24) (fld w 14 3) (fld w 7 7) (fld w 0 7)) else .error .fixedField
  | _ => .error .reservedCode

/-- Major 0x13 (R333). -/
def major13 (w : Word) : Except Reject Instr :=
  match num w 21 3 with
  | 0 => .ok (.shflIdx (bit w 31) (bit w 24) (fld w 14 7) (fld w 7 7) (fld w 0 7))
  | 1 => .ok (.shflUp (bit w 31) (bit w 24) (fld w 14 7) (fld w 7 7) (fld w 0 7))
  | 2 => .ok (.shflDown (bit w 31) (bit w 24) (fld w 14 7) (fld w 7 7) (fld w 0 7))
  | 3 => .ok (.shflXor (bit w 31) (bit w 24) (fld w 14 7) (fld w 7 7) (fld w 0 7))
  | 4 => if num w 0 7 = 0 ∧ num w 10 4 = 0 then .ok (.voteAny (bit w 31) (bit w 24) (fld w 14 7) (fld w 7 3)) else .error .fixedField
  | 5 => if num w 0 7 = 0 ∧ num w 10 4 = 0 then .ok (.voteAll (bit w 31) (bit w 24) (fld w 14 7) (fld w 7 3)) else .error .fixedField
  | 6 => if num w 0 7 = 0 ∧ num w 10 4 = 0 then .ok (.voteBallot (bit w 31) (bit w 24) (fld w 14 7) (fld w 7 3)) else .error .fixedField
  | 7 => if num w 2 5 = 0 then .ok (.qswz (bit w 31) (bit w 24) (fld w 14 7) (fld w 7 7) (fld w 0 2)) else .error .fixedField
  | _ => .error .reservedCode

/-- Major 0x14 (R333). -/
def major14 (w : Word) : Except Reject Instr :=
  match num w 21 3 with
  | 0 => if num w 0 7 = 0 then .ok (.redAddS32 (bit w 31) (bit w 24) (fld w 14 7) (fld w 7 7)) else .error .fixedField
  | 1 => if num w 0 7 = 0 then .ok (.redAddF32 (bit w 31) (bit w 24) (fld w 14 7) (fld w 7 7)) else .error .fixedField
  | 2 => if num w 0 7 = 0 then .ok (.redMinF32 (bit w 31) (bit w 24) (fld w 14 7) (fld w 7 7)) else .error .fixedField
  | 3 => if num w 0 7 = 0 then .ok (.redMaxF32 (bit w 31) (bit w 24) (fld w 14 7) (fld w 7 7)) else .error .fixedField
  | 4 => if num w 0 7 = 0 then .ok (.scanAddS32 (bit w 31) (bit w 24) (fld w 14 7) (fld w 7 7)) else .error .fixedField
  | 5 => if num w 0 7 = 0 then .ok (.scanAddF32 (bit w 31) (bit w 24) (fld w 14 7) (fld w 7 7)) else .error .fixedField
  | 6 => if num w 0 7 = 0 then .ok (.redAnd (bit w 31) (bit w 24) (fld w 14 7) (fld w 7 7)) else .error .fixedField
  | 7 => if num w 0 7 = 0 then .ok (.redOr (bit w 31) (bit w 24) (fld w 14 7) (fld w 7 7)) else .error .fixedField
  | _ => .error .reservedCode

/-- Major 0x15 (R333). -/
def major15 (w : Word) : Except Reject Instr :=
  match num w 21 3 with
  | 0 => .ok (.ddx (bit w 31) (bit w 24) (fld w 14 7) (fld w 7 7) (fld w 0 7))
  | 1 => .ok (.ddy (bit w 31) (bit w 24) (fld w 14 7) (fld w 7 7) (fld w 0 7))
  | 2 => .ok (.ipa (bit w 31) (bit w 24) (fld w 14 7) (fld w 7 7) (fld w 0 7))
  | 3 => .ok (.ipac (bit w 31) (bit w 24) (fld w 14 7) (fld w 7 7) (fld w 0 7))
  | _ => .error .reservedCode

/-- Major 0x16 (R333). -/
def major16 (w : Word) : Except Reject Instr :=
  match num w 21 3 with
  | 0 => .ok (.rtravInit (bit w 31) (bit w 24) (fld w 14 7) (fld w 7 7) (fld w 0 7))
  | 1 => if num w 0 14 = 0 then .ok (.rtravStep (bit w 31) (bit w 24) (fld w 14 7)) else .error .fixedField
  | 2 => if num w 0 14 = 0 then .ok (.rhit (bit w 31) (bit w 24) (fld w 14 7)) else .error .fixedField
  | _ => .error .reservedCode

/-- Major 0x20 (R334). -/
def major20 (w : Word) : Except Reject Instr :=
  match num w 21 4 with
  | 0 => if num w 0 3 = 0 then .ok (.sadd (bit w 31) (fld w 15 6) (fld w 9 6) (fld w 3 6)) else .error .fixedField
  | 1 => if num w 0 3 = 0 then .ok (.ssub (bit w 31) (fld w 15 6) (fld w 9 6) (fld w 3 6)) else .error .fixedField
  | 2 => if num w 0 3 = 0 then .ok (.smul (bit w 31) (fld w 15 6) (fld w 9 6) (fld w 3 6)) else .error .fixedField
  | 3 => if num w 0 3 = 0 then .ok (.smulh (bit w 31) (fld w 15 6) (fld w 9 6) (fld w 3 6)) else .error .fixedField
  | 4 => if num w 0 3 = 0 then .ok (.sand (bit w 31) (fld w 15 6) (fld w 9 6) (fld w 3 6)) else .error .fixedField
  | 5 => if num w 0 3 = 0 then .ok (.sor (bit w 31) (fld w 15 6) (fld w 9 6) (fld w 3 6)) else .error .fixedField
  | 6 => if num w 0 3 = 0 then .ok (.sxor (bit w 31) (fld w 15 6) (fld w 9 6) (fld w 3 6)) else .error .fixedField
  | 7 => if num w 0 3 = 0 then .ok (.sandn (bit w 31) (fld w 15 6) (fld w 9 6) (fld w 3 6)) else .error .fixedField
  | 8 => if num w 0 3 = 0 then .ok (.sshl (bit w 31) (fld w 15 6) (fld w 9 6) (fld w 3 6)) else .error .fixedField
  | 9 => if num w 0 3 = 0 then .ok (.sshr (bit w 31) (fld w 15 6) (fld w 9 6) (fld w 3 6)) else .error .fixedField
  | 10 => if num w 0 3 = 0 then .ok (.ssar (bit w 31) (fld w 15 6) (fld w 9 6) (fld w 3 6)) else .error .fixedField
  | 11 => if num w 0 3 = 0 then .ok (.smin (bit w 31) (fld w 15 6) (fld w 9 6) (fld w 3 6)) else .error .fixedField
  | 12 => if num w 0 3 = 0 then .ok (.smax (bit w 31) (fld w 15 6) (fld w 9 6) (fld w 3 6)) else .error .fixedField
  | 13 => if num w 0 9 = 0 then .ok (.smov (bit w 31) (fld w 15 6) (fld w 9 6)) else .error .fixedField
  | 14 => if num w 0 3 = 0 then .ok (.sadd64 (bit w 31) (fld w 15 6) (fld w 9 6) (fld w 3 6)) else .error .fixedField
  | 15 => if num w 0 3 = 0 then .ok (.ssub64 (bit w 31) (fld w 15 6) (fld w 9 6) (fld w 3 6)) else .error .fixedField
  | _ => .error .reservedCode

/-- Major 0x21 (R334). -/
def major21 (w : Word) : Except Reject Instr :=
  match num w 21 4 with
  | 0 => .ok (.saddi (bit w 31) (fld w 15 6) (fld w 0 15) none)
  | 1 => .ok (.sandi (bit w 31) (fld w 15 6) (fld w 0 15) none)
  | 2 => .ok (.sori (bit w 31) (fld w 15 6) (fld w 0 15) none)
  | 3 => .ok (.sxori (bit w 31) (fld w 15 6) (fld w 0 15) none)
  | 4 => .ok (.sshli (bit w 31) (fld w 15 6) (fld w 0 15) none)
  | 5 => .ok (.sshri (bit w 31) (fld w 15 6) (fld w 0 15) none)
  | 6 => .ok (.smovi (bit w 31) (fld w 15 6) (fld w 0 15) none)
  | 7 => .ok (.smovhi (bit w 31) (fld w 15 6) (fld w 0 15) none)
  | _ => .error .reservedCode

/-- Major 0x22 (R334). -/
def major22 (w : Word) : Except Reject Instr :=
  match num w 21 4 with
  | 0 => if num w 0 3 = 0 ∧ num w 18 3 = 0 then .ok (.scmpEq (bit w 31) (fld w 15 3) (fld w 9 6) (fld w 3 6)) else .error .fixedField
  | 1 => if num w 0 3 = 0 ∧ num w 18 3 = 0 then .ok (.scmpNe (bit w 31) (fld w 15 3) (fld w 9 6) (fld w 3 6)) else .error .fixedField
  | 2 => if num w 0 3 = 0 ∧ num w 18 3 = 0 then .ok (.scmpLtS (bit w 31) (fld w 15 3) (fld w 9 6) (fld w 3 6)) else .error .fixedField
  | 3 => if num w 0 3 = 0 ∧ num w 18 3 = 0 then .ok (.scmpLeS (bit w 31) (fld w 15 3) (fld w 9 6) (fld w 3 6)) else .error .fixedField
  | 4 => if num w 0 3 = 0 ∧ num w 18 3 = 0 then .ok (.scmpLtN (bit w 31) (fld w 15 3) (fld w 9 6) (fld w 3 6)) else .error .fixedField
  | 5 => if num w 0 3 = 0 ∧ num w 18 3 = 0 then .ok (.scmpLeN (bit w 31) (fld w 15 3) (fld w 9 6) (fld w 3 6)) else .error .fixedField
  | 6 => if num w 0 3 = 0 then .ok (.ssel (bit w 31) (fld w 15 6) (fld w 9 6) (fld w 3 6)) else .error .fixedField
  | _ => .error .reservedCode

/-- Major 0x23 (R334). -/
def major23 (w : Word) : Except Reject Instr :=
  match num w 21 4 with
  | 0 => if num w 0 9 = 0 then .ok (.getsr (bit w 31) (fld w 15 6) (fld w 9 6)) else .error .fixedField
  | 1 => if num w 0 3 = 0 ∧ num w 15 6 = 0 then .ok (.setsr (bit w 31) (fld w 9 6) (fld w 3 6)) else .error .fixedField
  | 2 => if num w 0 9 = 0 ∧ num w 15 6 = 0 then .ok (.setix (bit w 31) (fld w 9 6)) else .error .fixedField
  | 3 => if num w 0 9 = 0 ∧ num w 15 6 = 0 then .ok (.addix (bit w 31) (fld w 9 6)) else .error .fixedField
  | 4 => if num w 0 15 = 0 then .ok (.getix (bit w 31) (fld w 15 6)) else .error .fixedField
  | _ => .error .reservedCode

/-- Major 0x24 (R334). -/
def major24 (w : Word) : Except Reject Instr :=
  match num w 21 4 with
  | 0 => if num w 0 9 = 0 ∧ num w 18 3 = 0 then .ok (.bind (bit w 31) (fld w 15 3) (fld w 9 6)) else .error .fixedField
  | 1 => if num w 0 15 = 0 ∧ num w 18 3 = 0 then .ok (.unbind (bit w 31) (fld w 15 3)) else .error .fixedField
  | 2 => if num w 0 9 = 0 ∧ num w 12 3 = 0 then .ok (.wquery (bit w 31) (fld w 15 6) (fld w 9 3)) else .error .fixedField
  | _ => .error .reservedCode

/-- Major 0x25 (R334). -/
def major25 (w : Word) : Except Reject Instr :=
  .ok (.ld (bit w 31) (bit w 24) (fld w 21 3) (fld w 14 7) (fld w 7 7) (fld w 4 3) (fld w 0 4) none)

/-- Major 0x26 (R334). -/
def major26 (w : Word) : Except Reject Instr :=
  .ok (.st (bit w 31) (bit w 24) (fld w 21 3) (fld w 14 7) (fld w 7 7) (fld w 4 3) (fld w 0 4) none)

/-- Major 0x27 (R334). -/
def major27 (w : Word) : Except Reject Instr :=
  match num w 4 3 with
  | 0 => .ok (.ldg (bit w 31) (bit w 24) (fld w 21 3) (fld w 14 7) (fld w 7 7) (fld w 0 4) none)
  | 1 => .ok (.stg (bit w 31) (bit w 24) (fld w 21 3) (fld w 14 7) (fld w 7 7) (fld w 0 4) none)
  | _ => .error .reservedCode

/-- Major 0x28 (R334). -/
def major28 (w : Word) : Except Reject Instr :=
  match num w 4 3 with
  | 0 => .ok (.lds (bit w 31) (bit w 24) (fld w 21 3) (fld w 14 7) (fld w 7 7) (fld w 0 4) none)
  | 1 => .ok (.sts (bit w 31) (bit w 24) (fld w 21 3) (fld w 14 7) (fld w 7 7) (fld w 0 4) none)
  | _ => .error .reservedCode

/-- Major 0x29 (R334). -/
def major29 (w : Word) : Except Reject Instr :=
  if num w 0 3 = 0 then .ok (.ldc (bit w 31) (fld w 21 4) (fld w 15 6) (fld w 9 6) (fld w 3 6)) else .error .fixedField

/-- Major 0x2A (R334). -/
def major2A (w : Word) : Except Reject Instr :=
  .ok (.atom (bit w 31) (bit w 24) (fld w 20 4) (fld w 13 7) (fld w 6 7) (fld w 3 3) (fld w 1 2) (fld w 0 1))

/-- Major 0x2B (R334). -/
def major2B (w : Word) : Except Reject Instr :=
  if num w 3 3 = 0 then .ok (.atoms (bit w 31) (bit w 24) (fld w 20 4) (fld w 13 7) (fld w 6 7) (fld w 1 2) (fld w 0 1)) else .error .fixedField

/-- Major 0x2C (R334). -/
def major2C (w : Word) : Except Reject Instr :=
  if num w 0 4 = 0 then .ok (.ldt (bit w 31) (bit w 24) (fld w 21 3) (fld w 14 7) (fld w 7 7) (fld w 4 3)) else .error .fixedField

/-- Major 0x2D (R334). -/
def major2D (w : Word) : Except Reject Instr :=
  match num w 21 3 with
  | 0 => .ok (.smpPoint (bit w 31) (bit w 24) (fld w 14 7) (fld w 7 7) (fld w 4 3) (fld w 2 2) (fld w 0 2))
  | 1 => .ok (.smpBilinear (bit w 31) (bit w 24) (fld w 14 7) (fld w 7 7) (fld w 4 3) (fld w 2 2) (fld w 0 2))
  | 2 => .ok (.smpTrilinear (bit w 31) (bit w 24) (fld w 14 7) (fld w 7 7) (fld w 4 3) (fld w 2 2) (fld w 0 2))
  | _ => .error .reservedCode

/-- Major 0x2E (R334). -/
def major2E (w : Word) : Except Reject Instr :=
  match num w 20 4 with
  | 0 => if num w 0 1 = 0 ∧ num w 3 17 = 0 ∧ num w 24 1 = 0 then .ok (.fenceAcq (bit w 31) (fld w 1 2)) else .error .fixedField
  | 1 => if num w 0 1 = 0 ∧ num w 3 17 = 0 ∧ num w 24 1 = 0 then .ok (.fenceRel (bit w 31) (fld w 1 2)) else .error .fixedField
  | 2 => if num w 0 1 = 0 ∧ num w 3 17 = 0 ∧ num w 24 1 = 0 then .ok (.fenceAr (bit w 31) (fld w 1 2)) else .error .fixedField
  | 3 => if num w 0 20 = 0 ∧ num w 24 1 = 0 then .ok (.cinv (bit w 31)) else .error .fixedField
  | 4 => if num w 0 6 = 0 ∧ num w 12 1 = 0 ∧ num w 19 1 = 0 ∧ num w 24 1 = 0 then .ok (.cwb (bit w 31) (fld w 13 6) (fld w 6 6)) else .error .fixedField
  | 5 => if num w 0 3 = 0 ∧ num w 13 7 = 0 then .ok (.pf (bit w 31) (bit w 24) (fld w 6 7) (fld w 3 3)) else .error .fixedField
  | 6 => if num w 0 20 = 0 ∧ num w 24 1 = 0 then .ok (.resfence (bit w 31)) else .error .fixedField
  | _ => .error .reservedCode

/-- Major 0x2F (R334). -/
def major2F (w : Word) : Except Reject Instr :=
  match num w 20 4 with
  | 0 => .ok (.cpa (bit w 31) (bit w 24) (fld w 13 7) (fld w 6 7) (fld w 3 3) (fld w 1 2) (fld w 0 1))
  | 1 => if num w 0 20 = 0 ∧ num w 24 1 = 0 then .ok (.cpseal (bit w 31)) else .error .fixedField
  | 2 => if num w 0 1 = 0 ∧ num w 3 17 = 0 ∧ num w 24 1 = 0 then .ok (.cpwait (bit w 31) (fld w 1 2)) else .error .fixedField
  | 3 => if num w 0 13 = 0 ∧ num w 19 1 = 0 ∧ num w 24 1 = 0 then .ok (.cpstat (bit w 31) (fld w 13 6)) else .error .fixedField
  | _ => .error .reservedCode

/-- Major 0x30 (R334). -/
def major30 (w : Word) : Except Reject Instr :=
  match num w 21 4 with
  | 0 => if num w 0 3 = 0 then .ok (.cpbulk (bit w 31) (fld w 15 6) (fld w 9 6) (fld w 3 6)) else .error .fixedField
  | 1 => if num w 0 3 = 0 then .ok (.cpq (bit w 31) (fld w 15 6) (fld w 9 6) (fld w 3 6)) else .error .fixedField
  | _ => .error .reservedCode

/-- Major 0x31 (R334). -/
def major31 (w : Word) : Except Reject Instr :=
  match num w 21 4 with
  | 0 => if num w 0 3 = 0 ∧ num w 15 6 = 0 then .ok (.tbinit (bit w 31) (fld w 9 6) (fld w 3 6)) else .error .fixedField
  | 1 => if num w 0 3 = 0 ∧ num w 15 6 = 0 then .ok (.tbarrive (bit w 31) (fld w 9 6) (fld w 3 6)) else .error .fixedField
  | 2 => if num w 0 3 = 0 ∧ num w 15 6 = 0 then .ok (.tbexpect (bit w 31) (fld w 9 6) (fld w 3 6)) else .error .fixedField
  | 3 => if num w 0 3 = 0 ∧ num w 15 6 = 0 then .ok (.tbwait (bit w 31) (fld w 9 6) (fld w 3 6)) else .error .fixedField
  | 4 => if num w 0 3 = 0 then .ok (.tbtest (bit w 31) (fld w 15 6) (fld w 9 6) (fld w 3 6)) else .error .fixedField
  | _ => .error .reservedCode

/-- Major 0x32 (R334). -/
def major32 (w : Word) : Except Reject Instr :=
  match num w 20 4 with
  | 0 => if num w 0 3 = 0 ∧ num w 13 7 = 0 then .ok (.rarm (bit w 31) (bit w 24) (fld w 6 7) (fld w 3 3)) else .error .fixedField
  | 1 => if num w 0 3 = 0 ∧ num w 13 7 = 0 then .ok (.rdisarm (bit w 31) (bit w 24) (fld w 6 7) (fld w 3 3)) else .error .fixedField
  | 2 => if num w 0 6 = 0 ∧ num w 12 1 = 0 ∧ num w 19 1 = 0 ∧ num w 24 1 = 0 then .ok (.mkcap (bit w 31) (fld w 13 6) (fld w 6 6)) else .error .fixedField
  | 3 =>
    if num w 0 1 = 0 then (if num w 19 1 = 0 then .ok (.rsend (bit w 31) (bit w 24) (fld w 13 6) (fld w 6 7) (fld w 1 5)) else .error .fixedField)
    else (if num w 19 1 = 0 then .ok (.rsendT (bit w 31) (bit w 24) (fld w 13 6) (fld w 6 7) (fld w 1 5)) else .error .fixedField)
  | 4 =>
    if num w 0 1 = 0 then (if num w 19 1 = 0 then .ok (.rsendRel (bit w 31) (bit w 24) (fld w 13 6) (fld w 6 7) (fld w 1 5)) else .error .fixedField)
    else (if num w 19 1 = 0 then .ok (.rsendRelT (bit w 31) (bit w 24) (fld w 13 6) (fld w 6 7) (fld w 1 5)) else .error .fixedField)
  | 5 => if num w 0 13 = 0 ∧ num w 19 1 = 0 ∧ num w 24 1 = 0 then .ok (.rrevoke (bit w 31) (fld w 13 6)) else .error .fixedField
  | 6 =>
    if num w 0 1 = 0 then (if num w 1 5 = 0 ∧ num w 19 1 = 0 then .ok (.rtest (bit w 31) (bit w 24) (fld w 13 6) (fld w 6 7)) else .error .fixedField)
    else (if num w 1 12 = 0 ∧ num w 19 1 = 0 ∧ num w 24 1 = 0 then .ok (.rtestCount (bit w 31) (fld w 13 6)) else .error .fixedField)
  | _ => .error .reservedCode

/-- Major 0x33 (R334). -/
def major33 (w : Word) : Except Reject Instr :=
  match num w 21 4 with
  | 0 => if num w 0 3 = 0 ∧ num w 18 3 = 0 then .ok (.mring (bit w 31) (fld w 15 3) (fld w 9 6) (fld w 3 6)) else .error .fixedField
  | 1 => if num w 0 3 = 0 then .ok (.msend (bit w 31) (fld w 15 6) (fld w 9 6) (fld w 3 6)) else .error .fixedField
  | 2 => if num w 0 9 = 0 ∧ num w 12 3 = 0 then .ok (.mwait (bit w 31) (fld w 15 6) (fld w 9 3)) else .error .fixedField
  | _ => .error .reservedCode

/-- Major 0x34 (R334). -/
def major34 (w : Word) : Except Reject Instr :=
  match num w 20 4 with
  | 0 => if num w 0 3 = 0 ∧ num w 13 7 = 0 then .ok (.resset (bit w 31) (bit w 24) (fld w 6 7) (fld w 3 3)) else .error .fixedField
  | 1 => if num w 0 3 = 0 ∧ num w 13 7 = 0 then .ok (.resclr (bit w 31) (bit w 24) (fld w 6 7) (fld w 3 3)) else .error .fixedField
  | 2 => if num w 1 2 = 0 then .ok (.resq (bit w 31) (bit w 24) (fld w 13 7) (fld w 6 7) (fld w 3 3) (fld w 0 1)) else .error .fixedField
  | _ => .error .reservedCode

/-- Major 0x35 (R334). -/
noncomputable def major35 (w : Word) : Except Reject Instr :=
  match num w 21 3 with
  | 0 => .ok (.memitV (bit w 31) (bit w 24) (fld w 14 7) (fld w 7 7) (fld w 0 7))
  | 1 => if num w 0 7 = 0 then .ok (.memitP (bit w 31) (bit w 24) (fld w 14 7) (fld w 7 7)) else .error .fixedField
  | 2 => .ok (.tamp (bit w 31) (bit w 24) (fld w 14 7) (fld w 7 7) (fld w 0 7))
  | 3 => if num w 0 7 = 0 then .ok (.tload (bit w 31) (bit w 24) (fld w 14 7) (fld w 7 7)) else .error .fixedField
  | 4 => if num w 0 7 = 0 then .ok (.tstore (bit w 31) (bit w 24) (fld w 14 7) (fld w 7 7)) else .error .fixedField
  | 5 => if num w 0 21 = 0 ∧ num w 24 1 = 0 then .ok (.tseal (bit w 31)) else .error .fixedField
  | 6 => if num w 0 7 = 0 then .ok (.gzrd (bit w 31) (bit w 24) (fld w 14 7) (fld w 7 7)) else .error .fixedField
  | _ => .error .reservedCode

/-- Major 0x36 (R334). -/
noncomputable def major36 (w : Word) : Except Reject Instr :=
  match num w 21 4 with
  | 0 => if num w 0 3 = 0 then .ok (.tlbinv (bit w 31) (fld w 15 6) (fld w 9 6) (fld w 3 6)) else .error .fixedField
  | 1 => if num w 0 9 = 0 then .ok (.winv (bit w 31) (fld w 15 6) (fld w 9 6)) else .error .fixedField
  | 2 => if num w 0 3 = 0 ∧ num w 19 2 = 0 then .ok (.hmask (bit w 31) (fld w 15 4) (fld w 9 6) (fld w 3 6)) else .error .fixedField
  | 3 => if num w 0 3 = 0 then .ok (.evict (bit w 31) (fld w 15 6) (fld w 9 6) (fld w 3 6)) else .error .fixedField
  | 4 => if num w 0 21 = 0 then .ok (.snap (bit w 31)) else .error .fixedField
  | 5 => if num w 0 15 = 0 then .ok (.pgmap (bit w 31) (fld w 15 6)) else .error .fixedField
  | _ => .error .reservedCode

/-- Major 0x38 (R335). -/
noncomputable def major38 (w : Word) : Except Reject Instr :=
  match num w 22 3 with
  | 0 => if num w 19 3 = 7 then .ok (.bra (bit w 31) (fld w 0 19) none) else .error .fixedField
  | 1 => .ok (.brc (bit w 31) (fld w 19 3) (fld w 0 19) none)
  | 2 => .ok (.brcn (bit w 31) (fld w 19 3) (fld w 0 19) none)
  | 3 => .ok (.bru (bit w 31) (fld w 19 3) (fld w 0 19) none)
  | 4 => if num w 0 22 = 3670016 then .ok (.join (bit w 31)) else .error .fixedField
  | 5 => if num w 6 16 = 57344 then .ok (.brx (bit w 31) (fld w 0 6)) else .error .fixedField
  | 6 => .ok (.loop (bit w 31) (fld w 19 3) (fld w 0 19) none)
  | _ => .error .reservedCode

/-- Major 0x39 (R335). -/
noncomputable def major39 (w : Word) : Except Reject Instr :=
  match num w 22 3 with
  | 0 => if num w 19 3 = 7 then .ok (.call (bit w 31) (fld w 0 19) none) else .error .fixedField
  | 1 => if num w 0 22 = 3670016 then .ok (.ret (bit w 31)) else .error .fixedField
  | 2 => if num w 0 19 = 0 then .ok (.exit (bit w 31) (fld w 19 3)) else .error .fixedField
  | 3 => if num w 0 19 = 0 then .ok (.trap (bit w 31) (fld w 19 3)) else .error .fixedField
  | 4 => if num w 0 19 = 0 then .ok (.brk (bit w 31) (fld w 19 3)) else .error .fixedField
  | 5 => if num w 0 22 = 3670016 then .ok (.yield (bit w 31)) else .error .fixedField
  | 6 => if num w 19 3 = 7 then .ok (.sleep (bit w 31) (fld w 0 19)) else .error .fixedField
  | _ => .error .reservedCode

/-- Major 0x3A (R335). -/
noncomputable def major3A (w : Word) : Except Reject Instr :=
  match num w 21 4 with
  | 0 => if num w 0 21 = 0 then .ok (.bar (bit w 31)) else .error .fixedField
  | 1 => if num w 0 21 = 0 then .ok (.barPub (bit w 31)) else .error .fixedField
  | 2 => if num w 0 9 = 0 then .ok (.barRealloc (bit w 31) (fld w 15 6) (fld w 9 6)) else .error .fixedField
  | 3 => if num w 0 21 = 0 then .ok (.barArrive (bit w 31)) else .error .fixedField
  | 4 => if num w 0 21 = 0 then .ok (.barWait (bit w 31)) else .error .fixedField
  | _ => .error .reservedCode

/-- Major 0x3B (R335). -/
noncomputable def major3B (w : Word) : Except Reject Instr :=
  match num w 21 4 with
  | 0 => if num w 0 9 = 0 ∧ num w 17 4 = 0 then .ok (.post (bit w 31) (fld w 15 2) (fld w 9 6)) else .error .fixedField
  | 1 => if num w 0 9 = 0 then .ok (.lgrow (bit w 31) (fld w 15 6) (fld w 9 6)) else .error .fixedField
  | 2 => if num w 0 9 = 0 ∧ num w 15 6 = 0 then .ok (.evpost (bit w 31) (fld w 9 6)) else .error .fixedField
  | 3 => if num w 0 9 = 0 ∧ num w 15 6 = 0 then .ok (.depdec (bit w 31) (fld w 9 6)) else .error .fixedField
  | 4 => if num w 0 3 = 0 ∧ num w 15 6 = 0 then .ok (.depset (bit w 31) (fld w 9 6) (fld w 3 6)) else .error .fixedField
  | _ => .error .reservedCode

/-- Major 0x3C (R335). -/
noncomputable def major3C (w : Word) : Except Reject Instr :=
  match num w 22 3 with
  | 0 => if num w 1 1 = 0 then .ok (.mmq (bit w 31) (fld w 15 7) (fld w 8 7) (fld w 2 6) (fld w 0 1)) else .error .fixedField
  | 1 => if num w 1 1 = 0 then .ok (.mmqs (bit w 31) (fld w 15 7) (fld w 8 7) (fld w 2 6) (fld w 0 1)) else .error .fixedField
  | 2 => if num w 1 1 = 0 then .ok (.mmqg (bit w 31) (fld w 15 7) (fld w 8 7) (fld w 2 6) (fld w 0 1)) else .error .fixedField
  | 3 => if num w 1 1 = 0 ∧ num w 8 7 = 0 then .ok (.mtile (bit w 31) (fld w 15 7) (fld w 2 6) (fld w 0 1)) else .error .fixedField
  | _ => .error .reservedCode

/-- Major 0x3D (R335). -/
noncomputable def major3D (w : Word) : Except Reject Instr :=
  match num w 21 4 with
  | 0 => if num w 0 9 = 0 then .ok (.wbld (bit w 31) (fld w 15 6) (fld w 9 6)) else .error .fixedField
  | 1 => if num w 0 9 = 0 ∧ num w 15 6 = 0 then .ok (.wbinv (bit w 31) (fld w 9 6)) else .error .fixedField
  | 2 => if num w 0 9 = 0 then .ok (.wbstat (bit w 31) (fld w 15 6) (fld w 9 6)) else .error .fixedField
  | _ => .error .reservedCode

/-- Major 0x3E (R335). -/
noncomputable def major3E (w : Word) : Except Reject Instr :=
  match num w 20 4 with
  | 0 => .ok (.had16 (bit w 31) (bit w 24) (fld w 13 7) (fld w 6 7) (fld w 0 6))
  | 1 => .ok (.had32 (bit w 31) (bit w 24) (fld w 13 7) (fld w 6 7) (fld w 0 6))
  | 2 => .ok (.had64 (bit w 31) (bit w 24) (fld w 13 7) (fld w 6 7) (fld w 0 6))
  | 3 => .ok (.absmax (bit w 31) (bit w 24) (fld w 13 7) (fld w 6 7) (fld w 0 6))
  | 4 => .ok (.quant (bit w 31) (bit w 24) (fld w 13 7) (fld w 6 7) (fld w 0 6))
  | 5 => .ok (.bmenc (bit w 31) (bit w 24) (fld w 13 7) (fld w 6 7) (fld w 0 6))
  | 6 => .ok (.bmdec (bit w 31) (bit w 24) (fld w 13 7) (fld w 6 7) (fld w 0 6))
  | 7 => .ok (.pscan (bit w 31) (bit w 24) (fld w 13 7) (fld w 6 7) (fld w 0 6))
  | 8 => if num w 0 6 = 0 then .ok (.lztok (bit w 31) (bit w 24) (fld w 13 7) (fld w 6 7)) else .error .fixedField
  | _ => .error .reservedCode

/-- The instruction that one word stands for, a word that a LIT may extend read without one (R312, R322, R332). -/
noncomputable def decodeRaw (w : Word) : Except Reject Instr :=
  match num w 25 6 with
  | 0x00 => if num w 0 25 = 0 then .ok (.nop (bit w 31)) else .error .fixedField
  | 0x01 => major01 w
  | 0x18 => major18 w
  | 0x02 => major02 w
  | 0x03 => major03 w
  | 0x19 => major19 w
  | 0x04 => major04 w
  | 0x05 => major05 w
  | 0x06 => major06 w
  | 0x07 => major07 w
  | 0x08 => major08 w
  | 0x09 => major09 w
  | 0x0A => major0A w
  | 0x1A => major1A w
  | 0x0B => major0B w
  | 0x1B => major1B w
  | 0x0C => major0C w
  | 0x0D => major0D w
  | 0x0E => major0E w
  | 0x0F => major0F w
  | 0x10 => major10 w
  | 0x11 => major11 w
  | 0x12 => major12 w
  | 0x13 => major13 w
  | 0x14 => major14 w
  | 0x15 => major15 w
  | 0x16 => major16 w
  | 0x20 => major20 w
  | 0x21 => major21 w
  | 0x22 => major22 w
  | 0x23 => major23 w
  | 0x24 => major24 w
  | 0x25 => major25 w
  | 0x26 => major26 w
  | 0x27 => major27 w
  | 0x28 => major28 w
  | 0x29 => major29 w
  | 0x2A => major2A w
  | 0x2B => major2B w
  | 0x2C => major2C w
  | 0x2D => major2D w
  | 0x2E => major2E w
  | 0x2F => major2F w
  | 0x30 => major30 w
  | 0x31 => major31 w
  | 0x32 => major32 w
  | 0x33 => major33 w
  | 0x34 => major34 w
  | 0x35 => major35 w
  | 0x36 => major36 w
  | 0x38 => major38 w
  | 0x39 => major39 w
  | 0x3A => major3A w
  | 0x3B => major3B w
  | 0x3C => major3C w
  | 0x3D => major3D w
  | 0x3E => major3E w
  | 0x3F => .ok (.lit (bit w 31) (fld w 0 25))
  | _ => .error .reservedMajor

set_option maxHeartbeats 4000000 in
/-- The first word of an instruction, written from the tables of R316 and R333 to R335; none for a device step.
A word that a LIT follows has its chain bit set (R315). -/
def encodeWord (i : Instr) : Option Word :=
  match i with
  | .nop c => some (pack c 0x00 [])
  | .lit c l => some (pack c 0x3F [(l.toNat, 0)])
  | .iadd c x d a b => some (pack c 0x01 [(x.toNat, 24), (d.toNat, 14), (a.toNat, 7), (b.toNat, 0)])
  | .isub c x d a b => some (pack c 0x01 [(1, 21), (x.toNat, 24), (d.toNat, 14), (a.toNat, 7), (b.toNat, 0)])
  | .iminS c x d a b => some (pack c 0x01 [(2, 21), (x.toNat, 24), (d.toNat, 14), (a.toNat, 7), (b.toNat, 0)])
  | .iminN c x d a b => some (pack c 0x01 [(3, 21), (x.toNat, 24), (d.toNat, 14), (a.toNat, 7), (b.toNat, 0)])
  | .imaxS c x d a b => some (pack c 0x01 [(4, 21), (x.toNat, 24), (d.toNat, 14), (a.toNat, 7), (b.toNat, 0)])
  | .imaxN c x d a b => some (pack c 0x01 [(5, 21), (x.toNat, 24), (d.toNat, 14), (a.toNat, 7), (b.toNat, 0)])
  | .iaddc c x d a b => some (pack c 0x01 [(6, 21), (x.toNat, 24), (d.toNat, 14), (a.toNat, 7), (b.toNat, 0)])
  | .isubb c x d a b => some (pack c 0x01 [(7, 21), (x.toNat, 24), (d.toNat, 14), (a.toNat, 7), (b.toNat, 0)])
  | .iaddScalarB c x d a s => some (pack c 0x18 [(x.toNat, 24), (d.toNat, 14), (a.toNat, 7), (s.toNat, 0)])
  | .isubScalarB c x d a s => some (pack c 0x18 [(1, 21), (x.toNat, 24), (d.toNat, 14), (a.toNat, 7), (s.toNat, 0)])
  | .iminSScalarB c x d a s => some (pack c 0x18 [(2, 21), (x.toNat, 24), (d.toNat, 14), (a.toNat, 7), (s.toNat, 0)])
  | .iminNScalarB c x d a s => some (pack c 0x18 [(3, 21), (x.toNat, 24), (d.toNat, 14), (a.toNat, 7), (s.toNat, 0)])
  | .imaxSScalarB c x d a s => some (pack c 0x18 [(4, 21), (x.toNat, 24), (d.toNat, 14), (a.toNat, 7), (s.toNat, 0)])
  | .imaxNScalarB c x d a s => some (pack c 0x18 [(5, 21), (x.toNat, 24), (d.toNat, 14), (a.toNat, 7), (s.toNat, 0)])
  | .iaddcScalarB c x d a s => some (pack c 0x18 [(6, 21), (x.toNat, 24), (d.toNat, 14), (a.toNat, 7), (s.toNat, 0)])
  | .isubbScalarB c x d a s => some (pack c 0x18 [(7, 21), (x.toNat, 24), (d.toNat, 14), (a.toNat, 7), (s.toNat, 0)])
  | .imul c x d a b => some (pack c 0x02 [(x.toNat, 24), (d.toNat, 14), (a.toNat, 7), (b.toNat, 0)])
  | .imulhS c x d a b => some (pack c 0x02 [(1, 21), (x.toNat, 24), (d.toNat, 14), (a.toNat, 7), (b.toNat, 0)])
  | .imulhN c x d a b => some (pack c 0x02 [(2, 21), (x.toNat, 24), (d.toNat, 14), (a.toNat, 7), (b.toNat, 0)])
  | .imad c x d a b => some (pack c 0x02 [(3, 21), (x.toNat, 24), (d.toNat, 14), (a.toNat, 7), (b.toNat, 0)])
  | .imadhS c x d a b => some (pack c 0x02 [(4, 21), (x.toNat, 24), (d.toNat, 14), (a.toNat, 7), (b.toNat, 0)])
  | .imadhN c x d a b => some (pack c 0x02 [(5, 21), (x.toNat, 24), (d.toNat, 14), (a.toNat, 7), (b.toNat, 0)])
  | .iabs c x d a => some (pack c 0x02 [(6, 21), (x.toNat, 24), (d.toNat, 14), (a.toNat, 7)])
  | .ineg c x d a => some (pack c 0x02 [(7, 21), (x.toNat, 24), (d.toNat, 14), (a.toNat, 7)])
  | .and c x d a b => some (pack c 0x03 [(x.toNat, 24), (d.toNat, 14), (a.toNat, 7), (b.toNat, 0)])
  | .or c x d a b => some (pack c 0x03 [(1, 21), (x.toNat, 24), (d.toNat, 14), (a.toNat, 7), (b.toNat, 0)])
  | .xor c x d a b => some (pack c 0x03 [(2, 21), (x.toNat, 24), (d.toNat, 14), (a.toNat, 7), (b.toNat, 0)])
  | .andn c x d a b => some (pack c 0x03 [(3, 21), (x.toNat, 24), (d.toNat, 14), (a.toNat, 7), (b.toNat, 0)])
  | .orn c x d a b => some (pack c 0x03 [(4, 21), (x.toNat, 24), (d.toNat, 14), (a.toNat, 7), (b.toNat, 0)])
  | .popc c x d a => some (pack c 0x03 [(5, 21), (x.toNat, 24), (d.toNat, 14), (a.toNat, 7)])
  | .clz c x d a => some (pack c 0x03 [(6, 21), (x.toNat, 24), (d.toNat, 14), (a.toNat, 7)])
  | .ctz c x d a => some (pack c 0x03 [(7, 21), (x.toNat, 24), (d.toNat, 14), (a.toNat, 7)])
  | .andScalarB c x d a s => some (pack c 0x19 [(x.toNat, 24), (d.toNat, 14), (a.toNat, 7), (s.toNat, 0)])
  | .orScalarB c x d a s => some (pack c 0x19 [(1, 21), (x.toNat, 24), (d.toNat, 14), (a.toNat, 7), (s.toNat, 0)])
  | .xorScalarB c x d a s => some (pack c 0x19 [(2, 21), (x.toNat, 24), (d.toNat, 14), (a.toNat, 7), (s.toNat, 0)])
  | .andnScalarB c x d a s => some (pack c 0x19 [(3, 21), (x.toNat, 24), (d.toNat, 14), (a.toNat, 7), (s.toNat, 0)])
  | .ornScalarB c x d a s => some (pack c 0x19 [(4, 21), (x.toNat, 24), (d.toNat, 14), (a.toNat, 7), (s.toNat, 0)])
  | .shl c x d a b => some (pack c 0x04 [(x.toNat, 24), (d.toNat, 14), (a.toNat, 7), (b.toNat, 0)])
  | .shr c x d a b => some (pack c 0x04 [(1, 21), (x.toNat, 24), (d.toNat, 14), (a.toNat, 7), (b.toNat, 0)])
  | .sar c x d a b => some (pack c 0x04 [(2, 21), (x.toNat, 24), (d.toNat, 14), (a.toNat, 7), (b.toNat, 0)])
  | .rotl c x d a b => some (pack c 0x04 [(3, 21), (x.toNat, 24), (d.toNat, 14), (a.toNat, 7), (b.toNat, 0)])
  | .bfeN c x d a b => some (pack c 0x04 [(4, 21), (x.toNat, 24), (d.toNat, 14), (a.toNat, 7), (b.toNat, 0)])
  | .bfeS c x d a b => some (pack c 0x04 [(5, 21), (x.toNat, 24), (d.toNat, 14), (a.toNat, 7), (b.toNat, 0)])
  | .bfi c x d a b => some (pack c 0x04 [(6, 21), (x.toNat, 24), (d.toNat, 14), (a.toNat, 7), (b.toNat, 0)])
  | .bperm c x d a b => some (pack c 0x04 [(7, 21), (x.toNat, 24), (d.toNat, 14), (a.toNat, 7), (b.toNat, 0)])
  | .icmpEq c x p a b => some (pack c 0x05 [(x.toNat, 24), (p.toNat, 14), (a.toNat, 7), (b.toNat, 0)])
  | .icmpNe c x p a b => some (pack c 0x05 [(1, 21), (x.toNat, 24), (p.toNat, 14), (a.toNat, 7), (b.toNat, 0)])
  | .icmpLtS c x p a b => some (pack c 0x05 [(2, 21), (x.toNat, 24), (p.toNat, 14), (a.toNat, 7), (b.toNat, 0)])
  | .icmpLeS c x p a b => some (pack c 0x05 [(3, 21), (x.toNat, 24), (p.toNat, 14), (a.toNat, 7), (b.toNat, 0)])
  | .icmpGtS c x p a b => some (pack c 0x05 [(4, 21), (x.toNat, 24), (p.toNat, 14), (a.toNat, 7), (b.toNat, 0)])
  | .icmpGeS c x p a b => some (pack c 0x05 [(5, 21), (x.toNat, 24), (p.toNat, 14), (a.toNat, 7), (b.toNat, 0)])
  | .icmpLtN c x p a b => some (pack c 0x05 [(6, 21), (x.toNat, 24), (p.toNat, 14), (a.toNat, 7), (b.toNat, 0)])
  | .icmpGeN c x p a b => some (pack c 0x05 [(7, 21), (x.toNat, 24), (p.toNat, 14), (a.toNat, 7), (b.toNat, 0)])
  | .sel c x p d a b => some (pack c 0x06 [(x.toNat, 24), (p.toNat, 21), (d.toNat, 14), (a.toNat, 7), (b.toNat, 0)])
  | .mov c x d a => some (pack c 0x07 [(x.toNat, 24), (d.toNat, 14), (a.toNat, 7)])
  | .mov64 c x d a => some (pack c 0x07 [(1, 21), (x.toNat, 24), (d.toNat, 14), (a.toNat, 7)])
  | .movs c x d s => some (pack c 0x07 [(2, 21), (x.toNat, 24), (d.toNat, 14), (s.toNat, 0)])
  | .vrd c x d a b => some (pack c 0x07 [(3, 21), (x.toNat, 24), (d.toNat, 14), (a.toNat, 7), (b.toNat, 0)])
  | .vwr c x d a b => some (pack c 0x07 [(4, 21), (x.toNat, 24), (d.toNat, 14), (a.toNat, 7), (b.toNat, 0)])
  | .pmov c x p a => some (pack c 0x07 [(5, 21), (x.toNat, 24), (p.toNat, 14), (a.toNat, 7)])
  | .pget c x d p => some (pack c 0x07 [(6, 21), (x.toNat, 24), (d.toNat, 14), (p.toNat, 7)])
  | .iaddi c x d a i lit => some (pack (c || lit.isSome) 0x08 [(x.toNat, 24), (d.toNat, 17), (a.toNat, 10), (i.toNat, 0)])
  | .movi c x d i lit => some (pack (c || lit.isSome) 0x09 [(x.toNat, 24), (d.toNat, 17), (i.toNat, 0)])
  | .fadd c x d a b => some (pack c 0x0A [(x.toNat, 24), (d.toNat, 14), (a.toNat, 7), (b.toNat, 0)])
  | .fsub c x d a b => some (pack c 0x0A [(1, 21), (x.toNat, 24), (d.toNat, 14), (a.toNat, 7), (b.toNat, 0)])
  | .fmin c x d a b => some (pack c 0x0A [(2, 21), (x.toNat, 24), (d.toNat, 14), (a.toNat, 7), (b.toNat, 0)])
  | .fmax c x d a b => some (pack c 0x0A [(3, 21), (x.toNat, 24), (d.toNat, 14), (a.toNat, 7), (b.toNat, 0)])
  | .fabs c x d a => some (pack c 0x0A [(4, 21), (x.toNat, 24), (d.toNat, 14), (a.toNat, 7)])
  | .fneg c x d a => some (pack c 0x0A [(5, 21), (x.toNat, 24), (d.toNat, 14), (a.toNat, 7)])
  | .frnd c x d a => some (pack c 0x0A [(6, 21), (x.toNat, 24), (d.toNat, 14), (a.toNat, 7)])
  | .fract c x d a => some (pack c 0x0A [(7, 21), (x.toNat, 24), (d.toNat, 14), (a.toNat, 7)])
  | .faddScalarB c x d a s => some (pack c 0x1A [(x.toNat, 24), (d.toNat, 14), (a.toNat, 7), (s.toNat, 0)])
  | .fsubScalarB c x d a s => some (pack c 0x1A [(1, 21), (x.toNat, 24), (d.toNat, 14), (a.toNat, 7), (s.toNat, 0)])
  | .fminScalarB c x d a s => some (pack c 0x1A [(2, 21), (x.toNat, 24), (d.toNat, 14), (a.toNat, 7), (s.toNat, 0)])
  | .fmaxScalarB c x d a s => some (pack c 0x1A [(3, 21), (x.toNat, 24), (d.toNat, 14), (a.toNat, 7), (s.toNat, 0)])
  | .fmul c x d a b => some (pack c 0x0B [(x.toNat, 24), (d.toNat, 14), (a.toNat, 7), (b.toNat, 0)])
  | .fma c x d a b => some (pack c 0x0B [(1, 21), (x.toNat, 24), (d.toNat, 14), (a.toNat, 7), (b.toNat, 0)])
  | .fms c x d a b => some (pack c 0x0B [(2, 21), (x.toNat, 24), (d.toNat, 14), (a.toNat, 7), (b.toNat, 0)])
  | .fnma c x d a b => some (pack c 0x0B [(3, 21), (x.toNat, 24), (d.toNat, 14), (a.toNat, 7), (b.toNat, 0)])
  | .fmulScalarB c x d a s => some (pack c 0x1B [(x.toNat, 24), (d.toNat, 14), (a.toNat, 7), (s.toNat, 0)])
  | .fmaScalarB c x d a s => some (pack c 0x1B [(1, 21), (x.toNat, 24), (d.toNat, 14), (a.toNat, 7), (s.toNat, 0)])
  | .fmsScalarB c x d a s => some (pack c 0x1B [(2, 21), (x.toNat, 24), (d.toNat, 14), (a.toNat, 7), (s.toNat, 0)])
  | .fnmaScalarB c x d a s => some (pack c 0x1B [(3, 21), (x.toNat, 24), (d.toNat, 14), (a.toNat, 7), (s.toNat, 0)])
  | .fcmpEq c x p a b => some (pack c 0x0C [(x.toNat, 24), (p.toNat, 14), (a.toNat, 7), (b.toNat, 0)])
  | .fcmpNe c x p a b => some (pack c 0x0C [(1, 21), (x.toNat, 24), (p.toNat, 14), (a.toNat, 7), (b.toNat, 0)])
  | .fcmpLt c x p a b => some (pack c 0x0C [(2, 21), (x.toNat, 24), (p.toNat, 14), (a.toNat, 7), (b.toNat, 0)])
  | .fcmpLe c x p a b => some (pack c 0x0C [(3, 21), (x.toNat, 24), (p.toNat, 14), (a.toNat, 7), (b.toNat, 0)])
  | .fcmpGt c x p a b => some (pack c 0x0C [(4, 21), (x.toNat, 24), (p.toNat, 14), (a.toNat, 7), (b.toNat, 0)])
  | .fcmpGe c x p a b => some (pack c 0x0C [(5, 21), (x.toNat, 24), (p.toNat, 14), (a.toNat, 7), (b.toNat, 0)])
  | .fcmpUnord c x p a b => some (pack c 0x0C [(6, 21), (x.toNat, 24), (p.toNat, 14), (a.toNat, 7), (b.toNat, 0)])
  | .fcmpOrd c x p a b => some (pack c 0x0C [(7, 21), (x.toNat, 24), (p.toNat, 14), (a.toNat, 7), (b.toNat, 0)])
  | .haddF16x2 c x d a b => some (pack c 0x0D [(x.toNat, 24), (d.toNat, 14), (a.toNat, 7), (b.toNat, 0)])
  | .hmulF16x2 c x d a b => some (pack c 0x0D [(1, 21), (x.toNat, 24), (d.toNat, 14), (a.toNat, 7), (b.toNat, 0)])
  | .hfmaF16x2 c x d a b => some (pack c 0x0D [(2, 21), (x.toNat, 24), (d.toNat, 14), (a.toNat, 7), (b.toNat, 0)])
  | .haddBf16x2 c x d a b => some (pack c 0x0D [(3, 21), (x.toNat, 24), (d.toNat, 14), (a.toNat, 7), (b.toNat, 0)])
  | .hmulBf16x2 c x d a b => some (pack c 0x0D [(4, 21), (x.toNat, 24), (d.toNat, 14), (a.toNat, 7), (b.toNat, 0)])
  | .hfmaBf16x2 c x d a b => some (pack c 0x0D [(5, 21), (x.toNat, 24), (d.toNat, 14), (a.toNat, 7), (b.toNat, 0)])
  | .hminF16x2 c x d a b => some (pack c 0x0D [(6, 21), (x.toNat, 24), (d.toNat, 14), (a.toNat, 7), (b.toNat, 0)])
  | .hmaxF16x2 c x d a b => some (pack c 0x0D [(7, 21), (x.toNat, 24), (d.toNat, 14), (a.toNat, 7), (b.toNat, 0)])
  | .frcp c x d a => some (pack c 0x0E [(x.toNat, 24), (d.toNat, 14), (a.toNat, 7)])
  | .frsq c x d a => some (pack c 0x0E [(1, 21), (x.toNat, 24), (d.toNat, 14), (a.toNat, 7)])
  | .fsqrt c x d a => some (pack c 0x0E [(2, 21), (x.toNat, 24), (d.toNat, 14), (a.toNat, 7)])
  | .fexp2 c x d a => some (pack c 0x0E [(3, 21), (x.toNat, 24), (d.toNat, 14), (a.toNat, 7)])
  | .flog2 c x d a => some (pack c 0x0E [(4, 21), (x.toNat, 24), (d.toNat, 14), (a.toNat, 7)])
  | .fsin c x d a => some (pack c 0x0E [(5, 21), (x.toNat, 24), (d.toNat, 14), (a.toNat, 7)])
  | .fcos c x d a => some (pack c 0x0E [(6, 21), (x.toNat, 24), (d.toNat, 14), (a.toNat, 7)])
  | .ftanh c x d a => some (pack c 0x0E [(7, 21), (x.toNat, 24), (d.toNat, 14), (a.toNat, 7)])
  | .dadd c x d a b => some (pack c 0x0F [(x.toNat, 24), (d.toNat, 14), (a.toNat, 7), (b.toNat, 0)])
  | .dsub c x d a b => some (pack c 0x0F [(1, 21), (x.toNat, 24), (d.toNat, 14), (a.toNat, 7), (b.toNat, 0)])
  | .dmul c x d a b => some (pack c 0x0F [(2, 21), (x.toNat, 24), (d.toNat, 14), (a.toNat, 7), (b.toNat, 0)])
  | .dfma c x d a b => some (pack c 0x0F [(3, 21), (x.toNat, 24), (d.toNat, 14), (a.toNat, 7), (b.toNat, 0)])
  | .dmin c x d a b => some (pack c 0x0F [(4, 21), (x.toNat, 24), (d.toNat, 14), (a.toNat, 7), (b.toNat, 0)])
  | .dmax c x d a b => some (pack c 0x0F [(5, 21), (x.toNat, 24), (d.toNat, 14), (a.toNat, 7), (b.toNat, 0)])
  | .drcp c x d a => some (pack c 0x0F [(6, 21), (x.toNat, 24), (d.toNat, 14), (a.toNat, 7)])
  | .dsqrt c x d a => some (pack c 0x0F [(7, 21), (x.toNat, 24), (d.toNat, 14), (a.toNat, 7)])
  | .cvt c x t d a r s => some (pack c 0x10 [(x.toNat, 24), (t.toNat, 21), (d.toNat, 14), (a.toNat, 7), (r.toNat, 3), (s.toNat, 0)])
  | .cvtnE4m3 c x d a => some (pack c 0x11 [(x.toNat, 24), (d.toNat, 14), (a.toNat, 7)])
  | .cvtnE4m3Sr c x d a => some (pack c 0x11 [(1, 21), (x.toNat, 24), (d.toNat, 14), (a.toNat, 7)])
  | .cvtnE5m2 c x d a => some (pack c 0x11 [(2, 21), (x.toNat, 24), (d.toNat, 14), (a.toNat, 7)])
  | .cvtnE5m2Sr c x d a => some (pack c 0x11 [(3, 21), (x.toNat, 24), (d.toNat, 14), (a.toNat, 7)])
  | .cvtnE2m1b c x d a b => some (pack c 0x11 [(4, 21), (x.toNat, 24), (d.toNat, 14), (a.toNat, 7), (b.toNat, 0)])
  | .cvtnE2m1bSr c x d a b => some (pack c 0x11 [(5, 21), (x.toNat, 24), (d.toNat, 14), (a.toNat, 7), (b.toNat, 0)])
  | .cvtwE4m3 c x d a => some (pack c 0x11 [(6, 21), (x.toNat, 24), (d.toNat, 14), (a.toNat, 7)])
  | .cvtwE5m2 c x d a => some (pack c 0x11 [(7, 21), (x.toNat, 24), (d.toNat, 14), (a.toNat, 7)])
  | .xrel c x d a s => some (pack c 0x12 [(x.toNat, 24), (d.toNat, 14), (a.toNat, 7), (s.toNat, 0)])
  | .xrel3 c x d a s => some (pack c 0x12 [(1, 21), (x.toNat, 24), (d.toNat, 14), (a.toNat, 7), (s.toNat, 0)])
  | .dcmpEq c x p a b => some (pack c 0x12 [(2, 21), (x.toNat, 24), (p.toNat, 14), (a.toNat, 7), (b.toNat, 0)])
  | .dcmpLt c x p a b => some (pack c 0x12 [(3, 21), (x.toNat, 24), (p.toNat, 14), (a.toNat, 7), (b.toNat, 0)])
  | .dcmpLe c x p a b => some (pack c 0x12 [(4, 21), (x.toNat, 24), (p.toNat, 14), (a.toNat, 7), (b.toNat, 0)])
  | .dcmpUnord c x p a b => some (pack c 0x12 [(5, 21), (x.toNat, 24), (p.toNat, 14), (a.toNat, 7), (b.toNat, 0)])
  | .shflIdx c x d a b => some (pack c 0x13 [(x.toNat, 24), (d.toNat, 14), (a.toNat, 7), (b.toNat, 0)])
  | .shflUp c x d a b => some (pack c 0x13 [(1, 21), (x.toNat, 24), (d.toNat, 14), (a.toNat, 7), (b.toNat, 0)])
  | .shflDown c x d a b => some (pack c 0x13 [(2, 21), (x.toNat, 24), (d.toNat, 14), (a.toNat, 7), (b.toNat, 0)])
  | .shflXor c x d a b => some (pack c 0x13 [(3, 21), (x.toNat, 24), (d.toNat, 14), (a.toNat, 7), (b.toNat, 0)])
  | .voteAny c x d p => some (pack c 0x13 [(4, 21), (x.toNat, 24), (d.toNat, 14), (p.toNat, 7)])
  | .voteAll c x d p => some (pack c 0x13 [(5, 21), (x.toNat, 24), (d.toNat, 14), (p.toNat, 7)])
  | .voteBallot c x d p => some (pack c 0x13 [(6, 21), (x.toNat, 24), (d.toNat, 14), (p.toNat, 7)])
  | .qswz c x d a k => some (pack c 0x13 [(7, 21), (x.toNat, 24), (d.toNat, 14), (a.toNat, 7), (k.toNat, 0)])
  | .redAddS32 c x d a => some (pack c 0x14 [(x.toNat, 24), (d.toNat, 14), (a.toNat, 7)])
  | .redAddF32 c x d a => some (pack c 0x14 [(1, 21), (x.toNat, 24), (d.toNat, 14), (a.toNat, 7)])
  | .redMinF32 c x d a => some (pack c 0x14 [(2, 21), (x.toNat, 24), (d.toNat, 14), (a.toNat, 7)])
  | .redMaxF32 c x d a => some (pack c 0x14 [(3, 21), (x.toNat, 24), (d.toNat, 14), (a.toNat, 7)])
  | .scanAddS32 c x d a => some (pack c 0x14 [(4, 21), (x.toNat, 24), (d.toNat, 14), (a.toNat, 7)])
  | .scanAddF32 c x d a => some (pack c 0x14 [(5, 21), (x.toNat, 24), (d.toNat, 14), (a.toNat, 7)])
  | .redAnd c x d a => some (pack c 0x14 [(6, 21), (x.toNat, 24), (d.toNat, 14), (a.toNat, 7)])
  | .redOr c x d a => some (pack c 0x14 [(7, 21), (x.toNat, 24), (d.toNat, 14), (a.toNat, 7)])
  | .ddx c x d a b => some (pack c 0x15 [(x.toNat, 24), (d.toNat, 14), (a.toNat, 7), (b.toNat, 0)])
  | .ddy c x d a b => some (pack c 0x15 [(1, 21), (x.toNat, 24), (d.toNat, 14), (a.toNat, 7), (b.toNat, 0)])
  | .ipa c x d a n => some (pack c 0x15 [(2, 21), (x.toNat, 24), (d.toNat, 14), (a.toNat, 7), (n.toNat, 0)])
  | .ipac c x d a n => some (pack c 0x15 [(3, 21), (x.toNat, 24), (d.toNat, 14), (a.toNat, 7), (n.toNat, 0)])
  | .rtravInit c x d a b => some (pack c 0x16 [(x.toNat, 24), (d.toNat, 14), (a.toNat, 7), (b.toNat, 0)])
  | .rtravStep c x d => some (pack c 0x16 [(1, 21), (x.toNat, 24), (d.toNat, 14)])
  | .rhit c x d => some (pack c 0x16 [(2, 21), (x.toNat, 24), (d.toNat, 14)])
  | .sadd c d a b => some (pack c 0x20 [(d.toNat, 15), (a.toNat, 9), (b.toNat, 3)])
  | .ssub c d a b => some (pack c 0x20 [(1, 21), (d.toNat, 15), (a.toNat, 9), (b.toNat, 3)])
  | .smul c d a b => some (pack c 0x20 [(2, 21), (d.toNat, 15), (a.toNat, 9), (b.toNat, 3)])
  | .smulh c d a b => some (pack c 0x20 [(3, 21), (d.toNat, 15), (a.toNat, 9), (b.toNat, 3)])
  | .sand c d a b => some (pack c 0x20 [(4, 21), (d.toNat, 15), (a.toNat, 9), (b.toNat, 3)])
  | .sor c d a b => some (pack c 0x20 [(5, 21), (d.toNat, 15), (a.toNat, 9), (b.toNat, 3)])
  | .sxor c d a b => some (pack c 0x20 [(6, 21), (d.toNat, 15), (a.toNat, 9), (b.toNat, 3)])
  | .sandn c d a b => some (pack c 0x20 [(7, 21), (d.toNat, 15), (a.toNat, 9), (b.toNat, 3)])
  | .sshl c d a b => some (pack c 0x20 [(8, 21), (d.toNat, 15), (a.toNat, 9), (b.toNat, 3)])
  | .sshr c d a b => some (pack c 0x20 [(9, 21), (d.toNat, 15), (a.toNat, 9), (b.toNat, 3)])
  | .ssar c d a b => some (pack c 0x20 [(10, 21), (d.toNat, 15), (a.toNat, 9), (b.toNat, 3)])
  | .smin c d a b => some (pack c 0x20 [(11, 21), (d.toNat, 15), (a.toNat, 9), (b.toNat, 3)])
  | .smax c d a b => some (pack c 0x20 [(12, 21), (d.toNat, 15), (a.toNat, 9), (b.toNat, 3)])
  | .smov c d a => some (pack c 0x20 [(13, 21), (d.toNat, 15), (a.toNat, 9)])
  | .sadd64 c d a b => some (pack c 0x20 [(14, 21), (d.toNat, 15), (a.toNat, 9), (b.toNat, 3)])
  | .ssub64 c d a b => some (pack c 0x20 [(15, 21), (d.toNat, 15), (a.toNat, 9), (b.toNat, 3)])
  | .saddi c d i lit => some (pack (c || lit.isSome) 0x21 [(d.toNat, 15), (i.toNat, 0)])
  | .sandi c d i lit => some (pack (c || lit.isSome) 0x21 [(1, 21), (d.toNat, 15), (i.toNat, 0)])
  | .sori c d i lit => some (pack (c || lit.isSome) 0x21 [(2, 21), (d.toNat, 15), (i.toNat, 0)])
  | .sxori c d i lit => some (pack (c || lit.isSome) 0x21 [(3, 21), (d.toNat, 15), (i.toNat, 0)])
  | .sshli c d i lit => some (pack (c || lit.isSome) 0x21 [(4, 21), (d.toNat, 15), (i.toNat, 0)])
  | .sshri c d i lit => some (pack (c || lit.isSome) 0x21 [(5, 21), (d.toNat, 15), (i.toNat, 0)])
  | .smovi c d i lit => some (pack (c || lit.isSome) 0x21 [(6, 21), (d.toNat, 15), (i.toNat, 0)])
  | .smovhi c d i lit => some (pack (c || lit.isSome) 0x21 [(7, 21), (d.toNat, 15), (i.toNat, 0)])
  | .scmpEq c p a b => some (pack c 0x22 [(p.toNat, 15), (a.toNat, 9), (b.toNat, 3)])
  | .scmpNe c p a b => some (pack c 0x22 [(1, 21), (p.toNat, 15), (a.toNat, 9), (b.toNat, 3)])
  | .scmpLtS c p a b => some (pack c 0x22 [(2, 21), (p.toNat, 15), (a.toNat, 9), (b.toNat, 3)])
  | .scmpLeS c p a b => some (pack c 0x22 [(3, 21), (p.toNat, 15), (a.toNat, 9), (b.toNat, 3)])
  | .scmpLtN c p a b => some (pack c 0x22 [(4, 21), (p.toNat, 15), (a.toNat, 9), (b.toNat, 3)])
  | .scmpLeN c p a b => some (pack c 0x22 [(5, 21), (p.toNat, 15), (a.toNat, 9), (b.toNat, 3)])
  | .ssel c d a b => some (pack c 0x22 [(6, 21), (d.toNat, 15), (a.toNat, 9), (b.toNat, 3)])
  | .getsr c d n => some (pack c 0x23 [(d.toNat, 15), (n.toNat, 9)])
  | .setsr c n b => some (pack c 0x23 [(1, 21), (n.toNat, 9), (b.toNat, 3)])
  | .setix c a => some (pack c 0x23 [(2, 21), (a.toNat, 9)])
  | .addix c a => some (pack c 0x23 [(3, 21), (a.toNat, 9)])
  | .getix c d => some (pack c 0x23 [(4, 21), (d.toNat, 15)])
  | .bind c w a => some (pack c 0x24 [(w.toNat, 15), (a.toNat, 9)])
  | .unbind c w => some (pack c 0x24 [(1, 21), (w.toNat, 15)])
  | .wquery c d w => some (pack c 0x24 [(2, 21), (d.toNat, 15), (w.toNat, 9)])
  | .ld c x z d a w i lit => some (pack (c || lit.isSome) 0x25 [(x.toNat, 24), (z.toNat, 21), (d.toNat, 14), (a.toNat, 7), (w.toNat, 4), (i.toNat, 0)])
  | .st c x z d a w i lit => some (pack (c || lit.isSome) 0x26 [(x.toNat, 24), (z.toNat, 21), (d.toNat, 14), (a.toNat, 7), (w.toNat, 4), (i.toNat, 0)])
  | .ldg c x z d a i lit => some (pack (c || lit.isSome) 0x27 [(x.toNat, 24), (z.toNat, 21), (d.toNat, 14), (a.toNat, 7), (i.toNat, 0)])
  | .stg c x z d a i lit => some (pack (c || lit.isSome) 0x27 [(1, 4), (x.toNat, 24), (z.toNat, 21), (d.toNat, 14), (a.toNat, 7), (i.toNat, 0)])
  | .lds c x z d a i lit => some (pack (c || lit.isSome) 0x28 [(x.toNat, 24), (z.toNat, 21), (d.toNat, 14), (a.toNat, 7), (i.toNat, 0)])
  | .sts c x z d a i lit => some (pack (c || lit.isSome) 0x28 [(1, 4), (x.toNat, 24), (z.toNat, 21), (d.toNat, 14), (a.toNat, 7), (i.toNat, 0)])
  | .ldc c z d a b => some (pack c 0x29 [(z.toNat, 21), (d.toNat, 15), (a.toNat, 9), (b.toNat, 3)])
  | .atom c x o d a w s r => some (pack c 0x2A [(x.toNat, 24), (o.toNat, 20), (d.toNat, 13), (a.toNat, 6), (w.toNat, 3), (s.toNat, 1), (r.toNat, 0)])
  | .atoms c x o d a s r => some (pack c 0x2B [(x.toNat, 24), (o.toNat, 20), (d.toNat, 13), (a.toNat, 6), (s.toNat, 1), (r.toNat, 0)])
  | .ldt c x z d a w => some (pack c 0x2C [(x.toNat, 24), (z.toNat, 21), (d.toNat, 14), (a.toNat, 7), (w.toNat, 4)])
  | .smpPoint c x d a w v u => some (pack c 0x2D [(x.toNat, 24), (d.toNat, 14), (a.toNat, 7), (w.toNat, 4), (v.toNat, 2), (u.toNat, 0)])
  | .smpBilinear c x d a w v u => some (pack c 0x2D [(1, 21), (x.toNat, 24), (d.toNat, 14), (a.toNat, 7), (w.toNat, 4), (v.toNat, 2), (u.toNat, 0)])
  | .smpTrilinear c x d a w v u => some (pack c 0x2D [(2, 21), (x.toNat, 24), (d.toNat, 14), (a.toNat, 7), (w.toNat, 4), (v.toNat, 2), (u.toNat, 0)])
  | .fenceAcq c s => some (pack c 0x2E [(s.toNat, 1)])
  | .fenceRel c s => some (pack c 0x2E [(1, 20), (s.toNat, 1)])
  | .fenceAr c s => some (pack c 0x2E [(2, 20), (s.toNat, 1)])
  | .cinv c => some (pack c 0x2E [(3, 20)])
  | .cwb c d a => some (pack c 0x2E [(4, 20), (d.toNat, 13), (a.toNat, 6)])
  | .pf c x a w => some (pack c 0x2E [(5, 20), (x.toNat, 24), (a.toNat, 6), (w.toNat, 3)])
  | .resfence c => some (pack c 0x2E [(6, 20)])
  | .cpa c x d a w s r => some (pack c 0x2F [(x.toNat, 24), (d.toNat, 13), (a.toNat, 6), (w.toNat, 3), (s.toNat, 1), (r.toNat, 0)])
  | .cpseal c => some (pack c 0x2F [(1, 20)])
  | .cpwait c t => some (pack c 0x2F [(2, 20), (t.toNat, 1)])
  | .cpstat c d => some (pack c 0x2F [(3, 20), (d.toNat, 13)])
  | .cpbulk c d a b => some (pack c 0x30 [(d.toNat, 15), (a.toNat, 9), (b.toNat, 3)])
  | .cpq c d a b => some (pack c 0x30 [(1, 21), (d.toNat, 15), (a.toNat, 9), (b.toNat, 3)])
  | .tbinit c a b => some (pack c 0x31 [(a.toNat, 9), (b.toNat, 3)])
  | .tbarrive c a b => some (pack c 0x31 [(1, 21), (a.toNat, 9), (b.toNat, 3)])
  | .tbexpect c a b => some (pack c 0x31 [(2, 21), (a.toNat, 9), (b.toNat, 3)])
  | .tbwait c a b => some (pack c 0x31 [(3, 21), (a.toNat, 9), (b.toNat, 3)])
  | .tbtest c d a b => some (pack c 0x31 [(4, 21), (d.toNat, 15), (a.toNat, 9), (b.toNat, 3)])
  | .rarm c x a n => some (pack c 0x32 [(x.toNat, 24), (a.toNat, 6), (n.toNat, 3)])
  | .rdisarm c x a n => some (pack c 0x32 [(1, 20), (x.toNat, 24), (a.toNat, 6), (n.toNat, 3)])
  | .mkcap c d a => some (pack c 0x32 [(2, 20), (d.toNat, 13), (a.toNat, 6)])
  | .rsend c x d a k => some (pack c 0x32 [(3, 20), (x.toNat, 24), (d.toNat, 13), (a.toNat, 6), (k.toNat, 1)])
  | .rsendT c x d a k => some (pack c 0x32 [(3, 20), (x.toNat, 24), (d.toNat, 13), (a.toNat, 6), (k.toNat, 1), (0x1, 0)])
  | .rsendRel c x d a k => some (pack c 0x32 [(4, 20), (x.toNat, 24), (d.toNat, 13), (a.toNat, 6), (k.toNat, 1)])
  | .rsendRelT c x d a k => some (pack c 0x32 [(4, 20), (x.toNat, 24), (d.toNat, 13), (a.toNat, 6), (k.toNat, 1), (0x1, 0)])
  | .rrevoke c d => some (pack c 0x32 [(5, 20), (d.toNat, 13)])
  | .rtest c x d a => some (pack c 0x32 [(6, 20), (x.toNat, 24), (d.toNat, 13), (a.toNat, 6)])
  | .rtestCount c d => some (pack c 0x32 [(6, 20), (d.toNat, 13), (0x1, 0)])
  | .mring c r a b => some (pack c 0x33 [(r.toNat, 15), (a.toNat, 9), (b.toNat, 3)])
  | .msend c d a b => some (pack c 0x33 [(1, 21), (d.toNat, 15), (a.toNat, 9), (b.toNat, 3)])
  | .mwait c d r => some (pack c 0x33 [(2, 21), (d.toNat, 15), (r.toNat, 9)])
  | .resset c x a w => some (pack c 0x34 [(x.toNat, 24), (a.toNat, 6), (w.toNat, 3)])
  | .resclr c x a w => some (pack c 0x34 [(1, 20), (x.toNat, 24), (a.toNat, 6), (w.toNat, 3)])
  | .resq c x d a w r => some (pack c 0x34 [(2, 20), (x.toNat, 24), (d.toNat, 13), (a.toNat, 6), (w.toNat, 3), (r.toNat, 0)])
  | .memitV c x d a n => some (pack c 0x35 [(x.toNat, 24), (d.toNat, 14), (a.toNat, 7), (n.toNat, 0)])
  | .memitP c x d a => some (pack c 0x35 [(1, 21), (x.toNat, 24), (d.toNat, 14), (a.toNat, 7)])
  | .tamp c x d a b => some (pack c 0x35 [(2, 21), (x.toNat, 24), (d.toNat, 14), (a.toNat, 7), (b.toNat, 0)])
  | .tload c x d a => some (pack c 0x35 [(3, 21), (x.toNat, 24), (d.toNat, 14), (a.toNat, 7)])
  | .tstore c x d a => some (pack c 0x35 [(4, 21), (x.toNat, 24), (d.toNat, 14), (a.toNat, 7)])
  | .tseal c => some (pack c 0x35 [(5, 21)])
  | .gzrd c x d a => some (pack c 0x35 [(6, 21), (x.toNat, 24), (d.toNat, 14), (a.toNat, 7)])
  | .tlbinv c d a b => some (pack c 0x36 [(d.toNat, 15), (a.toNat, 9), (b.toNat, 3)])
  | .winv c d a => some (pack c 0x36 [(1, 21), (d.toNat, 15), (a.toNat, 9)])
  | .hmask c k a b => some (pack c 0x36 [(2, 21), (k.toNat, 15), (a.toNat, 9), (b.toNat, 3)])
  | .evict c d a b => some (pack c 0x36 [(3, 21), (d.toNat, 15), (a.toNat, 9), (b.toNat, 3)])
  | .snap c => some (pack c 0x36 [(4, 21)])
  | .pgmap c d => some (pack c 0x36 [(5, 21), (d.toNat, 15)])
  | .bra c o lit => some (pack (c || lit.isSome) 0x38 [(o.toNat, 0), (0x380000, 0)])
  | .brc c p o lit => some (pack (c || lit.isSome) 0x38 [(1, 22), (p.toNat, 19), (o.toNat, 0)])
  | .brcn c p o lit => some (pack (c || lit.isSome) 0x38 [(2, 22), (p.toNat, 19), (o.toNat, 0)])
  | .bru c p o lit => some (pack (c || lit.isSome) 0x38 [(3, 22), (p.toNat, 19), (o.toNat, 0)])
  | .join c => some (pack c 0x38 [(4, 22), (0x380000, 0)])
  | .brx c s => some (pack c 0x38 [(5, 22), (s.toNat, 0), (0x380000, 0)])
  | .loop c p o lit => some (pack (c || lit.isSome) 0x38 [(6, 22), (p.toNat, 19), (o.toNat, 0)])
  | .call c o lit => some (pack (c || lit.isSome) 0x39 [(o.toNat, 0), (0x380000, 0)])
  | .ret c => some (pack c 0x39 [(1, 22), (0x380000, 0)])
  | .exit c p => some (pack c 0x39 [(2, 22), (p.toNat, 19)])
  | .trap c p => some (pack c 0x39 [(3, 22), (p.toNat, 19)])
  | .brk c p => some (pack c 0x39 [(4, 22), (p.toNat, 19)])
  | .yield c => some (pack c 0x39 [(5, 22), (0x380000, 0)])
  | .sleep c n => some (pack c 0x39 [(6, 22), (n.toNat, 0), (0x380000, 0)])
  | .bar c => some (pack c 0x3A [])
  | .barPub c => some (pack c 0x3A [(1, 21)])
  | .barRealloc c d a => some (pack c 0x3A [(2, 21), (d.toNat, 15), (a.toNat, 9)])
  | .barArrive c => some (pack c 0x3A [(3, 21)])
  | .barWait c => some (pack c 0x3A [(4, 21)])
  | .post c e a => some (pack c 0x3B [(e.toNat, 15), (a.toNat, 9)])
  | .lgrow c d a => some (pack c 0x3B [(1, 21), (d.toNat, 15), (a.toNat, 9)])
  | .evpost c a => some (pack c 0x3B [(2, 21), (a.toNat, 9)])
  | .depdec c a => some (pack c 0x3B [(3, 21), (a.toNat, 9)])
  | .depset c a b => some (pack c 0x3B [(4, 21), (a.toNat, 9), (b.toNat, 3)])
  | .mmq c d a s h => some (pack c 0x3C [(d.toNat, 15), (a.toNat, 8), (s.toNat, 2), (h.toNat, 0)])
  | .mmqs c d a s h => some (pack c 0x3C [(1, 22), (d.toNat, 15), (a.toNat, 8), (s.toNat, 2), (h.toNat, 0)])
  | .mmqg c d a s h => some (pack c 0x3C [(2, 22), (d.toNat, 15), (a.toNat, 8), (s.toNat, 2), (h.toNat, 0)])
  | .mtile c d s h => some (pack c 0x3C [(3, 22), (d.toNat, 15), (s.toNat, 2), (h.toNat, 0)])
  | .wbld c d a => some (pack c 0x3D [(d.toNat, 15), (a.toNat, 9)])
  | .wbinv c a => some (pack c 0x3D [(1, 21), (a.toNat, 9)])
  | .wbstat c d a => some (pack c 0x3D [(2, 21), (d.toNat, 15), (a.toNat, 9)])
  | .had16 c x d a m => some (pack c 0x3E [(x.toNat, 24), (d.toNat, 13), (a.toNat, 6), (m.toNat, 0)])
  | .had32 c x d a m => some (pack c 0x3E [(1, 20), (x.toNat, 24), (d.toNat, 13), (a.toNat, 6), (m.toNat, 0)])
  | .had64 c x d a m => some (pack c 0x3E [(2, 20), (x.toNat, 24), (d.toNat, 13), (a.toNat, 6), (m.toNat, 0)])
  | .absmax c x d a m => some (pack c 0x3E [(3, 20), (x.toNat, 24), (d.toNat, 13), (a.toNat, 6), (m.toNat, 0)])
  | .quant c x d a m => some (pack c 0x3E [(4, 20), (x.toNat, 24), (d.toNat, 13), (a.toNat, 6), (m.toNat, 0)])
  | .bmenc c x d a m => some (pack c 0x3E [(5, 20), (x.toNat, 24), (d.toNat, 13), (a.toNat, 6), (m.toNat, 0)])
  | .bmdec c x d a m => some (pack c 0x3E [(6, 20), (x.toNat, 24), (d.toNat, 13), (a.toNat, 6), (m.toNat, 0)])
  | .pscan c x d a m => some (pack c 0x3E [(7, 20), (x.toNat, 24), (d.toNat, 13), (a.toNat, 6), (m.toNat, 0)])
  | .lztok c x d a => some (pack c 0x3E [(8, 20), (x.toNat, 24), (d.toNat, 13), (a.toNat, 6)])
  | .powerOn => none
  | .measureComponent _ _ => none
  | .status _ => none
  | .reset _ => none
  | .loadimg _ => none
  | .attest _ => none
  | .snapCommand _ => none
  | .rdsnap _ => none
  | .rdlife _ => none
  | .setpkg _ => none
  | .killctx _ => none
  | .unknownCommand _ => none
  | .lifetimeFlush => none
  | .ctxCreate _ => none
  | .ctxKill _ => none
  | .ctxDestroy _ => none
  | .rcbinvWrite _ _ => none
  | .rcbInvalidationDone _ => none
  | .wtreplayByPage _ _ => none
  | .wtreplayByToken _ _ => none
  | .wtreplayByAsid _ _ => none
  | .dspostWrite _ _ _ => none
  | .dctrSet _ _ _ _ => none
  | .dctrDecrement _ _ _ _ => none
  | .lcctlCntclr _ _ => none
  | .lcctlTcdis _ _ => none
  | .snapctlClr _ _ => none
  | .thermctlRelease _ _ => none
  | .domswWrite _ => none
  | .fwWrite _ _ _ _ => none
  | .serclkWrite _ => none
  | .vobWrite _ _ _ => none
  | .vrecWrite _ _ => none
  | .gazeWrite _ _ => none
  | .embctlWrite _ _ => none
  | .dsctlWrite _ _ => none
  | .nrbaseWrite _ _ => none
  | .deviceRegisterWrite _ _ _ => none
  | .flitSend _ _ _ => none
  | .flitReceive _ _ _ => none
  | .linkRetrain _ => none
  | .retrainComplete _ => none
  | .linkDown _ => none
  | .dmaRequest _ _ _ _ _ _ => none
  | .pcieWindowCompletion _ _ _ => none
  | .thermalThrottle _ _ => none
  | .thermalReset _ _ => none
  | .thermalTokenRestore _ _ => none
  | .faultRecordWrite _ => none
  | .cardPostArrival _ => none
  | .cardStoreEntryFreed _ => none
  | .counterUpdate _ _ => none
  | .cardReady _ => none
  | .teamPlacement _ => none
  | .admholdExpiry _ => none
  | .drainDeadline _ => none
  | .launchRetirement _ _ => none
  | .eventRecord _ => none
  | .eventQueueSlotFreed _ => none
  | .decompressionJobEnd _ _ => none
  | .waitTableRewalk _ _ => none
  | .siblingStop _ => none
  | .sibhaltPop _ => none
  | .lateFailure _ => none
  | .sleepExpiry _ => none
  | .tokenHop _ _ => none
  | .burstEnd _ _ => none
  | .reallocDecision _ => none
  | .llcRequest _ => none
  | .nackResend _ => none
  | .domainSwitchPhase => none
  | .domainNackResend _ => none
  | .remoteScratchAccess _ => none
  | .cpaCopyComplete _ => none
  | .bulkCopyComplete _ => none
  | .wbldComplete _ _ => none
  | .xfmReply _ => none
  | .mtileStep _ => none
  | .sendAtRelay _ => none
  | .sendArrival _ => none
  | .sendMoved _ => none
  | .sendStatusReply _ _ => none
  | .messageAtRelay _ => none
  | .teamEviction _ => none
  | .teamRestore _ => none
  | .flueRecordWrite _ => none
  | .residencyInvalidation _ _ => none
  | .snapTriggerRoot => none
  | .snapshotLatch _ => none
  | .meshRingEntry _ => none
  | .cullInstance _ => none
  | .primitiveAtBinner _ => none
  | .primitiveAtOwner _ => none
  | .drawEndMarker _ => none
  | .primitiveApply _ _ => none
  | .stripStart _ => none
  | .sealArrival => none
  | .replacementInstant _ => none
  | .replacementNotice _ => none
  | .powerLoss => none
  | .memoryReply _ => none
  | .llcMissFill _ => none
  | .coreReset _ => none
  | .retrainingAttemptFailure _ => none

/-- The literal that extends an instruction, if one does (R315). -/
def litOf (i : Instr) : Option (BitVec 25) :=
  match i with
  | .iaddi _ _ _ _ _ lit => lit
  | .movi _ _ _ _ lit => lit
  | .saddi _ _ _ lit => lit
  | .sandi _ _ _ lit => lit
  | .sori _ _ _ lit => lit
  | .sxori _ _ _ lit => lit
  | .sshli _ _ _ lit => lit
  | .sshri _ _ _ lit => lit
  | .smovi _ _ _ lit => lit
  | .smovhi _ _ _ lit => lit
  | .ld _ _ _ _ _ _ _ lit => lit
  | .st _ _ _ _ _ _ _ lit => lit
  | .ldg _ _ _ _ _ _ lit => lit
  | .stg _ _ _ _ _ _ lit => lit
  | .lds _ _ _ _ _ _ lit => lit
  | .sts _ _ _ _ _ _ lit => lit
  | .bra _ _ lit => lit
  | .brc _ _ _ lit => lit
  | .brcn _ _ _ lit => lit
  | .bru _ _ _ lit => lit
  | .loop _ _ _ lit => lit
  | .call _ _ lit => lit
  | _ => none

/-- The instruction with a LIT joined to it; none where R336 allows none. `c` is the LIT word's chain bit. -/
noncomputable def withLit (i : Instr) (c : Bool) (l : BitVec 25) : Option Instr :=
  match i with
  | .iaddi _ x d a i none => some (.iaddi c x d a i (some l))
  | .movi _ x d i none => some (.movi c x d i (some l))
  | .saddi _ d i none => some (.saddi c d i (some l))
  | .sandi _ d i none => some (.sandi c d i (some l))
  | .sori _ d i none => some (.sori c d i (some l))
  | .sxori _ d i none => some (.sxori c d i (some l))
  | .sshli _ d i none => some (.sshli c d i (some l))
  | .sshri _ d i none => some (.sshri c d i (some l))
  | .smovi _ d i none => some (.smovi c d i (some l))
  | .smovhi _ d i none => some (.smovhi c d i (some l))
  | .ld _ x z d a w i none => some (.ld c x z d a w i (some l))
  | .st _ x z d a w i none => some (.st c x z d a w i (some l))
  | .ldg _ x z d a i none => some (.ldg c x z d a i (some l))
  | .stg _ x z d a i none => some (.stg c x z d a i (some l))
  | .lds _ x z d a i none => some (.lds c x z d a i (some l))
  | .sts _ x z d a i none => some (.sts c x z d a i (some l))
  | .bra _ o none => some (.bra c o (some l))
  | .brc _ p o none => some (.brc c p o (some l))
  | .brcn _ p o none => some (.brcn c p o (some l))
  | .bru _ p o none => some (.bru c p o (some l))
  | .loop _ p o none => some (.loop c p o (some l))
  | .call _ o none => some (.call c o (some l))
  | _ => none

/-- The chain bit of the last word of an extended instruction: that of its LIT (R315). -/
def lastChain (i : Instr) : Bool :=
  match i with
  | .iaddi c _ _ _ _ _ => c
  | .movi c _ _ _ _ => c
  | .saddi c _ _ _ => c
  | .sandi c _ _ _ => c
  | .sori c _ _ _ => c
  | .sxori c _ _ _ => c
  | .sshli c _ _ _ => c
  | .sshri c _ _ _ => c
  | .smovi c _ _ _ => c
  | .smovhi c _ _ _ => c
  | .ld c _ _ _ _ _ _ _ => c
  | .st c _ _ _ _ _ _ _ => c
  | .ldg c _ _ _ _ _ _ => c
  | .stg c _ _ _ _ _ _ => c
  | .lds c _ _ _ _ _ _ => c
  | .sts c _ _ _ _ _ _ => c
  | .bra c _ _ => c
  | .brc c _ _ _ => c
  | .brcn c _ _ _ => c
  | .bru c _ _ _ => c
  | .loop c _ _ _ => c
  | .call c _ _ => c
  | _ => false

/-- The instruction of one word; its own checks are those of R322. -/
noncomputable def decodeWord (w : Word) : Except Reject Instr :=
  match decodeRaw w with
  | .error r => .error r
  | .ok i => if i.wellFormed then .ok i else .error .illFormed

/-- The next instruction of a run of words, a LIT joined to the word before it, and the words left (R315). -/
noncomputable def decode (ws : List Word) : Except Reject (Instr × List Word) :=
  match ws with
  | [] => .error .noWord
  | w :: rest =>
    match decodeWord w with
    | .error r => .error r
    | .ok i =>
      match rest with
      | [] => .ok (i, [])
      | w2 :: rest2 =>
        if bit w 31 && num w2 25 6 == 0x3F && num w 25 6 != 0x3F then
          match withLit i (bit w2 31) (fld w2 0 25) with
          | some j => .ok (j, rest2)
          | none => .error .strayLit
        else .ok (i, w2 :: rest2)

/-- The words of an instruction: itself and the LIT that extends it. A device step has none. -/
def encode (i : Instr) : List Word :=
  match encodeWord i with
  | none => []
  | some w =>
    match litOf i with
    | none => [w]
    | some l => [w, pack (lastChain i) 0x3F [(l.toNat, 0)]]

/-- A word from four bytes, the first lowest (R1, R309). -/
def wordOfBytes : List Byte → List Word
  | a :: b :: c :: d :: rest =>
    BitVec.ofNat 32 (a.toNat + b.toNat * 2 ^ 8 + c.toNat * 2 ^ 16 + d.toNat * 2 ^ 24) :: wordOfBytes rest
  | _ => []

/-- The bytes of a word, lowest first (R1, R309). -/
def bytesOfWord (w : Word) : List Byte :=
  [BitVec.ofNat 8 w.toNat, BitVec.ofNat 8 (w.toNat / 2 ^ 8), BitVec.ofNat 8 (w.toNat / 2 ^ 16),
    BitVec.ofNat 8 (w.toNat / 2 ^ 24)]

/-- The next instruction of a run of bytes. -/
noncomputable def decodeBytes (bs : List Byte) : Except Reject (Instr × List Word) := decode (wordOfBytes bs)

/-- The host's question: the instruction in the low `nbits` bits of `w`, laid out in memory as a word of four bytes. -/
noncomputable def decodeTableWord (nbits w : Nat) : Option Instr :=
  match decodeBytes (bytesOfWord (BitVec.ofNat 32 (w % 2 ^ nbits))) with
  | .ok (i, _) => some i
  | .error _ => none

end Sys2Proof
end

