-- ==== Sys2Proof/Machine/State.lean ====
section
/-! DEFINITION. The whole package as plain data (INVENTORY.md, '## State'), the stop reasons, and the machine right
after reset. Large pieces are sparse maps (AMap) in which an unlisted key reads as the reset value named beside it. -/

namespace Sys2Proof.Machine

/-- The trap causes of R290. -/
inductive Cause where
  | illegal | regbound | priv | align | firsttouch | access | exec | overwrite | capability
  | depunder | trapinsn | brk | sibhalt | rstack | copyfault | floor | deadline
deriving DecidableEq, Repr

/-- The fault-record reasons of R298. -/
inductive Reason where
  | none | notmapped | perm | badpte | poolempty | poollow | noncanon | nowin | scrbound | noteam | fwwrite
  | nophys | noctx | linkdown | ecc | poison | badtrd | trdbound | firnclr | floor | noexec | depunder | badcard
  | baddraw | badtile | statsfault | drain | killed | thermal | rstack | dmafault | structfault
deriving DecidableEq, Repr

/-- What an access needs of a leaf (R194, R197). -/
inductive Acc where
  | load | store | atomic | fetch
deriving DecidableEq, Repr

/-- A register the scoreboard tracks (R157). -/
inductive RegId where
  | vec (n : Nat) | scl (n : Nat) | pred (n : Nat) | win (n : Nat) | ix
deriving DecidableEq, Repr

/-- The pipes of R151. -/
inductive Pipe where
  | a | m | x | none
deriving DecidableEq, Repr

/-- A window register (R188). -/
structure Window where
  vbase : BitVec 56 := 0
  tag   : BitVec 8 := 0
  frame : BitVec 46 := 0
  limit : BitVec 31 := 0
  w     : Bool := false
  r     : Bool := false
  u     : Bool := false
  bound : Bool := false
  live  : Bool := false
deriving DecidableEq, Repr

/-- The kind of a reconvergence-stack entry (R168). -/
inductive EntryKind where
  | div | call | trap
  /-- A stored entry that R168 makes ILLEGAL to pop. -/
  | bad
deriving DecidableEq, Repr

/-- A reconvergence-stack entry (R168); PPC and RPC carry the tag of the address while held. -/
structure StackEntry where
  kind  : EntryKind
  mask  : Word
  pmask : Word := 0
  ppc   : Dword := 0
  rpc   : Dword := 0
  cause : BitVec 8 := 0
  skid  : BitVec 2 := 0
  mode  : BitVec 8 := 0
deriving DecidableEq, Repr

/-- One copy batch tag (R422). -/
structure CopyTag where
  count : Nat := 0
  fail  : Bool := false
  fmask : Word := 0
  /-- The group has been restored since the failure, and FMASK is lost (R422, R424). -/
  lost  : Bool := false
deriving DecidableEq, Repr

/-- A fault record before it is given its sequence number and written (R298). -/
structure FaultRec where
  cause   : BitVec 8
  reason  : Reason
  ctx     : Nat
  region  : Nat
  die     : Nat
  core    : Nat
  team    : Word := 0
  mask    : Word := 0
  pc      : Dword := 0
  addr    : Dword := 0
  token   : Word := 0
  info    : Word := 0
  /-- true: the record is bound for the root region of `ctx` whatever `region` says. -/
  toRoot  : Bool := false
deriving DecidableEq, Repr

/-- A cause raised by a word: its mask, whether it resumes at the next chain, and the fault record it leaves, if any
(R290, R292). -/
structure Raise where
  cause  : Cause
  mask   : Word
  next   : Bool := false
  reason : Reason := .none
  addr   : Dword := 0
  info   : Word := 0
deriving DecidableEq, Repr

/-- A request to park (R194): reason, lanes, lowest faulting address, access kind, page key or token, record INFO. -/
structure ParkReq where
  reason : Reason
  mask   : Word
  addr   : Dword
  acc    : Acc
  byPage : Bool
  user   : Bool
  info   : Word := 0
deriving DecidableEq, Repr

/-- What a group waits for after its instruction has issued (R12). -/
inductive Wait where
  | barrier (phase : Nat) (acquire : Bool)
  | realloc (dest : Nat)
  | counter
  | send (id : Nat)
  | domain (dest : Nat)
  | evict (dest : Nat)
  /-- A macro operation: accumulator, progress register, `.ovr`, and its command block as read at issue (R450). -/
  | mtile (d : Nat) (s : Nat) (ovr : Bool) (block : List Byte)
  /-- A macro operation that has done its last step. -/
  | mtileDone
  /-- A `.t` send whose status has come: the instruction goes on to its end, or traps, at the group's next turn (R279). -/
  | sendDone (code : Nat)
  | tamp (left : Nat) (writes : List (Nat × Word))
  | post
  /-- A shootdown waits for the accesses translated before it: requests, and weight loads by team and slot (R187). -/
  | drain (ids : List Nat) (loads : List (Nat × Nat))
deriving DecidableEq, Repr

/-- The code translation of a group's current page, and whether user mode may fetch by it (R198). -/
structure CodeTr where
  page : Nat
  pa   : Nat
  u    : Bool := false
deriving DecidableEq, Repr

/-- A group's architected state (R148) and its place on the core. -/
structure Group where
  pc        : Dword := 0
  active    : Word := 0
  /-- Stack entries held in the core, top first (R169). -/
  held      : List StackEntry := []
  depth     : Nat := 0
  sregs     : AMap Word := []
  vregs     : AMap Word := []
  preds     : AMap Word := []
  ix        : BitVec 8 := 0
  windows   : AMap Window := []
  cpCur     : BitVec 2 := 0
  cpTags    : AMap CopyTag := []
  fpm       : Word := 0
  tag       : Word := 0
  mode      : Word := 0
  trapbase  : Dword := 0
  rsbase    : Dword := 0
  lfsr      : AMap Word := []
  faddr     : AMap Dword := []
  await     : BitVec 256 := 0
  /-- Awaited registers whose value came by `rsend.rel`: the first reading use acquires (R233). Key: register. -/
  acquire   : AMap (BitVec 2) := []
  ovwc      : Word := 0
  plm       : Word := 0
  /-- Lanes that have exited or were never there (R382, R403). -/
  gone      : Word := 0
  /-- The chain whose gather or scatter is pending under PLM: its pc and the stack depth it ran at (R299). -/
  plmAt     : Option (Dword × Nat) := none
  /-- Registers pending on the scoreboard, each with the request that clears it (R157). -/
  pending   : List (RegId × Nat) := []
  sched     : Nat := 0
  slot      : Nat := 0
  lastIssue : Nat := 0
  /-- The group has issued no chain since it became resident; `lastIssue` is the clock of its placement (R155, R173). -/
  idle      : Bool := false
  exited    : Bool := false
  parked    : Option Nat := none
  parkReq   : Option ParkReq := none
  halted    : Bool := false
  /-- The halt signal has come: the packets of SKID so far; 4 for a group that it woke, which issues none (R173, R386). -/
  haltSeen  : Option Nat := none
  sleepTo   : Option Nat := none
  waiting   : Option Wait := none
  /-- The group's next chain was found not ready in this clock (R154). -/
  stalled   : Bool := false
  /-- The group holds a matrix word for want of an ember token (R178 to R180). -/
  wants     : Bool := false
  /-- ACT = 1 or DELIVER: the fault is to be taken in-lane instead of a re-execution (R195, R305). -/
  deliver   : Option Raise := none
  late      : Option Word := none
  fetched   : List (Nat × Line) := []
  codeTr    : Option CodeTr := none
  /-- The group has not yet issued since it was placed: its pc is the card's ENTRY (R331). -/
  entry     : Bool := false
  /-- The fetch block whose trailer was last checked (R310). -/
  block     : Option Nat := none
  /-- Latest barrier phase the group arrived in (R388). -/
  arrived   : Option Nat := none
  /-- Requests of tiered loads that `resfence` waits for (R262). -/
  resWait   : List Nat := []
  /-- The divergent branches not yet reconverged, by the depth of their entry: the number of the first request after the branch, and of
  the first after the switch to the other path (R220). -/
  paths     : AMap (Nat × Option Nat) := []
  /-- The vector and scalar registers as a chain with an `mtile` read them at its issue, while the macro operation runs (R314). -/
  tileSrc   : Option (AMap Word × AMap Word) := none
deriving DecidableEq, Repr

/-- A message ring of a team (R287): HEAD and FREE run freely. -/
structure Ring where
  en    : Bool := false
  base  : Nat := 0
  log   : Nat := 0
  slot  : Nat := 0
  head  : Nat := 0
  free  : Nat := 0
  /-- Next slot to be taken by an `mwait`. -/
  next  : Nat := 0
  /-- Slots taken and not freed: slot number and taking group. -/
  taken : List (Nat × Nat) := []
deriving DecidableEq, Repr

/-- A team's weight-buffer slot (R452 to R455). -/
structure WSlot where
  held    : Bool := false
  valid   : Bool := false
  loading : Bool := false
  failed  : Bool := false
  lstat   : Nat := 0
  /-- The structure kind of R60 in which the read behind LSTAT 3 failed. -/
  errIn   : Nat := 0
  fmt     : Nat := 0
  half    : Bool := false
  image   : Dword := 0
  /-- The physical address of the image, decoded at issue (R454). -/
  pa      : Nat := 0
  /-- The image's bytes as loaded. -/
  bytes   : List Byte := []
deriving DecidableEq, Repr

/-- One meshlet's emitted vertices and primitives (R106, R464, R465). -/
structure Meshlet where
  /-- Key: vertex × 19 + component (x, y, z, attributes). -/
  verts : AMap Word := []
  /-- Key: primitive; value: V[A] of `memit.p`. -/
  prims : AMap Word := []
deriving DecidableEq, Repr

/-- What the work of one strip of one view goes by (R116, R119, R122): the view, the strip and its frame number, the
view record, and the latched gaze. -/
structure StripGeo where
  view  : Nat := 0
  strip : Nat := 0
  frame : Nat := 0
  rec_  : List Byte := []
  gx    : Half := 0
  gy    : Half := 0
deriving DecidableEq, Repr

/-- What the team was placed for (R69 STAGE, R105, R129, R146). -/
inductive TeamKind where
  | compute
  | task
  | mesh (order : Nat)
  | tile (geo : StripGeo) (tx ty : Nat) (fr : Dword)
  | ray
deriving DecidableEq, Repr

/-- A resident team, keyed by its handle (R96, R147). -/
structure Team where
  gen       : Nat := 0
  ctx       : Nat := 0
  region    : Nat := 0
  die       : Nat := 0
  slot      : Nat := 0
  tidx      : Nat := 0
  core      : Nat := 0
  regs      : Nat := 0
  scr       : Nat := 0
  tthr      : Nat := 0
  ngroups   : Nat := 0
  scratch   : AMap Byte := []
  barPhase  : Nat := 0
  barIn     : Word := 0
  reallocs  : AMap Word := []
  rings     : AMap Ring := []
  wslots    : AMap WSlot := []
  kind      : TeamKind := .compute
  meshlet   : Meshlet := {}
  parkedCnt : Nat := 0
  halting   : Bool := false
  /-- The clock at which the halt ended, from which the SIBHALT entries are popped (R175). -/
  freedAt   : Nat := 0
  /-- An eviction (TSA address) or restore is in progress (R303, R305). -/
  evicting  : Option (Nat × Nat) := none
  drainAt   : Option Nat := none
  noticed   : Bool := false
  sealed    : Bool := false
  /-- A tile team's ownership tags, by sample: (DRAWSEQ, ordinal) as a number, or none while empty (R130, R133). -/
  tags      : AMap Nat := []
  /-- The coefficients in a tile team's plane blocks, by the block's offset (R472). -/
  planes    : AMap (List Word) := []
deriving DecidableEq, Repr

/-- Where a card stands (R73 to R91). -/
inductive CardSt where
  | gated (park : Nat) | released | ready (seq : Nat) | serving | engine | bad
deriving DecidableEq, Repr

/-- A posted card in a die's card store, with its launch (R69, R90). -/
structure Card where
  bits      : Line
  addr      : Dword
  ctx       : Nat
  posted    : Nat
  st        : CardSt
  seq       : Nat := 0
  /-- The launch's team-count register and the next index to issue (R90). -/
  count     : Nat := 0
  next      : Nat := 0
  live      : Nat := 0
  placed    : Bool := false
  /-- A team of the launch was killed; its unissued indices are discarded (R302). -/
  killed    : Bool := false
  lost      : Bool := false
  skipped   : Bool := false
  gateCore  : Option Nat := none
  /-- The core on which the launch's last team exited (R88). -/
  lastExit  : Option Nat := none
  /-- The stage's record and its frame record, as read when the card became ready (R99, R115, R128, R146). -/
  drec      : List Byte := []
  frec      : List Byte := []
  /-- The strip of a tile or warped ray card, once latched; false: the team count is still to be set (R129, R146). -/
  geo       : StripGeo := {}
  counted   : Bool := true
  tags      : List Nat := []
  /-- Evicted teams queued for restore: handle and TSA address (R97). -/
  restores  : List (Nat × Nat) := []
  /-- Mesh groups requested and not yet exited, draw order next, draw counters (R100 to R107). -/
  meshLive  : Nat := 0
  order     : Nat := 0
  passed    : Nat := 0
  ordinal   : Nat := 0
  cullNext  : Nat := 0
  cullDone  : Bool := true
  ampDrop   : Nat := 0
  vDrop     : Nat := 0
  pDrop     : Nat := 0
  rjCount   : Nat := 0
  lateDrop  : Nat := 0
  drawFlags : Nat := 0
  /-- The team count cannot grow: co-resident, tile, ray MODE 1 or culled (R392). -/
  noGrow    : Bool := false
  firstAt   : Option Nat := none
  /-- The launch has retired, and its card is freed at this clock, its successor decrements having left (R91, R492). -/
  freeAt    : Option Nat := none
deriving DecidableEq, Repr

/-- A post on its way to a die sequencer (R73, R80): source rank and card bytes. -/
structure Post where
  rank   : Nat
  bits   : Line
  addr   : Dword
  ctx    : Nat
  /-- The poster's fault domain: region, or none for a control core. -/
  region : Option Nat
  /-- The post found the card store full: it is held, and so is the group it names (R73, R81). -/
  held   : Bool := false
  group  : Option Nat := none
deriving DecidableEq, Repr

/-- An operation on its way to a dependency counter (R78, R80). -/
inductive CtrKind where
  | set (v : Nat) | dec | park (slot : Nat)
deriving DecidableEq, Repr

/-- Who sent a counter operation (R79). -/
inductive CtrSrc where
  | retire (ctx region die : Nat) (core : Option Nat) | event (ctx region die : Nat) | depdec (group ctx region : Nat) | control (cc : Nat)
deriving DecidableEq, Repr

structure CtrOp where
  idx  : Nat
  kind : CtrKind
  src  : CtrSrc
  rank : Nat
  /-- The clock in which it leaves its die sequencer (R492). -/
  leaves : Nat := 0
deriving DecidableEq, Repr

/-- An event record (R82) with the context, region and card it came from. -/
structure Event where
  bits   : BitVec 128
  ctx    : Nat
  region : Nat
  /-- The record of an engine held for want of a slot carries the barrier step to make (R430): team (handle + 2^20 × generation),
  offset, sectors, failed. -/
  bar    : Option (Nat × Nat × Nat × Bool) := none
  /-- The record's decrement is made, and it waits at the head of the queue for its die's counter or for room in a card store (R83). -/
  stuck  : Bool := false
  /-- The decompression card that retires with the record: its slot and its place among the posts (R437, R478). -/
  job    : Option (Nat × Nat) := none
deriving DecidableEq, Repr

/-- An entry of a die's wait table (R194). -/
structure WaitEntry where
  byPage : Bool
  asid   : Nat
  page   : Nat
  acc    : Acc
  user   : Bool
  ctx    : Nat
  rewalk : Bool
deriving DecidableEq, Repr

/-- Exception statistics of one tag (R254). -/
structure Stats where
  sat : Word := 0
  ftz : Word := 0
  nan : Word := 0
deriving DecidableEq, Repr

/-- A mesh-group request (R104, R108): requesting group (none for the cull unit), card slot, count, payload. -/
structure MeshReq where
  group   : Option Nat
  slot    : Nat
  n       : Nat
  payload : Dword
deriving DecidableEq, Repr

/-- An entry of the mesh payload ring: one pending mesh group (R103). -/
structure MeshEnt where
  slot    : Nat
  k       : Nat
  order   : Nat
  payload : Dword
deriving DecidableEq, Repr

/-- An emitted primitive: three vertices (x, y, z and 16 attributes each), rate, key (R107, R124). -/
structure Prim where
  slot    : Nat
  draw    : Nat
  ordinal : Nat
  rate    : Nat
  verts   : List (List Word)
  /-- The views for which it is still to be binned (R114, R122). -/
  views   : List Nat
deriving DecidableEq, Repr

/-- A finished meshlet waiting at the binner for its turn in draw order (R107). -/
structure MeshOut where
  slot  : Nat
  order : Nat
  out   : Meshlet
deriving DecidableEq, Repr

/-- A primitive set up for one view, as sent to a tile owner (R114, R118, R124). -/
structure ViewPrim where
  draw  : Nat
  ord   : Nat
  rate  : Nat
  /-- The draw's die pair and card slot. -/
  die   : Nat
  slot  : Nat
  /-- The draw's number in the order of posts on its die. -/
  post  : Nat := 0
  /-- Clip coordinates x, y, z, w and 16 attributes of each of the three vertices, FP32. -/
  verts : List (List Word)
deriving DecidableEq, Repr

/-- What travels from a binner to a tile owner (R124, R125). -/
inductive BinMsg where
  | prim (fr : Dword) (frame ctx : Nat) (view strip tx ty : Nat) (p : ViewPrim)
  /-- `src`: the die pair of the binner. -/
  | marker (fr : Dword) (frame ctx : Nat) (draw src : Nat)
deriving DecidableEq, Repr

/-- The owner's state of one tile (R124 to R132); the frame record and its number name the frame. -/
structure Tile where
  view  : Nat
  strip : Nat
  tx    : Nat
  ty    : Nat
  fr    : Dword
  frame : Nat
  ctx   : Nat
  /-- Primitives in the tile list, and those that a partial flush has moved to the tile's flush slot (R126). -/
  prims : List ViewPrim := []
  moved : List ViewPrim := []
  flushed : Bool := false
  /-- The bound team's handle and the generation it was placed with. -/
  team  : Option Nat := none
  gen   : Nat := 0
  /-- Quad records of the primitive applied last that the quad ring has had no room for (R132). -/
  quads : List Nat := []
  /-- The bound team has sealed the tile (R127). -/
  sealed : Bool := false
  ended : Bool := false
  abandoned : Bool := false
  late  : Bool := false
deriving DecidableEq, Repr

/-- A decompression job in the engine: its card's slot, and its event record while the queue is full (R434 to R437, R82). -/
structure Job where
  slot  : Nat
  event : Option Event := none
deriving DecidableEq, Repr

/-- A flue record on its way to its ring (R266, R269). -/
structure FlueRec where
  ring   : Nat
  rid    : Nat
  wanted : Nat
  got    : Nat
  nest   : Bool
  px     : Nat
  py     : Nat
  region : Nat
  core   : Nat
  ctx    : Nat
  seq    : Nat
deriving DecidableEq, Repr

/-- An ember token: at a cluster, or hopping to one until a clock (R176, R177). -/
structure Token where
  cluster : Nat
  arrives : Option Nat
  start   : Nat := 0
  /-- The first of the clocks up to now in which the cluster has issued no matrix word (R177). -/
  idle    : Nat := 0
deriving DecidableEq, Repr

/-- Six tokens, one at each cluster, as a die's reset leaves them (R176). -/
def freshTokens (clock : Nat) : List Token := (List.range 6).map fun c => { cluster := c, arrives := none, start := clock, idle := clock }

/-- A die pair's sequencer, counters, engines and registers (R17). -/
structure Die where
  running   : Bool := false
  /-- `sr.cycle` is the clock less this; the clock at which this last grew because the die's own clock fell behind (R19, R20). -/
  cycleBase : Nat := 0
  slipAt    : Nat := 0
  dsctl     : Word := 0x0003E800#32
  rcbinv    : Word := 0
  rcbinvHeld : List Word := []
  rcbCache  : List (Nat × Nat) := []
  /-- RCBs whose read failed and was recorded (R63). -/
  rcbBad    : List (Nat × Nat) := []
  overflow  : Nat := 0
  nrbase    : Dword := 0
  nrirq     : Word := 0
  dtrapbase : Dword := 0
  embTcnt   : BitVec 3 := 6
  tokens    : List Token := freshTokens 0
  hearthReq : List Nat := []
  /-- The spec gives TEMP no reset value: 0 is a DESIGN CHOICE (log entry 5). -/
  temp      : BitVec 8 := 0
  heldReset : Bool := false
  tokenSave : Option (BitVec 3) := none
  ctrs      : AMap (BitVec 20) := []
  ctrOps    : List CtrOp := []
  /-- The clock after the last in which a counter was updated (R78). -/
  ctrAt     : AMap Nat := []
  posts     : List Post := []
  cards     : AMap Card := []
  queueSeq  : Nat := 0
  parkSeq   : Nat := 0
  readySeq  : Word := 0
  /-- The clock after the last in which cards became ready (R85). -/
  readyAt   : Nat := 0
  /-- By view × 4 + strip: context, frame record and frame of each tile card that has become ready (R128). -/
  tileSeen  : AMap (List (Nat × Dword × Nat)) := []
  events    : List Event := []
  heldEvents : List Event := []
  waits     : AMap WaitEntry := []
  stats     : AMap Stats := []
  ringLog   : Option Nat := none
  meshReqs  : List MeshReq := []
  meshRing  : List MeshEnt := []
  meshOuts  : List MeshOut := []
  prims     : List Prim := []
  binMsgs   : List BinMsg := []
  /-- Draw-end markers received: frame record, frame, context, DRAWSEQ (R124). -/
  markers   : List (Dword × Nat × Nat × Nat) := []
  tiles     : AMap Tile := []
  /-- The binners whose first primitive has found the tile lists full and made its flush, which freed nothing (R126). -/
  flushed   : List Nat := []
  jobs      : List Job := []
  handles   : List Nat := []
  fseq      : Word := 0
  frecs     : List FaultRec := []
  flueSeq   : Word := 0
  flues     : List FlueRec := []
  /-- Snapshot counters of the sequencer (R56). -/
  released  : Nat := 0
  discarded : Nat := 0
  notifyLost : Nat := 0
  flueLost  : Nat := 0
  /-- Adjusted deadlines in progress: co-resident card first since (R87). -/
  admitHold : Option (Nat × Nat) := none
deriving DecidableEq, Repr

/-- A cached leaf translation (R186). -/
structure TlbEntry where
  asid  : Nat
  glob  : Bool
  page  : Nat
  size  : Nat
  pa    : Nat
  r     : Bool
  w     : Bool
  x     : Bool
  u     : Bool
deriving DecidableEq, Repr

/-- A key of a core's flue filter (R267). -/
structure FlueKey where
  ring : Nat
  rid  : Nat
  lvl  : Nat
  px   : Nat
  py   : Nat
deriving DecidableEq, Repr

/-- A core's shared state (R153, R160 to R180). -/
structure Core where
  carve    : Nat := 0
  refusing : Bool := false
  l1       : AMap Line := []
  tlb      : List TlbEntry := []
  icache   : AMap Line := []
  resCache : AMap Word := []
  /-- Invalidations of map words on their way to this core, each with the group whose change it follows (R262). -/
  resInval : List (Nat × Nat) := []
  flueKeys : List FlueKey := []
  embstall : Word := 0
  issued   : AMap Nat := []
  /-- The clock in which each scheduler last issued (one chain per clock, R155). -/
  schedAt  : AMap Nat := []
  /-- Units that are occupied for longer than a clock, each with the clock from which it is free (R152, R300). Key: 8 × scheduler + 0
  SFU, 1 FP64, 2 matrix array, 4 to 7 the accumulator shadow's slots; 32: the transform pipe. -/
  units    : AMap Nat := []
  /-- Streams of B out of the weight buffer's halves: half, bytes a clock, and the clock after the last (R448). -/
  streams  : List (Bool × Nat × Nat) := []
  /-- A drain: the requester's class and card slot (R92, R93). -/
  draining : Option (Nat × Nat) := none
deriving DecidableEq, Repr

/-- What a memory request does (R203, R204, R411). -/
inductive ReqOp where
  | load (reg : Nat) (code : BitVec 3)
  | uload (reg : Nat)
  | store
  | atom (op : BitVec 4) (ret : Bool) (reg : Nat)
  | prefetch
  /-- A residency bit set or cleared at its word's home slice (R262). -/
  | resbit (set : Bool) (bit : Nat)
  /-- A residency bit read there, with or without a clear of the flue filter after the reads (R420). -/
  | resq (reg bit : Nat) (clear : Bool)
  /-- A texel of a sample in progress (R419). -/
  | texel (sample idx : Nat)
  /-- A control core's atomic of `w` bits: 0 add, 1 swap, 2 and, 3 or, 4 xor, 5 min, 6 max, 7 unsigned min, 8 unsigned max (R39). -/
  | ctlAtom (f : BitVec 4) (w : Nat)
deriving DecidableEq, Repr

/-- Where a request goes. -/
inductive ReqSpace where
  | llc | pcie | dev | remote (handle : Nat)
deriving DecidableEq, Repr

/-- How far a request has come (R203, R212). -/
inductive ReqSt where
  | flying | conflict | miss | nackBusy (until_ : Nat) | nackDomain | moved | done | failed (r : Reason)
deriving DecidableEq, Repr

/-- A memory request of one lane (or of the whole group for a uniform load). The core is the input of the butterfly (R205): a core's
number, 200 + n for control core n, 216 + n for fabric ingress n. -/
structure Req where
  group : Nat
  core  : Nat
  lane  : Nat
  op    : ReqOp
  space : ReqSpace
  pa    : Nat
  va    : Dword
  size  : Nat
  data  : BitVec 128 := 0
  fill  : Bool := false
  st    : ReqSt := .flying
  val   : BitVec 128 := 0
  line  : Option Line := none
  order : Nat := 0
  /-- The order in which its slice performed it (R206). -/
  seq   : Nat := 0
  /-- A request from another package: the package, and its own number for it (R28). -/
  origin : Option (Nat × Nat) := none
  /-- The issuing group's place, which a late record and a retirement still need when the group has gone. -/
  ctx    : Nat := 0
  region : Nat := 0
  die    : Nat := 0
  slot   : Nat := 0
  /-- false: the group has exited or gone, and nothing comes back to it. -/
  live   : Bool := true
  /-- Residency-map words that the tiered load judged by (R262). -/
  words  : List Nat := []
deriving DecidableEq, Repr

/-- A lane's sample whose texels are on their way (R419): destination, texel format, texels by index (0 to 3 at the level
returned, 4 to 7 at the next), weights in 256ths, and how many texels it takes (1, 4 or 8). -/
structure Sample where
  group  : Nat
  lane   : Nat
  reg    : Nat
  tfmt   : Nat
  need   : Nat
  texels : AMap Nat := []
  fx     : Nat × Nat := (0, 0)
  fx1    : Nat × Nat := (0, 0)
  fl     : Nat := 0
  failed : Bool := false
deriving DecidableEq, Repr

/-- A per-lane copy (R421). -/
structure LaneCopy where
  group : Nat
  lane  : Nat
  tag   : Nat
  inst  : Nat
  toGlobal : Bool
  size  : Nat
  valid : Nat
  scr   : Nat
  /-- The window as it stood at issue, its number, and the global offset. -/
  win   : Window
  wnum  : Nat
  off   : Dword
  sup   : Bool
  /-- The resume point, for the record of a failure (R307). -/
  pc    : Dword
  /-- The links that have been taken down under it: each fails the copy if its bytes cross there (R32). -/
  lost  : List LinkId := []
  /-- The team as it stood when its last group exited, where the copy is still to be completed (R383). -/
  left  : Option Team := none
deriving DecidableEq, Repr

/-- A bulk copy (R426 to R431). -/
structure Bulk where
  group : Nat
  slot  : Nat
  core  : Nat
  team  : Nat
  gen   : Nat
  ctx   : Nat
  region : Nat
  die   : Nat
  quant : Bool
  gbase : Dword
  bar   : Nat
  desc  : List Byte
  tag   : Nat
  sup   : Bool
  mask  : Word
  pc    : Dword
  lost  : List LinkId := []
  /-- The launch's number in the order of posts on its die. -/
  post  : Nat := 0
deriving DecidableEq, Repr

/-- A transform-pipe reply (R457). -/
structure XfmReply where
  group  : Nat
  writes : List (Nat × Word)
deriving DecidableEq, Repr

/-- How far a send or message has come (R278 to R288). -/
inductive SendSt where
  | atRelay | toCore | moved | replied (code : Nat)
deriving DecidableEq, Repr

/-- A register send or message (R277, R288). -/
structure Send where
  group  : Nat
  msg    : Bool
  sreg   : Nat
  trap   : Bool
  rel    : Bool
  rnc    : Dword
  k      : Nat
  lmask  : Word
  /-- Words of the sent lanes: register offset × 32 + lane; or the payload bytes. -/
  words  : List (Nat × Word)
  bytes  : List Byte
  ctx    : Nat
  remote : Option Nat
  scope  : BitVec 2
  mask   : Word
  pc     : Dword
  st     : SendSt := .atRelay
  /-- The core and the birth generation of the team for which the relay has verified the send. -/
  core   : Nat := 0
  gen    : Nat := 0
  /-- false: the sending group has gone, and no status returns to it. -/
  live   : Bool := true
  /-- A send from another package: the package, and its own number for it (R286). -/
  origin : Option (Nat × Nat) := none
  /-- The butterfly input from which it goes: the sender's core, or the ingress at which one from another package came (R205). -/
  inp    : Nat := 0
  /-- The slice that has relayed it (R208). -/
  slice  : Option Nat := none
deriving DecidableEq, Repr

/-- What travels between packages (R28, R286): accesses to memory by physical address, accesses to a team's scratchpad by handle, register
sends and messages, each with the sender's number for it, and replies with a status and a value. -/
inductive FabricMsg where
  | access (id asid pa size : Nat) (op : ReqOp) (data : BitVec 128)
  | scratch (id ctx handle off size : Nat) (op : ReqOp) (data : BitVec 128)
  | send (id ctx : Nat) (msg rel : Bool) (rnc : Dword) (k : Nat) (lmask : Word) (words : List (Nat × Word)) (bytes : List Byte)
  | reply (id code : Nat) (val : BitVec 128)
deriving DecidableEq, Repr

/-- A domain switch in progress (R212, R496). -/
structure DomSwitch where
  k     : Nat
  idw   : Dword
  hmask : Dword
  phase : Nat
  group : Option Nat
deriving DecidableEq, Repr

/-- A line of an LLC slice (R202). -/
structure LlcLine where
  data  : Line
  dirty : Bool
deriving DecidableEq, Repr

/-- Where a bit error lies (R58, R60): an LLC line, a 32-byte HBM sector, the registers or scratchpad of a team, a slot of its weight
buffer, a core's L1 line, residency-cache word, TLB page or instruction-cache line. -/
inductive EccPlace where
  | llc (line : Nat) | hbm (sector : Nat) | store (team : Nat) | weight (team slot : Nat)
  | l1 (core line : Nat) | resid (core word : Nat) | tlb (core page : Nat) | icache (core line : Nat)
deriving DecidableEq, Repr

/-- An error that the next read meets (R58, R59): one bit, which is corrected in place, or more, which a retry gets past or does not. -/
inductive EccErr where
  | single | transient | lasting
deriving DecidableEq, Repr

/-- The memory side: HBM, the slices, the requests in flight, domains and format windows. -/
structure Mem where
  hbm      : List Host.Cell := []
  llc      : AMap LlcLine := []
  poison   : List Nat := []
  /-- Errors that the next read of their place meets (R58, R59). -/
  errs     : List (EccPlace × EccErr) := []
  /-- Retired rows, ways and pages in force, as the lifetime record lists them (R60). -/
  retired  : List Dword := []
  /-- Lines with a miss entry (R203). -/
  missing  : List Nat := []
  net      : AMap Req := []
  nextId   : Nat := 0
  idw      : AMap Dword := []
  hmask    : AMap Dword := []
  idws     : AMap Dword := []
  hmasks   : AMap Dword := []
  domReg   : BitVec 4 := 0
  domRefused : Bool := false
  domSw    : Option DomSwitch := none
  domQueue : List DomSwitch := []
  /-- Writes of DOMSW held while an earlier one is in progress (R496). -/
  domHeld  : List Nat := []
  /-- Format windows: key 16 × controller + k; and the words written since a register's highest was, key 4 × the register's + word
  (R18, R213). -/
  fw       : AMap (BitVec 256) := []
  fwStage  : AMap Dword := []
  nacks    : AMap Nat := []
  hits     : AMap Nat := []
  misses   : AMap Nat := []
  mcReads  : AMap Nat := []
  mcWrites : AMap Nat := []
  mcDecodes : AMap Nat := []
deriving DecidableEq, Repr

/-- A link's transmit and receive sides (R22 to R32). -/
inductive LinkSt where
  | off | up | retraining (failed : Nat) | down
deriving DecidableEq, Repr

structure Flit where
  seq    : BitVec 12
  tc     : BitVec 2
  mode   : BitVec 2
  header : Dword
  beats  : List Byte
deriving DecidableEq, Repr

structure Link where
  st       : LinkSt := .off
  tcdis    : BitVec 4 := 0
  flits    : Dword := 0
  zr       : Dword := 0
  bd       : Dword := 0
  bm       : Dword := 0
  beat     : Dword := 0
  txSeq    : BitVec 12 := 0
  rxSeq    : BitVec 12 := 0
  rxAny    : Bool := false
  replay   : List Flit := []
  queued   : List (BitVec 2 × List Byte) := []
  received : List (BitVec 2 × List Byte) := []
  sent     : List Flit := []
  /-- Flits received, and the counts at which the latest nine failed ones came (R31). -/
  window   : Nat := 0
  retryAt  : List Nat := []
  retrains : Nat := 0
  failures : Nat := 0
  /-- The clock at which the retraining attempt in progress began (R31). -/
  since    : Nat := 0
  /-- A flit has been received that no flit sent since has acknowledged (R26). -/
  ackDue   : Bool := false
  /-- What is left of the turn of traffic classes 1 to 3 (R29). -/
  credits  : AMap Nat := []
deriving DecidableEq, Repr

/-- Boot and measurement (R45 to R54). -/
inductive BootPhase where
  | off
  /-- The firmware brings the device up; `step`: the steps of R48 done, each die pair's release a step of its own. -/
  | starting (step : Nat)
  | running | waiting
deriving DecidableEq, Repr

/-- The lifetime counters that count up (R61), keyed by item. -/
structure Life where
  counts  : AMap Nat := []
  retired : List Dword := []
deriving DecidableEq, Repr

structure Boot where
  phase     : BootPhase := .off
  flash     : List Byte := []
  keyDigest : BitVec 256 := 0
  rollback  : Nat := 0
  meas      : BitVec 256 := 0
  mlog      : List (BitVec 16 × BitVec 256) := []
  pkg       : Option (BitVec 10) := none
  pkgPending : Option (BitVec 10) := none
  opKeys    : List (BitVec 512) := []
  /-- The image whose firmware runs, and the management port's addresses from its configuration block (R45). -/
  image     : List Byte := []
  addresses : List Byte := []
  /-- The security version number of the image that runs (R45, R50). -/
  svn       : Nat := 0
  lastSeq   : Nat := 0
  stream    : List Byte := []
  quoteFor  : Option (List Byte) := none
  quote     : List Byte := []
  replies   : List (List Byte) := []
  sram      : Life := {}
  nv        : Life := {}
  /-- The clock of the latest write of the counts to the non-volatile store (R62). -/
  flushedAt : Nat := 0
deriving DecidableEq, Repr

/-- Snapshot state of a die or I/O die (R55 to R57). -/
structure Snap where
  seq    : BitVec 8 := 0
  missed : BitVec 8 := 0
  full   : Bool := false
  hold   : Bool := false
  values : List (Nat × Nat) := []
  /-- Triggers broadcast and not yet latched, each with the clock of its arrival at the root. -/
  due    : List (BitVec 8 × Nat) := []
deriving DecidableEq, Repr

/-- One view of the serialiser (R120, R121, R141 to R145, R499). -/
structure View where
  gaze    : Word := 0
  glatch  : Dword := 0
  /-- The latest latch of each strip, in GLATCH's layout (R470). -/
  latches : AMap Dword := []
  /-- Every latch since the view was enabled, in the same layout (R121, R129, R146). -/
  past    : List Dword := []
  vob     : BitVec 512 := 0
  vobStage : BitVec 512 := 0
  vrec    : Dword := 0
  /-- The view record's bytes read at the latest strip start; none: no copy or an empty grid. -/
  record  : Option (List Byte) := none
  /-- Number of the latest strip (4 × frame + strip), its geometry and deadline, and whether it is still open. -/
  strip   : Option Nat := none
  geo     : StripGeo := {}
  deadline : Nat := 0
  opened  : Bool := false
  /-- The clock after the one in which a strip was last closed (R138). -/
  closedAt : Nat := 0
  accepted : List (Nat × Nat) := []
  /-- RGBA8 tiles of the strip in progress, for the history (R143). -/
  tiles   : List ((Nat × Nat) × List Byte) := []
  /-- History: the geometry of each strip held (R143). -/
  history : AMap StripGeo := []
  late    : Nat := 0
  sealLate : Nat := 0
  emitted : Nat := 0
deriving DecidableEq, Repr

/-- A sealed tile on its way to the serialiser (R138). -/
structure Seal where
  view   : Nat
  strip  : Nat
  frame  : Nat
  tx     : Nat
  ty     : Nat
  colour : List Byte
deriving DecidableEq, Repr

/-- The serialiser and the display output. -/
structure Display where
  serclk : Word := 0x00010400#32
  scount : Dword := 0
  frac   : Nat := 0
  ltrctl : Dword := 0
  ltrirq : Word := 0
  views  : AMap View := []
  seals  : List Seal := []
  /-- Replacement notices on their way to a team's core: its handle and generation (R139). -/
  notices : List (Nat × Nat) := []
deriving DecidableEq, Repr

/-- A memory-window request waiting for its PCIe completion, or a posted write, as sent to the port (R34). -/
structure PcieOut where
  port : Nat
  addr : Nat
  size : Nat
  data : Option Dword
deriving DecidableEq, Repr

/-- I/O-die registers and the outside world. -/
structure Io where
  ctxbase : Dword := 0
  ctxcmd  : Word := 0
  frtab   : AMap (BitVec 128) := []
  frStage : AMap (BitVec 128) := []
  dmatab  : AMap Dword := []
  rtab    : AMap Dword := []
  /-- IMSIC files: identities pending and enabled, key file × 4096 + identity; delivery and threshold by file (R40). -/
  imsic   : AMap Bool := []
  imsicOn : AMap Bool := []
  imsicDeliver : AMap Bool := []
  imsicLimit : AMap Nat := []
  /-- The control complex's timer, which counts at 100 MHz, and its fraction of a count in 35ths (R19). -/
  timer   : Dword := 0
  timerFrac : Nat := 0
  msis    : List (Nat × Nat) := []
  pcie    : List PcieOut := []
  dmaReads : List (Nat × List Byte) := []
  fabric  : List Nat := []
  trigSeq : BitVec 8 := 0
  /-- The clock after the last in which a trigger was given a number: those that reach the root in one clock are one trigger (R55). -/
  trigAt  : Nat := 0
  triggers : Nat := 0
  snaps   : AMap Snap := []
  links   : List (LinkId × Link) := []
deriving DecidableEq, Repr

/-- The privilege modes of a control core (R39). -/
inductive CtlMode where
  | machine | supervisor | user
deriving DecidableEq, Repr

/-- A control core as this package's other agents meet it (R39, R40): whether it runs, its mode, and what its loads have returned, by
their numbers. -/
structure CtlCore where
  up    : Bool := false
  mode  : CtlMode := .machine
  /-- A load's number and the value that came back. -/
  loads : AMap Nat := []
  /-- The interrupts taken: file and identity. -/
  taken : List (Nat × Nat) := []
deriving DecidableEq, Repr

/-- The fences of a control core that order its accesses against groups (R39): rw,rw; r,rw; rw,w. -/
inductive CtlFence where
  | ar | acq | rel
deriving DecidableEq, Repr

/-- What a control core's program does to the rest of the package: loads, stores and atomics of physical addresses, fences, a change of
mode, a reading of the timer, and the control of its interrupt files: enabling an identity, delivery, the threshold, and the claim of the
interrupt to be taken (R16, R18, R34, R39, R40). -/
inductive CtlOp where
  | load (pa size : Nat)
  | store (pa size : Nat) (data : Dword)
  | atom (pa size : Nat) (f : BitVec 4) (data : Dword)
  | fence (f : CtlFence)
  | mode (m : CtlMode)
  | time
  | enable (sup : Bool) (irq : Nat) (on : Bool)
  | deliver (sup : Bool) (on : Bool)
  | limit (sup : Bool) (n : Nat)
  | claim (sup : Bool)
deriving DecidableEq, Repr

/-- What comes from outside the package's own steps: a step of the opcode table that the outside world takes, an endpoint's DMA write with
the Relaxed Ordering attribute, an operation of a control core, the far end's failure to receive a flit, a junction temperature, and a bit
error. -/
inductive Input where
  | step (i : Instr)
  | relaxed (i : Instr)
  | ctl (cc : Nat) (op : CtlOp)
  | flitRetry (l : LinkId) (seq : BitVec 12)
  | temperature (die : Nat) (t : BitVec 8)
  | bitError (p : EccPlace) (e : EccErr)
deriving DecidableEq, Repr

/-- What a chain's words have found before any of them commits (R292, R313). -/
structure ChainAcc where
  hazard : Bool := false
  stall  : Bool := false
  await  : Bool := false
  raises : List Raise := []
  parks  : List ParkReq := []
  faddr  : List (Nat × Dword) := []
  /-- A word of it begins an operation that the chain's end waits for (R279, R301, R450). -/
  starts : Bool := false
  dests  : List RegId := []
deriving DecidableEq, Repr

/-- How exec runs a word: alone as a chain of its own, or as one of several words of a chain, first collecting what
each raises, then committing with the sources as they stood at issue, and last what is for the chains that follow; or undoing, or waiting
(R11, R12, R292, R314, R356). -/
inductive Issue where
  | alone
  | collect (acc : ChainAcc)
  | commit (src : Group) (posts : List Raise)
  | last (src : Group)
  | abort (src : Group)
  | await (src : Group) (stalled : Bool)
deriving DecidableEq, Repr

/-- The whole package. -/
structure State where
  clock   : Nat
  /-- The model's own: counts the free values and free choices taken (Config). -/
  draws   : Nat
  /-- Key of the issuing group, handle × 32 + group. -/
  cur     : Nat
  /-- The chain that follows the one that issues (R377). -/
  nextPc  : Dword
  issue   : Issue
  groups  : AMap Group
  teams   : AMap Team
  cores   : AMap Core
  dies    : AMap Die
  mem     : Mem
  copies  : AMap LaneCopy
  bulks   : AMap Bulk
  xfms    : AMap XfmReply
  samples : AMap Sample
  sends   : AMap Send
  /-- Of evicted teams and their groups, what the save area has no field for (R304). -/
  saved   : AMap Team
  savedGroups : AMap Group
  display : Display
  io      : Io
  boot    : Boot
  /-- The control cores (R39). -/
  ctl     : AMap CtlCore
  /-- What the outside world asks for, in order (INVENTORY.md, Host interface). -/
  inbox   : List Input
deriving DecidableEq, Repr

/-- Why the machine stops. -/
inductive Fault where
  /-- Raised by every word instruction when `cur` names no resident group: no run of `step` reaches it. Safe. -/
  | noGroup
deriving DecidableEq, Repr

/-- Why the model gives no next state. -/
inductive Refusal where
  /-- An arm of exec without a meaning. Safe. -/
  | notModelled (mnemonic : String)
  /-- A device step whose condition does not hold in the state: the step cannot happen there. Safe. -/
  | notDue
deriving DecidableEq, Repr

/-- The package right after reset: nothing runs, every memory and table is empty, the boot ROM has not yet checked the
flash (R46, R48). The spec gives the fuses and the flash no contents: a key digest of 0, a rollback count of 0 and an empty flash are a
DESIGN CHOICE (log entry 5). -/
def State.reset : State where
  clock := 0
  draws := 0
  cur := 0
  nextPc := 0
  issue := .alone
  groups := []
  teams := []
  cores := []
  dies := []
  mem := {}
  copies := []
  bulks := []
  xfms := []
  samples := []
  sends := []
  saved := []
  savedGroups := []
  display := {}
  io := {}
  boot := {}
  ctl := []
  inbox := []

end Sys2Proof.Machine
end

