-- ==== Sys2Proof/Config.lean ====
section
/-! DEFINITION. What the spec leaves open, as constants without a body: no proof can see a value of one. A free value
is one of these applied to the State's counter of draws, or to the operands where the spec makes it a function of
them. -/

namespace Sys2Proof.Config

open Sys2Proof.Machine (FabricMsg)

/-- Which of the steps that can come next does (08 R217 and every "unspecified" order; log entry 2). -/
opaque freeTurn : Nat → Nat
/-- A free number, by draw: orders of lanes (R413), bytes the spec leaves open (R230, R302, R436; log entry 8). -/
opaque freeNat : Nat → Nat
/-- The result of a special function within the bound of R365: function code and input bits (log entry 9). -/
opaque sfu : Nat → Word → Word
/-- The private part of the identity key, the number that a signature takes at random, by draw, and the certificate in DER (R50; log entry
10). -/
opaque identitySecret : Nat
opaque sm2Nonce : Nat → Nat
opaque certificate : List Byte
/-- The distinguishing identifier under which a firmware image is signed (R45, R46; log entry 10). -/
opaque bootSigner : List Byte
/-- What the configuration block of a firmware body holds: operator keys, the management port's addresses, a package identifier, and how
many rollback fuses are to be blown in all (R45, R46; log entry 10). -/
opaque operatorKeys : List Byte → List (BitVec 512)
opaque mgmtAddresses : List Byte → List Byte
opaque configuredPkg : List Byte → Option (BitVec 10)
opaque fusesToBlow : List Byte → Nat
/-- What the firmware of a body sets up: the interleave domains with their controllers (R210), the base of the context table and the
entry of context 0 (R41; log entry 10). -/
opaque bootDomains : List Byte → List (Nat × Dword × Dword)
opaque bootCtxbase : List Byte → Dword
opaque contextZero : List Byte → BitVec 512
/-- The control core and interrupt identity assigned to the management port's receive ring (R40; log entry 16). -/
opaque mgmtMsi : Nat × Nat
/-- The 64-byte payloads in which a message travels between packages; and, of the payloads of a class that have come and not been
understood, the package they are from, the first message they hold, and how many it takes, if it is there whole (R28; log entry 24). -/
opaque fabricFlits : FabricMsg → List (List Byte)
opaque fabricMsg : BitVec 2 → List (List Byte) → Option (Nat × FabricMsg × Nat)
/-- Which of the modules that a die has the way from an input of the butterfly to a slice takes there (R205, R206; log entry 23). -/
opaque moduleOf : Nat → Nat → Nat → Nat
/-- The 64-byte payloads in which a message travels between the dies, by draw (R22; log entry 23). -/
opaque moduleFlits : Nat → List (List Byte)
/-- The component codes of the boot components, the ROM's version word, the parts of a body (firmware, configuration block, loader) and
the operating-system kernel (R49; log entry 10). -/
opaque componentCode : Nat → BitVec 16
opaque romVersion : List Byte
opaque bodyPart : Nat → List Byte → List Byte
opaque osKernel : List Byte
/-- What HBM holds after a reset of the device, by draw: addresses and bytes (log entry 4). -/
opaque freeCells : Nat → List (Nat × Byte)
/-- A coefficient of an attribute's plane where a vertex's attribute is not finite, by the three vertices' attribute and which of the three
coefficients it is (R472; log entry 8). -/
opaque openCoeff : List Word → Nat → Word
/-- The bytes the device keeps in a format of its own (BARSTATE R304, tile lists and flush slots R126, tags and plane blocks R130), by
kind or draw and place (log entry 13). -/
opaque deviceByte : Nat → Nat → Byte

end Sys2Proof.Config
end

