-- ==== Sys2Proof/Machine/Maps.lean ====
section
/-! DEFINITION. Sparse maps with strictly rising keys, bytes kept in them, and bit fields of words. -/

namespace Sys2Proof.Maps

variable {α : Type}

/-- The canonical form of a sparse map. -/
abbrev Sorted (m : AMap α) : Prop := m.Pairwise (fun p q => p.1 < q.1)

/-- The value at a key, if it is listed. -/
def find (m : AMap α) (k : Nat) : Option α :=
  match m with
  | [] => none
  | (j, v) :: rest => if j = k then some v else find rest k

/-- The value at a key; `d` where it is not listed. -/
def get (d : α) (m : AMap α) (k : Nat) : α := (find m k).getD d

/-- The map with `v` at `k`. -/
def set (m : AMap α) (k : Nat) (v : α) : AMap α :=
  match m with
  | [] => [(k, v)]
  | (j, u) :: rest => if j = k then (k, v) :: rest else if k < j then (k, v) :: (j, u) :: rest else (j, u) :: set rest k v

/-- The map without `k`. -/
def del (m : AMap α) (k : Nat) : AMap α :=
  match m with
  | [] => []
  | (j, u) :: rest => if j = k then del rest k else (j, u) :: del rest k

/-- The map with `v` at `k`, nothing being listed for the value `d` that an unlisted key reads as. -/
def put [DecidableEq α] (d : α) (m : AMap α) (k : Nat) (v : α) : AMap α := if v = d then del m k else set m k v

/-- The map with the value at `k`, if listed, changed by `f`. -/
def modify (m : AMap α) (k : Nat) (f : α → α) : AMap α :=
  match m with
  | [] => []
  | (j, u) :: rest => if j = k then (j, f u) :: rest else (j, u) :: modify rest k f

/-- The values whose keys and values meet `p`. -/
def keys (m : AMap α) (p : Nat → α → Bool) : List Nat := (m.filter fun e => p e.1 e.2).map (·.1)

/-- The map with every value changed by `f`. -/
def mapAll (m : AMap α) (f : Nat → α → α) : AMap α := m.map fun e => (e.1, f e.1 e.2)

/-- The bytes of an address range, lowest first; an unlisted byte reads 0. -/
def readBytes (m : AMap Byte) (a : Nat) : Nat → List Byte
  | 0 => []
  | n + 1 => get 0 m a :: readBytes m (a + 1) n

/-- The bytes written from an address on. -/
def writeBytes (m : AMap Byte) (a : Nat) : List Byte → AMap Byte
  | [] => m
  | b :: bs => writeBytes (put 0 m a b) (a + 1) bs

/-- The number that bytes hold, lowest first (R1). -/
def leNat : List Byte → Nat
  | [] => 0
  | b :: bs => b.toNat + 256 * leNat bs

/-- `n` bytes of a number, lowest first (R1). -/
def natLe (v : Nat) : Nat → List Byte
  | 0 => []
  | n + 1 => BitVec.ofNat 8 v :: natLe (v / 256) n

/-- The number in `n` bytes at an address. -/
def readNat (m : AMap Byte) (a n : Nat) : Nat := leNat (readBytes m a n)

/-- The map with `v` written into `n` bytes at an address. -/
def writeNat (m : AMap Byte) (a n v : Nat) : AMap Byte := writeBytes m a (natLe v n)

/-- Keep only keys below `n`. -/
def below (m : AMap α) (n : Nat) : AMap α := m.filter fun e => e.1 < n

end Sys2Proof.Maps

namespace Sys2Proof

/-- Bits `hi` down to `lo` of a number. -/
def bitsN (v hi lo : Nat) : Nat := v / 2 ^ lo % 2 ^ (hi + 1 - lo)

/-- Bit `i` of a number. -/
def bitN (v i : Nat) : Bool := v / 2 ^ i % 2 == 1

/-- A signed number from its two's-complement form in `w` bits. -/
def signedN (w v : Nat) : Int := if bitN v (w - 1) then (v % 2 ^ w : Nat) - (2 ^ w : Nat) else (v % 2 ^ w : Nat)

/-- A number's two's-complement form in `w` bits. -/
def wrapN (w : Nat) (v : Int) : Nat := (v % (2 ^ w : Nat)).toNat

/-- The positions of the set bits of a mask below `n`, rising. -/
def setBits (n : Nat) (v : Nat) : List Nat := (List.range n).filter fun i => bitN v i

/-- The number of set bits below `n`. -/
def popN (n v : Nat) : Nat := (setBits n v).length

/-- The mask with the bits at which `p` holds. -/
def maskOf (p : Nat → Bool) : Word := BitVec.ofNat 32 ((List.range 32).foldl (fun a i => if p i then a + 2 ^ i else a) 0)

/-- The lanes of a mask, rising. -/
def lanesOf (m : Word) : List Nat := setBits 32 m.toNat

/-- The lowest lane of a mask, 0 for an empty one. -/
def lowLane (m : Word) : Nat := ((lanesOf m).head?).getD 0

/-- A pair of words, the first lower (R1, R6). -/
def pairOf (lo hi : Word) : Dword := BitVec.ofNat 64 (lo.toNat + hi.toNat * 2 ^ 32)

/-- The low word of a dword. -/
def loW (d : Dword) : Word := BitVec.ofNat 32 d.toNat

/-- The high word of a dword. -/
def hiW (d : Dword) : Word := BitVec.ofNat 32 (d.toNat / 2 ^ 32)

/-- The address tag of a virtual address, bits [63:56] (R181). -/
def vaTag (a : Dword) : Nat := a.toNat / 2 ^ 56

/-- Bits [55:0] of a virtual address. -/
def vaLow (a : Dword) : Nat := a.toNat % 2 ^ 56

/-- The number of a packet address (R309). -/
def packetNo (a : Dword) : Nat := 5 * (a.toNat / 64) + a.toNat % 64 / 12

/-- The packets of the 64-bit address space (R311). -/
def packetSpace : Nat := 5 * 2 ^ 58

/-- The address of a packet, within the address space (R309, R311). -/
def packetAddr (n : Int) : Dword :=
  let k := (n % (packetSpace : Int)).toNat
  BitVec.ofNat 64 (64 * (k / 5) + 12 * (k % 5))

/-- A packet start (R309). -/
def isPacketStart (a : Dword) : Bool := let o := a.toNat % 64; o == 0 || o == 12 || o == 24 || o == 36 || o == 48

/-- The packet that holds an address of a fetch block below its trailer. -/
def packetOf (a : Dword) : Dword := a - BitVec.ofNat 64 (a.toNat % 64 % 12)

end Sys2Proof
end

