-- ==== Sys2Proof/Machine/Num.lean ====
section
/-! DEFINITION. Number formats and arithmetic (chapter 9): values computed exactly, then rounded once. -/

namespace Sys2Proof.Num

/-- An exact value: a NaN, an infinity, or a signed dyadic number m × 2^e; m = 0 is a signed zero. -/
inductive FV where
  | nan
  | inf (neg : Bool)
  | fin (neg : Bool) (m : Nat) (e : Int)
deriving DecidableEq, Repr

/-- A floating-point layout (R239, R240): width, mantissa width, bias, the largest finite magnitude code, the infinity's
magnitude code if there is one, the canonical NaN (R242), and whether there is a sign bit. -/
structure Fmt where
  width  : Nat
  man    : Nat
  bias   : Nat
  top    : Nat
  infc   : Option Nat
  nan    : Nat
  signed : Bool := true
deriving DecidableEq, Repr

def f64 : Fmt := { width := 64, man := 52, bias := 1023, top := 0x7FEFFFFFFFFFFFFF, infc := some 0x7FF0000000000000, nan := 0x7FF8000000000000 }
def f32 : Fmt := { width := 32, man := 23, bias := 127, top := 0x7F7FFFFF, infc := some 0x7F800000, nan := 0x7FC00000 }
def f16 : Fmt := { width := 16, man := 10, bias := 15, top := 0x7BFF, infc := some 0x7C00, nan := 0x7E00 }
def bf16 : Fmt := { width := 16, man := 7, bias := 127, top := 0x7F7F, infc := some 0x7F80, nan := 0x7FC0 }
def e4m3 : Fmt := { width := 8, man := 3, bias := 7, top := 0x7E, infc := none, nan := 0x7F }
def e5m2 : Fmt := { width := 8, man := 2, bias := 15, top := 0x7B, infc := some 0x7C, nan := 0x7E }
def e2m1 : Fmt := { width := 4, man := 1, bias := 1, top := 0x7, infc := none, nan := 0 }
def e3m5 : Fmt := { width := 8, man := 5, bias := 3, top := 0xFE, infc := none, nan := 0xFF, signed := false }

/-- A rounding mode (R243). -/
inductive Rm where
  | rne | rz | ru | rd
deriving DecidableEq, Repr

/-- The rounding mode of a two-bit code (R243). -/
def rmOf (n : Nat) : Rm := if n = 0 then .rne else if n = 1 then .rz else if n = 2 then .ru else .rd

/-- The events of one element result (R253), as counts. -/
structure Ev where
  sat : Nat := 0
  ftz : Nat := 0
  nan : Nat := 0
deriving DecidableEq, Repr

def Ev.add (a b : Ev) : Ev := { sat := a.sat + b.sat, ftz := a.ftz + b.ftz, nan := a.nan + b.nan }

/-- Sign and magnitude code of a bit pattern. -/
def signOf (f : Fmt) (b : Nat) : Bool := f.signed && bitN b (f.width - 1)
def magOf (f : Fmt) (b : Nat) : Nat := if f.signed then b % 2 ^ (f.width - 1) else b % 2 ^ f.width

/-- The value of a bit pattern (R239, R240). -/
def decode (f : Fmt) (b : Nat) : FV :=
  let s := signOf f b
  let g := magOf f b
  if g > f.top then (if f.infc = some g then .inf s else .nan)
  else
    let ef := g / 2 ^ f.man
    let mf := g % 2 ^ f.man
    if ef = 0 then .fin s mf (1 - f.bias - f.man) else .fin s (2 ^ f.man + mf) ((ef : Int) - f.bias - f.man)

/-- A magnitude's distance from zero in units of the format's grid: the exponent used, the floor, and the bits below
(a remainder out of 2^sh). -/
def grid (f : Fmt) (m : Nat) (e : Int) : Int × Nat × Nat × Nat :=
  let emin : Int := 1 - f.bias
  let ex : Int := max ((Nat.log2 m : Int) + e) emin
  let u := ex - f.man
  if u ≤ e then (ex, m * 2 ^ (e - u).toNat, 0, 0)
  else
    let sh := (u - e).toNat
    (ex, m / 2 ^ sh, m % 2 ^ sh, sh)

/-- The magnitude code at grid position `q` of exponent `ex`. -/
def codeAt (f : Fmt) (ex : Int) (q : Nat) : Nat := (ex - (1 - f.bias)).toNat * 2 ^ f.man + q

/-- Does a remainder round the magnitude up (R244)? -/
def roundsUp (rm : Rm) (neg : Bool) (q rem sh : Nat) : Bool :=
  match rm with
  | .rne => 2 * rem > 2 ^ sh || (2 * rem == 2 ^ sh && sh != 0 && q % 2 == 1)
  | .rz => false
  | .ru => rem != 0 && !neg
  | .rd => rem != 0 && neg

/-- The magnitude code that a non-zero magnitude rounds to, possibly beyond the largest finite one. -/
def roundMag (f : Fmt) (rm : Rm) (neg : Bool) (m : Nat) (e : Int) : Nat :=
  let (ex, q, rem, sh) := grid f m e
  codeAt f ex (if roundsUp rm neg q rem sh then q + 1 else q)

/-- A bit pattern from sign and magnitude code. -/
def withSign (f : Fmt) (neg : Bool) (g : Nat) : Nat := g + (if f.signed && neg then 2 ^ (f.width - 1) else 0)

/-- Is a non-zero magnitude below the smallest normal (R245)? -/
def tiny (f : Fmt) (m : Nat) (e : Int) : Bool := m != 0 && decide ((Nat.log2 m : Int) + e < 1 - f.bias)

/-- Overflow under IEEE 754 (R244): an infinity or the largest finite value. -/
def overflow (f : Fmt) (rm : Rm) (neg : Bool) : Nat :=
  let toInf := match rm with
    | .rne => true
    | .rz => false
    | .ru => !neg
    | .rd => neg
  withSign f neg (if toInf then f.infc.getD f.top else f.top)

/-- A value rounded into a format with infinities, flushed if `fz` (R244, R245), and whether the result was flushed. -/
def pack (f : Fmt) (rm : Rm) (fz : Bool) (v : FV) : Nat × Bool :=
  match v with
  | .nan => (f.nan, false)
  | .inf s => (withSign f s (f.infc.getD f.top), false)
  | .fin s m e =>
    if m = 0 then (withSign f s 0, false)
    else if fz && tiny f m e then (withSign f s 0, true)
    else
      let g := roundMag f rm s m e
      (if g > f.top then overflow f rm s else withSign f s g, false)

/-- A value rounded without flushing, to nearest even. -/
def packRne (f : Fmt) (v : FV) : Nat := (pack f .rne false v).1

/-- An input read with its subnormals flushed if `fz` (R245), and whether it was. -/
def unpack (f : Fmt) (fz : Bool) (b : Nat) : FV × Bool :=
  match decode f b with
  | .fin s m e => if fz && tiny f m e then (.fin s 0 0, true) else (.fin s m e, false)
  | v => (v, false)

def isNan : FV → Bool
  | .nan => true
  | _ => false

def neg : FV → FV
  | .nan => .nan
  | .inf s => .inf (!s)
  | .fin s m e => .fin (!s) m e

def absV : FV → FV
  | .nan => .nan
  | .inf _ => .inf false
  | .fin _ m e => .fin false m e

def isZero : FV → Bool
  | .fin _ m _ => m == 0
  | _ => false

def zero : FV := .fin false 0 0

/-- The signed numerator of a finite value over 2^k. -/
def scaled (s : Bool) (m : Nat) (e k : Int) : Int :=
  let n : Int := (m * 2 ^ (e - k).toNat : Nat)
  if s then -n else n

/-- The exact sum; an exact zero has the sign that IEEE 754 gives under the mode (R360). -/
def add (rm : Rm) : FV → FV → FV
  | .nan, _ => .nan
  | _, .nan => .nan
  | .inf a, .inf b => if a = b then .inf a else .nan
  | .inf a, .fin .. => .inf a
  | .fin .., .inf b => .inf b
  | .fin a m e, .fin b n k =>
    let lo := min e k
    let t := scaled a m e lo + scaled b n k lo
    if t = 0 then .fin (if m = 0 && n = 0 && a == b then a else rm == .rd) 0 0
    else .fin (decide (t < 0)) t.natAbs lo

/-- The exact product; 0 × ∞ is a NaN (R361). -/
def mul : FV → FV → FV
  | .nan, _ => .nan
  | _, .nan => .nan
  | .inf a, .inf b => .inf (a != b)
  | .inf a, .fin b n _ => if n = 0 then .nan else .inf (a != b)
  | .fin a m _, .inf b => if m = 0 then .nan else .inf (a != b)
  | .fin a m e, .fin b n k => .fin (a != b) (m * n) (e + k)

/-- Bits kept below the leading one of a quotient or a root, so that one rounding of the result is exact. -/
def guard : Nat := 160

/-- The quotient: exact if it is dyadic within `guard` bits, else with a last bit that stands for what is left, which
rounds as the exact quotient does. -/
def div : FV → FV → FV
  | .nan, _ => .nan
  | _, .nan => .nan
  | .inf _, .inf _ => .nan
  | .inf a, .fin b _ _ => .inf (a != b)
  | .fin a _ _, .inf b => .fin (a != b) 0 0
  | .fin a m e, .fin b n k =>
    if n = 0 then (if m = 0 then .nan else .inf (a != b))
    else if m = 0 then .fin (a != b) 0 0
    else
      let sh := guard + Nat.log2 n
      let q := m * 2 ^ sh / n
      let r := m * 2 ^ sh % n
      .fin (a != b) (2 * q + (if r = 0 then 0 else 1)) (e - k - sh - 1)

/-- The integer square root, one bit of the result at each of `n` steps, from bit `n - 1` down. -/
def isqrtGo (x : Nat) : Nat → Nat → Nat
  | 0, r => r
  | n + 1, r => let t := r + 2 ^ n; isqrtGo x n (if t * t ≤ x then t else r)

def isqrt (x : Nat) : Nat := isqrtGo x (Nat.log2 x / 2 + 1) 0

/-- The square root, with a last bit as in `div`; −0 stays −0 and a negative value gives a NaN. -/
def sqrt : FV → FV
  | .nan => .nan
  | .inf s => if s then .nan else .inf false
  | .fin s m e =>
    if m = 0 then .fin s 0 0
    else if s then .nan
    else
      let sh := 2 * guard + (e % 2).toNat
      let x := m * 2 ^ sh
      let r := isqrt x
      .fin false (2 * r + (if r * r = x then 0 else 1)) ((e - sh) / 2 - 1)

/-- The order of two values that are no NaN, −0 equal to +0. -/
def cmp : FV → FV → Ordering
  | .inf a, .inf b => if a = b then .eq else if a then .lt else .gt
  | .inf a, _ => if a then .lt else .gt
  | _, .inf b => if b then .gt else .lt
  | .fin a m e, .fin b n k =>
    let lo := min e k
    compare (scaled a m e lo) (scaled b n k lo)
  | _, _ => .eq

def signV : FV → Bool
  | .inf s => s
  | .fin s _ _ => s
  | .nan => false

/-- The min-max rule (R359). -/
def minmax (isMax : Bool) (a b : FV) : FV :=
  if isNan a then (if isNan b then .nan else b)
  else if isNan b then a
  else
    let aFirst := match cmp a b with
      | .lt => true
      | .gt => false
      | .eq => signV a || !signV b
    if aFirst != isMax then a else b

/-- The quotient and remainder of a value over 2^sh, as `grid` gives them, for integral rounding. -/
def integral (rm : Rm) (s : Bool) (m : Nat) (e : Int) : Nat :=
  if 0 ≤ e then m * 2 ^ e.toNat
  else
    let sh := (-e).toNat
    let q := m / 2 ^ sh
    if roundsUp rm s q (m % 2 ^ sh) sh then q + 1 else q

/-- A value rounded to an integral one, the sign kept (R360). -/
def toIntegral (rm : Rm) : FV → FV
  | .fin s m e => .fin s (integral rm s m e) 0
  | v => v

/-- An element result of a format with infinities: bits and events. `fl`: an input was flushed; `sn`: a source was a
NaN (R253). -/
def out (f : Fmt) (rm : Rm) (fz fl sn : Bool) (v : FV) : Nat × Ev :=
  let (b, fo) := pack f rm fz v
  (b, { ftz := if fl || fo then 1 else 0, nan := if isNan v && !sn then 1 else 0 })

/-- One operation of two sources. -/
def bin (f : Fmt) (rm : Rm) (fz : Bool) (op : FV → FV → FV) (a b : Nat) : Nat × Ev :=
  let (x, fx) := unpack f fz a
  let (y, fy) := unpack f fz b
  out f rm fz (fx || fy) (isNan x || isNan y) (op x y)

/-- One operation of three sources. -/
def tri (f : Fmt) (rm : Rm) (fz : Bool) (op : FV → FV → FV → FV) (a b d : Nat) : Nat × Ev :=
  let (x, fx) := unpack f fz a
  let (y, fy) := unpack f fz b
  let (z, fz') := unpack f fz d
  out f rm fz (fx || fy || fz') (isNan x || isNan y || isNan z) (op x y z)

/-- One operation of one source. -/
def una (f : Fmt) (rm : Rm) (fz : Bool) (op : FV → FV) (a : Nat) : Nat × Ev :=
  let (x, fx) := unpack f fz a
  out f rm fz fx (isNan x) (op x)

/-- The min-max rule on bits: no rounding, no NAN event (R359). -/
def minmaxBits (f : Fmt) (fz isMax : Bool) (a b : Nat) : Nat × Ev :=
  let (x, fx) := unpack f fz a
  let (y, fy) := unpack f fz b
  ((pack f .rne false (minmax isMax x y)).1, { ftz := if fx || fy then 1 else 0 })

/-- A comparison of two flushed operands: none when either is a NaN (R363). -/
def relate (f : Fmt) (fz : Bool) (a b : Nat) : Option Ordering :=
  let x := (unpack f fz a).1
  let y := (unpack f fz b).1
  if isNan x || isNan y then none else some (cmp x y)

/-- `fract` of R360: a minus its floor, rounded, at most the largest value below one. -/
def fract (rm : Rm) (fz : Bool) (a : Nat) : Nat × Ev :=
  let (x, fx) := unpack f32 fz a
  let v := match x with
    | .fin .. => add rm x (neg (toIntegral .rd x))
    | _ => .nan
  let (b, ev) := out f32 rm fz fx (isNan x) v
  (if !isNan v && b < 0x80000000 && b > 0x3F7FFFFF then 0x3F7FFFFF else b, ev)

/-- One step of a lane's generator (R246). -/
def lfsrStep (g : Nat) : Nat := if g % 2 = 1 then Nat.xor (g / 2) 0x80200003 else g / 2

/-- The generator of lane `l` after a reseed with `k` (R246). -/
def lfsrSeed (k l : Nat) : Nat := (k * 2 ^ 16 + 0x8000 + 256 * l + 0xA5) % 2 ^ 32

/-- How a narrowing rounds: under a mode, or stochastically with the number d of the generator (R247). -/
inductive Nar where
  | mode (rm : Rm)
  | sr (d : Nat)
deriving DecidableEq, Repr

/-- A magnitude narrowed to a format, saturated (R247): code, and whether it saturated. -/
def narrowMag (f : Fmt) (n : Nar) (s : Bool) (m : Nat) (e : Int) : Nat × Bool :=
  if m = 0 then (0, false)
  else
    let beyond := cmp (.fin false m e) (decode f f.top) == .gt
    if beyond then (f.top, true)
    else
      let (ex, q, rem, sh) := grid f m e
      let up := match n with
        | .mode rm => roundsUp rm s q rem sh
        | .sr d => decide (2 ^ 16 ≤ rem * 2 ^ 16 / 2 ^ sh + d)
      (min (codeAt f ex (if up && (rem != 0) then q + 1 else q)) f.top, false)

/-- Narrowing to E4M3 or E5M2 (R247). -/
def narrow (f : Fmt) (n : Nar) (fz fl : Bool) (v : FV) : Nat × Ev :=
  match v with
  | .nan => (f.nan, { ftz := if fl then 1 else 0 })
  | .inf s => (withSign f s f.top, { sat := 1, ftz := if fl then 1 else 0 })
  | .fin s m e =>
    if fz && tiny f m e then (withSign f s 0, { ftz := 1 })
    else
      let (g, sat) := narrowMag f n s m e
      (withSign f s g, { sat := if sat then 1 else 0, ftz := if fl then 1 else 0 })

/-- The greater of two magnitudes. -/
def maxAbs (a b : FV) : FV := if cmp (absV a) (absV b) == .lt then absV b else absV a

/-- Is β a positive finite normal BF16 value (R248)? -/
def bandOk (b : Nat) : Bool := decide (0x80 ≤ b % 2 ^ 16) && decide (b % 2 ^ 16 ≤ 0x7F7F)

/-- The smallest block scale code from `c` on, of `n` codes, for which 6 × value × β covers m; 0xFE if none (R248). -/
def blockScale (beta m : FV) : Nat → Nat → Nat
  | 0, _ => 0xFE
  | n + 1, c =>
    if cmp (mul (mul (.fin false 6 0) (decode e3m5 c)) beta) m != .lt then c else blockScale beta m n (c + 1)

/-- A narrowed block: block scale, the 8 codes, and the events (R248). `ds` gives the generator's numbers for `.sr`. -/
def narrowBlock (beta : FV) (betaOk : Bool) (xs : List FV) (how : Nat → Nar) : Nat × List Nat × Ev :=
  if xs.any isNan || !betaOk then (0xFF, xs.map (fun _ => 0), { nan := 1 })
  else
    let m := xs.foldl maxAbs zero
    let c := blockScale beta m 255 0
    let sc := mul (decode e3m5 c) beta
    if isZero sc then (c, xs.map (fun _ => 0), {})
    else
      let rs := (xs.zip (List.range xs.length)).map fun (x, i) =>
        match div x sc with
        | .fin s q e => let (g, sat) := narrowMag e2m1 (how i) s q e; (withSign e2m1 s g, sat)
        | v => (withSign e2m1 (signV v) 7, true)
      (c, rs.map (·.1), { sat := (rs.filter (·.2)).length })

/-- A value clamped into an integer range after integral rounding (R249), and whether it saturated. -/
def toInt (rm : Rm) (lo hi : Int) : FV → Int × Bool
  | .nan => (0, true)
  | .inf s => (if s then lo else hi, true)
  | .fin s m e =>
    let n : Int := integral rm s m e
    let t := if s then -n else n
    if t < lo then (lo, true) else if hi < t then (hi, true) else (t, false)

/-- The exact value of an integer. -/
def ofInt (t : Int) : FV := .fin (decide (t < 0)) t.natAbs 0

/-- The product of R251: exact, a NaN for 0 × ∞. The chunk's sum before its rounding. -/
def chunkSum (ps : List FV) : FV :=
  let infs := ps.filter fun p => match p with
    | .inf _ => true
    | _ => false
  if ps.any isNan || (infs.any signV && infs.any (fun p => !signV p)) then .nan
  else match infs with
    | p :: _ => p
    | [] =>
      match ps.foldl maxAbs zero with
      | .fin _ m e =>
        if m = 0 then zero
        else
          let q : Int := (Nat.log2 m : Int) + e - 52
          let t : Int := ps.foldl (fun a p => match p with
            | .fin s n k =>
              let v := if q ≤ k then n * 2 ^ (k - q).toNat else n / 2 ^ (q - k).toNat
              a + (if s then -(v : Int) else v)
            | _ => a) 0
          .fin (decide (t < 0)) t.natAbs q
      | v => v

/-- One output element of a matrix operation: the FP32 accumulator after each chunk of products (R251). -/
def matElem (acc : Nat) (chunks : List (List FV)) : Nat :=
  chunks.foldl (fun a ps =>
    let s := decode f32 (packRne f32 (chunkSum ps))
    packRne f32 (add .rne (decode f32 a) s)) acc

/-- The value of element `i` of block-scaled E2M1 data (R241). -/
def e2m1Value (code blk : Nat) (band : FV) : FV :=
  if blk = 0xFF then .nan else mul (mul (decode e2m1 code) (decode e3m5 blk)) band

/-! The special functions: a fixed-point value of each, of `prec` bits after the point, good far beyond the bounds of
R365. -/

def prec : Nat := 128

/-- ln 2 and π, of `prec` bits after the point. -/
def ln2 : Int := 0xB17217F7D1CF79ABC9E3B39803F2F6AF
def piFix : Int := 0x3243F6A8885A308D313198A2E03707344

/-- The Taylor sum Σ y^k / k! of `n` terms from term `k` on. -/
def expGo (y : Int) : Nat → Int → Int → Int
  | 0, _, _ => 0
  | n + 1, k, t => t + expGo y n (k + 1) (t * y / (2 ^ prec) / (k + 1))

/-- 2^f for a fixed-point f in [0, 1). -/
def exp2Fix (f : Int) : Int := expGo (f * ln2 / 2 ^ prec) 40 0 (2 ^ prec)

/-- Bits of log2 of a fixed-point x in [1, 2): one squaring a bit. -/
def log2Go : Nat → Int → Int → Int
  | 0, _, acc => acc
  | n + 1, x, acc =>
    let y := x * x / 2 ^ prec
    if 2 * 2 ^ prec ≤ y then log2Go n (y / 2) (2 * acc + 1) else log2Go n y (2 * acc)

/-- log2 x of a fixed-point x in [1, 2), of 96 bits, in `prec` bits. -/
def log2Fix (x : Int) : Int := log2Go 96 x 0 * 2 ^ (prec - 96)

/-- The alternating Taylor sum of sine or cosine: `t` the term, `k` its power. -/
def trigGo (y2 : Int) : Nat → Int → Int → Int
  | 0, _, _ => 0
  | n + 1, k, t => t + trigGo y2 n (k + 2) (-(t * y2 / 2 ^ prec) / ((k + 1) * (k + 2)))

/-- sin or cos of a fixed-point angle, reduced to within ±π. -/
def trigFix (isCos : Bool) (a : Int) : Int :=
  let r := a % (2 * piFix)
  let y := if piFix < r then r - 2 * piFix else r
  let y2 := y * y / 2 ^ prec
  if isCos then trigGo y2 40 0 (2 ^ prec) else trigGo y2 40 1 y

/-- The fixed-point form of a finite value. -/
def toFix (s : Bool) (m : Nat) (e : Int) : Int :=
  let p := e + prec
  let n : Int := if 0 ≤ p then (m * 2 ^ p.toNat : Nat) else (m / 2 ^ (-p).toNat : Nat)
  if s then -n else n

/-- The value of a fixed-point number. -/
def ofFix (t : Int) : FV := .fin (decide (t < 0)) t.natAbs (-(prec : Int))

/-- tanh of a fixed-point value within ±9. -/
def tanhFix (a : Int) : Int :=
  let z := 2 * a * 2 ^ prec / ln2
  let n := z / 2 ^ prec
  let ex := exp2Fix (z - n * 2 ^ prec)
  let one : Int := 2 ^ prec
  if 0 ≤ n then
    let big := ex * 2 ^ n.toNat
    (big - one) * one / (big + one)
  else
    let sm := ex / 2 ^ (-n).toNat
    (sm - one) * one / (sm + one)

/-- |x − y| ≤ b of finite values; false where one is not finite. -/
def near (x y b : FV) : Bool :=
  match add .rne x (neg y) with
  | .fin _ m e => cmp (.fin false m e) b != .gt
  | _ => false

/-- The spacing of FP32 values at a magnitude. -/
def ulp32 : FV → FV
  | .fin _ m e => .fin false 1 (max ((Nat.log2 m : Int) + e) (-126) - 23)
  | _ => zero

/-- The value a special function approximates, and the error it may have (R365), for an input that is no special one.
Sine and cosine beyond 2^15 may be anything in [−1, 1]. -/
def sfuBound (fn : Nat) (x : FV) : FV × FV :=
  match x with
  | .fin s m e =>
    let a := toFix s m e
    match fn with
    | 3 =>
      let n := a / 2 ^ prec
      let v : FV := .fin false (exp2Fix (a - n * 2 ^ prec)).natAbs (n - prec)
      (v, mul (.fin false 2 0) (ulp32 v))
    | 4 =>
      let l := Nat.log2 m
      let v := ofFix (((l : Int) + e) * 2 ^ prec + log2Fix (toFix false m (-(l : Int))))
      let mid := cmp x (.fin false 1 (-1)) != .lt && cmp x (.fin false 2 0) != .gt
      (v, if mid then .fin false 1 (-22) else mul (.fin false 2 0) (ulp32 v))
    | 5 => if cmp (absV x) (.fin false 1 15) == .gt then (zero, .fin false 1 0) else (ofFix (trigFix false a), .fin false 1 (-21))
    | 6 => if cmp (absV x) (.fin false 1 15) == .gt then (zero, .fin false 1 0) else (ofFix (trigFix true a), .fin false 1 (-21))
    | _ => (ofFix (tanhFix a), .fin false 1 (-21))
  | _ => (zero, zero)

/-- A special function's result from the candidate that the free value supplies: the candidate where it keeps the
bound, the nearest value otherwise. -/
def sfuPick (fn : Nat) (x : FV) (cand : Nat) : Nat :=
  let (v, b) := sfuBound fn x
  let unit := fn = 5 ∨ fn = 6 ∨ fn = 7
  let c := decode f32 cand
  if near c v b && (!decide unit || cmp (absV c) (.fin false 1 0) != .gt) then cand else packRne f32 v

/-- A faithful result: the value if FP32 holds it, else one of its two neighbours (R365, error below 1 ulp). -/
def faithful (v : FV) (cand : Nat) : Nat :=
  let up := (pack f32 .ru false v).1
  if cand = up then up else (pack f32 .rd false v).1

/-- Is the exact value of a special function non-zero and below the smallest normal FP32 value (R245)? -/
def sfuTiny (fn : Nat) (x : FV) : Bool :=
  match x with
  | .fin s m e =>
    match fn with
    | 0 => m != 0 && cmp (absV x) (.fin false 1 126) == .gt
    | 3 => s && cmp (.fin false m e) (.fin false 126 0) == .gt
    | 5 | 7 => m != 0 && cmp (absV x) (.fin false 1 (-126)) != .gt
    | _ => false
  | _ => false

/-- The special functions (R365) before the result's flush; `cand` is the free value. A reciprocal beyond every FP32 value has no
neighbour within 1 ulp but ∞. -/
def sfuValue (fn : Nat) (x : FV) (cand : Nat) : FV :=
  match x with
  | .nan => .nan
  | .inf s =>
    match fn with
    | 0 => .fin s 0 0
    | 1 => if s then .nan else zero
    | 3 => if s then zero else .inf false
    | 4 => if s then .nan else .inf false
    | 7 => .fin s 1 0
    | _ => .nan
  | .fin s m e =>
    match fn with
    | 0 => if m = 0 ∨ cmp (absV x) (.fin false 1 (-128)) != .gt then .inf s else decode f32 (faithful (div (.fin false 1 0) x) cand)
    | 1 => if m = 0 then .inf s else if s then .nan else decode f32 (faithful (div (.fin false 1 0) (sqrt x)) cand)
    | 3 =>
      if m = 0 then .fin false 1 0
      else if cmp x (.fin false 128 0) != .lt then .inf false
      else if integral .rz s m e * 2 ^ (max 0 (-e)).toNat = m * 2 ^ (max 0 e).toNat ∧ cmp (absV x) (.fin false 127 0) != .gt
        ∧ cmp x (.fin true 126 0) != .lt then
        .fin false 1 (if s then -(integral .rz s m e : Int) else integral .rz s m e)
      else if cmp x (.fin true 200 0) == .lt then decode f32 (if cand ≤ 2 then cand else 0)
      else decode f32 (sfuPick 3 x cand)
    | 4 => if m = 0 then .inf true else if s then .nan
      else if cmp x (.fin false 1 0) == .eq then zero else decode f32 (sfuPick 4 x cand)
    | 5 => if m = 0 then .fin s 0 0 else decode f32 (sfuPick 5 x cand)
    | 6 => if m = 0 then .fin false 1 0 else decode f32 (sfuPick 6 x cand)
    | _ =>
      if m = 0 then .fin s 0 0
      else if cmp (absV x) (.fin false 9 0) != .lt then .fin s 1 0
      else decode f32 (sfuPick 7 x cand)

end Sys2Proof.Num
end

