-- ==== Sys2Proof/Machine/Regs.lean ====
section
/-! DEFINITION. Reading and writing the registers of groups, and the updates of one group, team, core or die. -/

namespace Sys2Proof.Machine

/-- The outcome of a step. -/
abbrev Out := Host.Outcome State Fault Refusal

/-- The key of group `g` of a team. -/
def groupKey (handle g : Nat) : Nat := handle * 32 + g

/-- The team and the index of a group's key (R96, R147). -/
def handleOf (k : Nat) : Nat := k / 32
def indexOf (k : Nat) : Nat := k % 32

def groupOf (s : State) (k : Nat) : Group := Maps.get {} s.groups k
def teamAt (s : State) (h : Nat) : Team := Maps.get {} s.teams h
def coreAt (s : State) (n : Nat) : Core := Maps.get {} s.cores n
def dieAt (s : State) (d : Nat) : Die := Maps.get {} s.dies d

/-- The issuing team (R147). -/
def curTeam (s : State) : Team := teamAt s (handleOf s.cur)

def onGroup (k : Nat) (f : Group → Group) (s : State) : State := { s with groups := Maps.modify s.groups k f }
def onTeam (h : Nat) (f : Team → Team) (s : State) : State := { s with teams := Maps.modify s.teams h f }
def onCore (n : Nat) (f : Core → Core) (s : State) : State := { s with cores := Maps.set s.cores n (f (coreAt s n)) }
def onDie (d : Nat) (f : Die → Die) (s : State) : State := { s with dies := Maps.set s.dies d (f (dieAt s d)) }
def onMem (f : Mem → Mem) (s : State) : State := { s with mem := f s.mem }

/-- An update of the issuing group. -/
def onCur (f : Group → Group) (s : State) : State := onGroup s.cur f s

/-- An update of the issuing team. -/
def onCurTeam (f : Team → Team) (s : State) : State := onTeam (handleOf s.cur) f s

/-- The die of an input of the butterfly: a core's die pair, an engine's die pair, the I/O die of a control core, a fabric ingress or a
root port (R14, R205). -/
def dieOfCore (n : Nat) : Nat :=
  if n < 192 then n / 24
  else if n < 200 then n - 192
  else if n < 208 ∨ (216 ≤ n ∧ n < 232) ∨ (248 ≤ n ∧ n < 250) ∨ 252 ≤ n then 8
  else 9

namespace Group

/-- A scalar register (R320). -/
def s (g : Group) (n : Nat) : Word := Maps.get 0 g.sregs n

/-- A scalar pair (R6). -/
def s64 (g : Group) (n : Nat) : Dword := pairOf (g.s n) (g.s (n + 1))

/-- Lane `l` of a vector register (R320). -/
def v (g : Group) (r l : Nat) : Word := Maps.get 0 g.vregs (r * 32 + l)

/-- Lane `l` of a vector pair (R8). -/
def v64 (g : Group) (r l : Nat) : Dword := pairOf (g.v r l) (g.v (r + 1) l)

/-- A predicate; 7 is `pt`, which reads 1 in every lane (R320). -/
def p (g : Group) (n : Nat) : Word := if n = 7 then BitVec.allOnes 32 else Maps.get 0 g.preds n

/-- Is lane `l` active? -/
def on (g : Group) (l : Nat) : Bool := g.active.getLsbD l

/-- Supervisor mode (R293). -/
def sup (g : Group) : Bool := g.mode.getLsbD 0

def window (g : Group) (n : Nat) : Window := Maps.get {} g.windows n

def setS (g : Group) (n : Nat) (x : Word) : Group := { g with sregs := Maps.put 0 g.sregs n x }
def setS64 (g : Group) (n : Nat) (x : Dword) : Group := (g.setS n (loW x)).setS (n + 1) (hiW x)
def setWindow (g : Group) (n : Nat) (w : Window) : Group := { g with windows := Maps.put {} g.windows n w }

/-- A write of one lane of a vector register. -/
def setLane (g : Group) (r l : Nat) (x : Word) : Group := { g with vregs := Maps.put 0 g.vregs (r * 32 + l) x }

/-- Writes of a vector register in the listed lanes. -/
def setLanes (g : Group) (r : Nat) (f : Nat → Word) : List Nat → Group
  | [] => g
  | l :: ls => (g.setLane r l (f l)).setLanes r f ls

/-- A write of a vector register in the lanes of a mask; every other lane keeps its value (R339). -/
def setV (g : Group) (r : Nat) (m : Word) (f : Nat → Word) : Group := g.setLanes r f (lanesOf m)

/-- A write of a vector pair in the lanes of a mask. -/
def setV64 (g : Group) (r : Nat) (m : Word) (f : Nat → Dword) : Group :=
  (g.setV r m (fun l => loW (f l))).setV (r + 1) m (fun l => hiW (f l))

/-- A write of a predicate in the lanes of a mask; 7 discards (R317). -/
def setP (g : Group) (n : Nat) (m : Word) (x : Word) : Group :=
  if n = 7 then g else { g with preds := Maps.put 0 g.preds n ((g.p n &&& ~~~m) ||| (x &&& m)) }

/-- The rounding mode and the flush bits of sr.fpm (R243). -/
def rm (g : Group) : Num.Rm := Num.rmOf (g.fpm.toNat % 4)
def fz (g : Group) (b : Nat) : Bool := g.fpm.getLsbD b
def fz64 (g : Group) : Bool := g.fz 4
def fz32 (g : Group) : Bool := g.fz 5
def fz16 (g : Group) : Bool := g.fz 6
def fzbf (g : Group) : Bool := g.fz 7
def fze4 (g : Group) : Bool := g.fz 8
def fze5 (g : Group) : Bool := g.fz 9

/-- `sr.cptag` (R422): the current tag, and a failure bit per tag. -/
def cptag (g : Group) : Word := BitVec.ofNat 32 ((List.range 4).foldl (fun v t =>
  if (Maps.get {} g.cpTags t).fail then v + 2 ^ (4 + t) else v) g.cpCur.toNat)

/-- A lane's generator (R246). -/
def gen (g : Group) (l : Nat) : Nat := (Maps.get 0 g.lfsr l).toNat
def setGen (g : Group) (l x : Nat) : Group := { g with lfsr := Maps.put 0 g.lfsr l (BitVec.ofNat 32 x) }

/-- Every lane's generator reseeded with `k` (R246). -/
def reseed (g : Group) (k : Nat) : Group :=
  { g with lfsr := (List.range 32).map fun l => (l, BitVec.ofNat 32 (Num.lfsrSeed k l)) }

/-- The mask of a uniform instruction's fault (R403): ACTIVE, or when it is empty the lowest lane that has not exited. -/
def uniformMask (g : Group) : Word :=
  if g.active = 0 then
    BitVec.ofNat 32 (2 ^ lowLane (~~~g.gone))
  else g.active

/-- Does a register wait for an asynchronous value or an arrival (R157, R158)? -/
def busy (g : Group) (r : RegId) : Bool :=
  (g.pending.any fun p => p.1 == r) || (match r with
    | .vec n => g.await.getLsbD n
    | _ => false)

/-- The registers marked pending on a request. -/
def mark (g : Group) (rs : List RegId) (id : Nat) : Group := { g with pending := g.pending ++ rs.map fun r => (r, id) }

/-- The registers of a request released. -/
def release (g : Group) (id : Nat) : Group := { g with pending := g.pending.filter fun p => p.2 != id }

end Group

/-- The effective number of a vector field (R318). -/
def ea (x : Bool) (f : BitVec 7) (g : Group) : Nat := f.toNat + (if x then g.ix.toNat else 0)

/-- The issuing team's vector allotment (R8). -/
def allot (s : State) : Nat := (curTeam s).regs

/-- The exception events of the issuing group's lanes charged to a tag of its launch's die (R252 to R254). -/
def chargeTag (die slot tag : Nat) (ev : Num.Ev) (s : State) : State :=
  if ev.sat = 0 ∧ ev.ftz = 0 ∧ ev.nan = 0 then s
  else
    let bump (c : Word) (n : Nat) : Word := BitVec.ofNat 32 (min 0xFFFFFFFF (c.toNat + n))
    onDie die (fun d =>
      let st := Maps.get {} d.stats tag
      { d with
        stats := Maps.set d.stats tag { sat := bump st.sat ev.sat, ftz := bump st.ftz ev.ftz, nan := bump st.nan ev.nan }
        cards := Maps.modify d.cards slot fun c => { c with tags := if c.tags.contains tag then c.tags else tag :: c.tags } }) s

/-- The events of an instruction of the issuing group, whose tag is `tag`. -/
def charge (tag : Word) (ev : Num.Ev) (s : State) : State :=
  chargeTag (curTeam s).die (curTeam s).slot (tag.toNat % 4096) ev s

/-- A free number and the state that has drawn it (log entry 8). -/
def draw (s : State) : Nat × State := (Config.freeNat s.draws, { s with draws := s.draws + 1 })

/-- The fault-record code of a cause (R290). -/
def Cause.code : Cause → Nat
  | .illegal => 0x01 | .regbound => 0x02 | .priv => 0x03 | .align => 0x04 | .firsttouch => 0x05 | .access => 0x06
  | .exec => 0x07 | .overwrite => 0x08 | .capability => 0x09 | .depunder => 0x0A | .trapinsn => 0x0B | .brk => 0x0C
  | .sibhalt => 0x0D | .rstack => 0x0E | .copyfault => 0x0F | .floor => 0x10 | .deadline => 0x11

/-- The reason codes of R298. -/
def Reason.code : Reason → Nat
  | .none => 0 | .notmapped => 0x01 | .perm => 0x02 | .badpte => 0x03 | .poolempty => 0x04 | .poollow => 0x05
  | .noncanon => 0x06 | .nowin => 0x07 | .scrbound => 0x08 | .noteam => 0x09 | .fwwrite => 0x0A | .nophys => 0x0B
  | .noctx => 0x0C | .linkdown => 0x0D | .ecc => 0x0E | .poison => 0x0F | .badtrd => 0x10 | .trdbound => 0x11
  | .firnclr => 0x12 | .floor => 0x13 | .noexec => 0x14 | .depunder => 0x15 | .badcard => 0x16 | .baddraw => 0x17
  | .badtile => 0x18 | .statsfault => 0x19 | .drain => 0x1A | .killed => 0x1B | .thermal => 0x1C | .rstack => 0x1D
  | .dmafault => 0x1E | .structfault => 0x1F

/-- A record given to a die for its fault queue (R298). -/
def record (die : Nat) (r : FaultRec) (s : State) : State := onDie die (fun d => { d with frecs := d.frecs ++ [r] }) s

end Sys2Proof.Machine
end

