-- ==== Sys2Proof/Machine/Mem.lean ====
section
/-! DEFINITION. Physical memory (R16, R210 to R214), context entries (R42), region control blocks (R63 to R65), and the
translation of virtual addresses (R181 to R197). -/

namespace Sys2Proof.Machine

/-- Byte `i` of a line. -/
def lineByte (l : Line) (i : Nat) : Byte := BitVec.ofNat 8 (l.toNat / 2 ^ (8 * i))

/-- A line with byte `i` replaced. -/
def setLineByte (l : Line) (i : Nat) (b : Byte) : Line :=
  BitVec.ofNat 512 (l.toNat - (lineByte l i).toNat * 2 ^ (8 * i) + b.toNat * 2 ^ (8 * i))

/-- The line of 64 bytes. -/
def lineOf (bs : List Byte) : Line := BitVec.ofNat 512 (Maps.leNat bs)

/-- The 64 bytes of a line. -/
def lineBytes (l : Line) : List Byte := Maps.natLe l.toNat 64

/-- The HBM part of the physical address space (R16). -/
def hbmTop : Nat := 0xC000000000
def pcieBase : Nat := 0x3E0000000000
def devBase : Nat := 0x3F0000000000
def physTop : Nat := 0x400000000000

def isHbm (pa : Nat) : Bool := pa < hbmTop
def isPcie (pa : Nat) : Bool := pcieBase ≤ pa && pa < devBase
def isDev (pa : Nat) : Bool := devBase ≤ pa && pa < physTop

/-! Interleave domains (R210, R211). -/

def idwOf (m : Mem) (k : Nat) : Nat := (Maps.get 0 m.idw k).toNat
def hmaskOf (m : Mem) (k : Nat) : Nat := (Maps.get 0 m.hmask k).toNat

/-- Does an enabled domain value hold an address? -/
def idwHolds (v pa : Nat) : Bool :=
  bitN v 63 && bitsN v 9 0 ≤ pa / 2 ^ 30 && pa / 2 ^ 30 < bitsN v 19 10

/-- The domain of an HBM address, if it lies in one. -/
def domainOf (m : Mem) (pa : Nat) : Option Nat :=
  if isHbm pa then (List.range 16).find? fun k => idwHolds (idwOf m k) pa else none

/-- The bits of `x` that a mask selects, packed from bit 0 (R211). -/
def packBits (x : Nat) (ps : List Nat) : Nat :=
  match ps with
  | [] => 0
  | i :: rest => (if bitN x i then 1 else 0) + 2 * packBits x rest

/-- The exclusive or of the `w`-bit chunks of `x`, at most `n` of them (R211). -/
def foldBits (w x : Nat) : Nat → Nat
  | 0 => 0
  | n + 1 => if w = 0 then 0 else Nat.xor (x % 2 ^ w) (foldBits w (x / 2 ^ w) n)

/-- The slice of an address under domain values (R211). -/
def sliceUnder (idw hmask pa : Nat) : Nat :=
  bitsN idw 55 48 + foldBits (bitsN idw 47 44) (packBits (pa / 64) (setBits 40 hmask)) 40

/-- The slice of an HBM address (R211). -/
def sliceOf (m : Mem) (pa : Nat) : Option Nat := (domainOf m pa).map fun k => sliceUnder (idwOf m k) (hmaskOf m k) pa

/-- The controller of an HBM address (R211). -/
def controllerOf (m : Mem) (pa : Nat) : Nat :=
  match domainOf m pa with
  | none => 0
  | some k =>
    let cs := setBits 24 (bitsN (idwOf m k) 43 20)
    (cs[(pa / 256) % (max 1 cs.length)]?).getD 0

/-! Format windows (R213, R214). -/

/-- A format window's value. -/
def fwOf (m : Mem) (mc k : Nat) : Nat := (Maps.get 0 m.fw (16 * mc + k)).toNat

/-- Does a format window decode an address? -/
def fwHolds (v pa : Nat) : Bool :=
  bitN v 255 && 1 ≤ bitsN v 254 252 && bitsN v 254 252 ≤ 4 && bitsN v 45 16 ≤ pa / 2 ^ 16 && pa / 2 ^ 16 < bitsN v 221 192

/-- The format window of an address at its controller. -/
def viewOf (m : Mem) (pa : Nat) : Option Nat :=
  let mc := controllerOf m pa
  (List.range 16).find? fun k => fwHolds (fwOf m mc k) pa

/-- A number of `n` bytes in HBM, without the LLC. -/
def rawNat (m : Mem) (pa n : Nat) : Nat := Maps.readNat m.hbm pa n

/-- Element `i` of a view of FMT 1 or 2: the exact product (R214, R241). -/
def viewProduct (m : Mem) (store scale rowlen b i : Nat) : Num.FV :=
  let byte := rawNat m (store + i / 2) 1
  let blk := rawNat m (scale + i / 8) 1
  let band := rawNat m (scale + b + 2 * (i / (4096 * max 1 rowlen))) 2
  Num.e2m1Value (if i % 2 = 0 then byte % 16 else byte / 16) blk (Num.decode Num.bf16 band)

/-- Rounds a number up to a multiple. -/
def roundUp (n k : Nat) : Nat := (n + k - 1) / k * k

/-- The byte that a format window decodes at an address (R214). -/
def viewByte (m : Mem) (v pa : Nat) : Byte :=
  let base := bitsN v 45 16 * 2 ^ 16
  let off := pa - base
  let bytes := (bitsN v 221 192 - bitsN v 45 16) * 2 ^ 16
  let store := bitsN v 109 64
  let scale := bitsN v 173 128
  let rowlen := bitsN v 239 224
  match bitsN v 254 252 with
  | 1 =>
    let x := viewProduct m store scale rowlen (roundUp (bytes / 8) 64) off
    BitVec.ofNat 8 (Num.narrow Num.e4m3 (.mode .rne) false false x).1
  | 2 =>
    let x := viewProduct m store scale rowlen (roundUp (bytes / 2 / 8) 64) (off / 2)
    BitVec.ofNat 8 (Num.packRne Num.bf16 x / 2 ^ (8 * (off % 2)))
  | 3 =>
    let g := off / 64
    let bm := rawNat m (scale + 8 * g) 8
    let i := off % 64
    if bitN bm i then BitVec.ofNat 8 (rawNat m (store + 64 * g + popN i bm) 1) else 0
  | _ =>
    let g := off / 64
    let bm := rawNat m (scale + 4 * g) 4
    let i := off % 64 / 2
    if bitN bm i then BitVec.ofNat 8 (rawNat m (store + 64 * g + 2 * popN i bm + off % 2) 1) else 0

/-- What the controller reads of HBM for one line of a view: addresses and lengths, of the stored form no more than the population count
of its bitmap needs (R214). -/
def viewReads (m : Mem) (v la : Nat) : List (Nat × Nat) :=
  let off := 64 * la - bitsN v 45 16 * 2 ^ 16
  let bytes := (bitsN v 221 192 - bitsN v 45 16) * 2 ^ 16
  let store := bitsN v 109 64
  let scale := bitsN v 173 128
  let band (i elems : Nat) : Nat × Nat := (scale + roundUp (elems / 8) 64 + 2 * (i / (4096 * max 1 (bitsN v 239 224))), 2)
  match bitsN v 254 252 with
  | 1 => [(store + off / 2, 32), (scale + off / 8, 8), band off bytes]
  | 2 => [(store + off / 4, 16), (scale + off / 16, 4), band (off / 2) (bytes / 2)]
  | 3 => [(store + off, popN 64 (rawNat m (scale + off / 8) 8)), (scale + off / 8, 8)]
  | _ => [(store + off, 2 * popN 32 (rawNat m (scale + off / 16) 4)), (scale + off / 16, 4)]

/-- What is read of HBM to fill a line (R202, R214). -/
def lineReads (m : Mem) (la : Nat) : List (Nat × Nat) :=
  match viewOf m (64 * la) with
  | some k => viewReads m (fwOf m (controllerOf m (64 * la)) k) la
  | none => [(64 * la, 64)]

/-- Does a read of ranges touch a range? -/
def touches (rs : List (Nat × Nat)) (pa n : Nat) : Bool := rs.any fun r => decide (r.2 ≠ 0) && decide (r.1 < pa + n) && decide (pa < r.1 + r.2)

/-! Bytes at their home point: the LLC line where there is one, else the controller's decoded view, else HBM. -/

/-- The byte at an HBM address as its slice would return it (R202, R214, R217). -/
def byteAt (m : Mem) (pa : Nat) : Byte :=
  match Maps.find m.llc (pa / 64) with
  | some l => lineByte l.data (pa % 64)
  | none =>
    match viewOf m pa with
    | some k => viewByte m (fwOf m (controllerOf m pa) k) pa
    | none => Maps.get 0 m.hbm pa

/-- The line that a slice fills from its controller. -/
def fillLine (m : Mem) (la : Nat) : Line := lineOf ((List.range 64).map fun i =>
  match viewOf m (64 * la + i) with
  | some k => viewByte m (fwOf m (controllerOf m (64 * la)) k) (64 * la + i)
  | none => Maps.get 0 m.hbm (64 * la + i))

/-- A store of one byte at its home point; one into a view of a format window is dropped (R213, R214). -/
def putByte (m : Mem) (pa : Nat) (b : Byte) : Mem :=
  if (viewOf m pa).isSome then m else match Maps.find m.llc (pa / 64) with
  | some l => { m with llc := Maps.set m.llc (pa / 64) { data := setLineByte l.data (pa % 64) b, dirty := true } }
  | none => { m with hbm := Maps.put 0 m.hbm pa b }

/-- The bytes of a range at their home points. -/
def bytesAt (m : Mem) (pa n : Nat) : List Byte := (List.range n).map fun i => byteAt m (pa + i)

/-- A number of `n` bytes at their home points. -/
def natAt (m : Mem) (pa n : Nat) : Nat := Maps.leNat (bytesAt m pa n)

/-- A store of bytes at their home points. A store of a whole line ends its poison (R60). -/
def putBytes (m : Mem) (pa : Nat) : List Byte → Mem
  | [] => m
  | b :: bs => putBytes (putByte m pa b) (pa + 1) bs

def putNat (m : Mem) (pa n v : Nat) : Mem := putBytes m pa (Maps.natLe v n)

/-- A device's store of bytes into a range, the poison of each line it covers whole ended (R60). -/
def storeRange (m : Mem) (pa : Nat) (bs : List Byte) : Mem :=
  let m := putBytes m pa bs
  { m with poison := m.poison.filter fun la => !(decide (pa ≤ 64 * la) && decide (64 * la + 64 ≤ pa + bs.length)) }

/-- The lines of a range. -/
def linesOf (pa n : Nat) : List Nat := (List.range ((pa + n + 63) / 64 - pa / 64)).map fun i => pa / 64 + i

/-- Is any line of a range poisoned (R60), or a view's line to be decoded from poisoned bytes (R214)? -/
def poisoned (m : Mem) (pa n : Nat) : Bool := m.poison.any fun la =>
  (decide (64 * la < pa + n) && decide (pa < 64 * la + 64)) ||
    (linesOf pa n).any fun x => (Maps.find m.llc x).isNone && touches (lineReads m x) (64 * la) 64

/-! Caches: their sizes, and what leaves them (R160, R201, R202). -/

/-- The bank of an HBM address, device-wide (R202). -/
def bankOf (m : Mem) (pa : Nat) : Option Nat := (sliceOf m pa).map fun n => 4 * n + pa / 64 % 4

/-- The retired locations of a kind and unit, as the lifetime record lists them (R60, log entry 19). -/
def retiredOf (m : Mem) (kind unit : Nat) : Nat := (m.retired.filter fun e => e.toNat / 2 ^ 32 == kind * 2 ^ 28 + unit).length

/-- The lines that a bank of 512 KiB holds, without its retired ways (R60, R202). -/
def bankLines (m : Mem) (bank : Nat) : Nat := 8192 - retiredOf m 1 bank

/-- The lines of a core's L1: the carve code's share without its retired rows (R60, R160, R201). -/
def l1Lines (m : Mem) (core carve : Nat) : Nat := 16 * (([2048, 1024, 256, 1024, 256, 1024][carve]?).getD 0) - retiredOf m 5 core

/-- A controller's count of a line written (R56). -/
def countWrite (la : Nat) (m : Mem) : Mem :=
  let n := controllerOf m (64 * la)
  { m with mcWrites := Maps.set m.mcWrites n (Maps.get 0 m.mcWrites n + 1) }

/-- A line of the LLC written to HBM. -/
def writeLine (la : Nat) (l : Line) (m : Mem) : Mem := countWrite la { m with hbm := Maps.writeBytes m.hbm (64 * la) (lineBytes l) }

/-- A line that leaves the LLC, its stores written to HBM first. -/
def evictLine (la : Nat) (m : Mem) : Mem :=
  let m := match Maps.find m.llc la with
    | some l => if l.dirty then writeLine la l.data m else m
    | none => m
  { m with llc := Maps.del m.llc la }

/-- A line filled in the LLC; where its bank is full another line leaves it, which is free (R202, log entry 11). -/
def fillLlc (la : Nat) (l : Line) (s : State) : State :=
  let full := match bankOf s.mem (64 * la) with
    | some b =>
      let mine := Maps.keys s.mem.llc fun x _ => x != la && bankOf s.mem (64 * x) == some b
      if bankLines s.mem b ≤ mine.length then mine else []
    | none => []
  let s := match full with
    | [] => s
    | v :: vs => let (n, s) := draw s; onMem (evictLine (((v :: vs)[n % (vs.length + 1)]?).getD v)) s
  onMem (fun m => { m with llc := Maps.set m.llc la { data := l, dirty := false } }) s

/-- A line filled in a core's L1; where the L1 is full another line leaves it, which is free (R201, log entry 11). -/
def fillL1 (core la : Nat) (l : Line) (s : State) : State :=
  let c := coreAt s core
  let cap := l1Lines s.mem core c.carve
  let others := Maps.keys c.l1 fun x _ => x != la
  if cap = 0 then s
  else if others.length < cap then onCore core (fun c => { c with l1 := Maps.set c.l1 la l }) s
  else
    let (n, s) := draw s
    onCore core (fun c => { c with l1 := Maps.set (Maps.del c.l1 ((others[n % others.length]?).getD 0)) la l }) s

/-- A core's L1 invalidated (R201). Loads still on their way fill nothing any more, so that no later load is served by a
line read before the invalidation (R222). -/
def dropL1 (core : Nat) (s : State) : State :=
  onMem (fun m => { m with net := Maps.mapAll m.net fun _ r => if r.core = core then { r with fill := false } else r })
    (onCore core (fun c => { c with l1 := [] }) s)

/-- Lines of a range leave a core's L1, and loads of them still on their way fill nothing (R201, R231). -/
def dropLines (core pa n : Nat) (s : State) : State :=
  let hit (la : Nat) : Bool := decide (64 * la < pa + n) && decide (pa < 64 * la + 64)
  onMem (fun m => { m with net := Maps.mapAll m.net fun _ r =>
      if r.core = core ∧ r.space = .llc ∧ hit (r.pa / 64) then { r with fill := false } else r })
    (onCore core (fun c => { c with l1 := c.l1.filter fun e => !hit e.1 }) s)

/-- Is a store or atomic of a core to a line on its way? -/
def writesOut (s : State) (core la : Nat) : Bool :=
  s.mem.net.any fun e => e.2.core == core && e.2.space == .llc && e.2.pa / 64 == la && (match e.2.op with
    | .store => true
    | .atom _ _ _ => true
    | .resbit _ _ => true
    | _ => false)

/-- What a core has just read or written of a line at its home point put into its L1, where a line is kept, older fills of it forgotten
(R219, R227): with a store of the core to the line on its way, the line leaves the L1 instead. -/
def keepLine (core la : Nat) (l : Option Line) (s : State) : State :=
  let s := onMem (fun m => { m with net := Maps.mapAll m.net fun _ r =>
    if r.core = core ∧ r.space = .llc ∧ r.pa / 64 = la ∧ r.st = .done then { r with fill := false } else r }) s
  match writesOut s core la, l with
  | false, some l => fillL1 core la l s
  | _, _ => onCore core (fun c => { c with l1 := Maps.del c.l1 la }) s

/-- A read by an engine or a device table reader: none where the address is in no domain or is poisoned. -/
def tryRead (m : Mem) (pa n : Nat) : Option (List Byte) :=
  if (domainOf m pa).isSome && (domainOf m (pa + n - 1)).isSome && !poisoned m pa n then some (bytesAt m pa n) else none

/-! Context table entries (R41, R42). -/

def ctxAddr (s : State) (c : Nat) : Nat := s.io.ctxbase.toNat / 4096 * 4096 % 2 ^ 46 + 64 * c

/-- Bits of a context's entry. -/
def ctxField (s : State) (c hi lo : Nat) : Nat := bitsN (natAt s.mem (ctxAddr s c) 64) hi lo

def ctxValid (s : State) (c : Nat) : Bool := ctxField s c 0 0 == 1
def ctxFaulted (s : State) (c : Nat) : Bool := ctxField s c 3 3 == 1
def ctxClass (s : State) (c : Nat) : Nat := ctxField s c 2 1
def ctxAsid (s : State) (c : Nat) : Nat := ctxField s c 31 16
def ctxRoot (s : State) (c : Nat) : Nat := ctxField s c 191 128 % 2 ^ 46
def ctxRcb (s : State) (c : Nat) : Nat := ctxField s c 255 192
def ctxCapkey (s : State) (c : Nat) : Nat := ctxField s c 319 256
def ctxTlt (s : State) (c : Nat) : Nat := ctxField s c 447 384 % 2 ^ 46

/-- A context whose entry has one field replaced. -/
def setCtxField (s : State) (c hi lo v : Nat) : State :=
  let a := ctxAddr s c
  let e := natAt s.mem a 64
  let w := 2 ^ (hi + 1 - lo)
  let e' := e - bitsN e hi lo * 2 ^ lo + v % w * 2 ^ lo
  onMem (fun m => putNat m a 64 e') s

/-- STRAY incremented, saturating (R42). -/
def stray (c n : Nat) (s : State) : State := setCtxField s c 383 320 (min (2 ^ 64 - 1) (ctxField s c 383 320 + n))

/-! The ways between dies (R21, R31, R32, R205). -/

def linkOf (s : State) (l : LinkId) : Link := ((s.io.links.find? fun e => e.1 == l).map (·.2)).getD {}

/-- More than 8 retries within 10^6 flits (R31). -/
def retrainDue (k : Link) : Bool :=
  k.st == .up && k.retryAt.length == 9 && k.retryAt.all fun n => decide (k.window < n + 1000000)

/-- Does a link carry flits now? -/
def Link.carries (k : Link) : Bool := k.st == .up && !retrainDue k

/-- A way through the butterfly: from one of its inputs to a slice (R205). What stands for a die's registers, and for an I/O die, is
`dieSlice` (log entry 23). -/
structure Way where
  inp   : Nat
  slice : Nat
deriving DecidableEq, Repr

def dieSlice (d : Nat) : Nat := if d < 8 then 32 * d else 248 + d
def sliceDie (n : Nat) : Nat := if n < 256 then n / 32 else n - 248

def Way.src (w : Way) : Nat := dieOfCore w.inp
def Way.dst (w : Way) : Nat := sliceDie w.slice

/-- The modules that a die has: those not taken down. -/
def modulesOf (s : State) (d : Nat) : List LinkId :=
  ((List.range 8).map fun m => LinkId.ucie (BitVec.ofNat 4 d) (BitVec.ofNat 3 m)).filter fun l =>
    (linkOf s l).st != .down && (linkOf s l).st != .off

/-- The module by which a way leaves or enters a die, the same for all that goes that way (R205, R206); none where the die has none left. -/
def moduleAt (s : State) (w : Way) (d : Nat) : Option LinkId :=
  let ls := modulesOf s d
  ls[Config.moduleOf w.inp w.slice d % max 1 ls.length]?

/-- The modules that a way crosses, at the die that it leaves and at the die that it enters: none within one die (R21, R205). -/
def Way.modules (s : State) (w : Way) : List (Option LinkId) :=
  if w.src = w.dst then [] else [moduleAt s w w.src, moduleAt s w w.dst]

/-- Can what goes a way cross its modules now; can it never? Does the way lead over a link (R31, R32)? -/
def Way.open_ (s : State) (w : Way) : Bool := (w.modules s).all fun l => match l with
  | some l => (linkOf s l).carries
  | none => false
def Way.dead (s : State) (w : Way) : Bool := (w.modules s).contains none
def Way.takes (s : State) (w : Way) (l : LinkId) : Bool := (w.modules s).contains (some l)

/-- The way from an input to a line's slice, its own die's where no domain holds the line. -/
def lineWay (m : Mem) (inp la : Nat) : Way := { inp := inp, slice := (sliceOf m (64 * la)).getD (dieSlice (dieOfCore inp)) }

/-- Is a link a module of a die that a way leaves or enters? -/
def Way.near (w : Way) (l : LinkId) : Bool := w.src != w.dst && (match l with
  | .ucie d _ => d.toNat == w.src || d.toNat == w.dst
  | .port _ => false)

/-- Is a module of a way from an input held while it retrains (R31)? Then what that input's unit does waits. -/
def inputHeld (s : State) (inp : Nat) : Bool :=
  (s.io.links.filter fun e => e.2.st != .down && e.2.st != .off && !e.2.carries).any fun e =>
    (List.range 258).any fun n => (Way.mk inp n).takes s e.1

/-- A link's number in a LINKDOWN record: a port's own, or a module's after the 128 ports, as the lifetime record lists them
(R298, log entry 23). -/
def linkNo (l : LinkId) : Nat := match l with
  | .port j => j.toNat
  | .ucie d m => 128 + 8 * d.toNat + m.toNat

/-- The number of the module to which a way that is dead is charged: the first of the die that has none left. -/
def Way.deadLink (s : State) (w : Way) : Nat := 128 + 8 * (if (modulesOf s w.src).isEmpty then w.src else w.dst)

/-! The page-table walk (R183 to R185). -/

/-- How a walk ends: at a valid leaf (its entry, page base offset bits), at an entry with V = 0 (its level, address and
FT), at a bad entry, or at a table address that is not there. -/
inductive Walk where
  | leaf (pte level : Nat)
  | invalid (level addr : Nat) (ft : Bool)
  | bad (level : Nat)
  | nophys (addr : Nat)
deriving DecidableEq, Repr

/-- The levels of a walk: lowest index bit, number of index bits, address alignment of the table below, and of a page
here (R183). -/
def levels : List (Nat × Nat × Nat × Nat) :=
  [(48, 8, 2 ^ 12, 0), (39, 9, 2 ^ 12, 0), (30, 9, 2 ^ 12, 2 ^ 30), (21, 9, 2 ^ 8, 2 ^ 21), (16, 5, 0, 2 ^ 16)]

/-- A table entry's address field as an address. -/
def pteAddr (e : Nat) : Nat := bitsN e 45 8 * 2 ^ 8

/-- Is an entry with V = 1 bad (R184)? -/
def pteBad (e tblAlign pageAlign : Nat) : Bool :=
  bitsN e 63 56 != 0 || bitsN e 47 46 != 0 ||
    (if bitN e 1 then pageAlign == 0 || pteAddr e % pageAlign != 0 || (bitN e 3 && !bitN e 2)
     else tblAlign == 0 || pteAddr e % tblAlign != 0)

def walkGo (m : Mem) (va table level : Nat) : List (Nat × Nat × Nat × Nat) → Walk
  | [] => .bad level
  | (lo, n, ta, pa) :: rest =>
    let a := table + 8 * (va / 2 ^ lo % 2 ^ n)
    if (domainOf m a).isNone then .nophys a
    else
      let e := natAt m a 8
      if !bitN e 0 then .invalid level a (bitN e 7)
      else if pteBad e ta pa then .bad level
      else if bitN e 1 then .leaf e level
      else walkGo m va (pteAddr e) (level + 1) rest

/-- The walk of a 56-bit address from a root table. -/
def walk (m : Mem) (root va : Nat) : Walk := walkGo m (va % 2 ^ 56) root 0 levels

/-- The addresses of the entries that a walk reads. -/
def walkReads (m : Mem) (va table : Nat) : List (Nat × Nat × Nat × Nat) → List Nat
  | [] => []
  | (lo, n, ta, pa) :: rest =>
    let a := table + 8 * (va / 2 ^ lo % 2 ^ n)
    if (domainOf m a).isNone then []
    else
      let e := natAt m a 8
      if !bitN e 0 || pteBad e ta pa || bitN e 1 then [a] else a :: walkReads m va (pteAddr e) rest

/-- The number of the link for which a walk from an input cannot read a table any more (R32). -/
def walkLost (s : State) (inp root va : Nat) : Option Nat :=
  ((walkReads s.mem (va % 2 ^ 56) root levels).find? fun a => (lineWay s.mem inp (a / 64)).dead s).map fun a => (lineWay s.mem inp (a / 64)).deadLink s

/-- The bytes of a page at a level. -/
def pageSize (level : Nat) : Nat := if level = 2 then 2 ^ 30 else if level = 3 then 2 ^ 21 else 2 ^ 16

/-- The translation that a leaf gives an address. -/
def tlbOf (asid va : Nat) (pte level : Nat) : TlbEntry :=
  { asid := asid, glob := bitN pte 6, page := va % 2 ^ 56 / pageSize level * pageSize level, size := pageSize level,
    pa := pteAddr pte, r := bitN pte 2, w := bitN pte 3, x := bitN pte 4, u := bitN pte 5 }

/-- Does a translation cover an address? -/
def tlbHit (e : TlbEntry) (asid va : Nat) : Bool :=
  (e.glob || e.asid == asid) && e.page ≤ va % 2 ^ 56 && va % 2 ^ 56 < e.page + e.size

def tlbPa (e : TlbEntry) (va : Nat) : Nat := e.pa + (va % 2 ^ 56 - e.page)

/-- May an access of a kind use a leaf (R194, R197)? -/
def permits (e : TlbEntry) (acc : Acc) (user : Bool) : Bool :=
  (match acc with
    | .load => e.r
    | .store => e.w
    | .atomic => e.w
    | .fetch => e.x) && (e.u || !user)

/-! Regions (R63 to R66). -/

/-- A plain engine translation in a context's own table: none where it faults. -/
def engineVa (s : State) (c : Nat) (va : Dword) : Option Nat :=
  let ctx := if vaTag va = 0xFF then 0 else c
  if vaTag va ≠ 0 ∧ vaTag va ≠ 0xFF then none
  else match walk s.mem (ctxRoot s ctx) (vaLow va) with
    | .leaf pte level =>
      let pa := tlbPa (tlbOf 0 (vaLow va) pte level) (vaLow va)
      if bitN pte 2 && (domainOf s.mem pa).isSome then some pa else none
    | _ => none

/-- The physical address of a region control block, if it can be read (R63). -/
def rcbPa (s : State) (c h : Nat) : Option Nat := engineVa s c (BitVec.ofNat 64 (ctxRcb s c + 256 * h))

/-- Bits of a region control block; 0 where it cannot be read. -/
def rcbField (s : State) (c h hi lo : Nat) : Nat :=
  match rcbPa s c h with
  | some pa => bitsN (natAt s.mem pa 256) hi lo
  | none => 0

/-- Is a reserved field of a region control block not zero (R4, R64)? -/
def rcbReserved (v : Nat) : Bool :=
  bitsN v 2047 1552 != 0 || bitsN v 1535 280 != 0 || bitsN v 191 148 != 0 || bitsN v 63 62 != 0 || bitsN v 31 25 != 0

/-- The chain from a region to the root, at most 8 long; none if it never reaches the root or cannot be read (R63). A block with a
reserved field that is not zero is rejected as one that cannot be read (R4, log entry 15). -/
def chainGo (s : State) (c : Nat) : Nat → Nat → Option (List Nat)
  | 0, _ => none
  | n + 1, h =>
    match rcbPa s c h with
    | none => none
    | some pa =>
      let v := natAt s.mem pa 256
      if rcbReserved v then none else if h = 0 then some [0] else (chainGo s c n (bitsN v 15 0)).map (h :: ·)

def regionChain (s : State) (c h : Nat) : Option (List Nat) := chainGo s c 8 h

/-- The effective value of a field whose override is OVR bit `o` (R65). -/
def effField (s : State) (c h o hi lo : Nat) : Nat :=
  match regionChain s c h with
  | none => 0
  | some ch =>
    match ch.find? fun r => r == 0 || rcbField s c r o o == 1 with
    | some r => rcbField s c r hi lo
    | none => 0

def effPool (s : State) (c h : Nat) : Nat := effField s c h 22 255 192
/-- The effective class: never above the context's (R66). -/
def effClass (s : State) (c h : Nat) : Nat := max (effField s c h 20 61 60) (ctxClass s c)
def effPrio (s : State) (c h : Nat) : Nat := effField s c h 19 59 56
def effDrain (s : State) (c h : Nat) : Nat := let d := effField s c h 23 275 256; if d = 0 then 500 else d

/-! First-touch pools (R191 to R193). -/

/-- A pool descriptor: address, FREEBASE, COUNT, LOW, FILL; none where it is to count as holding nothing (R192). -/
def poolOf (s : State) (c : Nat) (pool : Nat) : Option (Nat × Nat × Nat × Nat × Nat) :=
  match engineVa s c (BitVec.ofNat 64 pool) with
  | none => none
  | some pa =>
    let d := natAt s.mem pa 64
    if 1 < bitsN d 135 128 ∨ bitsN d 511 136 ≠ 0 then none
    else some (pa, bitsN d 63 0, bitsN d 95 64, bitsN d 127 96, bitsN d 135 128)

/-! The resolution of an access (R181, R190, R191, R196, R197). -/

/-- Where an access goes, or how it fails. -/
inductive Target where
  /-- Physical memory: the address, and the translation to keep. -/
  | phys (pa : Nat) (tr : Option TlbEntry)
  | scratch (off : Nat)
  | remote (handle off : Nat)
  /-- ACCESS in the lane (R196). -/
  | inlane (r : Reason) (info : Nat)
  /-- ACCESS in the lane with reason NOPHYS: the physical address (R16). -/
  | nophys (pa : Nat)
  /-- FIRSTTOUCH in the lane (R191). -/
  | touch
  /-- The wait table, under a page key or a token (R194). -/
  | park (r : Reason) (byPage : Bool) (info : Nat)
deriving DecidableEq, Repr

/-- What the physical address of a group's access leads to (R16, R213). -/
def physTarget (s : State) (supVa : Bool) (pa : Nat) (acc : Acc) (tr : Option TlbEntry) : Target :=
  if isHbm pa then
    if (domainOf s.mem pa).isNone then .nophys pa
    else match viewOf s.mem pa with
      | some k => if acc == .store || acc == .atomic then .inlane .fwwrite k else .phys pa tr
      | none => .phys pa tr
  else if isPcie pa then .phys pa tr
  else if isDev pa && supVa then .phys pa tr
  else .nophys pa

/-- The INFO of a permission fault (R298). -/
def permInfo (acc : Acc) : Nat := match acc with
  | .store => 1
  | .atomic => 2
  | _ => 0

/-- The outcome of an entry with V = 0 and FT = 1 (R191, R192). -/
def touchTarget (s : State) (t : Team) : Target :=
  let pool := effPool s t.ctx t.region
  if pool = 0 then .park .notmapped true 0
  else match poolOf s t.ctx pool with
    | none => .park .poolempty false 1
    | some (_, _, cnt, _, _) => if cnt = 0 then .park .poolempty false 0 else .touch

/-- The translation of a virtual address of tag 0x00 or 0xFF for a group of a team (R183 to R197). A cached translation
serves if it permits the access; otherwise the tables are walked and the fresh leaf decides. -/
def translate (s : State) (t : Team) (user : Bool) (va : Dword) (acc : Acc) : Target :=
  let supVa := vaTag va = 0xFF
  let ctx := if supVa then 0 else t.ctx
  let asid := ctxAsid s ctx
  if supVa && user then .inlane .perm (permInfo acc)
  else
    match (coreAt s t.core).tlb.find? fun e => tlbHit e asid (vaLow va) && permits e acc user with
    | some e => physTarget s (supVa && !user) (tlbPa e (vaLow va)) acc none
    | none =>
      if let some n := walkLost s t.core (ctxRoot s ctx) (vaLow va) then .inlane .linkdown n
      else match walk s.mem (ctxRoot s ctx) (vaLow va) with
      | .leaf pte level =>
        let e := tlbOf asid (vaLow va) pte level
        if permits e acc user then physTarget s (supVa && !user) (tlbPa e (vaLow va)) acc (some e)
        else .park .perm true (permInfo acc)
      | .invalid _ _ ft => if ft then touchTarget s t else .park .notmapped true 0
      | .bad level => .park .badpte false level
      | .nophys a => .nophys a

/-- The resolution of a full virtual address (R181). -/
def resolve (s : State) (t : Team) (user : Bool) (va : Dword) (size : Nat) (acc : Acc) : Target :=
  match vaTag va with
  | 0x00 => translate s t user va acc
  | 0xFF => translate s t user va acc
  | 0xFE =>
    if vaLow va / 2 ^ 36 ≠ 0 ∨ t.scr * 65536 < vaLow va + size then .inlane .scrbound 0 else .scratch (vaLow va)
  | 0xFD => .remote (vaLow va / 2 ^ 36) (vaLow va % 2 ^ 36)
  | _ => .inlane .noncanon 0

/-- A translation that a walk has given kept in a core's TLB; any that overlaps it, as one that lacked the permission does, is dropped
(R186, R197). The walk's reads are acquires at `dev` scope on the core (R185, R201). -/
def keepTr (core : Nat) (tr : Option TlbEntry) (s : State) : State :=
  match tr with
  | none => s
  | some e => onCore core (fun c => { c with tlb := e :: c.tlb.filter fun o => !((o.glob || o.asid == e.asid) && decide (o.page < e.page + e.size) && decide (e.page < o.page + o.size)) }) (dropL1 core s)

/-! Scratchpads (R181, R215). -/

def scrRead (t : Team) (off n : Nat) : Nat := Maps.readNat t.scratch off n
def scrWrite (off n v : Nat) (t : Team) : Team := { t with scratch := Maps.writeNat t.scratch off n v }

end Sys2Proof.Machine
end

