-- ==== Sys2Proof/Machine/Errors.lean ====
section
/-! DEFINITION. The counts of the lifetime record and of the slices and controllers (R56, R61), bit errors met by a read (R58 to R60), and
the reads of HBM that units other than a group's own loads make. -/

namespace Sys2Proof.Machine

/-! The lifetime record (R61). -/

/-- The items of the lifetime record that count. -/
inductive LifeItem where
  | hours | boots | bootFailures
  | temp (die band : Nat)
  | retrains (link : Nat)
  | linkFailures (link : Nat)
  | corrected (bank : Nat)
  | transient (kind : Nat)
  | lasting (kind : Nat)
  | drainResets (cls : Nat)
  | thermalResets (die : Nat)
deriving DecidableEq, Repr

/-- An item's key, in the order of R61, and its bytes in the record. -/
def LifeItem.key : LifeItem → Nat
  | .hours => 0 | .boots => 1 | .bootFailures => 2
  | .temp d b => 100 + 16 * d + b
  | .retrains j => 1000 + 2 * j
  | .linkFailures j => 1001 + 2 * j
  | .corrected b => 2000 + b
  | .transient k => 4000 + 2 * k
  | .lasting k => 4001 + 2 * k
  | .drainResets c => 5000 + c
  | .thermalResets d => 5100 + d

def LifeItem.bytes : LifeItem → Nat
  | .linkFailures _ => 2
  | .thermalResets _ => 2
  | _ => 4

/-- A count of the lifetime record kept in SRAM, saturating at its width (R61, R62). -/
def countLife (i : LifeItem) (n : Nat) (s : State) : State :=
  let l := s.boot.sram
  { s with boot := { s.boot with sram := { l with counts := Maps.set l.counts i.key (min (2 ^ (8 * i.bytes) - 1) (Maps.get 0 l.counts i.key + n)) } } }

/-- A retired location, written to the non-volatile store before the retirement takes effect; the list holds 4,096
entries (R61, R62). -/
def retireRow (e : Dword) (s : State) : State :=
  let l := s.boot.nv
  let s := onMem (fun m => { m with retired := m.retired ++ [e] }) s
  if l.retired.length < 4096 then { s with boot := { s.boot with nv := { l with retired := l.retired ++ [e] } } } else s

/-! Uncorrectable errors (R58 to R60). -/

/-- The structure kinds of R60, as the lifetime record counts them. -/
def errKind : EccPlace → Bool → Nat
  | .llc _, false => 1
  | .llc _, true => 2
  | .hbm _, _ => 3
  | .store _, _ => 5
  | .weight _ _, _ => 6
  | _, _ => 0

/-- The kind and the unit of a location in the list of retired rows, ways and pages (log entry 19). -/
def retireUnit (s : State) : EccPlace → Nat × Nat
  | .llc la => (1, (bankOf s.mem (64 * la)).getD 0)
  | .hbm _ => (2, 0)
  | .store h => (3, (teamAt s h).core)
  | .weight h n => (4, 2 * (teamAt s h).core + (if (Maps.get {} (teamAt s h).wslots n).half then 1 else 0))
  | .l1 c _ => (5, c)
  | .resid c _ => (6, c)
  | .tlb c _ => (7, c)
  | .icache c _ => (8, c)

/-- A location's entry in that list: its kind, its unit, and which of the unit's rows or ways it is, a page by its number. -/
def retireEntry (s : State) (p : EccPlace) : Dword :=
  let u := retireUnit s p
  let i := match p with
    | .hbm sec => sec / 2048
    | _ => retiredOf s.mem u.1 u.2
  BitVec.ofNat 64 (u.1 * 2 ^ 60 + u.2 * 2 ^ 32 + i)

/-- The bank for which the lifetime record counts corrected errors, in the order of R61; none for a structure it has no count for. -/
def errBank (s : State) : EccPlace → Option Nat
  | .llc la => bankOf s.mem (64 * la)
  | .store h => some (1024 + (teamAt s h).core)
  | .l1 c _ => some (1024 + c)
  | .hbm sec => some (1216 + controllerOf s.mem (32 * sec))
  | _ => none

/-- The error at a place, if any. -/
def errAt (m : Mem) (p : EccPlace) : Option EccErr := (m.errs.find? fun e => e.1 == p).map (·.2)

/-- Does a sector of HBM lie in what is read of it for one of the lines of a range (R214)? -/
def sectorRead (m : Mem) (pa n sec : Nat) : Bool :=
  (linesOf pa n).any fun la => (Maps.find m.llc la).isNone &&
    (if (viewOf m (64 * la)).isSome then touches (lineReads m la) (32 * sec) 32 else decide (32 * sec < pa + n) && decide (pa < 32 * sec + 32) && sec / 2 == la)

/-- The structure kind of a lasting error that an engine's read of a range cannot get past (R60); 0 for none. -/
def rangeErr (m : Mem) (pa n : Nat) : Nat :=
  let bad (e : EccPlace × EccErr) : Nat := match e with
    | (.llc la, .lasting) =>
      if 64 * la < pa + n ∧ pa < 64 * la + 64 ∧ ((Maps.find m.llc la).map (·.dirty)).getD false then 2 else 0
    | (.hbm sec, .lasting) => if sectorRead m pa n sec then 3 else 0
    | _ => 0
  m.errs.foldl (fun a e => if a = 0 then bad e else a) 0

/-- Does a lasting error retire its row, way or page (R60)? That of a core store does not; a page that is listed is not listed again. -/
def retires (s : State) : EccPlace → Bool
  | .store _ => false
  | .hbm sec => !s.mem.retired.contains (retireEntry s (.hbm sec))
  | _ => true

/-- A read has met a place's error: one bit is corrected and counted, more are counted, and the error is gone unless it stays
(R58 to R60). An error of a page that is listed already has been counted (log entry 19). -/
def meetErr (p : EccPlace) (dirty keep : Bool) (s : State) : State :=
  let gone (s : State) : State := onMem (fun m => { m with errs := m.errs.filter fun e => e.1 != p }) s
  match errAt s.mem p with
  | none => s
  | some .single => gone (match errBank s p with
      | some b => countLife (.corrected b) 1 s
      | none => s)
  | some .transient => gone (countLife (.transient (errKind p dirty)) 1 s)
  | some .lasting =>
    let s := if keep && !retires s p then s
      else
        let t := countLife (.lasting (errKind p dirty)) 1 s
        if retires s p then retireRow (retireEntry s p) t else t
    if keep then s else gone s

/-- A lasting error of an LLC line: a clean one is refetched, a dirty one is lost and its bytes poisoned (R60). -/
def loseLine (la : Nat) (dirty : Bool) (s : State) : State :=
  let s := meetErr (.llc la) dirty false s
  onMem (fun m => { m with
    llc := Maps.del m.llc la
    poison := if dirty && !m.poison.contains la then la :: m.poison else m.poison }) s

/-- Errors in a range that has been read, met (R58 to R60, R214). -/
def meetRange (pa n : Nat) (s : State) : State :=
  s.mem.errs.foldl (fun s e => match e.1 with
    | .llc la =>
      let dirty := (Maps.find s.mem.llc la).map (·.dirty) == some true
      if 64 * la < pa + n ∧ pa < 64 * la + 64 ∧ (Maps.find s.mem.llc la).isSome then
        if e.2 = .lasting then loseLine la dirty s else meetErr e.1 dirty false s
      else s
    | .hbm sec => if sectorRead s.mem pa n sec then meetErr e.1 false true s else s
    | _ => s) s

/-- The errors of a core's L1, residency cache, TLB and instruction cache, met: a lasting one takes its entry, which is fetched again when
it is wanted (R58 to R60). -/
def meetCaches (core : Nat) (s : State) : State :=
  s.mem.errs.foldl (fun s e =>
    let lost := e.2 == .lasting
    let drop (f : Core → Core) (s : State) : State := if lost then onCore core f s else s
    match e.1 with
    | .l1 c la => if c = core then meetErr e.1 false false (if lost then dropLines core (64 * la) 64 s else s) else s
    | .resid c w => if c = core then meetErr e.1 false false (drop (fun k => { k with resCache := Maps.del k.resCache w }) s) else s
    | .tlb c p => if c = core then meetErr e.1 false false (drop (fun k => { k with tlb := k.tlb.filter fun t => t.page != p }) s) else s
    | .icache c la => if c = core then meetErr e.1 false false (drop (fun k => { k with icache := Maps.del k.icache la }) s) else s
    | _ => s) s

/-- Is an error in what the bring-up of a die writes anew: its core stores with their L1, weight buffers and caches, and at boot its LLC
slices? -/
def onDieUp (s : State) (d : Nat) (boot : Bool) : EccPlace → Bool
  | .store h => (Maps.find s.teams h).all fun t => dieOfCore t.core == d
  | .weight h _ => (Maps.find s.teams h).all fun t => dieOfCore t.core == d
  | .l1 c _ => dieOfCore c == d
  | .resid c _ => dieOfCore c == d
  | .tlb c _ => dieOfCore c == d
  | .icache c _ => dieOfCore c == d
  | .llc la => boot && (sliceOf s.mem (64 * la)).all fun n => n / 32 == d
  | .hbm _ => false

/-- Valid ECC throughout a die that comes up (R38, R48). -/
def cleanDie (d : Nat) (boot : Bool) (s : State) : State :=
  onMem (fun m => { m with errs := m.errs.filter fun e => !onDieUp s d boot e.1 }) s

/-! The counts of slices and controllers (R56). -/

/-- A count by slice, one more. -/
def countSlice (pa : Nat) (get : Mem → AMap Nat) (put : AMap Nat → Mem → Mem) (m : Mem) : Mem :=
  match sliceOf m pa with
  | some n => put (Maps.set (get m) n (Maps.get 0 (get m) n + 1)) m
  | none => m

def countNack (pa : Nat) (m : Mem) : Mem := countSlice pa (·.nacks) (fun c m => { m with nacks := c }) m
def countHit (pa : Nat) (m : Mem) : Mem := countSlice pa (·.hits) (fun c m => { m with hits := c }) m
def countMiss (pa : Nat) (m : Mem) : Mem := countSlice pa (·.misses) (fun c m => { m with misses := c }) m

/-- The controllers' counts of a line read (R56). -/
def countFill (la : Nat) (m : Mem) : Mem :=
  let n := controllerOf m (64 * la)
  let m := { m with mcReads := Maps.set m.mcReads n (Maps.get 0 m.mcReads n + 1) }
  if (viewOf m (64 * la)).isSome then { m with mcDecodes := Maps.set m.mcDecodes n (Maps.get 0 m.mcDecodes n + 1) } else m

/-! Reads of HBM by other units than a group's loads: code fetches, copies, engines, the die sequencer. -/

/-- A line read at its slice: a hit, or a miss that fills it (R56, R203). -/
def readLine (s : State) (la : Nat) : State :=
  if (Maps.find s.mem.llc la).isSome then onMem (countHit (64 * la)) s
  else fillLlc la (fillLine s.mem la) (onMem (fun m => countFill la (countMiss (64 * la) m)) s)

/-- A range of HBM read: the errors in it met, and its lines counted at their slices, those that can be read (R56, R58 to R60). -/
def readLines (pa n : Nat) (s : State) : State :=
  let bad := rangeErr s.mem pa n != 0
  let s := meetRange pa n s
  if bad then s else (linesOf pa n).foldl readLine s

end Sys2Proof.Machine
end

