-- ==== Sys2Proof/Machine/Links.lean ====
section
/-! DEFINITION. Die-to-die modules and fabric ports (R22 to R32): compression, flits with their CRC and acknowledgements,
retraining, and a link taken down. -/

namespace Sys2Proof.Machine

/-! Links by name. -/

def setLink (l : LinkId) (k : Link) (s : State) : State :=
  let ls := s.io.links
  let ls := if ls.any fun e => e.1 == l then ls.map fun e => if e.1 = l then (l, k) else e else ls ++ [(l, k)]
  { s with io := { s.io with links := ls } }

/-- A link's place in the lifetime record: 128 ports, then the 64 modules of the base dies (R61). -/
def lifeLink (l : LinkId) : Option Nat := match l with
  | .port j => some j.toNat
  | .ucie d m => if d.toNat < 8 then some (128 + 8 * d.toNat + m.toNat) else none

/-! Compression (R23, R26). -/

/-- The words of a payload. -/
def payWord (p : List Byte) (i : Nat) : Nat := Maps.leNat ((p.drop (4 * i)).take 4)
def payByte (p : List Byte) (i : Nat) : Byte := (p[i]?).getD 0

/-- Word `i` minus word 0, modulo 2^32, if it lies in −128 to 127. -/
def delta (p : List Byte) (i : Nat) : Option Nat :=
  let d := (payWord p i + 2 ^ 32 - payWord p 0) % 2 ^ 32
  if d < 128 ∨ 2 ^ 32 - 128 ≤ d then some (d % 256) else none

/-- The encoded form of a payload in a mode, if the mode can hold it (R23, R26). -/
def encodeMode (p : List Byte) : Nat → Option (List Byte)
  | 0 => some p
  | 1 =>
    let ws := (List.range 16).filter fun i => payWord p i != 0
    some (Maps.natLe (ws.foldl (fun a i => a + 2 ^ i) 0) 2 ++ ws.flatMap fun i => Maps.natLe (payWord p i) 4)
  | 2 =>
    let ds := (List.range 16).map (delta p)
    if ds.all Option.isSome then some (Maps.natLe (payWord p 0) 4 ++ ds.map fun d => BitVec.ofNat 8 (d.getD 0)) else none
  | _ =>
    let bs := (List.range 64).filter fun i => payByte p i != 0
    some (Maps.natLe (bs.foldl (fun a i => a + 2 ^ i) 0) 8 ++ bs.map (payByte p))

def beatsOf (e : List Byte) : Nat := (e.length + 15) / 16

/-- The mode that needs the fewest beats, the lower on a tie; mode 0 where none needs fewer than 4 (R23). -/
def bestMode (p : List Byte) : Nat :=
  (List.range 4).foldl (fun b m => match encodeMode p m, encodeMode p b with
    | some e, some f => if beatsOf e < beatsOf f then m else b
    | _, _ => b) 0

/-- The payload that an encoded form holds, and its size (R23, R26). -/
def expand (mode : Nat) (e : List Byte) : List Byte × Nat :=
  match mode with
  | 0 => (e.take 64, 64)
  | 1 =>
    let m := Maps.leNat (e.take 2)
    ((List.range 16).flatMap fun i => if bitN m i then (e.drop (2 + 4 * popN i m)).take 4 else [0, 0, 0, 0], 2 + 4 * popN 16 m)
  | 2 =>
    let b := Maps.leNat (e.take 4)
    ((List.range 16).flatMap fun i => Maps.natLe ((b + wrapN 32 (signedN 8 (payByte e (4 + i)).toNat)) % 2 ^ 32) 4, 20)
  | _ =>
    let m := Maps.leNat (e.take 8)
    ((List.range 64).map fun i => if bitN m i then payByte e (8 + popN i m) else 0, 8 + popN 64 m)

/-! CRC-32C (R26, RFC 3720). -/

def crcBits : Nat → Nat → Nat
  | 0, c => c
  | n + 1, c => crcBits n (if c % 2 = 1 then Nat.xor (c / 2) 0x82F63B78 else c / 2)

def crc32c (bs : List Byte) : Nat := Nat.xor 0xFFFFFFFF (bs.foldl (fun c b => crcBits 8 (Nat.xor c b.toNat)) 0xFFFFFFFF)

/-- A header's low word (R26). ACK 0xFFF before any flit has been received, and the first flit's SEQ 0, are a DESIGN CHOICE: the spec gives
neither (log entry 27). -/
def headerLow (k : Link) (beats mode tc seq : Nat) : Nat :=
  seq + tc * 2 ^ 12 + mode * 2 ^ 14 + beats * 2 ^ 16 + (if k.rxAny then k.rxSeq.toNat else 0xFFF) * 2 ^ 20

/-- A payload made a flit with the next sequence number (R23, R26). -/
def makeFlit (k : Link) (tc : BitVec 2) (p : List Byte) : Flit :=
  let raw := k.tcdis.getLsbD tc.toNat
  let mode := if raw then 0 else bestMode p
  let e := (encodeMode p mode).getD p
  let beats := e ++ List.replicate (16 * beatsOf e - e.length) 0
  let low := headerLow k (beatsOf e) mode tc.toNat k.txSeq.toNat
  { seq := k.txSeq, tc := tc, mode := BitVec.ofNat 2 mode
    header := BitVec.ofNat 64 (low + crc32c (Maps.natLe low 4 ++ beats) * 2 ^ 32), beats := beats }

def bump (c : Dword) (n : Nat) : Dword := BitVec.ofNat 64 (min (2 ^ 64 - 1) (c.toNat + n))

/-- The compressor's counters after a flit (R25). -/
def countFlit (f : Flit) (k : Link) : Link :=
  let one (m : Nat) : Nat := if f.mode.toNat = m then 1 else 0
  { k with
    flits := bump k.flits 1, zr := bump k.zr (one 1), bd := bump k.bd (one 2), bm := bump k.bm (one 3)
    beat := bump k.beat (4 - f.beats.length / 16) }

/-- A flit sent and kept until it is acknowledged (R22). It acknowledges what has been received (R26). -/
def sendFlit (tc : BitVec 2) (p : List Byte) (k : Link) : Link :=
  let f := makeFlit k tc p
  countFlit f { k with
    txSeq := k.txSeq + 1, replay := k.replay ++ [f], sent := k.sent ++ [f], window := k.window + 1, ackDue := false }

/-- An acknowledgement flit: a header alone, which takes no sequence number and is not kept (R26). -/
def sendAck (k : Link) : Link :=
  let low := headerLow k 0 0 0 0
  let f : Flit := { seq := 0, tc := 0, mode := 0, header := BitVec.ofNat 64 (low + crc32c (Maps.natLe low 4) * 2 ^ 32), beats := [] }
  { k with sent := k.sent ++ [f], ackDue := false }

/-! Modules (R21, R22, R205). -/

/-- A payload sent by a module; its acknowledgement comes before the next step (log entry 23). -/
def passFlit (tc : BitVec 2) (k : Link) (p : List Byte) : Link :=
  let f := makeFlit k tc p
  countFlit f { k with txSeq := k.txSeq + 1, window := k.window + 1 }

/-- The flits of a message that a module sends. -/
def passModule (l : Option LinkId) (tc : BitVec 2) (s : State) : State :=
  match l with
  | some l => setLink l ((Config.moduleFlits s.draws).foldl (passFlit tc) (linkOf s l)) { s with draws := s.draws + 1 }
  | none => s

/-- A request over its way, in a traffic class; and what comes back to its input (R29, R205). -/
def crossTo (w : Way) (tc : BitVec 2) (s : State) : State :=
  match w.modules s with
  | l :: _ => passModule l tc s
  | [] => s

def crossBack (w : Way) (s : State) : State :=
  match w.modules s with
  | [_, l] => passModule l 1 s
  | _ => s

def crossBoth (w : Way) (tc : BitVec 2) (s : State) : State := crossBack w (crossTo w tc s)

/-- The number of the link for which a range cannot be reached any more (R32). -/
def lostLink (s : State) (inp pa n : Nat) : Option Nat :=
  ((linesOf pa n).find? fun la => (lineWay s.mem inp la).dead s).map fun la => (lineWay s.mem inp la).deadLink s

/-- The accesses to the lines of a range over their ways, and their replies. -/
def crossLines (inp : Nat) (tc : BitVec 2) (pa n : Nat) (s : State) : State :=
  (linesOf pa n).foldl (fun s la => crossBoth (lineWay s.mem inp la) tc s) s

/-- A range of HBM read from an input (R56, R58 to R60, R205). -/
def readVia (inp : Nat) (tc : BitVec 2) (pa n : Nat) (s : State) : State := readLines pa n (crossLines inp tc pa n s)

/-- Bytes written to HBM from an input (R205). -/
def writeVia (inp : Nat) (tc : BitVec 2) (pa : Nat) (bs : List Byte) (s : State) : State :=
  onMem (fun m => storeRange m pa bs) (crossLines inp tc pa bs.length s)

/-! Arbitration (R29). -/

/-- What classes 1 to 3 may send in a turn. -/
def classWeight (tc : BitVec 2) : Nat := match tc.toNat with
  | 1 => 4
  | 2 => 2
  | 3 => 1
  | _ => 0

/-- What is left of a class's turn. -/
def creditOf (k : Link) (tc : BitVec 2) : Nat := Maps.get (classWeight tc) k.credits tc.toNat

def waits (k : Link) (tc : BitVec 2) : Bool := k.queued.any fun e => e.1 == tc

/-- Have the classes that wait used up their turns? -/
def turnOver (k : Link) : Bool := ([1, 2, 3] : List (BitVec 2)).all fun tc => !waits k tc || creditOf k tc == 0

/-- Is it a class's turn on a port: class 0 always, another where class 0 does not wait, and by its weight? -/
def classTurn (k : Link) (tc : BitVec 2) : Bool := tc == 0 || (!waits k 0 && (turnOver k || decide (0 < creditOf k tc)))

/-- A class's turn used. -/
def useTurn (tc : BitVec 2) (k : Link) : Link :=
  if tc = 0 then k
  else
    let k := if turnOver k then { k with credits := [] } else k
    { k with credits := Maps.set k.credits tc.toNat (creditOf k tc - 1) }

/-- May a link's transmitter send a payload of a class now? A port forwards nothing before the package has an identifier (R27), and sends
the payloads that wait on it, each class in order and the classes in their turns (R29); what a die-to-die module carries is not told
apart. An acknowledgement flit has no payload, and goes where no payload waits (R26). A link that is to retrain sends nothing (R31). -/
def maySend (s : State) (l : LinkId) (tc : BitVec 2) (p : List Byte) : Bool :=
  let k := linkOf s l
  k.carries && (if p.isEmpty then tc == 0 && k.ackDue && k.queued.isEmpty
    else p.length == 64 && decide (k.replay.length < 2048) && (match l with
      | .port _ => s.boot.pkg.isSome && classTurn k tc && (match k.queued.find? fun e => e.1 == tc with
        | some e => e.2 == p
        | none => false)
      | .ucie _ _ => true))

/-- The first entry of a class taken from the queue. -/
def takeQueued (tc : BitVec 2) : List (BitVec 2 × List Byte) → List (BitVec 2 × List Byte)
  | [] => []
  | e :: es => if e.1 = tc then es else e :: takeQueued tc es

/-- R23. A link transmitter compresses a flit payload, adds the header and keeps the flit in its replay buffer. -/
def execFlitSend (link : LinkId) (tc : BitVec 2) (payload : List (BitVec 8)) (s : State) : Out :=
  let k := linkOf s link
  if !maySend s link tc payload then .refused .notDue
  else if payload.isEmpty then .next (setLink link (sendAck k) s)
  else .next (setLink link (sendFlit tc payload { useTurn tc k with queued := takeQueued tc k.queued }) s)

/-- The flits that wait on links: the first payload of each class, and acknowledgements. -/
def flitsDue (s : State) : List (LinkId × BitVec 2 × List Byte) :=
  s.io.links.flatMap fun e =>
    (([0, 1, 2, 3] : List (BitVec 2)).filterMap fun tc =>
      match e.2.queued.find? fun q => q.1 == tc with
      | some q => if maySend s e.1 tc q.2 then some (e.1, tc, q.2) else none
      | none => none) ++ (if maySend s e.1 0 [] then [(e.1, 0, [])] else [])

/-- Payloads queued on a port; those for a link that is not there are lost. -/
def queueFlits (l : LinkId) (tc : BitVec 2) (ps : List (List Byte)) (s : State) : State :=
  let k := linkOf s l
  match k.st with
  | .off => s
  | .down => s
  | _ => setLink l { k with queued := k.queued ++ ps.map fun p => (tc, p) } s

/-! Receiving (R22, R26). -/

/-- Is a flit as its header says (R26)? -/
def flitOk (h : Dword) (beats : List Byte) : Bool :=
  let v := h.toNat
  let n := bitsN v 19 16
  beats.length == 16 * n && crc32c (Maps.natLe (v % 2 ^ 32) 4 ++ beats) == bitsN v 63 32 &&
    (if n = 0 then bitsN v 15 14 == 0 else n == ((expand (bitsN v 15 14) beats).2 + 15) / 16)

/-- The replay buffer after an acknowledgement of a sequence number and every earlier one. -/
def ackFlits (seq : Nat) (replay : List Flit) : List Flit :=
  if replay.any fun f => f.seq.toNat == seq then (replay.dropWhile fun f => f.seq.toNat != seq).drop 1 else replay

/-- A retry counted at its place among the flits that the link has seen (R31). -/
def countRetry (k : Link) : Link := { k with retryAt := (k.retryAt ++ [k.window]).drop (k.retryAt.length - 8) }

/-- A flit that has failed: the far end, told of the latest that came in order, is to send it again (R22, R26). -/
def failFlit (k : Link) : Link := countRetry { k with ackDue := true }

/-- The far end has failed to receive a flit: it and every flit sent after it go again, in their order (R22). -/
def resendFrom (seq : BitVec 12) (k : Link) : Link :=
  let fs := k.replay.dropWhile fun f => f.seq != seq
  if !k.carries ∨ fs.isEmpty then k else countRetry { k with sent := k.sent ++ fs, window := k.window + fs.length }

/-- A flit received (R22, R26): out of order it is dropped, since it will come again. -/
def receive (h : Dword) (beats : List Byte) (k : Link) : Link :=
  let v := h.toNat
  let k := { k with window := k.window + 1 }
  if !flitOk h beats then failFlit k
  else
    let k := { k with replay := ackFlits (bitsN v 31 20) k.replay }
    if bitsN v 19 16 = 0 then k
    else
      let want : BitVec 12 := if k.rxAny then k.rxSeq + 1 else 0
      let seq : BitVec 12 := BitVec.ofNat 12 v
      if seq ≠ want then { k with ackDue := true }
      else { k with
        rxSeq := seq, rxAny := true, ackDue := true
        received := k.received ++ [(BitVec.ofNat 2 (bitsN v 13 12), (expand (bitsN v 15 14) beats).1)] }

/-! Retraining (R31, R32). -/

/-- A retraining attempt begins, and is counted (R31, R32). -/
def beginRetrain (l : LinkId) (n : Nat) (s : State) : State :=
  let k := linkOf s l
  let s := setLink l { k with st := .retraining n, retrains := k.retrains + 1, since := s.clock } s
  match lifeLink l with
  | some i => countLife (.retrains i) 1 s
  | none => s

/-- R31. A port or module seeing more than 8 CRC retries within 10^6 flits retrains. -/
def execLinkRetrain (link : LinkId) (s : State) : Out :=
  if retrainDue (linkOf s link) then .next (beginRetrain link 0 s) else .refused .notDue

/-- R31. At the end of retraining the replay buffer is sent first, then the held flits. -/
def execRetrainComplete (link : LinkId) (s : State) : Out :=
  let k := linkOf s link
  match k.st with
  | .retraining n => if n < 4 then .next (setLink link { k with st := .up, retryAt := [], sent := k.sent ++ k.replay } s) else .refused .notDue
  | _ => .refused .notDue

/-- R32. A retraining attempt fails, and retraining starts again unless it was the fourth. -/
def execRetrainingAttemptFailure (link : LinkId) (s : State) : Out :=
  match (linkOf s link).st with
  | .retraining n =>
    if n < 3 then .next (beginRetrain link (n + 1) s)
    else if n = 3 then .next (setLink link { linkOf s link with st := .retraining 4 } s)
    else .refused .notDue
  | _ => .refused .notDue

/-- Has a retraining attempt had the 100 µs in which it ends (R31)? -/
def retrainLate (s : State) : Bool := s.io.links.any fun e => match e.2.st with
  | .retraining n => decide (n < 4) && decide (e.2.since + 175000 ≤ s.clock)
  | _ => false

/-! What travels between packages (R28). -/

/-- The port by which a class's traffic to a package goes (R17, R28). -/
def routeOf (s : State) (q tc : Nat) : Option (BitVec 7) :=
  let e := (Maps.get 0 s.io.rtab (4 * q + tc)).toNat
  if bitN e 7 then some (BitVec.ofNat 7 e) else none

/-- A message to another package queued in its class on its way; one without a way is lost. -/
def queueMsg (q tc : Nat) (m : FabricMsg) (s : State) : State :=
  match routeOf s q tc with
  | some j => queueFlits (.port j) (BitVec.ofNat 2 tc) (Config.fabricFlits m) s
  | none => s

/-! Registers (R25). -/

/-- A write of LCCTL. -/
def writeLcctl (l : LinkId) (w : Word) (s : State) : State :=
  let k := { linkOf s l with tcdis := BitVec.ofNat 4 (bitsN w.toNat 7 4) }
  setLink l (if w.getLsbD 3 then { k with flits := 0, zr := 0, bd := 0, bm := 0, beat := 0 } else k) s

/-- R25. Writing 1 to LCCTL.CNTCLR clears every counter of that compressor. -/
def execLcctlCntclr (link : LinkId) (w : BitVec 32) (s : State) : Out :=
  if w.getLsbD 3 then .next (writeLcctl link w s) else .refused .notDue

/-- R25. A write of LCCTL.TCDIS forces raw mode for the chosen traffic classes. -/
def execLcctlTcdis (link : LinkId) (w : BitVec 32) (s : State) : Out := .next (writeLcctl link w s)

end Sys2Proof.Machine
end

