-- ==== Sys2Proof/Machine/Teams.lean ====
section
/-! DEFINITION. The team location table (R96), and the end of groups and teams: exit (R383), retirement of resources and
kills (R302). -/

namespace Sys2Proof.Machine

/-! The team location table in memory (R96). -/

def tltAddr (s : State) (c h : Nat) : Nat := ctxTlt s c + 16 * h
def tltEntry (s : State) (c h : Nat) : Nat := natAt s.mem (tltAddr s c h) 16
def tltState (s : State) (c h : Nat) : Nat := bitsN (tltEntry s c h) 63 62
def tltMove (s : State) (c h : Nat) : Bool := bitN (tltEntry s c h) 61
def tltGen (s : State) (c h : Nat) : Nat := bitsN (tltEntry s c h) 19 8
def tltCore (s : State) (c h : Nat) : Nat := bitsN (tltEntry s c h) 7 0
def tltTsa (s : State) (c h : Nat) : Nat := bitsN (tltEntry s c h) 127 64

/-- An entry written whole. -/
def setTlt (c h tsa st : Nat) (move : Bool) (gen core : Nat) (s : State) : State :=
  onMem (fun m => putNat m (tltAddr s c h) 16
    (core + gen * 2 ^ 8 + (if move then 2 ^ 61 else 0) + st * 2 ^ 62 + tsa * 2 ^ 64)) s

/-- The MOVE bit of an entry. -/
def setMove (c h : Nat) (move : Bool) (s : State) : State :=
  setTlt c h (tltTsa s c h) (tltState s c h) move (tltGen s c h) (tltCore s c h) s

/-- An entry freed: GEN advances, and at 0xFFF the handle is dead in the context (R96). The handle returns to its die
pair's free list. -/
def freeHandle (c h : Nat) (s : State) : State :=
  let g := tltGen s c h
  let s := if g + 1 < 0xFFF then setTlt c h 0 0 false (g + 1) 0 s else setTlt c h 0 3 false 0xFFF 0 s
  onDie (h / 2 ^ 17) (fun d => { d with handles := d.handles.filter (· != h) }) s

/-! The wait table's memberships (R194, R302). -/

/-- The groups that stand under an entry of a die's wait table. -/
def under (s : State) (d e : Nat) : List Nat :=
  Maps.keys s.groups fun k g => g.parked == some e && dieOfCore (teamAt s (handleOf k)).core == d

/-- The wait table of a die without the entries that no group stands under. -/
def sweepWaits (d : Nat) (s : State) : State :=
  onDie d (fun x => { x with waits := x.waits.filter fun e => !(under s d e.1).isEmpty }) s

/-! The end of a team. -/

/-- The requests of the groups that `p` picks, when those groups go: loads return nothing (R302, R383), and each store
or atomic stands, its acknowledgement awaited by its launch alone (R91). With `kill` each is performed or not (R302),
which is a free choice for each. -/
def dropRequests (kill : Bool) (p : Nat → Bool) (s : State) : State :=
  let n := s.draws
  let mine (r : Req) : Bool := p r.group && r.live
  let orphan (r : Req) : Req := { r with live := false, op := match r.op with
    | .atom o _ d => .atom o false d
    | o => o }
  let writes (o : ReqOp) : Bool := match o with
    | .store => true
    | .atom _ _ _ => true
    | .resbit _ _ => true
    | _ => false
  let keep (i : Nat) (r : Req) : Bool := !mine r || (writes r.op && (!kill || r.st == .done || Config.freeNat (n + i) % 2 == 0))
  let s := if kill && s.mem.net.any (fun e => mine e.2) then { s with draws := n + s.mem.nextId } else s
  onMem (fun m => { m with net := (m.net.filter fun e => keep e.1 e.2).map fun e => if mine e.2 then (e.1, orphan e.2) else e }) s

/-- The issuer of an eviction, once its own team has gone. -/
def noIssuer : Nat := 2 ^ 40

/-- The `evict` that a team's end leaves without its team returns 2 (R399), and evictions that the team has asked for go on
without it. -/
def endMoves (h : Nat) (s : State) : State :=
  let s := match (teamAt s h).evicting with
    | some (_, k) => onGroup k (fun g => match g.waiting with
        | some (.evict d) => { g.setS d 2 with waiting := none }
        | _ => g) s
    | none => s
  { s with teams := Maps.mapAll s.teams fun _ t => match t.evicting with
      | some (tsa, k) => if handleOf k = h then { t with evicting := some (tsa, noIssuer) } else t
      | none => t }

/-- The copies of a team that goes: dropped where it is killed, else still to be completed, from its scratchpad as it stands (R302, R383). -/
def leaveCopies (kill : Bool) (h : Nat) (t : Team) (cs : AMap LaneCopy) : AMap LaneCopy :=
  let mine (c : LaneCopy) : Bool := handleOf c.group == h && c.left.isNone
  if kill then cs.filter fun e => !mine e.2 else Maps.mapAll cs fun _ c => if mine c then { c with left := some t } else c

/-- A team's resources freed on its core: groups, scratchpad, registers, copies, replies and sends (R302, R308). -/
def dropTeam (kill : Bool) (h : Nat) (s : State) : State :=
  let t := teamAt s h
  let s := dropRequests kill (fun k => handleOf k == h) (endMoves h s)
  let s := { s with dies := Maps.mapAll s.dies fun _ d => { d with posts := d.posts.filter fun p =>
    !(p.held && (match p.group with
      | some k => handleOf k == h
      | none => false)) } }
  sweepWaits (dieOfCore t.core) { s with
    groups := s.groups.filter fun e => handleOf e.1 != h
    teams := Maps.del s.teams h
    copies := leaveCopies kill h t s.copies
    xfms := s.xfms.filter fun e => handleOf e.2.group != h
    samples := s.samples.filter fun e => handleOf e.2.group != h
    display := { s.display with notices := s.display.notices.filter fun n => n.1 != h }
    sends := Maps.mapAll s.sends fun _ x => if handleOf x.group = h then { x with live := false } else x }

/-- A launch with one live team less; the core of the last exit is kept (R88, R91, R302). -/
def launchLoses (die slot core : Nat) (s : State) : State :=
  onDie die (fun d => { d with cards := Maps.modify d.cards slot fun c => { c with live := c.live - 1, lastExit := some core } }) s

/-! The meshlets of a draw on their way to the binner (R106, R107). -/

/-- A primitive as `memit.p` gives it, with its vertices (R106, R465). -/
def primOf (slot draw ordinal : Nat) (views : List Nat) (m : Meshlet) (a : Word) : Prim :=
  let n := a.toNat
  let vert (v : Nat) : List Word := (List.range 19).map fun i => Maps.get 0 m.verts (v * 19 + i)
  { slot := slot, draw := draw, ordinal := ordinal, rate := bitsN n 30 27, views := views
    verts := [vert (bitsN n 8 0), vert (bitsN n 17 9), vert (bitsN n 26 18)] }

/-- A meshlet's primitives passed to the binner in draw order; those beyond the last ordinal are dropped (R107, R124). -/
def passMeshlet (slot : Nat) (m : Meshlet) (d : Die) : Die :=
  let c := Maps.get { bits := 0, addr := 0, ctx := 0, posted := 0, st := .bad } d.cards slot
  let draw := bitsN (Maps.leNat c.drec) 435 420
  let fits := m.prims.take (2 ^ 32 - c.ordinal)
  let ps := (fits.zip (List.range fits.length)).map fun e => primOf slot draw (c.ordinal + e.2) (setBits 16 (bitsN (Maps.leNat c.drec) 403 388)) m e.1.2
  { d with
    prims := d.prims ++ ps
    cards := Maps.modify d.cards slot fun c => { c with
      ordinal := c.ordinal + fits.length, passed := c.passed + 1
      pDrop := min 0xFFFFFFFF (c.pDrop + (m.prims.length - fits.length)) } }

/-- The finished meshlets of a draw passed on as long as the next in draw order is there (R107). -/
def passMeshlets (slot : Nat) : Nat → Die → Die
  | 0, d => d
  | n + 1, d =>
    match Maps.find d.cards slot with
    | none => d
    | some c =>
      match d.meshOuts.find? fun o => o.slot == slot && o.order == c.passed with
      | none => d
      | some o => passMeshlets slot n (passMeshlet slot o.out { d with
          meshOuts := d.meshOuts.filter fun e => !(e.slot == slot && e.order == o.order) })

/-- The end of a mesh group: its meshlet is complete, or lost with it (R102, R106, R302). -/
def meshEnds (lost : Bool) (t : Team) (s : State) : State :=
  match t.kind with
  | .mesh order => onDie t.die (fun d =>
      let d := { d with
        cards := Maps.modify d.cards t.slot fun c => { c with meshLive := c.meshLive - 1 }
        meshOuts := d.meshOuts ++ [{ slot := t.slot, order := order, out := if lost then {} else t.meshlet }] }
      passMeshlets t.slot d.meshOuts.length d) s
  | _ => s

/-- The cores on which a region or a descendant holds a team (R64, R65). -/
def regionCores (s : State) (c r : Nat) : List Nat :=
  ((s.teams.filter fun e => e.2.ctx == c && ((regionChain s c e.2.region).getD []).contains r).map fun e => e.2.core).eraseDups

/-- CUSED brought up to date in every control block of a region's chain (R64). -/
def putCused (c h : Nat) (s : State) : State :=
  ((regionChain s c h).getD []).foldl (fun s r => match rcbPa s c r with
    | some pa => onMem (fun m => putNat m (pa + 192) 2 (regionCores s c r).length) s
    | none => s) s

/-- A team killed (R302): no handler runs, its resources, handle and memberships are freed, its launch goes on, and a
launch of a killed or faulted context loses its unissued indices. -/
def killTeam (h : Nat) (s : State) : State :=
  match Maps.find s.teams h with
  | none => s
  | some t =>
    let s := meshEnds true t (launchLoses t.die t.slot t.core s)
    let s := onDie t.die (fun d => { d with cards := Maps.modify d.cards t.slot fun c => { c with killed := true } }) s
    freeHandle t.ctx h (putCused t.ctx t.region (dropTeam true h s))

/-- A team whose last group has exited (R383): its core's resources and its handle are freed, and it leaves its launch. -/
def exitTeam (h : Nat) (s : State) : State :=
  match Maps.find s.teams h with
  | none => s
  | some t =>
    let s := launchLoses t.die t.slot t.core (meshEnds false t s)
    freeHandle t.ctx h (putCused t.ctx t.region (dropTeam false h s))

/-- The record of a group's fault (R298). -/
def groupRecord (s : State) (k : Nat) (cause : Nat) (reason : Reason) (mask : Word) (pc addr : Dword) (info : Nat) : FaultRec :=
  let t := teamAt s (handleOf k)
  { cause := BitVec.ofNat 8 cause, reason := reason, ctx := t.ctx, region := t.region, die := dieOfCore t.core, core := t.core % 24,
    team := BitVec.ofNat 32 (2 ^ 31 + indexOf k * 2 ^ 20 + handleOf k), mask := mask, pc := pc, addr := addr,
    info := BitVec.ofNat 32 info }

/-- The team's groups that have not exited: the expected set of its barrier (R387). -/
def liveGroups (s : State) (h : Nat) : List Nat := Maps.keys s.groups fun k g => handleOf k == h && !g.exited

/-- A barrier phase is complete when every expected group has arrived (R387). -/
def barrierFull (s : State) (h : Nat) : Bool :=
  let t := teamAt s h
  (liveGroups s h).all fun k => t.barIn.getLsbD (indexOf k)

/-- A ring without the slots that a group has taken; FREE advances over the freed slots without a gap (R289). -/
def Ring.leave (r : Ring) (k : Nat) : Ring :=
  let taken := r.taken.filter fun e => e.2 != k
  { r with taken := taken, free := taken.foldl (fun f e => min f e.1) r.next }

/-- A complete phase without renegotiation: the next begins empty, the waiting groups go on, those that asked for an
allotment with status 3 (R387, R389). -/
def completePhase (h : Nat) (s : State) : State :=
  let t := teamAt s h
  let s := onTeam h (fun t => { t with barPhase := t.barPhase + 1, barIn := 0, reallocs := [] }) s
  { s with groups := Maps.mapAll s.groups fun k g =>
      if handleOf k = h then
        match g.waiting with
        | some (.barrier ph _) => if ph = t.barPhase then { g with waiting := none } else g
        | some (.realloc d) => { g.setS d 3 with waiting := none }
        | _ => g
      else g }

/-- Is every arrival of a team's phase, of exited groups too, a `bar.realloc` (R389)? -/
def allAsk (t : Team) : Bool := (lanesOf t.barIn).all fun i => (Maps.find t.reallocs i).isSome

/-- The barrier of a team looked at after an arrival or an exit: a full phase completes, but one whose every arrival is
a `bar.realloc` waits for the core's decision (R162, R387, R389), and none completes in a move (R390). -/
def settleBarrier (h : Nat) (s : State) : State :=
  let t := teamAt s h
  let live := liveGroups s h
  if t.barIn = 0 ∨ live.isEmpty ∨ !barrierFull s h ∨ tltMove s t.ctx h then s
  else if allAsk t then s
  else completePhase h s

/-- A group that exits (R383): it leaves its scheduler slot, its loads are discarded, its barrier and team go on. -/
def exitGroup (k : Nat) (s : State) : State :=
  let h := handleOf k
  let s := onGroup k (fun g => { g with exited := true, waiting := none, sleepTo := none, haltSeen := none, pending := [], deliver := none, late := none }) s
  let s := dropRequests false (· == k) s
  let s := { s with samples := s.samples.filter fun e => e.2.group != k }
  let s := onTeam h (fun t => { t with rings := Maps.mapAll t.rings fun _ r => r.leave k }) s
  if (liveGroups s h).isEmpty then exitTeam h s else settleBarrier h s

end Sys2Proof.Machine
end

