-- ==== Sys2Proof/Machine/Ops.lean ====
section
/-! DEFINITION. The operations that meanings share: requests and stores of a group, the reconvergence stack (R168 to
R171), taking a trap (R290 to R295) and returning from one (R296), parking and waking (R194, R195), team halt (R172 to
R175). -/

namespace Sys2Proof.Machine

/-! Causes as sem functions raise them. -/

def raise (c : Cause) (m : Word) : Raise := { cause := c, mask := m }

/-- A cause with the mask ACTIVE where a condition fails. -/
def unless_ (ok : Bool) (c : Cause) (g : Group) : List Raise := if ok then [] else [raise c g.active]

/-- ILLEGAL with mask ACTIVE unless a check holds (R322). -/
def legal (ok : Bool) (g : Group) : List Raise := unless_ ok .illegal g

/-- ACCESS in-lane with a reason (R196). -/
def access (r : Reason) (m : Word) (addr : Dword) (info : Nat := 0) : Raise :=
  { cause := .access, mask := m, reason := r, addr := addr, info := BitVec.ofNat 32 info }

/-- What a faulting access of one group or lane raises: an in-lane cause or a request to park. -/
def faultOf (tg : Target) (m : Word) (addr : Dword) (acc : Acc) (user : Bool) : Option (Raise ⊕ ParkReq) :=
  match tg with
  | .inlane r i => some (.inl (access r m addr i))
  | .nophys pa => some (.inl (access .nophys m (BitVec.ofNat 64 pa)))
  | .touch => some (.inl { cause := .firsttouch, mask := m, addr := addr })
  | .park r byPage i => some (.inr { reason := r, mask := m, addr := addr, acc := acc, byPage := byPage, user := user, info := BitVec.ofNat 32 i })
  | _ => none

def raisesOf (fs : List (Raise ⊕ ParkReq)) : List Raise := fs.filterMap fun f => match f with
  | .inl r => some r
  | .inr _ => none

def parksOf (fs : List (Raise ⊕ ParkReq)) : List ParkReq := fs.filterMap fun f => match f with
  | .inl _ => none
  | .inr p => some p

/-! The reconvergence stack. -/

/-- The capacity in entries (R170). -/
def stackCap (g : Group) : Nat := 2 ^ (min 11 (g.rsbase.toNat % 16) + 4)

/-- The home of the entry at depth `d` (R169). -/
def stackHome (g : Group) (d : Nat) : Dword := BitVec.ofNat 64 (g.rsbase.toNat / 1024 * 1024 + 32 * d)

/-- An entry as its 32 bytes hold it (R168). -/
def entryNum (e : StackEntry) : Nat :=
  let kind := match e.kind with
    | .div => 1
    | .call => 2
    | .trap => 3
    | .bad => 0
  kind + e.mode.toNat * 2 ^ 56 + e.skid.toNat * 2 ^ 70 + e.cause.toNat * 2 ^ 72 + vaLow e.rpc * 2 ^ 80 +
    vaLow e.ppc * 2 ^ 136 + e.mask.toNat * 2 ^ 192 + e.pmask.toNat * 2 ^ 224

/-- An entry read back from its 32 bytes (R168). Only bits [55:0] of its addresses are kept there: a TRAP entry's address
takes the tag of the mode it returns to, any other the tag of the address the group runs at (log entry 7). -/
def entryOf (n : Nat) (pc : Dword) : StackEntry :=
  let mode := bitsN n 63 56
  let kind : EntryKind :=
    if bitsN n 55 4 ≠ 0 ∨ bitsN n 69 64 ≠ 0 then .bad
    else if bitsN n 3 0 = 1 then .div else if bitsN n 3 0 = 2 then .call else if bitsN n 3 0 = 3 then .trap else .bad
  let tag := if kind = .trap then (if bitN mode 0 then 0xFF else 0) else vaTag pc
  let full (v : Nat) : Dword := if v = 0 then 0 else BitVec.ofNat 64 (v + tag * 2 ^ 56)
  { kind := kind, mask := BitVec.ofNat 32 (bitsN n 223 192), pmask := BitVec.ofNat 32 (bitsN n 255 224),
    ppc := full (bitsN n 191 136), rpc := full (bitsN n 135 80), cause := BitVec.ofNat 8 (bitsN n 79 72),
    skid := BitVec.ofNat 2 (bitsN n 71 70), mode := BitVec.ofNat 8 mode }

/-- The line of a core's L1 by which a stack entry is read (R201, R219). -/
def stackLine (s : State) (core pa : Nat) : Option Line :=
  if writesOut s core (pa / 64) then none else Maps.find (coreAt s core).l1 (pa / 64)

/-- The fault of an access to a stack home, which takes memory or the team's scratchpad (R169). -/
def homeFault (s : State) (k : Nat) (va : Dword) (acc : Acc) : Option (Raise ⊕ ParkReq) :=
  let g := groupOf s k
  let t := teamAt s (handleOf k)
  match resolve s t (!g.sup) va 32 acc with
  | .phys pa _ =>
    if !isHbm pa then faultOf (.nophys pa) g.active va acc (!g.sup)
    else if acc == .load && (stackLine s t.core pa).isSome then none
    else if let some n := lostLink s t.core pa 32 then faultOf (.inlane .linkdown n) g.active va acc (!g.sup)
    else if acc == .load && rangeErr s.mem pa 32 != 0 then faultOf (.inlane .ecc (rangeErr s.mem pa 32)) g.active va acc (!g.sup)
    else if acc == .load && poisoned s.mem pa 32 then faultOf (.inlane .poison 0) g.active va acc (!g.sup)
    else none
  | .scratch _ => none
  | .remote _ _ => faultOf (.inlane .noteam 0) g.active va acc (!g.sup)
  | tg => faultOf tg g.active va acc (!g.sup)

/-- Does a push spill the lowest held entry (R169)? The spare position above the capacity never does (R171). -/
def spills (g : Group) : Bool := 16 ≤ g.held.length && g.depth < stackCap g

/-- What a push of a DIV or CALL entry raises: RSTACK at full capacity, or the fault of its spill (R169, R171). -/
def pushFaults (s : State) (g : Group) : List (Raise ⊕ ParkReq) :=
  if stackCap g ≤ g.depth then [.inl (raise .rstack g.active)]
  else if spills g then (homeFault s s.cur (stackHome g (g.depth - g.held.length)) .store).toList
  else []

/-- What a core's own store makes of a line of its L1 (R201): one that hits is updated, never allocated. -/
def touchL1 (core : Nat) (s : State) (la : Nat) : State :=
  if (Maps.find (coreAt s core).l1 la).isSome then keepLine core la (some (lineOf (bytesAt s.mem (64 * la) 64))) s
  else keepLine core la none s

/-- A store of a group to memory or scratchpad, its own L1 line kept in step (R201). -/
def storeNow (k : Nat) (va : Dword) (bs : List Byte) (s : State) : State :=
  let g := groupOf s k
  let t := teamAt s (handleOf k)
  match resolve s t (!g.sup) va bs.length .store with
  | .phys pa tr =>
    let s := keepTr t.core tr (writeVia t.core 2 pa bs s)
    (linesOf pa bs.length).foldl (touchL1 t.core) s
  | .scratch off => onTeam (handleOf k) (fun t => { t with scratch := Maps.writeBytes t.scratch off bs }) s
  | _ => s

/-- The number in `n` bytes of a line. -/
def lineNat (l : Line) (o n : Nat) : Nat := l.toNat / 2 ^ (8 * o) % 2 ^ (8 * n)

/-- A read of a group from memory, by its core's L1 where that holds the line, or from scratchpad. -/
def readNow (s : State) (k : Nat) (va : Dword) (n : Nat) : Nat :=
  let g := groupOf s k
  let t := teamAt s (handleOf k)
  match resolve s t (!g.sup) va n .load with
  | .phys pa none => match stackLine s t.core pa with
    | some l => lineNat l (pa % 64) n
    | none => natAt s.mem pa n
  | .phys pa (some _) => natAt s.mem pa n
  | .scratch off => scrRead t off n
  | _ => 0

/-- What a read of a stack entry leaves at its core: the translation, and the line read at its home point (R201, R223). -/
def keepRead (k : Nat) (va : Dword) (s : State) : State :=
  let g := groupOf s k
  let t := teamAt s (handleOf k)
  match resolve s t (!g.sup) va 32 .load with
  | .phys pa tr =>
    let s := keepTr t.core tr s
    if (stackLine s t.core pa).isSome then s
    else keepLine t.core (pa / 64) (some (lineOf (bytesAt s.mem (64 * (pa / 64)) 64))) (readVia t.core 2 pa 32 s)
  | _ => s

/-- An entry pushed, the lowest held one spilt to its home where 16 are held (R169). -/
def push (k : Nat) (e : StackEntry) (s : State) : State :=
  let g := groupOf s k
  let s := match spills g, g.held.getLast? with
    | true, some low => storeNow k (stackHome g (g.depth - g.held.length)) (Maps.natLe (entryNum low) 32) s
    | _, _ => s
  onGroup k (fun g => { g with
    held := e :: (if spills g then g.held.dropLast else g.held), depth := g.depth + 1
    paths := if e.kind = .div then Maps.set g.paths g.depth (s.mem.nextId, none) else g.paths }) s

/-- The entry that a pop makes the lowest held one, read from its home, if one lies there (R169). -/
def refill (s : State) (k : Nat) (held : List StackEntry) (depth : Nat) : List StackEntry :=
  let g := groupOf s k
  if held.length < depth ∧ held.length < 16 then
    held ++ [entryOf (readNow s k (stackHome g (depth - held.length - 1)) 32) g.pc]
  else held

/-- The fault of the fill that a pop makes (R169). -/
def popFaults (s : State) (g : Group) : List (Raise ⊕ ParkReq) :=
  let n := g.held.length - 1
  if n < g.depth - 1 ∧ n < 16 then (homeFault s s.cur (stackHome g (g.depth - 1 - n - 1)) .load).toList else []

/-- The stack without its top entry. -/
def pop (k : Nat) (s : State) : State :=
  let g := groupOf s k
  let n := g.held.length - 1
  let s := if n < g.depth - 1 ∧ n < 16 then keepRead k (stackHome g (g.depth - 1 - n - 1)) s else s
  let held := refill s k g.held.tail (g.depth - 1)
  onGroup k (fun g => { g with held := held, depth := g.depth - 1, paths := Maps.del g.paths (g.depth - 1) }) s

/-- The top entry replaced. -/
def setTop (k : Nat) (e : StackEntry) (s : State) : State := onGroup k (fun g => { g with held := e :: g.held.tail }) s

/-- A group goes over to the other path of the divergent branch on top of its stack (R220). -/
def switchPath (depth id : Nat) (g : Group) : Group := { g with paths := Maps.modify g.paths (depth - 1) fun p => (p.1, some id) }

/-! Halt and parking (R172, R173, R194). -/

/-- The halt signal to the siblings of a group that parks (R172, R173). `haltSeen` counts the packets of SKID: one for a
packet in progress or issued in this clock. A sleeping sibling wakes with SKID 0, which is the low bits of 4, and issues nothing (R386). -/
def signalHalt (k : Nat) (s : State) : State :=
  { s with groups := Maps.mapAll s.groups fun j g =>
      if handleOf j = handleOf k ∧ j ≠ k ∧ !g.exited ∧ g.parked.isNone ∧ !g.halted ∧ g.haltSeen.isNone then
        if g.sleepTo.isSome then { g with haltSeen := some 4, sleepTo := none }
        else { g with haltSeen := some (if (g.lastIssue == s.clock && !g.idle) || !isPacketStart g.pc then 1 else 0) }
      else g }

/-- The page of an address and the address space it belongs to (R194). -/
def pageKey (s : State) (t : Team) (va : Dword) : Nat × Nat :=
  (ctxAsid s (if vaTag va = 0xFF then 0 else t.ctx), vaLow va / 65536)

/-- A group parks (R194): under an entry of its page if one exists, else under a free entry with a fault record, else
under the overflow entry; its team halts (R172). -/
def park (k : Nat) (p : ParkReq) (s : State) : State :=
  let t := teamAt s (handleOf k)
  let g := groupOf s k
  let d := dieOfCore t.core
  let w := (dieAt s d).waits
  let (asid, page) := pageKey s t p.addr
  let joined := if p.byPage then (w.find? fun e => e.2.byPage && e.2.asid == asid && e.2.page == page && e.1 != 1023).map (·.1) else none
  let free := (List.range 1023).find? fun e => (Maps.find w e).isNone
  let idx := joined.getD (free.getD 1023)
  let ent : WaitEntry := { byPage := p.byPage && idx != 1023, asid := asid, page := page, acc := p.acc, user := p.user,
                           ctx := if vaTag p.addr = 0xFF then 0 else t.ctx, rewalk := p.byPage && idx != 1023 }
  let r := groupRecord s k 0 p.reason p.mask g.pc p.addr p.info.toNat
  let r := { r with token := BitVec.ofNat 32 (idx + d * 2 ^ 10 + 2 ^ 31) }
  let s := if joined.isSome then s
    else record d r (onDie d (fun x => { x with waits := Maps.set x.waits idx ent, overflow := x.overflow + (if idx = 1023 then 1 else 0) }) s)
  let s := onGroup k (fun g => { g with parked := some idx, parkReq := some p, haltSeen := none, sleepTo := none }) s
  let first := t.parkedCnt = 0
  let s := onTeam (handleOf k) (fun t => { t with parkedCnt := t.parkedCnt + 1, halting := true }) s
  if first then signalHalt k s else s

/-- The cached translations of faulting addresses dropped: the fresh walk that decided has replaced them (R197). -/
def dropTrs (k : Nat) (addrs : List (Nat × Dword)) (s : State) : State :=
  let t := teamAt s (handleOf k)
  let hit (e : TlbEntry) (a : Nat × Dword) : Bool := tlbHit e (ctxAsid s (if vaTag a.2 = 0xFF then 0 else t.ctx)) (vaLow a.2)
  if addrs.isEmpty then s else onCore t.core (fun c => { c with tlb := c.tlb.filter fun e => !addrs.any (hit e) }) s

/-- The lanes' addresses kept in the fault-address buffer (R297), and what the TLB held for them dropped. -/
def keepAddrs (k : Nat) (m : Word) (addrs : List (Nat × Dword)) (s : State) : State :=
  onGroup k (fun g => { g with faddr := addrs.foldl (fun f a => if m.getLsbD a.1 then Maps.put 0 f a.1 a.2 else f) g.faddr })
    (dropTrs k (addrs.filter fun a => m.getLsbD a.1) s)

/-- A group's park with its lanes' addresses kept (R191, R297). -/
def parkWith (k : Nat) (p : ParkReq) (addrs : List (Nat × Dword)) (s : State) : State := park k p (keepAddrs k p.mask addrs s)

/-! Taking a trap and returning from one. -/

/-- A stack overflow: the team is killed and an RSTACK record is written (R171). -/
def overflowKill (k : Nat) (rp : Dword) (s : State) : State :=
  let r := groupRecord s k 0x0E .rstack (groupOf s k).active rp 0 0
  killTeam (handleOf k) (record r.die r s)

/-- The fault of the spill that the push of a TRAP entry makes (R169). -/
def spillFault (s : State) (k : Nat) : Option (Raise ⊕ ParkReq) :=
  let g := groupOf s k
  if spills g then homeFault s k (stackHome g (g.depth - g.held.length)) .store else none

/-- Does a fault of the spill hold the push of a TRAP entry back (R169)? -/
def spillHeld (s : State) (k : Nat) : Bool :=
  decide ((groupOf s k).depth ≤ stackCap (groupOf s k)) && (spillFault s k).isSome

/-- The push of a TRAP entry where it can be made (R169, R171, R295). Where its spill faults the group stands at the resume point, parked or
not ready in this clock, and re-executes there: the trap comes again, and so does a fault of the spill in the lanes, whose own trap would
need that spill, until its cause has gone (log entry 14). -/
def pushTrap (k : Nat) (rp : Dword) (s : State) (go : State → State) : State :=
  if stackCap (groupOf s k) < (groupOf s k).depth then overflowKill k rp s
  else match spillFault s k with
    | some (.inl _) => onGroup k (fun g => { g with pc := rp, stalled := true }) s
    | some (.inr p) => parkWith k p ((lanesOf p.mask).map fun l => (l, p.addr)) (onGroup k (fun g => { g with pc := rp }) s)
    | none => go s

/-- A sibling stops (R173): a SIBHALT entry saves mask, pc and mode; nothing is vectored. One whose spill faults parks, and counts as
parked (R169, R174). -/
def stopSibling (k : Nat) (skid : Nat) (s : State) : State :=
  let g := groupOf s k
  pushTrap k g.pc s fun s =>
    let e : StackEntry := { kind := .trap, mask := g.active, rpc := g.pc, cause := 0x0D, skid := BitVec.ofNat 2 skid, mode := BitVec.ofNat 8 g.mode.toNat }
    onGroup k (fun g => { g with halted := true, haltSeen := none, sleepTo := none }) (push k e s)

/-- TAKING A TRAP (R295): a TRAP entry saves the active mask, the resume point and the mode; the mode turns to supervisor
with the cause; the handler mask becomes active and the pc is the cause's block of the handler table. At full capacity
the entry takes the spare position; when that is in use the team is killed (R171). A spill that faults keeps the group at
the resume point (R169). A sibling that has seen the halt signal stops before the handler's first packet (R174). -/
def takeTrap (k : Nat) (c : Cause) (rp : Dword) (m : Word) (s : State) : State :=
  let g := groupOf s k
  pushTrap k rp s fun s =>
    let e : StackEntry := { kind := .trap, mask := g.active, rpc := rp, cause := BitVec.ofNat 8 c.code, mode := BitVec.ofNat 8 g.mode.toNat }
    let s := onGroup k (fun g => { g with
      mode := BitVec.ofNat 32 (c.code * 2 ^ 8 + 1)
      active := m
      pc := BitVec.ofNat 64 (g.trapbase.toNat / 2 ^ 14 * 2 ^ 14 + 64 * c.code)
      block := none }) (push k e s)
    match g.haltSeen with
    | some skid => stopSibling k skid s
    | none => s

/-- The chain that follows the one at an address: the next of its packet, or the first of the next packet (R291). `ws`
are the packet's words, `j` the chain's first. -/
def chainEnd (ws : List Word) (j : Nat) : Nat → Nat
  | 0 => j + 1
  | n + 1 => match ws[j]? with
    | some w => if w.getLsbD 31 then chainEnd ws (j + 1) n else j + 1
    | none => j + 1

/-- The address after chain words [j, e) of a packet. -/
def afterChain (packet : Dword) (e : Nat) : Dword :=
  if e < 3 then packet + BitVec.ofNat 64 (4 * e) else packetAddr (packetNo packet + 1)

/-- RETURNING FROM A TRAP (R296): the top TRAP entry is popped, mode and mask are restored, and the group goes on at
`resume`: the resume point, or with ADV set the chain after it, whereupon a gather's pending lanes are forgotten (R299). -/
def returnTrap (k : Nat) (e : StackEntry) (adv : Bool) (resume : Dword) (s : State) : State :=
  onGroup k (fun g => { g with
    mode := (g.mode &&& 0xFFFFFF00#32) ||| e.mode.setWidth 32
    active := e.mask, pc := resume, plm := if adv then 0 else g.plm, plmAt := if adv then none else g.plmAt, block := none }) (pop k s)

/-- The causes whose trap leaves a fault record (R290). -/
def Cause.records : Cause → Bool
  | .access => true
  | .exec => true
  | .depunder => false
  | .copyfault => false
  | .floor => true
  | _ => false

/-- The causes that concern an address, which the fault-address buffer keeps by lane (R297). -/
def Cause.hasAddr : Cause → Bool
  | .align => true
  | .firsttouch => true
  | .access => true
  | .exec => true
  | .floor => true
  | _ => false

/-- The cause that is taken of several (R292): the lowest code, with the lanes that raise it; its record's fields are
those of its lowest lane. -/
def lowest (rs : List Raise) : Option Raise :=
  match rs with
  | [] => none
  | r :: rest => some (rest.foldl (fun (a : Raise) (b : Raise) =>
      if b.cause.code < a.cause.code then b
      else if b.cause.code = a.cause.code then
        if lowLane b.mask < lowLane a.mask ∧ b.mask ≠ 0 then { b with mask := a.mask ||| b.mask } else { a with mask := a.mask ||| b.mask }
      else a) r)

/-- A cause taken: its lanes' addresses kept, its record written, the trap entered (R290, R295, R297). -/
def deliver (k : Nat) (r : Raise) (rp : Dword) (addrs : List (Nat × Dword)) (s : State) : State :=
  let s := if r.cause.hasAddr then keepAddrs k r.mask addrs s else s
  let rec_ := groupRecord s k r.cause.code r.reason r.mask rp r.addr r.info.toNat
  let s := if r.cause.records && !spillHeld s k then record rec_.die rec_ s else s
  takeTrap k r.cause rp r.mask s

/-- A cause taken at the group's pc in place of its next chain, the chain that raised it having completed (R290): one whose entry
cannot be spilt now stays to be taken (R169). -/
def deliverHere (k : Nat) (r : Raise) (s : State) : State :=
  let t := deliver k r (groupOf s k).pc [] s
  if spillHeld s k then onGroup k (fun g => { g with deliver := some r }) t else t

/-! Wake. -/

/-- The siblings' halt ends when no group of the team is parked: a signal not yet obeyed is forgotten (R175). -/
def endHalt (h : Nat) (s : State) : State :=
  if (teamAt s h).parkedCnt = 0 then
    { onTeam h (fun t => { t with halting := false, freedAt := s.clock }) s with
      groups := Maps.mapAll s.groups fun j g => if handleOf j = h then { g with haltSeen := none } else g }
  else s

/-- A parked group woken (R195): it re-executes, or with ACT = 1 takes the recorded cause in its lanes. If its team is
still halted it stops at once with SKID 0 (R174). -/
def wake (act : Bool) (k : Nat) (s : State) : State :=
  let g := groupOf s k
  match g.parked with
  | none => s
  | some _ =>
    let h := handleOf k
    let s := onTeam h (fun t => { t with parkedCnt := t.parkedCnt - 1 }) s
    let s := onGroup k (fun g => { g with parked := none, parkReq := none }) s
    let s := match act, g.parkReq with
      | true, some p =>
        let c : Cause := if p.acc = .fetch then .exec else .access
        deliverHere k { cause := c, mask := if c = .exec then g.active else p.mask, reason := p.reason, addr := p.addr, info := p.info } s
      | _, _ => s
    let here := (Maps.find s.groups k).isSome && (groupOf s k).parked.isNone && !(groupOf s k).halted
    if (teamAt s h).parkedCnt = 0 then endHalt h s else if here then stopSibling k 0 s else s

/-- Several groups woken, in key order. -/
def wakeAll (act : Bool) : List Nat → State → State
  | [], s => s
  | k :: ks, s => wakeAll act ks (wake act k s)

/-- The fault of the fill that a pop of a group makes (R169). -/
def fillFault (s : State) (k : Nat) : Option (Raise ⊕ ParkReq) :=
  let g := groupOf s k
  let n := g.held.length - 1
  if n < g.depth - 1 ∧ n < 16 then homeFault s k (stackHome g (g.depth - 1 - n - 1)) .load else none

/-- A SIBHALT entry popped (R175): mask, pc and mode are restored. A fill that parks leaves the group stopped and parked, and one that
fails in the lanes is taken there once the group has resumed (R169, log entry 14). -/
def resumeSibling (k : Nat) (s : State) : State :=
  let g := groupOf s k
  let back (e : StackEntry) (g : Group) : Group :=
    { g with halted := false, active := e.mask, pc := e.rpc, block := none, mode := (g.mode &&& 0xFFFFFF00#32) ||| e.mode.setWidth 32 }
  match g.held.head?, fillFault s k with
  | some e, none => onGroup k (back e) (pop k s)
  | some e, some (.inl r) =>
    onGroup k (fun g => { back e { g with held := g.held.tail, depth := g.depth - 1 } with deliver := some r })
      (keepAddrs k r.mask ((lanesOf r.mask).map fun l => (l, r.addr)) s)
  | some _, some (.inr p) => parkWith k p ((lanesOf p.mask).map fun l => (l, p.addr)) s
  | none, _ => onGroup k (fun g => { g with halted := false }) s

/-! Vacating (R383). -/

/-- The steps of R383 until a path is found or the stack is empty, at most `n` pops. -/
def vacateGo (k : Nat) : Nat → State → State
  | 0, s => exitGroup k s
  | n + 1, s =>
    let g := groupOf s k
    match g.held.head? with
    | none => exitGroup k s
    | some e =>
      if e.kind = .bad then takeTrap k .illegal g.pc 0 s   -- no word comes here: one that would is ILLEGAL at its own chain
      else if e.kind = .div ∧ e.pmask ≠ 0 then
        onGroup k (fun g => switchPath g.depth s.mem.nextId
          { g with active := e.pmask, pc := e.ppc, held := { e with pmask := 0 } :: g.held.tail }) s
      else
        let s := pop k s
        if e.mask ≠ 0 then
          onGroup k (fun g => { g with active := e.mask, pc := e.rpc,
                                       mode := if e.kind = .trap then (g.mode &&& 0xFFFFFF00#32) ||| e.mode.setWidth 32 else g.mode }) s
        else vacateGo k n s

/-- A group whose active mask has become empty (R383). -/
def vacate (k : Nat) (s : State) : State := vacateGo k ((groupOf s k).depth + 1) s

/-! Arrivals. -/

/-- A sleep ended early by an arrival that clears an awaiting bit (R386). -/
def clearAwait (r : Nat) (g : Group) : Group :=
  { g with await := g.await &&& ~~~(BitVec.ofNat 256 (2 ^ r)), sleepTo := none }

end Sys2Proof.Machine
end

