-- ==== Sys2Proof/Machine/Issue.lean ====
section
/-! DEFINITION. How a word issues (R11, R154, R290, R292, R313, R314): what it may wait for, raise and park on, and its
effect, as one record; and the one operation that runs such a record alone or as a word of a longer chain. -/

namespace Sys2Proof.Machine

/-- What a word does at issue. -/
structure WordOut where
  /-- Not ready: a unit or an engine cannot take it yet (R154). -/
  stall   : Bool := false
  /-- A stall of the issuing group that the instruction itself asks for (R12), and what it does before it stalls. -/
  await   : Bool := false
  onAwait : State → State := id
  /-- The stall is the wait of an operation that the chain's issue in this clock has begun (R279, R301, R450). -/
  starts  : Bool := false
  /-- What a word that is not ready leaves for others to see. -/
  onStall : State → State := id
  raises  : List Raise := []
  parks   : List ParkReq := []
  /-- Faulting addresses by lane (R297). -/
  addrs   : List (Nat × Dword) := []
  /-- Causes taken once the chain has completed (R290). -/
  nexts   : List Raise := []
  uses    : List RegId := []
  dests   : List RegId := []
  effect  : State → State := id
  /-- A branch's effect on pc, mask and stack, after the chain's other words (R377). -/
  ctl     : Option (State → State) := none
  /-- What takes effect for the chains that follow (R356). -/
  last    : State → State := id
  /-- What stands of a word whose chain traps or parks (R299, R301). -/
  onFault : State → State := id

/-- Is the word's chain held by the scoreboard (R154, R157)? -/
def hazard (g : Group) (w : WordOut) : Bool := (w.uses ++ w.dests).any g.busy

/-- The acquire of the first instruction to read a register that a release send has written (R233). -/
def acquireUses (w : WordOut) (s : State) : State :=
  let g := groupOf s s.cur
  let hit := g.acquire.filter fun a => w.uses.contains (.vec a.1)
  if hit.isEmpty then s
  else
    let s := onCur (fun g => { g with acquire := g.acquire.filter fun a => !w.uses.contains (.vec a.1) }) s
    if hit.any fun a => 2 ≤ a.2.toNat then dropL1 (teamAt s (handleOf s.cur)).core s else s

/-- The issuing group found not ready in this clock (R154). -/
def holdIssue (s : State) : State := onCur (fun g => { g with stalled := true }) s

/-- No matrix word of the group is known to wait for a token any more (R178). -/
def unwant (s : State) : State := onCur (fun g => { g with wants := false }) s

/-- The group goes on at the next chain. -/
def advance (s : State) : State := onCur (fun g => { g with pc := s.nextPc }) s

/-- Does a group's next turn end a chain that has issued before (R279, R450)? -/
def Group.resumes (g : Group) : Bool :=
  match g.waiting with
  | some .mtileDone => true
  | some (.sendDone _) => true
  | _ => false

/-- The causes of a completed chain, taken at the group's pc (R290); where the chain still waits for the reply to a `depdec`, which may
raise a lower one, they wait with it (R79, R292). -/
def takeNexts (rs : List Raise) (s : State) : State :=
  match lowest rs, Maps.find s.groups s.cur with
  | some r, some g =>
    if g.exited then s
    else if g.waiting = some .counter then onCur (fun g => { g with deliver := some r }) s
    else deliverHere s.cur r s
  | _, _ => s

/-- The one of several parking requests that names the lowest lane. -/
def lowestPark (p : ParkReq) (ps : List ParkReq) : ParkReq :=
  ps.foldl (fun a b => if b.mask ≠ 0 ∧ lowLane b.mask < lowLane a.mask then b else a) p

/-- A chain that raises or parks (R292): in-lane causes first, parking only where there are none. A park is for all the
lanes that park, under the key of the lowest. -/
def failChain (rs : List Raise) (ps : List ParkReq) (addrs : List (Nat × Dword)) (s : State) : State :=
  match lowest rs with
  | some r => deliver s.cur r (groupOf s s.cur).pc addrs s
  | none => match ps with
    | p :: rest => parkWith s.cur { lowestPark p rest with mask := rest.foldl (fun m q => m ||| q.mask) p.mask } addrs s
    | [] => s

/-- What an awaiting word does at issue, the issuing group held: it is found not ready in this clock, unless it has begun what it waits for. -/
def awaitWord (starts : Bool) (s : State) : State := if starts then s else holdIssue s

/-- The effects of a chain's word on the state, the branch effect last. -/
def commitWord (w : WordOut) (s : State) : State :=
  let s := w.effect (acquireUses w s)
  match w.ctl with
  | some f => f s
  | none => s

/-- A word issued: as a chain of its own, or as one word of a longer chain that first collects what every word raises
and then commits every word with its sources as they stood at issue, or undoes it (R11, R292, R314). -/
def issue (sem : Group → State → WordOut) (s : State) : Out :=
  match Maps.find s.groups s.cur with
  | none => .fault .noGroup
  | some g =>
    match s.issue with
    | .alone =>
      let w := sem g s
      let s := unwant s
      if hazard g w then .next (holdIssue s)
      else if w.stall then .next (holdIssue (w.onStall s))
      else if !(w.raises.isEmpty && w.parks.isEmpty) then .next (failChain w.raises w.parks w.addrs (w.onFault s))
      else if w.await then .next (awaitWord w.starts (w.onAwait (acquireUses w s)))
      else .next (takeNexts w.nexts (w.last (commitWord w (advance s))))
    | .collect acc =>
      let w := sem g s
      let acc : ChainAcc :=
        { acc with
          hazard := acc.hazard || hazard g w, stall := acc.stall || w.stall, await := acc.await || w.await, starts := acc.starts || (w.await && w.starts), raises := acc.raises ++ w.raises
          parks := acc.parks ++ w.parks, faddr := acc.faddr ++ w.addrs, dests := acc.dests ++ w.dests }
      .next { s with issue := .collect acc }
    | .commit src posts =>
      let w := sem src s
      .next { commitWord w s with issue := .commit src (posts ++ w.nexts) }
    | .last src => .next ((sem src s).last s)
    | .abort src => .next ((sem src s).onFault s)
    | .await src stalled =>
      let w := sem src s
      .next (if stalled then w.onStall s else w.onAwait (if w.await && w.starts then acquireUses w s else s))

end Sys2Proof.Machine
end

