-- ==== Sys2Proof/Machine/Operands.lean ====
section
/-! DEFINITION. Operand forms (R316 to R319): effective vector registers with their bounds and alignment, the immediates
with and without a literal (R315), and the shapes that the lane instructions share. -/

namespace Sys2Proof.Machine

/-- A range of vector registers: first register, count, alignment of its start (R318). -/
structure VR where
  first : Nat
  count : Nat := 1
  align : Nat := 1
deriving DecidableEq, Repr

/-- The vector field `f` of a word with index bit `x`, as a range. -/
def vr (x : Bool) (f : BitVec 7) (g : Group) (count align : Nat) : VR := { first := ea x f g, count := count, align := align }

/-- What a range raises: ILLEGAL at a misaligned start, REGBOUND where it reaches ALLOT (R318). -/
def vrRaises (s : State) (g : Group) (r : VR) : List Raise :=
  (if r.first % r.align = 0 then [] else [raise .illegal g.active]) ++
    (if r.first + r.count ≤ allot s then [] else [raise .regbound g.active])

/-- The registers of a range. -/
def vrRegs (r : VR) : List RegId := (List.range r.count).map fun i => .vec (r.first + i)

/-- A word over vector ranges and scalars, before its effect: the checks of R318 and the registers it names. -/
def regWord (s : State) (g : Group) (x : Bool) (dst src : List VR) (ss : List Nat := []) (sd : List Nat := []) (sp : List Nat := [])
    (dp : List Nat := []) : WordOut :=
  { raises := (dst ++ src).flatMap (vrRaises s g)
    uses := src.flatMap vrRegs ++ ss.map .scl ++ (sp.filter (· != 7)).map .pred ++ (if x then [.ix] else [])
    dests := dst.flatMap vrRegs ++ sd.map .scl ++ (dp.filter (· != 7)).map .pred }

/-- The effect of writing one vector register in the active lanes. -/
def writeLanes (g : Group) (d : Nat) (f : Nat → Word) : State → State := onCur fun live => live.setV d g.active f

/-- The effect of writing one vector register in the active lanes with the events of each lane's result (R253). -/
def writeLanesEv (g : Group) (d : Nat) (f : Nat → Nat × Num.Ev) (s : State) : State :=
  charge g.tag ((lanesOf g.active).foldl (fun e l => e.add (f l).2) {}) (writeLanes g d (fun l => BitVec.ofNat 32 (f l).1) s)

/-- vD := f vA, in the active lanes. -/
def lane1 (x : Bool) (d a : BitVec 7) (f : Word → Word) (g : Group) (s : State) : WordOut :=
  { regWord s g x [vr x d g 1 1] [vr x a g 1 1] with
    effect := writeLanes g (ea x d g) (fun l => f (g.v (ea x a g) l)) }

/-- vD := f vA vB, in the active lanes. -/
def lane2 (x : Bool) (d a b : BitVec 7) (f : Word → Word → Word) (g : Group) (s : State) : WordOut :=
  { regWord s g x [vr x d g 1 1] [vr x a g 1 1, vr x b g 1 1] with
    effect := writeLanes g (ea x d g) (fun l => f (g.v (ea x a g) l) (g.v (ea x b g) l)) }

/-- vD := f vA sB, in the active lanes (scalar-B form). -/
def laneS (x : Bool) (d a : BitVec 7) (sb : BitVec 6) (f : Word → Word → Word) (g : Group) (s : State) : WordOut :=
  { regWord s g x [vr x d g 1 1] [vr x a g 1 1] (ss := [sb.toNat]) with
    effect := writeLanes g (ea x d g) (fun l => f (g.v (ea x a g) l) (g.s sb.toNat)) }

/-- vD := f vA vB vD, in the active lanes: D is source and destination (R341). -/
def lane3 (x : Bool) (d a b : BitVec 7) (f : Word → Word → Word → Word) (g : Group) (s : State) : WordOut :=
  { regWord s g x [vr x d g 1 1] [vr x a g 1 1, vr x b g 1 1, vr x d g 1 1] with
    effect := writeLanes g (ea x d g) (fun l => f (g.v (ea x a g) l) (g.v (ea x b g) l) (g.v (ea x d g) l)) }

/-- The predicate of a relation of vA and vB, in the active lanes. -/
def laneP (x : Bool) (p : BitVec 3) (a b : BitVec 7) (f : Word → Word → Bool) (g : Group) (s : State) : WordOut :=
  { regWord s g x [] [vr x a g 1 1, vr x b g 1 1] (dp := [p.toNat]) with
    effect := onCur fun live => live.setP p.toNat g.active (maskOf fun l => f (g.v (ea x a g) l) (g.v (ea x b g) l)) }

/-- One result with events from vA. -/
def laneEv1 (x : Bool) (d a : BitVec 7) (f : Nat → Nat × Num.Ev) (g : Group) (s : State) : WordOut :=
  { regWord s g x [vr x d g 1 1] [vr x a g 1 1] with
    effect := writeLanesEv g (ea x d g) (fun l => f (g.v (ea x a g) l).toNat) }

/-- One result with events from vA and vB. -/
def laneEv2 (x : Bool) (d a b : BitVec 7) (f : Nat → Nat → Nat × Num.Ev) (g : Group) (s : State) : WordOut :=
  { regWord s g x [vr x d g 1 1] [vr x a g 1 1, vr x b g 1 1] with
    effect := writeLanesEv g (ea x d g) (fun l => f (g.v (ea x a g) l).toNat (g.v (ea x b g) l).toNat) }

/-- One result with events from vA and sB. -/
def laneEvS (x : Bool) (d a : BitVec 7) (sb : BitVec 6) (f : Nat → Nat → Nat × Num.Ev) (g : Group) (s : State) : WordOut :=
  { regWord s g x [vr x d g 1 1] [vr x a g 1 1] (ss := [sb.toNat]) with
    effect := writeLanesEv g (ea x d g) (fun l => f (g.v (ea x a g) l).toNat (g.s sb.toNat).toNat) }

/-- One result with events from vA, vB and vD. -/
def laneEv3 (x : Bool) (d a b : BitVec 7) (f : Nat → Nat → Nat → Nat × Num.Ev) (g : Group) (s : State) : WordOut :=
  { regWord s g x [vr x d g 1 1] [vr x a g 1 1, vr x b g 1 1, vr x d g 1 1] with
    effect := writeLanesEv g (ea x d g) (fun l => f (g.v (ea x a g) l).toNat (g.v (ea x b g) l).toNat (g.v (ea x d g) l).toNat) }

/-- One result with events from vA, sB and vD. -/
def laneEvS3 (x : Bool) (d a : BitVec 7) (sb : BitVec 6) (f : Nat → Nat → Nat → Nat × Num.Ev) (g : Group) (s : State) : WordOut :=
  { regWord s g x [vr x d g 1 1] [vr x a g 1 1, vr x d g 1 1] (ss := [sb.toNat]) with
    effect := writeLanesEv g (ea x d g) (fun l => f (g.v (ea x a g) l).toNat (g.s sb.toNat).toNat (g.v (ea x d g) l).toNat) }

/-- A uniform word over scalars: sources, destinations, effect on the group. -/
def scalarWord (ss sd : List Nat) (f : Group → Group) : WordOut :=
  { uses := ss.map .scl, dests := sd.map .scl, effect := onCur f }

/-! Immediates (R315). -/

/-- The immediate of a VI word. -/
def immVI (i : BitVec 10) (lit : Option (BitVec 25)) : Word :=
  match lit with
  | none => i.signExtend 32
  | some l => BitVec.ofNat 32 (l.toNat * 2 ^ 10 + i.toNat)

/-- The immediate of an SI word, sign-extended. -/
def immSIs (i : BitVec 15) (lit : Option (BitVec 25)) : Word :=
  match lit with
  | none => i.signExtend 32
  | some l => BitVec.ofNat 32 (l.toNat * 2 ^ 15 + i.toNat)

/-- The immediate of an SI word, zero-extended. -/
def immSIz (i : BitVec 15) (lit : Option (BitVec 25)) : Word :=
  match lit with
  | none => i.setWidth 32
  | some l => BitVec.ofNat 32 (l.toNat * 2 ^ 15 + i.toNat)

/-- The byte offset of an M word for access size `z`, modulo 2^64 (R315, R319). -/
def immM (i : BitVec 4) (lit : Option (BitVec 25)) (z : Nat) : Dword :=
  match lit with
  | none => BitVec.ofNat 64 (i.toNat * z)
  | some l => BitVec.ofInt 64 (signedN 29 (l.toNat * 2 ^ 4 + i.toNat) * z)

/-- The packet offset of a B word (R311, R315). -/
def immB (o : BitVec 19) (lit : Option (BitVec 25)) : Int :=
  match lit with
  | none => o.toInt
  | some l => signedN 44 (l.toNat * 2 ^ 19 + o.toNat)

/-- The bytes of an access size code (R319). -/
def sizeBytes (z : BitVec 3) : Nat :=
  match z.toNat with
  | 0 => 1 | 1 => 1 | 2 => 2 | 3 => 2 | 4 => 4 | 5 => 8 | _ => 16

/-- The registers of an access size code, and the alignment of the first (R318, R319). -/
def sizeRegs (z : BitVec 3) : Nat :=
  match z.toNat with
  | 5 => 2 | 6 => 4 | _ => 1

end Sys2Proof.Machine
end

