-- ==== Sys2Proof/Machine/Access.lean ====
section
/-! DEFINITION. Accesses of a group to memory (R181 to R201, R215 to R219, R402, R403): where each lane's address leads,
what it raises, and the requests, scratchpad accesses and register writes that a commit makes. -/

namespace Sys2Proof.Machine

/-! Where lanes go. -/

/-- One lane's access: lane, the address that a fault keeps, where it leads, and the address accessed, where that is another. -/
structure LaneAt where
  lane : Nat
  va   : Dword
  tg   : Target
  at_  : Dword := va
deriving DecidableEq, Repr

def laneMask (l : Nat) : Word := BitVec.ofNat 32 (2 ^ l)

/-- An address in the team's own scratchpad as a fault names it. -/
def scrVa (o : Nat) : Dword := BitVec.ofNat 64 (0xFE * 2 ^ 56 + o)

/-- Scratchpad bytes of the team of a handle, as its core or its save area gives them (R200, R304); no team is there for a context that
has been destroyed (R44). -/
def remoteSize (s : State) (c h : Nat) : Option Nat :=
  match (if ctxValid s c then tltState s c h else 0) with
  | 1 => match Maps.find s.teams h with
    | some t => if t.ctx = c then some (t.scr * 65536) else none
    | none => none
  | 2 => some (natAt s.mem (tltTsa s c h + 19) 1 * 65536)
  | _ => none

/-- The checks of an access that are made at issue beside translation: the team of a 0xFD address and its scratchpad size
(R200), and the PCIe windows, which take no atomic and nothing above 8 bytes (R34). -/
def checkTarget (s : State) (t : Team) (tg : Target) (z : Nat) (acc : Acc) : Target :=
  match tg with
  | .phys pa _ => if isPcie pa && (acc == .atomic || decide (8 < z)) then .nophys pa else tg
  | .remote h off =>
    if tltMove s t.ctx h then tg
    else match remoteSize s t.ctx h with
      | none => .inlane .noteam h
      | some n => if off + z ≤ n then tg else .inlane .scrbound 0
  | _ => tg

/-- What the access of a lane raises, or asks to park on: ALIGN first (R402). -/
def laneFault (g : Group) (z : Nat) (acc : Acc) (a : LaneAt) : Option (Raise ⊕ ParkReq) :=
  match a.tg with
  | .inlane .nowin n => faultOf (.inlane .nowin n) (laneMask a.lane) a.va acc (!g.sup)
  | tg =>
    if a.at_.toNat % z ≠ 0 then some (.inl { cause := .align, mask := laneMask a.lane, addr := a.va })
    else faultOf tg (laneMask a.lane) a.va acc (!g.sup)

/-- A word of lane accesses, before its effect: what its lanes raise and park on, with their addresses. -/
def accessWord (w : WordOut) (g : Group) (z : Nat) (acc : Acc) (las : List LaneAt) (eff : State → State) : WordOut :=
  let fs := las.filterMap fun a => (laneFault g z acc a).map fun f => (a, f)
  { w with
    raises := w.raises ++ raisesOf (fs.map (·.2))
    parks := w.parks ++ parksOf (fs.map (·.2))
    addrs := w.addrs ++ fs.map fun f => (f.1.lane, f.1.va)
    effect := fun s => w.effect (eff s) }

/-! Windows (R188 to R190, R404). -/

/-- The run of physically contiguous, identically permitted bytes from a page's end on: up to `n` following leaves (R189).
`fl`: R, W, X, U and G of the base page; `run`: bytes so far; `va`, `pa`: where the run ends. -/
def windowRun (m : Mem) (root fl : Nat) : Nat → Nat → Nat → Nat → Nat
  | 0, run, _, _ => run
  | n + 1, run, va, pa =>
    if 2 ^ 30 ≤ run ∨ 2 ^ 56 ≤ va then run
    else match walk m root va with
      | .leaf pte level =>
        let p := pageSize level
        if pteAddr pte + va % p = pa ∧ bitsN pte 6 2 = fl then
          windowRun m root fl n (run + (p - va % p)) (va + (p - va % p)) (pa + (p - va % p))
        else run
      | _ => run

/-- The window that a bind of address `b` gives, or the fault it takes (R189, R404). -/
def bindWindow (s : State) (t : Team) (user : Bool) (b : Dword) (n : Nat) : Window ⊕ Target :=
  match vaTag b with
  | 0xFE =>
    if vaLow b / 2 ^ 36 ≠ 0 then .inr (.inlane .scrbound 0)
    else .inl { vbase := b.setWidth 56, tag := 0xFE, frame := BitVec.ofNat 46 (vaLow b)
                limit := BitVec.ofNat 31 (min (2 ^ 30) (t.scr * 65536 - vaLow b))
                w := true, r := true, u := true, bound := true, live := true }
  | 0xFD => .inr (.inlane .nowin n)
  | 0x00 | 0xFF =>
    let supVa := vaTag b = 0xFF
    if supVa && user then .inr (.inlane .perm 0)
    else
      let root := ctxRoot s (if supVa then 0 else t.ctx)
      if let some n := walkLost s t.core root (vaLow b) then .inr (.inlane .linkdown n)
      else match walk s.mem root (vaLow b) with
      | .leaf pte level =>
        let p := pageSize level
        let pa := pteAddr pte + vaLow b % p
        let run := p - vaLow b % p
        .inl { vbase := b.setWidth 56, tag := BitVec.ofNat 8 (vaTag b), frame := BitVec.ofNat 46 pa
               limit := BitVec.ofNat 31 (min (2 ^ 30) (windowRun s.mem root (bitsN pte 6 2) 64 run (vaLow b + run) (pa + run)))
               w := bitN pte 3, r := bitN pte 2, u := bitN pte 5, bound := true, live := true }
      | .invalid _ _ ft => .inr (if ft then touchTarget s t else .park .notmapped true 0)
      | .bad level => .inr (.park .badpte false level)
      | .nophys a => .inr (.nophys a)
  | _ => .inr (.inlane .noncanon 0)

/-- The address that a window is bound to. -/
def Window.base (w : Window) : Dword := BitVec.ofNat 64 (w.tag.toNat * 2 ^ 56 + w.vbase.toNat)

/-- A group's window ready for an access: as it stands while LIVE, else as a new bind gives it (R190). -/
def readyWindow (s : State) (g : Group) (n : Nat) : Window ⊕ Target :=
  let w := g.window n
  if !w.bound then .inr (.inlane .nowin n)
  else if w.live then .inl w
  else bindWindow s (curTeam s) (!g.sup) w.base n

/-- Where an access of `z` bytes at offset `o` of a window of a team leads (R190). -/
def windowTarget (s : State) (t : Team) (user : Bool) (w : Window) (o : Dword) (z : Nat) (acc : Acc) : Target :=
  let tg : Target :=
    if w.tag = 0xFE then
      if w.frame.toNat + o.toNat + z ≤ t.scr * 65536 then .scratch (w.frame.toNat + o.toNat) else .inlane .scrbound 0
    else if o.toNat + z ≤ w.limit.toNat ∧ (if acc = .load then w.r else w.w) = true ∧ (w.u || !user) = true then
      physTarget s (decide (w.tag = 0xFF) && !user) (w.frame.toNat + o.toNat) acc none
    else resolve s t user (w.base + o) z acc
  checkTarget s t tg z acc

/-- The access of `z` bytes at offset `o` of a window (R190). A new bind that fails keeps the bound address, unless the access is misaligned
(R402). -/
def windowAt (s : State) (g : Group) (n : Nat) (rw : Window ⊕ Target) (lane : Nat) (o : Dword) (z : Nat) (acc : Acc) : LaneAt :=
  let t := curTeam s
  let base := (g.window n).base
  match rw with
  | .inr tg =>
    { lane := lane, va := if !(g.window n).bound then o else if (base + o).toNat % z ≠ 0 then base + o else base, tg := tg, at_ := base + o }
  | .inl w => { lane := lane, va := base + o, tg := windowTarget s t (!g.sup) w o z acc }

/-- A window that a bind has given its limit by a walk, whose reads are acquires on the core (R185, R189). -/
def walkedWindow (w : Window) (s : State) : State := if w.tag = 0xFE then s else dropL1 (curTeam s).core s

/-- A window bound anew by an access stays so (R190). -/
def keepWindow (n : Nat) (rw : Window ⊕ Target) (s : State) : State :=
  match rw with
  | .inl w =>
    let s := if ((groupOf s s.cur).window n).live then s else walkedWindow w s
    onCur (fun g => g.setWindow n w) s
  | .inr _ => s

/-- The access of a lane at a full address (R408). -/
def addressAt (s : State) (g : Group) (lane : Nat) (va : Dword) (z : Nat) (acc : Acc) : LaneAt :=
  { lane := lane, va := va, tg := checkTarget s (curTeam s) (resolve s (curTeam s) (!g.sup) va z acc) z acc }

/-- The access of a lane at a scratchpad offset (R409). -/
def scratchAt (s : State) (lane : Nat) (o : Dword) (z : Nat) : LaneAt :=
  { lane := lane, va := BitVec.ofNat 64 (0xFE * 2 ^ 56) ||| o
    tg := if o.toNat + z ≤ (curTeam s).scr * 65536 then .scratch o.toNat else .inlane .scrbound 0 }

/-! Order among lanes (R10, R218, R413). -/

/-- A list sorted by a key. -/
def insertBy {α : Type} (k : α → Nat) (x : α) : List α → List α
  | [] => [x]
  | y :: ys => if k x ≤ k y then x :: y :: ys else y :: insertBy k x ys

def sortBy {α : Type} (k : α → Nat) : List α → List α
  | [] => []
  | x :: xs => insertBy k x (sortBy k xs)

/-- A list in a free order (log entry 8). -/
def freeOrder {α : Type} (n : Nat) (xs : List α) : List α :=
  (sortBy (fun (e : α × Nat) => Config.freeNat (n + e.2)) (xs.zip (List.range xs.length))).map (·.1)

/-- The place that a lane's access names. -/
def placeOf (own : Nat) (tg : Target) : Nat × Nat :=
  match tg with
  | .phys pa _ => (0, pa)
  | .scratch off => (1, off)
  | .remote h off => if h = own then (1, off) else (2 + h, off)
  | _ => (0, 0)

/-- Lanes in the order in which their writes are made: as listed where they name different places, free where two name
one (R10, R218, R413). -/
def laneOrder (las : List LaneAt) (s : State) : List LaneAt × State :=
  if (las.map fun a => placeOf (handleOf s.cur) a.tg).Nodup then (las, s)
  else (freeOrder s.draws las, { s with draws := s.draws + las.length })

/-! Requests. -/

/-- An access to a PCIe window leaves at its port; a store is complete there (R34). -/
def sendPcie (r : Req) (s : State) : State :=
  let store := r.op == .store
  { s with io := { s.io with pcie := s.io.pcie ++ [{
      port := (r.pa - pcieBase) / 2 ^ 38, addr := (r.pa - pcieBase) % 2 ^ 38, size := r.size
      data := if store then some (BitVec.ofNat 64 r.data.toNat) else none }] } }

/-- The relay slice of a core (R208). -/
def relaySlice (core : Nat) : Nat := 32 * (core / 24) + core % 24

/-- The slice by which a team's scratchpad is reached: its core's relay slice, or the home slice of its save area's line (R200, R208). -/
def remoteSlice (s : State) (c h off here : Nat) : Nat :=
  match tltState s c h with
  | 1 => relaySlice (tltCore s c h)
  | 2 => (sliceOf s.mem (tltTsa s c h + 0x140000 + off)).getD here
  | _ => here

/-- The way of a request. -/
def reqWay (s : State) (r : Req) : Way :=
  let here := dieSlice (dieOfCore r.core)
  { inp := r.core
    slice := match r.space with
      | .llc => (sliceOf s.mem r.pa).getD here
      | .pcie => dieSlice (8 + (r.pa - pcieBase) / 2 ^ 39)
      | .dev => dieSlice ((r.pa - devBase) / 2 ^ 24)
      | .remote h => remoteSlice s r.ctx h r.pa here }

/-- Can a request or its reply cross now; can it never (R21, R32)? -/
def reqOpen (s : State) (r : Req) : Bool := (reqWay s r).open_ s
def reqDead (s : State) (r : Req) : Bool := (reqWay s r).dead s

/-- A request that fails because its way has been taken down (R32). -/
def Req.linkDown (r : Req) (n : Nat) : Req := { r with st := .failed .linkdown, val := BitVec.ofNat 128 n }

/-- A request taken into the network. One to a PCIe window leaves at its port; one whose way is down fails (R32, R34). -/
def putReq (r : Req) (s : State) : State :=
  let dead := reqDead s r
  let r := if dead then r.linkDown ((reqWay s r).deadLink s)
    else if r.space == .pcie && r.op == .store then { r with st := .done } else r
  let s := if r.space == .pcie && !dead then sendPcie r (crossTo (reqWay s r) 2 s) else s
  onMem (fun m => { m with net := Maps.set m.net m.nextId r, nextId := m.nextId + 1 }) s

/-- A request of the issuing group. -/
def addReq (r : Req) (s : State) : State :=
  let t := curTeam s
  putReq { r with group := s.cur, core := t.core, ctx := t.ctx, region := t.region, die := t.die, slot := t.slot } s

/-- A request that will write registers: they are pending until it does (R157). -/
def addLoad (r : Req) (rs : List RegId) (s : State) : State :=
  onCur (fun g => g.mark rs s.mem.nextId) (addReq r s)

/-- Where a physical address is served. -/
def spaceOf (pa : Nat) : ReqSpace := if isHbm pa then .llc else if isPcie pa then .pcie else .dev

/-- Does a request store to memory? -/
def ReqOp.writes : ReqOp → Bool
  | .store => true
  | .atom _ _ _ => true
  | .resbit _ _ => true
  | .ctlAtom _ _ => true
  | _ => false

/-- Do two requests of a group, an earlier and a later one by number, lie on different paths of a divergent branch that has not reconverged
(R220)? -/
def pathsApart (s : State) (k i j : Nat) : Bool :=
  (groupOf s k).paths.any fun p => match p.2 with
    | (start, some switch) => decide (start ≤ i) && decide (i < switch) && decide (switch ≤ j)
    | _ => false

/-- Is a request an access of the issuing group on another path than the one it is on (R220)? -/
def otherPath (s : State) (id : Nat) (r : Req) : Bool := r.live && r.group == s.cur && pathsApart s s.cur id s.mem.nextId

/-- Is a store or atomic of a core to a line on its way, or a load of the issuing group? Then its L1 does not serve the line
(R219). Whether an access of another path of the group keeps it from that is free (R220). -/
def lineBusy (s : State) (core la : Nat) : Bool :=
  s.mem.net.any fun e => e.2.core == core && e.2.space == .llc && e.2.pa / 64 == la &&
    (e.2.op.writes || (e.2.live && e.2.group == s.cur && e.2.op != .prefetch)) &&
    !(otherPath s e.1 e.2 && Config.freeNat (2 ^ 66 + s.mem.nextId) % 2 == 0)

/-- The line by which a core's L1 may serve a load. -/
def l1Line (s : State) (core pa : Nat) : Option Line :=
  if lineBusy s core (pa / 64) then none else Maps.find (coreAt s core).l1 (pa / 64)

/-- A loaded value as an access size code extends it: the words that are written (R319). -/
def loadWords (code : BitVec 3) (v : Nat) : List Word :=
  match code.toNat with
  | 0 => [BitVec.ofNat 32 (v % 2 ^ 8)]
  | 1 => [BitVec.ofInt 32 (signedN 8 v)]
  | 2 => [BitVec.ofNat 32 (v % 2 ^ 16)]
  | 3 => [BitVec.ofInt 32 (signedN 16 v)]
  | 4 => [BitVec.ofNat 32 v]
  | 5 => [BitVec.ofNat 32 v, BitVec.ofNat 32 (v / 2 ^ 32)]
  | _ => [BitVec.ofNat 32 v, BitVec.ofNat 32 (v / 2 ^ 32), BitVec.ofNat 32 (v / 2 ^ 64), BitVec.ofNat 32 (v / 2 ^ 96)]

/-- Words written to a lane of consecutive registers. -/
def Group.setLaneWords (g : Group) (r l : Nat) : List Word → Group
  | [] => g
  | w :: ws => (g.setLane r l w).setLaneWords (r + 1) l ws

/-- Words written to consecutive scalars. -/
def Group.setScalars (g : Group) (r : Nat) : List Word → Group
  | [] => g
  | w :: ws => (g.setS r w).setScalars (r + 1) ws

/-- The single-copy-atomic parts of an access: byte offset, bytes, register offset, size code. A 16-byte access is two
halves (R217). -/
def parts (code : BitVec 3) (z : Nat) : List (Nat × Nat × Nat × BitVec 3) :=
  if z = 16 then [(0, 8, 0, 5), (8, 8, 2, 5)] else [(0, z, 0, code)]

/-- The parts of an access at a target: one of a device register is not split, so that one of 16 bytes reads zero and writes nothing
(R18). -/
def partsAt (tg : Target) (code : BitVec 3) (z : Nat) : List (Nat × Nat × Nat × BitVec 3) :=
  match tg with
  | .phys pa _ => if isDev pa then [(0, z, 0, code)] else parts code z
  | _ => parts code z

/-- One part of a lane's load: from the scratchpad or the L1 at once, else by a request. -/
def loadPart (words : List Nat) (d : Nat) (a : LaneAt) (p : Nat × Nat × Nat × BitVec 3) (s : State) : State :=
  let (o, n, ro, code) := p
  let regs := (List.range (sizeRegs code)).map fun i => RegId.vec (d + ro + i)
  let t := curTeam s
  match a.tg with
  | .scratch off => onCur (fun g => g.setLaneWords (d + ro) a.lane (loadWords code (scrRead t (off + o) n))) s
  | .phys pa tr =>
    let s := keepTr t.core tr s
    let pa := pa + o
    match (if isHbm pa then l1Line s t.core pa else none) with
    | some l => onCur (fun g => g.setLaneWords (d + ro) a.lane (loadWords code (lineNat l (pa % 64) n))) s
    | none =>
      addLoad { group := 0, core := 0, lane := a.lane, op := .load (d + ro) code, space := spaceOf pa, pa := pa,
                va := a.va + BitVec.ofNat 64 o, size := n, fill := isHbm pa, words := words } regs s
  | .remote h off =>
    addLoad { group := 0, core := 0, lane := a.lane, op := .load (d + ro) code, space := .remote h, pa := off + o,
              va := a.va + BitVec.ofNat 64 o, size := n, words := words } regs s
  | _ => s

/-- The loads of an instruction's lanes into registers from `d` (R407 to R409). -/
def runLoads (d : Nat) (code : BitVec 3) (las : List LaneAt) (s : State) : State :=
  las.foldl (fun s a => (partsAt a.tg code (sizeBytes code)).foldl (fun s p => loadPart [] d a p s) s) s

/-- One part of a lane's store of `v`. -/
def storePart (a : LaneAt) (v : Nat) (p : Nat × Nat × Nat × BitVec 3) (s : State) : State :=
  let (o, n, _, _) := p
  let w := v / 2 ^ (8 * o) % 2 ^ (8 * n)
  match a.tg with
  | .scratch off => onCurTeam (scrWrite (off + o) n w) s
  | .phys pa tr =>
    addReq { group := 0, core := 0, lane := a.lane, op := .store, space := spaceOf (pa + o), pa := pa + o,
             va := a.va + BitVec.ofNat 64 o, size := n, data := BitVec.ofNat 128 w } (keepTr (curTeam s).core tr s)
  | .remote h off =>
    addReq { group := 0, core := 0, lane := a.lane, op := .store, space := .remote h, pa := off + o,
             va := a.va + BitVec.ofNat 64 o, size := n, data := BitVec.ofNat 128 w } s
  | _ => s

/-- The lanes whose stores are made, of those in the order of their writes: where a lane names a place of the team's own scratchpad that
a later one names too, and not both by the same form, the later one's value alone stands (R10). -/
def mixedStores (own : Nat) : List LaneAt → List LaneAt
  | [] => []
  | a :: rest =>
    let form (x : LaneAt) : Bool := match x.tg with
      | .remote _ _ => true
      | _ => false
    if rest.any fun b => placeOf own b.tg == placeOf own a.tg && form a != form b then mixedStores own rest else a :: mixedStores own rest

/-- The stores of an instruction's lanes; `v` gives a lane's data (R407 to R409, R218). -/
def runStores (z : Nat) (v : Nat → Nat) (las : List LaneAt) (s : State) : State :=
  let (las, s) := laneOrder las s
  (mixedStores (handleOf s.cur) las).foldl (fun s a => (partsAt a.tg 4 z).foldl (fun s p => storePart a (v a.lane) p s) s) s

/-- The number in a lane of consecutive registers. -/
def laneData (g : Group) (r l : Nat) : Nat → Nat
  | 0 => 0
  | n + 1 => (g.v r l).toNat + 2 ^ 32 * laneData g (r + 1) l n

/-! Atomics (R411 to R413). -/

/-- The new memory value of an atomic: old value m, operand v, and for `cas` the new value u (R412). -/
def atomNew (op : BitVec 4) (m v u : Nat) : Nat :=
  let sm := signedN 32 m
  let sv := signedN 32 v
  match op.toNat with
  | 0 => (m + v) % 2 ^ 32
  | 1 => (m + v) % 2 ^ 64
  | 2 => if sm ≤ sv then m else v
  | 3 => if sv ≤ sm then m else v
  | 4 => min m v
  | 5 => max m v
  | 6 => Nat.land m v
  | 7 => Nat.lor m v
  | 8 => Nat.xor m v
  | 9 => v
  | 10 => if m = v then u else m
  | 11 => (Num.bin Num.f32 .rne false (Num.add .rne) m v).1
  | 12 => (Num.minmaxBits Num.f32 false true m v).1
  | 13 =>
    (Num.bin Num.bf16 .rne false (Num.add .rne) (m % 2 ^ 16) (v % 2 ^ 16)).1 +
      (Num.bin Num.bf16 .rne false (Num.add .rne) (m / 2 ^ 16) (v / 2 ^ 16)).1 * 2 ^ 16
  | 14 => if v ≤ m then 0 else m + 1
  | _ => if m = 0 ∨ v < m then v else m - 1

/-- The bytes of an atomic. -/
def atomSize (op : BitVec 4) : Nat := if op = 1 then 8 else 4

/-- The registers of an atomic's operand. -/
def atomRegs (op : BitVec 4) : Nat := if op = 1 ∨ op = 10 then 2 else 1

/-- The new memory value from the operand registers as one number. -/
def atomApply (op : BitVec 4) (m data : Nat) : Nat :=
  if op = 1 then atomNew op m data 0 else atomNew op m (data % 2 ^ 32) (data / 2 ^ 32)

/-- The registers that `.ret` writes. -/
def atomRets (op : BitVec 4) : Nat := if op = 1 then 2 else 1

/-- The value returned to a lane (R412). -/
def atomRet (op : BitVec 4) (d l m : Nat) (g : Group) : Group :=
  g.setLaneWords d l (if op = 1 then [BitVec.ofNat 32 m, BitVec.ofNat 32 (m / 2 ^ 32)] else [BitVec.ofNat 32 m])

/-- One lane's atomic: at the core store at once, else by a request; a line of the L1 that it hits is dropped (R201). -/
def atomLane (op : BitVec 4) (ret : Bool) (d : Nat) (v : Nat) (a : LaneAt) (s : State) : State :=
  let t := curTeam s
  let z := atomSize op
  let regs := if ret then (List.range (atomRets op)).map fun i => RegId.vec (d + i) else []
  match a.tg with
  | .scratch off =>
    let m := scrRead t off z
    let s := onCurTeam (scrWrite off z (atomApply op m v)) s
    if ret then onCur (atomRet op d a.lane m) s else s
  | .phys pa tr =>
    let s := keepTr t.core tr s
    let s := if isHbm pa then onCore t.core (fun c => { c with l1 := Maps.del c.l1 (pa / 64) }) s else s
    addLoad { group := 0, core := 0, lane := a.lane, op := .atom op ret d, space := spaceOf pa, pa := pa, va := a.va, size := z,
              data := BitVec.ofNat 128 v } regs s
  | .remote h off =>
    addLoad { group := 0, core := 0, lane := a.lane, op := .atom op ret d, space := .remote h, pa := off, va := a.va, size := z,
              data := BitVec.ofNat 128 v } regs s
  | _ => s

/-- The atomics of an instruction's lanes, one after another (R413). -/
def runAtoms (op : BitVec 4) (ret : Bool) (d : Nat) (v : Nat → Nat) (las : List LaneAt) (s : State) : State :=
  let (las, s) := laneOrder las s
  las.foldl (fun s a => atomLane op ret d (v a.lane) a s) s

/-! What is outstanding. -/

/-- Does the group have a request on its way? -/
def outstanding (s : State) (k : Nat) (p : Req → Bool) : Bool := s.mem.net.any fun e => e.2.live && e.2.group == k && p e.2

/-- Has a group an access on its way to the bytes of a spilled stack entry, or of the one that its next push spills? Then its next chain,
whose stack accesses are made as it issues, waits (R169, R219). -/
def stackBusy (s : State) (k : Nat) : Bool :=
  let g := groupOf s k
  let t := teamAt s (handleOf k)
  (List.range (g.depth - g.held.length + (if spills g then 1 else 0))).any fun d =>
    inputHeld s t.core || match resolve s t (!g.sup) (stackHome g d) 32 .load with
    | .phys pa _ => outstanding s k fun r => r.space == .llc && r.pa / 64 == pa / 64 && r.op != .prefetch
    | .scratch _ => outstanding s k fun r => r.space == .remote (handleOf k)
    | _ => false

/-- Is an access of a path of the divergent branch on top of the group's stack still to be performed (R220)? -/
def pathsOut (s : State) (g : Group) : Bool :=
  match Maps.find g.paths (g.depth - 1) with
  | some p => s.mem.net.any fun e => decide (p.1 ≤ e.1) && e.2.live && e.2.group == s.cur && e.2.op != .prefetch && (match e.2.st with
    | .done => false
    | .failed _ => false
    | _ => true)
  | none => false

/-- Has a target been found by a walk of the tables? -/
def Target.walked : Target → Bool
  | .phys _ (some _) => true
  | .touch => true
  | .park _ _ _ => true
  | _ => false

/-- Are an instruction's accesses kept back: by one of the group to its own scratchpad that is on its way in the 0xFD form (R219), or by a
walk whose way is held while a module retrains (R31)? -/
def accessHeld (s : State) (las : List LaneAt) : Bool :=
  ((las.any fun a => match a.tg with
    | .scratch _ => true
    | _ => false) && outstanding s s.cur fun r => r.space == .remote (handleOf s.cur)) ||
  ((las.any fun a => a.tg.walked) && inputHeld s (curTeam s).core)

/-! Uniform accesses (R403). -/

/-- A word of one uniform access, before its effect: its fault has the mask of R403, every lane of which keeps the
address. -/
def uniformWord (w : WordOut) (g : Group) (va : Dword) (f : Option (Raise ⊕ ParkReq)) : WordOut :=
  match f with
  | none => w
  | some x =>
    { w with
      raises := w.raises ++ raisesOf [x], parks := w.parks ++ parksOf [x]
      addrs := w.addrs ++ (lanesOf g.uniformMask).map fun l => (l, va) }

/-- The fault of one uniform access. -/
def uniformFault (g : Group) (tg : Target) (va : Dword) (acc : Acc) : Option (Raise ⊕ ParkReq) :=
  faultOf tg g.uniformMask va acc (!g.sup)

end Sys2Proof.Machine
end

