-- ==== Sys2Proof/Machine/Memory.lean ====
section
/-! DEFINITION. Windows, loads and stores, gathers and scatters, scratchpad and uniform accesses, atomics, fences and
cache control (R404 to R416). -/

namespace Sys2Proof.Machine

/-! Windows. -/

/-- `bind` (R404). -/
def bindWord (w : BitVec 3) (a : BitVec 6) (g : Group) (s : State) : WordOut :=
  let b := g.s64 a.toNat
  let base : WordOut := { uses := [.scl a.toNat, .scl (a.toNat + 1)], dests := [.win w.toNat] }
  match bindWindow s (curTeam s) (!g.sup) b w.toNat with
  | .inl x => { base with effect := fun s => onCur (fun live => live.setWindow w.toNat x) (walkedWindow x s) }
  | .inr tg => uniformWord base g b (uniformFault g tg b .load)

/-- A window's 192 bits (R188); FRAME reads 0 in user mode. -/
def windowNum (w : Window) (sup : Bool) : Nat :=
  w.vbase.toNat * 2 ^ 136 + w.tag.toNat * 2 ^ 128 + (if sup then w.frame.toNat * 2 ^ 82 else 0) + w.limit.toNat * 2 ^ 51 +
    w.w.toNat * 2 ^ 50 + w.r.toNat * 2 ^ 49 + w.u.toNat * 2 ^ 2 + w.bound.toNat * 2 + w.live.toNat

/-- `wquery` (R406). -/
def wqueryWord (d : BitVec 6) (w : BitVec 3) (g : Group) (_ : State) : WordOut :=
  let v := windowNum (g.window w.toNat) g.sup
  { uses := [.win w.toNat], dests := (List.range 6).map fun i => .scl (d.toNat + i)
    effect := onCur fun live => live.setScalars d.toNat ((List.range 6).map fun i => BitVec.ofNat 32 (v / 2 ^ (32 * i))) }

/-- R404. Bind a window to an address and set its limit. -/
def execBind (_c : Bool) (w : BitVec 3) (a : BitVec 6) (s : State) : Out := issue (bindWord w a) s

/-- R405. Clear every field of a window. -/
def execUnbind (_c : Bool) (w : BitVec 3) (s : State) : Out :=
  issue (fun _ _ => { dests := [.win w.toNat], effect := onCur fun live => live.setWindow w.toNat {} }) s

/-- R406. Copy a window's fields into six scalars. -/
def execWquery (_c : Bool) (d : BitVec 6) (w : BitVec 3) (s : State) : Out := issue (wqueryWord d w) s

/-! Windowed loads and stores (R407). -/

/-- The data registers of an access of size code `z`. -/
def dataVR (x : Bool) (d : BitVec 7) (z : BitVec 3) (g : Group) : VR := vr x d g (sizeRegs z) (sizeRegs z)

/-- The lanes of a windowed access with offsets V[a] + imm (R190, R407). -/
def windowLanes (s : State) (g : Group) (n : Nat) (rw : Window ⊕ Target) (a : Nat) (imm : Dword) (z : Nat) (acc : Acc) : List LaneAt :=
  (lanesOf g.active).map fun l => windowAt s g n rw l ((g.v a l).setWidth 64 + imm) z acc

/-- `ld` (R407). -/
def ldWord (x : Bool) (z : BitVec 3) (d a : BitVec 7) (w : BitVec 3) (imm : Dword) (g : Group) (s : State) : WordOut :=
  let rw := readyWindow s g w.toNat
  let las := windowLanes s g w.toNat rw (ea x a g) imm (sizeBytes z) .load
  let base := regWord s g x [dataVR x d z g] [vr x a g 1 1]
  { accessWord { base with uses := base.uses ++ [.win w.toNat] } g (sizeBytes z) .load las
      (fun s => runLoads (ea x d g) z las (keepWindow w.toNat rw s)) with stall := accessHeld s las }

/-- `st` (R407). -/
def stWord (x : Bool) (z : BitVec 3) (d a : BitVec 7) (w : BitVec 3) (imm : Dword) (g : Group) (s : State) : WordOut :=
  let rw := readyWindow s g w.toNat
  let las := windowLanes s g w.toNat rw (ea x a g) imm (sizeBytes z) .store
  let base := regWord s g x [] [dataVR x d z g, vr x a g 1 1]
  { accessWord { base with uses := base.uses ++ [.win w.toNat] } g (sizeBytes z) .store las
      (fun s => runStores (sizeBytes z) (fun l => laneData g (ea x d g) l (sizeRegs z)) las (keepWindow w.toNat rw s))
    with stall := accessHeld s las }

/-- R407. Windowed per-lane load. -/
def execLd (_c x : Bool) (z : BitVec 3) (d a : BitVec 7) (w : BitVec 3) (i : BitVec 4) (lit : Option (BitVec 25)) (s : State) : Out :=
  issue (ldWord x z d a w (immM i lit (sizeBytes z))) s

/-- R407. Windowed per-lane store. -/
def execSt (_c x : Bool) (z : BitVec 3) (d a : BitVec 7) (w : BitVec 3) (i : BitVec 4) (lit : Option (BitVec 25)) (s : State) : Out :=
  issue (stWord x z d a w (immM i lit (sizeBytes z))) s

/-! Gathers and scatters (R299, R408). -/

/-- Is the group's next chain the one whose gather is pending under PLM (R299)? A handler runs deeper. -/
def plmMine (g : Group) : Bool := g.plmAt == some (g.pc, g.depth)

/-- The lanes that a gather runs for: the pending ones of its earlier part, else all (R299). -/
def gatherLanes (g : Group) : List Nat := lanesOf (if plmMine g then g.active &&& g.plm else g.active)

/-- A gather or scatter: its faultless lanes commit, and the others become the pending-lane mask (R299). -/
def gatherWord (base : WordOut) (a : Nat) (imm : Dword) (z : Nat) (acc : Acc) (run : List LaneAt → State → State)
    (g : Group) (s : State) : WordOut :=
  let las := (gatherLanes g).map fun l => addressAt s g l (g.v64 a l + imm) z acc
  let ok := las.filter fun e => (laneFault g z acc e).isNone
  let bad := las.filter fun e => (laneFault g z acc e).isSome
  let done : State → State := if plmMine g then onCur fun live => { live with plm := 0, plmAt := none } else id
  let m := bad.foldl (fun m e => m ||| laneMask e.lane) 0
  { accessWord base g z acc las (fun s => done (run las s)) with
    stall := accessHeld s las
    onFault := if base.raises.isEmpty && !bad.isEmpty then
        fun s => onCur (fun live => { live with plm := m, plmAt := some (g.pc, g.depth) }) (run ok s)
      else id }

/-- R408. Gather load with per-lane commit. -/
def execLdg (_c x : Bool) (z : BitVec 3) (d a : BitVec 7) (i : BitVec 4) (lit : Option (BitVec 25)) (s : State) : Out :=
  issue (fun g s => gatherWord (regWord s g x [dataVR x d z g] [vr x a g 2 2]) (ea x a g) (immM i lit (sizeBytes z)) (sizeBytes z) .load
    (runLoads (ea x d g) z) g s) s

/-- R408. Scatter store with per-lane commit. -/
def execStg (_c x : Bool) (z : BitVec 3) (d a : BitVec 7) (i : BitVec 4) (lit : Option (BitVec 25)) (s : State) : Out :=
  issue (fun g s => gatherWord (regWord s g x [] [dataVR x d z g, vr x a g 2 2]) (ea x a g) (immM i lit (sizeBytes z)) (sizeBytes z) .store
    (runStores (sizeBytes z) fun l => laneData g (ea x d g) l (sizeRegs z)) g s) s

/-! Scratchpad loads and stores (R409). -/

/-- The lanes of a scratchpad access. -/
def scratchLanes (s : State) (g : Group) (a : Nat) (imm : Dword) (z : Nat) : List LaneAt :=
  (lanesOf g.active).map fun l => scratchAt s l ((g.v a l).setWidth 64 + imm) z

/-- A scratchpad access of the lanes. -/
def scratchWord (base : WordOut) (a : Nat) (imm : Dword) (z : Nat) (acc : Acc) (run : List LaneAt → State → State) (g : Group)
    (s : State) : WordOut :=
  let las := scratchLanes s g a imm z
  { accessWord base g z acc las (run las) with stall := accessHeld s las }

/-- R409. Scratchpad load. -/
def execLds (_c x : Bool) (z : BitVec 3) (d a : BitVec 7) (i : BitVec 4) (lit : Option (BitVec 25)) (s : State) : Out :=
  issue (fun g s => scratchWord (regWord s g x [dataVR x d z g] [vr x a g 1 1]) (ea x a g) (immM i lit (sizeBytes z)) (sizeBytes z) .load
    (runLoads (ea x d g) z) g s) s

/-- R409. Scratchpad store. -/
def execSts (_c x : Bool) (z : BitVec 3) (d a : BitVec 7) (i : BitVec 4) (lit : Option (BitVec 25)) (s : State) : Out :=
  issue (fun g s => scratchWord (regWord s g x [] [dataVR x d z g, vr x a g 1 1]) (ea x a g) (immM i lit (sizeBytes z)) (sizeBytes z) .store
    (runStores (sizeBytes z) fun l => laneData g (ea x d g) l (sizeRegs z)) g s) s

/-! Uniform loads (R410). -/

/-- One part of a uniform load into scalars. -/
def uloadPart (d : Nat) (mask : Word) (va : Dword) (tg : Target) (p : Nat × Nat × Nat × BitVec 3) (s : State) : State :=
  let (o, n, ro, code) := p
  let regs := (List.range (sizeRegs code)).map fun i => RegId.scl (d + ro + i)
  let req (sp : ReqSpace) (pa : Nat) (fill : Bool) : Req :=
    { group := 0, core := 0, lane := lowLane mask, op := .uload (d + ro), space := sp, pa := pa, va := va + BitVec.ofNat 64 o,
      size := n, fill := fill, data := mask.setWidth 128 }
  let t := curTeam s
  match tg with
  | .scratch off => onCur (fun g => g.setScalars (d + ro) (loadWords code (scrRead t (off + o) n))) s
  | .phys pa tr =>
    let s := keepTr t.core tr s
    match (if isHbm pa then l1Line s t.core pa else none) with
    | some l => onCur (fun g => g.setScalars (d + ro) (loadWords code (lineNat l ((pa + o) % 64) n))) s
    | none => addLoad (req (spaceOf pa) (pa + o) (isHbm pa)) regs s
  | .remote h off => addLoad (req (.remote h) (off + o) false) regs s
  | _ => s

/-- The size code of a uniform load of FN `z`: 4, 5 or 6 (R410). -/
def ldcCode (z : BitVec 4) : BitVec 3 := z.setWidth 3

/-- `ldc` (R410). -/
def ldcWord (z : BitVec 4) (d a b : BitVec 6) (g : Group) (s : State) : WordOut :=
  let code := ldcCode z
  let n := sizeBytes code
  let va := g.s64 a.toNat + (g.s b.toNat).setWidth 64
  let m := g.uniformMask
  let tg := checkTarget s (curTeam s) (resolve s (curTeam s) (!g.sup) va n .load) n .load
  let f := if va.toNat % n ≠ 0 then some (.inl { cause := .align, mask := m, addr := va }) else uniformFault g tg va .load
  let base : WordOut :=
    { stall := accessHeld s [{ lane := 0, va := va, tg := tg }]
      uses := [.scl a.toNat, .scl (a.toNat + 1), .scl b.toNat]
      dests := (List.range (sizeRegs code)).map fun i => .scl (d.toNat + i)
      effect := fun s => (partsAt tg code n).foldl (fun s p => uloadPart d.toNat m va tg p s) s }
  uniformWord base g va f

/-- R410. Uniform load into scalars. -/
def execLdc (_c : Bool) (z : BitVec 4) (d a b : BitVec 6) (s : State) : Out := issue (ldcWord z d a b) s

/-! Atomics (R411 to R413). -/

/-- The registers of an atomic and the shared checks; `las` its lanes. -/
def atomWord (x ret : Bool) (o : BitVec 4) (d a : BitVec 7) (extra : List RegId) (las : List LaneAt) (pre : State → State)
    (g : Group) (s : State) : WordOut :=
  let base := regWord s g x [] [vr x d g (atomRegs o) (atomRegs o), vr x a g 1 1]
  { accessWord { base with
        uses := base.uses ++ extra
        dests := if ret then (List.range (atomRets o)).map fun i => .vec (ea x d g + i) else [] } g (atomSize o) .atomic las
      (fun s => runAtoms o ret (ea x d g) (fun l => laneData g (ea x d g) l (atomRegs o)) las (pre s)) with
    stall := accessHeld s las }

/-- R411. Per-lane atomic through a window at the home point. -/
def execAtom (_c x : Bool) (o : BitVec 4) (d a : BitVec 7) (w : BitVec 3) (_sb : BitVec 2) (r : BitVec 1) (s : State) : Out :=
  issue (fun g s =>
    let rw := readyWindow s g w.toNat
    atomWord x (r == 1) o d a [.win w.toNat] (windowLanes s g w.toNat rw (ea x a g) 0 (atomSize o) .atomic) (keepWindow w.toNat rw) g s) s

/-- R411. Per-lane atomic on the team's scratchpad. -/
def execAtoms (_c x : Bool) (o : BitVec 4) (d a : BitVec 7) (_sb : BitVec 2) (r : BitVec 1) (s : State) : Out :=
  issue (fun g s => atomWord x (r == 1) o d a [] (scratchLanes s g (ea x a g) 0 (atomSize o)) id g s) s

/-! Fences and cache control (R414 to R416). -/

/-- Is the value of an earlier load or atomic of the group still to come (R222)? -/
def loadsOut (s : State) : Bool := outstanding s s.cur fun r => r.op != .store && r.op != .prefetch

/-- Is an earlier access of the group still unacknowledged (R201, R222)? -/
def anyOut (s : State) : Bool := outstanding s s.cur fun r => r.op != .prefetch

/-- An acquire of the issuing group at a scope (R201, R222). -/
def acquireAt (sc : BitVec 2) (s : State) : State := if 2 ≤ sc.toNat then dropL1 (curTeam s).core s else s

/-- R222. Acquire fence at a scope. -/
def execFenceAcq (_c : Bool) (sb : BitVec 2) (s : State) : Out :=
  issue (fun _ st => { stall := loadsOut st, effect := acquireAt sb }) s

/-- R222. Release fence at a scope. -/
def execFenceRel (_c : Bool) (_sb : BitVec 2) (s : State) : Out := issue (fun _ st => { stall := anyOut st }) s

/-- R223. Acquire-release fence, totally ordered among inclusive scopes. -/
def execFenceAr (_c : Bool) (sb : BitVec 2) (s : State) : Out :=
  issue (fun _ st => { stall := anyOut st, effect := acquireAt sb }) s

/-- R414. Invalidate the core's L1. -/
def execCinv (_c : Bool) (s : State) : Out := issue (fun _ _ => { effect := fun s => dropL1 (curTeam s).core s }) s

/-- The LLC lines of a physical range, dirty ones written to HBM and left clean (R415). -/
def writeBack (lo hi : Nat) (m : Mem) : Mem :=
  m.llc.foldl (fun m e =>
    if e.2.dirty && decide (lo ≤ 64 * e.1) && decide (64 * e.1 < hi) then
      { writeLine e.1 e.2.data m with llc := Maps.set m.llc e.1 { e.2 with dirty := false } }
    else m) m

/-- The physical ranges of a virtual one, page by page, up to the first page that faults (R16, R197, R415): one that no request can reach, that
user mode may not access, or that lies beyond the address space. -/
def cwbRanges (s : State) (t : Team) (root : Nat) (user : Bool) : Nat → Nat → Nat → List (Nat × Nat) × Option (Nat × Target)
  | 0, _, _ => ([], none)
  | n + 1, va, hi =>
    if hi ≤ va then ([], none)
    else if 2 ^ 56 ≤ va then ([], some (va, .inlane .noncanon 0))
    else
      let nxt := min hi ((va / 65536 + 1) * 65536)
      match walk s.mem root va with
      | .leaf pte level =>
        let pa := tlbPa (tlbOf 0 va pte level) va
        if user && !bitN pte 5 then ([], some (va, .park .perm true 0))
        else if (isHbm pa && (domainOf s.mem pa).isNone) || !(isHbm pa || isPcie pa || isDev pa) then ([], some (va, .nophys pa))
        else let (rs, f) := cwbRanges s t root user n nxt hi; ((pa, pa + (nxt - va)) :: rs, f)
      | .invalid _ _ ft => ([], some (va, if ft then touchTarget s t else .park .notmapped true 0))
      | .bad level => ([], some (va, .park .badpte false level))
      | .nophys a => ([], some (va, .nophys a))

/-- `cwb` (R415). -/
def cwbWord (d a : BitVec 6) (g : Group) (s : State) : WordOut :=
  let b := g.s64 d.toNat
  let len := (g.s a.toNat).toNat
  let base : WordOut := { uses := [.scl d.toNat, .scl (d.toNat + 1), .scl a.toNat] }
  let tag := vaTag b
  if len = 0 then base
  else if tag ≠ 0 ∧ tag ≠ 0xFF then uniformWord base g b (uniformFault g (.inlane .noncanon 0) b .load)
  else if tag = 0xFF ∧ g.sup = false then uniformWord base g b (uniformFault g (.inlane .perm 0) b .load)
  else
    let t := curTeam s
    let lo := vaLow b / 64 * 64
    let hi := (vaLow b + len + 63) / 64 * 64
    let (rs, f) := cwbRanges s t (ctxRoot s (if tag = 0xFF then 0 else t.ctx)) (!g.sup) (len / 65536 + 3) lo hi
    let write : State → State := fun s => onMem (fun m => rs.foldl (fun m r => writeBack r.1 r.2 m) m) s
    match f with
    | none => { base with effect := write }
    | some (va, tg) =>
      let va : Dword := BitVec.ofNat 64 (tag * 2 ^ 56 + va % 2 ^ 56)
      { uniformWord base g va (uniformFault g tg va .load) with onFault := write }

/-- R415. Write back dirty LLC lines of a virtual range. -/
def execCwb (_c : Bool) (d a : BitVec 6) (s : State) : Out := issue (cwbWord d a) s

/-- `pf` (R416): a lane that cannot be served does nothing. -/
def pfWord (x : Bool) (a : BitVec 7) (w : BitVec 3) (g : Group) (s : State) : WordOut :=
  let rw := readyWindow s g w.toNat
  let ok : Bool := match rw with
    | .inl win => win.r
    | .inr _ => false
  let las := if ok then windowLanes s g w.toNat rw (ea x a g) 0 4 .load else []
  let base := regWord s g x [] [vr x a g 1 1]
  { base with
    uses := base.uses ++ [.win w.toNat]
    effect := fun s => las.foldl (fun s e => match e.tg with
      | .phys pa tr =>
        if isHbm pa then
          addReq { group := 0, core := 0, lane := e.lane, op := .prefetch, space := .llc, pa := pa, va := e.va, size := 1,
                   fill := true } (keepTr (curTeam s).core tr s)
        else s
      | _ => s) (keepWindow w.toNat rw s) }

/-- R416. Prefetch lines into the L1. -/
def execPf (_c x : Bool) (a : BitVec 7) (w : BitVec 3) (s : State) : Out := issue (pfWord x a w) s

end Sys2Proof.Machine
end

