-- ==== Sys2Proof/Machine/Async.lean ====
section
/-! DEFINITION. Per-lane copies and their batch tags (R421 to R425), the issue of bulk copies (R426 to R428, R431), and
transaction barriers (R432, R433). -/

namespace Sys2Proof.Machine

/-- A fresh number for work that outlives its instruction. -/
def freshId (s : State) : Nat × State := (s.mem.nextId, onMem (fun m => { m with nextId := m.nextId + 1 }) s)

def Group.tagOf (g : Group) (t : Nat) : CopyTag := Maps.get {} g.cpTags t
def Group.setTag (g : Group) (t : Nat) (c : CopyTag) : Group := { g with cpTags := Maps.put {} g.cpTags t c }

/-! Per-lane copies. -/

/-- A lane's copy, as `cpa` finds it. -/
def laneCopy (g : Group) (d a : Nat) (w : BitVec 3) (z : Nat) (out : Bool) (k inst l : Nat) : LaneCopy :=
  { group := k, lane := l, tag := g.cpCur.toNat, inst := inst, toGlobal := out, size := z
    valid := min (g.v (a + 1) l).toNat z, scr := (g.v d l).toNat, win := g.window w.toNat, wnum := w.toNat
    off := (g.v a l).setWidth 64, sup := g.sup, pc := g.pc }

/-- What the lanes of a `cpa` raise (R421): ALIGN, the window that is not bound, the scratchpad range. Of a lane's addresses that of the
cause taken comes last, and is the one kept (R292, R297). -/
def cpaRaises (s : State) (g : Group) (d a : Nat) (w : BitVec 3) (z : Nat) : List (Raise × Nat × Dword) :=
  let win := g.window w.toNat
  (lanesOf g.active).flatMap fun l =>
    let sc := (g.v d l).toNat
    let o := (g.v a l).toNat
    let va := win.base + BitVec.ofNat 64 o
    let m := laneMask l
    (if o % z ≠ 0 then [({ cause := .align, mask := m, addr := va }, l, va)]
      else if sc % z ≠ 0 then [({ cause := .align, mask := m, addr := scrVa sc }, l, scrVa sc)] else []) ++
    (if win.bound && win.tag != 0xFD then [] else [(access .nowin m va w.toNat, l, va)]) ++
    (if (curTeam s).scr * 65536 < sc + z then [(access .scrbound m (scrVa sc), l, scrVa sc)] else [])

def cpaWord (x : Bool) (df af : BitVec 7) (w : BitVec 3) (size : BitVec 2) (out : Bool) (g : Group) (s : State) : WordOut :=
  let z := 4 * 2 ^ size.toNat
  let d := ea x df g
  let a := ea x af g
  let rs := cpaRaises s g d a w z
  let base := regWord s g x [] [vr x df g 1 1, vr x af g 2 1]
  let t := g.cpCur.toNat
  { base with
    stall := 63 ≤ (g.tagOf t).count
    uses := .win w.toNat :: base.uses
    raises := base.raises ++ rs.map (·.1)
    addrs := rs.reverse.map fun r => (r.2.1, r.2.2)
    effect := fun s =>
      if g.active = 0 then s
      else
        let (inst, s) := freshId s
        let s := (lanesOf g.active).foldl (fun s l =>
          let (id, s) := freshId s
          { s with copies := Maps.set s.copies id (laneCopy g d a w z out s.cur inst l) }) s
        onCur (fun live => live.setTag t { live.tagOf t with count := (live.tagOf t).count + 1 }) s }

/-- `cpseal` (R423). -/
def cpsealWord (g : Group) (_ : State) : WordOut :=
  let n := (g.cpCur.toNat + 1) % 4
  { stall := decide ((g.tagOf n).count ≠ 0)
    effect := onCur fun live => { live with cpCur := BitVec.ofNat 2 n }.setTag n {} }

/-- `cpwait` (R424). -/
def cpwaitWord (t : BitVec 2) (g : Group) (_ : State) : WordOut :=
  let c := g.tagOf t.toNat
  { await := decide (c.count ≠ 0)
    nexts := if c.fail then [raise .copyfault (if c.lost then g.active else c.fmask)] else []
    effect := onCur fun live => live.setTag t.toNat { count := (live.tagOf t.toNat).count } }

/-- `cpstat` (R425). -/
def cpstatVal (g : Group) : Word :=
  BitVec.ofNat 32 ((List.range 4).foldl (fun v t =>
    let c := g.tagOf t
    v + (min 63 c.count + (if c.fail then 64 else 0) + (if t = g.cpCur.toNat then 128 else 0)) * 2 ^ (8 * t)) 0)

/-- R421. Start per-lane copies between global memory and scratchpad. -/
def execCpa (_c x : Bool) (d a : BitVec 7) (w : BitVec 3) (sb : BitVec 2) (r : BitVec 1) (s : State) : Out :=
  issue (cpaWord x d a w sb (r = 1)) s

/-- R423. Close the current copy batch. -/
def execCpseal (_c : Bool) (s : State) : Out := issue (cpsealWord) s

/-- R424. Wait for a batch's copies and report failures. -/
def execCpwait (_c : Bool) (t : BitVec 2) (s : State) : Out := issue (cpwaitWord t) s

/-- R425. Read batch counts and flags. -/
def execCpstat (_c : Bool) (d : BitVec 6) (s : State) : Out :=
  issue (fun g _ => { dests := [.scl d.toNat], effect := onCur fun live => live.setS d.toNat (cpstatVal g) }) s

/-! The bulk copy descriptor (R427, R428, R431). -/

/-- Bytes of a descriptor as a number. -/
def descField (d : List Byte) (off n : Nat) : Nat := Maps.leNat ((d.drop off).take n)

def descDir (d : List Byte) : Bool := bitN (descField d 0 1) 0
def descEsz (d : List Byte) : Nat := bitsN (descField d 0 1) 3 1
def descEv (d : List Byte) : Bool := bitN (descField d 0 1) 4
def descNins (d : List Byte) : Nat := descField d 1 1
def descSp (d : List Byte) : Nat := descField d 4 4
def descQfmt (d : List Byte) : Nat := descField d 40 1 % 4
def descSrc (d : List Byte) : Nat := descField d 40 1 / 16 % 4
/-- The rotation's width, 1 for none (R427). -/
def descRot (d : List Byte) : Nat := match descField d 41 1 with
  | 0 => 1
  | n => 8 * 2 ^ n

/-- Micro-instruction `i`. -/
def micro (d : List Byte) (i : Nat) : Nat := descField d (64 + 8 * i) 8
/-- The micro-instructions before the COPY. -/
def micros (d : List Byte) : List Nat := (List.range (descNins d - 1)).map (micro d)
def microOp (w : Nat) : Nat := bitsN w 63 60
def microDim (w : Nat) : Nat := bitsN w 57 56
def microLoop (w : Nat) : Nat := bitsN w 53 52

/-- Is a micro-instruction other than COPY well formed (R428)? -/
def microOk (e w : Nat) : Bool :=
  match microOp w with
  | 1 => bitsN w 59 58 == 0
  | 2 => bitsN w 59 58 == 0 && bitsN w 55 48 == 0 && signedN 48 (bitsN w 47 0) % (e : Int) == 0
  | 3 => bitsN w 59 58 == 0 && bitsN w 55 54 == 0 && bitsN w 51 32 == 0
  | 4 => bitsN w 59 54 == 0 && bitsN w 51 32 == 0 && bitsN w 31 0 != 0
  | _ => false

/-- The loops opened, outermost first: number and count. -/
def descLoops (d : List Byte) : List (Nat × Nat) :=
  (micros d).filterMap fun w => if microOp w = 4 then some (microLoop w, bitsN w 31 0) else none

/-- The number of elements N. -/
def descN (d : List Byte) : Nat := (descLoops d).foldl (fun n l => n * l.2) 1

/-- The bits of an element at the destination (R430). -/
def descBits (quant : Bool) (d : List Byte) : Nat :=
  if quant then (if descQfmt d = 2 then 4 else 8) else 8 * 2 ^ descEsz d

/-- The bytes that the check of the destination range takes, N × e for both instructions (R426). -/
def descSpan (d : List Byte) : Nat := descN d * 2 ^ descEsz d

/-- The parts of a descriptor that both instructions check (R428). -/
def descCommonOk (d : List Byte) (gbase : Nat) : Bool :=
  let e := 2 ^ descEsz d
  descField d 0 1 / 32 == 0 && decide (descEsz d ≤ 4) && descField d 2 2 == 0 && descField d 8 4 / 2 ^ 16 % 64 == 0 && decide (1 ≤ descNins d) && decide (descNins d ≤ 16) &&
    micro d (descNins d - 1) == 5 * 2 ^ 60 && (micros d).all (microOk e) && decide ((descLoops d).map (·.1)).Nodup &&
    decide (descN d ≤ 0xFFFFFFFF) && gbase % e == 0 && descSp d % e == 0

/-- What only `cpq` checks (R427, R431). -/
def descQuantOk (d : List Byte) : Bool :=
  let q := descField d 40 1
  descField d 42 2 == 0 && descField d 52 12 == 0 && descField d 24 8 % 4 == 0 && descField d 32 8 % 4 == 0 &&
    decide (q % 4 ≠ 3) && q / 4 % 4 == 0 && decide (q / 16 < 3) && decide (descField d 41 1 ≤ 3) && descField d 44 4 % 16 == 0 &&
    !descDir d && descEsz d == (if descSrc d = 0 then 2 else 1) && descN d % descRot d == 0 &&
    (descQfmt d != 2 || descN d % 8 == 0)

def descOk (quant : Bool) (d : List Byte) (gbase : Nat) : Bool :=
  descCommonOk d gbase && (if quant then descQuantOk d else descField d 24 40 == 0)

/-- The scratchpad ranges of a copy beside its descriptor and barrier: offset and bytes (R426, R431). -/
def descRanges (quant : Bool) (d : List Byte) : List (Nat × Nat) :=
  (descSp d, descSpan d) ::
    (if quant then (descField d 44 4, 16) :: (if descQfmt d = 2 then [(descField d 48 4, descN d / 8)] else []) else [])

/-- The offsets of the ranges that reach beyond the scratchpad. -/
def beyond (t : Team) (rs : List (Nat × Nat)) : List Nat := (rs.filter fun r => decide (t.scr * 65536 < r.1 + r.2)).map (·.1)

def bulkWord (quant : Bool) (df af bf : BitVec 6) (g : Group) (s : State) : WordOut :=
  let t := curTeam s
  let gbase := g.s64 df.toNat
  let da := (g.s af.toNat).toNat
  let ba := (g.s bf.toNat).toNat
  let aligned := da % 64 == 0 && ba % 16 == 0
  let outer := beyond t [(da, 192), (ba, 16)]
  let readable := da % 64 == 0 && decide (da + 192 ≤ t.scr * 65536)
  let d := Maps.readBytes t.scratch da 192
  let ok := !readable || descOk quant d gbase.toNat
  let tagBad := decide (vaTag gbase ≠ 0 ∧ vaTag gbase ≠ 0xFF)
  let far := if readable && ok then beyond t (descRanges quant d) else []
  { stall := decide (64 ≤ (s.bulks.filter fun e => e.2.core == t.core).length) || outstanding s s.cur (fun r => r.space == .remote (handleOf s.cur))
    uses := [.scl df.toNat, .scl (df.toNat + 1), .scl af.toNat, .scl bf.toNat]
    raises := legal ok g ++
      (if aligned then [] else [{ cause := .align, mask := g.active, addr := scrVa (if da % 64 ≠ 0 then da else ba) }]) ++
      ((outer ++ far).take 1).map (fun o => access .scrbound g.active (scrVa o)) ++
      (if tagBad then [access .noncanon g.active gbase] else []) ++
      (if vaTag gbase = 0xFF ∧ !g.sup then [access .perm g.active gbase] else [])
    addrs :=
      let a := if !aligned then scrVa (if da % 64 ≠ 0 then da else ba) else match outer ++ far with
        | o :: _ => scrVa o
        | [] => gbase
      (lanesOf g.active).map fun l => (l, a)
    effect := fun s =>
      let (id, s) := freshId s
      { s with bulks := Maps.set s.bulks id {
          group := s.cur, slot := t.slot, core := t.core, team := handleOf s.cur, gen := t.gen, ctx := t.ctx, region := t.region, die := t.die
          quant := quant, gbase := gbase, bar := ba, desc := d, tag := g.tag.toNat % 4096, sup := g.sup, mask := g.active, pc := g.pc
          post := (Maps.get { bits := 0, addr := 0, ctx := 0, posted := 0, st := .bad } (dieAt s t.die).cards t.slot).posted } } }

/-- R426. Start a descriptor-driven bulk copy counted on a transaction barrier. -/
def execCpbulk (_c : Bool) (d a b : BitVec 6) (s : State) : Out := issue (bulkWord false d a b) s

/-- R431. Start a quantising bulk copy into scratchpad. -/
def execCpq (_c : Bool) (d a b : BitVec 6) (s : State) : Out := issue (bulkWord true d a b) s

/-! Transaction barriers (R432, R433). -/

/-- A transaction barrier's fields (R432). -/
structure TBar where
  arr    : Nat
  reset  : Nat
  sect   : Nat
  phase  : Nat
  fault  : Bool
  lfault : Bool
  arrovf : Bool
deriving DecidableEq, Repr

def TBar.read (n : Nat) : TBar :=
  { arr := bitsN n 19 0, reset := bitsN n 39 20, sect := bitsN n 71 40, phase := bitsN n 75 72
    fault := bitN n 77, lfault := bitN n 78, arrovf := bitN n 79 }

def TBar.num (b : TBar) : Nat :=
  let f (c : Bool) (i : Nat) : Nat := if c then 2 ^ i else 0
  b.arr + b.reset * 2 ^ 20 + b.sect * 2 ^ 40 + b.phase * 2 ^ 72 + f b.fault 77 + f b.lfault 78 + f b.arrovf 79

/-- The flip that ends a step at which both counts are zero (R433). -/
def TBar.flip (b : TBar) : TBar :=
  if b.arr = 0 ∧ b.sect = 0 then { b with lfault := b.fault, fault := false, phase := (b.phase + 1) % 16, arr := b.reset } else b

/-- The count that S[B] gives (R433). -/
def tbCount (b : Word) : Nat := let c := b.toNat % 2 ^ 20; if c = 0 then 1 else c

def TBar.init (c : Nat) (_ : TBar) : TBar := { arr := c, reset := c, sect := 0, phase := 0, fault := false, lfault := false, arrovf := false }
def TBar.arrive (c : Nat) (b : TBar) : TBar := if b.arr < c then { b with arr := 0, arrovf := true } else { b with arr := b.arr - c }
def TBar.expect (n : Nat) (b : TBar) : TBar := { b with sect := (b.sect + n) % 2 ^ 32 }
/-- A copy's step: its sectors taken off, its failure marked (R430). -/
def TBar.deliver (c : Nat) (bad : Bool) (b : TBar) : TBar := { b with sect := (b.sect + (2 ^ 32 - c % 2 ^ 32)) % 2 ^ 32, fault := b.fault || bad }

/-- The barrier at an offset of a team's scratchpad. -/
def tbarAt (t : Team) (o : Nat) : TBar := TBar.read (scrRead t o 16)

/-- One atomic step on it. -/
def tbarStep (o : Nat) (f : TBar → TBar) (t : Team) : Team := scrWrite o 16 (f (tbarAt t o)).flip.num t

/-- A TBAR word: the checks of R433. -/
def tbarWord (af bf : BitVec 6) (g : Group) (s : State) (w : WordOut) : WordOut :=
  let o := (g.s af.toNat).toNat
  let bad := beyond (curTeam s) [(o, 16)]
  { w with
    uses := [.scl af.toNat, .scl bf.toNat]
    raises := (if o % 16 = 0 then [] else [{ cause := .align, mask := g.active, addr := scrVa o }]) ++
      bad.map fun o => access .scrbound g.active (scrVa o)
    addrs := (lanesOf g.active).map fun l => (l, scrVa o) }

/-- A TBAR word that makes a step. -/
def tbarDo (af bf : BitVec 6) (f : Word → TBar → TBar) (g : Group) (s : State) : WordOut :=
  tbarWord af bf g s { effect := onCurTeam (tbarStep (g.s af.toNat).toNat (f (g.s bf.toNat))) }

/-- Has the barrier left the phase that S[B] names (R433)? -/
def tbarDone (b : TBar) (w : Word) : Bool := decide (b.phase ≠ w.toNat % 16)

def tbwaitWord (af bf : BitVec 6) (g : Group) (s : State) : WordOut :=
  let b := tbarAt (curTeam s) (g.s af.toNat).toNat
  tbarWord af bf g s {
    await := !tbarDone b (g.s bf.toNat)
    nexts := if b.phase = ((g.s bf.toNat).toNat + 1) % 16 ∧ b.lfault then [raise .copyfault g.active] else [] }

def tbtestVal (b : TBar) (w : Word) : Word :=
  BitVec.ofNat 32 ((if tbarDone b w then 1 else 0) + b.phase * 16 + (if b.lfault then 256 else 0) + (if b.arrovf then 512 else 0))

def tbtestWord (d af bf : BitVec 6) (g : Group) (s : State) : WordOut :=
  tbarWord af bf g s {
    dests := [.scl d.toNat]
    effect := onCur fun live => live.setS d.toNat (tbtestVal (tbarAt (curTeam s) (g.s af.toNat).toNat) (g.s bf.toNat)) }

/-- R433. Initialise a transaction barrier. -/
def execTbinit (_c : Bool) (a b : BitVec 6) (s : State) : Out := issue (tbarDo a b fun w => TBar.init (tbCount w)) s

/-- R433. Release and arrive at a transaction barrier. -/
def execTbarrive (_c : Bool) (a b : BitVec 6) (s : State) : Out :=
  issue (fun g st => { tbarDo a b (fun w => TBar.arrive (tbCount w)) g st with stall := outstanding st st.cur fun r => r.op != .prefetch }) s

/-- R433. Add expected sectors to a transaction barrier. -/
def execTbexpect (_c : Bool) (a b : BitVec 6) (s : State) : Out := issue (tbarDo a b fun w => TBar.expect w.toNat) s

/-- R433. Wait for a barrier phase to flip, then acquire. -/
def execTbwait (_c : Bool) (a b : BitVec 6) (s : State) : Out := issue (tbwaitWord a b) s

/-- R433. Test whether a barrier phase has flipped. -/
def execTbtest (_c : Bool) (d a b : BitVec 6) (s : State) : Out := issue (tbtestWord d a b) s

end Sys2Proof.Machine
end

