-- ==== Sys2Proof/Machine/System.lean ====
section
/-! DEFINITION. Supervisor instructions (R395 to R401): shootdowns, interleave domains, eviction, snapshots, first-touch
mapping. -/

namespace Sys2Proof.Machine

/-- A SYSM word: PRIV in user mode (R395). -/
def sysWord (g : Group) (w : WordOut) : WordOut := { w with raises := unless_ g.sup .priv g ++ w.raises }

/-! Shootdowns (R187, R396, R397). -/

/-- The page range of a shootdown: first byte and end, of the 56-bit half (R396). -/
def shootRange (base len : Dword) : Nat × Nat :=
  if len = 0 then (0, 2 ^ 56)
  else (vaLow base / 65536 * 65536, min (2 ^ 56) ((vaLow base + len.toNat + 65535) / 65536 * 65536))

/-- Every core's translations of a range dropped (R187). -/
def dropTlb (all : Bool) (asid lo hi : Nat) (s : State) : State :=
  { s with cores := Maps.mapAll s.cores fun _ c => { c with
      tlb := c.tlb.filter fun e => !((all || e.glob || e.asid == asid) && decide (e.page < hi) && decide (lo < e.page + e.size)) } }

/-- LIVE cleared in the windows that `p` picks (R187, R397). -/
def unliveWindows (p : Window → Bool) (s : State) : State :=
  let f (w : Window) : Window := if w.bound && w.tag != 0xFE && p w then { w with live := false } else w
  { s with
    groups := Maps.mapAll s.groups fun _ g => { g with windows := Maps.mapAll g.windows fun _ w => f w }
    copies := Maps.mapAll s.copies fun _ c => { c with win := f c.win } }

/-- Instruction caches and code translations of a range purged (R187). -/
def purgeCode (lo hi : Nat) (s : State) : State :=
  { s with
    cores := Maps.mapAll s.cores fun _ c => { c with icache := [] }
    groups := Maps.mapAll s.groups fun _ g => { g with
      codeTr := match g.codeTr with
        | some c => if c.page % 2 ^ 56 < hi ∧ lo < c.page % 2 ^ 56 + 65536 then none else some c
        | none => none } }

/-- A shootdown (R187). -/
def shootdown (all : Bool) (asid tag lo hi : Nat) (code : Bool) (s : State) : State :=
  let s := dropTlb all asid lo hi s
  let s := unliveWindows (fun w => w.tag.toNat == tag && decide (w.vbase.toNat < hi) && decide (lo < w.vbase.toNat + w.limit.toNat)) s
  if code then purgeCode lo hi s else s

/-- The requests under way, which a shootdown waits for (R187). -/
def inFlight (s : State) : List Nat := s.mem.net.map (·.1)

/-- The weight loads under way, each by its team and slot, whose addresses were translated at their issue (R187, R454). -/
def loadsInFlight (s : State) : List (Nat × Nat) := s.teams.flatMap fun e => (Maps.keys e.2.wslots fun _ w => w.loading).map fun n => (e.1, n)

/-- `tlbinv` (R396). -/
def tlbinvWord (d a b : BitVec 6) (g : Group) (_ : State) : WordOut :=
  let base := g.s64 d.toNat
  let w := g.s b.toNat
  let tag := vaTag base
  let (lo, hi) := shootRange base (g.s64 a.toNat)
  sysWord g {
    uses := [.scl d.toNat, .scl (d.toNat + 1), .scl a.toNat, .scl (a.toNat + 1), .scl b.toNat]
    raises := if tag = 0 ∨ tag = 0xFF then [] else [access .noncanon g.active base]
    addrs := if tag = 0 ∨ tag = 0xFF then [] else (lanesOf g.active).map fun l => (l, base)
    effect := fun s =>
      let s := shootdown (w.getLsbD 16) (w.toNat % 65536) tag lo hi (w.getLsbD 17) s
      if (inFlight s).isEmpty && (loadsInFlight s).isEmpty then s
      else onCur (fun live => { live with waiting := some (.drain (inFlight s) (loadsInFlight s)) }) s }

/-- `winv` (R397). -/
def winvWord (d a : BitVec 6) (g : Group) (_ : State) : WordOut :=
  let lo := (g.s64 d.toNat).toNat
  let len := (g.s64 a.toNat).toNat
  sysWord g {
    uses := [.scl d.toNat, .scl (d.toNat + 1), .scl a.toNat, .scl (a.toNat + 1)]
    effect := unliveWindows fun w => len == 0 || (decide (w.frame.toNat < lo + len) && decide (lo < w.frame.toNat + w.limit.toNat)) }

/-- R396. Device-wide TLB and window shootdown of a virtual range. -/
def execTlbinv (_c : Bool) (d a b : BitVec 6) (s : State) : Out := issue (tlbinvWord d a b) s

/-- R397. Clear LIVE in windows over a physical range. -/
def execWinv (_c : Bool) (d a : BitVec 6) (s : State) : Out := issue (winvWord d a) s

/-! Interleave domains (R210, R212, R398). -/

/-- IDWk with MCMASK replaced by its current value (R398). -/
def withMcmask (new old : Nat) : Nat := new - bitsN new 43 20 * 2 ^ 20 + bitsN old 43 20 * 2 ^ 20

/-- Is a domain switch refused (R398)? `v`: the new IDWk; `h`: the new HMASKk. -/
def domainRefused (m : Mem) (k v h : Nat) : Bool :=
  let slog := bitsN v 47 44
  let base := bitsN v 9 0
  let lim := bitsN v 19 10
  bitsN v 62 56 != 0 || bitsN h 63 40 != 0 || decide (8 < slog) || bitsN v 55 48 % 2 ^ slog != 0 ||
    decide (256 < bitsN v 55 48 + 2 ^ slog) ||
    (bitN v 63 && (decide (lim ≤ base) || decide (768 < lim))) ||
    (decide (base < lim) && (List.range 16).any fun j =>
      j != k && bitN (idwOf m j) 63 && decide (base < bitsN (idwOf m j) 19 10) && decide (bitsN (idwOf m j) 9 0 < lim))

/-- A switch joins the queue of switches (R398, R496). -/
def queueSwitch (x : DomSwitch) (s : State) : State := onMem (fun m => { m with domQueue := m.domQueue ++ [x] }) s

/-- `hmask` (R398). -/
def hmaskWord (k : BitVec 4) (a b : BitVec 6) (g : Group) (_ : State) : WordOut :=
  let n := a.toNat
  sysWord g {
    uses := (List.range 4).map fun i => .scl (n + i)
    dests := [.scl b.toNat]
    effect := fun s => onCur (fun live => { live with waiting := some (.domain b.toNat) })
      (queueSwitch { k := k.toNat, idw := g.s64 n, hmask := g.s64 (n + 2), phase := 0, group := some s.cur } s) }

/-- R398. Switch an interleave domain, or refuse. -/
def execHmask (_c : Bool) (k : BitVec 4) (a b : BitVec 6) (s : State) : Out := issue (hmaskWord k a b) s

/-! Eviction and restore (R97, R303, R305, R399). -/

/-- The failures of an eviction or restore that hold, as statuses (R399). -/
def evictFailures (s : State) (own : Nat) (c h : Nat) (restore : Bool) (tsa : Nat) : List Nat :=
  let st := if ctxValid s c then tltState s c h else 0
  if restore && (!ctxValid s c || ctxFaulted s c) then [5]
  else if st = 0 ∨ st = 3 ∨ h = own then [3]
  else
    (if st ≠ (if restore then 2 else 1) then [2] else []) ++
      (if !restore && (decide (hbmTop ≤ tsa) || tsa % 65536 != 0) then [4] else []) ++
      (if !restore && st == 1 && (teamAt s h).parkedCnt == 0 then [1] else [])

/-- One of several failures that hold together, none of which the spec puts first (log entry 8). -/
def pickStatus (xs : List Nat) (s : State) : Nat × State :=
  match xs with
  | [x] => (x, s)
  | xs => let (n, s) := draw s; ((xs[n % xs.length]?).getD 0, s)

/-- The launch of a team in its save area (R304): die pair and card slot. -/
def tsaLaunch (s : State) (tsa : Nat) : Nat × Nat :=
  let v := natAt s.mem (tsa + 8) 4
  (bitsN v 31 29, bitsN v 11 0)

/-- `evict` (R399). An eviction of a team that another eviction is saving waits for it (log entry 20). -/
def evictWord (d a b : BitVec 6) (g : Group) (s : State) : WordOut :=
  let v := (g.s a.toNat).toNat
  let h := v % 2 ^ 20
  let c := v / 2 ^ 20
  let w := (g.s64 b.toNat).toNat
  let restore := bitN w 0
  let tsa := w / 2 * 2
  sysWord g {
    uses := [.scl a.toNat, .scl b.toNat, .scl (b.toNat + 1)]
    dests := [.scl d.toNat]
    stall := g.sup && !restore && h != handleOf s.cur && tltState s c h == 1 && (teamAt s h).evicting.isSome
    effect := fun s =>
      let fs := evictFailures s (handleOf s.cur) c h restore tsa
      let done (st : Nat) (s : State) : State := onCur (fun live => live.setS d.toNat (BitVec.ofNat 32 st)) s
      match fs with
      | f :: rest => let (st, s) := pickStatus (f :: rest) s; done st s
      | [] =>
        if restore then
          let tsa := tltTsa s c h
          let (die, slot) := tsaLaunch s tsa
          done 0 (onDie die (fun x => { x with cards := Maps.modify x.cards slot fun k =>
            if (k.restores.any fun r => r.1 == h) then k else { k with restores := k.restores ++ [(h, tsa)] } }) s)
        else
          onCur (fun live => { live with waiting := some (.evict d.toNat) })
            (onTeam h (fun t => { t with evicting := some (tsa, s.cur) }) s) }

/-- R399. Evict a team to a save area or request its restore. -/
def execEvict (_c : Bool) (d a b : BitVec 6) (s : State) : Out := issue (evictWord d a b) s

/-- `snap` (R55, R400). -/
def snapWord (g : Group) : WordOut :=
  sysWord g { effect := fun s => { s with io := { s.io with triggers := s.io.triggers + 1 } } }

/-- R400. Send a snapshot trigger to the root. -/
def execSnap (_c : Bool) (s : State) : Out := issue (fun g _ => snapWord g) s

/-! First-touch mapping (R192, R193, R401). -/

/-- The leaf that maps a first-touch page: V, L, R, W, U (R184, R193). -/
def touchLeaf (frame : Nat) : Nat := frame + 0x2F

/-- A frame taken from a pool for the level-4 entry at an address; none where the pool holds nothing. Also whether COUNT
crossed LOW, and the new COUNT (R192, R193). -/
def takeFrame (c pool entry : Nat) (s : State) : Option (State × Bool × Nat) :=
  match poolOf s c pool with
  | none => none
  | some (pa, freebase, cnt, low, fill) =>
    if cnt = 0 then none
    else
      let frame := natAt s.mem (freebase + 8 * (cnt - 1)) 8 % 2 ^ 46 / 65536 * 65536
      let s := onMem (fun m =>
        let m := putNat m (pa + 8) 4 (cnt - 1)
        let m := if fill = 1 then storeRange m frame (List.replicate 65536 0) else m
        putNat m entry 8 (touchLeaf frame)) s
      some (s, decide (low ≤ cnt) && decide (cnt - 1 < low), cnt - 1)

/-- One address mapped as `pgmap` maps it: whether it ends mapped, and the state (R193, R401). -/
def touchMap (t : Team) (va : Dword) (lowRec : Nat → FaultRec) (s : State) : Bool × State :=
  match walk s.mem (ctxRoot s (if vaTag va = 0xFF then 0 else t.ctx)) (vaLow va) with
  | .leaf _ _ => (true, s)
  | .invalid 4 entry true =>
    let pool := effPool s t.ctx t.region
    if pool = 0 then (false, s)
    else match takeFrame t.ctx pool entry s with
      | none => (false, s)
      | some (s, crossed, cnt) => let r := lowRec cnt; (true, if crossed then record r.die r s else s)
  | _ => (false, s)

/-- The lanes of a `pgmap`, one after another: those left unmapped (R401). -/
def pgmapLanes (t : Team) (g : Group) : List Nat → Word → State → Word × State
  | [], m, s => (m, s)
  | l :: ls, m, s =>
    let va := Maps.get 0 g.faddr l
    if va = 0 then pgmapLanes t g ls m s
    else
      let (ok, s') := touchMap t va (fun cnt => groupRecord s s.cur 0 .poollow (laneMask l) g.pc va cnt) s
      pgmapLanes t g ls (if ok then m else m ||| laneMask l) s'

/-- `pgmap` (R401). -/
def pgmapWord (d : BitVec 6) (g : Group) (_ : State) : WordOut :=
  sysWord g {
    dests := [.scl d.toNat]
    effect := fun s =>
      let (m, s) := pgmapLanes (curTeam s) g (lanesOf g.active) 0 s
      onCur (fun live => live.setS d.toNat m) s }

/-- R401. Map first-touch pages for faulting lanes from the pool. -/
def execPgmap (_c : Bool) (d : BitVec 6) (s : State) : Out := issue (pgmapWord d) s

end Sys2Proof.Machine
end

