-- ==== Sys2Proof/Machine/Queues.lean ====
section
/-! DEFINITION. The rings that the device writes for software: fault queues (R68, R298, R497), and their interrupts (R40). -/

namespace Sys2Proof.Machine

/-! Interrupts (R40). -/

/-- A message to an interrupt file: identity `irq` becomes pending (R40). -/
def setPending (file irq : Nat) (s : State) : State :=
  { s with io := { s.io with imsic := Maps.put false s.io.imsic (file * 4096 + irq % 4096) (decide (irq % 4096 ≠ 0)) } }

/-- A queue's MSI at its control core, in the supervisor-level file (log entry 16). -/
def raiseMsi (cc irq : Nat) (s : State) : State :=
  setPending (16 + cc) irq { s with io := { s.io with msis := s.io.msis ++ [(cc, irq)] } }

/-! Rings with the indices of R68. -/

/-- Can the device reach a range of HBM (R16, R497)? -/
def reachable (m : Mem) (pa n : Nat) : Bool := (domainOf m pa).isSome && (domainOf m (pa + n - 1)).isSome

/-- A device's store that is dropped where it would leave the interleave domains (R16). -/
def storeReach (m : Mem) (pa : Nat) (bs : List Byte) : Mem := if reachable m pa bs.length then storeRange m pa bs else m

/-- A 64-byte record put into a ring of 2^(log + 6) slots at a physical base: dropped and counted in LOST when the ring is
full, else written, WRIDX after it. Also whether the ring went from empty to non-empty (R68). -/
def ringPut (base log : Nat) (rec_ : List Byte) (m : Mem) : Mem × Bool :=
  let cap := 2 ^ (log + 6) - 1
  let w := natAt m base 4
  let r := natAt m (base + 4) 4 % cap
  if (w + 1) % cap = r then (putNat m (base + 8) 4 (min 0xFFFFFFFF (natAt m (base + 8) 4 + 1)), false)
  else (putNat (storeReach m (base + 64 * (w + 1)) rec_) base 4 ((w + 1) % cap), decide (w = r))

/-! Fault queues. -/

/-- A fault record's bytes (R298). -/
def recordBytes (r : FaultRec) (seq : Word) : List Byte :=
  Maps.natLe r.cause.toNat 1 ++ Maps.natLe r.reason.code 1 ++ Maps.natLe (r.ctx % 4096) 2 ++ Maps.natLe r.region 2 ++
    Maps.natLe r.die 1 ++ Maps.natLe r.core 1 ++ Maps.natLe r.team.toNat 4 ++ Maps.natLe r.mask.toNat 4 ++
    Maps.natLe r.pc.toNat 8 ++ Maps.natLe r.addr.toNat 8 ++ Maps.natLe r.token.toNat 4 ++ Maps.natLe r.info.toNat 4 ++
    Maps.natLe seq.toNat 4 ++ List.replicate 20 0

/-- The fault queue of a region's domain: base, size code, control core, identity (R64, R65). -/
def fdq (s : State) (c h : Nat) : Nat × Nat × Nat × Nat :=
  (effField s c h 21 127 64, effField s c h 21 147 144, effField s c h 21 143 140, effField s c h 21 139 128)

/-- The fault queue that a record goes to (R497). -/
def queueOf (s : State) (r : FaultRec) : Nat × Nat × Nat × Nat :=
  let q := fdq s r.ctx (if r.toRoot then 0 else r.region)
  if q.1 = 0 then fdq s 0 0 else q

/-- A fault record written into its queue, dropped or discarded (R68, R497). -/
def writeRecord (r : FaultRec) (seq : Word) (s : State) : State :=
  let (base, log, cc, irq) := queueOf s r
  if base = 0 ∨ (domainOf s.mem base).isNone then s
  else
    let (m, first) := ringPut base log (recordBytes r seq) s.mem
    let s := { s with mem := m }
    if first then raiseMsi cc irq s else s

/-- The next record of a die identifier written. -/
def nextRecord (die : Nat) (s : State) : State :=
  match (dieAt s die).frecs with
  | [] => s
  | r :: rest =>
    let seq := (dieAt s die).fseq
    writeRecord r seq (onDie die (fun d => { d with frecs := rest, fseq := d.fseq + 1 }) s)

/-- R68. A fault record is written into its region's fault queue, or dropped and counted in LOST. -/
def execFaultRecordWrite (die : BitVec 4) (s : State) : Out :=
  if (dieAt s die.toNat).frecs.isEmpty then .refused .notDue else .next (nextRecord die.toNat s)

/-- The die identifiers with a record to write. -/
def recordsDue (s : State) : List Nat := Maps.keys s.dies fun _ d => !d.frecs.isEmpty

/-- The record of an engine or a device unit: no group, no core. -/
def unitRecord (die : Nat) (reason : Reason) (c region : Nat) (addr : Dword) (info : Nat) (toRoot : Bool) : FaultRec :=
  { cause := 0, reason := reason, ctx := c, region := region, die := die, core := 0xFF, addr := addr
    info := BitVec.ofNat 32 info, toRoot := toRoot }

end Sys2Proof.Machine
end

