-- ==== Sys2Proof/Machine/Contexts.lean ====
section
/-! DEFINITION. Context commands (R41 to R44) and the ways a context is marked faulted (R37, R43, R94). -/

namespace Sys2Proof.Machine

/-- A context marked faulted with a reason; FREASON keeps the first (R42). -/
def setFaulted (c : Nat) (r : Reason) (s : State) : State :=
  let s := setCtxField s c 3 3 1
  if ctxField s c 71 64 = 0 then setCtxField s c 71 64 r.code else s

/-- The resident teams that `p` picks, killed. -/
def killTeams (p : Nat → Team → Bool) (s : State) : State := (Maps.keys s.teams p).foldl (fun s h => killTeam h s) s

/-- An evicted team discarded (R43): its handle and its drift log, whose entries count as stray (R285). -/
def killEvicted (h : Nat) (s : State) : State :=
  match Maps.find s.saved h with
  | none => s
  | some t =>
    let s := stray t.ctx (natAt s.mem (tltTsa s t.ctx h + 20) 4) s
    let s := meshEnds true t (launchLoses t.die t.slot t.core s)
    let s := onDie t.die (fun d => { d with cards := Maps.modify d.cards t.slot fun c => { c with killed := true, restores := c.restores.filter fun r => r.1 != h } }) s
    freeHandle t.ctx h { s with saved := Maps.del s.saved h, savedGroups := s.savedGroups.filter fun e => handleOf e.1 != h }

/-- Has a launch begun: teams issued, instances of its draw tested, or its record found bad, after which it retires (R43, R102)? -/
def Card.begun (c : Card) : Bool :=
  c.placed || c.next != 0 || c.live != 0 || c.meshLive != 0 || c.cullNext != 0 || c.skipped || c.st == .bad || c.st == .engine

/-- The cards of a context that has been marked faulted (R43, R94, R302): with `queued`, a card that has issued nothing
goes, its successors not decremented; a launch that has begun loses the indices that it has not issued. -/
def dropCards (queued : Bool) (p : Nat → Card → Bool) (s : State) : State :=
  { s with dies := Maps.mapAll s.dies fun _ d => { d with
      cards := (d.cards.filter fun e => !(queued && p e.1 e.2 && !e.2.begun)).map fun e =>
        if p e.1 e.2 && e.2.st != .engine then (e.1, { e.2 with killed := true, lost := true, counted := true, count := e.2.next, cullDone := true }) else e } }

/-- Mesh groups and requests of launches that are lost (R302). -/
def dropMesh (s : State) : State :=
  { s with dies := Maps.mapAll s.dies fun _ d =>
      let lost (slot : Nat) : Bool := match Maps.find d.cards slot with
        | some c => c.lost
        | none => true
      { d with meshRing := d.meshRing.filter fun e => !lost e.slot, meshReqs := d.meshReqs.filter fun r => !lost r.slot
               meshOuts := d.meshOuts.filter fun r => !lost r.slot } }

/-- A context killed (R43). -/
def killContext (c : Nat) (s : State) : State :=
  let s := killTeams (fun _ t => t.ctx == c) s
  let s := (Maps.keys s.saved fun _ t => t.ctx == c).foldl (fun s h => killEvicted h s) s
  let s := dropMesh (dropCards true (fun _ k => k.ctx == c) s)
  let s := setFaulted c .killed s
  record 8 (unitRecord 8 .killed c 0 0 0 true) s

/-- The reserved fields of a context entry that are not zero (R42, R43). -/
def ctxReserved (s : State) (c : Nat) : Bool :=
  ctxField s c 511 448 != 0 || ctxField s c 127 72 != 0 || ctxField s c 63 32 != 0 || ctxField s c 15 4 != 0

/-- Is another valid context of class hearth there (R43)? -/
def hearthExists (s : State) (c : Nat) : Bool :=
  (List.range 4096).any fun d => d != c && ctxValid s d && ctxClass s d == 0

/-- Does anything of a context remain (R43)? -/
def ctxBusy (s : State) (c : Nat) : Bool :=
  (s.teams.any fun e => e.2.ctx == c) || (s.saved.any fun e => e.2.ctx == c) ||
    s.dies.any fun d => d.2.cards.any fun e => e.2.ctx == c

/-- The status of a context command and the state after it (R43). -/
def ctxCommand (op c : Nat) (s : State) : Nat × State :=
  if op = 3 then (5, s)
  else if c = 0 ∨ ctxValid s c = (op == 0) then (4, s)
  else match op with
  | 0 =>
    if ctxReserved s c then (2, s)
    else if ctxClass s c = 0 ∧ hearthExists s c then (1, s)
    else (0, setCtxField (setCtxField (setCtxField (setCtxField s c 383 320 0) c 71 64 0) c 3 3 0) c 0 0 1)
  | 1 => (0, killContext c s)
  | _ =>
    if ctxBusy s c then (3, s)
    else
      let asid := ctxAsid s c
      let s := setCtxField s c 0 0 0
      let s := { s with cores := Maps.mapAll s.cores fun _ k => { k with tlb := k.tlb.filter fun e => e.asid != asid } }
      (0, s)

/-- A write of CTXCMD (R43): the command runs, and the register keeps OP, INDEX and the status. -/
def writeCtxcmd (w : Word) (s : State) : State :=
  let op := bitsN w.toNat 25 24
  let c := w.toNat % 4096
  let (st, s) := ctxCommand op c s
  { s with io := { s.io with ctxcmd := BitVec.ofNat 32 (st * 2 ^ 28 + op * 2 ^ 24 + c) } }

/-- R43. CTXCMD operation 0 checks a context table entry and sets VALID. -/
def execCtxCreate (w : BitVec 32) (s : State) : Out :=
  if bitsN w.toNat 25 24 = 0 then .next (writeCtxcmd w s) else .refused .notDue

/-- R43. CTXCMD operation 1 kills a context. -/
def execCtxKill (w : BitVec 32) (s : State) : Out :=
  if bitsN w.toNat 25 24 = 1 then .next (writeCtxcmd w s) else .refused .notDue

/-- R43. CTXCMD operation 2 destroys a context. -/
def execCtxDestroy (w : BitVec 32) (s : State) : Out :=
  if bitsN w.toNat 25 24 = 2 then .next (writeCtxcmd w s) else .refused .notDue

end Sys2Proof.Machine
end

