-- ==== Sys2Proof/Machine/Engine.lean ====
section
/-! DEFINITION. Reads and writes that an engine or the die sequencer makes in a card's or a group's context (R16, R197,
R307), and what it makes of those that fail. -/

namespace Sys2Proof.Machine

/-- Why an engine's access fails: the reason, its INFO (R298), and for NOPHYS the physical address. -/
structure TrFault where
  reason : Reason
  info   : Nat := 0
  pa     : Option Nat := none
deriving DecidableEq, Repr

/-- The translation of an address for an engine acting in a context: the physical address, or the fault (R181 to R184, R197). A
supervisor-half address serves context 0 only. `inp`: the butterfly input of the engine. -/
def engineTr (s : State) (inp c : Nat) (va : Dword) (write : Bool) : Except TrFault Nat :=
  if vaTag va ≠ 0 ∧ vaTag va ≠ 0xFF then .error { reason := .noncanon }
  else if vaTag va = 0xFF ∧ c ≠ 0 then .error { reason := .perm, info := if write then 1 else 0 }
  else if let some n := walkLost s inp (ctxRoot s c) (vaLow va) then .error { reason := .linkdown, info := n }
  else match walk s.mem (ctxRoot s c) (vaLow va) with
    | .leaf pte level =>
      let pa := tlbPa (tlbOf 0 (vaLow va) pte level) (vaLow va)
      if !(if write then bitN pte 3 else bitN pte 2) then .error { reason := .perm, info := if write then 1 else 0 }
      else if !isHbm pa ∨ (domainOf s.mem pa).isNone then .error { reason := .nophys, pa := some pa }
      else if write then match viewOf s.mem pa with
        | some v => .error { reason := .fwwrite, info := v }
        | none => .ok pa
      else .ok pa
    | .invalid _ _ _ => .error { reason := .notmapped }
    | .bad level => .error { reason := .badpte, info := level }
    | .nophys a => .error { reason := .nophys, pa := some a }

/-- The parts of a range by 64 KiB page: address and bytes. At most `fuel` parts. -/
def pageParts : Nat → Nat → Nat → List (Nat × Nat)
  | 0, _, _ => []
  | f + 1, a, n => if n = 0 then [] else
      let k := min n (65536 - a % 65536)
      (a, k) :: pageParts f (a + k) (n - k)

def partsOf (va : Dword) (n : Nat) : List (Nat × Nat) := pageParts (n / 65536 + 2) va.toNat n

/-- The butterfly input of a die's engines; on an I/O die it is the serialiser's (R205). -/
def enginePort (d : Nat) : Nat := if d < 8 then 192 + d else 252

/-- The bytes of a virtual range, or the reason and the address of the first part that fails: bytes that no way leads to any more, poisoned
bytes, or an error that a second read does not get past, fail as they do for a group (R32, R59, R60, log entry 15). `d`: the engine's
die. -/
def engineRead (s : State) (d c : Nat) (va : Dword) (n : Nat) : Except (Reason × Dword) (List Byte) :=
  (partsOf va n).foldl (fun r p => match r with
    | .error e => .error e
    | .ok bs =>
      let a : Dword := BitVec.ofNat 64 p.1
      match engineTr s (enginePort d) c a false with
      | .error e => .error (e.reason, a)
      | .ok pa =>
        if (lostLink s (enginePort d) pa p.2).isSome then .error (.linkdown, a)
        else if rangeErr s.mem pa p.2 ≠ 0 then .error (.ecc, a)
        else if poisoned s.mem pa p.2 then .error (.poison, a)
        else .ok (bs ++ bytesAt s.mem pa p.2)) (.ok [])

/-- What a read by an engine leaves: its flits counted, the errors of the lines met, the lines counted at their slices, part by part up to
the first that is not reached (R25, R56, R58 to R60). -/
def engineMeet (d c : Nat) (va : Dword) (n : Nat) (s : State) : State :=
  ((partsOf va n).foldl (fun (a : Bool × State) p =>
    match engineTr a.2 (enginePort d) c (BitVec.ofNat 64 p.1) false with
    | .error _ => (true, a.2)
    | .ok pa =>
      if a.1 || (lostLink a.2 (enginePort d) pa p.2).isSome then (true, a.2)
      else (rangeErr a.2.mem pa p.2 != 0, readVia (enginePort d) 2 pa p.2 a.2)) (false, s)).2

/-- Bytes written to a virtual range part by part, up to the first part that fails. -/
def engineWrite (d c : Nat) (va : Dword) (bs : List Byte) (s : State) : Except (Reason × Dword) Unit × State :=
  let (r, _, s) := (partsOf va bs.length).foldl (fun (a : Except (Reason × Dword) Unit × List Byte × State) p =>
    let (r, rest, s) := a
    match r with
    | .error _ => a
    | .ok _ =>
      let va : Dword := BitVec.ofNat 64 p.1
      match engineTr s (enginePort d) c va true with
      | .error e => (.error (e.reason, va), rest, s)
      | .ok pa =>
        if (lostLink s (enginePort d) pa p.2).isSome then (.error (.linkdown, va), rest, s)
        else (.ok (), rest.drop p.2, writeVia (enginePort d) 2 pa (rest.take p.2) s)) (.ok (), bs, s)
  (r, s)

/-- The reason and address of a read's failure. -/
def readFault {α : Type} (r : Except (Reason × Dword) α) : Option (Reason × Dword) :=
  match r with
  | .error e => some e
  | .ok _ => none

/-- The bytes of a read, none where it failed. -/
def readBytes {α : Type} (d : α) (r : Except (Reason × Dword) α) : α :=
  match r with
  | .error _ => d
  | .ok x => x

end Sys2Proof.Machine
end

