-- ==== Sys2Proof/Machine/Delivery.lean ====
section
/-! DEFINITION. Register delivery and messages as a group issues them (R271 to R289, R438 to R444): awaiting bits,
capabilities, sends, rings. What happens at relays and target cores is in Relay.lean. -/

namespace Sys2Proof.Machine

/-! Awaiting bits (R271, R272, R438). -/

/-- The mask of `n` registers from `r`. -/
def awaitMask (r n : Nat) : BitVec 256 := BitVec.ofNat 256 ((2 ^ n - 1) * 2 ^ r)

/-- Is a register of a range still to be written by an earlier instruction (R157)? -/
def rangePending (g : Group) (r n : Nat) : Bool := (List.range n).any fun i => g.pending.any fun p => p.1 == .vec (r + i)

def rarmWord (x : Bool) (af : BitVec 7) (n : BitVec 3) (g : Group) (s : State) : WordOut :=
  let r := vr x af g (n.toNat + 1) 1
  { stall := rangePending g r.first r.count
    raises := vrRaises s g r, uses := if x then [.ix] else []
    effect := onCur fun live => { live with await := live.await ||| awaitMask r.first r.count } }

def rdisarmWord (x : Bool) (af : BitVec 7) (n : BitVec 3) (g : Group) (s : State) : WordOut :=
  let r := vr x af g (n.toNat + 1) 1
  { raises := vrRaises s g r, uses := if x then [.ix] else []
    effect := onCur fun live => { live with await := live.await &&& ~~~awaitMask r.first r.count } }

/-- The awaiting bits of 32 registers, 0 at or above the allotment (R438). -/
def rtestVal (g : Group) (r allot : Nat) : Word := maskOf fun i => decide (r + i < allot) && g.await.getLsbD (r + i)

def rtestWord (x : Bool) (d : BitVec 6) (af : BitVec 7) (g : Group) (s : State) : WordOut :=
  let r := vr x af g 1 1
  { raises := vrRaises s g r, uses := if x then [.ix] else [], dests := [.scl d.toNat]
    effect := onCur fun live => live.setS d.toNat (rtestVal live r.first (allot s)) }

def rtestCountWord (d : BitVec 6) (_ : Group) (_ : State) : WordOut :=
  { dests := [.scl d.toNat], effect := onCur fun live => { live.setS d.toNat live.ovwc with ovwc := 0 } }

/-- R438. Set awaiting bits of a register range. -/
def execRarm (_c x : Bool) (a : BitVec 7) (n : BitVec 3) (s : State) : Out := issue (rarmWord x a n) s

/-- R438. Clear awaiting bits of a register range. -/
def execRdisarm (_c x : Bool) (a : BitVec 7) (n : BitVec 3) (s : State) : Out := issue (rdisarmWord x a n) s

/-- R438. Report awaiting bits of 32 registers. -/
def execRtest (_c x : Bool) (d : BitVec 6) (a : BitVec 7) (s : State) : Out := issue (rtestWord x d a) s

/-- R438. Read and clear the overwrite counter. -/
def execRtestCount (_c : Bool) (d : BitVec 6) (s : State) : Out := issue (rtestCountWord d) s

/-! Capabilities (R273 to R275). -/

def rncGen (r : Dword) : Nat := bitsN r.toNat 63 52
def rncHandle (r : Dword) : Nat := bitsN r.toNat 51 32
def rncGroup (r : Dword) : Nat := bitsN r.toNat 31 27
def rncReg (r : Dword) : Nat := bitsN r.toNat 26 19
def rncWidth (r : Dword) : Nat := bitsN r.toNat 18 17
def rncLmode (r : Dword) : Nat := bitsN r.toNat 16 15
def rncRel (r : Dword) : Bool := bitN r.toNat 14
def rncCheck (r : Dword) : Nat := bitsN r.toNat 13 0

/-- The registers that an arrival covers, by WIDTH (R274). -/
def rncRegs (width : Nat) : Nat := match width with
  | 1 => 2
  | 2 => 4
  | _ => 1

/-- One round of R275 over (L, Rt). -/
def checkRound (key : Nat) (i : Nat) (p : Nat × Nat) : Nat × Nat :=
  let (l, r) := p
  let k := ((BitVec.ofNat 64 key).rotateRight (16 * i)).toNat % 2 ^ 32
  let t := Nat.xor (((BitVec.ofNat 32 (r + k)).rotateLeft 5).toNat) (r * 0x6C8E9CF5 % 2 ^ 32)
  (r, Nat.xor l t)

/-- The check code of a capability's upper bits under a key (R275). -/
def checkCode (key : Nat) (rnc : Dword) : Nat :=
  let x := rnc.toNat / 2 ^ 14
  ((List.range 4).foldl (fun p i => checkRound key i p) (x / 2 ^ 32, x % 2 ^ 32)).2 % 2 ^ 14

/-- The combinations of R274. -/
def rncValid (width lmode grp reg : Nat) : Bool :=
  match width with
  | 0 => lmode != 3 || (grp == 0 && decide (reg ≤ 7))
  | 1 => reg % 2 == 0 && decide (lmode ≤ 2)
  | 2 => reg % 4 == 0 && decide (lmode ≤ 2)
  | _ => lmode == 2

/-- What `mkcap` makes of S[A] (R439). -/
def mintCap (s : State) (t : Team) (h : Nat) (a : Word) : Dword :=
  let r := BitVec.ofNat 64 (a.toNat / 2 ^ 14 * 2 ^ 14 + h % 2 ^ 20 * 2 ^ 32 + tltGen s t.ctx h % 2 ^ 12 * 2 ^ 52)
  r + BitVec.ofNat 64 (checkCode (ctxCapkey s t.ctx) r)

def mkcapWord (d a : BitVec 6) (g : Group) (s : State) : WordOut :=
  let t := curTeam s
  let r := mintCap s t (handleOf s.cur) (g.s a.toNat)
  let w := rncWidth r
  let ok := rncValid w (rncLmode r) (rncGroup r) (rncReg r) && decide (rncGroup r < t.ngroups) &&
    decide (rncReg r + rncRegs w ≤ t.regs)
  { uses := [.scl a.toNat], dests := [.scl d.toNat, .scl (d.toNat + 1)]
    raises := unless_ ok .capability g
    effect := onCur fun live => live.setS64 d.toNat r }

/-- `rrevoke` (R276, R441). -/
def rrevokeWord (d : BitVec 6) (_ : Group) (_ : State) : WordOut :=
  { dests := [.scl d.toNat]
    effect := fun s =>
      let t := curTeam s
      let h := handleOf s.cur
      let gen := tltGen s t.ctx h + 1
      if 0xFFF ≤ gen then onCur (fun live => live.setS d.toNat 1) s
      else onCur (fun live => live.setS d.toNat 0)
        (setTlt t.ctx h (tltTsa s t.ctx h) (tltState s t.ctx h) (tltMove s t.ctx h) gen (tltCore s t.ctx h) s) }

/-- R439. Mint a register-naming capability. -/
def execMkcap (_c : Bool) (d a : BitVec 6) (s : State) : Out := issue (mkcapWord d a) s

/-- R441. Advance the team's GEN, revoking its capabilities. -/
def execRrevoke (_c : Bool) (d : BitVec 6) (s : State) : Out := issue (rrevokeWord d) s

/-! Sends (R277 to R279, R440). -/

/-- The sender lanes (R277). -/
def sendLanes (lmode k : Nat) : Word := match lmode with
  | 0 => laneMask k
  | 1 => BitVec.ofNat 32 (0xFF * 2 ^ (8 * (k / 8)))
  | 2 => BitVec.allOnes 32
  | _ => 0

/-- The words that a send takes (R277): inactive lanes of a vector send are zero. -/
def sendWords (g : Group) (a width lmode k : Nat) : List (Nat × Word) :=
  (List.range (rncRegs width)).flatMap fun i => (lanesOf (sendLanes lmode k)).map fun l =>
    (i * 32 + l, if width = 3 ∧ !g.on l then 0 else g.v (a + i) l)

/-- The package that a target word names, none for the sender's own (R286, R440). -/
def otherPackage (s : State) (named : Bool) (pkg : Nat) : Option Nat :=
  if named && s.boot.pkg != some (BitVec.ofNat 10 pkg) then some pkg else none

/-- The scope of a release send (R233). -/
def sendScope (s : State) (rnc : Dword) (remote : Option Nat) : BitVec 2 :=
  if remote.isSome then 3 else if rncHandle rnc = handleOf s.cur then 1 else 2

/-- What a `.t` send raises for its status, in the sending lanes that are active or, where none is, in those of a uniform fault (R279,
R403). -/
def sendRaises (mask : Word) (code : Nat) (g : Group) : List Raise :=
  let m := if mask = 0 then g.uniformMask else mask
  if code = 3 then [raise .overwrite m] else if code = 4 then [raise .capability m] else []

/-- A register send (R277, R440). A `.t` form waits, its chain with it, for the status: the chain then ends, or raises what the status says
and is left without effect (R279, R290). -/
def rsendWord (rel tr x : Bool) (n : BitVec 6) (af : BitVec 7) (k : BitVec 5) (g : Group) (s : State) : WordOut :=
  let i := n.toNat
  let rnc := g.s64 i
  let t := curTeam s
  let a := ea x af g
  let w := rncWidth rnc
  let tgt := (g.s (i + 2)).toNat
  let base := regWord s g x [] [vr x af g (rncRegs w) 1]
  let mask := sendLanes (rncLmode rnc) k.toNat &&& g.active
  let send (s : State) : State :=
    let (id, s) := freshId s
    let remote := otherPackage s (bitN tgt 31) (tgt % 2 ^ 10)
    let sd : Send := {
      group := s.cur, msg := false, sreg := i + 2, trap := tr, rel := rel, rnc := rnc, k := k.toNat, lmask := g.active
      words := sendWords g a w (rncLmode rnc) k.toNat, bytes := [], ctx := t.ctx, remote := remote
      scope := sendScope s rnc remote, mask := mask, pc := g.pc, inp := t.core }
    onCur (fun live => { live.mark [.scl (i + 2)] id with waiting := if tr then some (.send id) else live.waiting })
      { s with sends := Maps.set s.sends id sd }
  match tr, g.waiting with
  | true, some (.sendDone code) =>
    let end_ : State → State := onCur fun live => { live with waiting := none, tileSrc := none }
    { raises := sendRaises mask code g, effect := end_, onFault := end_ }
  | _, _ =>
    { base with
      stall := rel && anyOut s
      uses := base.uses ++ [.scl i, .scl (i + 1), .scl (i + 2)]
      dests := [.scl (i + 2)]
      await := tr
      starts := tr
      onAwait := fun s => onCur (fun live => { live with tileSrc := some (g.vregs, g.sregs) }) (send s)
      effect := send }

/-- R440. Relaxed register send under a capability. -/
def execRsend (_c x : Bool) (d : BitVec 6) (a : BitVec 7) (k : BitVec 5) (s : State) : Out :=
  issue (rsendWord false false x d a k) s

/-- R440. Register send that waits for and traps on a failing status. -/
def execRsendT (_c x : Bool) (d : BitVec 6) (a : BitVec 7) (k : BitVec 5) (s : State) : Out :=
  issue (rsendWord false true x d a k) s

/-- R440. Release register send. -/
def execRsendRel (_c x : Bool) (d : BitVec 6) (a : BitVec 7) (k : BitVec 5) (s : State) : Out :=
  issue (rsendWord true false x d a k) s

/-- R440. Release register send that traps on a failing status. -/
def execRsendRelT (_c x : Bool) (d : BitVec 6) (a : BitVec 7) (k : BitVec 5) (s : State) : Out :=
  issue (rsendWord true true x d a k) s

/-! Message rings (R287 to R289, R442 to R444). -/

def ringOf (t : Team) (r : Nat) : Ring := Maps.get {} t.rings r
def slotBytes (r : Ring) : Nat := 16 * (r.slot + 1)

def setRing (n : Nat) (r : Ring) (t : Team) : Team := { t with rings := Maps.set t.rings n r }

def mringWord (rf : BitVec 3) (a b : BitVec 6) (g : Group) (s : State) : WordOut :=
  let n := rf.toNat
  let base := (g.s a.toNat).toNat
  let cfg := (g.s b.toNat).toNat
  let log := cfg % 16
  let slot := cfg / 16 % 16
  let good := decide (2 ≤ log ∧ log ≤ 12)
  let t := curTeam s
  let bad := if good then beyond t [(base, 2 ^ log * (16 * (slot + 1)))] else []
  { uses := [.scl a.toNat, .scl b.toNat]
    raises := (if base % 64 = 0 then [] else [{ cause := .align, mask := g.active, addr := scrVa base }]) ++
      bad.map fun o => access .scrbound g.active (scrVa o)
    addrs := (lanesOf g.active).map fun l => (l, scrVa base)
    await := !(ringOf t n).taken.isEmpty
    onAwait := onCurTeam fun t => setRing n { ringOf t n with en := false } t
    effect := onCurTeam (setRing n (if good then { en := true, base := base, log := log, slot := slot } else {})) }

def msendWord (d a b : BitVec 6) (g : Group) (s : State) : WordOut :=
  let l := (g.s d.toNat).toNat
  let n := l % 512
  let rnc := g.s64 a.toNat
  let off := (g.s b.toNat).toNat
  let t := curTeam s
  { stall := outstanding s s.cur fun r => r.space == .remote (handleOf s.cur)
    uses := [.scl d.toNat, .scl a.toNat, .scl (a.toNat + 1), .scl b.toNat], dests := [.scl d.toNat]
    raises := (if off % 16 = 0 then [] else [{ cause := .align, mask := g.active, addr := scrVa off }]) ++
      (beyond t [(off, n)]).map fun o => access .scrbound g.active (scrVa o)
    addrs := (lanesOf g.active).map fun l => (l, scrVa off)
    effect := fun s =>
      let (id, s) := freshId s
      let sd : Send := {
        group := s.cur, msg := true, sreg := d.toNat, trap := false, rel := false, rnc := rnc, k := 0, lmask := g.active
        words := [], bytes := Maps.readBytes t.scratch off n, ctx := t.ctx, remote := otherPackage s (bitN l 31) (l / 2 ^ 16 % 2 ^ 10)
        scope := 0, mask := g.active, pc := g.pc, inp := t.core }
      onCur (fun live => live.mark [.scl d.toNat] id) { s with sends := Maps.set s.sends id sd } }

/-- The oldest message that no group has taken, taken by group `k` (R289). -/
def takeSlot (k : Nat) (r : Ring) : Ring :=
  let r := r.leave k
  { r with next := r.next + 1, taken := r.taken ++ [(r.next, k)] }

def mwaitWord (d : BitVec 6) (rf : BitVec 3) (_ : Group) (s : State) : WordOut :=
  let n := rf.toNat
  let r := ringOf (curTeam s) n
  { dests := [.scl d.toNat]
    await := !(r.en && decide (r.next < r.head))
    onAwait := onCurTeam fun t => setRing n ((ringOf t n).leave s.cur) t
    effect := fun s =>
      onCur (fun live => live.setS d.toNat (BitVec.ofNat 32 (r.base + slotBytes r * (r.next % 2 ^ r.log))))
        (onCurTeam (fun t => setRing n (takeSlot s.cur (ringOf t n)) t) s) }

/-- R442. Configure and enable a message ring. -/
def execMring (_c : Bool) (r : BitVec 3) (a b : BitVec 6) (s : State) : Out := issue (mringWord r a b) s

/-- R443. Send a message payload to a ring capability. -/
def execMsend (_c : Bool) (d a b : BitVec 6) (s : State) : Out := issue (msendWord d a b) s

/-- R444. Free the previous slot and wait for the next message. -/
def execMwait (_c : Bool) (d : BitVec 6) (r : BitVec 3) (s : State) : Out := issue (mwaitWord d r) s

end Sys2Proof.Machine
end

