-- ==== Sys2Proof/Machine/Matrix.lean ====
section
/-! DEFINITION. The quarter matrix operations (R445 to R449), the macro sequencer's issue (R450), and the weight buffer
(R452 to R455). -/

namespace Sys2Proof.Machine

/-! The weight buffer. -/

def wslotOf (t : Team) (n : Nat) : WSlot := Maps.get {} t.wslots n
def setWslot (n : Nat) (w : WSlot) (t : Team) : Team := { t with wslots := Maps.put {} t.wslots n w }

/-- Free physical slots of a half of a core's weight buffer, those with a retired row left out (R60, R452, log entry 19). -/
def freeSlots (s : State) (core : Nat) (half : Bool) : Nat :=
  256 - retiredOf s.mem 4 (2 * core + (if half then 1 else 0)) - s.teams.foldl (fun n t => if t.2.core = core then n + (t.2.wslots.filter fun w => w.2.held && w.2.half == half).length else n) 0

/-- Element width in bits by format code (R445). -/
def fmtBits (fmt : Nat) : Nat := if fmt = 2 then 4 else if fmt < 2 then 8 else 16
/-- K by format code (R445). -/
def fmtK (fmt : Nat) : Nat := 512 / fmtBits fmt
/-- The bytes of an A row (R445). -/
def rowBytes (fmt : Nat) : Nat := if fmt = 2 then 80 else 64

/-- The bytes of a sparse unit (R250). -/
def unitBytes (fmt bitmap : Nat) : Nat := fmtK fmt / 8 + (popN (fmtK fmt) bitmap * fmtBits fmt + 7) / 8

/-- Element `i` of a sparse unit of packed elements (R250). -/
def unitElem (width : Nat) (bitmap packed i : Nat) : Nat :=
  if bitN bitmap i then packed / 2 ^ (width * popN i bitmap) % 2 ^ width else 0

/-- A sparse unit at the start of some bytes: its elements, and the bytes after it. -/
def takeUnit (fmt : Nat) (bs : List Byte) : List Nat × List Byte :=
  let k := fmtK fmt
  let bitmap := Maps.leNat (bs.take (k / 8))
  let n := unitBytes fmt bitmap
  let packed := Maps.leNat ((bs.take n).drop (k / 8))
  ((List.range k).map (unitElem (fmtBits fmt) bitmap packed), bs.drop n)

/-- `n` sparse units back to back, none where the bytes end. -/
def takeUnits (fmt : Nat) : Nat → List Byte → Option (List (List Nat) × List Byte)
  | 0, bs => some ([], bs)
  | n + 1, bs =>
    let k := fmtK fmt / 8
    if bs.length < k ∨ bs.length < unitBytes fmt (Maps.leNat (bs.take k)) then none
    else
      let (u, rest) := takeUnit fmt bs
      (takeUnits fmt n rest).map fun r => (u :: r.1, r.2)

def imgField (bs : List Byte) (off n : Nat) : Nat := Maps.leNat ((bs.drop off).take n)
def imgFmt (bs : List Byte) : Nat := imgField bs 0 1
/-- Where an image's units begin (R453). -/
def imgUnits (bs : List Byte) : Nat := if imgFmt bs = 2 then 576 else 64

/-- Is an image's header bad (R453)? -/
def headerBad (bs : List Byte) : Bool :=
  decide (4 < imgFmt bs) || imgField bs 1 1 / 2 != 0 || (imgFmt bs != 2 && imgField bs 2 2 != 0) || imgField bs 8 8 != 0 ||
    imgField bs 32 32 != 0 || imgField bs 16 4 / 2 ^ 16 % 64 != 0

/-- Is an image bad (R453)? `bs` are the bytes from its start to the end of its page. -/
def imageBad (bs : List Byte) : Bool :=
  headerBad bs || (match takeUnits (imgFmt bs) 32 (bs.drop (imgUnits bs)) with
    | none => true
    | some (_, rest) => imgField bs 4 4 != bs.length - rest.length)

/-- Element k of column `j` of an image, by value (R241, R453). -/
def imgValue (bs : List Byte) (j k code : Nat) : Num.FV :=
  match imgFmt bs with
  | 0 => Num.decode Num.e4m3 code
  | 1 => Num.decode Num.e5m2 code
  | 2 => Num.e2m1Value code (imgField bs (64 + 16 * j + k / 8) 1) (Num.decode Num.bf16 (imgField bs 2 2))
  | 3 => Num.decode Num.bf16 code
  | _ => Num.decode Num.f16 code

/-- The 32 columns of an image's B (R453). -/
def imgColumns (bs : List Byte) : List (List Num.FV) :=
  match takeUnits (imgFmt bs) 32 (bs.drop (imgUnits bs)) with
  | none => []
  | some (us, _) => (us.zip (List.range 32)).map fun u => (u.1.zip (List.range u.1.length)).map fun e => imgValue bs u.2 e.2 e.1

/-- The bytes that a load may read from an image's start: to the end of its page, and no more than any image holds. -/
def imageBytes (m : Mem) (pa : Nat) : List Byte :=
  let n := min (65536 - pa % 65536) 4096
  if isHbm pa then bytesAt m pa n else List.replicate n 0

/-- The bytes that the image takes there, as far as they were read. -/
def imageLen (bs : List Byte) : Nat :=
  if headerBad bs then 64
  else match takeUnits (imgFmt bs) 32 (bs.drop (imgUnits bs)) with
    | none => bs.length
    | some (_, rest) => bs.length - rest.length

/-- The outcome of a core's load of the image at a physical address (R454): LSTAT, the bytes, and where the error of LSTAT 3 lies. Bytes to
which no way leads any more count as a read error (log entry 23). -/
def loadImage (s : State) (core pa : Nat) : Nat × List Byte × Nat :=
  let bs := imageBytes s.mem pa
  let e := rangeErr s.mem pa (imageLen bs)
  (if e ≠ 0 ∨ (lostLink s core pa (imageLen bs)).isSome then 3 else if poisoned s.mem pa (imageLen bs) then 4 else if imageBad bs then 1 else 0, bs, e)

/-- A slot with the outcome of its load (R454). -/
def WSlot.loaded (w : WSlot) (o : Nat × List Byte × Nat) : WSlot :=
  { w with loading := false, valid := o.1 == 0, failed := o.1 != 0, lstat := o.1, errIn := o.2.2, fmt := imgFmt o.2.1 % 8, bytes := o.2.1 }

/-- The half from which an unheld slot takes a physical one (R454). -/
def pickHalf (s : State) (core : Nat) : Option Bool :=
  let a := freeSlots s core false
  let b := freeSlots s core true
  if a = 0 ∧ b = 0 then none else some (decide (a < b))

def wbldWord (d a : BitVec 6) (g : Group) (s : State) : WordOut :=
  let va := g.s64 d.toNat
  let n := (g.s a.toNat).toNat % 512
  let t := curTeam s
  let w := wslotOf t n
  let base : WordOut := {
    stall := w.loading, uses := [.scl d.toNat, .scl (d.toNat + 1), .scl a.toNat]
    raises := if va.toNat % 64 = 0 then [] else [{ cause := .align, mask := g.uniformMask, addr := va }]
    addrs := if va.toNat % 64 = 0 then [] else (lanesOf g.uniformMask).map fun l => (l, va) }
  let tg : Target :=
    if vaTag va ≠ 0 ∧ vaTag va ≠ 0xFF then .inlane .noncanon 0
    else checkTarget s t (resolve s t (!g.sup) va 64 .load) 64 .load
  match tg with
  | .phys pa tr =>
    { base with effect := fun s =>
        let s := keepTr t.core tr s
        match (if w.held then some w.half else pickHalf s t.core) with
        | none => onCurTeam (setWslot n { w with lstat := 2 }) s
        | some half => onCurTeam (setWslot n { held := true, loading := true, half := half, image := va, pa := pa, lstat := w.lstat }) s }
  | tg => uniformWord base g va (uniformFault g tg va .load)

def wbinvWord (a : BitVec 6) (g : Group) (s : State) : WordOut :=
  let n := (g.s a.toNat).toNat % 512
  { stall := (wslotOf (curTeam s) n).loading, uses := [.scl a.toNat]
    effect := onCurTeam fun t => setWslot n { lstat := (wslotOf t n).lstat } t }

/-- `wbstat` (R455). -/
def wbstatVal (w : WSlot) (free : Nat) : Word :=
  let f (b : Bool) (i : Nat) : Nat := if b then 2 ^ i else 0
  BitVec.ofNat 32 (free * 2 ^ 16 + w.lstat * 2 ^ 8 + w.fmt * 2 ^ 5 + f w.half 4 + f w.failed 3 + f w.loading 2 + f w.held 1 + f w.valid 0)

def wbstatWord (d a : BitVec 6) (g : Group) (s : State) : WordOut :=
  let n := (g.s a.toNat).toNat % 512
  let t := curTeam s
  { uses := [.scl a.toNat], dests := [.scl d.toNat]
    effect := onCur fun live => live.setS d.toNat (wbstatVal (wslotOf t n) (freeSlots s t.core false + freeSlots s t.core true)) }

/-- R454. Load a weight image into a team slot. -/
def execWbld (_c : Bool) (d a : BitVec 6) (s : State) : Out := issue (wbldWord d a) s

/-- R455. Free a weight-buffer slot. -/
def execWbinv (_c : Bool) (a : BitVec 6) (s : State) : Out := issue (wbinvWord a) s

/-- R455. Read a weight-buffer slot's status. -/
def execWbstat (_c : Bool) (d a : BitVec 6) (s : State) : Out := issue (wbstatWord d a) s

/-! Units that a word occupies for longer than a clock (R152, R300, R447, R448). -/

/-- The quarters that take part (R447). -/
def quarters (active : Word) : List Nat := (List.range 4).filter fun q => active.toNat / 2 ^ (8 * q) % 256 != 0

/-- The clocks of a quarter operation: fused, or one quarter after another (R447). -/
def arrayClocks (active : Word) : Nat := if (quarters active).length = 4 then 16 else 4 * (quarters active).length

/-- The bytes of B that it takes a clock (R448). -/
def streamRate (active : Word) : Nat := if (quarters active).length = 4 then 128 else 512

/-- The matrix array of a scheduler, and for an operation with A from memory the shadow slots of its quarters (R152, R300). -/
def arrayUnits (sched : Nat) (active : Word) (shadow : Bool) : List (Nat × Nat) :=
  if active = 0 then []
  else (8 * sched + 2, arrayClocks active) :: (if shadow then (quarters active).map fun q => (8 * sched + 4 + q, arrayClocks active) else [])

/-- The units that a word occupies, each for how many clocks (R152). -/
def unitsOf (g : Group) (w : Word) : List (Nat × Nat) :=
  let n := w.toNat
  match bitsN n 30 25 with
  | 0x0E => [(8 * g.sched, 4)]
  | 0x0F => [(8 * g.sched + 1, 8)]
  | 0x10 => if bitsN n 23 21 = 3 ∨ bitsN n 2 0 = 3 then [(8 * g.sched + 1, 8)] else []
  | 0x12 => [(8 * g.sched + 1, 8)]
  | 0x3C => if bitsN n 24 22 < 3 then arrayUnits g.sched g.active (bitsN n 24 22 == 2) else []
  | 0x3E => [(32, 4)]
  | _ => []

/-- The half of the weight buffer from which a word takes B (R448). -/
def streamOf (t : Team) (g : Group) (w : Word) : Option Bool :=
  let n := w.toNat
  let slot := wslotOf t ((g.s (bitsN n 7 2)).toNat % 512)
  if bitsN n 30 25 = 0x3C ∧ bitsN n 24 22 < 3 ∧ g.active ≠ 0 ∧ slot.held then some slot.half else none

/-- Is a unit of a core free in this clock? -/
def unitFree (s : State) (core : Nat) (u : Nat × Nat) : Bool := decide (Maps.get 0 (coreAt s core).units u.1 ≤ s.clock)

/-- Can a half supply an operation beside those under way: 512 bytes a clock (R448)? -/
def halfFree (s : State) (core : Nat) (active : Word) (half : Bool) : Bool :=
  let busy := (coreAt s core).streams.filter fun x => x.1 == half && decide (s.clock < x.2.2)
  decide (busy.foldl (fun n x => n + x.2.1) (streamRate active) ≤ 512)

/-- Can the units that a chain needs take it in this clock (R154)? -/
def unitsFree (s : State) (t : Team) (g : Group) (ws : List Word) : Bool :=
  ws.all fun w => (unitsOf g w).all (unitFree s t.core) && (match streamOf t g w with
    | some half => halfFree s t.core g.active half
    | none => true)

/-- Units occupied from this clock on. The shadow's slots are held until A has come, which takes a free time (R300, log entry 12). -/
def occupy (core : Nat) (us : List (Nat × Nat)) (halves : List Bool) (active : Word) (s : State) : State :=
  if us.isEmpty && halves.isEmpty then s
  else
    let (n, s) := if us.any fun u => 4 ≤ u.1 % 8 then draw s else (0, s)
    let until_ (u : Nat × Nat) : Nat := s.clock + u.2 + (if 4 ≤ u.1 % 8 then n % 1024 else 0)
    onCore core (fun c => { c with
      units := us.foldl (fun m u => Maps.set m u.1 (until_ u)) c.units
      streams := halves.map (fun h => (h, streamRate active, s.clock + arrayClocks active)) ++ c.streams.filter fun x => decide (s.clock < x.2.2) }) s

/-- The units of a chain's words occupied. A matrix word occupies its own as it executes (R300). -/
def occupyUnits (t : Team) (g : Group) (ws : List Word) (s : State) : State :=
  occupy t.core ((ws.filter fun w => bitsN w.toNat 30 25 != 0x3C).flatMap (unitsOf g)) [] g.active s

/-! Matrix operations. -/

/-- Does a core's cluster hold an ember token (R178)? -/
def hasToken (s : State) (core : Nat) : Bool :=
  (dieAt s (dieOfCore core)).tokens.any fun t => t.cluster == core % 24 / 4 && t.arrives.isNone

/-- The cluster's latest matrix word, for the end of its burst (R177). -/
def burnToken (core : Nat) (s : State) : State :=
  onDie (dieOfCore core) (fun d => { d with tokens := d.tokens.map fun t =>
    if t.cluster = core % 24 / 4 ∧ t.arrives.isNone then { t with idle := s.clock + 1 } else t }) s

/-- The state as it would be with a token at a core's cluster (R180). -/
def withToken (core : Nat) (s : State) : State :=
  onDie (dieOfCore core) (fun d => { d with tokens := { cluster := core % 24 / 4, arrives := none } :: d.tokens }) s

/-- May AFMT be used with a slot's format (R445)? -/
def fmtPairs (afmt fmt : Nat) : Bool := decide (afmt ≤ 4) && (afmt == fmt || (decide (afmt < 2) && decide (fmt < 2)))

/-- What an operation raises for its slot (R445, R448). -/
def slotRaises (g : Group) (w : WSlot) (afmt : Nat) : List Raise :=
  if !w.held then legal false g
  else if w.failed then
    if w.lstat = 3 then [access .ecc g.active 0 w.errIn] else if w.lstat = 4 then [access .poison g.active 0] else legal false g
  else legal (w.valid && fmtPairs afmt w.fmt) g

/-- The values of an A row of `rowBytes` bytes (R445). -/
def rowValues (fmt : Nat) (row : List Byte) : List Num.FV :=
  let n := Maps.leNat row
  let b := fmtBits fmt
  (List.range (fmtK fmt)).map fun k =>
    let code := n / 2 ^ (b * k) % 2 ^ b
    match fmt with
    | 0 => Num.decode Num.e4m3 code
    | 1 => Num.decode Num.e5m2 code
    | 2 => Num.e2m1Value code (n / 2 ^ (8 * (64 + k / 8)) % 256) (.fin false 1 0)
    | 3 => Num.decode Num.bf16 code
    | _ => Num.decode Num.f16 code

/-- One output element (R251): the accumulator after both chunks, and its NAN event (R253). -/
def outElem (acc : Nat) (row col : List Num.FV) : Nat × Num.Ev :=
  let ps := (row.zip col).map fun p => Num.mul p.1 p.2
  let w := ps.length / 2
  let r := Num.matElem acc [ps.take w, ps.drop w]
  (r, { nan := if Num.isNan (Num.decode Num.f32 r) && !Num.isNan (Num.decode Num.f32 acc) then 1 else 0 })

/-- The operation on the rows of the active lanes (R446): a group after it, and its events. -/
def matGroup (g : Group) (d : Nat) (ovr : Bool) (afmt : Nat) (cols : List (List Num.FV)) (rows : Nat → List Byte) (live : Group) : Group × Num.Ev :=
  (lanesOf g.active).foldl (fun acc l =>
    let row := rowValues afmt (rows l)
    (cols.zip (List.range 32)).foldl (fun (acc : Group × Num.Ev) c =>
      let old := if ovr then 0 else (g.v (d + c.2) l).toNat
      let (v, ev) := outElem old row c.1
      (acc.1.setLane (d + c.2) l (BitVec.ofNat 32 v), acc.2.add ev)) acc) (live, {})

/-- Its effect on the issuing group, its cluster's token and the units that it takes: an operation with A from memory the shadow too (R177,
R300, R446). -/
def matEffect (g : Group) (d : Nat) (ovr : Bool) (afmt : Nat) (w : WSlot) (shadow : Bool) (rows : Nat → List Byte) (s : State) : State :=
  match Maps.find s.groups s.cur with
  | none => s
  | some live =>
    let r := matGroup g d ovr afmt (imgColumns w.bytes) rows live
    let core := (curTeam s).core
    occupy core (arrayUnits g.sched g.active shadow) (if g.active = 0 then [] else [w.half]) g.active
      (burnToken core (charge g.tag r.2 (onCur (fun _ => r.1) s)))

/-- A slot whose read has met a lasting error: invalid, and so retired (R60). -/
def loseSlot (n : Nat) (s : State) : State :=
  meetErr (.weight (handleOf s.cur) n) false false
    (onCurTeam (fun t => setWslot n { wslotOf t n with valid := false, failed := true, lstat := 3, errIn := 6 } t) s)

/-- Does the read of a slot meet a lasting error? -/
def slotErr (s : State) (w : WSlot) (n : Nat) : Bool := w.valid && errAt s.mem (.weight (handleOf s.cur) n) == some .lasting

/-- The word of a quarter operation, from its A registers, what it raises for A, and its rows as they are read once its acquires have been
made (R233, R236). It reads the accumulator unless it overwrites it. -/
def matWord (d : BitVec 7) (sf : BitVec 6) (ovr : Bool) (aRegs : List VR) (g : Group) (s : State)
    (las : List LaneAt) (shadow : Bool) (rows : State → Nat → List Byte) (pre : State → State) : WordOut :=
  let ctl := (g.s sf.toNat).toNat
  let afmt := bitsN ctl 11 9
  let t := curTeam s
  let w := wslotOf t (ctl % 512)
  let dr : VR := { first := d.toNat, count := 32, align := 32 }
  let base := regWord s g false [dr] aRegs (ss := [sf.toNat])
  let token := hasToken s t.core
  accessWord { base with
    stall := (w.held && w.loading) || !token
    uses := base.uses ++ (if ovr then [] else vrRegs dr)
    onStall := if !(w.held && w.loading) && !token then onCur fun live => { live with wants := true } else id
    raises := base.raises ++ (if slotErr s w (ctl % 512) then [access .ecc g.active 0 6] else slotRaises g w afmt)
    onFault := if slotErr s w (ctl % 512) then loseSlot (ctl % 512) else id
    effect := fun s => matEffect g d.toNat ovr afmt w shadow (rows s) (meetErr (.weight (handleOf s.cur) (ctl % 512)) false false s) } g 16 .load las pre

/-- The bytes of a register range in a lane (R445). -/
def regRow (g : Group) (a n l : Nat) : List Byte := (List.range n).flatMap fun i => Maps.natLe (g.v (a + i) l).toNat 4

def mmqWord (d a : BitVec 7) (sf : BitVec 6) (ovr : Bool) (g : Group) (s : State) : WordOut :=
  let n := rowBytes (bitsN (g.s sf.toNat).toNat 11 9) / 4
  matWord d sf ovr [{ first := a.toNat, count := n, align := 16 }] g s [] false (fun _ => regRow g a.toNat n) id

/-- The 16-byte parts of a lane's A row (R449). -/
def rowParts (n : Nat) : List Nat := (List.range (n / 16)).map (16 * ·)

def mmqsWord (d a : BitVec 7) (sf : BitVec 6) (ovr : Bool) (g : Group) (s : State) : WordOut :=
  let n := rowBytes (bitsN (g.s sf.toNat).toNat 11 9)
  let las := (lanesOf g.active).flatMap fun l => (rowParts n).map fun o => scratchAt s l ((g.v a.toNat l).setWidth 64 + BitVec.ofNat 64 o) 16
  let w := matWord d sf ovr [{ first := a.toNat }] g s las false (fun s l => Maps.readBytes (curTeam s).scratch (g.v a.toNat l).toNat n) id
  { w with stall := w.stall || accessHeld s las }

/-- Where a part of an A row in memory lies: tags 0x00, 0xFF and 0xFE alone (R449). A poisoned line fails it, and a lasting error (R60). -/
def aPart (s : State) (g : Group) (l : Nat) (va : Dword) : LaneAt :=
  let a := addressAt s g l va 16 .load
  if vaTag va = 0 ∨ vaTag va = 0xFF ∨ vaTag va = 0xFE then
    match a.tg with
    | .phys pa _ =>
      if let some n := (if isHbm pa then lostLink s (curTeam s).core pa 16 else none) then { a with tg := .inlane .linkdown n }
      else if isHbm pa && rangeErr s.mem pa 16 != 0 then { a with tg := .inlane .ecc (rangeErr s.mem pa 16) }
      else if isHbm pa && poisoned s.mem pa 16 then { a with tg := .inlane .poison 0 }
      else a
    | _ => a
  else { a with tg := .inlane .noncanon 0 }

/-- The bytes of such a part: the team's scratchpad, the core's L1, or the line at its slice (R201, R449). -/
def aBytes (s : State) (t : Team) (tg : Target) : List Byte :=
  match tg with
  | .phys pa _ => if isHbm pa then
      match l1Line s t.core pa with
      | some line => Maps.natLe (lineNat line (pa % 64) 16) 16
      | none => bytesAt s.mem pa 16
    else List.replicate 16 0
  | .scratch off => Maps.readBytes t.scratch off 16
  | _ => []

/-- The translations kept and the L1 lines filled by such reads (R201, R449), and the errors that they have met (R59, R60). -/
def aKeep (t : Team) (las : List LaneAt) (s : State) : State :=
  las.foldl (fun s a => match a.tg with
    | .phys pa tr =>
      let s := keepTr t.core tr s
      if isHbm pa && (l1Line s t.core pa).isNone then
        keepLine t.core (pa / 64) (some (lineOf (bytesAt s.mem (64 * (pa / 64)) 64))) (readVia t.core 2 pa 16 s)
      else s
    | _ => s) s

/-- The lasting errors that such reads have failed by, met (R59, R60). -/
def aFail (s : State) (addr : LaneAt → Target) (las : List LaneAt) (t : State) : State :=
  las.foldl (fun t a => match addr a with
    | .phys pa _ => if isHbm pa && rangeErr s.mem pa 16 != 0 then readVia (curTeam s).core 2 pa 16 t else t
    | _ => t) t

/-- Is an earlier access of the group to a line of such a read on its way (R219)? -/
def aBusy (s : State) (las : List LaneAt) : Bool :=
  accessHeld s las || las.any fun a => match a.tg with
    | .phys pa _ => outstanding s s.cur fun r => r.op != .prefetch && r.space == .llc && r.pa / 64 == pa / 64
    | _ => false

def mmqgWord (d a : BitVec 7) (sf : BitVec 6) (ovr : Bool) (g : Group) (s : State) : WordOut :=
  let n := rowBytes (bitsN (g.s sf.toNat).toNat 11 9)
  let t := curTeam s
  let lane (l : Nat) : List LaneAt := (rowParts n).map fun o => aPart s g l (g.v64 a.toNat l + BitVec.ofNat 64 o)
  let las := (lanesOf g.active).flatMap lane
  let w := matWord d sf ovr [{ first := a.toNat, count := 2, align := 2 }] g s las true
    (fun s l => (lane l).flatMap fun p => aBytes s t p.tg) (aKeep t las)
  { w with
    stall := w.stall || aBusy s las
    onFault := fun t => w.onFault (aFail s (fun a => (addressAt s g a.lane a.va 16 .load).tg) las t) }

/-- R446. Quarter matrix multiply-accumulate with A from registers. -/
def execMmq (_c : Bool) (d a : BitVec 7) (sb : BitVec 6) (h : BitVec 1) (s : State) : Out :=
  issue (mmqWord d a sb (h = 1)) s

/-- R446. Quarter matrix operation with A from scratchpad. -/
def execMmqs (_c : Bool) (d a : BitVec 7) (sb : BitVec 6) (h : BitVec 1) (s : State) : Out :=
  issue (mmqsWord d a sb (h = 1)) s

/-- R446. Quarter matrix operation with A from memory under the shadow. -/
def execMmqg (_c : Bool) (d a : BitVec 7) (sb : BitVec 6) (h : BitVec 1) (s : State) : Out :=
  issue (mmqgWord d a sb (h = 1)) s

/-! The macro sequencer (R450, R451). -/

/-- The bytes of a command block. -/
def cmdField (b : List Byte) (off n : Nat) : Nat := Maps.leNat ((b.drop off).take n)
def cmdSteps (b : List Byte) : Nat := cmdField b 24 2 * cmdField b 26 1

/-- Does a command block keep the rules of R450? -/
def cmdOk (t : Team) (b : List Byte) : Bool :=
  let slot := cmdField b 28 2
  cmdField b 16 4 % 16 == 0 && cmdField b 20 4 % 64 == 0 && cmdField b 24 2 != 0 && decide (1 ≤ cmdField b 26 1) &&
    decide (cmdField b 26 1 ≤ 4) && decide (cmdField b 27 1 ≤ 4) && decide (slot < 511) && (wslotOf t slot).held &&
    (wslotOf t (slot + 1)).held && cmdField b 30 34 == 0

def mtileWord (d : BitVec 7) (sf : BitVec 6) (ovr : Bool) (g : Group) (s : State) : WordOut :=
  let n := sf.toNat
  let t := curTeam s
  if g.waiting = some .mtileDone then
    { effect := onCur fun live => { live with waiting := none, tileSrc := none } }
  else
    let o := (g.s n).toNat
    let b := Maps.readBytes t.scratch o 64
    let inside := decide (o + 64 ≤ t.scr * 65536)
    let more := decide ((g.s (n + 1)).toNat < cmdSteps b)
    -- the accumulator's registers, as far as a block says how many there are
    let cols := if o % 64 = 0 ∧ inside then cmdField b 26 1 else 1
    let acc := (List.range (32 * min 4 cols)).map fun i => RegId.vec (d.toNat + i)
    { stall := (outstanding s s.cur fun r => r.space == .remote (handleOf s.cur)) || !hasToken s t.core
      uses := [.scl n, .scl (n + 1)] ++ (if ovr then [] else acc)
      raises := (if o % 64 = 0 then [] else [{ cause := .align, mask := g.active, addr := scrVa o }]) ++
        (if inside then [] else [access .scrbound g.active (scrVa o)]) ++ legal (d.toNat % 32 = 0) g ++
        unless_ (d.toNat + 32 * cols ≤ t.regs) .regbound g ++ (if o % 64 = 0 ∧ inside then legal (cmdOk t b) g else [])
      addrs := (lanesOf g.active).map fun l => (l, scrVa o)
      dests := .scl (n + 1) :: acc
      await := more
      starts := true
      onAwait := fun s => burnToken t.core
        (onCur (fun live => { live with waiting := some (.mtile d.toNat n ovr b), tileSrc := some (g.vregs, g.sregs) }) s)
      effect := burnToken t.core }

/-- R450. Start the macro sequencer over a command block. -/
def execMtile (_c : Bool) (d : BitVec 7) (sb : BitVec 6) (h : BitVec 1) (s : State) : Out :=
  issue (mtileWord d sb (h = 1)) s

end Sys2Proof.Machine
end

