-- ==== Sys2Proof/Machine/Warp.lean ====
section
/-! DEFINITION. The warp of an axis and its inverse (R117), the grid of a strip (R119), and FP32 chains (R114, R472). -/

namespace Sys2Proof.Machine

/-- A value rounded to FP32 under RNE. -/
def r32 (v : Num.FV) : Num.FV := Num.decode Num.f32 (Num.packRne Num.f32 v)

/-- An FP32 pattern's value. -/
def f32v (w : Word) : Num.FV := Num.decode Num.f32 w.toNat

/-- A value in units of 2^-`k`. -/
def fixed (t : Int) (k : Nat) : Num.FV := .fin (decide (t < 0)) t.natAbs (-(k : Int))

/-- A value rounded to an integer under a mode; 0 for what is not finite. -/
def fvInt (rm : Num.Rm) (v : Num.FV) : Int :=
  match v with
  | .fin s m e => let n : Int := Num.integral rm s m e; if s then -n else n
  | _ => 0

def fvSub (a b : Num.FV) : Num.FV := Num.add .rne a (Num.neg b)
def fvLe (a b : Num.FV) : Bool := !Num.isNan a && !Num.isNan b && Num.cmp a b != .gt
def fvLt (a b : Num.FV) : Bool := !Num.isNan a && !Num.isNan b && Num.cmp a b == .lt

/-- The FMA chain c1·x1 + c2·x2 + … + c, in order, rounded to FP32 at each step (R114, R472). -/
def fmaChain (ps : List (Num.FV × Num.FV)) (c : Num.FV) : Num.FV :=
  match ps with
  | [] => r32 c
  | p :: rest => r32 (Num.add .rne (rest.foldl (fun a q => r32 (Num.add .rne (Num.mul q.1 q.2) a)) (r32 (Num.mul p.1 p.2))) c)

/-- One axis under a latch: full resolution, segment edges e0 to e8 in 2^-15, density shifts, A[0] to A[8] as FP32. -/
structure Axis where
  full : Nat
  e    : List Int
  sh   : List Nat
  a    : List Num.FV
deriving DecidableEq, Repr

def Axis.edge (x : Axis) (j : Nat) : Int := (x.e[j]?).getD 0
def Axis.shift (x : Axis) (j : Nat) : Nat := (x.sh[j]?).getD 0
def Axis.at (x : Axis) (j : Nat) : Num.FV := (x.a[j]?).getD Num.zero

/-- The axis of a 16-byte warp record at gaze `g` (Q1.15), for a full resolution (R117). A is exact in units of 2^-19
before its one rounding. -/
def axisOf (rec_ : List Byte) (g : Half) (full : Nat) : Axis :=
  let n := Maps.leNat rec_
  let lim (t : Int) : Int := max (-32768) (min 32768 t)
  let e : List Int := (-32768) :: ((List.range 7).map fun i => lim (g.toInt + 2 * signedN 16 (bitsN n (16 * i + 15) (16 * i)))) ++ [32768]
  let sh := (List.range 8).map fun j => bitsN n (112 + 2 * j + 1) (112 + 2 * j)
  let span (j : Nat) : Int := (full : Int) * ((e[j + 1]?).getD 0 - (e[j]?).getD 0) * 2 ^ (3 - (sh[j]?).getD 0)
  let a := (List.range 9).map fun j => r32 (fixed ((List.range j).foldl (fun t i => t + span i) 0) 19)
  { full := full, e := e, sh := sh, a := a }

/-- (F/2) · f_j. -/
def Axis.density (x : Axis) (j : Nat) : Num.FV := .fin false x.full (-1 - (x.shift j : Int))

/-- The segment that holds NDC coordinate u, in 2^-15 (R117). -/
def Axis.segOf (x : Axis) (u : Int) : Nat :=
  if u < x.edge 1 then 0
  else if 32768 ≤ u then ((List.range 8).filter fun j => decide (x.edge j < 32768)).foldl max 0
  else ((List.range 8).filter fun j => decide (x.edge j ≤ u) && decide (u < x.edge (j + 1))).foldl max 0

/-- W(u) for u in 2^-15: difference, product and sum rounded to FP32 (R117). -/
def Axis.warp (x : Axis) (u : Int) : Num.FV :=
  let j := x.segOf u
  r32 (Num.add .rne (x.at j) (r32 (Num.mul (x.density j) (r32 (fixed (u - x.edge j) 15)))))

/-- The segment in which a warped position lies: the last non-empty one that starts at or before it. -/
def Axis.segAt (x : Axis) (w : Num.FV) : Nat :=
  let segs := (List.range 8).filter fun j => fvLt (x.at j) (x.at (j + 1))
  match segs with
  | [] => 0
  | first :: _ => (segs.filter fun j => fvLe (x.at j) w).foldl max first

/-- The inverse of R117 in FP32, rounded at each step: NDC u of a warped position (R143, R146). -/
def Axis.unwarp32 (x : Axis) (w : Num.FV) : Num.FV :=
  let j := x.segAt w
  r32 (Num.add .rne (fixed (x.edge j) 15) (r32 (Num.div (r32 (fvSub w (x.at j))) (x.density j))))

/-- The inverse of R117 as an unwarped pixel position in 1/256 pixel, rounded once under RNE (R131). -/
def Axis.unwarp256 (x : Axis) (w : Num.FV) : Int :=
  let j := x.segAt w
  let base : Num.FV := fixed ((x.edge j + 32768) * x.full) 16
  let d : Num.FV := Num.mul (fvSub w (x.at j)) (.fin false 1 (x.shift j))
  fvInt .rne (Num.mul (.fin false 1 8) (Num.add .rne base d))

/-- The extent of an axis (R117). -/
def Axis.extent (x : Axis) : Nat := (fvInt .ru (x.at 8)).toNat

/-! View records (R116). -/

def recField (rec_ : List Byte) (off n : Nat) : Nat := Maps.leNat ((rec_.drop off).take n)

def StripGeo.axisX (g : StripGeo) : Axis := axisOf ((g.rec_.drop 184).take 16) g.gx (recField g.rec_ 216 2)
def StripGeo.axisY (g : StripGeo) : Axis := axisOf ((g.rec_.drop 200).take 16) g.gy (recField g.rec_ 218 2)
/-- Samples per pixel (R116). -/
def StripGeo.samples (g : StripGeo) : Nat := 2 ^ (recField g.rec_ 220 1 % 4)

/-- The first warped position of the strip and its end, and the grid's first row (R119). -/
def StripGeo.wstart (g : StripGeo) : Num.FV := g.axisY.warp (-32768 + 16384 * (g.strip : Int))
def StripGeo.wend (g : StripGeo) : Num.FV := g.axisY.warp (-32768 + 16384 * (g.strip + 1 : Int))
def StripGeo.ybase (g : StripGeo) : Nat := (fvInt .rd g.wstart).toNat
/-- Tile columns and rows of the strip's grid (R119). -/
def StripGeo.cols (g : StripGeo) : Nat := (g.axisX.extent + 31) / 32
def StripGeo.rows (g : StripGeo) : Nat :=
  (fvInt .ru (Num.mul (.fin false 1 (-5)) (fvSub g.wend (Num.ofInt g.ybase)))).toNat
/-- Is a warped row one of the strip's (R119)? -/
def StripGeo.hasRow (g : StripGeo) (y : Nat) : Bool :=
  let c : Num.FV := fixed (2 * (y : Int) + 1) 1
  fvLe g.wstart c && fvLt c g.wend

/-- The owner of a tile (R123). -/
def tileOwner (mask view strip tx ty : Nat) : Option Nat :=
  let ds := setBits 8 mask
  if ds.isEmpty then none else ds[(tx + 3 * ty + 5 * view + 7 * strip) % ds.length]?

/-- Sample positions within a pixel in sixteenths, by samples per pixel (R118). -/
def samplePos (n s : Nat) : Nat × Nat :=
  match n, s with
  | 1, _ => (8, 8)
  | 2, 0 => (4, 4)
  | 2, _ => (12, 12)
  | _, 0 => (6, 2)
  | _, 1 => (14, 6)
  | _, 2 => (2, 10)
  | _, _ => (10, 14)

/-- The width and height of a rate byte (R134). -/
def rateW (r : Nat) : Nat := 2 ^ min 2 (r % 4)
def rateH (r : Nat) : Nat := 2 ^ min 2 (r / 4 % 4)

end Sys2Proof.Machine
end

