-- ==== Sys2Proof/Machine/Gfx.lean ====
section
/-! DEFINITION. Mesh emission and amplification (R464 to R466), tile access and gaze (R467 to R470), derivatives and
interpolation (R471, R472). -/

namespace Sys2Proof.Machine

/-! Mesh emission. -/

def isMesh (t : Team) : Bool := match t.kind with
  | .mesh _ => true
  | _ => false
def isTask (t : Team) : Bool := match t.kind with
  | .task => true
  | _ => false
def isTile (t : Team) : Bool := match t.kind with
  | .tile .. => true
  | _ => false

/-- A saturating 32-bit count. -/
def satAdd (c n : Nat) : Nat := min 0xFFFFFFFF (c + n)

/-- The draw that a team works for. -/
def onDraw (t : Team) (f : Card → Card) (s : State) : State :=
  onDie t.die (fun d => { d with cards := Maps.modify d.cards t.slot f }) s

/-- Active lanes in the order in which their writes are made: free where two name one place of those that each writes (R10). -/
def writeOrder (g : Group) (f : Nat → List Nat) (s : State) : List Nat × State :=
  let ls := lanesOf g.active
  if (ls.flatMap f).Nodup then (ls, s) else (freeOrder s.draws ls, { s with draws := s.draws + ls.length })

/-- A vertex emitted: a later emission replaces an earlier one whole (R464). -/
def emitVertex (v : Nat) (ws : List Word) (m : Meshlet) : Meshlet :=
  let kept := m.verts.filter fun e => e.1 / 19 != v
  { m with verts := (ws.zip (List.range 19)).foldl (fun m w => Maps.put 0 m (v * 19 + w.2) w.1) kept }

/-- The word of an emission: ILLEGAL outside a mesh group (R465). -/
def memitWord (x : Bool) (d a : BitVec 7) (n lim : Nat) (bad : Word → Bool) (put : Nat → List Word → Meshlet → Meshlet)
    (drop : Nat → Card → Card) (g : Group) (s : State) : WordOut :=
  let t := curTeam s
  let dr := ea x d g
  let ar := ea x a g
  let base := regWord s g x [] [vr x d g 1 1, vr x a g n 1]
  let idx (l : Nat) : Nat := (g.v dr l).toNat
  let keeps (l : Nat) : Bool := decide (idx l < lim) && !bad (g.v ar l)
  { base with
    raises := legal (isMesh t) g ++ base.raises
    effect := fun s =>
      let (ls, s) := writeOrder g (fun l => [idx l]) s
      let s := (ls.filter keeps).foldl (fun s l =>
        onCurTeam (fun t => { t with meshlet := put (idx l) ((List.range n).map fun i => g.v (ar + i) l) t.meshlet }) s) s
      let lost := (ls.filter fun l => !keeps l).length
      if lost = 0 then s else onDraw t (fun c => { drop lost c with drawFlags := Nat.lor c.drawFlags 2 }) s }

/-- Does a primitive name a vertex of 256 or above (R106)? -/
def primBad (w : Word) : Bool :=
  let n := w.toNat
  decide (256 ≤ bitsN n 8 0) || decide (256 ≤ bitsN n 17 9) || decide (256 ≤ bitsN n 26 18)

/-- R464. Emit a meshlet vertex. -/
def execMemitV (_c x : Bool) (d a n : BitVec 7) (s : State) : Out :=
  issue (memitWord x d a (n.toNat + 3) 256 (fun _ => false) emitVertex fun k e => { e with vDrop := satAdd e.vDrop k }) s

/-- R465. Emit a meshlet primitive. -/
def execMemitP (_c x : Bool) (d a : BitVec 7) (s : State) : Out :=
  issue (memitWord x d a 1 512 primBad (fun i ws m => { m with prims := Maps.set m.prims i ((ws[0]?).getD 0) }) fun k e => { e with pDrop := satAdd e.pDrop k }) s

/-! Amplification (R103, R104, R466). -/

/-- The capacity of a die's mesh payload ring, set by the first draw to use it (R103). -/
def ringCap (s : State) (die ctx region : Nat) : Nat :=
  2 ^ (((dieAt s die).ringLog.getD (effField s ctx region 24 279 276)) + 10)

def useRing (die ctx region : Nat) (s : State) : State :=
  onDie die (fun d => { d with ringLog := some (d.ringLog.getD (effField s ctx region 24 279 276)) }) s

/-- A request's clamped count, and what is dropped of it (R104). -/
def clampReq (cap n : Nat) : Nat × Nat := let m := min 65536 cap; (min n m, n - min n m)

def tampWord (x : Bool) (d a b : BitVec 7) (g : Group) (s : State) : WordOut :=
  let t := curTeam s
  let base := regWord s g x [vr x d g 1 1] [vr x a g 1 1, vr x b g 2 2]
  { base with
    raises := legal (isTask t) g ++ base.raises
    effect := fun s =>
      let s := if (lanesOf g.active).all fun l => g.v (ea x a g) l == 0 then s else useRing t.die t.ctx t.region s
      let cap := ringCap s t.die t.ctx t.region
      let rs := (lanesOf g.active).map fun l => (l, clampReq cap (g.v (ea x a g) l).toNat, g.v64 (ea x b g) l)
      let lost := rs.foldl (fun n r => n + r.2.1.2) 0
      let s := if lost = 0 then s else onDraw t (fun c => { c with ampDrop := satAdd c.ampDrop lost, drawFlags := Nat.lor c.drawFlags 1 }) s
      let writes := rs.map fun r => (ea x d g * 32 + r.1, BitVec.ofNat 32 r.2.1.1)
      let reqs := (rs.filter fun r => r.2.1.1 != 0).map fun r => ({ group := some s.cur, slot := t.slot, n := r.2.1.1, payload := r.2.2 } : MeshReq)
      if reqs.isEmpty then onCur (fun live => writes.foldl (fun v w => v.setLane (w.1 / 32) (w.1 % 32) w.2) live) s
      else onCur (fun live => { live with waiting := some (.tamp reqs.length writes) })
        (onDie t.die (fun d => { d with meshReqs := d.meshReqs ++ reqs }) s) }

/-- R466. Request mesh groups through the payload ring. -/
def execTamp (_c x : Bool) (d a b : BitVec 7) (s : State) : Out := issue (tampWord x d a b) s

/-! Tiles (R130, R132, R133, R139, R467 to R469). -/

/-- The strip that a tile team works on. -/
def tileGeo (t : Team) : StripGeo := match t.kind with
  | .tile geo _ _ _ => geo
  | _ => {}

/-- A word of a tile team: ILLEGAL elsewhere, DEADLINE once the tile has been replaced (R139, R469). -/
def tileWord (t : Team) (g : Group) (w : WordOut) : WordOut :=
  { w with raises := legal (isTile t) g ++ w.raises ++ unless_ (!t.noticed) .deadline g }

/-- Offset of a sample's colour and depth in a tile team's scratchpad, for n samples per pixel (R130). -/
def colourOff (n p i : Nat) : Nat := 8 * (p * n + i)
def depthOff (n p i : Nat) : Nat := 8192 * n + 4 * (p * n + i)

def tloadWord (x : Bool) (d a : BitVec 7) (g : Group) (s : State) : WordOut :=
  let t := curTeam s
  let n := (tileGeo t).samples
  let dr := ea x d g
  let q (l : Nat) : Nat := (g.v (ea x a g) l).toNat
  let base := regWord s g x [vr x d g 2 2] [vr x a g 1 1]
  let far := (lanesOf g.active).filter fun l => decide (n ≤ bitsN (q l) 11 10)
  let va (l : Nat) : Dword := scrVa (colourOff n (q l % 1024) (bitsN (q l) 11 10))
  tileWord t g { base with
    stall := outstanding s s.cur fun r => r.space == .remote (handleOf s.cur)
    raises := base.raises ++ far.map fun l => access .scrbound (laneMask l) (va l)
    addrs := far.map fun l => (l, va l)
    effect := onCur fun live => (lanesOf g.active).foldl (fun (v : Group) l =>
      let p := q l % 1024
      let i := bitsN (q l) 11 10
      if bitN (q l) 12 then v.setLane dr l (BitVec.ofNat 32 (scrRead t (depthOff n p i) 4))
      else v.setLaneWords dr l (loadWords 5 (scrRead t (colourOff n p i) 8))) live }

/-! Quad records (R132). -/

/-- A quad record as read. -/
structure Quad where
  ord   : Nat
  draw  : Nat
  qx    : Nat
  qy    : Nat
  rate  : Nat
  plane : Nat
  cov   : Nat
deriving DecidableEq, Repr

def quadAt (t : Team) (o : Nat) : Quad :=
  let n := scrRead t o 64
  { ord := bitsN n 31 0, draw := bitsN n 47 32, qx := bitsN n 55 48, qy := bitsN n 63 56, rate := bitsN n 71 64
    plane := bitsN n 127 96, cov := bitsN n 383 128 }

/-- The key of a primitive as a tag holds it (R124, R130). -/
def tagKey (draw ord : Nat) : Nat := draw * 2 ^ 32 + ord

/-- Is sample `i` of pixel `p` of coarse pixel `c` covered and passed (R132)? -/
def Quad.covers (q : Quad) (c p i : Nat) : Bool := bitN q.cov ((c * 16 + p) * 4 + i)

/-- The origin of coarse pixel `c` within the tile (R136). -/
def Quad.origin (q : Quad) (c : Nat) : Nat × Nat := (q.qx + c % 2 * rateW q.rate, q.qy + c / 2 * rateH q.rate)

/-- Pixel `p` of a coarse pixel, row-major (R132). -/
def Quad.pixel (q : Quad) (c p : Nat) : Nat × Nat :=
  let o := q.origin c
  (o.1 + p % rateW q.rate, o.2 + p / rateW q.rate)

/-- The covered samples of coarse pixel `c`: pixel and sample (R132). -/
def Quad.samples (q : Quad) (c n : Nat) : List (Nat × Nat) :=
  (List.range (rateW q.rate * rateH q.rate)).flatMap fun p => ((List.range n).filter (q.covers c p)).map fun i => (p, i)

/-- The lanes whose quad record lies beyond the scratchpad, as faults. -/
def quadFaults (t : Team) (g : Group) (a : Nat) : List (Nat × Raise) :=
  ((lanesOf g.active).filter fun l => decide (t.scr * 65536 < (g.v a l).toNat + 64)).map fun l =>
    (l, access .scrbound (laneMask l) (scrVa (g.v a l).toNat))

/-- The samples that a coarse pixel still owns: pixel of the tile and sample (R133). -/
def ownedSamples (n : Nat) (q : Quad) (c : Nat) (t : Team) : List (Nat × Nat) :=
  (q.samples c n).filterMap fun ps =>
    let (px, py) := q.pixel c ps.1
    let p := 32 * py + px
    if px < 32 ∧ py < 32 ∧ Maps.find t.tags (p * n + ps.2) = some (tagKey q.draw q.ord) then some (p, ps.2) else none

/-- A lane's colour written to the samples that its coarse pixel still owns (R133, R468). -/
def storeColour (n : Nat) (q : Quad) (c v : Nat) (t : Team) : Team :=
  (ownedSamples n q c t).foldl (fun t ps => scrWrite (colourOff n ps.1 ps.2) 8 v t) t

def tstoreWord (x : Bool) (d a : BitVec 7) (g : Group) (s : State) : WordOut :=
  let t := curTeam s
  let n := (tileGeo t).samples
  let fs := quadFaults t g (ea x a g)
  let base := regWord s g x [] [vr x d g 2 2, vr x a g 1 1]
  tileWord t g { base with
    stall := outstanding s s.cur fun r => r.space == .remote (handleOf s.cur)
    raises := base.raises ++ fs.map (·.2)
    addrs := fs.map fun f => (f.1, f.2.addr)
    effect := fun s =>
      let q (l : Nat) : Quad := quadAt t (g.v (ea x a g) l).toNat
      let (ls, s) := writeOrder g (fun l => (ownedSamples n (q l) (l % 4) t).map fun ps => ps.1 * n + ps.2) s
      ls.foldl (fun s l => onCurTeam (storeColour n (q l) (l % 4) (laneData g (ea x d g) l 2)) s) s }

/-- `tseal` (R138, R469). -/
def tsealWord (g : Group) (s : State) : WordOut :=
  let t := curTeam s
  let geo := tileGeo t
  tileWord t g {
    stall := outstanding s s.cur fun r => r.space == .remote (handleOf s.cur)
    effect := fun s =>
      match t.kind with
      | .tile _ tx ty _ =>
        let sl : Seal := { view := geo.view, strip := geo.strip, frame := geo.frame, tx := tx, ty := ty
                           colour := Maps.readBytes (curTeam s).scratch 0 (8192 * geo.samples) }
        let mark (x : Tile) : Tile := if x.team == some (handleOf s.cur) && x.gen == t.gen then { x with sealed := true } else x
        let s := onDie t.die (fun d => { d with tiles := Maps.mapAll d.tiles fun _ x => mark x }) s
        onCurTeam (fun t => { t with sealed := true }) { s with display := { s.display with seals := s.display.seals ++ [sl] } }
      | _ => s }

/-- R467. Read tile colour or depth. -/
def execTload (_c x : Bool) (d a : BitVec 7) (s : State) : Out := issue (tloadWord x d a) s

/-- R468. Tag-tested colour write to a coarse pixel. -/
def execTstore (_c x : Bool) (d a : BitVec 7) (s : State) : Out := issue (tstoreWord x d a) s

/-- R469. Hand the team's tile to the serialiser. -/
def execTseal (_c : Bool) (s : State) : Out := issue (tsealWord) s

/-! Gaze (R470). -/

def viewAt (s : State) (v : Nat) : View := Maps.get {} s.display.views v

/-- The two words that `gzrd` gives for V[A] (R470). -/
def gazeWords (s : State) (q : Word) : List Word :=
  match Maps.find (viewAt s (q.toNat % 16)).latches (bitsN q.toNat 5 4) with
  | none => [0, 0]
  | some l => [loW l, BitVec.ofNat 32 (bitsN l.toNat 63 48 + bitsN l.toNat 47 46 * 2 ^ 16 + 2 ^ 18)]

def gzrdWord (x : Bool) (d a : BitVec 7) (g : Group) (s : State) : WordOut :=
  { regWord s g x [vr x d g 2 2] [vr x a g 1 1] with
    effect := onCur fun live => (lanesOf g.active).foldl (fun (v : Group) l => v.setLaneWords (ea x d g) l (gazeWords s (g.v (ea x a g) l))) live }

/-- R470. Read the latest gaze latch of a view and strip. -/
def execGzrd (_c x : Bool) (d a : BitVec 7) (s : State) : Out := issue (gzrdWord x d a) s

/-! Derivatives (R471). -/

/-- The difference of two lanes divided by a power of two, rounded once (R471). -/
def quotDiff (g : Group) (far near : Word) (k : Nat) : Nat × Num.Ev :=
  Num.bin Num.f32 g.rm g.fz32 (fun p q => Num.mul (Num.add g.rm p (Num.neg q)) (.fin false 1 (-(k : Int)))) far.toNat near.toNat

def derivWord (vert x : Bool) (d a b : BitVec 7) (g : Group) (s : State) : WordOut :=
  { regWord s g x [vr x d g 1 1] [vr x a g 1 1, vr x b g 1 1] with
    effect := writeLanesEv g (ea x d g) fun l =>
      let q := l / 4 * 4
      let rate := (g.v (ea x b g) l).toNat
      let at_ (i : Nat) : Word := g.v (ea x a g) (q + i)
      if vert then quotDiff g (at_ (2 + l % 2)) (at_ (l % 2)) (min 2 (rate / 4 % 4))
      else quotDiff g (at_ (2 * (l % 4 / 2) + 1)) (at_ (2 * (l % 4 / 2))) (min 2 (rate % 4)) }

/-- R471. Horizontal quad derivative per warped pixel. -/
def execDdx (_c x : Bool) (d a b : BitVec 7) (s : State) : Out := issue (derivWord false x d a b) s

/-- R471. Vertical quad derivative per warped pixel. -/
def execDdy (_c x : Bool) (d a b : BitVec 7) (s : State) : Out := issue (derivWord true x d a b) s

/-! Interpolation (R472). -/

/-- The warped position at which a lane interpolates: its coarse pixel's centre, or the mean of the covered samples
(R472). -/
def interpAt (geo : StripGeo) (tx ty : Nat) (mean : Bool) (q : Quad) (c : Nat) : Num.FV × Num.FV :=
  let n := geo.samples
  let x0 : Int := 32 * tx
  let y0 : Int := geo.ybase + 32 * ty
  let ss := if mean then q.samples c n else []
  let o := q.origin c
  if ss.isEmpty then (fixed (2 * (x0 + o.1) + rateW q.rate) 1, fixed (2 * (y0 + o.2) + rateH q.rate) 1)
  else
    let xs := ss.foldl (fun (a : Int) p => a + 16 * (x0 + (q.pixel c p.1).1) + (samplePos n p.2).1) 0
    let ys := ss.foldl (fun (a : Int) p => a + 16 * (y0 + (q.pixel c p.1).2) + (samplePos n p.2).2) 0
    let k : Num.FV := Num.ofInt ss.length
    (Num.div (fixed xs 4) k, Num.div (fixed ys 4) k)

/-- Attribute `n` from a plane block's coefficients at an unwarped position in 1/256 pixel (R472). -/
def interpValue (cs : List Word) (n : Nat) (x y : Int) : Nat × Num.Ev :=
  let c (i : Nat) : Num.FV := f32v ((cs[i]?).getD 0)
  let px := fixed x 8
  let py := fixed y 8
  let chain (i : Nat) : Num.FV := fmaChain [(c i, px), (c (i + 1), py)] (c (i + 2))
  let own := [0, 1, 2, 3 + 3 * n, 4 + 3 * n, 5 + 3 * n]
  Num.out Num.f32 .rne false false (own.any fun i => Num.isNan (c i)) (Num.div (chain (3 + 3 * n)) (chain 0))

/-- A lane's interpolated attribute; a free value where the team holds no such plane block. -/
def interpLane (t : Team) (mean : Bool) (n : Nat) (free : Nat) (q : Quad) (c : Nat) : Nat × Num.Ev :=
  match t.kind, Maps.find t.planes q.plane with
  | .tile geo tx ty _, some cs =>
    let p := interpAt geo tx ty mean q c
    interpValue cs n (geo.axisX.unwarp256 p.1) (geo.axisY.unwarp256 p.2)
  | _, _ => (free % 2 ^ 32, {})

def ipaWord (mean x : Bool) (d a n : BitVec 7) (g : Group) (s : State) : WordOut :=
  let t := curTeam s
  let fs := quadFaults t g (ea x a g)
  let base := regWord s g x [vr x d g 1 1] [vr x a g 1 1]
  { base with
    raises := base.raises ++ fs.map (·.2)
    addrs := fs.map fun f => (f.1, f.2.addr)
    effect := fun s =>
      let k := s.draws
      writeLanesEv g (ea x d g) (fun l => interpLane t mean n.toNat (Config.freeNat (k + l)) (quadAt t (g.v (ea x a g) l).toNat) (l % 4))
        { s with draws := k + 32 } }

/-- R472. Perspective-correct attribute at the coarse-pixel centre. -/
def execIpa (_c x : Bool) (d a n : BitVec 7) (s : State) : Out := issue (ipaWord false x d a n) s

/-- R472. Attribute at the centroid of covered samples. -/
def execIpac (_c x : Bool) (d a n : BitVec 7) (s : State) : Out := issue (ipaWord true x d a n) s

end Sys2Proof.Machine
end

