-- ==== Sys2Proof/Machine/Draws.lean ====
section
/-! DEFINITION. Job cards (R69 to R72) and the records of the frame pipeline: draw (R100, R101), frame (R115), view (R116),
tile (R128) and ray launch records (R146), and the strip a card works on (R119 to R122, R129). -/

namespace Sys2Proof.Machine

/-! Job cards (R69). -/

def cardF (l : Line) (hi lo : Nat) : Nat := bitsN l.toNat hi lo

namespace Card
def vtab (c : Card) : Nat := cardF c.bits 511 448
def vlen (c : Card) : Nat := cardF c.bits 439 424
def vbase (c : Card) : Nat := cardF c.bits 423 400
def region (c : Card) : Nat := cardF c.bits 399 384
def hearth (c : Card) : Bool := cardF c.bits 379 379 == 1
def coRes (c : Card) : Bool := cardF c.bits 378 378 == 1
def prio (c : Card) : Nat := cardF c.bits 377 374
def queue (c : Card) : Nat := cardF c.bits 373 368
def succ (c : Card) (i : Nat) : Nat := cardF c.bits (319 + 16 * i) (304 + 16 * i)
def gate (c : Card) : Nat := cardF c.bits 303 288
def stage (c : Card) : Nat := cardF c.bits 283 281
def scr (c : Card) : Nat := cardF c.bits 280 274
/-- Registers per thread. -/
def allot (c : Card) : Nat := 16 * (cardF c.bits 273 270 + 1)
def carve (c : Card) : Nat := cardF c.bits 269 267
def tthr (c : Card) : Nat := cardF c.bits 266 256
def nteam (c : Card) : Nat := cardF c.bits 255 224
def sy (c : Card) : Nat := cardF c.bits 223 208
def sx (c : Card) : Nat := cardF c.bits 207 192
def stats (c : Card) : Dword := BitVec.ofNat 64 (cardF c.bits 191 128)
def param (c : Card) : Dword := BitVec.ofNat 64 (cardF c.bits 127 64)
def entryPc (c : Card) : Dword := BitVec.ofNat 64 (cardF c.bits 63 0)
/-- Groups per team. -/
def groups (c : Card) : Nat := (c.tthr + 31) / 32
/-- A decompression card (R434). -/
def isDecomp (c : Card) : Bool := c.entryPc == 0xDC00000000000000#64
/-- Is the card a draw (R99)? -/
def isDraw (c : Card) : Bool := c.stage == 1 || c.stage == 2
/-- Bits of the draw record (R100). -/
def drawF (c : Card) (hi lo : Nat) : Nat := bitsN (Maps.leNat c.drec) hi lo
def cullPass (c : Card) : Nat := c.drawF 385 384
def drawSeq (c : Card) : Nat := c.drawF 435 420
def viewMask (c : Card) : Nat := c.drawF 403 388
def frameVa (c : Card) : Dword := BitVec.ofNat 64 (if c.isDraw then c.drawF 1023 960 else recField c.drec 0 8)
end Card

/-- Registers and scratchpad of a carve code in KiB (R160). -/
def carveSizes (code : Nat) : Nat × Nat :=
  ([(2048, 4096), (2048, 5120), (2048, 5888), (3072, 4096), (3072, 4864), (1024, 6144)][code]?).getD (0, 0)

/-! Frame and view records. -/

def allZero (bs : List Byte) (off n : Nat) : Bool := recField bs off n == 0

/-- Is a frame record bad (R115)? -/
def frameBad (va : Dword) (r : List Byte) : Bool :=
  va.toNat % 64 != 0 || recField r 24 4 == 0 || recField r 24 4 % 65536 != 0 || recField r 28 2 == 0 || recField r 32 1 == 0 ||
    !allZero r 33 3 || recField r 36 4 % 65536 != 0 || !allZero r 48 16

def frameDraws (r : List Byte) : Nat := recField r 28 2
def frameNo (r : List Byte) : Nat := recField r 30 2
def dieMask (r : List Byte) : Nat := recField r 32 1

/-- Do a warp's breakpoints decrease (R116)? -/
def warpBad (r : List Byte) : Bool :=
  (List.range 6).any fun i => decide (signedN 16 (recField r (2 * i + 2) 2) < signedN 16 (recField r (2 * i) 2))

def fullBad (n : Nat) : Bool := decide (n < 32) || decide (16384 < n) || n % 32 != 0

/-- Is a view record bad (R116)? -/
def viewBad (r : List Byte) : Bool :=
  decide (recField r 220 1 ≥ 3) || !allZero r 221 3 || !allZero r 252 4 || fullBad (recField r 216 2) || fullBad (recField r 218 2) ||
    recField r 240 2 != (recField r 216 2 + 7) / 8 || recField r 242 2 != (recField r 218 2 + 7) / 8 ||
    warpBad (r.drop 184) || warpBad (r.drop 200)

/-- The view record of a frame, as an engine of a die reads it. -/
def readView (s : State) (d c : Nat) (frec : List Byte) (v : Nat) : Except (Reason × Dword) (List Byte) :=
  engineRead s d c (BitVec.ofNat 64 (recField frec 0 8 + 256 * v)) 256

/-- Is a view of a frame there and good? -/
def viewGood (s : State) (d c : Nat) (frec : List Byte) (v : Nat) : Bool :=
  match readView s d c frec v with
  | .ok r => !viewBad r
  | .error _ => false

/-- The frame record that a stage's record names, if it can be read and is good. -/
def goodFrame (s : State) (d c : Nat) (va : Dword) : Option (List Byte) :=
  match engineRead s d c va 64 with
  | .ok r => if frameBad va r then none else some r
  | .error _ => none

/-! The records that the die sequencer reads when a card becomes ready. -/

/-- A card's record as read: its bytes, the frame record's, and whether the card is bad, with the reason that a failed read
met. -/
structure StageRead where
  drec : List Byte := []
  frec : List Byte := []
  bad  : Bool := false
  info : Nat := 0
deriving DecidableEq, Repr

/-- The draw record of a card (R99, R101). -/
def readDraw (s : State) (d : Nat) (c : Card) : StageRead :=
  match engineRead s d c.ctx c.param 128 with
  | .error e => { bad := true, info := e.1.code }
  | .ok r =>
    let f (hi lo : Nat) : Nat := bitsN (Maps.leNat r) hi lo
    let fva : Dword := BitVec.ofNat 64 (f 1023 960)
    match goodFrame s d c.ctx fva with
    | none => { drec := r, frec := readBytes [] (engineRead s d c.ctx fva 64), bad := true }
    | some fr =>
      { drec := r, frec := fr
        bad := f 369 256 != 0 || f 95 4 != 0 || f 385 384 == 3 || f 403 388 == 0 || (setBits 16 (f 403 388)).any (fun v => !viewGood s d c.ctx fr v) ||
          f 419 404 != frameNo fr || decide (frameDraws fr ≤ f 435 420) || (f 385 384 != 0 && c.stage == 1) ||
          (f 385 384 == 2 && f 831 768 == 0) || (c.stage == 2 && c.tthr != 32) || decide (96 < f 379 373) ||
          decide (6 < effField s c.ctx c.region 24 279 276) }

/-- The tile record of a card (R128). One that cannot be read is bad, with the reason as INFO: the rule does not list it (DESIGN CHOICE, log
entry 29). -/
def readTile (s : State) (d : Nat) (c : Card) : StageRead :=
  match engineRead s d c.ctx c.param 64 with
  | .error e => { bad := true, info := e.1.code }
  | .ok r =>
    let comb := recField r 28 1
    match goodFrame s d c.ctx (BitVec.ofNat 64 (recField r 0 8)) with
    | none => { drec := r, bad := true }
    | some fr =>
      let v := recField r 26 1
      let width := recField (readBytes [] (readView s d c.ctx fr v)) 216 2
      { drec := r, frec := fr
        bad := decide (3 < recField r 27 1) || decide (16 ≤ v) || !allZero r 29 35 || decide (64 ≤ comb) || decide (4 < comb % 8) ||
          decide (4 < comb / 8 % 8) || !viewGood s d c.ctx fr v || recField r 24 2 != (width + 15) / 16 || decide (c.scr < 3) ||
          c.tthr % 32 != 0 }

/-- The ray launch record of a card (R146). -/
def readRay (s : State) (d : Nat) (c : Card) : StageRead :=
  match engineRead s d c.ctx c.param 64 with
  | .error e => { bad := true, info := e.1.code }
  | .ok r =>
    let mode := recField r 10 1
    let fr := if mode = 1 then goodFrame s d c.ctx (BitVec.ofNat 64 (recField r 0 8)) else none
    { drec := r, frec := fr.getD []
      bad := decide (1 < mode) || !allZero r 11 53 || (mode == 1 && (c.tthr != 1024 || decide (16 ≤ recField r 8 1) || decide (4 ≤ recField r 9 1) ||
        (match fr with
          | none => true
          | some x => !viewGood s d c.ctx x (recField r 8 1)))) }

/-- The frame record that a card's record names, and the views whose records are read with it. -/
def StageRead.frame (c : Card) (r : StageRead) : Option Dword :=
  if r.drec.isEmpty ∨ (c.stage = 4 ∧ recField r.drec 10 1 ≠ 1) then none
  else some (BitVec.ofNat 64 (if c.isDraw then recField r.drec 120 8 else recField r.drec 0 8))
def StageRead.views (c : Card) (r : StageRead) : List Nat :=
  if c.isDraw then setBits 16 (bitsN (Maps.leNat r.drec) 403 388) else if c.stage = 3 then [recField r.drec 26 1] else [recField r.drec 8 1]

/-- What the reads of a card's records leave (R56, R58 to R60). -/
def stageMeet (d : Nat) (c : Card) (r : StageRead) (s : State) : State :=
  if !c.isDraw ∧ c.stage ≠ 3 ∧ c.stage ≠ 4 then s
  else
    let s := engineMeet d c.ctx c.param (if c.isDraw then 128 else 64) s
    match r.frame c with
    | none => s
    | some fva =>
      let s := engineMeet d c.ctx fva 64 s
      if r.frec.isEmpty then s
      else (r.views c).foldl (fun s v => engineMeet d c.ctx (BitVec.ofNat 64 (recField r.frec 0 8 + 256 * v)) 256 s) s

/-- Is the card a ray card of MODE 1 (R146)? -/
def Card.warpedRay (c : Card) : Bool := c.stage == 4 && recField c.drec 10 1 == 1

/-- The view and strip of a tile or warped ray card (R128, R146). -/
def Card.viewStrip (c : Card) : Nat × Nat :=
  if c.stage = 3 then (recField c.drec 26 1, recField c.drec 27 1 % 4) else (recField c.drec 8 1, recField c.drec 9 1 % 4)

/-! Latches (R121, R122). -/

/-- The latch of a frame's strip of a view, once it has latched (R121, R122). -/
def latchOf (s : State) (view strip frame : Nat) : Option Dword :=
  (viewAt s view).past.find? fun l => bitsN l.toNat 63 48 == frame % 65536 && bitsN l.toNat 47 46 == strip % 4

/-- A strip's geometry under its latch with a view record (R116, R119). -/
def geoOf (view strip frame : Nat) (l : Dword) (rec_ : List Byte) : StripGeo :=
  { view := view, strip := strip, frame := frame % 65536, rec_ := rec_, gx := BitVec.ofNat 16 l.toNat, gy := BitVec.ofNat 16 (l.toNat / 2 ^ 16) }

/-- The geometry of a view's strip for a frame record, once latched. -/
def frameGeo (s : State) (d c : Nat) (frec : List Byte) (view strip : Nat) : Option StripGeo :=
  match latchOf s view strip (frameNo frec), readView s d c frec view with
  | some l, .ok r => some (geoOf view strip (frameNo frec) l r)
  | _, _ => none

/-- The tiles of a strip that a die owns, row-major (R123, R129). -/
def ownedTiles (g : StripGeo) (mask die : Nat) : List (Nat × Nat) :=
  (List.range g.rows).flatMap fun ty => ((List.range g.cols).filter fun tx => tileOwner mask g.view g.strip tx ty == some die).map fun tx => (tx, ty)

/-- Is a card ready (R76)? -/
def Card.isReady (c : Card) : Bool := match c.st with
  | .gated _ => false
  | .released => false
  | _ => true

/-- A card's team count set once it is ready and its strip has latched (R129, R146). -/
def countTiles (s : State) (die : Nat) (c : Card) : Card :=
  if c.counted || !c.isReady then c
  else
    let (v, k) := c.viewStrip
    match frameGeo s die c.ctx c.frec v k with
    | none => c
    | some g => { c with
        counted := true, geo := g
        count := if c.lost then c.next else if c.stage = 3 then (ownedTiles g (dieMask c.frec) die).length else g.rows * g.cols }

/-- The team counts of every card that a latch settles. -/
def settleCounts (s : State) : State :=
  let settle (k : Nat) (d : Die) : Die := { d with cards := Maps.mapAll d.cards fun _ c => countTiles s k c }
  { s with dies := Maps.mapAll s.dies settle }

end Sys2Proof.Machine
end

