-- ==== Sys2Proof/Machine/Sync.lean ====
section
/-! DEFINITION. Team barriers (R387 to R390) and task instructions (R391 to R394). -/

namespace Sys2Proof.Machine

/-! Team barriers. -/

/-- Has the group arrived in the current phase (R388)? -/
def hasArrived (s : State) : Bool := (curTeam s).barIn.getLsbD (indexOf s.cur)

/-- The issuing group arrives; with a request when it renegotiates (R162). -/
def arrive (req : Option Word) (s : State) : State :=
  let i := indexOf s.cur
  let s := onCur (fun g => { g with arrived := some (curTeam s).barPhase }) s
  onCurTeam (fun t => { t with
    barIn := t.barIn ||| laneMask i
    reallocs := match req with
      | some r => Maps.set t.reallocs i r
      | none => t.reallocs }) s

/-- The issuing group waits for the current phase, which may complete at once. -/
def barrierWait (w : Nat → Wait) (s : State) : State :=
  settleBarrier (handleOf s.cur) (onCur (fun g => { g with waiting := some (w (curTeam s).barPhase) }) s)

/-- `bar` and `bar.pub`: arrive and wait (R387, R229). `pub`: after every earlier access is acknowledged. -/
def barWord (pub : Bool) (_ : Group) (s : State) : WordOut :=
  { stall := hasArrived s || (pub && anyOut s)
    ctl := some fun s => barrierWait (fun ph => .barrier ph pub) (arrive none s) }

/-- `bar.realloc` (R162, R387, R389). -/
def barReallocWord (d a : BitVec 6) (g : Group) (s : State) : WordOut :=
  { stall := hasArrived s || anyOut s
    uses := [.scl a.toNat], dests := [.scl d.toNat]
    ctl := some fun s => barrierWait (fun _ => .realloc d.toNat) (arrive (some (g.s a.toNat)) s) }

/-- `bar.wait` (R387, R388). -/
def barWaitWord (_ : Group) (_ : State) : WordOut :=
  { ctl := some fun s => match (groupOf s s.cur).arrived with
      | some ph => if ph = (curTeam s).barPhase then onCur (fun g => { g with waiting := some (.barrier ph false) }) s else s
      | none => s }

/-- R387. Arrive at and wait on the team barrier. -/
def execBar (_c : Bool) (s : State) : Out := issue (barWord false) s

/-- R229. Team barrier with release and acquire halves publishing copies. -/
def execBarPub (_c : Bool) (s : State) : Out := issue (barWord true) s

/-- R162. Team barrier requesting a new register and scratchpad allotment. -/
def execBarRealloc (_c : Bool) (d a : BitVec 6) (s : State) : Out := issue (barReallocWord d a) s

/-- R387. Arrive at the team barrier without waiting. -/
def execBarArrive (_c : Bool) (s : State) : Out :=
  issue (fun _ st => { stall := hasArrived st, ctl := some fun s => settleBarrier (handleOf s.cur) (arrive none s) }) s

/-- R388. Wait for the phase of the latest arrival. -/
def execBarWait (_c : Bool) (s : State) : Out := issue (barWaitWord) s

/-! Posts (R73, R80, R391). -/

/-- The order of an operation of a group's core and scheduler among those of one clock (R80). -/
def groupRank (s : State) (k : Nat) (target : Nat) : Nat :=
  let core := (teamAt s (handleOf k)).core
  if dieOfCore core = target then 1000 + 4 * core + (groupOf s k).sched else 100000 + dieOfCore core

/-- Is a die's card store full, the posts on their way to it counted (R73)? -/
def storeFull (s : State) (d : Nat) : Bool :=
  let x := dieAt s d
  decide (4096 ≤ x.cards.length + (x.posts.filter fun p => !p.held).length)

/-- The bytes of a team's scratchpad, at its core or in its save area (R200, R304). -/
def scratchBytes (s : State) (c h off n : Nat) : List Byte :=
  match tltState s c h with
  | 1 => Maps.readBytes (teamAt s h).scratch off n
  | _ => bytesAt s.mem (tltTsa s c h + 0x140000 + off) n

/-- The bytes that a target names, for a device's read on behalf of a group. -/
def targetBytes (s : State) (t : Team) (tg : Target) (n : Nat) : List Byte :=
  match tg with
  | .phys pa _ => if isHbm pa then bytesAt s.mem pa n else List.replicate n 0
  | .scratch off => Maps.readBytes t.scratch off n
  | .remote h off => scratchBytes s t.ctx h off n
  | _ => []

/-- A read of `n` bytes through the group's translation at an aligned address, by which an instruction takes a structure
(R391): its fault, and its bytes. -/
def structRead (s : State) (g : Group) (va : Dword) (n : Nat) : Option (Raise ⊕ ParkReq) × List Byte :=
  let t := curTeam s
  let tg := checkTarget s t (resolve s t (!g.sup) va n .load) n .load
  let tg := match tg with
    | .phys pa _ => if isHbm pa && poisoned s.mem pa n then .inlane .poison 0 else tg
    | _ => tg
  if va.toNat % n ≠ 0 then (some (.inl { cause := .align, mask := g.active, addr := va }), [])
  else match faultOf tg g.active va .load (!g.sup) with
    | some f => (some f, [])
    | none => (none, targetBytes s t tg n)

/-- Is an access of the group to the same bytes on its way (R219)? -/
def structBusy (s : State) (g : Group) (va : Dword) : Bool :=
  match resolve s (curTeam s) (!g.sup) va 1 .load with
  | .phys pa _ => outstanding s s.cur fun r => r.op.writes && r.space == .llc && r.pa / 64 == pa / 64
  | .scratch _ => outstanding s s.cur fun r => r.space == .remote (handleOf s.cur)
  | .remote h _ => tltMove s (curTeam s).ctx h || outstanding s s.cur fun r => r.space == .remote h
  | _ => false

/-- `post` (R73, R391). -/
def postWord (e : BitVec 2) (a : BitVec 6) (g : Group) (s : State) : WordOut :=
  let va := g.s64 a.toNat
  let (f, bs) := structRead s g va 64
  let t := curTeam s
  let own := dieOfCore t.core
  let d := match e.toNat with
    | 0 => own
    | 1 => (own + 1) % 8
    | _ => (own + 7) % 8
  let fs := f.toList
  { stall := structBusy s g va
    uses := [.scl a.toNat, .scl (a.toNat + 1)]
    raises := raisesOf fs, parks := parksOf fs, addrs := fs.flatMap fun _ => (lanesOf g.active).map fun l => (l, va)
    effect := fun s =>
      let full := storeFull s d
      let p : Post := { rank := groupRank s s.cur d, bits := lineOf bs, addr := va, ctx := t.ctx, region := some t.region
                        held := full, group := some s.cur }
      let s := onDie d (fun x => { x with posts := x.posts ++ [p] }) s
      if full then onCur (fun g => { g with waiting := some .post }) s else s }

/-- R391. Post a job card to this or a neighbouring die pair. -/
def execPost (_c : Bool) (e : BitVec 2) (a : BitVec 6) (s : State) : Out := issue (postWord e a) s

/-! Team counts, events and counters (R392 to R394). -/

/-- `lgrow` (R392): the launch's count and the status. Of a launch whose unissued indices are discarded, so are the new ones (R94, R302). -/
def growCount (c : Card) (n : Nat) : Nat × Nat :=
  let kept (m : Nat) : Nat := if c.lost then c.count else m
  if c.noGrow then (c.count, 1)
  else if 0xFFFFFFFF < c.count + n then (kept 0xFFFFFFFF, 2)
  else (kept (c.count + n), 0)

def lgrowWord (d a : BitVec 6) (g : Group) (_ : State) : WordOut :=
  { uses := [.scl a.toNat], dests := [.scl d.toNat]
    effect := fun s =>
      let t := curTeam s
      match Maps.find (dieAt s t.die).cards t.slot with
      | none => s
      | some c =>
        let (n, st) := growCount c (g.s a.toNat).toNat
        onCur (fun live => live.setS d.toNat (BitVec.ofNat 32 st))
          (onDie t.die (fun x => { x with cards := Maps.set x.cards t.slot { c with count := n } }) s) }

/-- The record that `evpost` enters: KIND 4, bits [21:16] zero (R393). -/
def evpostBits (lo hi : Dword) : BitVec 128 :=
  ((hi.setWidth 128 <<< 64) ||| (lo.setWidth 128)) &&& ~~~0xF83F0000#128 ||| 0x20000000#128

def evpostWord (a : BitVec 6) (g : Group) (s : State) : WordOut :=
  let n := a.toNat
  let t := curTeam s
  let die := dieOfCore t.core
  { stall := 1024 ≤ (dieAt s die).events.length
    uses := (List.range 4).map fun i => .scl (n + i)
    effect := onDie die fun x => { x with events := x.events ++ [{
      bits := evpostBits (g.s64 n) (g.s64 (n + 2)), ctx := t.ctx, region := t.region }] } }

/-- A counter operation on its way to the die that its address names (R70, R78). -/
def sendCtr (addr : Nat) (kind : CtrKind) (s : State) : State :=
  let d := addr / 4096 % 8
  let t := curTeam s
  onDie d (fun x => { x with ctrOps := x.ctrOps ++ [{
    idx := addr % 4096, kind := kind, src := .depdec s.cur t.ctx t.region, rank := groupRank s s.cur d }] }) s

def depdecWord (a : BitVec 6) (g : Group) (_ : State) : WordOut :=
  { uses := [.scl a.toNat]
    effect := fun s => onCur (fun live => { live with waiting := some .counter }) (sendCtr (g.s a.toNat).toNat .dec s) }

def depsetWord (a b : BitVec 6) (g : Group) (_ : State) : WordOut :=
  { uses := [.scl a.toNat, .scl b.toNat], effect := sendCtr (g.s a.toNat).toNat (.set ((g.s b.toNat).toNat % 2 ^ 20)) }

/-- R392. Add to the launch's team count. -/
def execLgrow (_c : Bool) (d a : BitVec 6) (s : State) : Out := issue (lgrowWord d a) s

/-- R393. Enter an event record into the die's event queue. -/
def execEvpost (_c : Bool) (a : BitVec 6) (s : State) : Out := issue (evpostWord a) s

/-- R394. Decrement a dependency counter, trapping on underflow. -/
def execDepdec (_c : Bool) (a : BitVec 6) (s : State) : Out := issue (depdecWord a) s

/-- R391. Set a dependency counter. -/
def execDepset (_c : Bool) (a b : BitVec 6) (s : State) : Out := issue (depsetWord a b) s

end Sys2Proof.Machine
end

