-- ==== Sys2Proof/Machine/Cards.lean ====
section
/-! DEFINITION. Posting and rejection (R73, R74, R81), gates and dependency counters (R75, R78 to R80), and readiness
(R76, R77, R85). -/

namespace Sys2Proof.Machine

/-! The checks of a post (R74, R434). -/

/-- Is the region chain of a card whole (R63)? -/
def chainOk (s : State) (c h : Nat) : Bool := (regionChain s c h).isSome

/-- The teams of a shape that fit an empty core: by registers, scratchpad, group slots, and the region's GPC and SCRMAX
(R74, R161). -/
def fitsEmpty (s : State) (c : Card) : Nat :=
  let (rk, sk) := carveSizes c.carve
  let gpc := effField s c.ctx c.region 17 48 40
  let sm := effField s c.ctx c.region 18 55 49
  let ng := max 1 c.groups
  let byScr := if c.scr = 0 then 256 else min (sk / 64 / c.scr) (sm / c.scr)
  min (min (rk * 1024 / (ng * 128 * c.allot)) byScr) (min (256 / ng) (gpc / ng))

/-- A decompression card's own conditions (R434). -/
def decompOk (c : Card) : Bool :=
  c.tthr == 1 && c.sx == 1 && c.sy == 1 && c.nteam == 1 && c.stage == 0 && c.carve == 0 && cardF c.bits 273 270 == 0 && c.scr == 0 &&
    !c.coRes && !c.hearth && c.param.toNat % 64 == 0

/-- Does a card pass the checks of R74 at die pair `d`? -/
def cardOk (s : State) (d : Nat) (c : Card) : Bool :=
  cardF c.bits 447 440 == 0 && cardF c.bits 383 380 == 0 && cardF c.bits 287 284 == 0 && decide (c.carve ≤ 5) && decide (c.stage ≤ 4) &&
    c.tthr != 0 && decide (c.tthr ≤ 1024) && c.sx != 0 && c.sy != 0 && c.nteam != 0 && decide (c.scr ≤ 96) &&
    !(bitN c.gate 15 && bitsN c.gate 14 12 != d) && ctxValid s c.ctx && !ctxFaulted s c.ctx && chainOk s c.ctx c.region &&
    !(c.hearth && effClass s c.ctx c.region != 0) && fitsEmpty s c != 0 && (!c.isDecomp || decompOk c) &&
    !(c.coRes && decide (fitsEmpty s c *
        min (24 - (if c.hearth then 0 else (dieAt s d).dsctl.toNat % 16)) (effField s c.ctx c.region 16 39 32) < c.nteam))

/-! Posts (R73, R75, R81). -/

/-- A post's place among those that arrive in one clock (R80). -/
def takePost (ps : List Post) : Option Post :=
  (ps.filter fun p => !p.held).foldl (fun a p => match a with
    | none => some p
    | some q => if p.rank < q.rank then some p else a) none

/-- The first of a list that meets `p` removed. -/
def removeFirst {α : Type} (p : α → Bool) : List α → List α
  | [] => []
  | x :: xs => if p x then xs else x :: removeFirst p xs

/-- The record of a post that is refused (R74) or comes to a die in thermal reset (R38). -/
def postRecord (s : State) (d : Nat) (r : Reason) (p : Post) (info : Nat) : FaultRec :=
  let region := cardF p.bits 399 384
  match p.region with
  | some h => unitRecord d r p.ctx h p.addr info false
  | none =>
    if r = .thermal then unitRecord d r 0 0 p.addr info true
    else unitRecord d r (if ctxValid s p.ctx then p.ctx else 0) region p.addr info (!ctxValid s p.ctx || !chainOk s p.ctx region)

/-- A counter operation on its way to a die (R78). -/
def pushCtr (d : Nat) (op : CtrOp) (s : State) : State := onDie d (fun x => { x with ctrOps := x.ctrOps ++ [op] }) s

/-- A card taken into the store: released, or on its way to park on its gate (R73, R75). -/
def storeCard (d : Nat) (c : Card) (s : State) : State :=
  let x := dieAt s d
  let slot := ((List.range 4096).find? fun i => (Maps.find x.cards i).isNone).getD 0
  let gated := bitN c.gate 15
  let s := onDie d (fun x => { x with
    queueSeq := x.queueSeq + 1
    cards := Maps.set x.cards slot { c with posted := x.queueSeq, st := if gated then .gated 0 else .released } }) s
  if gated then pushCtr d { idx := c.gate % 4096, kind := .park slot, src := .control 0, rank := 0 } s else s

/-- R73. A post reaches the die sequencer: checked, then stored, parked or released. -/
def postArrives (d : Nat) (p : Post) (s : State) : State :=
  let s := onDie d (fun x => { x with posts := removeFirst (· == p) x.posts }) s
  let c : Card := { bits := p.bits, addr := p.addr, ctx := p.ctx, posted := 0, st := .released }
  let c := { c with count := c.nteam, noGrow := c.coRes || c.stage == 3, counted := c.stage != 3 }
  if (dieAt s d).heldReset then record d (postRecord s d .thermal p d) s
  else if cardOk s d c then storeCard d c s
  else record d (postRecord s d .badcard p 0) s

def execCardPostArrival (die : BitVec 3) (s : State) : Out :=
  match takePost (dieAt s die.toNat).posts with
  | some p => .next (postArrives die.toNat p s)
  | none => .refused .notDue

/-- A held post let go on (R73, R81). -/
def freePost (d : Nat) (p : Post) (s : State) : State :=
  let s := onDie d (fun x => { x with posts := removeFirst (· == p) x.posts ++ [{ p with held := false }] }) s
  match p.group with
  | some k => onGroup k (fun g => if g.waiting = some .post then { g with waiting := none } else g) s
  | none => s

/-- The held post that a free entry lets go on: the first of those that wait. -/
def heldPost (s : State) (d : Nat) : Option Post :=
  if storeFull s d then none else (dieAt s d).posts.find? (·.held)

/-- R73. An entry freeing in a full card store lets a stalled or held post proceed. -/
def execCardStoreEntryFreed (die : BitVec 3) (s : State) : Out :=
  match heldPost s die.toNat with
  | some p => .next (freePost die.toNat p s)
  | none => .refused .notDue

/-- The bytes of a card at a physical address, as a die sequencer reads them, or the reason that the read meets (R16, R32, R60, R81). -/
def postRead (s : State) (d pa : Nat) : Except Reason (List Byte) :=
  if !reachable s.mem pa 64 then .error .nophys
  else if (lostLink s (enginePort d) pa 64).isSome then .error .linkdown
  else if rangeErr s.mem pa 64 ≠ 0 then .error .ecc
  else if poisoned s.mem pa 64 then .error .poison
  else .ok (bytesAt s.mem pa 64)

/-- A control core's write of DSPOST (R81). -/
def writeDspost (d cc : Nat) (w : Dword) (s : State) : State :=
  let v := w.toNat
  let c := bitsN v 63 52
  let pa := bitsN v 45 6 * 64
  let root (ok : Bool) (r : Reason) (info : Nat) (s : State) : State :=
    record d (unitRecord d r (if ok then c else 0) 0 (BitVec.ofNat 64 pa) info true) s
  if (dieAt s d).heldReset then root false .thermal d s
  else
  let u := if reachable s.mem pa 64 then readVia (enginePort d) 2 pa 64 s else s
  match postRead s d pa with
  | .error r => root (ctxValid s c) .structfault (2 * 256 + r.code) u
  | .ok bs =>
    let p : Post := { rank := 200000 + cc, bits := lineOf bs, addr := BitVec.ofNat 64 pa, ctx := c, region := none, held := storeFull s d }
    if !ctxValid s c ∨ ctxFaulted s c ∨ bitsN v 51 46 ≠ 0 ∨ v % 64 ≠ 0 then record d (postRecord s d .badcard p 0) u
    else onDie d (fun x => { x with posts := x.posts ++ [p] }) u

/-- R81. A control core's DSPOST write reads a card from physical memory and posts it. -/
def execDspostWrite (die : BitVec 3) (cc : BitVec 4) (w : BitVec 64) (s : State) : Out := .next (writeDspost die.toNat cc.toNat w s)

/-- A write of DCTRn (R81). -/
def writeDctr (d n cc : Nat) (w : Dword) (s : State) : State :=
  let op (k : CtrKind) : State := pushCtr d { idx := n, kind := k, src := .control cc, rank := 200000 + cc } s
  match bitsN w.toNat 63 62 with
  | 1 => op (.set (w.toNat % 2 ^ 20))
  | 2 => op .dec
  | _ => s

/-- R81. A DCTRn write with OP 1 sets the counter. -/
def execDctrSet (die : BitVec 3) (n : BitVec 12) (cc : BitVec 4) (w : BitVec 64) (s : State) : Out :=
  if bitsN w.toNat 63 62 = 1 then .next (writeDctr die.toNat n.toNat cc.toNat w s) else .refused .notDue

/-- R81. A DCTRn write with OP 2 decrements the counter. -/
def execDctrDecrement (die : BitVec 3) (n : BitVec 12) (cc : BitVec 4) (w : BitVec 64) (s : State) : Out :=
  if bitsN w.toNat 63 62 = 2 then .next (writeDctr die.toNat n.toNat cc.toNat w s) else .refused .notDue

/-! Dependency counters (R78 to R80). -/

/-- The order of the operations of one step: sets, decrements by source, parks (R80). -/
def CtrOp.order (o : CtrOp) : Nat := match o.kind with
  | .set _ => 0
  | .dec => 1 + o.rank
  | .park _ => 2 ^ 20

/-- The cards parked on a counter released, with the core of the launch whose retirement did it (R75, R88). -/
def releaseParked (n : Nat) (core : Option Nat) (d : Die) : Die :=
  { d with
    released := d.released + 1
    cards := Maps.mapAll d.cards fun _ c => match c.st with
      | .gated k => if k ≠ 0 ∧ c.gate % 4096 = n then { c with st := .released, gateCore := core } else c
      | _ => c }

/-- The record of an underflow (R79). -/
def underRecord (s : State) (d n : Nat) (src : CtrSrc) : FaultRec :=
  let addr := d * 4096 + n
  match src with
  | .retire c h sd _ => unitRecord d .depunder c h 0 (addr + sd * 2 ^ 18) false
  | .event c h sd => unitRecord d .depunder c h 0 (addr + 2 ^ 16 + sd * 2 ^ 18) false
  | .depdec k c h =>
    if (Maps.find s.groups k).isSome then
      groupRecord s k (Cause.code .depunder) .depunder (groupOf s k).active (groupOf s k).pc 0 (addr + 2 * 2 ^ 16)
    else unitRecord d .depunder c h 0 (addr + 2 * 2 ^ 16) false
  | .control _ => unitRecord d .depunder 0 0 0 (addr + 3 * 2 ^ 16) true

/-- The record of an operation that comes to a die in thermal reset (R38). -/
def ctrThermal (d : Nat) (src : CtrSrc) : FaultRec :=
  match src with
  | .retire c h _ _ => unitRecord d .thermal c h 0 d false
  | .event c h _ => unitRecord d .thermal c h 0 d false
  | .depdec _ c h => unitRecord d .thermal c h 0 d false
  | .control _ => unitRecord d .thermal 0 0 0 d true

/-- The group that a `depdec` holds goes on (R394). -/
def ctrReply (o : CtrOp) (s : State) : State :=
  match o.kind, o.src with
  | .dec, .depdec k _ _ => onGroup k (fun g => if g.waiting = some .counter then { g with waiting := none } else g) s
  | _, _ => s

/-- The core of the launch by whose retirement the step's decrements have brought the counter to 0, after one operation more (R80,
R88). -/
def lastRelease (v : Nat) (o : CtrOp) (before : Option Nat) : Option Nat :=
  match o.kind, o.src with
  | .dec, .retire _ _ _ c => if v = 1 then c else before
  | .dec, _ => if v = 1 then none else before
  | .set _, _ => none
  | .park _, _ => before

/-- One operation applied to a counter (R78, R79). `rel`: the core of a release in the same step, which a card that parks on 0 is released
by too (R80, R88). -/
def applyCtr (d : Nat) (o : CtrOp) (rel : Option Nat) (s : State) : State :=
  let n := o.idx
  let v := (Maps.get 0 (dieAt s d).ctrs n).toNat
  let put (x : Nat) (s : State) : State := onDie d (fun y => { y with ctrs := Maps.put 0 y.ctrs n (BitVec.ofNat 20 x) }) s
  let core : Option Nat := match o.src with
    | .retire _ _ _ c => c
    | _ => none
  if (dieAt s d).heldReset then ctrReply o (record d (ctrThermal d o.src) s)
  else match o.kind with
  | .set x =>
    let s := put x s
    if v ≠ 0 ∧ x = 0 then onDie d (releaseParked n none) s else s
  | .dec =>
    let s := ctrReply o s
    if v = 0 then
      let r := underRecord s d n o.src
      let s := record r.die r s
      match o.src with
      | .depdec k _ _ => onGroup k (fun g => { g with deliver := lowest (g.deliver.toList ++ [raise .depunder g.active]) }) s
      | _ => s
    else
      let s := put (v - 1) s
      if v = 1 then onDie d (releaseParked n core) s else s
  | .park slot => onDie d (fun y => { y with
      parkSeq := y.parkSeq + 1
      cards := Maps.modify y.cards slot fun c =>
        if v = 0 then { c with st := .released, gateCore := rel } else { c with st := .gated (y.parkSeq + 1) } }) s

/-- Has an operation reached counter `n` by a clock (R492)? -/
def CtrOp.reaches (clock n : Nat) (o : CtrOp) : Bool := o.idx == n && decide (o.leaves ≤ clock)

/-- R78. Every operation that has reached a counter, applied in the order of R80 as one step. -/
def updateCounter (d n : Nat) (s : State) : State :=
  let ops := (dieAt s d).ctrOps.filter (CtrOp.reaches s.clock n)
  let s := onDie d (fun y => { y with ctrOps := y.ctrOps.filter (!CtrOp.reaches s.clock n ·), ctrAt := Maps.set y.ctrAt n (s.clock + 1) }) s
  ((sortBy CtrOp.order ops).foldl (fun (a : Option Nat × State) o =>
    (lastRelease (Maps.get 0 (dieAt a.2 d).ctrs n).toNat o a.1, applyCtr d o a.1 a.2)) (none, s)).2

/-- The counters of a die with operations to apply in this clock. -/
def countersDue (s : State) (d : Nat) : List Nat :=
  let x := dieAt s d
  (((x.ctrOps.filter fun o => decide (o.leaves ≤ s.clock)).map (·.idx)).eraseDups).filter fun n => Maps.get 0 x.ctrAt n != s.clock + 1

def execCounterUpdate (die : BitVec 3) (n : BitVec 12) (s : State) : Out :=
  if (countersDue s die.toNat).contains n.toNat then .next (updateCounter die.toNat n.toNat s) else .refused .notDue

/-! Readiness (R76, R77, R85). -/

/-- A released card whose earlier cards of its queue, `also` counted, are all ready (R76). -/
def mayReady (cards : AMap Card) (also : List Nat) (slot : Nat) (c : Card) : Bool :=
  c.st == .released && !also.contains slot &&
    cards.all fun e => !(e.2.queue == c.queue && decide (e.2.posted < c.posted)) || e.2.isReady || also.contains e.1

/-- The cards that become ready together, in the order in which they are found. -/
def readySet (cards : AMap Card) : Nat → List Nat → List Nat
  | 0, also => also
  | n + 1, also =>
    match Maps.keys cards (mayReady cards also) with
    | [] => also
    | ks => readySet cards n (also ++ ks)

/-- The order of R85: gating counter, then park or post order. -/
def readyOrder (cards : AMap Card) (slot : Nat) : Nat :=
  match Maps.find cards slot with
  | none => 0
  | some c => (if bitN c.gate 15 then c.gate % 4096 else 4096) * 2 ^ 64 + c.posted

/-- The bits of a card's visibility predicate: all zero, or the read's failure (R77). -/
def predicate (s : State) (d : Nat) (c : Card) : Except (Reason × Dword) Bool :=
  if c.vlen = 0 then .ok true
  else
    let first := c.vbase / 8
    let n := (c.vbase + c.vlen - 1) / 8 - first + 1
    match engineRead s d c.ctx (BitVec.ofNat 64 (c.vtab + first)) n with
    | .error e => .error e
    | .ok bs => .ok ((List.range c.vlen).any fun i => bitN (Maps.leNat bs) (c.vbase % 8 + i))

/-- What the read of a visibility predicate leaves (R56, R58 to R60). -/
def predicateMeet (d : Nat) (c : Card) (s : State) : State :=
  if c.vlen = 0 then s
  else engineMeet d c.ctx (BitVec.ofNat 64 (c.vtab + c.vbase / 8)) ((c.vbase + c.vlen - 1) / 8 - c.vbase / 8 + 1) s

/-- The record of the card's stage, as the die sequencer reads it. -/
def stageRead (s : State) (d : Nat) (c : Card) : StageRead :=
  if c.isDraw then readDraw s d c else if c.stage = 3 then readTile s d c else if c.stage = 4 then readRay s d c else {}

/-- A tile card of a frame's strip that has already become ready on the die (R128). -/
def tileTwice (x : Die) (c : Card) : Bool :=
  c.stage == 3 && (Maps.get [] x.tileSeen (c.viewStrip.1 * 4 + c.viewStrip.2)).contains (c.ctx, c.frameVa, frameNo c.frec)

/-- A tile card that has become ready remembered (R128). -/
def seeTile (c : Card) (m : AMap (List (Nat × Dword × Nat))) : AMap (List (Nat × Dword × Nat)) :=
  if c.stage = 3 ∧ !c.frec.isEmpty then
    let k := c.viewStrip.1 * 4 + c.viewStrip.2
    Maps.set m k (Maps.get [] m k ++ [(c.ctx, c.frameVa, frameNo c.frec)])
  else m

/-- A card becomes ready: its number, its predicate, its stage's record (R77, R85, R99, R128, R146). A draw that its predicate skips writes no
BADDRAW record, however bad its own record is (R101 does not say; DESIGN CHOICE, log entry 29). -/
def becomeReady (d : Nat) (s : State) (slot : Nat) : State :=
  match Maps.find (dieAt s d).cards slot with
  | none => s
  | some c =>
    let r := stageRead s d c
    let s' := predicateMeet d c (stageMeet d c r s)
    let c := { c with st := .ready (dieAt s d).readySeq.toNat, seq := (dieAt s d).readySeq.toNat, drec := r.drec, frec := r.frec }
    let c := if c.warpedRay then { c with noGrow := true, counted := false } else c
    let c := if c.isDraw && c.cullPass != 0 then { c with noGrow := true, count := 0, cullDone := false } else c
    let p := predicate s d c
    let s := s'
    let twice := tileTwice (dieAt s d) c
    let bad := r.bad || twice
    let none_ (c : Card) : Card := { c with count := 0, counted := true, cullDone := true }
    let put (c : Card) (s : State) : State := onDie d (fun x => { x with
      readySeq := x.readySeq + 1
      cards := Maps.set x.cards slot c
      tileSeen := seeTile c x.tileSeen }) s
    match p with
    | .error e => record d (unitRecord d .structfault c.ctx c.region e.2 (256 + e.1.code) false) (put (none_ { c with skipped := true }) s)
    | .ok false => put (none_ { c with skipped := true }) s
    | .ok true =>
      if bad then
        record d (unitRecord d (if c.stage = 3 then .badtile else .baddraw) c.ctx c.region c.addr (if c.stage = 3 then 0 else r.info) false)
          (put (none_ { c with st := .bad }) s)
      else put (countTiles s d c) s

/-- R76. Every released card whose turn in its queue has come becomes ready; once in a clock, after the clock's counter operations (R85). -/
def readyCards (d : Nat) (s : State) : State :=
  let cs := (dieAt s d).cards
  let ks := sortBy (readyOrder cs) (readySet cs (cs.length + 1) [])
  onDie d (fun x => { x with readyAt := s.clock + 1 }) (ks.foldl (becomeReady d) s)

def readyDue (s : State) (d : Nat) : Bool :=
  let x := dieAt s d
  x.readyAt != s.clock + 1 && (countersDue s d).isEmpty && x.cards.any fun e => mayReady x.cards [] e.1 e.2

def execCardReady (die : BitVec 3) (s : State) : Out :=
  if readyDue s die.toNat then .next (readyCards die.toNat s) else .refused .notDue

end Sys2Proof.Machine
end

