-- ==== Sys2Proof/Machine/Sched.lean ====
section
/-! DEFINITION. The strip schedule of the display (R140 to R142): view output blocks, strip starts, deadlines, leads. -/

namespace Sys2Proof.Machine

def vobF (v : View) (hi lo : Nat) : Nat := bitsN v.vob.toNat hi lo
namespace View
def histBase (v : View) : Nat := vobF v 511 448
def firnBase (v : View) : Nat := vobF v 447 384
def firnW (v : View) : Nat := vobF v 383 368
def firnH (v : View) : Nat := vobF v 367 352
def fillColour (v : View) : Nat := vobF v 351 320
def start (v : View) : Nat := vobF v 319 256
def period (v : View) : Nat := vobF v 255 224
def budgetField (v : View) : Nat := vobF v 223 192
def leadField (v : View) : Nat := vobF v 191 160
def pen (v : View) : Bool := vobF v 127 127 == 1
def port (v : View) : Nat := vobF v 126 120
def full (v : View) : Nat × Nat := match v.record with
  | some r => (recField r 216 2, recField r 218 2)
  | none => (0, 0)
end View

def clkMul (s : State) : Nat := bitsN s.display.serclk.toNat 15 8
def clkDiv (s : State) : Nat := max 1 (bitsN s.display.serclk.toNat 23 16)
def clkOn (s : State) : Bool := bitN s.display.serclk.toNat 0

/-- A number of strip cycles, rounded up, of `n` per 100 MHz (R141, R142). -/
def cyclesUp (s : State) (n : Nat) : Nat := (n * clkMul s + clkDiv s - 1) / clkDiv s

/-- The least budget, 1.2 ms (R141). -/
def minBudget (s : State) : Nat := cyclesUp s 120000

/-- BUDGET as used: clamp(BUDGET, the least, PERIOD div 4) (R141). -/
def budgetOf (s : State) (v : View) : Nat := min (max v.budgetField (minBudget s)) (v.period / 4)

/-- The tiles per strip that a port carries: the sum T of R142. -/
def portTiles (s : State) (port : Nat) : Nat :=
  s.display.views.foldl (fun n e =>
    if e.2.period ≠ 0 ∧ e.2.port = port then
      let (w, h) := e.2.full
      n + (w + 31) / 32 * ((h + 127) / 128)
    else n) 0

/-- LEADMIN (R142). -/
def leadMin (s : State) (v : View) : Nat :=
  let a := (portTiles s v.port * 65 + 2) * 512 * clkMul s
  (a + clkDiv s * 16000 - 1) / (clkDiv s * 16000) + cyclesUp s 200

/-- The lead L (R142). -/
def leadOf (s : State) (v : View) : Nat := max v.leadField (leadMin s v)

/-- A view output block as it reads (R141): what was written, LEADMIN of a view that is enabled, the current strip, the counts. -/
def vobValue (s : State) (v : View) : Nat :=
  let n := v.strip.getD 0
  v.vob.toNat + (if v.period = 0 then 0 else leadMin s v % 2 ^ 32) * 2 ^ 128 + n / 4 % 65536 * 2 ^ 104 + n % 4 * 2 ^ 102 +
    min v.late (2 ^ 32 - 1) * 2 ^ 64 + min v.sealLate (2 ^ 32 - 1) * 2 ^ 32 + min v.emitted (2 ^ 32 - 1)

/-- The SCOUNT at which strip `n` = 4 × frame + k starts (R142). -/
def stripAt (v : View) (n : Nat) : Nat := v.start + n / 4 * v.period + n % 4 * (v.period / 4)

/-- The strip that starts at a SCOUNT, if one does (R142). -/
def stripStarting (v : View) (sc : Nat) : Option Nat :=
  if v.period = 0 ∨ sc < v.start then none
  else
    let f := (sc - v.start) / v.period
    let r := (sc - v.start) % v.period
    let q := v.period / 4
    if q ≠ 0 ∧ r % q = 0 ∧ r / q < 4 then some (4 * f + r / q) else none

/-- The first strip that starts at a SCOUNT or later. -/
def nextStrip (v : View) (sc : Nat) : Nat :=
  if sc ≤ v.start then 0
  else
    let f := (sc - v.start) / max 1 v.period
    ((List.range 5).find? fun k => decide (sc ≤ stripAt v (4 * f + k))).getD 4 + 4 * f

/-- The SCOUNT at which the strip in progress replaces its tiles (R143). -/
def replaceAt (s : State) (v : View) : Nat := v.deadline - leadOf s v

/-- Strip cycles as arithmetic clocks, rounded up (R19, R140). -/
def clocksOf (s : State) (cycles : Nat) : Nat := (cycles * 35 * clkDiv s + 2 * clkMul s - 1) / max 1 (2 * clkMul s)

/-- Has the strip of a frame passed its deadline (R122)? The frame's number counts modulo 65,536. -/
def stripPassed (s : State) (view strip frame : Nat) : Bool :=
  let v := viewAt s view
  match v.strip with
  | none => false
  | some n =>
    let ahead := (frame + 65536 - n / 4 % 65536) % 65536
    if ahead = 0 then
      decide (strip < n % 4) || (strip == n % 4 && decide (v.deadline ≤ s.display.scount.toNat))
    else decide (32768 ≤ ahead)

end Sys2Proof.Machine
end

