-- ==== Sys2Proof/Machine/Raster.lean ====
section
/-! DEFINITION. The raster engine: coverage and depth of a primitive in a tile (R118, R131), quad records (R132), rates
(R135, R136), plane blocks (R472), and the binding of a tile team (R130, R483). -/

namespace Sys2Proof.Machine

/-! Exact fractions. -/

/-- A fraction; its denominator is not zero. -/
structure Frac where
  n : Int
  d : Int
deriving DecidableEq, Repr

def Frac.ofInt (i : Int) : Frac := ⟨i, 1⟩
def Frac.sub (a b : Frac) : Frac := ⟨a.n * b.d - b.n * a.d, a.d * b.d⟩
def Frac.mul (a b : Frac) : Frac := ⟨a.n * b.n, a.d * b.d⟩
def Frac.add (a b : Frac) : Frac := ⟨a.n * b.d + b.n * a.d, a.d * b.d⟩
def Frac.div (a b : Frac) : Frac := ⟨a.n * b.d, a.d * b.n⟩

/-- Rounded once to FP32 under RNE. -/
def Frac.f32 (a : Frac) : Nat := Num.packRne Num.f32 (Num.div (Num.ofInt a.n) (Num.ofInt a.d))

/-- A coefficient of a plane block: its FP64 value, rounded once to FP32 under RNE (R472, log entry 15). -/
def Frac.coeff (a : Frac) : Nat :=
  Num.packRne Num.f32 (Num.decode Num.f64 (Num.packRne Num.f64 (Num.div (Num.ofInt a.n) (Num.ofInt a.d))))

/-- Rounded to the nearest integer, ties to even. -/
def Frac.round (a : Frac) : Int := fvInt .rne (Num.div (Num.ofInt a.n) (Num.ofInt a.d))

/-! Set-up of a primitive (R114, R118, R131). -/

/-- A value in units of 2^-149, none where it is not finite. -/
def units (w : Word) : Option Int :=
  match f32v w with
  | .fin s m e => let v : Int := m * 2 ^ (e + 149).toNat; some (if s then -v else v)
  | _ => none

/-- A vertex's clip coordinates and attributes, exact: x, y, z, w in 2^-149, the scale of these numbers (1, until a plane cuts an edge),
then 16 attributes in 2^-149, a value that is not finite as 0; none where a coordinate is not finite. -/
def exactVert (ws : List Word) : Option (List Int) :=
  ((ws.take 4).mapM units).map fun v => v ++ 1 :: (ws.drop 4).map fun w => (units w).getD 0

def vx (v : List Int) (i : Nat) : Int := (v[i]?).getD 0

/-- The polygon kept on the side of a plane on which `f` is not negative. The new vertices are exact: all coordinates
are homogeneous. -/
def clipBy (f : List Int → Int) (ps : List (List Int)) : List (List Int) :=
  (ps.zip (ps.drop 1 ++ ps.take 1)).flatMap fun e =>
    let (a, b) := e
    let fa := f a
    let fb := f b
    let cross : List Int := (a.zip b).map fun p => if 0 ≤ fa then fa * p.2 - fb * p.1 else fb * p.1 - fa * p.2
    (if 0 ≤ fa then [a] else []) ++ (if (0 ≤ fa) ≠ (0 ≤ fb) then [cross] else [])

/-- The clipped primitive: depth within [0, 1] and in front of the eye (R113, R118). -/
def clipped (ps : List (List Int)) : List (List Int) :=
  (clipBy (fun v => vx v 3 - vx v 2) (clipBy (fun v => vx v 2) ps)).filter fun v => decide (0 < vx v 3)

/-- A snapped vertex: unwarped position in 1/256 pixel (R131), depth and 1/w, then the attributes over w. -/
structure SnapVert where
  x  : Int
  y  : Int
  z  : Frac
  iw : Frac
  a  : List Frac
deriving DecidableEq, Repr

def snap (fw fh : Nat) (v : List Int) : SnapVert :=
  let w := vx v 3
  { x := Frac.round ⟨(vx v 0 + w) * fw * 128, w⟩, y := Frac.round ⟨(vx v 1 + w) * fh * 128, w⟩
    z := ⟨vx v 2, w⟩, iw := ⟨2 ^ 149 * vx v 4, w⟩, a := (v.drop 5).map fun t => ⟨t, w⟩ }

/-- Twice the signed area of a triangle. -/
def area2 (a b c : SnapVert) : Int := (b.x - a.x) * (c.y - a.y) - (c.x - a.x) * (b.y - a.y)

/-- The triangles of the clipped primitive that have an area, each turned so that it is positive. -/
def fan (vs : List SnapVert) : List (SnapVert × SnapVert × SnapVert) :=
  match vs with
  | a :: rest => (rest.zip (rest.drop 1)).filterMap fun e =>
      let t := area2 a e.1 e.2
      if t = 0 then none else if 0 < t then some (a, e.1, e.2) else some (a, e.2, e.1)
  | [] => []

/-- Is a point inside an edge from `a` to `b`: its function positive, or zero on a top or left edge; rows grow downward
(R131). -/
def insideEdge (a b : SnapVert) (x y : Int) : Bool :=
  let f := (b.x - a.x) * (y - a.y) - (x - a.x) * (b.y - a.y)
  decide (0 < f) || (f == 0 && ((a.y == b.y && decide (a.x < b.x)) || decide (b.y < a.y)))

def insideTri (t : SnapVert × SnapVert × SnapVert) (x y : Int) : Bool :=
  insideEdge t.1 t.2.1 x y && insideEdge t.2.1 t.2.2 x y && insideEdge t.2.2 t.1 x y

/-- The plane of a value over a triangle, positions in pixels: value = A·x + B·y + C, exact. -/
def planeOf (t : SnapVert × SnapVert × SnapVert) (f : SnapVert → Frac) : Frac × Frac × Frac :=
  let (a, b, c) := t
  let d : Frac := ⟨area2 a b c, 256 * 256⟩
  let px (i : Int) : Frac := ⟨i, 256⟩
  let u := (f b).sub (f a)
  let v := (f c).sub (f a)
  let pa := (((u.mul (px (c.y - a.y))).sub (v.mul (px (b.y - a.y)))).div d)
  let pb := (((v.mul (px (b.x - a.x))).sub (u.mul (px (c.x - a.x)))).div d)
  (pa, pb, ((f a).sub (pa.mul (px a.x))).sub (pb.mul (px a.y)))

def planeAt (p : Frac × Frac × Frac) (x y : Int) : Frac := ((p.1.mul ⟨x, 256⟩).add (p.2.1.mul ⟨y, 256⟩)).add p.2.2

/-- A primitive ready for coverage: its triangles, and for each the depth plane; the coefficient words of a plane block
(R131, R472). -/
structure Setup where
  tris   : List ((SnapVert × SnapVert × SnapVert) × (Frac × Frac × Frac))
  coeffs : List Word
deriving DecidableEq, Repr

def setup (g : StripGeo) (p : ViewPrim) : Setup :=
  match p.verts.mapM exactVert with
  | none => { tris := [], coeffs := [] }
  | some vs =>
    let ts := fan ((clipped vs).map (snap (recField g.rec_ 216 2) (recField g.rec_ 218 2)))
    let words (q : Frac × Frac × Frac) : List Word := [BitVec.ofNat 32 q.1.coeff, BitVec.ofNat 32 q.2.1.coeff, BitVec.ofNat 32 q.2.2.coeff]
    let attr (i : Nat) : List Word := p.verts.map fun v => (v[4 + i]?).getD 0
    { tris := ts.map fun t => (t, planeOf t (·.z))
      coeffs := match ts with
        | [] => []
        | t :: _ => words (planeOf t (·.iw)) ++ (List.range 16).flatMap fun i =>
          if (attr i).all fun w => (units w).isSome then words (planeOf t fun v => (v.a[i]?).getD ⟨0, 1⟩)
          else (List.range 3).map (Config.openCoeff (attr i)) }

/-! Coverage in a tile. -/

/-- The unwarped position of a sample of a tile in 1/256 pixel, none outside the strip or the extent (R118, R119, R131). -/
def sampleAt (g : StripGeo) (ax ay : Axis) (tx ty x y i : Nat) : Option (Int × Int) :=
  let wx := 32 * tx + x
  let wy := g.ybase + 32 * ty + y
  if ax.extent ≤ wx ∨ !g.hasRow wy then none
  else
    let o := samplePos g.samples i
    some (ax.unwarp256 (fixed (16 * (wx : Int) + o.1) 4), ay.unwarp256 (fixed (16 * (wy : Int) + o.2) 4))

/-- The depth of a primitive at a position, if it covers it. -/
def Setup.depthAt (u : Setup) (x y : Int) : Option Nat :=
  (u.tris.find? fun t => insideTri t.1 x y).map fun t => (planeAt t.2 x y).f32

/-- Is a new depth less than the stored one? -/
def depthLess (new old : Nat) : Bool := fvLt (Num.decode Num.f32 new) (Num.decode Num.f32 old)

/-- The samples of a tile that a primitive covers and passes, with their depths: pixel, sample (R131). -/
def passedSamples (t : Team) (g : StripGeo) (tx ty : Nat) (u : Setup) : List ((Nat × Nat) × Nat) :=
  let ax := g.axisX
  let ay := g.axisY
  let n := g.samples
  (List.range 1024).flatMap fun p => (List.range n).filterMap fun i =>
    match sampleAt g ax ay tx ty (p % 32) (p / 32) i with
    | none => none
    | some (x, y) =>
      match u.depthAt x y with
      | none => none
      | some z => if depthLess z (scrRead t (depthOff n p i) 4) then some ((p, i), z) else none

/-! Rates (R134, R135). -/

def combineRate (op a b : Nat) : Nat := match op with
  | 0 => a
  | 1 => b
  | 2 => min a b
  | 3 => max a b
  | _ => min (a + b) 2

/-- The log2 pair of a rate byte (R134). -/
def rateLog (r : Nat) : Nat × Nat := (min 2 (r % 4), min 2 (r / 4 % 4))

/-- The addresses of the rate bytes of a primitive's draw and of cell `c` of a tile in the screen rate image, 0 where the tile record has no
table (R128, R135). -/
def rateBytes (trec : List Byte) (g : StripGeo) (tx ty c : Nat) (p : ViewPrim) : Nat × Nat :=
  let x := (g.axisX.unwarp256 (Num.ofInt (32 * tx + 16 * (c % 2) + 8))).toNat / 256 / 16
  let y := (g.axisY.unwarp256 (Num.ofInt (g.ybase + 32 * ty + 16 * (c / 2) + 8))).toNat / 256 / 16
  (if recField trec 8 8 = 0 then 0 else recField trec 8 8 + p.draw,
    if recField trec 16 8 = 0 then 0 else recField trec 16 8 + y * recField trec 24 2 + x)

/-- The combined rate of a primitive in cell `c` of a tile (R135): its rate byte. A rate byte that cannot be read counts as 1 × 1, a DESIGN
CHOICE (log entry 29): the spec says nothing of it. -/
def cellRate (s : State) (die ctx : Nat) (trec : List Byte) (g : StripGeo) (tx ty c : Nat) (p : ViewPrim) : Nat :=
  let byte (va : Nat) : Nat := if va = 0 then 0 else match engineRead s die ctx (BitVec.ofNat 64 va) 1 with
    | .ok bs => Maps.leNat bs
    | .error _ => 0
  let d := byte (rateBytes trec g tx ty c p).1
  let i := byte (rateBytes trec g tx ty c p).2
  let comb := recField trec 28 1
  let one (a b e : Nat) : Nat := combineRate (comb / 8 % 8) (combineRate (comb % 8) a b) e
  one (rateLog d).1 (rateLog p.rate).1 (rateLog i).1 + 4 * one (rateLog d).2 (rateLog p.rate).2 (rateLog i).2

/-! Quad records (R132). -/

/-- The quads of a cell of a tile at a rate that hold a passed sample: top-left pixel and coverage bits. -/
def cellQuads (c rate : Nat) (hit : Nat → Nat → Bool) : List (Nat × Nat × Nat) :=
  let w := rateW rate
  let h := rateH rate
  (List.range (16 / (2 * h))).flatMap fun j => (List.range (16 / (2 * w))).filterMap fun i =>
    let qx := 16 * (c % 2) + 2 * w * i
    let qy := 16 * (c / 2) + 2 * h * j
    let cov := (List.range 4).foldl (fun a k => (List.range (w * h)).foldl (fun a p => (List.range 4).foldl (fun a m =>
      let x := qx + k % 2 * w + p % w
      let y := qy + k / 2 * h + p / w
      if hit (32 * y + x) m then a + 2 ^ ((k * 16 + p) * 4 + m) else a) a) a) 0
    if cov = 0 then none else some (qx, qy, cov)

/-- A quad record as a number (R132). -/
def quadNum (p : ViewPrim) (qx qy rate flags plane cov : Nat) : Nat :=
  p.ord % 2 ^ 32 + p.draw % 65536 * 2 ^ 32 + qx * 2 ^ 48 + qy * 2 ^ 56 + rate * 2 ^ 64 + flags * 2 ^ 72 + plane * 2 ^ 96 + cov * 2 ^ 128

/-- Room in the quad ring. -/
def ringFree (t : Team) : Nat := let r := ringOf t 0; if r.en then 2 ^ r.log - (r.head - r.free) else 0

/-- A record appended to ring 0, as a message is (R132, R288). -/
def appendQuad (q : Nat) (t : Team) : Team :=
  let r := ringOf t 0
  setRing 0 { r with head := r.head + 1 } (scrWrite (r.base + slotBytes r * (r.head % 2 ^ r.log)) 64 q t)

/-- The plane blocks that records not yet taken from the ring name (R132). -/
def planesUsed (t : Team) : List Nat :=
  let r := ringOf t 0
  (List.range (r.head - r.next)).map fun i => (quadAt t (r.base + slotBytes r * ((r.next + i) % 2 ^ r.log))).plane

/-- A free plane block (R130). -/
def freePlane (t : Team) : Option Nat :=
  let used := planesUsed t
  ((List.range 256).map fun i => 131072 + 256 * i).find? fun o => !used.contains o

/-- Bytes of the device's own format written into the scratchpad (log entry 13). -/
def deviceBytes (kind off n : Nat) (t : Team) : Team :=
  { t with scratch := Maps.writeBytes t.scratch off ((List.range n).map fun i => Config.deviceByte kind (off + i)) }

/-- Records appended as far as the ring has room: the team, and those left over (R132). -/
def appendQuads (qs : List Nat) (t : Team) : Team × List Nat :=
  let n := ringFree t
  ((qs.take n).foldl (fun t q => appendQuad q t) t, qs.drop n)

/-- A primitive applied in its tile team's scratchpad: depths, tags, and quad records, of which some may be left over (R131, R132); none
while the ring or the plane blocks have no room. `free`: the bit that says which way round the primitive faces, which no rule fixes. -/
def applyPrim (s : State) (die ctx : Nat) (trec : List Byte) (free : Nat) (p : ViewPrim) (t : Team) : Option (Team × List Nat) :=
  match t.kind with
  | .tile g tx ty _ =>
    let n := g.samples
    let u := setup g p
    let hits := passedSamples t g tx ty u
    let hit (px m : Nat) : Bool := hits.any fun h => h.1 == (px, m)
    let quads := (List.range 4).flatMap fun c =>
      let r := cellRate s die ctx trec g tx ty c p
      (cellQuads c r hit).map fun q => (q, r)
    if quads.isEmpty then some (t, [])
    else if ringFree t = 0 then none
    else match freePlane t with
      | none => none
      | some o =>
        let t := hits.foldl (fun t h =>
          let k := h.1.1 * n + h.1.2
          let t := scrWrite (depthOff n h.1.1 h.1.2) 4 h.2 t
          deviceBytes 1 (12288 * n + 4 * k) 4 { t with tags := Maps.set t.tags k (tagKey p.draw p.ord) }) t
        let t := deviceBytes 2 o 256 { t with planes := Maps.set t.planes o u.coeffs }
        some (appendQuads (quads.map fun q => quadNum p q.1.1 q.1.2.1 q.2 (free % 2) o q.1.2.2) t)
  | _ => some (t, [])

/-- What the reads of a primitive's rate bytes leave (R56, R58 to R60). -/
def rateMeet (die ctx : Nat) (trec : List Byte) (t : Team) (p : ViewPrim) (s : State) : State :=
  match t.kind with
  | .tile g tx ty _ =>
    ((List.range 4).flatMap fun c => [(rateBytes trec g tx ty c p).1, (rateBytes trec g tx ty c p).2]).foldl (fun s va =>
      if va = 0 then s else engineMeet die ctx (BitVec.ofNat 64 va) 1 s) s
  | _ => s

/-! The state of tiles at their owner (R124 to R127). -/

def tileKey (ctx : Nat) (fr : Dword) (frame view strip tx ty : Nat) : Nat :=
  ((((ctx * 2 ^ 64 + fr.toNat) * 65536 + frame) * 64 + view * 4 + strip) * 512 + ty) * 512 + tx

/-- The markers of a frame received: those below a DRAWSEQ, and in all (R124). -/
def markersBelow (x : Die) (t : Tile) (d : Nat) : Nat :=
  (x.markers.filter fun m => m.1 == t.fr && m.2.1 == t.frame && m.2.2.1 == t.ctx && decide (m.2.2.2 < d)).length
def markersAll (x : Die) (t : Tile) : Nat :=
  (x.markers.filter fun m => m.1 == t.fr && m.2.1 == t.frame && m.2.2.1 == t.ctx).length

/-- The primitives of a tile in key order (R124). -/
def tilePrims (t : Tile) : List ViewPrim := sortBy (fun p => tagKey p.draw p.ord) (t.moved ++ t.prims)

/-- The next primitive of a tile, if it may be applied (R124). -/
def nextPrim (x : Die) (t : Tile) : Option ViewPrim :=
  match tilePrims t with
  | p :: _ => if p.draw ≤ markersBelow x t p.draw then some p else none
  | [] => none

/-- The frame draws of a tile's team: the frame record its card was read with. -/
def teamFrame (s : State) (t : Team) : List Byte := ((Maps.find (dieAt s t.die).cards t.slot).map (·.frec)).getD []

/-- The team bound to a tile, with its handle, where it is resident (R131). -/
def boundTeam (s : State) (t : Tile) : Option (Nat × Team) :=
  match t.team with
  | none => none
  | some h => ((Maps.find s.teams h).filter fun tm => tm.gen == t.gen && tm.ctx == t.ctx).map fun tm => (h, tm)

/-- The same where it is resident or evicted. -/
def liveTeam (s : State) (t : Tile) : Option (Nat × Team) :=
  match boundTeam s t, t.team with
  | some x, _ => some x
  | none, some h => ((Maps.find s.saved h).filter fun tm => tm.gen == t.gen && tm.ctx == t.ctx).map fun tm => (h, tm)
  | none, none => none

/-- The end-of-tile record, once every marker is in and nothing is left to apply (R132, R483): of a tile that is late or abandoned too, whose
later primitives go (R127, R139). -/
def endTile (d key : Nat) (s : State) : State :=
  let x := dieAt s d
  match Maps.find x.tiles key with
  | none => s
  | some t =>
    match boundTeam s t with
    | none => s
    | some (h, tm) =>
        let all := frameDraws (teamFrame s tm)
        if t.ended ∨ all = 0 ∨ markersAll x t < all ∨ !(t.prims.isEmpty && t.moved.isEmpty && t.quads.isEmpty) ∨
            ringFree tm = 0 then s
        else onTeam h (appendQuad (2 * 2 ^ 72)) (onDie d (fun y => { y with tiles := Maps.modify y.tiles key fun t => { t with ended := true } }) s)

/-- The end-of-tile records that are now due on a die. -/
def endTiles (d : Nat) (s : State) : State := (Maps.keys (dieAt s d).tiles fun _ _ => true).foldl (fun s k => endTile d k s) s

/-- The initial contents of a tile team's scratchpad, and its quad ring (R130). -/
def bindScratch (n : Nat) (t : Team) : Team :=
  let depth := (List.range (1024 * n)).flatMap fun _ => ([0x00#8, 0x00#8, 0x80#8, 0x3F#8] : List Byte)
  let t := { t with scratch := Maps.writeBytes t.scratch (8192 * n) depth, tags := [], planes := [] }
  setRing 0 { en := true, base := 65536, log := 10, slot := 3 } (deviceBytes 1 (12288 * n) (4096 * n) t)

/-- A tile team bound to its tile at placement (R130, R132, R483). -/
def bindTile (h : Nat) (s : State) : State :=
  let t := teamAt s h
  match t.kind with
  | .tile g tx ty fr =>
    let key := tileKey t.ctx fr g.frame g.view g.strip tx ty
    let s := onTeam h (bindScratch g.samples) s
    let s := onDie t.die (fun x => { x with
      tiles := Maps.set x.tiles key { Maps.get { view := g.view, strip := g.strip, tx := tx, ty := ty, fr := fr, frame := g.frame, ctx := t.ctx } x.tiles key with
        team := some h, gen := t.gen, quads := [], sealed := false } }) s
    endTile t.die key s
  | _ => s

end Sys2Proof.Machine
end

