-- ==== Sys2Proof/Machine/Place.lean ====
section
/-! DEFINITION. The distributor (R86 to R97, R434): ready order and backfill, room and limits on cores, placement with the
entry state of every group (R105, R129, R130, R146, R330), co-resident launches and ADMHOLD, and drains. -/

namespace Sys2Proof.Machine

/-! Occupancy of cores (R160, R161, R65). -/

/-- The teams on a core. -/
def teamsOn (s : State) (core : Nat) : AMap Team := s.teams.filter fun e => e.2.core == core

/-- Register bytes and scratchpad units that the teams on a core hold (R161). -/
def regsUsed (s : State) (core : Nat) : Nat := (teamsOn s core).foldl (fun n e => n + e.2.ngroups * 128 * e.2.regs) 0
def scrUsed (s : State) (core : Nat) : Nat := (teamsOn s core).foldl (fun n e => n + e.2.scr) 0

/-- The groups that hold a slot of a core: scheduler and slot (R149). -/
def coreSlots (s : State) (core : Nat) : List (Nat × Nat) :=
  (s.groups.filter fun e => !e.2.exited && (teamAt s (handleOf e.1)).core == core).map fun e => (e.2.sched, e.2.slot)

def schedCount (slots : List (Nat × Nat)) (i : Nat) : Nat := (slots.filter fun x => x.1 == i).length

/-- The scheduler that holds the fewest resident groups (R149). -/
def firstSched (slots : List (Nat × Nat)) : Nat :=
  (List.range 4).foldl (fun b i => if schedCount slots i < schedCount slots b then i else b) 0

/-- The scheduler of group `g` of a team placed now (R149). -/
def schedOf (slots : List (Nat × Nat)) (g : Nat) : Nat := (firstSched slots + g) % 4

/-- Does each scheduler have room for its groups of a new team (R149, R161)? -/
def slotsFit (slots : List (Nat × Nat)) (n : Nat) : Bool :=
  (List.range 4).all fun i => decide (schedCount slots i + ((List.range n).filter fun g => schedOf slots g == i).length ≤ 64)

/-- The teams of a region's subtree (R65). -/
def subtreeTeams (s : State) (c r : Nat) : AMap Team :=
  s.teams.filter fun e => e.2.ctx == c && ((regionChain s c e.2.region).getD []).contains r

/-- Do the limits of one region of a chain leave room on a core for a team of `n` groups and `scr` units (R65)? -/
def limitFits (s : State) (c r core n scr : Nat) : Bool :=
  let own (bit : Nat) : Bool := r == 0 || rcbField s c r bit bit == 1
  let ts := subtreeTeams s c r
  let here := ts.filter fun e => e.2.core == core
  let groups := (s.groups.filter fun e => !e.2.exited && here.any fun t => t.1 == handleOf e.1).length
  let cores := ((core :: ts.map fun e => e.2.core).eraseDups).length
  (!own 16 || decide (cores ≤ rcbField s c r 39 32)) && (!own 17 || decide (groups + n ≤ rcbField s c r 48 40)) &&
    (!own 18 || decide (here.foldl (fun a e => a + e.2.scr) 0 + scr ≤ rcbField s c r 55 49))

/-! What is to be placed. -/

/-- A team to be placed: its shape, what it is for, its index, and the payload of a mesh group (R105). -/
structure Plan where
  slot    : Nat
  ctx     : Nat
  region  : Nat
  carve   : Nat
  hearth  : Bool
  regs    : Nat
  scr     : Nat
  tthr    : Nat
  ngroups : Nat
  kind    : TeamKind
  tidx    : Nat
  payload : Dword := 0
  /-- The team takes an entry of the mesh payload ring. -/
  ring    : Bool := false
  entry   : Dword := 0
deriving DecidableEq, Repr

/-- May a card still issue teams? -/
def Card.wants (c : Card) : Bool := c.isReady && c.st != .bad && c.st != .engine && !c.lost && c.counted

/-- The team of index `next` of a card's own (R71, R105, R129, R146). -/
def ownPlan (s : State) (die slot : Nat) (c : Card) : Plan :=
  { slot := slot, ctx := c.ctx, region := c.region, carve := c.carve, hearth := c.hearth, regs := c.allot, scr := c.scr, tthr := c.tthr
    ngroups := c.groups, tidx := c.next, entry := c.entryPc
    kind :=
      if c.stage = 1 then .task
      else if c.stage = 2 then .mesh c.next
      else if c.stage = 3 then
        let (tx, ty) := ((ownedTiles c.geo (dieMask c.frec) die)[c.next]?).getD (0, 0)
        .tile c.geo tx ty c.frameVa
      else if c.stage = 4 ∧ recField c.drec 10 1 = 1 then .ray
      else let _ := s; .compute }

/-- A mesh group from the ring (R105). -/
def meshPlan (slot : Nat) (c : Card) (e : MeshEnt) : Plan :=
  { slot := slot, ctx := c.ctx, region := c.region, carve := c.carve, hearth := c.hearth
    regs := if c.stage = 1 then 16 * (c.drawF 383 380 + 1) else c.allot
    scr := if c.stage = 1 then c.drawF 379 373 else c.scr
    tthr := 32, ngroups := 1, kind := .mesh e.order, tidx := e.k, payload := e.payload, ring := true
    entry := if c.stage = 1 then BitVec.ofNat 64 (c.drawF 767 704) else c.entryPc }

/-- The next team of a card, mesh groups that are in the ring first. -/
def nextPlan (s : State) (die slot : Nat) (c : Card) : Option Plan :=
  if !c.wants then none
  else match (dieAt s die).meshRing.find? fun e => e.slot == slot with
    | some e => some (meshPlan slot c e)
    | none => if c.next < c.count then some (ownPlan s die slot c) else none

/-! Eligible cores (R88, R93). -/

/-- Has a team's card a place in the hearth reserve or does the core stand outside it (R89)? -/
def reserveOk (s : State) (core : Nat) (hearth : Bool) : Bool :=
  hearth || decide (core % 24 < 24 - min 8 ((dieAt s (core / 24)).dsctl.toNat % 16))

/-- A card of a die by its number in the order of posting. -/
def cardByPost (s : State) (die posted : Nat) : Option (Nat × Card) := (dieAt s die).cards.find? fun e => e.2.posted == posted

/-- Is there something to place for a card: teams, ring entries, evicted teams to restore, or its job (R97, R434)? -/
def hasWork (s : State) (die slot : Nat) (c : Card) : Bool :=
  !ctxFaulted s c.ctx && c.isReady && !c.lost &&
    (!c.restores.isEmpty || (nextPlan s die slot c).isSome) && c.st != .engine

/-- Does a drain's requester still want its team (R93)? -/
def drainLive (s : State) (core posted : Nat) : Bool :=
  match cardByPost s (core / 24) posted with
  | some (slot, c) => hasWork s (core / 24) slot c
  | none => false

/-- The class of a drain that a core is under, if any (R93). -/
def drainClass (s : State) (core : Nat) : Option Nat :=
  match (coreAt s core).draining with
  | some (cls, posted) => if drainLive s core posted then some cls else none
  | none => none

/-- Is a core eligible for a team (R88)? -/
def coreFits (s : State) (p : Plan) (core : Nat) : Bool :=
  let k := coreAt s core
  let empty := (teamsOn s core).isEmpty
  let (rk, sk) := carveSizes p.carve
  (empty || k.carve == p.carve) && !k.refusing && !(dieAt s (core / 24)).heldReset && reserveOk s core p.hearth &&
    (match drainClass s core with
      | some cls => decide (effClass s p.ctx p.region ≤ cls)
      | none => true) &&
    decide (regsUsed s core + p.ngroups * 128 * p.regs ≤ rk * 1024) && decide (scrUsed s core + p.scr ≤ sk / 64) &&
    slotsFit (coreSlots s core) p.ngroups &&
    ((regionChain s p.ctx p.region).getD []).all fun r => limitFits s p.ctx r core p.ngroups p.scr

/-- The distributor's pick among cores (R88). `launch`: the die pair and slot of the team's launch. -/
def pickCore (s : State) (p : Plan) (launch : Nat × Nat) (gateCore : Option Nat) (cores : List Nat) : Option Nat :=
  let ok := cores.filter fun n => coreFits s p n
  let first (f : Nat → Bool) : Option Nat := ok.find? f
  (first fun n => gateCore == some n).orElse fun _ =>
    (first fun n => (teamsOn s n).any fun e => e.2.die == launch.1 && e.2.slot == launch.2).orElse fun _ =>
    (first fun n => !(teamsOn s n).isEmpty).orElse fun _ => first fun _ => true

/-- The cores of a die pair. -/
def dieCores (die : Nat) : List Nat := (List.range 24).map fun i => 24 * die + i

/-! Placing a team (R96, R149, R150, R330). -/

/-- The lowest free handle of a die pair that is not dead in a context (R96). -/
def freeHandleOf (s : State) (die c : Nat) : Option Nat :=
  let used := (dieAt s die).handles
  ((List.range (2 ^ 17)).map fun i => die * 2 ^ 17 + i).find? fun h => !used.contains h && tltState s c h != 3

/-- The lowest free slot of a scheduler. -/
def freeSlot (slots : List (Nat × Nat)) (i : Nat) : Nat := ((List.range 64).find? fun n => !slots.contains (i, n)).getD 0

/-- The tile identifier of R129. -/
def tileIdent (g : StripGeo) (tx ty : Nat) : Nat := tx + ty * 2 ^ 9 + g.strip * 2 ^ 26 + g.view * 2 ^ 28

/-- The extra entry values of a group of a stage (R105, R129, R146). -/
def stageEntry (p : Plan) (geo : StripGeo) (gi : Nat) (g : Group) : Group :=
  match p.kind with
  | .mesh _ => g.setS64 4 p.payload
  | .tile t tx ty _ => (g.setS 4 (BitVec.ofNat 32 (tileIdent t tx ty))).setS 5 (BitVec.ofNat 32 t.frame)
  | .ray =>
    let ax := geo.axisX
    let ay := geo.axisY
    let at_ (l : Nat) : Nat × Nat :=
      let i := 32 * gi + l
      (32 * (p.tidx % max 1 geo.cols) + i % 32, geo.ybase + 32 * (p.tidx / max 1 geo.cols) + i / 32)
    let ndc (a : Axis) (x : Nat) : Word := BitVec.ofNat 32 (Num.packRne Num.f32 (a.unwarp32 (fixed (2 * (x : Int) + 1) 1)))
    let all := List.range 32
    let g := g.setLanes 1 (fun l => ndc ax (at_ l).1) all
    let g := g.setLanes 2 (fun l => ndc ay (at_ l).2) all
    let g := g.setLanes 3 (fun l => BitVec.ofNat 32 (at_ l).1) all
    let g := g.setLanes 4 (fun l => BitVec.ofNat 32 (at_ l).2) all
    { g with active := maskOf fun l => decide ((at_ l).1 < ax.extent) && geo.hasRow (at_ l).2 }
  | _ => g

/-- A group as a team begins it (R330, R246). -/
def entryGroup (s : State) (die h : Nat) (c : Card) (p : Plan) (sched slot gi : Nat) : Group :=
  let k := Nat.xor (h % 2 ^ 16) (gi * 2048)
  let g : Group := {
    pc := p.entry, active := maskOf fun l => decide (32 * gi + l < p.tthr), mode := if p.ctx = 0 then 1 else 0
    trapbase := (dieAt s die).dtrapbase, fpm := BitVec.ofNat 32 (k * 2 ^ 16), sched := sched, slot := slot
    lastIssue := s.clock, idle := true, entry := true }
  let g := (((g.setS64 0 c.param).setS 2 (BitVec.ofNat 32 p.tidx)).setS 3 (BitVec.ofNat 32 gi)).reseed k
  let g := g.setLanes 0 (fun l => BitVec.ofNat 32 (32 * gi + l)) (List.range 32)
  let g := stageEntry p c.geo gi g
  { g with gone := ~~~g.active }

/-- The groups of a new team, each in its scheduler's lowest free slot (R149). -/
def entryGroups (s : State) (die h : Nat) (c : Card) (p : Plan) (slots : List (Nat × Nat)) : List Nat → AMap Group → AMap Group
  | [], gs => gs
  | gi :: rest, gs =>
    let i := schedOf slots gi
    -- earlier groups of the team have taken slots of the same scheduler
    let used := slots ++ (gs.filter fun e => handleOf e.1 == h).map fun e => (e.2.sched, e.2.slot)
    entryGroups s die h c p slots rest (Maps.set gs (groupKey h gi) (entryGroup s die h c p i (freeSlot used i) gi))

/-- A core's carve code set for a team; a change finds the core empty and invalidates its L1 (R88, R160). -/
def setCarve (core carve : Nat) (s : State) : State :=
  if (coreAt s core).carve = carve then s else dropL1 core (onCore core (fun k => { k with carve := carve }) s)

/-- The launch's share of a placement: the index or ring entry is taken (R90, R104). -/
def takePlan (die : Nat) (p : Plan) (s : State) : State :=
  onDie die (fun d => { d with
    meshRing := if p.ring then removeFirst (fun e => e.slot == p.slot) d.meshRing else d.meshRing
    cards := Maps.modify d.cards p.slot fun c =>
      let c := { c with st := .serving, live := c.live + 1, placed := true }
      if p.ring then c
      else { c with next := c.next + 1, meshLive := c.meshLive + (if c.stage = 2 then 1 else 0) } }) s

/-- A region control block that the die pair may now hold cached (R67). -/
def cacheRcb (die c r : Nat) (s : State) : State :=
  onDie die (fun d => { d with rcbCache := if d.rcbCache.contains (c, r) then d.rcbCache else (c, r) :: d.rcbCache }) s

/-- A team placed on a core (R88, R96, R330): handle and generation, registers and scratchpad zero but for the entry values,
the acquire of its start. -/
def placeTeam (die : Nat) (p : Plan) (core : Nat) (s : State) : State :=
  match Maps.find (dieAt s die).cards p.slot, freeHandleOf s die p.ctx with
  | some c, some h =>
    let gen := tltGen s p.ctx h
    let slots := coreSlots s core
    let t : Team := {
      gen := gen, ctx := p.ctx, region := p.region, die := die, slot := p.slot, tidx := p.tidx, core := core, regs := p.regs
      scr := p.scr, tthr := p.tthr, ngroups := p.ngroups, kind := p.kind }
    let groups := entryGroups s die h c p slots (List.range p.ngroups) s.groups
    let s := setCarve core p.carve s
    let s := takePlan die p (setTlt p.ctx h 0 1 false gen core s)
    let s := onDie die (fun d => { d with handles := h :: d.handles }) s
    let s := dropL1 core { s with groups := groups, teams := Maps.set s.teams h t }
    let s := ((regionChain s p.ctx p.region).getD []).foldl (fun s r => cacheRcb die p.ctx r s) (putCused p.ctx p.region s)
    bindTile h s
  | _, _ => s

/-- The teams that a card has to place: its own, and those in the ring (R88, R105). -/
def toPlace (s : State) (die slot : Nat) (c : Card) : Nat :=
  c.count - c.next + ((dieAt s die).meshRing.filter fun e => e.slot == slot).length

/-- Every team of a co-resident card placed, one core after another; none unless all have places (R88). -/
def placeAll (die slot : Nat) : Nat → State → Option State
  | 0, s => some s
  | n + 1, s =>
    match Maps.find (dieAt s die).cards slot with
    | none => none
    | some c =>
      match nextPlan s die slot c with
      | none => some s
      | some p =>
        match pickCore s p (die, slot) c.gateCore (dieCores die) with
        | some core => if (freeHandleOf s die p.ctx).isSome then placeAll die slot n (placeTeam die p core s) else none
        | none => none

/-- The drains of a card that is served, over: cores take any team again, and deadlines go (R93). -/
def endDrain (die posted : Nat) (s : State) : State :=
  let cores := (dieCores die).filter fun n => match (coreAt s n).draining with
    | some (_, p) => p == posted
    | none => false
  let s := cores.foldl (fun s n => onCore n (fun k => { k with draining := none }) s) s
  { s with teams := Maps.mapAll s.teams fun _ t => if cores.contains t.core then { t with drainAt := none } else t }

/-- A card's next team placed, or all of a co-resident card's, if there is room (R88). -/
def serveCard (s : State) (die slot : Nat) (c : Card) : Option State :=
  match nextPlan s die slot c with
  | none => none
  | some p =>
    let r := if c.coRes then placeAll die slot (toPlace s die slot c) s
      else if (freeHandleOf s die p.ctx).isNone then none
      else (pickCore s p (die, slot) c.gateCore (dieCores die)).map fun core => placeTeam die p core s
    r.map (endDrain die c.posted)

/-! Ready order, backfill and holds (R86, R87). -/

/-- A card's place in the ready order (R86). -/
def readyRank (s : State) (c : Card) : Nat :=
  (effClass s c.ctx c.region * 16 + (15 - min (effPrio s c.ctx c.region) c.prio)) * 2 ^ 32 + c.seq

/-- The cards with something to place, in ready order (R86); cards whose region chain cannot be read are passed over
(R63). -/
def readyList (s : State) (die : Nat) : AMap Card :=
  sortBy (fun e => readyRank s e.2) ((dieAt s die).cards.filter fun e => hasWork s die e.1 e.2 && chainOk s e.2.ctx e.2.region)

/-- Rank without the sequence number. -/
def rankClass (s : State) (c : Card) : Nat := readyRank s c / 2 ^ 32

/-- The co-resident card whose hold is in force: until its teams are placed (R87). -/
def holdCard (s : State) (die : Nat) : Option (Nat × Card) :=
  match (dieAt s die).admitHold with
  | none => none
  | some (hold, posted) => match Maps.find (dieAt s die).cards hold with
    | none => none
    | some k => if k.posted == posted && !k.placed && hasWork s die hold k then some (hold, k) else none

/-- Does the hold of a co-resident card of a die shut a card out there (R87)? `home`, `slot`: where the card stands. Its rank is of its class
and its priority (R86). -/
def heldOut (s : State) (die home slot : Nat) (c : Card) : Bool :=
  bitsN (dieAt s die).dsctl.toNat 19 8 != 0 &&
    match holdCard s die with
    | none => false
    | some (hold, k) => !(hold == slot && die == home) && decide (rankClass s k ≤ rankClass s c)

/-! Drains (R92, R93). -/

/-- Strip cycles to the next strip start of a view, less its lead, as clocks and at least 20 µs (R93); none where the view is
disabled or its clock stands still. -/
def viewDeadline (s : State) (v : Nat) : Option Nat :=
  let w := viewAt s v
  if w.period = 0 ∨ !clkOn s then none
  else
    let sc := s.display.scount.toNat
    some (max 35000 (clocksOf s (stripAt w (nextStrip w sc) - sc - leadOf s w)))

/-- The requesting view of a HEARTH card (R93). -/
def requestView (s : State) (die : Nat) (c : Card) : Nat :=
  if c.isDraw then ((setBits 16 c.viewMask).head?).getD 0
  else if c.stage = 3 then recField c.drec 26 1
  else if c.warpedRay then recField c.drec 8 1
  else bitsN (dieAt s die).dsctl.toNat 7 4

/-- The drain deadline of a victim in clocks (R93). -/
def deadlineOf (s : State) (die : Nat) (c : Card) (t : Team) : Nat :=
  let own := effDrain s t.ctx t.region * 1750
  if c.hearth then (viewDeadline s (requestView s die c)).getD own else own

/-- A team's effective priority: the lower of its region's and its card's (R86). -/
def teamPrio (s : State) (t : Team) : Nat :=
  let own := effPrio s t.ctx t.region
  match Maps.find (dieAt s t.die).cards t.slot with
  | some c => min own c.prio
  | none => own

/-- The cores a card of a class may drain, in the order of R92; a core that drains for a lower class is one of them. -/
def victims (s : State) (die : Nat) (c : Card) : List Nat :=
  let cls := effClass s c.ctx c.region
  let ok (n : Nat) : Bool :=
    let ts := teamsOn s n
    !ts.isEmpty && ((drainClass s n).all fun k => decide (cls < k)) && !(coreAt s n).refusing && reserveOk s n c.hearth &&
      ts.all fun e => decide (cls < effClass s e.2.ctx e.2.region)
  let key (n : Nat) : Nat :=
    let ts := teamsOn s n
    let lowCls := ts.foldl (fun a e => max a (effClass s e.2.ctx e.2.region)) 0
    let lowPrio := ts.foldl (fun a e => min a (teamPrio s e.2)) 15
    (((3 - lowCls) * 16 + lowPrio) * 65536 + (coreSlots s n).length) * 256 + n
  sortBy key ((dieCores die).filter ok)

/-- The state as if some cores held no team. -/
def withoutCores (cores : List Nat) (s : State) : State :=
  { s with
    teams := s.teams.filter fun e => !cores.contains e.2.core
    groups := s.groups.filter fun e => !cores.contains (teamAt s (handleOf e.1)).core }

/-- The shortest prefix of the victims without which a card's next team would fit (R92). -/
def drainSet (s : State) (die : Nat) (c : Card) (fits : State → Bool) : Option (List Nat) :=
  let vs := victims s die c
  ((List.range vs.length).map fun n => vs.take (n + 1)).find? fun cs => fits (withoutCores cs s)

/-- Has a card's drain started already? -/
def drainsFor (s : State) (die posted : Nat) : Bool :=
  (dieCores die).any fun n => match (coreAt s n).draining with
    | some (_, p) => p == posted
    | none => false

/-- A drain started: its cores, and the deadline of each victim, that of an earlier drain where it comes first (R92, R93). -/
def startDrain (die : Nat) (c : Card) (cores : List Nat) (s : State) : State :=
  let cls := effClass s c.ctx c.region
  let s' := cores.foldl (fun s n => onCore n (fun k => { k with draining := some (cls, c.posted) }) s) s
  { s' with teams := Maps.mapAll s'.teams fun _ t =>
      let new := s.clock + deadlineOf s die c t
      if cores.contains t.core then { t with drainAt := some (min new (t.drainAt.getD new)) } else t }

/-! The distributor's next deed. -/

inductive Deed where
  /-- The state after a placement, a job's start, a drain's start, or a record of a region control block. -/
  | served (s : State)
  /-- The first evicted team of a card in a slot is the next to be restored, on a core (R97). -/
  | restore (slot h core : Nat)

/-- The plan of an evicted team's restore, from the header of its save area (R304). -/
def restorePlan (s : State) (slot : Nat) (c : Card) (tsa : Nat) : Plan :=
  let b (o n : Nat) : Nat := natAt s.mem (tsa + o) n
  { slot := slot, ctx := c.ctx, region := c.region, carve := b 17 1, hearth := c.hearth, regs := 16 * (b 18 1 % 16 + 1)
    scr := b 19 1, tthr := 0, ngroups := b 16 1, kind := .compute, tidx := b 12 4 }

/-- Does a core have physical slots for the weight-buffer slots of an evicted team (R456)? -/
def weightsFit (s : State) (h core : Nat) : Bool :=
  decide (((Maps.get {} s.saved h).wslots.filter fun w => w.2.held).length ≤ freeSlots s core false + freeSlots s core true)

/-- The core on which an evicted team is restored: any of any die pair (R97). -/
def restoreCore (s : State) (die slot : Nat) (c : Card) (h tsa : Nat) : Option Nat :=
  pickCore s (restorePlan s slot c tsa) (die, slot) c.gateCore
    ((List.range 192).filter fun n => (dieAt s (n / 24)).running && weightsFit s h n && !heldOut s (n / 24) die slot c)

/-- A drain begun for a card whose next team has no place, unless it drains already (R92). -/
def drainDeed (s : State) (die : Nat) (c : Card) (fits : State → Bool) : Option Deed :=
  if drainsFor s die c.posted then none else (drainSet s die c fits).map fun cs => .served (startDrain die c cs s)

/-- What a card gives the distributor to do now, if anything (R87, R92, R97, R434). -/
def cardDeed (s : State) (die slot : Nat) (c : Card) : Option Deed :=
  if c.restores.isEmpty && heldOut s die die slot c then none
  else match c.restores with
  | (h, tsa) :: _ => match restoreCore s die slot c h tsa with
    | some core => some (.restore slot h core)
    | none => drainDeed s die c fun t => (restoreCore t die slot c h tsa).isSome
  | [] =>
    if c.isDecomp then
      if (dieAt s die).jobs.length < 16 then
        some (.served (onDie die (fun d => { d with
          jobs := d.jobs ++ [{ slot := slot }], cards := Maps.modify d.cards slot fun c => { c with st := .engine, next := 1, placed := true } }) s))
      else none
    else match serveCard s die slot c with
      | some t => some (.served t)
      | none => drainDeed s die c fun t => (serveCard t die slot c).isSome

/-- The first link of a region chain that cannot be read, by the handle (R63). -/
def brokenRcb (s : State) (c : Nat) : Nat → Nat → Option Nat
  | 0, _ => none
  | n + 1, h =>
    match rcbPa s c h with
    | none => some h
    | some pa =>
      let v := natAt s.mem pa 256
      if rcbReserved v then some h else if h = 0 then none else brokenRcb s c n (bitsN v 15 0)

/-- A region control block that cannot be read and is not yet recorded (R63). Each die pair with work of the region writes a record of its own,
which the spec leaves open (DESIGN CHOICE, log entry 29). -/
def rcbFault (s : State) (die : Nat) : Option (Nat × Nat) :=
  (dieAt s die).cards.findSome? fun e =>
    if hasWork s die e.1 e.2 && !chainOk s e.2.ctx e.2.region then
      match brokenRcb s e.2.ctx 8 e.2.region with
      | some h => if (dieAt s die).rcbBad.contains (e.2.ctx, h) then none else some (e.2.ctx, h)
      | none => none
    else none

/-- The record of a region control block that cannot be read (R63). -/
def recordRcb (die c h : Nat) (s : State) : State :=
  let va : Dword := BitVec.ofNat 64 (ctxRcb s c + 256 * h)
  let why := match engineTr s (enginePort die) (if vaTag va = 0xFF then 0 else c) va false with
    | .error e => e.reason.code
    | .ok _ => 0
  record die (unitRecord die .structfault c 0 va (3 * 256 + why) true)
    (onDie die (fun d => { d with rcbBad := (c, h) :: d.rcbBad }) s)

/-- The distributor's next deed on a die (R87). -/
def dieDeed (s : State) (die : Nat) : Option Deed :=
  if !(dieAt s die).running ∨ (dieAt s die).heldReset then none
  else match rcbFault s die with
    | some (c, h) => some (.served (recordRcb die c h s))
    | none => (readyList s die).findSome? fun e => cardDeed s die e.1 e.2

/-- R88. The distributor serves ready cards in ready order and places a card's next team on the first eligible core. -/
def execTeamPlacement (die : BitVec 3) (s : State) : Out :=
  match dieDeed s die.toNat with
  | some (.served t) => .next t
  | _ => .refused .notDue

/-! ADMHOLD (R87). -/

/-- The co-resident cards that stand first in their class: slots (R87). -/
def firstCoRes (s : State) (die : Nat) : List Nat :=
  let l := readyList s die
  (List.range 4).filterMap fun cls =>
    match l.find? fun e => effClass s e.2.ctx e.2.region == cls with
    | some (slot, c) => if c.coRes && !c.placed then some slot else none
    | none => none

/-- The clocks at which co-resident cards came to stand first in their class, kept at each clock (R87). -/
def keepFirsts (die : Nat) (s : State) : State :=
  let fs := firstCoRes s die
  let keep (k : Nat) (c : Card) : Card := if fs.contains k then { c with firstAt := some (c.firstAt.getD s.clock) } else { c with firstAt := none }
  onDie die (fun d => { d with cards := Maps.mapAll d.cards keep }) s

/-- The co-resident card whose hold is to begin: first in its class for longer than ADMHOLD µs, and of a higher rank than a
hold in force. -/
def holdDue (s : State) (die : Nat) : Option (Nat × Nat) :=
  let d := dieAt s die
  let lim := bitsN d.dsctl.toNat 19 8 * 1750
  if lim = 0 then none
  else
    let better (slot : Nat) (c : Card) : Bool := match holdCard s die with
      | none => true
      | some (hold, k) => hold != slot && decide (readyRank s c < readyRank s k)
    ((firstCoRes s die).filterMap fun slot => match Maps.find d.cards slot with
      | some c => match c.firstAt with
        | some t => if decide (t + lim < s.clock) && better slot c then some (slot, c.posted) else none
        | none => none
      | none => none).head?

/-- R87. A co-resident card first in its class for longer than ADMHOLD stops the admission of teams of its rank or lower. -/
def execAdmholdExpiry (die : BitVec 3) (s : State) : Out :=
  match holdDue s die.toNat with
  | some h => .next (onDie die.toNat (fun d => { d with admitHold := some h }) s)
  | none => .refused .notDue

/-! The drain deadline (R94). -/

/-- The teams of a victim's context on the cores that drain for the same card. -/
def drainedTeams (s : State) (v : Team) : List Nat :=
  Maps.keys s.teams fun _ t => t.ctx == v.ctx && t.core / 24 == v.core / 24 && (coreAt s t.core).draining == (coreAt s v.core).draining

/-- Is a victim past its deadline? -/
def drainDue (s : State) (h : Nat) : Bool :=
  match Maps.find s.teams h with
  | none => false
  | some t => match t.drainAt with
    | some d => decide (d ≤ s.clock) && (drainClass s t.core).isSome
    | none => false

/-- A context forcibly reset on the draining cores (R94). -/
def forceReset (h : Nat) (s : State) : State :=
  let t := teamAt s h
  let c := t.ctx
  let s := countLife (.drainResets (ctxClass s c)) 1 s
  let ts := drainedTeams s t
  let s := setFaulted c .drain (ts.foldl (fun s h => killTeam h s) s)
  let s := dropMesh (dropCards false (fun _ k => k.ctx == c) s)
  record (dieOfCore t.core) (unitRecord (dieOfCore t.core) .drain c 0 0 0 true) s

/-- R94. A victim team still resident at its drain deadline forces a reset of its context on the draining cores. -/
def execDrainDeadline (team : Nat) (s : State) : Out :=
  if drainDue s team then .next (forceReset team s) else .refused .notDue

end Sys2Proof.Machine
end

