-- ==== Sys2Proof/Machine/Retire.lean ====
section
/-! DEFINITION. The retirement of launches (R90, R91, R102, R255, R302): the wait for the launch's stores, the statistics, the
draw's markers and device fields, the successors' decrements. -/

namespace Sys2Proof.Machine

/-- Is a store, an atomic or a per-lane copy of a launch still to be acknowledged (R91, R383)? -/
def storesOut (s : State) (die slot : Nat) : Bool :=
  (s.mem.net.any fun e => e.2.die == die && e.2.slot == slot && (match e.2.op with
    | .store => true
    | .atom _ _ _ => true
    | .resbit _ _ => true
    | _ => false)) ||
    s.copies.any fun e => match e.2.left with
      | some t => t.die == die && t.slot == slot
      | none => false

/-- Are events of a launch's quantising copies still to be counted (R255)? -/
def quantOut (s : State) (die slot : Nat) (c : Card) : Bool :=
  s.bulks.any fun e => e.2.quant && e.2.die == die && e.2.slot == slot && e.2.post == c.posted

/-- Is a draw's own work done: every mesh group exited, the cull unit finished, every primitive sent (R102)? -/
def drawDone (d : Die) (slot : Nat) (c : Card) : Bool :=
  c.cullDone && !(d.prims.any fun p => p.slot == slot) &&
    (c.lost || (c.meshLive == 0 && !(d.meshReqs.any fun r => r.slot == slot) && !(d.meshRing.any fun e => e.slot == slot)))

/-- May a launch retire (R90, R91, R102, R302)? -/
def mayRetire (s : State) (die slot : Nat) (c : Card) : Bool :=
  c.freeAt.isNone && (c.isReady || c.lost) && c.st != .engine && c.counted && decide (c.count ≤ c.next) && c.live == 0 && c.restores.isEmpty &&
    (!c.isDraw || drawDone (dieAt s die) slot c) && !storesOut s die slot && !quantOut s die slot c && !(dieAt s die).heldReset

/-! Statistics (R254, R255). -/

/-- The record of one tag. -/
def statsBytes (tag : Nat) (x : Stats) : List Byte :=
  Maps.natLe tag 4 ++ Maps.natLe x.sat.toNat 4 ++ Maps.natLe x.ftz.toNat 4 ++ Maps.natLe x.nan.toNat 4

/-- The touched tags that have a count, in increasing order. -/
def statsRecords (d : Die) (tags : List Nat) : List (List Byte) :=
  (sortBy id tags).filterMap fun t =>
    let x := Maps.get {} d.stats t
    if x = {} then none else some (statsBytes t x)

/-- The touched entries cleared. -/
def clearStats (die : Nat) (tags : List Nat) (s : State) : State :=
  onDie die (fun d => { d with stats := d.stats.filter fun e => !tags.contains e.1 }) s

/-- The write-out of R255: the records, then the header that counts them; what fails abandons it. -/
def writeStats (die : Nat) (c : Card) (s : State) : State :=
  let rs := statsRecords (dieAt s die) c.tags
  let s := clearStats die c.tags s
  if c.stats = 0 then s
  else
    let fail (a : Dword) (s : State) : State := record die (unitRecord die .statsfault c.ctx c.region a 0 false) s
    match engineWrite die c.ctx (c.stats + 16) rs.flatten s with
    | (.error e, s) => fail e.2 s
    | (.ok _, s) => match engineWrite die c.ctx c.stats (Maps.natLe rs.length 16) s with
      | (.error e, s) => fail e.2 s
      | (.ok _, s) => s

/-! Draws (R100, R102, R110). -/

/-- The device-written fields of a draw record (R100). -/
def drawFields (c : Card) : List Byte :=
  Maps.natLe (c.drawFlags % 16) 12 ++ Maps.natLe c.lateDrop 4 ++ Maps.natLe c.rjCount 4 ++ Maps.natLe c.pDrop 4 ++ Maps.natLe c.vDrop 4 ++
    Maps.natLe c.ampDrop 4

/-- The draw's fields and its reject list's count written back (R99, R110). -/
def writeDraw (die : Nat) (c : Card) (s : State) : State :=
  if c.drec.isEmpty then s
  else
    let s := (engineWrite die c.ctx c.param (drawFields c) s).2
    if c.cullPass = 1 ∧ !c.skipped ∧ c.st ≠ .bad then (engineWrite die c.ctx (BitVec.ofNat 64 (c.drawF 831 768)) (Maps.natLe c.rjCount 4) s).2 else s

/-- A card with the records of its stage, read now if they never were. -/
def withRecords (s : State) (die : Nat) (c : Card) : Card :=
  if c.drec.isEmpty then let r := readDraw s die c; { c with drec := r.drec, frec := r.frec } else c

/-- The draw-end markers sent to every die pair of the frame (R102). -/
def sendMarkers (die : Nat) (c : Card) (s : State) : State :=
  let c := withRecords s die c
  if c.frec.isEmpty ∨ frameDraws c.frec ≤ c.drawSeq then s
  else (setBits 8 (dieMask c.frec)).foldl (fun s d => onDie d (fun x => { x with
    binMsgs := x.binMsgs ++ [.marker c.frameVa (frameNo c.frec) c.ctx c.drawSeq die] }) s) s

/-! The steps of R91. -/

/-- The valid successors of a card, in order (R91). -/
def validSuccs (c : Card) : List Nat := ((List.range 4).map c.succ).filter fun v => bitN v 15

/-- The successors decremented, in order (R91), one a clock from this clock on (R492). -/
def decSuccessors (die : Nat) (c : Card) (s : State) : State :=
  ((validSuccs c).zip (List.range 4)).foldl (fun s e =>
    let target := bitsN e.1 14 12
    pushCtr target { idx := e.1 % 4096, kind := .dec, src := .retire c.ctx c.region die c.lastExit
                     rank := if target = die then 0 else 100000 + die, leaves := s.clock + e.2 } s) s

/-- A card's entry freed. -/
def freeCard (die slot : Nat) (s : State) : State := onDie die (fun d => { d with
  cards := Maps.del d.cards slot, meshOuts := d.meshOuts.filter fun o => o.slot != slot }) s

/-- A retired launch's card: freed once the last of its decrements has left (R91, R492). -/
def endCard (die slot n : Nat) (s : State) : State :=
  if n ≤ 1 then freeCard die slot s
  else onDie die (fun d => { d with cards := Maps.modify d.cards slot fun c => { c with freeAt := some (s.clock + n) } }) s

/-- The cards that are to be freed by a clock, freed. -/
def freeRetired (s : State) (die : Nat) : State :=
  (Maps.keys (dieAt s die).cards fun _ c => match c.freeAt with
    | some t => decide (t ≤ s.clock)
    | none => false).foldl (fun s slot => freeCard die slot s) s

/-- The retirement of a launch (R91, R302). -/
def retireLaunch (die slot : Nat) (s : State) : State :=
  match Maps.find (dieAt s die).cards slot with
  | none => s
  | some c =>
    let s := if c.isDraw then sendMarkers die c (writeDraw die c s) else s
    let s := if c.killed ∨ c.skipped then clearStats die c.tags s else writeStats die c s
    let s := if c.killed then record die (unitRecord die .killed c.ctx c.region c.addr 0 false) s else decSuccessors die c s
    endCard die slot (if c.killed then 0 else (validSuccs c).length) s

/-- R91. A launch whose indices are issued and teams exited writes its statistics, decrements its successors and frees its
card. -/
def execLaunchRetirement (die : BitVec 3) (slot : BitVec 12) (s : State) : Out :=
  match Maps.find (dieAt s die.toNat).cards slot.toNat with
  | some c => if mayRetire s die.toNat slot.toNat c then .next (retireLaunch die.toNat slot.toNat s) else .refused .notDue
  | none => .refused .notDue

/-- The launches of a die that may retire. -/
def retiresDue (s : State) (die : Nat) : List Nat := Maps.keys (dieAt s die).cards fun slot c => mayRetire s die slot c

end Sys2Proof.Machine
end

