-- ==== Sys2Proof/Machine/Cull.lean ====
section
/-! DEFINITION. The mesh payload ring (R103, R104), the cull unit with the visibility table and the reject list (R108 to R113),
and the view amplifier's arithmetic (R114). -/

namespace Sys2Proof.Machine

/-! The mesh payload ring. -/

/-- The head request, if a launch still stands behind it and its mesh groups find free entries. -/
def ringDue (s : State) (die : Nat) : Option (MeshReq × Card) :=
  let d := dieAt s die
  match d.meshReqs with
  | [] => none
  | r :: _ => match Maps.find d.cards r.slot with
    | none => none
    | some c => if d.meshRing.length + r.n ≤ ringCap s die c.ctx c.region then some (r, c) else none

/-- A task group with one request less to wait for; the last lets it go on with its counts (R104, R466). -/
def tampDone (g : Group) : Group := match g.waiting with
  | some (.tamp n ws) =>
    if n ≤ 1 then { ws.foldl (fun (v : Group) w => v.setLane (w.1 / 32) (w.1 % 32) w.2) g with waiting := none }
    else { g with waiting := some (.tamp (n - 1) ws) }
  | _ => g

/-- A request's entries in the ring, numbered in draw order (R104, R107). -/
def enterRing (die : Nat) (r : MeshReq) (c : Card) (s : State) : State :=
  let ents : List MeshEnt := (List.range r.n).map fun k => { slot := r.slot, k := k, order := c.order + k, payload := r.payload }
  let s := onDie die (fun d => { d with
    meshReqs := d.meshReqs.tail, meshRing := d.meshRing ++ ents
    cards := Maps.modify d.cards r.slot fun c => { c with order := c.order + r.n, meshLive := c.meshLive + r.n } }) s
  match r.group with
  | some k => onGroup k tampDone s
  | none => s

/-- R104. A mesh-group request enters the mesh payload ring whole when enough entries are free. -/
def execMeshRingEntry (die : BitVec 3) (s : State) : Out :=
  match ringDue s die.toNat with
  | some (r, c) => .next (enterRing die.toNat r c s)
  | none => .refused .notDue

/-! Reads of the cull unit and the binner. -/

/-- The bytes of a range as a unit of the frame pipeline reads them: an address in no domain reads zero, with a record (R16); what
any other failed read gives is free (log entry 8). -/
def unitRead (die : Nat) (c : Card) (va : Dword) (n : Nat) (s : State) : List Byte × State :=
  let t := engineMeet die c.ctx va n s
  match engineRead s die c.ctx va n with
  | .ok bs => (bs, t)
  | .error (.nophys, a) =>
    let pa := match walk s.mem (ctxRoot s c.ctx) (vaLow a) with
      | .leaf pte level => tlbPa (tlbOf 0 (vaLow a) pte level) (vaLow a)
      | .nophys p => p
      | _ => 0
    (List.replicate n 0, record die (unitRecord die .nophys c.ctx c.region (BitVec.ofNat 64 pa) 0 false) t)
  | .error _ =>
    ((List.range n).map fun i => BitVec.ofNat 8 (Config.freeNat (t.draws + i)), { t with draws := t.draws + n })

/-- An FP32 and an FP64 value of a record. -/
def recF32 (r : List Byte) (off : Nat) : Num.FV := Num.decode Num.f32 (recField r off 4)
def recF64 (r : List Byte) (off : Nat) : Num.FV := Num.decode Num.f64 (recField r off 8)

/-- The exact FP64 difference rounded once to FP32, per axis (R109, R114). -/
def originDiff (a b : Nat → Num.FV) (i : Nat) : Num.FV := r32 (fvSub (a i) (b i))

/-- A row of MAT times (q, 1) (R114). -/
def matRow (view : List Byte) (q : Nat → Num.FV) (i : Nat) : Num.FV :=
  let m (j : Nat) : Num.FV := recF32 view (24 + 16 * i + 4 * j)
  fmaChain [(m 0, q 0), (m 1, q 1), (m 2, q 2)] (m 3)

/-! The tests of R109. Sums of products are FMA chains in the order of the axes, as in R114 (log entry 21). -/

/-- A dot product of three components and an addend. -/
def chain3 (a b : Nat → Num.FV) (c : Num.FV) : Num.FV := fmaChain [(a 0, b 0), (a 1, b 1), (a 2, b 2)] c

def fsum (a b : Num.FV) : Num.FV := r32 (Num.add .rne a b)
def fprod (a b : Num.FV) : Num.FV := r32 (Num.mul a b)

/-- The length of a vector. -/
def length3 (a : Nat → Num.FV) : Num.FV := r32 (Num.sqrt (chain3 a a Num.zero))

/-- An .s8 value scaled by 1/127. -/
def s8Scaled (r : List Byte) (off : Nat) : Num.FV := r32 (Num.div (Num.ofInt (signedN 8 (recField r off 1))) (Num.ofInt 127))

/-- The camera-relative centre of an instance's sphere, and its radius (R108, R109). -/
def sphereAt (view inst : List Byte) : (Nat → Num.FV) × Num.FV :=
  (fun i => fsum (originDiff (fun i => recF64 inst (8 * i)) (fun i => recF64 view (8 * i)) i) (recF32 inst (28 + 4 * i)), recF32 inst 40)

def coneRejects (inst : List Byte) (p : Nat → Num.FV) (r : Num.FV) : Bool :=
  let d := chain3 p (fun i => s8Scaled inst (44 + i)) Num.zero
  fvLe (r32 (Num.add .rne (Num.mul (s8Scaled inst 47) (length3 p)) r)) d

def frustumRejects (view : List Byte) (p : Nat → Num.FV) (r : Num.FV) : Bool :=
  (List.range 6).any fun k =>
    let n (i : Nat) : Num.FV := recF32 view (88 + 16 * k + 4 * i)
    fvLt (chain3 n p (n 3)) (Num.neg r)

/-! The depth test (R113). -/

/-- The corners of the sphere's bounding cube in clip space. -/
def cubeCorners (view : List Byte) (p : Nat → Num.FV) (r : Num.FV) : List (List Num.FV) :=
  (List.range 8).map fun k =>
    let q (i : Nat) : Num.FV := fsum (p i) (if bitN k i then r else Num.neg r)
    (List.range 4).map (matRow view q)

def comp (l : List Num.FV) (i : Nat) : Num.FV := l.getD i .nan

/-- Does the sphere meet the near plane, or lie behind it: its signed distance from the plane z = 0 of clip space is at most its
radius (log entry 21)? -/
def meetsNear (view : List Byte) (p : Nat → Num.FV) (r : Num.FV) : Bool :=
  let n (j : Nat) : Num.FV := recF32 view (24 + 32 + 4 * j)
  !(fvLt (fprod r (length3 n)) (matRow view p 2))

/-- A pyramid's levels: width, height, offset in texels (R113). -/
def pyrLevels (w h : Nat) : Nat → Nat → List (Nat × Nat × Nat)
  | 0, _ => []
  | n + 1, off => (w, h, off) :: (if w ≤ 1 ∧ h ≤ 1 then [] else pyrLevels ((w + 1) / 2) ((h + 1) / 2) n (off + w * h))

def fvMin (a b : Num.FV) : Num.FV := if fvLt b a then b else a
def fvMax (a b : Num.FV) : Num.FV := if fvLt a b then b else a

/-- The least and greatest of a list's values. -/
def leastOf (l : List Num.FV) : Num.FV := match l with
  | [] => .nan
  | x :: xs => xs.foldl fvMin x
def greatestOf (l : List Num.FV) : Num.FV := match l with
  | [] => .nan
  | x :: xs => xs.foldl fvMax x

/-- The texel of level 0 that holds an NDC coordinate of an axis of `full` pixels. -/
def texelOf (full : Nat) (u : Num.FV) : Int :=
  fvInt .rd (fprod (fsum u (.fin false 1 0)) (.fin false full (-4)))

/-- The texels of a pyramid that the depth test reads: their offsets (R113). Where no level has the rectangle span two texels at most, the last
level is read (DESIGN CHOICE, log entry 29). -/
def pyrTexels (view : List Byte) (x0 x1 y0 y1 : Int) : List Nat :=
  let ls := pyrLevels (recField view 240 2) (recField view 242 2) 16 0
  let spans (l : Nat) (a b : Int) : Bool := decide (b / 2 ^ l - a / 2 ^ l ≤ 1)
  let l := ((List.range ls.length).find? fun l => spans l x0 x1 && spans l y0 y1).getD (ls.length - 1)
  match ls[l]? with
  | none => []
  | some (w, h, off) =>
    let cl (a : Int) (n : Nat) : Nat := min (n - 1) (a / 2 ^ l).toNat
    [y0, y1].flatMap fun y => [x0, x1].map fun x => off + cl y h * w + cl x w

/-- Does the depth test reject a sphere for a view (R109, R113)? `pyr`: the pyramid's address. A cube with a corner whose w is not above 0 is
accepted (DESIGN CHOICE, log entry 29). -/
def depthRejects (die : Nat) (c : Card) (view : List Byte) (pyr : Dword) (p : Nat → Num.FV) (r : Num.FV) (s : State) : Bool × State :=
  let cs := cubeCorners view p r
  if pyr = 0 || meetsNear view p r || cs.any (fun k => !fvLt Num.zero (comp k 3)) then (false, s)
  else
    let ndc (i : Nat) : List Num.FV := cs.map fun k => r32 (Num.div (comp k i) (comp k 3))
    let tx (i : Nat) (f : List Num.FV → Num.FV) : Int := texelOf (recField view (216 + 2 * i) 2) (f (ndc i))
    let ts := pyrTexels view (tx 0 leastOf) (tx 0 greatestOf) (tx 1 leastOf) (tx 1 greatestOf)
    let (vs, s) := ts.foldl (fun (a : List Num.FV × State) o =>
      let (bs, s) := unitRead die c (pyr + BitVec.ofNat 64 (4 * o)) 4 a.2
      (a.1 ++ [recF32 bs 0], s)) ([], s)
    (fvLt (greatestOf vs) (leastOf (ndc 2)), s)

/-! One instance (R109 to R112). -/

/-- The view records of a draw's views. -/
def drawViews (die : Nat) (c : Card) (s : State) : List (List Byte) × State :=
  (setBits 16 c.viewMask).foldl (fun (a : List (List Byte) × State) v =>
    let (r, s) := unitRead die c (BitVec.ofNat 64 (recField c.frec 0 8 + 256 * v)) 256 a.2
    (a.1 ++ [r], s)) ([], s)

/-- What the tests find for a view: rejected by the cone or frustum test, rejected by the depth test. In the second pass the depth
test alone is made, on the current pyramid (R110, R111), whatever CULLEN holds for it, which the spec leaves open (DESIGN CHOICE, log entry
29). -/
def testView (die : Nat) (c : Card) (inst view : List Byte) (s : State) : (Bool × Bool) × State :=
  let (p, r) := sphereAt view inst
  let first := c.cullPass == 1
  let other := first && ((c.drawF 370 370 == 1 && coneRejects inst p r) || (c.drawF 371 371 == 1 && frustumRejects view p r))
  if first && c.drawF 372 372 == 0 then ((other, false), s)
  else
    let (d, s) := depthRejects die c view (BitVec.ofNat 64 (recField view (if first then 224 else 232) 8)) p r s
    ((other, d), s)

/-- An instance tested: whether it is accepted, and whether the depth test alone rejects it (R109, R110). -/
def testInstance (die : Nat) (c : Card) (inst : List Byte) (s : State) : (Bool × Bool) × State :=
  let (vs, s) := drawViews die c s
  let (rs, s) := vs.foldl (fun (a : List (Bool × Bool) × State) v =>
    let (x, s) := testView die c inst v a.2
    (a.1 ++ [x], s)) ([], s)
  ((rs.any fun x => !(x.1 || x.2), !(rs.any (·.1))), s)

def onCard (die slot : Nat) (f : Card → Card) (s : State) : State :=
  onDie die (fun d => { d with cards := Maps.modify d.cards slot f }) s

/-- The visibility bit of an instance (R110, R112). -/
def setVisible (die : Nat) (c : Card) (i : Nat) (on : Bool) (s : State) : State :=
  let b := c.drawF 479 456 + i
  let va : Dword := BitVec.ofNat 64 (c.drawF 895 832 + b / 8)
  match engineRead s die c.ctx va 1 with
  | .error _ => engineMeet die c.ctx va 1 s
  | .ok bs =>
    let v := Maps.leNat bs
    let v' := if on then Nat.lor v (2 ^ (b % 8)) else v - (if bitN v (b % 8) then 2 ^ (b % 8) else 0)
    (engineWrite die c.ctx va (Maps.natLe v' 1) (engineMeet die c.ctx va 1 s)).2

/-- An accepted instance's mesh group requested (R108). -/
def requestMesh (die slot : Nat) (c : Card) (i : Nat) (s : State) : State :=
  onDie die (fun d => { d with meshReqs := d.meshReqs ++ [{ group := none, slot := slot, n := 1, payload := BitVec.ofNat 64 i }] })
    (useRing die c.ctx c.region s)

/-- An instance of the first pass that the depth test alone has rejected: listed, or accepted for want of room (R110). -/
def listReject (die slot : Nat) (c : Card) (i : Nat) (s : State) : State :=
  if c.drawF 455 436 ≤ c.rjCount then
    requestMesh die slot c i (setVisible die c i true (onCard die slot (fun c => { c with drawFlags := Nat.lor c.drawFlags 4 }) s))
  else
    let s := (engineWrite die c.ctx (BitVec.ofNat 64 (c.drawF 831 768 + 4 + 4 * c.rjCount)) (Maps.natLe i 4) s).2
    onCard die slot (fun c => { c with rjCount := c.rjCount + 1 }) (setVisible die c i false s)

/-- Instance `i` of a culled draw (R108 to R111). -/
def cullOne (die slot : Nat) (c : Card) (i : Nat) (s : State) : State :=
  let (inst, s) := unitRead die c (BitVec.ofNat 64 (c.drawF 959 896 + 64 * i)) 64 s
  let accept (s : State) : State := requestMesh die slot c i (setVisible die c i true s)
  if recField inst 48 16 ≠ 0 then accept (onCard die slot (fun c => { c with pDrop := satAdd c.pDrop 1 }) s)
  else
    let ((ok, depthOnly), s) := testInstance die c inst s
    if ok then accept s
    else if c.cullPass = 1 then (if depthOnly then listReject die slot c i s else setVisible die c i false s)
    else s

/-- How many instances a pass goes through, and the instance of a place in it (R110, R111). -/
def cullCount (die : Nat) (c : Card) (s : State) : Nat × State :=
  if c.cullPass = 1 then (c.drawF 511 480, s)
  else let (bs, s) := unitRead die c (BitVec.ofNat 64 (c.drawF 831 768)) 4 s; (Maps.leNat bs, s)

def cullIndex (die : Nat) (c : Card) (s : State) : Nat × State :=
  if c.cullPass = 1 then (c.cullNext, s)
  else let (bs, s) := unitRead die c (BitVec.ofNat 64 (c.drawF 831 768 + 4 + 4 * c.cullNext)) 4 s; (Maps.leNat bs, s)

/-- The next step of the cull unit for a draw. -/
def cullStep (die slot : Nat) (c : Card) (s : State) : State :=
  let (n, s) := cullCount die c s
  if n ≤ c.cullNext then onCard die slot (fun c => { c with cullDone := true }) s
  else
    let (i, s) := cullIndex die c s
    onCard die slot (fun c => { c with cullNext := c.cullNext + 1 }) (cullOne die slot c i s)

/-- The draw that the cull unit of a die works on: the ready one that became ready first. It stalls while a request of its own has not
entered the ring (R104). -/
def cullDue (s : State) (die : Nat) : Option (Nat × Card) :=
  let d := dieAt s die
  if d.heldReset || d.meshReqs.any (fun r => r.group.isNone) then none
  else (sortBy (fun e => e.2.seq) (d.cards.filter fun e => e.2.isReady && !e.2.cullDone)).head?

/-- R109. The cull unit tests one instance against each view, writes its visibility bit and requests its mesh group or lists it for
rejection. -/
def execCullInstance (die : BitVec 3) (s : State) : Out :=
  match cullDue s die.toNat with
  | some (slot, c) => .next (cullStep die.toNat slot c s)
  | none => .refused .notDue

end Sys2Proof.Machine
end

