-- ==== Sys2Proof/Machine/Serial.lean ====
section
/-! DEFINITION. The display serialiser (R120, R121, R138 to R145, R499): strip starts and latches, seals, replacement, history,
late-tile records, and its registers. -/

namespace Sys2Proof.Machine

/-- SCOUNT's advance in an arithmetic clock (R19, R140): the strip clock runs at MUL/DIV × 100 MHz beside 1.75 GHz. -/
def countStrip (d : Display) : Display :=
  let v := d.serclk.toNat
  if bitN v 0 then
    let frac := d.frac + 2 * bitsN v 15 8
    let per := 35 * max 1 (bitsN v 23 16)
    { d with scount := d.scount + BitVec.ofNat 64 (frac / per), frac := frac % per }
  else d

def onView (v : Nat) (f : View → View) (s : State) : State :=
  { s with display := { s.display with views := Maps.set s.display.views v (f (viewAt s v)) } }

/-! Flits of a view (R145). -/

/-- 64 bytes with some fields: offset, size and value of each; every other byte zero. -/
def flitOf (fs : List (Nat × Nat × Nat)) : List Byte :=
  Maps.natLe (fs.foldl (fun a f => a + f.2.2 % 2 ^ (8 * f.2.1) * 2 ^ (8 * f.1)) 0) 64

/-- Flits of a view sent on its port, or discarded there (R145). -/
def emit (v : Nat) (ps : List (List Byte)) (s : State) : State :=
  let w := viewAt s v
  if w.pen then queueFlits (.port (BitVec.ofNat 7 w.port)) 0 ps s else s

/-- A tile's packet, counted (R141, R145). -/
def emitTile (v : Nat) (g : StripGeo) (tx ty : Nat) (kind : Option Nat) (px : List Byte) (s : State) : State :=
  let head := flitOf [(0, 1, 2), (1, 1, v), (2, 1, g.strip), (3, 1, match kind with
    | some k => 1 + 2 * k
    | none => 0), (4, 2, g.frame), (6, 2, tx), (8, 2, ty)]
  let body := (List.range 64).map fun i => (px.drop (64 * i)).take 64
  emit v (head :: body) (onView v (fun w => { w with emitted := min 0xFFFFFFFF (w.emitted + 1) }) s)

/-! The strip in progress. -/

/-- The butterfly input of the serialiser (R205). -/
def serialPort : Nat := 252

/-- The serialiser's view record as it reads it at a strip start; none: no grid (R499). -/
def readVrec (s : State) (v : Nat) : Option (List Byte) :=
  let r := (viewAt s v).vrec.toNat
  if !bitN r 0 then none
  else
    let pa := bitsN r 45 8 * 256
    if rangeErr s.mem pa 256 ≠ 0 ∨ (lostLink s serialPort pa 256).isSome then none
    else match tryRead s.mem pa 256 with
      | some bs => if viewBad bs then none else some bs
      | none => none

/-- What a strip's start leaves of the read of its view record: the errors of its lines met, its flits counted (R25, R58 to R60). -/
def meetVrec (v : Nat) (s : State) : State :=
  let r := (viewAt s v).vrec.toNat
  let pa := bitsN r 45 8 * 256
  if !bitN r 0 || (tryRead s.mem pa 256).isNone || (lostLink s serialPort pa 256).isSome then s else readVia serialPort 2 pa 256 s

/-- The warped rows of a strip (R119). -/
def stripRows (g : StripGeo) : Nat := ((List.range (32 * g.rows + 32)).filter fun i => g.hasRow (g.ybase + i)).length

/-- Is a strip's latest view record there? -/
def View.hasGrid (w : View) : Bool := w.record.isSome

/-- The tiles of the strip in progress, row-major. -/
def gridTiles (w : View) : List (Nat × Nat) :=
  if w.hasGrid then (List.range w.geo.rows).flatMap fun ty => (List.range w.geo.cols).map fun tx => (tx, ty) else []

/-- The header flit of a strip (R145). -/
def headerFlit (v : Nat) (w : View) (scount : Nat) : List Byte :=
  let g := w.geo
  let on (n : Nat) : Nat := if w.hasGrid then n else 0
  flitOf [(0, 1, 1), (1, 1, v), (2, 1, g.strip), (4, 2, g.frame), (8, 4, g.gx.toNat + g.gy.toNat * 2 ^ 16)
    , (12, 2, on g.axisX.extent), (14, 2, on g.ybase), (16, 2, on (stripRows g)), (18, 2, on (g.rows * g.cols)), (24, 8, scount)]

/-! Resolve (R138). -/

/-- One channel of a pixel: the FP32 sum of its samples in order, over their number, clamped, to 8 bits. -/
def resolveChannel (samples : List Nat) : Byte :=
  let n := samples.length
  match samples.map fun h => Num.decode Num.f16 h with
  | [] => 0
  | x :: xs =>
    let sum := xs.foldl (fun a b => r32 (Num.add .rne a b)) x
    let k := if n = 4 then 2 else if n = 2 then 1 else 0
    let v := r32 (Num.mul sum (.fin false 1 (-(k : Int))))
    if Num.isNan v then 0
    else if fvLe v Num.zero then 0
    else if fvLe (.fin false 1 0) v then 255
    else BitVec.ofNat 8 (fvInt .rne (Num.mul v (.fin false 255 0))).toNat

/-- A sealed tile's RGBA8 bytes, row-major. -/
def resolveTile (n : Nat) (colour : List Byte) : List Byte :=
  (List.range 1024).flatMap fun p => (List.range 4).map fun c =>
    resolveChannel ((List.range n).map fun i => Maps.leNat ((colour.drop (8 * (p * n + i) + 2 * c)).take 2))

/-! Replacement (R143). -/

/-- A quotient rounded to the nearest integer, ties to even. -/
def rneDiv (a : Int) (d : Nat) : Int := fvInt .rne (Num.div (Num.ofInt a) (Num.ofInt d))

/-- The motion between the history strip's latch and the strip's (R143). -/
def motion (w : View) (h : StripGeo) : Int × Int :=
  (rneDiv ((w.geo.gx.toInt - h.gx.toInt) * (w.full.1 : Int)) 65536, rneDiv ((w.geo.gy.toInt - h.gy.toInt) * (w.full.2 : Int)) 65536)

/-- The address of a tile's place in the history (R143). -/
def histAddr (w : View) (strip tx ty : Nat) : Nat :=
  w.histBase + 4096 * ((strip * ((w.full.2 + 127) / 128) + ty) * ((w.full.1 + 31) / 32) + tx)

def clampInt (x : Int) (hi : Nat) : Nat := min hi x.toNat

/-- A pixel's 4 bytes as the serialiser reads them. The spec says of no image that cannot be read what its pixel is then: free (log
entry 28). -/
def pixelAt (s : State) (pa : Nat) : List Byte :=
  if rangeErr s.mem pa 4 ≠ 0 ∨ poisoned s.mem pa 4 ∨ (lostLink s serialPort pa 4).isSome ∨ (domainOf s.mem pa).isNone then
    Maps.natLe (Config.freeNat (2 ^ 72 + 2 ^ 48 * s.clock + pa)) 4
  else bytesAt s.mem pa 4

/-- The address of the history's pixel at a strip-relative position, clamped to the history strip's grid. -/
def histPixel (w : View) (h : StripGeo) (x y : Int) : Nat :=
  let px := clampInt x (32 * h.cols - 1)
  let py := clampInt y (32 * h.rows - 1)
  histAddr w h.strip (px / 32) (py / 32) + 4 * (32 * (py % 32) + px % 32)

/-- The address of the firn image's pixel nearest an unwarped centre (R143). -/
def firnPixel (w : View) (ax ay : Axis) (x y : Nat) : Nat :=
  let one (a : Axis) (p n : Nat) : Nat :=
    let u := a.unwarp32 (fixed (2 * (p : Int) + 1) 1)
    let t := Num.mul (Num.mul (Num.add .rne u (.fin false 1 0)) (.fin false 1 (-1))) (Num.ofInt n)
    clampInt (fvInt .rd t) (n - 1)
  w.firnBase + 4 * (one ay y w.firnH * w.firnW + one ax x w.firnW)

/-- A replaced tile: kind, motion, and the address of each of its pixels, none where it is filled (R143, R144). -/
def replacedTile (w : View) (tx ty : Nat) : Nat × (Int × Int) × List Nat :=
  let g := w.geo
  let held := if w.histBase = 0 then none else Maps.find w.history g.strip
  let at_ (i : Nat) : Nat × Nat := (32 * tx + i % 32, 32 * ty + i / 32)
  match held with
  | some h =>
    let (dx, dy) := motion w h
    (0, (dx, dy), (List.range 1024).map fun i => histPixel w h ((at_ i).1 + dx) ((at_ i).2 + dy))
  | none =>
    if w.firnBase ≠ 0 ∧ w.firnW ≠ 0 ∧ w.firnH ≠ 0 then
      let ax := g.axisX
      let ay := g.axisY
      (1, (0, 0), (List.range 1024).map fun i => firnPixel w ax ay (at_ i).1 (g.ybase + (at_ i).2))
    else (2, (0, 0), [])

/-- A replaced tile's RGBA8 bytes (R143). -/
def replacedBytes (s : State) (w : View) (ps : List Nat) : List Byte :=
  if ps.isEmpty then (List.range 1024).flatMap fun _ => Maps.natLe w.fillColour 4 else ps.flatMap (pixelAt s)

/-- What the reads of a replaced tile's pixels leave, line by line (R25, R58 to R60). -/
def meetPixels (ps : List Nat) (s : State) : State := (ps.map (· / 64)).eraseDups.foldl (fun s la =>
  if (lostLink s serialPort (64 * la) 64).isSome then s else readVia serialPort 2 (64 * la) 64 s) s

/-! The owners of a strip's tiles (R139, R144). -/

/-- The owner's state of a tile: die pair and key. -/
def ownerOf (s : State) (g : StripGeo) (tx ty : Nat) : Option (Nat × Nat × Tile) :=
  s.dies.findSome? fun d => (d.2.tiles.find? fun t =>
    t.2.view == g.view && t.2.strip == g.strip && t.2.frame == g.frame && t.2.tx == tx && t.2.ty == ty).map fun t => (d.1, t)

/-- The DIEMASK of the frame in progress, from any tile card of it. -/
def frameMask (s : State) (g : StripGeo) : Option Nat :=
  s.dies.findSome? fun d => (d.2.cards.find? fun c => !c.2.frec.isEmpty && frameNo c.2.frec == g.frame).map fun c => dieMask c.2.frec

/-- The STATE of a late-tile record (R144). -/
def lateState (s : State) (o : Option (Nat × Nat × Tile)) : Nat :=
  match o with
  | none => 0
  | some (d, _, t) =>
    if t.abandoned then 3
    else match liveTeam s t with
      | none => 0
      | some (_, tm) => if markersAll (dieAt s d) t < frameDraws (teamFrame s tm) then 1 else 2

/-- A late-tile record's bytes (R144). -/
def lateBytes (g : StripGeo) (tx ty kind state owner : Nat) (m : Int × Int) (scount : Nat) : List Byte :=
  flitOf [(0, 2, g.frame), (2, 1, g.view), (3, 1, g.strip), (4, 2, tx), (6, 2, ty), (8, 1, kind), (9, 1, state), (10, 1, owner)
    , (12, 2, wrapN 16 m.1), (14, 2, wrapN 16 m.2), (16, 8, scount)]

/-- A record appended to the late-tile ring (R144). -/
def lateRecord (rec_ : List Byte) (s : State) : State :=
  let c := s.display.ltrctl.toNat
  let base := c / 4096 * 4096
  let log := bitsN c 11 8
  if base = 0 ∨ (domainOf s.mem base).isNone then s
  else
    let (m, first) := ringPut base log rec_ s.mem
    let s := { s with mem := m }
    if first then raiseMsi (bitsN s.display.ltrirq.toNat 15 12) (bitsN s.display.ltrirq.toNat 11 0) s else s

/-- Primitives dropped late at an owner, counted in their draws (R122, R139), once for each tile: the spec leaves open whether one in several
tiles counts once (DESIGN CHOICE, log entry 29). -/
def dropLate (ps : List ViewPrim) (s : State) : State :=
  ps.foldl (fun s p => onDie p.die (fun d => { d with cards := Maps.modify d.cards p.slot fun c =>
    if c.posted == p.post then { c with lateDrop := satAdd c.lateDrop 1, drawFlags := Nat.lor c.drawFlags 8 } else c }) s) s

/-- A replaced tile's owner told: the primitives that it has not applied go, its team is to be noticed (R139). -/
def tellOwner (o : Option (Nat × Nat × Tile)) (s : State) : State :=
  match o with
  | none => s
  | some (d, k, t) =>
    let s := dropLate t.prims (onDie d (fun x => { x with tiles := Maps.modify x.tiles k fun t => { t with prims := [], late := true } }) s)
    match liveTeam s t with
    | some (h, tm) => { s with display := { s.display with notices := s.display.notices ++ [(h, tm.gen)] } }
    | none => s

/-- One tile of the strip replaced (R143 to R145). -/
def replaceTile (v : Nat) (tx ty : Nat) (s : State) : State :=
  let w := viewAt s v
  let g := w.geo
  let (kind, m, ps) := replacedTile w tx ty
  let px := replacedBytes s w ps
  let o := ownerOf s g tx ty
  let (owner, s) := match o, frameMask s g with
    | some (d, _), _ => (d, s)
    | none, some mask => ((tileOwner mask g.view g.strip tx ty).getD 0, s)
    | none, none => let (n, s) := draw s; (n % 8, s)
  let s := onView v (fun w => { w with late := min 0xFFFFFFFF (w.late + 1), tiles := w.tiles ++ [((tx, ty), px)] }) s
  let s := lateRecord (lateBytes g tx ty kind (lateState s o) owner m s.display.scount.toNat) s
  tellOwner o (emitTile v g tx ty (some kind) px (meetPixels ps s))

/-- The strip written to the history with its latch (R143). -/
def writeHistory (v : Nat) (s : State) : State :=
  let w := viewAt s v
  if w.histBase = 0 ∨ !w.hasGrid then s
  else
    let ok := w.tiles.all fun t =>
      let pa := histAddr w w.geo.strip t.1.1 t.1.2
      reachable s.mem pa 4096 && (lostLink s serialPort pa 4096).isNone
    if !ok then s
    else
      let s := w.tiles.foldl (fun s t => writeVia serialPort 2 (histAddr w w.geo.strip t.1.1 t.1.2) t.2 s) s
      onView v (fun w => { w with history := Maps.set w.history w.geo.strip w.geo }) s

/-- R143. The strip's unaccepted tiles replaced, its trailer sent, its history written. -/
def closeStrip (v : Nat) (s : State) : State :=
  let w := viewAt s v
  let missing := (gridTiles w).filter fun t => !w.accepted.contains t
  let s := missing.foldl (fun s t => replaceTile v t.1 t.2 s) s
  let s := emit v [flitOf [(0, 1, 3), (1, 1, v), (2, 1, w.geo.strip), (4, 2, w.geo.frame), (6, 2, missing.length)]] s
  onView v (fun w => { w with opened := false, closedAt := s.clock + 1, tiles := [], accepted := [] }) (writeHistory v s)

/-- Does a view's replacement instant end with this clock (R143)? SCOUNT holds it for some clocks, in any of which a seal still comes at
the instant (R138). -/
def replaceDue (s : State) (v : Nat) : Bool :=
  let w := viewAt s v
  w.opened && (decide (replaceAt s w < s.display.scount.toNat) ||
    (replaceAt s w == s.display.scount.toNat && (countStrip s.display).scount != s.display.scount))

/-- R143. At a strip's replacement instant every unaccepted tile is replaced. -/
def execReplacementInstant (view : BitVec 4) (s : State) : Out :=
  if replaceDue s view.toNat then .next (closeStrip view.toNat s) else .refused .notDue

/-! Strip starts (R121, R142, R499). -/

/-- The strip that starts now, if one does. -/
def startDue (s : State) (v : Nat) : Option Nat :=
  let w := viewAt s v
  if !clkOn s then none
  else match stripStarting w s.display.scount.toNat with
    | some n => if w.strip = some n then none else some n
    | none => none

/-- Is a frame far from another, in a count of 65,536 (log entry 6)? -/
def farFrame (a b : Nat) : Bool := let d := (a + 65536 - b) % 65536; decide (16384 ≤ d) && decide (d ≤ 49152)

/-- A die's tiles of a view, and the markers that it keeps, without those of frames long past (log entry 6). -/
def forgetTiles (s : State) (v frame : Nat) (d : Die) : Die :=
  let near (f : Nat) : Bool := s.display.views.any fun w => w.2.period != 0 && (match w.2.strip with
    | some n => !farFrame f (n / 4 % 65536)
    | none => true)
  { d with
    tiles := d.tiles.filter fun t => !(t.2.view == v && farFrame t.2.frame frame)
    tileSeen := Maps.mapAll d.tileSeen fun k l => if k / 4 = v then l.filter fun x => !farFrame x.2.2 frame else l
    markers := d.markers.filter fun m => near m.2.1 }

/-- A strip's start: the gaze latched, the record read, the header sent, tile counts set, the flue filters cleared (R121, R129,
R145, R267, R499). -/
def beginStrip (v n : Nat) (s : State) : State :=
  let s := if (viewAt s v).opened then closeStrip v s else s
  let w := viewAt s v
  let frame := n / 4 % 65536
  let l : Dword := BitVec.ofNat 64 (w.gaze.toNat + n % 4 * 2 ^ 46 + frame * 2 ^ 48)
  let r := readVrec s v
  let s := meetVrec v s
  let w := { w with
    glatch := l, latches := Maps.set w.latches (n % 4) l, past := l :: w.past.filter fun x => !farFrame (bitsN x.toNat 63 48) frame, record := r, strip := some n
    geo := geoOf v (n % 4) frame l (r.getD []), deadline := stripAt w n + budgetOf s w, opened := true, accepted := [], tiles := [] }
  let s := onView v (fun _ => w) s
  let s := emit v [headerFlit v w s.display.scount.toNat] s
  let s := { s with dies := Maps.mapAll s.dies fun _ d => forgetTiles s v frame d }
  settleCounts { s with cores := Maps.mapAll s.cores fun _ c => { c with flueKeys := [] } }

/-- R121. At a strip start the serialiser latches the gaze, reads the view record and emits the strip's header. -/
def execStripStart (view : BitVec 4) (s : State) : Out :=
  match startDue s view.toNat with
  | some n => .next (beginStrip view.toNat n s)
  | none => .refused .notDue

/-! Seals (R138). -/

/-- Has the owner abandoned a tile of the strip in progress (R127)? -/
def tileLost (s : State) (w : View) (x : Seal) : Bool := ((ownerOf s w.geo x.tx x.ty).map (·.2.2.abandoned)).getD false

/-- May a seal be accepted (R138, R499)? -/
def sealOk (s : State) (w : View) (x : Seal) : Bool :=
  w.opened && !tileLost s w x && w.geo.strip == x.strip && w.geo.frame == x.frame && (gridTiles w).contains (x.tx, x.ty) && !w.accepted.contains (x.tx, x.ty)

/-- A seal at the serialiser: resolved and sent, or dropped. -/
def takeSeal (x : Seal) (s : State) : State :=
  let w := viewAt s x.view
  if sealOk s w x then
    let px := resolveTile w.geo.samples x.colour
    emitTile x.view w.geo x.tx x.ty none px (onView x.view (fun w => { w with
      accepted := w.accepted ++ [(x.tx, x.ty)], tiles := w.tiles ++ [((x.tx, x.ty), px)] }) s)
  else onView x.view (fun w => { w with sealLate := min 0xFFFFFFFF (w.sealLate + 1) }) s

/-- The seal that can reach the serialiser now: one that comes in the clock of a strip's replacement comes before it (R138). -/
def sealDue (s : State) : Option (Seal × List Seal) :=
  match s.display.seals with
  | x :: rest => if (viewAt s x.view).closedAt = s.clock + 1 then none else some (x, rest)
  | [] => none

/-- R138. A seal reaching the serialiser by the replacement instant is resolved and emitted; a later or repeated seal is
dropped. -/
def execSealArrival (s : State) : Out :=
  match sealDue s with
  | some (x, rest) => .next (takeSeal x { s with display := { s.display with seals := rest } })
  | none => .refused .notDue

/-- R139. A replacement notice reaches the tile team's core. -/
def execReplacementNotice (team : Nat) (s : State) : Out :=
  match s.display.notices.find? fun n => n.1 == team with
  | some n =>
    let tell (t : Team) : Team := if t.gen = n.2 then { t with noticed := true } else t
    .next (onTeam team tell { s with
      saved := Maps.modify s.saved team tell, display := { s.display with notices := s.display.notices.filter (· != n) } })
  | none => .refused .notDue

/-! Registers (R120, R140, R141, R499). -/

/-- A write of SERCLK (R140). MUL and DIV do not change while the clock runs. -/
def writeSerclk (w : Word) (s : State) : State :=
  let n := w.toNat
  let div := bitsN n 23 16
  let mul := bitsN n 15 8
  let old := s.display.serclk.toNat
  if div < 1 ∨ 16 < div ∨ mul < 4 ∨ 64 < mul ∨ 100 * mul < 50 * div ∨ 800 * div < 100 * mul then s
  else
    let (m, d) := if bitN old 0 then (bitsN old 15 8, bitsN old 23 16) else (mul, div)
    { s with display := { s.display with serclk := BitVec.ofNat 32 (n % 2 + m * 2 ^ 8 + d * 2 ^ 16) } }

/-- R140. A SERCLK write sets the strip-clock multiplier, divisor and enable. -/
def execSerclkWrite (w : BitVec 32) (s : State) : Out := .next (writeSerclk w s)

/-- The block that a write of the highest word brings about (R18, R141). -/
def newVob (s : State) (v : View) (x : BitVec 512) : BitVec 512 :=
  let n := x.toNat
  let old := v.vob.toNat
  let per := bitsN n 255 224
  let per := if per = 0 ∨ 4 * minBudget s ≤ per then per else v.period
  let pen := bitsN n 127 127
  let put (hi lo val : Nat) (w : Nat) : Nat := w - bitsN w hi lo * 2 ^ lo + val * 2 ^ lo
  let port := if bitsN n 126 120 < 64 then bitsN n 126 120 else v.port
  if v.period ≠ 0 then BitVec.ofNat 512 (put 127 127 pen (put 255 224 per old))
  else BitVec.ofNat 512 (bitsN n 511 256 * 2 ^ 256 + per * 2 ^ 224 + bitsN n 223 160 * 2 ^ 160 + pen * 2 ^ 127 + port * 2 ^ 120)

/-- A write of one word of a view output block (R18, R141): the block changes with its highest word. A view that had been disabled begins
without its past latches, so that a card ready later counts none of them (R129), but keeps what it knows of its frames: one with the same
record and number is the same frame (R128). The spec says neither (DESIGN CHOICE, log entry 29). -/
def writeVob (v part : Nat) (w : Dword) (s : State) : State :=
  let o := viewAt s v
  let x := o.vobStage.toNat
  let x : BitVec 512 := BitVec.ofNat 512 (x - bitsN x (64 * part + 63) (64 * part) * 2 ^ (64 * part) + w.toNat * 2 ^ (64 * part))
  if part < 7 then onView v (fun o => { o with vobStage := x }) s
  else
    let y := newVob s o x
    onView v (fun o => { o with
      vob := y, vobStage := y
      history := if bitsN y.toNat 511 448 = o.histBase then o.history else []
      past := if o.period = 0 && !o.opened then [] else o.past
      strip := if o.period = 0 && !o.opened then none else o.strip }) s

/-- R141. A write of a view output block configures a view. -/
def execVobWrite (v : BitVec 4) (part : BitVec 3) (w : BitVec 64) (s : State) : Out := .next (writeVob v.toNat part.toNat w s)

/-- A write of VRECv (R499). -/
def writeVrec (v : Nat) (w : Dword) (s : State) : State :=
  onView v (fun o => { o with vrec := BitVec.ofNat 64 (bitsN w.toNat 45 8 * 256 + w.toNat % 2) }) s

/-- R499. A VRECv write names the view record that the serialiser reads from the next strip start. -/
def execVrecWrite (v : BitVec 4) (w : BitVec 64) (s : State) : Out := .next (writeVrec v.toNat w s)

/-- A write of GAZEv (R120). -/
def writeGaze (v : Nat) (w : Word) (s : State) : State := onView v (fun o => { o with gaze := w }) s

/-- R120. A single 32-bit write of GAZEv changes GX and GY together. -/
def execGazeWrite (v : BitVec 4) (w : BitVec 32) (s : State) : Out := .next (writeGaze v.toNat w s)

/-- Has a strip of a frame been emitted or replaced whole (R139, R143)? -/
def stripClosed (s : State) (view strip frame : Nat) : Bool :=
  let v := viewAt s view
  match v.strip with
  | none => false
  | some n =>
    let ahead := (frame + 65536 - n / 4 % 65536) % 65536
    if ahead = 0 then decide (strip < n % 4) || (strip == n % 4 && !v.opened) else decide (32768 ≤ ahead)

end Sys2Proof.Machine
end

