-- ==== Sys2Proof/Machine/Bin.lean ====
section
/-! DEFINITION. The binner and the tile owners (R114, R122 to R127, R131, R132): set-up for a view, tiles covered, tile lists with
partial flushes, draw-end markers, and primitives applied in their tile teams. -/

namespace Sys2Proof.Machine

/-! The view amplifier (R114). -/

/-- A vertex's clip coordinates for a view, then its attributes. -/
def ampVertex (c : Card) (view : List Byte) (v : List Word) : List Word :=
  let ref (i : Nat) : Num.FV := Num.decode Num.f64 (c.drawF (575 + 64 * i) (512 + 64 * i))
  let q (i : Nat) : Num.FV := fsum (f32v ((v[i]?).getD 0)) (originDiff ref (fun i => recF64 view (8 * i)) i)
  ((List.range 4).map fun i => BitVec.ofNat 32 (Num.packRne Num.f32 (matRow view q i))) ++ v.drop 3

/-- A primitive set up for a view. -/
def viewPrim (die : Nat) (c : Card) (view : List Byte) (p : Prim) : ViewPrim :=
  { draw := p.draw, ord := p.ordinal, rate := p.rate, die := die, slot := p.slot, post := c.posted, verts := p.verts.map (ampVertex c view) }

/-! Binning (R122, R123). -/

/-- Does a primitive cover a sample of a tile (R118, R131)? -/
def coversTile (g : StripGeo) (ax ay : Axis) (u : Setup) (tx ty : Nat) : Bool :=
  (List.range 1024).any fun p => (List.range g.samples).any fun i =>
    match sampleAt g ax ay tx ty (p % 32) (p / 32) i with
    | some (x, y) => (u.depthAt x y).isSome
    | none => false

/-- The tiles of a strip that a primitive covers. -/
def coveredTiles (g : StripGeo) (p : ViewPrim) : List (Nat × Nat) :=
  let u := setup g p
  let ax := g.axisX
  let ay := g.axisY
  (List.range g.rows).flatMap fun ty => ((List.range g.cols).filter fun tx => coversTile g ax ay u tx ty).map fun tx => (tx, ty)

/-- The strip whose latch a draw uses. -/
def Card.strip (c : Card) : Nat := c.drawF 387 386

/-- Has a draw's strip latched, or passed, for a view (R122)? -/
def binReady (s : State) (c : Card) (v : Nat) : Bool :=
  stripPassed s v c.strip (frameNo c.frec) || (latchOf s v c.strip (frameNo c.frec)).isSome

/-- The primitive and view that the binner of a die takes next: a primitive waits only for the latches of its own views. -/
def binDue (s : State) (die : Nat) : Option (Nat × Prim × Card × Option Nat) :=
  let d := dieAt s die
  if d.heldReset then none
  else (d.prims.zip (List.range d.prims.length)).findSome? fun e =>
    let (p, i) := e
    match Maps.find d.cards p.slot with
    | none => some (i, p, { bits := 0, addr := 0, ctx := 0, posted := 0, st := .bad }, none)
    | some c =>
      if p.views.isEmpty then some (i, p, c, none) else (p.views.find? (binReady s c)).map fun v => (i, p, c, some v)

/-- A primitive late at the binner or an owner: counted in its draw (R122). -/
def countLate (c : Card) : Card := { c with lateDrop := satAdd c.lateDrop 1, drawFlags := Nat.lor c.drawFlags 8 }

/-- A primitive binned for a view whose strip has latched: sent to the owner of each tile it covers. -/
def sendPrim (die : Nat) (c : Card) (v : Nat) (l : Dword) (p : Prim) (s : State) : State :=
  let (view, s) := unitRead die c (BitVec.ofNat 64 (recField c.frec 0 8 + 256 * v)) 256 s
  let g := geoOf v c.strip (frameNo c.frec) l view
  let vp := viewPrim die c view p
  (coveredTiles g vp).foldl (fun s t =>
    match tileOwner (dieMask c.frec) v c.strip t.1 t.2 with
    | some o => onDie o (fun x => { x with binMsgs := x.binMsgs ++ [.prim c.frameVa (frameNo c.frec) c.ctx v c.strip t.1 t.2 vp] }) s
    | none => s) s

/-- The binner's work on a primitive: for one view, or done with it. One that is late counts in LATEDROP once for each view, which the spec
leaves open (DESIGN CHOICE, log entry 29). -/
def binStep (die i : Nat) (p : Prim) (c : Card) (v : Option Nat) (s : State) : State :=
  match v with
  | none => onDie die (fun d => { d with prims := d.prims.eraseIdx i }) s
  | some v =>
    let s := match stripPassed s v c.strip (frameNo c.frec), latchOf s v c.strip (frameNo c.frec) with
      | false, some l => sendPrim die c v l p s
      | _, _ => onCard die p.slot countLate s
    let rest := p.views.filter (· != v)
    onDie die (fun d => { d with prims := if rest.isEmpty then d.prims.eraseIdx i else d.prims.set i { p with views := rest } }) s

/-- R122. A primitive reaching the binner waits for its strip's latch, is dropped if late, and is sent to the owner of each tile it
covers. -/
def execPrimitiveAtBinner (die : BitVec 3) (s : State) : Out :=
  match binDue s die.toNat with
  | some (i, p, c, v) => .next (binStep die.toNat i p c v s)
  | none => .refused .notDue

/-! Owners: what comes from binners, in order from each (R125). -/

def BinMsg.src : BinMsg → Nat
  | .prim _ _ _ _ _ _ _ p => p.die
  | .marker _ _ _ _ src => src

/-- The first message of each binner, with its place. -/
def headMsgs : List Nat → Nat → List BinMsg → List (Nat × BinMsg)
  | _, _, [] => []
  | seen, i, m :: ms => if seen.contains m.src then headMsgs seen (i + 1) ms else (i, m) :: headMsgs (m.src :: seen) (i + 1) ms

/-- The way of a binner's message to a die pair's engines (R125, R205). -/
def binWay (m : BinMsg) (d : Nat) : Way := { inp := 192 + m.src, slice := dieSlice d }

/-- Those of them that a die pair has before it: the way from their binner is not stalled (R31, R125). -/
def dieHeads (s : State) (d : Nat) : List (Nat × BinMsg) :=
  if (dieAt s d).heldReset then [] else (headMsgs [] 0 (dieAt s d).binMsgs).filter fun e => (binWay e.2 d).open_ s

/-- A message done with; what its binner sends next has made no flush yet. -/
def dropMsg (i : Nat) (d : Die) : Die :=
  let src := (d.binMsgs[i]?).map BinMsg.src
  { d with binMsgs := d.binMsgs.eraseIdx i, flushed := d.flushed.filter fun x => some x != src }

/-! Tile lists and flush slots (R126, R127). -/

/-- A frame's tiles at an owner. -/
def frameTiles (d : Die) (fr : Dword) (frame ctx : Nat) : AMap Tile :=
  d.tiles.filter fun t => t.2.fr == fr && t.2.frame == frame && t.2.ctx == ctx

/-- The frame record, as the owner reads it. -/
def frameRec (s : State) (d : Nat) (fr : Dword) (ctx : Nat) : List Byte := readBytes [] (engineRead s d ctx fr 64)

/-- Primitives that an owner's part of TLBUF holds (log entry 13). -/
def listCap (frec : List Byte) : Nat := recField frec 24 4 / 256

def listUsed (ts : AMap Tile) : Nat := ts.foldl (fun n t => n + t.2.prims.length) 0

/-- The bytes of a tile's flush slot (R127). -/
def slotSize (s : State) (d : Nat) (frec : List Byte) (t : Tile) : Nat :=
  let r := readBytes [] (readView s d t.ctx frec t.view)
  12288 * 2 ^ (recField r 220 1 % 4)

/-- Does an early-flushed tile still hold its slot: it is not yet sealed (R127)? -/
def holdsSlot (t : Tile) : Bool := t.flushed && !t.abandoned && !t.sealed

def slotsUsed (s : State) (d : Nat) (frec : List Byte) (ts : AMap Tile) : Nat :=
  ts.foldl (fun n t => if holdsSlot t.2 then n + slotSize s d frec t.2 else n) 0

/-- The primitives of a tile that are applicable now (R124). -/
def applicable (d : Die) (t : Tile) : List ViewPrim :=
  (tilePrims t).takeWhile fun p => decide (p.draw ≤ markersBelow d t p.draw)

/-- Bytes in the device's own format, written to a virtual range in a context (log entry 13). -/
def scribble (d ctx : Nat) (va : Dword) (n : Nat) (s : State) : State :=
  let (k, s) := draw s
  (engineWrite d ctx va ((List.range n).map fun i => Config.deviceByte k i) s).2

/-- A count in the frame record, saturating (R115). -/
def bumpFrame (d : Nat) (fr : Dword) (ctx off : Nat) (s : State) : State :=
  let s' := engineMeet d ctx (fr + BitVec.ofNat 64 off) 4 s
  match engineRead s d ctx (fr + BitVec.ofNat 64 off) 4 with
  | .ok bs => (engineWrite d ctx (fr + BitVec.ofNat 64 off) (Maps.natLe (satAdd (Maps.leNat bs) 1) 4) s').2
  | .error _ => s'

/-- A partial flush of one tile: its applicable primitives go to its flush slot, or it is abandoned (R126, R127). -/
def flushTile (d key : Nat) (frec : List Byte) (s : State) : State :=
  let x := dieAt s d
  match Maps.find x.tiles key with
  | none => s
  | some t =>
    let ps := (applicable x t).filter fun p => t.prims.contains p
    if ps.isEmpty then s
    else
      let used := slotsUsed s d frec (frameTiles x t.fr t.frame t.ctx)
      let size := slotSize s d frec t
      if holdsSlot t || decide (used + size ≤ recField frec 36 4) then
        let s := scribble d t.ctx (BitVec.ofNat 64 (recField frec 16 8 + d * recField frec 36 4 + min used (recField frec 36 4 - size))) size s
        onDie d (fun x => { x with tiles := Maps.modify x.tiles key fun t =>
          { t with prims := t.prims.filter fun p => !ps.contains p, moved := t.moved ++ ps, flushed := true } }) s
      else
        bumpFrame d t.fr t.ctx 44 (onDie d (fun x => { x with tiles := Maps.modify x.tiles key fun t =>
          { t with prims := [], moved := [], abandoned := true } }) s)

/-- A partial flush (R126). -/
def partialFlush (d : Nat) (fr : Dword) (frame ctx : Nat) (s : State) : State :=
  let frec := frameRec s d fr ctx
  bumpFrame d fr ctx 40 (((frameTiles (dieAt s d) fr frame ctx).map (·.1)).foldl (fun s k => flushTile d k frec s) s)

/-- Would a flush free something? -/
def flushFrees (d : Die) (fr : Dword) (frame ctx : Nat) : Bool :=
  (frameTiles d fr frame ctx).any fun t => (applicable d t.2).any fun p => t.2.prims.contains p

/-! A primitive at its owner (R126, R139). -/

/-- What becomes of a primitive that has reached its owner. -/
inductive AtOwner where
  | late | dropped | stalled | flush | joins
deriving DecidableEq, Repr

/-- `src`: the binner that it comes from, whose first primitive makes a flush where it finds the lists full. -/
def atOwner (s : State) (d src : Nat) (fr : Dword) (frame ctx view strip tx ty : Nat) : AtOwner :=
  let x := dieAt s d
  let t := Maps.find x.tiles (tileKey ctx fr frame view strip tx ty)
  if (t.map (·.abandoned)).getD false then .dropped
  else if (t.map (·.late)).getD false || stripClosed s view strip frame || stripPassed s view strip frame then .late
  else if listUsed (frameTiles x fr frame ctx) < listCap (frameRec s d fr ctx) then .joins
  else if flushFrees x fr frame ctx || !x.flushed.contains src then .flush
  else .stalled

/-- A primitive that joins its tile's list. -/
def joinTile (d : Nat) (fr : Dword) (frame ctx view strip tx ty : Nat) (p : ViewPrim) (s : State) : State :=
  let frec := frameRec s d fr ctx
  let key := tileKey ctx fr frame view strip tx ty
  let n := listUsed (frameTiles (dieAt s d) fr frame ctx)
  let s := scribble d ctx (BitVec.ofNat 64 (recField frec 8 8 + d * recField frec 24 4 + 256 * n)) 256 s
  onDie d (fun x =>
    let t := Maps.get { view := view, strip := strip, tx := tx, ty := ty, fr := fr, frame := frame, ctx := ctx } x.tiles key
    { x with tiles := Maps.set x.tiles key { t with prims := t.prims ++ [p] } }) s

/-- The first message of a binner that is a primitive which does not stall. -/
def ownerDue (s : State) (d : Nat) : Option (Nat × BinMsg) :=
  (dieHeads s d).find? fun e => match e.2 with
    | .prim fr frame ctx view strip tx ty p => atOwner s d p.die fr frame ctx view strip tx ty != .stalled
    | .marker .. => false

/-- A primitive at its owner: it joins its tile's list, after a partial flush where the lists are full, or goes. -/
def ownerStep (d i : Nat) (m : BinMsg) (s : State) : State :=
  match m with
  | .marker .. => s
  | .prim fr frame ctx view strip tx ty p =>
    match atOwner s d p.die fr frame ctx view strip tx ty with
    | .late => onDie d (dropMsg i) (dropLate [p] (crossTo (binWay m d) 2 s))
    | .dropped => onDie d (dropMsg i) (crossTo (binWay m d) 2 s)
    | .joins => joinTile d fr frame ctx view strip tx ty p (onDie d (dropMsg i) (crossTo (binWay m d) 2 s))
    | .flush =>
      let frees := flushFrees (dieAt s d) fr frame ctx
      onDie d (fun x => { x with flushed := if frees then x.flushed.filter (· != p.die) else p.die :: x.flushed }) (partialFlush d fr frame ctx s)
    | .stalled => s

/-- R126. A primitive reaching a tile owner joins its tile lists in TLBUF. -/
def execPrimitiveAtOwner (die : BitVec 3) (s : State) : Out :=
  match ownerDue s die.toNat with
  | some (i, m) => .next (ownerStep die.toNat i m s)
  | none => .refused .notDue

/-! Markers (R124). -/

def markerDue (s : State) (d : Nat) : Option (Nat × BinMsg × (Dword × Nat × Nat × Nat)) :=
  (dieHeads s d).findSome? fun e => match e.2 with
    | .marker fr frame ctx draw _ => some (e.1, e.2, (fr, frame, ctx, draw))
    | .prim .. => none

/-- R124. A draw-end marker reaches an owner and makes later draws' primitives applicable. -/
def execDrawEndMarker (die : BitVec 3) (s : State) : Out :=
  match markerDue s die.toNat with
  | some (i, x, m) =>
    .next (endTiles die.toNat (onDie die.toNat (fun d => { dropMsg i d with markers := d.markers ++ [m] }) (crossTo (binWay x die.toNat) 2 s)))
  | none => .refused .notDue

/-! The raster engine (R131, R132). -/

/-- A tile's record of its team's card. -/
def teamTile (s : State) (t : Team) : List Byte := ((Maps.find (dieAt s t.die).cards t.slot).map (·.drec)).getD []

/-- A tile's next primitive applied in its team, where the tile's team is resident and not in a move, and the quad ring has room; or its
end-of-tile record appended. -/
def applyStep (s : State) (d key : Nat) : Option State :=
  let x := dieAt s d
  match Maps.find x.tiles key with
  | none => none
  | some t => match boundTeam s t with
    | none => none
    | some (h, tm) =>
        let put (f : Tile → Tile) (r : Team × List Nat) (s : State) : State :=
          endTile d key (onTeam h (fun _ => r.1) (onDie d (fun x => { x with tiles := Maps.modify x.tiles key fun t => { f t with quads := r.2 } }) s))
        if tltMove s tm.ctx h || x.heldReset then none
        else if !t.quads.isEmpty then (if ringFree tm = 0 then none else some (put id (appendQuads t.quads tm) s))
        else match nextPrim x t with
          | some p =>
            let (n, s) := draw s
            (applyPrim s d tm.ctx (teamTile s tm) n p tm).map fun r =>
              put (fun t => { t with prims := removeFirst (· == p) t.prims, moved := removeFirst (· == p) t.moved }) r (rateMeet d tm.ctx (teamTile s tm) tm p s)
          | none =>
            let s' := endTile d key s
            if ((Maps.find (dieAt s' d).tiles key).map (·.ended)).getD false != t.ended then some s' else none

/-- R131. The raster engine covers and depth-tests an applicable primitive's samples in the tile team's scratchpad. -/
def execPrimitiveApply (die : BitVec 3) (tile : Nat) (s : State) : Out :=
  match applyStep s die.toNat tile with
  | some t => .next t
  | none => .refused .notDue

/-- The tiles of a die whose raster engine has something to do. -/
def applyDue (s : State) (d : Nat) : List Nat := Maps.keys (dieAt s d).tiles fun k _ => (applyStep s d k).isSome

end Sys2Proof.Machine
end

