-- ==== Sys2Proof/Machine/Fetch.lean ====
section
/-! DEFINITION. Fetch (R198, R309, R310, R331): the block that holds a group's next packet, and the words of its next
chain. -/

namespace Sys2Proof.Machine

/-- How a fetch ends: at a line, with a cause in the group's lanes, parking, or not yet. -/
inductive Fetched where
  | line (l : Line)
  | trap (c : Cause) (r : Reason) (addr : Dword) (info : Nat)
  | park (r : Reason) (byPage : Bool) (info : Nat)
  /-- The way to what is to be read is held while a module retrains (R31). -/
  | held
deriving DecidableEq, Repr

/-- The leaf of a page may be fetched from by a group (R198). -/
def mayFetch (e : TlbEntry) (user : Bool) : Bool := permits e .fetch user

/-- The translation of a code page (R197, R198): the group's own or the TLB's where it allows the fetch, else a walk; with it, whether
user mode may fetch there. -/
def fetchTr (s : State) (g : Group) (t : Team) (va : Dword) : (Nat × Option TlbEntry × Bool) ⊕ Fetched :=
  match g.codeTr with
  | some c => if c.page = va.toNat / 65536 * 65536 ∧ (c.u || g.sup) = true then .inl (c.pa + va.toNat % 65536, none, c.u) else walkCode
  | none => walkCode
where
  walkCode : (Nat × Option TlbEntry × Bool) ⊕ Fetched :=
    let ctx := if vaTag va = 0xFF then 0 else t.ctx
    let asid := ctxAsid s ctx
    match (coreAt s t.core).tlb.find? fun e => tlbHit e asid (vaLow va) && mayFetch e (!g.sup) with
    | some e => .inl (tlbPa e (vaLow va), none, e.u)
    | none =>
      if inputHeld s t.core then .inr .held
      else if let some n := walkLost s t.core (ctxRoot s ctx) (vaLow va) then .inr (.trap .access .linkdown va n)
      else match walk s.mem (ctxRoot s ctx) (vaLow va) with
      | .leaf pte level =>
        let e := tlbOf asid (vaLow va) pte level
        if mayFetch e (!g.sup) then .inl (tlbPa e (vaLow va), some e, e.u) else .inr (.trap .exec .noexec va 0)
      | .invalid _ _ _ => .inr (.park .notmapped true 0)
      | .bad level => .inr (.park .badpte false level)
      | .nophys a => .inr (.trap .access .nophys (BitVec.ofNat 64 a) 0)

/-- A line of code through the core's instruction cache. -/
def codeLine (s : State) (core pa : Nat) : Line :=
  match Maps.find (coreAt s core).icache (pa / 64) with
  | some l => l
  | none => lineOf (bytesAt s.mem (64 * (pa / 64)) 64)

/-- The fetch block at the pc of `g`, which stands for group `k`, and the state that has fetched it: the group's buffer of two blocks,
its code translation, the instruction cache (R198). An ENTRY that no packet starts at is not fetched (R331). -/
def fetchFor (g : Group) (k : Nat) (s : State) : Fetched × State :=
  let t := teamAt s (handleOf k)
  let blk := g.pc.toNat / 64 * 64
  let va : Dword := BitVec.ofNat 64 blk
  match g.fetched.find? fun b => b.1 == blk with
  | some b => (.line b.2, s)
  | none =>
    if (vaTag va ≠ 0 ∧ vaTag va ≠ 0xFF) ∨ (g.entry ∧ !isPacketStart g.pc) then (.trap .exec .noexec g.pc 0, s)
    else if vaTag va = 0xFF ∧ !g.sup then (.trap .access .perm g.pc 0, s)
    else match fetchTr s g t va with
      | .inr f => (f, s)
      | .inl (pa, tr, u) =>
        if !isHbm pa ∨ (domainOf s.mem pa).isNone then (.trap .access .nophys (BitVec.ofNat 64 pa) 0, s)
        else
          let a := 64 * (pa / 64)
          let fill := (Maps.find (coreAt s t.core).icache (pa / 64)).isNone
          if fill ∧ inputHeld s t.core then (.held, s)
          else if let some n := if fill then lostLink s t.core a 64 else none then (.trap .access .linkdown g.pc n, s)
          else if fill ∧ rangeErr s.mem a 64 ≠ 0 then (.trap .access .ecc g.pc (rangeErr s.mem a 64), readVia t.core 2 a 64 s)
          else if fill ∧ poisoned s.mem a 64 then (.trap .access .poison g.pc 0, s)
          else
          let l := codeLine s t.core pa
          let s := onCore t.core (fun c => { c with icache := Maps.set c.icache (pa / 64) l })
            (keepTr t.core tr (if fill then readVia t.core 2 a 64 s else s))
          (.line l, onGroup k (fun g => { g with
            fetched := (blk, l) :: g.fetched.take 1
            codeTr := some { page := blk / 65536 * 65536, pa := pa / 65536 * 65536, u := u } }) s)

/-- The fetch block of a group's next packet. -/
def fetchBlock (k : Nat) (s : State) : Fetched × State := fetchFor (groupOf s k) k s

/-- Word `i` of a fetch block. -/
def blockWord (l : Line) (i : Nat) : Word := BitVec.ofNat 32 (l.toNat / 2 ^ (32 * i))

/-- The words of the packet at an offset of a fetch block. -/
def packetWords (l : Line) (off : Nat) : List Word := (List.range 3).map fun i => blockWord l (off / 12 * 3 + i)

/-- Does an address start a chain of its packet (R291)? -/
def startsChain (ws : List Word) (j : Nat) : Bool := j == 0 || !((ws[j - 1]?).getD 0).getLsbD 31

/-- The address of the chain that follows the one at an address of a block (R291, R296); an address at which no chain starts stays. -/
def chainAfter (l : Line) (pc : Dword) : Dword :=
  let off := pc.toNat % 64
  let ws := packetWords l off
  let j := off % 12 / 4
  if 60 ≤ off ∨ pc.toNat % 4 ≠ 0 ∨ !startsChain ws j then pc else afterChain (packetOf pc) (chainEnd ws j 2)

/-- The pipe of a word by its major (R151). -/
def pipeOf (w : Word) : Pipe :=
  let op := w.toNat / 2 ^ 25 % 64
  if op = 0 ∨ op = 0x3F then .none
  else if op ≤ 0x1F then .a
  else if op ≤ 0x37 then .m
  else .x

/-- Do two words of a chain bind to one pipe (R313)? -/
def pipeClash (ws : List Word) : Bool := !((ws.map pipeOf).filter (· != .none)).Nodup

/-- Do two words' destinations meet (R314)? A write whose register is known only at run time is `vec 4096`, which meets
any vector destination. -/
def destMeets (a b : RegId) : Bool :=
  match a, b with
  | .vec m, .vec n => m == n || m == 4096 || n == 4096
  | _, _ => a == b

def destClash : List ChainAcc → Bool
  | [] => false
  | a :: rest => (rest.any fun b => a.dests.any fun x => b.dests.any fun y => destMeets x y) || destClash rest

end Sys2Proof.Machine
end

