-- ==== Sys2Proof/Machine/Control.lean ====
section
/-! DEFINITION. NOP, LIT, branches, reconvergence, exit, calls, traps and pacing (R312, R315, R377 to R386). -/

namespace Sys2Proof.Machine

/-- R312. A word occupying no pipe and having no effect. -/
def execNop (_c : Bool) (s : State) : Out := issue (fun _ _ => {}) s

/-- R315, R322. A LIT that is the first word of a chain is ILLEGAL. -/
def execLit (_c : Bool) (_l : BitVec 25) (s : State) : Out := issue (fun g _ => { raises := legal false g }) s

/-- A word that acts on the pc, the mask or the stack after the chain's other words (R377), with what its stack accesses
raise or park on. -/
def ctlWord (g : Group) (uses : List RegId) (fs : List (Raise ⊕ ParkReq)) (f : State → State) : WordOut :=
  let va : Raise ⊕ ParkReq → Dword := fun x => match x with
    | .inl r => r.addr
    | .inr p => p.addr
  { uses := uses, raises := raisesOf fs, parks := parksOf fs
    addrs := fs.flatMap fun x => (lanesOf g.active).map fun l => (l, va x)
    ctl := some f }

/-- The predicate registers that a field names (R320). -/
def predUse (p : BitVec 3) : List RegId := if p = 7 then [] else [.pred p.toNat]

/-- The group goes on at an address. -/
def goto (pc : Dword) : State → State := onCur fun g => { g with pc := pc }

/-- The target of a direct branch (R311, R377). -/
def branchTarget (g : Group) (o : BitVec 19) (lit : Option (BitVec 25)) : Dword :=
  packetAddr (packetNo (packetOf g.pc) + immB o lit)

/-- A branch taken by the lanes T (R378). -/
def branchWord (uses : List RegId) (taken : Word) (o : BitVec 19) (lit : Option (BitVec 25)) (g : Group) (s : State) : WordOut :=
  let f := g.active &&& ~~~taken
  let target := branchTarget g o lit
  if taken = 0 then { uses := uses }
  else if f = 0 then ctlWord g uses [] (goto target)
  else ctlWord g uses (pushFaults s g) fun s =>
    onCur (fun live => { live with active := f })
      (push s.cur { kind := .div, mask := g.active, pmask := taken, ppc := target } s)

/-- R378. Unconditional branch. -/
def execBra (_c : Bool) (o : BitVec 19) (lit : Option (BitVec 25)) (s : State) : Out :=
  issue (fun g => branchWord [] g.active o lit g) s

/-- R378. Divergent branch on predicate true. -/
def execBrc (_c : Bool) (p : BitVec 3) (o : BitVec 19) (lit : Option (BitVec 25)) (s : State) : Out :=
  issue (fun g => branchWord (predUse p) (g.active &&& g.p p.toNat) o lit g) s

/-- R378. Divergent branch on predicate false. -/
def execBrcn (_c : Bool) (p : BitVec 3) (o : BitVec 19) (lit : Option (BitVec 25)) (s : State) : Out :=
  issue (fun g => branchWord (predUse p) (g.active &&& ~~~(g.p p.toNat)) o lit g) s

/-- R378. Uniform branch if any active lane's predicate is set. -/
def execBru (_c : Bool) (p : BitVec 3) (o : BitVec 19) (lit : Option (BitVec 25)) (s : State) : Out :=
  issue (fun g => branchWord (predUse p) (if g.active &&& g.p p.toNat = 0 then 0 else g.active) o lit g) s

/-- The spilled entries' homes, top first (R169). -/
def spilledHomes (g : Group) : List Dword := ((List.range (g.depth - g.held.length)).map (stackHome g)).reverse

/-- The first fault of an access to the spilled entries (R169). -/
def spilledFaults (s : State) (g : Group) (acc : Acc) : List (Raise ⊕ ParkReq) :=
  (((spilledHomes g).filterMap fun va => homeFault s s.cur va acc).head?).toList

/-- The faults of the pops of a group that vacates (R169, R383). -/
def vacateFaults (s : State) (g : Group) : List (Raise ⊕ ParkReq) := spilledFaults s g .load

/-- The stack's entries, top first, the spilled ones as their homes hold them (R169). -/
def stackEntries (s : State) (g : Group) : List StackEntry :=
  g.held ++ (spilledHomes g).map fun va => entryOf (readNow s s.cur va 32) g.pc

/-- Does a group with this stack meet a bad entry as it vacates (R168, R383)? -/
def vacateMeetsBad : List StackEntry → Bool
  | [] => false
  | e :: rest => e.kind == .bad || ((e.kind != .div || e.pmask == 0) && e.mask == 0 && vacateMeetsBad rest)

/-- What a word that vacates with this stack raises: the faults of its pops, or ILLEGAL for a bad entry, with no effect (R290). -/
def vacateWord (g : Group) (s : State) (es : List StackEntry) (f : State → State) : WordOut :=
  match vacateFaults s g with
  | [] => if vacateMeetsBad es then { raises := legal false g } else ctlWord g [] [] f
  | fs => ctlWord g [] fs f

/-- `join` with a TRAP entry on top (R296). With ADV the chain after the resume point is where the block there says, which is fetched for
it: its faults are the join's own (log entry 15). -/
def joinTrap (e : StackEntry) (g : Group) (s : State) : WordOut :=
  if !g.mode.getLsbD 1 then ctlWord g [] (popFaults s g) fun s => returnTrap s.cur e false e.rpc s
  else
    let at_ : Group := { g with pc := e.rpc, mode := e.mode.setWidth 32 }
    match (fetchFor at_ s.cur s).1 with
    | .line l => ctlWord g [] (popFaults s g) fun s => returnTrap s.cur e true (chainAfter l e.rpc) (fetchFor at_ s.cur s).2
    | .held => { stall := true }
    | .trap c r addr i => ctlWord g [] [.inl { cause := c, mask := g.active, reason := r, addr := addr, info := BitVec.ofNat 32 i }] id
    | .park r byPage i =>
      ctlWord g [] [.inr { reason := r, mask := g.active, addr := e.rpc, acc := .fetch, byPage := byPage, user := !at_.sup, info := BitVec.ofNat 32 i }] id

/-- `join` (R379, R296). One that reconverges waits for the accesses of the paths to be performed (R220). -/
def joinWord (g : Group) (s : State) : WordOut :=
  match g.held.head? with
  | none => { raises := legal false g }
  | some e =>
    match e.kind with
    | .bad => { raises := legal false g }
    | .call => { raises := legal false g }
    | .trap =>
      if e.cause = 0x0D then { raises := legal false g }
      else joinTrap e g s
    | .div =>
      if e.pmask ≠ 0 then
        ctlWord g [] [] fun s =>
          onCur (fun live => switchPath live.depth s.mem.nextId { live with active := e.pmask, pc := e.ppc })
            (setTop s.cur { e with rpc := if e.rpc = 0 then s.nextPc else e.rpc, pmask := 0 } s)
      else if e.mask = 0 then
        { vacateWord g s (stackEntries s g).tail fun s =>
            vacate s.cur (onCur (fun live => { live with active := 0 }) (pop s.cur s)) with stall := pathsOut s g }
      else
        { ctlWord g [] (popFaults s g) fun s =>
            onCur (fun live => { live with active := e.mask, pc := if e.rpc = 0 then s.nextPc else e.rpc }) (pop s.cur s) with stall := pathsOut s g }

/-- R379. Switch to the other path, reconverge, or return from a trap. -/
def execJoin (_c : Bool) (s : State) : Out := issue (joinWord) s

/-- `brx` (R381). -/
def brxWord (sp : BitVec 6) (g : Group) (_ : State) : WordOut :=
  let a := g.s64 sp.toNat
  let uses := [.scl sp.toNat, .scl (sp.toNat + 1)]
  if isPacketStart a then ctlWord g uses [] (goto a) else { uses := uses, raises := legal false g }

/-- R381. Branch to an address held in a scalar pair. -/
def execBrx (_c : Bool) (sb : BitVec 6) (s : State) : Out := issue (brxWord sb) s

/-- `loop` (R380). -/
def loopWord (p : BitVec 3) (o : BitVec 19) (lit : Option (BitVec 25)) (g : Group) (s : State) : WordOut :=
  let stay := g.active &&& g.p p.toNat
  let leave := g.active &&& ~~~stay
  let next := s.nextPc
  let mine : Option StackEntry := match g.held.head? with
    | some e => if e.kind = .div ∧ e.ppc = next ∧ e.rpc = next then some e else none
    | none => none
  let back : State → State := onCur fun live => { live with active := stay, pc := branchTarget g o lit }
  if stay ≠ 0 then
    if leave = 0 then ctlWord g (predUse p) [] back
    else match mine with
      | some e => ctlWord g (predUse p) [] fun s => back (setTop s.cur { e with pmask := e.pmask ||| leave } s)
      | none => ctlWord g (predUse p) (pushFaults s g) fun s =>
          back (push s.cur { kind := .div, mask := g.active, pmask := leave, ppc := next, rpc := next } s)
  else match mine with
    | some e => ctlWord g (predUse p) (popFaults s g) fun s => onCur (fun live => { live with active := e.mask, pc := next }) (pop s.cur s)
    | none => { uses := predUse p }

/-- R380. Per-lane loop back edge. -/
def execLoop (_c : Bool) (p : BitVec 3) (o : BitVec 19) (lit : Option (BitVec 25)) (s : State) : Out :=
  issue (loopWord p o lit) s

/-- `call` (R384). -/
def callWord (o : BitVec 19) (lit : Option (BitVec 25)) (g : Group) (s : State) : WordOut :=
  ctlWord g [] (pushFaults s g) fun s =>
    goto (branchTarget g o lit) (push s.cur { kind := .call, mask := g.active, rpc := s.nextPc } s)

/-- `ret` (R384). -/
def retWord (g : Group) (s : State) : WordOut :=
  match g.held.head? with
  | none => { raises := legal false g }
  | some e =>
    if e.kind ≠ .call then { raises := legal false g }
    else if e.mask = 0 then
      vacateWord g s (stackEntries s g).tail fun s => vacate s.cur (onCur (fun live => { live with active := 0, pc := e.rpc }) (pop s.cur s))
    else ctlWord g [] (popFaults s g) fun s => onCur (fun live => { live with active := e.mask, pc := e.rpc }) (pop s.cur s)

/-- R384. Push a CALL entry and branch. -/
def execCall (_c : Bool) (o : BitVec 19) (lit : Option (BitVec 25)) (s : State) : Out := issue (callWord o lit) s

/-- R384. Pop a CALL entry and return. -/
def execRet (_c : Bool) (s : State) : Out := issue (retWord) s

/-- Lanes taken out of a spilled entry's MASK and PMASK (R168, R382). -/
def stripSpilled (x : Word) (s : State) (home : Dword) : State :=
  let v := readNow s s.cur (home + 24) 8
  storeNow s.cur (home + 24) (Maps.natLe ((BitVec.ofNat 64 v) &&& ~~~(pairOf x x)).toNat 8) s

/-- Lanes ended: out of ACTIVE, of every stack entry and of PLM, whose chain pends no more where it is left empty; an empty group vacates
(R299, R382). -/
def exitLanes (x : Word) (s : State) : State :=
  let g := groupOf s s.cur
  let s := if x = 0 then s else (spilledHomes g).foldl (stripSpilled x) s
  let s := onCur (fun live => { live with
    active := live.active &&& ~~~x, plm := live.plm &&& ~~~x, gone := live.gone ||| x
    plmAt := if live.plm &&& ~~~x = 0 then none else live.plmAt
    held := live.held.map fun e => { e with mask := e.mask &&& ~~~x, pmask := e.pmask &&& ~~~x } }) s
  if (groupOf s s.cur).active = 0 then vacate s.cur s else s

/-- `exit` (R382). -/
def exitWord (p : BitVec 3) (g : Group) (s : State) : WordOut :=
  let x := g.active &&& g.p p.toNat
  let fs := (if x = 0 then [] else spilledFaults s g .store) ++ (if g.active &&& ~~~x = 0 ∨ x ≠ 0 then spilledFaults s g .load else [])
  let left := (stackEntries s g).map fun e => { e with mask := e.mask &&& ~~~x, pmask := e.pmask &&& ~~~x }
  let bad := fs.isEmpty && (g.active &&& ~~~x) == 0 && vacateMeetsBad left
  let w := ctlWord g (predUse p) fs (exitLanes x)
  { w with raises := w.raises ++ legal (!bad) g }

/-- R382. End the predicated lanes, vacating the group if none remain. -/
def execExit (_c : Bool) (p : BitVec 3) (s : State) : Out := issue (exitWord p) s

/-- A cause taken at the next chain by the active lanes whose predicate is set (R385). -/
def softTrap (c : Cause) (p : BitVec 3) (g : Group) (_ : State) : WordOut :=
  let m := g.active &&& g.p p.toNat
  { uses := predUse p, nexts := if m = 0 then [] else [{ cause := c, mask := m, next := true }] }

/-- R385. Raise TRAPINSN in the predicated lanes. -/
def execTrap (_c : Bool) (p : BitVec 3) (s : State) : Out := issue (softTrap .trapinsn p) s

/-- R385. Raise BREAK in the predicated lanes. -/
def execBrk (_c : Bool) (p : BitVec 3) (s : State) : Out := issue (softTrap .brk p) s

/-- R386. Reset the group's age. -/
def execYield (_c : Bool) (s : State) : Out :=
  issue (fun _ _ => { ctl := some fun s => onCur (fun g => { g with lastIssue := s.clock }) s }) s

/-- R386. Make the group not ready for n clocks. -/
def execSleep (_c : Bool) (n : BitVec 19) (s : State) : Out :=
  issue (fun _ _ => { ctl := some fun s => onCur (fun g => { g with sleepTo := some (s.clock + n.toNat + 1) }) s }) s

end Sys2Proof.Machine
end

