-- ==== Sys2Proof/Machine/Events.lean ====
section
/-! DEFINITION. The event queue of a die (R82 to R84), the barrier steps of engines (R98, R430), and the decompression engine
(R434 to R437). -/

namespace Sys2Proof.Machine

/-! Posts of event records (R83). -/

/-- Is a die pair a poster's own or a neighbour (R73)? -/
def nearDie (d target : Nat) : Bool := target == d || target == (d + 1) % 8 || target == (d + 7) % 8

def eventF (b : BitVec 128) (hi lo : Nat) : Nat := bitsN b.toNat hi lo

/-- The card address of a record. -/
def eventCard (b : BitVec 128) : Dword := BitVec.ofNat 64 (eventF b 127 64)

/-- Is the record of a kind that exists (R82, R83)? -/
def eventKindOk (b : BitVec 128) : Bool := let k := eventF b 31 27; decide (1 ≤ k) && decide (k ≤ 4)

/-- The post of a record: refused, its card unreadable, or on its way (R83). -/
def eventPost (d : Nat) (e : Event) (s : State) : State :=
  let target := eventF e.bits 24 22
  let va := eventCard e.bits
  let refuse (r : Reason) (info : Nat) : State := record d (unitRecord d r e.ctx e.region va info false) s
  if !nearDie d target ∨ va.toNat % 64 ≠ 0 then refuse .badcard 0
  else match engineRead s d e.ctx va 64 with
    | .error x => engineMeet d e.ctx va 64 (refuse .structfault (2 * 256 + x.1.code))
    | .ok bs => engineMeet d e.ctx va 64 (onDie target (fun x => { x with posts := x.posts ++ [{
        rank := if target = d then 0 else 100000 + d, bits := lineOf bs, addr := va, ctx := e.ctx, region := some e.region }] }) s)

/-- Must the post of a record wait for room in its target's card store? -/
def eventWaits (s : State) (d : Nat) (e : Event) : Bool :=
  eventKindOk e.bits && eventF e.bits 25 25 == 1 && nearDie d (eventF e.bits 24 22) && (eventCard e.bits).toNat % 64 == 0 &&
    (readFault (engineRead s d e.ctx (eventCard e.bits) 64)).isNone && storeFull s (eventF e.bits 24 22)

/-- The decrement of a record sent (R83). -/
def eventDec (d : Nat) (e : Event) (s : State) : State :=
  if eventF e.bits 15 15 = 1 then
    let target := eventF e.bits 14 12
    pushCtr target { idx := eventF e.bits 11 0, kind := .dec, src := .event e.ctx e.region d, rank := if target = d then 1 else 100000 + d } s
  else s

/-! The notify ring (R84). -/

/-- A record appended to the notify ring, or lost. -/
def notify (d : Nat) (b : BitVec 128) (s : State) : State :=
  let v := (dieAt s d).nrbase.toNat
  if !bitN v 0 then s
  else
    let base := bitsN v 45 12 * 4096
    let n := 2 ^ (bitsN v 11 8 + 6)
    if (domainOf s.mem base).isNone then onDie d (fun x => { x with notifyLost := x.notifyLost + 1 }) s
    else
      let w := natAt s.mem base 4
      let r := natAt s.mem (base + 4) 4
      if (w + 2 ^ 32 - r) % 2 ^ 32 = n then
        onMem (fun m =>
          let m := putNat m (base + 8) 4 (min 0xFFFFFFFF (natAt m (base + 8) 4 + 1))
          putNat m (base + 12) 4 (Nat.lor (natAt m (base + 12) 4) 1)) s
      else
        let s := onMem (fun m => putNat (storeReach m (base + 64 + 16 * (w % n)) (Maps.natLe b.toNat 16)) base 4 ((w + 1) % 2 ^ 32)) s
        let irq := (dieAt s d).nrirq.toNat
        if w = r then raiseMsi (bitsN irq 15 12) (bitsN irq 11 0) s else s

/-! The queue (R83). -/

/-- Does a record decrement a counter of its own die? -/
def ownDec (d : Nat) (e : Event) : Bool := eventF e.bits 15 15 == 1 && eventF e.bits 14 12 == d

/-- Is the decrement of the record at the head of a queue still on its way to a counter of the die? -/
def decOut (s : State) (d : Nat) (e : Event) : Bool :=
  ownDec d e && (dieAt s d).ctrOps.any fun o => o.src == .event e.ctx e.region d && o.idx == eventF e.bits 11 0

/-- R91 for a decompression card whose record has been taken: its successors decremented, its entry freed (R437, R478). -/
def retireJob (d : Nat) (job : Option (Nat × Nat)) (s : State) : State :=
  match job with
  | none => s
  | some (slot, posted) => match Maps.find (dieAt s d).cards slot with
    | some c => if c.posted = posted then endCard d slot (validSuccs c).length (decSuccessors d c s) else s
    | none => s

/-- The record at the head of the queue left there with its decrement made; the card that came with it retires, so that it does not take
the room for which its record waits. -/
def holdEvent (d : Nat) (e : Event) (rest : List Event) (s : State) : State :=
  let full := eventWaits s d e && !decOut s d e
  let s := onDie d (fun x => { x with events := { e with stuck := true, job := if full then none else e.job } :: rest }) s
  if full then retireJob d e.job s else s

/-- The record at the head of the queue taken: its decrement first, then its post, then the notify ring, then the retirement of the card that
it ends; or left there with its decrement made. -/
def takeEvent (d : Nat) (e : Event) (rest : List Event) (s : State) : State :=
  let pop (s : State) : State := onDie d (fun x => { x with events := rest }) s
  if !eventKindOk e.bits then retireJob d e.job (onDie d (fun x => { x with discarded := x.discarded + 1 }) (pop s))
  else
    let s := if e.stuck then s else eventDec d e s
    if eventWaits s d e || decOut s d e then holdEvent d e rest s
    else
      let s := if eventF e.bits 25 25 = 1 then eventPost d e (pop s) else pop s
      retireJob d e.job (if eventF e.bits 26 26 = 1 then notify d e.bits s else s)

/-- Can the record at the head of a die's queue be taken? -/
def eventDue (s : State) (d : Nat) : Bool :=
  match (dieAt s d).events with
  | e :: _ => !(dieAt s d).heldReset && !inputHeld s (enginePort d) &&
    !(e.stuck && (decOut s d e || (eventWaits s d e && e.job.isNone)))
  | [] => false

/-- R83. The die sequencer takes one event record: its decrement, then its post, then the notify ring. -/
def execEventRecord (die : BitVec 3) (s : State) : Out :=
  match eventDue s die.toNat, (dieAt s die.toNat).events with
  | true, e :: rest => .next (takeEvent die.toNat e rest s)
  | _, _ => .refused .notDue

/-! Barrier steps of engines (R98, R430). -/

/-- What stands of a team of a context for work that names it by handle and generation: resident, evicted, or gone (R96, R98). -/
def teamState (s : State) (c h gen : Nat) : Nat :=
  let mine (t : Team) : Bool := t.ctx == c && t.gen == gen
  match Maps.find s.teams h, Maps.find s.saved h with
  | some t, _ => if mine t then 1 else 0
  | none, some t => if mine t then 2 else 0
  | none, none => 0

/-- The save area of an evicted team (R96). -/
def savedTsa (s : State) (h : Nat) : Nat := match Maps.find s.saved h with
  | some t => tltTsa s t.ctx h
  | none => 0

/-- The way from an input to the scratchpad of a team: to its core by the relay of that core, or to the line of its save area
(R98, R208). -/
def scratchWay (s : State) (inp c h gen off : Nat) : Option Way :=
  match teamState s c h gen with
  | 1 => some { inp := inp, slice := relaySlice (teamAt s h).core }
  | 2 => some (lineWay s.mem inp ((savedTsa s h + 0x140000 + off) / 64))
  | _ => none

/-- What a copy has delivered to a transaction barrier, where its team stands: at its core, on its save area, or dropped and counted (R98,
R430). A completion that no way leads to any more is a failed one (R32). -/
def barrierStepAt (inp c h gen off n : Nat) (bad : Bool) (s : State) : State :=
  match scratchWay s inp c h gen off with
  | none => stray c 1 s
  | some w =>
    let f := TBar.deliver n (bad || w.dead s)
    let s := crossBoth w 3 s
    if teamState s c h gen = 1 then onTeam h (tbarStep off f) s
    else
      let pa := savedTsa s h + 0x140000 + off
      onMem (fun m => putNat m pa 16 (f (TBar.read (natAt m pa 16))).flip.num) s

/-- An event record entered; the barrier step it carries is made with it (R82, R430). A die held in reset discards it, with a record in
the fault domain of its region (R38). -/
def enterEvent (d : Nat) (e : Event) (s : State) : State :=
  let s := match e.bar with
    | some (h, off, n, bad) => barrierStepAt (enginePort d) e.ctx (h % 2 ^ 20) (h / 2 ^ 20) off n bad s
    | none => s
  if (dieAt s d).heldReset then retireJob d e.job (record d (unitRecord d .thermal e.ctx e.region 0 d false) s)
  else onDie d (fun x => { x with events := x.events ++ [{ e with bar := none }] }) s

/-- A completion's record: entered, or held behind a full queue (R82). -/
def complete (d : Nat) (e : Event) (s : State) : State :=
  if (dieAt s d).heldReset ∨ (dieAt s d).events.length < 1024 ∧ (dieAt s d).heldEvents.isEmpty then enterEvent d e s
  else onDie d (fun x => { x with heldEvents := x.heldEvents ++ [e] }) s

/-- The record of a template with its kind and status (R82, R430, R437, R454). -/
def eventOf (tmpl : Nat) (kind info : Nat) : BitVec 128 :=
  BitVec.ofNat 128 (tmpl - bitsN tmpl 31 27 * 2 ^ 27 - bitsN tmpl 63 32 * 2 ^ 32 + kind * 2 ^ 27 + info % 2 ^ 32 * 2 ^ 32)

/-- Is a job done and waiting to enter its record? -/
def heldJob (x : Die) : Option Job := x.jobs.find? fun j => j.event.isSome

/-- A job's place in the engine freed. -/
def dropJob (d slot : Nat) (s : State) : State := onDie d (fun x => { x with jobs := x.jobs.filter fun j => j.slot != slot }) s

/-- R82. A slot freeing in a full event queue lets a held completion enter its record. -/
def execEventQueueSlotFreed (die : BitVec 3) (s : State) : Out :=
  let d := die.toNat
  let x := dieAt s d
  if 1024 ≤ x.events.length then .refused .notDue
  else match x.heldEvents with
    | e :: rest => .next (enterEvent d e (onDie d (fun x => { x with heldEvents := rest }) s))
    | [] => match heldJob x with
      | some j => match j.event with
        | some e => .next (dropJob d j.slot (enterEvent d e s))
        | none => .refused .notDue
      | none => .refused .notDue

def slotDue (s : State) (d : Nat) : Bool :=
  let x := dieAt s d
  decide (x.events.length < 1024) && (!x.heldEvents.isEmpty || (heldJob x).isSome)

/-! The decompression engine (R434 to R437). -/

/-- An address translated for a job's card, a first-touch page mapped from its region's pool (R307, R435). -/
def jobTr (d : Nat) (c : Card) (va : Dword) (write : Bool) (s : State) : Except TrFault Nat × State :=
  match engineTr s (enginePort d) c.ctx va write with
  | .ok pa => (.ok pa, s)
  | .error f =>
    let t : Team := { ctx := c.ctx, region := c.region }
    match walk s.mem (ctxRoot s c.ctx) (vaLow va) with
    | .invalid _ _ true =>
      let low (n : Nat) : FaultRec := unitRecord d .poollow c.ctx c.region va n false
      if f.reason ≠ .notmapped then (.error f, s)
      else match touchMap t va low s with
        | (true, s) => (engineTr s (enginePort d) c.ctx va write, s)
        | (false, s) =>
          let pool := effPool s c.ctx c.region
          (.error (if pool = 0 then f else { reason := .poolempty, info := if (poolOf s c.ctx pool).isNone then 1 else 0 }), s)
    | _ => (.error f, s)

/-- Bytes of one page read for a job, with what the read meets (R58 to R60, R435). -/
def jobRead (d : Nat) (c : Card) (va : Dword) (n : Nat) (s : State) : Except TrFault (List Byte) × State :=
  match jobTr d c va false s with
  | (.error f, s) => (.error f, s)
  | (.ok pa, s) =>
    if let some l := lostLink s (enginePort d) pa n then (.error { reason := .linkdown, info := l }, s)
    else if rangeErr s.mem pa n ≠ 0 then (.error { reason := .ecc, info := rangeErr s.mem pa n }, readVia (enginePort d) 3 pa n s)
    else if poisoned s.mem pa n then (.error { reason := .poison }, readVia (enginePort d) 3 pa n s)
    else (.ok (bytesAt s.mem pa n), readVia (enginePort d) 3 pa n s)

/-- Bytes of one page written for a job. -/
def jobWrite (d : Nat) (c : Card) (va : Dword) (bs : List Byte) (s : State) : Except TrFault Nat × State :=
  match jobTr d c va true s with
  | (.error f, s) => (.error f, s)
  | (.ok pa, s) =>
    if let some l := lostLink s (enginePort d) pa bs.length then (.error { reason := .linkdown, info := l }, s)
    else (.ok pa, writeVia (enginePort d) 3 pa bs s)

/-- The fault of an access that goes by pages, and the address at fault. -/
def TrFault.at_ (f : TrFault) (va : Dword) : Dword := match f.pa with
  | some pa => BitVec.ofNat 64 pa
  | none => va

/-- The bytes of a job record, or why they cannot be read (R435). -/
def jobRecord (d : Nat) (c : Card) (s : State) : Except TrFault (List Byte) × State :=
  (partsOf c.param 64).foldl (fun a p => match a with
    | (.error f, s) => (.error f, s)
    | (.ok bs, s) => match jobRead d c (BitVec.ofNat 64 p.1) p.2 s with
      | (.ok b, s) => (.ok (bs ++ b), s)
      | (.error f, s) => (.error f, s)) (.ok [], s)

/-- A job under way: the state, the source and output positions, and how it ended. -/
structure LzRun where
  s    : State
  i    : Nat := 0
  o    : Nat := 0
  /-- The output bytes written, by physical address: what each held before. -/
  wrote : AMap Byte := []
  /-- STATUS, once the job has ended; an access fault and its address. -/
  stop : Option (Nat × Option (TrFault × Dword)) := none

/-- A job's record fields (R435). -/
structure LzJob where
  d    : Nat
  c    : Card
  src  : Dword
  n    : Nat
  cap  : Nat
  dst  : Dword

def LzRun.fail (st : Nat) (r : LzRun) : LzRun := { r with stop := some (st, none) }
def LzRun.fault (e : TrFault) (va : Dword) (r : LzRun) : LzRun := { r with stop := some (4, some (e, va)) }

/-- A source byte. Where the output overlaps it and is already written, it is read before or after that write: free
(R436). -/
def lzIn (j : LzJob) (i : Nat) (r : LzRun) : Byte × LzRun :=
  let va := j.src + BitVec.ofNat 64 i
  match jobRead j.d j.c va 1 r.s with
  | (.error e, s) => (0, { r with s := s }.fault e va)
  | (.ok bs, s) =>
    let b := Maps.leNat bs
    let a := match jobTr j.d j.c va false s with
      | (.ok pa, _) => Maps.find r.wrote pa
      | (.error _, _) => none
    match a with
    | none => (BitVec.ofNat 8 b, { r with s := s })
    | some a => let (n, s) := draw s; (if n % 2 = 0 then a else BitVec.ofNat 8 b, { r with s := s })

/-- An output byte. -/
def lzOut (j : LzJob) (b : Byte) (r : LzRun) : LzRun :=
  let va := j.dst + BitVec.ofNat 64 r.o
  match jobTr j.d j.c va true r.s with
  | (.error e, s) => { r with s := s }.fault e va
  | (.ok _, s) =>
    let m := s.mem
    match jobWrite j.d j.c va [b] s with
    | (.error e, s) => { r with s := s }.fault e va
    | (.ok pa, s) => { r with
        s := s, o := r.o + 1, wrote := if (Maps.find r.wrote pa).isSome then r.wrote else Maps.set r.wrote pa (byteAt m pa) }

/-- The extension of a length (R436): at most `n` bytes. -/
def lzLen (j : LzJob) : Nat → Nat → LzRun → Nat × LzRun
  | 0, len, r => (len, r)
  | n + 1, len, r =>
    if r.stop.isSome then (len, r)
    else if j.n ≤ r.i then (len, r.fail 3)
    else
      let (b, r) := lzIn j r.i r
      let r := { r with i := r.i + 1 }
      if b = 255 then lzLen j n (len + 255) r else (len + b.toNat, r)

/-- `n` literals. -/
def lzLits (j : LzJob) : Nat → LzRun → LzRun
  | 0, r => r
  | n + 1, r =>
    if r.stop.isSome then r
    else
      let (b, r) := lzIn j r.i r
      if r.stop.isSome then r else lzLits j n (lzOut j b { r with i := r.i + 1 })

/-- `n` bytes of a match, byte by byte. -/
def lzMatch (j : LzJob) (off : Nat) : Nat → LzRun → LzRun
  | 0, r => r
  | n + 1, r =>
    if r.stop.isSome then r
    else
      let va := j.dst + BitVec.ofNat 64 (r.o - off)
      match jobTr j.d j.c va true r.s with
      | (.error e, s) => { r with s := s }.fault e va
      | (.ok pa, s) => lzMatch j off n (lzOut j (byteAt s.mem pa) { r with s := s })

/-- The rest of a sequence after its literals: offset and match (R436). -/
def lzTail (j : LzJob) (tok : Nat) (r : LzRun) : LzRun :=
  if r.stop.isSome then r
  else if r.i = j.n then r.fail 0
  else if j.n < r.i + 2 then r.fail 3
  else
    let (b0, r) := lzIn j r.i r
    let (b1, r) := lzIn j (r.i + 1) r
    if r.stop.isSome then r
    else
      let off := b0.toNat + 256 * b1.toNat
      let r := { r with i := r.i + 2 }
      if off = 0 ∨ r.o < off then r.fail 1
      else
        let (len, r) := if tok % 16 = 15 then lzLen j (j.n + 1) 19 r else (tok % 16 + 4, r)
        if r.stop.isSome then r
        else if j.cap < r.o + len then r.fail 2
        else lzMatch j off len r

/-- One sequence (R436). -/
def lzSeq (j : LzJob) (r : LzRun) : LzRun :=
  if j.n ≤ r.i then r.fail 3
  else
    let (tok, r) := lzIn j r.i r
    let r := { r with i := r.i + 1 }
    if r.stop.isSome then r
    else
      let (lit, r) := if tok.toNat / 16 = 15 then lzLen j (j.n + 1) 15 r else (tok.toNat / 16, r)
      if r.stop.isSome then r
      else if j.n < r.i + lit then r.fail 3
      else if j.cap < r.o + lit then r.fail 2
      else lzTail j tok.toNat (lzLits j lit r)

/-- The loop of R436; every sequence takes a byte. -/
def lzGo (j : LzJob) : Nat → LzRun → LzRun
  | 0, r => r
  | n + 1, r => if r.stop.isSome then r else lzGo j n (lzSeq j r)

/-- OUTLEN and STATUS written into the job record (R435): what fails of it, and at which address. -/
def writeJob (d : Nat) (c : Card) (outlen status : Nat) (s : State) : Option (TrFault × Dword) × State :=
  let (f, _, s) := (partsOf (c.param + 24) 5).foldl (fun (a : Option (TrFault × Dword) × List Byte × State) p =>
    let va : Dword := BitVec.ofNat 64 p.1
    match a.1, jobWrite d c va (a.2.1.take p.2) a.2.2 with
    | some _, _ => a
    | none, (.error e, s) => (some (e, va), a.2.1, s)
    | none, (.ok _, s) => (none, a.2.1.drop p.2, s)) (none, Maps.natLe (outlen + status * 2 ^ 32) 5, s)
  (f, s)

/-- The record of a job's access fault (R298, R435). -/
def jobFault (d : Nat) (c : Card) (e : TrFault) (va : Dword) (s : State) : State :=
  record d (unitRecord d e.reason c.ctx c.region (e.at_ va) e.info false) s

/-- The end of a job (R437): outputs, OUTLEN and STATUS; the event record, which a full queue holds; the card's
retirement comes when the record has been taken (R478). -/
def endJob (d slot : Nat) (c : Card) (s : State) : State :=
  match jobRecord d c s with
  | (.error e, s) => retireJob d (some (slot, c.posted)) (dropJob d slot (record d (unitRecord d .structfault c.ctx c.region c.param (4 * 256 + e.reason.code) false) s))
  | (.ok rec_, s) =>
    let bad := !allZero rec_ 29 3 || !allZero rec_ 48 16 || bitsN (recField rec_ 32 16) 21 16 != 0
    let j : LzJob := {
      d := d, c := c, src := BitVec.ofNat 64 (recField rec_ 0 8), n := recField rec_ 8 4, cap := recField rec_ 12 4
      dst := BitVec.ofNat 64 (recField rec_ 16 8) }
    let r := if bad then LzRun.fail 3 { s := s } else lzGo j (j.n + 1) { s := s }
    let st := (r.stop.getD (3, none)).1
    let s := match r.stop with
      | some (_, some (e, va)) => jobFault d c e va r.s
      | _ => r.s
    let (f, s) := writeJob d c r.o st s
    let (st, s) := match f with
      | some (e, va) => (4, jobFault d c e va s)
      | none => (st, s)
    let e : Event := { bits := eventOf (recField rec_ 32 16) 3 (st + r.o % 2 ^ 24 * 2 ^ 8), ctx := c.ctx, region := c.region, job := some (slot, c.posted) }
    if (dieAt s d).events.length < 1024 then dropJob d slot (enterEvent d e s)
    else onDie d (fun x => { x with jobs := x.jobs.map fun k => if k.slot = slot then { k with event := some e } else k }) s

/-- R437. A finished decompression job writes its output and enters its event record, with which its card retires. -/
def execDecompressionJobEnd (die : BitVec 3) (slot : BitVec 12) (s : State) : Out :=
  let d := die.toNat
  if !inputHeld s (enginePort d) ∧ ((dieAt s d).jobs.any fun j => j.slot == slot.toNat && j.event.isNone) = true then
    match Maps.find (dieAt s d).cards slot.toNat with
    | some c => .next (endJob d slot.toNat c s)
    | none => .refused .notDue
  else .refused .notDue

/-- The jobs of a die that may end. -/
def jobsDue (s : State) (d : Nat) : List Nat := if inputHeld s (enginePort d) then [] else ((dieAt s d).jobs.filter fun j => j.event.isNone).map (·.slot)

end Sys2Proof.Machine
end

