-- ==== Sys2Proof/Machine/Tiered.lean ====
section
/-! DEFINITION. Tiered loads and samples, residency changes and queries, and the flue records they produce (R257 to R270,
R417 to R420). -/

namespace Sys2Proof.Machine

/-! Descriptors (R257 to R260). -/

/-- What a tiered instruction's lane runs into: the address kept, and the failure. -/
abbrev TierFault := Dword × Target

/-- A tiered resource descriptor (R257), with the shape of its pages (R259). -/
structure Trd where
  va     : Dword
  lvltab : Dword
  resmap : Dword
  rid    : Nat
  ring   : Nat
  firn   : Nat
  tfmt   : Nat
  esz    : Nat
  kind   : Nat
  pw     : Nat
  ph     : Nat
deriving DecidableEq, Repr

/-- An entry of the level table (R258). -/
structure Level where
  base   : Dword
  gw     : Nat
  gh     : Nat
  mapoff : Nat
  shx    : Nat
  shy    : Nat
deriving DecidableEq, Repr

def badTrd (t : Dword) : TierFault := (t, .inlane .badtrd 0)

/-- A read of a structure of a tiered resource through the group's translation, which must end in package-local memory
(R262): its physical address and value. -/
def tierRead (s : State) (g : Group) (trd va : Dword) (n : Nat) (acc : Acc) : Except TierFault (Nat × Nat) :=
  match resolve s (curTeam s) (!g.sup) va n acc with
  | .phys pa _ =>
    if !isHbm pa then .error (badTrd trd)
    else if poisoned s.mem pa n then .error (va, .inlane .poison 0)
    else if rangeErr s.mem pa n ≠ 0 then .error (va, .inlane .ecc (rangeErr s.mem pa n))
    else .ok (pa, natAt s.mem pa n)
  | .scratch _ => .error (badTrd trd)
  | .remote _ _ => .error (badTrd trd)
  | .nophys pa => if isHbm pa then .error (va, .nophys pa) else .error (badTrd trd)
  | tg => .error (va, tg)

/-- The width and height of a page in elements (R259). -/
def pageShape (kind esz : Nat) : Nat × Nat :=
  if kind = 1 then ([(256, 256), (256, 128), (128, 128), (128, 64), (64, 64)][esz]?).getD (1, 1) else (2 ^ (16 - esz), 1)

/-- The descriptor that a window names, with the checks of R260. -/
def readTrd (s : State) (g : Group) (n : Nat) : Except TierFault Trd :=
  let w := g.window n
  let va := w.base
  if !w.bound then .error (0, .inlane .nowin n)
  else if w.tag = 0xFE ∨ va.toNat % 64 ≠ 0 then .error (badTrd va)
  else match tierRead s g va va 64 .load with
    | .error e => .error e
    | .ok (_, v) =>
      let esz := bitsN v 26 24
      let kind := bitsN v 23 22
      let sh := pageShape kind esz
      if bitsN v 383 64 ≠ 0 ∨ bitsN v 21 0 ≠ 0 ∨ 4 < esz ∨ kind = 3 ∨ bitsN v 511 448 % 16 ≠ 0 ∨ bitsN v 447 384 % 4 ≠ 0 then
        .error (badTrd va)
      else .ok { va := va, lvltab := BitVec.ofNat 64 (bitsN v 511 448), resmap := BitVec.ofNat 64 (bitsN v 447 384)
                 rid := bitsN v 63 44, ring := bitsN v 43 36, firn := bitsN v 35 32, tfmt := bitsN v 31 27
                 esz := esz, kind := kind, pw := sh.1, ph := sh.2 }

/-- An entry of the level table, with the checks of R260. -/
def readLevel (s : State) (g : Group) (t : Trd) (k : Nat) : Except TierFault Level :=
  match tierRead s g t.va (t.lvltab + BitVec.ofNat 64 (16 * k)) 16 .load with
  | .error e => .error e
  | .ok (_, v) =>
    let shx := if k = 0 then 0 else bitsN v 1 0
    let shy := if k = 0 then 0 else bitsN v 3 2
    if bitsN v 7 4 ≠ 0 ∨ bitsN v 63 48 = 0 ∨ bitsN v 47 32 = 0 ∨ shx = 3 ∨ shy = 3 ∨ (bitsN v 47 32 ≠ 1 ∧ t.kind ≠ 1) then
      .error (badTrd t.va)
    else .ok { base := BitVec.ofNat 64 (bitsN v 127 64), gw := bitsN v 63 48, gh := bitsN v 47 32, mapoff := bitsN v 31 8
               shx := shx, shy := shy }

/-- Levels `k` to `k + n - 1`. -/
def readLevels (s : State) (g : Group) (t : Trd) (k : Nat) : Nat → Except TierFault (List Level)
  | 0 => .ok []
  | n + 1 => match readLevel s g t k, readLevels s g t (k + 1) n with
    | .error e, _ => .error e
    | .ok _, .error e => .error e
    | .ok l, .ok ls => .ok (l :: ls)

/-- Does an element lie in a level's grid (R260)? -/
def inGrid (t : Trd) (l : Level) (p : Nat × Nat) : Bool := p.1 < l.gw * t.pw && p.2 < l.gh * t.ph

/-- The page of an element, and its address (R259). -/
def pageOf (t : Trd) (p : Nat × Nat) : Nat × Nat := (p.1 / t.pw, p.2 / t.ph)
def elemVa (t : Trd) (l : Level) (p : Nat × Nat) : Dword :=
  l.base + BitVec.ofNat 64 (65536 * (p.2 / t.ph * l.gw + p.1 / t.pw) + 2 ^ t.esz * (p.2 % t.ph * t.pw + p.1 % t.pw))

/-- An element mapped to each following level by that level's shifts (R259). -/
def chainOf (p : Nat × Nat) : List Level → List (Nat × Nat)
  | [] => []
  | l :: ls => let q := (p.1 / 2 ^ l.shx, p.2 / 2 ^ l.shy); q :: chainOf q ls

/-! The residency map (R261, R262). -/

/-- The index of a page's bit, and the address of its word. -/
def bitIndex (l : Level) (pg : Nat × Nat) : Nat := l.mapoff + pg.2 * l.gw + pg.1
def wordVa (t : Trd) (b : Nat) : Dword := t.resmap + BitVec.ofNat 64 (4 * (b / 32))

/-- A page's residency bit as the core's tiered loads see it, and the word (its number and value) it lies in. A word that the
core's residency cache holds is read there or, where the cache has dropped it, from memory: which is free (log entry 11). A bit that has
been cleared at the word's home reads as clear (R235): only a bit set there since may still read as clear (R262). -/
def residency (s : State) (g : Group) (t : Trd) (l : Level) (pg : Nat × Nat) : Except TierFault (Bool × Nat × Word) :=
  let b := bitIndex l pg
  match tierRead s g t.va (wordVa t b) 4 .load with
  | .error e => .error e
  | .ok (pa, v) =>
    let w := match Maps.find (coreAt s (curTeam s).core).resCache (pa / 4) with
      | some c => if Config.freeNat (2 ^ 64 + s.clock * 2 ^ 48 + pa / 4) % 2 = 0 then c &&& BitVec.ofNat 32 v else BitVec.ofNat 32 v
      | none => BitVec.ofNat 32 v
    .ok (w.getLsbD (b % 32), pa / 4, w)

/-- The residency of an element's chain from its own level on. -/
def chainRes (s : State) (g : Group) (t : Trd) : List Level → List (Nat × Nat) → Except TierFault (List (Bool × Nat × Word))
  | l :: ls, p :: ps => match residency s g t l (pageOf t p), chainRes s g t ls ps with
    | .error e, _ => .error e
    | .ok _, .error e => .error e
    | .ok r, .ok rs => .ok (r :: rs)
  | _, _ => .ok []

/-- Is a resident page followed by an absent one below FIRN (R264)? `res` runs from the wanted level to FIRN. -/
def nestBroken (res : List Bool) : Bool :=
  let inner := res.dropLast
  (List.range inner.length).any fun j => (inner[j]?).getD false && (inner.drop (j + 1)).any (!·)

/-- The first position that holds, if any. -/
def firstTrue (bs : List Bool) : Nat := (bs.findIdx? id).getD 0

/-- The status register (R264). -/
def tierStatus (w got : Nat) (nest : Bool) (firn : Nat) : Word :=
  BitVec.ofNat 32 (min (got - w) 3 + (if nest then 4 else 0) + (if got = firn then 8 else 0) + got * 16)

/-- What one lane of a tiered load or sample is to do. -/
structure TierLane where
  lane  : Nat
  /-- Texel or data accesses, in order. -/
  data  : List LaneAt
  stat  : Word
  words : List (Nat × Word)
  /-- Flue records: wanted level, level returned, nest violation, page. -/
  flues : List (Nat × Nat × Bool × Nat × Nat)
  fx    : Nat × Nat := (0, 0)
  fx1   : Nat × Nat := (0, 0)
  fl    : Nat := 0
deriving DecidableEq, Repr

/-- The first level, from `k`, at which a position lies outside its grid. -/
def firstOut (t : Trd) : Nat → List (Level × List (Nat × Nat)) → Option Nat
  | _, [] => none
  | k, (l, ps) :: rest => if ps.all (inGrid t l) then firstOut t (k + 1) rest else some k

/-- A lane of `ldt` (R264, R417). -/
def ldtLane (s : State) (g : Group) (n : Nat) (lane z : Nat) (x y w : Word) : Except TierFault (Trd × TierLane) :=
  match readTrd s g n with
  | .error e => .error e
  | .ok t =>
    let wv := min w.toNat t.firn
    match readLevels s g t wv (t.firn + 1 - wv) with
    | .error e => .error e
    | .ok ls =>
      let p0 := (x.toNat, y.toNat)
      let ps := p0 :: chainOf p0 ls.tail
      match firstOut t wv (ls.zip (ps.map fun p => [p])) with
      | some k => .error (t.va, .inlane .trdbound k)
      | none =>
        match chainRes s g t ls ps with
        | .error e => .error e
        | .ok rs =>
          let res := rs.map (·.1)
          let at_ (k : Nat) : Dword := match ls[k - wv]?, ps[k - wv]? with
            | some l, some p => elemVa t l p
            | _, _ => 0
          if res.getLast? ≠ some true then .error (at_ wv, .inlane .floor t.rid)
          else
            let nest := nestBroken res
            let got := if nest then t.firn else wv + firstTrue res
            let absent := res.head? ≠ some true
            let pg := pageOf t p0
            .ok (t, { lane := lane, data := [addressAt s g lane (at_ got) z .load], stat := tierStatus wv got nest t.firn
                      words := rs.map (·.2), flues := if nest || absent then [(wv, got, nest, pg.1, pg.2)] else [] })

/-! Samples (R418, R419). -/

/-- The bytes of a texel format; none where it is reserved (R418). -/
def texelBytes (f : Nat) : Option Nat := [4, 8, 16, 4, 4, 1, 2, 4][f]?

def unorm (n m : Nat) : Nat := Num.packRne Num.f32 (Num.div (.fin false n 0) (.fin false m 0))
def widenF32 (b : Nat) : Nat := Num.packRne Num.f32 (Num.decode Num.f32 b)
def widenF16 (b : Nat) : Nat := Num.packRne Num.f32 (Num.decode Num.f16 b)

/-- The four FP32 components of a texel (R418): a missing G or B reads 0, a missing A reads 1. -/
def texel (f v : Nat) : List Nat :=
  let cs := match f with
    | 0 => (List.range 4).map fun i => unorm (v / 2 ^ (8 * i) % 256) 255
    | 1 => (List.range 4).map fun i => widenF16 (v / 2 ^ (16 * i) % 2 ^ 16)
    | 2 => (List.range 4).map fun i => widenF32 (v / 2 ^ (32 * i) % 2 ^ 32)
    | 3 => [widenF32 (v % 2 ^ 32)]
    | 4 => (List.range 2).map fun i => widenF16 (v / 2 ^ (16 * i) % 2 ^ 16)
    | 5 => [unorm (v % 256) 255]
    | 6 => [widenF16 (v % 2 ^ 16)]
    | _ => ((List.range 3).map fun i => unorm (v / 2 ^ (10 * i) % 1024) 1023) ++ [unorm (v / 2 ^ 30 % 4) 3]
  cs ++ [0, 0, 0, 0x3F800000].drop cs.length

/-- a + f × (b − a), each operation rounded (R419). -/
def lerp (a b f : Nat) : Nat :=
  let op (h : Num.FV → Num.FV → Num.FV) (x y : Nat) : Nat := (Num.bin Num.f32 .rne false h x y).1
  op (Num.add .rne) a (op Num.mul f (op (fun x y => Num.add .rne x (Num.neg y)) b a))

/-- A weight of n / 256 as FP32. -/
def weight (n : Nat) : Nat := Num.packRne Num.f32 (.fin false n (-8))

/-- The components of a finished sample (R419). -/
def Sample.result (p : Sample) : List Word :=
  let tx (i : Nat) : List Nat := texel p.tfmt (Maps.get 0 p.texels i)
  let lerps (a b : List Nat) (n : Nat) : List Nat := (a.zip b).map fun e => lerp e.1 e.2 (weight n)
  let bil (o : Nat) (f : Nat × Nat) : List Nat := lerps (lerps (tx o) (tx (o + 1)) f.1) (lerps (tx (o + 2)) (tx (o + 3)) f.1) f.2
  let r := if p.need = 1 then tx 0 else if p.need = 4 then bil 0 p.fx else lerps (bil 0 p.fx) (bil 4 p.fx1) p.fl
  if p.failed then [0, 0, 0, 0] else r.map (BitVec.ofNat 32)

/-- A coordinate as a number over 2^k: NaN reads 0, ±∞ reads ±2^30 (R419). -/
def coordOf (b : Nat) : Int × Nat :=
  match Num.decode Num.f32 b with
  | .nan => (0, 0)
  | .inf neg => (if neg then -(2 ^ 30) else 2 ^ 30, 0)
  | .fin neg m e =>
    let sg : Int := if neg then -1 else 1
    if 0 ≤ e then (sg * (m * 2 ^ e.toNat : Nat), 0) else (sg * m, (-e).toNat)

/-- λ: its floor, and its fraction in 256ths rounded to nearest even (R419). -/
def lambdaOf (b : Nat) : Nat × Nat :=
  match Num.decode Num.f32 b with
  | .nan => (0, 0)
  | .inf neg => (if neg then 0 else 2 ^ 30, 0)
  | .fin neg m e =>
    if neg then (0, 0)
    else
      let fl := if 0 ≤ e then m * 2 ^ e.toNat else m / 2 ^ (-e).toNat
      let frac : Nat := if 0 ≤ e then 0 else m % 2 ^ (-e).toNat
      (fl, Num.integral .rne false (frac * 256) e)

/-- An index under an address mode (R419). -/
def wrapIndex (i : Int) (e : Nat) (mode : Nat) : Nat :=
  match mode with
  | 0 => min i.toNat (e - 1)
  | 1 => (i % (e : Int)).toNat
  | _ => let t := (i % (2 * e : Int)).toNat; if t < e then t else 2 * e - 1 - t

/-- Along one axis at scale 2^σ: the indices of a filter (one or two) and the weight in 256ths (R419). -/
def axisTaps (c : Int × Nat) (sigma e mode : Nat) (point : Bool) : List Nat × Nat :=
  let den : Nat := 2 ^ (c.2 + sigma)
  if point then ([wrapIndex (c.1 / (den : Int)) e mode], 0)
  else
    let num : Int := 2 * c.1 - den
    let i0 : Int := num / (2 * den : Int)
    let r : Nat := (num - i0 * (2 * den : Int)).toNat
    ([wrapIndex i0 e mode, wrapIndex (i0 + 1) e mode], Num.integral .rne false (256 * r) (-(c.2 + sigma + 1 : Nat)))

/-- The sums of shifts and the extents of levels 0 to k, from level 0's grid (R419). -/
def sigmas (ls : List Level) (k : Nat) : Nat × Nat :=
  ((ls.take (k + 1)).foldl (fun a l => a + l.shx) 0, (ls.take (k + 1)).foldl (fun a l => a + l.shy) 0)

/-- The texels of the footprint at level k, row by row, with the weights (R419). -/
def footprint (t : Trd) (ls : List Level) (u v : Int × Nat) (xm ym : Nat) (point : Bool) (k : Nat) : List (Nat × Nat) × (Nat × Nat) :=
  let (sx, sy) := sigmas ls k
  let l0 := (ls.head?).getD { base := 0, gw := 1, gh := 1, mapoff := 0, shx := 0, shy := 0 }
  let ex := (l0.gw * t.pw + 2 ^ sx - 1) / 2 ^ sx
  let ey := (l0.gh * t.ph + 2 ^ sy - 1) / 2 ^ sy
  let (xs, fx) := axisTaps u sx ex xm point
  let (ys, fy) := axisTaps v sy ey ym point
  (ys.flatMap (fun y => xs.map fun x => (x, y)), (fx, fy))

/-- A list of results, or the first failure. -/
def collectOk {α ε : Type} : List (Except ε α) → Except ε (List α)
  | [] => .ok []
  | .error e :: _ => .error e
  | .ok a :: rest => match collectOk rest with
    | .error e => .error e
    | .ok as => .ok (a :: as)

/-- A texel of a footprint with the chain of its page: position in the list of levels, element, and the residency of its page and of every
coarser one. -/
structure Root where
  at_ : Nat
  p   : Nat × Nat
  res : List (Bool × Nat × Word)
deriving DecidableEq, Repr

/-- The first level at which the elements of some chains lie outside their grid; `w`: the number of the first level. -/
def chainsOut (t : Trd) (ls : List Level) (w : Nat) (rs : List (Nat × (Nat × Nat))) : Option Nat :=
  let at_ (i : Nat) : List (Nat × Nat) := rs.filterMap fun r => if r.1 ≤ i then (r.2 :: chainOf r.2 (ls.drop (r.1 + 1)))[i - r.1]? else none
  firstOut t w (ls.zip ((List.range ls.length).map at_))

/-- A footprint read: its texels with their chains, or the failure of a check or a read (R260, R265). A chain that is clear at FIRN is a
FLOOR at the address `va`. -/
def readRoots (s : State) (g : Group) (t : Trd) (ls : List Level) (w : Nat) (va : Dword) (rs : List (Nat × (Nat × Nat))) : Except TierFault (List Root) :=
  match chainsOut t ls w rs with
  | some k => .error (t.va, .inlane .trdbound k)
  | none =>
    match collectOk (rs.map fun r => chainRes s g t (ls.drop r.1) (r.2 :: chainOf r.2 (ls.drop (r.1 + 1)))) with
    | .error e => .error e
    | .ok res =>
      if res.any fun c => (c.getLast?).map (·.1) != some true then .error (va, .inlane .floor t.rid)
      else .ok ((rs.zip res).map fun e => { at_ := e.1.1, p := e.1.2, res := e.2 })

/-- The level, by its position, at which a sample is taken, whether a nest violation sends it to FIRN, and the texels read, of the first
footprint and of all tried (R265). `foot`: a level's texels; `tri`: the level after is wanted too. -/
def trySample (s : State) (g : Group) (t : Trd) (ls : List Level) (w : Nat) (va : Dword) (tri : Bool) (foot : Nat → List (Nat × Nat)) :
    Nat → Nat → Except TierFault (Nat × Bool × List Root × List Root)
  | 0, i => .ok (i, false, [], [])
  | n + 1, i =>
    let last := ls.length - 1
    let roots := (foot i).map (fun p => (i, p)) ++ (if tri && decide (i < last) then (foot (i + 1)).map fun p => (i + 1, p) else [])
    match readRoots s g t ls w va roots with
    | .error e => .error e
    | .ok rs =>
      if rs.any fun r => nestBroken (r.res.map (·.1)) then
        match readRoots s g t ls w va ((foot last).map fun p => (last, p)) with
        | .error e => .error e
        | .ok more => .ok (last, true, rs, rs ++ more)
      else if rs.all (fun r => (r.res.head?).map (·.1) == some true) || i == last then .ok (i, false, rs, rs)
      else match trySample s g t ls w va tri foot n (i + 1) with
        | .error e => .error e
        | .ok (j, nest, _, all) => .ok (j, nest, rs, rs ++ all)

/-- A lane of `smp` (R265, R418, R419). `filter`: 0 point, 1 bilinear, 2 trilinear. -/
def smpLane (s : State) (g : Group) (n : Nat) (lane filter xm ym : Nat) (ub vb lb : Word) : Except TierFault (Trd × TierLane) :=
  match readTrd s g n with
  | .error e => .error e
  | .ok t =>
    if t.kind ≠ 1 ∨ texelBytes t.tfmt ≠ some (2 ^ t.esz) then .error (badTrd t.va)
    else match readLevels s g t 0 (t.firn + 1) with
    | .error e => .error e
    | .ok ls =>
      let (lf, fl) := lambdaOf lb.toNat
      let wv := min lf t.firn
      let tri := filter == 2 && decide (lf < t.firn)
      let low := ls.drop wv
      let last := low.length - 1
      let print (i : Nat) : List (Nat × Nat) × (Nat × Nat) :=
        footprint t ls (coordOf ub.toNat) (coordOf vb.toNat) xm ym (filter == 0) (wv + i)
      let texVa (i : Nat) : List Dword := match low[i]? with
        | some l => (print i).1.map (elemVa t l)
        | none => []
      match trySample s g t low wv (((texVa 0).head?).getD 0) tri (fun i => (print i).1) low.length 0 with
      | .error e => .error e
      | .ok (gi, nest, first, all) =>
        let two := tri && gi < last
        let flued := first.filter fun r => (r.res.head?).map (·.1) != some true || nestBroken (r.res.map (·.1))
        let pages := (flued.map fun r => let pg := pageOf t r.p; (wv + r.at_, pg.1, pg.2)).eraseDups
        .ok (t, { lane := lane, data := (texVa gi ++ (if two then texVa (gi + 1) else [])).map fun va => addressAt s g lane va (2 ^ t.esz) .load
                  stat := tierStatus wv (wv + gi) nest t.firn
                  words := (all.flatMap (·.res)).map (·.2)
                  flues := pages.map fun p => (p.1, wv + gi, nest, p.2.1, p.2.2)
                  fx := (print gi).2, fx1 := (print (gi + 1)).2, fl := fl })

/-! Flue records (R266, R267, R269). -/

/-- A ring's entry of the ring table (R268). -/
def ringEntry (s : State) (n : Nat) : Nat := (Maps.get 0 s.io.frtab n).toNat

/-- Can a record of a context reach a ring's header (R269)? -/
def ringUsable (s : State) (n ctx : Nat) : Bool :=
  let e := ringEntry s n
  let base := bitsN e 45 12 * 2 ^ 12
  bitN e 64 && bitsN e 127 116 == ctx && (domainOf s.mem base).isSome &&
    (domainOf s.mem (base + 63 + 32 * 2 ^ (bitsN e 115 112 + 6))).isSome

/-- A flue record dropped (R269): counted in its ring, or in the die's snapshot counter. -/
def dropFlue (die n ctx : Nat) (s : State) : State :=
  if ringUsable s n ctx then
    let base := bitsN (ringEntry s n) 45 12 * 2 ^ 12
    onMem (fun m => putNat (putNat m (base + 8) 4 (min 0xFFFFFFFF (natAt m (base + 8) 4 + 1))) (base + 12) 4
      (Nat.lor (natAt m (base + 12) 4) 1)) s
  else onDie die (fun d => { d with flueLost := d.flueLost + 1 }) s

/-- A flue record of the issuing group: suppressed by the core's filter, else numbered and queued (R266, R267). -/
def flue (t : Trd) (f : Nat × Nat × Bool × Nat × Nat) (s : State) : State :=
  let (wanted, got, nest, px, py) := f
  let tm := curTeam s
  let c := coreAt s tm.core
  let die := dieOfCore tm.core
  let key : FlueKey := { ring := t.ring, rid := t.rid, lvl := wanted, px := px, py := py }
  if c.flueKeys.contains key then s
  else
    let s := onCore tm.core (fun c => { c with flueKeys := ((c.flueKeys ++ [key]).reverse.take 64).reverse }) s
    let seq := (dieAt s die).flueSeq
    let s := onDie die (fun d => { d with flueSeq := d.flueSeq + 1 }) s
    if 64 ≤ (dieAt s die).flues.length then dropFlue die t.ring tm.ctx s
    else onDie die (fun d => { d with flues := d.flues ++ [{
      ring := t.ring, rid := t.rid, wanted := wanted, got := got, nest := nest, px := px, py := py, region := tm.region
      core := tm.core, ctx := tm.ctx, seq := seq.toNat }] }) s

/-! The words. -/

/-- A tiered word: its lanes judged, then the acquire of its residency reads (R235), its data, statuses and flue
records. -/
def tierWord (base : WordOut) (z : Nat) (statReg : Nat) (lane : Nat → Except TierFault (Trd × TierLane))
    (run : Trd → TierLane → State → State) (g : Group) (_ : State) : WordOut :=
  let rs := (lanesOf g.active).map fun l => (l, lane l)
  let ok := rs.filterMap fun r => match r.2 with
    | .ok x => some x
    | .error _ => none
  let early : List LaneAt := rs.filterMap fun r => match r.2 with
    | .error (va, tg) => some { lane := r.1, va := va, tg := tg }
    | .ok _ => none
  let isFloor (a : LaneAt) : Bool := match a.tg with
    | .inlane .floor _ => true
    | _ => false
  let floors : List Raise := (early.filter isFloor).map fun a =>
    { cause := .floor, mask := laneMask a.lane, reason := .floor, addr := a.va, info := match a.tg with
        | .inlane _ i => BitVec.ofNat 32 i
        | _ => 0 }
  let others := early.filter fun a => !isFloor a
  let w := { base with raises := base.raises ++ floors, addrs := (early.filter isFloor).map fun a => (a.lane, a.va) }
  let w := accessWord w g 1 .load others id
  accessWord w g z .load (ok.flatMap fun e => e.2.data) fun s =>
    if ok.isEmpty then s
    else
      let core := (curTeam s).core
      let s := dropL1 core s
      ok.foldl (fun s e =>
        let s := onCore core (fun c => { c with resCache := e.2.words.foldl (fun m w => Maps.set m w.1 w.2) c.resCache }) s
        let s := onCur (fun live => live.setLane statReg e.2.lane e.2.stat) (run e.1 e.2 s)
        e.2.flues.foldl (fun s f => flue e.1 f s) s) s

/-- `ldt` (R417). -/
def ldtWord (x : Bool) (z : BitVec 3) (d a : BitVec 7) (w : BitVec 3) (g : Group) (s : State) : WordOut :=
  let n := sizeRegs z
  let da := ea x d g
  let av := ea x a g
  let base := regWord s g x [{ first := da, count := n, align := n }, { first := da + n }] [{ first := av, count := 3 }]
  tierWord { base with uses := base.uses ++ [.win w.toNat] } (sizeBytes z) (da + n)
    (fun l => ldtLane s g w.toNat l (sizeBytes z) (g.v av l) (g.v (av + 1) l) (g.v (av + 2) l))
    (fun _ tl s => tl.data.foldl (fun s e => (partsAt e.tg z (sizeBytes z)).foldl (fun s p => loadPart (tl.words.map (·.1)) da e p s) s) s)
    g s

/-- The texels of a lane's sample fetched: those at hand at once, the others by requests (R419). -/
def runSample (d : Nat) (t : Trd) (tl : TierLane) (s : State) : State :=
  let id := s.mem.nextId
  let z := 2 ^ t.esz
  let p : Sample := { group := s.cur, lane := tl.lane, reg := d, tfmt := t.tfmt, need := tl.data.length
                      fx := tl.fx, fx1 := tl.fx1, fl := tl.fl }
  let s := onMem (fun m => { m with nextId := m.nextId + 1 }) { s with samples := Maps.set s.samples id p }
  let regs := (List.range 4).map fun i => RegId.vec (d + i)
  let note (i v : Nat) (s : State) : State :=
    { s with samples := Maps.modify s.samples id fun p => { p with texels := Maps.set p.texels i v } }
  let one (s : State) (e : LaneAt × Nat) : State :=
    let req (sp : ReqSpace) (pa : Nat) : Req :=
      { group := 0, core := 0, lane := tl.lane, op := .texel id e.2, space := sp, pa := pa, va := e.1.va, size := z, fill := isHbm pa
        words := tl.words.map (·.1) }
    match e.1.tg with
    | .scratch off => note e.2 (scrRead (curTeam s) off z) s
    | .phys pa tr => addLoad (req (spaceOf pa) pa) regs (keepTr (curTeam s).core tr s)
    | .remote h off => addLoad { req (.remote h) off with fill := false } regs s
    | _ => s
  let s := (tl.data.zip (List.range tl.data.length)).foldl one s
  let p := Maps.get p s.samples id
  if p.texels.length = p.need then
    onCur (fun g => g.setLaneWords d tl.lane p.result) { s with samples := Maps.del s.samples id }
  else s

/-- `smp` (R418, R419). -/
def smpWord (filter : Nat) (x : Bool) (d a : BitVec 7) (w : BitVec 3) (v u : BitVec 2) (g : Group) (s : State) : WordOut :=
  let da := ea x d g
  let av := ea x a g
  let base := regWord s g x [{ first := da, count := 4, align := 4 }, { first := da + 4 }] [{ first := av, count := 3 }]
  tierWord { base with uses := base.uses ++ [.win w.toNat] } 1 (da + 4)
    (fun l => smpLane s g w.toNat l filter u.toNat v.toNat (g.v av l) (g.v (av + 1) l) (g.v (av + 2) l))
    (runSample da) g s

/-- R417. Tiered load with fallback, status and flue logging. -/
def execLdt (_c x : Bool) (z : BitVec 3) (d a : BitVec 7) (w : BitVec 3) (s : State) : Out :=
  issue (ldtWord x z d a w) s

/-- R418. Point-sampled tiered texture read. -/
def execSmpPoint (_c x : Bool) (d a : BitVec 7) (w : BitVec 3) (v u : BitVec 2) (s : State) : Out :=
  issue (smpWord 0 x d a w v u) s

/-- R418. Bilinear tiered texture sample. -/
def execSmpBilinear (_c x : Bool) (d a : BitVec 7) (w : BitVec 3) (v u : BitVec 2) (s : State) : Out :=
  issue (smpWord 1 x d a w v u) s

/-- R418. Trilinear tiered texture sample. -/
def execSmpTrilinear (_c x : Bool) (d a : BitVec 7) (w : BitVec 3) (v u : BitVec 2) (s : State) : Out :=
  issue (smpWord 2 x d a w v u) s

/-! Residency changes and queries (R420). -/

/-- The map word of a lane's page for an access, and the bit in it; or the failure. -/
def residLane (s : State) (g : Group) (n : Nat) (clr : Bool) (acc : Acc) (px py l : Word) : Except TierFault (LaneAt × Nat) :=
  match readTrd s g n with
  | .error e => .error e
  | .ok t =>
    if t.firn < l.toNat then .error (t.va, .inlane .trdbound l.toNat)
    else match readLevel s g t l.toNat with
    | .error e => .error e
    | .ok lv =>
      if lv.gw ≤ px.toNat ∨ lv.gh ≤ py.toNat then .error (t.va, .inlane .trdbound l.toNat)
      else if clr ∧ l.toNat = t.firn then .error (t.va, .inlane .firnclr 0)
      else
        let b := bitIndex lv (px.toNat, py.toNat)
        let va := wordVa t b
        match tierRead s g t.va va 4 acc with
        | .error e => .error e
        | .ok (pa, _) => .ok ({ lane := 0, va := va, tg := .phys pa none }, b % 32)

/-- A residency word: each lane's bit handled by a request at its word's home slice. -/
def residWord (base : WordOut) (n a : Nat) (clr : Bool) (acc : Acc) (op : Nat → ReqOp) (regs : List RegId) (after : State → State)
    (g : Group) (s : State) : WordOut :=
  let rs := (lanesOf g.active).map fun l => (l, residLane s g n clr acc (g.v a l) (g.v (a + 1) l) (g.v (a + 2) l))
  let bad : List LaneAt := rs.filterMap fun r => match r.2 with
    | .error (va, tg) => some { lane := r.1, va := va, tg := tg }
    | .ok _ => none
  let ok := rs.filterMap fun r => match r.2 with
    | .ok (a, b) => some ({ a with lane := r.1 }, b)
    | .error _ => none
  accessWord { base with uses := base.uses ++ [.win n] } g 1 acc bad fun s =>
    after (ok.foldl (fun s e => match e.1.tg with
      | .phys pa _ => addLoad { group := 0, core := 0, lane := e.1.lane, op := op e.2, space := .llc, pa := pa, va := e.1.va
                                size := 4 } regs s
      | _ => s) s)

/-- A core's flue filter cleared (R267). -/
def clearFlues (core : Nat) (s : State) : State := onCore core (fun c => { c with flueKeys := [] }) s

/-- `resq` (R420). -/
def resqWord (x : Bool) (d a : BitVec 7) (w : BitVec 3) (r : BitVec 1) (g : Group) (s : State) : WordOut :=
  let av := ea x a g
  let base := regWord s g x [vr x d g 1 1] [{ first := av, count := 3 }]
  residWord base w.toNat av false .load (fun b => .resq (ea x d g) b (r == 1)) [.vec (ea x d g)]
    (fun s => if r == 1 && g.active == 0 then clearFlues (curTeam s).core s else s) g s

/-- R420. Mark pages resident with release semantics. -/
def execResset (_c x : Bool) (a : BitVec 7) (w : BitVec 3) (s : State) : Out :=
  issue (fun g s => { residWord (regWord s g x [] [{ first := ea x a g, count := 3 }]) w.toNat (ea x a g) false .atomic (.resbit true) [] id g s
    with stall := anyOut s }) s

/-- R420. Mark pages not resident. -/
def execResclr (_c x : Bool) (a : BitVec 7) (w : BitVec 3) (s : State) : Out :=
  issue (fun g s => residWord (regWord s g x [] [{ first := ea x a g, count := 3 }]) w.toNat (ea x a g) true .atomic (.resbit false) [] id g s) s

/-- R420. Query residency bits, optionally clearing the flue filter. -/
def execResq (_c x : Bool) (d a : BitVec 7) (w : BitVec 3) (r : BitVec 1) (s : State) : Out :=
  issue (resqWord x d a w r) s

/-- Are the group's residency changes still to finish (R262)? -/
def residPending (s : State) (g : Group) : Bool :=
  (outstanding s s.cur fun r => match r.op with
    | .resbit _ _ => true
    | _ => false) || (s.cores.any fun c => c.2.resInval.any fun e => e.2 == s.cur) ||
    (g.resWait.any fun id => (Maps.find s.mem.net id).isSome)

/-- R262. Wait for residency invalidations and in-flight tiered loads, and empty descriptor caches. -/
def execResfence (_c : Bool) (s : State) : Out :=
  issue (fun g st => { stall := residPending st g, effect := onCur fun live => { live with resWait := [] } }) s

end Sys2Proof.Machine
end

