-- ==== Sys2Proof/Machine/Residency.lean ====
section
/-! DEFINITION. Flue records written to their rings (R266, R269), invalidations of map words (R262), and snapshots (R55 to
R57). -/

namespace Sys2Proof.Machine

/-! Flue records. -/

/-- A record's 32 bytes (R266). -/
def flueBytes (die : Nat) (r : FlueRec) : List Byte :=
  Maps.natLe (r.rid % 2 ^ 20 + r.wanted % 16 * 2 ^ 20 + r.got % 16 * 2 ^ 24 + (if r.nest then 2 ^ 28 else 0)) 4 ++ Maps.natLe r.px 2 ++
    Maps.natLe r.py 2 ++ Maps.natLe r.region 2 ++ Maps.natLe die 1 ++ Maps.natLe (r.core % 24) 1 ++ Maps.natLe r.seq 4 ++
    Maps.natLe r.ctx 2 ++ List.replicate 14 0

/-- A record written to its ring, or dropped (R268, R269). -/
def writeFlue (die : Nat) (r : FlueRec) (s : State) : State :=
  if !ringUsable s r.ring r.ctx then dropFlue die r.ring r.ctx s
  else
    let e := ringEntry s r.ring
    let base := bitsN e 45 12 * 2 ^ 12
    let n := 2 ^ (bitsN e 115 112 + 6)
    let w := natAt s.mem base 4
    let rd := natAt s.mem (base + 4) 4
    if (w + 2 ^ 32 - rd) % 2 ^ 32 = n then dropFlue die r.ring r.ctx s
    else
      let s := onMem (fun m => putNat (storeRange m (base + 64 + 32 * (w % n)) (flueBytes die r)) base 4 ((w + 1) % 2 ^ 32)) s
      if w = rd then raiseMsi (bitsN e 99 96) (bitsN e 111 100) s else s

/-- R269. A flue record is written to its ring, or dropped and counted. -/
def execFlueRecordWrite (die : BitVec 3) (s : State) : Out :=
  match (dieAt s die.toNat).flues with
  | r :: rest => .next (writeFlue die.toNat r (onDie die.toNat (fun d => { d with flues := rest }) s))
  | [] => .refused .notDue

/-! Residency caches. -/

/-- A word invalidated in a core's residency cache: the group that changed it waits, at its next `resfence`, for the core's loads that
judged by the word before. -/
def invalidate (core word i k : Nat) (s : State) : State :=
  let ids := Maps.keys s.mem.net fun _ r => r.core == core && r.words.contains word
  onGroup k (fun g => { g with resWait := g.resWait ++ ids })
    (onCore core (fun c => { c with resInval := c.resInval.eraseIdx i, resCache := Maps.del c.resCache word }) s)

/-- R262. A residency map word is invalidated in a core's residency cache. -/
def execResidencyInvalidation (core : Nat) (word : Nat) (s : State) : Out :=
  let k := coreAt s core
  match k.resInval.findIdx? fun e => e.1 == word with
  | some i => .next (invalidate core word i ((k.resInval[i]?).getD (0, 0)).2 s)
  | none => .refused .notDue

/-- The invalidations on their way: core and word. -/
def invalsDue (s : State) : List (Nat × Nat) := s.cores.flatMap fun c => (c.2.resInval.map fun e => (c.1, e.1)).eraseDups

/-! Snapshots (R55 to R57). -/

/-- The root's next sequence number given to the triggers that have arrived together, and broadcast (R55). The first trigger takes 1:
the counter's start is a DESIGN CHOICE (log entry 17). -/
def broadcast (s : State) : State :=
  let q := s.io.trigSeq + 1
  { s with io := { s.io with
    trigSeq := q, trigAt := s.clock + 1
    snaps := (List.range 10).foldl (fun m d => let x := Maps.get {} m d; Maps.set m d { x with due := x.due ++ [(q, s.clock)] }) s.io.snaps } }

/-- Triggers at the root: those that arrived in one clock are one, which is free (R55). -/
def rootTrigger (s : State) : State :=
  let n := s.io.triggers
  if n = 1 then broadcast { s with io := { s.io with triggers := 0 } }
  else
    let (k, s) := draw s
    broadcast { s with io := { s.io with triggers := n - 1 - k % n } }

/-- Can triggers reach the root in this clock? Those of one clock are one trigger (R55). -/
def rootDue (s : State) : Bool := s.io.triggers != 0 && s.io.trigAt != s.clock + 1

/-- R55. A trigger reaches the root, takes the next sequence number and is broadcast. -/
def execSnapTriggerRoot (s : State) : Out := if rootDue s then .next (rootTrigger s) else .refused .notDue

/-- Requests in a slice's conflict queues (R56, R203). -/
def conflicts (s : State) (slice : Nat) : Nat :=
  (s.mem.net.filter fun e => e.2.space == .llc && e.2.st == .conflict && sliceOf s.mem e.2.pa == some slice).length

/-- The snapshot registers of a link's compressor and its retrains (R25, R56). -/
def linkSnap (s : State) (l : LinkId) : List (Nat × Nat) :=
  let k := ((s.io.links.find? fun e => e.1 == l).map (·.2)).getD {}
  [(k.flits.toNat, 8), (k.zr.toNat, 8), (k.bd.toNat, 8), (k.bm.toNat, 8), (k.beat.toNat, 8), (k.retrains, 4)]

/-- The latched values of a die pair or an I/O die: value and bytes, in the order of R56 (log entry 17). -/
def snapValues (s : State) (d : Nat) : List (Nat × Nat) :=
  let x := dieAt s d
  if d < 8 then
    let cores := (List.range 24).flatMap fun i =>
      let n := 24 * d + i
      let k := coreAt s n
      [(s.clock - x.cycleBase, 8)] ++ ((List.range 4).map fun j => (Maps.get 0 k.issued j, 8)) ++
        [(k.embstall.toNat, 4), ((s.teams.filter fun e => e.2.core == n).length, 4)]
    let slices := (List.range 32).flatMap fun i =>
      let n := 32 * d + i
      [(Maps.get 0 s.mem.hits n, 8), (Maps.get 0 s.mem.misses n, 8), (conflicts s n, 4), (Maps.get 0 s.mem.nacks n, 8)]
    let mcs := (List.range 3).flatMap fun i =>
      let n := 3 * d + i
      [(Maps.get 0 s.mem.mcReads n, 8), (Maps.get 0 s.mem.mcWrites n, 8), (Maps.get 0 s.mem.mcDecodes n, 8)]
    let links := (List.range 8).flatMap fun m => linkSnap s (.ucie (BitVec.ofNat 4 d) (BitVec.ofNat 3 m))
    cores ++ slices ++ mcs ++ links ++
      [(x.events.length, 4), (x.released, 8), (x.discarded, 8), (x.notifyLost, 8), (x.flueLost, 8)]
  else
    ((List.range 64).flatMap fun j => linkSnap s (.port (BitVec.ofNat 7 (64 * (d - 8) + j)))) ++
      (List.range 8).flatMap fun m => linkSnap s (.ucie (BitVec.ofNat 4 d) (BitVec.ofNat 3 m))

/-- The next trigger of a die's SNAPCTL latched, or missed (R57). -/
def latchSnap (d : Nat) (s : State) : State :=
  let x := Maps.get {} s.io.snaps d
  match x.due with
  | [] => s
  | (q, _) :: rest =>
    let x' := if x.hold && x.full then { x with due := rest, missed := BitVec.ofNat 8 (min 255 (x.missed.toNat + 1)) }
      else { x with due := rest, seq := q, full := x.full || x.hold, values := snapValues s d }
    { s with io := { s.io with snaps := Maps.set s.io.snaps d x' } }

/-- R56. A block latches its snapshot registers, or counts a miss. -/
def execSnapshotLatch (die : BitVec 4) (s : State) : Out :=
  if (Maps.get {} s.io.snaps die.toNat).due.isEmpty then .refused .notDue else .next (latchSnap die.toNat s)

def latchesDue (s : State) : List Nat := Maps.keys s.io.snaps fun _ x => !x.due.isEmpty

/-- Has a trigger's latch had all the 40 clocks that it may take (R55)? -/
def latchLate (s : State) : Bool := s.io.snaps.any fun e => e.2.due.any fun t => decide (t.2 + 40 ≤ s.clock)

/-- A write of SNAPCTL (R57): CLR clears FULL and MISSED, HOLD is written. -/
def writeSnapctl (d : Nat) (w : Word) (s : State) : State :=
  let x := Maps.get {} s.io.snaps d
  let x := if w.getLsbD 2 then { x with full := false, missed := 0 } else x
  { s with io := { s.io with snaps := Maps.set s.io.snaps d { x with hold := w.getLsbD 0 } } }

/-- R57. Writing 1 to SNAPCTL.CLR clears FULL and MISSED. -/
def execSnapctlClr (die : BitVec 4) (w : BitVec 32) (s : State) : Out :=
  if w.getLsbD 2 then .next (writeSnapctl die.toNat w s) else .refused .notDue

end Sys2Proof.Machine
end

