-- ==== Sys2Proof/Machine/Tokens.lean ====
section
/-! DEFINITION. Ember tokens (R176 to R180) and the thermal events of a compute die (R37, R38). -/

namespace Sys2Proof.Machine

/-! Ember tokens. -/

def clusterOf (core : Nat) : Nat := core % 24 / 4

/-- Does a group hold a matrix word, or an `mtile` its next step, for want of a token (R178)? A group that is stopped holds none. -/
def wantsToken (s : State) (core : Nat) (g : Group) : Bool :=
  !hasToken s core && !g.exited && g.parked.isNone && !g.halted && (g.wants || (g.haltSeen.isNone && (match g.waiting with
    | some (.mtile _ _ _ _) => true
    | _ => false)))

/-- Does a group of a cluster hold a matrix word for want of a token, of any class or of class hearth (R177, R179)? -/
def clusterWants (s : State) (die cl : Nat) (hearth : Bool) : Bool :=
  s.groups.any fun e =>
    let t := teamAt s (handleOf e.1)
    wantsToken s t.core e.2 && dieOfCore t.core == die && clusterOf t.core == cl && (!hearth || effClass s t.ctx t.region == 0)

def clusterHolds (d : Die) (cl : Nat) : Bool := d.tokens.any fun t => t.cluster == cl && t.arrives.isNone

/-- The hearth request to serve next: the lowest cluster with one to which no token is on its way for it (R179). -/
def hearthNext (s : State) (die : Nat) : Option Nat :=
  let d := dieAt s die
  (List.range 6).find? fun c => !d.hearthReq.contains c && !clusterHolds d c && clusterWants s die c true

/-- A token without place `i`. -/
def dropToken (i : Nat) (d : Die) : Die := { d with tokens := d.tokens.eraseIdx i }

def setToken (i : Nat) (t : Token) (d : Die) : Die := { d with tokens := d.tokens.set i t }

/-- A token at the end of a burst or a hop at a cluster: withdrawn, sent to the first hearth request, which may be the cluster's own,
kept, or passed on (R176, R177, R179). -/
def moveToken (die i cl : Nat) (mayKeep : Bool) (s : State) : State :=
  let d := dieAt s die
  if d.embTcnt.toNat < d.tokens.length then onDie die (dropToken i) s
  else
    let stay : Token := { cluster := cl, arrives := none, start := s.clock, idle := s.clock }
    let keep := mayKeep && !(clusterHolds d cl)
    match hearthNext s die with
    | some c =>
      if keep && c == cl then onDie die (setToken i stay) s
      else onDie die (fun d => { setToken i { cluster := c, arrives := some (s.clock + 16) } d with hearthReq := c :: d.hearthReq }) s
    | none =>
      if keep && clusterWants s die cl false then onDie die (setToken i stay) s
      else onDie die (setToken i { cluster := (cl + 1) % 6, arrives := some (s.clock + 16) }) s

/-- Has a token's hop ended? -/
def hopDue (s : State) (die i : Nat) : Option Token :=
  if !(dieAt s die).running || (dieAt s die).heldReset then none
  else match (dieAt s die).tokens[i]? with
  | some t => match t.arrives with
    | some c => if c ≤ s.clock then some t else none
    | none => none
  | none => none

/-- R177. An ember token arrives at a cluster, which keeps it if a matrix word waits and otherwise forwards it. -/
def execTokenHop (die : BitVec 3) (token : Nat) (s : State) : Out :=
  match hopDue s die.toNat token with
  | some t => .next (moveToken die.toNat token t.cluster true
      (onDie die.toNat (fun d => { d with hearthReq := d.hearthReq.filter (· != t.cluster) }) s))
  | none => .refused .notDue

/-- The token of a cluster whose burst has ended (R177). -/
def burstDue (s : State) (die cl : Nat) : Option Nat :=
  if !(dieAt s die).running || (dieAt s die).heldReset then none
  else (dieAt s die).tokens.findIdx? fun t =>
    t.cluster == cl && t.arrives.isNone && (decide (t.start + 4096 ≤ s.clock) || decide (t.idle + 16 ≤ s.clock))

/-- R177. A cluster's burst ends and its token hops on. -/
def execBurstEnd (die : BitVec 3) (cluster : Nat) (s : State) : Out :=
  match burstDue s die.toNat cluster with
  | some i => .next (moveToken die.toNat i cluster false s)
  | none => .refused .notDue

/-- A write of EMBCTL (R176): a higher count inserts tokens at cluster 0, a lower one lets them be withdrawn. -/
def writeEmbctl (die : Nat) (w : Word) (s : State) : State :=
  let n := w.toNat % 8
  if n = 0 ∨ n = 7 then s
  else
    let more := n - (dieAt s die).tokens.length
    let (k, s) := if more = 0 then (0, s) else draw s
    onDie die (fun d => { d with
      embTcnt := BitVec.ofNat 3 n
      tokens := d.tokens ++ List.replicate more { cluster := 0, arrives := some (s.clock + 1 + k % 16) } }) s

/-- R176. An EMBCTL write sets the ember-token count. -/
def execEmbctlWrite (die : BitVec 3) (w : BitVec 32) (s : State) : Out := .next (writeEmbctl die.toNat w s)

/-! Thermal events (R37, R38). -/

/-- A compute die's temperature as measured. -/
def setTemp (die : Nat) (temp : BitVec 8) (s : State) : State := onDie die (fun d => { d with temp := temp }) s

/-- The token count set to 1, the earlier one kept. -/
def throttle (die : Nat) (s : State) : State :=
  let d := dieAt s die
  writeEmbctl die 1 (onDie die (fun x => { x with tokenSave := some (d.tokenSave.getD d.embTcnt) }) s)

/-- Is a compute die hot enough to be throttled, to be reset; cool enough for its tokens, and for its release (R37, R38)? -/
def hotDue (s : State) (d : Nat) : Bool := let x := dieAt s d; decide (100 ≤ x.temp.toNat) && x.tokenSave.isNone && !x.heldReset && x.running
def meltDue (s : State) (d : Nat) : Bool := let x := dieAt s d; decide (110 ≤ x.temp.toNat) && x.running && !x.heldReset
def coolDue (s : State) (d : Nat) : Bool := let x := dieAt s d; decide (x.temp.toNat < 95) && x.tokenSave.isSome && !x.heldReset
def freeDue (s : State) (d : Nat) : Bool := let x := dieAt s d; decide (x.temp.toNat < 90) && x.heldReset

/-- R37. A compute die reaching 100 °C has its token count set to 1. -/
def execThermalThrottle (die : BitVec 3) (temp : BitVec 8) (s : State) : Out :=
  let d := dieAt s die.toNat
  if 100 ≤ temp.toNat ∧ d.tokenSave.isNone ∧ !d.heldReset then .next (throttle die.toNat (setTemp die.toNat temp s))
  else .refused .notDue

/-- The contexts with teams, cards or jobs on a die (R37). -/
def dieContexts (s : State) (die : Nat) : List Nat :=
  (((s.teams.filter fun e => dieOfCore e.2.core == die).map fun e => e.2.ctx) ++ (dieAt s die).cards.map fun e => e.2.ctx).eraseDups

/-- The launches of a die that its reset ends (R37, R302). -/
def loseLaunches (die : Nat) (s : State) : State :=
  (dieAt s die).cards.foldl (fun s e => if e.2.placed then record die (unitRecord die .killed e.2.ctx e.2.region e.2.addr 0 false) s else s) s

/-- A compute die's own contents gone (R37, R38). -/
def emptyDie (d : Die) : Die :=
  { d with
    heldReset := true, tokenSave := none, embTcnt := 6, tokens := freshTokens 0, hearthReq := [], ctrs := [], cards := [], tileSeen := []
    posts := d.posts.map fun p => { p with held := false }
    events := [], heldEvents := [], waits := [], stats := [], ringLog := none, meshReqs := [], meshRing := [], meshOuts := []
    prims := [], binMsgs := [], markers := [], tiles := [], flushed := [], jobs := [], flues := [], rcbCache := [], admitHold := none
    overflow := 0, released := 0, discarded := 0, notifyLost := 0, flueLost := 0 }

/-- The posters that a die's posts hold go on. -/
def freePosters (die : Nat) (s : State) : State :=
  (dieAt s die).posts.foldl (fun s p => if p.held then freePost die p s else s) s

/-- A compute die held in reset (R37). -/
def thermalHold (die : Nat) (s : State) : State :=
  let cs := dieContexts s die
  let s := killTeams (fun _ t => dieOfCore t.core == die) s
  let s := cs.foldl (fun s c => record die (unitRecord die .thermal c 0 0 die true) (setFaulted c .thermal s)) s
  let s := freePosters die (loseLaunches die (countLife (.thermalResets die) 1 s))
  let s := dropMesh (dropCards false (fun _ k => cs.contains k.ctx) s)
  onDie die emptyDie { s with cores := s.cores.filter fun e => dieOfCore e.1 != die }

/-- R37. A compute die reaching 110 °C is held in reset. -/
def execThermalReset (die : BitVec 3) (temp : BitVec 8) (s : State) : Out :=
  if 110 ≤ temp.toNat ∧ (dieAt s die.toNat).running ∧ !(dieAt s die.toNat).heldReset then
    .next (thermalHold die.toNat (setTemp die.toNat temp s))
  else .refused .notDue

/-- R38. The power manager restores the earlier token count once TEMP falls below 95 °C. -/
def execThermalTokenRestore (die : BitVec 3) (temp : BitVec 8) (s : State) : Out :=
  match (dieAt s die.toNat).tokenSave with
  | some n =>
    if temp.toNat < 95 ∧ !(dieAt s die.toNat).heldReset then
      .next (writeEmbctl die.toNat (n.setWidth 32) (onDie die.toNat (fun d => { d with tokenSave := none }) (setTemp die.toNat temp s)))
    else .refused .notDue
  | none => .refused .notDue

/-- A write of THERMCTL (R38). -/
def writeThermctl (die : Nat) (w : Word) (s : State) : State :=
  let d := dieAt s die
  if w.getLsbD 0 && d.heldReset && decide (d.temp.toNat < 90) then
    onDie die (fun d => { d with heldReset := false, cycleBase := s.clock, tokenSave := none, embTcnt := 6, tokens := freshTokens s.clock }) (cleanDie die false s)
  else s

/-- R38. Writing RELEASE brings a thermally held compute die up, unless TEMP is 90 °C or above. -/
def execThermctlRelease (die : BitVec 3) (w : BitVec 32) (s : State) : Out :=
  if w.getLsbD 0 then .next (writeThermctl die.toNat w s) else .refused .notDue

end Sys2Proof.Machine
end

