-- ==== Sys2Proof/Machine/Waits.lean ====
section
/-! DEFINITION. What ends a group's wait: the wait table (R194, R195), the stop and the resumption of siblings (R173 to R175),
sleep (R386), and the renegotiation of an allotment (R162 to R164). -/

namespace Sys2Proof.Machine

/-! The wait table (R194, R195). -/

/-- The entry's groups woken, and the table without the entries left empty. -/
def wakeEntry (act : Bool) (d : Nat) (ks : List Nat) (s : State) : State := sweepWaits d (wakeAll act ks s)

/-- Does the walk of an entry's page now succeed for its kind of access (R194)? -/
def rewalkOk (s : State) (e : WaitEntry) : Bool :=
  match walk s.mem (ctxRoot s e.ctx) (e.page * 65536) with
  | .leaf pte level => permits (tlbOf e.asid (e.page * 65536) pte level) e.acc e.user
  | _ => false

/-- The walk that follows the creation of a page-keyed entry (R194). -/
def rewalk (d i : Nat) (e : WaitEntry) (s : State) : State :=
  let s := onDie d (fun x => { x with waits := Maps.modify x.waits i fun e => { e with rewalk := false } }) s
  if rewalkOk s e then wakeEntry false d (under s d i) s else s

/-- R194. After a page-keyed entry is created the table walks the page again and wakes the group if the access now
succeeds. -/
def execWaitTableRewalk (die : BitVec 3) (entry : BitVec 10) (s : State) : Out :=
  match Maps.find (dieAt s die.toNat).waits entry.toNat with
  | some e => if e.rewalk then .next (rewalk die.toNat entry.toNat e s) else .refused .notDue
  | none => .refused .notDue

/-- The entries of a die whose walk is to come. -/
def rewalksDue (s : State) (d : Nat) : List Nat := Maps.keys (dieAt s d).waits fun _ e => e.rewalk

/-- The ASID under which a parked group waits. -/
def parkAsid (s : State) (k : Nat) : Nat :=
  match (groupOf s k).parkReq with
  | some p => (pageKey s (teamAt s (handleOf k)) p.addr).1
  | none => 0

/-- The groups that a write of WTREPLAY names (R195): those under the entries that its mode and key match. -/
def replayNamed (s : State) (d : Nat) (w : Nat) : List Nat :=
  let asid := bitsN w 55 40
  let key := bitsN w 39 0
  let pick (p : Nat → WaitEntry → Bool) : List Nat := (Maps.keys (dieAt s d).waits p).flatMap fun i => under s d i
  match bitsN w 63 62 with
  | 0 => pick fun _ e => e.byPage && e.asid == asid && e.page == key
  | 1 => pick fun i _ => i == key
  | _ => (pick fun i e => i != 1023 && e.asid == asid) ++ (under s d 1023).filter fun k => parkAsid s k == asid

/-- A write of WTREPLAY (R195). -/
def writeWtreplay (d : Nat) (w : Dword) (s : State) : State :=
  let v := w.toNat
  let bad := bitsN v 63 62 == 3 || bitsN v 60 56 != 0 || (bitsN v 63 62 == 1 && bitsN v 39 10 != 0)
  let named := replayNamed s d v
  if bad ∨ named.isEmpty then s
  else
    let rest := (under s d 1023).filter fun k => !named.contains k
    sweepWaits d (wakeAll false rest (wakeAll (bitN v 61) named s))

/-- R195. WTREPLAY mode 0 wakes the groups parked under the page entry. -/
def execWtreplayByPage (die : BitVec 3) (w : BitVec 64) (s : State) : Out :=
  if bitsN w.toNat 63 62 = 0 then .next (writeWtreplay die.toNat w s) else .refused .notDue

/-- R195. WTREPLAY mode 1 wakes the groups parked under the entry of an index. -/
def execWtreplayByToken (die : BitVec 3) (w : BitVec 64) (s : State) : Out :=
  if bitsN w.toNat 63 62 = 1 then .next (writeWtreplay die.toNat w s) else .refused .notDue

/-- R195. WTREPLAY mode 2 wakes every group parked under any entry of the ASID. -/
def execWtreplayByAsid (die : BitVec 3) (w : BitVec 64) (s : State) : Out :=
  if bitsN w.toNat 63 62 = 2 then .next (writeWtreplay die.toNat w s) else .refused .notDue

/-! Siblings (R173, R175). -/

/-- Is a group's team between the steps of a move (R303, R305)? -/
def inMove (s : State) (h : Nat) : Bool := tltMove s (teamAt s h).ctx h

/-- Does a group run an `mtile`, which stops between its steps (R301)? -/
def inTile (g : Group) : Bool := match g.waiting with
  | some (.mtile _ _ _ _) => true
  | _ => false

/-- Does a group wait for the completion of an instruction that has issued, so that it is not yet past it (R12, R173)? A group that
waits for its team, at a barrier, stops and is saved as it waits (R390). -/
def inProgress (g : Group) : Bool := match g.waiting with
  | some (.send _) => true
  | some (.sendDone _) => true
  | some (.domain _) => true
  | some (.evict _) => true
  | some (.tamp _ _) => true
  | some .post => true
  | some .counter => true
  | some (.drain _ _) => true
  | _ => false

/-- Has a sibling that has received the halt come to a packet boundary (R173)? The push of its SIBHALT entry waits for its accesses to
the bytes that it spills to (R169, R219). -/
def stopDue (s : State) (k : Nat) : Bool :=
  match Maps.find s.groups k with
  | some g => g.haltSeen.isSome && (isPacketStart g.pc || inTile g) && !inProgress g && !g.exited && g.parked.isNone && !g.halted &&
    !g.stalled && !stackBusy s k
  | none => false

/-- R173. A sibling that has received the halt stops at a packet boundary and pushes a SIBHALT entry. -/
def execSiblingStop (group : Nat) (s : State) : Out :=
  if stopDue s group then
    let g := groupOf s group
    let skid := if g.haltSeen = some 4 then 0 else min 2 (g.haltSeen.getD 0)
    if inTile g then .next (stopSibling group (max 1 skid) (onGroup group (fun g => { g with waiting := none, tileSrc := none }) s))
    else .next (stopSibling group skid s)
  else .refused .notDue

/-- May a halted group resume (R175)? -/
def popDue (s : State) (k : Nat) : Bool :=
  match Maps.find s.groups k with
  | some g => g.halted && (teamAt s (handleOf k)).parkedCnt == 0 && !inMove s (handleOf k) && !stackBusy s k
  | none => false

/-- R175. When the team's parked count is zero a SIBHALT entry is popped and its group resumes. -/
def execSibhaltPop (group : Nat) (s : State) : Out :=
  if popDue s group then .next (resumeSibling group s) else .refused .notDue

/-! Sleep (R386). -/

def wakeSleepDue (s : State) (k : Nat) : Bool :=
  match Maps.find s.groups k with
  | some g => match g.sleepTo with
    | some t => decide (t ≤ s.clock)
    | none => false
  | none => false

/-- R386. A sleeping group becomes ready again when its count of clocks ends. -/
def execSleepExpiry (group : Nat) (s : State) : Out :=
  if wakeSleepDue s group then .next (onGroup group (fun g => { g with sleepTo := none }) s) else .refused .notDue

/-! Renegotiation (R162 to R164). -/

/-- Is anything that targets a team's registers or scratchpad still on its way (R162)? -/
def teamBusy (s : State) (h : Nat) : Bool :=
  (s.groups.any fun e => handleOf e.1 == h && !e.2.pending.isEmpty) || (s.copies.any fun e => handleOf e.2.group == h && e.2.left.isNone) ||
    (s.bulks.any fun e => e.2.team == h && e.2.gen == (teamAt s h).gen) || (s.xfms.any fun e => handleOf e.2.group == h) ||
    (s.samples.any fun e => handleOf e.2.group == h)

/-- The registers and scratchpad units that a request asks for (R162). -/
def askRegs (w : Word) : Nat := 16 * (w.toNat % 16 + 1)
def askScr (w : Word) : Nat := bitsN w.toNat 14 8

/-- Is a request malformed (R163)? -/
def askBad (w : Word) : Bool := bitsN w.toNat 31 15 != 0 || bitsN w.toNat 7 4 != 0 || decide (96 < askScr w)

/-- The status of a renegotiation (R163). -/
def reallocStatus (s : State) (h : Nat) : Nat :=
  let t := teamAt s h
  let asks := t.reallocs.map (·.2)
  let w := asks.head?.getD 0
  let (rk, sk) := carveSizes (coreAt s t.core).carve
  let regs := t.ngroups * 128 * askRegs w
  let passes (r : Nat) : Bool := (r == 0 || rcbField s t.ctx r 18 18 == 1) && decide (rcbField s t.ctx r 55 49 < askScr w)
  if asks.any askBad then 4
  else if asks.any (· != w) then 3
  else if ((regionChain s t.ctx t.region).getD []).any passes ∨ rk * 1024 < regs ∨ sk / 64 < askScr w then 2
  else if rk * 1024 < regsUsed s t.core - t.ngroups * 128 * t.regs + regs ∨ sk / 64 < scrUsed s t.core - t.scr + askScr w then 1
  else 0

/-- The new allotment in a group and in its team (R164). -/
def Group.shrink (n : Nat) (g : Group) : Group :=
  { g with vregs := Maps.below g.vregs (32 * n), await := g.await &&& BitVec.ofNat 256 (2 ^ n - 1), acquire := Maps.below g.acquire n }
def Team.grant (w : Word) (t : Team) : Team :=
  { t with regs := askRegs w, scr := askScr w, scratch := Maps.below t.scratch (65536 * askScr w) }

/-- A decided renegotiation: every group has its status, and the phase completes (R163, R164, R389). -/
def decideRealloc (h : Nat) (s : State) : State :=
  let t := teamAt s h
  let st := reallocStatus s h
  let w := (t.reallocs.map (·.2)).head?.getD 0
  let done (g : Group) : Group := match g.waiting with
    | some (.realloc d) => { g.setS d (BitVec.ofNat 32 st) with waiting := none }
    | _ => g
  let each (k : Nat) (g : Group) : Group := if handleOf k = h then done (if st = 0 then g.shrink (askRegs w) else g) else g
  let s := { s with groups := Maps.mapAll s.groups each }
  onTeam h (fun t => { (if st = 0 then t.grant w else t) with barPhase := t.barPhase + 1, barIn := 0, reallocs := [] }) s

/-- Have all groups of a team that have arrived asked, and all arrived, and is nothing on its way to it (R162)? -/
def reallocDue (s : State) (h : Nat) : Bool :=
  let t := teamAt s h
  let live := liveGroups s h
  (Maps.find s.teams h).isSome && !live.isEmpty && barrierFull s h && !inMove s h && !teamBusy s h && allAsk t

/-- R163. The core decides a renegotiation and gives every group its status. -/
def execReallocDecision (team : Nat) (s : State) : Out :=
  if reallocDue s team then .next (decideRealloc team s) else .refused .notDue

end Sys2Proof.Machine
end

