-- ==== Sys2Proof/Machine/Registers.lean ====
section
/-! DEFINITION. Device register space (R17, R18): which register lies at an address, what a load of it returns, what a store
does to it; domain switches (R212, R496) and the invalidation of region control blocks (R67). -/

namespace Sys2Proof.Machine

/-! Registers by address (R17). -/

/-- The device registers. -/
inductive Reg where
  | dsctl (d : Nat) | rcbinv (d : Nat) | wtreplay (d : Nat) | nrbase (d : Nat) | nrirq (d : Nat) | dtrapbase (d : Nat)
  | embctl (d : Nat) | snapctl (d : Nat) | dspost (d : Nat) | thermctl (d : Nat) | dctr (d n : Nat)
  | idw (k : Nat) | hmask (k : Nat)
  /-- A word of a format window: of one controller's, or of the broadcast alias. -/
  | fw (mc : Option Nat) (k part : Nat)
  | lc (l : LinkId) (x : Nat)
  | ctxbase | ctxcmd | domsw | idws (k : Nat) | hmasks (k : Nat) | serclk | scount | ltrctl | ltrirq
  | gaze (v : Nat) | glatch (v : Nat) | vob (v part : Nat) | vrec (v : Nat) | frtab (n part : Nat) | dmatab (r : Nat)
  | imsic (file : Nat) | rtab (i : Nat)
deriving DecidableEq, Repr

/-- The 8-byte slot at an offset of a die pair's block. -/
def dieReg (i off : Nat) : Option Reg :=
  if off < 0x10000 then
    match off / 8 with
    | 0 => some (.dsctl i)
    | 1 => some (.rcbinv i)
    | 2 => some (.wtreplay i)
    | 3 => some (.nrbase i)
    | 4 => some (.nrirq i)
    | 5 => some (.dtrapbase i)
    | 6 => some (.embctl i)
    | 7 => some (.snapctl i)
    | 8 => some (.dspost i)
    | 9 => some (.thermctl i)
    | _ => none
  else if off < 0x18000 then some (.dctr i ((off - 0x10000) / 8))
  else if 0x20000 ≤ off ∧ off < 0x22000 then
    let o := off % 0x100
    some (if o < 0x80 then .idw (o / 8) else .hmask ((o - 0x80) / 8))
  else if 0x30000 ≤ off ∧ off < 0x33000 ∧ off % 0x1000 < 0x200 then
    some (.fw (some (3 * i + (off - 0x30000) / 0x1000)) (off % 0x1000 / 32) (off % 32 / 8))
  else if 0x40000 ≤ off ∧ off < 0x40800 ∧ off % 0x100 < 0x30 then
    some (.lc (.ucie (BitVec.ofNat 4 i) (BitVec.ofNat 3 ((off - 0x40000) / 0x100))) (off % 0x100 / 8))
  else none

/-- The slot at an offset of an I/O die's block that both have. Eight UCIe modules, as a base die has, are a DESIGN CHOICE: R17 lists the
modules' registers and no rule gives an I/O die's number of them (log entry 26). -/
def iodReg (i off : Nat) : Option Reg :=
  if off / 8 = 7 then some (.snapctl i)
  else if off = 0x3000 ∨ off = 0x3008 then some (.dmatab (2 * (i - 8) + (off - 0x3000) / 8))
  else if 0x10000 ≤ off ∧ off < 0x14000 ∧ off % 0x100 < 0x30 then
    some (.lc (.port (BitVec.ofNat 7 (64 * (i - 8) + (off - 0x10000) / 0x100))) (off % 0x100 / 8))
  else if 0x20000 ≤ off ∧ off < 0x20800 ∧ off % 0x100 < 0x30 then
    some (.lc (.ucie (BitVec.ofNat 4 i) (BitVec.ofNat 3 ((off - 0x20000) / 0x100))) (off % 0x100 / 8))
  else if 0x80000 ≤ off ∧ off < 0x88000 ∧ off % 0x1000 = 0 then some (.imsic (8 * (i - 8) + (off - 0x80000) / 0x1000))
  else if 0x90000 ≤ off ∧ off < 0x98000 ∧ off % 0x1000 = 0 then some (.imsic (16 + 8 * (i - 8) + (off - 0x90000) / 0x1000))
  else none

/-- The slot at an offset that only IOD0 has. -/
def iod0Reg (off : Nat) : Option Reg :=
  if off = 0 then some .ctxbase
  else if off = 8 then some .ctxcmd
  else if off = 0x40 then some .domsw
  else if 0x100 ≤ off ∧ off < 0x180 then some (.idws ((off - 0x100) / 8))
  else if 0x180 ≤ off ∧ off < 0x200 then some (.hmasks ((off - 0x180) / 8))
  else if 0x200 ≤ off ∧ off < 0x400 then some (.fw none ((off - 0x200) / 32) (off % 32 / 8))
  else if off = 0x1000 then some .serclk
  else if off = 0x1008 then some .scount
  else if off = 0x1010 then some .ltrctl
  else if off = 0x1018 then some .ltrirq
  else if 0x1100 ≤ off ∧ off < 0x1180 then some (.gaze ((off - 0x1100) / 8))
  else if 0x1180 ≤ off ∧ off < 0x1200 then some (.glatch ((off - 0x1180) / 8))
  else if 0x1200 ≤ off ∧ off < 0x1600 then some (.vob ((off - 0x1200) / 64) (off % 64 / 8))
  else if 0x1600 ≤ off ∧ off < 0x1680 then some (.vrec ((off - 0x1600) / 8))
  else if 0x2000 ≤ off ∧ off < 0x3000 then some (.frtab ((off - 0x2000) / 16) (off % 16 / 8))
  else if 0x100000 ≤ off ∧ off < 0x108000 then some (.rtab ((off - 0x100000) / 8))
  else none

/-- The register whose slot holds an address (R17). -/
def regAt (pa : Nat) : Option Reg :=
  let i := (pa - devBase) / 2 ^ 24
  let off := (pa - devBase) % 2 ^ 24 / 8 * 8
  if !isDev pa then none
  else if i < 8 then dieReg i off
  else if i < 10 then (iodReg i off).orElse fun _ => if i = 8 then iod0Reg off else none
  else none

/-- Is a register 32 bits wide (R18)? -/
def Reg.narrow : Reg → Bool
  | .dsctl _ => true
  | .rcbinv _ => true
  | .nrirq _ => true
  | .embctl _ => true
  | .snapctl _ => true
  | .thermctl _ => true
  | .lc _ x => x == 0
  | .ctxcmd => true
  | .domsw => true
  | .serclk => true
  | .ltrirq => true
  | .gaze _ => true
  | _ => false

/-! Loads. -/

/-- RCBINV's BUSY (R67). -/
def rcbBusy (d : Die) : Bool := bitN d.rcbinv.toNat 19

/-- Is a switch started through DOMSW in progress (R496)? -/
def domBusy (m : Mem) : Bool :=
  (m.domQueue.any fun x => x.group.isNone) || (match m.domSw with
    | some x => x.group.isNone
    | none => false)

/-- The key of a format window's value: of a controller, or of the broadcast alias. -/
def fwKey (mc : Option Nat) (k : Nat) : Nat := 16 * mc.getD 24 + k

/-- A word of a number. -/
def wordPart (v part : Nat) : Nat := bitsN v (64 * part + 63) (64 * part)

/-- The value that a register reads as. -/
def readReg (s : State) (r : Reg) : Nat :=
  match r with
  | .dsctl d => (dieAt s d).dsctl.toNat
  | .rcbinv d => (dieAt s d).rcbinv.toNat
  | .wtreplay d => min 65535 (dieAt s d).overflow * 65536 + (dieAt s d).waits.length
  | .nrbase d => (dieAt s d).nrbase.toNat
  | .nrirq d => (dieAt s d).nrirq.toNat
  | .dtrapbase d => (dieAt s d).dtrapbase.toNat
  | .embctl d => min 7 (dieAt s d).tokens.length * 256 + (dieAt s d).embTcnt.toNat
  | .snapctl d =>
    let x := Maps.get {} s.io.snaps d
    x.seq.toNat * 2 ^ 24 + x.missed.toNat * 2 ^ 16 + (if x.full then 2 else 0) + (if x.hold then 1 else 0)
  | .dspost _ => 0
  | .thermctl d => (dieAt s d).temp.toNat * 256 + (if (dieAt s d).heldReset then 2 else 0)
  | .dctr d n =>
    let parked : Bool := (dieAt s d).cards.any fun e => match e.2.st with
      | .gated k => k != 0 && e.2.gate % 4096 == n
      | _ => false
    (if parked then 2 ^ 32 else 0) + (Maps.get 0 (dieAt s d).ctrs n).toNat
  | .idw k => idwOf s.mem k
  | .hmask k => hmaskOf s.mem k
  | .fw mc k part => wordPart (Maps.get 0 s.mem.fw (fwKey mc k)).toNat part
  | .lc l x =>
    let k := linkOf s l
    match x with
    | 0 => k.tcdis.toNat * 16
    | 1 => k.flits.toNat
    | 2 => k.zr.toNat
    | 3 => k.bd.toNat
    | 4 => k.bm.toNat
    | _ => k.beat.toNat
  | .ctxbase => s.io.ctxbase.toNat
  | .ctxcmd => s.io.ctxcmd.toNat
  | .domsw => (if domBusy s.mem then 2 ^ 31 else 0) + (if s.mem.domRefused then 2 ^ 30 else 0) + s.mem.domReg.toNat
  | .idws k => (Maps.get 0 s.mem.idws k).toNat
  | .hmasks k => (Maps.get 0 s.mem.hmasks k).toNat
  | .serclk => s.display.serclk.toNat
  | .scount => s.display.scount.toNat
  | .ltrctl => s.display.ltrctl.toNat
  | .ltrirq => s.display.ltrirq.toNat
  | .gaze v => (viewAt s v).gaze.toNat
  | .glatch v => (viewAt s v).glatch.toNat
  | .vob v part => wordPart (vobValue s (viewAt s v)) part
  | .vrec v => (viewAt s v).vrec.toNat
  | .frtab n part => wordPart (Maps.get 0 s.io.frtab n).toNat part
  | .dmatab r => (Maps.get 0 s.io.dmatab r).toNat
  | .imsic _ => 0
  | .rtab i => (Maps.get 0 s.io.rtab i).toNat

/-- What a load of a device register returns (R18). -/
def devLoad (s : State) (pa size : Nat) : Nat :=
  if (size ≠ 4 ∧ size ≠ 8) ∨ pa % size ≠ 0 then 0
  else match regAt pa with
    | none => 0
    | some r => if size = 8 then readReg s r else if pa % 8 = 4 then readReg s r / 2 ^ 32 else readReg s r % 2 ^ 32

/-! Domain switches (R212, R398, R496). -/

/-- The requester's answer: done (0) or refused (1) (R398, R496). -/
def answerSwitch (x : DomSwitch) (refused : Bool) (s : State) : State :=
  match x.group with
  | some k => onGroup k (fun g => match g.waiting with
      | some (.domain d) => { g.setS d (if refused then 1 else 0) with waiting := none }
      | _ => g) s
  | none => onMem (fun m => { m with domRefused := refused }) s

/-- The next switches of the queue begun: those that are refused are over at once (R398). -/
def beginSwitches : Nat → State → State
  | 0, s => s
  | n + 1, s =>
    match s.mem.domSw, s.mem.domQueue with
    | none, x :: rest =>
      let s := onMem (fun m => { m with domQueue := rest }) s
      let v := withMcmask x.idw.toNat (idwOf s.mem x.k)
      if domainRefused s.mem x.k v x.hmask.toNat then beginSwitches n (answerSwitch x true s)
      else onMem (fun m => { m with domSw := some { x with idw := BitVec.ofNat 64 v, phase := 1 } }) s
    | _, _ => s

/-- A switch started through DOMSW, with the staged values (R496). -/
def startDomsw (k : Nat) (s : State) : State :=
  let m := s.mem
  let s := queueSwitch { k := k, idw := Maps.get 0 m.idws k, hmask := Maps.get 0 m.hmasks k, phase := 0, group := none }
    (onMem (fun m => { m with domReg := BitVec.ofNat 4 k }) s)
  beginSwitches s.mem.domQueue.length s

/-- Held writes of DOMSW let go on as long as none is in progress (R496). -/
def releaseDomsw : Nat → State → State
  | 0, s => s
  | n + 1, s =>
    match s.mem.domHeld with
    | k :: rest => if domBusy s.mem then s else releaseDomsw n (startDomsw k (onMem (fun m => { m with domHeld := rest }) s))
    | [] => s

/-- A write of DOMSW (R496). -/
def writeDomsw (w : Nat) (s : State) : State :=
  if domBusy s.mem then onMem (fun m => { m with domHeld := m.domHeld ++ [w % 16] }) s else startDomsw (w % 16) s

/-- Lines of the LLC that `p` picks written back and invalidated. -/
def flushLines (p : Nat → Bool) (m : Mem) : Mem :=
  { m.llc.foldl (fun n e => if p e.1 && e.2.dirty then writeLine e.1 e.2.data n else n) m with llc := m.llc.filter fun e => !p e.1 }

/-- Lines of the LLC that `p` picks invalidated, their stores lost. -/
def dropLlc (p : Nat → Bool) (m : Mem) : Mem := { m with llc := m.llc.filter fun e => !p e.1 }

/-- Does a line lie in the range that a switch takes its domain away from? -/
def inOldRange (m : Mem) (x : DomSwitch) (la : Nat) : Bool := domainOf m (64 * la) == some x.k

/-- Does a request at a slice still hold up phase 1 of a switch (R212)? -/
def switchWaits (s : State) (x : DomSwitch) : Bool :=
  s.mem.net.any fun e => e.2.space == .llc && (e.2.st == .conflict || e.2.st == .miss) && inOldRange s.mem x (e.2.pa / 64)

/-- One phase of a switch (R212): the old range's lines go; the new values hold; the slices accept again. -/
def switchPhase (x : DomSwitch) (s : State) : State :=
  if x.phase = 1 then
    onMem (fun m =>
      let m := flushLines (inOldRange m x) m
      { m with idw := Maps.put 0 m.idw x.k x.idw, hmask := Maps.put 0 m.hmask x.k x.hmask, domSw := some { x with phase := 2 } }) s
  else
    let s := answerSwitch x false (onMem (fun m => { m with domSw := none }) s)
    let s := beginSwitches s.mem.domQueue.length s
    releaseDomsw s.mem.domHeld.length s

/-- Is a phase of a switch due? -/
def switchDue (s : State) : Bool :=
  match s.mem.domSw with
  | some x => x.phase == 2 || !switchWaits s x
  | none => !s.mem.domQueue.isEmpty

/-- R212. A domain switch moves on: NACK and write back the old range, update the decoders, accept again; it ends by answering
0, or with 1 where it is refused. -/
def execDomainSwitchPhase (s : State) : Out :=
  if switchDue s then
    match s.mem.domSw with
    | some x => .next (switchPhase x s)
    | none => .next (beginSwitches s.mem.domQueue.length s)
  else .refused .notDue

/-- R496. A DOMSW write checks the staged values and starts the switch of domain k, or refuses it. -/
def execDomswWrite (w : BitVec 32) (s : State) : Out := .next (writeDomsw w.toNat s)

/-! Region control block invalidation (R67). -/

/-- A write of RCBINV while BUSY is clear. -/
def startRcbinv (d : Nat) (w : Word) (s : State) : State :=
  let c := bitsN w.toNat 31 20
  let h := w.toNat % 65536
  onDie d (fun x => { x with
    rcbinv := BitVec.ofNat 32 (c * 2 ^ 20 + (if x.rcbCache.contains (c, h) then 2 ^ 19 else 0) + h)
    rcbBad := x.rcbBad.filter (· != (c, h)) }) s

/-- A write of RCBINV (R67). -/
def writeRcbinv (d : Nat) (w : Word) (s : State) : State :=
  if rcbBusy (dieAt s d) then onDie d (fun x => { x with rcbinvHeld := x.rcbinvHeld ++ [w] }) s else startRcbinv d w s

/-- The held writes of RCBINV that go on, until one of them sets BUSY. -/
def releaseRcbinv (d : Nat) : Nat → State → State
  | 0, s => s
  | n + 1, s =>
    match (dieAt s d).rcbinvHeld with
    | w :: rest => if rcbBusy (dieAt s d) then s else releaseRcbinv d n (startRcbinv d w (onDie d (fun x => { x with rcbinvHeld := rest }) s))
    | [] => s

/-- The die pair holds no field of the named block any more: BUSY clears (R67). -/
def endRcbinv (d : Nat) (s : State) : State :=
  let v := (dieAt s d).rcbinv.toNat
  let s := onDie d (fun x => { x with
    rcbinv := BitVec.ofNat 32 (v - 2 ^ 19)
    rcbCache := x.rcbCache.filter (· != (bitsN v 31 20, v % 65536)) }) s
  releaseRcbinv d (dieAt s d).rcbinvHeld.length s

/-- R67. A write of RCBINV starts invalidation of the cached fields of the named region control block. -/
def execRcbinvWrite (die : BitVec 3) (w : BitVec 32) (s : State) : Out := .next (writeRcbinv die.toNat w s)

/-- R67. The die pair holds no cached field of the named block any more and BUSY clears, completing any held write. -/
def execRcbInvalidationDone (die : BitVec 3) (s : State) : Out :=
  if rcbBusy (dieAt s die.toNat) then .next (endRcbinv die.toNat s) else .refused .notDue

/-! Stores. -/

/-- A number with one of its words replaced. -/
def setPart (v part w : Nat) : Nat := v - wordPart v part * 2 ^ (64 * part) + w * 2 ^ (64 * part)

/-- The bits of a format window that can be written (R213). -/
def fwMask (v : Nat) : Nat :=
  bitsN v 255 252 * 2 ^ 252 + bitsN v 239 224 * 2 ^ 224 + bitsN v 221 192 * 2 ^ 192 + bitsN v 173 128 / 64 * 64 * 2 ^ 128 +
    bitsN v 109 64 / 64 * 64 * 2 ^ 64 + bitsN v 45 16 * 2 ^ 16

/-- Does a format window's view range hold a line? -/
def fwCovers (v la : Nat) : Bool := decide (bitsN v 45 16 * 1024 ≤ la) && decide (la < bitsN v 221 192 * 1024)

/-- A format window takes a value: every line of its old and its new view range leaves the LLC (R213). Whether stores that such
lines still hold reach HBM first is free (log entry 8). -/
def takeFw (mc k v : Nat) (s : State) : State :=
  let old := fwOf s.mem mc k
  let p (la : Nat) : Bool := controllerOf s.mem (64 * la) == mc && (fwCovers old la || fwCovers v la)
  let dirty := s.mem.llc.any fun e => p e.1 && e.2.dirty
  let (n, s) := if dirty then draw s else (0, s)
  onMem (fun m =>
    let m := if n % 2 = 0 then flushLines p m else dropLlc p m
    { m with fw := Maps.put 0 m.fw (16 * mc + k) (BitVec.ofNat 256 v) }) s

/-- A window's value with the lower words that have been written since its highest was, and its highest word (R18). -/
def fwStaged (m : Mem) (key w old : Nat) : Nat :=
  let lower := (List.range 3).foldl (fun v p => match Maps.find m.fwStage (4 * key + p) with
    | some x => setPart v p x.toNat
    | none => v) old
  fwMask (setPart lower 3 w)

/-- A write of a word of a format window; the window changes with its highest word, and words not written keep their values (R18, R213),
those of each controller's own window where the write is through the broadcast alias. -/
def writeFw (mc : Option Nat) (k part w : Nat) (s : State) : State :=
  let key := fwKey mc k
  if part < 3 then onMem (fun m => { m with fwStage := Maps.set m.fwStage (4 * key + part) (BitVec.ofNat 64 w) }) s
  else
    let new (old : Nat) : Nat := fwStaged s.mem key w old
    let s := onMem (fun m => { m with fwStage := m.fwStage.filter fun e => e.1 / 4 != key }) s
    match mc with
    | some i => takeFw i k (new (fwOf s.mem i k)) s
    | none =>
      let s := (List.range 24).foldl (fun s i => takeFw i k (new (fwOf s.mem i k)) s) s
      onMem (fun m => { m with fw := Maps.put 0 m.fw key (BitVec.ofNat 256 (new (Maps.get 0 m.fw key).toNat)) }) s

/-- R213. A write of a format window, directly or through the broadcast alias. -/
def execFwWrite (mc : Option (BitVec 5)) (k : BitVec 4) (part : BitVec 2) (w : BitVec 64) (s : State) : Out :=
  if (mc.map (·.toNat)).getD 0 < 24 then .next (writeFw (mc.map (·.toNat)) k.toNat part.toNat w.toNat s) else .refused .notDue

/-- A write of DSCTL (R89). -/
def writeDsctl (d : Nat) (w : Word) (s : State) : State :=
  let n := w.toNat
  let hres := if 9 ≤ n % 16 then 8 else n % 16
  onDie d (fun x => { x with dsctl := BitVec.ofNat 32 (bitsN n 19 4 * 16 + hres) }) s

/-- R89. A DSCTL write sets the co-resident hold time, the hearth view and the hearth reserve of the die. -/
def execDsctlWrite (die : BitVec 3) (w : BitVec 32) (s : State) : Out := .next (writeDsctl die.toNat w s)

/-- A write of NRBASE (R84). -/
def writeNrbase (d : Nat) (w : Dword) (s : State) : State :=
  let n := bitsN w.toNat 45 8 * 256 + w.toNat % 2
  let old := (dieAt s d).nrbase.toNat
  if bitN old 0 ∧ bitsN old 45 8 ≠ bitsN n 45 8 then s else onDie d (fun x => { x with nrbase := BitVec.ofNat 64 n }) s

/-- R84. An NRBASE write sets the notify ring base, size and enable. -/
def execNrbaseWrite (die : BitVec 3) (w : BitVec 64) (s : State) : Out := .next (writeNrbase die.toNat w s)

/-- The bits of a ring-table entry that can be written (R268). -/
def frMask (v : Nat) : Nat := bitsN v 127 96 * 2 ^ 96 + bitsN v 64 64 * 2 ^ 64 + bitsN v 45 12 * 2 ^ 12

/-- A write of a word of a ring-table entry (R18, R268). -/
def writeFrtab (n part w : Nat) (s : State) : State :=
  let staged : BitVec 128 := (Maps.find s.io.frStage n).getD (Maps.get 0 s.io.frtab n)
  let v := setPart staged.toNat part w
  if part = 0 then { s with io := { s.io with frStage := Maps.set s.io.frStage n (BitVec.ofNat 128 v) } }
  else { s with io := { s.io with
    frStage := Maps.del s.io.frStage n, frtab := Maps.put 0 s.io.frtab n (BitVec.ofNat 128 (frMask v)) } }

/-- What a store puts into a register: of control core `cc`, or of a group (16, log entry 18). -/
def writeReg (cc : Nat) (r : Reg) (n : Nat) (s : State) : State :=
  let w : Word := BitVec.ofNat 32 n
  let v : Dword := BitVec.ofNat 64 n
  match r with
  | .dsctl d => writeDsctl d w s
  | .rcbinv d => writeRcbinv d w s
  | .wtreplay d => writeWtreplay d v s
  | .nrbase d => writeNrbase d v s
  | .nrirq d => onDie d (fun x => { x with nrirq := BitVec.ofNat 32 (n % 65536) }) s
  | .dtrapbase d => onDie d (fun x => { x with dtrapbase := BitVec.ofNat 64 (n / 2 ^ 14 * 2 ^ 14) }) s
  | .embctl d => writeEmbctl d w s
  | .snapctl d => writeSnapctl d w s
  | .dspost d => writeDspost d cc v s
  | .thermctl d => writeThermctl d w s
  | .dctr d k => writeDctr d k cc v s
  | .fw mc k part => writeFw mc k part n s
  | .lc l x => if x = 0 then writeLcctl l w s else s
  | .ctxbase => { s with io := { s.io with ctxbase := BitVec.ofNat 64 (bitsN n 45 12 * 4096) } }
  | .ctxcmd => writeCtxcmd w s
  | .domsw => writeDomsw n s
  | .idws k => onMem (fun m => { m with idws := Maps.put 0 m.idws k v }) s
  | .hmasks k => onMem (fun m => { m with hmasks := Maps.put 0 m.hmasks k v }) s
  | .serclk => writeSerclk w s
  | .ltrctl => { s with display := { s.display with ltrctl := BitVec.ofNat 64 (n / 256 * 256) } }
  | .ltrirq => { s with display := { s.display with ltrirq := BitVec.ofNat 32 (n % 65536) } }
  | .gaze k => writeGaze k w s
  | .vob k part => writeVob k part v s
  | .vrec k => writeVrec k v s
  | .frtab k part => writeFrtab k part n s
  | .dmatab k => { s with io := { s.io with dmatab := Maps.put 0 s.io.dmatab k (BitVec.ofNat 64 (bitsN n 45 19 * 2 ^ 19 + n % 2)) } }
  | .rtab i => { s with io := { s.io with rtab := Maps.put 0 s.io.rtab i (BitVec.ofNat 64 (n % 256)) } }
  | .idw _ => s
  | .hmask _ => s
  | .scount => s
  | .glatch _ => s
  | .imsic _ => s

/-- The identity that a 32-bit write of an interrupt file's page names: little-endian at offset 0, big-endian at 4 (R17,
R40). -/
def fileIdentity (pa n : Nat) : Nat := if pa % 8 = 4 then Maps.leNat (Maps.natLe n 4).reverse else n

/-- A store to device register space (R18). -/
def devStore (cc pa size n : Nat) (s : State) : State :=
  if (size ≠ 4 ∧ size ≠ 8) ∨ pa % size ≠ 0 then s
  else match regAt pa with
    | none => s
    | some (.imsic f) => if size = 4 ∧ fileIdentity pa n < 4096 then setPending f (fileIdentity pa n) s else s
    | some r => if size = 4 ∧ (!r.narrow || pa % 8 == 4) = true then s else writeReg cc r n s

/-- Would a register hold a store (R18, R67, R73, R496)? -/
def devHolds (s : State) (pa size : Nat) : Bool :=
  (size == 4 || size == 8) && match regAt pa with
  | some (.rcbinv d) => rcbBusy (dieAt s d) && pa % 8 == 0
  | some (.dspost d) => size == 8 && storeFull s d
  | some .domsw => domBusy s.mem && pa % 8 == 0
  | _ => false

/-- Has a store of a register a row of its own in the opcode table? -/
def ownRow (r : Reg) (n : Nat) : Bool :=
  match r with
  | .dsctl _ => true
  | .rcbinv _ => true
  | .wtreplay _ => decide (bitsN n 63 62 ≠ 3)
  | .nrbase _ => true
  | .embctl _ => true
  | .snapctl _ => bitN n 2
  | .dspost _ => true
  | .thermctl _ => bitN n 0
  | .dctr _ _ => decide (bitsN n 63 62 = 1 ∨ bitsN n 63 62 = 2)
  | .fw _ _ _ => true
  | .lc _ x => x == 0
  | .ctxcmd => decide (bitsN n 25 24 ≠ 3)
  | .domsw => true
  | .serclk => true
  | .gaze _ => true
  | .vob _ _ => true
  | .vrec _ => true
  | _ => false

/-- Does the store take effect on a register whose row says so? -/
def otherRow (pa size n : Nat) : Bool :=
  isDev pa && (match regAt pa with
    | some r => !(ownRow r n && !(size == 4 && (!r.narrow || pa % 8 == 4)) && pa % size == 0)
    | none => true)

/-- R18. A store of a control core to any other device register, or to an offset that holds none. -/
def execDeviceRegisterWrite (pa : BitVec 46) (wide : Bool) (w : BitVec 64) (s : State) : Out :=
  let size := if wide then 8 else 4
  let n := if wide then w.toNat else w.toNat % 2 ^ 32
  if otherRow pa.toNat size n then .next (devStore 0 pa.toNat size n s) else .refused .notDue

end Sys2Proof.Machine
end

