-- ==== Sys2Proof/Machine/Requests.lean ====
section
/-! DEFINITION. Memory requests between issue and reply: the slices with their miss entries, conflict queues and NACKs (R202 to
R206, R212), what each operation does at its home point (R204, R217), uncorrectable errors (R58 to R60), accesses to other teams'
scratchpads (R200), device registers (R18), replies and late failures (R498). -/

namespace Sys2Proof.Machine

def onReq (i : Nat) (f : Req → Req) (s : State) : State := onMem (fun m => { m with net := Maps.modify m.net i f }) s

/-- A request answered by its slice, in its place among the slice's answers (R206). -/
def answerReq (i : Nat) (f : Req → Req) (s : State) : State :=
  let n := s.mem.nextId
  onReq i (fun r => { f r with seq := n }) (onMem (fun m => { m with nextId := n + 1 }) s)

/-- A request that its slice answers with a failure. -/
def failReq (i : Nat) (x : Reason) (v : Nat) (s : State) : State := answerReq i (fun r => { r with st := .failed x, val := BitVec.ofNat 128 v }) s

/-! Slices and banks. -/

/-- Requests of class hearth enter the conflict queue first (R203). -/
def reqHearth (s : State) (r : Req) : Bool := effClass s r.ctx r.region == 0

/-- The requests in a bank's conflict queue. -/
def bankQueue (s : State) (bank : Option Nat) : AMap Req :=
  s.mem.net.filter fun e => e.2.space == .llc && e.2.st == .conflict && bankOf s.mem e.2.pa == bank

/-- The lines of a bank with a miss entry. -/
def bankMisses (s : State) (bank : Option Nat) : Nat := (s.mem.missing.filter fun la => bankOf s.mem (64 * la) == bank).length

/-- The requests attached to a line's miss entry. -/
def attached (s : State) (la : Nat) : AMap Req := s.mem.net.filter fun e => e.2.space == .llc && e.2.st == .miss && e.2.pa / 64 == la

/-! Operations at the home point (R204, R217). -/

/-- Does an operation read its location? -/
def ReqOp.reads : ReqOp → Bool
  | .store => false
  | _ => true

/-- A residency bit changed: the word leaves the residency cache of every core that holds it or has loads on their way that
judged by it (R262). -/
def sendInvals (word k : Nat) (s : State) : State :=
  { s with cores := Maps.mapAll s.cores fun n c =>
      if (Maps.find c.resCache word).isSome || s.mem.net.any fun e => e.2.core == n && e.2.words.contains word then
        { c with resInval := c.resInval ++ [(word, k)] }
      else c }

/-- What a control core's atomic leaves (R39). -/
def ctlAtomNew (f : BitVec 4) (w v d : Nat) : Nat :=
  match f.toNat with
  | 0 => (v + d) % 2 ^ w
  | 1 => d
  | 2 => Nat.land v d
  | 3 => Nat.lor v d
  | 4 => Nat.xor v d
  | 5 => if signedN w v ≤ signedN w d then v else d
  | 6 => if signedN w v ≤ signedN w d then d else v
  | 7 => min v d
  | _ => max v d

/-- What a request does to `n` bytes whose value is `v`: the value it returns, and the new one if it writes. -/
def homeEffect (op : ReqOp) (v data : Nat) : Nat × Option Nat :=
  match op with
  | .store => (0, some data)
  | .atom o _ _ => (v, some (atomApply o v data))
  | .resbit on b => (v, some (if on then Nat.lor v (2 ^ b) else v - (if bitN v b then 2 ^ b else 0)))
  | .resq _ b _ => (if bitN v b then 1 else 0, none)
  | .ctlAtom f w => (v, some (ctlAtomNew f w v data))
  | _ => (v, none)

/-- The format window that drops what a request would write (R213, R214). -/
def dropsWrite (s : State) (r : Req) : Option Nat := if r.op.writes then viewOf s.mem r.pa else none

/-- A request performed at its slice, its line at hand. One that would write into a view of a format window that was set since it issued
does nothing, and fails (R196, R213). -/
def performAt (i : Nat) (r : Req) (s : State) : State :=
  if let some k := dropsWrite s r then failReq i .fwwrite k s
  else if r.op.reads && poisoned s.mem r.pa r.size then failReq i .poison 0 s
  else
    let (v, w) := homeEffect r.op (natAt s.mem r.pa r.size) r.data.toNat
    let s := match w with
      | some x => onMem (fun m => putNat m r.pa r.size x) s
      | none => s
    let s := match r.op with
      | .resbit _ _ => sendInvals (r.pa / 4) r.group s
      | _ => s
    let l : Line := match Maps.find s.mem.llc (r.pa / 64) with
      | some l => l.data
      | none => fillLine s.mem (r.pa / 64)
    answerReq i (fun r => { r with st := .done, val := BitVec.ofNat 128 v, line := some l }) s

/-! Arrival (R203). -/

/-- A request that misses: a miss entry is taken, or the entry of its line joined, or the conflict queue, if they have room. -/
def missAt (i : Nat) (r : Req) (s : State) : State :=
  let la := r.pa / 64
  let bank := bankOf s.mem r.pa
  if s.mem.missing.contains la then
    if (attached s la).length < 17 then onReq i (fun r => { r with st := .miss }) (onMem (countMiss r.pa) s)
    else onReq i (fun r => { r with st := .conflict }) s
  else if bankMisses s bank < 64 then
    onReq i (fun r => { r with st := .miss }) (onMem (fun m => countMiss r.pa { m with missing := m.missing ++ [la] }) s)
  else onReq i (fun r => { r with st := .conflict }) s

/-- A request at its bank, its line in the LLC or not (R58 to R60, R203). `hit`: it counts as a hit where the line is there, not having
missed before (R56). -/
def serveAt (hit : Bool) (i : Nat) (r : Req) (s : State) : State :=
  let la := r.pa / 64
  let counted (s : State) : State := if hit then onMem (countHit r.pa) s else s
  match Maps.find s.mem.llc la with
  | none => missAt i r s
  | some l =>
    match r.op.reads, errAt s.mem (.llc la) with
    | true, some .lasting =>
      let s := loseLine la l.dirty s
      if l.dirty then failReq i .ecc 2 s else missAt i r s
    | true, some _ => performAt i r (meetErr (.llc la) l.dirty false (counted s))
    | _, _ => performAt i r (counted s)

/-- Does a request wait behind others of its line (R203)? -/
def behind (s : State) (r : Req) : Bool :=
  s.mem.net.any fun e => e.2.space == .llc && e.2.st == .conflict && e.2.pa / 64 == r.pa / 64

/-- Would a request have to enter the conflict queue? -/
def mustQueue (s : State) (r : Req) : Bool :=
  let la := r.pa / 64
  behind s r || ((Maps.find s.mem.llc la).isNone &&
    (if s.mem.missing.contains la then decide (17 ≤ (attached s la).length) else decide (64 ≤ bankMisses s (bankOf s.mem r.pa))))

/-- Is a request to be NACKed DOMAIN (R212)? -/
def nackedDomain (s : State) (r : Req) : Bool :=
  match s.mem.domSw with
  | some x => inOldRange s.mem x (r.pa / 64)
  | none => false

/-- The flits of a request sent over its way (R22, R25). -/
def crossReq (r : Req) (s : State) : State := crossTo (reqWay s r) 2 s

/-- R203. A request reaches its slice. -/
def arriveReq (i : Nat) (s : State) : State :=
  let s := match Maps.find s.mem.net i with
    | some r => crossReq r s
    | none => s
  let s := onReq i (fun r => { r with order := s.mem.nextId }) (onMem (fun m => { m with nextId := m.nextId + 1 }) s)
  match Maps.find s.mem.net i with
  | none => s
  | some r =>
    if nackedDomain s r then onReq i (fun r => { r with st := .nackDomain }) (onMem (countNack r.pa) s)
    else if (domainOf s.mem r.pa).isNone then failReq i .nophys 0 s
    else if reqDead s r then onReq i (fun x => x.linkDown ((reqWay s r).deadLink s)) s
    else if mustQueue s r then
      if 16 ≤ (bankQueue s (bankOf s.mem r.pa)).length then
        onReq i (fun r => { r with st := .nackBusy (s.clock + 16) }) (onMem (countNack r.pa) s)
      else onReq i (fun r => { r with st := .conflict }) s
    else serveAt true i r s

/-- The state in a target's entry, 0 where the context is gone (R44, R96). -/
def relayState (s : State) (x : Send) : Nat := if ctxValid s x.ctx then tltState s x.ctx (rncHandle x.rnc) else 0

/-- The slice to which a send or message goes: the relay slice of its target's core, the home slice of an evicted team's save area, or for
another package that of the port's I/O die (R208, R278, R283). -/
def sendSlice (s : State) (x : Send) : Nat :=
  let here := dieSlice (dieOfCore x.inp)
  match x.remote, relayState s x with
  | some q, _ => dieSlice (8 + ((routeOf s q 2).map (·.toNat / 64)).getD 0)
  | none, 1 => relaySlice (tltCore s x.ctx (rncHandle x.rnc))
  | none, 2 => (sliceOf s.mem (tltTsa s x.ctx (rncHandle x.rnc))).getD here
  | none, _ => here

/-- The way of a send and of its status. From the relay slice to the core it stays within a die (R208). -/
def sendWay (s : State) (x : Send) : Way := { inp := x.inp, slice := x.slice.getD (sendSlice s x) }

/-- Does a request travel to a slice: its home, or a team's relay (R205, R208)? -/
def ReqSpace.toSlice : ReqSpace → Bool
  | .llc => true
  | .remote _ => true
  | _ => false

/-- Is a request held at its relay while a team moves (R200)? -/
def heldMove (s : State) (r : Req) : Bool := match r.space with
  | .remote h => tltMove s r.ctx h
  | _ => false

/-- Is an earlier request from the same input still to arrive at the slice, or to be sent again to the same line (R203, R206)? Those of
diverged paths are not ordered (R220). -/
def reqAhead (s : State) (i : Nat) (r : Req) : Bool :=
  s.mem.net.any fun e => decide (e.1 < i) && e.2.core == r.core && !(r.live && e.2.group == r.group && pathsApart s r.group e.1 i) &&
    ((e.2.space.toSlice && e.2.st == .flying && !heldMove s e.2 && (reqWay s e.2).slice == (reqWay s r).slice) ||
      (e.2.space == .llc && r.space == .llc && e.2.pa / 64 == r.pa / 64 && e.2.group == r.group && (match e.2.st with
        | .nackBusy _ => true
        | .nackDomain => true
        | _ => false)))

/-- Is an earlier send from the same input still to arrive at the slice (R206)? -/
def sendAhead (s : State) (i : Nat) (w : Way) : Bool :=
  s.sends.any fun e => decide (e.1 < i) && e.2.st == .atRelay && e.2.remote.isNone && !tltMove s e.2.ctx (rncHandle e.2.rnc) && sendWay s e.2 == w

/-- May a request reach its slice now? -/
def arriveDue (s : State) (i : Nat) : Bool :=
  match Maps.find s.mem.net i with
  | some r => r.space == .llc && r.st == .flying && (reqOpen s r || reqDead s r) && !reqAhead s i r && !sendAhead s i (reqWay s r)
  | none => false

/-- R203. A request reaches its slice and bank, is served, takes a miss entry, waits in the conflict queue, or is NACKed BUSY. -/
def execLlcRequest (req : Nat) (s : State) : Out := if arriveDue s req then .next (arriveReq req s) else .refused .notDue

/-! Misses filled. -/

/-- The requests of a list served in order of arrival, hearth first (R203). -/
def inOrder (s : State) (rs : AMap Req) : List Nat :=
  (sortBy (fun e => (if e.2.st = .conflict ∧ !reqHearth s e.2 then 2 ^ 64 else 0) + e.2.order) rs).map (·.1)

/-- The requests of a bank's conflict queue that can go on do so, in turn. -/
def drainQueue (bank : Option Nat) : Nat → State → State
  | 0, s => s
  | n + 1, s =>
    let can (e : Nat × Req) : Bool :=
      let la := e.2.pa / 64
      (Maps.find s.mem.llc la).isSome || (if s.mem.missing.contains la then decide ((attached s la).length < 17) else decide (bankMisses s bank < 64))
    match inOrder s ((bankQueue s bank).filter can) with
    | i :: _ => match Maps.find s.mem.net i with
      | some r => drainQueue bank n (serveAt true i r s)
      | none => s
    | [] => s

/-- The sectors with an error that are read of HBM for a line, a view's line by what its stored form and its scales need (R214). -/
def sectorErr (m : Mem) (la : Nat) : List (EccPlace × EccErr) :=
  m.errs.filter fun e => match e.1 with
    | .hbm sec => sectorRead m (64 * la) 64 sec
    | _ => false

/-- A request attached to a miss whose line has a lasting error in HBM, or is to be decoded from poisoned bytes: a read fails, a store is
made there (R60, R214). -/
def failFill (ecc : Bool) (s : State) (i : Nat) : State :=
  match Maps.find s.mem.net i with
  | none => s
  | some r =>
    if r.op.reads then failReq i (if ecc then .ecc else .poison) (if ecc then 3 else 0) s
    else performAt i r s

/-- Is a view's line to be decoded from poisoned bytes (R214)? -/
def viewPoison (m : Mem) (la : Nat) : Bool := (viewOf m (64 * la)).isSome && poisoned m (64 * la) 64

/-- R203. A miss entry's read completes: the line is filled and the attached requests are served in their order. -/
def fillMiss (la : Nat) (s : State) : State :=
  let rs := inOrder s (attached s la)
  let bank := bankOf s.mem (64 * la)
  let errs := sectorErr s.mem la
  let s := onMem (fun m => countFill la { m with missing := m.missing.filter (· != la) }) s
  let s := errs.foldl (fun s e => meetErr e.1 false true s) s
  let s :=
    if errs.any (fun e => e.2 == .lasting) || viewPoison s.mem la then rs.foldl (failFill (errs.any fun e => e.2 == .lasting)) s
    else
      rs.foldl (fun s i => match Maps.find s.mem.net i with
        | some r => serveAt false i r s
        | none => s) (fillLlc la (fillLine s.mem la) s)
  drainQueue bank (s.mem.net.length + 1) s

def execLlcMissFill (line : Nat) (s : State) : Out := if s.mem.missing.contains line then .next (fillMiss line s) else .refused .notDue

/-! NACKs (R203, R212). -/

/-- May a request NACKed BUSY be sent again? -/
def resendDue (s : State) (r : Req) : Bool :=
  match r.st with
  | .nackBusy t => decide (t ≤ s.clock)
  | _ => false

/-- R203. A requester resends a BUSY-NACKed request after 16 clocks. -/
def execNackResend (req : Nat) (s : State) : Out :=
  match Maps.find s.mem.net req with
  | some r => if resendDue s r then .next (onReq req (fun r => { r with st := .flying }) s) else .refused .notDue
  | none => .refused .notDue

/-- May a request NACKed DOMAIN be sent to its new slice? -/
def domResendDue (s : State) (r : Req) : Bool := r.st == .nackDomain && s.mem.domSw.isNone

/-- R212. A requester resends a DOMAIN-NACKed request to its new slice, or fails it where no domain holds the address. -/
def execDomainNackResend (req : Nat) (s : State) : Out :=
  match Maps.find s.mem.net req with
  | some r =>
    if domResendDue s r then
      .next (onReq req (fun r => { r with st := if (domainOf s.mem r.pa).isSome then .flying else .failed .nophys }) s)
    else .refused .notDue
  | none => .refused .notDue

/-! Other teams' scratchpads (R200). -/

/-- Is an earlier access of a group to a handle still to be made (R209)? -/
def accessBefore (s : State) (i k h : Nat) : Bool :=
  s.mem.net.any fun e => decide (e.1 < i) && e.2.group == k && e.2.space == .remote h && e.2.st == .flying

/-- Is an earlier send or message of a group to a handle still short of a stage (R209, R281)? -/
def sendBefore (s : State) (i k h : Nat) (p : SendSt → Bool) : Bool :=
  s.sends.any fun e => decide (e.1 < i) && e.2.group == k && e.2.remote.isNone && rncHandle e.2.rnc == h && p e.2.st

/-- A send without its reply. -/
def SendSt.unanswered : SendSt → Bool
  | .replied _ => false
  | _ => true

/-- Does earlier traffic of the group to the same handle stand in the way (R200, R209)? -/
def remoteBlocked (s : State) (i h : Nat) (r : Req) : Bool := accessBefore s i r.group h || sendBefore s i r.group h SendSt.unanswered

/-- The handle of an access to another team's scratchpad that may be made now: held while a move is on (R200). -/
def remoteDue (s : State) (i : Nat) : Option (Nat × Req) :=
  match Maps.find s.mem.net i with
  | some r => match r.space with
    | .remote h =>
      if r.st == .flying && reqOpen s r && !tltMove s r.ctx h && !remoteBlocked s i h r && !reqAhead s i r && !sendAhead s i (reqWay s r) then some (h, r)
      else none
    | _ => none
  | none => none

/-- An access made where the team's scratchpad stands; one that finds no team, or no such bytes, fails late. -/
def remoteMade (i h : Nat) (r : Req) (s : State) : State :=
  let failed (x : Reason) : State := failReq i x 0 s
  let done (v : Nat) (s : State) : State := answerReq i (fun r => { r with st := .done, val := BitVec.ofNat 128 v }) s
  match remoteSize s r.ctx h with
  | none => failed .noteam
  | some n =>
    if n < r.pa + r.size then failed .scrbound
    else if tltState s r.ctx h = 1 then
      let (v, w) := homeEffect r.op (scrRead (teamAt s h) r.pa r.size) r.data.toNat
      done v (match w with
        | some x => onTeam h (scrWrite r.pa r.size x) s
        | none => s)
    else
      let pa := tltTsa s r.ctx h + 0x140000 + r.pa
      if r.op.reads && poisoned s.mem pa r.size then failed .poison
      else
        let (v, w) := homeEffect r.op (natAt s.mem pa r.size) r.data.toNat
        done v (match w with
          | some x => onMem (fun m => putNat m pa r.size x) s
          | none => s)

/-! Replies. -/

/-- Does an earlier access of the group to the same block of registers stand in the way (R18)? -/
def devBlocked (s : State) (i : Nat) (r : Req) : Bool :=
  s.mem.net.any fun e => decide (e.1 < i) && e.2.space == .dev && e.2.group == r.group && e.2.pa / 2 ^ 24 == r.pa / 2 ^ 24

/-- Does a post of a control core that a die's full card store holds keep its access to the same block back (R81)? -/
def postHeld (s : State) (cc d : Nat) : Bool := (dieAt s d).posts.any fun p => p.held && p.region.isNone && p.rank == 200000 + cc

/-- The control core that makes a request. -/
def Req.ctl (r : Req) : Option Nat := if 200 ≤ r.core ∧ r.core < 216 then some (r.core - 200) else none

/-- May a device register access be made now (R18)? A store that its register holds waits. -/
def devDue (s : State) (i : Nat) (r : Req) : Bool :=
  r.space == .dev && r.st == .flying && reqOpen s r && !devBlocked s i r && !(r.op == .store && devHolds s r.pa r.size) &&
    !(match r.ctl with
      | some k => postHeld s k ((r.pa - devBase) / 2 ^ 24)
      | none => false)

/-- Has a request's slice answered it: with what it asked for, or that it fails? -/
def ReqSt.answered : ReqSt → Bool
  | .done => true
  | .failed x => x != .linkdown
  | _ => false

/-- Does an earlier reply of the slice to the input stand in the way: of a request to the slice, or to the line, that it answered before
(R206)? -/
def replyBlocked (s : State) (r : Req) : Bool :=
  r.space.toSlice && s.mem.net.any fun e =>
    e.2.space.toSlice && e.2.st.answered && e.2.core == r.core && decide (e.2.seq < r.seq) &&
      ((reqWay s e.2).slice == (reqWay s r).slice || (e.2.space == .llc && r.space == .llc && e.2.pa / 64 == r.pa / 64))

def replyDue (s : State) (i : Nat) : Bool :=
  match Maps.find s.mem.net i with
  | some r => devDue s i r || (r.st == .done && reqOpen s r && !replyBlocked s r) || ((r.st == .flying || r.st == .done) && reqDead s r)
  | none => false

/-- The record of a supervisor group's store to DSPOST or to a counter of a die pair held in thermal reset: it goes to the domain of the
group's region (R38). -/
def heldSeq (r : Req) (s : State) : Option FaultRec :=
  let v := r.data.toNat
  let gone (d addr : Nat) : Option FaultRec :=
    if r.ctl.isNone && (dieAt s d).heldReset && r.size == 8 && r.pa % 8 == 0 then
      some (unitRecord d .thermal r.ctx r.region (BitVec.ofNat 64 addr) d false)
    else none
  match regAt r.pa with
  | some (.dspost d) => gone d (bitsN v 45 6 * 64)
  | some (.dctr d _) => if bitsN v 63 62 = 1 ∨ bitsN v 63 62 = 2 then gone d 0 else none
  | _ => none

/-- A register access made (R18). The rule speaks of loads and stores alone: that an atomic gets the register's value and writes nothing is
a DESIGN CHOICE (log entry 18). -/
def devAccess (i : Nat) (r : Req) (s : State) : State :=
  match r.op with
  | .store => match heldSeq r s with
    | some f => record f.die f s
    | none => devStore (r.ctl.getD 16) r.pa r.size r.data.toNat s
  | _ => onReq i (fun x => { x with val := BitVec.ofNat 128 (devLoad s r.pa r.size) }) s

/-- A lane's sample with one texel more; complete, it is written (R419). -/
def texelIn (n i v : Nat) (bad : Bool) (s : State) : State :=
  match Maps.find s.samples n with
  | none => s
  | some p =>
    let p := { p with texels := Maps.set p.texels i v, failed := p.failed || bad }
    if p.texels.length = p.need then
      onGroup p.group (fun g => g.setLaneWords p.reg p.lane p.result) { s with samples := Maps.del s.samples n }
    else { s with samples := Maps.set s.samples n p }

/-- The value of a request in its group's registers (R319, R410, R412, R420). -/
def landValue (r : Req) (v : Nat) (bad : Bool) (s : State) : State :=
  match r.op with
  | .load d code => onGroup r.group (fun g => g.setLaneWords d r.lane (loadWords code v)) s
  | .uload d => onGroup r.group (fun g => g.setScalars d (loadWords (if r.size = 16 then 6 else if r.size = 8 then 5 else 4) v)) s
  | .atom o ret d => if ret then onGroup r.group (atomRet o d r.lane v) s else s
  | .resq d _ _ => onGroup r.group (fun g => g.setLane d r.lane (BitVec.ofNat 32 v)) s
  | .texel n i => texelIn n i v bad s
  | _ => s

/-- What a reply does to its core's L1 (R201): a load's line is kept unless it was invalidated meanwhile, a store updates a line that
it hits, the line of an atomic or of a residency operation goes. -/
def landLine (r : Req) (s : State) : State :=
  let la := r.pa / 64
  if r.space ≠ .llc then s
  else match r.op with
  | .store =>
    match Maps.find (coreAt s r.core).l1 la with
    | some l =>
      let l' := ((Maps.natLe r.data.toNat r.size).zip (List.range r.size)).foldl (fun l e => setLineByte l (r.pa % 64 + e.2) e.1) l
      if (viewOf s.mem r.pa).isSome then s else onCore r.core (fun c => { c with l1 := Maps.set c.l1 la l' }) s
    | none => s
  | .atom _ _ _ => onCore r.core (fun c => { c with l1 := Maps.del c.l1 la }) s
  | .resbit _ _ => onCore r.core (fun c => { c with l1 := Maps.del c.l1 la }) s
  | .resq _ _ _ => onCore r.core (fun c => { c with l1 := Maps.del c.l1 la }) s
  | _ =>
    match r.fill, r.line with
    | true, some l => fillL1 r.core la l s
    | _, _ => s

/-- The flue filter cleared after the last read of a `resq` with `clear` (R420). -/
def landClear (r : Req) (s : State) : State :=
  match r.op with
  | .resq _ _ true =>
    if s.mem.net.any fun e => e.2.group == r.group && (match e.2.op with
      | .resq _ _ c => c
      | _ => false) then s else clearFlues r.core s
  | _ => s

/-- Does a control core's access return a value? -/
def ReqOp.returns : ReqOp → Bool
  | .load _ _ => true
  | .ctlAtom _ _ => true
  | _ => false

/-- What a load or atomic returns to a control core, by its number (R39). -/
def landCtl (i : Nat) (r : Req) (v : Nat) (s : State) : State :=
  match r.ctl, r.op.returns with
  | some k, true => { s with ctl := Maps.modify s.ctl k fun c => { c with loads := Maps.set c.loads i v } }
  | _, _ => s

/-- What goes back to another package whose request has been served, with a status (R28). -/
def landFar (r : Req) (code v : Nat) (s : State) : State :=
  match r.origin with
  | some (q, id) => queueMsg q 1 (.reply id code (BitVec.ofNat 128 v)) s
  | none => s

/-- A request gone from the network, its registers released. -/
def endReq (i : Nat) (r : Req) (s : State) : State :=
  let s := onMem (fun m => { m with net := Maps.del m.net i }) s
  if r.live then onGroup r.group (fun g => g.release i) s else s

/-- An access at its relay. One of a context destroyed meanwhile ends there, with status bad capability for another package's (R44). -/
def remoteAccess (i h : Nat) (r : Req) (s : State) : State :=
  let s := crossReq r s
  if ctxValid s r.ctx then remoteMade i h r s
  else if r.origin.isSome then endReq i r (landFar r 4 0 s)
  else failReq i .noteam 0 s

/-- R200. An access of tag 0xFD is relayed: performed at the target core or on the save area, held during a move, or failed. -/
def execRemoteScratchAccess (req : Nat) (s : State) : Out :=
  match remoteDue s req with
  | some (h, r) => .next (remoteAccess req h r s)
  | none => .refused .notDue

/-- A reply at the core. -/
def reply (i : Nat) (s : State) : State :=
  let s := match Maps.find s.mem.net i with
    | some r => if r.space = .dev then devAccess i r (crossReq r s) else s
    | none => s
  match Maps.find s.mem.net i with
  | none => s
  | some r =>
    let s := landLine r (crossBack (reqWay s r) s)
    let s := landFar r 0 r.val.toNat (landCtl i r r.val.toNat s)
    let s := if r.live then landValue r r.val.toNat false s else s
    landClear r (endReq i r s)

/-- A reply at the core, or what comes in its stead where the way between the two is down (R32). -/
def replyOrDown (i : Nat) (s : State) : State :=
  match Maps.find s.mem.net i with
  | some r => if reqDead s r then onReq i (fun x => x.linkDown ((reqWay s r).deadLink s)) s else reply i s
  | none => s

/-- R419, R201, R498. A reply or acknowledgement returns to its core and clears the pending state of its registers. -/
def execMemoryReply (req : Nat) (s : State) : Out := if replyDue s req then .next (replyOrDown req s) else .refused .notDue

/-! Late failures (R498). -/

/-- The lanes that a request stands for. -/
def reqMask (r : Req) : Word := match r.op with
  | .uload _ => r.data.setWidth 32
  | _ => laneMask r.lane

/-- The record of a late failure: the group's while it is there, else what the request knows. -/
def lateRecordOf (s : State) (r : Req) (x : Reason) : FaultRec :=
  let info := match r.space with
    | .remote h => if x = .noteam then h else if x = .linkdown then r.val.toNat else 0
    | _ => if x = .ecc ∨ x = .linkdown ∨ x = .fwwrite then r.val.toNat else 0
  let addr : Dword := if x = .nophys then BitVec.ofNat 64 r.pa else r.va
  if r.live && (Maps.find s.groups r.group).isSome then groupRecord s r.group 6 x (reqMask r) (groupOf s r.group).pc addr info
  else if r.core < 192 then
    { cause := 6, reason := x, ctx := r.ctx, region := r.region, die := dieOfCore r.core, core := r.core % 24
      team := BitVec.ofNat 32 (2 ^ 31 + indexOf r.group * 2 ^ 20 + handleOf r.group), mask := reqMask r, addr := addr, info := BitVec.ofNat 32 info }
  else { unitRecord (dieOfCore r.core) x r.ctx 0 addr info true with core := r.ctl.getD 0xFF }

/-- A failed request's end: zero in its lanes, a record, ACCESS at the group's next chain boundary. A prefetch just ends. -/
def failLate (i : Nat) (r : Req) (x : Reason) (s : State) : State :=
  if r.op = .prefetch then endReq i r s
  else
    let f := lateRecordOf s r x
    let s := record f.die f s
    let here := r.live && (Maps.find s.groups r.group).isSome
    let m := reqMask r
    let s := if here then
        keepAddrs r.group m ((lanesOf m).map fun l => (l, r.va))
          (onGroup r.group (fun g => { g with late := some (g.late.getD 0 ||| m) }) (landValue r 0 true s))
      else s
    landClear r (endReq i r (landFar r x.code 0 (landCtl i r 0 s)))

/-- A failure that comes back to its input: a slice's answers come in their order (R206), one that its way has ended comes at once (R32). -/
def lateDue (s : State) (i : Nat) : Option (Req × Reason) :=
  match Maps.find s.mem.net i with
  | some r => match r.st with
    | .failed x => if x = .linkdown ∨ reqDead s r ∨ (reqOpen s r && !replyBlocked s r) = true then some (r, x) else none
    | _ => none
  | none => none

/-- R498. A failure found after issue gives zero to the failing lanes, writes a record and raises ACCESS. -/
def execLateFailure (req : Nat) (s : State) : Out :=
  match lateDue s req with
  | some (r, x) => .next (failLate req r x (if r.st.answered then crossBack (reqWay s r) s else s))
  | none => .refused .notDue

/-! Core stores (R60). -/

/-- R60. The control complex resets a core that refuses new teams, so that it accepts teams again. -/
def execCoreReset (core : Nat) (s : State) : Out :=
  if (coreAt s core).refusing then .next (onCore core (fun c => { c with refusing := false }) s) else .refused .notDue

/-- The error that the next read of a team's registers or scratchpad meets: a lasting one kills the team and leaves its core
refusing new teams; none where there is no error to kill it. -/
def coreStoreError (k : Nat) (s : State) : Option State × State :=
  let h := handleOf k
  let p : EccPlace := .store h
  match errAt s.mem p with
  | none => (none, s)
  | some .single => (none, meetErr p false false s)
  | some .transient => (none, meetErr p false false s)
  | some .lasting =>
    let t := teamAt s h
    let s := meetErr p false false s
    let r := groupRecord s k 0 .ecc 0 0 0 5
    let s := record r.die r (onCore t.core (fun c => { c with refusing := true }) s)
    (some (killTeam h s), s)

end Sys2Proof.Machine
end

