-- ==== Sys2Proof/Machine/Xfm.lean ====
section
/-! DEFINITION. The transform pipe (R457 to R463): results computed from sources read at issue, and their reply. -/

namespace Sys2Proof.Machine

/-- The events of the elements that are written. -/
def evSum (es : List Num.Ev) : Num.Ev := es.foldl Num.Ev.add {}

/-- A transform word: its register ranges, and the writes (register × 32 + lane) and events that its reply brings. -/
def xfmWord (x : Bool) (df af : BitVec 7) (nd na : Nat) (readsD ok : Bool) (f : Nat → Nat → List (Nat × Word) × Num.Ev)
    (g : Group) (s : State) : WordOut :=
  let base := regWord s g x [vr x df g nd 1] (vr x af g na 1 :: (if readsD then [vr x df g 1 1] else []))
  { base with
    raises := legal ok g ++ base.raises
    effect := fun s =>
      let (id, s) := freshId s
      let (ws, ev) := f (ea x df g) (ea x af g)
      charge g.tag ev (onCur (fun live => live.mark ((List.range nd).map fun i => .vec (ea x df g + i)) id)
        { s with xfms := Maps.set s.xfms id { group := s.cur, writes := ws } }) }

/-! Elements (R457). -/

/-- The type code's format, elements per lane, and element bits. -/
def xfmFmt (t : Nat) : Num.Fmt := if t = 0 then Num.f32 else if t = 1 then Num.bf16 else Num.f16
def xfmE (t : Nat) : Nat := if t = 0 then 16 else 32

/-- Element `e` of lane `l` of registers from `a`, inactive lanes zero. -/
def xfmElem (g : Group) (a t l e : Nat) : Nat :=
  if !g.on l then 0
  else if t = 0 then (g.v (a + e) l).toNat
  else (g.v (a + e / 2) l).toNat / 2 ^ (16 * (e % 2)) % 2 ^ 16

/-- Every element, by group index. -/
def xfmAll (g : Group) (a t : Nat) : List Nat :=
  (List.range (32 * xfmE t)).map fun i => xfmElem g a t (i / xfmE t) (i % xfmE t)

/-- Elements of a width packed into words, lowest first. -/
def packWords (width : Nat) (xs : List Nat) (n : Nat) : List Word :=
  let v := (xs.zip (List.range xs.length)).foldl (fun a x => a + x.1 * 2 ^ (width * x.2)) 0
  (List.range n).map fun i => BitVec.ofNat 32 (v / 2 ^ (32 * i))

/-- The writes of a lane's words from register `d`. -/
def laneWrites (d l : Nat) (ws : List Word) : List (Nat × Word) := (ws.zip (List.range ws.length)).map fun w => ((d + w.2) * 32 + l, w.1)

/-- Results by lane, for the active lanes. -/
def perLane (g : Group) (d : Nat) (f : Nat → List Word × Num.Ev) : List (Nat × Word) × Num.Ev :=
  let rs := (lanesOf g.active).map fun l => (l, f l)
  (rs.flatMap fun r => laneWrites d r.1 r.2.1, evSum (rs.map (·.2.2)))

/-! Hadamard (R458). -/

/-- A value times 1/√n, for n = 16, 32 or 64. -/
def hadScale (n : Nat) (v : Num.FV) : Num.FV :=
  match v with
  | .fin s m e =>
    if n = 16 then .fin s m (e - 2)
    else if n = 64 then .fin s m (e - 3)
    else match Num.sqrt (.fin false (m * m) (2 * e - 5)) with
      | .fin _ m e => .fin s m e
      | v => v
  | v => v

/-- Output `i` of a block of n values. -/
def hadOut (n : Nat) (xs : List Num.FV) (i : Nat) : Num.FV :=
  let ts := (xs.zip (List.range n)).map fun x => if popN 6 (Nat.land i x.2) % 2 = 1 then Num.neg x.1 else x.1
  match ts with
  | [] => Num.zero
  | t :: rest => hadScale n (rest.foldl (Num.add .rne) t)

/-- A block transformed: bits and events. -/
def hadBlock (f : Num.Fmt) (n : Nat) (xs : List Nat) : List (Nat × Num.Ev) :=
  let vs := xs.map (Num.decode f)
  let anyNan := vs.any Num.isNan
  let infs (s : Bool) : Bool := vs.any fun v => v == .inf s
  (List.range n).map fun i =>
    let y := if anyNan || (infs true && infs false) then .nan else hadOut n vs i
    (Num.packRne f y, { nan := if Num.isNan y && !anyNan then 1 else 0 })

/-- A list cut into pieces of n. -/
def pieces {α : Type} (n : Nat) (xs : List α) : List (List α) := (List.range (xs.length / n)).map fun i => (xs.drop (n * i)).take n

def hadWord (n : Nat) (x : Bool) (d a : BitVec 7) (m : BitVec 6) : Group → State → WordOut := fun g =>
  let t := m.toNat % 4
  xfmWord x d a 16 16 false (hadOk m) (fun d a =>
    let ys := (pieces n (xfmAll g a t)).flatMap (hadBlock (xfmFmt t) n)
    let e := xfmE t
    perLane g d fun l =>
      let mine := (ys.drop (l * e)).take e
      (packWords (512 / e) (mine.map (·.1)) 16, evSum (mine.map (·.2)))) g

/-- R458. 16-point Hadamard transform on the transform pipe. -/
def execHad16 (_c x : Bool) (d a : BitVec 7) (m : BitVec 6) (s : State) : Out := issue (hadWord 16 x d a m) s

/-- R458. 32-point Hadamard transform. -/
def execHad32 (_c x : Bool) (d a : BitVec 7) (m : BitVec 6) (s : State) : Out := issue (hadWord 32 x d a m) s

/-- R458. 64-point Hadamard transform. -/
def execHad64 (_c x : Bool) (d a : BitVec 7) (m : BitVec 6) (s : State) : Out := issue (hadWord 64 x d a m) s

/-! Block maxima (R459). -/

def absmaxBlock (f : Num.Fmt) (xs : List Nat) : Word :=
  BitVec.ofNat 32 (Num.packRne Num.f32 (((xs.map (Num.decode f)).filter (!Num.isNan ·)).foldl Num.maxAbs Num.zero))

def absmaxWord (x : Bool) (d a : BitVec 7) (m : BitVec 6) : Group → State → WordOut := fun g =>
  let t := m.toNat % 4
  let n := 8 * 2 ^ (m.toNat / 4 % 4)
  let e := xfmE t
  let r := max 1 (e / n)
  xfmWord x d a r 16 false (absmaxOk m) (fun d a =>
    let bs := (pieces n (xfmAll g a t)).map (absmaxBlock (xfmFmt t))
    perLane g d fun l => ((List.range r).map fun i => (bs[(l * e + i * n) / n]?).getD 0, {})) g

/-- R459. Block absolute maxima. -/
def execAbsmax (_c x : Bool) (d a : BitVec 7) (m : BitVec 6) (s : State) : Out := issue (absmaxWord x d a m) s

/-! Narrowing (R460). -/

/-- Is a scale positive, finite and normal? -/
def scaleOk (s : Nat) : Bool := decide (0x00800000 ≤ s) && decide (s ≤ 0x7F7FFFFF)

/-- How element `e` of a lane rounds. -/
def quantHow (sr : Bool) (g : Group) (l e : Nat) : Num.Nar :=
  if sr then .sr ((Nat.repeat Num.lfsrStep (e + 1) (g.gen l)) / 2 ^ 16) else .mode .rne

def quantE4m3 (sr : Bool) (g : Group) (l : Nat) (f : Num.Fmt) (s : Nat) (xs : List Nat) : List (Nat × Num.Ev) :=
  (xs.zip (List.range xs.length)).map fun x =>
    if scaleOk s then Num.narrow Num.e4m3 (quantHow sr g l x.2) false false (Num.div (Num.decode f x.1) (Num.decode Num.f32 s))
    else (Num.e4m3.nan, { nan := 1 })

/-- A lane narrowed to block-scaled E2M1: block scales, codes, events. With a bad scale every element is a NaN of its own (R460). -/
def quantE2m1 (sr : Bool) (g : Group) (l : Nat) (f : Num.Fmt) (s : Nat) (xs : List Nat) : List Nat × List Nat × Num.Ev :=
  let bs := (pieces 8 xs).zip (List.range (xs.length / 8))
  let rs := bs.map fun b =>
    if scaleOk s then Num.narrowBlock (Num.decode Num.f32 s) true (b.1.map (Num.decode f)) fun i => quantHow sr g l (8 * b.2 + i)
    else (0xFF, b.1.map fun _ => 0, { nan := b.1.length })
  (rs.map (·.1), rs.flatMap (·.2.1), evSum (rs.map (·.2.2)))

/-- The active lanes' generators after `n` steps each, on from where the chain's other words have left them (R246, R247). -/
def stepLanes (n : Nat) (g live : Group) : Group :=
  (lanesOf g.active).foldl (fun v l => v.setGen l (Nat.repeat Num.lfsrStep n (live.gen l))) live

def quantWord (x : Bool) (d a : BitVec 7) (m : BitVec 6) (g : Group) (s : State) : WordOut :=
  let t := m.toNat % 4
  let e2 := m.getLsbD 2
  let sr := m.getLsbD 3
  let e := xfmE t
  let w := xfmWord x d a (if e2 then e / 8 + 1 else e / 4) 16 true (quantOk m) (fun d a =>
    perLane g d fun l =>
      let xs := (List.range e).map (xfmElem g a t l)
      let sc := (g.v d l).toNat
      if e2 then
        let (bs, cs, ev) := quantE2m1 sr g l (xfmFmt t) sc xs
        (packWords 4 cs (e / 8) ++ packWords 8 bs 1, ev)
      else
        let rs := quantE4m3 sr g l (xfmFmt t) sc xs
        (packWords 8 (rs.map (·.1)) (e / 4), evSum (rs.map (·.2)))) g s
  { w with effect := fun s => (if sr then onCur (stepLanes e g) else id) (w.effect s) }

/-- R460. Quantise to E4M3 or block E2M1 by a scale. -/
def execQuant (_c x : Bool) (d a : BitVec 7) (m : BitVec 6) (s : State) : Out := issue (quantWord x d a m) s

/-! The bitmap-sparse encoding (R250, R461). -/

/-- The elements of a lane's 64-byte unit. -/
def unitElems (g : Group) (a w l : Nat) : List Nat :=
  let v := laneData g a l 16
  (List.range (512 / w)).map fun i => v / 2 ^ (w * i) % 2 ^ w

def bmencLane (g : Group) (a w l : Nat) : List Word :=
  let es := unitElems g a w l
  packWords w (es.filter (· != 0)) 16 ++ packWords 1 (es.map fun e => if e = 0 then 0 else 1) (512 / w / 32)

def bmdecLane (g : Group) (a w l : Nat) : List Word :=
  let packed := laneData g a l 16
  let bitmap := laneData g (a + 16) l (512 / w / 32)
  packWords w ((List.range (512 / w)).map (unitElem w bitmap packed)) 16

def bmWidth (m : BitVec 6) : Nat := 4 * 2 ^ (m.toNat % 4)

def bmencWord (x : Bool) (d a : BitVec 7) (m : BitVec 6) : Group → State → WordOut := fun g =>
  let w := bmWidth m
  xfmWord x d a (16 + 512 / w / 32) 16 false (bmOk m) (fun d a => perLane g d fun l => (bmencLane g a w l, {})) g

def bmdecWord (x : Bool) (d a : BitVec 7) (m : BitVec 6) : Group → State → WordOut := fun g =>
  let w := bmWidth m
  xfmWord x d a 16 (16 + 512 / w / 32) false (bmOk m) (fun d a => perLane g d fun l => (bmdecLane g a w l, {})) g

/-- R461. Encode a bitmap-sparse unit. -/
def execBmenc (_c x : Bool) (d a : BitVec 7) (m : BitVec 6) (s : State) : Out := issue (bmencWord x d a m) s

/-- R461. Decode a bitmap-sparse unit. -/
def execBmdec (_c x : Bool) (d a : BitVec 7) (m : BitVec 6) (s : State) : Out := issue (bmdecWord x d a m) s

/-! Scans (R462). -/

/-- One step of a scan: the value so far and the next element. -/
def scanStep (op a b : Nat) : Nat :=
  match op with
  | 0 => (a + b) % 2 ^ 32
  | 1 => (Num.bin Num.f32 .rne false (Num.add .rne) a b).1
  | _ => max a b

/-- Is an element a NaN of a scan of FP32 values? -/
def scanNan (op x : Nat) : Bool := op == 1 && Num.isNan (Num.decode Num.f32 x)

/-- The inclusive scan of a list, from the value before it and whether a NaN was among its sources: a NaN that comes of none is
counted (R253). -/
def scanFrom (op a : Nat) (sn : Bool) : List Nat → List (Nat × Num.Ev)
  | [] => []
  | x :: xs =>
    let sn := sn || scanNan op x
    let y := scanStep op a x
    (y, { nan := if scanNan op y && !sn then 1 else 0 }) :: scanFrom op y sn xs

/-- The inclusive scan: the first element stands, a NaN made canonical. -/
def scanAll (op : Nat) (xs : List Nat) : List (Nat × Num.Ev) :=
  match xs with
  | [] => []
  | x :: rest =>
    let y := if scanNan op x then Num.f32.nan else x
    (y, {}) :: scanFrom op y (scanNan op x) rest

def pscanWord (x : Bool) (d a : BitVec 7) (m : BitVec 6) : Group → State → WordOut := fun g =>
  let op := m.toNat % 4
  let c := m.toNat / 4 + 1
  xfmWord x d a c c false (pscanOk m) (fun d a =>
    let ys := scanAll op ((List.range (32 * c)).map fun i => xfmElem g a 0 (i / c) (i % c))
    perLane g d fun l =>
      let mine := (ys.drop (l * c)).take c
      (mine.map fun y => BitVec.ofNat 32 y.1, evSum (mine.map (·.2)))) g

/-- R462. Inclusive scan over group indices. -/
def execPscan (_c x : Bool) (d a : BitVec 7) (m : BitVec 6) (s : State) : Out := issue (pscanWord x d a m) s

/-! LZ4 sequence headers (R463). -/

/-- A length extended by bytes from `i` on until one is not 255: the length and the next byte, or the bit of the stop
(9 MORE, 10 TRUNC). -/
def lzExtend (bs : List Byte) (r : Nat) : Nat → Nat → Nat → (Nat × Nat) ⊕ Nat
  | 0, _, _ => .inr 9
  | n + 1, i, v =>
    if r ≤ i then .inr 10
    else if 64 ≤ i then .inr 9
    else
      let b := ((bs[i]?).getD 0).toNat
      if b = 255 then lzExtend bs r n (i + 1) (v + b) else .inl (v + b, i + 1)

/-- lit, MOFF, MLEN, SEQLEN and the flags word of a sequence header (R463). -/
def lzHeader (bs : List Byte) (r : Nat) : List Nat :=
  let tok := ((bs[0]?).getD 0).toNat
  let lit0 : (Nat × Nat) ⊕ Nat := if tok / 16 = 15 then lzExtend bs r 64 1 15 else .inl (tok / 16, 1)
  match lit0 with
  | .inr f => [0, 0, 0, 0, 2 ^ f]
  | .inl (lit, ls) =>
    if r < ls + lit then [lit, 0, 0, 0, ls + 2 ^ 10]
    else if ls + lit = r then [lit, 0, 0, r, ls + 2 ^ 8]
    else
      let j := ls + lit
      if r ≤ j + 1 then [lit, 0, 0, 0, ls + 2 ^ 10]
      else if 64 ≤ j + 1 then [lit, 0, 0, 0, ls + 2 ^ 9]
      else
        let moff := Maps.leNat ((bs.drop j).take 2)
        let len0 : (Nat × Nat) ⊕ Nat := if tok % 16 = 15 then lzExtend bs r 64 (j + 2) 19 else .inl (tok % 16 + 4, j + 2)
        match len0 with
        | .inr f => [lit, moff, 0, 0, ls + 2 ^ f]
        | .inl (mlen, k) => [lit, moff, mlen, k, ls]

def lztokWord (x : Bool) (d a : BitVec 7) : Group → State → WordOut := fun g =>
  xfmWord x d a 5 16 true true (fun d a =>
    perLane g d fun l => ((lzHeader (regRow g a 16 l) (g.v d l).toNat).map (BitVec.ofNat 32), {})) g

/-- R463. Parse one LZ4 sequence header. -/
def execLztok (_c x : Bool) (d a : BitVec 7) (s : State) : Out := issue (lztokWord x d a) s

end Sys2Proof.Machine
end

