-- ==== Sys2Proof/Machine/Copies.lean ====
section
/-! DEFINITION. Engines that finish what instructions started: per-lane copies (R421, R422), bulk copies (R429 to R431), weight loads
(R454), the transform pipe's replies (R457), and the steps of the macro sequencer (R451). -/

namespace Sys2Proof.Machine

/-! An engine's accesses on behalf of a group (R307). -/

/-- For whom an engine acts: context, region, core, mode. -/
structure Actor where
  ctx    : Nat
  region : Nat
  core   : Nat
  sup    : Bool
  group  : Nat
  mask   : Word
  pc     : Dword
  /-- The links taken down under its copy. -/
  lost   : List LinkId := []
deriving DecidableEq, Repr

/-- The number of the link by which a copy has lost bytes of a physical address, or can never have them (R32). -/
def Actor.lostAt (s : State) (a : Actor) (pa : Nat) : Option Nat :=
  let w := lineWay s.mem a.core (pa / 64)
  if w.dead s then some (w.deadLink s) else (a.lost.find? w.near).map linkNo

/-- As a team that translates. -/
def Actor.team (a : Actor) : Team := { ctx := a.ctx, region := a.region, core := a.core, die := dieOfCore a.core }

/-- The record of a copy's fault (R307), or with cause 0 of a pool that runs low (R192). -/
def Actor.record (a : Actor) (cause : Nat) (reason : Reason) (mask : Word) (addr : Dword) (info : Nat) : FaultRec :=
  { cause := BitVec.ofNat 8 cause, reason := reason, ctx := a.ctx, region := a.region, die := dieOfCore a.core, core := a.core % 24
    team := BitVec.ofNat 32 (2 ^ 31 + indexOf a.group * 2 ^ 20 + handleOf a.group), mask := mask, pc := a.pc, addr := addr, info := BitVec.ofNat 32 info }

/-- A fault: reason, INFO, and the address that its record names. -/
structure EngFault where
  reason : Reason
  info   : Nat := 0
  addr   : Dword
deriving DecidableEq, Repr

/-- Where a target leads an engine: bytes that are there, or a fault. A read, or an atomic, of poisoned or failed bytes fails (R60), and a PCIe
window takes no atomic and nothing above 8 bytes (R34). -/
def engTarget (a : Actor) (s : State) (va : Dword) (tg : Target) (n : Nat) (acc : Acc) : Except EngFault Target :=
  match tg with
  | .phys pa _ =>
    if let some l := a.lostAt s pa then .error { reason := .linkdown, info := l, addr := va }
    else if isPcie pa ∧ (8 < n ∨ acc = .atomic) then .error { reason := .nophys, addr := BitVec.ofNat 64 pa }
    else if acc ≠ .store ∧ isHbm pa ∧ rangeErr s.mem pa n ≠ 0 then .error { reason := .ecc, info := rangeErr s.mem pa n, addr := va }
    else if acc ≠ .store ∧ isHbm pa ∧ poisoned s.mem pa n then .error { reason := .poison, addr := va }
    else .ok tg
  | .scratch _ => .ok tg
  | .inlane r i => .error { reason := r, info := i, addr := va }
  | .nophys pa => .error { reason := .nophys, addr := BitVec.ofNat 64 pa }
  | .park r _ i => .error { reason := r, info := i, addr := va }
  | .touch => .error { reason := .notmapped, addr := va }
  | .remote _ _ => .error { reason := .noncanon, addr := va }

/-- Where a target leads an engine, a lasting error on the way met (R59, R60). -/
def engMeet (a : Actor) (va : Dword) (tg : Target) (n : Nat) (acc : Acc) (s : State) : Except EngFault Target × State :=
  match engTarget a s va tg n acc, tg with
  | .error f, .phys pa _ => (.error f, if f.reason = .ecc then readVia a.core 3 pa n s else s)
  | r, _ => (r, s)

/-- An access resolved, a first-touch page mapped from the region's pool on the way (R307). -/
def engResolve (a : Actor) (f : State → Target) (va : Dword) (n : Nat) (acc : Acc) (s : State) : Except EngFault Target × State :=
  match f s with
  | .touch =>
    let low (cnt : Nat) : FaultRec := a.record 0 .poollow a.mask va cnt
    match touchMap a.team va low s with
    | (true, s) => engMeet a va (f s) n acc s
    | (false, s) => (.error { reason := .poolempty, addr := va }, s)
  | tg => engMeet a va tg n acc s

/-- The resolution of a virtual address of the user or supervisor half. -/
def engVa (a : Actor) (va : Dword) (n : Nat) (acc : Acc) (s : State) : Except EngFault Target × State :=
  if vaTag va ≠ 0 ∧ vaTag va ≠ 0xFF then (.error { reason := .noncanon, addr := va }, s)
  else engResolve a (fun s => translate s a.team (!a.sup) va acc) va n acc s

/-- The bytes that a read of a target gives. What an endpoint answers to a read of a PCIe window by an engine is free (log
entry 8). -/
def engRead (t : Team) (tg : Target) (n : Nat) (s : State) : List Byte × State :=
  match tg with
  | .phys pa _ =>
    if isHbm pa then (bytesAt s.mem pa n, readVia t.core 3 pa n s)
    else if isDev pa then (Maps.natLe (devLoad s pa n) n, s)
    else
      let (v, s) := draw s
      (Maps.natLe v n, { s with io := { s.io with pcie := s.io.pcie ++ [{
        port := (pa - pcieBase) / 2 ^ 38, addr := (pa - pcieBase) % 2 ^ 38, size := n, data := none }] } })
  | .scratch off => (Maps.readBytes t.scratch off n, s)
  | _ => ([], s)

/-- Bytes written to a target; the core's L1 drops their lines (R231). -/
def engWrite (h core : Nat) (tg : Target) (bs : List Byte) (s : State) : State :=
  match tg with
  | .phys pa _ =>
    if isHbm pa then dropLines core pa bs.length (writeVia core 3 pa bs s)
    else if isDev pa then devStore 16 pa bs.length (Maps.leNat bs) s
    else { s with io := { s.io with pcie := s.io.pcie ++ [{
      port := (pa - pcieBase) / 2 ^ 38, addr := (pa - pcieBase) % 2 ^ 38, size := bs.length
      data := some (BitVec.ofNat 64 (Maps.leNat bs)) }] } }
  | .scratch off => onTeam h (fun t => { t with scratch := Maps.writeBytes t.scratch off bs }) s
  | _ => s

/-! Per-lane copies (R421, R422). -/

/-- The team of a copy, as it stood when its last group exited where it has gone (R383). -/
def LaneCopy.team (s : State) (c : LaneCopy) : Team := c.left.getD (teamAt s (handleOf c.group))

def LaneCopy.actor (s : State) (c : LaneCopy) : Actor :=
  let t := c.team s
  { ctx := t.ctx, region := t.region, core := t.core, sup := c.sup, group := c.group, mask := laneMask c.lane, pc := c.pc, lost := c.lost }

/-- The global side of a copy of `n` bytes: its window as it stands, bound anew where it is not live (R190, R421). -/
def copyTarget (c : LaneCopy) (n : Nat) (acc : Acc) (s : State) : Target :=
  let t := c.team s
  let win := if c.win.live then .inl c.win else bindWindow s t (!c.sup) c.win.base c.wnum
  match win with
  | .inl w => windowTarget s t (!c.sup) w c.off n acc
  | .inr tg => tg

/-- Bytes that a copy writes: to its team's scratchpad where that is still there. -/
def copyWrite (c : LaneCopy) (core : Nat) (tg : Target) (bs : List Byte) (s : State) : State :=
  match tg, c.left with
  | .scratch _, some _ => s
  | _, _ => engWrite (handleOf c.group) core tg bs s

/-- A copy's batch after a lane's end: the count falls with an instruction's last lane, a failure is marked (R422). -/
def endLane (id : Nat) (c : LaneCopy) (failed : Bool) (s : State) : State :=
  let s := { s with copies := Maps.del s.copies id }
  let last := !(s.copies.any fun e => e.2.group == c.group && e.2.inst == c.inst)
  if c.left.isSome then s else onGroup c.group (fun g =>
    let t := g.tagOf c.tag
    g.setTag c.tag { t with
      count := if last then t.count - 1 else t.count
      fail := t.fail || failed
      fmask := if failed then t.fmask ||| laneMask c.lane else t.fmask }) s

/-- A copy that has failed (R230, R307, R422). The zero bytes of its tail may have been written: free. -/
def failLane (id : Nat) (c : LaneCopy) (f : EngFault) (s : State) : State :=
  let r := (c.actor s).record 0x0F f.reason (laneMask c.lane) f.addr f.info
  let s := record r.die r s
  let s := if c.left.isSome then s else keepAddrs c.group (laneMask c.lane) [(c.lane, c.win.base + c.off)] s
  let (n, s) := draw s
  let s :=
    if c.toGlobal || c.left.isSome then s
    else (List.range (c.size - c.valid)).foldl (fun s i =>
      if bitN n i then onTeam (handleOf c.group) (fun t => { t with scratch := Maps.put 0 t.scratch (c.scr + c.valid + i) 0 }) s else s) s
  endLane id c true s

/-- A lane's copy performed or failed. Of a source beyond the valid bytes nothing is read (R421). -/
def doLane (id : Nat) (c : LaneCopy) (s : State) : State :=
  let a := c.actor s
  let va := c.win.base + c.off
  let zeros := List.replicate (c.size - c.valid) (0 : Byte)
  if c.toGlobal then
    match engResolve a (copyTarget c c.size .store) va c.size .store s with
    | (.error f, s) => failLane id c f s
    | (.ok tg, s) => endLane id c false (copyWrite c a.core tg (Maps.readBytes (c.team s).scratch c.scr c.valid ++ zeros) s)
  else if c.valid = 0 then endLane id c false (copyWrite c a.core (.scratch c.scr) zeros s)
  else
    match engResolve a (copyTarget c c.valid .load) va c.valid .load s with
    | (.error f, s) => failLane id c f s
    | (.ok tg, s) =>
      let (bs, s) := engRead (c.team s) tg c.valid s
      endLane id c false (copyWrite c a.core (.scratch c.scr) (bs ++ zeros) s)

/-- R422. The coalescer performs or fails a lane copy. -/
def execCpaCopyComplete (copy : Nat) (s : State) : Out :=
  match Maps.find s.copies copy with
  | some c => if inputHeld s (c.team s).core then .refused .notDue else .next (doLane copy c s)
  | none => .refused .notDue

/-- The per-lane copies that may go on, and the bulk copies. -/
def copiesDue (s : State) : List Nat := Maps.keys s.copies fun _ c => !inputHeld s (c.team s).core

/-! The elements of a bulk copy (R428, R429). -/

/-- The loop variables of element `n`, by loop number: the innermost varies fastest. `ls`: innermost first. -/
def loopVars (n : Nat) : List (Nat × Nat) → List (Nat × Nat)
  | [] => []
  | (k, c) :: rest => (k, n % max 1 c) :: loopVars (n / max 1 c) rest

/-- The last micro-instruction of an operation for a dimension. -/
def lastMicro (d : List Byte) (op dim : Nat) (p : Nat → Bool) : Option Nat :=
  ((micros d).filter fun w => microOp w == op && microDim w == dim && p w).getLast?

/-- A dimension's coordinate and its contribution to the offset. -/
def dimAt (d : List Byte) (vars : List (Nat × Nat)) (dim : Nat) : Int × Nat × Int :=
  let decl := (lastMicro d 1 dim fun _ => true).getD 0
  let coef (k : Nat) : Int := signedN 32 (bitsN ((lastMicro d 3 dim fun w => microLoop w == k).getD 0) 31 0)
  let x := vars.foldl (fun a v => a + coef v.1 * (v.2 : Int)) (signedN 32 (bitsN decl 31 0))
  let stride := signedN 48 (bitsN ((lastMicro d 2 dim fun _ => true).getD 0) 47 0)
  (x, bitsN decl 55 32, x * stride)

/-- Element `n`: is it padding, and its global address (R429)? -/
def elementAt (d : List Byte) (gbase : Dword) (n : Nat) : Bool × Dword :=
  let vars := loopVars n (descLoops d).reverse
  let ds := (List.range 4).map (dimAt d vars)
  let pad := ds.any fun x => x.2.1 != 0 && (decide (x.1 < 0) || decide ((x.2.1 : Int) ≤ x.1))
  (pad, BitVec.ofInt 64 ((gbase.toNat : Int) + ds.foldl (fun a x => a + x.2.2) 0))

/-! The scratchpad side (R98, R308). -/

/-- Bytes of a copy's scratchpad side where its team stands; none for a team that has gone. -/
def farRead (s : State) (b : Bulk) (off n : Nat) : Option (List Byte) :=
  match teamState s b.ctx b.team b.gen with
  | 1 => some (Maps.readBytes (teamAt s b.team).scratch off n)
  | 2 => some (bytesAt s.mem (savedTsa s b.team + 0x140000 + off) n)
  | _ => none

/-- What such a read leaves: its flits counted, the errors of a save area's lines met. -/
def farMeet (b : Bulk) (off n : Nat) (s : State) : State :=
  match teamState s b.ctx b.team b.gen, scratchWay s b.core b.ctx b.team b.gen off with
  | 1, some w => crossBoth w 3 s
  | 2, some _ => readVia b.core 3 (savedTsa s b.team + 0x140000 + off) n s
  | _, _ => s

/-- Bytes written there; dropped for a team that has gone. -/
def farWrite (b : Bulk) (off : Nat) (bs : List Byte) (s : State) : State :=
  match teamState s b.ctx b.team b.gen, scratchWay s b.core b.ctx b.team b.gen off with
  | 1, some w => onTeam b.team (fun t => { t with scratch := Maps.writeBytes t.scratch off bs }) (crossBoth w 3 s)
  | 2, some _ => writeVia b.core 3 (savedTsa s b.team + 0x140000 + off) bs s
  | _, _ => s

/-- Why the scratchpad side of a copy cannot be read or written (R32, R60): no way leads there any more, or a save area's bytes have failed. -/
def farFault (s : State) (b : Bulk) (off n : Nat) (read : Bool) : Option EngFault :=
  match scratchWay s b.core b.ctx b.team b.gen off with
  | none => none
  | some w =>
    let pa := savedTsa s b.team + 0x140000 + off
    let inMem := read && teamState s b.ctx b.team b.gen == 2
    if w.dead s then some { reason := .linkdown, info := w.deadLink s, addr := scrVa off }
    else if inMem && rangeErr s.mem pa n != 0 then some { reason := .ecc, info := rangeErr s.mem pa n, addr := scrVa off }
    else if inMem && poisoned s.mem pa n then some { reason := .poison, addr := scrVa off }
    else none

/-! `cpbulk` (R429). -/

def Bulk.actor (b : Bulk) : Actor :=
  { ctx := b.ctx, region := b.region, core := b.core, sup := b.sup, group := b.group, mask := b.mask, pc := b.pc, lost := b.lost }

/-- The core whose L1 drops what a copy writes: the barrier team's, wherever it is by then (R231). -/
def Bulk.home (s : State) (b : Bulk) : Nat := if teamState s b.ctx b.team b.gen = 1 then (teamAt s b.team).core else b.core

/-- A copy under way: the state, and its first fault. -/
structure CopyRun where
  s     : State
  fault : Option (Nat × EngFault) := none

/-- One element moved. -/
def moveElem (b : Bulk) (n : Nat) (r : CopyRun) : CopyRun :=
  let e := 2 ^ descEsz b.desc
  let (pad, va) := elementAt b.desc b.gbase n
  let so := descSp b.desc + n * e
  let a := b.actor
  let bad (f : EngFault) (s : State) : CopyRun := { s := s, fault := some (r.fault.getD (n, f)) }
  if descDir b.desc && pad then r
  else match farFault r.s b so e (descDir b.desc) with
    | some f => bad f (if f.reason = .ecc then farMeet b so e r.s else r.s)
    | none =>
      if descDir b.desc then match farRead r.s b so e with
        | none => r
        | some bs => match engVa a va e .store (farMeet b so e r.s) with
          | (.ok tg, s) => { r with s := engWrite b.team (b.home s) tg bs s }
          | (.error f, s) => bad f s
      else if pad then { r with s := farWrite b so (List.replicate e 0) r.s }
      else match engVa a va e .load r.s with
        | (.ok tg, s) => let (bs, s) := engRead b.actor.team tg e s; { r with s := farWrite b so bs s }
        | (.error f, s) => bad f s

/-- The elements that `p` picks moved, in order. -/
def moveElems (b : Bulk) (p : Nat → Bool) (s : State) : CopyRun :=
  (List.range (descN b.desc)).foldl (fun r n => if p n then moveElem b n r else r) { s := s }

/-- A copy performed. One that meets a fault has transferred some of its elements, which is free, and one that faults among them
(R307, R429). -/
def runBulk (b : Bulk) (s : State) : CopyRun :=
  let r := moveElems b (fun _ => true) s
  match r.fault with
  | none => r
  | some (f, _) =>
    let k := s.draws
    let s := { s with draws := k + descN b.desc }
    let bit (n : Nat) : Bool := Config.freeNat (k + n) % 2 == 0
    let r := moveElems b bit s
    if r.fault.isSome then r else moveElems b (fun n => bit n || n == f) s

/-! `cpq` (R431). -/

def quantSrc (d : List Byte) : Num.Fmt := if descSrc d = 0 then Num.f32 else if descSrc d = 1 then Num.bf16 else Num.f16

/-- The elements read in order up to the first fault, widened to FP32. -/
structure QuantRead where
  s     : State
  xs    : List Nat := []
  fault : Option (Nat × EngFault) := none

def readElem (b : Bulk) (r : QuantRead) (n : Nat) : QuantRead :=
  if r.fault.isSome then r
  else
    let (pad, va) := elementAt b.desc b.gbase n
    let e := 2 ^ descEsz b.desc
    if pad then { r with xs := 0 :: r.xs }
    else match engVa b.actor va e .load r.s with
      | (.ok tg, s) =>
        let (bs, s) := engRead b.actor.team tg e s
        { r with s := s, xs := Num.packRne Num.f32 (Num.decode (quantSrc b.desc) (Maps.leNat bs)) :: r.xs }
      | (.error f, s) => { r with s := s, fault := some (n, f) }

/-- The elements after the rotation, FP32 (R431). -/
def rotated (d : List Byte) (xs : List Nat) : List (Nat × Num.Ev) :=
  if descRot d = 1 then xs.map fun x => (x, {}) else (pieces (descRot d) xs).flatMap (hadBlock Num.f32 (descRot d))

/-- Is a scale word positive and finite? -/
def scaleGood (s : Nat) : Bool := decide (0 < s) && decide (s < 0x7F800000)

/-- The bytes of a run's elements: scratchpad offset and byte of each, and the events. -/
def quantBytes (d : List Byte) (sc : Nat) (ys : List Nat) (first : Nat) : List (Nat × Byte) × Num.Ev :=
  let sv := Num.decode Num.f32 sc
  let sp := descSp d
  if descQfmt d = 2 then
    let bs := (pieces 8 ys).map fun y => Num.narrowBlock sv (scaleGood sc) (y.map (Num.decode Num.f32)) fun _ => .mode .rne
    let byte (c : List Nat) (j : Nat) : Byte := BitVec.ofNat 8 (c.getD (2 * j) 0 + 16 * c.getD (2 * j + 1) 0)
    ((bs.zip (List.range bs.length)).flatMap fun e =>
      let blk := first / 8 + e.2
      (descField d 48 4 + blk, BitVec.ofNat 8 e.1.1) :: (List.range 4).map fun j => (sp + 4 * blk + j, byte e.1.2.1 j),
      evSum (bs.map (·.2.2)))
  else
    let f := if descQfmt d = 0 then Num.e4m3 else Num.e5m2
    let rs := ys.map fun y =>
      if scaleGood sc then Num.narrow f (.mode .rne) false false (Num.div (Num.decode Num.f32 y) sv) else (f.nan, { nan := 1 })
    ((rs.zip (List.range rs.length)).map fun e => (sp + first + e.2, BitVec.ofNat 8 e.1.1), evSum (rs.map (·.2)))

/-- The shape record (R431). -/
def shapeBytes (d : List Byte) (sc m : Nat) : List Byte :=
  Maps.natLe (descField d 40 1) 1 ++ Maps.natLe (descField d 41 1) 1 ++ Maps.natLe 0 2 ++ Maps.natLe sc 4 ++ Maps.natLe (descN d) 4 ++ Maps.natLe m 4

/-- The launch's slot to which a copy's events are charged while the launch is there (R254). -/
def Bulk.chargeSlot (s : State) (b : Bulk) : Nat :=
  match Maps.find (dieAt s b.die).cards b.slot with
  | some c => if c.posted = b.post then b.slot else 4096
  | none => 4096

/-- Some of the output of a run of elements put into the scratchpad: all of it, or by free choice unit by unit for a copy that has
failed. -/
def putQuant (b : Bulk) (sc : Nat) (ys : List (Nat × Num.Ev)) (all : Bool) (s : State) : State :=
  let unit := max (descRot b.desc) (if descQfmt b.desc = 2 then 8 else 1)
  let k := s.draws
  let us := pieces unit ys
  let s := if all then s else { s with draws := k + us.length }
  (us.zip (List.range us.length)).foldl (fun s u =>
    if all || Config.freeNat (k + u.2) % 2 == 0 then
      let (bs, ev) := quantBytes b.desc sc (u.1.map (·.1)) (u.2 * unit)
      let s := bs.foldl (fun s e => farWrite b e.1 [e.2] s) s
      -- A NaN of the rotation is one of the element written, but where the element or its block counts whatever y is.
      let ev := if scaleGood sc && descQfmt b.desc != 2 then ev.add (evSum (u.1.map (·.2))) else ev
      chargeTag b.die (b.chargeSlot s) b.tag ev s
    else s) s

/-- A quantising copy performed (R431). -/
def runQuant (b : Bulk) (s : State) : CopyRun :=
  let d := b.desc
  let fail (f : EngFault) (s : State) : CopyRun := { s := s, fault := some (0, f) }
  match farFault s b (descSp d) 1 false, engVa b.actor (BitVec.ofNat 64 (descField d 24 8)) 4 .load s with
  | some f, _ => fail f s
  | none, (.error f, s) => fail f s
  | none, (.ok tg, s) =>
    let (sb, s) := engRead b.actor.team tg 4 s
    let sc := Maps.leNat sb
    let r := (List.range (descN d)).foldl (readElem b) { s := s }
    let ys := rotated d (r.xs.reverse.take (r.xs.length / descRot d * descRot d))
    match r.fault with
    | some (_, f) => fail f (putQuant b sc ys false r.s)
    | none =>
      let m := (absmaxBlock Num.f32 (ys.map (·.1))).toNat
      match engVa b.actor (BitVec.ofNat 64 (descField d 32 8)) 4 .atomic r.s with
      | (.error f, s) => fail f (putQuant b sc ys false s)
      | (.ok tg, s) =>
        let (old, s) := engRead b.actor.team tg 4 s
        let s := engWrite b.team (b.home s) tg (Maps.natLe (max m (Maps.leNat old)) 4) s
        { s := farWrite b (descField d 44 4) (shapeBytes d sc m) (putQuant b sc ys true s) }

/-! Completion of bulk copies (R430). -/

/-- The sectors that a copy delivers. -/
def Bulk.sectors (b : Bulk) : Nat := (descN b.desc * descBits b.quant b.desc + 255) / 256

/-- A bulk copy done: its fault recorded, its barrier stepped, its event entered or held. -/
def doBulk (id : Nat) (b : Bulk) (s : State) : State :=
  let r := if b.quant then runQuant b { s with bulks := Maps.del s.bulks id } else runBulk b { s with bulks := Maps.del s.bulks id }
  let s := match r.fault with
    | some (_, f) => let x := b.actor.record 0x0F f.reason b.mask f.addr f.info; record x.die x r.s
    | none => r.s
  let bad := r.fault.isSome
  let code := match r.fault with
    | some (_, f) => f.reason.code
    | none => 0
  if descEv b.desc then
    complete (dieOfCore b.core) { bits := eventOf (descField b.desc 8 16) 1 code, ctx := b.ctx, region := b.region
                                  bar := some (b.team + 2 ^ 20 * b.gen, b.bar, b.sectors, bad) } s
  else barrierStepAt b.core b.ctx b.team b.gen b.bar b.sectors bad s

/-- R430. A bulk copy performs its writes, steps its barrier and enters its event record. -/
def execBulkCopyComplete (copy : Nat) (s : State) : Out :=
  match Maps.find s.bulks copy with
  | some b => if inputHeld s b.core then .refused .notDue else .next (doBulk copy b s)
  | none => .refused .notDue

def bulksDue (s : State) : List Nat := Maps.keys s.bulks fun _ b => !inputHeld s b.core

/-! Weight loads (R454). -/

/-- Does the end of a weight load have to wait for room in the event queue (R82)? -/
def wbldHeld (s : State) (t : Team) (w : WSlot) : Bool :=
  let bs := imageBytes s.mem w.pa
  !headerBad bs && bitN (imgField bs 1 1) 0 && decide (1024 ≤ (dieAt s (dieOfCore t.core)).events.length)

/-- A weight load ended. -/
def doWbld (h n : Nat) (t : Team) (w : WSlot) (s : State) : State :=
  let o := loadImage s t.core w.pa
  let bs := o.2.1
  let ev := !headerBad bs && bitN (imgField bs 1 1) 0
  let s := onTeam h (setWslot n (w.loaded o)) (readVia t.core 2 w.pa (imageLen bs) s)
  if ev then enterEvent (dieOfCore t.core) { bits := eventOf (imgField bs 16 16) 2 o.1, ctx := t.ctx, region := t.region } s else s

/-- A weight load that may end. -/
def wbldDue (s : State) (h n : Nat) : Option (Team × WSlot) :=
  match Maps.find s.teams h with
  | some t => let w := wslotOf t n; if w.loading && !wbldHeld s t w && !inputHeld s t.core then some (t, w) else none
  | none => none

/-- R454. A weight-buffer load ends, leaving the slot VALID or FAILED and entering its event record. -/
def execWbldComplete (team : Nat) (slot : BitVec 9) (s : State) : Out :=
  match wbldDue s team slot.toNat with
  | some (t, w) => .next (doWbld team slot.toNat t w s)
  | none => .refused .notDue

/-! The transform pipe (R457). -/

/-- R457. A transform-pipe reply reaches the group and releases its destination. -/
def execXfmReply (reply : Nat) (s : State) : Out :=
  match Maps.find s.xfms reply with
  | some x =>
    let land (g : Group) : Group := { g with vregs := x.writes.foldl (fun m w => Maps.put 0 m w.1 w.2) g.vregs }
    .next (onGroup x.group (fun g => (land g).release reply) { s with xfms := Maps.del s.xfms reply })
  | none => .refused .notDue

/-! The macro sequencer (R450, R451). -/

/-- A step's parts of A in the active lanes. -/
def tileRows (s : State) (g : Group) (b : List Byte) (step : Nat) : List (Nat × List LaneAt) :=
  let rb := rowBytes (cmdField b 27 1)
  let c := step / max 1 (cmdField b 26 1)
  (lanesOf g.active).map fun l =>
    let va : Dword := BitVec.ofNat 64 (cmdField b 0 8 + l * cmdField b 16 4 + c * rb)
    (l, (rowParts rb).map fun o => aPart s g l (va + BitVec.ofNat 64 o))

/-- A step's image: its address, and where it lies or its fault. -/
def tileImage (s : State) (g : Group) (b : List Byte) (step : Nat) : Dword × (Nat ⊕ (Raise ⊕ ParkReq)) :=
  let va : Dword := BitVec.ofNat 64 (cmdField b 8 8 + step * cmdField b 20 4)
  let t := curTeam s
  if va.toNat % 64 ≠ 0 then (va, .inr (.inl { cause := .align, mask := g.uniformMask, addr := va }))
  else
    let tg : Target :=
      if vaTag va ≠ 0 ∧ vaTag va ≠ 0xFF then .inlane .noncanon 0
      else checkTarget s t (resolve s t (!g.sup) va 64 .load) 64 .load
    match tg, uniformFault g tg va .load with
    | .phys pa _, _ => (va, .inl pa)
    | _, some f => (va, .inr f)
    | _, none => (va, .inr (.inl (access .noncanon g.uniformMask va)))

/-- A slot as a step of an `mtile` loads it (R451, R454): one that is not held takes a free physical slot, or stays unheld where there is
none. -/
def tileLoad (s : State) (slot : Nat) (va : Dword) (pa : Nat) : WSlot :=
  let t := curTeam s
  let w := wslotOf t slot
  match (if w.held then some w.half else pickHalf s t.core) with
  | none => { w with lstat := 2 }
  | some half => { w with held := true, half := half, image := va, pa := pa }.loaded (loadImage s t.core pa)

/-- The images that the two slots hold after an `mtile` stops: free among those of the steps so far (R451). -/
def tileSlots (b : List Byte) (step : Nat) (s : State) : State :=
  let g := groupOf s s.cur
  [0, 1].foldl (fun s i =>
    let (n, s) := draw s
    match tileImage s g b (n % (step + 1)) with
    | (va, .inl pa) => onCurTeam (setWslot (cmdField b 28 2 + i) (tileLoad s (cmdField b 28 2 + i) va pa)) s
    | (_, .inr _) => s) s

/-- A step that faults is undone: the group parks or traps at the `mtile` chain (R301). -/
def tileFault (b : List Byte) (step : Nat) (rs : List Raise) (ps : List ParkReq) (addrs : List (Nat × Dword)) (s : State) : State :=
  failChain rs ps addrs (onCur (fun g => { g with waiting := none, tileSrc := none }) (tileSlots b step s))

/-- One step (R451): the image loaded into its slot, the quarter operation, the progress register. -/
def tileStep (k d n : Nat) (ovr : Bool) (b : List Byte) (s : State) : State :=
  let s := { s with cur := k }
  let g := groupOf s k
  let step := (g.s (n + 1)).toNat
  let nb := max 1 (cmdField b 26 1)
  let slot := cmdField b 28 2 + step % 2
  match tileImage s g b step with
  | (va, .inr f) => tileFault b step (raisesOf [f]) (parksOf [f]) ((lanesOf g.uniformMask).map fun l => (l, va)) s
  | (va, .inl pa) =>
    let w := tileLoad s slot va pa
    let s := onCurTeam (setWslot slot w) (if w.held then readVia (curTeam s).core 2 pa (imageLen w.bytes) s else s)
    let rows := tileRows s g b step
    let las := rows.flatMap (·.2)
    let fs := las.filterMap fun a => (laneFault g 16 .load a).map fun f => (a, f)
    let raises := slotRaises g w (cmdField b 27 1) ++ raisesOf (fs.map (·.2))
    let parks := parksOf (fs.map (·.2))
    if !(raises.isEmpty && parks.isEmpty) then
      tileFault b step raises parks (fs.map fun f => (f.1.lane, f.1.va)) (aFail s (fun a => (addressAt s g a.lane a.va 16 .load).tg) las s)
    else
      let t := curTeam s
      let s := aKeep t las s
      let row (l : Nat) : List Byte := ((rows.find? fun r => r.1 == l).map fun r => r.2.flatMap fun p => aBytes s t p.tg).getD []
      let s := matEffect g (d + 32 * (step % nb)) (ovr && step / nb == 0) (cmdField b 27 1) w true row s
      let s := onCur (fun live => live.setS (n + 1) (BitVec.ofNat 32 (step + 1))) s
      if step + 1 < cmdSteps b then s
      else onCur (fun live => { live with waiting := some .mtileDone }) (tileSlots b step s)

/-- The `mtile` of a group whose next step may be made: its cluster holds a token, the array, the shadow and the slot's half are free, no
halt has come, its slot is not LOADING, its earlier accesses to the lines are done (R152, R178, R219, R300, R301, R448, R454). -/
def tileDue (s : State) (k : Nat) : Option (Nat × Nat × Bool × List Byte) :=
  match Maps.find s.groups k with
  | none => none
  | some g => match g.waiting with
    | some (.mtile d n ovr b) =>
      let s := { s with cur := k }
      let las := (tileRows s g b (g.s (n + 1)).toNat).flatMap (·.2)
      let t := curTeam s
      let w := wslotOf t (cmdField b 28 2 + (g.s (n + 1)).toNat % 2)
      let half := if w.held then w.half else (pickHalf s t.core).getD false
      if !g.exited && g.parked.isNone && !g.halted && g.haltSeen.isNone && !w.loading && hasToken s t.core && !inputHeld s t.core && !aBusy s las &&
          (arrayUnits g.sched g.active true).all (unitFree s t.core) && (g.active == 0 || halfFree s t.core g.active half) then
        some (d, n, ovr, b)
      else none
    | _ => none

/-- R451. The macro sequencer makes one step of an `mtile`. -/
def execMtileStep (group : Nat) (s : State) : Out :=
  match tileDue s group with
  | some (d, n, ovr, b) => .next (tileStep group d n ovr b s)
  | none => .refused .notDue

end Sys2Proof.Machine
end

