-- ==== Sys2Proof/Machine/Relay.lean ====
section
/-! DEFINITION. Sends and messages after issue (R278 to R288): the checks at the relay, the drift log of an evicted team, arrival
at a core, sends returned MOVED, statuses, and the payloads of messages. -/

namespace Sys2Proof.Machine

def onSend (i : Nat) (f : Send → Send) (s : State) : State := { s with sends := Maps.modify s.sends i f }

/-- A send answered with a code (R278). -/
def answer (i code : Nat) (s : State) : State := onSend i (fun x => { x with st := .replied code }) s

/-! The ways of sends and messages (R208, R278). -/

def sendOpen (s : State) (x : Send) : Bool := (sendWay s x).open_ s
def sendDead (s : State) (x : Send) : Bool := (sendWay s x).dead s

/-- Is an earlier request from the same input still to arrive at the send's slice (R206)? -/
def requestAhead (s : State) (i : Nat) (x : Send) : Bool :=
  s.mem.net.any fun e => decide (e.1 < i) && e.2.core == x.inp && e.2.space.toSlice && e.2.st == .flying && !heldMove s e.2 &&
    (reqWay s e.2).slice == (sendWay s x).slice

/-- A send answered with a code (R278). -/
def Send.answered (x : Send) (code : Nat) : Send := { x with st := .replied code }

/-! A team as the relay finds it: resident, or in its save area (R304). -/

/-- Checks 1 and 2 of R278. -/
def capHolds (s : State) (x : Send) : Bool :=
  let st := relayState s x
  checkCode (ctxCapkey s x.ctx) x.rnc == rncCheck x.rnc && (st == 1 || st == 2) &&
    tltGen s x.ctx (rncHandle x.rnc) == rncGen x.rnc

/-- The address of a group block of a save area (R304). -/
def tsaGroup (tsa gi : Nat) : Nat := tsa + 0x1000 + 2048 * gi

/-- Check 4 of R278 on a save area: the group is one of the team's that have not exited, and the registers lie below the
allotment. -/
def savedTakes (m : Mem) (tsa gi top : Nat) : Bool :=
  decide (gi < natAt m (tsa + 16) 1) && !bitN (natAt m (tsaGroup tsa gi + 16) 4) 2 && decide (top ≤ 16 * (natAt m (tsa + 18) 1 + 1))

/-- Check 4 of R278 on a resident team. -/
def teamTakes (s : State) (h gi top : Nat) : Bool :=
  (match Maps.find s.groups (groupKey h gi) with
    | some g => !g.exited
    | none => false) && decide (top ≤ (teamAt s h).regs)

/-- The end of the registers that a capability covers. -/
def rncTop (r : Dword) : Nat := rncReg r + rncRegs (rncWidth r)

/-- Check 4 of R278. -/
def targetTakes (s : State) (x : Send) : Bool :=
  let h := rncHandle x.rnc
  if relayState s x = 2 then savedTakes s.mem (tltTsa s x.ctx h) (rncGroup x.rnc) (rncTop x.rnc)
  else teamTakes s h (rncGroup x.rnc) (rncTop x.rnc)

/-! The drift log (R282, R283). -/

/-- DATA of an entry: the sender lanes in order, each at the width's bytes (R282). -/
def driftData (x : Send) : List Byte :=
  let n := rncRegs (rncWidth x.rnc)
  let bs := (lanesOf (sendLanes (rncLmode x.rnc) x.k)).flatMap fun l => (List.range n).flatMap fun i =>
    Maps.natLe (((x.words.find? fun (w : Nat × Word) => w.1 == i * 32 + l).getD (0, 0)).2.toNat) 4
  (bs ++ List.replicate (512 - bs.length) 0).take 512

/-- A log entry's 544 bytes (R282). -/
def driftBytes (x : Send) (seq : Nat) : List Byte :=
  Maps.natLe x.rnc.toNat 8 ++ Maps.natLe x.k 1 ++ Maps.natLe ((if x.rel then 1 else 0) + 2 * x.scope.toNat) 1 ++ Maps.natLe 0 2 ++
    Maps.natLe x.lmask.toNat 4 ++ Maps.natLe seq 4 ++ Maps.natLe 0 12 ++ driftData x

/-- The address of a log entry (R304). -/
def driftAt (tsa i : Nat) : Nat := tsa + 0x11000 + 544 * i

/-- A send for an evicted team put into its log, unless the log is full (R283). -/
def logSend (i : Nat) (x : Send) (s : State) : State :=
  let tsa := tltTsa s x.ctx (rncHandle x.rnc)
  let n := natAt s.mem (tsa + 20) 4
  if 256 ≤ n then answer i 2 s
  else answer i 1 (onMem (fun m => putNat (storeRange m (driftAt tsa n) (driftBytes x n)) (tsa + 20) 4 (n + 1)) s)

/-! The relay (R278). -/

/-- What the relay makes of a register send. -/
def relaySend (i : Nat) (x : Send) (s : State) : State :=
  if !capHolds s x || (x.rel && !rncRel x.rnc) || rncLmode x.rnc == 3 || !targetTakes s x then answer i 4 s
  else if relayState s x = 2 then logSend i x s
  else
    let t := teamAt s (rncHandle x.rnc)
    onSend i (fun x => { x with st := .toCore, core := t.core, gen := t.gen }) s

/-- Is a link there, or to be there again? -/
def linkThere (s : State) (l : LinkId) : Bool := match (linkOf s l).st with
  | .off => false
  | .down => false
  | _ => true

/-- A send to another package put into flits of its port, class 2 (R18, R28, R286), or refused where there is no way (R32). -/
def routeSend (i q : Nat) (x : Send) (s : State) : State :=
  match routeOf s q 2 with
  | some j =>
    if linkThere s (.port j) then
      queueMsg q 2 (.send i x.ctx x.msg x.rel x.rnc x.k x.lmask x.words x.bytes) (onSend i (fun y => { y with st := .toCore }) s)
    else answer i 4 s
  | none => answer i 4 s

/-- Is an earlier send of the group to the same team of the other package still to leave (R209, R281)? -/
def farBefore (s : State) (i : Nat) (x : Send) : Bool :=
  s.sends.any fun e => decide (e.1 < i) && e.2.group == x.group && e.2.remote == x.remote && rncHandle e.2.rnc == rncHandle x.rnc && e.2.st == .atRelay

/-- The flits of a send over its way to the slice that relays it. -/
def crossSend (i : Nat) (x : Send) (s : State) : State :=
  onSend i (fun y => { y with slice := some (sendWay s x).slice }) (crossTo (sendWay s x) 2 s)

/-- Is a send at its relay, and may it be checked now (R281)? One to another package leaves once this package has an identifier (R27); one
whose way is down is answered (R32). -/
def relayDue (s : State) (i : Nat) (msg : Bool) : Option Send :=
  match Maps.find s.sends i with
  | none => none
  | some x =>
    let h := rncHandle x.rnc
    let wait : SendSt → Bool := if msg || relayState s x == 2 then SendSt.unanswered else (· == .atRelay)
    if x.msg != msg || x.st != .atRelay || !(sendOpen s x || sendDead s x) then none
    else if x.remote.isSome then (if s.boot.pkg.isSome && !farBefore s i x then some x else none)
    else if requestAhead s i x || sendAhead s i (sendWay s x) then none
    else if tltMove s x.ctx h || accessBefore s i x.group h || sendBefore s i x.group h wait then none
    else some x

/-- R278. A register send reaches the relay slice, which checks the capability and forwards, logs or refuses it. -/
def execSendAtRelay (send : Nat) (s : State) : Out :=
  match relayDue s send false with
  | some x => .next (if sendDead s x then answer send 4 s else match x.remote with
    | some q => routeSend send q x (crossSend send x s)
    | none => relaySend send x (crossSend send x s))
  | none => .refused .notDue

/-! Arrival (R280). -/

/-- Do an arrival's registers all await a value? -/
def allAwait (g : Group) (rnc : Dword) : Bool :=
  (List.range (rncRegs (rncWidth rnc))).all fun i => g.await.getLsbD (rncReg rnc + i)

/-- The words that an arrival writes: those of active sender lanes, or of every lane of a vector (R277). -/
def landWords (rnc : Dword) (lmask : Word) (ws : List (Nat × Word)) (g : Group) : Group :=
  ws.foldl (fun g w => if rncWidth rnc = 3 ∨ lmask.getLsbD (w.1 % 32) then g.setLane (rncReg rnc + w.1 / 32) (w.1 % 32) w.2 else g) g

/-- The awaiting bits of an arrival's registers cleared, and after a release the acquire that their first reader makes
(R233, R271). -/
def landAwait (rnc : Dword) (rel : Bool) (scope : BitVec 2) (g : Group) : Group :=
  (List.range (rncRegs (rncWidth rnc))).foldl (fun g i =>
    let r := rncReg rnc + i
    let g := clearAwait r g
    if rel then { g with acquire := Maps.set g.acquire r scope } else g) g

/-- An arrival in a group: written whole, or refused whole and counted; and whether it was written (R280). -/
def arriveIn (rnc : Dword) (rel : Bool) (scope : BitVec 2) (lmask : Word) (ws : List (Nat × Word)) (g : Group) : Bool × Group :=
  if allAwait g rnc then (true, landAwait rnc rel scope (landWords rnc lmask ws g))
  else (false, { g with ovwc := BitVec.ofNat 32 (min 0xFFFFFFFF (g.ovwc.toNat + 1)) })

/-- Has the team that the relay verified left the send's core (R281)? -/
def teamGone (s : State) (x : Send) : Bool :=
  match Maps.find s.teams (rncHandle x.rnc) with
  | some t => t.core != x.core || t.gen != x.gen
  | none => true

/-- Is a send under way from its relay to a core, behind no earlier one (R209, R281)? It stays within the core's die (R208). -/
def arrivalDue (s : State) (i : Nat) : Option Send :=
  match Maps.find s.sends i with
  | some x =>
    let h := rncHandle x.rnc
    if x.st == .toCore && x.remote.isNone && !accessBefore s i x.group h &&
        !sendBefore s i x.group h SendSt.unanswered then some x else none
  | none => none

/-- A send at its target core. A group that has exited, or an allotment that no longer holds the registers, refuses it (R164,
R383). -/
def arriveSend (i : Nat) (x : Send) (s : State) : State :=
  let h := rncHandle x.rnc
  let k := groupKey h (rncGroup x.rnc)
  if !teamTakes s h (rncGroup x.rnc) (rncTop x.rnc) then answer i 4 s
  else
    let (ok, g) := arriveIn x.rnc x.rel x.scope x.lmask x.words (groupOf s k)
    answer i (if ok then 0 else 3) (onGroup k (fun _ => g) s)

/-- R280. At a resident target core an arrival writes awaiting registers and clears their bits, or is refused and counted in
OVWC. -/
def execSendArrival (send : Nat) (s : State) : Out :=
  match arrivalDue s send with
  | some x => if teamGone s x then .refused .notDue else .next (arriveSend send x s)
  | none => .refused .notDue

/-- R281. A send returned MOVED is resent by the sender's core to the new relay slice in order. -/
def execSendMoved (send : Nat) (s : State) : Out :=
  match arrivalDue s send with
  | some x => if teamGone s x then .next (onSend send (fun x => { x with st := .atRelay, slice := none }) s) else .refused .notDue
  | none => .refused .notDue

/-! Statuses (R278, R279). -/

/-- A status at its sender, with which a `.t` form's chain ends or traps (R279); to another package it goes as a reply (R286). -/
def landStatus (i : Nat) (x : Send) (code : Nat) (s : State) : State :=
  let s := { s with sends := Maps.del s.sends i }
  if !x.live then (match x.origin with
    | some (q, id) => queueMsg q 1 (.reply id code 0) s
    | none => s)
  else
    onGroup x.group (fun g => { (g.setS x.sreg (BitVec.ofNat 32 code)).release i with
      waiting := if g.waiting = some (.send i) then some (.sendDone code) else g.waiting }) s

/-- The code that a send's reply carries: the relay's or core's own, or another package's. Where the way back is down it is bad
capability (R32). -/
def replyCode (s : State) (x : Send) (far : Option (BitVec 3)) : Option Nat :=
  match x.st, far with
  | .replied c, none => if x.remote.isNone && sendDead s x then some 4 else if x.remote.isSome || sendOpen s x then some c else none
  | .toCore, some c => if x.remote.isSome ∧ c.toNat ≤ 4 then some c.toNat else none
  | _, _ => none

/-- R278. A send's status reply reaches the sender and is written to its scalar status register. -/
def execSendStatusReply (send : Nat) (far : Option (BitVec 3)) (s : State) : Out :=
  match Maps.find s.sends send with
  | some x => match replyCode s x far with
    | some c => .next (landStatus send x c (if sendDead s x then s else crossBack (sendWay s x) s))
    | none => .refused .notDue
  | none => .refused .notDue

/-! Messages (R288). -/

/-- A payload in a slot, the rest of it zero. -/
def slotImage (r : Ring) (bs : List Byte) : List Byte := bs ++ List.replicate (slotBytes r - bs.length) 0

/-- The offset of a ring's next slot. -/
def headOffset (r : Ring) : Nat := r.base + slotBytes r * (r.head % 2 ^ r.log)

/-- The status of a message to a ring. -/
def ringCode (r : Ring) (n : Nat) : Nat :=
  if !r.en || n < 16 || 256 < n || n % 16 != 0 || slotBytes r < n then 4
  else if r.free + 2 ^ r.log ≤ r.head then 2
  else 0

/-- The place of a ring's state in a save area (R304). -/
def tsaRing (tsa n : Nat) : Nat := tsa + 64 + 16 * n

/-- A ring as a save area holds it, HEAD counted on from FREE. -/
def savedRing (m : Mem) (tsa n : Nat) : Ring :=
  let v := natAt m (tsaRing tsa n) 16
  let head := bitsN v 95 64
  let free := bitsN v 127 96
  { en := bitN v 48, base := bitsN v 31 0, log := bitsN v 39 32, slot := bitsN v 47 40, free := free
    head := if head < free then head + 2 ^ 32 else head }

/-- A message for a resident team (R234, R288). -/
def messageToCore (h n : Nat) (bs : List Byte) (s : State) : Nat × State :=
  let t := teamAt s h
  let r := ringOf t n
  match ringCode r bs.length with
  | 0 =>
    let room := t.scr * 65536 - headOffset r
    (0, onTeam h (fun t => setRing n { r with head := r.head + 1 }
      { t with scratch := Maps.writeBytes t.scratch (headOffset r) ((slotImage r bs).take room) }) s)
  | c => (c, s)

/-- A message for an evicted team (R288). -/
def messageToSaved (tsa n : Nat) (bs : List Byte) (s : State) : Nat × State :=
  let r := savedRing s.mem tsa n
  match ringCode r bs.length with
  | 0 => (0, onMem (fun m => putNat (storeRange m (tsa + 0x140000 + headOffset r) (slotImage r bs)) (tsaRing tsa n + 8) 4 ((r.head + 1) % 2 ^ 32)) s)
  | c => (c, s)

/-- What the relay makes of a message. -/
def relayMessage (i : Nat) (x : Send) (s : State) : State :=
  if !capHolds s x || rncLmode x.rnc != 3 || decide (7 < rncReg x.rnc) then answer i 4 s
  else
    let h := rncHandle x.rnc
    let (c, s) := if relayState s x = 2 then messageToSaved (tltTsa s x.ctx h) (rncReg x.rnc) x.bytes s else messageToCore h (rncReg x.rnc) x.bytes s
    answer i c s

/-- R288. A message is checked at the relay and written into the next ring slot of the target team. -/
def execMessageAtRelay (send : Nat) (s : State) : Out :=
  match relayDue s send true with
  | some x => .next (if sendDead s x then answer send 4 s else match x.remote with
    | some q => routeSend send q x (crossSend send x s)
    | none => relayMessage send x (crossSend send x s))
  | none => .refused .notDue

/-! A link taken down (R32). -/

/-- The payloads in which a send travels to another package. -/
def sendFlits (i : Nat) (x : Send) : List (List Byte) :=
  Config.fabricFlits (.send i x.ctx x.msg x.rel x.rnc x.k x.lmask x.words x.bytes)

/-- Are flits of a send queued on a link, or in its replay buffer? -/
def flitsOn (k : Link) (i : Nat) (x : Send) : Bool :=
  x.remote.isSome && x.st == .toCore && (sendFlits i x).any fun p =>
    (k.queued.any fun e => e.2 == p) || k.replay.any fun f => (expand f.mode.toNat f.beats).1 == p

/-- Does a request wait to cross a link, or its answer? While a module retrains they are in its queues (R31). -/
def reqOn (s : State) (l : LinkId) (r : Req) : Bool := (reqWay s r).takes s l && (r.st == .flying && !heldMove s r || r.st == .done)

/-- Does a send of this package wait to cross a link, or its status? -/
def sendOn (s : State) (l : LinkId) (x : Send) : Bool := (sendWay s x).takes s l && x.st != .toCore

/-- Requests and sends whose flits are on a link that is taken down fail; which copies have flits there is free, for each (R32, log entry
8). -/
def failOnLink (l : LinkId) (s : State) : State :=
  let hit (i : Nat) : Bool := Config.freeNat (s.draws + i) % 2 == 1
  let k := linkOf s l
  let s' := onMem (fun m => { m with net := Maps.mapAll m.net fun _ r => if reqOn s l r then r.linkDown (linkNo l) else r }) s
  { s' with
    draws := s.draws + s.mem.nextId
    sends := Maps.mapAll s.sends fun i x => if flitsOn k i x || sendOn s l x then x.answered 4 else x
    copies := Maps.mapAll s.copies fun i c => if hit i then { c with lost := c.lost ++ [l] } else c
    bulks := Maps.mapAll s.bulks fun i b => if hit i then { b with lost := b.lost ++ [l] } else b }

/-- A port's entries of the routing table removed (R32). -/
def unroute (l : LinkId) (s : State) : State := match l with
  | .port j => { s with io := { s.io with rtab := s.io.rtab.filter fun e => !(bitN e.2.toNat 7 && bitsN e.2.toNat 6 0 == j.toNat) } }
  | .ucie _ _ => s

/-- A link taken down (R32). -/
def takeDown (l : LinkId) (s : State) : State :=
  let k := linkOf s l
  let s := unroute l (setLink l { k with st := .down, replay := [], queued := [], failures := k.failures + 1 } (failOnLink l s))
  match lifeLink l with
  | some i => countLife (.linkFailures i) 1 s
  | none => s

/-- R32. A link failing four retraining attempts in a row is taken down. -/
def execLinkDown (link : LinkId) (s : State) : Out :=
  if (linkOf s link).st = .retraining 4 then .next (takeDown link s) else .refused .notDue

/-! What comes from other packages (R28, R44, R286). -/

/-- The valid context that an ASID names. -/
def ctxOfAsid (s : State) (asid : Nat) : Option Nat := (List.range 4096).find? fun c => ctxValid s c && ctxAsid s c == asid

/-- A request of another package by the fabric ingress of a port (R205). -/
def ingressReq (j src id ctx size : Nat) (op : ReqOp) (space : ReqSpace) (pa : Nat) (data : BitVec 128) : Req :=
  { group := 2 ^ 41 + src, core := 216 + j / 4, lane := 0, op := op, space := space, pa := pa, va := BitVec.ofNat 64 pa, size := size
    data := data, origin := some (src, id), ctx := ctx, die := 8 + j / 64, live := false }

/-- Is an access one that travels between packages (R28): a load, a store or an atomic, aligned to its size? -/
def fabricOk (op : ReqOp) (pa size : Nat) : Bool :=
  (match op with
    | .load _ _ => true
    | .store => true
    | .atom _ _ _ => true
    | _ => false) && [1, 2, 4, 8].contains size && pa % size == 0

/-- An access of another package to an address: one that carries an ASID of no valid context, or whose address is no memory here, reads
zero and writes nothing, with a record (R16, R44). -/
def serveAccess (j src id asid pa size : Nat) (op : ReqOp) (data : BitVec 128) (s : State) : State :=
  let none_ (c : Nat) (r : Reason) : State :=
    queueMsg src 1 (.reply id 0 0) (record (8 + j / 64) (unitRecord (8 + j / 64) r c 0 (BitVec.ofNat 64 pa) 0 true) s)
  if !fabricOk op pa size then s
  else match ctxOfAsid s asid with
    | none => none_ 0 .noctx
    | some c => if (domainOf s.mem pa).isNone then none_ c .nophys else putReq (ingressReq j src id c size op .llc pa data) s

/-- An access of another package to a team's scratchpad: of a destroyed context it has status bad capability (R44). -/
def serveScratch (j src id c handle off size : Nat) (op : ReqOp) (data : BitVec 128) (s : State) : State :=
  if !fabricOk op off size then s
  else if !ctxValid s c then queueMsg src 1 (.reply id 4 0) s
  else putReq (ingressReq j src id c size op (.remote handle) off data) s

/-- A message from another package served: a send is a send of this package's from here on (R286). -/
def serveMsg (j src : Nat) (m : FabricMsg) (s : State) : State :=
  match m with
  | .access id asid pa size op data => serveAccess j src id asid pa size op data s
  | .scratch id c handle off size op data => serveScratch j src id c handle off size op data s
  | .send id c msg rel rnc k lmask words bytes =>
    let (n, s) := freshId s
    let x : Send := {
      group := 2 ^ 41 + src, msg := msg, sreg := 0, trap := false, rel := rel, rnc := rnc, k := k, lmask := lmask, words := words
      bytes := bytes, ctx := c, remote := none, scope := 3, mask := 0, pc := 0, live := false, origin := some (src, id), inp := 216 + j / 4 }
    { s with sends := Maps.set s.sends n x }
  | .reply id code _ =>
    match Maps.find s.sends id with
    | some x => if x.remote = some src ∧ x.st = .toCore then answer id (min code 4) s else s
    | none => s

/-- The payloads of a class that a port has received and that are not yet understood. -/
def inClass (tc : BitVec 2) (k : Link) : List (List Byte) := (k.received.filter fun e => e.1 == tc).map (·.2)

/-- The first `n` payloads of a class taken. -/
def dropClass (tc : BitVec 2) : Nat → List (BitVec 2 × List Byte) → List (BitVec 2 × List Byte)
  | 0, es => es
  | n + 1, es => dropClass tc n (takeQueued tc es)

/-- The whole messages of a class that a port has received served, in order. -/
def serveClass (j : BitVec 7) (tc : BitVec 2) : Nat → State → State
  | 0, s => s
  | n + 1, s =>
    let k := linkOf s (.port j)
    match Config.fabricMsg tc (inClass tc k) with
    | none => s
    | some (src, m, used) =>
      serveClass j tc n (serveMsg j.toNat src m (setLink (.port j) { k with received := dropClass tc (max 1 used) k.received } s))

/-- What a port has received served; a package without an identifier forwards nothing (R27). -/
def servePort (l : LinkId) (s : State) : State :=
  match l with
  | .port j =>
    if s.boot.pkg.isNone then s
    else ([0, 1, 2, 3] : List (BitVec 2)).foldl (fun s tc => serveClass j tc (inClass tc (linkOf s l)).length s) s
  | .ucie _ _ => s

/-- R26. A receiver checks a flit, expands its payload and records acknowledgements, or treats it as failed. -/
def execFlitReceive (link : LinkId) (header : BitVec 64) (beats : List (BitVec 8)) (s : State) : Out :=
  let k := linkOf s link
  if k.carries then .next (servePort link (setLink link (receive header beats k) s)) else .refused .notDue

end Sys2Proof.Machine
end

