-- ==== Sys2Proof/Machine/Evict.lean ====
section
/-! DEFINITION. Moving teams: eviction to a save area (R303, R304, R456) and restore from it (R305, R284). -/

namespace Sys2Proof.Machine

/-! The save area (R304). -/

def zeros (n : Nat) : List Byte := List.replicate n 0

/-- Bytes written to a save area; those that no enabled domain holds are dropped (R16). -/
def putTsa (pa : Nat) (bs : List Byte) (s : State) : State :=
  if bs.isEmpty || !reachable s.mem pa bs.length then s else onMem (fun m => storeRange m pa bs) s

/-- A number of a save area; 0 where no enabled domain holds it (R16). -/
def tsaNat (s : State) (pa n : Nat) : Nat := if reachable s.mem pa n then natAt s.mem pa n else 0

/-- The words of a sparse map of words, from 0 on. -/
def wordsOf (m : AMap Word) (n : Nat) : List Byte := (List.range n).flatMap fun i => Maps.natLe (Maps.get 0 m i).toNat 4

/-- The cause recorded for DELIVER: EXEC for a fetch, else ACCESS (R195, R304). -/
def recordedCause (g : Group) : Nat := match g.parkReq with
  | some p => if p.acc = .fetch then 7 else 6
  | none => 0

/-- FLAGS of a group block. -/
def groupFlags (g : Group) : Nat :=
  (if g.parked.isSome then 1 + recordedCause g * 2 ^ 8 else 0) + (if g.exited then 4 else 0) + (if g.halted then 8 else 0)

/-- A group block's 2,048 bytes (R304). Of 17 held entries the top one, in the spare position, has no place there and stays with
the model's own record of the group (log entry 20). -/
def groupBlock (g : Group) : List Byte :=
  let stack := ((g.held.reverse.take 16).flatMap fun e => Maps.natLe (entryNum e) 32)
  let head := Maps.natLe g.pc.toNat 8 ++ Maps.natLe g.active.toNat 4 ++ Maps.natLe g.plm.toNat 4 ++ Maps.natLe (groupFlags g) 4 ++
    Maps.natLe g.ovwc.toNat 4 ++ Maps.natLe g.fpm.toNat 4 ++ Maps.natLe g.tag.toNat 4 ++ Maps.natLe g.cptag.toNat 4 ++
    Maps.natLe g.mode.toNat 4 ++ Maps.natLe g.trapbase.toNat 8 ++ Maps.natLe g.rsbase.toNat 8 ++ Maps.natLe g.ix.toNat 1 ++
    Maps.natLe (min 16 g.held.length) 1 ++ zeros 2 ++ Maps.natLe g.depth 4
  head ++ wordsOf g.preds 7 ++ zeros 4 ++ Maps.natLe g.await.toNat 32 ++ wordsOf g.lfsr 32 ++ wordsOf g.sregs 64 ++
    ((List.range 8).flatMap fun i => Maps.natLe (windowNum (g.window i) true) 24) ++ zeros 64 ++
    ((List.range 32).flatMap fun l => Maps.natLe (Maps.get 0 g.faddr l).toNat 8) ++ stack ++ zeros (512 - stack.length) ++ zeros 512

/-- A ring's 16 bytes (R304). -/
def ringBytes (r : Ring) : List Byte :=
  Maps.natLe r.base 4 ++ Maps.natLe r.log 1 ++ Maps.natLe r.slot 1 ++ Maps.natLe (if r.en then 1 else 0) 1 ++ zeros 1 ++
    Maps.natLe (r.head % 2 ^ 32) 4 ++ Maps.natLe (r.free % 2 ^ 32) 4

/-- The header's 4,096 bytes (R304). BARSTATE is in a format of the device's own (log entry 13). -/
def tsaHeader (h : Nat) (t : Team) (hearth : Bool) (carve parked n : Nat) : List Byte :=
  let flags := (if t.halting then 1 else 0) + (if hearth then 2 else 0) + (if t.wslots.any fun w => w.2.held then 4 else 0)
  Maps.natLe h 4 ++ Maps.natLe t.ctx 2 ++ Maps.natLe t.region 2 ++ Maps.natLe (t.slot % 2 ^ 12 + t.die * 2 ^ 29) 4 ++ Maps.natLe t.tidx 4 ++
    Maps.natLe t.ngroups 1 ++ Maps.natLe carve 1 ++ Maps.natLe (t.regs / 16 - 1) 1 ++ Maps.natLe t.scr 1 ++ Maps.natLe 0 4 ++
    Maps.natLe parked 4 ++ Maps.natLe flags 4 ++ ((List.range 32).map fun i => Config.deviceByte n i) ++
    ((List.range 8).flatMap fun i => ringBytes (ringOf t i)) ++ zeros 3904

/-- A weight-buffer slot's 16 bytes (R456). -/
def slotImageBytes (w : WSlot) : List Byte :=
  Maps.natLe w.image.toNat 8 ++ Maps.natLe w.fmt 1 ++
    Maps.natLe ((if w.valid then 1 else 0) + (if w.failed then 8 else 0) + w.lstat % 16 * 16) 1 ++ zeros 6

/-! Eviction (R303). -/

/-- The groups of a team, exited ones too. -/
def groupsOf (s : State) (h : Nat) : AMap Group := s.groups.filter fun e => handleOf e.1 == h

/-- Is every group of a team parked, halted or exited (R303 step 1)? -/
def allStopped (s : State) (h : Nat) : Bool := (groupsOf s h).all fun e => e.2.exited || e.2.parked.isSome || e.2.halted

/-- Has a team traffic for itself that a relay would hold in its own move (log entry 20)? -/
def selfTraffic (s : State) (h : Nat) : Bool :=
  (s.sends.any fun e => handleOf e.2.group == h && e.2.live && e.2.remote.isNone && rncHandle e.2.rnc == h && e.2.st.unanswered) ||
    s.mem.net.any fun e => handleOf e.2.group == h && e.2.live && e.2.space == .remote h && e.2.st == .flying

/-- Is anything that R303 step 3 waits for still out? -/
def teamOut (s : State) (h : Nat) : Bool :=
  (s.mem.net.any fun e => handleOf e.2.group == h && e.2.live) || (s.xfms.any fun e => handleOf e.2.group == h) ||
    (s.samples.any fun e => handleOf e.2.group == h) || (s.copies.any fun e => handleOf e.2.group == h && e.2.left.isNone) ||
    (s.sends.any fun e => handleOf e.2.group == h && e.2.live) || (teamAt s h).wslots.any fun w => w.2.loading

/-- The save area written: header, group blocks, registers, scratchpad and weight-buffer slots (R303 step 4). -/
def writeTsa (h tsa : Nat) (s : State) : State :=
  let t := teamAt s h
  let gs := groupsOf s h
  let (n, s) := draw s
  let hearth := match Maps.find (dieAt s t.die).cards t.slot with
    | some c => c.hearth
    | none => false
  let s := putTsa tsa (tsaHeader h t hearth (coreAt s t.core).carve (gs.filter fun e => e.2.parked.isSome).length n) s
  let s := gs.foldl (fun s e => putTsa (tsaGroup tsa (indexOf e.1)) (groupBlock e.2) s) s
  let s := gs.foldl (fun s e => putTsa (tsa + 0x40000 + 128 * (indexOf e.1 * t.regs)) (wordsOf e.2.vregs (32 * t.regs)) s) s
  let s := putTsa (tsa + 0x140000) (Maps.readBytes t.scratch 0 (65536 * t.scr)) s
  if t.wslots.any fun w => w.2.held then
    (List.range 512).foldl (fun s i => putTsa (tsa + 0x740000 + 2048 * i) (slotImageBytes (wslotOf t i) ++ zeros 2032) s) s
  else s

/-- The team gone from its core, its `evict` answered (R303 steps 5 and 6). -/
def finishEvict (h tsa k : Nat) (s : State) : State :=
  let t := teamAt s h
  let gs := groupsOf s h
  let s := { s with
    saved := Maps.set s.saved h { t with evicting := none, drainAt := none, halting := false, parkedCnt := 0 }
    savedGroups := gs.foldl (fun m e => Maps.set m e.1 { e.2 with parked := none }) s.savedGroups
    groups := s.groups.filter fun e => handleOf e.1 != h
    teams := Maps.del s.teams h }
  let s := setTlt t.ctx h tsa 2 false (tltGen s t.ctx h) 0 (sweepWaits (dieOfCore t.core) s)
  let s := putCused t.ctx t.region s
  onGroup k (fun g => match g.waiting with
    | some (.evict d) => { g.setS d 0 with waiting := none }
    | _ => g) s

/-- What an eviction can do now: set MOVE once the team has stopped, then save it once nothing is out (R303). The record of a save
area that is not there is R16's. -/
def evictStep (s : State) (h : Nat) : Option State :=
  match Maps.find s.teams h with
  | none => none
  | some t => match t.evicting with
    | none => none
    | some (tsa, k) =>
      if !tltMove s t.ctx h then
        if allStopped s h && !selfTraffic s h then some (setMove t.ctx h true s) else none
      else if teamOut s h then none
      else
        let gone := !reachable s.mem tsa 0x840000
        let d := dieOfCore t.core
        let s := if gone then record d (unitRecord d .nophys t.ctx t.region (BitVec.ofNat 64 tsa) 0 false) s else s
        some (finishEvict h tsa k (writeTsa h tsa s))

/-- R303. An eviction stops the team, waits for its work, writes the save area and marks the team evicted. -/
def execTeamEviction (team : Nat) (s : State) : Out :=
  match evictStep s team with
  | some t => .next t
  | none => .refused .notDue

/-! Restore (R305). -/

/-- A window read back from its 24 bytes, to be bound again on its next use (R188, R305 step 2). -/
def windowFrom (v : Nat) : Window :=
  { vbase := BitVec.ofNat 56 (v / 2 ^ 136), tag := BitVec.ofNat 8 (v / 2 ^ 128), frame := BitVec.ofNat 46 (v / 2 ^ 82)
    limit := BitVec.ofNat 31 (v / 2 ^ 51), w := bitN v 50, r := bitN v 49, u := bitN v 2, bound := bitN v 1, live := false }

/-- A sparse map of words read back. -/
def wordsFrom (s : State) (pa n : Nat) : AMap Word :=
  (List.range n).foldl (fun m i => Maps.put 0 m i (BitVec.ofNat 32 (tsaNat s (pa + 4 * i) 4))) []

/-- The lanes with an entry in a fault-address buffer. -/
def faddrMask (f : AMap Dword) : Word := maskOf fun l => decide (Maps.get 0 f l ≠ 0)

/-- The cause that a restored group takes in place of its chain (R305 step 6): with the reason and address of its park. -/
def deliverOf (flags : Nat) (f : AMap Dword) (g : Group) : Option Raise :=
  if bitN flags 0 && bitN flags 1 then
    let c : Cause := if bitsN flags 15 8 = 7 then .exec else .access
    let r : Raise := { cause := c, mask := faddrMask f }
    some (match g.parkReq with
      | some p => { r with reason := p.reason, addr := p.addr, info := p.info }
      | none => r)
  else none

/-- A group read back from its block; `old` holds what the block has no field for (R304). -/
def groupFrom (s : State) (b vr n : Nat) (old : Group) : Group :=
  let f (o k : Nat) : Nat := tsaNat s (b + o) k
  let flags := f 16 4
  let pc : Dword := BitVec.ofNat 64 (f 0 8)
  let faddr : AMap Dword := (List.range 32).foldl (fun m l => Maps.put 0 m l (BitVec.ofNat 64 (f (768 + 8 * l) 8))) []
  let stack := ((List.range (min 16 (f 57 1))).map fun i => entryOf (f (1024 + 32 * i) 32) pc).reverse
  let cpt := f 32 4
  { old with
    pc := pc, active := BitVec.ofNat 32 (f 8 4), plm := BitVec.ofNat 32 (f 12 4), ovwc := BitVec.ofNat 32 (f 20 4)
    fpm := BitVec.ofNat 32 (f 24 4), tag := BitVec.ofNat 32 (f 28 4), mode := BitVec.ofNat 32 (f 36 4)
    trapbase := BitVec.ofNat 64 (f 40 8), rsbase := BitVec.ofNat 64 (f 48 8), ix := BitVec.ofNat 8 (f 56 1)
    held := old.held.take (old.held.length - 16) ++ stack, depth := f 60 4
    preds := wordsFrom s (b + 64) 7, await := BitVec.ofNat 256 (f 96 32), lfsr := (List.range 32).map fun l => (l, BitVec.ofNat 32 (f (128 + 4 * l) 4))
    sregs := wordsFrom s (b + 256) 64
    windows := (List.range 8).foldl (fun m i => Maps.put {} m i (windowFrom (f (512 + 24 * i) 24))) []
    faddr := faddr, vregs := wordsFrom s vr (32 * n)
    cpCur := BitVec.ofNat 2 cpt
    cpTags := (List.range 4).foldl (fun m t => Maps.put {} m t { fail := bitN cpt (4 + t), lost := bitN cpt (4 + t) }) []
    exited := bitN flags 2, halted := bitN flags 3, parked := none, parkReq := none, deliver := (deliverOf flags faddr old).or old.deliver
    haltSeen := none, stalled := false, fetched := [], codeTr := none, block := none, lastIssue := s.clock, idle := true }

/-- The groups of a restored team, each group that has not exited in its scheduler's lowest free slot (R149). -/
def groupsFrom (s : State) (h tsa n : Nat) (slots : List (Nat × Nat)) : AMap Group → AMap Group → AMap Group
  | [], gs => gs
  | (k, old) :: rest, gs =>
    let i := schedOf slots (indexOf k)
    let used := slots ++ (gs.filter fun e => handleOf e.1 == h && !e.2.exited).map fun e => (e.2.sched, e.2.slot)
    let g := groupFrom s (tsaGroup tsa (indexOf k)) (tsa + 0x40000 + 128 * (indexOf k * n)) n old
    groupsFrom s h tsa n slots rest (Maps.set gs k { g with sched := i, slot := freeSlot used i })

/-- A scratchpad read back. -/
def scratchFrom (s : State) (pa n : Nat) : AMap Byte :=
  (((List.range n).map fun i => (i, if (domainOf s.mem (pa + i)).isSome then byteAt s.mem (pa + i) else 0)).filter fun (e : Nat × Byte) => e.2 ≠ 0)

/-- A ring read back; the slots that groups have taken, and the next to be taken, stay as the core had them (R287, R289). -/
def ringFrom (s : State) (tsa i : Nat) (old : Ring) : Ring :=
  let r := savedRing s.mem tsa i
  { r with free := old.free, head := old.head + (r.head + 2 ^ 32 - old.head % 2 ^ 32) % 2 ^ 32, next := old.next, taken := old.taken }

/-- A weight-buffer slot of a restored team: a VALID one loads its image again, which its address names in the team's context, any
other held one is as it was (R456). -/
def restoreSlot (h : Nat) (e : Nat × WSlot) (s : State) : State :=
  let (i, w) := e
  let t := teamAt s h
  if !w.held then s
  else
    let half := (pickHalf s t.core).getD false
    if w.valid then
      match engineTr s t.core (if vaTag w.image = 0xFF then 0 else t.ctx) w.image false with
      | .ok pa => onTeam h (setWslot i { held := true, loading := true, half := half, image := w.image, pa := pa, lstat := w.lstat }) s
      | .error _ =>
        let (n, s) := draw s
        onTeam h (setWslot i { w with valid := false, failed := true, half := half, lstat := n % 16 }) s
    else onTeam h (setWslot i { w with half := half }) s

/-- The entry of a drift log as an arrival (R282): its capability, release, scope, sender mask and words. -/
def driftWords (s : State) (a : Nat) : Dword × Bool × BitVec 2 × Word × List (Nat × Word) :=
  let rnc : Dword := BitVec.ofNat 64 (tsaNat s a 8)
  let flags := tsaNat s (a + 9) 1
  let n := rncRegs (rncWidth rnc)
  let ls := lanesOf (sendLanes (rncLmode rnc) (tsaNat s (a + 8) 1))
  let at_ (p i : Nat) : Word := BitVec.ofNat 32 (tsaNat s (a + 32 + 4 * (n * p + i)) 4)
  (rnc, bitN flags 0, BitVec.ofNat 2 (flags / 2), BitVec.ofNat 32 (tsaNat s (a + 12) 4),
    (ls.zip (List.range ls.length)).flatMap fun e => (List.range n).map fun i => (i * 32 + e.1, at_ e.2 i))

/-- One entry applied as an arrival (R284). -/
def applyDrift (h a : Nat) (s : State) : State :=
  let (rnc, rel, sc, lm, ws) := driftWords s a
  onGroup (groupKey h (rncGroup rnc)) (fun g => if g.exited then g else (arriveIn rnc rel sc lm ws g).2) s

/-- The drift log applied in order and cleared (R284). -/
def applyLog (h tsa : Nat) (s : State) : State :=
  let s := (List.range (min 256 (tsaNat s (tsa + 20) 4))).foldl (fun s i => applyDrift h (driftAt tsa i) s) s
  putTsa (tsa + 20) (Maps.natLe 0 4) s

/-- A team restored on a core (R305). -/
def restoreTeam (die slot h core : Nat) (s : State) : State :=
  match Maps.find s.saved h, Maps.find (dieAt s die).cards slot with
  | some t, some c =>
    let tsa := tltTsa s t.ctx h
    let n := t.regs
    let old := s.savedGroups.filter fun e => handleOf e.1 == h
    let groups := groupsFrom s h tsa n (coreSlots s core) old s.groups
    let t' : Team := { t with
      core := core, freedAt := s.clock, scratch := scratchFrom s (tsa + 0x140000) (65536 * t.scr)
      rings := (List.range 8).foldl (fun m i => Maps.put {} m i (ringFrom s tsa i (ringOf t i))) []
      wslots := t.wslots.filter fun w => !w.2.held }
    let s := setCarve core (tsaNat s (tsa + 17) 1) s
    let s := { s with
      saved := Maps.del s.saved h, savedGroups := s.savedGroups.filter fun e => handleOf e.1 != h
      teams := Maps.set s.teams h t', groups := groups }
    let s := t.wslots.foldl (fun s e => restoreSlot h e s) s
    let s := applyLog h tsa (dropL1 core s)
    let s := setTlt t.ctx h 0 1 false (tltGen s t.ctx h) core s
    let s := onDie die (fun d => { d with cards := Maps.modify d.cards slot fun c => { c with restores := c.restores.filter fun r => r.1 != h } }) s
    let s := ((regionChain s t.ctx t.region).getD []).foldl (fun s r => cacheRcb (dieOfCore core) t.ctx r s) (putCused t.ctx t.region s)
    endDrain die c.posted s
  | _, _ => s

/-- The restore that a die pair's distributor makes next, if it is this team's (R97). -/
def restoreDue (s : State) (h : Nat) : Option (Nat × Nat × Nat) :=
  (List.range 8).findSome? fun d => match dieDeed s d with
    | some (.restore slot k core) => if k = h then some (d, slot, core) else none
    | _ => none

/-- R305. A restored team is placed, loaded from its save area, acquires, applies its drift log and resumes. -/
def execTeamRestore (team : Nat) (s : State) : Out :=
  match restoreDue s team with
  | some (die, slot, core) => .next (restoreTeam die slot team core s)
  | none => .refused .notDue

end Sys2Proof.Machine
end

