-- ==== Sys2Proof/Machine/Float.lean ====
section
/-! DEFINITION. Floating-point, conversion and lane instructions of pipe A (R358 to R376). -/

namespace Sys2Proof.Machine

open Sys2Proof.Num (Ev FV f32 f16 bf16 f64 e4m3 e5m2 Rm Fmt)

/-! FP32 forms (R360, R361, R363). -/

def fBin (g : Group) (op : FV → FV → FV) (a b : Nat) : Nat × Ev := Num.bin f32 g.rm g.fz32 op a b
def fTri (g : Group) (op : FV → FV → FV → FV) (a b d : Nat) : Nat × Ev := Num.tri f32 g.rm g.fz32 op a b d
def addOp (rm : Rm) (x y : FV) : FV := Num.add rm x y
def subOp (rm : Rm) (x y : FV) : FV := Num.add rm x (Num.neg y)
def fmaOp (rm : Rm) (x y z : FV) : FV := Num.add rm (Num.mul x y) z
def fmsOp (rm : Rm) (x y z : FV) : FV := Num.add rm (Num.mul x y) (Num.neg z)
def fnmaOp (rm : Rm) (x y z : FV) : FV := Num.add rm (Num.neg (Num.mul x y)) z

def isLt (o : Option Ordering) : Bool := o == some .lt
def isEq (o : Option Ordering) : Bool := o == some .eq
def isGt (o : Option Ordering) : Bool := o == some .gt

/-- A relation of two FP32 operands flushed under FZ32 (R363). -/
def fcmpWord (rel : Option Ordering → Bool) (x : Bool) (p : BitVec 3) (a b : BitVec 7) (g : Group) (s : State) : WordOut :=
  laneP x p a b (fun u v => rel (Num.relate f32 g.fz32 u.toNat v.toNat)) g s

/-- R360. FP32 add. -/
def execFadd (_c x : Bool) (d a b : BitVec 7) (s : State) : Out :=
  issue (fun g => laneEv2 x d a b (fBin g (addOp g.rm)) g) s

/-- R360. FP32 subtract. -/
def execFsub (_c x : Bool) (d a b : BitVec 7) (s : State) : Out :=
  issue (fun g => laneEv2 x d a b (fBin g (subOp g.rm)) g) s

/-- R360. FP32 minimum under the min–max rule. -/
def execFmin (_c x : Bool) (d a b : BitVec 7) (s : State) : Out :=
  issue (fun g => laneEv2 x d a b (Num.minmaxBits f32 g.fz32 false) g) s

/-- R360. FP32 maximum under the min–max rule. -/
def execFmax (_c x : Bool) (d a b : BitVec 7) (s : State) : Out :=
  issue (fun g => laneEv2 x d a b (Num.minmaxBits f32 g.fz32 true) g) s

/-- R360. Clear the sign bit. -/
def execFabs (_c x : Bool) (d a : BitVec 7) (s : State) : Out := issue (lane1 x d a (fun a => a &&& 0x7FFFFFFF#32)) s

/-- R360. Invert the sign bit. -/
def execFneg (_c x : Bool) (d a : BitVec 7) (s : State) : Out := issue (lane1 x d a (fun a => a ^^^ 0x80000000#32)) s

/-- R360. Round to integral under RM. -/
def execFrnd (_c x : Bool) (d a : BitVec 7) (s : State) : Out :=
  issue (fun g => laneEv1 x d a (Num.una f32 g.rm g.fz32 (Num.toIntegral g.rm)) g) s

/-- R360. Fractional part clamped below 1. -/
def execFract (_c x : Bool) (d a : BitVec 7) (s : State) : Out :=
  issue (fun g => laneEv1 x d a (Num.fract g.rm g.fz32) g) s

/-- R362. fadd with a scalar second operand. -/
def execFaddScalarB (_c x : Bool) (d a : BitVec 7) (sb : BitVec 6) (s : State) : Out :=
  issue (fun g => laneEvS x d a sb (fBin g (addOp g.rm)) g) s

/-- R362. fsub with a scalar second operand. -/
def execFsubScalarB (_c x : Bool) (d a : BitVec 7) (sb : BitVec 6) (s : State) : Out :=
  issue (fun g => laneEvS x d a sb (fBin g (subOp g.rm)) g) s

/-- R362. fmin with a scalar second operand. -/
def execFminScalarB (_c x : Bool) (d a : BitVec 7) (sb : BitVec 6) (s : State) : Out :=
  issue (fun g => laneEvS x d a sb (Num.minmaxBits f32 g.fz32 false) g) s

/-- R362. fmax with a scalar second operand. -/
def execFmaxScalarB (_c x : Bool) (d a : BitVec 7) (sb : BitVec 6) (s : State) : Out :=
  issue (fun g => laneEvS x d a sb (Num.minmaxBits f32 g.fz32 true) g) s

/-- R361. FP32 multiply. -/
def execFmul (_c x : Bool) (d a b : BitVec 7) (s : State) : Out :=
  issue (fun g => laneEv2 x d a b (fBin g Num.mul) g) s

/-- R361. Fused multiply-add with D as addend. -/
def execFma (_c x : Bool) (d a b : BitVec 7) (s : State) : Out :=
  issue (fun g => laneEv3 x d a b (fTri g (fmaOp g.rm)) g) s

/-- R361. Fused multiply-subtract. -/
def execFms (_c x : Bool) (d a b : BitVec 7) (s : State) : Out :=
  issue (fun g => laneEv3 x d a b (fTri g (fmsOp g.rm)) g) s

/-- R361. Negated fused multiply-add. -/
def execFnma (_c x : Bool) (d a b : BitVec 7) (s : State) : Out :=
  issue (fun g => laneEv3 x d a b (fTri g (fnmaOp g.rm)) g) s

/-- R362. fmul with a scalar second operand. -/
def execFmulScalarB (_c x : Bool) (d a : BitVec 7) (sb : BitVec 6) (s : State) : Out :=
  issue (fun g => laneEvS x d a sb (fBin g Num.mul) g) s

/-- R362. fma with a scalar second operand. -/
def execFmaScalarB (_c x : Bool) (d a : BitVec 7) (sb : BitVec 6) (s : State) : Out :=
  issue (fun g => laneEvS3 x d a sb (fTri g (fmaOp g.rm)) g) s

/-- R362. fms with a scalar second operand. -/
def execFmsScalarB (_c x : Bool) (d a : BitVec 7) (sb : BitVec 6) (s : State) : Out :=
  issue (fun g => laneEvS3 x d a sb (fTri g (fmsOp g.rm)) g) s

/-- R362. fnma with a scalar second operand. -/
def execFnmaScalarB (_c x : Bool) (d a : BitVec 7) (sb : BitVec 6) (s : State) : Out :=
  issue (fun g => laneEvS3 x d a sb (fTri g (fnmaOp g.rm)) g) s

/-- R363. FP32 equal compare. -/
def execFcmpEq (_c x : Bool) (p : BitVec 3) (a b : BitVec 7) (s : State) : Out := issue (fcmpWord isEq x p a b) s

/-- R363. FP32 not-equal compare. -/
def execFcmpNe (_c x : Bool) (p : BitVec 3) (a b : BitVec 7) (s : State) : Out :=
  issue (fcmpWord (fun o => !isEq o) x p a b) s

/-- R363. FP32 less-than compare. -/
def execFcmpLt (_c x : Bool) (p : BitVec 3) (a b : BitVec 7) (s : State) : Out := issue (fcmpWord isLt x p a b) s

/-- R363. FP32 less-or-equal compare. -/
def execFcmpLe (_c x : Bool) (p : BitVec 3) (a b : BitVec 7) (s : State) : Out :=
  issue (fcmpWord (fun o => isLt o || isEq o) x p a b) s

/-- R363. FP32 greater-than compare. -/
def execFcmpGt (_c x : Bool) (p : BitVec 3) (a b : BitVec 7) (s : State) : Out := issue (fcmpWord isGt x p a b) s

/-- R363. FP32 greater-or-equal compare. -/
def execFcmpGe (_c x : Bool) (p : BitVec 3) (a b : BitVec 7) (s : State) : Out :=
  issue (fcmpWord (fun o => isGt o || isEq o) x p a b) s

/-- R363. True when either operand is NaN. -/
def execFcmpUnord (_c x : Bool) (p : BitVec 3) (a b : BitVec 7) (s : State) : Out :=
  issue (fcmpWord (fun o => o.isNone) x p a b) s

/-- R363. True when neither operand is NaN. -/
def execFcmpOrd (_c x : Bool) (p : BitVec 3) (a b : BitVec 7) (s : State) : Out :=
  issue (fcmpWord (fun o => o.isSome) x p a b) s

/-! Packed halves (R364). -/

/-- Element `i` of a packed register. -/
def half (w i : Nat) : Nat := w / 2 ^ (16 * i) % 2 ^ 16

/-- Two element results packed, their events added. -/
def packed (f : Nat → Nat × Ev) : Nat × Ev := ((f 0).1 + (f 1).1 * 2 ^ 16, (f 0).2.add (f 1).2)

def packed2 (f : Nat → Nat → Nat × Ev) (a b : Nat) : Nat × Ev := packed fun i => f (half a i) (half b i)
def packed3 (f : Nat → Nat → Nat → Nat × Ev) (a b d : Nat) : Nat × Ev := packed fun i => f (half a i) (half b i) (half d i)

/-- R364. Packed FP16 add. -/
def execHaddF16x2 (_c x : Bool) (d a b : BitVec 7) (s : State) : Out :=
  issue (fun g => laneEv2 x d a b (packed2 (Num.bin f16 g.rm g.fz16 (addOp g.rm))) g) s

/-- R364. Packed FP16 multiply. -/
def execHmulF16x2 (_c x : Bool) (d a b : BitVec 7) (s : State) : Out :=
  issue (fun g => laneEv2 x d a b (packed2 (Num.bin f16 g.rm g.fz16 Num.mul)) g) s

/-- R364. Packed FP16 fused multiply-add. -/
def execHfmaF16x2 (_c x : Bool) (d a b : BitVec 7) (s : State) : Out :=
  issue (fun g => laneEv3 x d a b (packed3 (Num.tri f16 g.rm g.fz16 (fmaOp g.rm))) g) s

/-- R364. Packed BF16 add. -/
def execHaddBf16x2 (_c x : Bool) (d a b : BitVec 7) (s : State) : Out :=
  issue (fun g => laneEv2 x d a b (packed2 (Num.bin bf16 g.rm g.fzbf (addOp g.rm))) g) s

/-- R364. Packed BF16 multiply. -/
def execHmulBf16x2 (_c x : Bool) (d a b : BitVec 7) (s : State) : Out :=
  issue (fun g => laneEv2 x d a b (packed2 (Num.bin bf16 g.rm g.fzbf Num.mul)) g) s

/-- R364. Packed BF16 fused multiply-add. -/
def execHfmaBf16x2 (_c x : Bool) (d a b : BitVec 7) (s : State) : Out :=
  issue (fun g => laneEv3 x d a b (packed3 (Num.tri bf16 g.rm g.fzbf (fmaOp g.rm))) g) s

/-- R364. Packed FP16 minimum. -/
def execHminF16x2 (_c x : Bool) (d a b : BitVec 7) (s : State) : Out :=
  issue (fun g => laneEv2 x d a b (packed2 (Num.minmaxBits f16 g.fz16 false)) g) s

/-- R364. Packed FP16 maximum. -/
def execHmaxF16x2 (_c x : Bool) (d a b : BitVec 7) (s : State) : Out :=
  issue (fun g => laneEv2 x d a b (packed2 (Num.minmaxBits f16 g.fz16 true)) g) s

/-! Special functions (R365). -/

/-- A special function of a lane: the input flushed, the value within its bound, the result flushed where its exact value, or the one
returned, is below the smallest normal (R245). -/
def sfuLane (fn : Nat) (g : Group) (a : Nat) : Nat × Ev :=
  let (x, fl) := Num.unpack f32 g.fz32 a
  if g.fz32 && Num.sfuTiny fn x then (if fn ≠ 3 ∧ bitN a 31 then 2 ^ 31 else 0, { ftz := 1 })
  else Num.out f32 .rne g.fz32 fl (Num.isNan x) (Num.sfuValue fn x (Config.sfu fn (BitVec.ofNat 32 a)).toNat)

/-- R365. FP32 reciprocal on the SFU. -/
def execFrcp (_c x : Bool) (d a : BitVec 7) (s : State) : Out := issue (fun g => laneEv1 x d a (sfuLane 0 g) g) s

/-- R365. FP32 reciprocal square root. -/
def execFrsq (_c x : Bool) (d a : BitVec 7) (s : State) : Out := issue (fun g => laneEv1 x d a (sfuLane 1 g) g) s

/-- R365. FP32 square root, correctly rounded. -/
def execFsqrt (_c x : Bool) (d a : BitVec 7) (s : State) : Out :=
  issue (fun g => laneEv1 x d a (Num.una f32 g.rm g.fz32 Num.sqrt) g) s

/-- R365. Base-2 exponential. -/
def execFexp2 (_c x : Bool) (d a : BitVec 7) (s : State) : Out := issue (fun g => laneEv1 x d a (sfuLane 3 g) g) s

/-- R365. Base-2 logarithm. -/
def execFlog2 (_c x : Bool) (d a : BitVec 7) (s : State) : Out := issue (fun g => laneEv1 x d a (sfuLane 4 g) g) s

/-- R365. Sine. -/
def execFsin (_c x : Bool) (d a : BitVec 7) (s : State) : Out := issue (fun g => laneEv1 x d a (sfuLane 5 g) g) s

/-- R365. Cosine. -/
def execFcos (_c x : Bool) (d a : BitVec 7) (s : State) : Out := issue (fun g => laneEv1 x d a (sfuLane 6 g) g) s

/-- R365. Hyperbolic tangent. -/
def execFtanh (_c x : Bool) (d a : BitVec 7) (s : State) : Out := issue (fun g => laneEv1 x d a (sfuLane 7 g) g) s

/-! FP64 (R366). -/

/-- A pair result with events in the active lanes. -/
def writePairsEv (g : Group) (d : Nat) (f : Nat → Nat × Ev) (s : State) : State :=
  charge g.tag ((lanesOf g.active).foldl (fun e l => e.add (f l).2) {})
    (onCur (fun live => live.setV64 d g.active (fun l => BitVec.ofNat 64 (f l).1)) s)

def dWord (x : Bool) (d : BitVec 7) (src : List (BitVec 7)) (f : Nat → Nat × Ev) (g : Group) (s : State) : WordOut :=
  { regWord s g x [vr x d g 2 2] (src.map fun a => vr x a g 2 2) with effect := writePairsEv g (ea x d g) f }

def d1 (x : Bool) (d a : BitVec 7) (op : FV → FV) (g : Group) (s : State) : WordOut :=
  dWord x d [a] (fun l => Num.una f64 g.rm g.fz64 op (g.v64 (ea x a g) l).toNat) g s

def d2 (x : Bool) (d a b : BitVec 7) (f : Nat → Nat → Nat × Ev) (g : Group) (s : State) : WordOut :=
  dWord x d [a, b] (fun l => f (g.v64 (ea x a g) l).toNat (g.v64 (ea x b g) l).toNat) g s

/-- R366. FP64 add. -/
def execDadd (_c x : Bool) (d a b : BitVec 7) (s : State) : Out :=
  issue (fun g => d2 x d a b (Num.bin f64 g.rm g.fz64 (addOp g.rm)) g) s

/-- R366. FP64 subtract. -/
def execDsub (_c x : Bool) (d a b : BitVec 7) (s : State) : Out :=
  issue (fun g => d2 x d a b (Num.bin f64 g.rm g.fz64 (subOp g.rm)) g) s

/-- R366. FP64 multiply. -/
def execDmul (_c x : Bool) (d a b : BitVec 7) (s : State) : Out :=
  issue (fun g => d2 x d a b (Num.bin f64 g.rm g.fz64 Num.mul) g) s

/-- R366. FP64 fused multiply-add. -/
def execDfma (_c x : Bool) (d a b : BitVec 7) (s : State) : Out :=
  issue (fun g => dWord x d [a, b, d] (fun l => Num.tri f64 g.rm g.fz64 (fmaOp g.rm) (g.v64 (ea x a g) l).toNat
    (g.v64 (ea x b g) l).toNat (g.v64 (ea x d g) l).toNat) g) s

/-- R366. FP64 minimum. -/
def execDmin (_c x : Bool) (d a b : BitVec 7) (s : State) : Out :=
  issue (fun g => d2 x d a b (Num.minmaxBits f64 g.fz64 false) g) s

/-- R366. FP64 maximum. -/
def execDmax (_c x : Bool) (d a b : BitVec 7) (s : State) : Out :=
  issue (fun g => d2 x d a b (Num.minmaxBits f64 g.fz64 true) g) s

/-- R366. FP64 reciprocal. -/
def execDrcp (_c x : Bool) (d a : BitVec 7) (s : State) : Out := issue (d1 x d a (Num.div (.fin false 1 0))) s

/-- R366. FP64 square root. -/
def execDsqrt (_c x : Bool) (d a : BitVec 7) (s : State) : Out := issue (d1 x d a Num.sqrt) s

/-! Scalar conversions (R367). -/

/-- The float type of a code: 0 f32, 1 f16, 2 bf16, 3 f64. -/
def cvtFmt (t : Nat) : Fmt := if t = 0 then f32 else if t = 1 then f16 else if t = 2 then bf16 else f64

/-- The flush bit of a float type. -/
def cvtFz (g : Group) (t : Nat) : Bool := if t = 0 then g.fz32 else if t = 1 then g.fz16 else if t = 2 then g.fzbf else g.fz64

/-- The rounding mode of a code (R367). -/
def cvtRm (g : Group) (r : Nat) : Rm := if r = 0 then g.rm else Num.rmOf (r - 1)

/-- Does every value of the source type fit the destination type? -/
def widens (t s : Nat) : Bool := (t == 3 && s < 3) || (t == 0 && (s == 1 || s == 2))

/-- A conversion to an integer type (R249, R367): value and saturation. -/
def toIntType (t : Nat) (rm : Rm) (v : FV) : Nat × Bool :=
  let (i, sat) := if t = 4 then Num.toInt rm (-(2 ^ 31)) (2 ^ 31 - 1) v else Num.toInt rm 0 (2 ^ 32 - 1) v
  (wrapN 32 i, sat)

/-- The result of a conversion of source bits (R367). -/
def cvtValue (g : Group) (t r s : Nat) (a : Nat) : Nat × Ev :=
  let rm := cvtRm g r
  if s < 4 then
    let (v, fl) := Num.unpack (cvtFmt s) (cvtFz g s) (a % 2 ^ (cvtFmt s).width)
    if t < 4 then Num.out (cvtFmt t) rm (!widens t s && cvtFz g t) fl (Num.isNan v) v
    else let (n, sat) := toIntType t rm v; (n, { sat := if sat then 1 else 0, ftz := if fl then 1 else 0 })
  else
    let i : Int := if s = 4 then signedN 32 (a % 2 ^ 32) else (a % 2 ^ 32 : Nat)
    if t < 4 then ((Num.pack (cvtFmt t) rm false (Num.ofInt i)).1, {})
    else let (n, sat) := toIntType t .rne (Num.ofInt i); (n, { sat := if sat then 1 else 0 })

def cvtWord (x : Bool) (t : BitVec 3) (d a : BitVec 7) (r sb : BitVec 3) (g : Group) (s : State) : WordOut :=
  let nd := if t.toNat = 3 then 2 else 1
  let ns := if sb.toNat = 3 then 2 else 1
  let w := regWord s g x [vr x d g nd nd] [vr x a g ns ns]
  let f (l : Nat) := cvtValue g t.toNat r.toNat sb.toNat (if ns = 2 then (g.v64 (ea x a g) l).toNat else (g.v (ea x a g) l).toNat)
  { w with
    raises := legal (cvtOk t r sb) g ++ w.raises
    effect := if nd = 2 then writePairsEv g (ea x d g) f else writeLanesEv g (ea x d g) f }

/-- R367. Convert between f32, f16, bf16, f64, s32 and n32 under a chosen rounding. -/
def execCvt (_c x : Bool) (t : BitVec 3) (d a : BitVec 7) (r sb : BitVec 3) (s : State) : Out :=
  issue (cvtWord x t d a r sb) s

/-! Narrowing and widening (R368 to R370). -/

/-- A lane's generator after `n` steps (R246). -/
def genAfter (g : Group) (l : Nat) : Nat → Nat
  | 0 => g.gen l
  | n + 1 => Num.lfsrStep (genAfter g l n)

/-- How element `i` of lane `l` rounds: under RM, or with the generator's number after its step (R247). -/
def narHow (sr : Bool) (g : Group) (l i : Nat) : Num.Nar := if sr then .sr (genAfter g l (i + 1) / 2 ^ 16) else .mode g.rm

/-- The generators of the active lanes stepped `n` times each, on from where the chain's other words have left them (R247). -/
def stepGens (n : Nat) (g : Group) (live : Group) : Group :=
  (lanesOf g.active).foldl (fun v l => v.setGen l (genAfter live l n)) live

/-- Elements packed, `w` bits each, from bit 0. -/
def packElems (w : Nat) : List Nat → Nat
  | [] => 0
  | e :: es => e + 2 ^ w * packElems w es

/-- Narrowing of four FP32 values to bytes (R368). -/
def cvtnWord (f : Fmt) (sr : Bool) (fze : Group → Bool) (x : Bool) (d a : BitVec 7) (g : Group) (s : State) : WordOut :=
  let elem (l i : Nat) : Nat × Ev :=
    let (v, fl) := Num.unpack f32 g.fz32 (g.v (ea x a g + i) l).toNat
    Num.narrow f (narHow sr g l i) (fze g) fl v
  let lane (l : Nat) : Nat × Ev :=
    let es := [0, 1, 2, 3].map (elem l)
    (packElems 8 (es.map (·.1)), es.foldl (fun e p => e.add p.2) {})
  { regWord s g x [vr x d g 1 1] [vr x a g 4 4] with
    effect := fun s => (if sr then onCur (stepGens 4 g) else id) (writeLanesEv g (ea x d g) lane s) }

/-- R368. Narrow four FP32 values to E4M3 under RM. -/
def execCvtnE4m3 (_c x : Bool) (d a : BitVec 7) (s : State) : Out := issue (cvtnWord e4m3 false (·.fze4) x d a) s

/-- R368. Narrow four FP32 values to E4M3 stochastically. -/
def execCvtnE4m3Sr (_c x : Bool) (d a : BitVec 7) (s : State) : Out := issue (cvtnWord e4m3 true (·.fze4) x d a) s

/-- R368. Narrow four FP32 values to E5M2 under RM. -/
def execCvtnE5m2 (_c x : Bool) (d a : BitVec 7) (s : State) : Out := issue (cvtnWord e5m2 false (·.fze5) x d a) s

/-- R368. Narrow four FP32 values to E5M2 stochastically. -/
def execCvtnE5m2Sr (_c x : Bool) (d a : BitVec 7) (s : State) : Out := issue (cvtnWord e5m2 true (·.fze5) x d a) s

/-- Narrowing of a block of eight to E2M1 with its block scale (R369). -/
def cvtnBlockWord (sr : Bool) (x : Bool) (d a b : BitVec 7) (g : Group) (s : State) : WordOut :=
  let lane (l : Nat) : Nat × Ev :=
    let xs := (List.range 8).map fun i => Num.unpack f32 g.fz32 (g.v (ea x a g + i) l).toNat
    let beta := (g.v (ea x b g) l).toNat % 2 ^ 16
    let (c, es, ev) := Num.narrowBlock (Num.decode bf16 beta) (Num.bandOk beta) (xs.map (·.1)) (narHow sr g l)
    (packElems 4 es + c * 2 ^ 32, { ev with ftz := (xs.filter (·.2)).length })
  { regWord s g x [vr x d g 2 2] [vr x a g 8 8, vr x b g 1 1] with
    effect := fun s => (if sr then onCur (stepGens 8 g) else id) (writePairsEv g (ea x d g) lane s) }

/-- R369. Narrow a block of eight FP32 values to block-scaled E2M1. -/
def execCvtnE2m1b (_c x : Bool) (d a b : BitVec 7) (s : State) : Out := issue (cvtnBlockWord false x d a b) s

/-- R369. Block-scaled E2M1 narrowing with stochastic rounding. -/
def execCvtnE2m1bSr (_c x : Bool) (d a b : BitVec 7) (s : State) : Out := issue (cvtnBlockWord true x d a b) s

/-- Widening of four bytes to FP32 (R370). -/
def cvtwWord (f : Fmt) (fze : Group → Bool) (x : Bool) (d a : BitVec 7) (g : Group) (s : State) : WordOut :=
  let elem (l i : Nat) : Nat × Ev :=
    let (v, fl) := Num.unpack f (fze g) ((g.v (ea x a g) l).toNat / 2 ^ (8 * i) % 2 ^ 8)
    (Num.packRne f32 v, { ftz := if fl then 1 else 0 })
  { regWord s g x [vr x d g 4 4] [vr x a g 1 1] with
    effect := fun s => [0, 1, 2, 3].foldl (fun s i => writeLanesEv g (ea x d g + i) (fun l => elem l i) s) s }

/-- R370. Widen four E4M3 bytes to FP32. -/
def execCvtwE4m3 (_c x : Bool) (d a : BitVec 7) (s : State) : Out := issue (cvtwWord e4m3 (·.fze4) x d a) s

/-- R370. Widen four E5M2 bytes to FP32. -/
def execCvtwE5m2 (_c x : Bool) (d a : BitVec 7) (s : State) : Out := issue (cvtwWord e5m2 (·.fze5) x d a) s

/-! Camera-relative transforms (R371) and FP64 compares (R372). -/

/-- An exact FP64 difference rounded once to FP32 under RNE, nothing flushed (R371). -/
def xrelValue (a b : Nat) : Nat × Ev :=
  let u := Num.decode f64 a
  let v := Num.decode f64 b
  Num.out f32 .rne false false (Num.isNan u || Num.isNan v) (subOp .rne u v)

def xrelWord (n : Nat) (x : Bool) (d a : BitVec 7) (sb : BitVec 6) (g : Group) (s : State) : WordOut :=
  let w := regWord s g x [vr x d g n 1] [vr x a g (2 * n) 2] (ss := (List.range (2 * n)).map (sb.toNat + ·))
  { w with
    raises := legal (even6 sb && sb.toNat + 2 * n ≤ 64) g ++ w.raises
    effect := fun s => (List.range n).foldl (fun s c => writeLanesEv g (ea x d g + c)
      (fun l => xrelValue (g.v64 (ea x a g + 2 * c) l).toNat (g.s64 (sb.toNat + 2 * c)).toNat) s) s }

/-- R371. FP64 position minus a scalar origin, rounded once to FP32. -/
def execXrel (_c x : Bool) (d a : BitVec 7) (sb : BitVec 6) (s : State) : Out := issue (xrelWord 1 x d a sb) s

/-- R371. Three-component camera-relative subtraction. -/
def execXrel3 (_c x : Bool) (d a : BitVec 7) (sb : BitVec 6) (s : State) : Out := issue (xrelWord 3 x d a sb) s

def dcmpWord (rel : Option Ordering → Bool) (x : Bool) (p : BitVec 3) (a b : BitVec 7) (g : Group) (s : State) : WordOut :=
  { regWord s g x [] [vr x a g 2 2, vr x b g 2 2] (dp := [p.toNat]) with
    effect := onCur fun live => live.setP p.toNat g.active
      (maskOf fun l => rel (Num.relate f64 g.fz64 (g.v64 (ea x a g) l).toNat (g.v64 (ea x b g) l).toNat)) }

/-- R372. FP64 equal compare. -/
def execDcmpEq (_c x : Bool) (p : BitVec 3) (a b : BitVec 7) (s : State) : Out := issue (dcmpWord isEq x p a b) s

/-- R372. FP64 less-than compare. -/
def execDcmpLt (_c x : Bool) (p : BitVec 3) (a b : BitVec 7) (s : State) : Out := issue (dcmpWord isLt x p a b) s

/-- R372. FP64 less-or-equal compare. -/
def execDcmpLe (_c x : Bool) (p : BitVec 3) (a b : BitVec 7) (s : State) : Out :=
  issue (dcmpWord (fun o => isLt o || isEq o) x p a b) s

/-- R372. FP64 unordered compare. -/
def execDcmpUnord (_c x : Bool) (p : BitVec 3) (a b : BitVec 7) (s : State) : Out :=
  issue (dcmpWord (fun o => o.isNone) x p a b) s

/-! Lane operations (R373 to R375). -/

/-- A shuffle: lane `l` reads lane `src l c` of A, active or not (R373). -/
def shflWord (src : Nat → Nat → Nat) (x : Bool) (d a b : BitVec 7) (g : Group) (s : State) : WordOut :=
  { regWord s g x [vr x d g 1 1] [vr x a g 1 1, vr x b g 1 1] with
    effect := writeLanes g (ea x d g) fun l => g.v (ea x a g) (src l (g.v (ea x b g) l).toNat) }

def srcIdx (_l c : Nat) : Nat := c % 32
def srcUp (l c : Nat) : Nat := if l < c then l else l - c
def srcDown (l c : Nat) : Nat := if 31 < l + c then l else l + c
def srcXor (l c : Nat) : Nat := Nat.xor l (c % 32)

/-- R373. Read A from an indexed lane. -/
def execShflIdx (_c x : Bool) (d a b : BitVec 7) (s : State) : Out := issue (shflWord srcIdx x d a b) s

/-- R373. Read A from a lower lane. -/
def execShflUp (_c x : Bool) (d a b : BitVec 7) (s : State) : Out := issue (shflWord srcUp x d a b) s

/-- R373. Read A from a higher lane. -/
def execShflDown (_c x : Bool) (d a b : BitVec 7) (s : State) : Out := issue (shflWord srcDown x d a b) s

/-- R373. Read A from the lane XOR c. -/
def execShflXor (_c x : Bool) (d a b : BitVec 7) (s : State) : Out := issue (shflWord srcXor x d a b) s

def voteWord (f : Word → Word → Word) (x : Bool) (d : BitVec 7) (p : BitVec 3) (g : Group) (s : State) : WordOut :=
  { regWord s g x [vr x d g 1 1] [] (sp := [p.toNat]) with effect := writeLanes g (ea x d g) fun _ => f (g.p p.toNat) g.active }

/-- R374. 1 if any active lane's predicate is set. -/
def execVoteAny (_c x : Bool) (d : BitVec 7) (p : BitVec 3) (s : State) : Out :=
  issue (voteWord (fun p m => if p &&& m = 0 then 0 else 1) x d p) s

/-- R374. 1 if every active lane's predicate is set. -/
def execVoteAll (_c x : Bool) (d : BitVec 7) (p : BitVec 3) (s : State) : Out :=
  issue (voteWord (fun p m => if p &&& m = m then 1 else 0) x d p) s

/-- R374. Mask of active lanes with the predicate set. -/
def execVoteBallot (_c x : Bool) (d : BitVec 7) (p : BitVec 3) (s : State) : Out :=
  issue (voteWord (fun p m => p &&& m) x d p) s

/-- The lane that a quad exchange reads (R375). -/
def quadLane (k l : Nat) : Nat :=
  if k = 0 then Nat.xor l 1 else if k = 1 then Nat.xor l 2 else if k = 2 then Nat.xor l 3 else l / 4 * 4

def qswzWord (x : Bool) (d a : BitVec 7) (k : BitVec 2) (g : Group) (s : State) : WordOut :=
  { regWord s g x [vr x d g 1 1] [vr x a g 1 1] with
    effect := writeLanes g (ea x d g) fun l => g.v (ea x a g) (quadLane k.toNat l) }

/-- R375. Exchange values within quads of four lanes. -/
def execQswz (_c x : Bool) (d a : BitVec 7) (k : BitVec 2) (s : State) : Out := issue (qswzWord x d a k) s

/-! Reductions and scans (R376). -/

/-- The running values of a combination over the active lanes, in lane order. -/
def runs {α : Type} (f : α → α → α) : α → List α → List α
  | acc, [] => [acc]
  | acc, y :: ys => acc :: runs f (f acc y) ys

/-- The running values over the active lanes, from each lane's element. -/
def runLanes {α : Type} (f : α → α → α) (elem : Nat → α) : List Nat → List α
  | [] => []
  | l :: ls => runs f (elem l) (ls.map elem)

/-- The value written to active lane `l`: its own running value for a scan, the last one otherwise. -/
def redPick {α : Type} (scan : Bool) (dflt : α) (lanes : List Nat) (rs : List α) (l : Nat) : α :=
  if scan then (rs[lanes.idxOf l]?).getD dflt else (rs.getLast?).getD dflt

def redInt (scan : Bool) (f : Word → Word → Word) (x : Bool) (d a : BitVec 7) (g : Group) (s : State) : WordOut :=
  let rs := runLanes f (g.v (ea x a g)) (lanesOf g.active)
  { regWord s g x [vr x d g 1 1] [vr x a g 1 1] with
    effect := writeLanes g (ea x d g) (redPick scan 0 (lanesOf g.active) rs) }

/-- A running FP32 value: its bits, whether anything has been flushed, whether a source was a NaN. -/
structure RunF where
  bits : Nat
  fl   : Bool
  sn   : Bool
deriving DecidableEq, Repr

def redF (scan : Bool) (f : Group → Nat → Nat → Nat × Ev) (x : Bool) (d a : BitVec 7) (g : Group) (s : State) : WordOut :=
  let elem (l : Nat) : RunF :=
    let (v, fl) := Num.unpack f32 g.fz32 (g.v (ea x a g) l).toNat
    { bits := Num.packRne f32 v, fl := fl, sn := Num.isNan v }
  let comb (p q : RunF) : RunF := let (b, ev) := f g p.bits q.bits; { bits := b, fl := p.fl || q.fl || ev.ftz != 0, sn := p.sn || q.sn }
  let rs := runLanes comb elem (lanesOf g.active)
  let lane (l : Nat) : Nat × Ev :=
    let r := redPick scan { bits := 0, fl := false, sn := false } (lanesOf g.active) rs l
    (r.bits, { ftz := if r.fl then 1 else 0, nan := if Num.isNan (Num.decode f32 r.bits) && !r.sn then 1 else 0 })
  { regWord s g x [vr x d g 1 1] [vr x a g 1 1] with effect := writeLanesEv g (ea x d g) lane }

def fAddBits (g : Group) (a b : Nat) : Nat × Ev := fBin g (addOp g.rm) a b

/-- R376. Integer sum over active lanes. -/
def execRedAddS32 (_c x : Bool) (d a : BitVec 7) (s : State) : Out := issue (redInt false (fun p q => p + q) x d a) s

/-- R376. FP32 sum over active lanes in lane order. -/
def execRedAddF32 (_c x : Bool) (d a : BitVec 7) (s : State) : Out := issue (redF false fAddBits x d a) s

/-- R376. FP32 minimum over active lanes. -/
def execRedMinF32 (_c x : Bool) (d a : BitVec 7) (s : State) : Out :=
  issue (redF false (fun g => Num.minmaxBits f32 g.fz32 false) x d a) s

/-- R376. FP32 maximum over active lanes. -/
def execRedMaxF32 (_c x : Bool) (d a : BitVec 7) (s : State) : Out :=
  issue (redF false (fun g => Num.minmaxBits f32 g.fz32 true) x d a) s

/-- R376. Inclusive integer scan over active lanes. -/
def execScanAddS32 (_c x : Bool) (d a : BitVec 7) (s : State) : Out := issue (redInt true (fun p q => p + q) x d a) s

/-- R376. Inclusive FP32 scan over active lanes. -/
def execScanAddF32 (_c x : Bool) (d a : BitVec 7) (s : State) : Out := issue (redF true fAddBits x d a) s

/-- R376. Bitwise AND over active lanes. -/
def execRedAnd (_c x : Bool) (d a : BitVec 7) (s : State) : Out := issue (redInt false (fun p q => p &&& q) x d a) s

/-- R376. Bitwise OR over active lanes. -/
def execRedOr (_c x : Bool) (d a : BitVec 7) (s : State) : Out := issue (redInt false (fun p q => p ||| q) x d a) s

end Sys2Proof.Machine
end

