-- ==== Sys2Proof/Machine/Flags.lean ====
section
/-! DEFINITION. Carry and borrow (R342, R343) and the integer relations of compares (R348, R355): the only condition bits
of this hardware are predicates. -/

namespace Sys2Proof.Machine

/-- The carry out of a + b + c. -/
def carryOut (a b : Word) (c : Bool) : Bool := 2 ^ 32 ≤ a.toNat + b.toNat + c.toNat

/-- The borrow out of a − b − c. -/
def borrowOut (a b : Word) (c : Bool) : Bool := a.toNat < b.toNat + c.toNat

def eqW (a b : Word) : Bool := a == b
def neW (a b : Word) : Bool := a != b
def ltS (a b : Word) : Bool := a.slt b
def leS (a b : Word) : Bool := a.sle b
def gtS (a b : Word) : Bool := b.slt a
def geS (a b : Word) : Bool := b.sle a
def ltN (a b : Word) : Bool := a.ult b
def leN (a b : Word) : Bool := a.ule b
def geN (a b : Word) : Bool := b.ule a

end Sys2Proof.Machine
end

