-- ==== Sys2Proof/Machine/Int.lean ====
section
/-! DEFINITION. Integer, logical, shift, compare, select and move instructions of pipe A (R339 to R352). -/

namespace Sys2Proof.Machine

def iadd (a b : Word) : Word := a + b
def isub (a b : Word) : Word := a - b
def iminS (a b : Word) : Word := if leS a b then a else b
def iminN (a b : Word) : Word := if leN a b then a else b
def imaxS (a b : Word) : Word := if leS a b then b else a
def imaxN (a b : Word) : Word := if leN a b then b else a

/-- Sum or difference through p6: the result and the new carry (R343). -/
def withCarry (sub : Bool) (a b : Word) (c : Bool) : Word × Bool :=
  if sub then (a - b - BitVec.ofNat 32 c.toNat, borrowOut a b c) else (a + b + BitVec.ofNat 32 c.toNat, carryOut a b c)

/-- The carry forms: D and p6 from A, the second operand by lane, and p6 (R341, R343). -/
def carryWord (sub x : Bool) (d a : BitVec 7) (src : List VR) (ss : List Nat) (b : Nat → Word) (g : Group) (s : State) : WordOut :=
  let r (l : Nat) := withCarry sub (g.v (ea x a g) l) (b l) ((g.p 6).getLsbD l)
  { regWord s g x [vr x d g 1 1] ([vr x a g 1 1] ++ src) ss [] [6] [6] with
    effect := onCur fun live => (live.setV (ea x d g) g.active (fun l => (r l).1)).setP 6 g.active (maskOf fun l => (r l).2) }

/-- The high word of a signed or unsigned product (R345). -/
def mulHigh (signed : Bool) (a b : Word) : Word :=
  if signed then BitVec.ofInt 32 (a.toInt * b.toInt / 2 ^ 32) else BitVec.ofNat 32 (a.toNat * b.toNat / 2 ^ 32)

def iabs (a : Word) : Word := if a.msb then 0 - a else a
def ineg (a : Word) : Word := 0 - a

/-! Logic (R347). -/

def andW (a b : Word) : Word := a &&& b
def orW (a b : Word) : Word := a ||| b
def xorW (a b : Word) : Word := a ^^^ b
def andnW (a b : Word) : Word := a &&& ~~~b
def ornW (a b : Word) : Word := a ||| ~~~b
def popcW (a : Word) : Word := BitVec.ofNat 32 (popN 32 a.toNat)
def clzW (a : Word) : Word := BitVec.ofNat 32 (if a = 0 then 32 else 31 - Nat.log2 a.toNat)
def ctzW (a : Word) : Word := BitVec.ofNat 32 (if a = 0 then 32 else lowLane a)

/-! Shifts and fields (R348). -/

def shlW (a c : Word) : Word := if 32 ≤ c.toNat then 0 else a <<< c.toNat
def shrW (a c : Word) : Word := if 32 ≤ c.toNat then 0 else a >>> c.toNat
def sarW (a c : Word) : Word := a.sshiftRight (min 31 c.toNat)
def rotlW (a c : Word) : Word := a.rotateLeft (c.toNat % 32)

/-- The position and length of the field that b controls, cut at bit 31; length 0 for an empty one (R348). -/
def fieldOf (b : Word) : Nat × Nat :=
  let pos := b.toNat % 256
  let len := b.toNat / 256 % 256
  if len = 0 ∨ 32 ≤ pos then (0, 0) else (pos, min (pos + len) 32 - pos)

def bfeN (a b : Word) : Word := let (p, n) := fieldOf b; BitVec.ofNat 32 (a.toNat / 2 ^ p % 2 ^ n)
def bfeS (a b : Word) : Word :=
  let (p, n) := fieldOf b
  if n = 0 then 0 else BitVec.ofInt 32 (signedN n (a.toNat / 2 ^ p))
def bfi (a b d : Word) : Word :=
  let (p, n) := fieldOf b
  BitVec.ofNat 32 (d.toNat % 2 ^ p + a.toNat % 2 ^ n * 2 ^ p + d.toNat / 2 ^ (p + n) * 2 ^ (p + n))

/-- Byte `i` of the permutation (R348). -/
def permByte (a b d : Word) (i : Nat) : Nat :=
  let sel := b.toNat / 2 ^ (4 * i) % 16
  if 8 ≤ sel then 0 else (a.toNat + d.toNat * 2 ^ 32) / 2 ^ (8 * sel) % 256
def bperm (a b d : Word) : Word :=
  BitVec.ofNat 32 (permByte a b d 0 + permByte a b d 1 * 2 ^ 8 + permByte a b d 2 * 2 ^ 16 + permByte a b d 3 * 2 ^ 24)

/-- R343. Per-lane 32-bit add. -/
def execIadd (_c x : Bool) (d a b : BitVec 7) (s : State) : Out := issue (lane2 x d a b iadd) s

/-- R343. Per-lane 32-bit subtract. -/
def execIsub (_c x : Bool) (d a b : BitVec 7) (s : State) : Out := issue (lane2 x d a b isub) s

/-- R343. Per-lane signed minimum. -/
def execIminS (_c x : Bool) (d a b : BitVec 7) (s : State) : Out := issue (lane2 x d a b iminS) s

/-- R343. Per-lane unsigned minimum. -/
def execIminN (_c x : Bool) (d a b : BitVec 7) (s : State) : Out := issue (lane2 x d a b iminN) s

/-- R343. Per-lane signed maximum. -/
def execImaxS (_c x : Bool) (d a b : BitVec 7) (s : State) : Out := issue (lane2 x d a b imaxS) s

/-- R343. Per-lane unsigned maximum. -/
def execImaxN (_c x : Bool) (d a b : BitVec 7) (s : State) : Out := issue (lane2 x d a b imaxN) s

/-- R343. Add with carry in and out through p6. -/
def execIaddc (_c x : Bool) (d a b : BitVec 7) (s : State) : Out :=
  issue (fun g => carryWord false x d a [vr x b g 1 1] [] (g.v (ea x b g)) g) s

/-- R343. Subtract with borrow in and out through p6. -/
def execIsubb (_c x : Bool) (d a b : BitVec 7) (s : State) : Out :=
  issue (fun g => carryWord true x d a [vr x b g 1 1] [] (g.v (ea x b g)) g) s

/-- R344. iadd with a uniform scalar second operand. -/
def execIaddScalarB (_c x : Bool) (d a : BitVec 7) (sb : BitVec 6) (s : State) : Out := issue (laneS x d a sb iadd) s

/-- R344. isub with a scalar second operand. -/
def execIsubScalarB (_c x : Bool) (d a : BitVec 7) (sb : BitVec 6) (s : State) : Out := issue (laneS x d a sb isub) s

/-- R344. imin.s with a scalar second operand. -/
def execIminSScalarB (_c x : Bool) (d a : BitVec 7) (sb : BitVec 6) (s : State) : Out :=
  issue (laneS x d a sb iminS) s

/-- R344. imin.n with a scalar second operand. -/
def execIminNScalarB (_c x : Bool) (d a : BitVec 7) (sb : BitVec 6) (s : State) : Out :=
  issue (laneS x d a sb iminN) s

/-- R344. imax.s with a scalar second operand. -/
def execImaxSScalarB (_c x : Bool) (d a : BitVec 7) (sb : BitVec 6) (s : State) : Out :=
  issue (laneS x d a sb imaxS) s

/-- R344. imax.n with a scalar second operand. -/
def execImaxNScalarB (_c x : Bool) (d a : BitVec 7) (sb : BitVec 6) (s : State) : Out :=
  issue (laneS x d a sb imaxN) s

/-- R344. iaddc with a scalar second operand. -/
def execIaddcScalarB (_c x : Bool) (d a : BitVec 7) (sb : BitVec 6) (s : State) : Out :=
  issue (fun g => carryWord false x d a [] [sb.toNat] (fun _ => g.s sb.toNat) g) s

/-- R344. isubb with a scalar second operand. -/
def execIsubbScalarB (_c x : Bool) (d a : BitVec 7) (sb : BitVec 6) (s : State) : Out :=
  issue (fun g => carryWord true x d a [] [sb.toNat] (fun _ => g.s sb.toNat) g) s

/-- R345. Low 32 bits of the product. -/
def execImul (_c x : Bool) (d a b : BitVec 7) (s : State) : Out := issue (lane2 x d a b (fun a b => a * b)) s

/-- R345. High 32 bits of the signed product. -/
def execImulhS (_c x : Bool) (d a b : BitVec 7) (s : State) : Out := issue (lane2 x d a b (mulHigh true)) s

/-- R345. High 32 bits of the unsigned product. -/
def execImulhN (_c x : Bool) (d a b : BitVec 7) (s : State) : Out := issue (lane2 x d a b (mulHigh false)) s

/-- R345. Low product bits plus the old destination. -/
def execImad (_c x : Bool) (d a b : BitVec 7) (s : State) : Out := issue (lane3 x d a b (fun a b d => a * b + d)) s

/-- R345. Signed high product plus the old destination. -/
def execImadhS (_c x : Bool) (d a b : BitVec 7) (s : State) : Out :=
  issue (lane3 x d a b (fun a b d => mulHigh true a b + d)) s

/-- R345. Unsigned high product plus the old destination. -/
def execImadhN (_c x : Bool) (d a b : BitVec 7) (s : State) : Out :=
  issue (lane3 x d a b (fun a b d => mulHigh false a b + d)) s

/-- R345. Signed absolute value. -/
def execIabs (_c x : Bool) (d a : BitVec 7) (s : State) : Out := issue (lane1 x d a iabs) s

/-- R345. Two's-complement negation. -/
def execIneg (_c x : Bool) (d a : BitVec 7) (s : State) : Out := issue (lane1 x d a ineg) s

/-- R347. Bitwise AND. -/
def execAnd (_c x : Bool) (d a b : BitVec 7) (s : State) : Out := issue (lane2 x d a b andW) s

/-- R347. Bitwise OR. -/
def execOr (_c x : Bool) (d a b : BitVec 7) (s : State) : Out := issue (lane2 x d a b orW) s

/-- R347. Bitwise XOR. -/
def execXor (_c x : Bool) (d a b : BitVec 7) (s : State) : Out := issue (lane2 x d a b xorW) s

/-- R347. A AND NOT B. -/
def execAndn (_c x : Bool) (d a b : BitVec 7) (s : State) : Out := issue (lane2 x d a b andnW) s

/-- R347. A OR NOT B. -/
def execOrn (_c x : Bool) (d a b : BitVec 7) (s : State) : Out := issue (lane2 x d a b ornW) s

/-- R347. Population count. -/
def execPopc (_c x : Bool) (d a : BitVec 7) (s : State) : Out := issue (lane1 x d a popcW) s

/-- R347. Count leading zeros. -/
def execClz (_c x : Bool) (d a : BitVec 7) (s : State) : Out := issue (lane1 x d a clzW) s

/-- R347. Count trailing zeros. -/
def execCtz (_c x : Bool) (d a : BitVec 7) (s : State) : Out := issue (lane1 x d a ctzW) s

/-- R344. and with a scalar second operand. -/
def execAndScalarB (_c x : Bool) (d a : BitVec 7) (sb : BitVec 6) (s : State) : Out := issue (laneS x d a sb andW) s

/-- R344. or with a scalar second operand. -/
def execOrScalarB (_c x : Bool) (d a : BitVec 7) (sb : BitVec 6) (s : State) : Out := issue (laneS x d a sb orW) s

/-- R344. xor with a scalar second operand. -/
def execXorScalarB (_c x : Bool) (d a : BitVec 7) (sb : BitVec 6) (s : State) : Out := issue (laneS x d a sb xorW) s

/-- R344. andn with a scalar second operand. -/
def execAndnScalarB (_c x : Bool) (d a : BitVec 7) (sb : BitVec 6) (s : State) : Out := issue (laneS x d a sb andnW) s

/-- R344. orn with a scalar second operand. -/
def execOrnScalarB (_c x : Bool) (d a : BitVec 7) (sb : BitVec 6) (s : State) : Out := issue (laneS x d a sb ornW) s

/-- R348. Shift left. -/
def execShl (_c x : Bool) (d a b : BitVec 7) (s : State) : Out := issue (lane2 x d a b shlW) s

/-- R348. Logical shift right. -/
def execShr (_c x : Bool) (d a b : BitVec 7) (s : State) : Out := issue (lane2 x d a b shrW) s

/-- R348. Arithmetic shift right. -/
def execSar (_c x : Bool) (d a b : BitVec 7) (s : State) : Out := issue (lane2 x d a b sarW) s

/-- R348. Rotate left. -/
def execRotl (_c x : Bool) (d a b : BitVec 7) (s : State) : Out := issue (lane2 x d a b rotlW) s

/-- R348. Unsigned bit-field extract. -/
def execBfeN (_c x : Bool) (d a b : BitVec 7) (s : State) : Out := issue (lane2 x d a b bfeN) s

/-- R348. Signed bit-field extract. -/
def execBfeS (_c x : Bool) (d a b : BitVec 7) (s : State) : Out := issue (lane2 x d a b bfeS) s

/-- R348. Bit-field insert into the old destination. -/
def execBfi (_c x : Bool) (d a b : BitVec 7) (s : State) : Out := issue (lane3 x d a b bfi) s

/-- R348. Byte permute from the old destination and A. -/
def execBperm (_c x : Bool) (d a b : BitVec 7) (s : State) : Out := issue (lane3 x d a b bperm) s

/-- R349. Integer equal compare into a predicate. -/
def execIcmpEq (_c x : Bool) (p : BitVec 3) (a b : BitVec 7) (s : State) : Out := issue (laneP x p a b eqW) s

/-- R349. Integer not-equal compare. -/
def execIcmpNe (_c x : Bool) (p : BitVec 3) (a b : BitVec 7) (s : State) : Out := issue (laneP x p a b neW) s

/-- R349. Signed less-than compare. -/
def execIcmpLtS (_c x : Bool) (p : BitVec 3) (a b : BitVec 7) (s : State) : Out := issue (laneP x p a b ltS) s

/-- R349. Signed less-or-equal compare. -/
def execIcmpLeS (_c x : Bool) (p : BitVec 3) (a b : BitVec 7) (s : State) : Out := issue (laneP x p a b leS) s

/-- R349. Signed greater-than compare. -/
def execIcmpGtS (_c x : Bool) (p : BitVec 3) (a b : BitVec 7) (s : State) : Out := issue (laneP x p a b gtS) s

/-- R349. Signed greater-or-equal compare. -/
def execIcmpGeS (_c x : Bool) (p : BitVec 3) (a b : BitVec 7) (s : State) : Out := issue (laneP x p a b geS) s

/-- R349. Unsigned less-than compare. -/
def execIcmpLtN (_c x : Bool) (p : BitVec 3) (a b : BitVec 7) (s : State) : Out := issue (laneP x p a b ltN) s

/-- R349. Unsigned greater-or-equal compare. -/
def execIcmpGeN (_c x : Bool) (p : BitVec 3) (a b : BitVec 7) (s : State) : Out := issue (laneP x p a b geN) s

/-- `sel`: A where the predicate holds, else B (R350). -/
def selWord (x : Bool) (p : BitVec 3) (d a b : BitVec 7) (g : Group) (s : State) : WordOut :=
  { regWord s g x [vr x d g 1 1] [vr x a g 1 1, vr x b g 1 1] (sp := [p.toNat]) with
    effect := writeLanes g (ea x d g) fun l => if (g.p p.toNat).getLsbD l then g.v (ea x a g) l else g.v (ea x b g) l }

/-- R350. Per-lane select of A or B by a predicate. -/
def execSel (_c x : Bool) (p : BitVec 3) (d a b : BitVec 7) (s : State) : Out := issue (selWord x p d a b) s

/-- R351. Vector register move. -/
def execMov (_c x : Bool) (d a : BitVec 7) (s : State) : Out := issue (lane1 x d a (fun a => a)) s

/-- `mov64` (R351). -/
def mov64Word (x : Bool) (d a : BitVec 7) (g : Group) (s : State) : WordOut :=
  { regWord s g x [vr x d g 2 2] [vr x a g 2 2] with
    effect := onCur fun live => live.setV64 (ea x d g) g.active (g.v64 (ea x a g)) }

/-- R351. Vector pair move. -/
def execMov64 (_c x : Bool) (d a : BitVec 7) (s : State) : Out := issue (mov64Word x d a) s

/-- `movs` (R351). -/
def movsWord (x : Bool) (d : BitVec 7) (sb : BitVec 6) (g : Group) (s : State) : WordOut :=
  { regWord s g x [vr x d g 1 1] [] (ss := [sb.toNat]) with effect := writeLanes g (ea x d g) fun _ => g.s sb.toNat }

/-- R351. Broadcast a scalar into a vector register. -/
def execMovs (_c x : Bool) (d : BitVec 7) (sb : BitVec 6) (s : State) : Out := issue (movsWord x d sb) s

/-- The register that a lane names: base plus its offset byte (R352). -/
def laneReg (base : Nat) (g : Group) (eb l : Nat) : Nat := base + (g.v eb l).toNat % 256

/-- REGBOUND where an active lane names a register at or above ALLOT (R352). -/
def laneRegRaises (s : State) (g : Group) (base eb : Nat) : List Raise :=
  unless_ ((lanesOf g.active).all fun l => laneReg base g eb l < allot s) .regbound g

/-- The registers from a base up to ALLOT (R352). -/
def baseUp (s : State) (base : Nat) : List RegId := (List.range (allot s - base)).map fun i => .vec (base + i)

/-- `vrd` (R352). -/
def vrdWord (x : Bool) (d a b : BitVec 7) (g : Group) (s : State) : WordOut :=
  let w := regWord s g x [vr x d g 1 1] [vr x a g 1 1, vr x b g 1 1]
  { w with
    raises := w.raises ++ laneRegRaises s g (ea x a g) (ea x b g)
    uses := w.uses ++ baseUp s (ea x a g)
    effect := writeLanes g (ea x d g) fun l => g.v (laneReg (ea x a g) g (ea x b g) l) l }

/-- R352. Per-lane indexed register read. -/
def execVrd (_c x : Bool) (d a b : BitVec 7) (s : State) : Out := issue (vrdWord x d a b) s

/-- `vwr` (R352). The extra destination stands for every vector register in the check of R314. -/
def vwrWord (x : Bool) (d a b : BitVec 7) (g : Group) (s : State) : WordOut :=
  let w := regWord s g x [vr x d g 1 1] [vr x a g 1 1, vr x b g 1 1]
  { w with
    raises := w.raises ++ laneRegRaises s g (ea x d g) (ea x b g)
    uses := w.uses ++ baseUp s (ea x d g)
    dests := w.dests ++ [.vec 4096]
    effect := onCur fun live =>
      (lanesOf g.active).foldl (fun v l => v.setLane (laneReg (ea x d g) g (ea x b g) l) l (g.v (ea x a g) l)) live }

/-- R352. Per-lane indexed register write. -/
def execVwr (_c x : Bool) (d a b : BitVec 7) (s : State) : Out := issue (vwrWord x d a b) s

/-- `pmov` (R351). -/
def pmovWord (x : Bool) (p : BitVec 3) (a : BitVec 7) (g : Group) (s : State) : WordOut :=
  { regWord s g x [] [vr x a g 1 1] (dp := [p.toNat]) with
    effect := onCur fun live => live.setP p.toNat g.active (maskOf fun l => g.v (ea x a g) l != 0) }

/-- R351. Set a predicate from a non-zero register. -/
def execPmov (_c x : Bool) (p : BitVec 3) (a : BitVec 7) (s : State) : Out := issue (pmovWord x p a) s

/-- `pget` (R351). -/
def pgetWord (x : Bool) (d : BitVec 7) (p : BitVec 3) (g : Group) (s : State) : WordOut :=
  { regWord s g x [vr x d g 1 1] [] (sp := [p.toNat]) with
    effect := writeLanes g (ea x d g) fun l => if (g.p p.toNat).getLsbD l then 1 else 0 }

/-- R351. Read a predicate into a register. -/
def execPget (_c x : Bool) (d : BitVec 7) (p : BitVec 3) (s : State) : Out := issue (pgetWord x d p) s

/-- R346. Add an immediate. -/
def execIaddi (_c x : Bool) (d a : BitVec 7) (i : BitVec 10) (lit : Option (BitVec 25)) (s : State) : Out :=
  issue (lane1 x d a (fun a => a + immVI i lit)) s

/-- `movi` (R346). -/
def moviWord (x : Bool) (d : BitVec 7) (v : Word) (g : Group) (s : State) : WordOut :=
  { regWord s g x [vr x d g 1 1] [] with effect := writeLanes g (ea x d g) fun _ => v }

/-- R346. Move an immediate. -/
def execMovi (_c x : Bool) (d : BitVec 7) (i : BitVec 10) (lit : Option (BitVec 25)) (s : State) : Out :=
  issue (moviWord x d (immVI i lit)) s

end Sys2Proof.Machine
end

