-- ==== Sys2Proof/Machine/Sm.lean ====
section
/-! DEFINITION. SM3 and the verification of SM2 signatures (R45, R46, R49, R52), as GB/T 32905 and GB/T 32918 give them (log entry
10). Bytes are in the big-endian order of those standards. -/

namespace Sys2Proof.Machine

/-- The number that bytes hold, highest first. -/
def beNat (bs : List Byte) : Nat := bs.foldl (fun n b => 256 * n + b.toNat) 0

/-- `n` bytes of a number, highest first. -/
def beBytes (v n : Nat) : List Byte := (Maps.natLe v n).reverse

/-! SM3. -/

namespace Sm3

def p0 (x : Word) : Word := x ^^^ x.rotateLeft 9 ^^^ x.rotateLeft 17
def p1 (x : Word) : Word := x ^^^ x.rotateLeft 15 ^^^ x.rotateLeft 23

/-- The message padded to whole blocks. -/
def pad (m : List Byte) : List Byte :=
  let k := (119 - m.length % 64) % 64
  m ++ [0x80#8] ++ List.replicate k 0 ++ beBytes (8 * m.length) 8

/-- The words of a block, the latest first, extended by `n` words. -/
def extend : Nat → List Word → List Word
  | 0, ws => ws
  | n + 1, ws =>
    let w (i : Nat) : Word := ws.getD (i - 1) 0
    extend n ((p1 (w 16 ^^^ w 9 ^^^ (w 3).rotateLeft 15) ^^^ (w 13).rotateLeft 7 ^^^ w 6) :: ws)

/-- The 68 words of a block. -/
def schedule (block : List Byte) : List Word :=
  (extend 52 (((List.range 16).map fun i => BitVec.ofNat 32 (beNat ((block.drop (4 * i)).take 4))).reverse)).reverse

structure Chain where
  a : Word
  b : Word
  c : Word
  d : Word
  e : Word
  f : Word
  g : Word
  h : Word

def iv : Chain := ⟨0x7380166F, 0x4914B2B9, 0x172442D7, 0xDA8A0600, 0xA96F30BC, 0x163138AA, 0xE38DEE4D, 0xB0FB0E4E⟩

def round (ws : List Word) (v : Chain) (j : Nat) : Chain :=
  let t : Word := if j < 16 then 0x79CC4519 else 0x7A879D8A
  let ff := if j < 16 then v.a ^^^ v.b ^^^ v.c else (v.a &&& v.b) ||| (v.a &&& v.c) ||| (v.b &&& v.c)
  let gg := if j < 16 then v.e ^^^ v.f ^^^ v.g else (v.e &&& v.f) ||| (~~~v.e &&& v.g)
  let ss1 := (v.a.rotateLeft 12 + v.e + t.rotateLeft (j % 32)).rotateLeft 7
  let ss2 := ss1 ^^^ v.a.rotateLeft 12
  let w := ws.getD j 0
  let tt1 := ff + v.d + ss2 + (w ^^^ ws.getD (j + 4) 0)
  let tt2 := gg + v.h + ss1 + w
  ⟨tt1, v.a, v.b.rotateLeft 9, v.c, p0 tt2, v.e, v.f.rotateLeft 19, v.g⟩

def compress (v : Chain) (block : List Byte) : Chain :=
  let ws := schedule block
  let r := (List.range 64).foldl (round ws) v
  ⟨r.a ^^^ v.a, r.b ^^^ v.b, r.c ^^^ v.c, r.d ^^^ v.d, r.e ^^^ v.e, r.f ^^^ v.f, r.g ^^^ v.g, r.h ^^^ v.h⟩

end Sm3

/-- The SM3 digest of a message. -/
def sm3 (m : List Byte) : BitVec 256 :=
  let bs := Sm3.pad m
  let v := (List.range (bs.length / 64)).foldl (fun v i => Sm3.compress v ((bs.drop (64 * i)).take 64)) Sm3.iv
  BitVec.ofNat 256 ([v.a, v.b, v.c, v.d, v.e, v.f, v.g, v.h].foldl (fun n w => n * 2 ^ 32 + w.toNat) 0)

/-! SM2. -/

namespace Sm2

def p : Nat := 0xFFFFFFFEFFFFFFFFFFFFFFFFFFFFFFFFFFFFFFFF00000000FFFFFFFFFFFFFFFF
def a : Nat := p - 3
def b : Nat := 0x28E9FA9E9D9F5E344D5A9E4BCF6509A7F39789F515AB8F92DDBCBD414D940E93
def n : Nat := 0xFFFFFFFEFFFFFFFFFFFFFFFFFFFFFFFF7203DF6B21C6052B53BBF40939D54123
def gx : Nat := 0x32C4AE2C1F1981195F9904466A39C9948FE30BBFF2660BE1715A4589334C74C7
def gy : Nat := 0xBC3736A2F4F6779C59BDCEE36B692153D0A9877CC62A474002DF32E52139F0A0

/-- A power modulo p; `k` bits of the exponent. -/
def powMod (x e : Nat) : Nat → Nat
  | 0 => 1
  | k + 1 => let r := powMod (x * x % p) (e / 2) k; if e % 2 = 1 then x * r % p else r

def inv (x : Nat) : Nat := powMod (x % p) (p - 2) 256

/-- The sum of two points of the curve; none is the point at infinity. -/
def add (u v : Option (Nat × Nat)) : Option (Nat × Nat) :=
  match u, v with
  | none, v => v
  | u, none => u
  | some (x, y), some (z, w) =>
    if x = z ∧ (y + w) % p = 0 then none
    else
      let l := if x = z then (3 * x * x + a) * inv (2 * y) % p else (w + p - y) * inv (z + p - x) % p
      let t := (l * l + 2 * p - x - z) % p
      some (t, (l * (x + p - t) + p - y) % p)

/-- A multiple of a point; `k` bits of the factor. -/
def mul (f : Nat) (u : Option (Nat × Nat)) : Nat → Option (Nat × Nat)
  | 0 => none
  | k + 1 => let r := mul (f / 2) (add u u) k; if f % 2 = 1 then add u r else r

def onCurve (x y : Nat) : Bool := decide (x < p) && decide (y < p) && y * y % p == (x * x * x + a * x + b) % p

/-- The digest that is signed: of the signer's identifier and key, and the message. -/
def digest (id : List Byte) (key : BitVec 512) (m : List Byte) : BitVec 256 :=
  let za := sm3 (beBytes (8 * id.length) 2 ++ id ++ beBytes a 32 ++ beBytes b 32 ++ beBytes gx 32 ++ beBytes gy 32 ++ beBytes key.toNat 64)
  sm3 (beBytes za.toNat 32 ++ m)

/-- Does a signature, r then s, verify over a digest under a key, x then y? -/
def verifies (key : BitVec 512) (e : BitVec 256) (sig : BitVec 512) : Bool :=
  let x := key.toNat / 2 ^ 256
  let y := key.toNat % 2 ^ 256
  let r := sig.toNat / 2 ^ 256
  let s := sig.toNat % 2 ^ 256
  let t := (r + s) % n
  onCurve x y && decide (0 < r) && decide (r < n) && decide (0 < s) && decide (s < n) && t != 0 &&
    (match add (mul s (some (gx, gy)) 256) (mul t (some (x, y)) 256) with
      | some (x1, _) => (e.toNat + x1) % n == r
      | none => false)

/-- A power modulo m; `k` bits of the exponent. -/
def powIn (m x e : Nat) : Nat → Nat
  | 0 => 1
  | k + 1 => let r := powIn m (x * x % m) (e / 2) k; if e % 2 = 1 then x * r % m else r

/-- The private key that a number gives: one of 1 to n − 2. -/
def secretOf (v : Nat) : Nat := 1 + v % (n - 2)

/-- The public key of a private one, x then y. -/
def publicOf (d : Nat) : BitVec 512 := match mul d (some (gx, gy)) 256 with
  | some (x, y) => BitVec.ofNat 512 (x * 2 ^ 256 + y)
  | none => 0

/-- The signature, r then s, of a digest under a private key with a random number, which must be another where it gives none. -/
def signWith (d : Nat) (e : BitVec 256) (v : Nat) : Option (BitVec 512) :=
  let k := 1 + v % (n - 1)
  match mul k (some (gx, gy)) 256 with
  | some (x, _) =>
    let r := (e.toNat + x) % n
    let s := powIn n (1 + d) (n - 2) 256 * (k + (n - r * d % n)) % n
    if r = 0 ∨ r + k = n ∨ s = 0 then none else some (BitVec.ofNat 512 (r * 2 ^ 256 + s))
  | none => none

/-- A signature with the first of several random numbers that gives one. -/
def sign (d : Nat) (e : BitVec 256) (vs : List Nat) : BitVec 512 := ((vs.findSome? (signWith d e))).getD 0

end Sm2

end Sys2Proof.Machine
end

