-- ==== Sys2Proof/Machine/Manage.lean ====
section
/-! DEFINITION. Boot and measurement (R45 to R50), the management commands (R51 to R54), the lifetime record's store and the
loss of the supply (R61, R62). -/

namespace Sys2Proof.Machine

/-- The next draw's number. -/
def drawNo (s : State) : Nat × State := (s.draws, { s with draws := s.draws + 1 })

/-! Measurement (R49). -/

/-- A component measured under its code. -/
def measure (code : BitVec 16) (c : List Byte) (s : State) : State :=
  let d := sm3 c
  { s with boot := { s.boot with
    meas := sm3 (beBytes s.boot.meas.toNat 32 ++ beBytes d.toNat 32), mlog := s.boot.mlog ++ [(code, d)] } }

/-- R49. A component is measured. -/
def execMeasureComponent (code : BitVec 16) (component : List (BitVec 8)) (s : State) : Out :=
  if s.boot.phase = .running then .next (measure code component s) else .refused .notDue

/-! The boot ROM (R45, R46). -/

/-- A field of an image, lowest byte first. -/
def imageNat (img : List Byte) (off n : Nat) : Nat := Maps.leNat ((img.drop off).take n)

def imageBody (img : List Byte) : List Byte := (img.drop 128).take (imageNat img 12 4)

def imageSvn (img : List Byte) : Nat := imageNat img 8 4

def imageKey (img : List Byte) : List Byte := (img.drop 16).take 64

/-- Is an image laid out as R45 gives it: the length of its body, its reserved bytes, and as many bytes as these take? -/
def imageForm (img : List Byte) : Bool :=
  let l := imageNat img 12 4
  l % 64 == 0 && decide (l ≤ 2 ^ 26) && imageNat img 112 16 == 0 && decide (128 + l + 64 ≤ img.length)

/-- Does an image pass the five checks of the boot ROM (R46)? One that is not laid out as R45 gives it does not. -/
def imagePasses (b : Boot) (img : List Byte) : Bool :=
  let n := 128 + imageNat img 12 4
  let key := BitVec.ofNat 512 (beNat (imageKey img))
  imageForm img && imageNat img 0 4 == 0x4F4E4B39 && imageNat img 4 4 == 1 && sm3 (imageKey img) == b.keyDigest &&
    decide (b.rollback ≤ imageSvn img) && (sm3 (imageBody img)).toNat == beNat ((img.drop 80).take 32) &&
    Sm2.verifies key (Sm2.digest Config.bootSigner key (img.take n)) (BitVec.ofNat 512 (beNat ((img.drop n).take 64)))

/-- Every link of the package. -/
def allLinks : List LinkId :=
  ((List.range 128).map fun j => .port (BitVec.ofNat 7 j)) ++
    (List.range 10).flatMap fun d => (List.range 8).map fun m => .ucie (BitVec.ofNat 4 d) (BitVec.ofNat 3 m)

/-- A control core begins in a mode (R46, R48). -/
def startCtl (m : CtlMode) (cc : Nat) (s : State) : State := { s with ctl := Maps.set s.ctl cc { up := true, mode := m } }

/-- A die released (R48): a compute die with its tokens and its count. -/
def releaseDie (d : Nat) (s : State) : State :=
  onDie d (fun x =>
    if d < 8 then { x with running := true, cycleBase := s.clock, slipAt := s.clock, tokens := freshTokens s.clock } else { x with running := true })
    (cleanDie d true s)

/-- The firmware of an image measured and started in M mode (R46, R49): the image header that is measured is its first 128 bytes, without the
signature that follows the body (DESIGN CHOICE, log entry 29); its operator keys enrolled, and the rollback fuses blown that its
configuration block asks for; the number blown never falls. -/
def startFirmware (img : List Byte) (s : State) : State :=
  let body := imageBody img
  let s := measure (Config.componentCode 1) (img.take 128) s
  let s := (List.range 3).foldl (fun s i => measure (Config.componentCode (2 + i)) (Config.bodyPart i body) s) s
  let s := (List.range 8).foldl (fun s cc => startCtl .machine cc s) (countLife .boots 1 s)
  { s with boot := { s.boot with
      phase := .starting 0, image := img, opKeys := (Config.operatorKeys body).take 4, addresses := Config.mgmtAddresses body
      svn := imageSvn img, lastSeq := 0, stream := [], rollback := max s.boot.rollback (min 64 (Config.fusesToBlow body)) } }

/-- A boot failure recorded, and the wait for a reload begun (R46, R47), with the operator keys of the flash image that
failed: which keys are enrolled then the spec does not say (DESIGN CHOICE, log entry 28). -/
def awaitReload (s : State) : State :=
  let s := countLife .bootFailures 1 s
  let body := imageBody s.boot.flash
  { s with boot := { s.boot with
      phase := .waiting, lastSeq := 0, stream := [], opKeys := (Config.operatorKeys body).take 4, addresses := Config.mgmtAddresses body } }

/-- The links that `p` picks brought up. -/
def linksUp (p : LinkId → Bool) (s : State) : State :=
  (allLinks.filter p).foldl (fun s l => setLink l { linkOf s l with st := .up } s) s

def isPort : LinkId → Bool
  | .port _ => true
  | .ucie _ _ => false

/-- HBM ready (R48): its interleave domains with their controllers, and the retired rows, ways and pages in force (R60, R210). Values that a
switch would refuse are not taken, so that what R210 says of the registers holds (log entry 28). -/
def startHbm (s : State) : State :=
  onMem (fun m => { (Config.bootDomains (imageBody s.boot.image)).foldl (fun m e =>
      if e.1 < 16 && !domainRefused m e.1 e.2.1.toNat e.2.2.toNat then
        { m with idw := Maps.put 0 m.idw e.1 e.2.1, hmask := Maps.put 0 m.hmask e.1 e.2.2 }
      else m) m with
    retired := s.boot.nv.retired }) s

/-- The package identifier assigned (R48): what SETPKG has brought, or else the configuration block's. What the ports have received
meanwhile is served (R27). -/
def assignPackage (s : State) : State :=
  let s := { s with boot := { s.boot with
    pkgPending := none
    pkg := match s.boot.pkgPending with
      | some p => some p
      | none => Config.configuredPkg (imageBody s.boot.image) } }
  (allLinks.filter isPort).foldl (fun s l => servePort l s) s

/-- Context 0 created (R41, R43), its entry as the firmware gives it. -/
def createContext0 (s : State) : State :=
  let body := imageBody s.boot.image
  let s := { s with io := { s.io with ctxbase := BitVec.ofNat 64 (bitsN (Config.bootCtxbase body).toNat 45 12 * 4096) } }
  let s := onMem (fun m => storeReach m (ctxAddr s 0) (Maps.natLe (Config.contextZero body).toNat 64)) s
  setCtxField (setCtxField (setCtxField (setCtxField s 0 383 320 0) 0 71 64 0) 0 3 3 0) 0 0 0 1

/-- The operating system measured and started in S mode (R48, R49). -/
def startOs (s : State) : State :=
  let s := startCtl .supervisor 0 (measure (Config.componentCode 5) Config.osKernel s)
  { s with boot := { s.boot with phase := .running } }

/-- A step of bringing the device up (R48), each die pair's release a step of its own. -/
def bringUp (n : Nat) (s : State) : State :=
  let s := { s with boot := { s.boot with phase := .starting (n + 1) } }
  if n = 0 then (List.range 8).foldl (fun s i => startCtl .machine (8 + i) s) (releaseDie 9 s)
  else if n = 1 then startHbm s
  else if n < 10 then releaseDie (n - 2) s
  else if n = 10 then linksUp (fun l => !isPort l) s
  else if n = 11 then linksUp isPort s
  else if n = 12 then assignPackage s
  else startOs (createContext0 s)

/-- The boot ROM at work on control core 0 (R46). -/
def runRom (s : State) : State :=
  let s := measure (Config.componentCode 0) Config.romVersion (startCtl .machine 0 (releaseDie 8 s))
  if imagePasses s.boot s.boot.flash then startFirmware s.boot.flash s else awaitReload s

/-- R46, R48. The boot ROM checks the flash image and starts the firmware, or records a boot failure and waits for a reload; the
firmware brings the device up step by step. -/
def execPowerOn (s : State) : Out :=
  match s.boot.phase with
  | .off => .next (runRom s)
  | .starting n => .next (bringUp n s)
  | _ => .refused .notDue

/-! The lifetime record (R61, R62). -/

/-- The bytes of an item, by its key. -/
def lifeBytes (key : Nat) : Nat := if (1000 ≤ key ∧ key < 2000 ∧ key % 2 = 1) ∨ 5100 ≤ key then 2 else 4

/-- The counts gathered in SRAM written to the non-volatile store. -/
def flushLife (s : State) : State :=
  let add (m : AMap Nat) (e : Nat × Nat) : AMap Nat := Maps.set m e.1 (min (2 ^ (8 * lifeBytes e.1) - 1) (Maps.get 0 m e.1 + e.2))
  { s with boot := { s.boot with
    nv := { s.boot.nv with counts := s.boot.sram.counts.foldl add s.boot.nv.counts }
    sram := {}, flushedAt := s.clock } }

/-- Has the 60 s between two writes gone by? -/
def flushDue (s : State) : Bool := s.boot.phase != .off && decide (s.boot.flushedAt + 60 * 1750000000 ≤ s.clock)

/-- R62. The control complex writes the gathered counts to the non-volatile store. -/
def execLifetimeFlush (s : State) : Out := if flushDue s then .next (flushLife s) else .refused .notDue

/-- The lifetime record, in the order and widths of R61 (log entry 22). -/
def lifeRecord (l : Life) : List Byte :=
  let item (k : Nat) : List Byte := Maps.natLe (Maps.get 0 l.counts k) (lifeBytes k)
  (List.range 3).flatMap item ++ ((List.range 160).flatMap fun i => item (100 + i)) ++
    ((List.range 384).flatMap fun i => item (1000 + i)) ++ ((List.range 1240).flatMap fun i => item (2000 + i)) ++
    ((List.range 14).flatMap fun i => item (4000 + i)) ++
    ((List.range 4096).flatMap fun i => Maps.natLe ((l.retired[i]?).getD 0).toNat 8) ++
    ((List.range 4).flatMap fun i => item (5000 + i)) ++ (List.range 10).flatMap fun i => item (5100 + i)

/-! Resets. -/

/-- What a map of bytes that starts anyhow holds below the end of HBM. -/
def freeHbm (cells : List (Nat × Byte)) : List Host.Cell :=
  cells.foldl (fun m e => if e.1 < hbmTop then Maps.put 0 m e.1 e.2 else m) []

/-- The package with nothing left but its non-volatile contents; HBM starts anyhow (log entry 4), its lasting errors with it. A SETPKG value
still to take effect waits for step 6 of the next boot (R53, R54). -/
def coldState (s : State) : State :=
  let (n, s) := drawNo s
  { State.reset with
    clock := s.clock, draws := s.draws, inbox := s.inbox
    mem := { hbm := freeHbm (Config.freeCells n), errs := s.mem.errs.filter fun e => (match e.1 with
      | .hbm _ => e.2 == .lasting
      | _ => false) }
    boot := { flash := s.boot.flash, keyDigest := s.boot.keyDigest, rollback := s.boot.rollback, nv := s.boot.nv
              pkgPending := s.boot.pkgPending, replies := s.boot.replies, flushedAt := s.clock } }

/-- A full device reset (R53, R62). -/
def resetDevice (s : State) : State := coldState (flushLife s)

/-- R62. The supply is lost. -/
def execPowerLoss (s : State) : Out := .next (coldState s)

/-! Datagrams (R51, R52). -/

/-- A field of a datagram or body, lowest byte first. -/
def dgNat (d : List Byte) (off n : Nat) : Nat := Maps.leNat ((d.drop off).take n)

def dgCode (d : List Byte) : Nat := dgNat d 0 1

def dgBody (d : List Byte) : List Byte := (d.drop 8).take (dgNat d 6 2)

/-- The distinguishing identifier of R52, ASCII ONXISMGT. -/
def mgmtId : List Byte := [0x4F#8, 0x4E#8, 0x58#8, 0x49#8, 0x53#8, 0x4D#8, 0x47#8, 0x54#8]

/-- May a command come without a signature (R51)? -/
def recovery (b : Boot) (code : Nat) : Bool := b.phase == .waiting && decide (1 ≤ code) && decide (code ≤ 3)

/-- The identity key (R50), x then y: the public part of the key pair that the secure store holds. -/
def identityKey : BitVec 512 := Sm2.publicOf (Sm2.secretOf Config.identitySecret)

/-- A message signed with the identity key under ONXISMGT; the spec gives the identifier for datagrams and names none for a quote (log
entry 10). -/
def signed (m : List Byte) (s : State) : BitVec 512 × State :=
  let (i, s) := drawNo s
  (Sm2.sign (Sm2.secretOf Config.identitySecret) (Sm2.digest mgmtId identityKey m) ((List.range 8).map fun j => Config.sm2Nonce (8 * i + j)), s)

/-- Is a datagram accepted (R51, R52)? R52 names the datagrams that are discarded: one that is longer than its LEN requires is not among
them, nor one whose LEN is above 1,100, which is answered by its body's length (DESIGN CHOICE, log entry 28). -/
def accepted (b : Boot) (d : List Byte) : Bool :=
  let n := 8 + dgNat d 6 2
  let signed := bitN (dgNat d 1 1) 0
  let sig := BitVec.ofNat 512 (beNat ((d.drop n).take 64))
  decide (n + (if signed then 64 else 0) ≤ d.length) && decide (8 ≤ d.length) &&
    (if signed then b.opKeys.any fun k => Sm2.verifies k (Sm2.digest mgmtId k (d.take n)) sig else recovery b (dgCode d)) &&
    decide (b.lastSeq < dgNat d 2 4)

/-- The response with a body, signed with the identity key (R51, R52). -/
def respond (d : List Byte) (body : List Byte) (s : State) : State :=
  let head := Maps.natLe (dgCode d + 0x80) 1 ++ [1#8] ++ Maps.natLe (dgNat d 2 4) 4 ++ Maps.natLe body.length 2 ++ body
  let (sig, s) := signed head s
  { s with boot := { s.boot with replies := s.boot.replies ++ [head ++ beBytes sig.toNat 64] } }

/-- What a command answers: its status, its response fields, and the state after it. -/
abbrev Answer : Type := Nat × List Byte × State

/-- A datagram in the management port's receive ring: its interrupt is raised. The control complex takes a datagram from the ring in the step
in which it comes, a discarded one too, so that each finds the ring empty (R40, log entry 16). -/
def portMsi (s : State) : State := if s.boot.phase = .running then raiseMsi (Config.mgmtMsi.1 % 16) (Config.mgmtMsi.2 % 4096) s else s

/-- A command run (R51 to R54): discarded, answered with status 4 or 3, or its own effect and answer. -/
def command (codeOk : Nat → Bool) (bodyOk : List Byte → Bool) (run : List Byte → State → Answer) (d : List Byte) (s : State) : Out :=
  if s.boot.phase = .off ∨ !codeOk (dgCode d) then .refused .notDue
  else if !accepted s.boot d then .next (portMsi s)
  else
    let s := portMsi s
    let s := { s with boot := { s.boot with lastSeq := dgNat d 2 4 } }
    let (st, fields, s) :=
      if s.boot.phase = .waiting ∧ 1 ≤ dgCode d ∧ dgCode d ≤ 9 ∧ !recovery s.boot (dgCode d) then (4, [], s)
      else if dgCode d ≤ 9 ∧ dgCode d ≠ 0 ∧ (dgNat d 1 1 ≥ 2 ∨ !bodyOk (dgBody d)) then (3, [], s)
      else run (dgBody d) s
    .next (respond d (Maps.natLe st 1 ++ fields) s)

/-- A part of a long answer: its total length and up to 1,024 bytes from an offset. -/
def partOf (v : List Byte) (off : Nat) : List Byte := Maps.natLe v.length 4 ++ (v.drop off).take 1024

/-! The commands (R53, R54). -/

/-- The response fields of STATUS. The boot state is 0 as soon as firmware has started, while it still brings the device up, and never 2,
because an image is verified in no time (R54 gives neither; DESIGN CHOICE, log entry 29). -/
def statusFields (s : State) : List Byte :=
  let die (d : Nat) : Nat := let x := dieAt s d; if x.heldReset then 2 else if x.running then 1 else 0
  let up (j : Nat) : Bool := (linkOf s (.port (BitVec.ofNat 7 j))).st == .up
  Maps.natLe (if s.boot.phase = .waiting then 1 else 0) 1 ++
    Maps.natLe (((s.boot.pkg.map (·.toNat)).getD 0) + (if s.boot.pkgPending.isSome then 2 ^ 15 else 0)) 2 ++
    ((List.range 10).flatMap fun d => Maps.natLe (die d) 1) ++
    Maps.natLe ((List.range 128).foldl (fun a j => if up j then a + 2 ^ j else a) 0) 16 ++
    Maps.natLe (if s.boot.nv.retired.length < 4096 then 0 else 1) 1

/-- R53. Boot state, package identifier, die and link states. -/
def execStatus (dgram : List (BitVec 8)) (s : State) : Out :=
  command (· == 1) (fun b => b.isEmpty) (fun _ s => (0, statusFields s, s)) dgram s

/-- R53. A full device reset, after the answer; a command answered otherwise resets nothing. -/
def execReset (dgram : List (BitVec 8)) (s : State) : Out :=
  match command (· == 2) (fun b => b.isEmpty) (fun _ s => (0, [], s)) dgram s with
  | .next t => .next (if accepted s.boot dgram && (dgBody dgram).isEmpty && decide (dgNat dgram 1 1 < 2) then resetDevice t else t)
  | o => o

/-- A whole image verified (R47): it is written to flash, and runs at once where the device waits for one; a device that runs takes it at its
next boot. That it waits for the boot, and that an image that fails counts no boot failure, the spec does not say (DESIGN CHOICE, log entries
28 and 29). -/
def takeImage (img : List Byte) (s : State) : Answer :=
  let s := { s with boot := { s.boot with stream := [] } }
  if imagePasses s.boot img then
    let s := { s with boot := { s.boot with flash := img } }
    (0, [], if s.boot.phase = .waiting then startFirmware img s else s)
  else (1, [], s)

/-- One chunk of an image (R54). -/
def takeChunk (b : List Byte) (s : State) : Answer :=
  let off := dgNat b 0 4
  if off ≠ 0 ∧ off ≠ s.boot.stream.length then (3, [], s)
  else
    let img := (if off = 0 then [] else s.boot.stream) ++ b.drop 8
    let s := { s with boot := { s.boot with stream := img } }
    if bitN (dgNat b 4 1) 0 then takeImage img s else (0, [], s)

/-- R54. One chunk of image bytes; the last starts verification. -/
def execLoadimg (dgram : List (BitVec 8)) (s : State) : Out :=
  command (· == 3) (fun b => decide (9 ≤ b.length) && decide (b.length ≤ 1032) && decide (dgNat b 4 1 < 2) && dgNat b 5 3 == 0)
    takeChunk dgram s

/-- The quote for a nonce (R50, R54). Its signer's distinguishing identifier is that of R52: the spec gives none for quotes (DESIGN CHOICE,
log entry 28). -/
def formQuote (nonce : List Byte) (s : State) : State :=
  let b := s.boot
  let body := nonce ++ beBytes b.meas.toNat 32 ++ Maps.natLe ((b.pkg.map (·.toNat)).getD 0) 2 ++ Maps.natLe b.svn 4 ++
    Maps.natLe b.mlog.length 4 ++ b.mlog.flatMap fun e => Maps.natLe e.1.toNat 2 ++ beBytes e.2.toNat 32
  let (sig, s) := signed body s
  { s with boot := { s.boot with
    quoteFor := some nonce
    quote := body ++ beBytes sig.toNat 64 ++ Maps.natLe Config.certificate.length 2 ++ Config.certificate } }

/-- R50. A part of the signed quote. -/
def execAttest (dgram : List (BitVec 8)) (s : State) : Out :=
  command (· == 4) (fun b => b.length == 36) (fun b s =>
    let s := if s.boot.quoteFor = some (b.take 32) then s else formQuote (b.take 32) s
    (0, partOf s.boot.quote (dgNat b 32 4), s)) dgram s

/-- R55. A trigger sent to the root; those that arrive in its clock are one with it. -/
def execSnapCommand (dgram : List (BitVec 8)) (s : State) : Out :=
  command (· == 5) (fun b => b.isEmpty) (fun _ s =>
    let s := if s.io.trigAt = s.clock + 1 then s else rootTrigger { s with io := { s.io with triggers := s.io.triggers + 1 } }
    (0, [s.io.trigSeq], s)) dgram s

/-- The latched registers of a die, zero before the first latch (R54, R56). -/
def snapBytes (s : State) (d : Nat) : List Byte :=
  let x := Maps.get {} s.io.snaps d
  (if x.values.isEmpty then (snapValues s d).map fun e => (0, e.2) else x.values).flatMap fun e => Maps.natLe e.1 e.2

/-- R54. A part of the latched snapshot registers. -/
def execRdsnap (dgram : List (BitVec 8)) (s : State) : Out :=
  command (· == 6) (fun b => b.length == 5 && decide (dgNat b 0 1 ≤ 9))
    (fun b s => (0, partOf (snapBytes s (dgNat b 0 1)) (dgNat b 1 4), s)) dgram s

/-- R54. A part of the lifetime record. -/
def execRdlife (dgram : List (BitVec 8)) (s : State) : Out :=
  command (· == 7) (fun b => b.length == 4) (fun b s => (0, partOf (lifeRecord s.boot.nv) (dgNat b 0 4), s)) dgram s

/-- R53. The package identifier, held as pending for the next boot. -/
def execSetpkg (dgram : List (BitVec 8)) (s : State) : Out :=
  command (· == 8) (fun b => b.length == 2 && decide (dgNat b 0 2 < 1024))
    (fun b s => (0, [], { s with boot := { s.boot with pkgPending := some (BitVec.ofNat 10 (dgNat b 0 2)) } })) dgram s

/-- R53. The kill command of R43 for one context. -/
def execKillctx (dgram : List (BitVec 8)) (s : State) : Out :=
  command (· == 9) (fun b => b.length == 2 && decide (dgNat b 0 2 < 4096)) (fun b s =>
    let s := writeCtxcmd (BitVec.ofNat 32 (2 ^ 24 + dgNat b 0 2)) s
    (0, Maps.natLe (bitsN s.io.ctxcmd.toNat 31 28) 1, s)) dgram s

/-- R53. A command code that is not in the table, 0x00 among them. Waiting for a reload it is answered 2, and not 4, which R54 gives the
commands that are not recovery commands (DESIGN CHOICE, log entry 28). -/
def execUnknownCommand (dgram : List (BitVec 8)) (s : State) : Out :=
  command (fun c => c == 0 || decide (10 ≤ c)) (fun _ => true) (fun _ s => (2, [], s)) dgram s

end Sys2Proof.Machine
end

