-- ==== Sys2Proof/Machine/Pcie.lean ====
section
/-! DEFINITION. The PCIe root ports (R34): endpoints' memory requests under the DMA function tables, their interrupt messages, and the
completions of loads through the memory windows. -/

namespace Sys2Proof.Machine

/-! The DMA function table. -/

/-- The entry of a requester at a port; 0, which is not valid, where the table accepts nothing or is not there, and for an entry with a
reserved field that is not zero (R4). -/
def dmaEntry (s : State) (port rid : Nat) : Nat :=
  let d := (Maps.get 0 s.io.dmatab port).toNat
  let pa := bitsN d 45 19 * 2 ^ 19 + 8 * rid
  let e := natAt s.mem pa 8
  if bitN d 0 && reachable s.mem pa 8 && bitsN e 51 3 == 0 then e else 0

/-- May the requester make the request (R34)? -/
def dmaAllowed (s : State) (e : Nat) (write : Bool) : Bool :=
  bitN e 0 && (if write then bitN e 2 else bitN e 1) && ctxValid s (bitsN e 63 52) && !ctxFaulted s (bitsN e 63 52)

/-- Where a page's part of a request leads. -/
inductive DmaPart where
  | mem (pa : Nat)
  /-- A reserved address, or one in no domain (R16). -/
  | nowhere (pa : Nat)
  /-- An interrupt file of a control core. -/
  | file (pa : Nat)
  | fails
deriving DecidableEq, Repr

/-- Is an address in the page of an interrupt file (R17)? -/
def isFile (pa : Nat) : Bool := match regAt (pa / 4096 * 4096) with
  | some (.imsic _) => true
  | _ => false

/-- The butterfly input of a root port (R205). -/
def dmaPort (port : Nat) : Nat := 248 + port

/-- The translation of `n` bytes of a request in its entry's context; bytes to which no way leads any more fail (R32, R34). -/
def dmaPart (s : State) (port c : Nat) (va : Dword) (n : Nat) (write : Bool) : DmaPart :=
  if vaTag va ≠ 0 ∨ (walkLost s (dmaPort port) (ctxRoot s c) (vaLow va)).isSome then .fails
  else match walk s.mem (ctxRoot s c) (vaLow va) with
    | .leaf pte level =>
      let pa := tlbPa (tlbOf 0 (vaLow va) pte level) (vaLow va)
      if !(if write then bitN pte 3 else bitN pte 2) then .fails
      else if isDev pa then (if write && isFile pa then .file pa else .fails)
      else if isPcie pa then .fails
      else if !isHbm pa || (domainOf s.mem pa).isNone then .nowhere pa
      else if write && (viewOf s.mem pa).isSome then .fails
      else if (lostLink s (dmaPort port) pa n).isSome then .fails
      else .mem pa
    | _ => .fails

/-- The parts of a request. -/
def dmaParts (s : State) (port c : Nat) (va : Dword) (n : Nat) (write : Bool) : List (DmaPart × Nat) :=
  (partsOf va n).map fun p => (dmaPart s port c (BitVec.ofNat 64 p.1) p.2 write, p.2)

/-! Requests. -/

/-- A completion sent to an endpoint: its bytes, or none with status Unsupported Request. -/
def dmaAnswer (port : Nat) (bs : List Byte) (s : State) : State := { s with io := { s.io with dmaReads := s.io.dmaReads ++ [(port, bs)] } }

/-- A request that fails (R34). -/
def dmaFail (port rid : Nat) (write : Bool) (addr : Dword) (e : Nat) (s : State) : State :=
  let d := 8 + port / 2
  let s := record d (unitRecord d .dmafault (if bitN e 0 then bitsN e 63 52 else 0) 0 addr rid true) s
  if write then s else dmaAnswer port [] s

/-- A part written: to memory, as a message to an interrupt file, or dropped with a record (R16, R34). -/
def dmaWritePart (port d c : Nat) (p : DmaPart × Nat) (bs : List Byte) (s : State) : State :=
  match p.1 with
  | .mem pa => writeVia (dmaPort port) 2 pa bs s
  | .nowhere pa => record d (unitRecord d .nophys c 0 (BitVec.ofNat 64 pa) 0 true) s
  | .file pa => if bs.length = 4 then devStore 16 pa 4 (Maps.leNat bs) s else s
  | .fails => s

def dmaWriteAll (port d c : Nat) : List (DmaPart × Nat) → List Byte → State → State
  | [], _, s => s
  | p :: ps, bs, s => dmaWriteAll port d c ps (bs.drop p.2) (dmaWritePart port d c p (bs.take p.2) s)

/-- A part read: an address in no domain reads zero, with a record (R16); what poisoned bytes, or bytes whose error a second read does not
get past, give an endpoint is free (R59, R60, log entry 8). -/
def dmaReadPart (port d c : Nat) (p : DmaPart × Nat) (s : State) : List Byte × State :=
  match p.1 with
  | .mem pa =>
    let t := readVia (dmaPort port) 2 pa p.2 s
    if poisoned s.mem pa p.2 ∨ rangeErr s.mem pa p.2 ≠ 0 then
      ((List.range p.2).map fun i => BitVec.ofNat 8 (Config.freeNat (s.draws + i)), { t with draws := t.draws + p.2 })
    else (bytesAt s.mem pa p.2, t)
  | .nowhere pa => (List.replicate p.2 0, record d (unitRecord d .nophys c 0 (BitVec.ofNat 64 pa) 0 true) s)
  | _ => ([], s)

def dmaReadAll (port d c : Nat) : List (DmaPart × Nat) → State → List Byte × State
  | [], s => ([], s)
  | p :: ps, s =>
    let (bs, s) := dmaReadPart port d c p s
    let (rest, s) := dmaReadAll port d c ps s
    (bs ++ rest, s)

/-- An endpoint's memory request (R34). -/
def dmaServe (port rid : Nat) (write : Bool) (addr : Dword) (n : Nat) (data : List Byte) (s : State) : State :=
  let e := dmaEntry s port rid
  let c := bitsN e 63 52
  let d := 8 + port / 2
  if !dmaAllowed s e write then dmaFail port rid write addr e s
  else
    let ps := dmaParts s port c addr n write
    if ps.any fun p => p.1 == .fails then dmaFail port rid write addr e s
    else if write then dmaWriteAll port d c ps data s
    else
      let (bs, s) := dmaReadAll port d c ps s
      dmaAnswer port bs s

/-- R34. An endpoint memory request is checked and translated through the DMA function table and the context's page table, then
performed or failed with a DMAFAULT record. -/
def execDmaRequest (port : BitVec 2) (rid : BitVec 16) (write : Bool) (addr : BitVec 64) (len : Nat) (data : List (BitVec 8)) (s : State) : Out :=
  if 0 < len ∧ len ≤ 4096 ∧ (!write || data.length == len) = true ∧ s.boot.phase = .running ∧ !inputHeld s (dmaPort port.toNat) then
    .next (dmaServe port.toNat rid.toNat write addr len data s)
  else .refused .notDue

/-! Completions of window loads. -/

/-- R34. A completion for a load through a PCIe memory window returns its data, or with an error status completes as a NOPHYS late
failure. -/
def execPcieWindowCompletion (req : Nat) (ok : Bool) (data : BitVec 64) (s : State) : Out :=
  match Maps.find s.mem.net req with
  | some r =>
    if r.space = .pcie ∧ r.st = .flying then
      .next (onReq req (fun r => if ok then { r with st := .done, val := BitVec.ofNat 128 (data.toNat % 2 ^ (8 * r.size)) }
        else { r with st := .failed .nophys }) s)
    else .refused .notDue
  | none => .refused .notDue

end Sys2Proof.Machine
end

