-- ==== Sys2Proof/Machine/Ray.lean ====
section
/-! DEFINITION. Ray traversal (R473 to R475): exact box and triangle tests, and the traversal of one lane. -/

namespace Sys2Proof.Machine

/-- A lane's ray state, registers D to D + 47 (R474). -/
abbrev RayRegs := List Word

def rayW (r : RayRegs) (i : Nat) : Word := (r[i]?).getD 0
def raySet (r : RayRegs) (i : Nat) (w : Word) : RayRegs := r.set i w
def rayF (r : RayRegs) (i : Nat) : Num.FV := f32v (rayW r i)

/-! The status word: result, HIT, OVF, depth (R474). -/

def rayResult (r : RayRegs) : Nat := (rayW r 15).toNat % 4
def rayHit (r : RayRegs) : Bool := (rayW r 15).getLsbD 2
def rayOvf (r : RayRegs) : Bool := (rayW r 15).getLsbD 3
def rayDepth (r : RayRegs) : Nat := min 16 (bitsN (rayW r 15).toNat 8 4)

def setStatus (res : Nat) (hit ovf : Bool) (depth : Nat) (r : RayRegs) : RayRegs :=
  raySet r 15 (BitVec.ofNat 32 (res + (if hit then 4 else 0) + (if ovf then 8 else 0) + depth * 16))

def setResult (res : Nat) (r : RayRegs) : RayRegs := setStatus res (rayHit r) (rayOvf r) (rayDepth r) r

/-! The stack of references (R474). -/

def stackRef (r : RayRegs) (i : Nat) : Nat := (rayW r (16 + 2 * i)).toNat + (rayW r (17 + 2 * i)).toNat * 2 ^ 32
def setRef (i ref : Nat) (r : RayRegs) : RayRegs :=
  raySet (raySet r (16 + 2 * i) (BitVec.ofNat 32 ref)) (17 + 2 * i) (BitVec.ofNat 32 (ref / 2 ^ 32))

/-- A push; onto a full stack the bottom entry is dropped and OVF set (R475). -/
def pushRef (ref : Nat) (r : RayRegs) : RayRegs :=
  let d := rayDepth r
  if d < 16 then setStatus (rayResult r) (rayHit r) (rayOvf r) (d + 1) (setRef d ref r)
  else
    let r' := (List.range 15).foldl (fun a i => setRef i (stackRef r (i + 1)) a) r
    setStatus (rayResult r) (rayHit r) true 16 (setRef 15 ref r')

def popRef (r : RayRegs) : Nat × RayRegs :=
  let d := rayDepth r - 1
  (stackRef r d, setStatus (rayResult r) (rayHit r) (rayOvf r) d r)

/-! Exact tests (R475). -/

/-- An exact fraction with a positive denominator; numerators may be infinite. -/
structure RayT where
  num : Num.FV
  den : Num.FV
deriving DecidableEq, Repr

/-- Is p ≤ q, exactly? -/
def RayT.le (p q : RayT) : Bool := fvLe (Num.mul p.num q.den) (Num.mul q.num p.den)
def RayT.lt (p q : RayT) : Bool := fvLt (Num.mul p.num q.den) (Num.mul q.num p.den)
def RayT.whole (v : Num.FV) : RayT := { num := v, den := .fin false 1 0 }

/-- The slab interval of one axis: none where it misses (R475). -/
def slab (o d lo hi : Num.FV) : Option (RayT × RayT) :=
  if [o, d, lo, hi].any Num.isNan then none
  else if Num.isZero d then
    if fvLe lo o && fvLe o hi then some (RayT.whole (.inf true), RayT.whole (.inf false)) else none
  else
    let a := fvSub lo o
    let b := fvSub hi o
    if Num.isNan a || Num.isNan b then none
    else if Num.signV d then some ({ num := Num.neg b, den := Num.neg d }, { num := Num.neg a, den := Num.neg d })
    else some ({ num := a, den := d }, { num := b, den := d })

/-- The entry of a box that the ray meets within [tmin, tmax] (R475). -/
def boxEntry (r : RayRegs) (box : List Num.FV) : Option RayT :=
  let b (i : Nat) : Num.FV := (box[i]?).getD .nan
  match slab (rayF r 0) (rayF r 3) (b 0) (b 3), slab (rayF r 1) (rayF r 4) (b 1) (b 4), slab (rayF r 2) (rayF r 5) (b 2) (b 5) with
  | some x, some y, some z =>
    let hiOf (p q : RayT) : RayT := if p.le q then q else p
    let loOf (p q : RayT) : RayT := if p.le q then p else q
    let near := hiOf x.1 (hiOf y.1 z.1)
    let far := loOf x.2 (loOf y.2 z.2)
    let t0 := RayT.whole (rayF r 6)
    let t1 := RayT.whole (rayF r 7)
    if near.le far && near.le t1 && t0.le far && t0.le t1 then some near else none
  | _, _, _ => none

abbrev V3 := Num.FV × Num.FV × Num.FV
def sub3 (a b : V3) : V3 := (fvSub a.1 b.1, fvSub a.2.1 b.2.1, fvSub a.2.2 b.2.2)
def dot3 (a b : V3) : Num.FV := Num.add .rne (Num.add .rne (Num.mul a.1 b.1) (Num.mul a.2.1 b.2.1)) (Num.mul a.2.2 b.2.2)
def cross3 (a b : V3) : V3 :=
  (fvSub (Num.mul a.2.1 b.2.2) (Num.mul a.2.2 b.2.1), fvSub (Num.mul a.2.2 b.1) (Num.mul a.1 b.2.2),
   fvSub (Num.mul a.1 b.2.1) (Num.mul a.2.1 b.1))

/-- t, u and v of a triangle that the ray hits, each rounded once (R475). -/
def triangleHit (r : RayRegs) (vs : List Num.FV) : Option (Word × Word × Word) :=
  let p (i : Nat) : V3 := ((vs[3 * i]?).getD .nan, (vs[3 * i + 1]?).getD .nan, (vs[3 * i + 2]?).getD .nan)
  let o : V3 := (rayF r 0, rayF r 1, rayF r 2)
  let d : V3 := (rayF r 3, rayF r 4, rayF r 5)
  let e1 := sub3 (p 1) (p 0)
  let e2 := sub3 (p 2) (p 0)
  let s := sub3 o (p 0)
  let pv := cross3 d e2
  let qv := cross3 s e1
  let det := dot3 e1 pv
  let sgn (v : Num.FV) : Num.FV := if Num.signV det then Num.neg v else v
  let dt := sgn det
  let u := sgn (dot3 s pv)
  let v := sgn (dot3 d qv)
  let t := sgn (dot3 e2 qv)
  let bits (v : Num.FV) : Word := BitVec.ofNat 32 (Num.packRne Num.f32 (Num.div v dt))
  if [dt, u, v, t].any Num.isNan || Num.isZero dt then none
  else if fvLe Num.zero u && fvLe Num.zero v && fvLe (Num.add .rne u v) dt && fvLe (Num.mul (rayF r 6) dt) t &&
      fvLe t (Num.mul (rayF r 7) dt) then some (bits t, bits u, bits v)
  else none

/-! References and records (R473). -/

def refKind (ref : Nat) : Nat := bitsN ref 63 62
def refAddr (ref : Nat) : Nat := bitsN ref 55 0
/-- Is a reference bad: kind 3, or a bit set that its kind leaves zero (R473)? -/
def refBad (ref : Nat) : Bool := match refKind ref with
  | 0 => bitsN ref 61 56 != 0
  | 1 => bitsN ref 61 56 != 0
  | 2 => bitsN ref 61 60 != 0
  | _ => true

/-- FP32 values from the bytes of a record. -/
def recFloats (bs : List Byte) (off n : Nat) : List Num.FV := (List.range n).map fun i => f32v (BitVec.ofNat 32 (Maps.leNat ((bs.drop (off + 4 * i)).take 4)))

/-- A node's reference to one of its children. -/
def childRef (bs : List Byte) (c : Nat) : Nat := Maps.leNat ((bs.drop (96 + 8 * c)).take 8)

/-- Does a node hold a bad reference (R473)? -/
def nodeBad (bs : List Byte) : Bool := (List.range 4).any fun c => refBad (childRef bs c)

/-- Does a triangle record hold a bit that is to be zero (R4, R473)? -/
def triangleBad (bs : List Byte) : Bool := Maps.leNat ((bs.drop 40).take 8) / 2 != 0

/-- The children that the ray meets, nearest first, ties by the lower child (R475). -/
def hitChildren (r : RayRegs) (bs : List Byte) : List Nat :=
  let cs := (List.range 4).filterMap fun c =>
    let ref := childRef bs c
    if refKind ref = 0 then none else (boxEntry r (recFloats bs (24 * c) 6)).map fun t => (t, ref)
  let ins (e : RayT × Nat) (l : List (RayT × Nat)) : List (RayT × Nat) := l.takeWhile (fun x => x.1.le e.1) ++ e :: l.dropWhile (fun x => x.1.le e.1)
  (cs.foldl (fun l e => ins e l) []).map (·.2)

/-- A lane's traversal in progress: registers, visits, the parts of memory touched; and how it ended. -/
structure RayRun where
  regs   : RayRegs
  /-- The reference to be visited next without having been pushed (R475). -/
  cur    : Option Nat := none
  visits : Nat := 0
  parts  : List LaneAt := []
  /-- A record's address that is not aligned (R473). -/
  skew   : Option Nat := none
  done   : Bool := false
deriving DecidableEq, Repr

/-- A record of `n` bytes read for a lane: the parts touched, and the bytes where none fails. -/
def rayRead (s : State) (g : Group) (l : Nat) (addr n : Nat) : List LaneAt × Option (List Byte) :=
  let ps := (rowParts n).map fun o => aPart s g l (BitVec.ofNat 64 (addr + o))
  if ps.any fun p => (laneFault g 16 .load p).isSome then (ps, none)
  else (ps, some (ps.flatMap fun p => aBytes s (curTeam s) p.tg))

/-- One triangle of a leaf tested; `rest` is the leaf's remainder (R475). -/
def rayTriangle (bs : List Byte) (rest : Option Nat) (run : RayRun) : RayRun :=
  match triangleHit run.regs (recFloats bs 0 9) with
  | none => run
  | some (t, u, v) =>
    let prim : Word := BitVec.ofNat 32 (Maps.leNat ((bs.drop 36).take 4))
    let r := run.regs
    if bitN (Maps.leNat ((bs.drop 40).take 4)) 0 then
      let r := raySet (raySet (raySet (raySet r 7 t) 8 prim) 9 u) 10 v
      { run with regs := setStatus (rayResult r) true (rayOvf r) (rayDepth r) r }
    else
      let r := raySet (raySet (raySet (raySet r 11 t) 12 prim) 13 u) 14 v
      let r := match rest with
        | some ref => pushRef ref r
        | none => r
      { run with regs := setResult 1 r, done := true }

/-- The reference to a leaf's triangles after the first, `n` of them left. -/
def leafRest (ref n : Nat) : Option Nat := if n = 0 then none else some (2 ^ 63 + (n - 1) * 2 ^ 56 + (refAddr ref + 48))

/-- A structure that breaks its description ends the traversal BAD (R4, R473; log entry 15 for triangle records). -/
def rayBad (run : RayRun) : RayRun := { run with regs := setResult 3 run.regs, done := true }

/-- One reference visited (R475): of a node's children that are hit the nearest comes next and the others are pushed, farthest first; a
leaf's first triangle is tested, and its remainder comes next. -/
def rayVisit (s : State) (g : Group) (l : Nat) (ref : Nat) (run : RayRun) : RayRun :=
  if refBad ref then rayBad run
  else match refKind ref with
    | 0 => run
    | 1 =>
      if refAddr ref % 64 ≠ 0 then { run with skew := some (refAddr ref), done := true }
      else match rayRead s g l (refAddr ref) 128 with
      | (ps, none) => { run with parts := run.parts ++ ps, done := true }
      | (ps, some bs) =>
        let run := { run with visits := run.visits + 1, parts := run.parts ++ ps }
        if nodeBad bs then rayBad run
        else match hitChildren run.regs bs with
          | [] => run
          | c :: cs => { run with regs := cs.reverse.foldl (fun r c => pushRef c r) run.regs, cur := some c }
    | _ =>
      if refAddr ref % 16 ≠ 0 then { run with skew := some (refAddr ref), done := true }
      else match rayRead s g l (refAddr ref) 48 with
      | (ps, none) => { run with parts := run.parts ++ ps, done := true }
      | (ps, some bs) =>
        let rest := leafRest ref (bitsN ref 59 56)
        let run := { run with visits := run.visits + 1, parts := run.parts ++ ps }
        if triangleBad bs then rayBad run
        else
          let run := rayTriangle bs rest run
          if run.done then run else { run with cur := rest }

/-- Entries processed until the traversal stops (R475). -/
def rayGo (s : State) (g : Group) (l : Nat) : Nat → RayRun → RayRun
  | 0, run => { run with regs := setResult 0 run.regs }
  | n + 1, run =>
    if run.done then run
    else match run.cur with
      | some ref =>
        if 64 ≤ run.visits then { run with regs := setResult 0 (pushRef ref run.regs), done := true }
        else rayGo s g l n (rayVisit s g l ref { run with cur := none })
      | none =>
        if rayDepth run.regs = 0 then { run with regs := setResult 2 run.regs, done := true }
        else if 64 ≤ run.visits then { run with regs := setResult 0 run.regs, done := true }
        else
          let p := popRef run.regs
          rayGo s g l n (rayVisit s g l p.1 { run with regs := p.2 })

def rayRegs (g : Group) (d l : Nat) : RayRegs := (List.range 48).map fun i => g.v (d + i) l

/-- One step of a lane (R475). A traversal that ended BAD stays so. -/
def rayStep (s : State) (g : Group) (d l : Nat) : RayRun :=
  let r := rayRegs g d l
  if rayResult r = 3 then { regs := r, done := true } else rayGo s g l 256 { regs := r }

/-- The registers of the active lanes written back. -/
def rayWrite (d : Nat) (rs : List (Nat × RayRegs)) (live : Group) : Group := rs.foldl (fun v r => v.setLaneWords d r.1 r.2) live

def rtravInitWord (x : Bool) (d a b : BitVec 7) (g : Group) (s : State) : WordOut :=
  let dr := ea x d g
  let init (l : Nat) : RayRegs :=
    let r := (List.range 48).map fun i => if i < 8 then g.v (ea x a g + i) l else if i < 16 then 0 else g.v (dr + i) l
    pushRef ((g.v64 (ea x b g) l).toNat % 2 ^ 62 + 2 ^ 62) r
  { regWord s g x [vr x d g 48 16] [vr x a g 8 1, vr x b g 2 2] with
    effect := onCur (rayWrite dr ((lanesOf g.active).map fun l => (l, init l))) }

/-- The steps of the active lanes. -/
def rayRuns (s : State) (g : Group) (dr : Nat) : List (Nat × RayRun) := (lanesOf g.active).map fun l => (l, rayStep s g dr l)

/-- The state in which a traversal step reads memory: its core's L1 invalidated where the step's first use of its registers is an acquire
(R233), or one of its reads takes a walk, which is one (R185, R236). -/
def rayView (s : State) (g : Group) (dr : Nat) : State :=
  let acquires := g.acquire.any fun a => decide (dr ≤ a.1 ∧ a.1 < dr + 48) && decide (2 ≤ a.2.toNat)
  let walks := (rayRuns s g dr).any fun r => r.2.parts.any fun p => match p.tg with
    | .phys _ (some _) => true
    | _ => false
  if acquires || walks then dropL1 (curTeam s).core s else s

def rtravStepWord (x : Bool) (d : BitVec 7) (g : Group) (s : State) : WordOut :=
  let dr := ea x d g
  let runs := rayRuns (rayView s g dr) g dr
  let las := runs.flatMap fun r => r.2.parts
  let skews := runs.filterMap fun r => r.2.skew.map fun a => (r.1, BitVec.ofNat 64 a)
  let w := accessWord (regWord s g x [vr x d g 48 16] [vr x d g 48 16]) g 16 .load las fun s =>
    onCur (rayWrite dr (runs.map fun r => (r.1, r.2.regs))) (aKeep (curTeam s) las s)
  { w with
    stall := aBusy s las
    onFault := aFail s (fun a => (addressAt s g a.lane a.va 16 .load).tg) las
    raises := w.raises ++ skews.map fun k => { cause := .align, mask := laneMask k.1, addr := k.2 }
    addrs := w.addrs ++ skews }

/-- `rhit` of a lane (R475). -/
def rayCommit (r : RayRegs) : RayRegs :=
  if rayResult r = 1 then
    let r := raySet (raySet (raySet (raySet r 7 (rayW r 11)) 8 (rayW r 12)) 9 (rayW r 13)) 10 (rayW r 14)
    setStatus 0 true (rayOvf r) (rayDepth r) r
  else r

def rhitWord (x : Bool) (d : BitVec 7) (g : Group) (s : State) : WordOut :=
  let dr := ea x d g
  { regWord s g x [vr x d g 48 16] [vr x d g 48 16] with
    effect := onCur (rayWrite dr ((lanesOf g.active).map fun l => (l, rayCommit (rayRegs g dr l)))) }

/-- R475. Initialise a ray traversal state and push the root. -/
def execRtravInit (_c x : Bool) (d a b : BitVec 7) (s : State) : Out := issue (rtravInitWord x d a b) s

/-- R475. Advance traversal until a candidate, completion or 64 visits. -/
def execRtravStep (_c x : Bool) (d : BitVec 7) (s : State) : Out := issue (rtravStepWord x d) s

/-- R475. Commit a pending candidate hit. -/
def execRhit (_c x : Bool) (d : BitVec 7) (s : State) : Out := issue (rhitWord x d) s

end Sys2Proof.Machine
end

