-- ==== Sys2Proof/Machine/Scalar.lean ====
section
/-! DEFINITION. Scalar arithmetic, scalar immediates and compares, special registers and the index register (R321, R353
to R357). -/

namespace Sys2Proof.Machine

/-- sD := f sA sB, once for the group (R353). -/
def salu2 (d a b : BitVec 6) (f : Word → Word → Word) (g : Group) (_ : State) : WordOut :=
  scalarWord [a.toNat, b.toNat] [d.toNat] fun live => live.setS d.toNat (f (g.s a.toNat) (g.s b.toNat))

/-- S64[D] := f S64[A] S64[B] (R353). -/
def salu64 (d a b : BitVec 6) (f : Dword → Dword → Dword) (g : Group) (_ : State) : WordOut :=
  scalarWord [a.toNat, a.toNat + 1, b.toNat, b.toNat + 1] [d.toNat, d.toNat + 1] fun live =>
    live.setS64 d.toNat (f (g.s64 a.toNat) (g.s64 b.toNat))

/-- sD := sA (R353). -/
def smovWord (d a : BitVec 6) (g : Group) (_ : State) : WordOut :=
  scalarWord [a.toNat] [d.toNat] fun live => live.setS d.toNat (g.s a.toNat)

/-- sD := f sD imm (R354). -/
def simmWord (d : BitVec 6) (f : Word → Word) (g : Group) (_ : State) : WordOut :=
  scalarWord [d.toNat] [d.toNat] fun live => live.setS d.toNat (f (g.s d.toNat))

/-- The 64-bit immediate of `smovhi` (R354). -/
def immSI64 (i : BitVec 15) (lit : Option (BitVec 25)) : Dword :=
  match lit with
  | none => i.signExtend 64
  | some l => BitVec.ofInt 64 (signedN 40 (l.toNat * 2 ^ 15 + i.toNat))

/-- The comparison of two scalars, written to every lane of a predicate whatever ACTIVE holds (R355). -/
def scmpWord (rel : Word → Word → Bool) (p : BitVec 3) (a b : BitVec 6) (g : Group) (_ : State) : WordOut :=
  { uses := [.scl a.toNat, .scl b.toNat]
    dests := if p = 7 then [] else [.pred p.toNat]
    effect := onCur fun live => live.setP p.toNat (BitVec.allOnes 32) (if rel (g.s a.toNat) (g.s b.toNat) then BitVec.allOnes 32 else 0) }

/-- sD := sD ≠ 0 ? sA : sB (R355). -/
def sselWord (d a b : BitVec 6) (g : Group) (_ : State) : WordOut :=
  scalarWord [d.toNat, a.toNat, b.toNat] [d.toNat] fun live =>
    live.setS d.toNat (if g.s d.toNat = 0 then g.s b.toNat else g.s a.toNat)

/-- R353. Scalar add. -/
def execSadd (_c : Bool) (d a b : BitVec 6) (s : State) : Out := issue (salu2 d a b (· + ·)) s

/-- R353. Scalar subtract. -/
def execSsub (_c : Bool) (d a b : BitVec 6) (s : State) : Out := issue (salu2 d a b (· - ·)) s

/-- R353. Scalar multiply low. -/
def execSmul (_c : Bool) (d a b : BitVec 6) (s : State) : Out := issue (salu2 d a b (· * ·)) s

/-- R353. Scalar signed multiply high. -/
def execSmulh (_c : Bool) (d a b : BitVec 6) (s : State) : Out := issue (salu2 d a b (mulHigh true)) s

/-- R353. Scalar AND. -/
def execSand (_c : Bool) (d a b : BitVec 6) (s : State) : Out := issue (salu2 d a b andW) s

/-- R353. Scalar OR. -/
def execSor (_c : Bool) (d a b : BitVec 6) (s : State) : Out := issue (salu2 d a b orW) s

/-- R353. Scalar XOR. -/
def execSxor (_c : Bool) (d a b : BitVec 6) (s : State) : Out := issue (salu2 d a b xorW) s

/-- R353. Scalar AND NOT. -/
def execSandn (_c : Bool) (d a b : BitVec 6) (s : State) : Out := issue (salu2 d a b andnW) s

/-- R353. Scalar shift left. -/
def execSshl (_c : Bool) (d a b : BitVec 6) (s : State) : Out := issue (salu2 d a b shlW) s

/-- R353. Scalar logical shift right. -/
def execSshr (_c : Bool) (d a b : BitVec 6) (s : State) : Out := issue (salu2 d a b shrW) s

/-- R353. Scalar arithmetic shift right. -/
def execSsar (_c : Bool) (d a b : BitVec 6) (s : State) : Out := issue (salu2 d a b sarW) s

/-- R353. Scalar signed minimum. -/
def execSmin (_c : Bool) (d a b : BitVec 6) (s : State) : Out := issue (salu2 d a b iminS) s

/-- R353. Scalar signed maximum. -/
def execSmax (_c : Bool) (d a b : BitVec 6) (s : State) : Out := issue (salu2 d a b imaxS) s

/-- R353. Scalar move. -/
def execSmov (_c : Bool) (d a : BitVec 6) (s : State) : Out := issue (smovWord d a) s

/-- R353. 64-bit scalar pair add. -/
def execSadd64 (_c : Bool) (d a b : BitVec 6) (s : State) : Out := issue (salu64 d a b (· + ·)) s

/-- R353. 64-bit scalar pair subtract. -/
def execSsub64 (_c : Bool) (d a b : BitVec 6) (s : State) : Out := issue (salu64 d a b (· - ·)) s

/-- R354. Add a sign-extended immediate to a scalar. -/
def execSaddi (_c : Bool) (d : BitVec 6) (i : BitVec 15) (lit : Option (BitVec 25)) (s : State) : Out :=
  issue (simmWord d fun v => v + immSIs i lit) s

/-- R354. AND a scalar with an immediate. -/
def execSandi (_c : Bool) (d : BitVec 6) (i : BitVec 15) (lit : Option (BitVec 25)) (s : State) : Out :=
  issue (simmWord d fun v => v &&& immSIz i lit) s

/-- R354. OR a scalar with an immediate. -/
def execSori (_c : Bool) (d : BitVec 6) (i : BitVec 15) (lit : Option (BitVec 25)) (s : State) : Out :=
  issue (simmWord d fun v => v ||| immSIz i lit) s

/-- R354. XOR a scalar with an immediate. -/
def execSxori (_c : Bool) (d : BitVec 6) (i : BitVec 15) (lit : Option (BitVec 25)) (s : State) : Out :=
  issue (simmWord d fun v => v ^^^ immSIz i lit) s

/-- R354. Shift a scalar left by an immediate. -/
def execSshli (_c : Bool) (d : BitVec 6) (i : BitVec 15) (lit : Option (BitVec 25)) (s : State) : Out :=
  issue (simmWord d fun v => shlW v (immSIz i lit)) s

/-- R354. Shift a scalar right by an immediate. -/
def execSshri (_c : Bool) (d : BitVec 6) (i : BitVec 15) (lit : Option (BitVec 25)) (s : State) : Out :=
  issue (simmWord d fun v => shrW v (immSIz i lit)) s

/-- R354. Move an immediate into a scalar. -/
def execSmovi (_c : Bool) (d : BitVec 6) (i : BitVec 15) (lit : Option (BitVec 25)) (s : State) : Out :=
  issue (fun _ _ => scalarWord [] [d.toNat] fun live => live.setS d.toNat (immSIs i lit)) s

/-- R354. Move a 64-bit sign-extended immediate into a scalar pair. -/
def execSmovhi (_c : Bool) (d : BitVec 6) (i : BitVec 15) (lit : Option (BitVec 25)) (s : State) : Out :=
  issue (fun _ _ => scalarWord [] [d.toNat, d.toNat + 1] fun live => live.setS64 d.toNat (immSI64 i lit)) s

/-- R355. Scalar equal compare into a predicate in all lanes. -/
def execScmpEq (_c : Bool) (p : BitVec 3) (a b : BitVec 6) (s : State) : Out := issue (scmpWord eqW p a b) s

/-- R355. Scalar not-equal compare. -/
def execScmpNe (_c : Bool) (p : BitVec 3) (a b : BitVec 6) (s : State) : Out := issue (scmpWord neW p a b) s

/-- R355. Scalar signed less-than compare. -/
def execScmpLtS (_c : Bool) (p : BitVec 3) (a b : BitVec 6) (s : State) : Out := issue (scmpWord ltS p a b) s

/-- R355. Scalar signed less-or-equal compare. -/
def execScmpLeS (_c : Bool) (p : BitVec 3) (a b : BitVec 6) (s : State) : Out := issue (scmpWord leS p a b) s

/-- R355. Scalar unsigned less-than compare. -/
def execScmpLtN (_c : Bool) (p : BitVec 3) (a b : BitVec 6) (s : State) : Out := issue (scmpWord ltN p a b) s

/-- R355. Scalar unsigned less-or-equal compare. -/
def execScmpLeN (_c : Bool) (p : BitVec 3) (a b : BitVec 6) (s : State) : Out := issue (scmpWord leN p a b) s

/-- R355. Scalar select on sD non-zero. -/
def execSsel (_c : Bool) (d a b : BitVec 6) (s : State) : Out := issue (sselWord d a b) s

/-! Special registers (R321). -/

/-- The die's arithmetic clock (R20). -/
def cycleOf (s : State) (die : Nat) : Nat := s.clock - (dieAt s die).cycleBase

/-- A uniform special register as it stands at issue (R321, R356), as 64 bits. -/
def specialReg (s : State) (g : Group) (n : Nat) : Dword :=
  let t := curTeam s
  match n with
  | 1 => BitVec.ofNat 64 (indexOf s.cur)
  | 2 => BitVec.ofNat 64 (handleOf s.cur)
  | 3 => BitVec.ofNat 64 ((Maps.find (dieAt s t.die).cards t.slot).elim 0 (·.count))
  | 4 => BitVec.ofNat 64 t.core
  | 5 => BitVec.ofNat 64 (dieOfCore t.core)
  | 6 => BitVec.ofNat 64 (cycleOf s (dieOfCore t.core))
  | 7 => g.fpm.setWidth 64
  | 8 => g.tag.setWidth 64
  | 9 => g.cptag.setWidth 64
  | 10 => g.mode.setWidth 64
  | 11 => g.trapbase
  | 12 => g.rsbase
  | 13 => (coreAt s t.core).embstall.setWidth 64
  | _ => 0

/-- Is a special register 64 bits wide (R321)? -/
def specialWide (n : Nat) : Bool := n == 6 || n == 11 || n == 12 || n == 14

/-- Is a special register closed to user mode (R321)? -/
def specialSup (n : Nat) : Bool := n == 11 || n == 14

/-- A number from 15 on is reserved (R321). -/
def specialHere (n : Nat) : Bool := n ≤ 14

/-- A special register written (R243, R252, R293, R294, R170): reserved bits are ignored, and RESEED reseeds. -/
def setSpecial (n : Nat) (v : Dword) (g : Group) : Group :=
  match n with
  | 7 =>
    let g' := { g with fpm := loW v &&& 0xFFFF03F3#32 }
    if v.getLsbD 10 then g'.reseed (v.toNat / 2 ^ 16 % 2 ^ 16) else g'
  | 8 => { g with tag := loW v &&& 0xFFF#32 }
  | 10 => { g with mode := (g.mode &&& 0xFFFFFFFC#32) ||| (loW v &&& 3#32) }
  | 11 => { g with trapbase := v &&& 0xFFFFFFFFFFFFC000#64 }
  | 12 => { g with rsbase := (v &&& 0xFFFFFFFFFFFFFC00#64) ||| BitVec.ofNat 64 (min 11 (v.toNat % 16)) }
  | _ => g

/-- Can a special register be written in some mode (R321)? -/
def specialWritable (n : Nat) : Bool := n == 7 || n == 8 || n == 10 || n == 11 || n == 12

/-- `getsr` (R356). -/
def getsrWord (d n : BitVec 6) (g : Group) (s : State) : WordOut :=
  let base := legal (specialHere n.toNat) g ++ unless_ (!specialSup n.toNat || g.sup) .priv g
  match n.toNat with
  | 0 =>
    let w := regWord s g false [vr false (d.setWidth 7) g 1 1] []
    { w with raises := base ++ w.raises, effect := onCur fun live => live.setV d.toNat g.active (BitVec.ofNat 32) }
  | 14 =>
    let w := regWord s g false [vr false (d.setWidth 7) g 2 2] []
    { w with raises := base ++ w.raises, effect := onCur fun live => live.setV64 d.toNat g.active (Maps.get 0 g.faddr) }
  | k =>
    if specialWide k then
      { scalarWord [] [d.toNat, d.toNat + 1] (fun live => live.setS64 d.toNat (specialReg s g k)) with raises := base }
    else { scalarWord [] [d.toNat] (fun live => live.setS d.toNat (loW (specialReg s g k))) with raises := base }

/-- `setsr` (R356). -/
def setsrWord (n b : BitVec 6) (g : Group) (_ : State) : WordOut :=
  let k := n.toNat
  let v : Dword := if specialWide k then g.s64 b.toNat else (g.s b.toNat).setWidth 64
  { raises := legal (specialWritable k) g ++ unless_ (g.sup || !(specialSup k || k == 10)) .priv g
    uses := .scl b.toNat :: (if specialWide k then [.scl (b.toNat + 1)] else [])
    last := onCur (setSpecial k v) }

/-- R356. Read a special register. -/
def execGetsr (_c : Bool) (d n : BitVec 6) (s : State) : Out := issue (getsrWord d n) s

/-- R356. Write a special register. -/
def execSetsr (_c : Bool) (n b : BitVec 6) (s : State) : Out := issue (setsrWord n b) s

/-- A write of `ix` (R357). -/
def setIxWord (a : BitVec 6) (f : BitVec 8 → BitVec 8) (g : Group) (_ : State) : WordOut :=
  { uses := [.scl a.toNat], dests := [.ix], effect := onCur fun live => { live with ix := f ((g.s a.toNat).setWidth 8) } }

/-- R357. Set the index register. -/
def execSetix (_c : Bool) (a : BitVec 6) (s : State) : Out := issue (setIxWord a id) s

/-- R357. Add to the index register modulo 256. -/
def execAddix (_c : Bool) (a : BitVec 6) (s : State) : Out :=
  issue (fun g s => { setIxWord a (fun v => g.ix + v) g s with uses := [.scl a.toNat, .ix] }) s

/-- R357. Read the index register. -/
def execGetix (_c : Bool) (d : BitVec 6) (s : State) : Out :=
  issue (fun g _ => { uses := [.ix], dests := [.scl d.toNat], effect := onCur fun live => live.setS d.toNat (g.ix.setWidth 32) }) s

end Sys2Proof.Machine
end

