-- ==== Sys2Proof/Machine/Dispatch.lean ====
section
/-! DEFINITION. What each instruction and each step of a device unit does: one arm per constructor of Instr. -/

namespace Sys2Proof.Machine

def exec (i : Instr) (s : State) : Host.Outcome State Fault Refusal :=
  match i with
  | .nop c => Sys2Proof.Machine.execNop c s
  | .lit c l => Sys2Proof.Machine.execLit c l s
  | .iadd c x d a b => Sys2Proof.Machine.execIadd c x d a b s
  | .isub c x d a b => Sys2Proof.Machine.execIsub c x d a b s
  | .iminS c x d a b => Sys2Proof.Machine.execIminS c x d a b s
  | .iminN c x d a b => Sys2Proof.Machine.execIminN c x d a b s
  | .imaxS c x d a b => Sys2Proof.Machine.execImaxS c x d a b s
  | .imaxN c x d a b => Sys2Proof.Machine.execImaxN c x d a b s
  | .iaddc c x d a b => Sys2Proof.Machine.execIaddc c x d a b s
  | .isubb c x d a b => Sys2Proof.Machine.execIsubb c x d a b s
  | .iaddScalarB c x d a sb => Sys2Proof.Machine.execIaddScalarB c x d a sb s
  | .isubScalarB c x d a sb => Sys2Proof.Machine.execIsubScalarB c x d a sb s
  | .iminSScalarB c x d a sb => Sys2Proof.Machine.execIminSScalarB c x d a sb s
  | .iminNScalarB c x d a sb => Sys2Proof.Machine.execIminNScalarB c x d a sb s
  | .imaxSScalarB c x d a sb => Sys2Proof.Machine.execImaxSScalarB c x d a sb s
  | .imaxNScalarB c x d a sb => Sys2Proof.Machine.execImaxNScalarB c x d a sb s
  | .iaddcScalarB c x d a sb => Sys2Proof.Machine.execIaddcScalarB c x d a sb s
  | .isubbScalarB c x d a sb => Sys2Proof.Machine.execIsubbScalarB c x d a sb s
  | .imul c x d a b => Sys2Proof.Machine.execImul c x d a b s
  | .imulhS c x d a b => Sys2Proof.Machine.execImulhS c x d a b s
  | .imulhN c x d a b => Sys2Proof.Machine.execImulhN c x d a b s
  | .imad c x d a b => Sys2Proof.Machine.execImad c x d a b s
  | .imadhS c x d a b => Sys2Proof.Machine.execImadhS c x d a b s
  | .imadhN c x d a b => Sys2Proof.Machine.execImadhN c x d a b s
  | .iabs c x d a => Sys2Proof.Machine.execIabs c x d a s
  | .ineg c x d a => Sys2Proof.Machine.execIneg c x d a s
  | .and c x d a b => Sys2Proof.Machine.execAnd c x d a b s
  | .or c x d a b => Sys2Proof.Machine.execOr c x d a b s
  | .xor c x d a b => Sys2Proof.Machine.execXor c x d a b s
  | .andn c x d a b => Sys2Proof.Machine.execAndn c x d a b s
  | .orn c x d a b => Sys2Proof.Machine.execOrn c x d a b s
  | .popc c x d a => Sys2Proof.Machine.execPopc c x d a s
  | .clz c x d a => Sys2Proof.Machine.execClz c x d a s
  | .ctz c x d a => Sys2Proof.Machine.execCtz c x d a s
  | .andScalarB c x d a sb => Sys2Proof.Machine.execAndScalarB c x d a sb s
  | .orScalarB c x d a sb => Sys2Proof.Machine.execOrScalarB c x d a sb s
  | .xorScalarB c x d a sb => Sys2Proof.Machine.execXorScalarB c x d a sb s
  | .andnScalarB c x d a sb => Sys2Proof.Machine.execAndnScalarB c x d a sb s
  | .ornScalarB c x d a sb => Sys2Proof.Machine.execOrnScalarB c x d a sb s
  | .shl c x d a b => Sys2Proof.Machine.execShl c x d a b s
  | .shr c x d a b => Sys2Proof.Machine.execShr c x d a b s
  | .sar c x d a b => Sys2Proof.Machine.execSar c x d a b s
  | .rotl c x d a b => Sys2Proof.Machine.execRotl c x d a b s
  | .bfeN c x d a b => Sys2Proof.Machine.execBfeN c x d a b s
  | .bfeS c x d a b => Sys2Proof.Machine.execBfeS c x d a b s
  | .bfi c x d a b => Sys2Proof.Machine.execBfi c x d a b s
  | .bperm c x d a b => Sys2Proof.Machine.execBperm c x d a b s
  | .icmpEq c x p a b => Sys2Proof.Machine.execIcmpEq c x p a b s
  | .icmpNe c x p a b => Sys2Proof.Machine.execIcmpNe c x p a b s
  | .icmpLtS c x p a b => Sys2Proof.Machine.execIcmpLtS c x p a b s
  | .icmpLeS c x p a b => Sys2Proof.Machine.execIcmpLeS c x p a b s
  | .icmpGtS c x p a b => Sys2Proof.Machine.execIcmpGtS c x p a b s
  | .icmpGeS c x p a b => Sys2Proof.Machine.execIcmpGeS c x p a b s
  | .icmpLtN c x p a b => Sys2Proof.Machine.execIcmpLtN c x p a b s
  | .icmpGeN c x p a b => Sys2Proof.Machine.execIcmpGeN c x p a b s
  | .sel c x p d a b => Sys2Proof.Machine.execSel c x p d a b s
  | .mov c x d a => Sys2Proof.Machine.execMov c x d a s
  | .mov64 c x d a => Sys2Proof.Machine.execMov64 c x d a s
  | .movs c x d sb => Sys2Proof.Machine.execMovs c x d sb s
  | .vrd c x d a b => Sys2Proof.Machine.execVrd c x d a b s
  | .vwr c x d a b => Sys2Proof.Machine.execVwr c x d a b s
  | .pmov c x p a => Sys2Proof.Machine.execPmov c x p a s
  | .pget c x d p => Sys2Proof.Machine.execPget c x d p s
  | .iaddi c x d a imm lit => Sys2Proof.Machine.execIaddi c x d a imm lit s
  | .movi c x d imm lit => Sys2Proof.Machine.execMovi c x d imm lit s
  | .fadd c x d a b => Sys2Proof.Machine.execFadd c x d a b s
  | .fsub c x d a b => Sys2Proof.Machine.execFsub c x d a b s
  | .fmin c x d a b => Sys2Proof.Machine.execFmin c x d a b s
  | .fmax c x d a b => Sys2Proof.Machine.execFmax c x d a b s
  | .fabs c x d a => Sys2Proof.Machine.execFabs c x d a s
  | .fneg c x d a => Sys2Proof.Machine.execFneg c x d a s
  | .frnd c x d a => Sys2Proof.Machine.execFrnd c x d a s
  | .fract c x d a => Sys2Proof.Machine.execFract c x d a s
  | .faddScalarB c x d a sb => Sys2Proof.Machine.execFaddScalarB c x d a sb s
  | .fsubScalarB c x d a sb => Sys2Proof.Machine.execFsubScalarB c x d a sb s
  | .fminScalarB c x d a sb => Sys2Proof.Machine.execFminScalarB c x d a sb s
  | .fmaxScalarB c x d a sb => Sys2Proof.Machine.execFmaxScalarB c x d a sb s
  | .fmul c x d a b => Sys2Proof.Machine.execFmul c x d a b s
  | .fma c x d a b => Sys2Proof.Machine.execFma c x d a b s
  | .fms c x d a b => Sys2Proof.Machine.execFms c x d a b s
  | .fnma c x d a b => Sys2Proof.Machine.execFnma c x d a b s
  | .fmulScalarB c x d a sb => Sys2Proof.Machine.execFmulScalarB c x d a sb s
  | .fmaScalarB c x d a sb => Sys2Proof.Machine.execFmaScalarB c x d a sb s
  | .fmsScalarB c x d a sb => Sys2Proof.Machine.execFmsScalarB c x d a sb s
  | .fnmaScalarB c x d a sb => Sys2Proof.Machine.execFnmaScalarB c x d a sb s
  | .fcmpEq c x p a b => Sys2Proof.Machine.execFcmpEq c x p a b s
  | .fcmpNe c x p a b => Sys2Proof.Machine.execFcmpNe c x p a b s
  | .fcmpLt c x p a b => Sys2Proof.Machine.execFcmpLt c x p a b s
  | .fcmpLe c x p a b => Sys2Proof.Machine.execFcmpLe c x p a b s
  | .fcmpGt c x p a b => Sys2Proof.Machine.execFcmpGt c x p a b s
  | .fcmpGe c x p a b => Sys2Proof.Machine.execFcmpGe c x p a b s
  | .fcmpUnord c x p a b => Sys2Proof.Machine.execFcmpUnord c x p a b s
  | .fcmpOrd c x p a b => Sys2Proof.Machine.execFcmpOrd c x p a b s
  | .haddF16x2 c x d a b => Sys2Proof.Machine.execHaddF16x2 c x d a b s
  | .hmulF16x2 c x d a b => Sys2Proof.Machine.execHmulF16x2 c x d a b s
  | .hfmaF16x2 c x d a b => Sys2Proof.Machine.execHfmaF16x2 c x d a b s
  | .haddBf16x2 c x d a b => Sys2Proof.Machine.execHaddBf16x2 c x d a b s
  | .hmulBf16x2 c x d a b => Sys2Proof.Machine.execHmulBf16x2 c x d a b s
  | .hfmaBf16x2 c x d a b => Sys2Proof.Machine.execHfmaBf16x2 c x d a b s
  | .hminF16x2 c x d a b => Sys2Proof.Machine.execHminF16x2 c x d a b s
  | .hmaxF16x2 c x d a b => Sys2Proof.Machine.execHmaxF16x2 c x d a b s
  | .frcp c x d a => Sys2Proof.Machine.execFrcp c x d a s
  | .frsq c x d a => Sys2Proof.Machine.execFrsq c x d a s
  | .fsqrt c x d a => Sys2Proof.Machine.execFsqrt c x d a s
  | .fexp2 c x d a => Sys2Proof.Machine.execFexp2 c x d a s
  | .flog2 c x d a => Sys2Proof.Machine.execFlog2 c x d a s
  | .fsin c x d a => Sys2Proof.Machine.execFsin c x d a s
  | .fcos c x d a => Sys2Proof.Machine.execFcos c x d a s
  | .ftanh c x d a => Sys2Proof.Machine.execFtanh c x d a s
  | .dadd c x d a b => Sys2Proof.Machine.execDadd c x d a b s
  | .dsub c x d a b => Sys2Proof.Machine.execDsub c x d a b s
  | .dmul c x d a b => Sys2Proof.Machine.execDmul c x d a b s
  | .dfma c x d a b => Sys2Proof.Machine.execDfma c x d a b s
  | .dmin c x d a b => Sys2Proof.Machine.execDmin c x d a b s
  | .dmax c x d a b => Sys2Proof.Machine.execDmax c x d a b s
  | .drcp c x d a => Sys2Proof.Machine.execDrcp c x d a s
  | .dsqrt c x d a => Sys2Proof.Machine.execDsqrt c x d a s
  | .cvt c x t d a r sb => Sys2Proof.Machine.execCvt c x t d a r sb s
  | .cvtnE4m3 c x d a => Sys2Proof.Machine.execCvtnE4m3 c x d a s
  | .cvtnE4m3Sr c x d a => Sys2Proof.Machine.execCvtnE4m3Sr c x d a s
  | .cvtnE5m2 c x d a => Sys2Proof.Machine.execCvtnE5m2 c x d a s
  | .cvtnE5m2Sr c x d a => Sys2Proof.Machine.execCvtnE5m2Sr c x d a s
  | .cvtnE2m1b c x d a b => Sys2Proof.Machine.execCvtnE2m1b c x d a b s
  | .cvtnE2m1bSr c x d a b => Sys2Proof.Machine.execCvtnE2m1bSr c x d a b s
  | .cvtwE4m3 c x d a => Sys2Proof.Machine.execCvtwE4m3 c x d a s
  | .cvtwE5m2 c x d a => Sys2Proof.Machine.execCvtwE5m2 c x d a s
  | .xrel c x d a sb => Sys2Proof.Machine.execXrel c x d a sb s
  | .xrel3 c x d a sb => Sys2Proof.Machine.execXrel3 c x d a sb s
  | .dcmpEq c x p a b => Sys2Proof.Machine.execDcmpEq c x p a b s
  | .dcmpLt c x p a b => Sys2Proof.Machine.execDcmpLt c x p a b s
  | .dcmpLe c x p a b => Sys2Proof.Machine.execDcmpLe c x p a b s
  | .dcmpUnord c x p a b => Sys2Proof.Machine.execDcmpUnord c x p a b s
  | .shflIdx c x d a b => Sys2Proof.Machine.execShflIdx c x d a b s
  | .shflUp c x d a b => Sys2Proof.Machine.execShflUp c x d a b s
  | .shflDown c x d a b => Sys2Proof.Machine.execShflDown c x d a b s
  | .shflXor c x d a b => Sys2Proof.Machine.execShflXor c x d a b s
  | .voteAny c x d p => Sys2Proof.Machine.execVoteAny c x d p s
  | .voteAll c x d p => Sys2Proof.Machine.execVoteAll c x d p s
  | .voteBallot c x d p => Sys2Proof.Machine.execVoteBallot c x d p s
  | .qswz c x d a k => Sys2Proof.Machine.execQswz c x d a k s
  | .redAddS32 c x d a => Sys2Proof.Machine.execRedAddS32 c x d a s
  | .redAddF32 c x d a => Sys2Proof.Machine.execRedAddF32 c x d a s
  | .redMinF32 c x d a => Sys2Proof.Machine.execRedMinF32 c x d a s
  | .redMaxF32 c x d a => Sys2Proof.Machine.execRedMaxF32 c x d a s
  | .scanAddS32 c x d a => Sys2Proof.Machine.execScanAddS32 c x d a s
  | .scanAddF32 c x d a => Sys2Proof.Machine.execScanAddF32 c x d a s
  | .redAnd c x d a => Sys2Proof.Machine.execRedAnd c x d a s
  | .redOr c x d a => Sys2Proof.Machine.execRedOr c x d a s
  | .ddx c x d a b => Sys2Proof.Machine.execDdx c x d a b s
  | .ddy c x d a b => Sys2Proof.Machine.execDdy c x d a b s
  | .ipa c x d a n => Sys2Proof.Machine.execIpa c x d a n s
  | .ipac c x d a n => Sys2Proof.Machine.execIpac c x d a n s
  | .rtravInit c x d a b => Sys2Proof.Machine.execRtravInit c x d a b s
  | .rtravStep c x d => Sys2Proof.Machine.execRtravStep c x d s
  | .rhit c x d => Sys2Proof.Machine.execRhit c x d s
  | .sadd c d a b => Sys2Proof.Machine.execSadd c d a b s
  | .ssub c d a b => Sys2Proof.Machine.execSsub c d a b s
  | .smul c d a b => Sys2Proof.Machine.execSmul c d a b s
  | .smulh c d a b => Sys2Proof.Machine.execSmulh c d a b s
  | .sand c d a b => Sys2Proof.Machine.execSand c d a b s
  | .sor c d a b => Sys2Proof.Machine.execSor c d a b s
  | .sxor c d a b => Sys2Proof.Machine.execSxor c d a b s
  | .sandn c d a b => Sys2Proof.Machine.execSandn c d a b s
  | .sshl c d a b => Sys2Proof.Machine.execSshl c d a b s
  | .sshr c d a b => Sys2Proof.Machine.execSshr c d a b s
  | .ssar c d a b => Sys2Proof.Machine.execSsar c d a b s
  | .smin c d a b => Sys2Proof.Machine.execSmin c d a b s
  | .smax c d a b => Sys2Proof.Machine.execSmax c d a b s
  | .smov c d a => Sys2Proof.Machine.execSmov c d a s
  | .sadd64 c d a b => Sys2Proof.Machine.execSadd64 c d a b s
  | .ssub64 c d a b => Sys2Proof.Machine.execSsub64 c d a b s
  | .saddi c d imm lit => Sys2Proof.Machine.execSaddi c d imm lit s
  | .sandi c d imm lit => Sys2Proof.Machine.execSandi c d imm lit s
  | .sori c d imm lit => Sys2Proof.Machine.execSori c d imm lit s
  | .sxori c d imm lit => Sys2Proof.Machine.execSxori c d imm lit s
  | .sshli c d imm lit => Sys2Proof.Machine.execSshli c d imm lit s
  | .sshri c d imm lit => Sys2Proof.Machine.execSshri c d imm lit s
  | .smovi c d imm lit => Sys2Proof.Machine.execSmovi c d imm lit s
  | .smovhi c d imm lit => Sys2Proof.Machine.execSmovhi c d imm lit s
  | .scmpEq c p a b => Sys2Proof.Machine.execScmpEq c p a b s
  | .scmpNe c p a b => Sys2Proof.Machine.execScmpNe c p a b s
  | .scmpLtS c p a b => Sys2Proof.Machine.execScmpLtS c p a b s
  | .scmpLeS c p a b => Sys2Proof.Machine.execScmpLeS c p a b s
  | .scmpLtN c p a b => Sys2Proof.Machine.execScmpLtN c p a b s
  | .scmpLeN c p a b => Sys2Proof.Machine.execScmpLeN c p a b s
  | .ssel c d a b => Sys2Proof.Machine.execSsel c d a b s
  | .getsr c d n => Sys2Proof.Machine.execGetsr c d n s
  | .setsr c n b => Sys2Proof.Machine.execSetsr c n b s
  | .setix c a => Sys2Proof.Machine.execSetix c a s
  | .addix c a => Sys2Proof.Machine.execAddix c a s
  | .getix c d => Sys2Proof.Machine.execGetix c d s
  | .bind c w a => Sys2Proof.Machine.execBind c w a s
  | .unbind c w => Sys2Proof.Machine.execUnbind c w s
  | .wquery c d w => Sys2Proof.Machine.execWquery c d w s
  | .ld c x z d a w imm lit => Sys2Proof.Machine.execLd c x z d a w imm lit s
  | .st c x z d a w imm lit => Sys2Proof.Machine.execSt c x z d a w imm lit s
  | .ldg c x z d a imm lit => Sys2Proof.Machine.execLdg c x z d a imm lit s
  | .stg c x z d a imm lit => Sys2Proof.Machine.execStg c x z d a imm lit s
  | .lds c x z d a imm lit => Sys2Proof.Machine.execLds c x z d a imm lit s
  | .sts c x z d a imm lit => Sys2Proof.Machine.execSts c x z d a imm lit s
  | .ldc c z d a b => Sys2Proof.Machine.execLdc c z d a b s
  | .atom c x o d a w sb r => Sys2Proof.Machine.execAtom c x o d a w sb r s
  | .atoms c x o d a sb r => Sys2Proof.Machine.execAtoms c x o d a sb r s
  | .ldt c x z d a w => Sys2Proof.Machine.execLdt c x z d a w s
  | .smpPoint c x d a w v u => Sys2Proof.Machine.execSmpPoint c x d a w v u s
  | .smpBilinear c x d a w v u => Sys2Proof.Machine.execSmpBilinear c x d a w v u s
  | .smpTrilinear c x d a w v u => Sys2Proof.Machine.execSmpTrilinear c x d a w v u s
  | .fenceAcq c sb => Sys2Proof.Machine.execFenceAcq c sb s
  | .fenceRel c sb => Sys2Proof.Machine.execFenceRel c sb s
  | .fenceAr c sb => Sys2Proof.Machine.execFenceAr c sb s
  | .cinv c => Sys2Proof.Machine.execCinv c s
  | .cwb c d a => Sys2Proof.Machine.execCwb c d a s
  | .pf c x a w => Sys2Proof.Machine.execPf c x a w s
  | .resfence c => Sys2Proof.Machine.execResfence c s
  | .cpa c x d a w sb r => Sys2Proof.Machine.execCpa c x d a w sb r s
  | .cpseal c => Sys2Proof.Machine.execCpseal c s
  | .cpwait c t => Sys2Proof.Machine.execCpwait c t s
  | .cpstat c d => Sys2Proof.Machine.execCpstat c d s
  | .cpbulk c d a b => Sys2Proof.Machine.execCpbulk c d a b s
  | .cpq c d a b => Sys2Proof.Machine.execCpq c d a b s
  | .tbinit c a b => Sys2Proof.Machine.execTbinit c a b s
  | .tbarrive c a b => Sys2Proof.Machine.execTbarrive c a b s
  | .tbexpect c a b => Sys2Proof.Machine.execTbexpect c a b s
  | .tbwait c a b => Sys2Proof.Machine.execTbwait c a b s
  | .tbtest c d a b => Sys2Proof.Machine.execTbtest c d a b s
  | .rarm c x a n => Sys2Proof.Machine.execRarm c x a n s
  | .rdisarm c x a n => Sys2Proof.Machine.execRdisarm c x a n s
  | .mkcap c d a => Sys2Proof.Machine.execMkcap c d a s
  | .rsend c x d a k => Sys2Proof.Machine.execRsend c x d a k s
  | .rsendT c x d a k => Sys2Proof.Machine.execRsendT c x d a k s
  | .rsendRel c x d a k => Sys2Proof.Machine.execRsendRel c x d a k s
  | .rsendRelT c x d a k => Sys2Proof.Machine.execRsendRelT c x d a k s
  | .rrevoke c d => Sys2Proof.Machine.execRrevoke c d s
  | .rtest c x d a => Sys2Proof.Machine.execRtest c x d a s
  | .rtestCount c d => Sys2Proof.Machine.execRtestCount c d s
  | .mring c r a b => Sys2Proof.Machine.execMring c r a b s
  | .msend c d a b => Sys2Proof.Machine.execMsend c d a b s
  | .mwait c d r => Sys2Proof.Machine.execMwait c d r s
  | .resset c x a w => Sys2Proof.Machine.execResset c x a w s
  | .resclr c x a w => Sys2Proof.Machine.execResclr c x a w s
  | .resq c x d a w r => Sys2Proof.Machine.execResq c x d a w r s
  | .memitV c x d a n => Sys2Proof.Machine.execMemitV c x d a n s
  | .memitP c x d a => Sys2Proof.Machine.execMemitP c x d a s
  | .tamp c x d a b => Sys2Proof.Machine.execTamp c x d a b s
  | .tload c x d a => Sys2Proof.Machine.execTload c x d a s
  | .tstore c x d a => Sys2Proof.Machine.execTstore c x d a s
  | .tseal c => Sys2Proof.Machine.execTseal c s
  | .gzrd c x d a => Sys2Proof.Machine.execGzrd c x d a s
  | .tlbinv c d a b => Sys2Proof.Machine.execTlbinv c d a b s
  | .winv c d a => Sys2Proof.Machine.execWinv c d a s
  | .hmask c k a b => Sys2Proof.Machine.execHmask c k a b s
  | .evict c d a b => Sys2Proof.Machine.execEvict c d a b s
  | .snap c => Sys2Proof.Machine.execSnap c s
  | .pgmap c d => Sys2Proof.Machine.execPgmap c d s
  | .bra c o lit => Sys2Proof.Machine.execBra c o lit s
  | .brc c p o lit => Sys2Proof.Machine.execBrc c p o lit s
  | .brcn c p o lit => Sys2Proof.Machine.execBrcn c p o lit s
  | .bru c p o lit => Sys2Proof.Machine.execBru c p o lit s
  | .join c => Sys2Proof.Machine.execJoin c s
  | .brx c sb => Sys2Proof.Machine.execBrx c sb s
  | .loop c p o lit => Sys2Proof.Machine.execLoop c p o lit s
  | .call c o lit => Sys2Proof.Machine.execCall c o lit s
  | .ret c => Sys2Proof.Machine.execRet c s
  | .exit c p => Sys2Proof.Machine.execExit c p s
  | .trap c p => Sys2Proof.Machine.execTrap c p s
  | .brk c p => Sys2Proof.Machine.execBrk c p s
  | .yield c => Sys2Proof.Machine.execYield c s
  | .sleep c n => Sys2Proof.Machine.execSleep c n s
  | .bar c => Sys2Proof.Machine.execBar c s
  | .barPub c => Sys2Proof.Machine.execBarPub c s
  | .barRealloc c d a => Sys2Proof.Machine.execBarRealloc c d a s
  | .barArrive c => Sys2Proof.Machine.execBarArrive c s
  | .barWait c => Sys2Proof.Machine.execBarWait c s
  | .post c e a => Sys2Proof.Machine.execPost c e a s
  | .lgrow c d a => Sys2Proof.Machine.execLgrow c d a s
  | .evpost c a => Sys2Proof.Machine.execEvpost c a s
  | .depdec c a => Sys2Proof.Machine.execDepdec c a s
  | .depset c a b => Sys2Proof.Machine.execDepset c a b s
  | .mmq c d a sb h => Sys2Proof.Machine.execMmq c d a sb h s
  | .mmqs c d a sb h => Sys2Proof.Machine.execMmqs c d a sb h s
  | .mmqg c d a sb h => Sys2Proof.Machine.execMmqg c d a sb h s
  | .mtile c d sb h => Sys2Proof.Machine.execMtile c d sb h s
  | .wbld c d a => Sys2Proof.Machine.execWbld c d a s
  | .wbinv c a => Sys2Proof.Machine.execWbinv c a s
  | .wbstat c d a => Sys2Proof.Machine.execWbstat c d a s
  | .had16 c x d a m => Sys2Proof.Machine.execHad16 c x d a m s
  | .had32 c x d a m => Sys2Proof.Machine.execHad32 c x d a m s
  | .had64 c x d a m => Sys2Proof.Machine.execHad64 c x d a m s
  | .absmax c x d a m => Sys2Proof.Machine.execAbsmax c x d a m s
  | .quant c x d a m => Sys2Proof.Machine.execQuant c x d a m s
  | .bmenc c x d a m => Sys2Proof.Machine.execBmenc c x d a m s
  | .bmdec c x d a m => Sys2Proof.Machine.execBmdec c x d a m s
  | .pscan c x d a m => Sys2Proof.Machine.execPscan c x d a m s
  | .lztok c x d a => Sys2Proof.Machine.execLztok c x d a s
  | .powerOn => Sys2Proof.Machine.execPowerOn s
  | .measureComponent code component => Sys2Proof.Machine.execMeasureComponent code component s
  | .status dgram => Sys2Proof.Machine.execStatus dgram s
  | .reset dgram => Sys2Proof.Machine.execReset dgram s
  | .loadimg dgram => Sys2Proof.Machine.execLoadimg dgram s
  | .attest dgram => Sys2Proof.Machine.execAttest dgram s
  | .snapCommand dgram => Sys2Proof.Machine.execSnapCommand dgram s
  | .rdsnap dgram => Sys2Proof.Machine.execRdsnap dgram s
  | .rdlife dgram => Sys2Proof.Machine.execRdlife dgram s
  | .setpkg dgram => Sys2Proof.Machine.execSetpkg dgram s
  | .killctx dgram => Sys2Proof.Machine.execKillctx dgram s
  | .unknownCommand dgram => Sys2Proof.Machine.execUnknownCommand dgram s
  | .lifetimeFlush => Sys2Proof.Machine.execLifetimeFlush s
  | .ctxCreate w => Sys2Proof.Machine.execCtxCreate w s
  | .ctxKill w => Sys2Proof.Machine.execCtxKill w s
  | .ctxDestroy w => Sys2Proof.Machine.execCtxDestroy w s
  | .rcbinvWrite die w => Sys2Proof.Machine.execRcbinvWrite die w s
  | .rcbInvalidationDone die => Sys2Proof.Machine.execRcbInvalidationDone die s
  | .wtreplayByPage die w => Sys2Proof.Machine.execWtreplayByPage die w s
  | .wtreplayByToken die w => Sys2Proof.Machine.execWtreplayByToken die w s
  | .wtreplayByAsid die w => Sys2Proof.Machine.execWtreplayByAsid die w s
  | .dspostWrite die cc w => Sys2Proof.Machine.execDspostWrite die cc w s
  | .dctrSet die n cc w => Sys2Proof.Machine.execDctrSet die n cc w s
  | .dctrDecrement die n cc w => Sys2Proof.Machine.execDctrDecrement die n cc w s
  | .lcctlCntclr link w => Sys2Proof.Machine.execLcctlCntclr link w s
  | .lcctlTcdis link w => Sys2Proof.Machine.execLcctlTcdis link w s
  | .snapctlClr die w => Sys2Proof.Machine.execSnapctlClr die w s
  | .thermctlRelease die w => Sys2Proof.Machine.execThermctlRelease die w s
  | .domswWrite w => Sys2Proof.Machine.execDomswWrite w s
  | .fwWrite mc k part w => Sys2Proof.Machine.execFwWrite mc k part w s
  | .serclkWrite w => Sys2Proof.Machine.execSerclkWrite w s
  | .vobWrite v part w => Sys2Proof.Machine.execVobWrite v part w s
  | .vrecWrite v w => Sys2Proof.Machine.execVrecWrite v w s
  | .gazeWrite v w => Sys2Proof.Machine.execGazeWrite v w s
  | .embctlWrite die w => Sys2Proof.Machine.execEmbctlWrite die w s
  | .dsctlWrite die w => Sys2Proof.Machine.execDsctlWrite die w s
  | .nrbaseWrite die w => Sys2Proof.Machine.execNrbaseWrite die w s
  | .deviceRegisterWrite pa wide w => Sys2Proof.Machine.execDeviceRegisterWrite pa wide w s
  | .flitSend link tc payload => Sys2Proof.Machine.execFlitSend link tc payload s
  | .flitReceive link header beats => Sys2Proof.Machine.execFlitReceive link header beats s
  | .linkRetrain link => Sys2Proof.Machine.execLinkRetrain link s
  | .retrainComplete link => Sys2Proof.Machine.execRetrainComplete link s
  | .linkDown link => Sys2Proof.Machine.execLinkDown link s
  | .dmaRequest port rid write addr len data => Sys2Proof.Machine.execDmaRequest port rid write addr len data s
  | .pcieWindowCompletion req ok data => Sys2Proof.Machine.execPcieWindowCompletion req ok data s
  | .thermalThrottle die temp => Sys2Proof.Machine.execThermalThrottle die temp s
  | .thermalReset die temp => Sys2Proof.Machine.execThermalReset die temp s
  | .thermalTokenRestore die temp => Sys2Proof.Machine.execThermalTokenRestore die temp s
  | .faultRecordWrite die => Sys2Proof.Machine.execFaultRecordWrite die s
  | .cardPostArrival die => Sys2Proof.Machine.execCardPostArrival die s
  | .cardStoreEntryFreed die => Sys2Proof.Machine.execCardStoreEntryFreed die s
  | .counterUpdate die n => Sys2Proof.Machine.execCounterUpdate die n s
  | .cardReady die => Sys2Proof.Machine.execCardReady die s
  | .teamPlacement die => Sys2Proof.Machine.execTeamPlacement die s
  | .admholdExpiry die => Sys2Proof.Machine.execAdmholdExpiry die s
  | .drainDeadline team => Sys2Proof.Machine.execDrainDeadline team s
  | .launchRetirement die slot => Sys2Proof.Machine.execLaunchRetirement die slot s
  | .eventRecord die => Sys2Proof.Machine.execEventRecord die s
  | .eventQueueSlotFreed die => Sys2Proof.Machine.execEventQueueSlotFreed die s
  | .decompressionJobEnd die slot => Sys2Proof.Machine.execDecompressionJobEnd die slot s
  | .waitTableRewalk die entry => Sys2Proof.Machine.execWaitTableRewalk die entry s
  | .siblingStop group => Sys2Proof.Machine.execSiblingStop group s
  | .sibhaltPop group => Sys2Proof.Machine.execSibhaltPop group s
  | .lateFailure req => Sys2Proof.Machine.execLateFailure req s
  | .sleepExpiry group => Sys2Proof.Machine.execSleepExpiry group s
  | .tokenHop die token => Sys2Proof.Machine.execTokenHop die token s
  | .burstEnd die cluster => Sys2Proof.Machine.execBurstEnd die cluster s
  | .reallocDecision team => Sys2Proof.Machine.execReallocDecision team s
  | .llcRequest req => Sys2Proof.Machine.execLlcRequest req s
  | .nackResend req => Sys2Proof.Machine.execNackResend req s
  | .domainSwitchPhase => Sys2Proof.Machine.execDomainSwitchPhase s
  | .domainNackResend req => Sys2Proof.Machine.execDomainNackResend req s
  | .remoteScratchAccess req => Sys2Proof.Machine.execRemoteScratchAccess req s
  | .cpaCopyComplete copy => Sys2Proof.Machine.execCpaCopyComplete copy s
  | .bulkCopyComplete copy => Sys2Proof.Machine.execBulkCopyComplete copy s
  | .wbldComplete team slot => Sys2Proof.Machine.execWbldComplete team slot s
  | .xfmReply reply => Sys2Proof.Machine.execXfmReply reply s
  | .mtileStep group => Sys2Proof.Machine.execMtileStep group s
  | .sendAtRelay send => Sys2Proof.Machine.execSendAtRelay send s
  | .sendArrival send => Sys2Proof.Machine.execSendArrival send s
  | .sendMoved send => Sys2Proof.Machine.execSendMoved send s
  | .sendStatusReply send far => Sys2Proof.Machine.execSendStatusReply send far s
  | .messageAtRelay send => Sys2Proof.Machine.execMessageAtRelay send s
  | .teamEviction team => Sys2Proof.Machine.execTeamEviction team s
  | .teamRestore team => Sys2Proof.Machine.execTeamRestore team s
  | .flueRecordWrite die => Sys2Proof.Machine.execFlueRecordWrite die s
  | .residencyInvalidation core word => Sys2Proof.Machine.execResidencyInvalidation core word s
  | .snapTriggerRoot => Sys2Proof.Machine.execSnapTriggerRoot s
  | .snapshotLatch die => Sys2Proof.Machine.execSnapshotLatch die s
  | .meshRingEntry die => Sys2Proof.Machine.execMeshRingEntry die s
  | .cullInstance die => Sys2Proof.Machine.execCullInstance die s
  | .primitiveAtBinner die => Sys2Proof.Machine.execPrimitiveAtBinner die s
  | .primitiveAtOwner die => Sys2Proof.Machine.execPrimitiveAtOwner die s
  | .drawEndMarker die => Sys2Proof.Machine.execDrawEndMarker die s
  | .primitiveApply die tile => Sys2Proof.Machine.execPrimitiveApply die tile s
  | .stripStart view => Sys2Proof.Machine.execStripStart view s
  | .sealArrival => Sys2Proof.Machine.execSealArrival s
  | .replacementInstant view => Sys2Proof.Machine.execReplacementInstant view s
  | .replacementNotice team => Sys2Proof.Machine.execReplacementNotice team s
  | .powerLoss => Sys2Proof.Machine.execPowerLoss s
  | .memoryReply req => Sys2Proof.Machine.execMemoryReply req s
  | .llcMissFill line => Sys2Proof.Machine.execLlcMissFill line s
  | .coreReset core => Sys2Proof.Machine.execCoreReset core s
  | .retrainingAttemptFailure link => Sys2Proof.Machine.execRetrainingAttemptFailure link s

end Sys2Proof.Machine
end

