-- ==== Sys2Proof/Machine/Chain.lean ====
section
/-! DEFINITION. Running a group's next chain (R11, R154, R290 to R292, R313, R314): one word alone, or several that first
collect what they raise and then commit or are undone together. -/

namespace Sys2Proof.Machine

/-- The state of an outcome; one without a next state leaves the state as it was. -/
def after (s : State) (o : Out) : State :=
  match o with
  | .next t => t
  | _ => s

/-- What a word of a chain finds at issue. -/
def collectOne (i : Instr) (s : State) : ChainAcc :=
  match (after s (exec i { s with issue := .collect {} })).issue with
  | .collect a => a
  | _ => {}

/-- Every word run under an issue mode, as long as the group is there. -/
def runWords (is : List Instr) (s : State) : State :=
  is.foldl (fun s i => if (Maps.find s.groups s.cur).isSome then after s (exec i s) else s) s

/-- The causes that committed words leave for the end of their chain (R290). -/
def postsOf (s : State) : List Raise :=
  match s.issue with
  | .commit _ ps => ps
  | _ => []

/-- The registers as the chain's words read them at its issue: those that it kept if an `mtile` of it has run since (R314). -/
def chainSrc (g : Group) : Group :=
  match g.tileSrc with
  | some (v, x) => { g with vregs := v, sregs := x }
  | none => g

/-- A completed macro operation or answered send forgotten: its chain fails, and runs whole again (R279, R301). -/
def forgetTile (g : Group) : Group := if g.resumes then { g with waiting := none, tileSrc := none } else g

/-- The addresses that a failing chain keeps: of the words that raise the cause taken, or of those that park (R292, R297). -/
def chainAddrs (accs : List ChainAcc) : List (Nat × Dword) :=
  match lowest (accs.flatMap (·.raises)) with
  | some r => (accs.filter fun a => a.raises.any fun x => x.cause == r.cause).flatMap (·.faddr)
  | none => accs.flatMap (·.faddr)

/-- Several words issued as one chain. -/
def runChain (is : List Instr) (s : State) : State :=
  let g := chainSrc (groupOf s s.cur)
  let accs := is.map fun i => collectOne i (onCur (fun _ => g) s)
  let raises := accs.flatMap (·.raises)
  let parks := accs.flatMap (·.parks)
  let done (s : State) : State := { s with issue := .alone }
  let s := unwant s
  if accs.any (·.hazard) then holdIssue s
  else if accs.any (·.stall) then holdIssue (done (runWords is { s with issue := .await g true }))
  else if destClash accs then failChain (legal false g) [] [] (onCur forgetTile s)
  else if !(raises.isEmpty && parks.isEmpty) then
    failChain raises parks (chainAddrs accs) (done (runWords is (onCur forgetTile { s with issue := .abort g })))
  else if accs.any (·.await) then awaitWord (accs.any (·.starts)) (done (runWords is { s with issue := .await g false }))
  else
    let s := runWords is { advance s with issue := .commit g [] }
    takeNexts (postsOf s) (done (runWords is { s with issue := .last g }))

/-- The instructions of a chain's words, pipe X last (R377); none where a word is not legal in its place (R322). -/
noncomputable def chainInstrs : Nat → List Word → Option (List Instr × List Instr)
  | 0, _ => some ([], [])
  | n + 1, ws =>
    match ws with
    | [] => some ([], [])
    | w :: _ =>
      match decode ws with
      | .error _ => none
      | .ok (i, rest) => (chainInstrs n rest).map fun r => if pipeOf w = .x then (r.1, i :: r.2) else (i :: r.1, r.2)

/-- The group marked as issuing a chain of a block (R173, R310, R331). -/
def beginIssue (blk : Nat) (g : Group) : Group :=
  { g with block := some blk, entry := false
           haltSeen := g.haltSeen.map fun n => if isPacketStart g.pc && !g.resumes then n + 1 else n }

/-- The scheduler's issue of this clock; a chain that begins a packet counts it (R155, R56). -/
def countIssue (core sched : Nat) (first : Bool) (s : State) : State :=
  onCore core (fun c => { c with
    schedAt := Maps.set c.schedAt sched (s.clock + 1)
    issued := if first then Maps.set c.issued sched (Maps.get 0 c.issued sched + 1) else c.issued }) s

/-- A chain of a group has issued: its units are occupied, and its scheduler's clock is used (R152, R155); or it was found not ready,
which leaves the group's marks as they were. The turn that ends a chain begun before issues nothing. -/
def endIssue (k : Nat) (t : Team) (before : Group) (ws : List Word) (s : State) : State :=
  let used (s : State) : State := countIssue t.core before.sched (isPacketStart before.pc) (occupyUnits t before ws s)
  match Maps.find s.groups k with
  | none => if before.resumes then s else used s
  | some g =>
    if before.resumes then
      if g.stalled then onGroup k (fun g => { g with block := before.block, entry := before.entry, haltSeen := before.haltSeen }) s
      else s
    else if g.stalled then onGroup k (fun g => { g with block := before.block, entry := before.entry, haltSeen := before.haltSeen }) s
    else used (onGroup k (fun g => { g with lastIssue := s.clock, idle := false }) s)

/-- A cause taken at the group's pc in place of a chain; one that has issued before is forgotten. -/
def trapHere (c : Cause) (r : Reason) (addr : Dword) (info : Nat) (s : State) : State :=
  let g := groupOf s s.cur
  failChain [{ cause := c, mask := g.active, reason := r, addr := addr, info := BitVec.ofNat 32 info }] [] ((lanesOf g.active).map fun l => (l, addr))
    (onCur forgetTile s)

/-- A chain of some words at the group's pc: its words checked, then run (R313, R315, R322). -/
noncomputable def issueWords (ws : List Word) (s : State) : State :=
  if ((ws.getLast?).getD 0).getLsbD 31 || pipeClash ws then trapHere .illegal .none 0 0 s
  else match chainInstrs ws.length ws with
    | none => trapHere .illegal .none 0 0 s
    | some (as, xs) => match as ++ xs with
      | [i] => after s (exec i s)
      | is => runChain is s

/-- The chain at the group's pc, its block at hand (R291, R310, R331). -/
noncomputable def issueAt (l : Line) (s : State) : State :=
  let g := groupOf s s.cur
  let off := g.pc.toNat % 64
  let blk := g.pc.toNat / 64 * 64
  let ws := packetWords l off
  let j := off % 12 / 4
  let e := chainEnd ws j 2
  let chain := (ws.take e).drop j
  let t := curTeam s
  if g.entry ∧ !isPacketStart g.pc then trapHere .exec .noexec g.pc 0 s
  else if 60 ≤ off ∨ g.pc.toNat % 4 ≠ 0 ∨ !startsChain ws j then trapHere .illegal .none 0 0 s
  else if g.block ≠ some blk ∧ blockWord l 15 ≠ 0 then trapHere .illegal .none 0 0 s
  else if stackBusy s s.cur || (!g.resumes && !unitsFree s t g chain) then holdIssue s
  else endIssue s.cur t g chain
    (issueWords chain (onCur (beginIssue blk) { s with nextPc := afterChain (packetOf g.pc) e, issue := .alone }))

/-- A late failure taken at a chain boundary (R498), or a delivery of the recorded cause (R305). A chain whose send has been answered is
ended first (R279). -/
def takePending (s : State) : Option State :=
  let g := groupOf s s.cur
  let t := onCur forgetTile s
  match g.waiting, g.deliver, g.late with
  | some (.sendDone _), _, _ => none
  | _, none, none => none
  | _, some r, _ => some (if stackBusy s s.cur then holdIssue s else deliverHere s.cur r (onCur (fun g => { g with deliver := none }) t))
  | _, none, some m =>
    some (if stackBusy s s.cur then holdIssue s
      else takeTrap s.cur .access g.pc m (if spillHeld t s.cur then t else onCur (fun g => { g with late := none }) t))

/-- A group's turn: what is pending is taken, else its next chain is fetched and issued. A turn that issues no chain leaves its
scheduler's clock to others (R155). -/
noncomputable def groupTurn (k : Nat) (s : State) : State :=
  let s := { s with cur := k }
  let g := groupOf s k
  match takePending s with
  | some s => s
  | none =>
    match fetchBlock k (onGroup k (fun g => { g with waiting := if g.resumes then g.waiting else none }) s) with
    | (.line l, s) => issueAt l s
    | (.held, s) => holdIssue s
    | (.trap c r addr info, s) => trapHere c r addr info s
    | (.park r byPage info, s) =>
      let p : ParkReq := { reason := r, mask := g.active, addr := g.pc, acc := .fetch, byPage := byPage, user := !g.sup, info := BitVec.ofNat 32 info }
      parkWith k p ((lanesOf g.active).map fun l => (l, g.pc)) (onCur forgetTile s)

/-- The words of the chain at a group's pc, where its block can be fetched. -/
def chainAhead (s : State) (k : Nat) (g : Group) : List Word :=
  match (fetchFor g k s).1 with
  | .line l =>
    let ws := packetWords l (g.pc.toNat % 64)
    let j := g.pc.toNat % 64 % 12 / 4
    (ws.take (chainEnd ws j 2)).drop j
  | _ => []

/-- Does a group that could issue hold a matrix word for want of a token alone: with one, its chain would be ready (R178, R180)? -/
noncomputable def holdsMatrix (s : State) (k : Nat) (g : Group) : Bool :=
  let ws := chainAhead s k g
  let t := teamAt s (handleOf k)
  (ws.any fun w => bitsN w.toNat 30 25 == 0x3C) && unitsFree s t g ws && (match chainInstrs ws.length ws with
    | none => false
    | some (as, xs) => (as ++ xs).all fun i =>
      let a := collectOne i (withToken t.core { s with cur := k })
      !a.hazard && !a.stall)

/-- A group's turn, unless reading its registers meets a lasting error of the core store (R60); the errors of its core's caches are met
before it (log entry 19). -/
noncomputable def issueGroup (k : Nat) (s : State) : State :=
  match coreStoreError k (meetCaches (teamAt s (handleOf k)).core s) with
  | (some t, _) => t
  | (none, s) => groupTurn k s

end Sys2Proof.Machine
end

