-- ==== Sys2Proof/Machine/Complex.lean ====
section
/-! DEFINITION. What the control cores' programs do to the rest of the package (R16, R18, R34, R39, R40): their loads, stores and atomics,
their fences, and the interrupts that they take; and the other things that reach the package from outside its own steps. -/

namespace Sys2Proof.Machine

/-! Accesses (R16, R18, R34, R39). -/

/-- A control core's own part of an access: it belongs to no group, and to context 0 for its records. -/
def ctlReq (cc pa size : Nat) (op : ReqOp) (data : Nat) : Req :=
  { group := 2 ^ 40 + cc, core := 200 + cc, lane := 0, op := op, space := spaceOf pa, pa := pa, va := BitVec.ofNat 64 pa, size := size
    data := BitVec.ofNat 128 data, die := 8 + cc / 8, live := false }

/-- Does an access reach anything: memory in a domain, the register space, or a port, which takes no atomics (R16, R34)? -/
def ctlReaches (s : State) (pa : Nat) (op : ReqOp) : Bool :=
  isDev pa || (isPcie pa && (op == .store || !op.writes)) || (isHbm pa && (domainOf s.mem pa).isSome)

/-- The value of an access that reaches nothing, recorded under a number of its own. -/
def ctlZero (cc : Nat) (op : ReqOp) (s : State) : State :=
  let (i, s) := freshId s
  if op.returns then { s with ctl := Maps.modify s.ctl cc fun c => { c with loads := Maps.set c.loads i 0 } } else s

/-- An access of a control core: on its way, or, where its address is reserved or in no domain, a load of zero and no store, with a record
(R16). -/
def ctlAccess (cc pa size : Nat) (op : ReqOp) (data : Nat) (s : State) : State :=
  if ctlReaches s pa op then putReq (ctlReq cc pa size op data) s
  else
    let d := 8 + cc / 8
    ctlZero cc op (record d { unitRecord d .nophys 0 0 (BitVec.ofNat 64 pa) 0 true with core := cc } s)

/-- Has an access a size that the cores make; is it aligned, which the register space alone does not ask for (log entry 25)? -/
def ctlSize (pa size : Nat) : Bool := decide (pa < 2 ^ 46) && [1, 2, 4, 8].contains size && (isDev pa || pa % size == 0)

/-! Fences (R39). -/

/-- Does an access of a control core that `p` picks still go on? -/
def ctlBusy (s : State) (cc : Nat) (p : Req → Bool) : Bool := s.mem.net.any fun e => e.2.ctl == some cc && p e.2

/-- Is a post of a control core held (R81)? -/
def ctlHeld (s : State) (cc : Nat) : Bool := (List.range 8).any fun d => postHeld s cc d

/-- Is a fence complete: `FENCE r,rw` once the loads have their values, the others once every access has been made (R39, R222)? -/
def fenceDone (s : State) (cc : Nat) (f : CtlFence) : Bool :=
  match f with
  | .acq => !ctlBusy s cc fun r => r.op.returns
  | _ => !ctlBusy s cc (fun _ => true) && !ctlHeld s cc

/-! Interrupts (R40). -/

/-- The interrupt file of a core at one of its levels (R17). -/
def fileOf (cc : Nat) (sup : Bool) : Nat := if sup then 16 + cc else cc

/-- The identity that a file offers its core: the least that is pending and enabled, and below the threshold where there is one. -/
def topIrq (s : State) (file : Nat) : Option Nat :=
  let limit := Maps.get 0 s.io.imsicLimit file
  (List.range 4096).find? fun i => i != 0 && Maps.get false s.io.imsic (file * 4096 + i) && Maps.get false s.io.imsicOn (file * 4096 + i) &&
    (limit == 0 || decide (i < limit))

/-- The interrupt that a core takes: it is pending no more, and the core is in the level's mode. In M mode it takes none of the supervisor's
level. -/
def takeIrq (cc : Nat) (sup : Bool) (s : State) : Option State :=
  let file := fileOf cc sup
  if sup && (Maps.get {} s.ctl cc).mode == .machine then none
  else match Maps.get false s.io.imsicDeliver file, topIrq s file with
  | true, some i => some { s with
      io := { s.io with imsic := Maps.put false s.io.imsic (file * 4096 + i) false }
      ctl := Maps.modify s.ctl cc fun c => { c with mode := if sup then .supervisor else .machine, taken := c.taken ++ [(file, i)] } }
  | _, _ => none

/-! Operations. -/

/-- An operation of a control core, if it can be made now. -/
def ctlDo (cc : Nat) (op : CtlOp) (s : State) : Option State :=
  let core := Maps.get {} s.ctl cc
  if !core.up then none
  else match op with
  | .load pa size => if ctlSize pa size then some (ctlAccess cc pa size (.load 0 0) 0 s) else none
  | .store pa size data => if ctlSize pa size then some (ctlAccess cc pa size .store (data.toNat % 2 ^ (8 * size)) s) else none
  | .atom pa size f data =>
    if ctlSize pa size && decide (4 ≤ size) && decide (f.toNat ≤ 8) then
      some (ctlAccess cc pa size (.ctlAtom f (8 * size)) (data.toNat % 2 ^ (8 * size)) s)
    else none
  | .fence f => if fenceDone s cc f then some s else none
  | .mode m => some { s with ctl := Maps.set s.ctl cc { core with mode := m } }
  | .time =>
    let (i, s) := freshId s
    some { s with ctl := Maps.set s.ctl cc { core with loads := Maps.set core.loads i s.io.timer.toNat } }
  | .enable sup i on =>
    if 0 < i ∧ i < 4096 then some { s with io := { s.io with imsicOn := Maps.put false s.io.imsicOn (fileOf cc sup * 4096 + i) on } } else none
  | .deliver sup on => some { s with io := { s.io with imsicDeliver := Maps.put false s.io.imsicDeliver (fileOf cc sup) on } }
  | .limit sup n => some { s with io := { s.io with imsicLimit := Maps.put 0 s.io.imsicLimit (fileOf cc sup) n } }
  | .claim sup => takeIrq cc sup s

/-! What reaches the package from outside its own steps. -/

/-- A junction temperature as measured (R38). An I/O die has one for the lifetime record alone. -/
def takeTemperature (die : Nat) (t : BitVec 8) (s : State) : State := if die < 10 then setTemp die t s else s

/-- A bit error that the next read of its place meets (R58). -/
def takeError (p : EccPlace) (e : EccErr) (s : State) : State := onMem (fun m => { m with errs := (m.errs.filter fun x => x.1 != p) ++ [(p, e)] }) s

end Sys2Proof.Machine
end

