-- ==== Sys2Proof/Machine/Moves.lean ====
section
/-! DEFINITION. What can happen next: the groups that may issue in this clock (R154 to R156), the steps of device units
that are due, the steps that the outside world asks for, and the next clock. Where more than one can come next, which
one does is free (log entry 2). -/

namespace Sys2Proof.Machine

/-- One thing that can happen next. -/
inductive Move where
  /-- A group's turn to issue. -/
  | group (k : Nat)
  /-- A due step of a device unit. -/
  | device (i : Instr)
  /-- What the outside world asks for, by its place in the inbox. -/
  | input (n : Nat)
  /-- The next clock. -/
  | tick
deriving DecidableEq, Repr

/-! Groups (R154, R155). -/

/-- Does what a group waits for hold it (R12, R154)? -/
def waitHolds (s : State) (w : Option Wait) : Bool :=
  match w with
  | none => false
  | some .mtileDone => false
  | some (.sendDone _) => false
  | some (.drain ids loads) => (ids.any fun i => (Maps.find s.mem.net i).isSome) || loads.any fun l => (wslotOf (teamAt s l.1) l.2).loading
  | some _ => true

/-- May the group be looked at for issue in this clock (R154)? A sibling whose packets of SKID are used up stops before
another packet (R173). -/
def mayIssue (s : State) (h : Nat) (g : Group) : Bool :=
  !g.exited && g.parked.isNone && !g.halted && !waitHolds s g.waiting && g.sleepTo.isNone && !g.stalled &&
    !((teamAt s h).evicting.isSome && inMove s h) &&
    !(match g.haltSeen with
      | some n => decide (2 ≤ n) && isPacketStart g.pc && !g.resumes
      | none => false)

/-- The groups resident on a scheduler (R155). -/
def schedGroups (s : State) (core sched : Nat) : AMap Group :=
  s.groups.filter fun e => !e.2.exited && e.2.sched == sched && (teamAt s (handleOf e.1)).core == core

/-- A ready group's claim: starving first, then hearth class, then age, then the lowest slot (R155). -/
def claim (s : State) (n : Nat) (e : Nat × Group) : Nat :=
  let age := s.clock - e.2.lastIssue
  let t := teamAt s (handleOf e.1)
  let cls := if 64 ≤ age + n then 2 else if effClass s t.ctx t.region = 0 then 1 else 0
  ((cls * 2 ^ 48 + age) * 256) + (255 - e.2.slot % 256)

/-- The member of a list with the greatest claim. -/
def greatest {α : Type} (f : α → Nat) : List α → Option α
  | [] => none
  | x :: xs => match greatest f xs with
    | none => some x
    | some y => if f x ≥ f y then some x else some y

/-- The group that a scheduler looks at next in this clock, if any (R155): first one whose turn ends a chain that has issued before, which
is no issue. -/
def schedPick (s : State) (core sched : Nat) : Option Nat :=
  let gs := schedGroups s core sched
  let ready := gs.filter fun e => mayIssue s (handleOf e.1) e.2
  match ready.find? fun e => e.2.resumes with
  | some e => some e.1
  | none =>
    if Maps.get 0 (coreAt s core).schedAt sched = s.clock + 1 then none
    else match ready with
      | [] => none
      | [e] => some e.1
      | es => (greatest (claim s gs.length) es).map (·.1)

/-- The next step of an `mtile` of a group of a scheduler, if one is due (R451). -/
def schedTile (s : State) (core sched : Nat) : Option Nat :=
  ((schedGroups s core sched).find? fun e => (tileDue s e.1).isSome).map (·.1)

/-- The cores with a resident team. -/
def busyCores (s : State) : List Nat := (s.teams.map fun e => e.2.core).eraseDups

/-- The groups whose turn it is, and the steps of macro operations: on each core the lowest scheduler with one goes first, so that what the
units shared by the schedulers are asked for in one clock comes in scheduler order (R153). -/
noncomputable def groupMoves (s : State) : List Move :=
  (busyCores s).filterMap fun c => (List.range 4).findSome? fun i => match schedTile s c i with
    | some k => some (.device (.mtileStep k))
    | none => (schedPick s c i).map .group

/-! Device units: which of their steps are due. Each of these lists is empty where nothing of its kind is going on. -/

/-- The steps of one die's sequencer, distributor and engines (R73 to R98, R194, R262 to R269, R437). -/
noncomputable def dieMoves (s : State) (d : Nat) : List Instr :=
  let n : BitVec 3 := BitVec.ofNat 3 d
  let x := dieAt s d
  let one (b : Bool) (i : Instr) : List Instr := if b then [i] else []
  one (takePost x.posts).isSome (.cardPostArrival n) ++ one (heldPost s d).isSome (.cardStoreEntryFreed n) ++
    (countersDue s d).map (fun c => .counterUpdate n (BitVec.ofNat 12 c)) ++ one (readyDue s d) (.cardReady n) ++
    one (match dieDeed s d with
      | some (.served _) => true
      | _ => false) (.teamPlacement n) ++
    one (holdDue s d).isSome (.admholdExpiry n) ++ (retiresDue s d).map (fun c => .launchRetirement n (BitVec.ofNat 12 c)) ++
    one (eventDue s d) (.eventRecord n) ++ one (slotDue s d) (.eventQueueSlotFreed n) ++
    (jobsDue s d).map (fun c => .decompressionJobEnd n (BitVec.ofNat 12 c)) ++ one (rcbBusy x) (.rcbInvalidationDone n) ++
    (rewalksDue s d).map (fun e => .waitTableRewalk n (BitVec.ofNat 10 e)) ++ one (!x.flues.isEmpty) (.flueRecordWrite n)

/-- The moves of a die's ember tokens (R177), each of which comes first at its clock. -/
noncomputable def tokenMoves (s : State) (d : Nat) : List Instr :=
  let n : BitVec 3 := BitVec.ofNat 3 d
  ((List.range (dieAt s d).tokens.length).filter fun i => (hopDue s d i).isSome).map (fun i => .tokenHop n i) ++
    ((List.range 6).filter fun c => (burstDue s d c).isSome).map (fun c => .burstEnd n c)

/-- What the power manager does at a compute die's temperature (R37, R38). -/
noncomputable def heatMoves (s : State) (d : Nat) : List Instr :=
  let n : BitVec 3 := BitVec.ofNat 3 d
  let t := (dieAt s d).temp
  let one (b : Bool) (i : Instr) : List Instr := if b then [i] else []
  one (hotDue s d) (.thermalThrottle n t) ++ one (meltDue s d) (.thermalReset n t) ++ one (coolDue s d) (.thermalTokenRestore n t) ++
    one (freeDue s d) (.thermctlRelease n 1)

/-- The steps of one die's graphics units (R104 to R131). -/
noncomputable def gfxMoves (s : State) (d : Nat) : List Instr :=
  let n : BitVec 3 := BitVec.ofNat 3 d
  let one (b : Bool) (i : Instr) : List Instr := if b then [i] else []
  one (ringDue s d).isSome (.meshRingEntry n) ++ one (cullDue s d).isSome (.cullInstance n) ++
    one (binDue s d).isSome (.primitiveAtBinner n) ++ one (ownerDue s d).isSome (.primitiveAtOwner n) ++
    one (markerDue s d).isSome (.drawEndMarker n) ++ (applyDue s d).map (fun t => .primitiveApply n t)

/-- The steps that groups and teams meet at their cores (R163, R173, R175, R303, R305, R386, R451, R454). -/
noncomputable def teamMoves (s : State) : List Instr :=
  s.groups.flatMap (fun e =>
    (if stopDue s e.1 then [.siblingStop e.1] else []) ++ (if popDue s e.1 then [.sibhaltPop e.1] else []) ++
      (if wakeSleepDue s e.1 then [.sleepExpiry e.1] else [])) ++
    s.teams.flatMap (fun e =>
      (if reallocDue s e.1 then [.reallocDecision e.1] else []) ++ (if drainDue s e.1 then [.drainDeadline e.1] else []) ++
        (if (evictStep s e.1).isSome then [.teamEviction e.1] else []) ++
        (e.2.wslots.filter fun w => (wbldDue s e.1 w.1).isSome).map fun w => .wbldComplete e.1 (BitVec.ofNat 9 w.1)) ++
    (s.saved.filter fun e => (restoreDue s e.1).isSome).map fun e => .teamRestore e.1

/-- The steps of the memory side (R200 to R213, R498). -/
noncomputable def memMoves (s : State) : List Instr :=
  s.mem.net.flatMap (fun e =>
    (if arriveDue s e.1 then [.llcRequest e.1] else []) ++ (if resendDue s e.2 then [.nackResend e.1] else []) ++
      (if domResendDue s e.2 then [.domainNackResend e.1] else []) ++
      (if (remoteDue s e.1).isSome then [.remoteScratchAccess e.1] else []) ++ (if replyDue s e.1 then [.memoryReply e.1] else []) ++
      (if (lateDue s e.1).isSome then [.lateFailure e.1] else [])) ++
    s.mem.missing.map (fun l => .llcMissFill l) ++ (if switchDue s then [.domainSwitchPhase] else []) ++
    (copiesDue s).map (fun i => .cpaCopyComplete i) ++ (bulksDue s).map (fun i => .bulkCopyComplete i) ++ s.xfms.map (fun e => .xfmReply e.1) ++
    (invalsDue s).map fun e => .residencyInvalidation e.1 e.2

/-- The steps of sends and messages (R278 to R288). What a far package answers comes by a link. -/
noncomputable def sendMoves (s : State) : List Instr :=
  s.sends.flatMap fun e =>
    (if (relayDue s e.1 false).isSome then [.sendAtRelay e.1] else []) ++ (if (relayDue s e.1 true).isSome then [.messageAtRelay e.1] else []) ++
      (match arrivalDue s e.1 with
        | some x => if teamGone s x then [.sendMoved e.1] else [.sendArrival e.1]
        | none => []) ++
      (if (replyCode s e.2 none).isSome then [.sendStatusReply e.1 none] else [])

/-- The steps of a link (R23, R31, R32). Whether an attempt at retraining succeeds is free. -/
noncomputable def linkMoves (s : State) : List Instr :=
  (flitsDue s).map (fun f => .flitSend f.1 f.2.1 f.2.2) ++
    s.io.links.flatMap fun e =>
      (if retrainDue e.2 then [.linkRetrain e.1] else []) ++
        (match e.2.st with
          | .retraining n => if n = 4 then [.linkDown e.1] else [.retrainComplete e.1, .retrainingAttemptFailure e.1]
          | _ => [])

/-- The steps of the I/O dies: the boot ROM, the lifetime record, fault records, snapshots, the serialiser. -/
noncomputable def ioMoves (s : State) : List Instr :=
  (match s.boot.phase with
    | .off => [.powerOn]
    | .starting _ => [.powerOn]
    | _ => []) ++ (if flushDue s then [.lifetimeFlush] else []) ++
    (recordsDue s).map (fun d => .faultRecordWrite (BitVec.ofNat 4 d)) ++ (if rootDue s then [.snapTriggerRoot] else []) ++
    (latchesDue s).map (fun d => .snapshotLatch (BitVec.ofNat 4 d)) ++
    (if (sealDue s).isSome then [.sealArrival] else []) ++ s.display.notices.map (fun e => .replacementNotice e.1) ++
    (Maps.keys s.display.views fun v _ => replaceDue s v).map fun v => .replacementInstant (BitVec.ofNat 4 v)

/-- The dies with state of their own. -/
def dieIds (s : State) : List Nat := (s.dies.map (·.1)).filter (· < 8)

/-- The steps that come before anything else of their clock: strip starts (R121), and the ends of hops and bursts (R177). -/
noncomputable def startMoves (s : State) : List Instr :=
  ((Maps.keys s.display.views fun v _ => (startDue s v).isSome).map fun v => .stripStart (BitVec.ofNat 4 v)) ++
    (dieIds s).flatMap (tokenMoves s)

/-- The steps of device units that are due. -/
noncomputable def deviceMoves (s : State) : List Instr :=
  ioMoves s ++ (dieIds s).flatMap (fun d => dieMoves s d ++ heatMoves s d ++ gfxMoves s d) ++ teamMoves s ++ memMoves s ++ sendMoves s ++ linkMoves s

/-- Has a SIBHALT entry stood for its 64 clocks (R175)? -/
def popLate (s : State) (k : Nat) : Bool := popDue s k && decide ((teamAt s (handleOf k)).freedAt + 64 ≤ s.clock)

/-- Is a step due that comes at an instant, or has had all the time it may take, before the clock goes on: a strip's replacement (R143),
the end of a sleep (R386), the pop of a SIBHALT entry (R175), a counter's operations of this clock (R78), a latch (R55), the write of the
lifetime counts (R62), a link's retraining and the end of an attempt at it (R31), the expiry of ADMHOLD (R87), a drain's deadline (R94), a
replacement notice, which is there before the team issues again (R488, log entry 28)? -/
def instantDue (s : State) : Bool :=
  latchLate s || flushDue s || retrainLate s || (s.io.links.any fun e => retrainDue e.2) || !s.display.notices.isEmpty ||
  (Maps.keys s.display.views fun v _ => replaceDue s v).any (fun _ => true) ||
    (s.groups.any fun e => wakeSleepDue s e.1 || popLate s e.1) || (s.teams.any fun e => drainDue s e.1) ||
    (dieIds s).any fun d => !(countersDue s d).isEmpty || (holdDue s d).isSome

/-! What the outside world asks for (R39, R51, R238). -/

/-- Is a step a management command, which the device takes whenever it is on (R47)? -/
def isCommand : Instr → Bool
  | .status _ | .reset _ | .loadimg _ | .attest _ | .snapCommand _ | .rdsnap _ | .rdlife _ | .setpkg _ | .killctx _ | .unknownCommand _ => true
  | _ => false

/-- Does a step come from outside: from a control core's program, an operator, an endpoint, the far end of a link or another package? -/
def isOutside : Instr → Bool
  | .powerLoss | .measureComponent _ _ | .ctxCreate _ | .ctxKill _ | .ctxDestroy _ | .rcbinvWrite _ _ => true
  | .wtreplayByPage _ _ | .wtreplayByToken _ _ | .wtreplayByAsid _ _ | .dspostWrite _ _ _ | .dctrSet _ _ _ _ | .dctrDecrement _ _ _ _ => true
  | .lcctlCntclr _ _ | .lcctlTcdis _ _ | .snapctlClr _ _ | .thermctlRelease _ _ | .domswWrite _ | .fwWrite _ _ _ _ | .serclkWrite _ => true
  | .vobWrite _ _ _ | .vrecWrite _ _ | .gazeWrite _ _ | .embctlWrite _ _ | .dsctlWrite _ _ | .nrbaseWrite _ _ => true
  | .deviceRegisterWrite _ _ _ | .flitReceive _ _ _ | .dmaRequest _ _ _ _ _ _ | .pcieWindowCompletion _ _ _ | .coreReset _ => true
  | .sendStatusReply _ far => far.isSome
  | i => isCommand i

/-- Who asks: what one asks for comes in its order. -/
inductive Asker where
  | ctl (cc : Nat) | operator | dma (port rid : Nat) | link (l : LinkId) | sensor (die : Nat) | register
deriving DecidableEq, Repr

/-- The asker of a step, where the order of what it asks for matters: a control core, the management port (R51), the posted writes of a
requester (R238), a link (R26), the other register writes. -/
def askerOf : Instr → Option Asker
  | .dspostWrite _ cc _ | .dctrSet _ _ cc _ | .dctrDecrement _ _ cc _ => some (.ctl cc.toNat)
  | .dmaRequest port rid true _ _ _ => some (.dma port.toNat rid.toNat)
  | .flitReceive l _ _ => some (.link l)
  | .powerLoss | .dmaRequest _ _ false _ _ _ | .pcieWindowCompletion _ _ _ | .sendStatusReply _ _ => none
  | i => if isCommand i then some .operator else some .register

def Input.asker : Input → Option Asker
  | .step i => askerOf i
  | .relaxed _ => none
  | .ctl cc _ => some (.ctl cc)
  | .flitRetry l _ => some (.link l)
  | .temperature d _ => some (.sensor d)
  | .bitError _ _ => none

/-- Does an earlier thing asked for keep a later one back? A load may go before a `FENCE rw,w` that still waits (R39, R222). -/
def keepsBack (a b : Input) : Bool :=
  a.asker.isSome && a.asker == b.asker && (match a, b with
    | .ctl _ (.fence .rel), .ctl _ (.load _ _) => false
    | _, _ => true)

/-- May a control core's row write a die pair's posts and counters now: behind its own earlier accesses to the block (R18, R81)? -/
def rowReady (s : State) (cc d : Nat) : Bool :=
  !postHeld s cc d && !ctlBusy s cc fun r => r.space == .dev && (r.pa - devBase) / 2 ^ 24 == d

/-- Is the request of a window load there? -/
def windowWaits (s : State) (i : Nat) : Bool := match Maps.find s.mem.net i with
  | some r => r.space == .pcie && r.st == .flying
  | none => false

/-- Is the way of an endpoint's request open (R31)? -/
def portOpen (s : State) : Instr → Bool
  | .dmaRequest port _ _ _ _ _ => !inputHeld s (dmaPort port.toNat)
  | _ => true

/-- Is the device up enough for what is asked: while it is off nothing is taken, and while it waits for a reload, commands alone (R47)? -/
def upFor (s : State) (i : Instr) : Bool := match s.boot.phase with
  | .off => false
  | .waiting => isCommand i
  | _ => true

/-- Can what the outside world asks for be taken now? The supply may go, a temperature change and a bit error come at any time. -/
def inputReady (s : State) : Input → Bool
  | .step .powerLoss => true
  | .step (.dspostWrite d cc w) => upFor s (.dspostWrite d cc w) && rowReady s cc.toNat d.toNat
  | .step (.dctrSet d n cc w) => upFor s (.dctrSet d n cc w) && rowReady s cc.toNat d.toNat
  | .step (.dctrDecrement d n cc w) => upFor s (.dctrDecrement d n cc w) && rowReady s cc.toNat d.toNat
  | .step (.pcieWindowCompletion i ok d) => upFor s (.pcieWindowCompletion i ok d) && windowWaits s i
  | .step i => upFor s i && portOpen s i
  | .relaxed i => upFor s i && portOpen s i
  | .ctl cc (.fence f) => (Maps.get {} s.ctl cc).up && fenceDone s cc f
  | .ctl cc _ => (Maps.get {} s.ctl cc).up
  | .flitRetry _ _ => s.boot.phase != .off
  | .temperature _ _ => true
  | .bitError _ _ => true

/-- The places in the inbox of what can be taken now: nothing that the same asker has asked for before stands in its way. -/
def inputsReady (s : State) : List Nat :=
  (List.range s.inbox.length).filter fun n => match s.inbox[n]? with
    | some i => inputReady s i && !((s.inbox.take n).any fun e => keepsBack e i)
    | none => false

/-- What the outside world asks for, done. What cannot be changes nothing. -/
noncomputable def takeInput (i : Input) (s : State) : State :=
  match i with
  | .step i => if isOutside i then after s (exec i s) else s
  | .relaxed i => if (askerOf i).any fun a => match a with
      | .dma _ _ => true
      | _ => false then after s (exec i s) else s
  | .ctl cc op => (ctlDo cc op s).getD s
  | .flitRetry l seq => setLink l (resendFrom seq (linkOf s l)) s
  | .temperature d t => takeTemperature d t s
  | .bitError p e => takeError p e s

/-! The next clock. -/

/-- Which groups hold a matrix word for want of a token, as the clock ends (R178). -/
noncomputable def lookForTokens (s : State) : State :=
  let held (k : Nat) (g : Group) : Bool :=
    !hasToken s (teamAt s (handleOf k)).core && mayIssue s (handleOf k) { g with stalled := false } &&
      (g.idle || g.lastIssue != s.clock) && holdsMatrix s k g
  { s with groups := Maps.mapAll s.groups fun k g => { g with wants := held k g } }

/-- `sr.embstall` of the cores where a group holds a matrix word for want of a token (R180). -/
def countStalls (s : State) : AMap Core :=
  Maps.mapAll s.cores fun n c =>
    if s.groups.any fun e => wantsToken s n e.2 && (teamAt s (handleOf e.1)).core == n then
      { c with embstall := BitVec.ofNat 32 (min 0xFFFFFFFF (c.embstall.toNat + 1)) }
    else c

/-- The band of a temperature: below 35 °C, in 5 °C from 35 to 105 °C, from 105 °C on (R61). -/
def tempBand (t : Nat) : Nat := if t < 35 then 0 else if 105 ≤ t then 15 else 1 + (t - 35) / 5

/-- The seconds and hours counted in the lifetime record (R61). -/
def countTime (s : State) : State :=
  if s.boot.phase = .off ∨ s.clock % 1750000000 ≠ 0 then s
  else
    let s := (List.range 10).foldl (fun s d => countLife (.temp d (tempBand (dieAt s d).temp.toNat)) 1 s) s
    if s.clock % (3600 * 1750000000) = 0 then countLife .hours 1 s else s

/-- The control complex's timer in an arithmetic clock: 100 MHz beside 1.75 GHz (R19). -/
def countTimer (io : Io) : Io :=
  let n := io.timerFrac + 2
  { io with timer := io.timer + BitVec.ofNat 64 (n / 35), timerFrac := n % 35 }

/-- A die's own clock may fall behind by a count, but by no more than one in 10,000 (R19, R20, R55): whether it does is free. -/
def driftDie (now d : Nat) (x : Die) : Die :=
  if x.running && decide (x.slipAt + 10000 ≤ now) && decide (x.cycleBase < now) && Config.freeNat (2 ^ 68 + 16 * now + d) % 2 == 1 then
    { x with cycleBase := x.cycleBase + 1, slipAt := now }
  else x

/-- The next clock. -/
noncomputable def tick (s : State) : State :=
  let s := lookForTokens s
  let s := { s with
    clock := s.clock + 1
    cores := countStalls s
    groups := Maps.mapAll s.groups fun _ g => { g with stalled := false }
    dies := Maps.mapAll s.dies (driftDie (s.clock + 1))
    io := if s.boot.phase = .off then s.io else countTimer s.io
    display := countStrip s.display }
  countTime ((dieIds s).foldl (fun s d => freeRetired (keepFirsts d s) d) s)

/-! The choice. -/

/-- Everything that can happen next. -/
noncomputable def moves (s : State) : List Move :=
  match startMoves s with
  | [] =>
    let gs := groupMoves s
    gs ++ (deviceMoves s).map .device ++ (inputsReady s).map .input ++
      (if gs.isEmpty && !instantDue s then [.tick] else [])
  | is => is.map .device

/-- What happens of several things that can: free (log entry 2). -/
noncomputable def chooseMove (s : State) : Move × State :=
  match moves s with
  | [] => (.tick, s)
  | [m] => (m, s)
  | m :: ms => (((m :: ms)[Config.freeTurn s.draws % (ms.length + 1)]?).getD m, { s with draws := s.draws + 1 })

/-- A move made. -/
noncomputable def takeMove (m : Move) (s : State) : Out :=
  match m with
  | .group k => .next (issueGroup k s)
  | .device i => exec i s
  | .input n => match s.inbox[n]? with
    | some i => .next (takeInput i { s with inbox := s.inbox.eraseIdx n })
    | none => .next s
  | .tick => .next (tick s)

/-! A package at rest but for one group (the host's probe). -/

/-- The fetch address of the probe: the first packet of page 1 of the supervisor half. -/
def probePc : Dword := 0xFF00000000010000#64

/-- A package with one group of context 0 in supervisor mode whose next fetch block holds the bits of one instruction. -/
def probe (s : State) (nbits w : Nat) : State :=
  { s with
    groups := [(0, { pc := probePc, active := 0xFFFFFFFF#32, mode := 1, codeTr := some { page := probePc.toNat, pa := 0x10000 },
                     trapbase := 0xFF00000000020000#64, rsbase := 0xFF00000000030000#64, lastIssue := s.clock })]
    teams := [(0, { regs := 128, scr := 1, ngroups := 1 })]
    cores := [(0, {})]
    dies := [(0, { running := true, tokens := [{ cluster := 0, arrives := none, start := s.clock, idle := s.clock }], handles := [0] })]
    mem := { s.mem with hbm := Maps.writeNat s.mem.hbm 0x10000 64 (w % 2 ^ nbits), llc := [], poison := [], net := [], fw := []
                        idw := [(0, 0x80000000001C0000#64)], hmask := [], domSw := none, domQueue := [] }
    copies := [], bulks := [], xfms := [], samples := [], sends := [], inbox := [], issue := .alone
    display := {}
    io := {}
    ctl := []
    boot := { s.boot with phase := .running, replies := [], flushedAt := s.clock } }

end Sys2Proof.Machine
end

