-- ==== Sys2Proof/Machine/Step.lean ====
section
/-! DEFINITION. One step of the package: one of the things that can happen next (Moves.lean). -/

namespace Sys2Proof.Machine

/-- One step: a group's next chain, a step of a device unit, or the next clock. -/
noncomputable def step (s : State) : Host.Outcome State Fault Refusal :=
  takeMove (chooseMove s).1 (chooseMove s).2

/-- The state with an instruction's bits where the one group of a package otherwise at rest fetches next. -/
def State.withFetchWord (s : State) (nbits w : Nat) : State := probe s nbits w

end Sys2Proof.Machine
end

