-- ==== Sys2Proof/Safety.lean ====
section
/-! DEFINITION. What the model's claims mean by a sound state: the invariant that every step keeps, and a run without a
stop. -/

namespace Sys2Proof.Machine

/-- Memory in its one form: HBM cells at strictly rising addresses, none of them the value an unlisted cell reads as
(log entry 4). -/
abbrev Memory.wf (m : List Host.Cell) : Prop := Maps.Sorted m ∧ ∀ c ∈ m, c.2 ≠ 0

/-- The invariant of a state. -/
abbrev State.Inv (s : State) : Prop := Memory.wf s.mem.hbm

/-- The machine goes on. -/
def Continues (o : Out) : Prop := ∃ t, o = .next t

end Sys2Proof.Machine
end

