-- ==== Sys2Proof/Claims/Words.lean ====
section
/-! DEFINITION. The terms in which claims about words are stated: when a word is ready, where its group goes on, and what
the rules of chapters 15 and 16 say of each word of pipe A and of the scalar unit, row by row of their tables. -/

namespace Sys2Proof.Claims

open Sys2Proof.Machine
open Sys2Proof.Num (Ev FV f32 f16 bf16 f64 e4m3 e5m2 Rm Fmt)

/-- `g` is the group that issues, its chain is one word, none of the registers `rs` waits for a value (R154, R157, R158),
and none holds a released value not yet acquired (R233). -/
structure Ready (s : State) (g : Group) (rs : List RegId) : Prop where
  here  : Maps.find s.groups s.cur = some g
  alone : s.issue = .alone
  free  : ∀ r ∈ rs, g.busy r = false
  fresh : ∀ a ∈ g.acquire, RegId.vec a.1 ∉ rs

/-- `s` with the issuing group turned into `h` and gone on to the chain that follows. -/
def onward (s : State) (h : Group) : State :=
  { s with groups := Maps.modify s.groups s.cur fun _ => { h with pc := s.nextPc, wants := false } }

/-- A vector operand: field, number of registers, alignment of the first (R318). -/
abbrev Operand := BitVec 7 × Nat × Nat

/-- What a rule says of a word that acts on its group alone: index bit, vector operands written and read, scalars and
predicates named, whether it names `ix` itself, what it makes of the group, and the events it counts (R253). -/
structure WordRule where
  x   : Bool := false
  dst : List Operand := []
  src : List Operand := []
  ss  : List Nat := []
  ps  : List (BitVec 3) := []
  ix  : Bool := false
  out : Group → Group
  ev  : Group → Ev := fun _ => {}

/-- Every register that a word names, by effective number (R157, R318). -/
def WordRule.regs (w : WordRule) (g : Group) : List RegId :=
  (w.dst ++ w.src).flatMap (fun r => (List.range r.2.1).map fun i => .vec (ea w.x r.1 g + i)) ++ w.ss.map .scl ++
    (w.ps.filter (· ≠ 7)).map (fun p => .pred p.toNat) ++ (if w.x || w.ix then [.ix] else [])

/-- Every vector operand is aligned and lies below ALLOT (R318). -/
def WordRule.fits (w : WordRule) (s : State) (g : Group) : Prop :=
  ∀ r ∈ w.dst ++ w.src, ea w.x r.1 g % r.2.2 = 0 ∧ ea w.x r.1 g + r.2.1 ≤ allot s

/-- One register. -/
def one (f : BitVec 7) : Operand := (f, 1, 1)
/-- An even pair. -/
def pair (f : BitVec 7) : Operand := (f, 2, 2)

/-- vD := f(vA) in each active lane. -/
def fromA (x : Bool) (d a : BitVec 7) (f : Word → Word) : WordRule :=
  { x := x, dst := [one d], src := [one a], out := fun g => g.setV (ea x d g) g.active fun l => f (g.v (ea x a g) l) }

/-- vD := f(vA, vB) in each active lane. -/
def fromAB (x : Bool) (d a b : BitVec 7) (f : Word → Word → Word) : WordRule :=
  { x := x, dst := [one d], src := [one a, one b]
    out := fun g => g.setV (ea x d g) g.active fun l => f (g.v (ea x a g) l) (g.v (ea x b g) l) }

/-- vD := f(vA, sB) in each active lane (R344). -/
def fromAS (x : Bool) (d a : BitVec 7) (b : BitVec 6) (f : Word → Word → Word) : WordRule :=
  { x := x, dst := [one d], src := [one a], ss := [b.toNat]
    out := fun g => g.setV (ea x d g) g.active fun l => f (g.v (ea x a g) l) (g.s b.toNat) }

/-- vD := f(vA, vB, vD) in each active lane (R341). -/
def fromABD (x : Bool) (d a b : BitVec 7) (f : Word → Word → Word → Word) : WordRule :=
  { x := x, dst := [one d], src := [one a, one b]
    out := fun g => g.setV (ea x d g) g.active fun l => f (g.v (ea x a g) l) (g.v (ea x b g) l) (g.v (ea x d g) l) }

/-- pN := relation of vA and vB in each active lane (R349, R363). -/
def relAB (x : Bool) (p : BitVec 3) (a b : BitVec 7) (f : Word → Word → Bool) : WordRule :=
  { x := x, src := [one a, one b], ps := [p]
    out := fun g => g.setP p.toNat g.active (maskOf fun l => f (g.v (ea x a g) l) (g.v (ea x b g) l)) }

/-! R343 to R352. -/

/-- D and p6 of an add with carry or a subtract with borrow, the second operand by lane (R343). -/
def carryRule (x sub : Bool) (d a : BitVec 7) (src : List Operand) (ss : List Nat) (b : Group → Nat → Word) : WordRule :=
  { x := x, dst := [one d], src := one a :: src, ss := ss, ps := [6]
    out := fun g =>
      let c (l : Nat) : Nat := if (g.p 6).getLsbD l then 1 else 0
      let u (l : Nat) : Nat := (g.v (ea x a g) l).toNat
      let v (l : Nat) : Nat := (b g l).toNat
      (g.setV (ea x d g) g.active fun l =>
        if sub then BitVec.ofInt 32 ((u l : Int) - v l - c l) else BitVec.ofNat 32 (u l + v l + c l)).setP 6 g.active
        (maskOf fun l => if sub then decide (u l < v l + c l) else decide (2 ^ 32 ≤ u l + v l + c l)) }

/-- The last bit of the field that R348 forms from position and length, plus 1; 0 for an empty field. -/
def fieldEnd (b : Word) : Nat :=
  let pos := (b.extractLsb' 0 8).toNat
  let len := (b.extractLsb' 8 8).toNat
  if len = 0 ∨ 32 ≤ pos then 0 else min (pos + len) 32
def fieldPos (b : Word) : Nat := (b.extractLsb' 0 8).toNat

/-- The integer, logic, shift, compare, select and move words of pipe A. -/
def integerRule (i : Instr) : Option WordRule :=
  match i with
  | .iadd _ x d a b => some (fromAB x d a b fun u v => u + v)
  | .isub _ x d a b => some (fromAB x d a b fun u v => u - v)
  | .iminS _ x d a b => some (fromAB x d a b fun u v => if u.toInt ≤ v.toInt then u else v)
  | .iminN _ x d a b => some (fromAB x d a b fun u v => if u.toNat ≤ v.toNat then u else v)
  | .imaxS _ x d a b => some (fromAB x d a b fun u v => if u.toInt ≤ v.toInt then v else u)
  | .imaxN _ x d a b => some (fromAB x d a b fun u v => if u.toNat ≤ v.toNat then v else u)
  | .iaddc _ x d a b => some (carryRule x false d a [one b] [] fun g => g.v (ea x b g))
  | .isubb _ x d a b => some (carryRule x true d a [one b] [] fun g => g.v (ea x b g))
  | .iaddScalarB _ x d a b => some (fromAS x d a b fun u v => u + v)
  | .isubScalarB _ x d a b => some (fromAS x d a b fun u v => u - v)
  | .iminSScalarB _ x d a b => some (fromAS x d a b fun u v => if u.toInt ≤ v.toInt then u else v)
  | .iminNScalarB _ x d a b => some (fromAS x d a b fun u v => if u.toNat ≤ v.toNat then u else v)
  | .imaxSScalarB _ x d a b => some (fromAS x d a b fun u v => if u.toInt ≤ v.toInt then v else u)
  | .imaxNScalarB _ x d a b => some (fromAS x d a b fun u v => if u.toNat ≤ v.toNat then v else u)
  | .iaddcScalarB _ x d a b => some (carryRule x false d a [] [b.toNat] fun g _ => g.s b.toNat)
  | .isubbScalarB _ x d a b => some (carryRule x true d a [] [b.toNat] fun g _ => g.s b.toNat)
  | .imul _ x d a b => some (fromAB x d a b fun u v => u * v)
  | .imulhS _ x d a b => some (fromAB x d a b fun u v => BitVec.ofInt 32 (u.toInt * v.toInt / 2 ^ 32))
  | .imulhN _ x d a b => some (fromAB x d a b fun u v => BitVec.ofNat 32 (u.toNat * v.toNat / 2 ^ 32))
  | .imad _ x d a b => some (fromABD x d a b fun u v w => u * v + w)
  | .imadhS _ x d a b => some (fromABD x d a b fun u v w => BitVec.ofInt 32 (u.toInt * v.toInt / 2 ^ 32) + w)
  | .imadhN _ x d a b => some (fromABD x d a b fun u v w => BitVec.ofNat 32 (u.toNat * v.toNat / 2 ^ 32) + w)
  | .iabs _ x d a => some (fromA x d a fun u => BitVec.ofNat 32 u.toInt.natAbs)
  | .ineg _ x d a => some (fromA x d a fun u => -u)
  | .and _ x d a b => some (fromAB x d a b fun u v => u &&& v)
  | .or _ x d a b => some (fromAB x d a b fun u v => u ||| v)
  | .xor _ x d a b => some (fromAB x d a b fun u v => u ^^^ v)
  | .andn _ x d a b => some (fromAB x d a b fun u v => u &&& ~~~v)
  | .orn _ x d a b => some (fromAB x d a b fun u v => u ||| ~~~v)
  | .popc _ x d a => some (fromA x d a fun u => BitVec.ofNat 32 ((List.range 32).filter fun i => u.getLsbD i).length)
  | .clz _ x d a => some (fromA x d a fun u => BitVec.ofNat 32 ((List.range 32).takeWhile fun i => !u.getLsbD (31 - i)).length)
  | .ctz _ x d a => some (fromA x d a fun u => BitVec.ofNat 32 ((List.range 32).takeWhile fun i => !u.getLsbD i).length)
  | .andScalarB _ x d a b => some (fromAS x d a b fun u v => u &&& v)
  | .orScalarB _ x d a b => some (fromAS x d a b fun u v => u ||| v)
  | .xorScalarB _ x d a b => some (fromAS x d a b fun u v => u ^^^ v)
  | .andnScalarB _ x d a b => some (fromAS x d a b fun u v => u &&& ~~~v)
  | .ornScalarB _ x d a b => some (fromAS x d a b fun u v => u ||| ~~~v)
  | .shl _ x d a b => some (fromAB x d a b fun u v => u <<< v.toNat)
  | .shr _ x d a b => some (fromAB x d a b fun u v => u >>> v.toNat)
  | .sar _ x d a b => some (fromAB x d a b fun u v => u.sshiftRight v.toNat)
  | .rotl _ x d a b => some (fromAB x d a b fun u v => u.rotateLeft (v.toNat % 32))
  | .bfeN _ x d a b => some (fromAB x d a b fun u v => BitVec.ofNat 32 (u.toNat % 2 ^ fieldEnd v / 2 ^ fieldPos v))
  | .bfeS _ x d a b => some (fromAB x d a b fun u v =>
      if fieldEnd v = 0 then 0 else (u <<< (32 - fieldEnd v)).sshiftRight (32 - fieldEnd v + fieldPos v))
  | .bfi _ x d a b => some (fromABD x d a b fun u v w =>
      maskOf fun i => if fieldPos v ≤ i ∧ i < fieldEnd v then u.getLsbD (i - fieldPos v) else w.getLsbD i)
  | .bperm _ x d a b => some (fromABD x d a b fun u v w =>
      maskOf fun i => !v.getLsbD (4 * (i / 8) + 3) && (w ++ u).getLsbD (8 * (v.extractLsb' (4 * (i / 8)) 3).toNat + i % 8))
  | .icmpEq _ x p a b => some (relAB x p a b fun u v => decide (u = v))
  | .icmpNe _ x p a b => some (relAB x p a b fun u v => decide (u ≠ v))
  | .icmpLtS _ x p a b => some (relAB x p a b fun u v => decide (u.toInt < v.toInt))
  | .icmpLeS _ x p a b => some (relAB x p a b fun u v => decide (u.toInt ≤ v.toInt))
  | .icmpGtS _ x p a b => some (relAB x p a b fun u v => decide (v.toInt < u.toInt))
  | .icmpGeS _ x p a b => some (relAB x p a b fun u v => decide (v.toInt ≤ u.toInt))
  | .icmpLtN _ x p a b => some (relAB x p a b fun u v => decide (u.toNat < v.toNat))
  | .icmpGeN _ x p a b => some (relAB x p a b fun u v => decide (v.toNat ≤ u.toNat))
  | .sel _ x p d a b => some
      { x := x, dst := [one d], src := [one a, one b], ps := [p]
        out := fun g => g.setV (ea x d g) g.active fun l =>
          if (g.p p.toNat).getLsbD l then g.v (ea x a g) l else g.v (ea x b g) l }
  | .mov _ x d a => some (fromA x d a id)
  | .mov64 _ x d a => some { x := x, dst := [pair d], src := [pair a], out := fun g => g.setV64 (ea x d g) g.active (g.v64 (ea x a g)) }
  | .movs _ x d b => some { x := x, dst := [one d], ss := [b.toNat], out := fun g => g.setV (ea x d g) g.active fun _ => g.s b.toNat }
  | .pmov _ x p a => some
      { x := x, src := [one a], ps := [p], out := fun g => g.setP p.toNat g.active (maskOf fun l => decide (g.v (ea x a g) l ≠ 0)) }
  | .pget _ x d p => some
      { x := x, dst := [one d], ps := [p], out := fun g => g.setV (ea x d g) g.active fun l => if (g.p p.toNat).getLsbD l then 1 else 0 }
  | .iaddi _ x d a m lit => some (fromA x d a fun u => u + immVI m lit)
  | .movi _ x d m lit => some { x := x, dst := [one d], out := fun g => g.setV (ea x d g) g.active fun _ => immVI m lit }
  | _ => none

/-! R353 to R355, R357: scalars. -/

/-- sD := f(sA, sB), once for the group (R340). -/
def scalarAB (d a b : BitVec 6) (f : Word → Word → Word) : WordRule :=
  { ss := [a.toNat, b.toNat, d.toNat], out := fun g => g.setS d.toNat (f (g.s a.toNat) (g.s b.toNat)) }

/-- S64[D] := f(S64[A], S64[B]). -/
def scalar64 (d a b : BitVec 6) (f : Dword → Dword → Dword) : WordRule :=
  { ss := [a.toNat, a.toNat + 1, b.toNat, b.toNat + 1, d.toNat, d.toNat + 1]
    out := fun g => g.setS64 d.toNat (f (g.s64 a.toNat) (g.s64 b.toNat)) }

/-- sD := f(sD) (R354). -/
def scalarD (d : BitVec 6) (f : Word → Word) : WordRule := { ss := [d.toNat], out := fun g => g.setS d.toNat (f (g.s d.toNat)) }

/-- A compare of scalars, written in all 32 lanes whatever ACTIVE holds (R355). -/
def scalarRel (p : BitVec 3) (a b : BitVec 6) (f : Word → Word → Bool) : WordRule :=
  { ss := [a.toNat, b.toNat], ps := [p]
    out := fun g => g.setP p.toNat (BitVec.allOnes 32) (maskOf fun _ => f (g.s a.toNat) (g.s b.toNat)) }

/-- The scalar words and the moves of `ix`. -/
def scalarRule (i : Instr) : Option WordRule :=
  match i with
  | .sadd _ d a b => some (scalarAB d a b fun u v => u + v)
  | .ssub _ d a b => some (scalarAB d a b fun u v => u - v)
  | .smul _ d a b => some (scalarAB d a b fun u v => u * v)
  | .smulh _ d a b => some (scalarAB d a b fun u v => BitVec.ofInt 32 (u.toInt * v.toInt / 2 ^ 32))
  | .sand _ d a b => some (scalarAB d a b fun u v => u &&& v)
  | .sor _ d a b => some (scalarAB d a b fun u v => u ||| v)
  | .sxor _ d a b => some (scalarAB d a b fun u v => u ^^^ v)
  | .sandn _ d a b => some (scalarAB d a b fun u v => u &&& ~~~v)
  | .sshl _ d a b => some (scalarAB d a b fun u v => u <<< v.toNat)
  | .sshr _ d a b => some (scalarAB d a b fun u v => u >>> v.toNat)
  | .ssar _ d a b => some (scalarAB d a b fun u v => u.sshiftRight v.toNat)
  | .smin _ d a b => some (scalarAB d a b fun u v => if u.toInt ≤ v.toInt then u else v)
  | .smax _ d a b => some (scalarAB d a b fun u v => if u.toInt ≤ v.toInt then v else u)
  | .smov _ d a => some { ss := [a.toNat, d.toNat], out := fun g => g.setS d.toNat (g.s a.toNat) }
  | .sadd64 _ d a b => some (scalar64 d a b fun u v => u + v)
  | .ssub64 _ d a b => some (scalar64 d a b fun u v => u - v)
  | .saddi _ d m lit => some (scalarD d fun u => u + immSIs m lit)
  | .sandi _ d m lit => some (scalarD d fun u => u &&& immSIz m lit)
  | .sori _ d m lit => some (scalarD d fun u => u ||| immSIz m lit)
  | .sxori _ d m lit => some (scalarD d fun u => u ^^^ immSIz m lit)
  | .sshli _ d m lit => some (scalarD d fun u => u <<< (immSIz m lit).toNat)
  | .sshri _ d m lit => some (scalarD d fun u => u >>> (immSIz m lit).toNat)
  | .smovi _ d m lit => some { ss := [d.toNat], out := fun g => g.setS d.toNat (immSIs m lit) }
  | .smovhi _ d m lit => some
      { ss := [d.toNat, d.toNat + 1]
        out := fun g => g.setS64 d.toNat (match lit with
          | none => m.signExtend 64
          | some l => (l ++ m).signExtend 64) }
  | .scmpEq _ p a b => some (scalarRel p a b fun u v => decide (u = v))
  | .scmpNe _ p a b => some (scalarRel p a b fun u v => decide (u ≠ v))
  | .scmpLtS _ p a b => some (scalarRel p a b fun u v => decide (u.toInt < v.toInt))
  | .scmpLeS _ p a b => some (scalarRel p a b fun u v => decide (u.toInt ≤ v.toInt))
  | .scmpLtN _ p a b => some (scalarRel p a b fun u v => decide (u.toNat < v.toNat))
  | .scmpLeN _ p a b => some (scalarRel p a b fun u v => decide (u.toNat ≤ v.toNat))
  | .ssel _ d a b => some
      { ss := [d.toNat, a.toNat, b.toNat], out := fun g => g.setS d.toNat (if g.s d.toNat ≠ 0 then g.s a.toNat else g.s b.toNat) }
  | .setix _ a => some { ss := [a.toNat], ix := true, out := fun g => { g with ix := (g.s a.toNat).extractLsb' 0 8 } }
  | .addix _ a => some { ss := [a.toNat], ix := true, out := fun g => { g with ix := g.ix + (g.s a.toNat).extractLsb' 0 8 } }
  | .getix _ d => some { ss := [d.toNat], ix := true, out := fun g => g.setS d.toNat (g.ix.zeroExtend 32) }
  | _ => none

/-! R358 to R376: floating point, conversion, lanes. -/

/-- An element result (R244, R245, R253): sources flushed under `fz`, the exact operation, one rounding, the result flushed,
and the events. -/
def arith (f : Fmt) (rm : Rm) (fz : Bool) (op : List FV → FV) (as : List Nat) : Nat × Ev :=
  let us := as.map (Num.unpack f fz)
  Num.out f rm fz (us.any (·.2)) (us.any fun u => Num.isNan u.1) (op (us.map (·.1)))

/-- The operands of `op`, in order. -/
def fv1 (op : FV → FV) (vs : List FV) : FV := op (vs.getD 0 .nan)
def fv2 (op : FV → FV → FV) (vs : List FV) : FV := op (vs.getD 0 .nan) (vs.getD 1 .nan)
def fv3 (op : FV → FV → FV → FV) (vs : List FV) : FV := op (vs.getD 0 .nan) (vs.getD 1 .nan) (vs.getD 2 .nan)

/-- The events of the active lanes' results. -/
def eventsOf (g : Group) (r : Nat → Nat × Ev) : Ev := (lanesOf g.active).foldl (fun e l => e.add (r l).2) {}

/-- vD := the lane results `r`, with their events. -/
def floatLanes (x : Bool) (d : BitVec 7) (src : List Operand) (ss : List Nat) (r : Group → Nat → Nat × Ev) : WordRule :=
  { x := x, dst := [one d], src := src, ss := ss
    out := fun g => g.setV (ea x d g) g.active fun l => BitVec.ofNat 32 (r g l).1
    ev := fun g => eventsOf g (r g) }

/-- The bits of a vector field in a lane. -/
def bitsV (x : Bool) (f : BitVec 7) (g : Group) (l : Nat) : Nat := (g.v (ea x f g) l).toNat
def bits64 (x : Bool) (f : BitVec 7) (g : Group) (l : Nat) : Nat := (g.v64 (ea x f g) l).toNat

/-- FP32 operations of vA; of vA and vB; of vA, vB and vD (R360, R361). -/
def f32A (x : Bool) (d a : BitVec 7) (r : Group → Nat → Nat × Ev) : WordRule := floatLanes x d [one a] [] fun g l => r g (bitsV x a g l)
def f32AB (x : Bool) (d a b : BitVec 7) (r : Group → Nat → Nat → Nat × Ev) : WordRule :=
  floatLanes x d [one a, one b] [] fun g l => r g (bitsV x a g l) (bitsV x b g l)
def f32ABD (x : Bool) (d a b : BitVec 7) (r : Group → Nat → Nat → Nat → Nat × Ev) : WordRule :=
  floatLanes x d [one a, one b] [] fun g l => r g (bitsV x a g l) (bitsV x b g l) (bitsV x d g l)
/-- The scalar-B forms (R362). -/
def f32AS (x : Bool) (d a : BitVec 7) (b : BitVec 6) (r : Group → Nat → Nat → Nat × Ev) : WordRule :=
  floatLanes x d [one a] [b.toNat] fun g l => r g (bitsV x a g l) (g.s b.toNat).toNat
def f32ASD (x : Bool) (d a : BitVec 7) (b : BitVec 6) (r : Group → Nat → Nat → Nat → Nat × Ev) : WordRule :=
  floatLanes x d [one a] [b.toNat] fun g l => r g (bitsV x a g l) (g.s b.toNat).toNat (bitsV x d g l)

def sum (rm : Rm) (u v : FV) : FV := Num.add rm u v
def diff (rm : Rm) (u v : FV) : FV := Num.add rm u (Num.neg v)
def mulAdd (rm : Rm) (u v w : FV) : FV := Num.add rm (Num.mul u v) w
def mulSub (rm : Rm) (u v w : FV) : FV := Num.add rm (Num.mul u v) (Num.neg w)
def negMulAdd (rm : Rm) (u v w : FV) : FV := Num.add rm (Num.neg (Num.mul u v)) w

/-- The lesser (or greater) operand after its flush, −0 below +0, a NaN giving way (R359). -/
def minMax (f : Fmt) (fz isMax : Bool) (a b : Nat) : Nat × Ev :=
  let u := Num.unpack f fz a
  let v := Num.unpack f fz b
  let le : Bool := match Num.cmp u.1 v.1 with
    | .lt => true
    | .gt => false
    | .eq => Num.signV u.1 || !Num.signV v.1
  let r : FV := if Num.isNan u.1 then (if Num.isNan v.1 then .nan else v.1) else if Num.isNan v.1 then u.1
    else if isMax then (if le then v.1 else u.1) else (if le then u.1 else v.1)
  (Num.packRne f r, { ftz := if u.2 || v.2 then 1 else 0 })

/-- A relation of two flushed operands (R363). -/
def relFlushed (f : Fmt) (fz : Bool) (rel : Option Ordering → Bool) (a b : Nat) : Bool :=
  let u := (Num.unpack f fz a).1
  let v := (Num.unpack f fz b).1
  rel (if Num.isNan u || Num.isNan v then none else some (Num.cmp u v))

def relF32 (x : Bool) (p : BitVec 3) (a b : BitVec 7) (rel : Option Ordering → Bool) : WordRule :=
  { x := x, src := [one a, one b], ps := [p]
    out := fun g => g.setP p.toNat g.active (maskOf fun l => relFlushed f32 g.fz32 rel (bitsV x a g l) (bitsV x b g l)) }
def relF64 (x : Bool) (p : BitVec 3) (a b : BitVec 7) (rel : Option Ordering → Bool) : WordRule :=
  { x := x, src := [pair a, pair b], ps := [p]
    out := fun g => g.setP p.toNat g.active (maskOf fun l => relFlushed f64 g.fz64 rel (bits64 x a g l) (bits64 x b g l)) }

/-- Two packed elements, each computed apart, their events added (R364). -/
def perHalf (r : (Nat → Nat) → Nat × Ev) : Nat × Ev :=
  let lo := r fun w => w % 2 ^ 16
  let hi := r fun w => w / 2 ^ 16 % 2 ^ 16
  (lo.1 + hi.1 * 2 ^ 16, lo.2.add hi.2)

/-- FP64 results in a pair (R366). -/
def f64Lanes (x : Bool) (d : BitVec 7) (src : List Operand) (r : Group → Nat → Nat × Ev) : WordRule :=
  { x := x, dst := [pair d], src := src
    out := fun g => g.setV64 (ea x d g) g.active fun l => BitVec.ofNat 64 (r g l).1
    ev := fun g => eventsOf g (r g) }

/-- A special function (R365): the free value within the bound, by function code and input bits (log entry 9). -/
def special (fn : Nat) (g : Group) (a : Nat) : Nat × Ev :=
  let u := Num.unpack f32 g.fz32 a
  if g.fz32 && Num.sfuTiny fn u.1 then (if fn ≠ 3 ∧ a.testBit 31 then 2 ^ 31 else 0, { ftz := 1 })
  else Num.out f32 .rne g.fz32 u.2 (Num.isNan u.1) (Num.sfuValue fn u.1 (Config.sfu fn (BitVec.ofNat 32 a)).toNat)

def isRel (o : Ordering) (r : Option Ordering) : Bool := r == some o

/-- The floating-point words of FADD, FMUL, FCMP, FPK, SFU, FP64 and the FP64 compares. -/
def floatRule (i : Instr) : Option WordRule :=
  match i with
  | .fadd _ x d a b => some (f32AB x d a b fun g u v => arith f32 g.rm g.fz32 (fv2 (sum g.rm)) [u, v])
  | .fsub _ x d a b => some (f32AB x d a b fun g u v => arith f32 g.rm g.fz32 (fv2 (diff g.rm)) [u, v])
  | .fmin _ x d a b => some (f32AB x d a b fun g => minMax f32 g.fz32 false)
  | .fmax _ x d a b => some (f32AB x d a b fun g => minMax f32 g.fz32 true)
  | .fabs _ x d a => some (fromA x d a fun u => maskOf fun i => decide (i ≠ 31) && u.getLsbD i)
  | .fneg _ x d a => some (fromA x d a fun u => maskOf fun i => if i = 31 then !u.getLsbD i else u.getLsbD i)
  | .frnd _ x d a => some (f32A x d a fun g u => arith f32 g.rm g.fz32 (fv1 (Num.toIntegral g.rm)) [u])
  | .fract _ x d a => some (f32A x d a fun g u =>
      let r := arith f32 g.rm g.fz32 (fv1 fun v => match v with
        | .fin .. => diff g.rm v (Num.toIntegral .rd v)
        | _ => .nan) [u]
      (if 0x3F7FFFFF < r.1 ∧ r.1 < 0x80000000 ∧ r.1 ≠ f32.nan then 0x3F7FFFFF else r.1, r.2))
  | .faddScalarB _ x d a b => some (f32AS x d a b fun g u v => arith f32 g.rm g.fz32 (fv2 (sum g.rm)) [u, v])
  | .fsubScalarB _ x d a b => some (f32AS x d a b fun g u v => arith f32 g.rm g.fz32 (fv2 (diff g.rm)) [u, v])
  | .fminScalarB _ x d a b => some (f32AS x d a b fun g => minMax f32 g.fz32 false)
  | .fmaxScalarB _ x d a b => some (f32AS x d a b fun g => minMax f32 g.fz32 true)
  | .fmul _ x d a b => some (f32AB x d a b fun g u v => arith f32 g.rm g.fz32 (fv2 Num.mul) [u, v])
  | .fma _ x d a b => some (f32ABD x d a b fun g u v w => arith f32 g.rm g.fz32 (fv3 (mulAdd g.rm)) [u, v, w])
  | .fms _ x d a b => some (f32ABD x d a b fun g u v w => arith f32 g.rm g.fz32 (fv3 (mulSub g.rm)) [u, v, w])
  | .fnma _ x d a b => some (f32ABD x d a b fun g u v w => arith f32 g.rm g.fz32 (fv3 (negMulAdd g.rm)) [u, v, w])
  | .fmulScalarB _ x d a b => some (f32AS x d a b fun g u v => arith f32 g.rm g.fz32 (fv2 Num.mul) [u, v])
  | .fmaScalarB _ x d a b => some (f32ASD x d a b fun g u v w => arith f32 g.rm g.fz32 (fv3 (mulAdd g.rm)) [u, v, w])
  | .fmsScalarB _ x d a b => some (f32ASD x d a b fun g u v w => arith f32 g.rm g.fz32 (fv3 (mulSub g.rm)) [u, v, w])
  | .fnmaScalarB _ x d a b => some (f32ASD x d a b fun g u v w => arith f32 g.rm g.fz32 (fv3 (negMulAdd g.rm)) [u, v, w])
  | .fcmpEq _ x p a b => some (relF32 x p a b (isRel .eq))
  | .fcmpNe _ x p a b => some (relF32 x p a b fun r => !isRel .eq r)
  | .fcmpLt _ x p a b => some (relF32 x p a b (isRel .lt))
  | .fcmpLe _ x p a b => some (relF32 x p a b fun r => isRel .lt r || isRel .eq r)
  | .fcmpGt _ x p a b => some (relF32 x p a b (isRel .gt))
  | .fcmpGe _ x p a b => some (relF32 x p a b fun r => isRel .gt r || isRel .eq r)
  | .fcmpUnord _ x p a b => some (relF32 x p a b Option.isNone)
  | .fcmpOrd _ x p a b => some (relF32 x p a b Option.isSome)
  | .haddF16x2 _ x d a b => some (f32AB x d a b fun g u v => perHalf fun e => arith f16 g.rm g.fz16 (fv2 (sum g.rm)) [e u, e v])
  | .hmulF16x2 _ x d a b => some (f32AB x d a b fun g u v => perHalf fun e => arith f16 g.rm g.fz16 (fv2 Num.mul) [e u, e v])
  | .hfmaF16x2 _ x d a b => some (f32ABD x d a b fun g u v w => perHalf fun e => arith f16 g.rm g.fz16 (fv3 (mulAdd g.rm)) [e u, e v, e w])
  | .haddBf16x2 _ x d a b => some (f32AB x d a b fun g u v => perHalf fun e => arith bf16 g.rm g.fzbf (fv2 (sum g.rm)) [e u, e v])
  | .hmulBf16x2 _ x d a b => some (f32AB x d a b fun g u v => perHalf fun e => arith bf16 g.rm g.fzbf (fv2 Num.mul) [e u, e v])
  | .hfmaBf16x2 _ x d a b => some (f32ABD x d a b fun g u v w => perHalf fun e => arith bf16 g.rm g.fzbf (fv3 (mulAdd g.rm)) [e u, e v, e w])
  | .hminF16x2 _ x d a b => some (f32AB x d a b fun g u v => perHalf fun e => minMax f16 g.fz16 false (e u) (e v))
  | .hmaxF16x2 _ x d a b => some (f32AB x d a b fun g u v => perHalf fun e => minMax f16 g.fz16 true (e u) (e v))
  | .frcp _ x d a => some (f32A x d a (special 0))
  | .frsq _ x d a => some (f32A x d a (special 1))
  | .fsqrt _ x d a => some (f32A x d a fun g u => arith f32 g.rm g.fz32 (fv1 Num.sqrt) [u])
  | .fexp2 _ x d a => some (f32A x d a (special 3))
  | .flog2 _ x d a => some (f32A x d a (special 4))
  | .fsin _ x d a => some (f32A x d a (special 5))
  | .fcos _ x d a => some (f32A x d a (special 6))
  | .ftanh _ x d a => some (f32A x d a (special 7))
  | .dadd _ x d a b => some (f64Lanes x d [pair a, pair b] fun g l => arith f64 g.rm g.fz64 (fv2 (sum g.rm)) [bits64 x a g l, bits64 x b g l])
  | .dsub _ x d a b => some (f64Lanes x d [pair a, pair b] fun g l => arith f64 g.rm g.fz64 (fv2 (diff g.rm)) [bits64 x a g l, bits64 x b g l])
  | .dmul _ x d a b => some (f64Lanes x d [pair a, pair b] fun g l => arith f64 g.rm g.fz64 (fv2 Num.mul) [bits64 x a g l, bits64 x b g l])
  | .dfma _ x d a b => some (f64Lanes x d [pair a, pair b] fun g l =>
      arith f64 g.rm g.fz64 (fv3 (mulAdd g.rm)) [bits64 x a g l, bits64 x b g l, bits64 x d g l])
  | .dmin _ x d a b => some (f64Lanes x d [pair a, pair b] fun g l => minMax f64 g.fz64 false (bits64 x a g l) (bits64 x b g l))
  | .dmax _ x d a b => some (f64Lanes x d [pair a, pair b] fun g l => minMax f64 g.fz64 true (bits64 x a g l) (bits64 x b g l))
  | .drcp _ x d a => some (f64Lanes x d [pair a] fun g l => arith f64 g.rm g.fz64 (fv1 (Num.div (Num.ofInt 1))) [bits64 x a g l])
  | .dsqrt _ x d a => some (f64Lanes x d [pair a] fun g l => arith f64 g.rm g.fz64 (fv1 Num.sqrt) [bits64 x a g l])
  | .dcmpEq _ x p a b => some (relF64 x p a b (isRel .eq))
  | .dcmpLt _ x p a b => some (relF64 x p a b (isRel .lt))
  | .dcmpLe _ x p a b => some (relF64 x p a b fun r => isRel .lt r || isRel .eq r)
  | .dcmpUnord _ x p a b => some (relF64 x p a b Option.isNone)
  | _ => none

/-! R367 to R371: conversions. -/

/-- The types of R367: 0 f32, 1 f16, 2 bf16, 3 f64; 4 and 5 are the integers. -/
def typeFmt (t : Nat) : Fmt := match t with
  | 0 => f32
  | 1 => f16
  | 2 => bf16
  | _ => f64
def typeFz (g : Group) (t : Nat) : Bool := match t with
  | 0 => g.fz32
  | 1 => g.fz16
  | 2 => g.fzbf
  | _ => g.fz64
/-- The rounding of code r: RM for 0 (R367). -/
def roundOf (g : Group) (r : Nat) : Rm := match r with
  | 0 => g.rm
  | 1 => .rne
  | 2 => .rz
  | 3 => .ru
  | _ => .rd
def clampBit (b : Bool) : Nat := if b then 1 else 0

/-- A conversion of source bits `u` from type `q` to type `t` (R249, R367). -/
def convert (g : Group) (t r q : Nat) (u : Nat) : Nat × Ev :=
  let lo : Int := if t = 4 then -(2 ^ 31) else 0
  let hi : Int := if t = 4 then 2 ^ 31 - 1 else 2 ^ 32 - 1
  if q < 4 then
    let v := Num.unpack (typeFmt q) (typeFz g q) (u % 2 ^ (typeFmt q).width)
    if t < 4 then
      let widening := (t = 3 ∧ q < 3) ∨ (t = 0 ∧ (q = 1 ∨ q = 2))
      Num.out (typeFmt t) (roundOf g r) (!decide widening && typeFz g t) v.2 (Num.isNan v.1) v.1
    else let n := Num.toInt (roundOf g r) lo hi v.1; (wrapN 32 n.1, { sat := clampBit n.2, ftz := clampBit v.2 })
  else
    let n : Int := if q = 4 then (BitVec.ofNat 32 u).toInt else (u % 2 ^ 32 : Nat)
    if t < 4 then ((Num.pack (typeFmt t) (roundOf g r) false (Num.ofInt n)).1, {})
    else (wrapN 32 (max lo (min hi n)), { sat := clampBit (decide (n < lo ∨ hi < n)) })

/-- A lane's generator after its k-th step (R246). -/
def stepped (g : Group) (l k : Nat) : Nat := (List.range k).foldl (fun v _ => Num.lfsrStep v) (g.gen l)
/-- How element `i` of a lane rounds: RM, or the generator's upper half after step i + 1 (R247). -/
def rounding (sr : Bool) (g : Group) (l i : Nat) : Num.Nar := if sr then .sr (stepped g l (i + 1) / 2 ^ 16) else .mode g.rm
/-- The active lanes' generators after k steps. -/
def stepAll (k : Nat) (g h : Group) : Group := (lanesOf g.active).foldl (fun v l => v.setGen l (stepped g l k)) h

/-- Four FP32 values narrowed to the bytes of vD (R368). -/
def narrow4 (f : Fmt) (fze : Group → Bool) (sr x : Bool) (d a : BitVec 7) : WordRule :=
  let elem (g : Group) (l i : Nat) : Nat × Ev :=
    let v := Num.unpack f32 g.fz32 (g.v (ea x a g + i) l).toNat
    Num.narrow f (rounding sr g l i) (fze g) v.2 v.1
  let lane (g : Group) (l : Nat) : Nat × Ev :=
    ((elem g l 0).1 + 2 ^ 8 * ((elem g l 1).1 + 2 ^ 8 * ((elem g l 2).1 + 2 ^ 8 * (elem g l 3).1)),
     (((elem g l 0).2.add (elem g l 1).2).add (elem g l 2).2).add (elem g l 3).2)
  let w := floatLanes x d [(a, 4, 4)] [] lane
  { w with out := fun g => if sr then stepAll 4 g (w.out g) else w.out g }

/-- A block of eight narrowed to vD:vD+1 (R248, R369). -/
def narrowBlock8 (sr x : Bool) (d a b : BitVec 7) : WordRule :=
  let lane (g : Group) (l : Nat) : Nat × Ev :=
    let vs := (List.range 8).map fun i => Num.unpack f32 g.fz32 (g.v (ea x a g + i) l).toNat
    let beta := (g.v (ea x b g) l).toNat % 2 ^ 16
    let r := Num.narrowBlock (Num.decode bf16 beta) (Num.bandOk beta) (vs.map (·.1)) (rounding sr g l)
    (r.2.1.foldr (fun e n => e + 2 ^ 4 * n) 0 + r.1 * 2 ^ 32, { r.2.2 with ftz := (vs.filter (·.2)).length })
  let w := f64Lanes x d [(a, 8, 8), one b] lane
  { w with out := fun g => if sr then stepAll 8 g (w.out g) else w.out g }

/-- n registers from D, register c of each lane from `r g l c`, their events added (R370, R371). -/
def manyLanes (n : Nat) (x : Bool) (d : Operand) (src : List Operand) (ss : List Nat) (r : Group → Nat → Nat → Nat × Ev) : WordRule :=
  { x := x, dst := [d], src := src, ss := ss
    out := fun g => (List.range n).foldl (fun h c => h.setV (ea x d.1 g + c) g.active fun l => BitVec.ofNat 32 (r g l c).1) g
    ev := fun g => (List.range n).foldl (fun e c => e.add (eventsOf g fun l => r g l c)) {} }

/-- Four bytes of vA widened exactly (R249, R370). -/
def widen4 (f : Fmt) (fze : Group → Bool) (x : Bool) (d a : BitVec 7) : WordRule :=
  manyLanes 4 x (d, 4, 4) [one a] [] fun g l c =>
    let v := Num.unpack f (fze g) (bitsV x a g l / 2 ^ (8 * c) % 2 ^ 8)
    (Num.packRne f32 v.1, { ftz := clampBit v.2 })

/-- n exact FP64 differences from a scalar origin, each rounded once to FP32 under RNE, nothing flushed (R371). -/
def fromOrigin (n : Nat) (x : Bool) (d a : BitVec 7) (b : BitVec 6) : WordRule :=
  manyLanes n x (d, n, 1) [(a, 2 * n, 2)] ((List.range (2 * n)).map (b.toNat + ·)) fun g l c =>
    let u := Num.decode f64 (g.v64 (ea x a g + 2 * c) l).toNat
    let v := Num.decode f64 (g.s64 (b.toNat + 2 * c)).toNat
    Num.out f32 .rne false false (Num.isNan u || Num.isNan v) (diff .rne u v)

/-- The conversions CVT and CVTN, and XREL FN 0 and 1. -/
def convertRule (i : Instr) : Option WordRule :=
  match i with
  | .cvt _ x t d a r q => if cvtOk t r q then some (
      let val (g : Group) (l : Nat) : Nat × Ev := convert g t.toNat r.toNat q.toNat (if q = 3 then bits64 x a g l else bitsV x a g l)
      let src := [if q = 3 then pair a else one a]
      if t = 3 then f64Lanes x d src val else floatLanes x d src [] val) else none
  | .cvtnE4m3 _ x d a => some (narrow4 e4m3 Group.fze4 false x d a)
  | .cvtnE4m3Sr _ x d a => some (narrow4 e4m3 Group.fze4 true x d a)
  | .cvtnE5m2 _ x d a => some (narrow4 e5m2 Group.fze5 false x d a)
  | .cvtnE5m2Sr _ x d a => some (narrow4 e5m2 Group.fze5 true x d a)
  | .cvtnE2m1b _ x d a b => some (narrowBlock8 false x d a b)
  | .cvtnE2m1bSr _ x d a b => some (narrowBlock8 true x d a b)
  | .cvtwE4m3 _ x d a => some (widen4 e4m3 Group.fze4 x d a)
  | .cvtwE5m2 _ x d a => some (widen4 e5m2 Group.fze5 x d a)
  | .xrel _ x d a b => if b.toNat % 2 = 0 then some (fromOrigin 1 x d a b) else none
  | .xrel3 _ x d a b => if b.toNat % 2 = 0 ∧ b.toNat ≤ 58 then some (fromOrigin 3 x d a b) else none
  | _ => none

/-! R373 to R376, R470, R471: across lanes. -/

/-- Lane L reads A in lane `src L c` (R373). -/
def shuffle (x : Bool) (d a b : BitVec 7) (src : Nat → Nat → Nat) : WordRule :=
  { x := x, dst := [one d], src := [one a, one b]
    out := fun g => g.setV (ea x d g) g.active fun l => g.v (ea x a g) (src l (bitsV x b g l)) }

/-- One value of a predicate and ACTIVE in every active lane (R374). -/
def vote (x : Bool) (d : BitVec 7) (p : BitVec 3) (f : Word → Word → Word) : WordRule :=
  { x := x, dst := [one d], ps := [p], out := fun g => g.setV (ea x d g) g.active fun _ => f (g.p p.toNat) g.active }

/-- The combination of the active lanes up to a lane in lane order; of all of them where the word is no scan (R376). -/
def combineUpTo (f : Word → Word → Word) (scan : Bool) (g : Group) (a l : Nat) : Word :=
  match (lanesOf g.active).filter fun m => !scan || decide (m ≤ l) with
  | [] => 0
  | m :: ms => ms.foldl (fun acc k => f acc (g.v a k)) (g.v a m)

def reduceInt (x scan : Bool) (d a : BitVec 7) (f : Word → Word → Word) : WordRule :=
  { x := x, dst := [one d], src := [one a]
    out := fun g => g.setV (ea x d g) g.active fun l => combineUpTo f scan g (ea x a g) l }

/-- An FP32 combination: the running bits, whether anything was flushed, whether a source was a NaN (R253, R376). -/
def reduceF32 (x scan : Bool) (d a : BitVec 7) (comb : Group → Nat → Nat → Nat × Ev) : WordRule :=
  floatLanes x d [one a] [] fun g l =>
    let first (m : Nat) : Nat × Bool × Bool :=
      let u := Num.unpack f32 g.fz32 (bitsV x a g m)
      (Num.packRne f32 u.1, u.2, Num.isNan u.1)
    let r := match (lanesOf g.active).filter fun m => !scan || decide (m ≤ l) with
      | [] => (0, false, false)
      | m :: ms => ms.foldl (fun acc k =>
          let q := first k
          let c := comb g acc.1 q.1
          (c.1, acc.2.1 || q.2.1 || c.2.ftz != 0, acc.2.2 || q.2.2)) (first m)
    (r.1, { ftz := clampBit r.2.1, nan := clampBit (Num.isNan (Num.decode f32 r.1) && !r.2.2) })

/-- The difference of two lanes of a quad over 2^k, rounded once (R471). -/
def quadSlope (g : Group) (a far near k : Nat) : Nat × Ev :=
  arith f32 g.rm g.fz32 (fv2 fun p q => Num.mul (diff g.rm p q) (.fin false 1 (-(k : Int)))) [(g.v a far).toNat, (g.v a near).toNat]

/-- The shuffles, votes, quad exchange, reductions, scans and quad derivatives. -/
def laneRule (i : Instr) : Option WordRule :=
  match i with
  | .shflIdx _ x d a b => some (shuffle x d a b fun _ c => c % 32)
  | .shflUp _ x d a b => some (shuffle x d a b fun l c => if l < c then l else l - c)
  | .shflDown _ x d a b => some (shuffle x d a b fun l c => if 31 < l + c then l else l + c)
  | .shflXor _ x d a b => some (shuffle x d a b fun l c => l ^^^ c % 32)
  | .voteAny _ x d p => some (vote x d p fun q m => if q &&& m ≠ 0 then 1 else 0)
  | .voteAll _ x d p => some (vote x d p fun q m => if m &&& ~~~q = 0 then 1 else 0)
  | .voteBallot _ x d p => some (vote x d p fun q m => m &&& q)
  | .qswz _ x d a k => some
      { x := x, dst := [one d], src := [one a]
        out := fun g => g.setV (ea x d g) g.active fun l => g.v (ea x a g) (match k with
          | 0 => l ^^^ 1
          | 1 => l ^^^ 2
          | 2 => l ^^^ 3
          | _ => 4 * (l / 4)) }
  | .redAddS32 _ x d a => some (reduceInt x false d a fun u v => u + v)
  | .redAddF32 _ x d a => some (reduceF32 x false d a fun g u v => arith f32 g.rm g.fz32 (fv2 (sum g.rm)) [u, v])
  | .redMinF32 _ x d a => some (reduceF32 x false d a fun g => minMax f32 g.fz32 false)
  | .redMaxF32 _ x d a => some (reduceF32 x false d a fun g => minMax f32 g.fz32 true)
  | .scanAddS32 _ x d a => some (reduceInt x true d a fun u v => u + v)
  | .scanAddF32 _ x d a => some (reduceF32 x true d a fun g u v => arith f32 g.rm g.fz32 (fv2 (sum g.rm)) [u, v])
  | .redAnd _ x d a => some (reduceInt x false d a fun u v => u &&& v)
  | .redOr _ x d a => some (reduceInt x false d a fun u v => u ||| v)
  | .ddx _ x d a b => some (floatLanes x d [one a, one b] [] fun g l =>
      quadSlope g (ea x a g) (4 * (l / 4) + 2 * (l % 4 / 2) + 1) (4 * (l / 4) + 2 * (l % 4 / 2)) (min 2 (bitsV x b g l % 4)))
  | .ddy _ x d a b => some (floatLanes x d [one a, one b] [] fun g l =>
      quadSlope g (ea x a g) (4 * (l / 4) + 2 + l % 2) (4 * (l / 4) + l % 2) (min 2 (bitsV x b g l / 4 % 4)))
  | _ => none

end Sys2Proof.Claims
end

