-- ==== Sys2Proof/Claims/Cases.lean ====
section
/-! DEFINITION. The terms for words with several cases: what a word leaves in each, as its rule gives it over the shared
operations; and the cases of control words (R312, R315, R377 to R386) and of special registers (R321, R356). -/

namespace Sys2Proof.Claims

open Sys2Proof.Machine

/-- `s` with the issuing group gone on to the chain that follows. -/
def issued (s : State) : State := onCur (fun g => { g with pc := s.nextPc, wants := false }) s

/-- The issuing group turned into `f` of it, once the word is issued. -/
def turns (s : State) (f : Group → Group) : State := onCur f (issued s)

/-- The word undone and a trap taken at its chain by the lanes of `m` (R292, R295). -/
def trapped (s : State) (c : Cause) (m : Word) : State := takeTrap s.cur c (groupOf s s.cur).pc m (unwant s)

/-- The word kept for a later clock (R154). -/
def keptBack (s : State) : State := holdIssue (unwant s)

/-- One case of a word: the registers it names, when the case is the one, and the state after it. -/
structure Case where
  regs  : List RegId := []
  ok    : Bool := true
  after : State

/-- What a table of cases claims of an instruction. -/
def Holds (cases : Instr → State → Group → List Case) : Prop :=
  ∀ i s g k, k ∈ cases i s g → Ready s g k.regs → k.ok = true → exec i s = .next k.after

/-! R377 to R386: control. -/

/-- A push has room, and its spill a place (R169, R171). -/
def pushOk (s : State) (g : Group) : Bool :=
  g.depth < stackCap g && (!spills g || (homeFault s s.cur (stackHome g (g.depth - g.held.length)) .store).isNone)

/-- The entry that a pop reads back, if one was spilt, can be read (R169). -/
def popOk (s : State) (g : Group) : Bool :=
  g.depth ≤ g.held.length || 17 ≤ g.held.length || (homeFault s s.cur (stackHome g (g.depth - g.held.length - 1)) .load).isNone

/-- Every spilt entry can be read, or written (R169). -/
def spiltOk (s : State) (g : Group) (acc : Acc) : Bool :=
  (List.range (g.depth - g.held.length)).all fun d => (homeFault s s.cur (stackHome g d) acc).isNone

def predRegs (p : BitVec 3) : List RegId := if p = 7 then [] else [.pred p.toNat]
def sclPair (a : BitVec 6) : List RegId := [.scl a.toNat, .scl (a.toNat + 1)]

/-- The target of a branch: packets from the branch's own (R311, R377). -/
def targetOf (g : Group) (o : BitVec 19) (lit : Option (BitVec 25)) : Dword := packetAddr (packetNo (packetOf g.pc) + immB o lit)

/-- A branch of the lanes `t` (R378): none go, all go, or some go and the others first. -/
def branchCases (regs : List RegId) (t : Word) (o : BitVec 19) (lit : Option (BitVec 25)) (s : State) (g : Group) : List Case :=
  let rest := g.active &&& ~~~t
  [{ regs := regs, ok := t = 0, after := issued s },
   { regs := regs, ok := t ≠ 0 ∧ rest = 0, after := turns s fun h => { h with pc := targetOf g o lit } },
   { regs := regs, ok := t ≠ 0 ∧ rest ≠ 0 ∧ pushOk s g
     after := onCur (fun h => { h with active := rest })
       (push s.cur { kind := .div, mask := g.active, pmask := t, ppc := targetOf g o lit } (issued s)) },
   { regs := regs, ok := t ≠ 0 ∧ rest ≠ 0 ∧ stackCap g ≤ g.depth, after := trapped s .rstack g.active }]

/-- The return from a trap with ADV (R296): the chain at the resume point is passed over, as the block there, fetched in the mode that
is returned to, divides it; the word is kept back while the way to that block is held (R31). -/
def advCase (s : State) (g : Group) (e : StackEntry) : Case :=
  let there : Group := { g with pc := e.rpc, mode := e.mode.setWidth 32 }
  match (fetchFor there s.cur s).1 with
  | .line l =>
    { ok := e.kind = .trap ∧ e.cause ≠ 0x0D ∧ g.mode.getLsbD 1 = true ∧ popOk s g
      after := returnTrap s.cur e true (chainAfter l e.rpc) (fetchFor there s.cur (issued s)).2 }
  | .held => { ok := e.kind = .trap ∧ e.cause ≠ 0x0D ∧ g.mode.getLsbD 1 = true, after := keptBack s }
  | _ => { ok := false, after := s }

/-- `join` (R379, R296), by the entry on top. One that reconverges is kept back while accesses of the branch's paths are still to be performed
(R220). -/
def joinCases (s : State) (g : Group) : List Case :=
  [{ ok := g.held = [], after := trapped s .illegal g.active }] ++
  match g.held.head? with
  | none => []
  | some e =>
    [{ ok := e.kind = .bad ∨ e.kind = .call ∨ (e.kind = .trap ∧ e.cause = 0x0D), after := trapped s .illegal g.active },
     { ok := e.kind = .trap ∧ e.cause ≠ 0x0D ∧ g.mode.getLsbD 1 = false ∧ popOk s g, after := returnTrap s.cur e false e.rpc (issued s) },
     advCase s g e,
     { ok := e.kind = .div ∧ e.pmask ≠ 0
       after := onCur (fun h => switchPath h.depth s.mem.nextId { h with active := e.pmask, pc := e.ppc })
         (setTop s.cur { e with rpc := if e.rpc = 0 then s.nextPc else e.rpc, pmask := 0 } (issued s)) },
     { ok := e.kind = .div ∧ e.pmask = 0 ∧ pathsOut s g = true, after := keptBack s },
     { ok := e.kind = .div ∧ e.pmask = 0 ∧ pathsOut s g = false ∧ e.mask ≠ 0 ∧ popOk s g
       after := onCur (fun h => { h with active := e.mask, pc := if e.rpc = 0 then s.nextPc else e.rpc }) (pop s.cur (issued s)) },
     { ok := e.kind = .div ∧ e.pmask = 0 ∧ pathsOut s g = false ∧ e.mask = 0 ∧ spiltOk s g .load ∧ ¬ vacateMeetsBad (stackEntries s g).tail
       after := vacate s.cur (onCur (fun h => { h with active := 0 }) (pop s.cur (issued s))) },
     { ok := e.kind = .div ∧ e.pmask = 0 ∧ pathsOut s g = false ∧ e.mask = 0 ∧ spiltOk s g .load ∧ vacateMeetsBad (stackEntries s g).tail
       after := trapped s .illegal g.active }]

/-- `loop` (R380): the lanes that stay go back, those that leave wait in one DIV entry at the loop's end. -/
def loopCases (p : BitVec 3) (o : BitVec 19) (lit : Option (BitVec 25)) (s : State) (g : Group) : List Case :=
  let stay := g.active &&& g.p p.toNat
  let leave := g.active &&& ~~~stay
  let back (t : State) : State := onCur (fun h => { h with active := stay, pc := targetOf g o lit }) t
  let mine : Bool := g.held.head?.any fun e => decide (e.kind = .div ∧ e.ppc = s.nextPc ∧ e.rpc = s.nextPc)
  [{ regs := predRegs p, ok := stay ≠ 0 ∧ leave = 0, after := back (issued s) },
   { regs := predRegs p, ok := stay ≠ 0 ∧ leave ≠ 0 ∧ ¬mine ∧ pushOk s g
     after := back (push s.cur { kind := .div, mask := g.active, pmask := leave, ppc := s.nextPc, rpc := s.nextPc } (issued s)) },
   { regs := predRegs p, ok := stay ≠ 0 ∧ leave ≠ 0 ∧ ¬mine ∧ stackCap g ≤ g.depth, after := trapped s .rstack g.active },
   { regs := predRegs p, ok := stay = 0 ∧ ¬mine, after := issued s }] ++
  match g.held.head? with
  | none => []
  | some e =>
    [{ regs := predRegs p, ok := stay ≠ 0 ∧ leave ≠ 0 ∧ mine, after := back (setTop s.cur { e with pmask := e.pmask ||| leave } (issued s)) },
     { regs := predRegs p, ok := stay = 0 ∧ mine ∧ popOk s g
       after := onCur (fun h => { h with active := e.mask, pc := s.nextPc }) (pop s.cur (issued s)) }]

/-- `call` and `ret` (R384). -/
def callCases (o : BitVec 19) (lit : Option (BitVec 25)) (s : State) (g : Group) : List Case :=
  [{ ok := pushOk s g
     after := onCur (fun h => { h with pc := targetOf g o lit }) (push s.cur { kind := .call, mask := g.active, rpc := s.nextPc } (issued s)) },
   { ok := stackCap g ≤ g.depth, after := trapped s .rstack g.active }]

def retCases (s : State) (g : Group) : List Case :=
  [{ ok := g.held.head?.all fun e => e.kind ≠ .call, after := trapped s .illegal g.active }] ++
  match g.held.head? with
  | none => []
  | some e =>
    [{ ok := e.kind = .call ∧ e.mask ≠ 0 ∧ popOk s g
       after := onCur (fun h => { h with active := e.mask, pc := e.rpc }) (pop s.cur (issued s)) },
     { ok := e.kind = .call ∧ e.mask = 0 ∧ spiltOk s g .load ∧ ¬ vacateMeetsBad (stackEntries s g).tail
       after := vacate s.cur (onCur (fun h => { h with active := 0, pc := e.rpc }) (pop s.cur (issued s))) },
     { ok := e.kind = .call ∧ e.mask = 0 ∧ spiltOk s g .load ∧ vacateMeetsBad (stackEntries s g).tail
       after := trapped s .illegal g.active }]

/-- `exit` (R382) of a group with no spilt entry: the lanes leave ACTIVE, PLM and every entry, and a group with none left
vacates, unless its pops would meet a bad entry (R168, R299, R383). -/
def exitCases (p : BitVec 3) (s : State) (g : Group) : List Case :=
  let x := g.active &&& g.p p.toNat
  let h : Group := { g with
    active := g.active &&& ~~~x, plm := g.plm &&& ~~~x, gone := g.gone ||| x, plmAt := if g.plm &&& ~~~x = 0 then none else g.plmAt
    held := g.held.map fun e => { e with mask := e.mask &&& ~~~x, pmask := e.pmask &&& ~~~x } }
  [{ regs := predRegs p, ok := g.depth ≤ g.held.length ∧ h.active ≠ 0, after := onward s h },
   { regs := predRegs p, ok := g.depth ≤ g.held.length ∧ h.active = 0 ∧ ¬ vacateMeetsBad h.held, after := vacate s.cur (onward s h) },
   { regs := predRegs p, ok := g.depth ≤ g.held.length ∧ h.active = 0 ∧ vacateMeetsBad h.held, after := trapped s .illegal g.active }]

/-- A cause taken in place of the chain that follows, its word having completed in `t` (R290); one whose entry cannot be spilt now stays to be
taken (R169). -/
def takenNext (s : State) (r : Raise) (t : State) : State :=
  let u := takeTrap s.cur r.cause s.nextPc r.mask t
  if spillHeld t s.cur then onGroup s.cur (fun h => { h with deliver := some r }) u else u

/-- A group in place to take such a cause at once: it has not exited, and waits for no counter (R79, R292). -/
def mayTake (g : Group) : Bool := !g.exited && g.waiting != some .counter

/-- `trap` and `brk` (R385): the cause is taken at the chain that follows; one whose entry cannot be spilt now stays to be taken (R169). -/
def softCases (c : Cause) (p : BitVec 3) (s : State) (g : Group) : List Case :=
  let m := g.active &&& g.p p.toNat
  [{ regs := predRegs p, ok := m = 0, after := issued s },
   { regs := predRegs p, ok := m ≠ 0 ∧ mayTake g, after := takenNext s { cause := c, mask := m, next := true } (issued s) }]

/-- NOP, LIT, and the words of BRANCH and PACE. -/
def controlCases (i : Instr) (s : State) (g : Group) : List Case :=
  match i with
  | .nop _ => [{ after := issued s }]
  | .lit _ _ => [{ after := trapped s .illegal g.active }]
  | .bra _ o lit => branchCases [] g.active o lit s g
  | .brc _ p o lit => branchCases (predRegs p) (g.active &&& g.p p.toNat) o lit s g
  | .brcn _ p o lit => branchCases (predRegs p) (g.active &&& ~~~g.p p.toNat) o lit s g
  | .bru _ p o lit => branchCases (predRegs p) (if g.active &&& g.p p.toNat = 0 then 0 else g.active) o lit s g
  | .join _ => joinCases s g
  | .brx _ a =>
    [{ regs := sclPair a, ok := isPacketStart (g.s64 a.toNat) = true, after := turns s fun h => { h with pc := g.s64 a.toNat } },
     { regs := sclPair a, ok := isPacketStart (g.s64 a.toNat) = false, after := trapped s .illegal g.active }]
  | .loop _ p o lit => loopCases p o lit s g
  | .call _ o lit => callCases o lit s g
  | .ret _ => retCases s g
  | .exit _ p => exitCases p s g
  | .trap _ p => softCases .trapinsn p s g
  | .brk _ p => softCases .brk p s g
  | .yield _ => [{ after := turns s fun h => { h with lastIssue := s.clock } }]
  | .sleep _ n => [{ after := turns s fun h => { h with sleepTo := some (s.clock + n.toNat + 1) } }]
  | _ => []

/-! R321, R356: special registers. -/

/-- Special registers 6, 11, 12 and 14 hold 64 bits; 11 and 14 are the supervisor's, 10 to be written only there. -/
def wideReg (n : Nat) : Bool := [6, 11, 12, 14].contains n

/-- A uniform special register (R321). -/
def readSpecial (s : State) (g : Group) (n : Nat) : Dword :=
  let t := curTeam s
  match n with
  | 1 => BitVec.ofNat 64 (s.cur % 32)
  | 2 => BitVec.ofNat 64 (s.cur / 32)
  | 3 => match Maps.find (dieAt s t.die).cards t.slot with
    | some c => BitVec.ofNat 64 c.count
    | none => 0
  | 4 => BitVec.ofNat 64 t.core
  | 5 => BitVec.ofNat 64 (t.core / 24)
  | 6 => BitVec.ofNat 64 (cycleOf s (t.core / 24))
  | 7 => g.fpm.setWidth 64
  | 8 => g.tag.setWidth 64
  | 9 => g.cptag.setWidth 64
  | 10 => g.mode.setWidth 64
  | 11 => g.trapbase
  | 12 => g.rsbase
  | 13 => (coreAt s t.core).embstall.setWidth 64
  | _ => 0

/-- `getsr` (R356): 0 and 14 by lane, the others once for the group. -/
def getsrCases (d n : BitVec 6) (s : State) (g : Group) : List Case :=
  [{ regs := [.vec d.toNat], ok := n = 0 ∧ d.toNat < allot s, after := onward s (g.setV d.toNat g.active (BitVec.ofNat 32)) },
   { regs := [.vec d.toNat, .vec (d.toNat + 1)], ok := n = 14 ∧ g.sup = true ∧ d.toNat % 2 = 0 ∧ d.toNat + 2 ≤ allot s
     after := onward s (g.setV64 d.toNat g.active (Maps.get 0 g.faddr)) },
   { regs := [.scl d.toNat], ok := 1 ≤ n.toNat ∧ n.toNat < 14 ∧ wideReg n.toNat = false
     after := onward s (g.setS d.toNat ((readSpecial s g n.toNat).setWidth 32)) },
   { regs := sclPair d, ok := n.toNat < 14 ∧ wideReg n.toNat = true ∧ (n ≠ 11 ∨ g.sup = true), after := onward s (g.setS64 d.toNat (readSpecial s g n.toNat)) },
   { regs := sclPair d, ok := n = 11 ∧ g.sup = false, after := trapped s .priv g.active },
   { regs := [.vec d.toNat, .vec (d.toNat + 1)], ok := n = 14 ∧ g.sup = false ∧ d.toNat % 2 = 0 ∧ d.toNat + 2 ≤ allot s
     after := trapped s .priv g.active },
   { regs := [.scl d.toNat], ok := 14 < n.toNat, after := trapped s .illegal g.active }]

/-- A special register written: reserved bits keep their value, RESEED gives every lane its new generator. -/
def writeSpecial (n : Nat) (v : Dword) (g : Group) : Group :=
  match n with
  | 7 =>
    let h := { g with fpm := v.setWidth 32 &&& 0xFFFF03F3#32 }
    if v.getLsbD 10 then { h with lfsr := (List.range 32).map fun l => (l, BitVec.ofNat 32 (Num.lfsrSeed (v.extractLsb' 16 16).toNat l)) } else h
  | 8 => { g with tag := v.setWidth 32 &&& 0xFFF#32 }
  | 10 => { g with mode := (g.mode &&& 0xFFFFFFFC#32) ||| (v.setWidth 32 &&& 3#32) }
  | 11 => { g with trapbase := v &&& 0xFFFFFFFFFFFFC000#64 }
  | 12 => { g with rsbase := (v &&& 0xFFFFFFFFFFFFFC00#64) ||| BitVec.ofNat 64 (min 11 (v.extractLsb' 0 4).toNat) }
  | _ => g

/-- `setsr` (R356). -/
def setsrCases (n b : BitVec 6) (s : State) (g : Group) : List Case :=
  [{ regs := [.scl b.toNat], ok := n = 7 ∨ n = 8 ∨ (n = 10 ∧ g.sup = true)
     after := onward s (writeSpecial n.toNat ((g.s b.toNat).setWidth 64) g) },
   { regs := sclPair b, ok := n = 12 ∨ (n = 11 ∧ g.sup = true), after := onward s (writeSpecial n.toNat (g.s64 b.toNat) g) },
   { regs := sclPair b, ok := (n = 10 ∨ n = 11) ∧ g.sup = false, after := trapped s .priv g.active },
   { regs := sclPair b, ok := n.toNat ≤ 6 ∨ n = 9 ∨ 13 ≤ n.toNat, after := trapped s .illegal g.active }]

/-- The words that move special registers. -/
def specialCases (i : Instr) (s : State) (g : Group) : List Case :=
  match i with
  | .getsr _ d n => getsrCases d n s g
  | .setsr _ n b => setsrCases n b s g
  | _ => []

/-! R352: a register named by lane. -/

/-- Every vector register from `n` on: any of them may be the one that a lane names (R352). -/
def from_ (s : State) (n : Nat) : List RegId := (List.range (max 4097 (allot s) - n)).map fun i => .vec (n + i)

/-- The register of a lane: a base and its offset byte. -/
def lanePick (g : Group) (base b l : Nat) : Nat := base + (g.v b l).toNat % 256

/-- The words `vrd` and `vwr` (R352): read or write each lane's own register, or REGBOUND where one is not allotted; kept back while a register
from the base up to ALLOT is not free. -/
def indexedCases (i : Instr) (s : State) (g : Group) : List Case :=
  let both (x : Bool) (d a b : BitVec 7) (base : Nat) (out : Group) : List Case :=
    let regs := [.vec (ea x d g), .vec (ea x a g), .vec (ea x b g)] ++ from_ s base ++ (if x then [.ix] else [])
    let named := decide (ea x d g < allot s ∧ ea x a g < allot s ∧ ea x b g < allot s)
    let within := (lanesOf g.active).all fun l => decide (lanePick g base (ea x b g) l < allot s)
    let up := (List.range (allot s - base)).map fun i => RegId.vec (base + i)
    [{ ok := up.any g.busy, after := keptBack s },
     { regs := regs, ok := named && within, after := onward s out },
     { regs := regs, ok := !(named && within), after := trapped s .regbound g.active }]
  match i with
  | .vrd _ x d a b => both x d a b (ea x a g) (g.setV (ea x d g) g.active fun l => g.v (lanePick g (ea x a g) (ea x b g) l) l)
  | .vwr _ x d a b => both x d a b (ea x d g)
      ((lanesOf g.active).foldl (fun h l => h.setLane (lanePick g (ea x d g) (ea x b g) l) l (g.v (ea x a g) l)) g)
  | _ => []

end Sys2Proof.Claims
end

