-- ==== Sys2Proof/Claims/Access.lean ====
section
/-! DEFINITION. The cases of the words that reach memory (R189, R190, R218, R219, R222, R223, R402 to R416). -/

namespace Sys2Proof.Claims

open Sys2Proof.Machine

/-- An access has a place to go: memory, the team's scratchpad or another team's. -/
def reaches (t : Target) : Bool :=
  match t with
  | .phys _ _ => true
  | .scratch _ => true
  | .remote _ _ => true
  | _ => false

/-- Every lane's access of `z` bytes is aligned and has a place to go (R402). -/
def Served (z : Nat) (las : List LaneAt) : Bool := las.all fun a => a.at_.toNat % z == 0 && reaches a.tg

/-- No lane that goes to the team's own scratchpad must wait for one that went there as another team's (R219), and none for a walk whose way is
held (R31). -/
def InOrder (s : State) (las : List LaneAt) : Bool := !accessHeld s las

/-- The registers and bounds of vector operands. -/
def vecRegs (x : Bool) (os : List Operand) (g : Group) : List RegId :=
  os.flatMap (fun r => (List.range r.2.1).map fun i => .vec (ea x r.1 g + i)) ++ (if x then [.ix] else [])
def vecFits (x : Bool) (os : List Operand) (s : State) (g : Group) : Bool :=
  os.all fun r => ea x r.1 g % r.2.2 == 0 && decide (ea x r.1 g + r.2.1 ≤ allot s)

/-- The data registers of an access size code (R319). -/
def dataOf (d : BitVec 7) (z : BitVec 3) : Operand := (d, sizeRegs z, sizeRegs z)

/-- The cause that the access of a lane raises (R191, R196, R402): one through an unbound window first, then its alignment, then where its
address leads. -/
def laneCause (z : Nat) (a : LaneAt) : Option Cause :=
  match a.tg with
  | .inlane .nowin _ => some .access
  | tg =>
    if a.at_.toNat % z ≠ 0 then some .align
    else match tg with
      | .inlane _ _ => some .access
      | .nophys _ => some .access
      | .touch => some .firsttouch
      | _ => none

/-- Does the access of a lane park its group (R194)? -/
def laneParks (z : Nat) (a : LaneAt) : Bool := a.at_.toNat % z == 0 && (match a.tg with
  | .park _ _ _ => true
  | _ => false)

/-- What the record of an in-lane ACCESS names: reason, address and INFO (R298). -/
def accessOf (m : Word) (a : Dword) (tg : Target) : Raise :=
  match tg with
  | .inlane r n => { cause := .access, mask := m, reason := r, addr := a, info := BitVec.ofNat 32 n }
  | .nophys pa => { cause := .access, mask := m, reason := .nophys, addr := BitVec.ofNat 64 pa }
  | _ => { cause := .access, mask := m, addr := a }

/-- What a parked access leaves in the wait table (R194). -/
def parkOf (m : Word) (a : Dword) (tg : Target) (acc : Acc) (user : Bool) : ParkReq :=
  match tg with
  | .park r p n => { reason := r, mask := m, addr := a, acc := acc, byPage := p, user := user, info := BitVec.ofNat 32 n }
  | _ => { reason := .none, mask := m, addr := a, acc := acc, byPage := false, user := user }

def maskOfLanes (las : List LaneAt) : Word := las.foldl (fun m a => m ||| BitVec.ofNat 32 (2 ^ a.lane)) 0

/-- The faults of a per-lane access, `u` the state in which they are taken (R191, R194, R196, R292, R297, R402): the lowest cause of the lanes is
taken by the lanes that raise it, their addresses kept, ACCESS with a record of the lowest; where no lane raises one, the group parks. -/
def faultCases (regs : List RegId) (fits : Bool) (z : Nat) (acc : Acc) (las : List LaneAt) (u : State) (s : State) (g : Group) : List Case :=
  let by_ (c : Cause) : List LaneAt := las.filter fun a => laneCause z a == some c
  let kept (as : List LaneAt) : List (Nat × Dword) := as.map fun a => (a.lane, a.va)
  let taken (c : Cause) : State := takeTrap s.cur c g.pc (maskOfLanes (by_ c)) (keepAddrs s.cur (maskOfLanes (by_ c)) (kept (by_ c)) u)
  let go : Bool := fits && InOrder s las
  [{ regs := regs, ok := go && !(by_ .align).isEmpty, after := taken .align },
   { regs := regs, ok := go && (by_ .align).isEmpty && !(by_ .firsttouch).isEmpty, after := taken .firsttouch }] ++
  (match by_ .access with
    | [] => []
    | a :: as =>
      [{ regs := regs, ok := go && (by_ .align).isEmpty && (by_ .firsttouch).isEmpty
         after := deliver s.cur (accessOf (maskOfLanes (a :: as)) a.va a.tg) g.pc (kept (a :: as)) u }]) ++
  (match las.filter (laneParks z) with
    | [] => []
    | a :: as =>
      [{ regs := regs, ok := go && las.all fun a => (laneCause z a).isNone
         after := parkWith s.cur (parkOf (maskOfLanes (a :: as)) a.va a.tg acc (!g.sup)) (kept (a :: as)) u }])

/-- Vector operands out of bounds (R8, R292, R318): ILLEGAL where one starts out of its alignment, else REGBOUND where one reaches ALLOT,
whatever the lanes' addresses are. -/
def boundCases (regs : List RegId) (x : Bool) (os : List Operand) (las : List LaneAt) (s : State) (g : Group) : List Case :=
  let even : Bool := os.all fun r => ea x r.1 g % r.2.2 == 0
  [{ regs := regs, ok := InOrder s las && !even, after := trapped s .illegal g.active },
   { regs := regs, ok := InOrder s las && even && !vecFits x os s g, after := trapped s .regbound g.active }]

/-- A per-lane access: served, held for its order, with an operand out of bounds, or with a lane that faults. -/
def accessCases (regs : List RegId) (x : Bool) (os : List Operand) (z : Nat) (acc : Acc) (las : List LaneAt) (eff : State → State)
    (s : State) (g : Group) : List Case :=
  [{ regs := regs, ok := vecFits x os s g ∧ InOrder s las ∧ Served z las, after := eff (issued s) },
   { regs := regs, ok := ¬InOrder s las, after := keptBack s }] ++
  boundCases regs x os las s g ++ faultCases regs (vecFits x os s g) z acc las (unwant s) s g

/-- A lane's access through a window: offset V[a] + imm from its base (R190, R407). -/
def windowedLanes (s : State) (g : Group) (x : Bool) (a : BitVec 7) (w : BitVec 3) (imm : Dword) (z : Nat) (acc : Acc) : List LaneAt :=
  (lanesOf g.active).map fun l => windowAt s g w.toNat (readyWindow s g w.toNat) l ((g.v (ea x a g) l).setWidth 64 + imm) z acc

/-- Is the chain at hand, at this depth of the stack, the one whose gather left lanes pending (R299)? -/
def pendingHere (g : Group) : Bool := g.plmAt == some (g.pc, g.depth)

/-- Lanes at their full addresses V64[a] + imm; after a fault, those still pending (R299, R408). -/
def addressedLanes (s : State) (g : Group) (x : Bool) (a : BitVec 7) (imm : Dword) (z : Nat) (acc : Acc) : List LaneAt :=
  (lanesOf (if pendingHere g then g.active &&& g.plm else g.active)).map fun l => addressAt s g l (g.v64 (ea x a g) l + imm) z acc

/-- Lanes at scratchpad offsets V[a] + imm (R409). -/
def scratchpadLanes (s : State) (g : Group) (x : Bool) (a : BitVec 7) (imm : Dword) (z : Nat) : List LaneAt :=
  (lanesOf g.active).map fun l => scratchAt s l ((g.v (ea x a g) l).setWidth 64 + imm) z

/-- `ld` and `st` (R407). -/
def windowedCases (store x : Bool) (z : BitVec 3) (d a : BitVec 7) (w : BitVec 3) (imm : Dword) (s : State) (g : Group) : List Case :=
  let n := sizeBytes z
  let las := windowedLanes s g x a w imm n (if store then .store else .load)
  let os := [dataOf d z, one a]
  let kept : State → State := keepWindow w.toNat (readyWindow s g w.toNat)
  accessCases (vecRegs x os g ++ [.win w.toNat]) x os n (if store then .store else .load) las (fun t =>
    if store then runStores n (fun l => laneData g (ea x d g) l (sizeRegs z)) las (kept t) else runLoads (ea x d g) z las (kept t)) s g

/-- A gather or scatter with no lane pending after it; one with lanes that fault commits the others and keeps those pending (R299,
R408). -/
def addressedCases (store x : Bool) (z : BitVec 3) (d a : BitVec 7) (imm : Dword) (s : State) (g : Group) : List Case :=
  let n := sizeBytes z
  let las := addressedLanes s g x a imm n (if store then .store else .load)
  let os := [dataOf d z, (a, 2, 2)]
  let run (las : List LaneAt) (t : State) : State :=
    if store then runStores n (fun l => laneData g (ea x d g) l (sizeRegs z)) las t else runLoads (ea x d g) z las t
  let left (m : Word) (at_ : Option (Dword × Nat)) (t : State) : State := onCur (fun h => { h with plm := m, plmAt := at_ }) t
  let done (t : State) : State := if pendingHere g then left 0 none t else t
  let faulty (a : LaneAt) : Bool := (laneCause n a).isSome || laneParks n a
  let regs := vecRegs x os g
  [{ regs := regs, ok := vecFits x os s g ∧ InOrder s las ∧ Served n las, after := done (run las (issued s)) },
   { regs := regs, ok := ¬InOrder s las, after := keptBack s }] ++
  boundCases regs x os las s g ++
  faultCases regs (vecFits x os s g) n (if store then .store else .load) las
    (left (maskOfLanes (las.filter faulty)) (some (g.pc, g.depth)) (run (las.filter fun a => !faulty a) (unwant s))) s g

/-- `lds` and `sts` (R409). -/
def scratchpadCases (store x : Bool) (z : BitVec 3) (d a : BitVec 7) (imm : Dword) (s : State) (g : Group) : List Case :=
  let n := sizeBytes z
  let las := scratchpadLanes s g x a imm n
  let os := [dataOf d z, one a]
  accessCases (vecRegs x os g) x os n (if store then .store else .load) las (fun t =>
    if store then runStores n (fun l => laneData g (ea x d g) l (sizeRegs z)) las t else runLoads (ea x d g) z las t) s g

/-- An atomic through a window or on the scratchpad (R411 to R413); with `ret` the old values come back. -/
def atomCases (regs : List RegId) (x : Bool) (o : BitVec 4) (d a : BitVec 7) (ret : Bool) (las : List LaneAt) (kept : State → State)
    (s : State) (g : Group) : List Case :=
  let os : List Operand := [(d, atomRegs o, atomRegs o), one a]
  accessCases (vecRegs x os g ++ (if ret then (List.range (atomRets o)).map fun i => .vec (ea x d g + i) else []) ++ regs) x os (atomSize o) .atomic las
    (fun t => runAtoms o ret (ea x d g) (fun l => laneData g (ea x d g) l (atomRegs o)) las (kept t)) s g

/-- The words of LD, ST, LDG, STG, LDS, STS and the atomics. -/
def laneAccessCases (i : Instr) (s : State) (g : Group) : List Case :=
  match i with
  | .ld _ x z d a w m lit => windowedCases false x z d a w (immM m lit (sizeBytes z)) s g
  | .st _ x z d a w m lit => windowedCases true x z d a w (immM m lit (sizeBytes z)) s g
  | .ldg _ x z d a m lit => addressedCases false x z d a (immM m lit (sizeBytes z)) s g
  | .stg _ x z d a m lit => addressedCases true x z d a (immM m lit (sizeBytes z)) s g
  | .lds _ x z d a m lit => scratchpadCases false x z d a (immM m lit (sizeBytes z)) s g
  | .sts _ x z d a m lit => scratchpadCases true x z d a (immM m lit (sizeBytes z)) s g
  | .atom _ x o d a w _ r =>
    atomCases [.win w.toNat] x o d a (r == 1) (windowedLanes s g x a w 0 (atomSize o) .atomic) (keepWindow w.toNat (readyWindow s g w.toNat)) s g
  | .atoms _ x o d a _ r => atomCases [] x o d a (r == 1) (scratchpadLanes s g x a 0 (atomSize o)) id s g
  | _ => []

/-! R404 to R406, R410: windows and the uniform load. -/

/-- A window as `wquery` gives it, FRAME only in supervisor mode (R188, R406). -/
def windowBits (w : Window) (sup : Bool) : Nat :=
  (if w.live then 1 else 0) + (if w.bound then 2 else 0) + (if w.u then 4 else 0) + (if w.r then 2 ^ 49 else 0) + (if w.w then 2 ^ 50 else 0) +
    w.limit.toNat * 2 ^ 51 + (if sup then w.frame.toNat * 2 ^ 82 else 0) + w.tag.toNat * 2 ^ 128 + w.vbase.toNat * 2 ^ 136

def sixScalars (d : BitVec 6) : List RegId := (List.range 6).map fun i => .scl (d.toNat + i)

/-- `ldc` (R410): the address, its target and its registers. -/
def ldcAddr (a b : BitVec 6) (g : Group) : Dword := g.s64 a.toNat + (g.s b.toNat).setWidth 64
def ldcTarget (s : State) (g : Group) (a b : BitVec 6) (n : Nat) : Target :=
  checkTarget s (curTeam s) (resolve s (curTeam s) (!g.sup) (ldcAddr a b g) n .load) n .load

/-- The faults of a uniform access, with the mask of a uniform instruction, whose lanes keep the address (R191, R194, R196, R403). -/
def uniformFaults (regs : List RegId) (ok : Bool) (va : Dword) (tg : Target) (s : State) (g : Group) : List Case :=
  let m := g.uniformMask
  let all := (lanesOf m).map fun l => (l, va)
  match tg with
  | .inlane _ _ => [{ regs := regs, ok := ok, after := deliver s.cur (accessOf m va tg) g.pc all (unwant s) }]
  | .nophys _ => [{ regs := regs, ok := ok, after := deliver s.cur (accessOf m va tg) g.pc all (unwant s) }]
  | .touch => [{ regs := regs, ok := ok, after := deliver s.cur { cause := .firsttouch, mask := m, addr := va } g.pc all (unwant s) }]
  | .park _ _ _ => [{ regs := regs, ok := ok, after := parkWith s.cur (parkOf m va tg .load (!g.sup)) all (unwant s) }]
  | _ => []

/-- The window words and the uniform load. -/
def uniformCases (i : Instr) (s : State) (g : Group) : List Case :=
  match i with
  | .bind _ w a => match bindWindow s (curTeam s) (!g.sup) (g.s64 a.toNat) w.toNat with
    | .inl x => [{ regs := sclPair a ++ [.win w.toNat], after := onCur (fun h => h.setWindow w.toNat x) (walkedWindow x (issued s)) }]
    | .inr tg => uniformFaults (sclPair a ++ [.win w.toNat]) true (g.s64 a.toNat) tg s g
  | .unbind _ w => [{ regs := [.win w.toNat], after := onward s (g.setWindow w.toNat {}) }]
  | .wquery _ d w =>
    [{ regs := sixScalars d ++ [.win w.toNat]
       after := onward s ((List.range 6).foldl (fun h i => h.setS (d.toNat + i) (BitVec.ofNat 32 (windowBits (g.window w.toNat) g.sup / 2 ^ (32 * i)))) g) }]
  | .ldc _ z d a b =>
    let code := z.setWidth 3
    let n := sizeBytes code
    let tg := ldcTarget s g a b n
    let regs := sclPair a ++ [.scl b.toNat] ++ (List.range (sizeRegs code)).map fun i => .scl (d.toNat + i)
    let order := InOrder s [{ lane := 0, va := ldcAddr a b g, tg := tg }]
    [{ regs := regs, ok := order ∧ (ldcAddr a b g).toNat % n = 0 ∧ reaches tg = true
       after := (partsAt tg code n).foldl (fun t p => uloadPart d.toNat g.uniformMask (ldcAddr a b g) tg p t) (issued s) },
     { regs := regs, ok := order ∧ (ldcAddr a b g).toNat % n ≠ 0
       after := takeTrap s.cur .align g.pc g.uniformMask (keepAddrs s.cur g.uniformMask ((lanesOf g.uniformMask).map fun l => (l, ldcAddr a b g)) (unwant s)) },
     { regs := regs, ok := ¬order, after := keptBack s }] ++
    uniformFaults regs (order && decide ((ldcAddr a b g).toNat % n = 0)) (ldcAddr a b g) tg s g
  | _ => []

/-! R222, R223, R414 to R416: fences and cache control. -/

/-- Requests of the issuing group that a fence waits for: the loads and atomics still to answer, or every one still to be
acknowledged (R222). -/
def awaited (s : State) (all : Bool) : Bool :=
  s.mem.net.any fun e => e.2.live && e.2.group == s.cur && e.2.op != .prefetch && (all || e.2.op != .store)

/-- An acquire drops the L1 from scope 2 on (R201, R222). -/
def acquired (sb : BitVec 2) (s : State) : State := if 2 ≤ sb.toNat then dropL1 (curTeam s).core s else s

/-- The physical ranges that `cwb` covers: 64-byte lines of len bytes at S64[d] (R415). -/
def cwbFound (s : State) (g : Group) (d a : BitVec 6) : List (Nat × Nat) × Option (Nat × Target) :=
  let b := g.s64 d.toNat
  let len := (g.s a.toNat).toNat
  cwbRanges s (curTeam s) (ctxRoot s (if vaTag b = 0xFF then 0 else (curTeam s).ctx)) (!g.sup) (len / 65536 + 3)
    (vaLow b / 64 * 64) ((vaLow b + len + 63) / 64 * 64)

/-- The fences and the cache words. -/
def fenceCases (i : Instr) (s : State) (g : Group) : List Case :=
  match i with
  | .fenceAcq _ sb => [{ ok := ¬awaited s false, after := acquired sb (issued s) }, { ok := awaited s false, after := keptBack s }]
  | .fenceRel _ _ => [{ ok := ¬awaited s true, after := issued s }, { ok := awaited s true, after := keptBack s }]
  | .fenceAr _ sb => [{ ok := ¬awaited s true, after := acquired sb (issued s) }, { ok := awaited s true, after := keptBack s }]
  | .cinv _ => [{ after := dropL1 (curTeam s).core (issued s) }]
  | .cwb _ d a =>
    let b := g.s64 d.toNat
    let regs := sclPair d ++ [.scl a.toNat]
    [{ regs := regs, ok := g.s a.toNat = 0, after := issued s },
     { regs := regs, ok := g.s a.toNat ≠ 0 ∧ (vaTag b = 0 ∨ (vaTag b = 0xFF ∧ g.sup = true)) ∧ (cwbFound s g d a).2 = none
       after := onMem (fun m => (cwbFound s g d a).1.foldl (fun m r => writeBack r.1 r.2 m) m) (issued s) }]
  | .pf _ x a w =>
    let regs := vecRegs x [one a] g ++ [.win w.toNat]
    let able : Bool := match readyWindow s g w.toNat with
      | .inl v => v.r
      | .inr _ => false
    [{ regs := regs, ok := vecFits x [one a] s g ∧ able
       after := (windowedLanes s g x a w 0 4 .load).foldl (fun t e => match e.tg with
         | .phys pa tr =>
           if isHbm pa then
             addReq { group := 0, core := 0, lane := e.lane, op := .prefetch, space := .llc, pa := pa, va := e.va, size := 1, fill := true }
               (keepTr (curTeam t).core tr t)
           else t
         | _ => t) (keepWindow w.toNat (readyWindow s g w.toNat) (issued s)) },
     { regs := regs, ok := vecFits x [one a] s g ∧ ¬able, after := keepWindow w.toNat (readyWindow s g w.toNat) (issued s) }]
  | _ => []

end Sys2Proof.Claims
end

