-- ==== Sys2Proof/Claims/Tasks.lean ====
section
/-! DEFINITION. The cases of the copy, transaction-barrier, delivery, message, barrier, task and supervisor words (R229,
R271 to R289, R387 to R401, R421 to R444). -/

namespace Sys2Proof.Claims

open Sys2Proof.Machine

/-- A uniform fault's address, kept for every active lane. -/
def everyLane (g : Group) (va : Dword) : List (Nat × Dword) := (lanesOf g.active).map fun l => (l, va)

/-- ALIGN, and ACCESS with its record, of a uniform word at one address (R290, R403). -/
def alignTrap (s : State) (g : Group) (va : Dword) : State :=
  takeTrap s.cur .align g.pc g.active (keepAddrs s.cur g.active (everyLane g va) (unwant s))
def accessTrap (s : State) (g : Group) (r : Reason) (va : Dword) : State :=
  deliver s.cur (access r g.active va) g.pc (everyLane g va) (unwant s)

/-- A range of the team's scratchpad. -/
def inScratch (s : State) (off n : Nat) : Bool := off + n ≤ (curTeam s).scr * 65536

/-! R421 to R425: per-lane copies. -/

/-- A lane of `cpa` has its three addresses in order (R421). -/
def copyLaneOk (s : State) (g : Group) (d a z l : Nat) : Bool :=
  (g.v a l).toNat % z == 0 && (g.v d l).toNat % z == 0 && inScratch s (g.v d l).toNat z

/-- The copies that `cpa` starts: one number for the instruction, then one for each active lane (R421, R422). -/
def startCopies (s : State) (g : Group) (d a : Nat) (w : BitVec 3) (z : Nat) (out : Bool) : State :=
  let ls := lanesOf g.active
  let n := s.mem.nextId
  let t := issued s
  onCur (fun h => h.setTag g.cpCur.toNat { h.tagOf g.cpCur.toNat with count := (h.tagOf g.cpCur.toNat).count + 1 })
    { t with
      copies := (ls.zip (List.range ls.length)).foldl (fun m e => Maps.set m (n + 1 + e.2) (laneCopy g d a w z out s.cur n e.1)) t.copies
      mem := { t.mem with nextId := n + 1 + ls.length } }

/-- A byte of `cpstat`: the count up to 63, the failure bit, the current tag (R425). -/
def tagByte (g : Group) (t : Nat) : Nat :=
  min 63 (g.tagOf t).count + (if (g.tagOf t).fail then 64 else 0) + (if g.cpCur.toNat = t then 128 else 0)

/-- Everything that a bulk copy's issue checks holds (R426 to R428, R431). -/
def bulkOk (quant : Bool) (s : State) (g : Group) (base : Dword) (desc bar : Nat) : Bool :=
  let d := Maps.readBytes (curTeam s).scratch desc 192
  desc % 64 == 0 && bar % 16 == 0 && inScratch s desc 192 && inScratch s bar 16 && descOk quant d base.toNat &&
    (descRanges quant d).all (fun r => inScratch s r.1 r.2) && (vaTag base == 0 || (vaTag base == 0xFF && g.sup))

def bulkCases (quant : Bool) (d a b : BitVec 6) (s : State) (g : Group) : List Case :=
  let base := g.s64 d.toNat
  let desc := (g.s a.toNat).toNat
  let bar := (g.s b.toNat).toNat
  let t := curTeam s
  let regs := sclPair d ++ [.scl a.toNat, .scl b.toNat]
  let free := decide ((s.bulks.filter fun e => e.2.core == t.core).length < 64) && !outstanding s s.cur (fun r => r.space == .remote (handleOf s.cur))
  let u := issued s
  [{ regs := regs, ok := free && bulkOk quant s g base desc bar
     after := { u with
       mem := { u.mem with nextId := s.mem.nextId + 1 }
       bulks := Maps.set s.bulks s.mem.nextId {
         group := s.cur, slot := t.slot, core := t.core, team := handleOf s.cur, gen := t.gen, ctx := t.ctx, region := t.region
         die := t.die, quant := quant, gbase := base, bar := bar, desc := Maps.readBytes t.scratch desc 192
         tag := g.tag.toNat % 4096, sup := g.sup, mask := g.active, pc := g.pc
         post := (Maps.get { bits := 0, addr := 0, ctx := 0, posted := 0, st := .bad } (dieAt s t.die).cards t.slot).posted } } },
   { regs := regs, ok := !free, after := keptBack s },
   { regs := regs, ok := free && desc % 64 == 0 && inScratch s desc 192 && !descOk quant (Maps.readBytes t.scratch desc 192) base.toNat
     after := trapped s .illegal g.active }]

/-- The words of CPA and BULK. -/
def copyCases (i : Instr) (s : State) (g : Group) : List Case :=
  match i with
  | .cpa _ x d a w z r =>
    let size := 4 * 2 ^ z.toNat
    let win := g.window w.toNat
    let regs := vecRegs x [one d, (a, 2, 1)] g ++ [.win w.toNat]
    let room := decide ((g.tagOf g.cpCur.toNat).count < 63)
    let ok := room && vecFits x [one d, (a, 2, 1)] s g && (g.active == 0 || (win.bound && win.tag != 0xFD)) &&
      (lanesOf g.active).all (copyLaneOk s g (ea x d g) (ea x a g) size)
    [{ regs := regs, ok := ok && g.active == 0, after := issued s },
     { regs := regs, ok := ok && g.active != 0, after := startCopies s g (ea x d g) (ea x a g) w size (r == 1) },
     { regs := regs, ok := !room, after := keptBack s }]
  | .cpseal _ =>
    let n := (g.cpCur.toNat + 1) % 4
    [{ ok := (g.tagOf n).count = 0, after := onward s (({ g with cpCur := BitVec.ofNat 2 n } : Group).setTag n {}) },
     { ok := (g.tagOf n).count ≠ 0, after := keptBack s }]
  | .cpwait _ t =>
    let c := g.tagOf t.toNat
    [{ ok := c.count ≠ 0, after := keptBack s },
     { ok := c.count = 0 ∧ c.fail = false, after := onward s (g.setTag t.toNat {}) },
     { ok := c.count = 0 ∧ c.fail = true ∧ mayTake g
       after := takenNext s { cause := .copyfault, mask := if c.lost then g.active else c.fmask } (onward s (g.setTag t.toNat {})) }]
  | .cpstat _ d =>
    [{ regs := [.scl d.toNat]
       after := onward s (g.setS d.toNat (BitVec.ofNat 32 (tagByte g 0 + tagByte g 1 * 2 ^ 8 + tagByte g 2 * 2 ^ 16 + tagByte g 3 * 2 ^ 24))) }]
  | .cpbulk _ d a b => bulkCases false d a b s g
  | .cpq _ d a b => bulkCases true d a b s g
  | _ => []

/-! R432, R433: transaction barriers. -/

/-- A barrier of the team's scratchpad replaced, and flipped where both its counts are zero. -/
def withBar (s : State) (o : Nat) (b : TBar) : State :=
  let f := if b.arr = 0 ∧ b.sect = 0 then { b with lfault := b.fault, fault := false, phase := (b.phase + 1) % 16, arr := b.reset } else b
  onCurTeam (fun t => { t with scratch := Maps.writeNat t.scratch o 16 f.num }) (issued s)

/-- The faults that every TBAR word takes. -/
def barFaults (regs : List RegId) (s : State) (g : Group) (o : Nat) : List Case :=
  [{ regs := regs, ok := o % 16 ≠ 0, after := alignTrap s g (scrVa o) },
   { regs := regs, ok := o % 16 = 0 ∧ inScratch s o 16 = false, after := accessTrap s g .scrbound (scrVa o) }]

/-- The words of TBAR. -/
def tbarCases (i : Instr) (s : State) (g : Group) : List Case :=
  let at_ (a : BitVec 6) : Nat := (g.s a.toNat).toNat
  let here (o : Nat) : Bool := o % 16 == 0 && inScratch s o 16
  let bar (o : Nat) : TBar := tbarAt (curTeam s) o
  let count (b : BitVec 6) : Nat := if (g.s b.toNat).toNat % 2 ^ 20 = 0 then 1 else (g.s b.toNat).toNat % 2 ^ 20
  let regs (a b : BitVec 6) : List RegId := [.scl a.toNat, .scl b.toNat]
  match i with
  | .tbinit _ a b =>
    { regs := regs a b, ok := here (at_ a)
      after := withBar s (at_ a) { arr := count b, reset := count b, sect := 0, phase := 0, fault := false, lfault := false, arrovf := false } } ::
      barFaults (regs a b) s g (at_ a)
  | .tbarrive _ a b =>
    let v := bar (at_ a)
    let out := awaited s true
    { regs := regs a b, ok := out, after := keptBack s } ::
    { regs := regs a b, ok := !out && here (at_ a)
      after := withBar s (at_ a) (if v.arr < count b then { v with arr := 0, arrovf := true } else { v with arr := v.arr - count b }) } ::
      (barFaults (regs a b) s g (at_ a)).map fun k => { k with ok := !out && k.ok }
  | .tbexpect _ a b =>
    let v := bar (at_ a)
    { regs := regs a b, ok := here (at_ a), after := withBar s (at_ a) { v with sect := (v.sect + (g.s b.toNat).toNat) % 2 ^ 32 } } ::
      barFaults (regs a b) s g (at_ a)
  | .tbwait _ a b =>
    let v := bar (at_ a)
    let w := (g.s b.toNat).toNat % 16
    [{ regs := regs a b, ok := here (at_ a) && v.phase == w, after := keptBack s },
     { regs := regs a b, ok := here (at_ a) && v.phase != w && !(v.phase == (w + 1) % 16 && v.lfault), after := issued s },
     { regs := regs a b, ok := here (at_ a) ∧ v.phase ≠ w ∧ v.phase = (w + 1) % 16 ∧ v.lfault ∧ mayTake g
       after := takenNext s { cause := .copyfault, mask := g.active } (issued s) }] ++ barFaults (regs a b) s g (at_ a)
  | .tbtest _ d a b =>
    let v := bar (at_ a)
    { regs := .scl d.toNat :: regs a b, ok := here (at_ a)
      after := onward s (g.setS d.toNat (BitVec.ofNat 32 ((if v.phase ≠ (g.s b.toNat).toNat % 16 then 1 else 0) + v.phase * 2 ^ 4 +
        (if v.lfault then 2 ^ 8 else 0) + (if v.arrovf then 2 ^ 9 else 0)))) } :: barFaults (.scl d.toNat :: regs a b) s g (at_ a)
  | _ => []

/-! R271 to R289, R438 to R444: delivery and messages. -/

/-- The mask of `n` awaiting bits from `r`. -/
def armMask (r n : Nat) : BitVec 256 := BitVec.ofNat 256 ((2 ^ n - 1) * 2 ^ r)

/-- The capability that `mkcap` makes of S[A]: the team's handle and GEN put in, the check code last (R273 to R275, R439). -/
def capOf (s : State) (a : Word) : Dword :=
  let t := curTeam s
  let body := BitVec.ofNat 64 (a.toNat / 2 ^ 14 * 2 ^ 14 + handleOf s.cur % 2 ^ 20 * 2 ^ 32 + tltGen s t.ctx (handleOf s.cur) % 2 ^ 12 * 2 ^ 52)
  body + BitVec.ofNat 64 (checkCode (ctxCapkey s t.ctx) body)

/-- The team and its registers as `mkcap` checks them (R439). -/
def capOk (s : State) (c : Dword) : Bool :=
  rncValid (rncWidth c) (rncLmode c) (rncGroup c) (rncReg c) && decide (rncGroup c < (curTeam s).ngroups) &&
    decide (rncReg c + rncRegs (rncWidth c) ≤ (curTeam s).regs)

/-- The word that ends the wait of a `.t` send, which the status has come back to (R279): OVERWRITE and CAPABILITY are raised at the chain
itself, in the sending lanes that are active or, where none is, in those of a uniform instruction (R290, R403). -/
def answeredCases (mask : Word) (code : Nat) (s : State) (g : Group) : List Case :=
  let end_ : State → State := onCur fun h => { h with waiting := none, tileSrc := none }
  let trap (c : Cause) : State := takeTrap s.cur c g.pc (if mask = 0 then g.uniformMask else mask) (end_ (unwant s))
  [{ ok := code ≠ 3 ∧ code ≠ 4, after := end_ (issued s) },
   { ok := code = 3, after := trap .overwrite },
   { ok := code = 4, after := trap .capability }]

/-- A send on its way, its status register pending until it is answered (R277, R278, R440). The chain of a `.t` send waits for that, with its
words' sources kept (R279, R314). -/
def sendCases (rel tr x : Bool) (n : BitVec 6) (af : BitVec 7) (k : BitVec 5) (s : State) (g : Group) : List Case :=
  let i := n.toNat
  let rnc := g.s64 i
  let tgt := (g.s (i + 2)).toNat
  let v : Operand := (af, rncRegs (rncWidth rnc), 1)
  let regs := vecRegs x [v] g ++ [.scl i, .scl (i + 1), .scl (i + 2)]
  let id := s.mem.nextId
  let remote := otherPackage s (bitN tgt 31) (tgt % 2 ^ 10)
  let sd : Send := {
    group := s.cur, msg := false, sreg := i + 2, trap := tr, rel := rel, rnc := rnc, k := k.toNat, lmask := g.active
    words := sendWords g (ea x af g) (rncWidth rnc) (rncLmode rnc) k.toNat, bytes := [], ctx := (curTeam s).ctx, remote := remote
    scope := sendScope s rnc remote, mask := sendLanes (rncLmode rnc) k.toNat &&& g.active, pc := g.pc, inp := (curTeam s).core }
  let held := rel && awaited s true
  let sent (t : State) : State := { t with mem := { t.mem with nextId := id + 1 }, sends := Maps.set s.sends id sd }
  let go : Bool := !held && vecFits x [v] s g
  match tr, g.waiting with
  | true, some (.sendDone code) => answeredCases sd.mask code s g
  | _, _ =>
    [{ regs := regs, ok := go && !tr, after := onCur (fun h => { h with pending := h.pending ++ [(.scl (i + 2), id)] }) (sent (issued s)) },
     { regs := regs, ok := go && tr
       after := onCur (fun h => { h with pending := h.pending ++ [(.scl (i + 2), id)], waiting := some (.send id), tileSrc := some (g.vregs, g.sregs) })
         (sent (unwant s)) },
     { regs := regs, ok := held, after := keptBack s },
     { regs := regs, ok := !held && decide (allot s < ea x af g + rncRegs (rncWidth rnc)), after := trapped s .regbound g.active }]

/-- The words of DELIV and MSG. -/
def deliveryCases (i : Instr) (s : State) (g : Group) : List Case :=
  let ixRegs (x : Bool) : List RegId := if x then [.ix] else []
  match i with
  | .rarm _ x a n =>
    let r := ea x a g
    let busy := (List.range (n.toNat + 1)).any fun j => g.pending.any fun p => p.1 == .vec (r + j)
    [{ regs := ixRegs x, ok := !busy && decide (r + n.toNat + 1 ≤ allot s), after := onward s { g with await := g.await ||| armMask r (n.toNat + 1) } },
     { regs := ixRegs x, ok := busy, after := keptBack s },
     { regs := ixRegs x, ok := !busy && decide (allot s < r + n.toNat + 1), after := trapped s .regbound g.active }]
  | .rdisarm _ x a n =>
    let r := ea x a g
    [{ regs := ixRegs x, ok := r + n.toNat + 1 ≤ allot s, after := onward s { g with await := g.await &&& ~~~armMask r (n.toNat + 1) } },
     { regs := ixRegs x, ok := allot s < r + n.toNat + 1, after := trapped s .regbound g.active }]
  | .rtest _ x d a =>
    let r := ea x a g
    [{ regs := .scl d.toNat :: ixRegs x, ok := r + 1 ≤ allot s
       after := onward s (g.setS d.toNat (maskOf fun j => decide (r + j < allot s) && g.await.getLsbD (r + j))) },
     { regs := .scl d.toNat :: ixRegs x, ok := allot s < r + 1, after := trapped s .regbound g.active }]
  | .rtestCount _ d => [{ regs := [.scl d.toNat], after := onward s { g.setS d.toNat g.ovwc with ovwc := 0 } }]
  | .mkcap _ d a =>
    let c := capOf s (g.s a.toNat)
    [{ regs := .scl a.toNat :: sclPair d, ok := capOk s c, after := onward s (g.setS64 d.toNat c) },
     { regs := .scl a.toNat :: sclPair d, ok := !capOk s c, after := trapped s .capability g.active }]
  | .rrevoke _ d =>
    let c := (curTeam s).ctx
    let h := handleOf s.cur
    let gen := tltGen s c h + 1
    [{ regs := [.scl d.toNat], ok := gen < 0xFFF
       after := onCur (fun k => k.setS d.toNat 0)
         (onMem (fun m => putNat m (tltAddr s c h) 16 (tltCore s c h + gen * 2 ^ 8 + (if tltMove s c h then 2 ^ 61 else 0) +
           tltState s c h * 2 ^ 62 + tltTsa s c h * 2 ^ 64)) (issued s)) },
     { regs := [.scl d.toNat], ok := 0xFFF ≤ gen, after := onward s (g.setS d.toNat 1) }]
  | .rsend _ x d a k => sendCases false false x d a k s g
  | .rsendT _ x d a k => sendCases false true x d a k s g
  | .rsendRel _ x d a k => sendCases true false x d a k s g
  | .rsendRelT _ x d a k => sendCases true true x d a k s g
  | .mring _ r a b =>
    let base := (g.s a.toNat).toNat
    let cfg := (g.s b.toNat).toNat
    let n := cfg % 16
    let slot := cfg / 16 % 16
    let good := decide (2 ≤ n ∧ n ≤ 12)
    let fits := !good || inScratch s base (2 ^ n * (16 * (slot + 1)))
    let regs : List RegId := [.scl a.toNat, .scl b.toNat]
    let old := ringOf (curTeam s) r.toNat
    let put (v : Ring) (t : State) : State := onCurTeam (fun m => { m with rings := Maps.set m.rings r.toNat v }) t
    [{ regs := regs, ok := base % 64 == 0 && fits && old.taken.isEmpty
       after := put (if good then { en := true, base := base, log := n, slot := slot } else {}) (issued s) },
     { regs := regs, ok := base % 64 == 0 && fits && !old.taken.isEmpty, after := holdIssue (put { old with en := false } (unwant s)) },
     { regs := regs, ok := base % 64 ≠ 0, after := alignTrap s g (scrVa base) },
     { regs := regs, ok := base % 64 == 0 && !fits, after := accessTrap s g .scrbound (scrVa base) }]
  | .msend _ d a b =>
    let l := (g.s d.toNat).toNat
    let n := l % 512
    let off := (g.s b.toNat).toNat
    let regs := .scl d.toNat :: .scl b.toNat :: sclPair a
    let held := outstanding s s.cur fun r => r.space == .remote (handleOf s.cur)
    let id := s.mem.nextId
    let u := issued s
    [{ regs := regs, ok := !held && off % 16 == 0 && inScratch s off n
       after := onCur (fun h => { h with pending := h.pending ++ [(.scl d.toNat, id)] })
         { u with
           mem := { u.mem with nextId := id + 1 }
           sends := Maps.set s.sends id {
             group := s.cur, msg := true, sreg := d.toNat, trap := false, rel := false, rnc := g.s64 a.toNat, k := 0, lmask := g.active
             words := [], bytes := Maps.readBytes (curTeam s).scratch off n, ctx := (curTeam s).ctx
             remote := otherPackage s (bitN l 31) (l / 2 ^ 16 % 2 ^ 10), scope := 0, mask := g.active, pc := g.pc, inp := (curTeam s).core } } },
     { regs := regs, ok := held, after := keptBack s },
     { regs := regs, ok := !held && off % 16 != 0, after := alignTrap s g (scrVa off) },
     { regs := regs, ok := !held && off % 16 == 0 && !inScratch s off n, after := accessTrap s g .scrbound (scrVa off) }]
  | .mwait _ d r =>
    let old := ringOf (curTeam s) r.toNat
    let there := old.en && decide (old.next < old.head)
    let left := old.leave s.cur
    let put (v : Ring) (t : State) : State := onCurTeam (fun m => { m with rings := Maps.set m.rings r.toNat v }) t
    [{ regs := [.scl d.toNat], ok := there
       after := onCur (fun h => h.setS d.toNat (BitVec.ofNat 32 (old.base + 16 * (old.slot + 1) * (old.next % 2 ^ old.log))))
         (put { left with next := old.next + 1, taken := left.taken ++ [(old.next, s.cur)] } (issued s)) },
     { regs := [.scl d.toNat], ok := !there, after := holdIssue (put left (unwant s)) }]
  | _ => []

/-! R229, R387 to R394: barriers and tasks. -/

/-- The group's arrival in the current phase (R387). -/
def arrived (s : State) (req : Option Word) : State :=
  onCurTeam (fun t => { t with
      barIn := t.barIn ||| BitVec.ofNat 32 (2 ^ (s.cur % 32))
      reallocs := match req with
        | some r => Maps.set t.reallocs (s.cur % 32) r
        | none => t.reallocs })
    (turns s fun h => { h with arrived := some (curTeam s).barPhase })

/-- The barrier's next word: settled once the group waits for the phase. -/
def waits (s : State) (w : Wait) (t : State) : State := settleBarrier (s.cur / 32) (onCur (fun h => { h with waiting := some w }) t)

/-- The die that a `post` goes to (R391). -/
def postDie (s : State) (e : BitVec 2) : Nat :=
  let own := (curTeam s).core / 24
  if e = 0 then own else if e = 1 then (own + 1) % 8 else (own + 7) % 8

/-- The words of BAR and TASK. -/
def taskCases (i : Instr) (s : State) (g : Group) : List Case :=
  let t := curTeam s
  let in_ := t.barIn.getLsbD (s.cur % 32)
  let held (all : Bool) : Bool := in_ || (all && awaited s true)
  match i with
  | .bar _ => [{ ok := !held false, after := waits s (.barrier t.barPhase false) (arrived s none) }, { ok := held false, after := keptBack s }]
  | .barPub _ => [{ ok := !held true, after := waits s (.barrier t.barPhase true) (arrived s none) }, { ok := held true, after := keptBack s }]
  | .barRealloc _ d a =>
    [{ regs := [.scl a.toNat, .scl d.toNat], ok := !held true, after := waits s (.realloc d.toNat) (arrived s (some (g.s a.toNat))) },
     { regs := [.scl a.toNat, .scl d.toNat], ok := held true, after := keptBack s }]
  | .barArrive _ => [{ ok := !in_, after := settleBarrier (s.cur / 32) (arrived s none) }, { ok := in_, after := keptBack s }]
  | .barWait _ =>
    [{ ok := g.arrived = some t.barPhase, after := turns s fun h => { h with waiting := some (.barrier t.barPhase false) } },
     { ok := g.arrived ≠ some t.barPhase, after := issued s }]
  | .post _ e a =>
    let va := g.s64 a.toNat
    let d := postDie s e
    let r := structRead s g va 64
    let full := storeFull s d
    let u := onDie d (fun x => { x with posts := x.posts ++ [{
      rank := groupRank s s.cur d, bits := lineOf r.2, addr := va, ctx := t.ctx, region := some t.region, held := full, group := some s.cur }] }) (issued s)
    [{ regs := sclPair a, ok := !structBusy s g va && r.1.isNone && !full, after := u },
     { regs := sclPair a, ok := !structBusy s g va && r.1.isNone && full, after := onCur (fun h => { h with waiting := some .post }) u },
     { regs := sclPair a, ok := structBusy s g va, after := keptBack s },
     { regs := sclPair a, ok := !structBusy s g va && va.toNat % 64 != 0, after := alignTrap s g va }]
  | .lgrow _ d a => match Maps.find (dieAt s t.die).cards t.slot with
    | none => []
    | some c =>
      let n := c.count + (g.s a.toNat).toNat
      -- a launch whose unissued indices are discarded grows by none (R302)
      let put (v : Nat) (st : Word) : State := onCur (fun h => h.setS d.toNat st)
        (onDie t.die (fun x => { x with cards := Maps.set x.cards t.slot { c with count := if c.lost then c.count else v } }) (issued s))
      let regs : List RegId := [.scl a.toNat, .scl d.toNat]
      [{ regs := regs, ok := c.noGrow = true, after := put c.count 1 },
       { regs := regs, ok := c.noGrow = false ∧ 0xFFFFFFFF < n, after := put 0xFFFFFFFF 2 },
       { regs := regs, ok := c.noGrow = false ∧ n ≤ 0xFFFFFFFF, after := put n 0 }]
  | .evpost _ a =>
    let d := t.core / 24
    let regs := (List.range 4).map fun j => RegId.scl (a.toNat + j)
    let bits := (g.s64 (a.toNat + 2) ++ g.s64 a.toNat)
    [{ regs := regs, ok := (dieAt s d).events.length < 1024
       after := onDie d (fun x => { x with events := x.events ++ [{
         bits := bits &&& 0xFFFFFFFFFFFFFFFFFFFFFFFF07C0FFFF#128 ||| 0x20000000#128, ctx := t.ctx, region := t.region }] }) (issued s) },
     { regs := regs, ok := 1024 ≤ (dieAt s d).events.length, after := keptBack s }]
  | .depdec _ a =>
    let n := (g.s a.toNat).toNat
    [{ regs := [.scl a.toNat]
       after := onCur (fun h => { h with waiting := some .counter }) (onDie (n / 4096 % 8) (fun x => { x with ctrOps := x.ctrOps ++ [{
         idx := n % 4096, kind := .dec, src := .depdec s.cur t.ctx t.region, rank := groupRank s s.cur (n / 4096 % 8) }] }) (issued s)) }]
  | .depset _ a b =>
    let n := (g.s a.toNat).toNat
    [{ regs := [.scl a.toNat, .scl b.toNat]
       after := onDie (n / 4096 % 8) (fun x => { x with ctrOps := x.ctrOps ++ [{
         idx := n % 4096, kind := .set ((g.s b.toNat).toNat % 2 ^ 20), src := .depdec s.cur t.ctx t.region
         rank := groupRank s s.cur (n / 4096 % 8) }] }) (issued s) }]
  | _ => []

/-! R395 to R401: supervisor words. -/

/-- The pages that a shootdown covers (R396). -/
def shotRange (base len : Dword) : Nat × Nat :=
  if len = 0 then (0, 2 ^ 56)
  else (vaLow base / 2 ^ 16 * 2 ^ 16, min (2 ^ 56) ((vaLow base + len.toNat + 2 ^ 16 - 1) / 2 ^ 16 * 2 ^ 16))

/-- The lanes that `pgmap` cannot map, and the state with the others mapped in lane order (R401). -/
def mapLanes (s : State) (g : Group) (t : State) : Word × State :=
  (lanesOf g.active).foldl (fun acc l =>
    let va := Maps.get 0 g.faddr l
    if va = 0 then acc
    else
      let r := touchMap (curTeam t) va (fun n => groupRecord acc.2 s.cur 0 .poollow (BitVec.ofNat 32 (2 ^ l)) g.pc va n) acc.2
      (if r.1 then acc.1 else acc.1 ||| BitVec.ofNat 32 (2 ^ l), r.2)) (0, t)

/-- The words of SYSM in supervisor mode. -/
def supervisorCases (i : Instr) (s : State) (g : Group) : List Case :=
  match i with
  | .tlbinv _ d a b =>
    let base := g.s64 d.toNat
    let w := g.s b.toNat
    let r := shotRange base (g.s64 a.toNat)
    let t := shootdown (w.getLsbD 16) (w.toNat % 2 ^ 16) (vaTag base) r.1 r.2 (w.getLsbD 17) (issued s)
    let regs := sclPair d ++ sclPair a ++ [.scl b.toNat]
    let good := vaTag base == 0 || vaTag base == 0xFF
    -- the requests and the weight loads under way, which the word waits for (R187)
    let reqs := s.mem.net.map (·.1)
    let loads := s.teams.flatMap fun e => (Maps.keys e.2.wslots fun _ v => v.loading).map fun n => (e.1, n)
    [{ regs := regs, ok := good && reqs.isEmpty && loads.isEmpty, after := t },
     { regs := regs, ok := good && !(reqs.isEmpty && loads.isEmpty), after := onCur (fun h => { h with waiting := some (.drain reqs loads) }) t },
     { regs := regs, ok := !good, after := accessTrap s g .noncanon base }]
  | .winv _ d a =>
    let lo := (g.s64 d.toNat).toNat
    let len := (g.s64 a.toNat).toNat
    [{ regs := sclPair d ++ sclPair a
       after := unliveWindows (fun w => len == 0 || (decide (w.frame.toNat < lo + len) && decide (lo < w.frame.toNat + w.limit.toNat))) (issued s) }]
  | .hmask _ k a b =>
    let u := turns s fun h => { h with waiting := some (.domain b.toNat) }
    [{ regs := .scl b.toNat :: (List.range 4).map fun j => .scl (a.toNat + j)
       after := { u with mem := { u.mem with domQueue := u.mem.domQueue ++
         [{ k := k.toNat, idw := g.s64 a.toNat, hmask := g.s64 (a.toNat + 2), phase := 0, group := some s.cur }] } } }]
  | .evict _ d a b =>
    let v := (g.s a.toNat).toNat
    let h := v % 2 ^ 20
    let c := v / 2 ^ 20
    let w := (g.s64 b.toNat).toNat
    let restore := bitN w 0
    let tsa := w / 2 * 2
    let regs := .scl a.toNat :: .scl d.toNat :: sclPair b
    let busy := !restore && h != s.cur / 32 && tltState s c h == 1 && (teamAt s h).evicting.isSome
    let fails := evictFailures s (s.cur / 32) c h restore tsa
    [{ regs := regs, ok := busy, after := keptBack s },
     { regs := regs, ok := !busy && fails.length == 1, after := onward s (g.setS d.toNat (BitVec.ofNat 32 (fails.getD 0 0))) },
     { regs := regs, ok := !busy && decide (1 < fails.length)
       after := { onward s (g.setS d.toNat (BitVec.ofNat 32 (fails.getD (Config.freeNat s.draws % fails.length) 0))) with draws := s.draws + 1 } },
     { regs := regs, ok := !busy && fails.isEmpty && !restore
       after := onCur (fun k => { k with waiting := some (.evict d.toNat) }) (onTeam h (fun t => { t with evicting := some (tsa, s.cur) }) (issued s)) },
     { regs := regs, ok := !busy && fails.isEmpty && restore
       after :=
         let at_ := tltTsa s c h
         let l := natAt s.mem (at_ + 8) 4
         onCur (fun k => k.setS d.toNat 0) (onDie (bitsN l 31 29) (fun x => { x with cards := Maps.modify x.cards (bitsN l 11 0) fun k =>
           if (k.restores.any fun r => r.1 == h) then k else { k with restores := k.restores ++ [(h, at_)] } }) (issued s)) }]
  | .snap _ => [{ after := { issued s with io := { s.io with triggers := s.io.triggers + 1 } } }]
  | .pgmap _ d =>
    let r := mapLanes s g (issued s)
    [{ regs := [.scl d.toNat], after := onCur (fun h => h.setS d.toNat r.1) r.2 }]
  | _ => []

/-- SYSM: PRIV in user mode (R395). -/
def systemCases (i : Instr) (s : State) (g : Group) : List Case :=
  (supervisorCases i s g).flatMap fun k =>
    [{ k with ok := g.sup && k.ok }, { regs := k.regs, ok := !g.sup && k.ok, after := trapped s .priv g.active }]

end Sys2Proof.Claims
end

