-- ==== Sys2Proof/Claims/Units.lean ====
section
/-! DEFINITION. The cases of the tiered, matrix, transform, tile, mesh and ray words (R257 to R270, R417 to R420, R445 to
R475). -/

namespace Sys2Proof.Claims

open Sys2Proof.Machine

/-! R262 to R266, R417 to R420: tiered loads and samples. -/

/-- The lanes of a tiered word, where each of them finds its level and page. -/
def judged (g : Group) (f : Nat → Except TierFault (Trd × TierLane)) : Option (List (Trd × TierLane)) :=
  (lanesOf g.active).foldr (fun l acc => match f l, acc with
    | .ok x, some xs => some (x :: xs)
    | _, _ => none) (some [])

/-- What the lanes of a tiered word leave: the L1 dropped by the acquire of the residency reads (R235), then in each lane
the residency words kept, the data asked for, the status written, and the flue records made (R264 to R267). -/
def tierAfter (stat : Nat) (run : Trd → TierLane → State → State) (xs : List (Trd × TierLane)) (s : State) : State :=
  let core := (curTeam s).core
  if xs.isEmpty then s
  else xs.foldl (fun t e =>
    let t := onCore core (fun c => { c with resCache := e.2.words.foldl (fun m w => Maps.set m w.1 w.2) c.resCache }) t
    let t := onCur (fun h => h.setLane stat e.2.lane e.2.stat) (run e.1 e.2 t)
    e.2.flues.foldl (fun t f => flue e.1 f t) t) (dropL1 core s)

/-- A tiered word whose lanes are all served, or whose failing lanes all find no resident page (FLOOR, R263). -/
def tierCases (regs : List RegId) (fits : Bool) (z stat : Nat) (f : Nat → Except TierFault (Trd × TierLane))
    (run : Trd → TierLane → State → State) (s : State) (g : Group) : List Case :=
  let low := lowLane g.active
  (match judged g f with
   | none => []
   | some xs => [{ regs := regs, ok := fits && Served z (xs.flatMap fun e => e.2.data), after := tierAfter stat run xs (issued s) }]) ++
  match f low with
  | .error (va, .inlane .floor rid) =>
    [{ regs := regs, ok := fits && g.active == BitVec.ofNat 32 (2 ^ low)
       after := deliver s.cur { cause := .floor, mask := g.active, reason := .floor, addr := va, info := BitVec.ofNat 32 rid } g.pc
         [(low, va)] (unwant s) }]
  | _ => []

/-- A sample's filter: 0 point, 1 bilinear, 2 trilinear. -/
def sampleCases (filter : Nat) (x : Bool) (d a : BitVec 7) (w : BitVec 3) (v u : BitVec 2) (s : State) (g : Group) : List Case :=
  let r := ea x a g
  let os : List Operand := [(d, 5, 4), (a, 3, 1)]
  tierCases (vecRegs x os g ++ [.win w.toNat]) (vecFits x os s g) 1 (ea x d g + 4)
    (fun l => smpLane s g w.toNat l filter u.toNat v.toNat (g.v r l) (g.v (r + 1) l) (g.v (r + 2) l)) (runSample (ea x d g)) s g

/-- The residency words of the lanes, where each finds its page (R420). -/
def pagesOf (s : State) (g : Group) (x : Bool) (a : BitVec 7) (w : BitVec 3) (clr : Bool) (acc : Acc) : Option (List (Nat × LaneAt × Nat)) :=
  let r := ea x a g
  (lanesOf g.active).foldr (fun l done => match residLane s g w.toNat clr acc (g.v r l) (g.v (r + 1) l) (g.v (r + 2) l), done with
    | .ok y, some ys => some ((l, y) :: ys)
    | _, _ => none) (some [])

/-- A request at the home slice for each lane's bit (R262, R420). -/
def askPages (op : Nat → ReqOp) (regs : List RegId) (ps : List (Nat × LaneAt × Nat)) (s : State) : State :=
  ps.foldl (fun t e => match e.2.1.tg with
    | .phys pa _ => addLoad { group := 0, core := 0, lane := e.1, op := op e.2.2, space := .llc, pa := pa, va := e.2.1.va, size := 4 } regs t
    | _ => t) s

/-- A residency change on its way, or a load of a tiered word that `resfence` waits for (R262). -/
def changesOut (s : State) (g : Group) : Bool :=
  (s.mem.net.any fun e => e.2.live && e.2.group == s.cur && (match e.2.op with
    | .resbit _ _ => true
    | _ => false)) || (s.cores.any fun c => c.2.resInval.any fun e => e.2 == s.cur) || g.resWait.any fun id => (Maps.find s.mem.net id).isSome

/-- The words of TIER. -/
def tieredCases (i : Instr) (s : State) (g : Group) : List Case :=
  match i with
  | .ldt _ x z d a w =>
    let n := sizeRegs z
    let r := ea x a g
    let os : List Operand := [(d, n + 1, n), (a, 3, 1)]
    tierCases (vecRegs x os g ++ [.win w.toNat]) (vecFits x os s g) (sizeBytes z) (ea x d g + n)
      (fun l => ldtLane s g w.toNat l (sizeBytes z) (g.v r l) (g.v (r + 1) l) (g.v (r + 2) l))
      (fun _ tl t => tl.data.foldl (fun t e => (partsAt e.tg z (sizeBytes z)).foldl (fun t p => loadPart (tl.words.map (·.1)) (ea x d g) e p t) t) t) s g
  | .smpPoint _ x d a w v u => sampleCases 0 x d a w v u s g
  | .smpBilinear _ x d a w v u => sampleCases 1 x d a w v u s g
  | .smpTrilinear _ x d a w v u => sampleCases 2 x d a w v u s g
  | .resset _ x a w =>
    let os : List Operand := [(a, 3, 1)]
    let regs := vecRegs x os g ++ [.win w.toNat]
    { regs := regs, ok := awaited s true, after := keptBack s } ::
    match pagesOf s g x a w false .atomic with
    | none => []
    | some ps => [{ regs := regs, ok := !awaited s true && vecFits x os s g && Served 1 (ps.map (·.2.1)), after := askPages (.resbit true) [] ps (issued s) }]
  | .resclr _ x a w =>
    let os : List Operand := [(a, 3, 1)]
    match pagesOf s g x a w true .atomic with
    | none => []
    | some ps =>
      [{ regs := vecRegs x os g ++ [.win w.toNat], ok := vecFits x os s g && Served 1 (ps.map (·.2.1))
         after := askPages (.resbit false) [] ps (issued s) }]
  | .resq _ x d a w r =>
    let os : List Operand := [one d, (a, 3, 1)]
    match pagesOf s g x a w false .load with
    | none => []
    | some ps =>
      let t := askPages (fun b => .resq (ea x d g) b (r == 1)) [.vec (ea x d g)] ps (issued s)
      [{ regs := vecRegs x os g ++ [.win w.toNat], ok := vecFits x os s g && Served 1 (ps.map (·.2.1))
         after := if r = 1 ∧ g.active = 0 then onCore (curTeam s).core (fun c => { c with flueKeys := [] }) t else t }]
  | .resfence _ => [{ ok := !changesOut s g, after := onward s { g with resWait := [] } }, { ok := changesOut s g, after := keptBack s }]
  | _ => []

/-! R445 to R455: matrix operations and the weight buffer. -/

/-- The slot of a matrix word can be used with A's format (R445, R448). -/
def slotReady (s : State) (w : WSlot) (n afmt : Nat) : Bool :=
  w.held && !w.loading && !w.failed && w.valid && fmtPairs afmt w.fmt && errAt s.mem (.weight (s.cur / 32) n) != some .lasting

/-- A quarter operation with A from `os` registers and memory parts `las` (R446 to R449): done, its rows read once `pre` has kept what the
walks and reads found; kept for want of a token or of its slot's load; or ILLEGAL with no slot held. -/
def matrixWord (d : BitVec 7) (b : BitVec 6) (ovr : Bool) (os : List Operand) (las : List LaneAt) (busy shadow : Bool)
    (rows : State → Nat → List Byte) (pre : State → State) (s : State) (g : Group) : List Case :=
  let ctl := (g.s b.toNat).toNat
  let n := ctl % 512
  let afmt := ctl / 2 ^ 9 % 8
  let w := wslotOf (curTeam s) n
  let regs := vecRegs false ((d, 32, 32) :: os) g ++ [.scl b.toNat]
  let fits := vecFits false ((d, 32, 32) :: os) s g
  let token := hasToken s (curTeam s).core
  let loading := w.held && w.loading
  let u := pre (issued s)
  [{ regs := regs, ok := fits && token && !busy && slotReady s w n afmt && Served 16 las
     after := matEffect g d.toNat ovr afmt w shadow (rows u) (meetErr (.weight (s.cur / 32) n) false false u) },
   { regs := regs, ok := !loading && !token, after := holdIssue (onCur (fun h => { h with wants := true }) (unwant s)) },
   { regs := regs, ok := loading, after := keptBack s },
   { regs := regs, ok := fits && token && !busy && !w.held && !w.valid && Served 16 las, after := trapped s .illegal g.active }]

/-- A weight image's address and slot (R454). -/
def wbldCases (d a : BitVec 6) (s : State) (g : Group) : List Case :=
  let va := g.s64 d.toNat
  let n := (g.s a.toNat).toNat % 512
  let t := curTeam s
  let w := wslotOf t n
  let regs := sclPair d ++ [.scl a.toNat]
  let tg := checkTarget s t (resolve s t (!g.sup) va 64 .load) 64 .load
  let put (v : WSlot) (u : State) : State := onCurTeam (fun t => { t with wslots := Maps.put {} t.wslots n v }) u
  { regs := regs, ok := w.loading, after := keptBack s } ::
  match tg with
  | .phys pa tr =>
    let u := keepTr t.core tr (issued s)
    let good := !w.loading && va.toNat % 64 == 0 && (vaTag va == 0 || vaTag va == 0xFF)
    let half := if w.held then some w.half else pickHalf u t.core
    [{ regs := regs, ok := good && half.isNone, after := put { w with lstat := 2 } u },
     { regs := regs, ok := good && half.isSome
       after := put { held := true, loading := true, half := half.getD false, image := va, pa := pa, lstat := w.lstat } u }]
  | _ => []

/-- The words of MATRIX. -/
def matrixCases (i : Instr) (s : State) (g : Group) : List Case :=
  let rowLen (b : BitVec 6) : Nat := rowBytes ((g.s b.toNat).toNat / 2 ^ 9 % 8)
  match i with
  | .mmq _ d a b h =>
    let n := rowLen b / 4
    matrixWord d b (h == 1) [(a, n, 16)] [] false false (fun _ l => (List.range n).flatMap fun j => Maps.natLe (g.v (a.toNat + j) l).toNat 4) id s g
  | .mmqs _ d a b h =>
    let n := rowLen b
    let las := (lanesOf g.active).flatMap fun l => (List.range (n / 16)).map fun j =>
      scratchAt s l ((g.v a.toNat l).setWidth 64 + BitVec.ofNat 64 (16 * j)) 16
    matrixWord d b (h == 1) [one a] las (accessHeld s las) false (fun u l => Maps.readBytes (curTeam u).scratch (g.v a.toNat l).toNat n) id s g
  | .mmqg _ d a b h =>
    let n := rowLen b
    let lane (l : Nat) : List LaneAt := (List.range (n / 16)).map fun j => aPart s g l (g.v64 a.toNat l + BitVec.ofNat 64 (16 * j))
    let las := (lanesOf g.active).flatMap lane
    matrixWord d b (h == 1) [pair a] las (aBusy s las) true (fun u l => (lane l).flatMap fun p => aBytes u (curTeam s) p.tg) (aKeep (curTeam s) las) s g
  | .mtile _ d b h =>
    let n := b.toNat
    let t := curTeam s
    let o := (g.s n).toNat
    let block := Maps.readBytes t.scratch o 64
    let cols := cmdField block 26 1
    let here := o % 64 == 0 && inScratch s o 64
    let regs := (List.range (32 * (if here then min 4 cols else 1))).map (fun j => RegId.vec (d.toNat + j)) ++ [.scl n, .scl (n + 1)]
    let free := hasToken s t.core && !outstanding s s.cur fun r => r.space == .remote (s.cur / 32)
    let fresh := decide (g.waiting ≠ some .mtileDone) && free
    let good := fresh && here && cmdOk t block && d.toNat % 32 == 0 && decide (d.toNat + 32 * cols ≤ t.regs)
    let more := decide ((g.s (n + 1)).toNat < cmdSteps block)
    [{ regs := regs, ok := g.waiting = some .mtileDone, after := onward s { g with waiting := none, tileSrc := none } },
     { regs := regs, ok := good && !more, after := burnToken t.core (issued s) },
     { regs := regs, ok := good && more, after := burnToken t.core (onCur (fun h' => { h' with
         waiting := some (.mtile d.toNat n (h == 1) block), tileSrc := some (g.vregs, g.sregs) }) (unwant s)) },
     { regs := regs, ok := g.waiting ≠ some .mtileDone ∧ free = false, after := keptBack s },
     -- a range that starts out of its alignment is ILLEGAL whatever the block's own offset is (R292, R318)
     { regs := regs, ok := fresh && (d.toNat % 32 != 0 || (here && !cmdOk t block)), after := trapped s .illegal g.active },
     { regs := regs, ok := fresh && d.toNat % 32 == 0 && o % 64 != 0 && inScratch s o 64 && decide (d.toNat + 32 ≤ t.regs), after := alignTrap s g (scrVa o) }]
  | .wbld _ d a => wbldCases d a s g
  | .wbinv _ a =>
    let n := (g.s a.toNat).toNat % 512
    let w := wslotOf (curTeam s) n
    [{ regs := [.scl a.toNat], ok := !w.loading
       after := onCurTeam (fun t => { t with wslots := Maps.put {} t.wslots n { lstat := w.lstat } }) (issued s) },
     { regs := [.scl a.toNat], ok := w.loading, after := keptBack s }]
  | .wbstat _ d a =>
    let t := curTeam s
    let w := wslotOf t ((g.s a.toNat).toNat % 512)
    let free := freeSlots s t.core false + freeSlots s t.core true
    let bit (b : Bool) (k : Nat) : Nat := if b then 2 ^ k else 0
    [{ regs := [.scl a.toNat, .scl d.toNat]
       after := onward s (g.setS d.toNat (BitVec.ofNat 32 (bit w.valid 0 + bit w.held 1 + bit w.loading 2 + bit w.failed 3 + bit w.half 4 +
         w.fmt * 2 ^ 5 + w.lstat * 2 ^ 8 + free * 2 ^ 16))) }]
  | _ => []

/-! R457 to R463: the transform pipe. -/

/-- What a transform word is to write: registers written and read from D and A, whether it reads D, whether its mode is
one, its writes and events, and the steps of its lanes' generators. -/
structure XfmRule where
  x   : Bool
  d   : BitVec 7
  a   : BitVec 7
  nd  : Nat
  na  : Nat
  old : Bool := false
  ok  : Bool
  res : List (Nat × Word) × Num.Ev
  gen : Nat := 0

/-- The group's 32 × E elements of a type, in order of group index; an inactive lane's are zero (R457). -/
def elemsOf (g : Group) (a t : Nat) : List Nat :=
  let e := if t = 0 then 16 else 32
  (List.range (32 * e)).map fun i =>
    let l := i / e
    let j := i % e
    if !g.on l then 0 else if t = 0 then (g.v (a + j) l).toNat else (g.v (a + j / 2) l).toNat / 2 ^ (16 * (j % 2)) % 2 ^ 16

/-- Results of the active lanes alone, from register d on. -/
def laneResults (g : Group) (d : Nat) (f : Nat → List Word × Num.Ev) : List (Nat × Word) × Num.Ev :=
  ((lanesOf g.active).flatMap fun l => ((f l).1.zip (List.range (f l).1.length)).map fun w => ((d + w.2) * 32 + l, w.1),
   (lanesOf g.active).foldl (fun e l => e.add (f l).2) {})

/-- Items i × n to i × n + n - 1. -/
def chunk {α : Type} (n i : Nat) (xs : List α) : List α := (xs.drop (n * i)).take n

def xfmRule (i : Instr) (g : Group) : Option XfmRule :=
  let had (n : Nat) (x : Bool) (d a : BitVec 7) (m : BitVec 6) : XfmRule :=
    let t := m.toNat % 4
    let e := if t = 0 then 16 else 32
    let xs := elemsOf g (ea x a g) t
    let ys := (List.range (xs.length / n)).flatMap fun k => hadBlock (xfmFmt t) n (chunk n k xs)
    { x := x, d := d, a := a, nd := 16, na := 16, ok := m.toNat < 3
      res := laneResults g (ea x d g) fun l => (packWords (512 / e) ((chunk e l ys).map (·.1)) 16, evSum ((chunk e l ys).map (·.2))) }
  match i with
  | .had16 _ x d a m => some (had 16 x d a m)
  | .had32 _ x d a m => some (had 32 x d a m)
  | .had64 _ x d a m => some (had 64 x d a m)
  | .absmax _ x d a m =>
    let t := m.toNat % 4
    let n := 8 * 2 ^ (m.toNat / 4 % 4)
    let e := if t = 0 then 16 else 32
    let r := max 1 (e / n)
    let xs := elemsOf g (ea x a g) t
    some { x := x, d := d, a := a, nd := r, na := 16, ok := m.toNat % 4 != 3 && decide (m.toNat / 4 < 3)
           res := laneResults g (ea x d g) fun l => ((List.range r).map fun j =>
             let k := (l * e + j * n) / n
             if k < xs.length / n then absmaxBlock (xfmFmt t) (chunk n k xs) else 0, {}) }
  | .quant _ x d a m =>
    let t := m.toNat % 4
    let e := if t = 0 then 16 else 32
    let sr := m.getLsbD 3
    let xs (l : Nat) : List Nat := (List.range e).map (xfmElem g (ea x a g) t l)
    let sc (l : Nat) : Nat := (g.v (ea x d g) l).toNat
    some { x := x, d := d, a := a, nd := if m.getLsbD 2 then e / 8 + 1 else e / 4, na := 16, old := true, ok := quantOk m, gen := if sr then e else 0
           res := laneResults g (ea x d g) fun l =>
             if m.getLsbD 2 then
               let r := quantE2m1 sr g l (xfmFmt t) (sc l) (xs l)
               (packWords 4 r.2.1 (e / 8) ++ packWords 8 r.1 1, r.2.2)
             else
               let r := quantE4m3 sr g l (xfmFmt t) (sc l) (xs l)
               (packWords 8 (r.map (·.1)) (e / 4), evSum (r.map (·.2))) }
  | .bmenc _ x d a m =>
    let w := 4 * 2 ^ (m.toNat % 4)
    some { x := x, d := d, a := a, nd := 16 + 16 / w, na := 16, ok := bmOk m
           res := laneResults g (ea x d g) fun l =>
             let v := laneData g (ea x a g) l 16
             let es := (List.range (512 / w)).map fun j => v / 2 ^ (w * j) % 2 ^ w
             (packWords w (es.filter (· != 0)) 16 ++ packWords 1 (es.map fun e => if e = 0 then 0 else 1) (16 / w), {}) }
  | .bmdec _ x d a m =>
    let w := 4 * 2 ^ (m.toNat % 4)
    some { x := x, d := d, a := a, nd := 16, na := 16 + 16 / w, ok := bmOk m
           res := laneResults g (ea x d g) fun l =>
             let bits := laneData g (ea x a g + 16) l (16 / w)
             let packed := laneData g (ea x a g) l 16
             (packWords w ((List.range (512 / w)).map fun j =>
               if bits.testBit j then packed / 2 ^ (w * ((List.range j).filter bits.testBit).length) % 2 ^ w else 0) 16, {}) }
  | .pscan _ x d a m =>
    let c := m.toNat / 4 + 1
    let ys := scanAll (m.toNat % 4) ((List.range (32 * c)).map fun i => if g.on (i / c) then (g.v (ea x a g + i % c) (i / c)).toNat else 0)
    some { x := x, d := d, a := a, nd := c, na := c, ok := pscanOk m
           res := laneResults g (ea x d g) fun l => ((chunk c l ys).map fun y => BitVec.ofNat 32 y.1, evSum ((chunk c l ys).map (·.2))) }
  | .lztok _ x d a =>
    some { x := x, d := d, a := a, nd := 5, na := 16, old := true, ok := true
           res := laneResults g (ea x d g) fun l =>
             ((lzHeader ((List.range 16).flatMap fun j => Maps.natLe (g.v (ea x a g + j) l).toNat 4) (g.v (ea x d g) l).toNat).map (BitVec.ofNat 32), {}) }
  | _ => none

/-- The words of XFM: the sources are read at issue, the results come with the pipe's reply, and D waits for it (R456, R457). -/
def transformCases (i : Instr) (s : State) (g : Group) : List Case :=
  match xfmRule i g with
  | none => []
  | some r =>
    let os : List Operand := [(r.d, r.nd, 1), (r.a, r.na, 1)]
    let id := s.mem.nextId
    let u := issued s
    let marked := onCur (fun h => { h with pending := h.pending ++ (List.range r.nd).map fun j => (.vec (ea r.x r.d g + j), id) })
      { u with xfms := Maps.set s.xfms id { group := s.cur, writes := r.res.1 }, mem := { u.mem with nextId := id + 1 } }
    let steps (h : Group) : Group := (lanesOf g.active).foldl (fun v l => v.setGen l (Nat.repeat Num.lfsrStep r.gen (g.gen l))) h
    [{ regs := vecRegs r.x os g, ok := r.ok && vecFits r.x os s g
       after := (if r.gen = 0 then id_ else onCur steps) (charge g.tag r.res.2 marked) },
     { regs := vecRegs r.x os g, ok := !r.ok && vecFits r.x os s g, after := trapped s .illegal g.active }]
where id_ (s : State) : State := s

/-! R464 to R472: meshes, tiles, gaze, interpolation. -/

/-- An emission of lanes in write order: those kept go to the meshlet, the others are counted (R106, R464, R465). -/
def emitAfter (idx : Nat → Nat) (keep : Nat → Bool) (put : Nat → Meshlet → Meshlet) (drop : Nat → Card → Card) (s : State) (g : Group) : State :=
  let o := writeOrder g (fun l => [idx l]) (issued s)
  let t := (o.1.filter keep).foldl (fun t l => onCurTeam (fun m => { m with meshlet := put l m.meshlet }) t) o.2
  let lost := (o.1.filter fun l => !keep l).length
  if lost = 0 then t else onDie (curTeam s).die (fun d => { d with
    cards := Maps.modify d.cards (curTeam s).slot fun c => { drop lost c with drawFlags := Nat.lor c.drawFlags 2 } }) t

/-- The lanes of a quad word whose record lies in the scratchpad (R132). -/
def quadsIn (s : State) (g : Group) (a : Nat) : Bool := (lanesOf g.active).all fun l => inScratch s (g.v a l).toNat 64

/-- The words of TILE and MESH. -/
def graphicsCases (i : Instr) (s : State) (g : Group) : List Case :=
  let t := curTeam s
  let n := (tileGeo t).samples
  let held := outstanding s s.cur fun r => r.space == .remote (s.cur / 32)
  let vec (x : Bool) (a : BitVec 7) (l : Nat) : Nat := (g.v (ea x a g) l).toNat
  let ipa (mean x : Bool) (d a k : BitVec 7) : List Case :=
    let os := [one d, one a]
    let r (l : Nat) := interpLane t mean k.toNat (Config.freeNat (s.draws + l)) (quadAt t (vec x a l)) (l % 4)
    [{ regs := vecRegs x os g, ok := vecFits x os s g && quadsIn s g (ea x a g)
       after := charge g.tag (eventsOf g r) { onward s (g.setV (ea x d g) g.active fun l => BitVec.ofNat 32 (r l).1) with draws := s.draws + 32 } }]
  match i with
  | .memitV _ x d a k =>
    let os : List Operand := [one d, (a, k.toNat + 3, 1)]
    [{ regs := vecRegs x os g, ok := isMesh t && vecFits x os s g
       after := emitAfter (vec x d) (fun l => decide (vec x d l < 256))
         (fun l m => emitVertex (vec x d l) ((List.range (k.toNat + 3)).map fun j => g.v (ea x a g + j) l) m)
         (fun c e => { e with vDrop := min 0xFFFFFFFF (e.vDrop + c) }) s g },
     { regs := vecRegs x os g, ok := !isMesh t && vecFits x os s g, after := trapped s .illegal g.active }]
  | .memitP _ x d a =>
    let os := [one d, one a]
    let vert (l k : Nat) : Nat := vec x a l / 2 ^ (9 * k) % 2 ^ 9
    [{ regs := vecRegs x os g, ok := isMesh t && vecFits x os s g
       after := emitAfter (vec x d) (fun l => decide (vec x d l < 512 ∧ vert l 0 < 256 ∧ vert l 1 < 256 ∧ vert l 2 < 256))
         (fun l m => { m with prims := Maps.set m.prims (vec x d l) (g.v (ea x a g) l) })
         (fun c e => { e with pDrop := min 0xFFFFFFFF (e.pDrop + c) }) s g },
     { regs := vecRegs x os g, ok := !isMesh t && vecFits x os s g, after := trapped s .illegal g.active }]
  | .tamp _ x d a b =>
    let os := [one d, one a, pair b]
    let none_ := (lanesOf g.active).all fun l => vec x a l == 0
    let u := if none_ then issued s else useRing t.die t.ctx t.region (issued s)
    let cap := min 65536 (ringCap u t.die t.ctx t.region)
    let lanes := lanesOf g.active
    let ask (l : Nat) : Nat := min (vec x a l) cap
    let lost := lanes.foldl (fun k l => k + (vec x a l - cap)) 0
    let v := if lost = 0 then u else onDraw t (fun c => { c with ampDrop := min 0xFFFFFFFF (c.ampDrop + lost), drawFlags := Nat.lor c.drawFlags 1 }) u
    let reqs := (lanes.filter fun l => ask l != 0).map fun l =>
      ({ group := some s.cur, slot := t.slot, n := ask l, payload := g.v64 (ea x b g) l } : MeshReq)
    [{ regs := vecRegs x os g, ok := isTask t && vecFits x os s g && reqs.isEmpty
       after := onCur (fun h => h.setV (ea x d g) g.active fun l => BitVec.ofNat 32 (ask l)) v },
     { regs := vecRegs x os g, ok := isTask t && vecFits x os s g && !reqs.isEmpty
       after := onCur (fun h => { h with waiting := some (.tamp reqs.length (lanes.map fun l => (ea x d g * 32 + l, BitVec.ofNat 32 (ask l)))) })
         (onDie t.die (fun e => { e with meshReqs := e.meshReqs ++ reqs }) v) },
     { regs := vecRegs x os g, ok := !isTask t && vecFits x os s g, after := trapped s .illegal g.active }]
  | .tload _ x d a =>
    let os := [pair d, one a]
    let fits := vecFits x os s g && !held
    let pix (l : Nat) : Nat := vec x a l % 1024
    let smp (l : Nat) : Nat := vec x a l / 1024 % 4
    [{ regs := vecRegs x os g, ok := fits && isTile t && !t.noticed && (lanesOf g.active).all fun l => decide (smp l < n)
       after := onward s ((lanesOf g.active).foldl (fun h l =>
         if (vec x a l).testBit 12 then h.setLane (ea x d g) l (BitVec.ofNat 32 (scrRead t (8192 * n + 4 * (pix l * n + smp l)) 4))
         else
           let c := scrRead t (8 * (pix l * n + smp l)) 8
           (h.setLane (ea x d g) l (BitVec.ofNat 32 c)).setLane (ea x d g + 1) l (BitVec.ofNat 32 (c / 2 ^ 32))) g) },
     { regs := vecRegs x os g, ok := fits && !isTile t, after := trapped s .illegal g.active }]
  | .tstore _ x d a =>
    let os := [pair d, one a]
    let fits := vecFits x os s g && !held
    let o := writeOrder g (fun l => (ownedSamples n (quadAt t (vec x a l)) (l % 4) t).map fun p => p.1 * n + p.2) (issued s)
    [{ regs := vecRegs x os g, ok := fits && isTile t && !t.noticed && quadsIn s g (ea x a g)
       after := o.1.foldl (fun u l => onCurTeam (storeColour n (quadAt t (vec x a l)) (l % 4) (g.v64 (ea x d g) l).toNat) u) o.2 },
     { regs := vecRegs x os g, ok := fits && !isTile t, after := trapped s .illegal g.active },
     { regs := vecRegs x os g, ok := fits && isTile t && t.noticed && quadsIn s g (ea x a g)
       after := deliver s.cur (raise .deadline g.active) g.pc [] (unwant s) }]
  | .tseal _ => match t.kind with
    | .tile geo tx ty _ =>
      let mark (d : Die) : Die := { d with
        tiles := Maps.mapAll d.tiles fun _ y => if y.team == some (handleOf s.cur) && y.gen == t.gen then { y with sealed := true } else y }
      let u := onCurTeam (fun m => { m with sealed := true }) (onDie t.die mark (issued s))
      [{ ok := !held && !t.noticed
         after := { u with display := { u.display with seals := s.display.seals ++
           [{ view := geo.view, strip := geo.strip, frame := geo.frame, tx := tx, ty := ty, colour := Maps.readBytes t.scratch 0 (8192 * geo.samples) }] } } },
       { ok := !held && t.noticed, after := deliver s.cur (raise .deadline g.active) g.pc [] (unwant s) }]
    | _ => [{ ok := !held && !t.noticed, after := trapped s .illegal g.active }]
  | .gzrd _ x d a =>
    let os := [pair d, one a]
    [{ regs := vecRegs x os g, ok := vecFits x os s g
       after := onward s ((lanesOf g.active).foldl (fun h l =>
         let w := gazeWords s (g.v (ea x a g) l)
         (h.setLane (ea x d g) l (w.getD 0 0)).setLane (ea x d g + 1) l (w.getD 1 0)) g) }]
  | .ipa _ x d a k => ipa false x d a k
  | .ipac _ x d a k => ipa true x d a k
  | _ => []

/-! R473 to R475: rays. -/

/-- A lane's 48 registers written back. -/
def rayAfter (d : Nat) (f : Nat → RayRegs) (g : Group) : Group :=
  (lanesOf g.active).foldl (fun h l => h.setLaneWords d l (f l)) g

/-- The words of RAY. -/
def rayCases (i : Instr) (s : State) (g : Group) : List Case :=
  let regsOf (d l : Nat) : RayRegs := (List.range 48).map fun j => g.v (d + j) l
  match i with
  | .rtravInit _ x d a b =>
    let os : List Operand := [(d, 48, 16), (a, 8, 1), pair b]
    [{ regs := vecRegs x os g, ok := vecFits x os s g
       after := onward s (rayAfter (ea x d g) (fun l =>
         pushRef ((g.v64 (ea x b g) l).toNat % 2 ^ 62 + 2 ^ 62)
           ((List.range 8).map (fun j => g.v (ea x a g + j) l) ++ List.replicate 8 0 ++ (regsOf (ea x d g) l).drop 16)) g) }]
  | .rtravStep _ x d =>
    let os : List Operand := [(d, 48, 16)]
    let run (l : Nat) : RayRun := rayStep (rayView s g (ea x d g)) g (ea x d g) l
    let las := (lanesOf g.active).flatMap fun l => (run l).parts
    [{ regs := vecRegs x os g, ok := vecFits x os s g && !aBusy s las && Served 16 las && (lanesOf g.active).all fun l => (run l).skew.isNone
       after := onCur (rayAfterOn g (ea x d g) fun l => (run l).regs) (aKeep (curTeam s) las (issued s)) },
     { regs := vecRegs x os g, ok := aBusy s las, after := keptBack s }]
  | .rhit _ x d =>
    let os : List Operand := [(d, 48, 16)]
    [{ regs := vecRegs x os g, ok := vecFits x os s g
       after := onward s (rayAfter (ea x d g) (fun l =>
         let r := regsOf (ea x d g) l
         if rayResult r = 1 then
           let q := r.take 7 ++ (r.drop 11).take 4 ++ r.drop 11
           setStatus 0 true (rayOvf r) (rayDepth r) q
         else r) g) }]
  | _ => []
where rayAfterOn (g : Group) (d : Nat) (f : Nat → RayRegs) (h : Group) : Group :=
  (lanesOf g.active).foldl (fun v l => v.setLaneWords d l (f l)) h

end Sys2Proof.Claims
end

