-- ==== Sys2Proof/Claims/Requests.lean ====
section
/-! DEFINITION. The terms for the steps of device units: when a step can happen and what it leaves, as its rule gives it; and
the cases of the memory side: requests at their slices, NACKs, fills, replies, late failures, domain switches (R60, R200, R203,
R204, R206, R212, R498). -/

namespace Sys2Proof.Claims

open Sys2Proof.Machine

/-- One case of a step: when it is the case, and the state after it. -/
structure StepCase where
  ok    : Bool := true
  after : State

/-- What a table of step cases claims of an instruction. -/
def StepHolds (cases : Instr → State → List StepCase) : Prop :=
  ∀ i s k, k ∈ cases i s → k.ok = true → exec i s = .next k.after

/-- Where a step can happen, and what is so of the state after it. -/
structure StepFact where
  ok   : Bool := true
  must : State → Bool

/-- What a table of step facts claims of an instruction. -/
def FactHolds (facts : Instr → State → List StepFact) : Prop :=
  ∀ i s k, k ∈ facts i s → k.ok = true → ∃ t, exec i s = .next t ∧ k.must t = true

/-! R203: a request at its slice. -/

/-- The request over its way, its arrival numbered (R22, R25, R205). -/
def atSlice (i : Nat) (r : Req) (s : State) : State :=
  onReq i (fun x => { x with order := s.mem.nextId }) (onMem (fun m => { m with nextId := s.mem.nextId + 1 }) (crossTo (reqWay s r) 2 s))

/-- The request in another stage. -/
def stage (i : Nat) (st : ReqSt) (s : State) : State := onReq i (fun r => { r with st := st }) s

/-- The request answered with a value, its line as the slice holds it, its place in the slice's order noted (R206). -/
def answered (i : Nat) (v : Nat) (la : Nat) (s : State) : State :=
  onReq i (fun r => { r with
    st := .done, val := BitVec.ofNat 128 v, seq := s.mem.nextId
    line := some (match Maps.find s.mem.llc la with
      | some l => l.data
      | none => fillLine s.mem la) }) (onMem (fun m => { m with nextId := s.mem.nextId + 1 }) s)

/-- The request answered by its slice with a failure and its INFO. -/
def failedAt (i : Nat) (x : Reason) (v : Nat) (s : State) : State :=
  onReq i (fun r => { r with st := .failed x, val := BitVec.ofNat 128 v, seq := s.mem.nextId }) (onMem (fun m => { m with nextId := s.mem.nextId + 1 }) s)

/-- The way of a request: open, or down for good (R21, R31, R32). -/
def wayOpen (s : State) (r : Req) : Bool := (reqWay s r).open_ s
def wayDown (s : State) (r : Req) : Bool := (reqWay s r).dead s

/-- The request failed with LINKDOWN of the module that is down (R32, R298). -/
def linkLost (i : Nat) (r : Req) (s : State) : State :=
  onReq i (fun x => { x with st := .failed .linkdown, val := BitVec.ofNat 128 ((reqWay s r).deadLink s) }) s

/-- No earlier request or send of the same input is still on its way to the slice, or to be sent again to the line (R206). -/
def firstOfCore (s : State) (i : Nat) (r : Req) : Bool := !reqAhead s i r && !sendAhead s i (reqWay s r)

/-- A request reaching its slice (R203, R204, R206, R212): turned away while its domain switches, failed where no domain holds
it or its way is down, served where the slice holds its line, else put into a miss entry, a conflict queue, or turned away BUSY. What would
write into a view of a format window fails (R213, R214). -/
def arrivalCases (i : Nat) (r : Req) (s : State) : List StepCase :=
  let u := atSlice i r s
  let la := r.pa / 64
  let bank := bankOf s.mem r.pa
  let here : Bool := r.space == .llc && r.st == .flying && firstOfCore s i r && (wayOpen s r || wayDown s r)
  let moving : Bool := s.mem.domSw.any fun x => domainOf s.mem (64 * la) == some x.k
  let open_ : Bool := here && !moving && (domainOf s.mem r.pa).isSome && !wayDown s r
  let held : Bool := open_ && (Maps.find s.mem.llc la).isSome && !behind s r
  let well : Bool := held && (errAt s.mem (.llc la)).isNone && !poisoned s.mem r.pa r.size && (viewOf s.mem r.pa).isNone
  let v := natAt s.mem r.pa r.size
  let absent : Bool := open_ && (Maps.find s.mem.llc la).isNone && !behind s r
  let entry : Bool := s.mem.missing.contains la
  let queues : Bool := open_ && (behind s r || ((Maps.find s.mem.llc la).isNone &&
    (if entry then decide (17 ≤ (attached s la).length) else decide (64 ≤ bankMisses s bank))))
  let hit := onMem (countHit r.pa) u
  [{ ok := here && moving, after := stage i .nackDomain (onMem (countNack r.pa) u) },
   { ok := here && !moving && (domainOf s.mem r.pa).isNone, after := failedAt i .nophys 0 u },
   { ok := here && !moving && (domainOf s.mem r.pa).isSome && wayDown s r, after := linkLost i r u },
   { ok := absent && !entry && decide (bankMisses s bank < 64)
     after := stage i .miss (onMem (fun m => countMiss r.pa { m with missing := m.missing ++ [la] }) u) },
   { ok := absent && entry && decide ((attached s la).length < 17), after := stage i .miss (onMem (countMiss r.pa) u) },
   { ok := queues && decide ((bankQueue s bank).length < 16), after := stage i .conflict u },
   { ok := queues && decide (16 ≤ (bankQueue s bank).length)
     after := stage i (.nackBusy (s.clock + 16)) (onMem (countNack r.pa) u) },
   { ok := held && r.op.reads && (errAt s.mem (.llc la)).isNone && poisoned s.mem r.pa r.size && !(r.op.writes && (viewOf s.mem r.pa).isSome)
     after := failedAt i .poison 0 hit },
   { ok := held && r.op.writes && (errAt s.mem (.llc la)).isNone && (viewOf s.mem r.pa).isSome
     after := failedAt i .fwwrite ((viewOf s.mem r.pa).getD 0) hit },
   { ok := held && r.op.reads && errAt s.mem (.llc la) == some .lasting && (Maps.find s.mem.llc la).any (·.dirty)
     after := failedAt i .ecc 2 (loseLine la true u) }] ++
  match r.op with
  | .store => [{ ok := well, after := answered i 0 la (onMem (fun m => putNat m r.pa r.size r.data.toNat) hit) }]
  | .atom o _ _ => [{ ok := well, after := answered i v la (onMem (fun m => putNat m r.pa r.size (atomApply o v r.data.toNat)) hit) }]
  | .resbit on b =>
    let w := if on then Nat.lor v (2 ^ b) else v - (if bitN v b then 2 ^ b else 0)
    [{ ok := well, after := answered i v la (sendInvals (r.pa / 4) r.group (onMem (fun m => putNat m r.pa r.size w) hit)) }]
  | .resq _ b _ => [{ ok := well, after := answered i (if bitN v b then 1 else 0) la hit }]
  | .ctlAtom f w => [{ ok := well, after := answered i v la (onMem (fun m => putNat m r.pa r.size (ctlAtomNew f w v r.data.toNat)) hit) }]
  | _ => [{ ok := well, after := answered i v la hit }]

/-! The end of a request. -/

/-- The request gone from the network, and from the scoreboard of its group, turned into `f` of itself first. -/
def landed (i : Nat) (r : Req) (f : Group → Group) (s : State) : State :=
  let s := onMem (fun m => { m with net := Maps.del m.net i }) s
  if r.live then onGroup r.group (fun g => (f g).release i) s else s

/-- What goes back to another package whose request this is (R28). -/
def toldFar (r : Req) (code v : Nat) (s : State) : State :=
  match r.origin with
  | some (q, id) => queueMsg q 1 (.reply id code (BitVec.ofNat 128 v)) s
  | none => s

/-- What goes back besides: a control core's value to the core (R39), another package's to that package. -/
def told (i : Nat) (r : Req) (code v : Nat) (s : State) : State :=
  toldFar r code v (match r.ctl, r.op.returns with
    | some k, true => { s with ctl := Maps.modify s.ctl k fun c => { c with loads := Maps.set c.loads i v } }
    | _, _ => s)

/-! R200: accesses to other teams' scratchpads. -/

/-- The access can be made now: no move of its team is under way, and no earlier traffic of its group to the team or of its input to the
relay is left (R206). That of a context destroyed meanwhile ends at the relay (R44). -/
def remoteCases (i h : Nat) (r : Req) (s : State) : List StepCase :=
  let due : Bool := r.st == .flying && wayOpen s r && !tltMove s r.ctx h && !remoteBlocked s i h r && firstOfCore s i r
  let now : Bool := due && ctxValid s r.ctx
  let u := crossTo (reqWay s r) 2 s
  let fails (x : Reason) : State := failedAt i x 0 u
  let gives (v : Nat) (t : State) : State :=
    onReq i (fun r => { r with st := .done, val := BitVec.ofNat 128 v, seq := s.mem.nextId }) (onMem (fun m => { m with nextId := s.mem.nextId + 1 }) t)
  [{ ok := due && !ctxValid s r.ctx && r.origin.isNone, after := fails .noteam },
   { ok := due && !ctxValid s r.ctx && r.origin.isSome, after := landed i r id (toldFar r 4 0 u) }] ++
  match remoteSize s r.ctx h with
  | none => [{ ok := now, after := fails .noteam }]
  | some n =>
    let fits : Bool := decide (r.pa + r.size ≤ n)
    let resident : Bool := decide (tltState s r.ctx h = 1)
    let v := scrRead (teamAt s h) r.pa r.size
    let pa := tltTsa s r.ctx h + 0x140000 + r.pa
    let x := natAt s.mem pa r.size
    { ok := now && !fits, after := fails .scrbound } ::
    match r.op with
    | .store =>
      [{ ok := now && fits && resident, after := gives 0 (onTeam h (scrWrite r.pa r.size r.data.toNat) u) },
       { ok := now && fits && !resident, after := gives 0 (onMem (fun m => putNat m pa r.size r.data.toNat) u) }]
    | .load _ _ =>
      [{ ok := now && fits && resident, after := gives v u },
       { ok := now && fits && !resident && !poisoned s.mem pa r.size, after := gives x u },
       { ok := now && fits && !resident && poisoned s.mem pa r.size, after := fails .poison }]
    | .atom o _ _ =>
      [{ ok := now && fits && resident, after := gives v (onTeam h (scrWrite r.pa r.size (atomApply o v r.data.toNat)) u) },
       { ok := now && fits && !resident && !poisoned s.mem pa r.size
         after := gives x (onMem (fun m => putNat m pa r.size (atomApply o x r.data.toNat)) u) }]
    | _ => []

/-! R201, R205, R319: replies. -/

/-- A load's line kept in its core's L1, unless it was invalidated meanwhile (R201). -/
def lineKept (r : Req) (s : State) : State :=
  match r.fill, r.line with
  | true, some l => fillL1 r.core (r.pa / 64) l s
  | _, _ => s

/-- A reply at its core, no earlier one of the slice being left (R206), or LINKDOWN where its way is down (R32). -/
def replyCases (i : Nat) (r : Req) (s : State) : List StepCase :=
  let due : Bool := r.space != .dev && r.st == .done && wayOpen s r && !wayDown s r && !replyBlocked s r
  let slice : Bool := r.space == .llc
  let v := r.val.toNat
  let u := crossBack (reqWay s r) s
  let line := told i r 0 v (if slice then lineKept r u else u)
  let gone := told i r 0 v (if slice then onCore r.core (fun c => { c with l1 := Maps.del c.l1 (r.pa / 64) }) u else u)
  { ok := (r.st == .done || r.st == .flying) && wayDown s r, after := linkLost i r s } ::
  match r.op with
  | .load d code => [{ ok := due, after := landed i r (fun g => g.setLaneWords d r.lane (loadWords code v)) line }]
  | .uload d => [{ ok := due, after := landed i r (fun g => g.setScalars d (loadWords (if r.size = 8 then 5 else 4) v)) line }]
  | .atom o ret d => [{ ok := due, after := landed i r (fun g => if ret then atomRet o d r.lane v g else g) gone }]
  | .prefetch => [{ ok := due, after := landed i r id line }]
  | .resbit _ _ => [{ ok := due, after := landed i r id gone }]
  | .resq d _ false => [{ ok := due, after := landed i r (fun g => g.setLane d r.lane (BitVec.ofNat 32 v)) gone }]
  | .ctlAtom _ _ => [{ ok := due, after := landed i r id line }]
  | .store => [{ ok := due && (!slice || (Maps.find (coreAt s r.core).l1 (r.pa / 64)).isNone), after := landed i r id (told i r 0 v u) }]
  | _ => []

/-- A load of a device register (R18). -/
def devReplyCases (i : Nat) (r : Req) (s : State) : List StepCase :=
  match r.op with
  | .load d code =>
    let u := crossTo (reqWay s r) 2 s
    let v := (BitVec.ofNat 128 (devLoad u r.pa r.size)).toNat
    let held : Bool := match r.ctl with
      | some k => postHeld s k ((r.pa - devBase) / 2 ^ 24)
      | none => false
    [{ ok := r.space == .dev && r.st == .flying && wayOpen s r && !wayDown s r && !devBlocked s i r && !held
       after := landed i r (fun g => g.setLaneWords d r.lane (loadWords code v))
         (told i r 0 v (crossBack (reqWay s r) (onReq i (fun x => { x with val := BitVec.ofNat 128 (devLoad u r.pa r.size) }) u))) }]
  | _ => []

/-! R498: late failures. -/

/-- The late failure of a load or store of memory: zero in the failing lane, the lane's address kept, a record, and ACCESS at
the next chain boundary while the group is resident; of a prefetch, nothing (R498). -/
def lateCases (i : Nat) (r : Req) (x : Reason) (s : State) : List StepCase :=
  let due : Bool := x == .linkdown || wayDown s r || (wayOpen s r && !replyBlocked s r)
  let f := lateRecordOf s r x
  let u := if x = .linkdown then s else crossBack (reqWay s r) s
  let t := record f.die f u
  let here : Bool := r.live && (Maps.find s.groups r.group).isSome
  let pends (f : Group → Group) : State :=
    keepAddrs r.group (laneMask r.lane) [(r.lane, r.va)] (onGroup r.group (fun g => { f g with late := some (g.late.getD 0 ||| laneMask r.lane) }) t)
  let ended (u : State) : State := landed i r id (told i r x.code 0 u)
  match r.op with
  | .prefetch => [{ ok := due, after := landed i r id u }]
  | .load d code =>
    [{ ok := due && here && decide (r.lane < 32), after := ended (pends fun g => g.setLaneWords d r.lane (loadWords code 0)) },
     { ok := due && !r.live, after := ended t }]
  | .store =>
    [{ ok := due && here && decide (r.lane < 32), after := ended (pends id) }, { ok := due && !r.live, after := ended t }]
  | _ => []

/-- The steps of requests. -/
def requestCases (i : Instr) (s : State) : List StepCase :=
  match i with
  | .llcRequest n => match Maps.find s.mem.net n with
    | some r => arrivalCases n r s
    | none => []
  | .nackResend n => match Maps.find s.mem.net n with
    | some r => match r.st with
      | .nackBusy t => [{ ok := decide (t ≤ s.clock), after := stage n .flying s }]
      | _ => []
    | none => []
  | .domainNackResend n => match Maps.find s.mem.net n with
    | some r =>
      let again : Bool := r.st == .nackDomain && s.mem.domSw.isNone
      [{ ok := again && (domainOf s.mem r.pa).isSome, after := stage n .flying s },
       { ok := again && (domainOf s.mem r.pa).isNone, after := stage n (.failed .nophys) s }]
    | none => []
  | .remoteScratchAccess n => match Maps.find s.mem.net n with
    | some r => match r.space with
      | .remote h => remoteCases n h r s
      | _ => []
    | none => []
  | .memoryReply n => match Maps.find s.mem.net n with
    | some r => replyCases n r s ++ devReplyCases n r s
    | none => []
  | .lateFailure n => match Maps.find s.mem.net n with
    | some r => match r.st with
      | .failed x => lateCases n r x s
      | _ => []
    | none => []
  | .coreReset c => [{ ok := (coreAt s c).refusing, after := onCore c (fun x => { x with refusing := false }) s }]
  | .domainSwitchPhase =>
    match s.mem.domSw with
    | some x =>
      [{ ok := decide (x.phase = 1) && !switchWaits s x
         after := onMem (fun m => { flushLines (inOldRange m x) m with
           idw := Maps.put 0 m.idw x.k x.idw, hmask := Maps.put 0 m.hmask x.k x.hmask, domSw := some { x with phase := 2 } }) s },
       { ok := decide (x.phase = 2) && s.mem.domQueue.isEmpty && s.mem.domHeld.isEmpty
         after := answerSwitch x false (onMem (fun m => { m with domSw := none }) s) }]
    | none =>
      match s.mem.domQueue with
      | [x] =>
        let v := withMcmask x.idw.toNat (idwOf s.mem x.k)
        [{ ok := domainRefused s.mem x.k v x.hmask.toNat, after := answerSwitch x true (onMem (fun m => { m with domQueue := [] }) s) },
         { ok := !domainRefused s.mem x.k v x.hmask.toNat
           after := onMem (fun m => { m with domQueue := [], domSw := some { x with idw := BitVec.ofNat 64 v, phase := 1 } }) s }]
      | _ => []
  | _ => []

/-- A fill (R203), with no error about: the line is in its slice, its miss entry is free, and every request that was attached
to the entry has its answer, or fails where it reads poisoned bytes or would write into a view of a format window. A view's line that is decoded from poisoned bytes is not filled (R214). -/
def fillFacts (i : Instr) (s : State) : List StepFact :=
  match i with
  | .llcMissFill la =>
    let ended (t : State) : Bool := (attached s la).all fun e => match Maps.find t.mem.net e.1 with
      | some r => r.st == .done || r.st == .failed .poison || r.st == .failed .fwwrite
      | none => false
    [{ ok := s.mem.missing.contains la && s.mem.errs.isEmpty && !viewPoison s.mem la
       must := fun t => (Maps.find t.mem.llc la).isSome && !t.mem.missing.contains la && ended t },
     { ok := s.mem.missing.contains la && s.mem.errs.isEmpty && viewPoison s.mem la, must := ended }]
  | _ => []

end Sys2Proof.Claims
end

