-- ==== Sys2Proof/Claims/Registers.lean ====
section
/-! DEFINITION. The cases of writes of device registers (R17, R18): what a store of a control core to each register leaves. -/

namespace Sys2Proof.Claims

open Sys2Proof.Machine

/-! Registers of a die pair. -/

/-- DSCTL (R89): bits [19:0], HRES never above 8. -/
def dsctlCases (d : Nat) (n : Nat) (s : State) : List StepCase :=
  [{ ok := decide (n % 16 ≤ 8), after := onDie d (fun x => { x with dsctl := BitVec.ofNat 32 (n % 2 ^ 20) }) s },
   { ok := decide (9 ≤ n % 16), after := onDie d (fun x => { x with dsctl := BitVec.ofNat 32 (bitsN n 19 4 * 16 + 8) }) s }]

/-- RCBINV (R67): held while BUSY; else BUSY is set where the die pair holds fields of the named block. -/
def rcbinvCases (d : Nat) (w : Word) (s : State) : List StepCase :=
  let x := dieAt s d
  let c := w.toNat / 2 ^ 20
  let h := w.toNat % 2 ^ 16
  let cached : Bool := x.rcbCache.contains (c, h)
  let named (busy : Nat) : State := onDie d (fun x => { x with
    rcbinv := BitVec.ofNat 32 (c * 2 ^ 20 + busy * 2 ^ 19 + h), rcbBad := x.rcbBad.filter (· != (c, h)) }) s
  [{ ok := x.rcbinv.getLsbD 19, after := onDie d (fun x => { x with rcbinvHeld := x.rcbinvHeld ++ [w] }) s },
   { ok := !x.rcbinv.getLsbD 19 && cached, after := named 1 }, { ok := !x.rcbinv.getLsbD 19 && !cached, after := named 0 }]

/-- BUSY clears, with no write held (R67). -/
def rcbDoneCases (d : Nat) (s : State) : List StepCase :=
  let x := dieAt s d
  let v := x.rcbinv.toNat
  [{ ok := x.rcbinv.getLsbD 19 && x.rcbinvHeld.isEmpty
     after := onDie d (fun x => { x with
       rcbinv := BitVec.ofNat 32 (v - 2 ^ 19), rcbCache := x.rcbCache.filter (· != (v / 2 ^ 20, v % 2 ^ 16)) }) s }]

/-- NRBASE (R84): a write that moves the ring while it is enabled is ignored. -/
def nrbaseCases (d : Nat) (w : Dword) (s : State) : List StepCase :=
  let old := (dieAt s d).nrbase.toNat
  let moves : Bool := bitN old 0 && decide (bitsN old 45 8 ≠ bitsN w.toNat 45 8)
  [{ ok := moves, after := s },
   { ok := !moves, after := onDie d (fun x => { x with nrbase := BitVec.ofNat 64 (bitsN w.toNat 45 8 * 256 + w.toNat % 2) }) s }]

/-- EMBCTL (R176): counts 1 to 6; tokens short of the count come to cluster 0 within 16 clocks, when is free (log entry 8). -/
def embctlCases (d : Nat) (w : Word) (s : State) : List StepCase :=
  let n := w.toNat % 8
  let more := n - (dieAt s d).tokens.length
  [{ ok := decide (n = 0 ∨ n = 7), after := s },
   { ok := decide (n ≠ 0 ∧ n ≠ 7 ∧ more = 0), after := onDie d (fun x => { x with embTcnt := BitVec.ofNat 3 n }) s },
   { ok := decide (n ≠ 0 ∧ n ≠ 7 ∧ more ≠ 0)
     after := onDie d (fun x => { x with
       embTcnt := BitVec.ofNat 3 n
       tokens := x.tokens ++ List.replicate more { cluster := 0, arrives := some (s.clock + 1 + Config.freeNat s.draws % 16) } })
       { s with draws := s.draws + 1 } }]

/-- DSPOST (R74, R81): the card is read from physical memory and posted for its context, or refused with a record; a read that no way leads to,
that no domain holds, or that meets an error or poison, is a STRUCTFAULT (R32, R60, R81). -/
def dspostCases (d cc : Nat) (w : Dword) (s : State) : List StepCase :=
  let v := w.toNat
  let c := v / 2 ^ 52
  let pa := bitsN v 45 6 * 64
  let up : Bool := !(dieAt s d).heldReset
  let root (c : Nat) (r : Reason) (info : Nat) (t : State) : State := record d (unitRecord d r c 0 (BitVec.ofNat 64 pa) info true) t
  let whole : Bool := (domainOf s.mem pa).isSome && (domainOf s.mem (pa + 63)).isSome
  let u := if whole then readVia (enginePort d) 2 pa 64 s else s
  let why : Option Reason :=
    if !whole then some .nophys
    else if (lostLink s (enginePort d) pa 64).isSome then some .linkdown
    else if rangeErr s.mem pa 64 ≠ 0 then some .ecc
    else if poisoned s.mem pa 64 then some .poison
    else none
  let well : Bool := why.isNone
  let good : Bool := ctxValid s c && !ctxFaulted s c && decide (bitsN v 51 46 = 0 ∧ v % 64 = 0)
  let p : Post := { rank := 200000 + cc, bits := lineOf (bytesAt s.mem pa 64), addr := BitVec.ofNat 64 pa, ctx := c, region := none }
  let posted (held : Bool) : State := onDie d (fun x => { x with posts := x.posts ++ [{ p with held := held }] }) u
  [{ ok := !up, after := root 0 .thermal d s },
   { ok := up && !well, after := root (if ctxValid s c then c else 0) .structfault (2 * 256 + Reason.code (why.getD .none)) u },
   { ok := up && well && !good, after := record d (postRecord s d .badcard { p with held := storeFull s d } 0) u },
   { ok := up && well && good && !storeFull s d, after := posted false },
   { ok := up && well && good && storeFull s d, after := posted true }]

/-- DCTRn (R81): a set to VALUE, or a decrement, on its way to the counter. -/
def dctrCase (d n cc : Nat) (k : CtrKind) (ok : Bool) (s : State) : List StepCase :=
  [{ ok := ok
     after := onDie d (fun x => { x with ctrOps := x.ctrOps ++ [{ idx := n, kind := k, src := .control cc, rank := 200000 + cc }] }) s }]

/-- SNAPCTL with CLR (R57). -/
def snapctlCases (d : Nat) (w : Word) (s : State) : List StepCase :=
  let x := Maps.get {} s.io.snaps d
  let x := { x with full := false, missed := 0, hold := w.getLsbD 0 }
  [{ ok := w.getLsbD 2, after := { s with io := { s.io with snaps := Maps.set s.io.snaps d x } } }]

/-- THERMCTL.RELEASE (R38): a held die comes up, its core stores, weight buffers and caches with valid ECC, unless it is 90 °C or above. -/
def thermctlCases (d : Nat) (w : Word) (s : State) : List StepCase :=
  let x := dieAt s d
  let up : Bool := x.heldReset && decide (x.temp.toNat < 90)
  let tokens : List Token := (List.range 6).map fun c => { cluster := c, arrives := none, start := s.clock, idle := s.clock }
  [{ ok := w.getLsbD 0 && !up, after := s },
   { ok := w.getLsbD 0 && up
     after := onDie d (fun x => { x with heldReset := false, cycleBase := s.clock, tokenSave := none, embTcnt := 6, tokens := tokens })
       (onMem (fun m => { m with errs := m.errs.filter fun e => !onDieUp s d false e.1 }) s) }]

/-! Links (R25). -/

/-- LCCTL: TCDIS is taken; CNTCLR clears the five counters. -/
def lcctlCase (l : LinkId) (w : Word) (clear : Bool) (s : State) : List StepCase :=
  let k := linkOf s l
  let t : BitVec 4 := BitVec.ofNat 4 (w.toNat / 16)
  [{ ok := w.getLsbD 3 == clear
     after := setLink l (if clear then { k with tcdis := t, flits := 0, zr := 0, bd := 0, bm := 0, beat := 0 } else { k with tcdis := t }) s }]

/-! The memory side. -/

/-- DOMSW (R496): held while a switch started through it is in progress; else the staged values are checked. -/
def domswCases (w : Word) (s : State) : List StepCase :=
  let k := w.toNat % 16
  let m := s.mem
  let busy : Bool := (m.domQueue.any fun x => x.group.isNone) || (m.domSw.any fun x => x.group.isNone)
  let alone : Bool := m.domQueue.isEmpty && m.domSw.isNone
  let h : Dword := Maps.get 0 m.hmasks k
  let v := withMcmask (Maps.get 0 m.idws k).toNat (idwOf m k)
  let bad : Bool := domainRefused m k v h.toNat
  [{ ok := busy, after := onMem (fun m => { m with domHeld := m.domHeld ++ [k] }) s },
   { ok := alone && bad, after := onMem (fun m => { m with domReg := BitVec.ofNat 4 k, domQueue := [], domRefused := true }) s },
   { ok := alone && !bad
     after := onMem (fun m => { m with
       domReg := BitVec.ofNat 4 k, domQueue := []
       domSw := some { k := k, idw := BitVec.ofNat 64 v, hmask := h, phase := 1, group := none } }) s }]

/-- What a window that held `old` holds once its highest word is written: the words written since the last such write, the others as they
were (R18). -/
def fwTaken (key : Nat) (w : Dword) (s : State) (old : Nat) : Nat :=
  let word (p : Nat) : Nat := match Maps.find s.mem.fwStage (4 * key + p) with
    | some x => x.toNat
    | none => old / 2 ^ (64 * p) % 2 ^ 64
  fwMask (word 0 + word 1 * 2 ^ 64 + word 2 * 2 ^ 128 + w.toNat * 2 ^ 192)

/-- FWk (R18, R213): the lower words wait; with the highest the window changes, and the lines of its old and new view ranges leave
the LLC. Without stores to lose among them. -/
def fwCases (mc : Option (BitVec 5)) (k part : Nat) (w : Dword) (s : State) : List StepCase :=
  let key := 16 * (mc.map (·.toNat)).getD 24 + k
  let there : Bool := mc.all fun i => decide (i.toNat < 24)
  { ok := there && decide (part < 3), after := onMem (fun m => { m with fwStage := Maps.set m.fwStage (4 * key + part) w }) s } ::
  match mc with
  | none => []
  | some i =>
    let v := fwTaken key w s (fwOf s.mem i.toNat k)
    let goes (la : Nat) : Bool := controllerOf s.mem (64 * la) == i.toNat && (fwCovers (fwOf s.mem i.toNat k) la || fwCovers v la)
    [{ ok := decide (i.toNat < 24) && decide (part = 3) && s.mem.llc.all fun e => !(goes e.1 && e.2.dirty)
       after := onMem (fun m => { m with
         fwStage := m.fwStage.filter (fun e => e.1 / 4 != key), llc := m.llc.filter (fun e => !goes e.1), fw := Maps.put 0 m.fw key (BitVec.ofNat 256 v) }) s }]

/-- The broadcast alias: every controller's window has the value (R213). -/
def broadcastFacts (i : Instr) (s : State) : List StepFact :=
  match i with
  | .fwWrite none k part w =>
    let v (c : Nat) : Nat := fwTaken (384 + k.toNat) w s (fwOf s.mem c k.toNat)
    [{ ok := part == 3
       must := fun t => (List.range 24).all fun c => fwOf t.mem c k.toNat == v c && t.mem.llc.all fun e =>
         !(controllerOf t.mem (64 * e.1) == c && fwCovers (v c) e.1) }]
  | _ => []

/-! The display (R120, R140, R141, R499). -/

/-- SERCLK: 1 ≤ DIV ≤ 16, 4 ≤ MUL ≤ 64 and a strip clock of 50 to 800 MHz, or the write is ignored; while the clock runs only EN
changes. -/
def serclkCases (w : Word) (s : State) : List StepCase :=
  let n := w.toNat
  let div := bitsN n 23 16
  let mul := bitsN n 15 8
  let old := s.display.serclk.toNat
  let fits : Bool := decide (1 ≤ div ∧ div ≤ 16 ∧ 4 ≤ mul ∧ mul ≤ 64 ∧ 50 * div ≤ 100 * mul ∧ 100 * mul ≤ 800 * div)
  let runs (v : Nat) : State := { s with display := { s.display with serclk := BitVec.ofNat 32 v } }
  [{ ok := !fits, after := s },
   { ok := fits && !bitN old 0, after := runs (n % 2 + mul * 2 ^ 8 + div * 2 ^ 16) },
   { ok := fits && bitN old 0, after := runs (n % 2 + bitsN old 15 8 * 2 ^ 8 + bitsN old 23 16 * 2 ^ 16) }]

/-- A view output block: the lower words wait for the highest (R18, R141). -/
def vobCases (v part : Nat) (w : Dword) (s : State) : List StepCase :=
  let x := (viewAt s v).vobStage.toNat
  let y := x - bitsN x (64 * part + 63) (64 * part) * 2 ^ (64 * part) + w.toNat * 2 ^ (64 * part)
  [{ ok := decide (part < 7), after := onView v (fun o => { o with vobStage := BitVec.ofNat 512 y }) s }]

/-- With the highest word, a view that runs takes PERIOD and PEN alone; one at rest takes the whole block (R141). -/
def vobFacts (i : Instr) (s : State) : List StepFact :=
  match i with
  | .vobWrite v part w =>
    let o := viewAt s v.toNat
    let x := o.vobStage.toNat
    let n := x % 2 ^ 448 + w.toNat * 2 ^ 448
    let per := bitsN n 255 224
    let ok : Bool := decide (per = 0 ∨ 4 * minBudget s ≤ per)
    let rest (t : View) : Bool := decide (bitsN t.vob.toNat 126 0 = bitsN o.vob.toNat 126 0) &&
      decide (bitsN t.vob.toNat 223 128 = bitsN o.vob.toNat 223 128) && decide (t.vob.toNat / 2 ^ 256 = o.vob.toNat / 2 ^ 256)
    [{ ok := part == 7 && decide (o.period ≠ 0)
       must := fun t => let u := viewAt t v.toNat
         rest u && decide (u.period = if ok then per else o.period) && decide (u.pen = bitN n 127) },
     { ok := part == 7 && decide (o.period = 0)
       must := fun t => let u := viewAt t v.toNat
         decide (u.vob.toNat / 2 ^ 256 = n / 2 ^ 256) && decide (u.period = if ok then per else 0) && decide (u.pen = bitN n 127) &&
           decide (u.port = if bitsN n 126 120 < 64 then bitsN n 126 120 else o.port) &&
           decide (u.budgetField = bitsN n 223 192) && decide (u.leadField = bitsN n 191 160) }]
  | _ => []

/-! The other registers (R18). -/

/-- A 64-bit store, at its slot, to a register without a row of its own. -/
def otherCases (pa : Nat) (n : Nat) (s : State) : List StepCase :=
  let v : Dword := BitVec.ofNat 64 n
  let io (f : Io → Io) : State := { s with io := f s.io }
  if pa % 8 ≠ 0 ∨ n ≥ 2 ^ 64 then []
  else match regAt pa with
  | none => [{ ok := isDev pa, after := s }]
  | some (.nrirq d) => [{ after := onDie d (fun x => { x with nrirq := BitVec.ofNat 32 (n % 2 ^ 16) }) s }]
  | some (.dtrapbase d) => [{ after := onDie d (fun x => { x with dtrapbase := BitVec.ofNat 64 (n / 2 ^ 14 * 2 ^ 14) }) s }]
  | some .ctxbase => [{ after := io fun o => { o with ctxbase := BitVec.ofNat 64 (bitsN n 45 12 * 2 ^ 12) } }]
  | some (.idws k) => [{ after := onMem (fun m => { m with idws := Maps.put 0 m.idws k v }) s }]
  | some (.hmasks k) => [{ after := onMem (fun m => { m with hmasks := Maps.put 0 m.hmasks k v }) s }]
  | some .ltrctl => [{ after := { s with display := { s.display with ltrctl := BitVec.ofNat 64 (n / 256 * 256) } } }]
  | some .ltrirq => [{ after := { s with display := { s.display with ltrirq := BitVec.ofNat 32 (n % 2 ^ 16) } } }]
  | some (.dmatab k) => [{ after := io fun o => { o with
      dmatab := Maps.put 0 o.dmatab k (BitVec.ofNat 64 (bitsN n 45 19 * 2 ^ 19 + n % 2)) } }]
  | some (.rtab k) => [{ after := io fun o => { o with rtab := Maps.put 0 o.rtab k (BitVec.ofNat 64 (n % 256)) } }]
  | some (.idw _) => [{ after := s }]
  | some (.hmask _) => [{ after := s }]
  | some .scount => [{ after := s }]
  | some (.glatch _) => [{ after := s }]
  | _ => []

/-- A 32-bit store to an interrupt file's page makes the identity pending (R17, R40). -/
def fileCases (pa n : Nat) (s : State) : List StepCase :=
  match regAt pa with
  | some (.imsic f) =>
    [{ ok := decide (pa % 8 = 0 ∧ 0 < n ∧ n < 4096)
       after := { s with io := { s.io with imsic := Maps.set s.io.imsic (f * 4096 + n) true } } }]
  | _ => []

/-- The writes of registers. -/
def registerCases (i : Instr) (s : State) : List StepCase :=
  match i with
  | .dsctlWrite d w => dsctlCases d.toNat w.toNat s
  | .rcbinvWrite d w => rcbinvCases d.toNat w s
  | .rcbInvalidationDone d => rcbDoneCases d.toNat s
  | .nrbaseWrite d w => nrbaseCases d.toNat w s
  | .embctlWrite d w => embctlCases d.toNat w s
  | .dspostWrite d cc w => dspostCases d.toNat cc.toNat w s
  | .dctrSet d n cc w => dctrCase d.toNat n.toNat cc.toNat (.set (w.toNat % 2 ^ 20)) (decide (w.toNat / 2 ^ 62 = 1)) s
  | .dctrDecrement d n cc w => dctrCase d.toNat n.toNat cc.toNat .dec (decide (w.toNat / 2 ^ 62 = 2)) s
  | .snapctlClr d w => snapctlCases d.toNat w s
  | .thermctlRelease d w => thermctlCases d.toNat w s
  | .lcctlCntclr l w => lcctlCase l w true s
  | .lcctlTcdis l w => lcctlCase l w false s
  | .domswWrite w => domswCases w s
  | .fwWrite mc k part w => fwCases mc k.toNat part.toNat w s
  | .serclkWrite w => serclkCases w s
  | .vobWrite v part w => vobCases v.toNat part.toNat w s
  | .vrecWrite v w => [{ after := onView v.toNat (fun o => { o with vrec := BitVec.ofNat 64 (bitsN w.toNat 45 8 * 256 + w.toNat % 2) }) s }]
  | .gazeWrite v w => [{ after := onView v.toNat (fun o => { o with gaze := w }) s }]
  | .deviceRegisterWrite pa true w => otherCases pa.toNat w.toNat s
  | .deviceRegisterWrite pa false w => fileCases pa.toNat (w.toNat % 2 ^ 32) s
  | _ => []

end Sys2Proof.Claims
end

