-- ==== Sys2Proof/Claims/Groups.lean ====
section
/-! DEFINITION. The cases of the steps that groups and teams meet at their cores: the wait table (R194, R195), siblings (R173,
R175), sleep (R386), renegotiation (R162 to R164); ember tokens (R176 to R179) and the heat of a die (R37, R38). -/

namespace Sys2Proof.Claims

open Sys2Proof.Machine

/-! R194, R195: the wait table. -/

/-- The mode of a write of WTREPLAY that a row stands for, and the write's word. -/
def replayWord (i : Instr) : Option (Nat × BitVec 3 × Dword) :=
  match i with
  | .wtreplayByPage d w => some (0, d, w)
  | .wtreplayByToken d w => some (1, d, w)
  | .wtreplayByAsid d w => some (2, d, w)
  | _ => none

/-- The groups parked on a die under an entry that `p` picks. -/
def parkedUnder (s : State) (d : Nat) (p : Nat → WaitEntry → Bool) : List Nat :=
  Maps.keys s.groups fun k g => dieOfCore (teamAt s (handleOf k)).core == d && g.parked.any fun e =>
    (Maps.find (dieAt s d).waits e).any fun x => p e x

/-- The groups that a write names by page, by entry number, or by ASID. -/
def replayed (s : State) (d mode : Nat) (w : Nat) : List Nat :=
  match mode with
  | 0 => parkedUnder s d fun _ e => e.byPage && decide (e.asid = bitsN w 55 40) && decide (e.page = bitsN w 39 0)
  | 1 => parkedUnder s d fun i _ => decide (i = bitsN w 39 0)
  | _ => parkedUnder s d fun i e => decide (i ≠ 1023) && decide (e.asid = bitsN w 55 40)

/-- A write of WTREPLAY that is malformed, or that names no group, does nothing (R195). -/
def replayCases (i : Instr) (s : State) : List StepCase :=
  match replayWord i with
  | none => []
  | some (mode, d, w) =>
    let v := w.toNat
    let bad : Bool := decide (bitsN v 60 56 ≠ 0) || (mode == 1 && decide (bitsN v 39 10 ≠ 0))
    [{ ok := decide (v / 2 ^ 62 = mode) && (bad || (replayNamed s d.toNat v).isEmpty), after := s }]

/-- A group pushes its next entry without a spill, which could park it again (R169). -/
def shallow (s : State) (k : Nat) : Bool := decide ((groupOf s k).held.length < 16)

/-- A write of WTREPLAY wakes every group that it names, and with them every group under the overflow entry; a group woken alone
with ACT = 1 takes the recorded fault in its lanes, by ACCESS or EXEC (R195). -/
def replayFacts (i : Instr) (s : State) : List StepFact :=
  match replayWord i with
  | none => []
  | some (mode, d, w) =>
    let v := w.toNat
    let good : Bool := decide (v / 2 ^ 62 = mode) && decide (bitsN v 60 56 = 0) && (mode != 1 || decide (bitsN v 39 10 = 0))
    let named := replayed s d.toNat mode v
    let free (t : State) (k : Nat) : Bool := (groupOf t k).parked.isNone
    { ok := good && !named.isEmpty && (named ++ parkedUnder s d.toNat fun i _ => i == 1023).all (shallow s), must := fun t => named.all (free t) && (parkedUnder s d.toNat fun i _ => i == 1023).all (free t) } ::
    match replayNamed s d.toNat v with
    | [k] => match Maps.find s.groups k with
      | some g => match g.parkReq with
        | some p =>
          let exec_ : Bool := p.acc == .fetch
          let code := if exec_ then 0x07 else 0x06
          let alone : Bool := (teamAt s (handleOf k)).parkedCnt ≤ 1 && g.haltSeen.isNone && ((under s d.toNat 1023).filter (· != k)).isEmpty
          let room : Bool := g.held.length < 16 && g.depth < stackCap g
          [{ ok := good && bitN v 61 && alone && room && g.parked.isSome
             must := fun t => match Maps.find t.groups k with
               | some h => h.pc == BitVec.ofNat 64 (g.trapbase.toNat / 2 ^ 14 * 2 ^ 14 + 64 * code) &&
                   h.active == (if exec_ then g.active else p.mask) && h.mode == BitVec.ofNat 32 (code * 2 ^ 8 + 1) &&
                   h.depth == g.depth + 1 && (h.held.head?.any fun e =>
                     e.kind == .trap && e.mask == g.active && e.rpc == g.pc && e.cause.toNat == code && e.mode.toNat == g.mode.toNat % 256)
               | none => false }]
        | none => []
      | none => []
    | _ => []

/-- The walk that follows the creation of a page-keyed entry (R194): where it fails, nothing else; where it succeeds, the entry's
groups wake. -/
def rewalkCases (d i : Nat) (e : WaitEntry) (s : State) : List StepCase :=
  [{ ok := e.rewalk && !rewalkOk s e
     after := onDie d (fun x => { x with waits := Maps.modify x.waits i fun e => { e with rewalk := false } }) s }]

def rewalkFacts (i : Instr) (s : State) : List StepFact :=
  match i with
  | .waitTableRewalk d n => match Maps.find (dieAt s d.toNat).waits n.toNat with
    | some e => [{ ok := e.rewalk && rewalkOk s e && (under s d.toNat n.toNat).all (shallow s), must := fun t => (under s d.toNat n.toNat).all fun k => (groupOf t k).parked.isNone }]
    | none => []
  | _ => []

/-! R173, R175: siblings. -/

/-- A sibling stops with a SIBHALT entry; nothing is vectored (R173). SKID counts the packets since the halt, 0 for one that the halt wakes
from its sleep, which 4 stands for (R386). Its accesses to spilled entries come first (R169). -/
def stopCases (k : Nat) (s : State) : List StepCase :=
  match Maps.find s.groups k with
  | none => []
  | some g => match g.haltSeen with
    | none => []
    | some n =>
      let skid := if n = 4 then 0 else min 2 n
      let able : Bool := !inProgress g && !g.exited && g.parked.isNone && !g.halted && !g.stalled && !stackBusy s k && decide (g.held.length < 16 ∧ g.depth ≤ stackCap g)
      let stopped (skid : Nat) (w : Option Wait) (src : Option (AMap Word × AMap Word)) : State := onGroup k (fun g => { g with
        tileSrc := src, halted := true, haltSeen := none, sleepTo := none, waiting := w, depth := g.depth + 1
        held := { kind := .trap, mask := g.active, rpc := g.pc, cause := 0x0D, skid := BitVec.ofNat 2 skid, mode := g.mode.setWidth 8 } :: g.held }) s
      match g.waiting with
      | some (.mtile _ _ _ _) => [{ ok := able, after := stopped (max 1 skid) none none }]
      | w => [{ ok := able && isPacketStart g.pc, after := stopped skid w g.tileSrc }]

/-- When no group of the team is parked the SIBHALT entry is popped: mask, pc and mode are back (R175). -/
def popCases (k : Nat) (s : State) : List StepCase :=
  match Maps.find s.groups k with
  | none => []
  | some g => match g.held with
    | [] => []
    | e :: rest =>
      [{ ok := g.halted && decide ((teamAt s (handleOf k)).parkedCnt = 0) && !tltMove s (teamAt s (handleOf k)).ctx (handleOf k) &&
           !stackBusy s k && decide (g.depth ≤ g.held.length)
         after := onGroup k (fun g => { g with
           halted := false, active := e.mask, pc := e.rpc, block := none, mode := (g.mode &&& 0xFFFFFF00#32) ||| e.mode.setWidth 32
           held := rest, depth := g.depth - 1, paths := Maps.del g.paths (g.depth - 1) }) s }]

/-! R162 to R164: renegotiation. -/

/-- The request words of a renegotiation, and its status by the rule's order: malformed, unequal, too large for the region or for
an empty core, too large now. -/
def asksOf (s : State) (h : Nat) : List Word := (teamAt s h).reallocs.map (·.2)

def statusFacts (h : Nat) (s : State) : List StepFact :=
  let t := teamAt s h
  let asks := asksOf s h
  let w := asks.head?.getD 0
  let (rk, sk) := carveSizes (coreAt s t.core).carve
  let regs := t.ngroups * 128 * askRegs w
  let bad : Bool := asks.any fun w => decide (w.toNat / 2 ^ 15 ≠ 0 ∨ bitsN w.toNat 7 4 ≠ 0 ∨ 96 < bitsN w.toNat 14 8)
  let same : Bool := asks.all (· == w)
  let beyond : Bool := ((regionChain s t.ctx t.region).getD []).any fun r =>
    (r == 0 || decide (rcbField s t.ctx r 18 18 = 1)) && decide (rcbField s t.ctx r 55 49 < askScr w)
  let never : Bool := beyond || decide (rk * 1024 < regs ∨ sk / 64 < askScr w)
  let tight : Bool := decide (rk * 1024 < regsUsed s t.core - t.ngroups * 128 * t.regs + regs ∨ sk / 64 < scrUsed s t.core - t.scr + askScr w)
  let told (st : Nat) (f : Group → Group) (u : State) : Bool := (liveGroups s h).all fun k =>
    match Maps.find s.groups k, Maps.find u.groups k with
    | some g, some x => (match g.waiting with
      | some (.realloc d) => decide (x = { (f g).setS d (BitVec.ofNat 32 st) with waiting := none })
      | _ => true)
    | _, _ => false
  let phase (u : State) : Bool := decide ((teamAt u h).barPhase = t.barPhase + 1) && decide ((teamAt u h).barIn = 0) && (teamAt u h).reallocs.isEmpty
  let kept (u : State) : Bool := decide ((teamAt u h).regs = t.regs ∧ (teamAt u h).scr = t.scr) && decide ((teamAt u h).scratch = t.scratch)
  let due := reallocDue s h
  let case_ (st : Nat) (ok : Bool) : StepFact := { ok := due && ok, must := fun u => told st id u && phase u && kept u }
  [case_ 4 bad, case_ 3 (!bad && !same), case_ 2 (!bad && same && never), case_ 1 (!bad && same && !never && tight),
   { ok := due && !bad && same && !never && !tight
     must := fun u => told 0 (Group.shrink (askRegs w)) u && phase u && decide ((teamAt u h).regs = 16 * (w.toNat % 16 + 1) ∧
       (teamAt u h).scr = bitsN w.toNat 14 8) && decide ((teamAt u h).scratch = Maps.below t.scratch (65536 * askScr w)) }]

/-! R176 to R179: ember tokens. -/

/-- A token at cluster `c` that is withdrawn, goes to the lowest cluster with a request of class hearth, stays, or hops on (R177, R179). -/
def tokenCases (ok : Bool) (d i c : Nat) (mayKeep : Bool) (s : State) : List StepCase :=
  let x := dieAt s d
  let surplus : Bool := decide (x.embTcnt.toNat < x.tokens.length)
  let place : Bool := mayKeep && !(x.tokens.any fun t => t.cluster == c && t.arrives.isNone)
  let wants : Bool := clusterWants s d c false
  let put (t : Token) : State := onDie d (fun x => { x with tokens := x.tokens.set i t }) s
  let stay := put { cluster := c, arrives := none, start := s.clock, idle := s.clock }
  let hops (c : Nat) : Token := { cluster := c, arrives := some (s.clock + 16) }
  [{ ok := ok && surplus, after := onDie d (fun x => { x with tokens := x.tokens.eraseIdx i }) s },
   { ok := ok && !surplus && hearthNext s d == some c && place, after := stay },
   { ok := ok && !surplus && (hearthNext s d).isNone && place && wants, after := stay },
   { ok := ok && !surplus && (hearthNext s d).isNone && !(place && wants), after := put (hops ((c + 1) % 6)) }] ++
  match hearthNext s d with
  | none => []
  | some n =>
    [{ ok := ok && !surplus && !(place && n == c)
       after := onDie d (fun x => { x with tokens := x.tokens.set i (hops n), hearthReq := n :: x.hearthReq }) s }]

/-! R37, R38: heat. -/

/-- The die is held: its teams and cards are gone, EMBCTL is as after reset (R38, R176), every context with work on it has a THERMAL record. -/
def heatFacts (i : Instr) (s : State) : List StepFact :=
  match i with
  | .thermalReset d temp =>
    let d := d.toNat
    let touched (c : Nat) : Bool := (s.teams.any fun e => dieOfCore e.2.core == d && e.2.ctx == c) || (dieAt s d).cards.any fun e => e.2.ctx == c
    [{ ok := decide (110 ≤ temp.toNat) && (dieAt s d).running && !(dieAt s d).heldReset
       must := fun t => let x := dieAt t d
         x.heldReset && x.temp == temp && decide (x.tokens = freshTokens 0 ∧ x.embTcnt = 6 ∧ x.overflow = 0) && x.cards.isEmpty && x.ctrs.isEmpty && x.waits.isEmpty && x.events.isEmpty &&
           (t.teams.all fun e => dieOfCore e.2.core != d) &&
           (s.teams.all fun e => dieOfCore e.2.core != d || x.frecs.any fun r => r.reason == .thermal && r.ctx == e.2.ctx) &&
           ((dieAt s d).cards.all fun e => touched e.2.ctx && x.frecs.any fun r => r.reason == .thermal && r.ctx == e.2.ctx) }]
  | _ => []

/-- The token count cut to 1 at 100 °C, and restored below 95 °C (R37, R38). -/
def heatCases (i : Instr) (s : State) : List StepCase :=
  match i with
  | .thermalThrottle d temp =>
    let d := d.toNat
    let x := dieAt s d
    [{ ok := decide (100 ≤ temp.toNat) && x.tokenSave.isNone && !x.heldReset && !x.tokens.isEmpty
       after := onDie d (fun x => { x with temp := temp, tokenSave := some x.embTcnt, embTcnt := 1 }) s }]
  | .thermalTokenRestore d temp =>
    let d := d.toNat
    let x := dieAt s d
    match x.tokenSave with
    | none => []
    | some n =>
      let more := n.toNat - x.tokens.length
      let able : Bool := decide (temp.toNat < 95) && !x.heldReset && decide (1 ≤ n.toNat ∧ n.toNat ≤ 6)
      [{ ok := able && more == 0, after := onDie d (fun x => { x with temp := temp, tokenSave := none, embTcnt := n }) s },
       { ok := able && more != 0
         after := onDie d (fun x => { x with
           temp := temp, tokenSave := none, embTcnt := n
           tokens := x.tokens ++ List.replicate more { cluster := 0, arrives := some (s.clock + 1 + Config.freeNat s.draws % 16) } })
           { s with draws := s.draws + 1 } }]
  | _ => []

/-- The steps of groups, teams and tokens. -/
def groupCases (i : Instr) (s : State) : List StepCase :=
  match i with
  | .waitTableRewalk d n => match Maps.find (dieAt s d.toNat).waits n.toNat with
    | some e => rewalkCases d.toNat n.toNat e s
    | none => []
  | .siblingStop k => stopCases k s
  | .sibhaltPop k => popCases k s
  | .sleepExpiry k => match Maps.find s.groups k with
    | some g => [{ ok := g.sleepTo.any fun t => decide (t ≤ s.clock), after := onGroup k (fun g => { g with sleepTo := none }) s }]
    | none => []
  | .tokenHop d i => match (dieAt s d.toNat).tokens[i]? with
    | some t =>
      let u := onDie d.toNat (fun x => { x with hearthReq := x.hearthReq.filter (· != t.cluster) }) s
      let up : Bool := (dieAt s d.toNat).running && !(dieAt s d.toNat).heldReset
      tokenCases (up && t.arrives.any fun c => decide (c ≤ s.clock)) d.toNat i t.cluster true u
    | none => []
  | .burstEnd d c => match burstDue s d.toNat c with
    | some i => tokenCases true d.toNat i c false s
    | none => []
  | _ => []

def reallocFacts (i : Instr) (s : State) : List StepFact :=
  match i with
  | .reallocDecision h => statusFacts h s
  | _ => []

end Sys2Proof.Claims
end

