-- ==== Sys2Proof/Claims/Launches.lean ====
section
/-! DEFINITION. The cases of the die sequencer and the distributor: context commands (R43), posts and gates (R73 to R80), readiness
(R76, R77, R85), placement, holds and drains (R86 to R94, R330), retirement (R90, R91, R302), event records (R82 to R84, R437). -/

namespace Sys2Proof.Claims

open Sys2Proof.Machine

/-! R43: context commands. -/

/-- CTXCMD keeps the command with its status. -/
def ctxStatus (st op c : Nat) (s : State) : State := { s with io := { s.io with ctxcmd := BitVec.ofNat 32 (st * 2 ^ 28 + op * 2 ^ 24 + c) } }

def contextCases (i : Instr) (s : State) : List StepCase :=
  match i with
  | .ctxCreate w =>
    let c := w.toNat % 4096
    let op : Bool := decide (bitsN w.toNat 25 24 = 0)
    let fresh : Bool := op && decide (c ≠ 0) && !ctxValid s c
    let second : Bool := decide (ctxClass s c = 0) && hearthExists s c
    [{ ok := op && (c == 0 || ctxValid s c), after := ctxStatus 4 0 c s },
     { ok := fresh && ctxReserved s c, after := ctxStatus 2 0 c s },
     { ok := fresh && !ctxReserved s c && second, after := ctxStatus 1 0 c s },
     { ok := fresh && !ctxReserved s c && !second
       after := ctxStatus 0 0 c (setCtxField (setCtxField (setCtxField (setCtxField s c 383 320 0) c 71 64 0) c 3 3 0) c 0 0 1) }]
  | .ctxKill w =>
    let c := w.toNat % 4096
    [{ ok := decide (bitsN w.toNat 25 24 = 1) && (c == 0 || !ctxValid s c), after := ctxStatus 4 1 c s }]
  | .ctxDestroy w =>
    let c := w.toNat % 4096
    let op : Bool := decide (bitsN w.toNat 25 24 = 2)
    let there : Bool := op && decide (c ≠ 0) && ctxValid s c
    let u := setCtxField s c 0 0 0
    [{ ok := op && (c == 0 || !ctxValid s c), after := ctxStatus 4 2 c s },
     { ok := there && ctxBusy s c, after := ctxStatus 3 2 c s },
     { ok := there && !ctxBusy s c
       after := ctxStatus 0 2 c { u with cores := Maps.mapAll u.cores fun _ k => { k with tlb := k.tlb.filter fun e => e.asid != ctxAsid s c } } }]
  | _ => []

/-- A context killed: no team or evicted team of it is left, no card of it waits, a KILLED record is on its way to its root queue. -/
def contextFacts (i : Instr) (s : State) : List StepFact :=
  match i with
  | .ctxKill w =>
    let c := w.toNat % 4096
    [{ ok := decide (bitsN w.toNat 25 24 = 1) && decide (c ≠ 0) && ctxValid s c
       must := fun t => (t.teams.all fun e => e.2.ctx != c) && (t.saved.all fun e => e.2.ctx != c) &&
         (t.dies.all fun d => d.2.cards.all fun e => e.2.ctx != c || e.2.lost || e.2.st == .engine) &&
         (match (dieAt t 8).frecs.getLast? with
           | some r => r == unitRecord 8 .killed c 0 0 0 true
           | none => false) && t.io.ctxcmd == BitVec.ofNat 32 (2 ^ 24 + c) }]
  | _ => []

/-! R73, R74: posts. -/

/-- The card of a post, as the sequencer takes it. -/
def postedCard (p : Post) : Card :=
  let stage := bitsN p.bits.toNat 283 281
  { bits := p.bits, addr := p.addr, ctx := p.ctx, posted := 0, st := .released, count := bitsN p.bits.toNat 255 224
    noGrow := bitN p.bits.toNat 378 || stage == 3, counted := stage != 3 }

/-- A post at the sequencer: refused with a record, or stored in the first free entry, released or on its way to its gate. -/
def postCases (d : Nat) (p : Post) (s : State) : List StepCase :=
  let u := onDie d (fun x => { x with posts := removeFirst (· == p) x.posts }) s
  let c := postedCard p
  let held : Bool := (dieAt s d).heldReset
  let n := (((List.range 4096).find? fun i => (Maps.find (dieAt s d).cards i).isNone).getD 0)
  let gate := bitsN p.bits.toNat 303 288
  let stored (st : CardSt) (ops : List CtrOp) : State := onDie d (fun x => { x with
    queueSeq := x.queueSeq + 1, cards := Maps.set x.cards n { c with posted := x.queueSeq, st := st }, ctrOps := x.ctrOps ++ ops }) u
  [{ ok := held, after := record d (postRecord u d .thermal p d) u },
   { ok := !held && !cardOk u d c, after := record d (postRecord u d .badcard p 0) u },
   { ok := !held && cardOk u d c && !bitN gate 15, after := stored .released [] },
   { ok := !held && cardOk u d c && bitN gate 15
     after := stored (.gated 0) [{ idx := gate % 4096, kind := .park n, src := .control 0, rank := 0 }] }]

/-! R78 to R80: counters. -/

/-- One operation alone at a counter. -/
def counterCases (d n : Nat) (s : State) : List StepCase :=
  let x := dieAt s d
  let due : Bool := decide (Maps.get 0 x.ctrAt n ≠ s.clock + 1) && !x.heldReset
  let v := (Maps.get 0 x.ctrs n).toNat
  let u := onDie d (fun y => { y with ctrOps := y.ctrOps.filter fun o => o.idx != n || s.clock < o.leaves, ctrAt := Maps.set y.ctrAt n (s.clock + 1) }) s
  let becomes (v : Nat) (t : State) : State := onDie d (fun y => { y with ctrs := Maps.put 0 y.ctrs n (BitVec.ofNat 20 v) }) t
  let opens (core : Option Nat) (t : State) : State := onDie d (releaseParked n core) t
  match x.ctrOps.filter fun o => o.idx == n && o.leaves ≤ s.clock with
  | [o] => match o.kind, o.src with
    | .set w, _ =>
      [{ ok := due && decide (v ≠ 0 ∧ w = 0), after := opens none (becomes 0 u) },
       { ok := due && !decide (v ≠ 0 ∧ w = 0), after := becomes w u }]
    | .dec, .retire c h from_ core =>
      [{ ok := due && decide (1 < v), after := becomes (v - 1) u }, { ok := due && decide (v = 1), after := opens core (becomes 0 u) },
       { ok := due && decide (v = 0), after := record d (unitRecord d .depunder c h 0 (d * 4096 + n + from_ * 2 ^ 18) false) u }]
    | .dec, .event c h from_ =>
      [{ ok := due && decide (1 < v), after := becomes (v - 1) u }, { ok := due && decide (v = 1), after := opens none (becomes 0 u) },
       { ok := due && decide (v = 0), after := record d (unitRecord d .depunder c h 0 (d * 4096 + n + 2 ^ 16 + from_ * 2 ^ 18) false) u }]
    | .dec, .control _ =>
      [{ ok := due && decide (1 < v), after := becomes (v - 1) u }, { ok := due && decide (v = 1), after := opens none (becomes 0 u) },
       { ok := due && decide (v = 0), after := record d (unitRecord d .depunder 0 0 0 (d * 4096 + n + 3 * 2 ^ 16) true) u }]
    | .park k, _ =>
      [{ ok := due
         after := onDie d (fun y => { y with
           parkSeq := y.parkSeq + 1
           cards := Maps.modify y.cards k fun c => if v = 0 then { c with st := .released, gateCore := none } else { c with st := .gated (y.parkSeq + 1) } }) u }]
    | _, _ => []
  | _ => []

/-- What several operations that reach a counter in one clock leave: a set first, then every decrement, none below 0 (R78, R80). -/
def counterFacts (i : Instr) (s : State) : List StepFact :=
  match i with
  | .counterUpdate d n =>
    let x := dieAt s d.toNat
    let ops := x.ctrOps.filter fun o => o.idx == n.toNat && o.leaves ≤ s.clock
    let sets := ops.filterMap fun o => match o.kind with
      | .set v => some (v % 2 ^ 20)
      | _ => none
    let decs := (ops.filter fun o => o.kind == .dec).length
    let v := (Maps.get 0 x.ctrs n.toNat).toNat
    [{ ok := !x.heldReset && !ops.isEmpty && decide (Maps.get 0 x.ctrAt n.toNat ≠ s.clock + 1) && decide (sets.length ≤ 1)
       must := fun t => decide ((Maps.get 0 (dieAt t d.toNat).ctrs n.toNat).toNat = (sets.head?.getD v) - decs) &&
         (dieAt t d.toNat).ctrOps.all fun o => o.idx != n.toNat || s.clock < o.leaves }]
  | _ => []

/-! R76, R77, R85: readiness. -/

/-- A compute card that alone becomes ready: its number; with no bit of its visibility range set it is skipped, with a range that
cannot be read it is skipped with a record. -/
def readyCases (d : Nat) (s : State) : List StepCase :=
  let x := dieAt s d
  match readySet x.cards (x.cards.length + 1) [] with
  | [k] => match Maps.find x.cards k with
    | none => []
    | some c =>
      let due : Bool := x.readyAt != s.clock + 1 && (countersDue s d).isEmpty && decide (c.stage = 0) && c.counted
      let n := x.readySeq.toNat
      let c := { c with st := .ready n, seq := n, drec := [], frec := [] }
      let first := c.vbase / 8
      let va : Dword := BitVec.ofNat 64 (c.vtab + first)
      let len := (c.vbase + c.vlen - 1) / 8 - first + 1
      -- what the read of the range leaves
      let u := if c.vlen = 0 then s else engineMeet d c.ctx va len s
      let put (c : Card) : State := onDie d (fun y => { y with readySeq := y.readySeq + 1, cards := Maps.set y.cards k c }) u
      let last (t : State) : State := onDie d (fun y => { y with readyAt := s.clock + 1 }) t
      let skip := put { c with skipped := true, count := 0, cullDone := true }
      let bits := engineRead s d c.ctx va len
      let any (bs : List Byte) : Bool := (List.range c.vlen).any fun i => bitN (Maps.leNat bs) (c.vbase % 8 + i)
      match bits with
      | .ok bs =>
        [{ ok := due && (c.vlen == 0 || any bs), after := last (put c) }, { ok := due && c.vlen != 0 && !any bs, after := last skip }]
      | .error e =>
        [{ ok := due && c.vlen == 0, after := last (put c) },
         { ok := due && c.vlen != 0, after := last (record d (unitRecord d .structfault c.ctx c.region e.2 (256 + e.1.code) false) skip) }]
  | _ => []

/-! R87, R88, R330, R434: placement. -/

/-- The first card of the ready order, and that nothing keeps it back. -/
def firstReady (d : Nat) (s : State) : Option (Nat × Card) :=
  let x := dieAt s d
  if !x.running ∨ x.heldReset ∨ (rcbFault s d).isSome then none
  else match readyList s d with
    | (k, c) :: _ => if heldOut s d d k c ∨ !c.restores.isEmpty then none else some (k, c)
    | [] => none

/-- A decompression card first in the ready order takes a place of the engine (R434). -/
def jobCases (d : Nat) (s : State) : List StepCase :=
  match firstReady d s with
  | some (k, c) =>
    [{ ok := c.isDecomp && decide ((dieAt s d).jobs.length < 16)
       after := onDie d (fun x => { x with
         jobs := x.jobs ++ [{ slot := k }], cards := Maps.modify x.cards k fun c => { c with st := .engine, next := 1, placed := true } }) s }]
  | none => []

/-- The next team of a compute card first in the ready order, on the core that R88 names, under the lowest free handle of R96: its
allotment, and each group's entry state (R330). -/
def placeFacts (i : Instr) (s : State) : List StepFact :=
  match i with
  | .teamPlacement d =>
    let d := d.toNat
    match firstReady d s with
    | none => []
    | some (k, c) => match nextPlan s d k c with
      | none => []
      | some p => match pickCore s p (d, k) c.gateCore (dieCores d), freeHandleOf s d p.ctx with
        | some core, some h =>
          let n := (c.tthr + 31) / 32
          [{ ok := decide (c.stage = 0) && !c.isDecomp && !c.coRes && decide (c.next < c.count ∧ n ≤ 32) && (dieAt s d).meshRing.isEmpty &&
               decide (Maps.find (dieAt s d).cards k = some c)
             must := fun t => match Maps.find t.teams h with
               | none => false
               | some m => decide (m.core = core ∧ m.ctx = c.ctx ∧ m.region = c.region ∧ m.die = d ∧ m.slot = k ∧ m.tidx = c.next ∧
                   m.regs = c.allot ∧ m.scr = c.scr ∧ m.ngroups = n ∧ m.gen = tltGen s c.ctx h) && m.scratch.isEmpty &&
                 (match Maps.find (dieAt t d).cards k with
                   | some x => decide (x.next = c.next + 1 ∧ x.live = c.live + 1)
                   | none => false) &&
                 (List.range n).all fun gi => match Maps.find t.groups (groupKey h gi) with
                   | none => false
                   | some g => g.pc == c.entryPc && g.active == maskOf (fun l => decide (32 * gi + l < c.tthr)) &&
                       g.s64 0 == c.param && g.s 2 == BitVec.ofNat 32 c.next && g.s 3 == BitVec.ofNat 32 gi &&
                       ((List.range 32).all fun l => g.v 0 l == BitVec.ofNat 32 (32 * gi + l) && g.v 1 l == 0) &&
                       g.sup == (c.ctx == 0) && g.trapbase == (dieAt s d).dtrapbase && g.depth == 0 && g.s 4 == 0 }]
        | _, _ => []
  | _ => []

/-! R87, R94: holds and drains. -/

/-- The victims' context is reset on the draining cores: those teams are gone, and a DRAIN record is on its way to its root. -/
def drainFacts (i : Instr) (s : State) : List StepFact :=
  match i with
  | .drainDeadline h => match Maps.find s.teams h with
    | none => []
    | some v =>
      let d := dieOfCore v.core
      [{ ok := (v.drainAt.any fun c => decide (c ≤ s.clock)) && (drainClass s v.core).isSome
         must := fun t => (Maps.find t.teams h).isNone && ((drainedTeams s v).all fun j => (Maps.find t.teams j).isNone) &&
           (match (dieAt t d).frecs.getLast? with
             | some r => r == unitRecord d .drain v.ctx 0 0 0 true
             | none => false) }]
  | _ => []

/-! R90, R91, R255, R302: retirement. -/

/-- A launch that is not a draw: its statistics cleared, written where it has a place for them and was neither skipped nor killed;
its successors decremented, or, killed, a KILLED record; its entry free, as soon as the last decrement has left (R91, R492). -/
def retireCases (d k : Nat) (c : Card) (s : State) : List StepCase :=
  let plain : Bool := mayRetire s d k c && !c.isDraw
  let clear := onDie d (fun x => { x with stats := x.stats.filter fun e => !c.tags.contains e.1 }) s
  [{ ok := plain && c.killed, after := freeCard d k (record d (unitRecord d .killed c.ctx c.region c.addr 0 false) clear) },
   { ok := plain && !c.killed && (c.skipped || c.stats == 0), after := endCard d k (validSuccs c).length (decSuccessors d c clear) },
   { ok := plain && !c.killed && !c.skipped && c.stats != 0, after := endCard d k (validSuccs c).length (decSuccessors d c (writeStats d c s)) }]

/-- The entry of a launch that has retired in `s`: free, or to be free once the last of its decrements has left (R91, R492). -/
def entryEnds (s : State) (c : Card) (c' : Option Card) : Bool :=
  let n := ((List.range 4).filter fun j => bitN (c.succ j) 15).length
  match c' with
  | none => c.killed || decide (n ≤ 1)
  | some x => !c.killed && decide (1 < n) && x.freeAt == some (s.clock + n)

/-- The launch is over; each of its successors has a decrement on its way, the next one a clock later (R492), unless it was killed. -/
def retireFacts (i : Instr) (s : State) : List StepFact :=
  match i with
  | .launchRetirement d k => match Maps.find (dieAt s d.toNat).cards k.toNat with
    | none => []
    | some c =>
      [{ ok := mayRetire s d.toNat k.toNat c
         must := fun t => entryEnds s c (Maps.find (dieAt t d.toNat).cards k.toNat) && (c.killed || (List.range 4).all fun i =>
           let v := c.succ i
           !bitN v 15 || (dieAt t (bitsN v 14 12)).ctrOps.any fun o =>
             o.idx == v % 4096 && o.kind == .dec && o.src == .retire c.ctx c.region d.toNat c.lastExit &&
               o.leaves == s.clock + ((List.range i).filter fun j => bitN (c.succ j) 15).length) }]
  | _ => []

/-! R82 to R84: event records. -/

/-- The record at the head of the queue: discarded if of no kind; else its decrement, its post, its entry in the notify ring, and then the
retirement of the decompression card that it ends (R83, R478). Its decrement of a counter of its own die is applied before the rest; a post
that finds the target's card store full keeps the record at the head, and lets the card retire first. -/
def eventCases (d : Nat) (s : State) : List StepCase :=
  match (dieAt s d).events with
  | [] => []
  | e :: rest =>
    let b := e.bits.toNat
    let kind := bitsN b 31 27
    let known : Bool := decide (1 ≤ kind ∧ kind ≤ 4)
    let target := bitsN b 14 12
    let own : Bool := bitN b 15 && target == d
    -- the decrement of a record that has been held at the head has been made
    let applied : Bool := e.stuck && !((dieAt s d).ctrOps.any fun o => o.src == .event e.ctx e.region d && o.idx == bitsN b 11 0)
    let up : Bool := !(dieAt s d).heldReset && !inputHeld s (enginePort d)
    let op : CtrOp := { idx := bitsN b 11 0, kind := .dec, src := .event e.ctx e.region d, rank := if target = d then 1 else 100000 + d }
    let u := if bitN b 15 && !e.stuck then onDie target (fun x => { x with ctrOps := x.ctrOps ++ [op] }) s else s
    let go : Bool := up && known && (if own then applied else true)
    let popped := onDie d (fun x => { x with events := rest }) u
    let posts : Bool := bitN b 25
    let goal := bitsN b 24 22
    let va : Dword := BitVec.ofNat 64 (b / 2 ^ 64)
    let near : Bool := goal == d || goal == (d + 1) % 8 || goal == (d + 7) % 8
    let bad : Bool := !near || decide (va.toNat % 64 ≠ 0)
    let told (t : State) : State := retireJob d e.job (if bitN b 26 then notify d e.bits t else t)
    [{ ok := up && !known && !e.stuck
       after := retireJob d e.job (onDie d (fun x => { x with events := rest, discarded := x.discarded + 1 }) s) },
     { ok := up && known && own && !e.stuck, after := onDie d (fun x => { x with events := { e with stuck := true } :: rest }) u },
     { ok := go && !posts, after := told popped },
     { ok := go && posts && bad, after := told (record d (unitRecord d .badcard e.ctx e.region va 0 false) popped) }] ++
    match engineRead u d e.ctx va 64, engineRead popped d e.ctx va 64 with
    | .ok _, .ok bs =>
      [{ ok := go && posts && !bad && storeFull u goal && (!e.stuck || e.job.isSome)
         after := retireJob d e.job (onDie d (fun x => { x with events := { e with stuck := true, job := none } :: rest }) u) },
       { ok := go && posts && !bad && !storeFull u goal
         after := told (engineMeet d e.ctx va 64 (onDie goal (fun x => { x with posts := x.posts ++ [{
           rank := if goal = d then 0 else 100000 + d, bits := lineOf bs, addr := va, ctx := e.ctx, region := some e.region }] }) popped)) }]
    | .error _, .error x =>
      [{ ok := go && posts && !bad
         after := told (engineMeet d e.ctx va 64 (record d (unitRecord d .structfault e.ctx e.region va (2 * 256 + x.1.code) false) popped)) }]
    | _, _ => []

/-- A free slot lets the first held completion enter its record, which a die held in reset discards with a record (R38). -/
def slotCases (d : Nat) (s : State) : List StepCase :=
  let x := dieAt s d
  let room : Bool := decide (x.events.length < 1024)
  match x.heldEvents with
  | e :: rest =>
    let u := onDie d (fun x => { x with heldEvents := rest }) s
    let enter (t : State) : State :=
      if x.heldReset then retireJob d e.job (record d (unitRecord d .thermal e.ctx e.region 0 d false) t)
      else onDie d (fun x => { x with events := x.events ++ [{ e with bar := none }] }) t
    (match e.bar with
      | none => [{ ok := room, after := enter u }]
      | some (h, off, n, bad) =>
        [{ ok := room, after := enter (barrierStepAt (enginePort d) e.ctx (h % 2 ^ 20) (h / 2 ^ 20) off n bad u) }])
  | [] => match x.jobs.find? fun j => j.event.isSome with
    | some j => match j.event with
      | some e =>
        [{ ok := room && e.bar.isNone && !x.heldReset
           after := dropJob d j.slot (onDie d (fun x => { x with events := x.events ++ [{ e with bar := none }] }) s) }]
      | none => []
    | none => []

/-- The end of a decompression job (R437): an unreadable job record leaves a STRUCTFAULT record and retires the card; else a record of kind 3
that names the launch enters the queue and the job's place is free, or job and record wait for a slot. A malformed job record, its last bytes
in one writable page, gets OUTLEN 0 and STATUS 3. -/
def jobEndFacts (i : Instr) (s : State) : List StepFact :=
  match i with
  | .decompressionJobEnd d k =>
    let d := d.toNat
    let k := k.toNat
    let due : Bool := ((dieAt s d).jobs.any fun j => j.slot == k && j.event.isNone) && !inputHeld s (enginePort d)
    let out (t : State) : Bool := (dieAt t d).jobs.all fun j => j.slot != k
    match Maps.find (dieAt s d).cards k with
    | none => []
    | some c => match (jobRecord d c s).1 with
      | .error x =>
        [{ ok := due && !c.killed
           must := fun t => entryEnds s c (Maps.find (dieAt t d).cards k) && out t &&
             (dieAt t d).frecs.getLast? == some (unitRecord d .structfault c.ctx c.region c.param (4 * 256 + x.reason.code) false) }]
      | .ok rec_ =>
        let malformed : Bool := !allZero rec_ 29 3 || !allZero rec_ 48 16 || bitsN (recField rec_ 32 16) 21 16 != 0
        [{ ok := due && !(dieAt s d).heldReset && decide ((dieAt s d).events.length < 1024)
           must := fun t => (Maps.find (dieAt t d).cards k).isSome && out t &&
             (match (dieAt t d).events.getLast? with
               | some e => bitsN e.bits.toNat 31 27 == 3 && e.ctx == c.ctx && e.region == c.region && e.job == some (k, c.posted) &&
                   (dieAt t d).events.length == (dieAt s d).events.length + 1
               | none => false) },
         { ok := due && decide (1024 ≤ (dieAt s d).events.length)
           must := fun t => (Maps.find (dieAt t d).cards k).isSome && (dieAt t d).events == (dieAt s d).events &&
             (dieAt t d).jobs.all fun j => j.slot != k || j.event.isSome }] ++
        -- the read of the record comes first
        let u := (jobRecord d c s).2
        match engineTr u (enginePort d) c.ctx (c.param + 24) true with
        | .ok pa =>
          [{ ok := due && malformed && decide (c.param.toNat % 65536 + 29 ≤ 65536) && (lostLink u (enginePort d) pa 5).isNone &&
               (List.range 5).all fun i => (viewOf u.mem (pa + i)).isNone
             must := fun t => natAt t.mem pa 4 == 0 && natAt t.mem (pa + 4) 1 == 3 }]
        | .error _ => []
  | _ => []

/-- The steps of the sequencer and the distributor. -/
def launchCases (i : Instr) (s : State) : List StepCase :=
  match i with
  | .cardPostArrival d => match takePost (dieAt s d.toNat).posts with
    | some p => postCases d.toNat p s
    | none => []
  | .cardStoreEntryFreed d =>
    let d := d.toNat
    match (dieAt s d).posts.find? (·.held) with
    | some p =>
      let u := onDie d (fun x => { x with posts := removeFirst (· == p) x.posts ++ [{ p with held := false }] }) s
      [{ ok := !storeFull s d
         after := match p.group with
           | some k => onGroup k (fun g => if g.waiting = some .post then { g with waiting := none } else g) u
           | none => u }]
    | none => []
  | .counterUpdate d n => counterCases d.toNat n.toNat s
  | .cardReady d => readyCases d.toNat s
  | .teamPlacement d => jobCases d.toNat s
  | .admholdExpiry d => match holdDue s d.toNat with
    | some h => [{ after := onDie d.toNat (fun x => { x with admitHold := some h }) s }]
    | none => []
  | .launchRetirement d k => match Maps.find (dieAt s d.toNat).cards k.toNat with
    | some c => retireCases d.toNat k.toNat c s
    | none => []
  | .eventRecord d => eventCases d.toNat s
  | .eventQueueSlotFreed d => slotCases d.toNat s
  | _ => []

end Sys2Proof.Claims
end

