-- ==== Sys2Proof/Claims/Outer.lean ====
section
/-! DEFINITION. The cases of the I/O dies: rings written for software (R68, R269), snapshots (R55 to R57), links (R22 to R32), the
display (R120, R121, R138 to R145), endpoints (R34), boot and management (R46 to R54), the lifetime record and the supply (R62). -/

namespace Sys2Proof.Claims

open Sys2Proof.Machine

/-! R68, R269, R298: rings. -/

/-- The next fault record of a die: discarded where its domain has no queue with a base in a domain (R497), counted in LOST where the ring
is full, else written with WRIDX after it and, into an empty ring, an MSI. -/
def faultRingCases (d : Nat) (s : State) : List StepCase :=
  match (dieAt s d).frecs with
  | [] => []
  | r :: rest =>
    let seq := (dieAt s d).fseq
    let u := onDie d (fun x => { x with frecs := rest, fseq := x.fseq + 1 }) s
    let (base, log, cc, irq) := queueOf u r
    let there : Bool := decide (base ≠ 0) && (domainOf s.mem base).isSome
    let cap := 2 ^ (log + 6) - 1
    let w := natAt s.mem base 4
    let rd := natAt s.mem (base + 4) 4 % cap
    let full : Bool := decide ((w + 1) % cap = rd)
    let put := onMem (fun m => putNat (storeReach m (base + 64 * (w + 1)) (recordBytes r seq)) base 4 ((w + 1) % cap)) u
    [{ ok := !there, after := u },
     { ok := there && full, after := onMem (fun m => putNat m (base + 8) 4 (min 0xFFFFFFFF (natAt m (base + 8) 4 + 1))) u },
     { ok := there && !full && decide (w = rd), after := raiseMsi cc irq put },
     { ok := there && !full && decide (w ≠ rd), after := put }]

/-- The next flue record of a die, likewise; the ring's indices run freely (R268, R269). -/
def flueRingCases (d : Nat) (s : State) : List StepCase :=
  match (dieAt s d).flues with
  | [] => []
  | r :: rest =>
    let u := onDie d (fun x => { x with flues := rest }) s
    let usable : Bool := ringUsable u r.ring r.ctx
    let e := ringEntry u r.ring
    let base := bitsN e 45 12 * 2 ^ 12
    let n := 2 ^ (bitsN e 115 112 + 6)
    let w := natAt s.mem base 4
    let rd := natAt s.mem (base + 4) 4
    let full : Bool := decide ((w + 2 ^ 32 - rd) % 2 ^ 32 = n)
    let put := onMem (fun m => putNat (storeRange m (base + 64 + 32 * (w % n)) (flueBytes d r)) base 4 ((w + 1) % 2 ^ 32)) u
    [{ ok := !usable || full, after := dropFlue d r.ring r.ctx u },
     { ok := usable && !full && decide (w = rd), after := raiseMsi (bitsN e 99 96) (bitsN e 111 100) put },
     { ok := usable && !full && decide (w ≠ rd), after := put }]

/-! R262: residency caches. -/

def residencyCases (core word : Nat) (s : State) : List StepCase :=
  match (coreAt s core).resInval with
  | (w, k) :: rest =>
    let ids := Maps.keys s.mem.net fun _ r => r.core == core && r.words.contains word
    [{ ok := w == word
       after := onGroup k (fun g => { g with resWait := g.resWait ++ ids })
         (onCore core (fun c => { c with resInval := rest, resCache := Maps.del c.resCache word }) s) }]
  | [] => []

/-! R55 to R57: snapshots. -/

/-- The root takes the next sequence number and sends it to every die. -/
def triggerFacts (i : Instr) (s : State) : List StepFact :=
  match i with
  | .snapTriggerRoot =>
    [{ ok := decide (1 ≤ s.io.triggers) && s.io.trigAt != s.clock + 1
       must := fun t => t.io.trigSeq == s.io.trigSeq + 1 && decide (t.io.triggers < s.io.triggers) && (s.io.triggers != 1 || t.io.triggers == 0) &&
         (List.range 10).all fun d => (Maps.get {} t.io.snaps d).due == (Maps.get {} s.io.snaps d).due ++ [(s.io.trigSeq + 1, s.clock)] }]
  | _ => []

/-- A trigger at a die: missed while HOLD keeps a full snapshot, else latched. -/
def latchCases (d : Nat) (s : State) : List StepCase :=
  let x := Maps.get {} s.io.snaps d
  match x.due with
  | [] => []
  | (q, _) :: rest =>
    let put (x : Snap) : State := { s with io := { s.io with snaps := Maps.set s.io.snaps d x } }
    let keeps : Bool := x.hold && x.full
    [{ ok := keeps && decide (x.missed.toNat < 255), after := put { x with due := rest, missed := x.missed + 1 } },
     { ok := keeps && x.missed == 255, after := put { x with due := rest } },
     { ok := !keeps, after := put { x with due := rest, seq := q, full := x.full || x.hold, values := snapValues s d } }]

/-! R22 to R32: links. -/

/-- A link that is up carries flits, but for one that has had more than 8 retries within 10^6 flits (R31). -/
def carriesNow (k : Link) : Bool := k.st == .up && !(decide (k.retryAt.length = 9) && k.retryAt.all fun n => decide (k.window < n + 1000000))

/-- A flit sent carries the next sequence number and the latest one received, raw where its class is so set, waits in the replay buffer for
its acknowledgement, and is counted. A port sends what waits on it: class 0 before the others (R29), whose turns are 4, 2 and 1, and
nothing before the package has an identifier (R27). An acknowledgement flit is a header alone (R26). -/
def flitFacts (i : Instr) (s : State) : List StepFact :=
  match i with
  | .flitSend l tc p =>
    let k := linkOf s l
    let waiting (c : BitVec 2) : Bool := k.queued.any fun e => e.1 == c
    let left (c : Nat) : Nat := Maps.get (match c with
      | 1 => 4
      | 2 => 2
      | _ => 1) k.credits c
    let spent : Bool := [1, 2, 3].all fun c => !waiting (BitVec.ofNat 2 c) || left c == 0
    let first : Bool := match l with
      | .port _ => s.boot.pkg.isSome && ((k.queued.find? fun e => e.1 == tc).map (·.2)) == some p &&
          (tc == 0 || (!waiting 0 && (spent || decide (0 < left tc.toNat))))
      | .ucie _ _ => true
    let ack : Nat := if k.rxAny then k.rxSeq.toNat else 0xFFF
    [{ ok := carriesNow k && p.isEmpty && tc == 0 && k.ackDue && k.queued.isEmpty
       must := fun t =>
         match (linkOf t l).sent.getLast? with
         | some f => linkOf t l == { k with sent := k.sent ++ [f], ackDue := false } && f.beats.isEmpty && flitOk f.header [] &&
             bitsN f.header.toNat 31 20 == ack
         | none => false },
     { ok := carriesNow k && decide (p.length = 64) && decide (k.replay.length < 2048) && first
       must := fun t =>
         let x := linkOf t l
         x.txSeq == k.txSeq + 1 && x.queued == takeQueued tc k.queued && x.flits == bump k.flits 1 && !x.ackDue &&
           (tc == 0 || spent || left tc.toNat == 0 || Maps.get 0 x.credits tc.toNat + 1 == left tc.toNat) &&
           (match x.replay.getLast? with
             | some f => x.replay == k.replay ++ [f] && x.sent == k.sent ++ [f] && f.seq == k.txSeq && f.tc == tc &&
                 (!k.tcdis.getLsbD tc.toNat || (f.mode == 0 && f.beats == p)) && flitOk f.header f.beats &&
                 bitsN f.header.toNat 11 0 == k.txSeq.toNat && bitsN f.header.toNat 13 12 == tc.toNat && bitsN f.header.toNat 31 20 == ack
             | none => false) }]
  | _ => []

/-- A flit received: failed and asked for again; an acknowledgement alone; out of order and dropped; or taken. What a port has received
whole is then served (R28). -/
def receiveCases (l : LinkId) (h : Dword) (beats : List Byte) (s : State) : List StepCase :=
  let k := linkOf s l
  let up := carriesNow k
  let v := h.toNat
  let n := bitsN v 19 16
  let seen : Link := { k with window := k.window + 1 }
  let acked : Link := { seen with replay := ackFlits (bitsN v 31 20) k.replay }
  let good : Bool := decide (beats.length = 16 * n) && crc32c (Maps.natLe (v % 2 ^ 32) 4 ++ beats) == v / 2 ^ 32 &&
    (if n = 0 then bitsN v 15 14 == 0 else n == ((expand (bitsN v 15 14) beats).2 + 15) / 16)
  let next : Bool := v % 4096 == (if k.rxAny then (k.rxSeq.toNat + 1) % 4096 else 0)
  let now (k : Link) : State := servePort l (setLink l k s)
  [{ ok := up && !good, after := now { seen with ackDue := true, retryAt := (k.retryAt ++ [k.window + 1]).drop (k.retryAt.length - 8) } },
   { ok := up && good && n == 0, after := now acked },
   { ok := up && good && n != 0 && !next, after := now { acked with ackDue := true } },
   { ok := up && good && n != 0 && next
     after := now { acked with
       rxSeq := BitVec.ofNat 12 v, rxAny := true, ackDue := true
       received := k.received ++ [(BitVec.ofNat 2 (bitsN v 13 12), (expand (bitsN v 15 14) beats).1)] } }]

/-- Retraining begun, ended, failed, and the link given up (R31, R32). -/
def retrainCases (i : Instr) (s : State) : List StepCase :=
  let counted (l : LinkId) (t : State) : State := match lifeLink l with
    | some n => countLife (.retrains n) 1 t
    | none => t
  match i with
  | .linkRetrain l =>
    let k := linkOf s l
    [{ ok := k.st == .up && decide (k.retryAt.length = 9) && k.retryAt.all fun n => decide (k.window < n + 1000000)
       after := counted l (setLink l { k with st := .retraining 0, retrains := k.retrains + 1, since := s.clock } s) }]
  | .retrainComplete l =>
    let k := linkOf s l
    match k.st with
    | .retraining n => [{ ok := decide (n < 4), after := setLink l { k with st := .up, retryAt := [], sent := k.sent ++ k.replay } s }]
    | _ => []
  | .retrainingAttemptFailure l =>
    let k := linkOf s l
    match k.st with
    | .retraining n =>
      [{ ok := decide (n < 3), after := counted l (setLink l { k with st := .retraining (n + 1), retrains := k.retrains + 1, since := s.clock } s) },
       { ok := n == 3, after := setLink l { k with st := .retraining 4 } s }]
    | _ => []
  | _ => []

/-- A link is taken down after four failed attempts: nothing waits on it any more, no route leads to it, and of the requests on their way
those that wait to cross it, they or their answers, fail with LINKDOWN, naming it, and of the sends those that wait to cross it, or whose
flits are queued on it or in its replay buffer, are answered bad capability. -/
def downFacts (i : Instr) (s : State) : List StepFact :=
  match i with
  | .linkDown l =>
    let k := linkOf s l
    let held (p : List Byte) : Bool := (k.queued.any fun e => e.2 == p) || k.replay.any fun f => (expand f.mode.toNat f.beats).1 == p
    let flits (i : Nat) (x : Send) : List (List Byte) := Config.fabricFlits (.send i x.ctx x.msg x.rel x.rnc x.k x.lmask x.words x.bytes)
    [{ ok := k.st == .retraining 4
       must := fun t => linkOf t l == { k with st := .down, replay := [], queued := [], failures := k.failures + 1 } &&
         t.mem.net == (s.mem.net.map fun e => (e.1,
           if (reqWay s e.2).takes s l && (e.2.st == .done || (e.2.st == .flying && !heldMove s e.2)) then
             { e.2 with st := .failed .linkdown, val := BitVec.ofNat 128 (linkNo l) }
           else e.2)) &&
         t.sends == (s.sends.map fun e => (e.1,
           if (e.2.st == .toCore && e.2.remote.isSome && (flits e.1 e.2).any held) || (e.2.st != .toCore && (sendWay s e.2).takes s l) then
             { e.2 with st := .replied 4 }
           else e.2)) &&
         (match l with
           | .port j => t.io.rtab.all fun e => !(e.2.getLsbD 7 && bitsN e.2.toNat 6 0 == j.toNat)
           | .ucie _ _ => t.io.rtab == s.io.rtab) }]
  | _ => []

/-! R120, R121, R138 to R145, R499: the display. -/

/-- A strip's start: gaze latched, view record read, deadline set, flue filters cleared. -/
def stripFacts (i : Instr) (s : State) : List StepFact :=
  match i with
  | .stripStart v =>
    let w := viewAt s v.toNat
    match startDue s v.toNat with
    | none => []
    | some n =>
      let latch : Dword := BitVec.ofNat 64 (w.gaze.toNat + n % 4 * 2 ^ 46 + n / 4 % 65536 * 2 ^ 48)
      [{ must := fun t => let x := viewAt t v.toNat
           x.glatch == latch && Maps.find x.latches (n % 4) == some latch && x.strip == some n && x.opened && x.accepted.isEmpty && x.past.contains latch &&
             (t.cores.all fun c => c.2.flueKeys.isEmpty) && x.gaze == w.gaze && x.vob == w.vob },
       { ok := !w.opened
         must := fun t => let x := viewAt t v.toNat
           x.record == readVrec s v.toNat && x.deadline == stripAt x n + budgetOf s { w with record := readVrec s v.toNat } }]
  | _ => []

/-- A seal: accepted once, within its strip and the grid, of a tile that its owner has not abandoned (R127), or dropped and counted. -/
def sealFacts (i : Instr) (s : State) : List StepFact :=
  match i with
  | .sealArrival => match s.display.seals with
    | [] => []
    | x :: rest =>
      let w := viewAt s x.view
      let fits : Bool := w.opened && decide (w.geo.strip = x.strip ∧ w.geo.frame = x.frame) && (gridTiles w).contains (x.tx, x.ty) &&
        !w.accepted.contains (x.tx, x.ty) && !tileLost s w x
      let now : Bool := w.closedAt != s.clock + 1
      [{ ok := now && fits
         must := fun t => let y := viewAt t x.view
           t.display.seals == rest && y.accepted == w.accepted ++ [(x.tx, x.ty)] && y.sealLate == w.sealLate &&
             y.tiles == w.tiles ++ [((x.tx, x.ty), resolveTile w.geo.samples x.colour)] && y.emitted == min 0xFFFFFFFF (w.emitted + 1) },
       { ok := now && !fits
         must := fun t => let y := viewAt t x.view
           t.display.seals == rest && y == { w with sealLate := min 0xFFFFFFFF (w.sealLate + 1) } }]
  | _ => []

/-- The end of the replacement instant, in the last clock of its SCOUNT, closes the strip and counts every tile that no seal filled. -/
def replaceFacts (i : Instr) (s : State) : List StepFact :=
  match i with
  | .replacementInstant v =>
    let w := viewAt s v.toNat
    let missing := (gridTiles w).filter fun t => !w.accepted.contains t
    let at_ := w.deadline - leadOf s w
    let turns : Bool := (countStrip s.display).scount != s.display.scount
    [{ ok := w.opened && (decide (at_ < s.display.scount.toNat) || (at_ == s.display.scount.toNat && turns))
       must := fun t => let x := viewAt t v.toNat
         !x.opened && x.tiles.isEmpty && x.accepted.isEmpty && x.strip == w.strip && x.sealLate == w.sealLate &&
           (missing.isEmpty || (x.late == min 0xFFFFFFFF (w.late + missing.length) && x.emitted == min 0xFFFFFFFF (w.emitted + missing.length))) }]
  | _ => []

/-- A notice reaches the team of its handle if that is still the team of its generation. -/
def noticeCases (h : Nat) (s : State) : List StepCase :=
  match s.display.notices.find? fun n => n.1 == h with
  | some (_, gen) =>
    let tell (t : Team) : Team := { t with noticed := t.noticed || t.gen == gen }
    [{ after := onTeam h tell { s with
        saved := Maps.modify s.saved h tell
        display := { s.display with notices := s.display.notices.filter (· != (h, gen)) } } }]
  | none => []

/-! R34: endpoints. -/

/-- An endpoint's request: refused with a DMAFAULT record, or made in its context; a write of an interrupt file is a message to it (R40).
Within one
page. A port that is held while a module of its ways retrains makes none (R31). -/
def dmaCases (port rid : Nat) (write : Bool) (addr : Dword) (n : Nat) (data : List Byte) (s : State) : List StepCase :=
  let e := dmaEntry s port rid
  let c := bitsN e 63 52
  let d := 8 + port / 2
  let here : Bool := decide (0 < n ∧ n ≤ 4096) && (!write || decide (data.length = n)) && s.boot.phase == .running && !inputHeld s (248 + port)
  let allowed : Bool := bitN e 0 && (if write then bitN e 2 else bitN e 1) && ctxValid s c && !ctxFaulted s c
  let answer (bs : List Byte) (t : State) : State := { t with io := { t.io with dmaReads := t.io.dmaReads ++ [(port, bs)] } }
  let fails := record d (unitRecord d .dmafault (if bitN e 0 then c else 0) 0 addr rid true) s
  let lost (pa : Nat) : State := record d (unitRecord d .nophys c 0 (BitVec.ofNat 64 pa) 0 true) s
  [{ ok := here && !allowed && write, after := fails }, { ok := here && !allowed && !write, after := answer [] fails }] ++
  match dmaParts s port c addr n write with
  | [(.fails, _)] =>
    [{ ok := here && allowed && write, after := fails }, { ok := here && allowed && !write, after := answer [] fails }]
  | [(.mem pa, k)] =>
    [{ ok := here && allowed && write && k == n, after := writeVia (248 + port) 2 pa data s },
     { ok := here && allowed && !write && !poisoned s.mem pa k && rangeErr s.mem pa k == 0
       after := answer (bytesAt s.mem pa k) (readVia (248 + port) 2 pa k s) }]
  | [(.nowhere pa, k)] =>
    [{ ok := here && allowed && write, after := lost pa },
     { ok := here && allowed && !write, after := answer (List.replicate k 0) (lost pa) }]
  | [(.file pa, k)] =>
    [{ ok := here && allowed && write && k == n && n == 4, after := devStore 16 pa 4 (Maps.leNat data) s },
     { ok := here && allowed && write && k == n && n != 4, after := s }]
  | _ => []

def windowCases (i : Nat) (ok : Bool) (data : Dword) (s : State) : List StepCase :=
  match Maps.find s.mem.net i with
  | none => []
  | some r =>
    let due : Bool := r.space == .pcie && r.st == .flying
    [{ ok := due && ok, after := onReq i (fun r => { r with st := .done, val := BitVec.ofNat 128 (data.toNat % 2 ^ (8 * r.size)) }) s },
     { ok := due && !ok, after := onReq i (fun r => { r with st := .failed .nophys }) s }]

/-! R16, R39, R40: control cores. -/

/-- An operation of a control core: when the case is the one, and the state after it, none where it is not made now. -/
structure CtlCase where
  ok    : Bool := true
  after : Option State

/-- A core that is not started does nothing. A load or store of an address that is reserved or in no domain reads zero or is dropped, with a
NOPHYS record to context 0's root domain (R16); any other goes on its way. `FENCE r,rw` waits for the core's loads, the other fences for
all its accesses and its held posts (R39). The interrupt taken is the least one that is pending, enabled and below the threshold; in M mode a core
takes none of the supervisor's level. -/
def ctlCases (cc : Nat) (op : CtlOp) (s : State) : List CtlCase :=
  let core := Maps.get {} s.ctl cc
  let up := core.up
  let set_ (c : CtlCore) (t : State) : State := { t with ctl := Maps.set t.ctl cc c }
  let change (f : CtlCore → CtlCore) (t : State) : State := { t with ctl := Maps.modify t.ctl cc f }
  let file (sup : Bool) : Nat := if sup then 16 + cc else cc
  let lost (pa : Nat) : State := record (8 + cc / 8) { unitRecord (8 + cc / 8) .nophys 0 0 (BitVec.ofNat 64 pa) 0 true with core := cc } s
  let numbered (t : State) : State := { t with mem := { t.mem with nextId := t.mem.nextId + 1 } }
  let whole (pa size : Nat) : Bool := up && decide (pa < 2 ^ 46) && [1, 2, 4, 8].contains size && (isDev pa || pa % size == 0)
  let void (pa : Nat) : Bool := !isDev pa && !isPcie pa && (!isHbm pa || (domainOf s.mem pa).isNone)
  let mine (p : Req → Bool) : Bool := s.mem.net.any fun e => e.2.ctl == some cc && p e.2
  let held : Bool := (List.range 8).any fun d => postHeld s cc d
  { ok := !up, after := none } :: match op with
  | .load pa size =>
    [{ ok := whole pa size && void pa
       after := some (change (fun c => { c with loads := Maps.set c.loads s.mem.nextId 0 }) (numbered (lost pa))) },
     { ok := whole pa size && !void pa, after := some (putReq (ctlReq cc pa size (.load 0 0) 0) s) }]
  | .store pa size data =>
    [{ ok := whole pa size && void pa, after := some (numbered (lost pa)) },
     { ok := whole pa size && !void pa, after := some (putReq (ctlReq cc pa size .store (data.toNat % 2 ^ (8 * size))) s) }]
  | .fence f =>
    let waits : Bool := match f with
      | .acq => mine fun r => r.op.returns
      | _ => mine (fun _ => true) || held
    [{ ok := up && waits, after := none }, { ok := up && !waits, after := some s }]
  | .mode m => [{ ok := up, after := some (set_ { core with mode := m } s) }]
  | .time => [{ ok := up, after := some (set_ { core with loads := Maps.set core.loads s.mem.nextId s.io.timer.toNat } (numbered s)) }]
  | .enable sup i on =>
    [{ ok := up && decide (1 ≤ i ∧ i < 4096), after := some { s with io := { s.io with imsicOn := Maps.put false s.io.imsicOn (file sup * 4096 + i) on } } },
     { ok := up && decide (i = 0 ∨ 4096 ≤ i), after := none }]
  | .claim sup =>
    let n := file sup
    let limit := Maps.get 0 s.io.imsicLimit n
    let offered := (List.range 4096).find? fun i => i != 0 && Maps.get false s.io.imsic (n * 4096 + i) && Maps.get false s.io.imsicOn (n * 4096 + i) &&
      (limit == 0 || decide (i < limit))
    let on := Maps.get false s.io.imsicDeliver n
    let deaf : Bool := sup && core.mode == .machine
    { ok := up && (deaf || !on || offered.isNone), after := none } :: match offered with
    | some i =>
      [{ ok := up && !deaf && on
         after := some (change (fun c => { c with mode := if sup then .supervisor else .machine, taken := c.taken ++ [(n, i)] })
          { s with io := { s.io with imsic := Maps.put false s.io.imsic (n * 4096 + i) false } }) }]
    | none => []
  | _ => []

def CtlHolds : Prop := ∀ (cc : Nat) (op : CtlOp) (s : State) (k : CtlCase), k ∈ ctlCases cc op s → k.ok = true → ctlDo cc op s = k.after

/-! R46 to R49, R61, R62: boot, measurement, the lifetime record. -/

/-- The steps of R48 by their numbers: the second I/O die and its control cores; HBM with its retired pages; the die pairs; the modules;
the ports; the package identifier; context 0 and the operating system. -/
def bringUpFacts (n : Nat) (s : State) : List StepFact :=
  let b := s.boot
  let at_ (t : State) : Bool := t.boot.phase == .starting (n + 1)
  let up (p : LinkId → Bool) (t : State) : Bool := allLinks.all fun l => (linkOf t l).st == (if p l then .up else (linkOf s l).st)
  [{ ok := n == 0
     must := fun t => at_ t && (dieAt t 9).running && (List.range 8).all fun i =>
       decide ((Maps.get {} t.ctl (8 + i)).up = true ∧ (Maps.get {} t.ctl (8 + i)).mode = .machine) },
   { ok := n == 1, must := fun t => at_ t && t.mem.retired == b.nv.retired },
   { ok := decide (2 ≤ n ∧ n < 10)
     must := fun t => let d := dieAt t (n - 2)
       at_ t && d.running && decide (d.cycleBase = s.clock) && (freshTokens s.clock == d.tokens) },
   { ok := n == 10, must := fun t => at_ t && up (fun l => !isPort l) t },
   { ok := n == 11, must := fun t => at_ t && up isPort t },
   { ok := n == 12
     must := fun t => at_ t && t.boot.pkgPending.isNone && t.boot.pkg == b.pkgPending.or (Config.configuredPkg (imageBody b.image)) },
   { ok := decide (13 ≤ n)
     must := fun t => t.boot.phase == .running && decide (t.boot.mlog.length = b.mlog.length + 1) &&
       (Maps.get {} t.ctl 0).up && decide ((Maps.get {} t.ctl 0).mode = .supervisor) }]

/-- Power-on: the boot ROM finds that the image passes and its firmware starts in M mode, or the device waits for a reload; the steps of
R48 after it; the writes of the lifetime record; what the loss of the supply leaves. -/
def bootFacts (i : Instr) (s : State) : List StepFact :=
  let b := s.boot
  match i with
  | .powerOn => (match b.phase with
    | .starting n => bringUpFacts n s
    | _ => []) ++
    let passes := imagePasses b b.flash
    [{ ok := b.phase == .off && passes
       must := fun t => t.boot.phase == .starting 0 && decide (t.boot.lastSeq = 0) && t.boot.flash == b.flash && t.boot.image == b.flash &&
         t.boot.svn == imageSvn b.flash && (dieAt t 8).running && decide (t.boot.mlog.length = b.mlog.length + 5 ∧ b.rollback ≤ t.boot.rollback) &&
         (List.range 8).all fun i => decide ((Maps.get {} t.ctl i).up = true ∧ (Maps.get {} t.ctl i).mode = .machine) },
     { ok := b.phase == .off && !passes
       must := fun t => t.boot.phase == .waiting && decide (t.boot.lastSeq = 0) && t.boot.flash == b.flash && (dieAt t 8).running &&
         decide (t.boot.mlog.length = b.mlog.length + 1 ∧ t.boot.rollback = b.rollback) && t.groups == s.groups &&
         decide (Maps.get 0 t.boot.sram.counts LifeItem.bootFailures.key = min (2 ^ 32 - 1) (Maps.get 0 b.sram.counts LifeItem.bootFailures.key + 1)) }]
  | .lifetimeFlush =>
    [{ ok := b.phase == .running && decide (b.flushedAt + 60 * 1750000000 ≤ s.clock)
       must := fun t => t.boot.sram == {} && decide (t.boot.flushedAt = s.clock) && t.boot.nv.retired == b.nv.retired &&
         decide (t.boot.phase = b.phase) && decide (t.clock = s.clock) && t.groups == s.groups }]
  | .powerLoss =>
    [{ must := fun t => t.groups.isEmpty && t.teams.isEmpty && t.cores.isEmpty && t.dies.isEmpty && t.mem.llc.isEmpty && t.mem.net.isEmpty &&
         t.io == {} && t.display == {} && t.ctl.isEmpty && t.boot.phase == .off && t.boot.flash == b.flash && t.boot.keyDigest == b.keyDigest &&
         decide (t.boot.rollback = b.rollback) && t.boot.nv == b.nv && t.boot.sram == {} && t.boot.pkgPending == b.pkgPending }]
  | _ => []

def measureCases (code : BitVec 16) (c : List Byte) (s : State) : List StepCase :=
  let b := s.boot
  [{ ok := b.phase == .running
     after := { s with boot := { b with
       meas := sm3 (beBytes b.meas.toNat 32 ++ beBytes (sm3 c).toNat 32), mlog := b.mlog ++ [(code, sm3 c)] } } }]

/-! R51 to R54: management. -/

/-- A command's datagram, whether its code is the row's, and whether its body has the form of R54. -/
def datagramOf (i : Instr) : Option (List Byte × Bool × Bool) :=
  let f (d : List Byte) (c : Nat) (p : List Byte → Bool) : Option (List Byte × Bool × Bool) := some (d, decide (dgNat d 0 1 = c), p (dgBody d))
  match i with
  | .status d => f d 1 (·.isEmpty)
  | .reset d => f d 2 (·.isEmpty)
  | .loadimg d => f d 3 fun b => decide (9 ≤ b.length ∧ b.length ≤ 1032 ∧ dgNat b 4 1 < 2 ∧ dgNat b 5 3 = 0)
  | .attest d => f d 4 fun b => decide (b.length = 36)
  | .snapCommand d => f d 5 (·.isEmpty)
  | .rdsnap d => f d 6 fun b => decide (b.length = 5 ∧ dgNat b 0 1 ≤ 9)
  | .rdlife d => f d 7 fun b => decide (b.length = 4)
  | .setpkg d => f d 8 fun b => decide (b.length = 2 ∧ dgNat b 0 2 < 1024)
  | .killctx d => f d 9 fun b => decide (b.length = 2 ∧ dgNat b 0 2 < 4096)
  | .unknownCommand d => some (d, decide (dgNat d 0 1 = 0 ∨ 10 ≤ dgNat d 0 1), true)
  | _ => none

/-- One response more: the command's code plus 0x80, signed, its sequence number, its status and fields. -/
def responds (s t : State) (d : List Byte) (st : Nat) (fields : List Byte) : Bool :=
  let head := Maps.natLe (dgNat d 0 1 + 0x80) 1 ++ [1#8] ++ Maps.natLe (dgNat d 2 4) 4 ++ Maps.natLe (1 + fields.length) 2 ++ Maps.natLe st 1 ++ fields
  match t.boot.replies with
  | [] => false
  | rs => rs.dropLast == s.boot.replies && (match rs.getLast? with
    | some r => r.take head.length == head && decide (r.length = head.length + 64)
    | none => false)

/-- A datagram that is not accepted changes nothing but the receive ring's interrupt (R40, R52). -/
def discardCases (i : Instr) (s : State) : List StepCase :=
  match datagramOf i with
  | some (d, code, _) => [{ ok := decide (s.boot.phase ≠ .off) && code && !accepted s.boot d, after := portMsi s }]
  | none => []

/-- An accepted datagram has one response: status 4 where the device waits and the command is no recovery command, 2 for an unknown
code, 3 for a bad body, else the command's own. -/
def commandFacts (i : Instr) (s : State) : List StepFact :=
  match datagramOf i with
  | none => []
  | some (d, code, bodyOk) =>
    let b := s.boot
    let taken : Bool := decide (b.phase ≠ .off) && code && accepted b d
    let n := dgNat d 0 1
    let known : Bool := decide (1 ≤ n ∧ n ≤ 9)
    let barred : Bool := b.phase == .waiting && known && decide (3 < n)
    let fine : Bool := decide (dgNat d 1 1 < 2) && bodyOk
    let body := dgBody d
    let seq := dgNat d 2 4
    let runs : Bool := taken && known && !barred && fine
    let kept (t : State) : Bool := decide (t.boot.lastSeq = seq) && t.boot.flash == b.flash && t.groups == s.groups && t.teams == s.teams
    [{ ok := taken && !known, must := fun t => kept t && responds s t d 2 [] },
     { ok := taken && barred, must := fun t => kept t && responds s t d 4 [] },
     { ok := taken && known && !barred && !fine, must := fun t => kept t && responds s t d 3 [] }] ++
    match i with
    | .status _ => [{ ok := runs, must := fun t => kept t && responds s t d 0 (statusFields s) }]
    | .reset _ =>
      [{ ok := runs
         must := fun t => responds s t d 0 [] && t.groups.isEmpty && t.teams.isEmpty && t.dies.isEmpty && t.mem.llc.isEmpty && t.boot.phase == .off &&
           t.boot.flash == b.flash && t.boot.stream.isEmpty && t.boot.pkgPending == b.pkgPending && t.io == {} && t.ctl.isEmpty }]
    | .loadimg _ =>
      let off := dgNat body 0 4
      let follows : Bool := decide (off = 0 ∨ off = b.stream.length)
      let img := (if off = 0 then [] else b.stream) ++ body.drop 8
      let last : Bool := bitN (dgNat body 4 1) 0
      [{ ok := runs && !follows, must := fun t => kept t && responds s t d 3 [] && t.boot.stream == b.stream },
       { ok := runs && follows && !last, must := fun t => kept t && responds s t d 0 [] && t.boot.stream == img },
       { ok := runs && follows && last && !imagePasses b img, must := fun t => kept t && responds s t d 1 [] && t.boot.stream.isEmpty },
       { ok := runs && follows && last && imagePasses b img
         must := fun t => responds s t d 0 [] && t.boot.flash == img && t.boot.stream.isEmpty && t.boot.phase == (if b.phase == .waiting then .starting 0 else b.phase) }]
    | .attest _ =>
      [{ ok := runs && decide (b.quoteFor = some (body.take 32))
         must := fun t => kept t && responds s t d 0 (Maps.natLe b.quote.length 4 ++ (b.quote.drop (dgNat body 32 4)).take 1024) && t.boot.quote == b.quote },
       { ok := runs && decide (b.quoteFor ≠ some (body.take 32))
         must := fun t => kept t && t.boot.quoteFor == some (body.take 32) && (t.boot.quote.take 64) == body.take 32 ++ beBytes b.meas.toNat 32 &&
           responds s t d 0 (Maps.natLe t.boot.quote.length 4 ++ (t.boot.quote.drop (dgNat body 32 4)).take 1024) }]
    | .snapCommand _ =>
      [{ ok := runs && s.io.trigAt == s.clock + 1, must := fun t => kept t && t.io.snaps == s.io.snaps && responds s t d 0 [s.io.trigSeq] },
       { ok := runs && s.io.triggers == 0 && s.io.trigAt != s.clock + 1
         must := fun t => kept t && t.io.trigSeq == s.io.trigSeq + 1 && responds s t d 0 [s.io.trigSeq + 1] &&
           (List.range 10).all fun k => (Maps.get {} t.io.snaps k).due == (Maps.get {} s.io.snaps k).due ++ [(s.io.trigSeq + 1, s.clock)] }]
    | .rdsnap _ =>
      let v := snapBytes s (dgNat body 0 1)
      [{ ok := runs, must := fun t => kept t && responds s t d 0 (Maps.natLe v.length 4 ++ (v.drop (dgNat body 1 4)).take 1024) }]
    | .rdlife _ =>
      let v := lifeRecord b.nv
      [{ ok := runs, must := fun t => kept t && responds s t d 0 (Maps.natLe v.length 4 ++ (v.drop (dgNat body 0 4)).take 1024) }]
    | .setpkg _ => [{ ok := runs, must := fun t => kept t && t.boot.pkgPending == some (BitVec.ofNat 10 (dgNat body 0 2)) && responds s t d 0 [] }]
    | .killctx _ =>
      let c := dgNat body 0 2
      let there : Bool := decide (c ≠ 0) && ctxValid s c
      [{ ok := runs && !there
         must := fun t => kept t && responds s t d 0 [4] && t.io.ctxcmd == BitVec.ofNat 32 (4 * 2 ^ 28 + 2 ^ 24 + c) },
       { ok := runs && there
         must := fun t => responds s t d 0 [0] && t.io.ctxcmd == BitVec.ofNat 32 (2 ^ 24 + c) && t.teams.all fun e => e.2.ctx != c }]
    | _ => []

/-- The steps of the I/O dies. -/
def outerCases (i : Instr) (s : State) : List StepCase :=
  match i with
  | .faultRecordWrite d => faultRingCases d.toNat s
  | .flueRecordWrite d => flueRingCases d.toNat s
  | .residencyInvalidation c w => residencyCases c w s
  | .snapshotLatch d => latchCases d.toNat s
  | .flitReceive l h bs => receiveCases l h bs s
  | .replacementNotice h => noticeCases h s
  | .dmaRequest p r w a n bs => dmaCases p.toNat r.toNat w a n bs s
  | .pcieWindowCompletion n ok v => windowCases n ok v s
  | .measureComponent c bs => measureCases c bs s
  | _ => []

end Sys2Proof.Claims
end

