-- ==== Sys2Proof/Claims/Movers.lean ====
section
/-! DEFINITION. The cases of the steps that finish what instructions started: copies (R422, R429, R430), weight loads (R454), the
transform pipe (R457), the macro sequencer (R451), sends and messages (R278 to R288), eviction and restore (R303 to R305). -/

namespace Sys2Proof.Claims

open Sys2Proof.Machine

/-! R422: lane copies. -/

/-- A lane's copy whose way to memory is there (R32) and carries now (R31): its bytes and the zeros of its tail, in scratchpad or memory.
Nothing is read of a source beyond its valid bytes (R421). A team that has gone since keeps no scratchpad (R383). -/
def laneCopyCases (id : Nat) (c : LaneCopy) (s : State) : List StepCase :=
  let h := handleOf c.group
  let t := c.left.getD (teamAt s h)
  let now : Bool := !inputHeld s t.core
  let zeros := List.replicate (c.size - c.valid) (0 : Byte)
  let toScratch (o : Nat) (bs : List Byte) (u : State) : State :=
    if c.left.isSome then u else onTeam h (fun t => { t with scratch := Maps.writeBytes t.scratch o bs }) u
  if c.toGlobal then
    let bs := Maps.readBytes t.scratch c.scr c.valid ++ zeros
    match copyTarget c c.size .store s with
    | .phys pa _ =>
      [{ ok := now && isHbm pa && ((c.actor s).lostAt s pa).isNone
         after := endLane id c false (dropLines t.core pa bs.length (writeVia t.core 3 pa bs s)) }]
    | .scratch o => [{ ok := now, after := endLane id c false (toScratch o bs s) }]
    | _ => []
  else
    { ok := now && c.valid == 0, after := endLane id c false (toScratch c.scr zeros s) } ::
    match copyTarget c c.valid .load s with
    | .phys pa _ =>
      [{ ok := now && c.valid != 0 && isHbm pa && ((c.actor s).lostAt s pa).isNone && !poisoned s.mem pa c.valid && rangeErr s.mem pa c.valid == 0
         after := endLane id c false (toScratch c.scr (bytesAt s.mem pa c.valid ++ zeros) (readVia t.core 3 pa c.valid s)) }]
    | .scratch o => [{ ok := now && c.valid != 0, after := endLane id c false (toScratch c.scr (Maps.readBytes t.scratch o c.valid ++ zeros) s) }]
    | _ => []

/-- The copy is over; one whose global side faults leaves a COPYFAULT record, and its batch has FAIL and the lane in FMASK. -/
def laneCopyFacts (i : Instr) (s : State) : List StepFact :=
  match i with
  | .cpaCopyComplete id => match Maps.find s.copies id with
    | none => []
    | some c =>
      let n := if c.toGlobal then c.size else c.valid
      let reason : Option Reason := match copyTarget c n (if c.toGlobal then .store else .load) s with
        | .inlane r _ => some r
        | .nophys _ => some .nophys
        | .park r _ _ => some r
        | .phys pa _ =>
          if ((c.actor s).lostAt s pa).isSome then some .linkdown
          else if isPcie pa && decide (8 < n) then some .nophys
          else if c.toGlobal || !isHbm pa then none
          else if rangeErr s.mem pa n ≠ 0 then some .ecc
          else if poisoned s.mem pa n then some .poison
          else none
        | _ => none
      let core := (c.left.getD (teamAt s (handleOf c.group))).core
      let die := dieOfCore core
      let now : Bool := !inputHeld s core
      [{ ok := now, must := fun t => (Maps.find t.copies id).isNone },
       { ok := now && (c.toGlobal || c.valid != 0) && reason.isSome
         must := fun t =>
           (match (dieAt t die).frecs.getLast? with
             | some r => decide (r.cause = 0x0F ∧ some r.reason = reason ∧ r.mask = laneMask c.lane ∧ r.pc = c.pc)
             | none => false) &&
           (c.left.isSome || match Maps.find t.groups c.group with
             | some g => (Maps.get {} g.cpTags c.tag).fail && ((Maps.get {} g.cpTags c.tag).fmask &&& laneMask c.lane) == laneMask c.lane
             | none => (Maps.find s.groups c.group).isNone) }]
  | _ => []

/-! R429, R430: bulk copies. -/

/-- A bulk copy into a resident team's scratchpad, each of its elements readable memory or padding: every element is there; without an
event its barrier is stepped by its sectors. Said of a copy of one element, and of one whose elements' lines are in the LLC, no error among
them: a line that is filled may put another out of it. -/
def bulkFacts (i : Instr) (s : State) : List StepFact :=
  match i with
  | .bulkCopyComplete id => match Maps.find s.bulks id with
    | none => []
    | some b =>
      let d := b.desc
      let e := 2 ^ descEsz d
      let n := descN d
      let at_ (k : Nat) : Option (Option Nat) :=
        let (pad, va) := elementAt d b.gbase k
        if pad then some none
        else match translate s b.actor.team (!b.sup) va .load, (engVa b.actor va e .load s).1 with
          | .phys _ _, .ok (.phys pa _) =>
            let there : Bool := s.mem.errs.isEmpty && (linesOf pa e).all fun la => (Maps.find s.mem.llc la).isSome
            if isHbm pa ∧ (n = 1 ∨ there = true) then some (some pa) else none
          | _, _ => none
      let apart : Bool := decide (b.bar + 16 ≤ descSp d ∨ descSp d + n * e ≤ b.bar)
      let now : Bool := !inputHeld s b.core
      let way : Way := { inp := b.core, slice := relaySlice (teamAt s b.team).core }
      let plain : Bool := now && !b.quant && !descDir d && decide (teamState s b.ctx b.team b.gen = 1) && !way.dead s &&
        (List.range n).all fun k => (at_ k).isSome
      [{ ok := now, must := fun t => (Maps.find t.bulks id).isNone },
       { ok := plain && !descEv d && apart
         must := fun t =>
           let m := (teamAt t b.team).scratch
           ((List.range n).all fun k => Maps.readBytes m (descSp d + k * e) e == (match at_ k with
             | some (some pa) => bytesAt s.mem pa e
             | _ => List.replicate e 0)) &&
           tbarAt (teamAt t b.team) b.bar == (TBar.deliver b.sectors false (tbarAt (teamAt s b.team) b.bar)).flip }]
  | _ => []

/-! R454: weight loads; R451: macro steps. -/

/-- A weight load's end: the slot VALID, or FAILED with its LSTAT; the image's event, if it asks for one. -/
def weightFacts (i : Instr) (s : State) : List StepFact :=
  match i with
  | .wbldComplete h n => match Maps.find s.teams h with
    | none => []
    | some t =>
      let w := wslotOf t n.toNat
      let (st, bs, _) := loadImage s t.core w.pa
      let d := dieOfCore t.core
      let ev : Bool := !headerBad bs && bitN (imgField bs 1 1) 0
      let count (u : State) : Nat := (dieAt u d).events.length
      let slot (u : State) : WSlot := wslotOf (teamAt u h) n.toNat
      [{ ok := w.loading && !inputHeld s t.core && !(ev && (decide (1024 ≤ count s) || (dieAt s d).heldReset))
         must := fun u => let x := slot u
           !x.loading && x.valid == (st == 0) && x.failed == (st != 0) && x.lstat == st && x.image == w.image && x.held == w.held &&
             decide (count u = count s + if ev then 1 else 0) }]
  | _ => []

/-- One step of an `mtile` whose operands can be read: the progress register counts it, and after the last step the wait is over. -/
def tileFacts (i : Instr) (s : State) : List StepFact :=
  match i with
  | .mtileStep k => match tileDue s k, Maps.find s.groups k with
    | some (_, n, _, b), some g =>
      let u := { s with cur := k }
      let step := (g.s (n + 1)).toNat
      let slot := cmdField b 28 2 + step % 2
      match tileImage u g b step with
      | (va, .inl pa) =>
        let w := tileLoad u slot va pa
        let read := onCurTeam (setWslot slot w) (if w.held then readVia (curTeam u).core 2 pa (imageLen w.bytes) u else u)
        let fs := (tileRows read g b step).flatMap fun r => r.2.filterMap (laneFault g 16 .load)
        [{ ok := fs.isEmpty && (slotRaises g w (cmdField b 27 1)).isEmpty
           must := fun t => match Maps.find t.groups k with
             | some x => x.s (n + 1) == BitVec.ofNat 32 (step + 1) && x.pc == g.pc && x.active == g.active &&
                 x.waiting == (if step + 1 < cmdSteps b then g.waiting else some .mtileDone)
             | none => false }]
      | (_, .inr _) => []
    | _, _ => []
  | _ => []

/-! R278 to R283: sends at the relay. -/

/-- The send is at its relay or its way there is down, no move of its target is under way, and nothing earlier of its group to the team, or
of its input to the slice, stands before it; one for another package goes once this one has an identifier (R27), after its group's earlier
ones to the team (R281). -/
def atRelayNow (s : State) (i : Nat) (x : Send) (msg : Bool) : Bool :=
  let before : Bool := s.sends.any fun e =>
    decide (e.1 < i) && e.2.group == x.group && e.2.remote == x.remote && rncHandle e.2.rnc == rncHandle x.rnc && e.2.st == .atRelay
  x.msg == msg && x.st == .atRelay && (sendOpen s x || sendDead s x) && ((x.remote.isSome && s.boot.pkg.isSome && !before) || (x.remote.isNone &&
    !requestAhead s i x && !sendAhead s i (sendWay s x) && !tltMove s x.ctx (rncHandle x.rnc) && !accessBefore s i x.group (rncHandle x.rnc) &&
      !sendBefore s i x.group (rncHandle x.rnc) (if msg || relayState s x == 2 then SendSt.unanswered else (· == .atRelay))))

def toStage (i : Nat) (st : SendSt) (s : State) : State := onSend i (fun x => { x with st := st }) s

/-- The send's flits over its way, in class 2, to the slice that relays it (R25, R29, R208). -/
def carried (i : Nat) (x : Send) (s : State) : State :=
  onSend i (fun y => { y with slice := some (sendWay s x).slice }) (crossTo (sendWay s x) 2 s)

/-- A send for another package: in flits of class 2 on its route's port, or refused where it has none (R28, R32, R286). -/
def routeCases (i q : Nat) (x : Send) (now : Bool) (s : State) : List StepCase :=
  let e := Maps.get 0 s.io.rtab (4 * q + 2)
  let l : LinkId := .port (BitVec.ofNat 7 e.toNat)
  let there : Bool := e.getLsbD 7 && linkThere s l
  let flits := (Config.fabricFlits (.send i x.ctx x.msg x.rel x.rnc x.k x.lmask x.words x.bytes)).map fun p => ((2 : BitVec 2), p)
  let u := carried i x s
  [{ ok := now && there, after := setLink l { linkOf s l with queued := (linkOf s l).queued ++ flits } (toStage i .toCore u) },
   { ok := now && !there, after := toStage i (.replied 4) u }]

/-- A register send: refused, its way down (R32) or by the relay, logged for an evicted team, or on its way to the team's core. -/
def sendRelayCases (i : Nat) (x : Send) (s : State) : List StepCase :=
  let at_ := atRelayNow s i x false
  let now : Bool := at_ && !sendDead s x
  { ok := at_ && sendDead s x, after := toStage i (.replied 4) s } :: match x.remote with
  | some q => routeCases i q x now s
  | none =>
    let h := rncHandle x.rnc
    let good : Bool := capHolds s x && (!x.rel || rncRel x.rnc) && rncLmode x.rnc != 3 && targetTakes s x
    let away : Bool := relayState s x == 2
    let tsa := tltTsa s x.ctx h
    let n := natAt s.mem (tsa + 20) 4
    let u := carried i x s
    [{ ok := now && !good, after := toStage i (.replied 4) u },
     { ok := now && good && away && decide (256 ≤ n), after := toStage i (.replied 2) u },
     { ok := now && good && away && decide (n < 256)
       after := toStage i (.replied 1) (onMem (fun m => putNat (storeRange m (driftAt tsa n) (driftBytes x n)) (tsa + 20) 4 (n + 1)) u) },
     { ok := now && good && !away
       after := onSend i (fun x => { x with st := .toCore, core := (teamAt s h).core, gen := (teamAt s h).gen }) u }]

/-- A message: refused (4), no slot free (2), or written into the ring's next slot (R288). -/
def messageRelayCases (i : Nat) (x : Send) (s : State) : List StepCase :=
  let at_ := atRelayNow s i x true
  let now : Bool := at_ && !sendDead s x
  { ok := at_ && sendDead s x, after := toStage i (.replied 4) s } :: match x.remote with
  | some q => routeCases i q x now s
  | none =>
    let h := rncHandle x.rnc
    let good : Bool := capHolds s x && decide (rncLmode x.rnc = 3 ∧ rncReg x.rnc ≤ 7)
    let away : Bool := relayState s x == 2
    let tsa := tltTsa s x.ctx h
    let r := if away then savedRing s.mem tsa (rncReg x.rnc) else ringOf (teamAt s h) (rncReg x.rnc)
    let len := x.bytes.length
    let fits : Bool := r.en && decide (16 ≤ len ∧ len ≤ 256 ∧ len % 16 = 0 ∧ len ≤ 16 * (r.slot + 1))
    let full : Bool := decide (r.free + 2 ^ r.log ≤ r.head)
    let off := r.base + 16 * (r.slot + 1) * (r.head % 2 ^ r.log)
    let image := x.bytes ++ List.replicate (16 * (r.slot + 1) - len) 0
    let u := carried i x s
    [{ ok := now && !good, after := toStage i (.replied 4) u },
     { ok := now && good && !fits, after := toStage i (.replied 4) u },
     { ok := now && good && fits && full, after := toStage i (.replied 2) u },
     { ok := now && good && fits && !full && away
       after := toStage i (.replied 0) (onMem (fun m => putNat (storeRange m (tsa + 0x140000 + off) image)
         (tsa + 64 + 16 * rncReg x.rnc + 8) 4 ((r.head + 1) % 2 ^ 32)) u) },
     { ok := now && good && fits && !full && !away
       after := toStage i (.replied 0) (onTeam h (fun t => { t with
         scratch := Maps.writeBytes t.scratch off (image.take ((teamAt s h).scr * 65536 - off))
         rings := Maps.set t.rings (rncReg x.rnc) { r with head := r.head + 1 } }) u) }]

/-! R280, R281: sends at the core. -/

def sendArrivalCases (i : Nat) (x : Send) (moved : Bool) (s : State) : List StepCase :=
  let h := rncHandle x.rnc
  let k := groupKey h (rncGroup x.rnc)
  let due : Bool := x.st == .toCore && x.remote.isNone && !accessBefore s i x.group h && !sendBefore s i x.group h SendSt.unanswered
  let here : Bool := (Maps.find s.teams h).any fun t => t.core == x.core && t.gen == x.gen
  if moved then [{ ok := due && !here, after := onSend i (fun x => { x with st := .atRelay, slice := none }) s }]
  else
    let takes : Bool := teamTakes s h (rncGroup x.rnc) (rncTop x.rnc)
    let g := groupOf s k
    let all := allAwait g x.rnc
    [{ ok := due && here && !takes, after := toStage i (.replied 4) s },
     { ok := due && here && takes && all
       after := toStage i (.replied 0) (onGroup k (fun g => landAwait x.rnc x.rel x.scope (landWords x.rnc x.lmask x.words g)) s) },
     { ok := due && here && takes && !all && decide (g.ovwc.toNat < 0xFFFFFFFF)
       after := toStage i (.replied 3) (onGroup k (fun g => { g with ovwc := g.ovwc + 1 }) s) }]

/-- An arrival's effect on the awaiting bits: cleared in the registers that the capability covers, kept in every other (R280). -/
def arrivalFacts (i : Instr) (s : State) : List StepFact :=
  match i with
  | .sendArrival n => match Maps.find s.sends n with
    | none => []
    | some x =>
      let h := rncHandle x.rnc
      let k := groupKey h (rncGroup x.rnc)
      let due : Bool := x.st == .toCore && x.remote.isNone && !accessBefore s n x.group h && !sendBefore s n x.group h SendSt.unanswered
      let here : Bool := (Maps.find s.teams h).any fun t => t.core == x.core && t.gen == x.gen
      let g := groupOf s k
      let mine (r : Nat) : Bool := decide (rncReg x.rnc ≤ r ∧ r < rncTop x.rnc)
      [{ ok := due && here && teamTakes s h (rncGroup x.rnc) (rncTop x.rnc) && allAwait g x.rnc
         must := fun t => let u := groupOf t k
           (List.range 256).all fun r => u.await.getLsbD r == (g.await.getLsbD r && !mine r) &&
             (mine r || (List.range 32).all fun l => u.v r l == g.v r l) && u.pc == g.pc && u.sregs == g.sregs && u.active == g.active }]
  | _ => []

/-! R278, R279: statuses. -/

/-- A status at its sender, its flits over the way back (R25, R205): in its scalar register, off the scoreboard; a `.t` form's chain, which
waits for it, ends or traps with it at the group's next turn (R279). That of a send from another package goes back to it (R286). -/
def statusCases (i : Nat) (x : Send) (c : Nat) (s : State) : List StepCase :=
  let u := if sendDead s x then s else crossBack (sendWay s x) s
  let t := { u with sends := Maps.del s.sends i }
  [{ ok := !x.live
     after := match x.origin with
      | some (q, n) => queueMsg q 1 (.reply n c 0) t
      | none => t },
   { ok := x.live
     after := onGroup x.group (fun g => { (g.setS x.sreg (BitVec.ofNat 32 c)).release i with
       waiting := if g.waiting = some (.send i) then some (.sendDone c) else g.waiting }) t }]

/-! R303 to R305: eviction and restore. -/

/-- MOVE is set once every group of the team has stopped. -/
def evictionCases (h : Nat) (s : State) : List StepCase :=
  match Maps.find s.teams h with
  | none => []
  | some t =>
    let stopped : Bool := s.groups.all fun e => handleOf e.1 != h || e.2.exited || e.2.parked.isSome || e.2.halted
    [{ ok := t.evicting.isSome && !tltMove s t.ctx h && stopped && !selfTraffic s h, after := setMove t.ctx h true s }]

/-- Then, once nothing of the team is out, it leaves its core: its state is kept and its `evict` is answered with 0. -/
def evictionFacts (i : Instr) (s : State) : List StepFact :=
  match i with
  | .teamEviction h => match Maps.find s.teams h with
    | none => []
    | some t => match t.evicting with
      | none => []
      | some (_, k) =>
        [{ ok := tltMove s t.ctx h && !teamOut s h
           must := fun u => (Maps.find u.teams h).isNone && (u.groups.all fun e => handleOf e.1 != h) &&
             (match Maps.find u.saved h with
               | some x => x.ctx == t.ctx && x.region == t.region && x.regs == t.regs && x.scr == t.scr && x.scratch == t.scratch
               | none => false) &&
             (handleOf k == h || (match Maps.find s.groups k with
               | some g => (match g.waiting with
                 | some (.evict d) => (groupOf u k).s d == 0 && (groupOf u k).waiting.isNone
                 | _ => true)
               | none => true)) }]
  | _ => []

/-- A restored team is resident on its core; each group has the pc, mask, mode, and stack depth of its block in the save area. -/
def restoreFacts (i : Instr) (s : State) : List StepFact :=
  match i with
  | .teamRestore h => match restoreDue s h with
    | none => []
    | some (die, slot, core) => match Maps.find s.saved h, Maps.find (dieAt s die).cards slot with
      | some t, some _ =>
        let tsa := tltTsa s t.ctx h
        let keys := Maps.keys s.savedGroups fun k _ => handleOf k == h
        [{ must := fun u => (Maps.find u.saved h).isNone &&
             (match Maps.find u.teams h with
               | some x => x.core == core && x.ctx == t.ctx && x.region == t.region && x.regs == t.regs && x.scr == t.scr
               | none => false) &&
             keys.all fun k =>
               let b := tsa + 0x1000 + 2048 * indexOf k
               match Maps.find u.groups k with
               | some g => g.pc == BitVec.ofNat 64 (tsaNat s b 8) && g.active == BitVec.ofNat 32 (tsaNat s (b + 8) 4) &&
                   g.mode == BitVec.ofNat 32 (tsaNat s (b + 36) 4) && g.depth == tsaNat s (b + 60) 4 && g.parked.isNone
               | none => false }]
      | _, _ => []
  | _ => []

/-- The steps that finish what instructions started. -/
def moverCases (i : Instr) (s : State) : List StepCase :=
  match i with
  | .cpaCopyComplete n => match Maps.find s.copies n with
    | some c => laneCopyCases n c s
    | none => []
  | .xfmReply n => match Maps.find s.xfms n with
    | some x =>
      [{ after := onGroup x.group (fun g => { g with
           vregs := x.writes.foldl (fun m w => Maps.put 0 m w.1 w.2) g.vregs, pending := g.pending.filter fun p => p.2 != n })
           { s with xfms := Maps.del s.xfms n } }]
    | none => []
  | .sendAtRelay n => match Maps.find s.sends n with
    | some x => sendRelayCases n x s
    | none => []
  | .messageAtRelay n => match Maps.find s.sends n with
    | some x => messageRelayCases n x s
    | none => []
  | .sendArrival n => match Maps.find s.sends n with
    | some x => sendArrivalCases n x false s
    | none => []
  | .sendMoved n => match Maps.find s.sends n with
    | some x => sendArrivalCases n x true s
    | none => []
  | .sendStatusReply n far => match Maps.find s.sends n with
    | some x => match x.st, far with
      | .replied c, none =>
        if x.remote.isNone ∧ sendDead s x = true then statusCases n x 4 s
        else if x.remote.isSome ∨ sendOpen s x = true then statusCases n x c s else []
      | .toCore, some c => if x.remote.isSome ∧ c.toNat ≤ 4 then statusCases n x c.toNat s else []
      | _, _ => []
    | none => []
  | .teamEviction h => evictionCases h s
  | _ => []

end Sys2Proof.Claims
end

