-- ==== Sys2Proof/Claims/Frames.lean ====
section
/-! DEFINITION. The cases of the frame pipeline's steps: mesh payload ring (R104), cull unit (R108 to R112), binner (R122, R123),
tile owners (R124 to R127), primitives applied in their tiles (R131, R132). -/

namespace Sys2Proof.Claims

open Sys2Proof.Machine

/-! R104: the mesh payload ring. -/

/-- The head request of a die, of a launch that stands, enters whole where the ring has room for it: one entry a mesh group, numbered
on in draw order; its task group has one request less to wait for. -/
def meshCases (i : Instr) (s : State) : List StepCase :=
  match i with
  | .meshRingEntry die =>
    let d := dieAt s die.toNat
    match d.meshReqs with
    | [] => []
    | r :: rest => match Maps.find d.cards r.slot with
      | none => []
      | some c =>
        let entry (k : Nat) : MeshEnt := { slot := r.slot, k := k, order := c.order + k, payload := r.payload }
        let t := onDie die.toNat (fun d => { d with
          meshReqs := rest, meshRing := d.meshRing ++ (List.range r.n).map entry
          cards := Maps.modify d.cards r.slot fun c => { c with order := c.order + r.n, meshLive := c.meshLive + r.n } }) s
        [{ ok := decide (d.meshRing.length + r.n ≤ ringCap s die.toNat c.ctx c.region)
           after := match r.group with
             | some k => onGroup k tampDone t
             | none => t }]
  | _ => []

/-! R108 to R112: the cull unit. -/

/-- The end of a draw's pass: no instance is left to go through. -/
def cullCases (i : Instr) (s : State) : List StepCase :=
  match i with
  | .cullInstance die => match cullDue s die.toNat with
    | none => []
    | some (slot, c) =>
      let (n, t) := cullCount die.toNat c s
      [{ ok := decide (n ≤ c.cullNext)
         after := onDie die.toNat (fun d => { d with cards := Maps.modify d.cards slot fun c => { c with cullDone := true } }) t }]
  | _ => []

/-- An instance of the first pass: the draw goes on to the next; a malformed record or a sphere no test rejects asks for one mesh group
with the instance's number (R108, R109), one rejected asks for none while the reject list has room (R110). -/
def cullFacts (i : Instr) (s : State) : List StepFact :=
  match i with
  | .cullInstance die => match cullDue s die.toNat with
    | none => []
    | some (slot, c) =>
      let (inst, u) := unitRead die.toNat c (BitVec.ofNat 64 (c.drawF 959 896 + 64 * c.cullNext)) 64 s
      let bad : Bool := recField inst 48 16 != 0
      let accepted : Bool := bad || (testInstance die.toNat c inst u).1.1
      let reqs (t : State) : List MeshReq := (dieAt t die.toNat).meshReqs
      let asks : List MeshReq := [{ group := none, slot := slot, n := 1, payload := BitVec.ofNat 64 c.cullNext }]
      let first : Bool := c.cullPass == 1 && decide (c.cullNext < c.drawF 511 480) && Maps.find (dieAt s die.toNat).cards slot == some c
      let next (t : State) : Bool := match Maps.find (dieAt t die.toNat).cards slot with
        | some x => x.cullNext == c.cullNext + 1 && (!bad || x.pDrop == satAdd c.pDrop 1)
        | none => false
      [{ ok := first && accepted, must := fun t => reqs t == reqs s ++ asks && next t },
       { ok := first && !accepted && decide (c.rjCount < c.drawF 455 436), must := fun t => reqs t == reqs s && next t }]
  | _ => []

/-! R122, R123: the binner. -/

/-- A primitive with no view left, or of a draw that is gone, leaves the binner; one whose strip is past counts late. -/
def binCases (i : Instr) (s : State) : List StepCase :=
  match i with
  | .primitiveAtBinner die => match binDue s die.toNat with
    | none => []
    | some (n, p, c, view) =>
      let left (views : List Nat) (ps : List Prim) : List Prim := if views.isEmpty then ps.eraseIdx n else ps.set n { p with views := views }
      let leaves (views : List Nat) (t : State) : State := onDie die.toNat (fun d => { d with prims := left views d.prims }) t
      match view with
      | none => [{ after := leaves [] s }]
      | some v =>
        [{ ok := stripPassed s v c.strip (frameNo c.frec)
           after := leaves (p.views.filter (· != v)) (onDie die.toNat (fun d => { d with cards := Maps.modify d.cards p.slot fun c =>
             { c with lateDrop := satAdd c.lateDrop 1, drawFlags := Nat.lor c.drawFlags 8 } }) s) }]
  | _ => []

/-- One whose strip has latched is sent to the owner of every tile it covers in that view, and to no other tile's. -/
def binFacts (i : Instr) (s : State) : List StepFact :=
  match i with
  | .primitiveAtBinner die => match binDue s die.toNat with
    | some (_, p, c, some v) =>
      match stripPassed s v c.strip (frameNo c.frec), latchOf s v c.strip (frameNo c.frec) with
      | false, some l =>
        let (view, _) := unitRead die.toNat c (BitVec.ofNat 64 (recField c.frec 0 8 + 256 * v)) 256 s
        let vp := viewPrim die.toNat c view p
        let tiles := coveredTiles (geoOf v c.strip (frameNo c.frec) l view) vp
        let sentTo (o : Nat) : List BinMsg := (tiles.filter fun t => tileOwner (dieMask c.frec) v c.strip t.1 t.2 == some o).map fun t =>
          .prim c.frameVa (frameNo c.frec) c.ctx v c.strip t.1 t.2 vp
        [{ must := fun t => (List.range 8).all fun o => (dieAt t o).binMsgs == (dieAt s o).binMsgs ++ sentTo o }]
      | _, _ => []
    | _ => []
  | _ => []

/-! R124 to R127: tile owners. -/

/-- The first message of a binner that is a primitive not held up: it joins its tile's list while TLBUF has room, is counted late once
the strip is sealed, is dropped at an abandoned tile; else the owner flushes, and the primitive waits. -/
def ownerFacts (i : Instr) (s : State) : List StepFact :=
  match i with
  | .primitiveAtOwner die =>
    let d := die.toNat
    match ownerDue s d with
    | some (n, .prim fr frame ctx view strip tx ty p) =>
      let msgs (t : State) : List BinMsg := (dieAt t d).binMsgs
      let key := tileKey ctx fr frame view strip tx ty
      let listed (t : State) : List ViewPrim := ((Maps.find (dieAt t d).tiles key).map (·.prims)).getD []
      let x := dieAt s d
      let abandoned : Bool := ((Maps.find x.tiles key).map (·.abandoned)).getD false
      let late : Bool := !abandoned &&
        (((Maps.find x.tiles key).map (·.late)).getD false || stripClosed s view strip frame || stripPassed s view strip frame)
      let room : Bool := decide (listUsed (frameTiles x fr frame ctx) < listCap (frameRec s d fr ctx))
      let gone (t : State) : Bool := msgs t == (msgs s).eraseIdx n
      [{ ok := abandoned || late, must := fun t => gone t && listed t == listed s },
       { ok := !abandoned && !late && room, must := fun t => gone t && listed t == listed s ++ [p] },
       { ok := !abandoned && !late && !room, must := fun t => msgs t == msgs s }]
    | _ => []
  | _ => []

/-- A draw-end marker at the head of its binner's messages is counted at the owner (R124). -/
def markerFacts (i : Instr) (s : State) : List StepFact :=
  match i with
  | .drawEndMarker die => match markerDue s die.toNat with
    | some (n, _, m) =>
      [{ must := fun t => (dieAt t die.toNat).markers == (dieAt s die.toNat).markers ++ [m] &&
           (dieAt t die.toNat).binMsgs == (dieAt s die.toNat).binMsgs.eraseIdx n }]
    | none => []
  | _ => []

/-! R131, R132: primitives applied. -/

/-- A tile for which its raster engine works: its team, the context's and of the tile's generation, is resident and not in a move. -/
def working (s : State) (die key : Nat) : Option (Tile × Nat × Team) :=
  let x := dieAt s die
  match Maps.find x.tiles key with
  | none => none
  | some t => match t.team with
    | none => none
    | some h => match Maps.find s.teams h with
      | some tm => if tm.gen != t.gen || tm.ctx != t.ctx || tltMove s tm.ctx h || x.heldReset then none else some (t, h, tm)
      | none => none

/-- Such a tile's next primitive, where no record of an earlier one is left over and the quad ring and the plane blocks have room. -/
def applying (s : State) (die key : Nat) : Option (Tile × Nat × Team × StripGeo × ViewPrim) :=
  match working s die key with
  | some (t, h, tm) => match nextPrim (dieAt s die) t, tm.kind with
    | some p, .tile g _ _ _ =>
      if t.quads.isEmpty && (freePlane tm).isSome && decide (1024 ≤ ringFree tm) then some (t, h, tm, g, p) else none
    | _, _ => none
  | none => none

/-- Records left over are appended as far as the ring has room, before anything else of the tile. -/
def leftoverFacts (i : Instr) (s : State) : List StepFact :=
  match i with
  | .primitiveApply die key => match working s die.toNat key with
    | none => []
    | some (t, h, tm) =>
      let n := min t.quads.length (ringFree tm)
      [{ ok := !t.quads.isEmpty && ringFree tm != 0
         must := fun u =>
           (match Maps.find (dieAt u die.toNat).tiles key with
             | some x => x.quads == t.quads.drop n && x.prims == t.prims && x.moved == t.moved
             | none => false) &&
           decide ((ringOf tm 0).head + n ≤ (ringOf (teamAt u h) 0).head ∧ (ringOf (teamAt u h) 0).head ≤ (ringOf tm 0).head + n + 1) }]
  | _ => []

/-- The primitive is gone from its tile's lists, and the quad ring has grown by at most one record a 2×2 pixels and the end-of-tile
record. -/
def applyFacts (i : Instr) (s : State) : List StepFact :=
  match i with
  | .primitiveApply die key => match applying s die.toNat key with
    | none => []
    | some (t, h, tm, _, p) =>
      [{ must := fun u =>
           (match Maps.find (dieAt u die.toNat).tiles key with
             | some x => x.prims == removeFirst (· == p) t.prims && x.moved == removeFirst (· == p) t.moved && (!t.ended || x.ended)
             | none => false) &&
           decide ((ringOf tm 0).head ≤ (ringOf (teamAt u h) 0).head ∧ (ringOf (teamAt u h) 0).head ≤ (ringOf tm 0).head + 257) }]
  | _ => []

/-- Every sample that the primitive passes has its depth, and no other sample's depth changes. -/
def depthFacts (i : Instr) (s : State) : List StepFact :=
  match i with
  | .primitiveApply die key => match applying s die.toNat key with
    | none => []
    | some (_, h, tm, g, p) =>
      match tm.kind with
      | .tile _ tx ty _ =>
        let n := g.samples
        let hits := passedSamples tm g tx ty (setup g p)
        let ring := ringOf tm 0
        [{ ok := decide (ring.base = 65536 ∧ ring.slot = 3 ∧ ring.log = 10 ∧ 1 ≤ n ∧ n ≤ 4)
           must := fun u =>
             let tm' := teamAt u h
             (List.range 1024).all fun q => (List.range n).all fun m =>
               let at_ := depthOff n q m
               match hits.find? (fun e => e.1 == (q, m)) with
               | some e => scrRead tm' at_ 4 == e.2
               | none => scrRead tm' at_ 4 == scrRead tm at_ 4 }]
      | _ => []
  | _ => []

end Sys2Proof.Claims
end

