-- ==== Sys2Proof/Claims/Rounding.lean ====
section
/-! DEFINITION. The terms for rounding to nearest (R239, R244): what a magnitude code stands for, and the code nearest to a number; and the
sum of a chunk of products (R251) in exact numbers. -/

namespace Sys2Proof.Claims

open Sys2Proof.Num (Fmt FV)

/-- The number that a magnitude code stands for (R239), the exponent range taken as unbounded above. -/
def codeValue (f : Fmt) (g : Nat) : ℚ :=
  if g < 2 ^ f.man then (g : ℚ) * 2 ^ ((1 : ℤ) - f.bias - f.man)
  else ((2 ^ f.man + g % 2 ^ f.man : Nat) : ℚ) * 2 ^ (((g / 2 ^ f.man : Nat) : ℤ) - f.bias - f.man)

/-- Of all magnitude codes `g` is the nearest to `x`, and an even one where another is as near (R244, IEEE 754's RNE). -/
def IsNearest (f : Fmt) (x : ℚ) (g : Nat) : Prop :=
  ∀ h : Nat, |codeValue f g - x| ≤ |codeValue f h - x| ∧ (h ≠ g → |codeValue f h - x| = |codeValue f g - x| → g % 2 = 0)

/-- The number that a finite value stands for. -/
def valueOf : FV → ℚ
  | .fin neg m e => (if neg then -1 else 1) * (m : ℚ) * 2 ^ e
  | _ => 0

/-- A number truncated toward zero. -/
def truncated (x : ℚ) : ℤ := if x < 0 then -⌊-x⌋ else ⌊x⌋

/-- The sum s of a chunk of products (R251), before its rounding to f32: a NaN or an infinity where a product asks for it; +0 where every
product is zero; else the exact sum of the products, each truncated toward zero to a multiple of 2^(E − 52), for E the floor of the binary
logarithm of the greatest magnitude. -/
def ChunkSums : Prop :=
  (∀ ps : List FV, FV.nan ∈ ps ∨ (FV.inf false ∈ ps ∧ FV.inf true ∈ ps) → Num.chunkSum ps = .nan) ∧
  (∀ (ps : List FV) (neg : Bool), FV.nan ∉ ps → FV.inf neg ∈ ps → FV.inf (!neg) ∉ ps → Num.chunkSum ps = .inf neg) ∧
  (∀ ps : List FV, (∀ p ∈ ps, ∃ n m e, p = FV.fin n m e) →
    ((∀ p ∈ ps, valueOf p = 0) → Num.chunkSum ps = Num.zero) ∧
    (∀ E : ℤ, (∃ p ∈ ps, 2 ^ E ≤ |valueOf p|) → (∀ p ∈ ps, |valueOf p| < 2 ^ (E + 1)) →
      ∃ n m e, Num.chunkSum ps = FV.fin n m e ∧
        valueOf (.fin n m e) = (ps.map fun p => (truncated (valueOf p / 2 ^ (E - 52)) : ℚ) * 2 ^ (E - 52)).sum))

end Sys2Proof.Claims
end

