-- ==== Sys2Proof/Claims/Shared.lean ====
section
/-! DEFINITION. The terms for what instructions share: traps and their return (R295, R296), what a word does not touch, words of one
chain (R314), and a step that runs a decoded instruction (R154, R310). -/

namespace Sys2Proof.Claims

open Sys2Proof.Machine
open Sys2Proof.Num (FV Fmt)

/-- What the rules say of a word that acts on its group alone. -/
def wordRule (i : Instr) : Option WordRule :=
  integerRule i <|> scalarRule i <|> floatRule i <|> convertRule i <|> laneRule i

/-- Every vector register that a word may write. -/
def WordRule.writes (w : WordRule) (g : Group) : List Nat := w.dst.flatMap fun r => (List.range r.2.1).map fun i => ea w.x r.1 g + i

/-- A word's effect, with its events counted. -/
def ruleAfter (s : State) (g : Group) (w : WordRule) : State := charge g.tag (w.ev g) (onward s (w.out g))

/-! Traps. -/

/-- A group at the first packet of its handler for a cause (R295): the TRAP entry on its stack, mode, mask and pc replaced. -/
def atHandler (c : Cause) (rp : Dword) (m : Word) (g : Group) : Group :=
  { g with
    held := { kind := .trap, mask := g.active, rpc := rp, cause := BitVec.ofNat 8 c.code, skid := 0, mode := g.mode.setWidth 8 } :: g.held
    depth := g.depth + 1
    mode := 0#16 ++ BitVec.ofNat 8 c.code ++ 1#8
    active := m
    pc := (g.trapbase.extractLsb' 14 50 ++ 0#14) + BitVec.ofNat 64 (64 * c.code)
    block := none }

/-- A group gone back to where a TRAP entry says (R296), all its entries held: to the resume point, or with ADV set to the chain after it,
whereupon a gather's pending lanes are forgotten (R299). -/
def returned (e : StackEntry) (adv : Bool) (resume : Dword) (g : Group) : Group :=
  { g with
    held := g.held.tail, depth := g.depth - 1, paths := Maps.del g.paths (g.depth - 1)
    mode := g.mode.extractLsb' 8 24 ++ e.mode
    active := e.mask, pc := resume
    plm := if adv then 0 else g.plm, plmAt := if adv then none else g.plmAt
    block := none, wants := false }

/-! Frames. -/

/-- Everything of a group but its registers, generators, pc and hold is as it was. -/
def sameControl (g h : Group) : Prop :=
  { h with vregs := g.vregs, sregs := g.sregs, preds := g.preds, ix := g.ix, lfsr := g.lfsr, pc := g.pc, wants := g.wants } = g

/-- The words that step the lanes' generators (R247). -/
def usesGenerators : Instr → Bool
  | .cvtnE4m3Sr .. | .cvtnE5m2Sr .. | .cvtnE2m1bSr .. => true
  | _ => false

/-- Everything outside the issuing group is as it was, but for the statistics of its tag on its launch's die and the list of tags that its
launch's card keeps (R253, R254): every byte of memory and of every scratchpad, every other group, every other unit. -/
def sameElsewhere (s t : State) : Prop :=
  let own := (curTeam s).die
  let tag := (groupOf s s.cur).tag.toNat % 4096
  let untagged (c : Option Card) : Option Card := c.map fun c => { c with tags := [] }
  t.mem = s.mem ∧ t.teams = s.teams ∧ t.cores = s.cores ∧ (∀ k, k ≠ s.cur → Maps.find t.groups k = Maps.find s.groups k) ∧
    (∀ d, d ≠ own → dieAt t d = dieAt s d) ∧
    ({ dieAt t own with stats := (dieAt s own).stats, cards := (dieAt s own).cards } : Die) = dieAt s own ∧
    (∀ n, n ≠ tag → Maps.find (dieAt t own).stats n = Maps.find (dieAt s own).stats n) ∧
    (∀ n, n ≠ (curTeam s).slot → Maps.find (dieAt t own).cards n = Maps.find (dieAt s own).cards n) ∧
    untagged (Maps.find (dieAt t own).cards (curTeam s).slot) = untagged (Maps.find (dieAt s own).cards (curTeam s).slot) ∧
    ({ t with groups := s.groups, dies := s.dies } : State) = s

/-- What a word leaves of its group's registers: vector registers it does not write, lanes that are not active, scalars, predicates and
`ix` that it does not name. -/
def sameRegisters (w : WordRule) (g h : Group) : Prop :=
  (∀ n l, l < 32 → (n ∉ w.writes g ∨ g.active.getLsbD l = false) → h.v n l = g.v n l) ∧
    (∀ n, n ∉ w.ss → h.s n = g.s n) ∧ (∀ p : BitVec 3, p ∉ w.ps → h.p p.toNat = g.p p.toNat) ∧ (w.ix = false → h.ix = g.ix)

/-! Chains. -/

/-- A register as one of two words of a chain leaves it: the value of the word that writes it, both having read it as it stood. -/
def either {α : Type} [DecidableEq α] (old first second : α) : α := if first = old then second else first

/-- The registers of a group after two words that both read `g`. -/
def bothWrote (g a b h : Group) : Prop :=
  (∀ n l, l < 32 → h.v n l = either (g.v n l) (a.v n l) (b.v n l)) ∧ (∀ n, h.s n = either (g.s n) (a.s n) (b.s n)) ∧
    (∀ n, n < 7 → h.p n = either (g.p n) (a.p n) (b.p n)) ∧ h.ix = either g.ix a.ix b.ix

/-! Steps. -/

/-- The group's next chain is the words from one on of the packet at its pc, its block whole and its trailer zero (R154, R309, R310). -/
def chainWords (g : Group) (l : Line) : Option (List Word × Nat) :=
  let off := g.pc.toNat % 64
  let ws := packetWords l off
  let j := off % 12 / 4
  let e := chainEnd ws j 2
  let chain := (ws.take e).drop j
  if off < 60 ∧ g.pc.toNat % 4 = 0 ∧ startsChain ws j = true ∧ blockWord l 15 = 0 ∧ (chain.getLast?.getD 0).getLsbD 31 = false ∧
      (g.entry = false ∨ isPacketStart g.pc = true) then some (chain, e) else none

/-- What a step adds around the one instruction of a chain (R154, R155, R173): before it, the next chain's address and the block at hand;
after it, unless the chain was found not ready or had issued before, the group's and its scheduler's issue in this clock and the units that it
occupies (R152). -/
def beforeChain (k : Nat) (g : Group) (e : Nat) (s : State) : State :=
  onGroup k (fun h => { h with
    block := some (g.pc.toNat / 64 * 64), entry := false
    haltSeen := h.haltSeen.map fun n => if isPacketStart g.pc && !g.resumes then n + 1 else n })
    { s with nextPc := afterChain (packetOf g.pc) e, issue := .alone }

def afterIssue (k : Nat) (T : Team) (g : Group) (ws : List Word) (t : State) : State :=
  let counted (t : State) : State := onCore T.core (fun c => { c with
    schedAt := Maps.set c.schedAt g.sched (t.clock + 1)
    issued := if isPacketStart g.pc then Maps.set c.issued g.sched (Maps.get 0 c.issued g.sched + 1) else c.issued }) (occupyUnits T g ws t)
  match Maps.find t.groups k with
  | none => if g.resumes then t else counted t
  | some h =>
    if h.stalled then onGroup k (fun h => { h with block := g.block, entry := g.entry, haltSeen := g.haltSeen }) t
    else if g.resumes then t
    else counted (onGroup k (fun h => { h with lastIssue := t.clock, idle := false }) t)

/-- A group's turn begun: it waits for nothing but the end of a chain that has issued before, an `mtile` or a send's (R279, R450). -/
def turnBegun (k : Nat) (s : State) : State :=
  onGroup k (fun g => { g with waiting := if g.resumes then g.waiting else none }) { s with cur := k }

/-! Numbers. -/

/-- The magnitude bits of a code. -/
def magnitude (f : Fmt) (a : Nat) : Nat := a % 2 ^ (f.width - 1)

/-- A code after the input flush (R245): a subnormal becomes the zero of its sign. -/
def flushedBits (f : Fmt) (fz : Bool) (a : Nat) : Nat := if fz && decide (magnitude f a < 2 ^ f.man) then a - magnitude f a else a

/-- Is a code a NaN? -/
def nanBits (f : Fmt) (a : Nat) : Bool := decide ((2 ^ (f.width - 1 - f.man) - 1) * 2 ^ f.man < magnitude f a)

/-- A code's place in the order of R359, −0 below +0. -/
def orderKey (f : Fmt) (a : Nat) : Int := if a / 2 ^ (f.width - 1) % 2 = 1 then -(magnitude f a : Int) - 1 else magnitude f a

/-- The min–max rule over bits (R359). -/
def minMaxBits (f : Fmt) (fz isMax : Bool) (a b : Nat) : Nat :=
  let u := flushedBits f fz a
  let v := flushedBits f fz b
  if nanBits f u then (if nanBits f v then f.nan else v)
  else if nanBits f v then u
  else if isMax then (if orderKey f u ≤ orderKey f v then v else u)
  else (if orderKey f u ≤ orderKey f v then u else v)

end Sys2Proof.Claims
end

