-- ==== Sys2Proof/Claims/Untouched.lean ====
section
/-! DEFINITION. The frame of the steps of device units: the parts of the package, and which of them each step may change. -/

namespace Sys2Proof.Claims

open Sys2Proof.Machine

/-- A part of the package. -/
inductive Part where
  /-- groups -/
  | groups
  /-- teams -/
  | teams
  /-- cores -/
  | cores
  /-- die pairs -/
  | dies
  /-- the bytes of memory: HBM, LLC lines, poison marks -/
  | bytes
  /-- requests on their way -/
  | net
  /-- miss entries -/
  | missing
  /-- interleave domains -/
  | domains
  /-- format windows -/
  | windows
  /-- the counters of slices and controllers -/
  | counts
  /-- memory errors and what is retired for them -/
  | errs
  /-- the number of the next request -/
  | numbers
  /-- lane copies -/
  | copies
  /-- bulk copies -/
  | bulks
  /-- transform results -/
  | xfms
  /-- texture samples -/
  | samples
  /-- sends and messages -/
  | sends
  /-- what is kept of evicted teams -/
  | saved
  /-- the serialiser -/
  | display
  /-- the I/O dies -/
  | io
  /-- boot and management -/
  | boot
  /-- the control cores -/
  | ctl
  /-- steps asked for from outside -/
  | inbox
  /-- the clock -/
  | clock
  /-- free values drawn -/
  | draws
  /-- the issuing group and its chain -/
  | issuing
deriving DecidableEq, Repr

/-- A part is as it was. -/
def Part.same (p : Part) (s t : State) : Prop :=
  match p with
  | .groups => t.groups = s.groups
  | .teams => t.teams = s.teams
  | .cores => t.cores = s.cores
  | .dies => t.dies = s.dies
  | .bytes => t.mem.hbm = s.mem.hbm ∧ t.mem.llc = s.mem.llc ∧ t.mem.poison = s.mem.poison
  | .net => t.mem.net = s.mem.net
  | .missing => t.mem.missing = s.mem.missing
  | .domains =>
    t.mem.idw = s.mem.idw ∧ t.mem.idws = s.mem.idws ∧ t.mem.hmask = s.mem.hmask ∧ t.mem.hmasks = s.mem.hmasks ∧ t.mem.domReg = s.mem.domReg ∧
      t.mem.domRefused = s.mem.domRefused ∧ t.mem.domSw = s.mem.domSw ∧ t.mem.domQueue = s.mem.domQueue ∧ t.mem.domHeld = s.mem.domHeld
  | .windows => t.mem.fw = s.mem.fw ∧ t.mem.fwStage = s.mem.fwStage
  | .counts =>
    t.mem.nacks = s.mem.nacks ∧ t.mem.hits = s.mem.hits ∧ t.mem.misses = s.mem.misses ∧
      t.mem.mcReads = s.mem.mcReads ∧ t.mem.mcWrites = s.mem.mcWrites ∧ t.mem.mcDecodes = s.mem.mcDecodes
  | .errs => t.mem.errs = s.mem.errs ∧ t.mem.retired = s.mem.retired
  | .numbers => t.mem.nextId = s.mem.nextId
  | .copies => t.copies = s.copies
  | .bulks => t.bulks = s.bulks
  | .xfms => t.xfms = s.xfms
  | .samples => t.samples = s.samples
  | .sends => t.sends = s.sends
  | .saved => t.saved = s.saved ∧ t.savedGroups = s.savedGroups
  | .display => t.display = s.display
  | .io => t.io = s.io
  | .boot => t.boot = s.boot
  | .ctl => t.ctl = s.ctl
  | .inbox => t.inbox = s.inbox
  | .clock => t.clock = s.clock
  | .draws => t.draws = s.draws
  | .issuing => t.cur = s.cur ∧ t.nextPc = s.nextPc ∧ t.issue = s.issue

/-- What a step of a device unit may change; no other part of the package does. RESET and the loss of power, which put every part back
(R46, R54), and the words of groups are not of this table. -/
def touched (i : Instr) : Option (List Part) :=
  match i with
  | .coreReset .. =>
    some [.cores]
  | .lcctlCntclr .. | .lcctlTcdis .. | .snapctlClr .. | .flitSend .. | .retrainComplete .. | .snapshotLatch .. =>
    some [.io]
  | .measureComponent .. | .lifetimeFlush .. =>
    some [.boot]
  | .pcieWindowCompletion .. | .nackResend .. | .domainNackResend .. =>
    some [.net]
  | .rcbinvWrite .. | .rcbInvalidationDone .. | .dctrSet .. | .dctrDecrement .. | .dsctlWrite .. | .nrbaseWrite .. | .cardPostArrival ..
  | .admholdExpiry .. | .tokenHop .. | .burstEnd .. =>
    some [.dies]
  | .sendMoved .. =>
    some [.sends]
  | .serclkWrite .. | .vobWrite .. | .vrecWrite .. | .gazeWrite .. =>
    some [.display]
  | .sleepExpiry .. =>
    some [.groups]
  | .thermctlRelease .. =>
    some [.dies, .errs]
  | .cardStoreEntryFreed .. | .counterUpdate .. | .meshRingEntry .. =>
    some [.groups, .dies]
  | .domswWrite .. =>
    some [.groups, .domains]
  | .embctlWrite .. | .thermalThrottle .. | .thermalTokenRestore .. =>
    some [.dies, .draws]
  | .linkRetrain .. | .retrainingAttemptFailure .. =>
    some [.io, .boot]
  | .reallocDecision .. =>
    some [.groups, .teams]
  | .residencyInvalidation .. =>
    some [.groups, .cores]
  | .sealArrival .. =>
    some [.display, .io]
  | .sendArrival .. =>
    some [.groups, .sends]
  | .snapTriggerRoot .. =>
    some [.io, .draws]
  | .xfmReply .. =>
    some [.groups, .xfms]
  | .faultRecordWrite .. | .flueRecordWrite .. =>
    some [.dies, .bytes, .io]
  | .replacementNotice .. =>
    some [.teams, .saved, .display]
  | .status .. | .attest .. | .snapCommand .. | .rdsnap .. | .rdlife .. | .setpkg .. | .unknownCommand .. =>
    some [.io, .boot, .draws]
  | .drawEndMarker .. =>
    some [.teams, .dies, .io, .draws]
  | .launchRetirement .. =>
    some [.dies, .bytes, .io, .draws]
  | .sendAtRelay .. =>
    some [.bytes, .sends, .io, .draws]
  | .domainSwitchPhase .. =>
    some [.groups, .bytes, .domains, .counts]
  | .fwWrite .. =>
    some [.bytes, .windows, .counts, .draws]
  | .loadimg .. =>
    some [.io, .boot, .ctl, .draws]
  | .sendStatusReply .. =>
    some [.groups, .sends, .io, .draws]
  | .eventQueueSlotFreed .. =>
    some [.teams, .dies, .bytes, .io, .draws]
  | .messageAtRelay .. =>
    some [.teams, .bytes, .sends, .io, .draws]
  | .flitReceive .. =>
    some [.dies, .net, .numbers, .sends, .io, .draws]
  | .teamEviction .. =>
    some [.groups, .teams, .dies, .bytes, .saved, .draws]
  | .teamPlacement .. =>
    some [.groups, .teams, .cores, .dies, .bytes, .net]
  | .dspostWrite .. | .cardReady .. | .primitiveAtBinner .. | .cullInstance .. | .primitiveAtOwner .. | .eventRecord .. =>
    some [.dies, .bytes, .counts, .errs, .io, .boot, .draws]
  | .remoteScratchAccess .. =>
    some [.groups, .teams, .bytes, .net, .numbers, .io, .draws]
  | .linkDown .. =>
    some [.net, .copies, .bulks, .sends, .io, .boot, .draws]
  | .primitiveApply .. | .decompressionJobEnd .. | .wbldComplete .. =>
    some [.teams, .dies, .bytes, .counts, .errs, .io, .boot, .draws]
  | .replacementInstant .. =>
    some [.dies, .bytes, .counts, .errs, .display, .io, .boot, .draws]
  | .lateFailure .. =>
    some [.groups, .cores, .dies, .net, .samples, .io, .ctl, .draws]
  | .teamRestore .. =>
    some [.groups, .teams, .cores, .dies, .bytes, .net, .saved, .draws]
  | .stripStart .. =>
    some [.cores, .dies, .bytes, .counts, .errs, .display, .io, .boot, .draws]
  | .llcMissFill .. =>
    some [.cores, .bytes, .net, .missing, .counts, .errs, .numbers, .boot, .draws]
  | .llcRequest .. =>
    some [.cores, .bytes, .net, .missing, .counts, .errs, .numbers, .io, .boot, .draws]
  | .sibhaltPop .. =>
    some [.groups, .teams, .cores, .dies, .bytes, .net, .counts, .errs, .io, .boot, .draws]
  | .powerOn .. =>
    some [.dies, .bytes, .net, .domains, .errs, .numbers, .sends, .io, .boot, .ctl, .draws]
  | .drainDeadline .. =>
    some [.groups, .teams, .dies, .bytes, .net, .copies, .xfms, .samples, .sends, .display, .boot, .draws]
  | .wtreplayByPage .. | .wtreplayByToken .. | .wtreplayByAsid .. | .waitTableRewalk .. | .siblingStop .. =>
    some [.groups, .teams, .cores, .dies, .bytes, .net, .copies, .xfms, .samples, .sends, .display, .io, .draws]
  | .thermalReset .. =>
    some [.groups, .teams, .cores, .dies, .bytes, .net, .copies, .xfms, .samples, .sends, .display, .boot, .draws]
  | .ctxCreate .. | .ctxKill .. | .ctxDestroy .. =>
    some [.groups, .teams, .cores, .dies, .bytes, .net, .copies, .xfms, .samples, .sends, .saved, .display, .io, .draws]
  | .killctx .. =>
    some [.groups, .teams, .cores, .dies, .bytes, .net, .copies, .xfms, .samples, .sends, .saved, .display, .io, .boot, .draws]
  | .mtileStep .. =>
    some [.groups, .teams, .cores, .dies, .bytes, .net, .counts, .errs, .copies, .xfms, .samples, .sends, .display, .io, .boot, .draws,
      .issuing]
  | .deviceRegisterWrite .. | .cpaCopyComplete .. | .dmaRequest .. =>
    some [.groups, .teams, .cores, .dies, .bytes, .net, .domains, .windows, .counts, .errs, .copies, .xfms, .samples, .sends, .saved,
      .display, .io, .boot, .draws]
  | .bulkCopyComplete .. =>
    some [.groups, .teams, .cores, .dies, .bytes, .net, .domains, .windows, .counts, .errs, .copies, .bulks, .xfms, .samples, .sends,
      .saved, .display, .io, .boot, .draws]
  | .memoryReply .. =>
    some [.groups, .teams, .cores, .dies, .bytes, .net, .domains, .windows, .counts, .errs, .copies, .xfms, .samples, .sends, .saved,
      .display, .io, .boot, .ctl, .draws]
  | _ => none

end Sys2Proof.Claims
end

