-- ==== Sys2Proof/Certificates/Slice0/Obligations.lean ====
section
/-! DEFINITION. The statements for the provers. Their terms are those of Sys2Proof/Claims. -/

open Sys2Proof Sys2Proof.Machine Sys2Proof.Claims

/-- The state right after reset. At State.reset the device is off and no group, team or copy is there; each die pair is not running, DSCTL
is 0x0003E800, RCBINV, NRBASE and DTRAPBASE are 0, EMBCTL asks for 6 tokens, HELD is 0; IDW0-15, HMASK0-15, DOMSW and the format windows
are 0; CTXCMD is 0; SERCLK is 0x00010400 and SCOUNT 0; GAZE is 0; MEAS is 32 zero bytes; no HBM cell is listed (that an unlisted byte
reads 0 is the model's choice, log entry 4). (R38, R43, R49, 03_regions_and_scheduler (R67, R84, R89), R120, R140, R176,
07_memory_and_translation (R210, R213, R496), R294) -/
def Obligations.ResetState : Prop :=
  State.reset.boot.phase = .off ∧ State.reset.groups = [] ∧ State.reset.teams = [] ∧ State.reset.copies = [] ∧
  (∀ d, (dieAt State.reset d).running = false ∧ (dieAt State.reset d).dsctl = 0x0003E800#32 ∧ (dieAt State.reset d).rcbinv = 0 ∧
    (dieAt State.reset d).nrbase = 0 ∧ (dieAt State.reset d).dtrapbase = 0 ∧ (dieAt State.reset d).embTcnt = 6 ∧
    (dieAt State.reset d).heldReset = false) ∧
  (∀ k, Maps.get 0 State.reset.mem.idw k = 0 ∧ Maps.get 0 State.reset.mem.hmask k = 0 ∧ Maps.get 0 State.reset.mem.fw k = 0) ∧
  State.reset.mem.domReg = 0 ∧ State.reset.io.ctxcmd = 0 ∧ State.reset.display.serclk = 0x00010400#32 ∧
  State.reset.display.scount = 0 ∧ (∀ v, (Maps.get ({} : View) State.reset.display.views v).gaze = 0) ∧
  State.reset.boot.meas = 0 ∧ State.reset.boot.mlog = [] ∧ State.reset.mem.hbm = []

/-- A step runs the decoded instruction. When the next move is a group's turn (which of several possible moves comes next is the model's
free choice, log entry 2), no lasting error of the core store and nothing pending meets it once the errors of its core's caches are met
(R60), its fetch block is at hand, its next chain is the words ws with a zero trailer and a last chain bit of 0, the units that it needs
are free (R152), no access is on its way to a stack entry spilled by the group (R219) and ws decode to one instruction i, then a step is
exec of i, with the next chain's address and the block noted before it and the group's and its scheduler's issue in this clock and the
units it occupies counted after it (not where the chain was found not ready, or had issued before and is ended now, R279, R450). (R152,
R154, R155, R173, R198, R309, R310, R315) -/
def Obligations.StepRunsDecodedInstruction : Prop :=
  ∀ (s s0 s1 s2 t : State) (k e : Nat) (l : Line) (g : Group) (ws : List Word) (i : Instr),
    chooseMove s = (.group k, s0) → coreStoreError k (meetCaches (teamAt s0 (handleOf k)).core s0) = (none, s1) →
    takePending { s1 with cur := k } = none → fetchBlock k (turnBegun k s1) = (.line l, s2) → Maps.find s2.groups k = some g →
    chainWords g l = some (ws, e) → unitsFree s2 (curTeam s2) g ws = true → stackBusy s2 s2.cur = false → pipeClash ws = false → decode ws = .ok (i, []) →
    exec i (beforeChain k g e s2) = .next t → step s = .next (afterIssue k (curTeam s2) g ws t)

/-- Words written out from the encoding tables decode to their instructions. Words written bit by bit from the fields of the spec's
formats decode to the instructions they stand for: NOP, iadd, sel, iaddi with a LIT, fma, smul, smovi, ld, stg, atom, brc, bar, mmq,
had16, and a bare LIT word. (R312, R315, R316, R317, R333, R334, R335, R336, R337) -/
def Obligations.DecodesWrittenWords : Prop :=
  decode [0b0_000000_0000000000000000000000000#32] = .ok (.nop false, []) ∧
  decode [0b1_000001_0_000_0000011_0000100_0000101#32] = .ok (.iadd true false 3 4 5, []) ∧
  decode [0b0_000110_1_010_1111111_0000001_0000010#32] = .ok (.sel false true 2 127 1 2, []) ∧
  decode [0b1_001000_0_0000111_0001000_1000000001#32, 0b0_111111_0000000000000000000000011#32] =
    .ok (.iaddi false false 7 8 0x201#10 (some 3#25), []) ∧
  decode [0b0_001011_0_001_0001010_0001011_0001100#32] = .ok (.fma false false 10 11 12, []) ∧
  decode [0b0_100000_0010_000001_000010_000011_000#32] = .ok (.smul false 1 2 3, []) ∧
  decode [0b0_100001_0110_000101_100000000000001#32] = .ok (.smovi false 5 0x4001#15 none, []) ∧
  decode [0b0_100101_0_100_0010000_0100000_011_0101#32] = .ok (.ld false false 4 16 32 3 5 none, []) ∧
  decode [0b0_100111_0_101_0010000_0100000_001_0101#32] = .ok (.stg false false 5 16 32 5 none, []) ∧
  decode [0b0_101010_1_1001_0000100_0000110_011_10_1#32] = .ok (.atom false true 9 4 6 3 2 1, []) ∧
  decode [0b0_111000_001_010_1111111111111111111#32] = .ok (.brc false 2 0x7FFFF#19 none, []) ∧
  decode [0b1_111010_0000_000000_000000_000000_000#32] = .ok (.bar true, []) ∧
  decode [0b0_111100_000_0001000_0010000_000101_0_1#32] = .ok (.mmq false 8 16 5 1, []) ∧
  decode [0b0_111110_0_0000_0000111_0001001_000001#32] = .ok (.had16 false false 7 9 1, []) ∧
  decode [0b0_111111_0000000000000000000000001#32] = .ok (.lit false 1#25, [])

/-- Reset memory is in its one form. The state after reset satisfies the invariant: its list of HBM cells is sorted by address and holds
no cell equal to what an unlisted cell reads as. (01_package_and_links (R16), Log entry 4) -/
def Obligations.ResetKeepsMemoryForm : Prop := State.Inv State.reset

/-- Decoding an encoded instruction gives it back. For every well-formed instruction that has an encoding (every word of every family,
with every operand at every value its encoding admits), decoding its encoding gives the instruction and leaves no word. (R312, R315, R316,
R317, R322, R333, R334, R335, R336, R337) -/
def Obligations.DecodeOfEncode : Prop :=
  ∀ i : Instr, i.wellFormed = true → encode i ≠ [] → decode (encode i) = .ok (i, [])

/-- Every step keeps memory in its one form. For every state whose HBM cells are in canonical form (strictly rising addresses, no cell at
the value an unlisted cell reads as), every step of the package - a chain of any group, a step of any device unit, a step asked for from
outside, the next clock - leaves them in that form. (01_package_and_links (R16), 07_memory_and_translation (R202, R217), Log entry 4) -/
def Obligations.StepKeepsMemoryForm : Prop :=
  ∀ s t : State, State.Inv s → step s = .next t → State.Inv t

/-- No two encodings stand for one instruction. Whatever words decode to an instruction, the instruction is well formed and its encoding
is exactly the words that decoding took: no bit of a word is ignored. (R312, R315, R316, R317, R322, R332) -/
def Obligations.EncodeOfDecode : Prop :=
  ∀ (ws rest : List Word) (i : Instr), decode ws = .ok (i, rest) → i.wellFormed = true ∧ ws = encode i ++ rest

/-- NOP, the other words of major 0, and the pipe of a word. A word whose major is 0 decodes to NOP where bits [24:0] are zero, whatever
its chain bit, and is refused (ILLEGAL) where any of them is set; NOP has no pipe, and its execution leaves everything but the pc as it
was. Two words that differ in bits [24:0] and the chain bit alone, of a major other than 0, have the same pipe. A word of major 0x3F is a
LIT word. (R312) -/
def Obligations.FirstMajorIsNop : Prop :=
  (∀ w : Word, w.extractLsb' 25 6 = 0 →
    pipeOf w = .none ∧
    (w.extractLsb' 0 25 = 0 → decode [w] = .ok (.nop (w.getLsbD 31), [])) ∧
    (w.extractLsb' 0 25 ≠ 0 → ∃ r, decode [w] = .error r)) ∧
  (∀ w v : Word, w.extractLsb' 25 6 = v.extractLsb' 25 6 → pipeOf w = pipeOf v) ∧
  (∀ w : Word, w.extractLsb' 25 6 = 0x3F#6 → decode [w] = .ok (.lit (w.getLsbD 31) (w.extractLsb' 0 25), [])) ∧
  (∀ (c : Bool) (s : State) (g : Group), Ready s g [] → exec (.nop c) s = .next (onward s g))

/-- Integer, logic, shift, compare, select and move words. Each word of IARITH, IMUL, LOGIC, SHIFT (vector and scalar-B forms), ICMP, SEL,
MOV (mov, mov64, movs, pmov, pget), iaddi and movi, ready and with its operands aligned and below ALLOT, completes: in each active lane
its destination has the value of its row, carry forms set p6, every other lane, register, flag and byte of memory is as it was, and the
group goes on at the next chain. (R339, R343, R348, R350) -/
def Obligations.IntegerWords : Prop :=
  ∀ (i : Instr) (w : WordRule) (s : State) (g : Group), integerRule i = some w → Ready s g (w.regs g) → w.fits s g →
    exec i s = .next (onward s (w.out g))

/-- Scalar words and the moves of ix. Each word of SALU, SIMM, SCMP and the moves of ix, ready, completes once for the group whatever
ACTIVE holds: the scalar, pair, predicate (all 32 lanes) or ix has the value of its row, nothing else changes, and the group goes on at
the next chain. (R340, R353, R355, R357) -/
def Obligations.ScalarWords : Prop :=
  ∀ (i : Instr) (w : WordRule) (s : State) (g : Group), scalarRule i = some w → Ready s g (w.regs g) → w.fits s g →
    exec i s = .next (onward s (w.out g))

/-- Floating-point words. Each word of FADD, FMUL (vector and scalar-B forms), FCMP, FPK, SFU and FP64, ready and in bounds, completes: in
each active lane the destination has the exact result rounded once under sr.fpm with inputs and results flushed as it says, and the events
of all active lanes are counted against the group's tag and nothing else changes. The SFU results other than the exact cases are the
model's choice within the stated accuracy (log entry 9). (R358, R359, R360, R361, R362, R363, R364, R365, R366, R253, R245) -/
def Obligations.FloatWords : Prop :=
  ∀ (i : Instr) (w : WordRule) (s : State) (g : Group), floatRule i = some w → Ready s g (w.regs g) → w.fits s g →
    exec i s = .next (charge g.tag (w.ev g) (onward s (w.out g)))

/-- Conversion words. Each word of CVT, CVTN and XREL, ready and in bounds, completes: the destinations have the converted values in each
active lane, the .sr forms step the lanes' generators, the events are counted against the group's tag, and nothing else changes. (R367,
R368, R369, R370, R371, R372, R246, R247, R248, R249) -/
def Obligations.ConvertWords : Prop :=
  ∀ (i : Instr) (w : WordRule) (s : State) (g : Group), convertRule i = some w → Ready s g (w.regs g) → w.fits s g →
    exec i s = .next (charge g.tag (w.ev g) (onward s (w.out g)))

/-- Lane and reduction words. Each word of LANE and REDUCE, ready and in bounds, completes: shuffles and the quad differences ddx and ddy
read their source lanes whether active or not, votes and reductions combine over the active lanes in increasing order, f32 forms count
their events, and nothing else changes. (R373, R374, R375, R376, R471, R359) -/
def Obligations.LaneWords : Prop :=
  ∀ (i : Instr) (w : WordRule) (s : State) (g : Group), laneRule i = some w → Ready s g (w.regs g) → w.fits s g →
    exec i s = .next (charge g.tag (w.ev g) (onward s (w.out g)))

/-- A word that names a pending or awaiting register does not issue. For every word that acts on its group alone: where any register that
it names, read or written, is pending or awaiting, the chain is not ready, and the group is held with nothing else changed. (R154, R157,
R158) -/
def Obligations.ScoreboardHolds : Prop :=
  ∀ (i : Instr) (w : WordRule) (s : State) (g : Group) (r : RegId), wordRule i = some w → Maps.find s.groups s.cur = some g →
    s.issue = .alone → r ∈ w.regs g → g.busy r = true → exec i s = .next (keptBack s)

/-- Operands out of bounds or misaligned trap. For every ready word that acts on its group alone: an operand with a misaligned effective
start raises ILLEGAL; else an operand that is not wholly below ALLOT raises REGBOUND; the chain has no effect and the trap is taken at it
by the active lanes. (R318, R290, R292, R295) -/
def Obligations.OperandBoundsTrap : Prop :=
  ∀ (i : Instr) (w : WordRule) (s : State) (g : Group), wordRule i = some w → Ready s g (w.regs g) →
    ((∃ r ∈ w.dst ++ w.src, ea w.x r.1 g % r.2.2 ≠ 0) → exec i s = .next (trapped s .illegal g.active)) ∧
    ((∀ r ∈ w.dst ++ w.src, ea w.x r.1 g % r.2.2 = 0) → (∃ r ∈ w.dst ++ w.src, allot s < ea w.x r.1 g + r.2.1) →
      exec i s = .next (trapped s .regbound g.active))

/-- What a word that acts on its group alone leaves unchanged. A ready word that acts on its group alone, in bounds, answers a next state
in which: every byte of memory and scratchpad, every other group, team, core and unit is as it was (only the statistics of its tag on its
launch's die may count, and its launch's card may list the tag); in its group every vector register but its destinations, every lane that
is not active, every scalar, predicate and ix that it does not name is as it was; sr registers, stack, masks, windows, scoreboard and tags
are as they were; the generators too unless it is a .sr conversion; the pc is the next chain. (R339, R340, R10, R148, R254) -/
def Obligations.RegisterWordFrame : Prop :=
  ∀ (i : Instr) (w : WordRule) (s : State) (g : Group), wordRule i = some w → Ready s g (w.regs g) → w.fits s g →
    ∃ t h, exec i s = .next t ∧ Maps.find t.groups s.cur = some h ∧ h.pc = s.nextPc ∧ sameElsewhere s t ∧ sameRegisters w g h ∧
      sameControl g h ∧ (usesGenerators i = false → h.lfsr = g.lfsr)

/-- The words of one chain read before any of them writes. A chain of a word of pipe A that acts on its group alone and a scalar word,
both with their registers free, in bounds, and with no common destination: both read the registers as they stood at issue, and afterwards
each register, predicate and ix has the value of the word that writes it; nothing else changes but the statistics of its tag on its
launch's die and the list of tags of its launch's card. (R314, R11, R10) -/
def Obligations.ChainReadsBeforeWriting : Prop :=
  ∀ (i j : Instr) (w v : WordRule) (s : State) (g : Group), wordRule i = some w → scalarRule i = none → scalarRule j = some v →
    Ready s g (w.regs g) → Ready s g (v.regs g) → w.fits s g → g.tileSrc = none →
    destClash [collectOne i s, collectOne j s] = false →
    ∃ h, Maps.find (runChain [i, j] s).groups s.cur = some h ∧ bothWrote g (w.out g) (v.out g) h ∧ h.pc = s.nextPc ∧
      sameControl g h ∧ sameElsewhere s (runChain [i, j] s)

/-- NOP, LIT, branches, stack words, exit, software traps and pacing. In each case of its rule a ready control word answers the state that
the case gives: branches by the lanes that take them, join by the top entry, loop, call and ret, exit, trap and brk, yield and sleep;
RSTACK at full capacity, ILLEGAL for a bare LIT and a bad top entry; a join that reconverges waits for the accesses of the paths. A trap
whose entry cannot be spilt now stays to be taken (the model's reading, log entry 14). In every case the whole state after it is given.
(R377, R378, R379, R380, R381, R382, R384, R385, R386, R315, R171, R220) -/
def Obligations.ControlWords : Prop := Holds controlCases

/-- Reads and writes of special registers. getsr and setsr for every special register: the value read, per lane or once; the value written
with reserved bits kept at zero, RESEED reseeding every generator; PRIV in user mode for supervisor registers; ILLEGAL for numbers that do
not exist or cannot be written. (R321, R356, R246, R293) -/
def Obligations.SpecialRegisterWords : Prop := Holds specialCases

/-- vrd and vwr. vrd reads and vwr writes in each active lane the register that its offset byte names; an operand or a named register that
is not below ALLOT raises REGBOUND with mask ACTIVE and no effect; the word is kept back while a register from its base up to ALLOT is not
free. (R352, R318, R341) -/
def Obligations.IndexedRegisterWords : Prop := Holds indexedCases

/-- Loads, stores and atomics by lane. ld, st, ldg, stg, lds, sts, atom and atoms: with every lane aligned and served, scratchpad lanes
act at once and memory lanes become requests with their destinations pending; the word is kept back for an order it must keep; a
misaligned vector operand raises ILLEGAL, one beyond ALLOT REGBOUND; else the lowest cause of the lanes is taken by the lanes that raise
it, with their addresses kept: ALIGN, FIRSTTOUCH, or ACCESS (an unbound window, NOWIN, among its reasons) with a record of the lowest
lane; where lanes only park, the group parks under the lowest. A gather or scatter commits its other lanes and keeps those pending. Each
case gives the whole state after it. The order in which lanes of one atomic or of stores to one byte act is free (log entry 8); what binds
a window anew and which lanes wait are the model's reading (log entry 15). (R191, R194, R299, R292, R297, R319, R402, R407, R408, R409,
18_memory_instructions (R411, R412, R413), 07_memory_and_translation (R190, R196, R200, R218, R219)) -/
def Obligations.LaneAccessWords : Prop := Holds laneAccessCases

/-- Windows and the uniform load. bind, unbind, wquery and ldc: the window's fields from the translation, cleared or copied to six
scalars; ldc's request and pending destination; ldc is kept back for its order, raises ALIGN for a misaligned address, and a bind or an
ldc whose address fails raises FIRSTTOUCH or ACCESS with its reason, or parks, with the mask of a uniform instruction, as each case gives.
(R403, R404, R405, R406, R410, R188, R189, R190, R191, R194, R196) -/
def Obligations.UniformAccessWords : Prop := Holds uniformCases

/-- Fences and cache words. fence.acq, fence.rel, fence.ar, cinv, cwb and pf: the group waits for what must be performed, lines leave the
L1 or are written back, and each case gives the whole state after it. What cwb checks of each page, and what fence.rel waits for, are the
model's reading (log entry 15). (R222, R223, R414, R415, R416, R201) -/
def Obligations.FenceWords : Prop := Holds fenceCases

/-- Asynchronous copies. cpa, cpseal, cpwait, cpstat, cpbulk and cpq: batches counted and sealed, waits that end at zero and raise
COPYFAULT on failure, engines started, and their traps, as each case gives. (R421, R422, R423, R424, R425, R426, R427, R431, R307) -/
def Obligations.CopyWords : Prop := Holds copyCases

/-- Transaction barriers. tbinit, tbarrive, tbexpect, tbwait and tbtest over the 16 bytes of a barrier in scratchpad: counts, phases and
failure as each case gives, ALIGN or ACCESS for a bad offset. (R432, R433, R307) -/
def Obligations.TransactionBarrierWords : Prop := Holds tbarCases

/-- Register delivery and messages. rarm, rdisarm, mkcap, rsend in its four forms, rrevoke, rtest, mring, msend and mwait: awaiting bits,
capabilities, sends put on their way, generations and rings, as each case gives; the chain of a .t send waits for its status and ends or
traps with it at that chain. When rrevoke takes effect and the lanes of a .t trap with no active lane are the model's reading (log entry
15). (R271, R273, R274, R276, R277, R279, R288, R289, 19_async_and_delivery_instructions (R438 to R443), R444, R272) -/
def Obligations.DeliveryWords : Prop := Holds deliveryCases

/-- Team barriers and tasks. bar, bar.pub, bar.realloc, bar.arrive, bar.wait, post, lgrow, evpost, depdec and depset: arrivals and
completed phases, posts, counters and events on their way, and waits, as each case gives. What lgrow does for a launch that has lost its
unissued teams is the model's reading (log entry 15). (R387, R388, R389, R391, R392, R393, R394, R73, R79, R82) -/
def Obligations.TaskWords : Prop := Holds taskCases

/-- Supervisor words. tlbinv, winv, hmask, evict, snap and pgmap: in user mode each raises PRIV; in supervisor mode each has the effect
its case gives. Which of several statuses that hold together is reported is free (log entry 8); a second evict of a team waits for the
first (the model's choice, log entry 20). (R395, R396, R397, R398, R399, R400, R401, R187, R212, R303) -/
def Obligations.SystemWords : Prop := Holds systemCases

/-- Tiered resources. ldt, the three samplers, resset, resclr, resq and resfence: pages looked up, clamped and loaded or recorded in the
flue ring, results pending, and their traps, as each case gives. (R257, R258, R264, R265, R417, R418, R419, R420) -/
def Obligations.TieredWords : Prop := Holds tieredCases

/-- Matrix words. mmq, mmqs, mmqg, mtile, wbld, wbinv and wbstat: readiness by token, slot and unit, accumulators updated in the quarters
that take part, slot loads started and inspected, and their traps, as each case gives. The sum of a chunk of products, before its
rounding, is in exact numbers what R251 writes: NaN, an infinity, +0 or the products truncated toward zero to multiples of 2^(E - 52) and
added. (R445, R446, R447, R448, R449, R450, R452, R454, R455, R178, R251) -/
def Obligations.MatrixWords : Prop := Holds matrixCases ∧ ChunkSums

/-- Transform words. had16, had32, had64, absmax, quant, bmenc, bmdec, pscan and lztok: sources read at issue, destinations pending until
the reply that carries the results of the rule, events counted, as each case gives. (R457, R458, R459, R460, R461, R462, R463) -/
def Obligations.TransformWords : Prop := Holds transformCases

/-- Tile and mesh words. memit.v, memit.p, tamp, tload, tstore, tseal, gzrd, ipa and ipac: meshlets filled, requests put into the tile's
ring, samples read and colours stored, seals sent, attributes evaluated, as each case gives. The coefficients of an attribute that is not
finite, and a tile without a plane block there, give free values (log entry 8). (R464, R465, R466, R467, R468, R469, R470, R472) -/
def Obligations.GraphicsWords : Prop := Holds graphicsCases

/-- Ray words. rtrav.init, rtrav.step and rhit over the 48 registers of a ray's state: nodes visited in order, hits kept, as each case
gives. (R473, R474, R475) -/
def Obligations.RayWords : Prop := Holds rayCases

/-- Taking a trap. A trap with cause c and resume point rp taken by the lanes m of a group whose stack is not past its capacity, and that
no halt has reached: a TRAP entry with ACTIVE, rp, c, SKID 0 and sr.mode[7:0] is pushed - where the push spills (R169), the lowest held
entry is stored at its home first -, sr.mode has TCAUSE c, SUP 1 and ADV 0, ACTIVE is m, the pc is sr.trapbase.BASE x 2^14 + 64 x c, and
nothing else changes. The stack may hold any entries, TRAP entries too. (R295) -/
def Obligations.TrapEntry : Prop :=
  ∀ (k : Nat) (c : Cause) (rp : Dword) (m : Word) (s : State) (g : Group), Maps.find s.groups k = some g → g.depth ≤ stackCap g →
    g.haltSeen = none →
    (spills g = false → takeTrap k c rp m s = { s with groups := Maps.modify s.groups k (atHandler c rp m) }) ∧
    (∀ low, spills g = true → g.held.getLast? = some low → homeFault s k (stackHome g (g.depth - g.held.length)) .store = none →
      let u := storeNow k (stackHome g (g.depth - g.held.length)) (Maps.natLe (entryNum low) 32) s
      takeTrap k c rp m s = { u with groups := Maps.modify u.groups k (fun h => atHandler c rp m { h with held := h.held.dropLast }) })

/-- Returning from a trap. join with a TRAP entry on top, all entries held in the core: for any cause but 0x0D, sr.mode[7:0] is the
entry's MODE, ACTIVE its MASK, and the group resumes at its RPC, or, where ADV was set, at the chain that follows RPC, as the block
fetched there divides it: the next of its packet, else the first of the next packet; for cause 0x0D it raises ILLEGAL. That the join
itself fetches the block at the resume point is the model's reading (log entry 15). (R296) -/
def Obligations.TrapReturn : Prop :=
  (∀ (c : Bool) (s : State) (g : Group) (e : StackEntry) (es : List StackEntry), Ready s g [] → g.held = e :: es →
    g.depth ≤ g.held.length → e.kind = .trap →
    (e.cause ≠ 0x0D → g.mode.getLsbD 1 = false →
      exec (.join c) s = .next { s with groups := Maps.modify s.groups s.cur fun _ => returned e false e.rpc g }) ∧
    (∀ (l : Line) (u : State), e.cause ≠ 0x0D → g.mode.getLsbD 1 = true →
      fetchFor { g with pc := e.rpc, mode := e.mode.setWidth 32 } s.cur s = (.line l, u) →
      exec (.join c) s = .next { u with groups := Maps.modify u.groups s.cur (returned e true (chainAfter l e.rpc)) }) ∧
    (e.cause = 0x0D → exec (.join c) s = .next (trapped s .illegal g.active))) ∧
  (∀ (l : Line) (pc : Dword), pc.toNat % 64 < 60 → pc.toNat % 4 = 0 →
    startsChain (packetWords l (pc.toNat % 64)) (pc.toNat % 64 % 12 / 4) = true →
    chainAfter l pc = afterChain (packetOf pc) (chainEnd (packetWords l (pc.toNat % 64)) (pc.toNat % 64 % 12 / 4) 2)) ∧
  (∀ (p : Dword) (e : Nat), e ≤ 3 → afterChain p e = if e = 3 then packetAddr (packetNo p + 1) else p + BitVec.ofNat 64 (4 * e))

/-- A trap with the spare position in use kills the team. Where a group's stack already holds an entry above its capacity, a further trap
kills its team: neither the team nor any group of it is left, and a record with cause RSTACK and reason RSTACK, its context, region, core,
group, mask and resume point, is on its way to the die's fault queue. (R171, R290, R298, R302) -/
def Obligations.FullStackKillsTeam : Prop :=
  ∀ (k : Nat) (c : Cause) (rp : Dword) (m : Word) (s : State) (g : Group) (T : Team), Maps.find s.groups k = some g →
    Maps.find s.teams (handleOf k) = some T → stackCap g < g.depth →
    Maps.find (takeTrap k c rp m s).teams (handleOf k) = none ∧
    (∀ j, handleOf j = handleOf k → Maps.find (takeTrap k c rp m s).groups j = none) ∧
    ({ cause := 0x0E, reason := .rstack, ctx := T.ctx, region := T.region, die := T.core / 24, core := T.core % 24,
       team := BitVec.ofNat 32 (2 ^ 31 + k % 32 * 2 ^ 20 + handleOf k), mask := g.active, pc := rp, addr := 0, info := 0 } : FaultRec) ∈
      (dieAt (takeTrap k c rp m s) (T.core / 24)).frecs

/-- A stack entry stored at its home reads back as it was. An entry written as its 32 bytes and read back is the same entry, for every
kind, mask, cause, skid and mode, where its addresses are 0 or carry the tag that the model gives to an address read back (only bits
[55:0] are stored; the tag is the model's choice, log entry 7). (R168, R169, Log entry 7) -/
def Obligations.StackEntriesReadBack : Prop :=
  ∀ (e : StackEntry) (pc : Dword), e.kind ≠ .bad →
    (∀ a ∈ [e.rpc, e.ppc], a = 0 ∨ (vaLow a ≠ 0 ∧ vaTag a = if e.kind = .trap then (if e.mode.getLsbD 0 then 0xFF else 0) else vaTag pc)) →
    entryOf (entryNum e) pc = e

/-- A number stored in memory is read back, and no other byte changes. Storing n bytes of v at an address, where each of those bytes is in
the LLC or under no format window, and reading n bytes there gives v modulo 2^(8n), lowest byte first; every byte outside the range, in
the LLC or under no window, reads as before. (R1, R16, R202, R217) -/
def Obligations.StoresReadBack : Prop :=
  ∀ (m : Mem) (pa n v : Nat), (∀ i < n, (Maps.find m.llc ((pa + i) / 64)).isSome = true ∨ viewOf m (pa + i) = none) →
    natAt (putNat m pa n v) pa n = v % 2 ^ (8 * n) ∧
    ∀ a, (a < pa ∨ pa + n ≤ a) → ((Maps.find m.llc (a / 64)).isSome = true ∨ viewOf m a = none) → byteAt (putNat m pa n v) a = byteAt m a

/-- The min-max rule. For FP32, FP16 and FP64: the rule over two operand codes, with or without input flush, gives the other operand where
exactly one is NaN, the canonical NaN where both are, else the lesser or greater with -0 below +0, as the operand's bits after the flush;
it never counts a NAN event. (FloatWords and LaneWords say that the eight words use this rule.) (R359) -/
def Obligations.MinMaxRule : Prop :=
  ∀ (f : Num.Fmt) (fz isMax : Bool) (a b : Nat), f ∈ [Num.f32, Num.f16, Num.f64] → a < 2 ^ f.width → b < 2 ^ f.width →
    (minMax f fz isMax a b).1 = minMaxBits f fz isMax a b ∧ (minMax f fz isMax a b).2.nan = 0

/-- sel. sel, ready and in bounds, answers a next state in which lane L of vD is lane L of vA where the predicate is set and of vB where
it is not, for active lanes, and its old value elsewhere; with predicate 7 it is lane L of vA; the pc is the next chain, and no other
register of the group changes. (R350) -/
def Obligations.SelectWord : Prop :=
  ∀ (c x : Bool) (p : BitVec 3) (d a b : BitVec 7) (s : State) (g : Group),
    Ready s g ([.vec (ea x d g), .vec (ea x a g), .vec (ea x b g)] ++ predRegs p ++ (if x then [.ix] else [])) →
    ea x d g < allot s → ea x a g < allot s → ea x b g < allot s →
    ∃ t h, exec (.sel c x p d a b) s = .next t ∧ Maps.find t.groups s.cur = some h ∧ h.pc = s.nextPc ∧
      (∀ l < 32, h.v (ea x d g) l =
        if g.on l then (if (g.p p.toNat).getLsbD l then g.v (ea x a g) l else g.v (ea x b g) l) else g.v (ea x d g) l) ∧
      (p = 7 → ∀ l < 32, g.on l = true → h.v (ea x d g) l = g.v (ea x a g) l) ∧
      (∀ r l, l < 32 → r ≠ ea x d g → h.v r l = g.v r l) ∧ h.sregs = g.sregs ∧ h.preds = g.preds ∧ h.ix = g.ix

/-- qswz. qswz, ready and in bounds, answers a next state in which lane L of vD is lane L XOR 1, L XOR 2, L XOR 3 or 4 x (L div 4) of vA
by its code, for active lanes L, the source lane read whatever its state, and its old value elsewhere; X adds ix to D and A. A word with a
bit of B[6:2] set is refused. (R375) -/
def Obligations.QuadExchange : Prop :=
  (∀ (c x : Bool) (d a : BitVec 7) (q : BitVec 2) (s : State) (g : Group),
    Ready s g ([.vec (ea x d g), .vec (ea x a g)] ++ (if x then [.ix] else [])) → ea x d g < allot s → ea x a g < allot s →
    ∃ t h, exec (.qswz c x d a q) s = .next t ∧ Maps.find t.groups s.cur = some h ∧
      ∀ l < 32, h.v (ea x d g) l =
        if g.on l then g.v (ea x a g) (if q = 0 then l ^^^ 1 else if q = 1 then l ^^^ 2 else if q = 2 then l ^^^ 3 else 4 * (l / 4))
        else g.v (ea x d g) l) ∧
  (∀ w : Word, w.extractLsb' 25 6 = 0x13#6 → w.extractLsb' 21 3 = 7#3 →
    decode [w] = if w.extractLsb' 2 5 = 0 then
      .ok (.qswz (w.getLsbD 31) (w.getLsbD 24) (w.extractLsb' 14 7) (w.extractLsb' 7 7) (w.extractLsb' 0 2), [])
      else .error .fixedField)

/-- Shuffles. shfl.idx, shfl.up, shfl.down and shfl.xor, ready and in bounds, answer a next state in which lane L of vD, for active lanes
L, is lane j of vA as it stood, j chosen from the control c in lane L of vB: c[4:0]; L - c or L where c > L; L + c or L where L + c > 31;
L XOR c[4:0]. The source lane is read whether active or not, and vD may be vA. (R373) -/
def Obligations.ShuffleWords : Prop :=
  ∀ (op : Nat) (c x : Bool) (d a b : BitVec 7) (s : State) (g : Group), op < 4 →
    Ready s g ([.vec (ea x d g), .vec (ea x a g), .vec (ea x b g)] ++ (if x then [.ix] else [])) →
    ea x d g < allot s → ea x a g < allot s → ea x b g < allot s →
    ∃ t h, exec (if op = 0 then .shflIdx c x d a b else if op = 1 then .shflUp c x d a b else if op = 2 then .shflDown c x d a b
        else .shflXor c x d a b) s = .next t ∧ Maps.find t.groups s.cur = some h ∧
      ∀ l < 32, h.v (ea x d g) l =
        let k := (g.v (ea x b g) l).toNat
        if g.on l then g.v (ea x a g) (if op = 0 then k % 32 else if op = 1 then (if l < k then l else l - k)
          else if op = 2 then (if 31 < l + k then l else l + k) else l ^^^ k % 32)
        else g.v (ea x d g) l

/-- Rounding to nearest even. A finite value rounded without flushing into FP64, FP32, FP16 or BF16 under RNE keeps its sign and has the
magnitude code nearest to it, the even one of two as near, and is the infinity where that code lies beyond the largest finite one. (R239,
R244) -/
def Obligations.RoundsToNearest : Prop :=
  ∀ (f : Num.Fmt) (neg : Bool) (m : Nat) (e : Int), f ∈ [Num.f64, Num.f32, Num.f16, Num.bf16] →
    ∃ g, IsNearest f ((m : ℚ) * 2 ^ e) g ∧
      Num.packRne f (.fin neg m e) = Num.withSign f neg (if f.top < g then f.infc.getD f.top else g)

/-- Requests at their slices, fills and replies. llcRequest, nackResend, domainNackResend, remoteScratchAccess, memoryReply, lateFailure,
coreReset, domainSwitchPhase: in each case of its rule the step happens and leaves the state that the case gives; llcMissFill puts the
line into its slice, frees the miss entry, and serves or moves on every request attached to it. Which cases of L1, TLB and residency
caches are served is the model's choice (log entry 11), and so is the module that a crossing takes and the number that a LINKDOWN names
(log entry 23). (R60, R200, R201, R203, R204, R205, R206, R212, R498, R319) -/
def Obligations.RequestSteps : Prop :=
  StepHolds requestCases ∧ FactHolds fillFacts

/-- Writes of device registers. RCBINV, DSPOST, DCTR, LCCTL, SNAPCTL, THERMCTL, DOMSW, FW, SERCLK, VOB, VREC, GAZE, EMBCTL, DSCTL, NRBASE
and any register by its address, and rcbInvalidationDone: in each case the write happens and leaves the state that the case gives; the
broadcast alias of a format window writes every controller's; the highest word of VOB takes PERIOD and PEN alone while the view runs and
the whole block at rest. How many tokens a write of EMBCTL lets in at once, and whether a format window's dirty lines are written back
first, is free (log entry 8). (01_package_and_links (R18, R25, R32, R38), 02_control_complex_and_host (R41, R57), 03_regions_and_scheduler
(R67, R74, R81, R84, R89), R60, R120, R140, R141, R176, 07_memory_and_translation (R210, R213, R496), R499) -/
def Obligations.RegisterWriteSteps : Prop :=
  StepHolds registerCases ∧ FactHolds broadcastFacts ∧ FactHolds vobFacts

/-- WTREPLAY and the wait table. A write of WTREPLAY that is malformed or names no group does nothing; any other wakes every group that it
names and those under the overflow entry, each to re-execute or to take the cause that ACT asks for; a rewalk of an entry whose page can
now be had wakes its groups (one whose page cannot is in GroupAndThermalSteps). (R194, R195) -/
def Obligations.ReplaySteps : Prop :=
  StepHolds replayCases ∧ FactHolds replayFacts ∧ FactHolds rewalkFacts

/-- Siblings, sleeps, tokens, reallocation and heat. siblingStop, sibhaltPop, sleepExpiry, tokenHop, burstEnd and a waitTableRewalk that
does not find its page leave the state that each case gives; reallocDecision changes the allotments of a full phase or denies them;
thermalThrottle and thermalTokenRestore set the token count; thermalReset leaves no team, card or token on the die and a THERMAL record
for every context with work there. When an inserted token comes is free (log entry 8). (R37, R38, R162, R163, R173, R175, R176, R177,
R178, R179, R386) -/
def Obligations.GroupAndThermalSteps : Prop :=
  StepHolds groupCases ∧ FactHolds reallocFacts ∧ StepHolds heatCases ∧ FactHolds heatFacts

/-- CTXCMD. CREATE, KILL and DESTROY of a context: accepted or refused with their status in CTXCMD as each case gives; a killed context
has no team, evicted team or waiting card left, and a KILLED record on its way to its root. (R42, R43, R44, R302) -/
def Obligations.ContextCommands : Prop :=
  StepHolds contextCases ∧ FactHolds contextFacts

/-- Posts, counters and events. cardPostArrival, cardStoreEntryFreed, cardReady, admholdExpiry, eventRecord and eventQueueSlotFreed leave
the state that each case gives; the operations that reach a counter in one clock leave the set value less every decrement, never below 0.
(R73, R74, R75, R76, R77, R78, R79, R80, R81, R82, R83, R84) -/
def Obligations.LaunchSteps : Prop :=
  StepHolds launchCases ∧ FactHolds counterFacts

/-- Placement, drains, retirement and decompression. teamPlacement puts the next team of the first card on the core that R88 names under
the lowest free handle with its entry values; drainDeadline leaves none of the victims' teams on the draining cores and a DRAIN record;
launchRetirement removes the launch and decrements its successors; decompressionJobEnd puts the record of the job into the event queue, or
lets it wait for a slot, gives a malformed job record OUTLEN 0 and STATUS 3, and leaves a STRUCTFAULT record for one that cannot be read.
Which of several candidates that the rules leave open is taken is the model's choice (log entry 15). (R86, R88, R90, R91, R93, R94, R96,
R147, R150, R302, R330, R437) -/
def Obligations.PlacementSteps : Prop :=
  FactHolds placeFacts ∧ FactHolds drainFacts ∧ FactHolds retireFacts ∧ FactHolds jobEndFacts

/-- Steps of the I/O dies and their control cores. Flits received, DMA requests, fault records, snapshots latched, measured components,
completions of PCIe windows, residency invalidations, flue records, replacement notices and the other steps of the I/O dies leave the
state that each case gives; a retraining begins, ends or fails as its case gives; a datagram that is not accepted changes nothing but the
receive ring's interrupt. An operation of a control core is made or waits as its case gives: accesses of addresses in no domain read zero
or are dropped with a record, fences wait for its accesses, an interrupt is taken by its file's order (its accesses' sizes and its modes
are the model's choice, log entry 25; the interrupt file of an MSI, the first snapshot number, the payload of a fabric flit and the port's
corners too, log entries 16, 17, 24 and 28). (R16, R23, R31, R32, R34, R39, R40, R52, R49, R55, R57, R497) -/
def Obligations.IoDieSteps : Prop :=
  StepHolds outerCases ∧ StepHolds retrainCases ∧ StepHolds discardCases ∧ CtlHolds

/-- Triggers, flits and links given up. The root gives a trigger the next sequence number and sends it to every die; a flit sent carries
the next sequence number and waits in the replay buffer, class 0 of a port before the others and these in their turns; an acknowledgement
flit is a header alone; a link given up after four attempts leaves nothing waiting on it and no route to it, every request that waits to
cross it fails with LINKDOWN, and every send whose flits are on it is answered bad capability. The ACK before any flit is received and the
first SEQ are the model's choice (log entry 27). (R22, R23, R24, R25, R26, R32, R55) -/
def Obligations.LinkFacts : Prop :=
  FactHolds triggerFacts ∧ FactHolds flitFacts ∧ FactHolds downFacts

/-- Strips, seals and replacement. A strip's start latches gaze, reads the view record and clears the flue filters; a seal is accepted
once, within its strip and the grid, or dropped and counted; the replacement instant closes the strip and counts every tile that no seal
filled. Which of a seal and the replacement comes first in one clock is the model's reading (log entry 15). (R120, R121, R138, R142, R143,
R144, R267, R499) -/
def Obligations.DisplaySteps : Prop :=
  FactHolds stripFacts ∧ FactHolds sealFacts ∧ FactHolds replaceFacts

/-- Power-on and the steps of the boot. At power-on a flash image that passes every check starts its firmware: its components are measured
and control cores 0 to 7 run in M mode; any other leaves a boot failure counted and the device waiting for a reload. The firmware's steps
follow: the second I/O die, HBM with its retired pages, each die pair, the modules, the ports, the package identifier, and the operating
system in S mode. The lifetime record is written after 60 s; the loss of the supply leaves the non-volatile contents alone. What the parts
of an image hold, and the corners of the boot steps, are the model's choice (log entries 10, 25 and 28). (R46, R48, R49, R51, R60, R62) -/
def Obligations.BootSteps : Prop :=
  FactHolds bootFacts

/-- Management commands. Each accepted datagram of STATUS, RESET, LOADIMG, ATTEST, SNAP, RDSNAP, RDLIFE, SETPKG, KILLCTX and an unknown
code has one response, with status 4 where the device waits and the command is not a recovery command, 2 for an unknown one, else as its
rule gives. The first snapshot number (log entry 17) and the corners of the management port (log entry 28) are the model's choice. (R47,
R50, R51, R52, R53, R54, R57, R61) -/
def Obligations.ManagementCommands : Prop :=
  FactHolds commandFacts

/-- Copies, sends and replies finish. sendAtRelay, sendMoved, sendStatusReply, messageAtRelay and xfmReply leave the state that each case
gives; a lane copy that ends leaves its batch counted down, or failed with a COPYFAULT record; a weight load ends VALID or FAILED with its
status and event. (R277, R278, R279, R280, R307, R421, R454, R457) -/
def Obligations.MoverSteps : Prop :=
  StepHolds moverCases ∧ FactHolds laneCopyFacts ∧ FactHolds weightFacts

/-- Matrix steps, arrivals, evictions, restores and bulk copies. Each step of an mtile counts in its progress register and the last ends
the wait; an arrival clears the awaiting bits of the registers its capability covers and no others; an evicted team leaves its core with
its state kept; a restored team is resident with the pc, mask, mode and depth of its save area; a bulk copy puts every element in place.
State.saved and State.savedGroups stand for the fields of the save area that the statement does not read from its bytes (the model's own
record, log entries 6 and 20). (R280, R301, R303, R304, R305, R429, R430, R431, R451) -/
def Obligations.ArrivalsAndMoves : Prop :=
  FactHolds tileFacts ∧ FactHolds arrivalFacts ∧ FactHolds evictionFacts ∧ FactHolds restoreFacts ∧ FactHolds bulkFacts

/-- Geometry: mesh ring, culling, binning and tile owners. meshRingEntry, cullInstance, primitiveAtBinner, primitiveAtOwner and
drawEndMarker: requests enter the ring whole where it has room, instances pass or are culled, primitives are sent to the owner of every
tile they cover in each view, join their tile's list while TLBUF has room, are counted late or dropped. The arithmetic of culling where
the spec leaves its order open is the model's choice (log entry 21), and so is how many primitives an owner's part of TLBUF holds (log
entry 13). (R103, R104, R108, R109, R111, R113, R116, R122, R123, R124, R125, R126) -/
def Obligations.GeometrySteps : Prop :=
  StepHolds meshCases ∧ StepHolds cullCases ∧ FactHolds cullFacts ∧ StepHolds binCases ∧ FactHolds binFacts ∧ FactHolds ownerFacts ∧ FactHolds markerFacts

/-- Primitives applied to their tiles. primitiveApply takes the next primitive of a tile out of its lists, writes the depth of every
sample that it passes and of no other, and adds at most one quad record for each 2x2 pixels and the end-of-tile record to the team's ring;
records left over go first. (R128, R129, R131, R132, R134) -/
def Obligations.RasterSteps : Prop :=
  FactHolds applyFacts ∧ FactHolds leftoverFacts ∧ FactHolds depthFacts

/-- What each step of a device unit leaves unchanged. For every step of a device unit but RESET and the loss of power, the parts of the
package that its table does not list - groups, teams, cores, die pairs, the bytes of memory, requests, miss entries, domains, windows,
counters, errors, copies, sends, saved teams, the serialiser, the I/O dies, boot, the clock, the issuing group - are as they were.
(01_package_and_links, 02_control_complex_and_host, 03_regions_and_scheduler, 04_frame_geometry_and_raster,
05_tiles_reconstruction_display, 07_memory_and_translation, 12_traps_faults_preemption) -/
def Obligations.DeviceStepsFrame : Prop :=
  ∀ (i : Instr) (ps : List Part) (s t : State), touched i = some ps → exec i s = .next t → ∀ p : Part, p ∉ ps → p.same s t
end

