-- ==== Sys2Proof/Laws/Maps.lean ====
section
/-! SUPPORT. The laws of sparse maps: what a read gives after a write, a removal or a change, and the form kept. -/

namespace Sys2Proof.Maps

variable {α : Type}

@[simp] theorem find_nil (k : Nat) : find ([] : AMap α) k = none := rfl

theorem find_cons (j : Nat) (u : α) (m : AMap α) (k : Nat) :
    find ((j, u) :: m) k = if j = k then some u else find m k := rfl

/-- A read after a write. -/
@[simp] theorem find_set (m : AMap α) (k : Nat) (v : α) (j : Nat) :
    find (set m k v) j = if k = j then some v else find m j := by
  induction m with
  | nil => simp [set, find]
  | cons e rest ih =>
    obtain ⟨i, u⟩ := e
    simp only [set]
    split
    · next h => subst h; by_cases hj : i = j <;> simp [find_cons, hj]
    · split
      · simp [find_cons]
      · next h1 h2 =>
        simp only [find_cons, ih]
        by_cases hi : i = j
        · have : k ≠ j := by omega
          simp [hi, this]
        · simp [hi]

/-- A read after a removal. -/
@[simp] theorem find_del (m : AMap α) (k j : Nat) : find (del m k) j = if k = j then none else find m j := by
  induction m with
  | nil => simp [del, find]
  | cons e rest ih =>
    obtain ⟨i, u⟩ := e
    simp only [del]
    split
    · next h => subst h; rw [ih]; by_cases hj : i = j <;> simp [find_cons, hj]
    · next h =>
      simp only [find_cons, ih]
      by_cases hi : i = j
      · have : k ≠ j := by omega
        simp [hi, this]
      · simp [hi]

/-- A read after a change. -/
@[simp] theorem find_modify (m : AMap α) (k : Nat) (f : α → α) (j : Nat) :
    find (modify m k f) j = if k = j then (find m j).map f else find m j := by
  induction m with
  | nil => simp [modify, find]
  | cons e rest ih =>
    obtain ⟨i, u⟩ := e
    simp only [modify]
    split
    · next h => subst h; by_cases hj : i = j <;> simp [find_cons, hj]
    · next h =>
      simp only [find_cons, ih]
      by_cases hi : i = j
      · have : k ≠ j := by omega
        simp [hi, this]
      · simp [hi]

@[simp] theorem get_set (d : α) (m : AMap α) (k : Nat) (v : α) (j : Nat) :
    get d (set m k v) j = if k = j then v else get d m j := by
  unfold get; rw [find_set]; split <;> rfl

/-- A read after a write that lists nothing for the value an unlisted key reads as. -/
@[simp] theorem get_put [DecidableEq α] (d : α) (m : AMap α) (k : Nat) (v : α) (j : Nat) :
    get d (put d m k v) j = if k = j then v else get d m j := by
  unfold put get
  split
  · next h => rw [find_del]; split <;> simp [h]
  · rw [find_set]; split <;> rfl

/-- Changes of one key in turn are one change. -/
theorem modify_modify (m : AMap α) (k : Nat) (f f' : α → α) :
    modify (modify m k f) k f' = modify m k (fun a => f' (f a)) := by
  induction m with
  | nil => rfl
  | cons e rest ih =>
    obtain ⟨i, u⟩ := e
    simp only [modify]
    split
    · next h => simp [modify, h]
    · next h => simp [modify, h, ih]

/-- A change of a listed key writes the changed value. -/
theorem modify_of_find {m : AMap α} {k : Nat} {u : α} (h : find m k = some u) (f : α → α) :
    modify m k f = modify m k (fun _ => f u) := by
  induction m with
  | nil => rfl
  | cons e rest ih =>
    obtain ⟨i, w⟩ := e
    simp only [find_cons] at h
    simp only [modify]
    split
    · next hi => simp [hi] at h; subst h; rfl
    · next hi => rw [if_neg hi] at h; rw [ih h]

/-! The canonical form. -/

theorem mem_of_mem_del {m : AMap α} {k : Nat} {p : Nat × α} (h : p ∈ del m k) : p ∈ m := by
  induction m with
  | nil => simp [del] at h
  | cons e rest ih =>
    obtain ⟨i, u⟩ := e
    simp only [del] at h
    split at h
    · exact List.mem_cons_of_mem _ (ih h)
    · rcases List.mem_cons.mp h with rfl | h
      · simp
      · exact List.mem_cons_of_mem _ (ih h)

theorem mem_of_mem_set {m : AMap α} {k : Nat} {v : α} {p : Nat × α} (h : p ∈ set m k v) : p = (k, v) ∨ p ∈ m := by
  induction m with
  | nil => simpa [set] using h
  | cons e rest ih =>
    obtain ⟨i, u⟩ := e
    simp only [set] at h
    split at h
    · rcases List.mem_cons.mp h with h | h
      · exact .inl h
      · exact .inr (List.mem_cons_of_mem _ h)
    · split at h
      · rcases List.mem_cons.mp h with h | h
        · exact .inl h
        · exact .inr h
      · rcases List.mem_cons.mp h with rfl | h
        · simp
        · rcases ih h with h | h
          · exact .inl h
          · exact .inr (List.mem_cons_of_mem _ h)

theorem sorted_nil : Sorted ([] : AMap α) := List.Pairwise.nil

theorem sorted_del {m : AMap α} (h : Sorted m) (k : Nat) : Sorted (del m k) := by
  induction m with
  | nil => exact h
  | cons e rest ih =>
    obtain ⟨i, u⟩ := e
    have hr := List.pairwise_cons.mp h
    simp only [del]
    split
    · exact ih hr.2
    · exact List.pairwise_cons.mpr ⟨fun p hp => hr.1 p (mem_of_mem_del hp), ih hr.2⟩

theorem sorted_set {m : AMap α} (h : Sorted m) (k : Nat) (v : α) : Sorted (set m k v) := by
  induction m with
  | nil => simp [set, Sorted]
  | cons e rest ih =>
    obtain ⟨i, u⟩ := e
    have hr := List.pairwise_cons.mp h
    simp only [set]
    split
    · next hi => subst hi; exact List.pairwise_cons.mpr ⟨hr.1, hr.2⟩
    · split
      · next hi hk =>
        refine List.pairwise_cons.mpr ⟨?_, h⟩
        intro p hp
        rcases List.mem_cons.mp hp with rfl | hp
        · exact hk
        · exact Nat.lt_trans hk (hr.1 p hp)
      · next hi hk =>
        refine List.pairwise_cons.mpr ⟨?_, ih hr.2⟩
        intro p hp
        rcases mem_of_mem_set hp with rfl | hp
        · show i < k
          omega
        · exact hr.1 p hp

theorem sorted_put [DecidableEq α] {m : AMap α} (h : Sorted m) (d : α) (k : Nat) (v : α) : Sorted (put d m k v) := by
  unfold put; split
  · exact sorted_del h k
  · exact sorted_set h k v

theorem sorted_filter {m : AMap α} (h : Sorted m) (p : Nat × α → Bool) : Sorted (m.filter p) := h.filter _

theorem find_some_mem {m : AMap α} {k : Nat} {v : α} (h : find m k = some v) : (k, v) ∈ m := by
  induction m with
  | nil => simp at h
  | cons e rest ih =>
    obtain ⟨i, u⟩ := e
    simp only [find_cons] at h
    split at h
    · next hi => simp at h; subst h; subst hi; simp
    · exact List.mem_cons_of_mem _ (ih h)

end Sys2Proof.Maps
end

