-- ==== Sys2Proof/Laws/State.lean ====
section
/-! SUPPORT. Every field of State after each shared update, and what the shared readers give there. -/

namespace Sys2Proof.Machine

variable (s : State)

@[simp] theorem clock_onGroup (k : Nat) (f : Group → Group) : (onGroup k f s).clock = s.clock := rfl
@[simp] theorem draws_onGroup (k : Nat) (f : Group → Group) : (onGroup k f s).draws = s.draws := rfl
@[simp] theorem cur_onGroup (k : Nat) (f : Group → Group) : (onGroup k f s).cur = s.cur := rfl
@[simp] theorem nextPc_onGroup (k : Nat) (f : Group → Group) : (onGroup k f s).nextPc = s.nextPc := rfl
@[simp] theorem issue_onGroup (k : Nat) (f : Group → Group) : (onGroup k f s).issue = s.issue := rfl
@[simp] theorem groups_onGroup (k : Nat) (f : Group → Group) : (onGroup k f s).groups = Maps.modify s.groups k f := rfl
@[simp] theorem teams_onGroup (k : Nat) (f : Group → Group) : (onGroup k f s).teams = s.teams := rfl
@[simp] theorem cores_onGroup (k : Nat) (f : Group → Group) : (onGroup k f s).cores = s.cores := rfl
@[simp] theorem dies_onGroup (k : Nat) (f : Group → Group) : (onGroup k f s).dies = s.dies := rfl
@[simp] theorem mem_onGroup (k : Nat) (f : Group → Group) : (onGroup k f s).mem = s.mem := rfl
@[simp] theorem copies_onGroup (k : Nat) (f : Group → Group) : (onGroup k f s).copies = s.copies := rfl
@[simp] theorem bulks_onGroup (k : Nat) (f : Group → Group) : (onGroup k f s).bulks = s.bulks := rfl
@[simp] theorem xfms_onGroup (k : Nat) (f : Group → Group) : (onGroup k f s).xfms = s.xfms := rfl
@[simp] theorem samples_onGroup (k : Nat) (f : Group → Group) : (onGroup k f s).samples = s.samples := rfl
@[simp] theorem sends_onGroup (k : Nat) (f : Group → Group) : (onGroup k f s).sends = s.sends := rfl
@[simp] theorem saved_onGroup (k : Nat) (f : Group → Group) : (onGroup k f s).saved = s.saved := rfl
@[simp] theorem savedGroups_onGroup (k : Nat) (f : Group → Group) : (onGroup k f s).savedGroups = s.savedGroups := rfl
@[simp] theorem display_onGroup (k : Nat) (f : Group → Group) : (onGroup k f s).display = s.display := rfl
@[simp] theorem io_onGroup (k : Nat) (f : Group → Group) : (onGroup k f s).io = s.io := rfl
@[simp] theorem boot_onGroup (k : Nat) (f : Group → Group) : (onGroup k f s).boot = s.boot := rfl
@[simp] theorem ctl_onGroup (k : Nat) (f : Group → Group) : (onGroup k f s).ctl = s.ctl := rfl
@[simp] theorem inbox_onGroup (k : Nat) (f : Group → Group) : (onGroup k f s).inbox = s.inbox := rfl

@[simp] theorem clock_onTeam (h : Nat) (f : Team → Team) : (onTeam h f s).clock = s.clock := rfl
@[simp] theorem draws_onTeam (h : Nat) (f : Team → Team) : (onTeam h f s).draws = s.draws := rfl
@[simp] theorem cur_onTeam (h : Nat) (f : Team → Team) : (onTeam h f s).cur = s.cur := rfl
@[simp] theorem nextPc_onTeam (h : Nat) (f : Team → Team) : (onTeam h f s).nextPc = s.nextPc := rfl
@[simp] theorem issue_onTeam (h : Nat) (f : Team → Team) : (onTeam h f s).issue = s.issue := rfl
@[simp] theorem groups_onTeam (h : Nat) (f : Team → Team) : (onTeam h f s).groups = s.groups := rfl
@[simp] theorem teams_onTeam (h : Nat) (f : Team → Team) : (onTeam h f s).teams = Maps.modify s.teams h f := rfl
@[simp] theorem cores_onTeam (h : Nat) (f : Team → Team) : (onTeam h f s).cores = s.cores := rfl
@[simp] theorem dies_onTeam (h : Nat) (f : Team → Team) : (onTeam h f s).dies = s.dies := rfl
@[simp] theorem mem_onTeam (h : Nat) (f : Team → Team) : (onTeam h f s).mem = s.mem := rfl
@[simp] theorem copies_onTeam (h : Nat) (f : Team → Team) : (onTeam h f s).copies = s.copies := rfl
@[simp] theorem bulks_onTeam (h : Nat) (f : Team → Team) : (onTeam h f s).bulks = s.bulks := rfl
@[simp] theorem xfms_onTeam (h : Nat) (f : Team → Team) : (onTeam h f s).xfms = s.xfms := rfl
@[simp] theorem samples_onTeam (h : Nat) (f : Team → Team) : (onTeam h f s).samples = s.samples := rfl
@[simp] theorem sends_onTeam (h : Nat) (f : Team → Team) : (onTeam h f s).sends = s.sends := rfl
@[simp] theorem saved_onTeam (h : Nat) (f : Team → Team) : (onTeam h f s).saved = s.saved := rfl
@[simp] theorem savedGroups_onTeam (h : Nat) (f : Team → Team) : (onTeam h f s).savedGroups = s.savedGroups := rfl
@[simp] theorem display_onTeam (h : Nat) (f : Team → Team) : (onTeam h f s).display = s.display := rfl
@[simp] theorem io_onTeam (h : Nat) (f : Team → Team) : (onTeam h f s).io = s.io := rfl
@[simp] theorem boot_onTeam (h : Nat) (f : Team → Team) : (onTeam h f s).boot = s.boot := rfl
@[simp] theorem ctl_onTeam (h : Nat) (f : Team → Team) : (onTeam h f s).ctl = s.ctl := rfl
@[simp] theorem inbox_onTeam (h : Nat) (f : Team → Team) : (onTeam h f s).inbox = s.inbox := rfl

@[simp] theorem clock_onCore (n : Nat) (f : Core → Core) : (onCore n f s).clock = s.clock := rfl
@[simp] theorem draws_onCore (n : Nat) (f : Core → Core) : (onCore n f s).draws = s.draws := rfl
@[simp] theorem cur_onCore (n : Nat) (f : Core → Core) : (onCore n f s).cur = s.cur := rfl
@[simp] theorem nextPc_onCore (n : Nat) (f : Core → Core) : (onCore n f s).nextPc = s.nextPc := rfl
@[simp] theorem issue_onCore (n : Nat) (f : Core → Core) : (onCore n f s).issue = s.issue := rfl
@[simp] theorem groups_onCore (n : Nat) (f : Core → Core) : (onCore n f s).groups = s.groups := rfl
@[simp] theorem teams_onCore (n : Nat) (f : Core → Core) : (onCore n f s).teams = s.teams := rfl
@[simp] theorem cores_onCore (n : Nat) (f : Core → Core) : (onCore n f s).cores = Maps.set s.cores n (f (coreAt s n)) := rfl
@[simp] theorem dies_onCore (n : Nat) (f : Core → Core) : (onCore n f s).dies = s.dies := rfl
@[simp] theorem mem_onCore (n : Nat) (f : Core → Core) : (onCore n f s).mem = s.mem := rfl
@[simp] theorem copies_onCore (n : Nat) (f : Core → Core) : (onCore n f s).copies = s.copies := rfl
@[simp] theorem bulks_onCore (n : Nat) (f : Core → Core) : (onCore n f s).bulks = s.bulks := rfl
@[simp] theorem xfms_onCore (n : Nat) (f : Core → Core) : (onCore n f s).xfms = s.xfms := rfl
@[simp] theorem samples_onCore (n : Nat) (f : Core → Core) : (onCore n f s).samples = s.samples := rfl
@[simp] theorem sends_onCore (n : Nat) (f : Core → Core) : (onCore n f s).sends = s.sends := rfl
@[simp] theorem saved_onCore (n : Nat) (f : Core → Core) : (onCore n f s).saved = s.saved := rfl
@[simp] theorem savedGroups_onCore (n : Nat) (f : Core → Core) : (onCore n f s).savedGroups = s.savedGroups := rfl
@[simp] theorem display_onCore (n : Nat) (f : Core → Core) : (onCore n f s).display = s.display := rfl
@[simp] theorem io_onCore (n : Nat) (f : Core → Core) : (onCore n f s).io = s.io := rfl
@[simp] theorem boot_onCore (n : Nat) (f : Core → Core) : (onCore n f s).boot = s.boot := rfl
@[simp] theorem ctl_onCore (n : Nat) (f : Core → Core) : (onCore n f s).ctl = s.ctl := rfl
@[simp] theorem inbox_onCore (n : Nat) (f : Core → Core) : (onCore n f s).inbox = s.inbox := rfl

@[simp] theorem clock_onDie (d : Nat) (f : Die → Die) : (onDie d f s).clock = s.clock := rfl
@[simp] theorem draws_onDie (d : Nat) (f : Die → Die) : (onDie d f s).draws = s.draws := rfl
@[simp] theorem cur_onDie (d : Nat) (f : Die → Die) : (onDie d f s).cur = s.cur := rfl
@[simp] theorem nextPc_onDie (d : Nat) (f : Die → Die) : (onDie d f s).nextPc = s.nextPc := rfl
@[simp] theorem issue_onDie (d : Nat) (f : Die → Die) : (onDie d f s).issue = s.issue := rfl
@[simp] theorem groups_onDie (d : Nat) (f : Die → Die) : (onDie d f s).groups = s.groups := rfl
@[simp] theorem teams_onDie (d : Nat) (f : Die → Die) : (onDie d f s).teams = s.teams := rfl
@[simp] theorem cores_onDie (d : Nat) (f : Die → Die) : (onDie d f s).cores = s.cores := rfl
@[simp] theorem dies_onDie (d : Nat) (f : Die → Die) : (onDie d f s).dies = Maps.set s.dies d (f (dieAt s d)) := rfl
@[simp] theorem mem_onDie (d : Nat) (f : Die → Die) : (onDie d f s).mem = s.mem := rfl
@[simp] theorem copies_onDie (d : Nat) (f : Die → Die) : (onDie d f s).copies = s.copies := rfl
@[simp] theorem bulks_onDie (d : Nat) (f : Die → Die) : (onDie d f s).bulks = s.bulks := rfl
@[simp] theorem xfms_onDie (d : Nat) (f : Die → Die) : (onDie d f s).xfms = s.xfms := rfl
@[simp] theorem samples_onDie (d : Nat) (f : Die → Die) : (onDie d f s).samples = s.samples := rfl
@[simp] theorem sends_onDie (d : Nat) (f : Die → Die) : (onDie d f s).sends = s.sends := rfl
@[simp] theorem saved_onDie (d : Nat) (f : Die → Die) : (onDie d f s).saved = s.saved := rfl
@[simp] theorem savedGroups_onDie (d : Nat) (f : Die → Die) : (onDie d f s).savedGroups = s.savedGroups := rfl
@[simp] theorem display_onDie (d : Nat) (f : Die → Die) : (onDie d f s).display = s.display := rfl
@[simp] theorem io_onDie (d : Nat) (f : Die → Die) : (onDie d f s).io = s.io := rfl
@[simp] theorem boot_onDie (d : Nat) (f : Die → Die) : (onDie d f s).boot = s.boot := rfl
@[simp] theorem ctl_onDie (d : Nat) (f : Die → Die) : (onDie d f s).ctl = s.ctl := rfl
@[simp] theorem inbox_onDie (d : Nat) (f : Die → Die) : (onDie d f s).inbox = s.inbox := rfl

@[simp] theorem clock_onMem (f : Mem → Mem) : (onMem f s).clock = s.clock := rfl
@[simp] theorem draws_onMem (f : Mem → Mem) : (onMem f s).draws = s.draws := rfl
@[simp] theorem cur_onMem (f : Mem → Mem) : (onMem f s).cur = s.cur := rfl
@[simp] theorem nextPc_onMem (f : Mem → Mem) : (onMem f s).nextPc = s.nextPc := rfl
@[simp] theorem issue_onMem (f : Mem → Mem) : (onMem f s).issue = s.issue := rfl
@[simp] theorem groups_onMem (f : Mem → Mem) : (onMem f s).groups = s.groups := rfl
@[simp] theorem teams_onMem (f : Mem → Mem) : (onMem f s).teams = s.teams := rfl
@[simp] theorem cores_onMem (f : Mem → Mem) : (onMem f s).cores = s.cores := rfl
@[simp] theorem dies_onMem (f : Mem → Mem) : (onMem f s).dies = s.dies := rfl
@[simp] theorem mem_onMem (f : Mem → Mem) : (onMem f s).mem = f s.mem := rfl
@[simp] theorem copies_onMem (f : Mem → Mem) : (onMem f s).copies = s.copies := rfl
@[simp] theorem bulks_onMem (f : Mem → Mem) : (onMem f s).bulks = s.bulks := rfl
@[simp] theorem xfms_onMem (f : Mem → Mem) : (onMem f s).xfms = s.xfms := rfl
@[simp] theorem samples_onMem (f : Mem → Mem) : (onMem f s).samples = s.samples := rfl
@[simp] theorem sends_onMem (f : Mem → Mem) : (onMem f s).sends = s.sends := rfl
@[simp] theorem saved_onMem (f : Mem → Mem) : (onMem f s).saved = s.saved := rfl
@[simp] theorem savedGroups_onMem (f : Mem → Mem) : (onMem f s).savedGroups = s.savedGroups := rfl
@[simp] theorem display_onMem (f : Mem → Mem) : (onMem f s).display = s.display := rfl
@[simp] theorem io_onMem (f : Mem → Mem) : (onMem f s).io = s.io := rfl
@[simp] theorem boot_onMem (f : Mem → Mem) : (onMem f s).boot = s.boot := rfl
@[simp] theorem ctl_onMem (f : Mem → Mem) : (onMem f s).ctl = s.ctl := rfl
@[simp] theorem inbox_onMem (f : Mem → Mem) : (onMem f s).inbox = s.inbox := rfl

@[simp] theorem clock_onCur (f : Group → Group) : (onCur f s).clock = s.clock := rfl
@[simp] theorem draws_onCur (f : Group → Group) : (onCur f s).draws = s.draws := rfl
@[simp] theorem cur_onCur (f : Group → Group) : (onCur f s).cur = s.cur := rfl
@[simp] theorem nextPc_onCur (f : Group → Group) : (onCur f s).nextPc = s.nextPc := rfl
@[simp] theorem issue_onCur (f : Group → Group) : (onCur f s).issue = s.issue := rfl
@[simp] theorem groups_onCur (f : Group → Group) : (onCur f s).groups = Maps.modify s.groups s.cur f := rfl
@[simp] theorem teams_onCur (f : Group → Group) : (onCur f s).teams = s.teams := rfl
@[simp] theorem cores_onCur (f : Group → Group) : (onCur f s).cores = s.cores := rfl
@[simp] theorem dies_onCur (f : Group → Group) : (onCur f s).dies = s.dies := rfl
@[simp] theorem mem_onCur (f : Group → Group) : (onCur f s).mem = s.mem := rfl
@[simp] theorem copies_onCur (f : Group → Group) : (onCur f s).copies = s.copies := rfl
@[simp] theorem bulks_onCur (f : Group → Group) : (onCur f s).bulks = s.bulks := rfl
@[simp] theorem xfms_onCur (f : Group → Group) : (onCur f s).xfms = s.xfms := rfl
@[simp] theorem samples_onCur (f : Group → Group) : (onCur f s).samples = s.samples := rfl
@[simp] theorem sends_onCur (f : Group → Group) : (onCur f s).sends = s.sends := rfl
@[simp] theorem saved_onCur (f : Group → Group) : (onCur f s).saved = s.saved := rfl
@[simp] theorem savedGroups_onCur (f : Group → Group) : (onCur f s).savedGroups = s.savedGroups := rfl
@[simp] theorem display_onCur (f : Group → Group) : (onCur f s).display = s.display := rfl
@[simp] theorem io_onCur (f : Group → Group) : (onCur f s).io = s.io := rfl
@[simp] theorem boot_onCur (f : Group → Group) : (onCur f s).boot = s.boot := rfl
@[simp] theorem ctl_onCur (f : Group → Group) : (onCur f s).ctl = s.ctl := rfl
@[simp] theorem inbox_onCur (f : Group → Group) : (onCur f s).inbox = s.inbox := rfl

theorem onCur_eq (f : Group → Group) : onCur f s = onGroup s.cur f s := rfl

@[simp] theorem dieAt_onDie (d : Nat) (f : Die → Die) (e : Nat) :
    dieAt (onDie d f s) e = if d = e then f (dieAt s d) else dieAt s e := by
  show Maps.get {} (Maps.set s.dies d _) e = _
  rw [Maps.get_set]; rfl

@[simp] theorem coreAt_onCore (n : Nat) (f : Core → Core) (e : Nat) :
    coreAt (onCore n f s) e = if n = e then f (coreAt s n) else coreAt s e := by
  show Maps.get {} (Maps.set s.cores n _) e = _
  rw [Maps.get_set]; rfl

@[simp] theorem find_onGroup (k : Nat) (f : Group → Group) (j : Nat) :
    Maps.find (onGroup k f s).groups j = if k = j then (Maps.find s.groups j).map f else Maps.find s.groups j := by
  simp

/-- Changes of one group in turn are one change. -/
theorem onGroup_onGroup (k : Nat) (f f' : Group → Group) :
    onGroup k f' (onGroup k f s) = onGroup k (fun g => f' (f g)) s := by
  simp [onGroup, Maps.modify_modify]

/-- A change of a listed group writes the changed group. -/
theorem onGroup_of_find {k : Nat} {g : Group} (h : Maps.find s.groups k = some g) (f : Group → Group) :
    onGroup k f s = onGroup k (fun _ => f g) s := by
  unfold onGroup; rw [Maps.modify_of_find h]

theorem groupOf_of_find {k : Nat} {g : Group} (h : Maps.find s.groups k = some g) : groupOf s k = g := by
  simp [groupOf, Maps.get, h]

end Sys2Proof.Machine
end

