-- ==== Sys2Proof/Laws/Regs.lean ====
section
/-! SUPPORT. What a read of a group's registers gives after each write, and that a write of one kind of register leaves
the others. -/

namespace Sys2Proof.Machine.Group

variable (g : Group)

@[simp] theorem s_setS (n : Nat) (x : Word) (m : Nat) : (g.setS n x).s m = if n = m then x else g.s m := by
  simp [s, setS]
@[simp] theorem v_setS (n : Nat) (x : Word) : (g.setS n x).v = g.v := rfl
@[simp] theorem p_setS (n : Nat) (x : Word) : (g.setS n x).p = g.p := rfl
@[simp] theorem active_setS (n : Nat) (x : Word) : (g.setS n x).active = g.active := rfl
@[simp] theorem pc_setS (n : Nat) (x : Word) : (g.setS n x).pc = g.pc := rfl
@[simp] theorem ix_setS (n : Nat) (x : Word) : (g.setS n x).ix = g.ix := rfl

theorem s_setS64 (n : Nat) (x : Dword) (m : Nat) :
    (g.setS64 n x).s m = if n + 1 = m then hiW x else if n = m then loW x else g.s m := by
  simp [setS64]

/-- A read of a lane after a write of a lane; lanes are below 32. -/
theorem v_setLane (r l : Nat) (x : Word) {r' l' : Nat} (h : l < 32) (h' : l' < 32) :
    (g.setLane r l x).v r' l' = if r = r' ∧ l = l' then x else g.v r' l' := by
  simp only [v, setLane, Maps.get_put]
  by_cases e : r = r' ∧ l = l'
  · obtain ⟨rfl, rfl⟩ := e; simp
  · rw [if_neg e, if_neg (by omega)]

@[simp] theorem s_setLane (r l : Nat) (x : Word) : (g.setLane r l x).s = g.s := rfl
@[simp] theorem p_setLane (r l : Nat) (x : Word) : (g.setLane r l x).p = g.p := rfl

/-- A write of listed lanes touches nothing but the vector registers. -/
theorem setLanes_eq (r : Nat) (f : Nat → Word) (ls : List Nat) :
    ∃ m, g.setLanes r f ls = { g with vregs := m } := by
  induction ls generalizing g with
  | nil => exact ⟨g.vregs, rfl⟩
  | cons l ls ih => obtain ⟨m, h⟩ := ih (g.setLane r l (f l)); exact ⟨m, h⟩

theorem v_setLanes (r : Nat) (f : Nat → Word) {ls : List Nat} (h : ∀ l ∈ ls, l < 32) {r' l' : Nat} (h' : l' < 32) :
    (g.setLanes r f ls).v r' l' = if r = r' ∧ l' ∈ ls then f l' else g.v r' l' := by
  induction ls generalizing g with
  | nil => simp [setLanes]
  | cons l ls ih =>
    rw [setLanes, ih _ (fun x hx => h x (List.mem_cons_of_mem _ hx)), v_setLane _ _ _ _ (h l (by simp)) h']
    by_cases hr : r = r'
    · by_cases hl : l = l'
      · subst hl; simp [hr]
      · have : ¬ l' = l := fun e => hl e.symm
        simp [hr, hl, this]
    · simp [hr]

end Sys2Proof.Machine.Group

namespace Sys2Proof

theorem mem_setBits {n v i : Nat} : i ∈ setBits n v ↔ i < n ∧ bitN v i = true := by
  simp [setBits]

theorem bitN_eq_testBit (v i : Nat) : bitN v i = v.testBit i := by
  rw [bitN, Nat.testBit_eq_decide_div_mod_eq]; rfl

/-- The lanes of a mask are its set bits. -/
theorem mem_lanesOf {m : Word} {l : Nat} : l ∈ lanesOf m ↔ l < 32 ∧ m.getLsbD l = true := by
  rw [lanesOf, mem_setBits, bitN_eq_testBit]; rfl

theorem lanesOf_lt {m : Word} {l : Nat} (h : l ∈ lanesOf m) : l < 32 := (mem_lanesOf.mp h).1

end Sys2Proof

namespace Sys2Proof.Machine.Group

variable (g : Group)

theorem setV_eq (r : Nat) (m : Word) (f : Nat → Word) : ∃ x, g.setV r m f = { g with vregs := x } := setLanes_eq g r f _

/-- A vector register written in the lanes of a mask (R339): those lanes read the new value, everything else the old. -/
theorem v_setV (r : Nat) (m : Word) (f : Nat → Word) {r' l' : Nat} (h' : l' < 32) :
    (g.setV r m f).v r' l' = if r = r' ∧ m.getLsbD l' = true then f l' else g.v r' l' := by
  rw [setV, v_setLanes _ _ _ (fun _ h => lanesOf_lt h) h']
  simp [mem_lanesOf, h']

@[simp] theorem s_setV (r : Nat) (m : Word) (f : Nat → Word) : (g.setV r m f).s = g.s := by
  obtain ⟨x, h⟩ := g.setV_eq r m f; rw [h]; rfl
@[simp] theorem p_setV (r : Nat) (m : Word) (f : Nat → Word) : (g.setV r m f).p = g.p := by
  obtain ⟨x, h⟩ := g.setV_eq r m f; rw [h]; rfl
@[simp] theorem pc_setV (r : Nat) (m : Word) (f : Nat → Word) : (g.setV r m f).pc = g.pc := by
  obtain ⟨x, h⟩ := g.setV_eq r m f; rw [h]
@[simp] theorem active_setV (r : Nat) (m : Word) (f : Nat → Word) : (g.setV r m f).active = g.active := by
  obtain ⟨x, h⟩ := g.setV_eq r m f; rw [h]
@[simp] theorem ix_setV (r : Nat) (m : Word) (f : Nat → Word) : (g.setV r m f).ix = g.ix := by
  obtain ⟨x, h⟩ := g.setV_eq r m f; rw [h]

theorem v_setV64 (r : Nat) (m : Word) (f : Nat → Dword) {r' l' : Nat} (h' : l' < 32) :
    (g.setV64 r m f).v r' l' =
      if r + 1 = r' ∧ m.getLsbD l' = true then hiW (f l') else if r = r' ∧ m.getLsbD l' = true then loW (f l') else g.v r' l' := by
  rw [setV64, v_setV _ _ _ _ h', v_setV _ _ _ _ h']

/-- A predicate written in the lanes of a mask; 7 discards and reads 1 (R317, R320). -/
theorem p_setP (n : Nat) (m x : Word) (k : Nat) :
    (g.setP n m x).p k = if n = k ∧ n ≠ 7 then (g.p n &&& ~~~m) ||| (x &&& m) else g.p k := by
  by_cases h7 : n = 7
  · simp [setP, h7]
  · by_cases hk : k = 7
    · have : n ≠ k := by omega
      simp [p, hk, h7]
    · simp only [setP, p, h7, hk, if_false, Maps.get_put]
      by_cases e : n = k <;> simp [e, h7, hk]

@[simp] theorem v_setP (n : Nat) (m x : Word) : (g.setP n m x).v = g.v := by unfold setP; split <;> rfl
@[simp] theorem s_setP (n : Nat) (m x : Word) : (g.setP n m x).s = g.s := by unfold setP; split <;> rfl

@[simp] theorem window_setWindow (n : Nat) (w : Window) (k : Nat) :
    (g.setWindow n w).window k = if n = k then w else g.window k := by
  unfold window setWindow; exact Maps.get_put _ _ _ _ _

end Sys2Proof.Machine.Group
end

