-- ==== Sys2Proof/Laws/Issue.lean ====
section
/-! SUPPORT. What the one operation that runs a word can answer, alone in its chain: held by the scoreboard, not ready,
failed, waiting, or committed. -/

namespace Sys2Proof.Machine

variable {sem : Group → State → WordOut} {s : State} {g : Group}

/-- Every outcome of a word that is a chain of its own. -/
theorem issue_alone (hg : Maps.find s.groups s.cur = some g) (hi : s.issue = .alone) :
    issue sem s = .next (
      let w := sem g s
      let u := unwant s
      if hazard g w then holdIssue u
      else if w.stall then holdIssue (w.onStall u)
      else if !(w.raises.isEmpty && w.parks.isEmpty) then failChain w.raises w.parks w.addrs (w.onFault u)
      else if w.await then awaitWord w.starts (w.onAwait (acquireUses w u))
      else takeNexts w.nexts (w.last (commitWord w (advance u)))) := by
  simp only [issue, hg, hi]
  split <;> try rfl
  split <;> try rfl
  split <;> try rfl
  split <;> rfl

/-- A word that nothing holds, stops or delays commits. -/
theorem issue_commits {w : WordOut} (hg : Maps.find s.groups s.cur = some g) (hi : s.issue = .alone) (hw : sem g s = w)
    (hz : hazard g w = false) (hs : w.stall = false) (hr : w.raises = []) (hp : w.parks = []) (ha : w.await = false) :
    issue sem s = .next (takeNexts w.nexts (w.last (commitWord w (advance (unwant s))))) := by
  subst hw
  rw [issue_alone hg hi]
  simp [hz, hs, hr, hp, ha]

/-- A ready word that raises or parks fails its chain, and does nothing else but what stands of it. -/
theorem issue_fails {w : WordOut} (hg : Maps.find s.groups s.cur = some g) (hi : s.issue = .alone) (hw : sem g s = w)
    (hz : hazard g w = false) (hs : w.stall = false) (hr : w.raises ≠ [] ∨ w.parks ≠ []) :
    issue sem s = .next (failChain w.raises w.parks w.addrs (w.onFault (unwant s))) := by
  subst hw
  have hne : ((sem g s).raises.isEmpty && (sem g s).parks.isEmpty) = false := by
    rcases hr with h | h <;> simp [h]
  rw [issue_alone hg hi]
  simp [hz, hs, hne]

/-- The group as it goes on: at the next chain, wanting no token. -/
theorem advance_unwant (hg : Maps.find s.groups s.cur = some g) :
    advance (unwant s) = onGroup s.cur (fun _ => { g with pc := s.nextPc, wants := false }) s := by
  unfold advance unwant
  rw [onCur_eq, onCur_eq]
  show onGroup s.cur _ (onGroup s.cur _ s) = _
  rw [onGroup_onGroup, onGroup_of_find s hg]
  rfl

/-- No register that the word reads holds a release not yet acquired: the acquire changes nothing. -/
theorem acquireUses_none {w : WordOut} (hg : Maps.find s.groups s.cur = some g) (h : ∀ a ∈ g.acquire, RegId.vec a.1 ∉ w.uses) :
    acquireUses w s = s := by
  have : (g.acquire.filter fun a => w.uses.contains (.vec a.1)) = [] := by
    rw [List.filter_eq_nil_iff]; intro a ha; simpa using h a ha
  unfold acquireUses
  rw [groupOf_of_find _ hg]
  simp only [this, List.isEmpty_nil, if_true]

theorem acquireUses_advance {w : WordOut} (hg : Maps.find s.groups s.cur = some g) (h : ∀ a ∈ g.acquire, RegId.vec a.1 ∉ w.uses) :
    acquireUses w (advance (unwant s)) = advance (unwant s) := by
  refine acquireUses_none (g := { g with pc := s.nextPc, wants := false }) ?_ h
  rw [advance_unwant hg]
  show Maps.find (Maps.modify s.groups s.cur _) s.cur = _
  simp [hg]

end Sys2Proof.Machine
end

