-- ==== Sys2Proof/Laws/Words.lean ====
section
/-! SUPPORT. One lemma per shape of word: ready and with its operands in bounds, it commits, and what it leaves. -/

namespace Sys2Proof.Machine

open Sys2Proof.Claims

variable {s : State} {g : Group} {rs : List RegId}

theorem onCur_advance (h : Ready s g rs) (f : Group → Group) :
    onCur f (advance (unwant s)) =
      { s with groups := Maps.modify s.groups s.cur fun _ => f { g with pc := s.nextPc, wants := false } } := by
  rw [advance_unwant h.here]
  show onGroup s.cur f (onGroup s.cur _ s) = _
  rw [onGroup_onGroup]; rfl

/-- A ready word with nothing to hold, stop or follow it does its effect and no more. -/
theorem issue_effect {sem : Group → State → WordOut} (h : Ready s g rs) (hu : ∀ r ∈ (sem g s).uses ++ (sem g s).dests, r ∈ rs)
    (hs : (sem g s).stall = false) (hr : (sem g s).raises = []) (hp : (sem g s).parks = []) (ha : (sem g s).await = false)
    (hn : (sem g s).nexts = []) (hc : (sem g s).ctl = none) (hl : (sem g s).last = id) :
    issue sem s = .next ((sem g s).effect (advance (unwant s))) := by
  have hz : hazard g (sem g s) = false := by
    unfold hazard; rw [List.any_eq_false]; intro r hr'; simpa using h.free r (hu r hr')
  rw [issue_commits h.here h.alone rfl hz hs hr hp ha, hn, hl]
  have hf : ∀ a ∈ g.acquire, RegId.vec a.1 ∉ (sem g s).uses := fun a haq hin =>
    h.fresh a haq (hu _ (List.mem_append_left _ hin))
  have hctl : commitWord (sem g s) (advance (unwant s)) = (sem g s).effect (advance (unwant s)) := by
    unfold commitWord; rw [acquireUses_advance h.here hf, hc]
  rw [hctl]
  simp [takeNexts, lowest]

/-- The group's own part of a write goes on with the pc. -/
theorem setV_goes (r : Nat) (m : Word) (f : Nat → Word) (pc : Dword) (w : Bool) :
    ({ g with pc := pc, wants := w } : Group).setV r m f = { g.setV r m f with pc := pc, wants := w } := by
  unfold Group.setV
  generalize lanesOf m = ls
  induction ls generalizing g with
  | nil => rfl
  | cons l ls ih =>
    simp only [Group.setLanes]
    exact ih (g := g.setLane r l (f l))

theorem setP_goes (n : Nat) (m x : Word) (pc : Dword) (w : Bool) :
    ({ g with pc := pc, wants := w } : Group).setP n m x = { g.setP n m x with pc := pc, wants := w } := by
  unfold Group.setP; split <;> rfl

/-- In bounds and aligned, a range raises nothing (R318). -/
theorem vrRaises_nil {r : VR} (ha : r.first % r.align = 0) (hb : r.first + r.count ≤ allot s) : vrRaises s g r = [] := by
  simp [vrRaises, ha, hb]

/-- The registers of a word in the terms of its rule. -/
theorem regWord_raises (x : Bool) (dst src : List Operand) (ss sd sp dp : List Nat)
    (hf : ∀ r ∈ dst ++ src, ea x r.1 g % r.2.2 = 0 ∧ ea x r.1 g + r.2.1 ≤ allot s) :
    (regWord s g x (dst.map fun r => vr x r.1 g r.2.1 r.2.2) (src.map fun r => vr x r.1 g r.2.1 r.2.2) ss sd sp dp).raises = [] := by
  simp only [regWord, ← List.map_append, List.flatMap_eq_nil_iff, List.mem_map]
  rintro v ⟨r, hr, rfl⟩
  exact vrRaises_nil (hf r hr).1 (hf r hr).2

/-- A word whose checks are those of its vector operands and whose registers are those its rule names commits its effect. -/
theorem issue_checked {sem : Group → State → WordOut} {w : WordRule} {e : State → State} (h : Ready s g (w.regs g))
    (hf : w.fits s g) {ss sd sp dp : List Nat}
    (hw : sem g s = { regWord s g w.x (w.dst.map fun r => vr w.x r.1 g r.2.1 r.2.2) (w.src.map fun r => vr w.x r.1 g r.2.1 r.2.2) ss sd sp dp with
      effect := e })
    (hs : ∀ n ∈ ss ++ sd, n ∈ w.ss) (hp : ∀ n ∈ (sp ++ dp).filter (· != 7), RegId.pred n ∈ (w.ps.filter (· ≠ 7)).map (fun p => .pred p.toNat)) :
    issue sem s = .next (e (advance (unwant s))) := by
  have key : issue sem s = .next ((sem g s).effect (advance (unwant s))) := by
    refine issue_effect h ?_ ?_ ?_ ?_ ?_ ?_ ?_ ?_ <;> rw [hw]
    · intro r hr
      simp only [regWord, List.mem_append, List.mem_flatMap, List.mem_map, vrRegs, vr, WordRule.regs] at hr ⊢
      rcases hr with (((⟨v, ⟨o, ho, rfl⟩, hm⟩ | ⟨n, hn, rfl⟩) | ⟨n, hn, rfl⟩) | hx) | ((⟨v, ⟨o, ho, rfl⟩, hm⟩ | ⟨n, hn, rfl⟩) | ⟨n, hn, rfl⟩)
      · exact .inl (.inl (.inl ⟨o, .inr ho, by simpa using hm⟩))
      · exact .inl (.inl (.inr ⟨n, hs n (by simp [hn]), rfl⟩))
      · have := hp n (by simp at hn ⊢; exact .inl hn)
        simp only [List.mem_map] at this
        exact .inl (.inr this)
      · refine .inr ?_
        cases hx' : w.x <;> simp_all
      · exact .inl (.inl (.inl ⟨o, .inl ho, by simpa using hm⟩))
      · exact .inl (.inl (.inr ⟨n, hs n (by simp [hn]), rfl⟩))
      · have := hp n (by simp at hn ⊢; exact .inr hn)
        simp only [List.mem_map] at this
        exact .inl (.inr this)
    · rfl
    · exact regWord_raises w.x w.dst w.src ss sd sp dp hf
    · rfl
    · rfl
    · rfl
    · rfl
    · rfl
  rw [key, hw]

/-- The same of an effect on the group alone. -/
theorem issue_rule {sem : Group → State → WordOut} {w : WordRule} {f : Group → Group} (h : Ready s g (w.regs g)) (hf : w.fits s g)
    {ss sd sp dp : List Nat}
    (hw : sem g s = { regWord s g w.x (w.dst.map fun r => vr w.x r.1 g r.2.1 r.2.2) (w.src.map fun r => vr w.x r.1 g r.2.1 r.2.2) ss sd sp dp with
      effect := onCur f })
    (hs : ∀ n ∈ ss ++ sd, n ∈ w.ss) (hp : ∀ n ∈ (sp ++ dp).filter (· != 7), RegId.pred n ∈ (w.ps.filter (· ≠ 7)).map (fun p => .pred p.toNat))
    (ho : ∀ pc b, f { g with pc := pc, wants := b } = { w.out g with pc := pc, wants := b }) :
    issue sem s = .next (onward s (w.out g)) := by
  rw [issue_checked h hf hw hs hp, onCur_advance h, ho]; rfl

/-- A register written in the active lanes with the events of its results. -/
theorem writeLanesEv_advance (h : Ready s g rs) (d : Nat) (r : Nat → Nat × Num.Ev) :
    writeLanesEv g d r (advance (unwant s)) =
      charge g.tag (eventsOf g r) (onward s (g.setV d g.active fun l => BitVec.ofNat 32 (r l).1)) := by
  unfold writeLanesEv writeLanes
  rw [onCur_advance h, setV_goes]; rfl

/-- A predicate other than p7 is one that its word names. -/
theorem pred_named {p : BitVec 3} {ps : List (BitVec 3)} (h : p ∈ ps) :
    ∀ n ∈ [p.toNat].filter (· != 7), RegId.pred n ∈ (ps.filter (· ≠ 7)).map (fun q => .pred q.toNat) := by
  intro n hn
  have hn' : n = p.toNat ∧ n ≠ 7 := by simpa using hn
  obtain ⟨rfl, h7⟩ := hn'
  refine List.mem_map.mpr ⟨p, ?_, rfl⟩
  rw [List.mem_filter]
  exact ⟨h, decide_eq_true fun e => h7 (by rw [e]; rfl)⟩

/-- vD := f(vA). -/
theorem lane1_completes {x : Bool} {d a : BitVec 7} {f : Word → Word} (h : Ready s g ((fromA x d a f).regs g))
    (hf : (fromA x d a f).fits s g) : issue (lane1 x d a f) s = .next (onward s ((fromA x d a f).out g)) :=
  issue_rule (w := fromA x d a f) (ss := []) (sd := []) (sp := []) (dp := []) h hf rfl (by simp) (by simp) fun _ _ => setV_goes ..

/-- vD := f(vA, vB). -/
theorem lane2_completes {x : Bool} {d a b : BitVec 7} {f : Word → Word → Word} (h : Ready s g ((fromAB x d a b f).regs g))
    (hf : (fromAB x d a b f).fits s g) : issue (lane2 x d a b f) s = .next (onward s ((fromAB x d a b f).out g)) :=
  issue_rule (w := fromAB x d a b f) (ss := []) (sd := []) (sp := []) (dp := []) h hf rfl (by simp) (by simp) fun _ _ => setV_goes ..

/-- vD := f(vA, sB). -/
theorem laneS_completes {x : Bool} {d a : BitVec 7} {b : BitVec 6} {f : Word → Word → Word} (h : Ready s g ((fromAS x d a b f).regs g))
    (hf : (fromAS x d a b f).fits s g) : issue (laneS x d a b f) s = .next (onward s ((fromAS x d a b f).out g)) :=
  issue_rule (w := fromAS x d a b f) (ss := [b.toNat]) (sd := []) (sp := []) (dp := []) h hf rfl (by simp [fromAS]) (by simp)
    fun _ _ => setV_goes ..

/-- The registers and bounds of vD are those of its rule's destination, which the three-operand words also read. -/
theorem regs_more (w : WordRule) (src : List Operand) (hsub : ∀ r ∈ src, r ∈ w.dst ++ w.src) :
    ∀ r, r ∈ ({ w with src := w.src ++ src } : WordRule).regs g → r ∈ w.regs g := by
  intro r hr
  simp only [WordRule.regs, List.mem_append, List.mem_flatMap] at hr ⊢
  rcases hr with ((⟨o, ho, hm⟩ | h) | h) | h
  · refine .inl (.inl (.inl ⟨o, ?_, hm⟩))
    rcases ho with h | h | h
    · exact .inl h
    · exact .inr h
    · simpa using hsub o h
  · exact .inl (.inl (.inr h))
  · exact .inl (.inr h)
  · exact .inr h

theorem ready_mono {rs' : List RegId} (h : Ready s g rs) (hs : ∀ r ∈ rs', r ∈ rs) : Ready s g rs' :=
  ⟨h.here, h.alone, fun r hr => h.free r (hs r hr), fun a ha hr => h.fresh a ha (hs _ hr)⟩

theorem fits_more {w : WordRule} (src : List Operand) (hsub : ∀ r ∈ src, r ∈ w.dst ++ w.src) (hf : w.fits s g) :
    ({ w with src := w.src ++ src } : WordRule).fits s g := by
  intro r hr
  refine hf r ?_
  simp only [List.mem_append] at hr ⊢
  rcases hr with h | h | h
  · exact .inl h
  · exact .inr h
  · simpa using hsub r h

/-- vD := f(vA, vB, vD). -/
theorem lane3_completes {x : Bool} {d a b : BitVec 7} {f : Word → Word → Word → Word} (h : Ready s g ((fromABD x d a b f).regs g))
    (hf : (fromABD x d a b f).fits s g) : issue (lane3 x d a b f) s = .next (onward s ((fromABD x d a b f).out g)) :=
  issue_rule (w := { fromABD x d a b f with src := (fromABD x d a b f).src ++ [one d] }) (ss := []) (sd := []) (sp := []) (dp := [])
    (ready_mono h (regs_more _ _ (by simp [fromABD]))) (fits_more _ (by simp [fromABD]) hf) rfl (by simp) (by simp) fun _ _ => setV_goes ..

/-- pN := relation of vA and vB. -/
theorem laneP_completes {x : Bool} {p : BitVec 3} {a b : BitVec 7} {f : Word → Word → Bool} (h : Ready s g ((relAB x p a b f).regs g))
    (hf : (relAB x p a b f).fits s g) : issue (laneP x p a b f) s = .next (onward s ((relAB x p a b f).out g)) :=
  issue_rule (w := relAB x p a b f) (ss := []) (sd := []) (sp := []) (dp := [p.toNat]) h hf rfl (by simp)
    (pred_named (by simp [relAB])) fun _ _ => setP_goes ..

/-- vD := f(vA), vD := f(vA, vB), vD := f(vA, vB, vD), vD := f(vA, sB), vD := f(vA, sB, vD) with events. -/
theorem laneEv1_completes {x : Bool} {d a : BitVec 7} {f : Group → Nat → Nat × Num.Ev}
    (h : Ready s g ((f32A x d a f).regs g)) (hf : (f32A x d a f).fits s g) :
    issue (fun g => laneEv1 x d a (f g) g) s = .next (charge g.tag ((f32A x d a f).ev g) (onward s ((f32A x d a f).out g))) := by
  rw [issue_checked (w := f32A x d a f) (ss := []) (sd := []) (sp := []) (dp := []) h hf rfl (by simp) (by simp)]
  exact congrArg _ (writeLanesEv_advance h _ _)

theorem laneEv2_completes {x : Bool} {d a b : BitVec 7} {f : Group → Nat → Nat → Nat × Num.Ev}
    (h : Ready s g ((f32AB x d a b f).regs g)) (hf : (f32AB x d a b f).fits s g) :
    issue (fun g => laneEv2 x d a b (f g) g) s = .next (charge g.tag ((f32AB x d a b f).ev g) (onward s ((f32AB x d a b f).out g))) := by
  rw [issue_checked (w := f32AB x d a b f) (ss := []) (sd := []) (sp := []) (dp := []) h hf rfl (by simp) (by simp)]
  exact congrArg _ (writeLanesEv_advance h _ _)

theorem laneEvS_completes {x : Bool} {d a : BitVec 7} {b : BitVec 6} {f : Group → Nat → Nat → Nat × Num.Ev}
    (h : Ready s g ((f32AS x d a b f).regs g)) (hf : (f32AS x d a b f).fits s g) :
    issue (fun g => laneEvS x d a b (f g) g) s = .next (charge g.tag ((f32AS x d a b f).ev g) (onward s ((f32AS x d a b f).out g))) := by
  rw [issue_checked (w := f32AS x d a b f) (ss := [b.toNat]) (sd := []) (sp := []) (dp := []) h hf rfl (by simp [f32AS, floatLanes]) (by simp)]
  exact congrArg _ (writeLanesEv_advance h _ _)

theorem laneEv3_completes {x : Bool} {d a b : BitVec 7} {f : Group → Nat → Nat → Nat → Nat × Num.Ev}
    (h : Ready s g ((f32ABD x d a b f).regs g)) (hf : (f32ABD x d a b f).fits s g) :
    issue (fun g => laneEv3 x d a b (f g) g) s = .next (charge g.tag ((f32ABD x d a b f).ev g) (onward s ((f32ABD x d a b f).out g))) := by
  rw [issue_checked (w := { f32ABD x d a b f with src := (f32ABD x d a b f).src ++ [one d] }) (ss := []) (sd := []) (sp := []) (dp := [])
    (ready_mono h (regs_more _ _ (by simp [f32ABD, floatLanes]))) (fits_more _ (by simp [f32ABD, floatLanes]) hf) rfl (by simp) (by simp)]
  exact congrArg _ (writeLanesEv_advance h _ _)

theorem laneEvS3_completes {x : Bool} {d a : BitVec 7} {b : BitVec 6} {f : Group → Nat → Nat → Nat → Nat × Num.Ev}
    (h : Ready s g ((f32ASD x d a b f).regs g)) (hf : (f32ASD x d a b f).fits s g) :
    issue (fun g => laneEvS3 x d a b (f g) g) s = .next (charge g.tag ((f32ASD x d a b f).ev g) (onward s ((f32ASD x d a b f).out g))) := by
  rw [issue_checked (w := { f32ASD x d a b f with src := (f32ASD x d a b f).src ++ [one d] }) (ss := [b.toNat]) (sd := []) (sp := []) (dp := [])
    (ready_mono h (regs_more _ _ (by simp [f32ASD, floatLanes]))) (fits_more _ (by simp [f32ASD, floatLanes]) hf) rfl (by simp [f32ASD, floatLanes]) (by simp)]
  exact congrArg _ (writeLanesEv_advance h _ _)

/-- A uniform word over scalars. -/
theorem scalarWord_completes {sem : Group → State → WordOut} {ss sd : List Nat} {f : Group → Group} {w : WordRule} (h : Ready s g (w.regs g))
    (hw : sem g s = scalarWord ss sd f) (hs : ∀ n ∈ ss ++ sd, n ∈ w.ss)
    (ho : ∀ pc b, f { g with pc := pc, wants := b } = { w.out g with pc := pc, wants := b }) :
    issue sem s = .next (onward s (w.out g)) := by
  rw [issue_effect h (by
    intro r hr
    rw [hw] at hr
    simp only [scalarWord, List.mem_append, List.mem_map, WordRule.regs] at hr ⊢
    rcases hr with ⟨n, hn, rfl⟩ | ⟨n, hn, rfl⟩ <;> exact .inl (.inl (.inr ⟨n, hs n (by simp [hn]), rfl⟩)))
    (by rw [hw]; rfl) (by rw [hw]; rfl) (by rw [hw]; rfl) (by rw [hw]; rfl) (by rw [hw]; rfl) (by rw [hw]; rfl) (by rw [hw]; rfl), hw]
  show Host.Outcome.next (onCur f (advance (unwant s))) = _
  rw [onCur_advance h, ho]; rfl

end Sys2Proof.Machine
end

