-- ==== Sys2Proof/Laws/Cases.lean ====
section
/-! SUPPORT. What a ready word answers: committed where nothing stalls, raises or parks, else a trap at its own chain. -/

namespace Sys2Proof.Machine

open Sys2Proof.Claims

variable {s : State} {g : Group} {rs : List RegId} {sem : Group → State → WordOut}

theorem issued_eq (s : State) : advance (unwant s) = issued s := by
  unfold advance unwant issued
  rw [onCur_eq, onCur_eq, onCur_eq]
  show onGroup s.cur _ (onGroup s.cur _ s) = _
  rw [onGroup_onGroup]; rfl

theorem issued_find (h : Ready s g rs) :
    Maps.find (issued s).groups s.cur = some { g with pc := s.nextPc, wants := false } := by
  show Maps.find (Maps.modify s.groups s.cur _) s.cur = _
  simp [h.here]

theorem onCur_issued (h : Ready s g rs) (f : Group → Group) :
    onCur f (issued s) = { s with groups := Maps.modify s.groups s.cur fun _ => f { g with pc := s.nextPc, wants := false } } := by
  rw [← issued_eq, onCur_advance h]

/-- What a committed word leaves before the causes that wait for its chain's end. -/
def committed (w : WordOut) (s : State) : State :=
  match w.ctl with
  | some f => f (w.effect s)
  | none => w.effect s

theorem hazard_none (h : Ready s g rs) (hu : ∀ r ∈ (sem g s).uses ++ (sem g s).dests, r ∈ rs) : hazard g (sem g s) = false := by
  unfold hazard; rw [List.any_eq_false]; intro r hr; simpa using h.free r (hu r hr)

/-- A ready word that neither stalls nor raises nor parks nor waits. -/
theorem issue_goes (h : Ready s g rs) (hu : ∀ r ∈ (sem g s).uses ++ (sem g s).dests, r ∈ rs) (hs : (sem g s).stall = false)
    (hr : (sem g s).raises = []) (hp : (sem g s).parks = []) (ha : (sem g s).await = false) (hl : (sem g s).last = id) :
    issue sem s = .next (takeNexts (sem g s).nexts (committed (sem g s) (issued s))) := by
  rw [issue_commits h.here h.alone rfl (hazard_none h hu) hs hr hp ha, hl]
  have hf : ∀ a ∈ g.acquire, RegId.vec a.1 ∉ (sem g s).uses := fun a haq hin =>
    h.fresh a haq (hu _ (List.mem_append_left _ hin))
  unfold commitWord committed
  rw [acquireUses_advance h.here hf, issued_eq]; rfl

theorem takeNexts_nil (s : State) : takeNexts [] s = s := rfl

theorem groupOf_unwant (h : Ready s g rs) : (groupOf (unwant s) s.cur).pc = (groupOf s s.cur).pc := by
  rw [groupOf_of_find s h.here, groupOf_of_find (unwant s) (g := { g with wants := false })]
  show Maps.find (Maps.modify s.groups s.cur _) s.cur = _
  simp [h.here]

/-- A cause with no address and no record is a trap and nothing else. -/
theorem deliver_plain {k : Nat} {r : Raise} {rp : Dword} {as : List (Nat × Dword)} (ha : r.cause.hasAddr = false)
    (hr : r.cause.records = false) (s : State) : deliver k r rp as s = takeTrap k r.cause rp r.mask s := by
  simp [deliver, ha, hr]

/-- A ready word that raises a cause with no address and no record, and leaves nothing behind. -/
theorem issue_traps (h : Ready s g rs) (hu : ∀ r ∈ (sem g s).uses ++ (sem g s).dests, r ∈ rs) (hs : (sem g s).stall = false)
    {c : Cause} {m : Word} {r : Raise} (hr : lowest (sem g s).raises = some r) (hc : r.cause = c) (hm : r.mask = m)
    (hf : (sem g s).onFault = id) (ha : c.hasAddr = false) (hrec : c.records = false) : issue sem s = .next (trapped s c m) := by
  subst hc hm
  have hne : (sem g s).raises ≠ [] := by rintro e; rw [e] at hr; cases hr
  rw [issue_fails h.here h.alone rfl (hazard_none h hu) hs (.inl hne), hf]
  show Host.Outcome.next (failChain _ _ _ (unwant s)) = _
  unfold failChain
  rw [hr]
  show Host.Outcome.next (deliver s.cur r (groupOf (unwant s) s.cur).pc _ (unwant s)) = _
  rw [deliver_plain ha hrec, groupOf_unwant h]
  rfl

end Sys2Proof.Machine
end

