-- ==== Sys2Proof/Laws/Control.lean ====
section
/-! SUPPORT. The stack accesses of control words, and what control words answer. -/

namespace Sys2Proof.Machine

open Sys2Proof.Claims

variable {s : State} {g : Group} {rs : List RegId}

/-- A push with room raises nothing (R169, R171). -/
theorem push_nil (h : pushOk s g = true) : pushFaults s g = [] := by
  have h' : g.depth < stackCap g ∧ (spills g = false ∨ homeFault s s.cur (stackHome g (g.depth - g.held.length)) .store = none) := by
    simpa [pushOk] using h
  unfold pushFaults
  rw [if_neg (by omega)]
  rcases h'.2 with hs | hs
  · rw [hs]; rfl
  · rw [hs]; split <;> rfl

/-- A pop whose refill can be read raises nothing (R169). -/
theorem pop_nil (hd : g.held ≠ []) (h : popOk s g = true) : popFaults s g = [] := by
  have h' : g.depth ≤ g.held.length ∨ 17 ≤ g.held.length ∨ homeFault s s.cur (stackHome g (g.depth - g.held.length - 1)) .load = none := by
    simpa [popOk, or_assoc] using h
  unfold popFaults
  have : 0 < g.held.length := List.length_pos_iff.mpr hd
  simp only
  split
  · rename_i hc
    rw [show g.depth - 1 - (g.held.length - 1) - 1 = g.depth - g.held.length - 1 by omega, (h'.resolve_left (by omega)).resolve_left (by omega)]; rfl
  · rfl

/-- Spilt entries that can be reached raise nothing. -/
theorem spilt_nil {acc : Acc} (h : spiltOk s g acc = true) : spilledFaults s g acc = [] := by
  unfold spilledFaults spilledHomes
  have : ((((List.range (g.depth - g.held.length)).map (stackHome g)).reverse).filterMap fun va => homeFault s s.cur va acc) = [] := by
    rw [List.filterMap_eq_nil_iff]
    intro a ha
    simp at ha
    obtain ⟨d, hd, rfl⟩ := ha
    simpa using List.all_eq_true.mp h d (by simpa using hd)
  rw [this]; rfl

/-- A control word whose stack accesses raise nothing acts after its chain (R377). -/
theorem word_goes_ctl {sem : Group → State → WordOut} {uses : List RegId} {fs} {f : State → State} (h : Ready s g rs)
    (he : sem g s = ctlWord g uses fs f) (hf : fs = []) (hu : ∀ r ∈ uses, r ∈ rs) : issue sem s = .next (f (issued s)) := by
  subst hf
  refine (issue_goes h ?_ ?_ ?_ ?_ ?_ ?_).trans ?_ <;> rw [he]
  · simpa [ctlWord] using hu
  · rfl
  · rfl
  · rfl
  · rfl
  · rfl
  · rfl

/-- A word that only reads registers goes on. -/
theorem word_goes_none {sem : Group → State → WordOut} {uses : List RegId} (h : Ready s g rs)
    (he : sem g s = { uses := uses }) (hu : ∀ r ∈ uses, r ∈ rs) : issue sem s = .next (issued s) := by
  refine (issue_goes h ?_ ?_ ?_ ?_ ?_ ?_).trans ?_ <;> rw [he]
  · simpa using hu
  all_goals rfl

/-- A control word whose one stack access raises a plain cause traps. -/
theorem word_traps_ctl {sem : Group → State → WordOut} {uses : List RegId} {f : State → State} {c : Cause} (h : Ready s g rs)
    (he : sem g s = ctlWord g uses [.inl (raise c g.active)] f) (hu : ∀ r ∈ uses, r ∈ rs) (ha : c.hasAddr = false) (hrec : c.records = false) : issue sem s = .next (trapped s c g.active) := by
  refine issue_traps h (r := raise c g.active) ?_ ?_ ?_ rfl rfl ?_ ha hrec <;> rw [he]
  · simpa [ctlWord] using hu
  all_goals rfl

/-- A word that is ILLEGAL traps. -/
theorem word_traps_ill {sem : Group → State → WordOut} {uses : List RegId} (h : Ready s g rs)
    (he : sem g s = { uses := uses, raises := legal false g }) (hu : ∀ r ∈ uses, r ∈ rs) : issue sem s = .next (trapped s .illegal g.active) := by
  refine issue_traps h (r := raise .illegal g.active) ?_ ?_ ?_ rfl rfl ?_ rfl rfl <;> rw [he]
  · simpa using hu
  all_goals rfl

end Sys2Proof.Machine
end

