-- ==== Sys2Proof/Laws/Links.lean ====
section
/-! SUPPORT. A link and a view of the serialiser after a change of one: the changed one reads as it was changed, every other as before, and
nothing else of the state has moved. -/

namespace Sys2Proof.Machine

variable {s : State}

@[simp] theorem groups_setLink (l : LinkId) (k : Link) : (setLink l k s).groups = s.groups := rfl
@[simp] theorem teams_setLink (l : LinkId) (k : Link) : (setLink l k s).teams = s.teams := rfl
@[simp] theorem cores_setLink (l : LinkId) (k : Link) : (setLink l k s).cores = s.cores := rfl
@[simp] theorem dies_setLink (l : LinkId) (k : Link) : (setLink l k s).dies = s.dies := rfl
@[simp] theorem mem_setLink (l : LinkId) (k : Link) : (setLink l k s).mem = s.mem := rfl
@[simp] theorem sends_setLink (l : LinkId) (k : Link) : (setLink l k s).sends = s.sends := rfl
@[simp] theorem boot_setLink (l : LinkId) (k : Link) : (setLink l k s).boot = s.boot := rfl
@[simp] theorem ctl_setLink (l : LinkId) (k : Link) : (setLink l k s).ctl = s.ctl := rfl
@[simp] theorem display_setLink (l : LinkId) (k : Link) : (setLink l k s).display = s.display := rfl

/-- Replacing the entries of a link in a list that has one. -/
theorem find_map_link (l j : LinkId) (k : Link) (ls : List (LinkId × Link)) :
    ((ls.map fun e => if e.1 = l then (l, k) else e).find? fun e => e.1 == j) =
      if j = l then (ls.find? fun e => e.1 == l).map fun _ => (l, k) else ls.find? fun e => e.1 == j := by
  induction ls with
  | nil => simp
  | cons e es ih =>
    by_cases he : e.1 = l
    · by_cases hj : j = l
      · subst hj; simp [he]
      · have : ¬ l = j := fun h => hj h.symm
        simp only [List.map_cons, he, if_true, List.find?_cons, beq_eq_false_iff_ne.mpr this, ih, hj, if_false]
    · by_cases hj : j = l
      · subst hj; simp [he, ih]
      · by_cases hk : e.1 = j <;> simp [he, hj, hk, ih]

@[simp] theorem linkOf_setLink (l j : LinkId) (k : Link) : linkOf (setLink l k s) j = if j = l then k else linkOf s j := by
  unfold linkOf setLink
  by_cases h : (s.io.links.any fun e => e.1 == l) = true
  · simp only [h, if_true, find_map_link]
    by_cases hj : j = l
    · obtain ⟨e, he, hl⟩ := List.any_eq_true.mp h
      obtain ⟨x, hx⟩ := Option.isSome_iff_exists.mp ((List.find?_isSome (p := fun e => e.1 == l)).mpr ⟨e, he, hl⟩)
      simp [hj, hx]
    · simp [hj]
  · have h0 : (s.io.links.any fun e => e.1 == l) = false := Bool.eq_false_iff.mpr h
    have hn : ∀ e ∈ s.io.links, ¬ (e.1 == l) = true := fun e he => Bool.eq_false_iff.mp (List.any_eq_false.mp h0 e he |> Bool.eq_false_iff.mpr)
    simp only [h0, Bool.false_eq_true, if_false, List.find?_append]
    by_cases hj : j = l
    · subst hj
      have : (s.io.links.find? fun e => e.1 == j) = none := List.find?_eq_none.mpr hn
      simp [this]
    · have : ¬ l = j := fun h => hj h.symm
      simp [hj, this]

@[simp] theorem viewAt_onView (v w : Nat) (f : View → View) : viewAt (onView v f s) w = if v = w then f (viewAt s v) else viewAt s w := by
  show Maps.get {} (Maps.set s.display.views v _) w = _
  rw [Maps.get_set]; rfl

@[simp] theorem groups_onView (v : Nat) (f : View → View) : (onView v f s).groups = s.groups := rfl
@[simp] theorem mem_onView (v : Nat) (f : View → View) : (onView v f s).mem = s.mem := rfl
@[simp] theorem dies_onView (v : Nat) (f : View → View) : (onView v f s).dies = s.dies := rfl

end Sys2Proof.Machine
end

