-- ==== Sys2Proof/Laws/Memory.lean ====
section
/-! SUPPORT. Every operation that writes HBM keeps its cells in canonical form, and the reset memory has it. -/

namespace Sys2Proof.Machine

variable {m : Mem} {h : List Host.Cell}

theorem wf_nil : Memory.wf [] := ⟨Maps.sorted_nil, fun _ hc => absurd hc (by simp)⟩

/-- A cell written, at 0 unlisted. -/
theorem wf_put (hw : Memory.wf h) (a : Nat) (b : Byte) : Memory.wf (Maps.put 0 h a b) := by
  refine ⟨Maps.sorted_put hw.1 0 a b, fun c hc => ?_⟩
  unfold Maps.put at hc
  split at hc
  · exact hw.2 c (Maps.mem_of_mem_del hc)
  · rename_i hb
    rcases Maps.mem_of_mem_set hc with rfl | hc
    · exact hb
    · exact hw.2 c hc

theorem wf_writeBytes (bs : List Byte) : ∀ {h : List Host.Cell} (a : Nat), Memory.wf h → Memory.wf (Maps.writeBytes h a bs) := by
  induction bs with
  | nil => intro h a hw; exact hw
  | cons b bs ih => intro h a hw; exact ih (a + 1) (wf_put hw a b)

theorem wf_writeNat (hw : Memory.wf h) (a n v : Nat) : Memory.wf (Maps.writeNat h a n v) := wf_writeBytes _ a hw

/-- A store of one byte at its home point. -/
theorem wf_putByte (hw : Memory.wf m.hbm) (pa : Nat) (b : Byte) : Memory.wf (putByte m pa b).hbm := by
  unfold putByte
  split
  · exact hw
  · split
    · exact hw
    · exact wf_put hw pa b

theorem wf_putBytes (bs : List Byte) : ∀ {m : Mem} (pa : Nat), Memory.wf m.hbm → Memory.wf (putBytes m pa bs).hbm := by
  induction bs with
  | nil => intro m pa hw; exact hw
  | cons b bs ih => intro m pa hw; exact ih (pa + 1) (wf_putByte hw pa b)

theorem wf_putNat (hw : Memory.wf m.hbm) (pa n v : Nat) : Memory.wf (putNat m pa n v).hbm := wf_putBytes _ pa hw

theorem wf_storeRange (hw : Memory.wf m.hbm) (pa : Nat) (bs : List Byte) : Memory.wf (storeRange m pa bs).hbm := wf_putBytes bs pa hw

/-- A fold whose every step keeps a property keeps it. -/
theorem foldl_keeps {α β : Type} {P : α → Prop} {f : α → β → α} (hf : ∀ a b, P a → P (f a b)) (l : List β) :
    ∀ a, P a → P (l.foldl f a) := by
  induction l with
  | nil => intro a h; exact h
  | cons b l ih => intro a h; exact ih _ (hf a b h)

/-- A line written to HBM, and counted. -/
theorem wf_writeLine (hw : Memory.wf m.hbm) (la : Nat) (l : Line) : Memory.wf (writeLine la l m).hbm := by
  unfold writeLine countWrite
  exact wf_writeBytes _ _ hw

/-- A line leaving the LLC for another. -/
theorem wf_evictLine (hw : Memory.wf m.hbm) (la : Nat) : Memory.wf (evictLine la m).hbm := by
  unfold evictLine
  dsimp only
  split
  · split
    · exact wf_writeLine hw _ _
    · exact hw
  · exact hw

theorem wf_writeBack (hw : Memory.wf m.hbm) (lo hi : Nat) : Memory.wf (writeBack lo hi m).hbm := by
  unfold writeBack
  refine foldl_keeps (P := fun m : Mem => Memory.wf m.hbm) (fun a e ha => ?_) m.llc m hw
  split
  · exact wf_writeLine ha _ _
  · exact ha

theorem wf_flushLines (hw : Memory.wf m.hbm) (p : Nat → Bool) : Memory.wf (flushLines p m).hbm := by
  refine foldl_keeps (P := fun n : Mem => Memory.wf n.hbm) (fun a e ha => ?_) m.llc m hw
  split
  · exact wf_writeLine ha _ _
  · exact ha

theorem wf_freeHbm (cells : List (Nat × Byte)) : Memory.wf (freeHbm cells) := by
  refine foldl_keeps (P := fun h : List Host.Cell => Memory.wf h) (fun a e ha => ?_) cells [] wf_nil
  split
  · exact wf_put ha _ _
  · exact ha

/-- What is left of a package without power, or reset, has memory in its form. -/
theorem wf_coldState (s : State) : Memory.wf (coldState s).mem.hbm := wf_freeHbm _

theorem wf_withFetchWord (s : State) (hw : Memory.wf s.mem.hbm) (nbits w : Nat) : Memory.wf (s.withFetchWord nbits w).mem.hbm :=
  wf_writeNat hw 0x10000 64 (w % 2 ^ nbits)

end Sys2Proof.Machine
end

