-- ==== Sys2Proof/Laws/PerInstr.lean ====
section
/-! SUPPORT. Statements for all instructions, one lemma per constructor: the major opcode of an instruction's first word is that of its
row of the opcode map (R332 to R338), and a step of a device unit has no words. -/

open Sys2Proof

namespace Sys2Proof.Laws

/-- The major opcode of an instruction's row (R333 to R338); none for a step of a device unit. -/
def majorOf (i : Instr) : Option (BitVec 6) :=
  match i with
  | .nop .. => some 0x00#6
  | .iadd .. | .isub .. | .iminS .. | .iminN .. | .imaxS .. | .imaxN .. | .iaddc .. | .isubb .. => some 0x01#6
  | .imul .. | .imulhS .. | .imulhN .. | .imad .. | .imadhS .. | .imadhN .. | .iabs .. | .ineg .. => some 0x02#6
  | .and .. | .or .. | .xor .. | .andn .. | .orn .. | .popc .. | .clz .. | .ctz .. => some 0x03#6
  | .shl .. | .shr .. | .sar .. | .rotl .. | .bfeN .. | .bfeS .. | .bfi .. | .bperm .. => some 0x04#6
  | .icmpEq .. | .icmpNe .. | .icmpLtS .. | .icmpLeS .. | .icmpGtS .. | .icmpGeS .. | .icmpLtN .. | .icmpGeN .. => some 0x05#6
  | .sel .. => some 0x06#6
  | .mov .. | .mov64 .. | .movs .. | .vrd .. | .vwr .. | .pmov .. | .pget .. => some 0x07#6
  | .iaddi .. => some 0x08#6
  | .movi .. => some 0x09#6
  | .fadd .. | .fsub .. | .fmin .. | .fmax .. | .fabs .. | .fneg .. | .frnd .. | .fract .. => some 0x0A#6
  | .fmul .. | .fma .. | .fms .. | .fnma .. => some 0x0B#6
  | .fcmpEq .. | .fcmpNe .. | .fcmpLt .. | .fcmpLe .. | .fcmpGt .. | .fcmpGe .. | .fcmpUnord .. | .fcmpOrd .. => some 0x0C#6
  | .haddF16x2 .. | .hmulF16x2 .. | .hfmaF16x2 .. | .haddBf16x2 .. | .hmulBf16x2 .. | .hfmaBf16x2 .. | .hminF16x2 .. | .hmaxF16x2 ..
    => some 0x0D#6
  | .frcp .. | .frsq .. | .fsqrt .. | .fexp2 .. | .flog2 .. | .fsin .. | .fcos .. | .ftanh .. => some 0x0E#6
  | .dadd .. | .dsub .. | .dmul .. | .dfma .. | .dmin .. | .dmax .. | .drcp .. | .dsqrt .. => some 0x0F#6
  | .cvt .. => some 0x10#6
  | .cvtnE4m3 .. | .cvtnE4m3Sr .. | .cvtnE5m2 .. | .cvtnE5m2Sr .. | .cvtnE2m1b .. | .cvtnE2m1bSr .. | .cvtwE4m3 .. | .cvtwE5m2 .. =>
    some 0x11#6
  | .xrel .. | .xrel3 .. | .dcmpEq .. | .dcmpLt .. | .dcmpLe .. | .dcmpUnord .. => some 0x12#6
  | .shflIdx .. | .shflUp .. | .shflDown .. | .shflXor .. | .voteAny .. | .voteAll .. | .voteBallot .. | .qswz .. => some 0x13#6
  | .redAddS32 .. | .redAddF32 .. | .redMinF32 .. | .redMaxF32 .. | .scanAddS32 .. | .scanAddF32 .. | .redAnd .. | .redOr .. => some
    0x14#6
  | .ddx .. | .ddy .. | .ipa .. | .ipac .. => some 0x15#6
  | .rtravInit .. | .rtravStep .. | .rhit .. => some 0x16#6
  | .iaddScalarB .. | .isubScalarB .. | .iminSScalarB .. | .iminNScalarB .. | .imaxSScalarB .. | .imaxNScalarB .. | .iaddcScalarB ..
    | .isubbScalarB .. => some 0x18#6
  | .andScalarB .. | .orScalarB .. | .xorScalarB .. | .andnScalarB .. | .ornScalarB .. => some 0x19#6
  | .faddScalarB .. | .fsubScalarB .. | .fminScalarB .. | .fmaxScalarB .. => some 0x1A#6
  | .fmulScalarB .. | .fmaScalarB .. | .fmsScalarB .. | .fnmaScalarB .. => some 0x1B#6
  | .sadd .. | .ssub .. | .smul .. | .smulh .. | .sand .. | .sor .. | .sxor .. | .sandn .. | .sshl .. | .sshr .. | .ssar .. | .smin
    .. | .smax .. | .smov .. | .sadd64 .. | .ssub64 .. => some 0x20#6
  | .saddi .. | .sandi .. | .sori .. | .sxori .. | .sshli .. | .sshri .. | .smovi .. | .smovhi .. => some 0x21#6
  | .scmpEq .. | .scmpNe .. | .scmpLtS .. | .scmpLeS .. | .scmpLtN .. | .scmpLeN .. | .ssel .. => some 0x22#6
  | .getsr .. | .setsr .. | .setix .. | .addix .. | .getix .. => some 0x23#6
  | .bind .. | .unbind .. | .wquery .. => some 0x24#6
  | .ld .. => some 0x25#6
  | .st .. => some 0x26#6
  | .ldg .. | .stg .. => some 0x27#6
  | .lds .. | .sts .. => some 0x28#6
  | .ldc .. => some 0x29#6
  | .atom .. => some 0x2A#6
  | .atoms .. => some 0x2B#6
  | .ldt .. => some 0x2C#6
  | .smpPoint .. | .smpBilinear .. | .smpTrilinear .. => some 0x2D#6
  | .fenceAcq .. | .fenceRel .. | .fenceAr .. | .cinv .. | .cwb .. | .pf .. | .resfence .. => some 0x2E#6
  | .cpa .. | .cpseal .. | .cpwait .. | .cpstat .. => some 0x2F#6
  | .cpbulk .. | .cpq .. => some 0x30#6
  | .tbinit .. | .tbarrive .. | .tbexpect .. | .tbwait .. | .tbtest .. => some 0x31#6
  | .rarm .. | .rdisarm .. | .mkcap .. | .rsend .. | .rsendT .. | .rsendRel .. | .rsendRelT .. | .rrevoke .. | .rtest .. |
    .rtestCount .. => some 0x32#6
  | .mring .. | .msend .. | .mwait .. => some 0x33#6
  | .resset .. | .resclr .. | .resq .. => some 0x34#6
  | .memitV .. | .memitP .. | .tamp .. | .tload .. | .tstore .. | .tseal .. | .gzrd .. => some 0x35#6
  | .tlbinv .. | .winv .. | .hmask .. | .evict .. | .snap .. | .pgmap .. => some 0x36#6
  | .bra .. | .brc .. | .brcn .. | .bru .. | .join .. | .brx .. | .loop .. => some 0x38#6
  | .call .. | .ret .. | .exit .. | .trap .. | .brk .. | .yield .. | .sleep .. => some 0x39#6
  | .bar .. | .barPub .. | .barRealloc .. | .barArrive .. | .barWait .. => some 0x3A#6
  | .post .. | .lgrow .. | .evpost .. | .depdec .. | .depset .. => some 0x3B#6
  | .mmq .. | .mmqs .. | .mmqg .. | .mtile .. => some 0x3C#6
  | .wbld .. | .wbinv .. | .wbstat .. => some 0x3D#6
  | .had16 .. | .had32 .. | .had64 .. | .absmax .. | .quant .. | .bmenc .. | .bmdec .. | .pscan .. | .lztok .. => some 0x3E#6
  | .lit .. => some 0x3F#6
  | .powerOn .. | .measureComponent .. | .status .. | .reset .. | .loadimg .. | .attest .. | .snapCommand .. | .rdsnap .. | .rdlife
    .. | .setpkg .. | .killctx .. | .unknownCommand .. | .lifetimeFlush .. | .ctxCreate .. | .ctxKill .. | .ctxDestroy .. |
    .rcbinvWrite .. | .rcbInvalidationDone .. | .wtreplayByPage .. | .wtreplayByToken .. | .wtreplayByAsid .. | .dspostWrite .. |
    .dctrSet .. | .dctrDecrement .. | .lcctlCntclr .. | .lcctlTcdis .. | .snapctlClr .. | .thermctlRelease .. | .domswWrite .. |
    .fwWrite .. | .serclkWrite .. | .vobWrite .. | .vrecWrite .. | .gazeWrite .. | .embctlWrite .. | .dsctlWrite .. | .nrbaseWrite
    .. | .deviceRegisterWrite .. | .flitSend .. | .flitReceive .. | .linkRetrain .. | .retrainComplete .. | .linkDown .. |
    .dmaRequest .. | .pcieWindowCompletion .. | .thermalThrottle .. | .thermalReset .. | .thermalTokenRestore .. |
    .faultRecordWrite .. | .cardPostArrival .. | .cardStoreEntryFreed .. | .counterUpdate .. | .cardReady .. | .teamPlacement .. |
    .admholdExpiry .. | .drainDeadline .. | .launchRetirement .. | .eventRecord .. | .eventQueueSlotFreed .. |
    .decompressionJobEnd .. | .waitTableRewalk .. | .siblingStop .. | .sibhaltPop .. | .lateFailure .. | .sleepExpiry .. |
    .tokenHop .. | .burstEnd .. | .reallocDecision .. | .llcRequest .. | .nackResend .. | .domainSwitchPhase .. |
    .domainNackResend .. | .remoteScratchAccess .. | .cpaCopyComplete .. | .bulkCopyComplete .. | .wbldComplete .. | .xfmReply ..
    | .mtileStep .. | .sendAtRelay .. | .sendArrival .. | .sendMoved .. | .sendStatusReply .. | .messageAtRelay .. | .teamEviction
    .. | .teamRestore .. | .flueRecordWrite .. | .residencyInvalidation .. | .snapTriggerRoot .. | .snapshotLatch .. |
    .meshRingEntry .. | .cullInstance .. | .primitiveAtBinner .. | .primitiveAtOwner .. | .drawEndMarker .. | .primitiveApply .. |
    .stripStart .. | .sealArrival .. | .replacementInstant .. | .replacementNotice .. | .powerLoss .. | .memoryReply .. |
    .llcMissFill .. | .coreReset .. | .retrainingAttemptFailure .. => none

/-- A number of a chain bit, a major and other fields has its major at bit 25. -/
theorem major_at (x op r : Nat) (hop : op < 64) (hf : r < 2 ^ 25) : (x * 2 ^ 31 + (op * 2 ^ 25 + r)) % 2 ^ 32 / 2 ^ 25 % 2 ^ 6 = op := by
  norm_num at *
  omega

/-- A word whose other fields lie below the major has that major. -/
theorem pack_major (c : Bool) (op : Nat) (fs : List (Nat × Nat)) (hop : op < 64) (hf : places fs < 2 ^ 25) :
    (pack c op fs).extractLsb' 25 6 = BitVec.ofNat 6 op := by
  apply BitVec.eq_of_toNat_eq
  have h := major_at c.toNat op (places fs) hop hf
  have e : (pack c op fs).toNat = (c.toNat * 2 ^ 31 + (op * 2 ^ 25 + places fs)) % 2 ^ 32 := by
    unfold pack
    rw [BitVec.toNat_ofNat]; rfl
  rw [BitVec.extractLsb'_toNat, e, Nat.shiftRight_eq_div_pow, h, BitVec.toNat_ofNat, Nat.mod_eq_of_lt hop]

/-- An instruction's first word has the major of its row, and a step of a device unit has no words. -/
def Encoding.Statement (i : Instr) : Prop :=
  match majorOf i with
  | some op => ∃ w, encodeWord i = some w ∧ w.extractLsb' 25 6 = op
  | none => encode i = []

end Sys2Proof.Laws

theorem Sys2Proof.Laws.Encoding.nop (c : Bool) : Sys2Proof.Laws.Encoding.Statement (.nop c) :=
  ⟨_, rfl, Sys2Proof.Laws.pack_major _ _ _ (by decide) (by simp only [places]; omega)⟩
theorem Sys2Proof.Laws.Encoding.lit (c : Bool) (l : BitVec 25) : Sys2Proof.Laws.Encoding.Statement (.lit c l) :=
  ⟨_, rfl, Sys2Proof.Laws.pack_major _ _ _ (by decide) (by have := l.isLt; simp only [places]; omega)⟩
theorem Sys2Proof.Laws.Encoding.iadd (c : Bool) (x : Bool) (d : BitVec 7) (a : BitVec 7) (b : BitVec 7) :
    Sys2Proof.Laws.Encoding.Statement (.iadd c x d a b) :=
  ⟨_, rfl, Sys2Proof.Laws.pack_major _ _ _ (by decide) (by have := Bool.toNat_lt x; have := d.isLt; have := a.isLt; have := b.isLt; simp only [places]; omega)⟩
theorem Sys2Proof.Laws.Encoding.isub (c : Bool) (x : Bool) (d : BitVec 7) (a : BitVec 7) (b : BitVec 7) :
    Sys2Proof.Laws.Encoding.Statement (.isub c x d a b) :=
  ⟨_, rfl, Sys2Proof.Laws.pack_major _ _ _ (by decide) (by have := Bool.toNat_lt x; have := d.isLt; have := a.isLt; have := b.isLt; simp only [places]; omega)⟩
theorem Sys2Proof.Laws.Encoding.iminS (c : Bool) (x : Bool) (d : BitVec 7) (a : BitVec 7) (b : BitVec 7) :
    Sys2Proof.Laws.Encoding.Statement (.iminS c x d a b) :=
  ⟨_, rfl, Sys2Proof.Laws.pack_major _ _ _ (by decide) (by have := Bool.toNat_lt x; have := d.isLt; have := a.isLt; have := b.isLt; simp only [places]; omega)⟩
theorem Sys2Proof.Laws.Encoding.iminN (c : Bool) (x : Bool) (d : BitVec 7) (a : BitVec 7) (b : BitVec 7) :
    Sys2Proof.Laws.Encoding.Statement (.iminN c x d a b) :=
  ⟨_, rfl, Sys2Proof.Laws.pack_major _ _ _ (by decide) (by have := Bool.toNat_lt x; have := d.isLt; have := a.isLt; have := b.isLt; simp only [places]; omega)⟩
theorem Sys2Proof.Laws.Encoding.imaxS (c : Bool) (x : Bool) (d : BitVec 7) (a : BitVec 7) (b : BitVec 7) :
    Sys2Proof.Laws.Encoding.Statement (.imaxS c x d a b) :=
  ⟨_, rfl, Sys2Proof.Laws.pack_major _ _ _ (by decide) (by have := Bool.toNat_lt x; have := d.isLt; have := a.isLt; have := b.isLt; simp only [places]; omega)⟩
theorem Sys2Proof.Laws.Encoding.imaxN (c : Bool) (x : Bool) (d : BitVec 7) (a : BitVec 7) (b : BitVec 7) :
    Sys2Proof.Laws.Encoding.Statement (.imaxN c x d a b) :=
  ⟨_, rfl, Sys2Proof.Laws.pack_major _ _ _ (by decide) (by have := Bool.toNat_lt x; have := d.isLt; have := a.isLt; have := b.isLt; simp only [places]; omega)⟩
theorem Sys2Proof.Laws.Encoding.iaddc (c : Bool) (x : Bool) (d : BitVec 7) (a : BitVec 7) (b : BitVec 7) :
    Sys2Proof.Laws.Encoding.Statement (.iaddc c x d a b) :=
  ⟨_, rfl, Sys2Proof.Laws.pack_major _ _ _ (by decide) (by have := Bool.toNat_lt x; have := d.isLt; have := a.isLt; have := b.isLt; simp only [places]; omega)⟩
theorem Sys2Proof.Laws.Encoding.isubb (c : Bool) (x : Bool) (d : BitVec 7) (a : BitVec 7) (b : BitVec 7) :
    Sys2Proof.Laws.Encoding.Statement (.isubb c x d a b) :=
  ⟨_, rfl, Sys2Proof.Laws.pack_major _ _ _ (by decide) (by have := Bool.toNat_lt x; have := d.isLt; have := a.isLt; have := b.isLt; simp only [places]; omega)⟩
theorem Sys2Proof.Laws.Encoding.iaddScalarB (c : Bool) (x : Bool) (d : BitVec 7) (a : BitVec 7) (s : BitVec 6) :
    Sys2Proof.Laws.Encoding.Statement (.iaddScalarB c x d a s) :=
  ⟨_, rfl, Sys2Proof.Laws.pack_major _ _ _ (by decide) (by have := Bool.toNat_lt x; have := d.isLt; have := a.isLt; have := s.isLt; simp only [places]; omega)⟩
theorem Sys2Proof.Laws.Encoding.isubScalarB (c : Bool) (x : Bool) (d : BitVec 7) (a : BitVec 7) (s : BitVec 6) :
    Sys2Proof.Laws.Encoding.Statement (.isubScalarB c x d a s) :=
  ⟨_, rfl, Sys2Proof.Laws.pack_major _ _ _ (by decide) (by have := Bool.toNat_lt x; have := d.isLt; have := a.isLt; have := s.isLt; simp only [places]; omega)⟩
theorem Sys2Proof.Laws.Encoding.iminSScalarB (c : Bool) (x : Bool) (d : BitVec 7) (a : BitVec 7) (s : BitVec 6) :
    Sys2Proof.Laws.Encoding.Statement (.iminSScalarB c x d a s) :=
  ⟨_, rfl, Sys2Proof.Laws.pack_major _ _ _ (by decide) (by have := Bool.toNat_lt x; have := d.isLt; have := a.isLt; have := s.isLt; simp only [places]; omega)⟩
theorem Sys2Proof.Laws.Encoding.iminNScalarB (c : Bool) (x : Bool) (d : BitVec 7) (a : BitVec 7) (s : BitVec 6) :
    Sys2Proof.Laws.Encoding.Statement (.iminNScalarB c x d a s) :=
  ⟨_, rfl, Sys2Proof.Laws.pack_major _ _ _ (by decide) (by have := Bool.toNat_lt x; have := d.isLt; have := a.isLt; have := s.isLt; simp only [places]; omega)⟩
theorem Sys2Proof.Laws.Encoding.imaxSScalarB (c : Bool) (x : Bool) (d : BitVec 7) (a : BitVec 7) (s : BitVec 6) :
    Sys2Proof.Laws.Encoding.Statement (.imaxSScalarB c x d a s) :=
  ⟨_, rfl, Sys2Proof.Laws.pack_major _ _ _ (by decide) (by have := Bool.toNat_lt x; have := d.isLt; have := a.isLt; have := s.isLt; simp only [places]; omega)⟩
theorem Sys2Proof.Laws.Encoding.imaxNScalarB (c : Bool) (x : Bool) (d : BitVec 7) (a : BitVec 7) (s : BitVec 6) :
    Sys2Proof.Laws.Encoding.Statement (.imaxNScalarB c x d a s) :=
  ⟨_, rfl, Sys2Proof.Laws.pack_major _ _ _ (by decide) (by have := Bool.toNat_lt x; have := d.isLt; have := a.isLt; have := s.isLt; simp only [places]; omega)⟩
theorem Sys2Proof.Laws.Encoding.iaddcScalarB (c : Bool) (x : Bool) (d : BitVec 7) (a : BitVec 7) (s : BitVec 6) :
    Sys2Proof.Laws.Encoding.Statement (.iaddcScalarB c x d a s) :=
  ⟨_, rfl, Sys2Proof.Laws.pack_major _ _ _ (by decide) (by have := Bool.toNat_lt x; have := d.isLt; have := a.isLt; have := s.isLt; simp only [places]; omega)⟩
theorem Sys2Proof.Laws.Encoding.isubbScalarB (c : Bool) (x : Bool) (d : BitVec 7) (a : BitVec 7) (s : BitVec 6) :
    Sys2Proof.Laws.Encoding.Statement (.isubbScalarB c x d a s) :=
  ⟨_, rfl, Sys2Proof.Laws.pack_major _ _ _ (by decide) (by have := Bool.toNat_lt x; have := d.isLt; have := a.isLt; have := s.isLt; simp only [places]; omega)⟩
theorem Sys2Proof.Laws.Encoding.imul (c : Bool) (x : Bool) (d : BitVec 7) (a : BitVec 7) (b : BitVec 7) :
    Sys2Proof.Laws.Encoding.Statement (.imul c x d a b) :=
  ⟨_, rfl, Sys2Proof.Laws.pack_major _ _ _ (by decide) (by have := Bool.toNat_lt x; have := d.isLt; have := a.isLt; have := b.isLt; simp only [places]; omega)⟩
theorem Sys2Proof.Laws.Encoding.imulhS (c : Bool) (x : Bool) (d : BitVec 7) (a : BitVec 7) (b : BitVec 7) :
    Sys2Proof.Laws.Encoding.Statement (.imulhS c x d a b) :=
  ⟨_, rfl, Sys2Proof.Laws.pack_major _ _ _ (by decide) (by have := Bool.toNat_lt x; have := d.isLt; have := a.isLt; have := b.isLt; simp only [places]; omega)⟩
theorem Sys2Proof.Laws.Encoding.imulhN (c : Bool) (x : Bool) (d : BitVec 7) (a : BitVec 7) (b : BitVec 7) :
    Sys2Proof.Laws.Encoding.Statement (.imulhN c x d a b) :=
  ⟨_, rfl, Sys2Proof.Laws.pack_major _ _ _ (by decide) (by have := Bool.toNat_lt x; have := d.isLt; have := a.isLt; have := b.isLt; simp only [places]; omega)⟩
theorem Sys2Proof.Laws.Encoding.imad (c : Bool) (x : Bool) (d : BitVec 7) (a : BitVec 7) (b : BitVec 7) :
    Sys2Proof.Laws.Encoding.Statement (.imad c x d a b) :=
  ⟨_, rfl, Sys2Proof.Laws.pack_major _ _ _ (by decide) (by have := Bool.toNat_lt x; have := d.isLt; have := a.isLt; have := b.isLt; simp only [places]; omega)⟩
theorem Sys2Proof.Laws.Encoding.imadhS (c : Bool) (x : Bool) (d : BitVec 7) (a : BitVec 7) (b : BitVec 7) :
    Sys2Proof.Laws.Encoding.Statement (.imadhS c x d a b) :=
  ⟨_, rfl, Sys2Proof.Laws.pack_major _ _ _ (by decide) (by have := Bool.toNat_lt x; have := d.isLt; have := a.isLt; have := b.isLt; simp only [places]; omega)⟩
theorem Sys2Proof.Laws.Encoding.imadhN (c : Bool) (x : Bool) (d : BitVec 7) (a : BitVec 7) (b : BitVec 7) :
    Sys2Proof.Laws.Encoding.Statement (.imadhN c x d a b) :=
  ⟨_, rfl, Sys2Proof.Laws.pack_major _ _ _ (by decide) (by have := Bool.toNat_lt x; have := d.isLt; have := a.isLt; have := b.isLt; simp only [places]; omega)⟩
theorem Sys2Proof.Laws.Encoding.iabs (c : Bool) (x : Bool) (d : BitVec 7) (a : BitVec 7) : Sys2Proof.Laws.Encoding.Statement
    (.iabs c x d a) :=
  ⟨_, rfl, Sys2Proof.Laws.pack_major _ _ _ (by decide) (by have := Bool.toNat_lt x; have := d.isLt; have := a.isLt; simp only [places]; omega)⟩
theorem Sys2Proof.Laws.Encoding.ineg (c : Bool) (x : Bool) (d : BitVec 7) (a : BitVec 7) : Sys2Proof.Laws.Encoding.Statement
    (.ineg c x d a) :=
  ⟨_, rfl, Sys2Proof.Laws.pack_major _ _ _ (by decide) (by have := Bool.toNat_lt x; have := d.isLt; have := a.isLt; simp only [places]; omega)⟩
theorem Sys2Proof.Laws.Encoding.and (c : Bool) (x : Bool) (d : BitVec 7) (a : BitVec 7) (b : BitVec 7) :
    Sys2Proof.Laws.Encoding.Statement (.and c x d a b) :=
  ⟨_, rfl, Sys2Proof.Laws.pack_major _ _ _ (by decide) (by have := Bool.toNat_lt x; have := d.isLt; have := a.isLt; have := b.isLt; simp only [places]; omega)⟩
theorem Sys2Proof.Laws.Encoding.or (c : Bool) (x : Bool) (d : BitVec 7) (a : BitVec 7) (b : BitVec 7) :
    Sys2Proof.Laws.Encoding.Statement (.or c x d a b) :=
  ⟨_, rfl, Sys2Proof.Laws.pack_major _ _ _ (by decide) (by have := Bool.toNat_lt x; have := d.isLt; have := a.isLt; have := b.isLt; simp only [places]; omega)⟩
theorem Sys2Proof.Laws.Encoding.xor (c : Bool) (x : Bool) (d : BitVec 7) (a : BitVec 7) (b : BitVec 7) :
    Sys2Proof.Laws.Encoding.Statement (.xor c x d a b) :=
  ⟨_, rfl, Sys2Proof.Laws.pack_major _ _ _ (by decide) (by have := Bool.toNat_lt x; have := d.isLt; have := a.isLt; have := b.isLt; simp only [places]; omega)⟩
theorem Sys2Proof.Laws.Encoding.andn (c : Bool) (x : Bool) (d : BitVec 7) (a : BitVec 7) (b : BitVec 7) :
    Sys2Proof.Laws.Encoding.Statement (.andn c x d a b) :=
  ⟨_, rfl, Sys2Proof.Laws.pack_major _ _ _ (by decide) (by have := Bool.toNat_lt x; have := d.isLt; have := a.isLt; have := b.isLt; simp only [places]; omega)⟩
theorem Sys2Proof.Laws.Encoding.orn (c : Bool) (x : Bool) (d : BitVec 7) (a : BitVec 7) (b : BitVec 7) :
    Sys2Proof.Laws.Encoding.Statement (.orn c x d a b) :=
  ⟨_, rfl, Sys2Proof.Laws.pack_major _ _ _ (by decide) (by have := Bool.toNat_lt x; have := d.isLt; have := a.isLt; have := b.isLt; simp only [places]; omega)⟩
theorem Sys2Proof.Laws.Encoding.popc (c : Bool) (x : Bool) (d : BitVec 7) (a : BitVec 7) : Sys2Proof.Laws.Encoding.Statement
    (.popc c x d a) :=
  ⟨_, rfl, Sys2Proof.Laws.pack_major _ _ _ (by decide) (by have := Bool.toNat_lt x; have := d.isLt; have := a.isLt; simp only [places]; omega)⟩
theorem Sys2Proof.Laws.Encoding.clz (c : Bool) (x : Bool) (d : BitVec 7) (a : BitVec 7) : Sys2Proof.Laws.Encoding.Statement (.clz
    c x d a) :=
  ⟨_, rfl, Sys2Proof.Laws.pack_major _ _ _ (by decide) (by have := Bool.toNat_lt x; have := d.isLt; have := a.isLt; simp only [places]; omega)⟩
theorem Sys2Proof.Laws.Encoding.ctz (c : Bool) (x : Bool) (d : BitVec 7) (a : BitVec 7) : Sys2Proof.Laws.Encoding.Statement (.ctz
    c x d a) :=
  ⟨_, rfl, Sys2Proof.Laws.pack_major _ _ _ (by decide) (by have := Bool.toNat_lt x; have := d.isLt; have := a.isLt; simp only [places]; omega)⟩
theorem Sys2Proof.Laws.Encoding.andScalarB (c : Bool) (x : Bool) (d : BitVec 7) (a : BitVec 7) (s : BitVec 6) :
    Sys2Proof.Laws.Encoding.Statement (.andScalarB c x d a s) :=
  ⟨_, rfl, Sys2Proof.Laws.pack_major _ _ _ (by decide) (by have := Bool.toNat_lt x; have := d.isLt; have := a.isLt; have := s.isLt; simp only [places]; omega)⟩
theorem Sys2Proof.Laws.Encoding.orScalarB (c : Bool) (x : Bool) (d : BitVec 7) (a : BitVec 7) (s : BitVec 6) :
    Sys2Proof.Laws.Encoding.Statement (.orScalarB c x d a s) :=
  ⟨_, rfl, Sys2Proof.Laws.pack_major _ _ _ (by decide) (by have := Bool.toNat_lt x; have := d.isLt; have := a.isLt; have := s.isLt; simp only [places]; omega)⟩
theorem Sys2Proof.Laws.Encoding.xorScalarB (c : Bool) (x : Bool) (d : BitVec 7) (a : BitVec 7) (s : BitVec 6) :
    Sys2Proof.Laws.Encoding.Statement (.xorScalarB c x d a s) :=
  ⟨_, rfl, Sys2Proof.Laws.pack_major _ _ _ (by decide) (by have := Bool.toNat_lt x; have := d.isLt; have := a.isLt; have := s.isLt; simp only [places]; omega)⟩
theorem Sys2Proof.Laws.Encoding.andnScalarB (c : Bool) (x : Bool) (d : BitVec 7) (a : BitVec 7) (s : BitVec 6) :
    Sys2Proof.Laws.Encoding.Statement (.andnScalarB c x d a s) :=
  ⟨_, rfl, Sys2Proof.Laws.pack_major _ _ _ (by decide) (by have := Bool.toNat_lt x; have := d.isLt; have := a.isLt; have := s.isLt; simp only [places]; omega)⟩
theorem Sys2Proof.Laws.Encoding.ornScalarB (c : Bool) (x : Bool) (d : BitVec 7) (a : BitVec 7) (s : BitVec 6) :
    Sys2Proof.Laws.Encoding.Statement (.ornScalarB c x d a s) :=
  ⟨_, rfl, Sys2Proof.Laws.pack_major _ _ _ (by decide) (by have := Bool.toNat_lt x; have := d.isLt; have := a.isLt; have := s.isLt; simp only [places]; omega)⟩
theorem Sys2Proof.Laws.Encoding.shl (c : Bool) (x : Bool) (d : BitVec 7) (a : BitVec 7) (b : BitVec 7) :
    Sys2Proof.Laws.Encoding.Statement (.shl c x d a b) :=
  ⟨_, rfl, Sys2Proof.Laws.pack_major _ _ _ (by decide) (by have := Bool.toNat_lt x; have := d.isLt; have := a.isLt; have := b.isLt; simp only [places]; omega)⟩
theorem Sys2Proof.Laws.Encoding.shr (c : Bool) (x : Bool) (d : BitVec 7) (a : BitVec 7) (b : BitVec 7) :
    Sys2Proof.Laws.Encoding.Statement (.shr c x d a b) :=
  ⟨_, rfl, Sys2Proof.Laws.pack_major _ _ _ (by decide) (by have := Bool.toNat_lt x; have := d.isLt; have := a.isLt; have := b.isLt; simp only [places]; omega)⟩
theorem Sys2Proof.Laws.Encoding.sar (c : Bool) (x : Bool) (d : BitVec 7) (a : BitVec 7) (b : BitVec 7) :
    Sys2Proof.Laws.Encoding.Statement (.sar c x d a b) :=
  ⟨_, rfl, Sys2Proof.Laws.pack_major _ _ _ (by decide) (by have := Bool.toNat_lt x; have := d.isLt; have := a.isLt; have := b.isLt; simp only [places]; omega)⟩
theorem Sys2Proof.Laws.Encoding.rotl (c : Bool) (x : Bool) (d : BitVec 7) (a : BitVec 7) (b : BitVec 7) :
    Sys2Proof.Laws.Encoding.Statement (.rotl c x d a b) :=
  ⟨_, rfl, Sys2Proof.Laws.pack_major _ _ _ (by decide) (by have := Bool.toNat_lt x; have := d.isLt; have := a.isLt; have := b.isLt; simp only [places]; omega)⟩
theorem Sys2Proof.Laws.Encoding.bfeN (c : Bool) (x : Bool) (d : BitVec 7) (a : BitVec 7) (b : BitVec 7) :
    Sys2Proof.Laws.Encoding.Statement (.bfeN c x d a b) :=
  ⟨_, rfl, Sys2Proof.Laws.pack_major _ _ _ (by decide) (by have := Bool.toNat_lt x; have := d.isLt; have := a.isLt; have := b.isLt; simp only [places]; omega)⟩
theorem Sys2Proof.Laws.Encoding.bfeS (c : Bool) (x : Bool) (d : BitVec 7) (a : BitVec 7) (b : BitVec 7) :
    Sys2Proof.Laws.Encoding.Statement (.bfeS c x d a b) :=
  ⟨_, rfl, Sys2Proof.Laws.pack_major _ _ _ (by decide) (by have := Bool.toNat_lt x; have := d.isLt; have := a.isLt; have := b.isLt; simp only [places]; omega)⟩
theorem Sys2Proof.Laws.Encoding.bfi (c : Bool) (x : Bool) (d : BitVec 7) (a : BitVec 7) (b : BitVec 7) :
    Sys2Proof.Laws.Encoding.Statement (.bfi c x d a b) :=
  ⟨_, rfl, Sys2Proof.Laws.pack_major _ _ _ (by decide) (by have := Bool.toNat_lt x; have := d.isLt; have := a.isLt; have := b.isLt; simp only [places]; omega)⟩
theorem Sys2Proof.Laws.Encoding.bperm (c : Bool) (x : Bool) (d : BitVec 7) (a : BitVec 7) (b : BitVec 7) :
    Sys2Proof.Laws.Encoding.Statement (.bperm c x d a b) :=
  ⟨_, rfl, Sys2Proof.Laws.pack_major _ _ _ (by decide) (by have := Bool.toNat_lt x; have := d.isLt; have := a.isLt; have := b.isLt; simp only [places]; omega)⟩
theorem Sys2Proof.Laws.Encoding.icmpEq (c : Bool) (x : Bool) (p : BitVec 3) (a : BitVec 7) (b : BitVec 7) :
    Sys2Proof.Laws.Encoding.Statement (.icmpEq c x p a b) :=
  ⟨_, rfl, Sys2Proof.Laws.pack_major _ _ _ (by decide) (by have := Bool.toNat_lt x; have := p.isLt; have := a.isLt; have := b.isLt; simp only [places]; omega)⟩
theorem Sys2Proof.Laws.Encoding.icmpNe (c : Bool) (x : Bool) (p : BitVec 3) (a : BitVec 7) (b : BitVec 7) :
    Sys2Proof.Laws.Encoding.Statement (.icmpNe c x p a b) :=
  ⟨_, rfl, Sys2Proof.Laws.pack_major _ _ _ (by decide) (by have := Bool.toNat_lt x; have := p.isLt; have := a.isLt; have := b.isLt; simp only [places]; omega)⟩
theorem Sys2Proof.Laws.Encoding.icmpLtS (c : Bool) (x : Bool) (p : BitVec 3) (a : BitVec 7) (b : BitVec 7) :
    Sys2Proof.Laws.Encoding.Statement (.icmpLtS c x p a b) :=
  ⟨_, rfl, Sys2Proof.Laws.pack_major _ _ _ (by decide) (by have := Bool.toNat_lt x; have := p.isLt; have := a.isLt; have := b.isLt; simp only [places]; omega)⟩
theorem Sys2Proof.Laws.Encoding.icmpLeS (c : Bool) (x : Bool) (p : BitVec 3) (a : BitVec 7) (b : BitVec 7) :
    Sys2Proof.Laws.Encoding.Statement (.icmpLeS c x p a b) :=
  ⟨_, rfl, Sys2Proof.Laws.pack_major _ _ _ (by decide) (by have := Bool.toNat_lt x; have := p.isLt; have := a.isLt; have := b.isLt; simp only [places]; omega)⟩
theorem Sys2Proof.Laws.Encoding.icmpGtS (c : Bool) (x : Bool) (p : BitVec 3) (a : BitVec 7) (b : BitVec 7) :
    Sys2Proof.Laws.Encoding.Statement (.icmpGtS c x p a b) :=
  ⟨_, rfl, Sys2Proof.Laws.pack_major _ _ _ (by decide) (by have := Bool.toNat_lt x; have := p.isLt; have := a.isLt; have := b.isLt; simp only [places]; omega)⟩
theorem Sys2Proof.Laws.Encoding.icmpGeS (c : Bool) (x : Bool) (p : BitVec 3) (a : BitVec 7) (b : BitVec 7) :
    Sys2Proof.Laws.Encoding.Statement (.icmpGeS c x p a b) :=
  ⟨_, rfl, Sys2Proof.Laws.pack_major _ _ _ (by decide) (by have := Bool.toNat_lt x; have := p.isLt; have := a.isLt; have := b.isLt; simp only [places]; omega)⟩
theorem Sys2Proof.Laws.Encoding.icmpLtN (c : Bool) (x : Bool) (p : BitVec 3) (a : BitVec 7) (b : BitVec 7) :
    Sys2Proof.Laws.Encoding.Statement (.icmpLtN c x p a b) :=
  ⟨_, rfl, Sys2Proof.Laws.pack_major _ _ _ (by decide) (by have := Bool.toNat_lt x; have := p.isLt; have := a.isLt; have := b.isLt; simp only [places]; omega)⟩
theorem Sys2Proof.Laws.Encoding.icmpGeN (c : Bool) (x : Bool) (p : BitVec 3) (a : BitVec 7) (b : BitVec 7) :
    Sys2Proof.Laws.Encoding.Statement (.icmpGeN c x p a b) :=
  ⟨_, rfl, Sys2Proof.Laws.pack_major _ _ _ (by decide) (by have := Bool.toNat_lt x; have := p.isLt; have := a.isLt; have := b.isLt; simp only [places]; omega)⟩
theorem Sys2Proof.Laws.Encoding.sel (c : Bool) (x : Bool) (p : BitVec 3) (d : BitVec 7) (a : BitVec 7) (b : BitVec 7) :
    Sys2Proof.Laws.Encoding.Statement (.sel c x p d a b) :=
  ⟨_, rfl, Sys2Proof.Laws.pack_major _ _ _ (by decide) (by have := Bool.toNat_lt x; have := p.isLt; have := d.isLt; have := a.isLt; have := b.isLt; simp only [places]; omega)⟩
theorem Sys2Proof.Laws.Encoding.mov (c : Bool) (x : Bool) (d : BitVec 7) (a : BitVec 7) : Sys2Proof.Laws.Encoding.Statement (.mov
    c x d a) :=
  ⟨_, rfl, Sys2Proof.Laws.pack_major _ _ _ (by decide) (by have := Bool.toNat_lt x; have := d.isLt; have := a.isLt; simp only [places]; omega)⟩
theorem Sys2Proof.Laws.Encoding.mov64 (c : Bool) (x : Bool) (d : BitVec 7) (a : BitVec 7) : Sys2Proof.Laws.Encoding.Statement
    (.mov64 c x d a) :=
  ⟨_, rfl, Sys2Proof.Laws.pack_major _ _ _ (by decide) (by have := Bool.toNat_lt x; have := d.isLt; have := a.isLt; simp only [places]; omega)⟩
theorem Sys2Proof.Laws.Encoding.movs (c : Bool) (x : Bool) (d : BitVec 7) (s : BitVec 6) : Sys2Proof.Laws.Encoding.Statement
    (.movs c x d s) :=
  ⟨_, rfl, Sys2Proof.Laws.pack_major _ _ _ (by decide) (by have := Bool.toNat_lt x; have := d.isLt; have := s.isLt; simp only [places]; omega)⟩
theorem Sys2Proof.Laws.Encoding.vrd (c : Bool) (x : Bool) (d : BitVec 7) (a : BitVec 7) (b : BitVec 7) :
    Sys2Proof.Laws.Encoding.Statement (.vrd c x d a b) :=
  ⟨_, rfl, Sys2Proof.Laws.pack_major _ _ _ (by decide) (by have := Bool.toNat_lt x; have := d.isLt; have := a.isLt; have := b.isLt; simp only [places]; omega)⟩
theorem Sys2Proof.Laws.Encoding.vwr (c : Bool) (x : Bool) (d : BitVec 7) (a : BitVec 7) (b : BitVec 7) :
    Sys2Proof.Laws.Encoding.Statement (.vwr c x d a b) :=
  ⟨_, rfl, Sys2Proof.Laws.pack_major _ _ _ (by decide) (by have := Bool.toNat_lt x; have := d.isLt; have := a.isLt; have := b.isLt; simp only [places]; omega)⟩
theorem Sys2Proof.Laws.Encoding.pmov (c : Bool) (x : Bool) (p : BitVec 3) (a : BitVec 7) : Sys2Proof.Laws.Encoding.Statement
    (.pmov c x p a) :=
  ⟨_, rfl, Sys2Proof.Laws.pack_major _ _ _ (by decide) (by have := Bool.toNat_lt x; have := p.isLt; have := a.isLt; simp only [places]; omega)⟩
theorem Sys2Proof.Laws.Encoding.pget (c : Bool) (x : Bool) (d : BitVec 7) (p : BitVec 3) : Sys2Proof.Laws.Encoding.Statement
    (.pget c x d p) :=
  ⟨_, rfl, Sys2Proof.Laws.pack_major _ _ _ (by decide) (by have := Bool.toNat_lt x; have := d.isLt; have := p.isLt; simp only [places]; omega)⟩
theorem Sys2Proof.Laws.Encoding.iaddi (c : Bool) (x : Bool) (d : BitVec 7) (a : BitVec 7) (i : BitVec 10) (lit : Option (BitVec
    25)) : Sys2Proof.Laws.Encoding.Statement (.iaddi c x d a i lit) :=
  ⟨_, rfl, Sys2Proof.Laws.pack_major _ _ _ (by decide) (by have := Bool.toNat_lt x; have := d.isLt; have := a.isLt; have := i.isLt; simp only [places]; omega)⟩
theorem Sys2Proof.Laws.Encoding.movi (c : Bool) (x : Bool) (d : BitVec 7) (i : BitVec 10) (lit : Option (BitVec 25)) :
    Sys2Proof.Laws.Encoding.Statement (.movi c x d i lit) :=
  ⟨_, rfl, Sys2Proof.Laws.pack_major _ _ _ (by decide) (by have := Bool.toNat_lt x; have := d.isLt; have := i.isLt; simp only [places]; omega)⟩
theorem Sys2Proof.Laws.Encoding.fadd (c : Bool) (x : Bool) (d : BitVec 7) (a : BitVec 7) (b : BitVec 7) :
    Sys2Proof.Laws.Encoding.Statement (.fadd c x d a b) :=
  ⟨_, rfl, Sys2Proof.Laws.pack_major _ _ _ (by decide) (by have := Bool.toNat_lt x; have := d.isLt; have := a.isLt; have := b.isLt; simp only [places]; omega)⟩
theorem Sys2Proof.Laws.Encoding.fsub (c : Bool) (x : Bool) (d : BitVec 7) (a : BitVec 7) (b : BitVec 7) :
    Sys2Proof.Laws.Encoding.Statement (.fsub c x d a b) :=
  ⟨_, rfl, Sys2Proof.Laws.pack_major _ _ _ (by decide) (by have := Bool.toNat_lt x; have := d.isLt; have := a.isLt; have := b.isLt; simp only [places]; omega)⟩
theorem Sys2Proof.Laws.Encoding.fmin (c : Bool) (x : Bool) (d : BitVec 7) (a : BitVec 7) (b : BitVec 7) :
    Sys2Proof.Laws.Encoding.Statement (.fmin c x d a b) :=
  ⟨_, rfl, Sys2Proof.Laws.pack_major _ _ _ (by decide) (by have := Bool.toNat_lt x; have := d.isLt; have := a.isLt; have := b.isLt; simp only [places]; omega)⟩
theorem Sys2Proof.Laws.Encoding.fmax (c : Bool) (x : Bool) (d : BitVec 7) (a : BitVec 7) (b : BitVec 7) :
    Sys2Proof.Laws.Encoding.Statement (.fmax c x d a b) :=
  ⟨_, rfl, Sys2Proof.Laws.pack_major _ _ _ (by decide) (by have := Bool.toNat_lt x; have := d.isLt; have := a.isLt; have := b.isLt; simp only [places]; omega)⟩
theorem Sys2Proof.Laws.Encoding.fabs (c : Bool) (x : Bool) (d : BitVec 7) (a : BitVec 7) : Sys2Proof.Laws.Encoding.Statement
    (.fabs c x d a) :=
  ⟨_, rfl, Sys2Proof.Laws.pack_major _ _ _ (by decide) (by have := Bool.toNat_lt x; have := d.isLt; have := a.isLt; simp only [places]; omega)⟩
theorem Sys2Proof.Laws.Encoding.fneg (c : Bool) (x : Bool) (d : BitVec 7) (a : BitVec 7) : Sys2Proof.Laws.Encoding.Statement
    (.fneg c x d a) :=
  ⟨_, rfl, Sys2Proof.Laws.pack_major _ _ _ (by decide) (by have := Bool.toNat_lt x; have := d.isLt; have := a.isLt; simp only [places]; omega)⟩
theorem Sys2Proof.Laws.Encoding.frnd (c : Bool) (x : Bool) (d : BitVec 7) (a : BitVec 7) : Sys2Proof.Laws.Encoding.Statement
    (.frnd c x d a) :=
  ⟨_, rfl, Sys2Proof.Laws.pack_major _ _ _ (by decide) (by have := Bool.toNat_lt x; have := d.isLt; have := a.isLt; simp only [places]; omega)⟩
theorem Sys2Proof.Laws.Encoding.fract (c : Bool) (x : Bool) (d : BitVec 7) (a : BitVec 7) : Sys2Proof.Laws.Encoding.Statement
    (.fract c x d a) :=
  ⟨_, rfl, Sys2Proof.Laws.pack_major _ _ _ (by decide) (by have := Bool.toNat_lt x; have := d.isLt; have := a.isLt; simp only [places]; omega)⟩
theorem Sys2Proof.Laws.Encoding.faddScalarB (c : Bool) (x : Bool) (d : BitVec 7) (a : BitVec 7) (s : BitVec 6) :
    Sys2Proof.Laws.Encoding.Statement (.faddScalarB c x d a s) :=
  ⟨_, rfl, Sys2Proof.Laws.pack_major _ _ _ (by decide) (by have := Bool.toNat_lt x; have := d.isLt; have := a.isLt; have := s.isLt; simp only [places]; omega)⟩
theorem Sys2Proof.Laws.Encoding.fsubScalarB (c : Bool) (x : Bool) (d : BitVec 7) (a : BitVec 7) (s : BitVec 6) :
    Sys2Proof.Laws.Encoding.Statement (.fsubScalarB c x d a s) :=
  ⟨_, rfl, Sys2Proof.Laws.pack_major _ _ _ (by decide) (by have := Bool.toNat_lt x; have := d.isLt; have := a.isLt; have := s.isLt; simp only [places]; omega)⟩
theorem Sys2Proof.Laws.Encoding.fminScalarB (c : Bool) (x : Bool) (d : BitVec 7) (a : BitVec 7) (s : BitVec 6) :
    Sys2Proof.Laws.Encoding.Statement (.fminScalarB c x d a s) :=
  ⟨_, rfl, Sys2Proof.Laws.pack_major _ _ _ (by decide) (by have := Bool.toNat_lt x; have := d.isLt; have := a.isLt; have := s.isLt; simp only [places]; omega)⟩
theorem Sys2Proof.Laws.Encoding.fmaxScalarB (c : Bool) (x : Bool) (d : BitVec 7) (a : BitVec 7) (s : BitVec 6) :
    Sys2Proof.Laws.Encoding.Statement (.fmaxScalarB c x d a s) :=
  ⟨_, rfl, Sys2Proof.Laws.pack_major _ _ _ (by decide) (by have := Bool.toNat_lt x; have := d.isLt; have := a.isLt; have := s.isLt; simp only [places]; omega)⟩
theorem Sys2Proof.Laws.Encoding.fmul (c : Bool) (x : Bool) (d : BitVec 7) (a : BitVec 7) (b : BitVec 7) :
    Sys2Proof.Laws.Encoding.Statement (.fmul c x d a b) :=
  ⟨_, rfl, Sys2Proof.Laws.pack_major _ _ _ (by decide) (by have := Bool.toNat_lt x; have := d.isLt; have := a.isLt; have := b.isLt; simp only [places]; omega)⟩
theorem Sys2Proof.Laws.Encoding.fma (c : Bool) (x : Bool) (d : BitVec 7) (a : BitVec 7) (b : BitVec 7) :
    Sys2Proof.Laws.Encoding.Statement (.fma c x d a b) :=
  ⟨_, rfl, Sys2Proof.Laws.pack_major _ _ _ (by decide) (by have := Bool.toNat_lt x; have := d.isLt; have := a.isLt; have := b.isLt; simp only [places]; omega)⟩
theorem Sys2Proof.Laws.Encoding.fms (c : Bool) (x : Bool) (d : BitVec 7) (a : BitVec 7) (b : BitVec 7) :
    Sys2Proof.Laws.Encoding.Statement (.fms c x d a b) :=
  ⟨_, rfl, Sys2Proof.Laws.pack_major _ _ _ (by decide) (by have := Bool.toNat_lt x; have := d.isLt; have := a.isLt; have := b.isLt; simp only [places]; omega)⟩
theorem Sys2Proof.Laws.Encoding.fnma (c : Bool) (x : Bool) (d : BitVec 7) (a : BitVec 7) (b : BitVec 7) :
    Sys2Proof.Laws.Encoding.Statement (.fnma c x d a b) :=
  ⟨_, rfl, Sys2Proof.Laws.pack_major _ _ _ (by decide) (by have := Bool.toNat_lt x; have := d.isLt; have := a.isLt; have := b.isLt; simp only [places]; omega)⟩
theorem Sys2Proof.Laws.Encoding.fmulScalarB (c : Bool) (x : Bool) (d : BitVec 7) (a : BitVec 7) (s : BitVec 6) :
    Sys2Proof.Laws.Encoding.Statement (.fmulScalarB c x d a s) :=
  ⟨_, rfl, Sys2Proof.Laws.pack_major _ _ _ (by decide) (by have := Bool.toNat_lt x; have := d.isLt; have := a.isLt; have := s.isLt; simp only [places]; omega)⟩
theorem Sys2Proof.Laws.Encoding.fmaScalarB (c : Bool) (x : Bool) (d : BitVec 7) (a : BitVec 7) (s : BitVec 6) :
    Sys2Proof.Laws.Encoding.Statement (.fmaScalarB c x d a s) :=
  ⟨_, rfl, Sys2Proof.Laws.pack_major _ _ _ (by decide) (by have := Bool.toNat_lt x; have := d.isLt; have := a.isLt; have := s.isLt; simp only [places]; omega)⟩
theorem Sys2Proof.Laws.Encoding.fmsScalarB (c : Bool) (x : Bool) (d : BitVec 7) (a : BitVec 7) (s : BitVec 6) :
    Sys2Proof.Laws.Encoding.Statement (.fmsScalarB c x d a s) :=
  ⟨_, rfl, Sys2Proof.Laws.pack_major _ _ _ (by decide) (by have := Bool.toNat_lt x; have := d.isLt; have := a.isLt; have := s.isLt; simp only [places]; omega)⟩
theorem Sys2Proof.Laws.Encoding.fnmaScalarB (c : Bool) (x : Bool) (d : BitVec 7) (a : BitVec 7) (s : BitVec 6) :
    Sys2Proof.Laws.Encoding.Statement (.fnmaScalarB c x d a s) :=
  ⟨_, rfl, Sys2Proof.Laws.pack_major _ _ _ (by decide) (by have := Bool.toNat_lt x; have := d.isLt; have := a.isLt; have := s.isLt; simp only [places]; omega)⟩
theorem Sys2Proof.Laws.Encoding.fcmpEq (c : Bool) (x : Bool) (p : BitVec 3) (a : BitVec 7) (b : BitVec 7) :
    Sys2Proof.Laws.Encoding.Statement (.fcmpEq c x p a b) :=
  ⟨_, rfl, Sys2Proof.Laws.pack_major _ _ _ (by decide) (by have := Bool.toNat_lt x; have := p.isLt; have := a.isLt; have := b.isLt; simp only [places]; omega)⟩
theorem Sys2Proof.Laws.Encoding.fcmpNe (c : Bool) (x : Bool) (p : BitVec 3) (a : BitVec 7) (b : BitVec 7) :
    Sys2Proof.Laws.Encoding.Statement (.fcmpNe c x p a b) :=
  ⟨_, rfl, Sys2Proof.Laws.pack_major _ _ _ (by decide) (by have := Bool.toNat_lt x; have := p.isLt; have := a.isLt; have := b.isLt; simp only [places]; omega)⟩
theorem Sys2Proof.Laws.Encoding.fcmpLt (c : Bool) (x : Bool) (p : BitVec 3) (a : BitVec 7) (b : BitVec 7) :
    Sys2Proof.Laws.Encoding.Statement (.fcmpLt c x p a b) :=
  ⟨_, rfl, Sys2Proof.Laws.pack_major _ _ _ (by decide) (by have := Bool.toNat_lt x; have := p.isLt; have := a.isLt; have := b.isLt; simp only [places]; omega)⟩
theorem Sys2Proof.Laws.Encoding.fcmpLe (c : Bool) (x : Bool) (p : BitVec 3) (a : BitVec 7) (b : BitVec 7) :
    Sys2Proof.Laws.Encoding.Statement (.fcmpLe c x p a b) :=
  ⟨_, rfl, Sys2Proof.Laws.pack_major _ _ _ (by decide) (by have := Bool.toNat_lt x; have := p.isLt; have := a.isLt; have := b.isLt; simp only [places]; omega)⟩
theorem Sys2Proof.Laws.Encoding.fcmpGt (c : Bool) (x : Bool) (p : BitVec 3) (a : BitVec 7) (b : BitVec 7) :
    Sys2Proof.Laws.Encoding.Statement (.fcmpGt c x p a b) :=
  ⟨_, rfl, Sys2Proof.Laws.pack_major _ _ _ (by decide) (by have := Bool.toNat_lt x; have := p.isLt; have := a.isLt; have := b.isLt; simp only [places]; omega)⟩
theorem Sys2Proof.Laws.Encoding.fcmpGe (c : Bool) (x : Bool) (p : BitVec 3) (a : BitVec 7) (b : BitVec 7) :
    Sys2Proof.Laws.Encoding.Statement (.fcmpGe c x p a b) :=
  ⟨_, rfl, Sys2Proof.Laws.pack_major _ _ _ (by decide) (by have := Bool.toNat_lt x; have := p.isLt; have := a.isLt; have := b.isLt; simp only [places]; omega)⟩
theorem Sys2Proof.Laws.Encoding.fcmpUnord (c : Bool) (x : Bool) (p : BitVec 3) (a : BitVec 7) (b : BitVec 7) :
    Sys2Proof.Laws.Encoding.Statement (.fcmpUnord c x p a b) :=
  ⟨_, rfl, Sys2Proof.Laws.pack_major _ _ _ (by decide) (by have := Bool.toNat_lt x; have := p.isLt; have := a.isLt; have := b.isLt; simp only [places]; omega)⟩
theorem Sys2Proof.Laws.Encoding.fcmpOrd (c : Bool) (x : Bool) (p : BitVec 3) (a : BitVec 7) (b : BitVec 7) :
    Sys2Proof.Laws.Encoding.Statement (.fcmpOrd c x p a b) :=
  ⟨_, rfl, Sys2Proof.Laws.pack_major _ _ _ (by decide) (by have := Bool.toNat_lt x; have := p.isLt; have := a.isLt; have := b.isLt; simp only [places]; omega)⟩
theorem Sys2Proof.Laws.Encoding.haddF16x2 (c : Bool) (x : Bool) (d : BitVec 7) (a : BitVec 7) (b : BitVec 7) :
    Sys2Proof.Laws.Encoding.Statement (.haddF16x2 c x d a b) :=
  ⟨_, rfl, Sys2Proof.Laws.pack_major _ _ _ (by decide) (by have := Bool.toNat_lt x; have := d.isLt; have := a.isLt; have := b.isLt; simp only [places]; omega)⟩
theorem Sys2Proof.Laws.Encoding.hmulF16x2 (c : Bool) (x : Bool) (d : BitVec 7) (a : BitVec 7) (b : BitVec 7) :
    Sys2Proof.Laws.Encoding.Statement (.hmulF16x2 c x d a b) :=
  ⟨_, rfl, Sys2Proof.Laws.pack_major _ _ _ (by decide) (by have := Bool.toNat_lt x; have := d.isLt; have := a.isLt; have := b.isLt; simp only [places]; omega)⟩
theorem Sys2Proof.Laws.Encoding.hfmaF16x2 (c : Bool) (x : Bool) (d : BitVec 7) (a : BitVec 7) (b : BitVec 7) :
    Sys2Proof.Laws.Encoding.Statement (.hfmaF16x2 c x d a b) :=
  ⟨_, rfl, Sys2Proof.Laws.pack_major _ _ _ (by decide) (by have := Bool.toNat_lt x; have := d.isLt; have := a.isLt; have := b.isLt; simp only [places]; omega)⟩
theorem Sys2Proof.Laws.Encoding.haddBf16x2 (c : Bool) (x : Bool) (d : BitVec 7) (a : BitVec 7) (b : BitVec 7) :
    Sys2Proof.Laws.Encoding.Statement (.haddBf16x2 c x d a b) :=
  ⟨_, rfl, Sys2Proof.Laws.pack_major _ _ _ (by decide) (by have := Bool.toNat_lt x; have := d.isLt; have := a.isLt; have := b.isLt; simp only [places]; omega)⟩
theorem Sys2Proof.Laws.Encoding.hmulBf16x2 (c : Bool) (x : Bool) (d : BitVec 7) (a : BitVec 7) (b : BitVec 7) :
    Sys2Proof.Laws.Encoding.Statement (.hmulBf16x2 c x d a b) :=
  ⟨_, rfl, Sys2Proof.Laws.pack_major _ _ _ (by decide) (by have := Bool.toNat_lt x; have := d.isLt; have := a.isLt; have := b.isLt; simp only [places]; omega)⟩
theorem Sys2Proof.Laws.Encoding.hfmaBf16x2 (c : Bool) (x : Bool) (d : BitVec 7) (a : BitVec 7) (b : BitVec 7) :
    Sys2Proof.Laws.Encoding.Statement (.hfmaBf16x2 c x d a b) :=
  ⟨_, rfl, Sys2Proof.Laws.pack_major _ _ _ (by decide) (by have := Bool.toNat_lt x; have := d.isLt; have := a.isLt; have := b.isLt; simp only [places]; omega)⟩
theorem Sys2Proof.Laws.Encoding.hminF16x2 (c : Bool) (x : Bool) (d : BitVec 7) (a : BitVec 7) (b : BitVec 7) :
    Sys2Proof.Laws.Encoding.Statement (.hminF16x2 c x d a b) :=
  ⟨_, rfl, Sys2Proof.Laws.pack_major _ _ _ (by decide) (by have := Bool.toNat_lt x; have := d.isLt; have := a.isLt; have := b.isLt; simp only [places]; omega)⟩
theorem Sys2Proof.Laws.Encoding.hmaxF16x2 (c : Bool) (x : Bool) (d : BitVec 7) (a : BitVec 7) (b : BitVec 7) :
    Sys2Proof.Laws.Encoding.Statement (.hmaxF16x2 c x d a b) :=
  ⟨_, rfl, Sys2Proof.Laws.pack_major _ _ _ (by decide) (by have := Bool.toNat_lt x; have := d.isLt; have := a.isLt; have := b.isLt; simp only [places]; omega)⟩
theorem Sys2Proof.Laws.Encoding.frcp (c : Bool) (x : Bool) (d : BitVec 7) (a : BitVec 7) : Sys2Proof.Laws.Encoding.Statement
    (.frcp c x d a) :=
  ⟨_, rfl, Sys2Proof.Laws.pack_major _ _ _ (by decide) (by have := Bool.toNat_lt x; have := d.isLt; have := a.isLt; simp only [places]; omega)⟩
theorem Sys2Proof.Laws.Encoding.frsq (c : Bool) (x : Bool) (d : BitVec 7) (a : BitVec 7) : Sys2Proof.Laws.Encoding.Statement
    (.frsq c x d a) :=
  ⟨_, rfl, Sys2Proof.Laws.pack_major _ _ _ (by decide) (by have := Bool.toNat_lt x; have := d.isLt; have := a.isLt; simp only [places]; omega)⟩
theorem Sys2Proof.Laws.Encoding.fsqrt (c : Bool) (x : Bool) (d : BitVec 7) (a : BitVec 7) : Sys2Proof.Laws.Encoding.Statement
    (.fsqrt c x d a) :=
  ⟨_, rfl, Sys2Proof.Laws.pack_major _ _ _ (by decide) (by have := Bool.toNat_lt x; have := d.isLt; have := a.isLt; simp only [places]; omega)⟩
theorem Sys2Proof.Laws.Encoding.fexp2 (c : Bool) (x : Bool) (d : BitVec 7) (a : BitVec 7) : Sys2Proof.Laws.Encoding.Statement
    (.fexp2 c x d a) :=
  ⟨_, rfl, Sys2Proof.Laws.pack_major _ _ _ (by decide) (by have := Bool.toNat_lt x; have := d.isLt; have := a.isLt; simp only [places]; omega)⟩
theorem Sys2Proof.Laws.Encoding.flog2 (c : Bool) (x : Bool) (d : BitVec 7) (a : BitVec 7) : Sys2Proof.Laws.Encoding.Statement
    (.flog2 c x d a) :=
  ⟨_, rfl, Sys2Proof.Laws.pack_major _ _ _ (by decide) (by have := Bool.toNat_lt x; have := d.isLt; have := a.isLt; simp only [places]; omega)⟩
theorem Sys2Proof.Laws.Encoding.fsin (c : Bool) (x : Bool) (d : BitVec 7) (a : BitVec 7) : Sys2Proof.Laws.Encoding.Statement
    (.fsin c x d a) :=
  ⟨_, rfl, Sys2Proof.Laws.pack_major _ _ _ (by decide) (by have := Bool.toNat_lt x; have := d.isLt; have := a.isLt; simp only [places]; omega)⟩
theorem Sys2Proof.Laws.Encoding.fcos (c : Bool) (x : Bool) (d : BitVec 7) (a : BitVec 7) : Sys2Proof.Laws.Encoding.Statement
    (.fcos c x d a) :=
  ⟨_, rfl, Sys2Proof.Laws.pack_major _ _ _ (by decide) (by have := Bool.toNat_lt x; have := d.isLt; have := a.isLt; simp only [places]; omega)⟩
theorem Sys2Proof.Laws.Encoding.ftanh (c : Bool) (x : Bool) (d : BitVec 7) (a : BitVec 7) : Sys2Proof.Laws.Encoding.Statement
    (.ftanh c x d a) :=
  ⟨_, rfl, Sys2Proof.Laws.pack_major _ _ _ (by decide) (by have := Bool.toNat_lt x; have := d.isLt; have := a.isLt; simp only [places]; omega)⟩
theorem Sys2Proof.Laws.Encoding.dadd (c : Bool) (x : Bool) (d : BitVec 7) (a : BitVec 7) (b : BitVec 7) :
    Sys2Proof.Laws.Encoding.Statement (.dadd c x d a b) :=
  ⟨_, rfl, Sys2Proof.Laws.pack_major _ _ _ (by decide) (by have := Bool.toNat_lt x; have := d.isLt; have := a.isLt; have := b.isLt; simp only [places]; omega)⟩
theorem Sys2Proof.Laws.Encoding.dsub (c : Bool) (x : Bool) (d : BitVec 7) (a : BitVec 7) (b : BitVec 7) :
    Sys2Proof.Laws.Encoding.Statement (.dsub c x d a b) :=
  ⟨_, rfl, Sys2Proof.Laws.pack_major _ _ _ (by decide) (by have := Bool.toNat_lt x; have := d.isLt; have := a.isLt; have := b.isLt; simp only [places]; omega)⟩
theorem Sys2Proof.Laws.Encoding.dmul (c : Bool) (x : Bool) (d : BitVec 7) (a : BitVec 7) (b : BitVec 7) :
    Sys2Proof.Laws.Encoding.Statement (.dmul c x d a b) :=
  ⟨_, rfl, Sys2Proof.Laws.pack_major _ _ _ (by decide) (by have := Bool.toNat_lt x; have := d.isLt; have := a.isLt; have := b.isLt; simp only [places]; omega)⟩
theorem Sys2Proof.Laws.Encoding.dfma (c : Bool) (x : Bool) (d : BitVec 7) (a : BitVec 7) (b : BitVec 7) :
    Sys2Proof.Laws.Encoding.Statement (.dfma c x d a b) :=
  ⟨_, rfl, Sys2Proof.Laws.pack_major _ _ _ (by decide) (by have := Bool.toNat_lt x; have := d.isLt; have := a.isLt; have := b.isLt; simp only [places]; omega)⟩
theorem Sys2Proof.Laws.Encoding.dmin (c : Bool) (x : Bool) (d : BitVec 7) (a : BitVec 7) (b : BitVec 7) :
    Sys2Proof.Laws.Encoding.Statement (.dmin c x d a b) :=
  ⟨_, rfl, Sys2Proof.Laws.pack_major _ _ _ (by decide) (by have := Bool.toNat_lt x; have := d.isLt; have := a.isLt; have := b.isLt; simp only [places]; omega)⟩
theorem Sys2Proof.Laws.Encoding.dmax (c : Bool) (x : Bool) (d : BitVec 7) (a : BitVec 7) (b : BitVec 7) :
    Sys2Proof.Laws.Encoding.Statement (.dmax c x d a b) :=
  ⟨_, rfl, Sys2Proof.Laws.pack_major _ _ _ (by decide) (by have := Bool.toNat_lt x; have := d.isLt; have := a.isLt; have := b.isLt; simp only [places]; omega)⟩
theorem Sys2Proof.Laws.Encoding.drcp (c : Bool) (x : Bool) (d : BitVec 7) (a : BitVec 7) : Sys2Proof.Laws.Encoding.Statement
    (.drcp c x d a) :=
  ⟨_, rfl, Sys2Proof.Laws.pack_major _ _ _ (by decide) (by have := Bool.toNat_lt x; have := d.isLt; have := a.isLt; simp only [places]; omega)⟩
theorem Sys2Proof.Laws.Encoding.dsqrt (c : Bool) (x : Bool) (d : BitVec 7) (a : BitVec 7) : Sys2Proof.Laws.Encoding.Statement
    (.dsqrt c x d a) :=
  ⟨_, rfl, Sys2Proof.Laws.pack_major _ _ _ (by decide) (by have := Bool.toNat_lt x; have := d.isLt; have := a.isLt; simp only [places]; omega)⟩
theorem Sys2Proof.Laws.Encoding.cvt (c : Bool) (x : Bool) (t : BitVec 3) (d : BitVec 7) (a : BitVec 7) (r : BitVec 3) (s : BitVec
    3) : Sys2Proof.Laws.Encoding.Statement (.cvt c x t d a r s) :=
  ⟨_, rfl, Sys2Proof.Laws.pack_major _ _ _ (by decide) (by have := Bool.toNat_lt x; have := t.isLt; have := d.isLt; have := a.isLt; have := r.isLt; have := s.isLt; simp only [places]; omega)⟩
theorem Sys2Proof.Laws.Encoding.cvtnE4m3 (c : Bool) (x : Bool) (d : BitVec 7) (a : BitVec 7) : Sys2Proof.Laws.Encoding.Statement
    (.cvtnE4m3 c x d a) :=
  ⟨_, rfl, Sys2Proof.Laws.pack_major _ _ _ (by decide) (by have := Bool.toNat_lt x; have := d.isLt; have := a.isLt; simp only [places]; omega)⟩
theorem Sys2Proof.Laws.Encoding.cvtnE4m3Sr (c : Bool) (x : Bool) (d : BitVec 7) (a : BitVec 7) : Sys2Proof.Laws.Encoding.Statement
    (.cvtnE4m3Sr c x d a) :=
  ⟨_, rfl, Sys2Proof.Laws.pack_major _ _ _ (by decide) (by have := Bool.toNat_lt x; have := d.isLt; have := a.isLt; simp only [places]; omega)⟩
theorem Sys2Proof.Laws.Encoding.cvtnE5m2 (c : Bool) (x : Bool) (d : BitVec 7) (a : BitVec 7) : Sys2Proof.Laws.Encoding.Statement
    (.cvtnE5m2 c x d a) :=
  ⟨_, rfl, Sys2Proof.Laws.pack_major _ _ _ (by decide) (by have := Bool.toNat_lt x; have := d.isLt; have := a.isLt; simp only [places]; omega)⟩
theorem Sys2Proof.Laws.Encoding.cvtnE5m2Sr (c : Bool) (x : Bool) (d : BitVec 7) (a : BitVec 7) : Sys2Proof.Laws.Encoding.Statement
    (.cvtnE5m2Sr c x d a) :=
  ⟨_, rfl, Sys2Proof.Laws.pack_major _ _ _ (by decide) (by have := Bool.toNat_lt x; have := d.isLt; have := a.isLt; simp only [places]; omega)⟩
theorem Sys2Proof.Laws.Encoding.cvtnE2m1b (c : Bool) (x : Bool) (d : BitVec 7) (a : BitVec 7) (b : BitVec 7) :
    Sys2Proof.Laws.Encoding.Statement (.cvtnE2m1b c x d a b) :=
  ⟨_, rfl, Sys2Proof.Laws.pack_major _ _ _ (by decide) (by have := Bool.toNat_lt x; have := d.isLt; have := a.isLt; have := b.isLt; simp only [places]; omega)⟩
theorem Sys2Proof.Laws.Encoding.cvtnE2m1bSr (c : Bool) (x : Bool) (d : BitVec 7) (a : BitVec 7) (b : BitVec 7) :
    Sys2Proof.Laws.Encoding.Statement (.cvtnE2m1bSr c x d a b) :=
  ⟨_, rfl, Sys2Proof.Laws.pack_major _ _ _ (by decide) (by have := Bool.toNat_lt x; have := d.isLt; have := a.isLt; have := b.isLt; simp only [places]; omega)⟩
theorem Sys2Proof.Laws.Encoding.cvtwE4m3 (c : Bool) (x : Bool) (d : BitVec 7) (a : BitVec 7) : Sys2Proof.Laws.Encoding.Statement
    (.cvtwE4m3 c x d a) :=
  ⟨_, rfl, Sys2Proof.Laws.pack_major _ _ _ (by decide) (by have := Bool.toNat_lt x; have := d.isLt; have := a.isLt; simp only [places]; omega)⟩
theorem Sys2Proof.Laws.Encoding.cvtwE5m2 (c : Bool) (x : Bool) (d : BitVec 7) (a : BitVec 7) : Sys2Proof.Laws.Encoding.Statement
    (.cvtwE5m2 c x d a) :=
  ⟨_, rfl, Sys2Proof.Laws.pack_major _ _ _ (by decide) (by have := Bool.toNat_lt x; have := d.isLt; have := a.isLt; simp only [places]; omega)⟩
theorem Sys2Proof.Laws.Encoding.xrel (c : Bool) (x : Bool) (d : BitVec 7) (a : BitVec 7) (s : BitVec 6) :
    Sys2Proof.Laws.Encoding.Statement (.xrel c x d a s) :=
  ⟨_, rfl, Sys2Proof.Laws.pack_major _ _ _ (by decide) (by have := Bool.toNat_lt x; have := d.isLt; have := a.isLt; have := s.isLt; simp only [places]; omega)⟩
theorem Sys2Proof.Laws.Encoding.xrel3 (c : Bool) (x : Bool) (d : BitVec 7) (a : BitVec 7) (s : BitVec 6) :
    Sys2Proof.Laws.Encoding.Statement (.xrel3 c x d a s) :=
  ⟨_, rfl, Sys2Proof.Laws.pack_major _ _ _ (by decide) (by have := Bool.toNat_lt x; have := d.isLt; have := a.isLt; have := s.isLt; simp only [places]; omega)⟩
theorem Sys2Proof.Laws.Encoding.dcmpEq (c : Bool) (x : Bool) (p : BitVec 3) (a : BitVec 7) (b : BitVec 7) :
    Sys2Proof.Laws.Encoding.Statement (.dcmpEq c x p a b) :=
  ⟨_, rfl, Sys2Proof.Laws.pack_major _ _ _ (by decide) (by have := Bool.toNat_lt x; have := p.isLt; have := a.isLt; have := b.isLt; simp only [places]; omega)⟩
theorem Sys2Proof.Laws.Encoding.dcmpLt (c : Bool) (x : Bool) (p : BitVec 3) (a : BitVec 7) (b : BitVec 7) :
    Sys2Proof.Laws.Encoding.Statement (.dcmpLt c x p a b) :=
  ⟨_, rfl, Sys2Proof.Laws.pack_major _ _ _ (by decide) (by have := Bool.toNat_lt x; have := p.isLt; have := a.isLt; have := b.isLt; simp only [places]; omega)⟩
theorem Sys2Proof.Laws.Encoding.dcmpLe (c : Bool) (x : Bool) (p : BitVec 3) (a : BitVec 7) (b : BitVec 7) :
    Sys2Proof.Laws.Encoding.Statement (.dcmpLe c x p a b) :=
  ⟨_, rfl, Sys2Proof.Laws.pack_major _ _ _ (by decide) (by have := Bool.toNat_lt x; have := p.isLt; have := a.isLt; have := b.isLt; simp only [places]; omega)⟩
theorem Sys2Proof.Laws.Encoding.dcmpUnord (c : Bool) (x : Bool) (p : BitVec 3) (a : BitVec 7) (b : BitVec 7) :
    Sys2Proof.Laws.Encoding.Statement (.dcmpUnord c x p a b) :=
  ⟨_, rfl, Sys2Proof.Laws.pack_major _ _ _ (by decide) (by have := Bool.toNat_lt x; have := p.isLt; have := a.isLt; have := b.isLt; simp only [places]; omega)⟩
theorem Sys2Proof.Laws.Encoding.shflIdx (c : Bool) (x : Bool) (d : BitVec 7) (a : BitVec 7) (b : BitVec 7) :
    Sys2Proof.Laws.Encoding.Statement (.shflIdx c x d a b) :=
  ⟨_, rfl, Sys2Proof.Laws.pack_major _ _ _ (by decide) (by have := Bool.toNat_lt x; have := d.isLt; have := a.isLt; have := b.isLt; simp only [places]; omega)⟩
theorem Sys2Proof.Laws.Encoding.shflUp (c : Bool) (x : Bool) (d : BitVec 7) (a : BitVec 7) (b : BitVec 7) :
    Sys2Proof.Laws.Encoding.Statement (.shflUp c x d a b) :=
  ⟨_, rfl, Sys2Proof.Laws.pack_major _ _ _ (by decide) (by have := Bool.toNat_lt x; have := d.isLt; have := a.isLt; have := b.isLt; simp only [places]; omega)⟩
theorem Sys2Proof.Laws.Encoding.shflDown (c : Bool) (x : Bool) (d : BitVec 7) (a : BitVec 7) (b : BitVec 7) :
    Sys2Proof.Laws.Encoding.Statement (.shflDown c x d a b) :=
  ⟨_, rfl, Sys2Proof.Laws.pack_major _ _ _ (by decide) (by have := Bool.toNat_lt x; have := d.isLt; have := a.isLt; have := b.isLt; simp only [places]; omega)⟩
theorem Sys2Proof.Laws.Encoding.shflXor (c : Bool) (x : Bool) (d : BitVec 7) (a : BitVec 7) (b : BitVec 7) :
    Sys2Proof.Laws.Encoding.Statement (.shflXor c x d a b) :=
  ⟨_, rfl, Sys2Proof.Laws.pack_major _ _ _ (by decide) (by have := Bool.toNat_lt x; have := d.isLt; have := a.isLt; have := b.isLt; simp only [places]; omega)⟩
theorem Sys2Proof.Laws.Encoding.voteAny (c : Bool) (x : Bool) (d : BitVec 7) (p : BitVec 3) : Sys2Proof.Laws.Encoding.Statement
    (.voteAny c x d p) :=
  ⟨_, rfl, Sys2Proof.Laws.pack_major _ _ _ (by decide) (by have := Bool.toNat_lt x; have := d.isLt; have := p.isLt; simp only [places]; omega)⟩
theorem Sys2Proof.Laws.Encoding.voteAll (c : Bool) (x : Bool) (d : BitVec 7) (p : BitVec 3) : Sys2Proof.Laws.Encoding.Statement
    (.voteAll c x d p) :=
  ⟨_, rfl, Sys2Proof.Laws.pack_major _ _ _ (by decide) (by have := Bool.toNat_lt x; have := d.isLt; have := p.isLt; simp only [places]; omega)⟩
theorem Sys2Proof.Laws.Encoding.voteBallot (c : Bool) (x : Bool) (d : BitVec 7) (p : BitVec 3) : Sys2Proof.Laws.Encoding.Statement
    (.voteBallot c x d p) :=
  ⟨_, rfl, Sys2Proof.Laws.pack_major _ _ _ (by decide) (by have := Bool.toNat_lt x; have := d.isLt; have := p.isLt; simp only [places]; omega)⟩
theorem Sys2Proof.Laws.Encoding.qswz (c : Bool) (x : Bool) (d : BitVec 7) (a : BitVec 7) (k : BitVec 2) :
    Sys2Proof.Laws.Encoding.Statement (.qswz c x d a k) :=
  ⟨_, rfl, Sys2Proof.Laws.pack_major _ _ _ (by decide) (by have := Bool.toNat_lt x; have := d.isLt; have := a.isLt; have := k.isLt; simp only [places]; omega)⟩
theorem Sys2Proof.Laws.Encoding.redAddS32 (c : Bool) (x : Bool) (d : BitVec 7) (a : BitVec 7) : Sys2Proof.Laws.Encoding.Statement
    (.redAddS32 c x d a) :=
  ⟨_, rfl, Sys2Proof.Laws.pack_major _ _ _ (by decide) (by have := Bool.toNat_lt x; have := d.isLt; have := a.isLt; simp only [places]; omega)⟩
theorem Sys2Proof.Laws.Encoding.redAddF32 (c : Bool) (x : Bool) (d : BitVec 7) (a : BitVec 7) : Sys2Proof.Laws.Encoding.Statement
    (.redAddF32 c x d a) :=
  ⟨_, rfl, Sys2Proof.Laws.pack_major _ _ _ (by decide) (by have := Bool.toNat_lt x; have := d.isLt; have := a.isLt; simp only [places]; omega)⟩
theorem Sys2Proof.Laws.Encoding.redMinF32 (c : Bool) (x : Bool) (d : BitVec 7) (a : BitVec 7) : Sys2Proof.Laws.Encoding.Statement
    (.redMinF32 c x d a) :=
  ⟨_, rfl, Sys2Proof.Laws.pack_major _ _ _ (by decide) (by have := Bool.toNat_lt x; have := d.isLt; have := a.isLt; simp only [places]; omega)⟩
theorem Sys2Proof.Laws.Encoding.redMaxF32 (c : Bool) (x : Bool) (d : BitVec 7) (a : BitVec 7) : Sys2Proof.Laws.Encoding.Statement
    (.redMaxF32 c x d a) :=
  ⟨_, rfl, Sys2Proof.Laws.pack_major _ _ _ (by decide) (by have := Bool.toNat_lt x; have := d.isLt; have := a.isLt; simp only [places]; omega)⟩
theorem Sys2Proof.Laws.Encoding.scanAddS32 (c : Bool) (x : Bool) (d : BitVec 7) (a : BitVec 7) : Sys2Proof.Laws.Encoding.Statement
    (.scanAddS32 c x d a) :=
  ⟨_, rfl, Sys2Proof.Laws.pack_major _ _ _ (by decide) (by have := Bool.toNat_lt x; have := d.isLt; have := a.isLt; simp only [places]; omega)⟩
theorem Sys2Proof.Laws.Encoding.scanAddF32 (c : Bool) (x : Bool) (d : BitVec 7) (a : BitVec 7) : Sys2Proof.Laws.Encoding.Statement
    (.scanAddF32 c x d a) :=
  ⟨_, rfl, Sys2Proof.Laws.pack_major _ _ _ (by decide) (by have := Bool.toNat_lt x; have := d.isLt; have := a.isLt; simp only [places]; omega)⟩
theorem Sys2Proof.Laws.Encoding.redAnd (c : Bool) (x : Bool) (d : BitVec 7) (a : BitVec 7) : Sys2Proof.Laws.Encoding.Statement
    (.redAnd c x d a) :=
  ⟨_, rfl, Sys2Proof.Laws.pack_major _ _ _ (by decide) (by have := Bool.toNat_lt x; have := d.isLt; have := a.isLt; simp only [places]; omega)⟩
theorem Sys2Proof.Laws.Encoding.redOr (c : Bool) (x : Bool) (d : BitVec 7) (a : BitVec 7) : Sys2Proof.Laws.Encoding.Statement
    (.redOr c x d a) :=
  ⟨_, rfl, Sys2Proof.Laws.pack_major _ _ _ (by decide) (by have := Bool.toNat_lt x; have := d.isLt; have := a.isLt; simp only [places]; omega)⟩
theorem Sys2Proof.Laws.Encoding.ddx (c : Bool) (x : Bool) (d : BitVec 7) (a : BitVec 7) (b : BitVec 7) :
    Sys2Proof.Laws.Encoding.Statement (.ddx c x d a b) :=
  ⟨_, rfl, Sys2Proof.Laws.pack_major _ _ _ (by decide) (by have := Bool.toNat_lt x; have := d.isLt; have := a.isLt; have := b.isLt; simp only [places]; omega)⟩
theorem Sys2Proof.Laws.Encoding.ddy (c : Bool) (x : Bool) (d : BitVec 7) (a : BitVec 7) (b : BitVec 7) :
    Sys2Proof.Laws.Encoding.Statement (.ddy c x d a b) :=
  ⟨_, rfl, Sys2Proof.Laws.pack_major _ _ _ (by decide) (by have := Bool.toNat_lt x; have := d.isLt; have := a.isLt; have := b.isLt; simp only [places]; omega)⟩
theorem Sys2Proof.Laws.Encoding.ipa (c : Bool) (x : Bool) (d : BitVec 7) (a : BitVec 7) (n : BitVec 7) :
    Sys2Proof.Laws.Encoding.Statement (.ipa c x d a n) :=
  ⟨_, rfl, Sys2Proof.Laws.pack_major _ _ _ (by decide) (by have := Bool.toNat_lt x; have := d.isLt; have := a.isLt; have := n.isLt; simp only [places]; omega)⟩
theorem Sys2Proof.Laws.Encoding.ipac (c : Bool) (x : Bool) (d : BitVec 7) (a : BitVec 7) (n : BitVec 7) :
    Sys2Proof.Laws.Encoding.Statement (.ipac c x d a n) :=
  ⟨_, rfl, Sys2Proof.Laws.pack_major _ _ _ (by decide) (by have := Bool.toNat_lt x; have := d.isLt; have := a.isLt; have := n.isLt; simp only [places]; omega)⟩
theorem Sys2Proof.Laws.Encoding.rtravInit (c : Bool) (x : Bool) (d : BitVec 7) (a : BitVec 7) (b : BitVec 7) :
    Sys2Proof.Laws.Encoding.Statement (.rtravInit c x d a b) :=
  ⟨_, rfl, Sys2Proof.Laws.pack_major _ _ _ (by decide) (by have := Bool.toNat_lt x; have := d.isLt; have := a.isLt; have := b.isLt; simp only [places]; omega)⟩
theorem Sys2Proof.Laws.Encoding.rtravStep (c : Bool) (x : Bool) (d : BitVec 7) : Sys2Proof.Laws.Encoding.Statement (.rtravStep c x
    d) :=
  ⟨_, rfl, Sys2Proof.Laws.pack_major _ _ _ (by decide) (by have := Bool.toNat_lt x; have := d.isLt; simp only [places]; omega)⟩
theorem Sys2Proof.Laws.Encoding.rhit (c : Bool) (x : Bool) (d : BitVec 7) : Sys2Proof.Laws.Encoding.Statement (.rhit c x d) :=
  ⟨_, rfl, Sys2Proof.Laws.pack_major _ _ _ (by decide) (by have := Bool.toNat_lt x; have := d.isLt; simp only [places]; omega)⟩
theorem Sys2Proof.Laws.Encoding.sadd (c : Bool) (d : BitVec 6) (a : BitVec 6) (b : BitVec 6) : Sys2Proof.Laws.Encoding.Statement
    (.sadd c d a b) :=
  ⟨_, rfl, Sys2Proof.Laws.pack_major _ _ _ (by decide) (by have := d.isLt; have := a.isLt; have := b.isLt; simp only [places]; omega)⟩
theorem Sys2Proof.Laws.Encoding.ssub (c : Bool) (d : BitVec 6) (a : BitVec 6) (b : BitVec 6) : Sys2Proof.Laws.Encoding.Statement
    (.ssub c d a b) :=
  ⟨_, rfl, Sys2Proof.Laws.pack_major _ _ _ (by decide) (by have := d.isLt; have := a.isLt; have := b.isLt; simp only [places]; omega)⟩
theorem Sys2Proof.Laws.Encoding.smul (c : Bool) (d : BitVec 6) (a : BitVec 6) (b : BitVec 6) : Sys2Proof.Laws.Encoding.Statement
    (.smul c d a b) :=
  ⟨_, rfl, Sys2Proof.Laws.pack_major _ _ _ (by decide) (by have := d.isLt; have := a.isLt; have := b.isLt; simp only [places]; omega)⟩
theorem Sys2Proof.Laws.Encoding.smulh (c : Bool) (d : BitVec 6) (a : BitVec 6) (b : BitVec 6) : Sys2Proof.Laws.Encoding.Statement
    (.smulh c d a b) :=
  ⟨_, rfl, Sys2Proof.Laws.pack_major _ _ _ (by decide) (by have := d.isLt; have := a.isLt; have := b.isLt; simp only [places]; omega)⟩
theorem Sys2Proof.Laws.Encoding.sand (c : Bool) (d : BitVec 6) (a : BitVec 6) (b : BitVec 6) : Sys2Proof.Laws.Encoding.Statement
    (.sand c d a b) :=
  ⟨_, rfl, Sys2Proof.Laws.pack_major _ _ _ (by decide) (by have := d.isLt; have := a.isLt; have := b.isLt; simp only [places]; omega)⟩
theorem Sys2Proof.Laws.Encoding.sor (c : Bool) (d : BitVec 6) (a : BitVec 6) (b : BitVec 6) : Sys2Proof.Laws.Encoding.Statement
    (.sor c d a b) :=
  ⟨_, rfl, Sys2Proof.Laws.pack_major _ _ _ (by decide) (by have := d.isLt; have := a.isLt; have := b.isLt; simp only [places]; omega)⟩
theorem Sys2Proof.Laws.Encoding.sxor (c : Bool) (d : BitVec 6) (a : BitVec 6) (b : BitVec 6) : Sys2Proof.Laws.Encoding.Statement
    (.sxor c d a b) :=
  ⟨_, rfl, Sys2Proof.Laws.pack_major _ _ _ (by decide) (by have := d.isLt; have := a.isLt; have := b.isLt; simp only [places]; omega)⟩
theorem Sys2Proof.Laws.Encoding.sandn (c : Bool) (d : BitVec 6) (a : BitVec 6) (b : BitVec 6) : Sys2Proof.Laws.Encoding.Statement
    (.sandn c d a b) :=
  ⟨_, rfl, Sys2Proof.Laws.pack_major _ _ _ (by decide) (by have := d.isLt; have := a.isLt; have := b.isLt; simp only [places]; omega)⟩
theorem Sys2Proof.Laws.Encoding.sshl (c : Bool) (d : BitVec 6) (a : BitVec 6) (b : BitVec 6) : Sys2Proof.Laws.Encoding.Statement
    (.sshl c d a b) :=
  ⟨_, rfl, Sys2Proof.Laws.pack_major _ _ _ (by decide) (by have := d.isLt; have := a.isLt; have := b.isLt; simp only [places]; omega)⟩
theorem Sys2Proof.Laws.Encoding.sshr (c : Bool) (d : BitVec 6) (a : BitVec 6) (b : BitVec 6) : Sys2Proof.Laws.Encoding.Statement
    (.sshr c d a b) :=
  ⟨_, rfl, Sys2Proof.Laws.pack_major _ _ _ (by decide) (by have := d.isLt; have := a.isLt; have := b.isLt; simp only [places]; omega)⟩
theorem Sys2Proof.Laws.Encoding.ssar (c : Bool) (d : BitVec 6) (a : BitVec 6) (b : BitVec 6) : Sys2Proof.Laws.Encoding.Statement
    (.ssar c d a b) :=
  ⟨_, rfl, Sys2Proof.Laws.pack_major _ _ _ (by decide) (by have := d.isLt; have := a.isLt; have := b.isLt; simp only [places]; omega)⟩
theorem Sys2Proof.Laws.Encoding.smin (c : Bool) (d : BitVec 6) (a : BitVec 6) (b : BitVec 6) : Sys2Proof.Laws.Encoding.Statement
    (.smin c d a b) :=
  ⟨_, rfl, Sys2Proof.Laws.pack_major _ _ _ (by decide) (by have := d.isLt; have := a.isLt; have := b.isLt; simp only [places]; omega)⟩
theorem Sys2Proof.Laws.Encoding.smax (c : Bool) (d : BitVec 6) (a : BitVec 6) (b : BitVec 6) : Sys2Proof.Laws.Encoding.Statement
    (.smax c d a b) :=
  ⟨_, rfl, Sys2Proof.Laws.pack_major _ _ _ (by decide) (by have := d.isLt; have := a.isLt; have := b.isLt; simp only [places]; omega)⟩
theorem Sys2Proof.Laws.Encoding.smov (c : Bool) (d : BitVec 6) (a : BitVec 6) : Sys2Proof.Laws.Encoding.Statement (.smov c d a) :=
  ⟨_, rfl, Sys2Proof.Laws.pack_major _ _ _ (by decide) (by have := d.isLt; have := a.isLt; simp only [places]; omega)⟩
theorem Sys2Proof.Laws.Encoding.sadd64 (c : Bool) (d : BitVec 6) (a : BitVec 6) (b : BitVec 6) : Sys2Proof.Laws.Encoding.Statement
    (.sadd64 c d a b) :=
  ⟨_, rfl, Sys2Proof.Laws.pack_major _ _ _ (by decide) (by have := d.isLt; have := a.isLt; have := b.isLt; simp only [places]; omega)⟩
theorem Sys2Proof.Laws.Encoding.ssub64 (c : Bool) (d : BitVec 6) (a : BitVec 6) (b : BitVec 6) : Sys2Proof.Laws.Encoding.Statement
    (.ssub64 c d a b) :=
  ⟨_, rfl, Sys2Proof.Laws.pack_major _ _ _ (by decide) (by have := d.isLt; have := a.isLt; have := b.isLt; simp only [places]; omega)⟩
theorem Sys2Proof.Laws.Encoding.saddi (c : Bool) (d : BitVec 6) (i : BitVec 15) (lit : Option (BitVec 25)) :
    Sys2Proof.Laws.Encoding.Statement (.saddi c d i lit) :=
  ⟨_, rfl, Sys2Proof.Laws.pack_major _ _ _ (by decide) (by have := d.isLt; have := i.isLt; simp only [places]; omega)⟩
theorem Sys2Proof.Laws.Encoding.sandi (c : Bool) (d : BitVec 6) (i : BitVec 15) (lit : Option (BitVec 25)) :
    Sys2Proof.Laws.Encoding.Statement (.sandi c d i lit) :=
  ⟨_, rfl, Sys2Proof.Laws.pack_major _ _ _ (by decide) (by have := d.isLt; have := i.isLt; simp only [places]; omega)⟩
theorem Sys2Proof.Laws.Encoding.sori (c : Bool) (d : BitVec 6) (i : BitVec 15) (lit : Option (BitVec 25)) :
    Sys2Proof.Laws.Encoding.Statement (.sori c d i lit) :=
  ⟨_, rfl, Sys2Proof.Laws.pack_major _ _ _ (by decide) (by have := d.isLt; have := i.isLt; simp only [places]; omega)⟩
theorem Sys2Proof.Laws.Encoding.sxori (c : Bool) (d : BitVec 6) (i : BitVec 15) (lit : Option (BitVec 25)) :
    Sys2Proof.Laws.Encoding.Statement (.sxori c d i lit) :=
  ⟨_, rfl, Sys2Proof.Laws.pack_major _ _ _ (by decide) (by have := d.isLt; have := i.isLt; simp only [places]; omega)⟩
theorem Sys2Proof.Laws.Encoding.sshli (c : Bool) (d : BitVec 6) (i : BitVec 15) (lit : Option (BitVec 25)) :
    Sys2Proof.Laws.Encoding.Statement (.sshli c d i lit) :=
  ⟨_, rfl, Sys2Proof.Laws.pack_major _ _ _ (by decide) (by have := d.isLt; have := i.isLt; simp only [places]; omega)⟩
theorem Sys2Proof.Laws.Encoding.sshri (c : Bool) (d : BitVec 6) (i : BitVec 15) (lit : Option (BitVec 25)) :
    Sys2Proof.Laws.Encoding.Statement (.sshri c d i lit) :=
  ⟨_, rfl, Sys2Proof.Laws.pack_major _ _ _ (by decide) (by have := d.isLt; have := i.isLt; simp only [places]; omega)⟩
theorem Sys2Proof.Laws.Encoding.smovi (c : Bool) (d : BitVec 6) (i : BitVec 15) (lit : Option (BitVec 25)) :
    Sys2Proof.Laws.Encoding.Statement (.smovi c d i lit) :=
  ⟨_, rfl, Sys2Proof.Laws.pack_major _ _ _ (by decide) (by have := d.isLt; have := i.isLt; simp only [places]; omega)⟩
theorem Sys2Proof.Laws.Encoding.smovhi (c : Bool) (d : BitVec 6) (i : BitVec 15) (lit : Option (BitVec 25)) :
    Sys2Proof.Laws.Encoding.Statement (.smovhi c d i lit) :=
  ⟨_, rfl, Sys2Proof.Laws.pack_major _ _ _ (by decide) (by have := d.isLt; have := i.isLt; simp only [places]; omega)⟩
theorem Sys2Proof.Laws.Encoding.scmpEq (c : Bool) (p : BitVec 3) (a : BitVec 6) (b : BitVec 6) : Sys2Proof.Laws.Encoding.Statement
    (.scmpEq c p a b) :=
  ⟨_, rfl, Sys2Proof.Laws.pack_major _ _ _ (by decide) (by have := p.isLt; have := a.isLt; have := b.isLt; simp only [places]; omega)⟩
theorem Sys2Proof.Laws.Encoding.scmpNe (c : Bool) (p : BitVec 3) (a : BitVec 6) (b : BitVec 6) : Sys2Proof.Laws.Encoding.Statement
    (.scmpNe c p a b) :=
  ⟨_, rfl, Sys2Proof.Laws.pack_major _ _ _ (by decide) (by have := p.isLt; have := a.isLt; have := b.isLt; simp only [places]; omega)⟩
theorem Sys2Proof.Laws.Encoding.scmpLtS (c : Bool) (p : BitVec 3) (a : BitVec 6) (b : BitVec 6) :
    Sys2Proof.Laws.Encoding.Statement (.scmpLtS c p a b) :=
  ⟨_, rfl, Sys2Proof.Laws.pack_major _ _ _ (by decide) (by have := p.isLt; have := a.isLt; have := b.isLt; simp only [places]; omega)⟩
theorem Sys2Proof.Laws.Encoding.scmpLeS (c : Bool) (p : BitVec 3) (a : BitVec 6) (b : BitVec 6) :
    Sys2Proof.Laws.Encoding.Statement (.scmpLeS c p a b) :=
  ⟨_, rfl, Sys2Proof.Laws.pack_major _ _ _ (by decide) (by have := p.isLt; have := a.isLt; have := b.isLt; simp only [places]; omega)⟩
theorem Sys2Proof.Laws.Encoding.scmpLtN (c : Bool) (p : BitVec 3) (a : BitVec 6) (b : BitVec 6) :
    Sys2Proof.Laws.Encoding.Statement (.scmpLtN c p a b) :=
  ⟨_, rfl, Sys2Proof.Laws.pack_major _ _ _ (by decide) (by have := p.isLt; have := a.isLt; have := b.isLt; simp only [places]; omega)⟩
theorem Sys2Proof.Laws.Encoding.scmpLeN (c : Bool) (p : BitVec 3) (a : BitVec 6) (b : BitVec 6) :
    Sys2Proof.Laws.Encoding.Statement (.scmpLeN c p a b) :=
  ⟨_, rfl, Sys2Proof.Laws.pack_major _ _ _ (by decide) (by have := p.isLt; have := a.isLt; have := b.isLt; simp only [places]; omega)⟩
theorem Sys2Proof.Laws.Encoding.ssel (c : Bool) (d : BitVec 6) (a : BitVec 6) (b : BitVec 6) : Sys2Proof.Laws.Encoding.Statement
    (.ssel c d a b) :=
  ⟨_, rfl, Sys2Proof.Laws.pack_major _ _ _ (by decide) (by have := d.isLt; have := a.isLt; have := b.isLt; simp only [places]; omega)⟩
theorem Sys2Proof.Laws.Encoding.getsr (c : Bool) (d : BitVec 6) (n : BitVec 6) : Sys2Proof.Laws.Encoding.Statement (.getsr c d n)
    :=
  ⟨_, rfl, Sys2Proof.Laws.pack_major _ _ _ (by decide) (by have := d.isLt; have := n.isLt; simp only [places]; omega)⟩
theorem Sys2Proof.Laws.Encoding.setsr (c : Bool) (n : BitVec 6) (b : BitVec 6) : Sys2Proof.Laws.Encoding.Statement (.setsr c n b)
    :=
  ⟨_, rfl, Sys2Proof.Laws.pack_major _ _ _ (by decide) (by have := n.isLt; have := b.isLt; simp only [places]; omega)⟩
theorem Sys2Proof.Laws.Encoding.setix (c : Bool) (a : BitVec 6) : Sys2Proof.Laws.Encoding.Statement (.setix c a) :=
  ⟨_, rfl, Sys2Proof.Laws.pack_major _ _ _ (by decide) (by have := a.isLt; simp only [places]; omega)⟩
theorem Sys2Proof.Laws.Encoding.addix (c : Bool) (a : BitVec 6) : Sys2Proof.Laws.Encoding.Statement (.addix c a) :=
  ⟨_, rfl, Sys2Proof.Laws.pack_major _ _ _ (by decide) (by have := a.isLt; simp only [places]; omega)⟩
theorem Sys2Proof.Laws.Encoding.getix (c : Bool) (d : BitVec 6) : Sys2Proof.Laws.Encoding.Statement (.getix c d) :=
  ⟨_, rfl, Sys2Proof.Laws.pack_major _ _ _ (by decide) (by have := d.isLt; simp only [places]; omega)⟩
theorem Sys2Proof.Laws.Encoding.bind (c : Bool) (w : BitVec 3) (a : BitVec 6) : Sys2Proof.Laws.Encoding.Statement (.bind c w a) :=
  ⟨_, rfl, Sys2Proof.Laws.pack_major _ _ _ (by decide) (by have := w.isLt; have := a.isLt; simp only [places]; omega)⟩
theorem Sys2Proof.Laws.Encoding.unbind (c : Bool) (w : BitVec 3) : Sys2Proof.Laws.Encoding.Statement (.unbind c w) :=
  ⟨_, rfl, Sys2Proof.Laws.pack_major _ _ _ (by decide) (by have := w.isLt; simp only [places]; omega)⟩
theorem Sys2Proof.Laws.Encoding.wquery (c : Bool) (d : BitVec 6) (w : BitVec 3) : Sys2Proof.Laws.Encoding.Statement (.wquery c d
    w) :=
  ⟨_, rfl, Sys2Proof.Laws.pack_major _ _ _ (by decide) (by have := d.isLt; have := w.isLt; simp only [places]; omega)⟩
theorem Sys2Proof.Laws.Encoding.ld (c : Bool) (x : Bool) (z : BitVec 3) (d : BitVec 7) (a : BitVec 7) (w : BitVec 3) (i : BitVec
    4) (lit : Option (BitVec 25)) : Sys2Proof.Laws.Encoding.Statement (.ld c x z d a w i lit) :=
  ⟨_, rfl, Sys2Proof.Laws.pack_major _ _ _ (by decide) (by have := Bool.toNat_lt x; have := z.isLt; have := d.isLt; have := a.isLt; have := w.isLt; have := i.isLt; simp only [places]; omega)⟩
theorem Sys2Proof.Laws.Encoding.st (c : Bool) (x : Bool) (z : BitVec 3) (d : BitVec 7) (a : BitVec 7) (w : BitVec 3) (i : BitVec
    4) (lit : Option (BitVec 25)) : Sys2Proof.Laws.Encoding.Statement (.st c x z d a w i lit) :=
  ⟨_, rfl, Sys2Proof.Laws.pack_major _ _ _ (by decide) (by have := Bool.toNat_lt x; have := z.isLt; have := d.isLt; have := a.isLt; have := w.isLt; have := i.isLt; simp only [places]; omega)⟩
theorem Sys2Proof.Laws.Encoding.ldg (c : Bool) (x : Bool) (z : BitVec 3) (d : BitVec 7) (a : BitVec 7) (i : BitVec 4) (lit :
    Option (BitVec 25)) : Sys2Proof.Laws.Encoding.Statement (.ldg c x z d a i lit) :=
  ⟨_, rfl, Sys2Proof.Laws.pack_major _ _ _ (by decide) (by have := Bool.toNat_lt x; have := z.isLt; have := d.isLt; have := a.isLt; have := i.isLt; simp only [places]; omega)⟩
theorem Sys2Proof.Laws.Encoding.stg (c : Bool) (x : Bool) (z : BitVec 3) (d : BitVec 7) (a : BitVec 7) (i : BitVec 4) (lit :
    Option (BitVec 25)) : Sys2Proof.Laws.Encoding.Statement (.stg c x z d a i lit) :=
  ⟨_, rfl, Sys2Proof.Laws.pack_major _ _ _ (by decide) (by have := Bool.toNat_lt x; have := z.isLt; have := d.isLt; have := a.isLt; have := i.isLt; simp only [places]; omega)⟩
theorem Sys2Proof.Laws.Encoding.lds (c : Bool) (x : Bool) (z : BitVec 3) (d : BitVec 7) (a : BitVec 7) (i : BitVec 4) (lit :
    Option (BitVec 25)) : Sys2Proof.Laws.Encoding.Statement (.lds c x z d a i lit) :=
  ⟨_, rfl, Sys2Proof.Laws.pack_major _ _ _ (by decide) (by have := Bool.toNat_lt x; have := z.isLt; have := d.isLt; have := a.isLt; have := i.isLt; simp only [places]; omega)⟩
theorem Sys2Proof.Laws.Encoding.sts (c : Bool) (x : Bool) (z : BitVec 3) (d : BitVec 7) (a : BitVec 7) (i : BitVec 4) (lit :
    Option (BitVec 25)) : Sys2Proof.Laws.Encoding.Statement (.sts c x z d a i lit) :=
  ⟨_, rfl, Sys2Proof.Laws.pack_major _ _ _ (by decide) (by have := Bool.toNat_lt x; have := z.isLt; have := d.isLt; have := a.isLt; have := i.isLt; simp only [places]; omega)⟩
theorem Sys2Proof.Laws.Encoding.ldc (c : Bool) (z : BitVec 4) (d : BitVec 6) (a : BitVec 6) (b : BitVec 6) :
    Sys2Proof.Laws.Encoding.Statement (.ldc c z d a b) :=
  ⟨_, rfl, Sys2Proof.Laws.pack_major _ _ _ (by decide) (by have := z.isLt; have := d.isLt; have := a.isLt; have := b.isLt; simp only [places]; omega)⟩
theorem Sys2Proof.Laws.Encoding.atom (c : Bool) (x : Bool) (o : BitVec 4) (d : BitVec 7) (a : BitVec 7) (w : BitVec 3) (s : BitVec
    2) (r : BitVec 1) : Sys2Proof.Laws.Encoding.Statement (.atom c x o d a w s r) :=
  ⟨_, rfl, Sys2Proof.Laws.pack_major _ _ _ (by decide) (by have := Bool.toNat_lt x; have := o.isLt; have := d.isLt; have := a.isLt; have := w.isLt; have := s.isLt; have := r.isLt; simp only [places]; omega)⟩
theorem Sys2Proof.Laws.Encoding.atoms (c : Bool) (x : Bool) (o : BitVec 4) (d : BitVec 7) (a : BitVec 7) (s : BitVec 2) (r :
    BitVec 1) : Sys2Proof.Laws.Encoding.Statement (.atoms c x o d a s r) :=
  ⟨_, rfl, Sys2Proof.Laws.pack_major _ _ _ (by decide) (by have := Bool.toNat_lt x; have := o.isLt; have := d.isLt; have := a.isLt; have := s.isLt; have := r.isLt; simp only [places]; omega)⟩
theorem Sys2Proof.Laws.Encoding.ldt (c : Bool) (x : Bool) (z : BitVec 3) (d : BitVec 7) (a : BitVec 7) (w : BitVec 3) :
    Sys2Proof.Laws.Encoding.Statement (.ldt c x z d a w) :=
  ⟨_, rfl, Sys2Proof.Laws.pack_major _ _ _ (by decide) (by have := Bool.toNat_lt x; have := z.isLt; have := d.isLt; have := a.isLt; have := w.isLt; simp only [places]; omega)⟩
theorem Sys2Proof.Laws.Encoding.smpPoint (c : Bool) (x : Bool) (d : BitVec 7) (a : BitVec 7) (w : BitVec 3) (v : BitVec 2) (u :
    BitVec 2) : Sys2Proof.Laws.Encoding.Statement (.smpPoint c x d a w v u) :=
  ⟨_, rfl, Sys2Proof.Laws.pack_major _ _ _ (by decide) (by have := Bool.toNat_lt x; have := d.isLt; have := a.isLt; have := w.isLt; have := v.isLt; have := u.isLt; simp only [places]; omega)⟩
theorem Sys2Proof.Laws.Encoding.smpBilinear (c : Bool) (x : Bool) (d : BitVec 7) (a : BitVec 7) (w : BitVec 3) (v : BitVec 2) (u :
    BitVec 2) : Sys2Proof.Laws.Encoding.Statement (.smpBilinear c x d a w v u) :=
  ⟨_, rfl, Sys2Proof.Laws.pack_major _ _ _ (by decide) (by have := Bool.toNat_lt x; have := d.isLt; have := a.isLt; have := w.isLt; have := v.isLt; have := u.isLt; simp only [places]; omega)⟩
theorem Sys2Proof.Laws.Encoding.smpTrilinear (c : Bool) (x : Bool) (d : BitVec 7) (a : BitVec 7) (w : BitVec 3) (v : BitVec 2) (u
    : BitVec 2) : Sys2Proof.Laws.Encoding.Statement (.smpTrilinear c x d a w v u) :=
  ⟨_, rfl, Sys2Proof.Laws.pack_major _ _ _ (by decide) (by have := Bool.toNat_lt x; have := d.isLt; have := a.isLt; have := w.isLt; have := v.isLt; have := u.isLt; simp only [places]; omega)⟩
theorem Sys2Proof.Laws.Encoding.fenceAcq (c : Bool) (s : BitVec 2) : Sys2Proof.Laws.Encoding.Statement (.fenceAcq c s) :=
  ⟨_, rfl, Sys2Proof.Laws.pack_major _ _ _ (by decide) (by have := s.isLt; simp only [places]; omega)⟩
theorem Sys2Proof.Laws.Encoding.fenceRel (c : Bool) (s : BitVec 2) : Sys2Proof.Laws.Encoding.Statement (.fenceRel c s) :=
  ⟨_, rfl, Sys2Proof.Laws.pack_major _ _ _ (by decide) (by have := s.isLt; simp only [places]; omega)⟩
theorem Sys2Proof.Laws.Encoding.fenceAr (c : Bool) (s : BitVec 2) : Sys2Proof.Laws.Encoding.Statement (.fenceAr c s) :=
  ⟨_, rfl, Sys2Proof.Laws.pack_major _ _ _ (by decide) (by have := s.isLt; simp only [places]; omega)⟩
theorem Sys2Proof.Laws.Encoding.cinv (c : Bool) : Sys2Proof.Laws.Encoding.Statement (.cinv c) :=
  ⟨_, rfl, Sys2Proof.Laws.pack_major _ _ _ (by decide) (by simp only [places]; omega)⟩
theorem Sys2Proof.Laws.Encoding.cwb (c : Bool) (d : BitVec 6) (a : BitVec 6) : Sys2Proof.Laws.Encoding.Statement (.cwb c d a) :=
  ⟨_, rfl, Sys2Proof.Laws.pack_major _ _ _ (by decide) (by have := d.isLt; have := a.isLt; simp only [places]; omega)⟩
theorem Sys2Proof.Laws.Encoding.pf (c : Bool) (x : Bool) (a : BitVec 7) (w : BitVec 3) : Sys2Proof.Laws.Encoding.Statement (.pf c
    x a w) :=
  ⟨_, rfl, Sys2Proof.Laws.pack_major _ _ _ (by decide) (by have := Bool.toNat_lt x; have := a.isLt; have := w.isLt; simp only [places]; omega)⟩
theorem Sys2Proof.Laws.Encoding.resfence (c : Bool) : Sys2Proof.Laws.Encoding.Statement (.resfence c) :=
  ⟨_, rfl, Sys2Proof.Laws.pack_major _ _ _ (by decide) (by simp only [places]; omega)⟩
theorem Sys2Proof.Laws.Encoding.cpa (c : Bool) (x : Bool) (d : BitVec 7) (a : BitVec 7) (w : BitVec 3) (s : BitVec 2) (r : BitVec
    1) : Sys2Proof.Laws.Encoding.Statement (.cpa c x d a w s r) :=
  ⟨_, rfl, Sys2Proof.Laws.pack_major _ _ _ (by decide) (by have := Bool.toNat_lt x; have := d.isLt; have := a.isLt; have := w.isLt; have := s.isLt; have := r.isLt; simp only [places]; omega)⟩
theorem Sys2Proof.Laws.Encoding.cpseal (c : Bool) : Sys2Proof.Laws.Encoding.Statement (.cpseal c) :=
  ⟨_, rfl, Sys2Proof.Laws.pack_major _ _ _ (by decide) (by simp only [places]; omega)⟩
theorem Sys2Proof.Laws.Encoding.cpwait (c : Bool) (t : BitVec 2) : Sys2Proof.Laws.Encoding.Statement (.cpwait c t) :=
  ⟨_, rfl, Sys2Proof.Laws.pack_major _ _ _ (by decide) (by have := t.isLt; simp only [places]; omega)⟩
theorem Sys2Proof.Laws.Encoding.cpstat (c : Bool) (d : BitVec 6) : Sys2Proof.Laws.Encoding.Statement (.cpstat c d) :=
  ⟨_, rfl, Sys2Proof.Laws.pack_major _ _ _ (by decide) (by have := d.isLt; simp only [places]; omega)⟩
theorem Sys2Proof.Laws.Encoding.cpbulk (c : Bool) (d : BitVec 6) (a : BitVec 6) (b : BitVec 6) : Sys2Proof.Laws.Encoding.Statement
    (.cpbulk c d a b) :=
  ⟨_, rfl, Sys2Proof.Laws.pack_major _ _ _ (by decide) (by have := d.isLt; have := a.isLt; have := b.isLt; simp only [places]; omega)⟩
theorem Sys2Proof.Laws.Encoding.cpq (c : Bool) (d : BitVec 6) (a : BitVec 6) (b : BitVec 6) : Sys2Proof.Laws.Encoding.Statement
    (.cpq c d a b) :=
  ⟨_, rfl, Sys2Proof.Laws.pack_major _ _ _ (by decide) (by have := d.isLt; have := a.isLt; have := b.isLt; simp only [places]; omega)⟩
theorem Sys2Proof.Laws.Encoding.tbinit (c : Bool) (a : BitVec 6) (b : BitVec 6) : Sys2Proof.Laws.Encoding.Statement (.tbinit c a
    b) :=
  ⟨_, rfl, Sys2Proof.Laws.pack_major _ _ _ (by decide) (by have := a.isLt; have := b.isLt; simp only [places]; omega)⟩
theorem Sys2Proof.Laws.Encoding.tbarrive (c : Bool) (a : BitVec 6) (b : BitVec 6) : Sys2Proof.Laws.Encoding.Statement (.tbarrive c
    a b) :=
  ⟨_, rfl, Sys2Proof.Laws.pack_major _ _ _ (by decide) (by have := a.isLt; have := b.isLt; simp only [places]; omega)⟩
theorem Sys2Proof.Laws.Encoding.tbexpect (c : Bool) (a : BitVec 6) (b : BitVec 6) : Sys2Proof.Laws.Encoding.Statement (.tbexpect c
    a b) :=
  ⟨_, rfl, Sys2Proof.Laws.pack_major _ _ _ (by decide) (by have := a.isLt; have := b.isLt; simp only [places]; omega)⟩
theorem Sys2Proof.Laws.Encoding.tbwait (c : Bool) (a : BitVec 6) (b : BitVec 6) : Sys2Proof.Laws.Encoding.Statement (.tbwait c a
    b) :=
  ⟨_, rfl, Sys2Proof.Laws.pack_major _ _ _ (by decide) (by have := a.isLt; have := b.isLt; simp only [places]; omega)⟩
theorem Sys2Proof.Laws.Encoding.tbtest (c : Bool) (d : BitVec 6) (a : BitVec 6) (b : BitVec 6) : Sys2Proof.Laws.Encoding.Statement
    (.tbtest c d a b) :=
  ⟨_, rfl, Sys2Proof.Laws.pack_major _ _ _ (by decide) (by have := d.isLt; have := a.isLt; have := b.isLt; simp only [places]; omega)⟩
theorem Sys2Proof.Laws.Encoding.rarm (c : Bool) (x : Bool) (a : BitVec 7) (n : BitVec 3) : Sys2Proof.Laws.Encoding.Statement
    (.rarm c x a n) :=
  ⟨_, rfl, Sys2Proof.Laws.pack_major _ _ _ (by decide) (by have := Bool.toNat_lt x; have := a.isLt; have := n.isLt; simp only [places]; omega)⟩
theorem Sys2Proof.Laws.Encoding.rdisarm (c : Bool) (x : Bool) (a : BitVec 7) (n : BitVec 3) : Sys2Proof.Laws.Encoding.Statement
    (.rdisarm c x a n) :=
  ⟨_, rfl, Sys2Proof.Laws.pack_major _ _ _ (by decide) (by have := Bool.toNat_lt x; have := a.isLt; have := n.isLt; simp only [places]; omega)⟩
theorem Sys2Proof.Laws.Encoding.mkcap (c : Bool) (d : BitVec 6) (a : BitVec 6) : Sys2Proof.Laws.Encoding.Statement (.mkcap c d a)
    :=
  ⟨_, rfl, Sys2Proof.Laws.pack_major _ _ _ (by decide) (by have := d.isLt; have := a.isLt; simp only [places]; omega)⟩
theorem Sys2Proof.Laws.Encoding.rsend (c : Bool) (x : Bool) (d : BitVec 6) (a : BitVec 7) (k : BitVec 5) :
    Sys2Proof.Laws.Encoding.Statement (.rsend c x d a k) :=
  ⟨_, rfl, Sys2Proof.Laws.pack_major _ _ _ (by decide) (by have := Bool.toNat_lt x; have := d.isLt; have := a.isLt; have := k.isLt; simp only [places]; omega)⟩
theorem Sys2Proof.Laws.Encoding.rsendT (c : Bool) (x : Bool) (d : BitVec 6) (a : BitVec 7) (k : BitVec 5) :
    Sys2Proof.Laws.Encoding.Statement (.rsendT c x d a k) :=
  ⟨_, rfl, Sys2Proof.Laws.pack_major _ _ _ (by decide) (by have := Bool.toNat_lt x; have := d.isLt; have := a.isLt; have := k.isLt; simp only [places]; omega)⟩
theorem Sys2Proof.Laws.Encoding.rsendRel (c : Bool) (x : Bool) (d : BitVec 6) (a : BitVec 7) (k : BitVec 5) :
    Sys2Proof.Laws.Encoding.Statement (.rsendRel c x d a k) :=
  ⟨_, rfl, Sys2Proof.Laws.pack_major _ _ _ (by decide) (by have := Bool.toNat_lt x; have := d.isLt; have := a.isLt; have := k.isLt; simp only [places]; omega)⟩
theorem Sys2Proof.Laws.Encoding.rsendRelT (c : Bool) (x : Bool) (d : BitVec 6) (a : BitVec 7) (k : BitVec 5) :
    Sys2Proof.Laws.Encoding.Statement (.rsendRelT c x d a k) :=
  ⟨_, rfl, Sys2Proof.Laws.pack_major _ _ _ (by decide) (by have := Bool.toNat_lt x; have := d.isLt; have := a.isLt; have := k.isLt; simp only [places]; omega)⟩
theorem Sys2Proof.Laws.Encoding.rrevoke (c : Bool) (d : BitVec 6) : Sys2Proof.Laws.Encoding.Statement (.rrevoke c d) :=
  ⟨_, rfl, Sys2Proof.Laws.pack_major _ _ _ (by decide) (by have := d.isLt; simp only [places]; omega)⟩
theorem Sys2Proof.Laws.Encoding.rtest (c : Bool) (x : Bool) (d : BitVec 6) (a : BitVec 7) : Sys2Proof.Laws.Encoding.Statement
    (.rtest c x d a) :=
  ⟨_, rfl, Sys2Proof.Laws.pack_major _ _ _ (by decide) (by have := Bool.toNat_lt x; have := d.isLt; have := a.isLt; simp only [places]; omega)⟩
theorem Sys2Proof.Laws.Encoding.rtestCount (c : Bool) (d : BitVec 6) : Sys2Proof.Laws.Encoding.Statement (.rtestCount c d) :=
  ⟨_, rfl, Sys2Proof.Laws.pack_major _ _ _ (by decide) (by have := d.isLt; simp only [places]; omega)⟩
theorem Sys2Proof.Laws.Encoding.mring (c : Bool) (r : BitVec 3) (a : BitVec 6) (b : BitVec 6) : Sys2Proof.Laws.Encoding.Statement
    (.mring c r a b) :=
  ⟨_, rfl, Sys2Proof.Laws.pack_major _ _ _ (by decide) (by have := r.isLt; have := a.isLt; have := b.isLt; simp only [places]; omega)⟩
theorem Sys2Proof.Laws.Encoding.msend (c : Bool) (d : BitVec 6) (a : BitVec 6) (b : BitVec 6) : Sys2Proof.Laws.Encoding.Statement
    (.msend c d a b) :=
  ⟨_, rfl, Sys2Proof.Laws.pack_major _ _ _ (by decide) (by have := d.isLt; have := a.isLt; have := b.isLt; simp only [places]; omega)⟩
theorem Sys2Proof.Laws.Encoding.mwait (c : Bool) (d : BitVec 6) (r : BitVec 3) : Sys2Proof.Laws.Encoding.Statement (.mwait c d r)
    :=
  ⟨_, rfl, Sys2Proof.Laws.pack_major _ _ _ (by decide) (by have := d.isLt; have := r.isLt; simp only [places]; omega)⟩
theorem Sys2Proof.Laws.Encoding.resset (c : Bool) (x : Bool) (a : BitVec 7) (w : BitVec 3) : Sys2Proof.Laws.Encoding.Statement
    (.resset c x a w) :=
  ⟨_, rfl, Sys2Proof.Laws.pack_major _ _ _ (by decide) (by have := Bool.toNat_lt x; have := a.isLt; have := w.isLt; simp only [places]; omega)⟩
theorem Sys2Proof.Laws.Encoding.resclr (c : Bool) (x : Bool) (a : BitVec 7) (w : BitVec 3) : Sys2Proof.Laws.Encoding.Statement
    (.resclr c x a w) :=
  ⟨_, rfl, Sys2Proof.Laws.pack_major _ _ _ (by decide) (by have := Bool.toNat_lt x; have := a.isLt; have := w.isLt; simp only [places]; omega)⟩
theorem Sys2Proof.Laws.Encoding.resq (c : Bool) (x : Bool) (d : BitVec 7) (a : BitVec 7) (w : BitVec 3) (r : BitVec 1) :
    Sys2Proof.Laws.Encoding.Statement (.resq c x d a w r) :=
  ⟨_, rfl, Sys2Proof.Laws.pack_major _ _ _ (by decide) (by have := Bool.toNat_lt x; have := d.isLt; have := a.isLt; have := w.isLt; have := r.isLt; simp only [places]; omega)⟩
theorem Sys2Proof.Laws.Encoding.memitV (c : Bool) (x : Bool) (d : BitVec 7) (a : BitVec 7) (n : BitVec 7) :
    Sys2Proof.Laws.Encoding.Statement (.memitV c x d a n) :=
  ⟨_, rfl, Sys2Proof.Laws.pack_major _ _ _ (by decide) (by have := Bool.toNat_lt x; have := d.isLt; have := a.isLt; have := n.isLt; simp only [places]; omega)⟩
theorem Sys2Proof.Laws.Encoding.memitP (c : Bool) (x : Bool) (d : BitVec 7) (a : BitVec 7) : Sys2Proof.Laws.Encoding.Statement
    (.memitP c x d a) :=
  ⟨_, rfl, Sys2Proof.Laws.pack_major _ _ _ (by decide) (by have := Bool.toNat_lt x; have := d.isLt; have := a.isLt; simp only [places]; omega)⟩
theorem Sys2Proof.Laws.Encoding.tamp (c : Bool) (x : Bool) (d : BitVec 7) (a : BitVec 7) (b : BitVec 7) :
    Sys2Proof.Laws.Encoding.Statement (.tamp c x d a b) :=
  ⟨_, rfl, Sys2Proof.Laws.pack_major _ _ _ (by decide) (by have := Bool.toNat_lt x; have := d.isLt; have := a.isLt; have := b.isLt; simp only [places]; omega)⟩
theorem Sys2Proof.Laws.Encoding.tload (c : Bool) (x : Bool) (d : BitVec 7) (a : BitVec 7) : Sys2Proof.Laws.Encoding.Statement
    (.tload c x d a) :=
  ⟨_, rfl, Sys2Proof.Laws.pack_major _ _ _ (by decide) (by have := Bool.toNat_lt x; have := d.isLt; have := a.isLt; simp only [places]; omega)⟩
theorem Sys2Proof.Laws.Encoding.tstore (c : Bool) (x : Bool) (d : BitVec 7) (a : BitVec 7) : Sys2Proof.Laws.Encoding.Statement
    (.tstore c x d a) :=
  ⟨_, rfl, Sys2Proof.Laws.pack_major _ _ _ (by decide) (by have := Bool.toNat_lt x; have := d.isLt; have := a.isLt; simp only [places]; omega)⟩
theorem Sys2Proof.Laws.Encoding.tseal (c : Bool) : Sys2Proof.Laws.Encoding.Statement (.tseal c) :=
  ⟨_, rfl, Sys2Proof.Laws.pack_major _ _ _ (by decide) (by simp only [places]; omega)⟩
theorem Sys2Proof.Laws.Encoding.gzrd (c : Bool) (x : Bool) (d : BitVec 7) (a : BitVec 7) : Sys2Proof.Laws.Encoding.Statement
    (.gzrd c x d a) :=
  ⟨_, rfl, Sys2Proof.Laws.pack_major _ _ _ (by decide) (by have := Bool.toNat_lt x; have := d.isLt; have := a.isLt; simp only [places]; omega)⟩
theorem Sys2Proof.Laws.Encoding.tlbinv (c : Bool) (d : BitVec 6) (a : BitVec 6) (b : BitVec 6) : Sys2Proof.Laws.Encoding.Statement
    (.tlbinv c d a b) :=
  ⟨_, rfl, Sys2Proof.Laws.pack_major _ _ _ (by decide) (by have := d.isLt; have := a.isLt; have := b.isLt; simp only [places]; omega)⟩
theorem Sys2Proof.Laws.Encoding.winv (c : Bool) (d : BitVec 6) (a : BitVec 6) : Sys2Proof.Laws.Encoding.Statement (.winv c d a) :=
  ⟨_, rfl, Sys2Proof.Laws.pack_major _ _ _ (by decide) (by have := d.isLt; have := a.isLt; simp only [places]; omega)⟩
theorem Sys2Proof.Laws.Encoding.hmask (c : Bool) (k : BitVec 4) (a : BitVec 6) (b : BitVec 6) : Sys2Proof.Laws.Encoding.Statement
    (.hmask c k a b) :=
  ⟨_, rfl, Sys2Proof.Laws.pack_major _ _ _ (by decide) (by have := k.isLt; have := a.isLt; have := b.isLt; simp only [places]; omega)⟩
theorem Sys2Proof.Laws.Encoding.evict (c : Bool) (d : BitVec 6) (a : BitVec 6) (b : BitVec 6) : Sys2Proof.Laws.Encoding.Statement
    (.evict c d a b) :=
  ⟨_, rfl, Sys2Proof.Laws.pack_major _ _ _ (by decide) (by have := d.isLt; have := a.isLt; have := b.isLt; simp only [places]; omega)⟩
theorem Sys2Proof.Laws.Encoding.snap (c : Bool) : Sys2Proof.Laws.Encoding.Statement (.snap c) :=
  ⟨_, rfl, Sys2Proof.Laws.pack_major _ _ _ (by decide) (by simp only [places]; omega)⟩
theorem Sys2Proof.Laws.Encoding.pgmap (c : Bool) (d : BitVec 6) : Sys2Proof.Laws.Encoding.Statement (.pgmap c d) :=
  ⟨_, rfl, Sys2Proof.Laws.pack_major _ _ _ (by decide) (by have := d.isLt; simp only [places]; omega)⟩
theorem Sys2Proof.Laws.Encoding.bra (c : Bool) (o : BitVec 19) (lit : Option (BitVec 25)) : Sys2Proof.Laws.Encoding.Statement
    (.bra c o lit) :=
  ⟨_, rfl, Sys2Proof.Laws.pack_major _ _ _ (by decide) (by have := o.isLt; simp only [places]; omega)⟩
theorem Sys2Proof.Laws.Encoding.brc (c : Bool) (p : BitVec 3) (o : BitVec 19) (lit : Option (BitVec 25)) :
    Sys2Proof.Laws.Encoding.Statement (.brc c p o lit) :=
  ⟨_, rfl, Sys2Proof.Laws.pack_major _ _ _ (by decide) (by have := p.isLt; have := o.isLt; simp only [places]; omega)⟩
theorem Sys2Proof.Laws.Encoding.brcn (c : Bool) (p : BitVec 3) (o : BitVec 19) (lit : Option (BitVec 25)) :
    Sys2Proof.Laws.Encoding.Statement (.brcn c p o lit) :=
  ⟨_, rfl, Sys2Proof.Laws.pack_major _ _ _ (by decide) (by have := p.isLt; have := o.isLt; simp only [places]; omega)⟩
theorem Sys2Proof.Laws.Encoding.bru (c : Bool) (p : BitVec 3) (o : BitVec 19) (lit : Option (BitVec 25)) :
    Sys2Proof.Laws.Encoding.Statement (.bru c p o lit) :=
  ⟨_, rfl, Sys2Proof.Laws.pack_major _ _ _ (by decide) (by have := p.isLt; have := o.isLt; simp only [places]; omega)⟩
theorem Sys2Proof.Laws.Encoding.join (c : Bool) : Sys2Proof.Laws.Encoding.Statement (.join c) :=
  ⟨_, rfl, Sys2Proof.Laws.pack_major _ _ _ (by decide) (by simp only [places]; omega)⟩
theorem Sys2Proof.Laws.Encoding.brx (c : Bool) (s : BitVec 6) : Sys2Proof.Laws.Encoding.Statement (.brx c s) :=
  ⟨_, rfl, Sys2Proof.Laws.pack_major _ _ _ (by decide) (by have := s.isLt; simp only [places]; omega)⟩
theorem Sys2Proof.Laws.Encoding.loop (c : Bool) (p : BitVec 3) (o : BitVec 19) (lit : Option (BitVec 25)) :
    Sys2Proof.Laws.Encoding.Statement (.loop c p o lit) :=
  ⟨_, rfl, Sys2Proof.Laws.pack_major _ _ _ (by decide) (by have := p.isLt; have := o.isLt; simp only [places]; omega)⟩
theorem Sys2Proof.Laws.Encoding.call (c : Bool) (o : BitVec 19) (lit : Option (BitVec 25)) : Sys2Proof.Laws.Encoding.Statement
    (.call c o lit) :=
  ⟨_, rfl, Sys2Proof.Laws.pack_major _ _ _ (by decide) (by have := o.isLt; simp only [places]; omega)⟩
theorem Sys2Proof.Laws.Encoding.ret (c : Bool) : Sys2Proof.Laws.Encoding.Statement (.ret c) :=
  ⟨_, rfl, Sys2Proof.Laws.pack_major _ _ _ (by decide) (by simp only [places]; omega)⟩
theorem Sys2Proof.Laws.Encoding.exit (c : Bool) (p : BitVec 3) : Sys2Proof.Laws.Encoding.Statement (.exit c p) :=
  ⟨_, rfl, Sys2Proof.Laws.pack_major _ _ _ (by decide) (by have := p.isLt; simp only [places]; omega)⟩
theorem Sys2Proof.Laws.Encoding.trap (c : Bool) (p : BitVec 3) : Sys2Proof.Laws.Encoding.Statement (.trap c p) :=
  ⟨_, rfl, Sys2Proof.Laws.pack_major _ _ _ (by decide) (by have := p.isLt; simp only [places]; omega)⟩
theorem Sys2Proof.Laws.Encoding.brk (c : Bool) (p : BitVec 3) : Sys2Proof.Laws.Encoding.Statement (.brk c p) :=
  ⟨_, rfl, Sys2Proof.Laws.pack_major _ _ _ (by decide) (by have := p.isLt; simp only [places]; omega)⟩
theorem Sys2Proof.Laws.Encoding.yield (c : Bool) : Sys2Proof.Laws.Encoding.Statement (.yield c) :=
  ⟨_, rfl, Sys2Proof.Laws.pack_major _ _ _ (by decide) (by simp only [places]; omega)⟩
theorem Sys2Proof.Laws.Encoding.sleep (c : Bool) (n : BitVec 19) : Sys2Proof.Laws.Encoding.Statement (.sleep c n) :=
  ⟨_, rfl, Sys2Proof.Laws.pack_major _ _ _ (by decide) (by have := n.isLt; simp only [places]; omega)⟩
theorem Sys2Proof.Laws.Encoding.bar (c : Bool) : Sys2Proof.Laws.Encoding.Statement (.bar c) :=
  ⟨_, rfl, Sys2Proof.Laws.pack_major _ _ _ (by decide) (by simp only [places]; omega)⟩
theorem Sys2Proof.Laws.Encoding.barPub (c : Bool) : Sys2Proof.Laws.Encoding.Statement (.barPub c) :=
  ⟨_, rfl, Sys2Proof.Laws.pack_major _ _ _ (by decide) (by simp only [places]; omega)⟩
theorem Sys2Proof.Laws.Encoding.barRealloc (c : Bool) (d : BitVec 6) (a : BitVec 6) : Sys2Proof.Laws.Encoding.Statement
    (.barRealloc c d a) :=
  ⟨_, rfl, Sys2Proof.Laws.pack_major _ _ _ (by decide) (by have := d.isLt; have := a.isLt; simp only [places]; omega)⟩
theorem Sys2Proof.Laws.Encoding.barArrive (c : Bool) : Sys2Proof.Laws.Encoding.Statement (.barArrive c) :=
  ⟨_, rfl, Sys2Proof.Laws.pack_major _ _ _ (by decide) (by simp only [places]; omega)⟩
theorem Sys2Proof.Laws.Encoding.barWait (c : Bool) : Sys2Proof.Laws.Encoding.Statement (.barWait c) :=
  ⟨_, rfl, Sys2Proof.Laws.pack_major _ _ _ (by decide) (by simp only [places]; omega)⟩
theorem Sys2Proof.Laws.Encoding.post (c : Bool) (e : BitVec 2) (a : BitVec 6) : Sys2Proof.Laws.Encoding.Statement (.post c e a) :=
  ⟨_, rfl, Sys2Proof.Laws.pack_major _ _ _ (by decide) (by have := e.isLt; have := a.isLt; simp only [places]; omega)⟩
theorem Sys2Proof.Laws.Encoding.lgrow (c : Bool) (d : BitVec 6) (a : BitVec 6) : Sys2Proof.Laws.Encoding.Statement (.lgrow c d a)
    :=
  ⟨_, rfl, Sys2Proof.Laws.pack_major _ _ _ (by decide) (by have := d.isLt; have := a.isLt; simp only [places]; omega)⟩
theorem Sys2Proof.Laws.Encoding.evpost (c : Bool) (a : BitVec 6) : Sys2Proof.Laws.Encoding.Statement (.evpost c a) :=
  ⟨_, rfl, Sys2Proof.Laws.pack_major _ _ _ (by decide) (by have := a.isLt; simp only [places]; omega)⟩
theorem Sys2Proof.Laws.Encoding.depdec (c : Bool) (a : BitVec 6) : Sys2Proof.Laws.Encoding.Statement (.depdec c a) :=
  ⟨_, rfl, Sys2Proof.Laws.pack_major _ _ _ (by decide) (by have := a.isLt; simp only [places]; omega)⟩
theorem Sys2Proof.Laws.Encoding.depset (c : Bool) (a : BitVec 6) (b : BitVec 6) : Sys2Proof.Laws.Encoding.Statement (.depset c a
    b) :=
  ⟨_, rfl, Sys2Proof.Laws.pack_major _ _ _ (by decide) (by have := a.isLt; have := b.isLt; simp only [places]; omega)⟩
theorem Sys2Proof.Laws.Encoding.mmq (c : Bool) (d : BitVec 7) (a : BitVec 7) (s : BitVec 6) (h : BitVec 1) :
    Sys2Proof.Laws.Encoding.Statement (.mmq c d a s h) :=
  ⟨_, rfl, Sys2Proof.Laws.pack_major _ _ _ (by decide) (by have := d.isLt; have := a.isLt; have := s.isLt; have := h.isLt; simp only [places]; omega)⟩
theorem Sys2Proof.Laws.Encoding.mmqs (c : Bool) (d : BitVec 7) (a : BitVec 7) (s : BitVec 6) (h : BitVec 1) :
    Sys2Proof.Laws.Encoding.Statement (.mmqs c d a s h) :=
  ⟨_, rfl, Sys2Proof.Laws.pack_major _ _ _ (by decide) (by have := d.isLt; have := a.isLt; have := s.isLt; have := h.isLt; simp only [places]; omega)⟩
theorem Sys2Proof.Laws.Encoding.mmqg (c : Bool) (d : BitVec 7) (a : BitVec 7) (s : BitVec 6) (h : BitVec 1) :
    Sys2Proof.Laws.Encoding.Statement (.mmqg c d a s h) :=
  ⟨_, rfl, Sys2Proof.Laws.pack_major _ _ _ (by decide) (by have := d.isLt; have := a.isLt; have := s.isLt; have := h.isLt; simp only [places]; omega)⟩
theorem Sys2Proof.Laws.Encoding.mtile (c : Bool) (d : BitVec 7) (s : BitVec 6) (h : BitVec 1) : Sys2Proof.Laws.Encoding.Statement
    (.mtile c d s h) :=
  ⟨_, rfl, Sys2Proof.Laws.pack_major _ _ _ (by decide) (by have := d.isLt; have := s.isLt; have := h.isLt; simp only [places]; omega)⟩
theorem Sys2Proof.Laws.Encoding.wbld (c : Bool) (d : BitVec 6) (a : BitVec 6) : Sys2Proof.Laws.Encoding.Statement (.wbld c d a) :=
  ⟨_, rfl, Sys2Proof.Laws.pack_major _ _ _ (by decide) (by have := d.isLt; have := a.isLt; simp only [places]; omega)⟩
theorem Sys2Proof.Laws.Encoding.wbinv (c : Bool) (a : BitVec 6) : Sys2Proof.Laws.Encoding.Statement (.wbinv c a) :=
  ⟨_, rfl, Sys2Proof.Laws.pack_major _ _ _ (by decide) (by have := a.isLt; simp only [places]; omega)⟩
theorem Sys2Proof.Laws.Encoding.wbstat (c : Bool) (d : BitVec 6) (a : BitVec 6) : Sys2Proof.Laws.Encoding.Statement (.wbstat c d
    a) :=
  ⟨_, rfl, Sys2Proof.Laws.pack_major _ _ _ (by decide) (by have := d.isLt; have := a.isLt; simp only [places]; omega)⟩
theorem Sys2Proof.Laws.Encoding.had16 (c : Bool) (x : Bool) (d : BitVec 7) (a : BitVec 7) (m : BitVec 6) :
    Sys2Proof.Laws.Encoding.Statement (.had16 c x d a m) :=
  ⟨_, rfl, Sys2Proof.Laws.pack_major _ _ _ (by decide) (by have := Bool.toNat_lt x; have := d.isLt; have := a.isLt; have := m.isLt; simp only [places]; omega)⟩
theorem Sys2Proof.Laws.Encoding.had32 (c : Bool) (x : Bool) (d : BitVec 7) (a : BitVec 7) (m : BitVec 6) :
    Sys2Proof.Laws.Encoding.Statement (.had32 c x d a m) :=
  ⟨_, rfl, Sys2Proof.Laws.pack_major _ _ _ (by decide) (by have := Bool.toNat_lt x; have := d.isLt; have := a.isLt; have := m.isLt; simp only [places]; omega)⟩
theorem Sys2Proof.Laws.Encoding.had64 (c : Bool) (x : Bool) (d : BitVec 7) (a : BitVec 7) (m : BitVec 6) :
    Sys2Proof.Laws.Encoding.Statement (.had64 c x d a m) :=
  ⟨_, rfl, Sys2Proof.Laws.pack_major _ _ _ (by decide) (by have := Bool.toNat_lt x; have := d.isLt; have := a.isLt; have := m.isLt; simp only [places]; omega)⟩
theorem Sys2Proof.Laws.Encoding.absmax (c : Bool) (x : Bool) (d : BitVec 7) (a : BitVec 7) (m : BitVec 6) :
    Sys2Proof.Laws.Encoding.Statement (.absmax c x d a m) :=
  ⟨_, rfl, Sys2Proof.Laws.pack_major _ _ _ (by decide) (by have := Bool.toNat_lt x; have := d.isLt; have := a.isLt; have := m.isLt; simp only [places]; omega)⟩
theorem Sys2Proof.Laws.Encoding.quant (c : Bool) (x : Bool) (d : BitVec 7) (a : BitVec 7) (m : BitVec 6) :
    Sys2Proof.Laws.Encoding.Statement (.quant c x d a m) :=
  ⟨_, rfl, Sys2Proof.Laws.pack_major _ _ _ (by decide) (by have := Bool.toNat_lt x; have := d.isLt; have := a.isLt; have := m.isLt; simp only [places]; omega)⟩
theorem Sys2Proof.Laws.Encoding.bmenc (c : Bool) (x : Bool) (d : BitVec 7) (a : BitVec 7) (m : BitVec 6) :
    Sys2Proof.Laws.Encoding.Statement (.bmenc c x d a m) :=
  ⟨_, rfl, Sys2Proof.Laws.pack_major _ _ _ (by decide) (by have := Bool.toNat_lt x; have := d.isLt; have := a.isLt; have := m.isLt; simp only [places]; omega)⟩
theorem Sys2Proof.Laws.Encoding.bmdec (c : Bool) (x : Bool) (d : BitVec 7) (a : BitVec 7) (m : BitVec 6) :
    Sys2Proof.Laws.Encoding.Statement (.bmdec c x d a m) :=
  ⟨_, rfl, Sys2Proof.Laws.pack_major _ _ _ (by decide) (by have := Bool.toNat_lt x; have := d.isLt; have := a.isLt; have := m.isLt; simp only [places]; omega)⟩
theorem Sys2Proof.Laws.Encoding.pscan (c : Bool) (x : Bool) (d : BitVec 7) (a : BitVec 7) (m : BitVec 6) :
    Sys2Proof.Laws.Encoding.Statement (.pscan c x d a m) :=
  ⟨_, rfl, Sys2Proof.Laws.pack_major _ _ _ (by decide) (by have := Bool.toNat_lt x; have := d.isLt; have := a.isLt; have := m.isLt; simp only [places]; omega)⟩
theorem Sys2Proof.Laws.Encoding.lztok (c : Bool) (x : Bool) (d : BitVec 7) (a : BitVec 7) : Sys2Proof.Laws.Encoding.Statement
    (.lztok c x d a) :=
  ⟨_, rfl, Sys2Proof.Laws.pack_major _ _ _ (by decide) (by have := Bool.toNat_lt x; have := d.isLt; have := a.isLt; simp only [places]; omega)⟩
theorem Sys2Proof.Laws.Encoding.powerOn : Sys2Proof.Laws.Encoding.Statement (.powerOn) := rfl
theorem Sys2Proof.Laws.Encoding.measureComponent (code : BitVec 16) (component : List (BitVec 8)) :
    Sys2Proof.Laws.Encoding.Statement (.measureComponent code component) := rfl
theorem Sys2Proof.Laws.Encoding.status (dgram : List (BitVec 8)) : Sys2Proof.Laws.Encoding.Statement (.status dgram) := rfl
theorem Sys2Proof.Laws.Encoding.reset (dgram : List (BitVec 8)) : Sys2Proof.Laws.Encoding.Statement (.reset dgram) := rfl
theorem Sys2Proof.Laws.Encoding.loadimg (dgram : List (BitVec 8)) : Sys2Proof.Laws.Encoding.Statement (.loadimg dgram) := rfl
theorem Sys2Proof.Laws.Encoding.attest (dgram : List (BitVec 8)) : Sys2Proof.Laws.Encoding.Statement (.attest dgram) := rfl
theorem Sys2Proof.Laws.Encoding.snapCommand (dgram : List (BitVec 8)) : Sys2Proof.Laws.Encoding.Statement (.snapCommand dgram) := rfl
theorem Sys2Proof.Laws.Encoding.rdsnap (dgram : List (BitVec 8)) : Sys2Proof.Laws.Encoding.Statement (.rdsnap dgram) := rfl
theorem Sys2Proof.Laws.Encoding.rdlife (dgram : List (BitVec 8)) : Sys2Proof.Laws.Encoding.Statement (.rdlife dgram) := rfl
theorem Sys2Proof.Laws.Encoding.setpkg (dgram : List (BitVec 8)) : Sys2Proof.Laws.Encoding.Statement (.setpkg dgram) := rfl
theorem Sys2Proof.Laws.Encoding.killctx (dgram : List (BitVec 8)) : Sys2Proof.Laws.Encoding.Statement (.killctx dgram) := rfl
theorem Sys2Proof.Laws.Encoding.unknownCommand (dgram : List (BitVec 8)) : Sys2Proof.Laws.Encoding.Statement (.unknownCommand
    dgram) := rfl
theorem Sys2Proof.Laws.Encoding.lifetimeFlush : Sys2Proof.Laws.Encoding.Statement (.lifetimeFlush) := rfl
theorem Sys2Proof.Laws.Encoding.ctxCreate (w : BitVec 32) : Sys2Proof.Laws.Encoding.Statement (.ctxCreate w) := rfl
theorem Sys2Proof.Laws.Encoding.ctxKill (w : BitVec 32) : Sys2Proof.Laws.Encoding.Statement (.ctxKill w) := rfl
theorem Sys2Proof.Laws.Encoding.ctxDestroy (w : BitVec 32) : Sys2Proof.Laws.Encoding.Statement (.ctxDestroy w) := rfl
theorem Sys2Proof.Laws.Encoding.rcbinvWrite (die : BitVec 3) (w : BitVec 32) : Sys2Proof.Laws.Encoding.Statement (.rcbinvWrite die
    w) := rfl
theorem Sys2Proof.Laws.Encoding.rcbInvalidationDone (die : BitVec 3) : Sys2Proof.Laws.Encoding.Statement (.rcbInvalidationDone
    die) := rfl
theorem Sys2Proof.Laws.Encoding.wtreplayByPage (die : BitVec 3) (w : BitVec 64) : Sys2Proof.Laws.Encoding.Statement
    (.wtreplayByPage die w) := rfl
theorem Sys2Proof.Laws.Encoding.wtreplayByToken (die : BitVec 3) (w : BitVec 64) : Sys2Proof.Laws.Encoding.Statement
    (.wtreplayByToken die w) := rfl
theorem Sys2Proof.Laws.Encoding.wtreplayByAsid (die : BitVec 3) (w : BitVec 64) : Sys2Proof.Laws.Encoding.Statement
    (.wtreplayByAsid die w) := rfl
theorem Sys2Proof.Laws.Encoding.dspostWrite (die : BitVec 3) (cc : BitVec 4) (w : BitVec 64) : Sys2Proof.Laws.Encoding.Statement
    (.dspostWrite die cc w) := rfl
theorem Sys2Proof.Laws.Encoding.dctrSet (die : BitVec 3) (n : BitVec 12) (cc : BitVec 4) (w : BitVec 64) :
    Sys2Proof.Laws.Encoding.Statement (.dctrSet die n cc w) := rfl
theorem Sys2Proof.Laws.Encoding.dctrDecrement (die : BitVec 3) (n : BitVec 12) (cc : BitVec 4) (w : BitVec 64) :
    Sys2Proof.Laws.Encoding.Statement (.dctrDecrement die n cc w) := rfl
theorem Sys2Proof.Laws.Encoding.lcctlCntclr (link : LinkId) (w : BitVec 32) : Sys2Proof.Laws.Encoding.Statement (.lcctlCntclr link
    w) := rfl
theorem Sys2Proof.Laws.Encoding.lcctlTcdis (link : LinkId) (w : BitVec 32) : Sys2Proof.Laws.Encoding.Statement (.lcctlTcdis link
    w) := rfl
theorem Sys2Proof.Laws.Encoding.snapctlClr (die : BitVec 4) (w : BitVec 32) : Sys2Proof.Laws.Encoding.Statement (.snapctlClr die
    w) := rfl
theorem Sys2Proof.Laws.Encoding.thermctlRelease (die : BitVec 3) (w : BitVec 32) : Sys2Proof.Laws.Encoding.Statement
    (.thermctlRelease die w) := rfl
theorem Sys2Proof.Laws.Encoding.domswWrite (w : BitVec 32) : Sys2Proof.Laws.Encoding.Statement (.domswWrite w) := rfl
theorem Sys2Proof.Laws.Encoding.fwWrite (mc : Option (BitVec 5)) (k : BitVec 4) (part : BitVec 2) (w : BitVec 64) :
    Sys2Proof.Laws.Encoding.Statement (.fwWrite mc k part w) := rfl
theorem Sys2Proof.Laws.Encoding.serclkWrite (w : BitVec 32) : Sys2Proof.Laws.Encoding.Statement (.serclkWrite w) := rfl
theorem Sys2Proof.Laws.Encoding.vobWrite (v : BitVec 4) (part : BitVec 3) (w : BitVec 64) : Sys2Proof.Laws.Encoding.Statement
    (.vobWrite v part w) := rfl
theorem Sys2Proof.Laws.Encoding.vrecWrite (v : BitVec 4) (w : BitVec 64) : Sys2Proof.Laws.Encoding.Statement (.vrecWrite v w) := rfl
theorem Sys2Proof.Laws.Encoding.gazeWrite (v : BitVec 4) (w : BitVec 32) : Sys2Proof.Laws.Encoding.Statement (.gazeWrite v w) := rfl
theorem Sys2Proof.Laws.Encoding.embctlWrite (die : BitVec 3) (w : BitVec 32) : Sys2Proof.Laws.Encoding.Statement (.embctlWrite die
    w) := rfl
theorem Sys2Proof.Laws.Encoding.dsctlWrite (die : BitVec 3) (w : BitVec 32) : Sys2Proof.Laws.Encoding.Statement (.dsctlWrite die
    w) := rfl
theorem Sys2Proof.Laws.Encoding.nrbaseWrite (die : BitVec 3) (w : BitVec 64) : Sys2Proof.Laws.Encoding.Statement (.nrbaseWrite die
    w) := rfl
theorem Sys2Proof.Laws.Encoding.deviceRegisterWrite (pa : BitVec 46) (wide : Bool) (w : BitVec 64) :
    Sys2Proof.Laws.Encoding.Statement (.deviceRegisterWrite pa wide w) := rfl
theorem Sys2Proof.Laws.Encoding.flitSend (link : LinkId) (tc : BitVec 2) (payload : List (BitVec 8)) :
    Sys2Proof.Laws.Encoding.Statement (.flitSend link tc payload) := rfl
theorem Sys2Proof.Laws.Encoding.flitReceive (link : LinkId) (header : BitVec 64) (beats : List (BitVec 8)) :
    Sys2Proof.Laws.Encoding.Statement (.flitReceive link header beats) := rfl
theorem Sys2Proof.Laws.Encoding.linkRetrain (link : LinkId) : Sys2Proof.Laws.Encoding.Statement (.linkRetrain link) := rfl
theorem Sys2Proof.Laws.Encoding.retrainComplete (link : LinkId) : Sys2Proof.Laws.Encoding.Statement (.retrainComplete link) := rfl
theorem Sys2Proof.Laws.Encoding.linkDown (link : LinkId) : Sys2Proof.Laws.Encoding.Statement (.linkDown link) := rfl
theorem Sys2Proof.Laws.Encoding.dmaRequest (port : BitVec 2) (rid : BitVec 16) (write : Bool) (addr : BitVec 64) (len : Nat) (data
    : List (BitVec 8)) : Sys2Proof.Laws.Encoding.Statement (.dmaRequest port rid write addr len data) := rfl
theorem Sys2Proof.Laws.Encoding.pcieWindowCompletion (req : Nat) (ok : Bool) (data : BitVec 64) :
    Sys2Proof.Laws.Encoding.Statement (.pcieWindowCompletion req ok data) := rfl
theorem Sys2Proof.Laws.Encoding.thermalThrottle (die : BitVec 3) (temp : BitVec 8) : Sys2Proof.Laws.Encoding.Statement
    (.thermalThrottle die temp) := rfl
theorem Sys2Proof.Laws.Encoding.thermalReset (die : BitVec 3) (temp : BitVec 8) : Sys2Proof.Laws.Encoding.Statement (.thermalReset
    die temp) := rfl
theorem Sys2Proof.Laws.Encoding.thermalTokenRestore (die : BitVec 3) (temp : BitVec 8) : Sys2Proof.Laws.Encoding.Statement
    (.thermalTokenRestore die temp) := rfl
theorem Sys2Proof.Laws.Encoding.faultRecordWrite (die : BitVec 4) : Sys2Proof.Laws.Encoding.Statement (.faultRecordWrite die) := rfl
theorem Sys2Proof.Laws.Encoding.cardPostArrival (die : BitVec 3) : Sys2Proof.Laws.Encoding.Statement (.cardPostArrival die) := rfl
theorem Sys2Proof.Laws.Encoding.cardStoreEntryFreed (die : BitVec 3) : Sys2Proof.Laws.Encoding.Statement (.cardStoreEntryFreed
    die) := rfl
theorem Sys2Proof.Laws.Encoding.counterUpdate (die : BitVec 3) (n : BitVec 12) : Sys2Proof.Laws.Encoding.Statement (.counterUpdate
    die n) := rfl
theorem Sys2Proof.Laws.Encoding.cardReady (die : BitVec 3) : Sys2Proof.Laws.Encoding.Statement (.cardReady die) := rfl
theorem Sys2Proof.Laws.Encoding.teamPlacement (die : BitVec 3) : Sys2Proof.Laws.Encoding.Statement (.teamPlacement die) := rfl
theorem Sys2Proof.Laws.Encoding.admholdExpiry (die : BitVec 3) : Sys2Proof.Laws.Encoding.Statement (.admholdExpiry die) := rfl
theorem Sys2Proof.Laws.Encoding.drainDeadline (team : Nat) : Sys2Proof.Laws.Encoding.Statement (.drainDeadline team) := rfl
theorem Sys2Proof.Laws.Encoding.launchRetirement (die : BitVec 3) (slot : BitVec 12) : Sys2Proof.Laws.Encoding.Statement
    (.launchRetirement die slot) := rfl
theorem Sys2Proof.Laws.Encoding.eventRecord (die : BitVec 3) : Sys2Proof.Laws.Encoding.Statement (.eventRecord die) := rfl
theorem Sys2Proof.Laws.Encoding.eventQueueSlotFreed (die : BitVec 3) : Sys2Proof.Laws.Encoding.Statement (.eventQueueSlotFreed
    die) := rfl
theorem Sys2Proof.Laws.Encoding.decompressionJobEnd (die : BitVec 3) (slot : BitVec 12) : Sys2Proof.Laws.Encoding.Statement
    (.decompressionJobEnd die slot) := rfl
theorem Sys2Proof.Laws.Encoding.waitTableRewalk (die : BitVec 3) (entry : BitVec 10) : Sys2Proof.Laws.Encoding.Statement
    (.waitTableRewalk die entry) := rfl
theorem Sys2Proof.Laws.Encoding.siblingStop (group : Nat) : Sys2Proof.Laws.Encoding.Statement (.siblingStop group) := rfl
theorem Sys2Proof.Laws.Encoding.sibhaltPop (group : Nat) : Sys2Proof.Laws.Encoding.Statement (.sibhaltPop group) := rfl
theorem Sys2Proof.Laws.Encoding.lateFailure (req : Nat) : Sys2Proof.Laws.Encoding.Statement (.lateFailure req) := rfl
theorem Sys2Proof.Laws.Encoding.sleepExpiry (group : Nat) : Sys2Proof.Laws.Encoding.Statement (.sleepExpiry group) := rfl
theorem Sys2Proof.Laws.Encoding.tokenHop (die : BitVec 3) (token : Nat) : Sys2Proof.Laws.Encoding.Statement (.tokenHop die token)
    := rfl
theorem Sys2Proof.Laws.Encoding.burstEnd (die : BitVec 3) (cluster : Nat) : Sys2Proof.Laws.Encoding.Statement (.burstEnd die
    cluster) := rfl
theorem Sys2Proof.Laws.Encoding.reallocDecision (team : Nat) : Sys2Proof.Laws.Encoding.Statement (.reallocDecision team) := rfl
theorem Sys2Proof.Laws.Encoding.llcRequest (req : Nat) : Sys2Proof.Laws.Encoding.Statement (.llcRequest req) := rfl
theorem Sys2Proof.Laws.Encoding.nackResend (req : Nat) : Sys2Proof.Laws.Encoding.Statement (.nackResend req) := rfl
theorem Sys2Proof.Laws.Encoding.domainSwitchPhase : Sys2Proof.Laws.Encoding.Statement (.domainSwitchPhase) := rfl
theorem Sys2Proof.Laws.Encoding.domainNackResend (req : Nat) : Sys2Proof.Laws.Encoding.Statement (.domainNackResend req) := rfl
theorem Sys2Proof.Laws.Encoding.remoteScratchAccess (req : Nat) : Sys2Proof.Laws.Encoding.Statement (.remoteScratchAccess req) := rfl
theorem Sys2Proof.Laws.Encoding.cpaCopyComplete (copy : Nat) : Sys2Proof.Laws.Encoding.Statement (.cpaCopyComplete copy) := rfl
theorem Sys2Proof.Laws.Encoding.bulkCopyComplete (copy : Nat) : Sys2Proof.Laws.Encoding.Statement (.bulkCopyComplete copy) := rfl
theorem Sys2Proof.Laws.Encoding.wbldComplete (team : Nat) (slot : BitVec 9) : Sys2Proof.Laws.Encoding.Statement (.wbldComplete
    team slot) := rfl
theorem Sys2Proof.Laws.Encoding.xfmReply (reply : Nat) : Sys2Proof.Laws.Encoding.Statement (.xfmReply reply) := rfl
theorem Sys2Proof.Laws.Encoding.mtileStep (group : Nat) : Sys2Proof.Laws.Encoding.Statement (.mtileStep group) := rfl
theorem Sys2Proof.Laws.Encoding.sendAtRelay (send : Nat) : Sys2Proof.Laws.Encoding.Statement (.sendAtRelay send) := rfl
theorem Sys2Proof.Laws.Encoding.sendArrival (send : Nat) : Sys2Proof.Laws.Encoding.Statement (.sendArrival send) := rfl
theorem Sys2Proof.Laws.Encoding.sendMoved (send : Nat) : Sys2Proof.Laws.Encoding.Statement (.sendMoved send) := rfl
theorem Sys2Proof.Laws.Encoding.sendStatusReply (send : Nat) (far : Option (BitVec 3)) : Sys2Proof.Laws.Encoding.Statement
    (.sendStatusReply send far) := rfl
theorem Sys2Proof.Laws.Encoding.messageAtRelay (send : Nat) : Sys2Proof.Laws.Encoding.Statement (.messageAtRelay send) := rfl
theorem Sys2Proof.Laws.Encoding.teamEviction (team : Nat) : Sys2Proof.Laws.Encoding.Statement (.teamEviction team) := rfl
theorem Sys2Proof.Laws.Encoding.teamRestore (team : Nat) : Sys2Proof.Laws.Encoding.Statement (.teamRestore team) := rfl
theorem Sys2Proof.Laws.Encoding.flueRecordWrite (die : BitVec 3) : Sys2Proof.Laws.Encoding.Statement (.flueRecordWrite die) := rfl
theorem Sys2Proof.Laws.Encoding.residencyInvalidation (core : Nat) (word : Nat) : Sys2Proof.Laws.Encoding.Statement
    (.residencyInvalidation core word) := rfl
theorem Sys2Proof.Laws.Encoding.snapTriggerRoot : Sys2Proof.Laws.Encoding.Statement (.snapTriggerRoot) := rfl
theorem Sys2Proof.Laws.Encoding.snapshotLatch (die : BitVec 4) : Sys2Proof.Laws.Encoding.Statement (.snapshotLatch die) := rfl
theorem Sys2Proof.Laws.Encoding.meshRingEntry (die : BitVec 3) : Sys2Proof.Laws.Encoding.Statement (.meshRingEntry die) := rfl
theorem Sys2Proof.Laws.Encoding.cullInstance (die : BitVec 3) : Sys2Proof.Laws.Encoding.Statement (.cullInstance die) := rfl
theorem Sys2Proof.Laws.Encoding.primitiveAtBinner (die : BitVec 3) : Sys2Proof.Laws.Encoding.Statement (.primitiveAtBinner die) := rfl
theorem Sys2Proof.Laws.Encoding.primitiveAtOwner (die : BitVec 3) : Sys2Proof.Laws.Encoding.Statement (.primitiveAtOwner die) := rfl
theorem Sys2Proof.Laws.Encoding.drawEndMarker (die : BitVec 3) : Sys2Proof.Laws.Encoding.Statement (.drawEndMarker die) := rfl
theorem Sys2Proof.Laws.Encoding.primitiveApply (die : BitVec 3) (tile : Nat) : Sys2Proof.Laws.Encoding.Statement (.primitiveApply
    die tile) := rfl
theorem Sys2Proof.Laws.Encoding.stripStart (view : BitVec 4) : Sys2Proof.Laws.Encoding.Statement (.stripStart view) := rfl
theorem Sys2Proof.Laws.Encoding.sealArrival : Sys2Proof.Laws.Encoding.Statement (.sealArrival) := rfl
theorem Sys2Proof.Laws.Encoding.replacementInstant (view : BitVec 4) : Sys2Proof.Laws.Encoding.Statement (.replacementInstant
    view) := rfl
theorem Sys2Proof.Laws.Encoding.replacementNotice (team : Nat) : Sys2Proof.Laws.Encoding.Statement (.replacementNotice team) := rfl
theorem Sys2Proof.Laws.Encoding.powerLoss : Sys2Proof.Laws.Encoding.Statement (.powerLoss) := rfl
theorem Sys2Proof.Laws.Encoding.memoryReply (req : Nat) : Sys2Proof.Laws.Encoding.Statement (.memoryReply req) := rfl
theorem Sys2Proof.Laws.Encoding.llcMissFill (line : Nat) : Sys2Proof.Laws.Encoding.Statement (.llcMissFill line) := rfl
theorem Sys2Proof.Laws.Encoding.coreReset (core : Nat) : Sys2Proof.Laws.Encoding.Statement (.coreReset core) := rfl
theorem Sys2Proof.Laws.Encoding.retrainingAttemptFailure (link : LinkId) : Sys2Proof.Laws.Encoding.Statement
    (.retrainingAttemptFailure link) := rfl
end

