-- ==== Sys2Proof/Laws/Sm.lean ====
section
/-! SUPPORT. A form of SM2's verification that a proof can evaluate: inverses by 32 powers of one byte each. -/

namespace Sys2Proof.Machine.Sm2

theorem powMod_eq (x e k : Nat) : powMod x e k = x ^ (e % 2 ^ k) % p := by
  induction k generalizing x e with
  | zero => simp [powMod, Nat.mod_one, p]
  | succ k ih =>
    have h : e % 2 ^ (k + 1) = 2 * (e / 2 % 2 ^ k) + e % 2 := by
      rw [Nat.pow_succ, Nat.mul_comm (2 ^ k) 2, Nat.mod_mul]; omega
    simp only [powMod, ih, h]
    rcases Nat.mod_two_eq_zero_or_one e with h0 | h1
    · simp [h0, Nat.pow_mul, Nat.pow_mod, Nat.pow_two]
    · simp [h1, Nat.pow_add, Nat.pow_mul, Nat.pow_mod, Nat.pow_two, Nat.mul_mod, Nat.mul_comm]

/-- x to the power that the digits give in base 256, highest first. -/
def bytePow (x : Nat) (ds : List Nat) : Nat := ds.foldl (fun v d => v ^ 256 % p * (x ^ d % p) % p) 1

theorem bytePow_eq (x : Nat) (ds : List Nat) : bytePow x ds = x ^ (ds.foldl (fun n d => 256 * n + d) 0) % p := by
  have h : ∀ (ds : List Nat) (n : Nat), ds.foldl (fun v d => v ^ 256 % p * (x ^ d % p) % p) (x ^ n % p) =
      x ^ (ds.foldl (fun n d => 256 * n + d) n) % p := by
    intro ds
    induction ds with
    | nil => intro n; rfl
    | cons d ds ih =>
      intro n
      have e : (x ^ n % p) ^ 256 % p * (x ^ d % p) % p = x ^ (256 * n + d) % p := by
        rw [← Nat.pow_mod, ← Nat.mul_mod, ← Nat.pow_mul, ← Nat.pow_add, Nat.mul_comm n 256]
      simp only [List.foldl_cons, e, ih]
  have h1 : x ^ 0 % p = 1 := by simp [p]
  have := h ds 0
  rwa [h1] at this

/-- The bytes of p - 2. -/
def invDigits : List Nat :=
  [255, 255, 255, 254, 255, 255, 255, 255, 255, 255, 255, 255, 255, 255, 255, 255] ++
    [255, 255, 255, 255, 0, 0, 0, 0, 255, 255, 255, 255, 255, 255, 255, 253]

theorem inv_eq (x : Nat) : inv x = bytePow (x % p) invDigits := by
  rw [inv, powMod_eq, bytePow_eq]; rfl

/-- The sum of two points, and a multiple of one, with such inverses. -/
def quickAdd (u v : Option (Nat × Nat)) : Option (Nat × Nat) :=
  match u, v with
  | none, v => v
  | u, none => u
  | some (x, y), some (z, w) =>
    if x = z ∧ (y + w) % p = 0 then none
    else
      let l := if x = z then (3 * x * x + a) * bytePow ((2 * y) % p) invDigits % p
        else (w + p - y) * bytePow ((z + p - x) % p) invDigits % p
      let t := (l * l + 2 * p - x - z) % p
      some (t, (l * (x + p - t) + p - y) % p)

theorem quickAdd_eq (u v : Option (Nat × Nat)) : quickAdd u v = add u v := by
  rcases u with _ | ⟨x, y⟩ <;> rcases v with _ | ⟨z, w⟩ <;> simp only [quickAdd, add, inv_eq]

def quickMul (f : Nat) (u : Option (Nat × Nat)) : Nat → Option (Nat × Nat)
  | 0 => none
  | k + 1 => let r := quickMul (f / 2) (quickAdd u u) k; if f % 2 = 1 then quickAdd u r else r

theorem quickMul_eq (f : Nat) (u : Option (Nat × Nat)) (k : Nat) : quickMul f u k = mul f u k := by
  induction k generalizing f u with
  | zero => rfl
  | succ k ih => simp only [quickMul, mul, ih, quickAdd_eq]

/-- Verification with these. -/
def quickVerifies (key : BitVec 512) (e : BitVec 256) (sig : BitVec 512) : Bool :=
  let x := key.toNat / 2 ^ 256
  let y := key.toNat % 2 ^ 256
  let r := sig.toNat / 2 ^ 256
  let s := sig.toNat % 2 ^ 256
  let t := (r + s) % n
  onCurve x y && decide (0 < r) && decide (r < n) && decide (0 < s) && decide (s < n) && t != 0 &&
    (match quickAdd (quickMul s (some (gx, gy)) 256) (quickMul t (some (x, y)) 256) with
      | some (x1, _) => (e.toNat + x1) % n == r
      | none => false)

theorem verifies_eq (key : BitVec 512) (e : BitVec 256) (sig : BitVec 512) : verifies key e sig = quickVerifies key e sig := by
  simp only [verifies, quickVerifies, quickAdd_eq, quickMul_eq] <;> rfl

end Sys2Proof.Machine.Sm2
end

