-- ==== Sys2Proof/Tests/Slice0.lean ====
section
/-! SUPPORT. The model's own tests: words written out from the spec's encodings, ill-formed terms, values worked from the rules, and for
every hypothesis of the statements a state that meets it. -/

open Sys2Proof Sys2Proof.Machine Sys2Proof.Claims

namespace Sys2Proof.Tests

set_option Elab.async false

/-! Words written bit by bit from the formats of R316 and the opcode map (R333 to R336), one or more for each major. -/

noncomputable def wordsOfPipeA : List (Word × Instr) :=
  [(0b0_000000_0000000000000000000000000#32, .nop false),
   (0b1_000001_0_111_0000011_0000100_0000101#32, .isubb true false 3 4 5),
   (0b0_000010_0_011_0000011_0000100_0000101#32, .imad false false 3 4 5),
   (0b0_000011_1_101_0000011_0000100_0000000#32, .popc false true 3 4),
   (0b0_000100_0_110_0000011_0000100_0000101#32, .bfi false false 3 4 5),
   (0b0_000101_0_010_0000110_0000100_0000101#32, .icmpLtS false false 6 4 5),
   (0b0_000110_0_111_0000011_0000100_0000101#32, .sel false false 7 3 4 5),
   (0b0_000111_0_010_0000011_0000000_0111111#32, .movs false false 3 63),
   (0b0_000111_0_101_0000010_0000100_0000000#32, .pmov false false 2 4),
   (0b0_001000_0_0000011_0000100_1111111111#32, .iaddi false false 3 4 0x3FF none),
   (0b0_001001_1_0000011_0000000_0000000111#32, .movi false true 3 7 none),
   (0b0_001010_0_111_0000011_0000100_0000000#32, .fract false false 3 4),
   (0b0_001011_0_011_0000011_0000100_0000101#32, .fnma false false 3 4 5),
   (0b0_001100_0_110_0000001_0000100_0000101#32, .fcmpUnord false false 1 4 5),
   (0b0_001101_0_101_0000011_0000100_0000101#32, .hfmaBf16x2 false false 3 4 5),
   (0b0_001110_0_001_0000011_0000100_0000000#32, .frsq false false 3 4),
   (0b0_001111_0_011_0000010_0000100_0000110#32, .dfma false false 2 4 6),
   (0b0_010000_0_001_0000011_0000100_0_010_000#32, .cvt false false 1 3 4 2 0),
   (0b0_010001_0_101_0000011_0000100_0000101#32, .cvtnE2m1bSr false false 3 4 5),
   (0b0_010010_0_100_0000001_0000100_0000110#32, .dcmpLe false false 1 4 6),
   (0b0_010011_0_110_0000011_0000101_0000000#32, .voteBallot false false 3 5),
   (0b0_010011_0_111_0000011_0000100_0000010#32, .qswz false false 3 4 2),
   (0b0_010100_0_101_0000011_0000100_0000000#32, .scanAddF32 false false 3 4),
   (0b0_010101_0_011_0000011_0000100_0001111#32, .ipac false false 3 4 15),
   (0b0_010110_0_010_0000011_0000000_0000000#32, .rhit false false 3),
   (0b0_011000_0_000_0000011_0000100_0111110#32, .iaddScalarB false false 3 4 62),
   (0b0_011001_0_011_0000011_0000100_0000101#32, .andnScalarB false false 3 4 5),
   (0b0_011010_0_011_0000011_0000100_0000101#32, .fmaxScalarB false false 3 4 5),
   (0b0_011011_1_001_0000011_0000100_0000101#32, .fmaScalarB false true 3 4 5)]

noncomputable def wordsOfPipeM : List (Word × Instr) :=
  [(0b0_100000_1110_000010_000100_000110_000#32, .sadd64 false 2 4 6),
   (0b0_100001_0010_000101_100000000000001#32, .sori false 5 0x4001 none),
   (0x44410828#32, .scmpLtS false 2 4 5),
   (0b0_100011_0000_000010_001110_000000_000#32, .getsr false 2 14),
   (0b0_100100_0010_111010_000111_000000_000#32, .wquery false 58 7),
   (0b0_100101_0_100_0010000_0100000_011_0101#32, .ld false false 4 16 32 3 5 none),
   (0b0_100110_0_010_0010000_0100000_011_0101#32, .st false false 2 16 32 3 5 none),
   (0b0_100111_0_101_0010000_0100000_001_0101#32, .stg false false 5 16 32 5 none),
   (0b0_101000_1_011_0010000_0100000_000_0000#32, .lds false true 3 16 32 0 none),
   (0b0_101001_0110_000100_000010_000011_000#32, .ldc false 6 4 2 3),
   (0b0_101010_1_1001_0000100_0000110_011_10_1#32, .atom false true 9 4 6 3 2 1),
   (0b0_101011_0_1110_0000100_0000110_000_01_0#32, .atoms false false 14 4 6 1 0),
   (0b0_101100_0_110_0001000_0000100_010_0000#32, .ldt false false 6 8 4 2),
   (0b0_101101_0_010_0001000_0000100_010_10_01#32, .smpTrilinear false false 8 4 2 2 1),
   (0x5C100004#32, .fenceRel false 2),
   (0b0_101110_0_0101_0000000_0000100_010_00_0#32, .pf false false 4 2),
   (0b0_101111_0_0000_0000011_0000100_010_11_1#32, .cpa false false 3 4 2 3 1),
   (0b0_110000_0001_000010_000100_000101_000#32, .cpq false 2 4 5),
   (0b0_110001_0100_000011_000100_000101_000#32, .tbtest false 3 4 5),
   (0x64410A12#32, .rsendRel false false 8 40 9),
   (0b0_110011_0000_000010_000100_000101_000#32, .mring false 2 4 5),
   (0b0_110100_0_0010_0000011_0000100_010_00_1#32, .resq false false 3 4 2 1),
   (0b0_110101_0_000_0000011_0000100_0010000#32, .memitV false false 3 4 16),
   (0b0_110110_0010_001111_000100_000101_000#32, .hmask false 15 4 5)]

noncomputable def wordsOfPipeX : List (Word × Instr) :=
  [(0b0_111000_001_010_1111111111111111111#32, .brc false 2 0x7FFFF none),
   (0b0_111000_100_111_0000000000000000000#32, .join false),
   (0b0_111000_101_111_0000000000000111110#32, .brx false 62),
   (0b0_111001_000_111_0000000000000000011#32, .call false 3 none),
   (0b0_111001_010_001_0000000000000000000#32, .exit false 1),
   (0b0_111010_0010_000011_000100_000000_000#32, .barRealloc false 3 4),
   (0b0_111011_0001_000011_000100_000000_000#32, .lgrow false 3 4),
   (0b0_111100_010_0100000_0010000_000101_01#32, .mmqg false 32 16 5 1),
   (0b0_111101_0010_000011_000100_000000_000#32, .wbstat false 3 4),
   (0b0_111110_0_0100_0000111_0001001_000001#32, .quant false false 7 9 1),
   (0b0_111111_0000000000000000000000001#32, .lit false 1)]

/-- A word decodes to an instruction and is its encoding. -/
noncomputable def reads (x : Word × Instr) : Bool := (match decode [x.1] with
  | .ok (i, []) => i == x.2
  | _ => false) && encode x.2 == [x.1]

theorem test_decode_pipe_a : ∀ x ∈ wordsOfPipeA, reads x = true := by decide +kernel
theorem test_decode_pipe_m : ∀ x ∈ wordsOfPipeM, reads x = true := by decide +kernel
theorem test_decode_pipe_x : ∀ x ∈ wordsOfPipeX, reads x = true := by decide +kernel

/-- LIT joined to its word (R315): the literal stands above the field. -/
theorem test_decode_lit : (match decode [0b1_111000_000_111_0000000000000000101#32, 0b0_111111_1111111111111111111111111#32] with
    | .ok (.bra false 5 (some l), []) => l == 0x1FFFFFF
    | _ => false) = true := by decide +kernel

/-- Decoding refuses a word. -/
noncomputable def refused (w : Word) : Bool :=
  match decode [w] with
  | .ok _ => false
  | .error _ => true

/-- Words that no row has: a set bit beside NOP, a reserved major, a reserved member, an unused field that is not zero (R312, R317, R322). -/
theorem test_decode_refuses : [0x00000001#32, 0b0_010111_0_000_0000000_0000000_0000000#32, 0b0_001011_0_100_0000011_0000100_0000101#32,
    0b0_000011_1_101_0000011_0000100_0000001#32, 0b0_111000_100_000_0000000000000000000#32].all refused = true := by decide +kernel

/-! Ill-formed terms, one for each check of WellFormed. -/

noncomputable def illFormed : List Instr :=
  [.cvt false false 0 3 4 1 0, .cvt false false 6 3 4 1 0, .cvt false false 0 3 4 5 1, .cvt false false 0 3 4 1 6, .xrel false false 3 4 5,
   .xrel3 false false 3 4 60, .ipa false false 3 4 16, .ipac false false 3 4 16, .sadd64 false 3 4 6, .ssub64 false 2 4 7, .smovhi false 3 1 none,
   .getsr false 3 15, .getsr false 3 6, .setsr false 9 4, .setsr false 11 3, .bind false 1 3, .wquery false 60 1, .wquery false 3 1,
   .ld false false 7 3 4 1 0 none, .st false false 1 3 4 1 0 none, .ldg false false 7 3 4 0 none, .stg false false 3 3 4 0 none,
   .lds false false 7 3 4 0 none, .sts false false 1 3 4 0 none, .ldc false 4 3 5 6, .ldc false 5 3 4 6, .ldc false 6 2 4 6, .ldc false 7 4 4 6]

noncomputable def illFormedToo : List Instr :=
  [.ldt false false 3 3 4 1, .smpPoint false false 4 8 1 3 0, .smpBilinear false false 4 8 1 0 3, .smpTrilinear false false 4 8 1 3 3,
   .cwb false 3 4, .cpbulk false 3 4 5, .cpq false 3 4 5, .mkcap false 3 4, .rsend false false 3 4 0, .rsendT false false 62 4 0,
   .rsendRel false false 3 4 0, .rsendRelT false false 62 4 0, .msend false 3 5 4, .memitV false false 3 4 17, .tlbinv false 3 4 5,
   .tlbinv false 2 5 5, .winv false 3 4, .hmask false 1 6 5, .evict false 1 2 3, .brx false 5, .post false 3 4, .post false 0 5,
   .evpost false 6, .mtile false 3 5 0, .wbld false 3 4, .had16 false false 3 4 3, .had32 false false 3 4 4, .had64 false false 3 4 7,
   .absmax false false 3 4 3, .absmax false false 3 4 12, .quant false false 3 4 3, .quant false false 3 4 16, .bmenc false false 3 4 3,
   .bmdec false false 3 4 4, .pscan false false 3 4 3]

theorem test_ill_formed : ∀ i ∈ illFormed ++ illFormedToo, i.wellFormed = false := by decide +kernel

/-- Page tables that map the low 1 GiB one to one for contexts 0 and 1, whose context entries stand at 0x1000. -/
def ram : List Host.Cell :=
  [(0x1000, 1), (0x1002, 1), (0x1012, 1), (0x101A, 5), (0x1032, 4), (0x1040, 1), (0x1042, 2), (0x1052, 1), (0x105A, 5), (0x1072, 4),
   (0x10000, 1), (0x10001, 0x20), (0x10002, 1), (0x12000, 1), (0x12001, 0x30), (0x12002, 1), (0x13000, 0x3F),
   (0x50004, 24), (0x50005, 64), (0x50006, 0xC0)]

/-- The scalars of the test group: a pair of addresses in memory, an offset, and small numbers. -/
def scalars : AMap Word := [(2, 64), (4, 0x600000), (6, 0x700000), (8, 1), (10, 1024), (12, 16), (14, 2)]

/-- A window over the whole of the mapped memory. -/
def win : Window := { vbase := 0, limit := 0x3FFFFFFF, w := true, r := true, u := true, bound := true, live := true }

/-- A group with three active lanes and nothing pending. -/
def g0 : Group :=
  { pc := 64, active := 0x80000005, sregs := scalars, preds := [(0, 1)], trapbase := 0x40000, windows := [(1, win)], fpm := 0x3F0 }

/-- Group 64 of team 2, alone on core 0. -/
def s0 : State :=
  { State.reset with
    cur := 64, nextPc := 68, clock := 17, groups := [(64, g0)]
    teams := [(2, { ctx := 1, regs := 128, scr := 1, ngroups := 1 })]
    cores := [(0, { tlb := [{ asid := 2, glob := false, page := 0, size := 2 ^ 30, pa := 0, r := true, w := true, x := true, u := true }] })]
    dies := [(0, { running := true, tokens := [{ cluster := 0, arrives := none }], cards := [(0, { bits := 0, addr := 0x8000, ctx := 1, posted := 0, st := .serving })] })]
    mem := { hbm := ram, idw := [(0, 0x80000000001C0000#64)] }
    io := { ctxbase := 0x1000 } }

/-- The test state with its group, its team, or its die changed. -/
def withG (f : Group → Group) (s : State := s0) : State := onGroup 64 f s
def withT (f : Team → Team) (s : State := s0) : State := onTeam 2 f s
def withD (f : Die → Die) (s : State := s0) : State := onDie 0 f s

/-- A descriptor of one byte at offset 1024, for `cpbulk`; of one FP32 element, for `cpq`. -/
def plainDesc : AMap Byte := [(1025, 1), (1095, 0x50)]
def quantDesc : AMap Byte := [(1024, 4), (1025, 1), (1095, 0x50)]
/-- A barrier at offset 1024 whose phase 2 has ended with a failure. -/
def lostBar : AMap Byte := [(1033, 0x42)]

/-- A load of the test group on its way: from memory at `pa`, or from its own scratchpad by its team's address. -/
def reqAt (space : ReqSpace) (pa : Nat) : Req :=
  { group := 64, core := 0, lane := 0, op := .load 100 4, space := space, pa := pa, va := BitVec.ofNat 64 pa, size := 4, ctx := 1 }
def withReq (r : Req) (s : State := s0) : State := onMem (fun m => { m with net := [(3, r)], nextId := 8 }) s
def awaiting (s : State) : State := withReq (reqAt .llc 0x600000) s
def awaitingStore (pa : Nat) (s : State) : State := withReq { reqAt .llc pa with op := .store } s
def ownRemotely (s : State) : State := withReq (reqAt (.remote 2) 0) s

/-- The test group in supervisor mode. -/
def sup (s : State := s0) : State := withG (fun g => { g with mode := 1 }) s

/-- A second team with an entry in the team table (R283), in the state of one resident, parked, being evicted, or evicted. -/
def other (st : Nat) (t : Team) (s : State) : State :=
  onMem (fun m => putNat m (0x40000 + 16 * 9) 16 (st * 2 ^ 62 + 0x800000 * 2 ^ 64)) { s with teams := Maps.set s.teams 9 t }
def evictArgs (s : State) : State := withG (fun g => { g with mode := 1, sregs := [(8, 0x100009), (4, 0x800000), (20, 0x800001)] }) s
def evictable (s : State) : State := other 1 { ctx := 1, regs := 16, scr := 0, ngroups := 1, parkedCnt := 1 } (evictArgs s)
def unparked (s : State) : State := other 1 { ctx := 1, regs := 16, scr := 0, ngroups := 1 } (evictArgs s)
def evicting (s : State) : State := other 1 { ctx := 1, regs := 16, scr := 0, ngroups := 1, parkedCnt := 1, evicting := some (0x800000, 65) } (evictArgs s)
def restorable (s : State) : State := other 2 { ctx := 1, regs := 16, scr := 0, ngroups := 1 } (evictArgs s)

/-- A tiered resource of one resident page of RGBA8 texels, named by window 3 (R257 to R261). -/
def tiered (s : State := s0) (resident : Byte := 1) (firn : Byte := 0) : State :=
  withG (fun g => { g with windows := [(1, win), (3, { win with vbase := 0x602000 })] })
    (onMem (fun m => { m with hbm := (ram ++ [(0x602002, 0x40), (0x602003, 2)] ++ (if firn = 0 then [] else [(0x602004, firn)]) ++ [(0x602031, 0x40), (0x602032, 0x60), (0x602039, 0x30), (0x60203A, 0x60),
      (0x603004, 1), (0x603006, 1), (0x60300A, 0x70)] ++ (if resident = 0 then [] else [(0x604000, resident)])) }) s)

/-- A weight slot 0 as given. -/
def slot0 (w : WSlot) (s : State := s0) : State := withT (fun t => { t with wslots := [(0, w), (1, w)] }) s
def noToken (s : State) : State := withD (fun d => { d with tokens := [] }) s
/-- A command block at offset 1024 for one column and one step (R450). -/
def command (s : State) : State :=
  withT (fun t => { t with scratch := [(1048, 1), (1050, 1)] }) (withG (fun g => { g with sregs := [(10, 1024)] }) s)

def meshTeam (s : State := s0) : State := withT (fun t => { t with kind := .mesh 0 }) s
def taskTeam (s : State := s0) : State := withT (fun t => { t with kind := .task }) s
def tileTeam (s : State := s0) : State := withT (fun t => { t with kind := .tile {} 3 2 0, scr := 4 }) s
def noticed (s : State) : State := withT (fun t => { t with noticed := true }) s
/-- A ray whose stack is empty, and one that has ended on a hit (R474, R475). -/
def rayEnd (s : State := s0) : State := withG (fun g => { g with vregs := [(16 * 32 + 7 * 32, 0)] }) s
/-- A lane whose ray's stack holds one reference, to the node at 0x600000. -/
def toNode (s : State) : State := withG (fun g => { g with active := 1, vregs := [(31 * 32, 16), (32 * 32, 0x600000), (33 * 32, 0x40000000)] }) s

/-! Device states. -/

def byteNums (bs : List Nat) : List Byte := bs.map (BitVec.ofNat 8)
/-- A number stored in memory. -/
def poke (pa n v : Nat) (s : State) : State := onMem (fun m => putNat m pa n v) s
/-- The test group with lane 0 at an address, another base, an odd or far index, or a `.t` send answered. -/
def laneTo (v : Word) : State := withG fun g => { g with vregs := [(64 * 32, v), (65 * 32, 0)] }
def at4 (lo hi : Word) (s : State := s0) : State := withG (fun g => { g with sregs := [(4, lo), (5, hi)] }) s
def odd : State := withG fun g => { g with ix := 1 }
def far : State := withG fun g => { g with ix := 100 }
def answered (code : Nat) : State := withG fun g => { g with waiting := some (.sendDone code), tileSrc := some ([], []) }
/-- The page at 0x40000000 to be mapped at its first touch, from a pool of five frames (R191, R192). -/
def pooled (s : State) : State := poke 0x13008 8 0x80 (poke 0x50018 8 0x60000 (poke 0x60008 4 5 s))
/-- A running package: the dies 0 to 9, every link up. -/
def p0 : State :=
  { s0 with
    clock := 1000, dies := (List.range 10).map fun d => (d, { running := true, tokens := [{ cluster := 0, arrives := none }] })
    boot := { phase := .running } }
def mem (f : Mem → Mem) (s : State := p0) : State := onMem f s
def req (f : Req → Req) (s : State := p0) : State := withReq (f (reqAt .llc 0x600000)) s
/-- The line that holds 0x600000, in its slice. -/
def cached (s : State) : State := mem (fun m => { m with llc := [(0x18000, { data := 77, dirty := false })] }) s
/-- A format window over 0x600000 (R213); an access of the test group to the scratchpad of team 9, which is resident with `n` units, or
evicted; and its context destroyed. -/
def viewed (s : State) : State :=
  onMem (fun m => { m with fw := [(0, BitVec.ofNat 256 (2 ^ 255 + 2 ^ 252 + 0x61 * 2 ^ 192 + 0x60 * 2 ^ 16 + 0x700000 * 2 ^ 64 + 0x710000 * 2 ^ 128))] }) s
def toTeam (f : Req → Req) (s : State := p0) : State := req (fun r => f { r with space := .remote 9, pa := 0 }) s
def there (n : Nat) : State := other 1 { ctx := 1, scr := n } p0
def away : State := poke 0x800013 1 1 (other 2 { ctx := 1, scr := 1 } p0)
def noCtx (s : State) : State := poke 0x1040 1 0 s
def view (f : View → View) (s : State := p0) : State := { s with display := { s.display with views := [(0, f {})] } }
def die (f : Die → Die) (s : State := p0) : State := onDie 0 f s
def card (c : Card) (s : State := p0) : State := die (fun d => { d with cards := [(2, c)] }) s
/-- A card of one thread in one team (R69), with more bits. -/
def cardOf (more : Nat) : Line := BitVec.ofNat 512 (2 ^ 256 + 2 ^ 224 + 2 ^ 208 + 2 ^ 192 + 0x600000 * 2 ^ 64 + 64 + more)
def c0 : Card := { bits := cardOf 0, addr := 0x8000, ctx := 1, posted := 0, st := .released, count := 1 }
def link (k : Link) (s : State := p0) : State := setLink (.port 3) k s
def named (s : State := p0) : State := { s with boot := { s.boot with pkg := some 0 } }
def payload : List Byte := List.replicate 64 1

def domSwitch (phase k : Nat) (group : Option Nat) : DomSwitch := { k := k, idw := 0x80000000001C0000#64, hmask := 0, phase := phase, group := group }
/-- A waiting group and its entry in the wait table of die 0 (R194). -/
def parkedState (entry : Nat) (e : WaitEntry) (acc : Acc := .load) : State :=
  die (fun d => { d with waits := [(entry, e)] }) (withT (fun t => { t with parkedCnt := 1 })
    (withG (fun g => { g with parked := some entry, parkReq := some { reason := .notmapped, mask := 1, addr := 0x600000, acc := acc, byPage := true, user := true } }) p0))
def waitEntry : WaitEntry := { byPage := true, asid := 2, page := 0x60, acc := .load, user := true, ctx := 1, rewalk := true }
def oneOp (k : CtrKind) (src : CtrSrc) (v : Nat) : State :=
  die (fun d => { d with ctrOps := [{ idx := 5, kind := k, src := src, rank := 0 }], ctrs := Maps.put 0 [] 5 (BitVec.ofNat 20 v) })
def event (bits : Nat) : Event := { bits := BitVec.ofNat 128 bits, ctx := 1, region := 0 }
def token (arrives : Option Nat) : Token := { cluster := 0, arrives := arrives }
def plain (s : State) : State := poke 0x1040 1 5 s
def realloc (w : Word) : State :=
  withT (fun t => { t with barIn := 1, reallocs := [(0, w)] }) (withG (fun g => { g with waiting := some (.realloc 3) }) p0)
def placeable (s : State) : State := { s with groups := [], teams := [], cores := [] }
/-- A decompression job whose record stands at an address (R434). -/
def jobAt (param : Dword) (s : State) : State :=
  die (fun d => { d with jobs := [{ slot := 2 }] }) (card { c0 with st := .engine, bits := BitVec.ofNat 512 (param.toNat * 2 ^ 64) } s)
def withRec (s : State) : State :=
  die (fun d => { d with frecs := [{ cause := 5, reason := .nophys, ctx := 1, region := 0, die := 0, core := 0 }] }) s
/-- The fault queue of region 0 (R67, R497). -/
def queue (base : Nat) (s : State) : State := poke 0x50008 8 base s
def withFlue (s : State) : State :=
  die (fun d => { d with flues := [{ ring := 3, rid := 5, wanted := 0, got := 1, nest := false, px := 0, py := 0, region := 0, core := 0, ctx := 1, seq := 0 }] }) s
def flueRing (s : State) : State := { s with io := { s.io with frtab := [(3, BitVec.ofNat 128 (0x700000 + 2 ^ 64 + 2 ^ 116))] } }
def snap (x : Snap) : State := { p0 with io := { p0.io with snaps := [(3, x)] } }
/-- A view record of a grid of 64 by 64 pixels (R119). -/
def viewRecord : List Byte := List.replicate 216 0 ++ [64, 0, 64, 0] ++ List.replicate 36 0
def running (v : View) (scount : Nat) : State :=
  { p0 with display := { serclk := 0x00010401, scount := BitVec.ofNat 64 scount
                         views := [(0, { v with vob := BitVec.ofNat 512 (4000000 * 2 ^ 224 + 500000 * 2 ^ 192) })] } }
def sealed (v : View) : State :=
  { p0 with display := { views := [(0, { v with record := some viewRecord })], seals := [{ view := 0, strip := 0, frame := 0, tx := 0, ty := 0, colour := List.replicate 8192 0 }] } }
def endpointAt (pa e : Nat) : State :=
  poke 0x80000 8 (e + 2 ^ 52) (poke 0x13000 8 (pa + 0x3F) { p0 with io := { p0.io with dmatab := [(0, 0x80001)] } })
def endpoint (e : Nat) : State := endpointAt 0 e
def waiting : State := { p0 with boot := { phase := .waiting } }
/-- What a test changes of a copy of lane 0. -/
structure CopyArgs where
  toGlobal : Bool := false
  valid : Nat := 4
  off : Dword := 0x600000
  win : Window := win
def copyState (a : CopyArgs) : State :=
  { p0 with copies := [(5, { group := 64, lane := 0, tag := 0, inst := 1, toGlobal := a.toGlobal, size := 4, valid := a.valid, scr := 64, win := a.win,
                             wnum := 1, off := a.off, sup := false, pc := 64 })] }
def residentTlt (s : State) : State := onMem (fun m => putNat m 0x40020 16 (2 ^ 62)) s
def moveTlt (s : State) : State := onMem (fun m => putNat m 0x40020 16 (2 ^ 62 + 2 ^ 61)) s
/-- A send to a register of the test group by a capability over it. -/
def sendOf (a : Word) (s : State) : Send :=
  { group := 64, msg := false, sreg := 16, trap := false, rel := false, rnc := capOf s a, k := 0, lmask := 1, words := [(0, 7)], bytes := [],
    ctx := 1, remote := none, scope := 0, mask := 1, pc := 64 }
def withSend (f : Send → Send) (a : Word) (s : State := residentTlt p0) : State := { s with sends := [(5, f (sendOf a s))] }
def bulkDesc (ev : Byte) : List Byte := [16 * ev, 1] ++ List.replicate 69 0 ++ [0x50] ++ List.replicate 120 0
def bulkState (ev : Byte) : State :=
  { p0 with bulks := [(5, { group := 64, slot := 0, core := 0, team := 2, gen := 0, ctx := 1, region := 0, die := 0, quant := false, gbase := 0x600000,
                            bar := 64, desc := bulkDesc ev, tag := 0, sup := false, mask := 1, pc := 64 })] }
/-- A command block of one step whose weight image fills the end of its page (R450, R453). -/
def tileBlock : List Byte := Maps.natLe 0x600000 8 ++ Maps.natLe 0x70FEC0 8 ++ Maps.natLe 128 4 ++ Maps.natLe 4096 4 ++ [1, 0, 1, 0] ++ List.replicate 36 0
def tileState : State :=
  poke 0x70FEC4 4 0x140 (withT (fun t => { t with wslots := [(0, { held := true }), (1, { held := true })] })
    (withG (fun g => { g with waiting := some (.mtile 32 10 false tileBlock), sregs := [] }) p0))
def evictedTlt (n : Nat) (s : State) : State :=
  poke 0x800014 4 n (poke 0x800010 4 (8 + 2 ^ 8) (onMem (fun m => putNat m 0x40020 16 (2 * 2 ^ 62 + 0x800000 * 2 ^ 64)) s))
def ringed (head : Nat) (s : State) : State := withT (fun t => { t with rings := [(1, { en := true, base := 64, log := 2, slot := 0, head := head })] }) s

/-- A draw card of `cnt` instances whose cull unit comes to instance `next`; a record of none and the views of none (R108 to R110). -/
def cullState (next cnt : Nat) : State :=
  card { c0 with st := .serving, cullDone := false, cullNext := next, drec := Maps.natLe (0x110000 * 2 ^ 896 + cnt * 2 ^ 480 + 5 * 2 ^ 436 + 2 ^ 384) 128 }
/-- A draw card whose frame record has number 9, and a view whose strip 0 of that frame has latched. -/
def frameCard : Card := { c0 with st := .serving, frec := Maps.natLe (0x101000 + 256 * 2 ^ 192 + 2 ^ 224 + 9 * 2 ^ 240) 64 }
def latched (s : State) : State := { s with display := { s.display with views := [(0, { latches := [(0, BitVec.ofNat 64 (9 * 2 ^ 48))], past := [BitVec.ofNat 64 (9 * 2 ^ 48)], strip := some 36, deadline := 9000000, opened := true })] } }
def binState (views : List Nat) : State :=
  latched (die (fun d => { d with prims := [{ slot := 2, draw := 0, ordinal := 5, rate := 0, verts := [], views := views }] }) (card frameCard))
def late (s : State) : State := { s with display := { s.display with views := [(0, { strip := some 44 })] } }
/-- A primitive of draw 0 at the owner of tile (0, 0) of frame record 0x100000. -/
def viewPrim : ViewPrim := { draw := 0, ord := 5, rate := 0, die := 0, slot := 2, verts := [] }
def ownState (room : Nat) (t : Tile → Tile) : State :=
  poke 0x100000 8 0x101000 (poke 0x100018 4 room (poke 0x10001E 2 9 (latched (die (fun d => { d with
    binMsgs := [.prim 0x100000 9 1 0 0 0 0 viewPrim]
    tiles := [(tileKey 1 0x100000 9 0 0 0 0, t { view := 0, strip := 0, tx := 0, ty := 0, fr := 0x100000, frame := 9, ctx := 1 })] }) (card frameCard)))))
/-- A tile whose team is placed, with one triangle to apply. -/
def corner (x y : Word) : List Word := [x, y, 0x3F000000, 0x3F800000] ++ List.replicate 16 0x3F800000
def applyPrims : List ViewPrim := [{ viewPrim with verts := [corner 0xBF800000 0xBF800000, corner 0x3F800000 0xBF800000, corner 0xBF800000 0x3F800000] }]
def applyTeam : Team :=
  { ctx := 1, slot := 2, regs := 64, scr := 4, ngroups := 1, kind := .tile { frame := 9, rec_ := viewRecord } 0 0 0x100000
    rings := [(0, { en := true, base := 65536, log := 10, slot := 3 })] }
def applyState : State :=
  die (fun d => { d with tiles := [(tileKey 1 0x100000 9 0 0 0 0, { view := 0, strip := 0, tx := 0, ty := 0, fr := 0x100000, frame := 9, ctx := 1, team := some 7, prims := applyPrims })] })
    { card frameCard with teams := [(7, applyTeam)] }
def restoreState : State :=
  poke 0x800008 4 5 (poke 0x50000 8 (0x1FF * 2 ^ 16 + 192 * 2 ^ 32 + 256 * 2 ^ 40 + 96 * 2 ^ 49) (evictedTlt 0
    { card { c0 with st := .serving, live := 1, next := 1, restores := [(2, 0x800000)] } with teams := [], groups := [], saved := [(2, { ctx := 1, regs := 16, scr := 1, ngroups := 1, slot := 2 })] }))
/-- A running package whose operator has the key pair of secret 1, and a signed datagram to it (R51, R52). -/
def operatorKey : BitVec 512 := BitVec.ofNat 512 (Sm2.gx * 2 ^ 256 + Sm2.gy)
def operated : State := { p0 with boot := { p0.boot with opKeys := [operatorKey] } }
def order (code : Nat) (body : List Byte) (sig : Nat) : List Byte :=
  Maps.natLe code 1 ++ [1] ++ Maps.natLe 3 4 ++ Maps.natLe body.length 2 ++ body ++ beBytes sig 64
/-- Every module of die 1 down (R32). -/
def cut (s : State) : State :=
  { s with io := { s.io with links := (List.range 8).map fun m => (.ucie 1 (BitVec.ofNat 3 m), { st := .down }) } }
def starting (n : Nat) : State := { p0 with boot := { phase := .starting n } }
/-- The tile of `applyState` with a record left over from an earlier primitive. -/
def leftOver : State := die (fun d => { d with tiles := Maps.mapAll d.tiles fun _ t => { t with quads := [5] } }) applyState

/-! The hypotheses of the statements about words are met. -/

/-- `Ready`, as a test. -/
def readyB (s : State) (g : Group) (rs : List RegId) : Bool :=
  (s.issue == .alone && rs.all fun r => !g.busy r) && g.acquire.all fun a => !rs.contains (.vec a.1)

theorem ready_of {s : State} {g : Group} {rs : List RegId} (h : Maps.find s.groups s.cur = some g) (r : readyB s g rs = true) :
    Ready s g rs := by
  simp only [readyB, Bool.and_eq_true, List.all_eq_true, Bool.not_eq_true', beq_iff_eq] at r
  exact ⟨h, r.1.1, fun x hx => by simpa using r.1.2 x hx, fun a ha => by simpa using r.2 a ha⟩

/-- Case `x.2.2` of a table at an instruction and a state is the case there, and the group is ready for it. -/
def met (cases : Instr → State → Group → List Case) (x : Instr × State × Nat) : Bool :=
  match Maps.find x.2.1.groups x.2.1.cur with
  | some g => ((cases x.1 x.2.1 g)[x.2.2]?).any fun k => k.ok && readyB x.2.1 g k.regs
  | none => false

theorem met_holds {cases : Instr → State → Group → List Case} {x : Instr × State × Nat} (h : met cases x = true) :
    ∃ g k, k ∈ cases x.1 x.2.1 g ∧ Ready x.2.1 g k.regs ∧ k.ok = true := by
  unfold met at h
  split at h
  · next g hg =>
    obtain ⟨k, hk, hok⟩ : ∃ k, (cases x.1 x.2.1 g)[x.2.2]? = some k ∧ (k.ok && readyB x.2.1 g k.regs) = true := by
      simpa [Option.any_eq_true] using h
    simp only [Bool.and_eq_true] at hok
    exact ⟨g, k, List.mem_of_getElem? hk, ready_of hg hok.2, hok.1⟩
  · exact absurd h (by simp)

/-- A word of a rule table, ready and in bounds in `s0`. -/
noncomputable def ruleMet (rule : Instr → Option WordRule) (i : Instr) : Bool :=
  match rule i with
  | some w => readyB s0 g0 (w.regs g0) && (w.dst ++ w.src).all fun r => ea w.x r.1 g0 % r.2.2 == 0 && decide (ea w.x r.1 g0 + r.2.1 ≤ allot s0)
  | none => false

theorem ruleMet_holds {rule : Instr → Option WordRule} {i : Instr} (h : ruleMet rule i = true) :
    ∃ w, rule i = some w ∧ Ready s0 g0 (w.regs g0) ∧ w.fits s0 g0 := by
  unfold ruleMet at h
  split at h
  · next w hw =>
    simp only [Bool.and_eq_true, List.all_eq_true, beq_iff_eq, decide_eq_true_eq] at h
    exact ⟨w, hw, ready_of (by decide +kernel) h.1, fun r hr => h.2 r hr⟩
  · exact absurd h (by simp)

noncomputable def integerWords1 : List Instr :=
  [.iadd false false 8 16 24, .isub false false 8 16 24, .iminS false false 8 16 24, .iminN false false 8 16 24,
   .imaxS false false 8 16 24, .imaxN false false 8 16 24, .iaddc false false 8 16 24, .isubb false false 8 16 24,
   .iaddScalarB false false 8 16 20, .isubScalarB false false 8 16 20, .iminSScalarB false false 8 16 20,
   .iminNScalarB false false 8 16 20, .imaxSScalarB false false 8 16 20, .imaxNScalarB false false 8 16 20,
   .iaddcScalarB false false 8 16 20, .isubbScalarB false false 8 16 20, .imul false false 8 16 24,
   .imulhS false false 8 16 24, .imulhN false false 8 16 24, .imad false false 8 16 24, .imadhS false false 8 16 24,
   .imadhN false false 8 16 24, .iabs false false 8 16, .ineg false false 8 16, .and false false 8 16 24,
   .or false false 8 16 24, .xor false false 8 16 24, .andn false false 8 16 24, .orn false false 8 16 24,
   .popc false false 8 16, .clz false false 8 16, .ctz false false 8 16, .andScalarB false false 8 16 20,
   .orScalarB false false 8 16 20, .xorScalarB false false 8 16 20, .andnScalarB false false 8 16 20,
   .ornScalarB false false 8 16 20, .shl false false 8 16 24, .shr false false 8 16 24, .sar false false 8 16 24,
   .rotl false false 8 16 24, .bfeN false false 8 16 24, .bfeS false false 8 16 24, .bfi false false 8 16 24,
   .bperm false false 8 16 24, .icmpEq false false 1 8 16, .icmpNe false false 1 8 16, .icmpLtS false false 1 8 16,
   .icmpLeS false false 1 8 16, .icmpGtS false false 1 8 16]
theorem test_integer_words_1 : ∀ i ∈ integerWords1, ruleMet integerRule i = true := by decide +kernel

noncomputable def integerWords2 : List Instr :=
  [.icmpGeS false false 1 8 16, .icmpLtN false false 1 8 16, .icmpGeN false false 1 8 16, .sel false false 1 8 16 24,
   .mov false false 8 16, .mov64 false false 8 16, .movs false false 8 12, .pmov false false 1 8, .pget false false 8 1,
   .iaddi false false 8 16 5 none, .movi false false 8 5 none]
theorem test_integer_words_2 : ∀ i ∈ integerWords2, ruleMet integerRule i = true := by decide +kernel

noncomputable def scalarWords : List Instr :=
  [.sadd false 4 6 8, .ssub false 4 6 8, .smul false 4 6 8, .smulh false 4 6 8, .sand false 4 6 8, .sor false 4 6 8,
   .sxor false 4 6 8, .sandn false 4 6 8, .sshl false 4 6 8, .sshr false 4 6 8, .ssar false 4 6 8, .smin false 4 6 8,
   .smax false 4 6 8, .smov false 4 6, .sadd64 false 4 6 8, .ssub64 false 4 6 8, .saddi false 4 5 none, .sandi false 4 5 none,
   .sori false 4 5 none, .sxori false 4 5 none, .sshli false 4 5 none, .sshri false 4 5 none, .smovi false 4 5 none,
   .smovhi false 4 5 none, .scmpEq false 1 4 6, .scmpNe false 1 4 6, .scmpLtS false 1 4 6, .scmpLeS false 1 4 6,
   .scmpLtN false 1 4 6, .scmpLeN false 1 4 6, .ssel false 4 6 8, .setix false 4, .addix false 4, .getix false 4]
theorem test_scalar_words : ∀ i ∈ scalarWords, ruleMet scalarRule i = true := by decide +kernel

noncomputable def floatWords1 : List Instr :=
  [.fadd false false 8 16 24, .fsub false false 8 16 24, .fmin false false 8 16 24, .fmax false false 8 16 24,
   .fabs false false 8 16, .fneg false false 8 16, .frnd false false 8 16, .fract false false 8 16,
   .faddScalarB false false 8 16 20, .fsubScalarB false false 8 16 20, .fminScalarB false false 8 16 20,
   .fmaxScalarB false false 8 16 20, .fmul false false 8 16 24, .fma false false 8 16 24, .fms false false 8 16 24,
   .fnma false false 8 16 24, .fmulScalarB false false 8 16 20, .fmaScalarB false false 8 16 20,
   .fmsScalarB false false 8 16 20, .fnmaScalarB false false 8 16 20, .fcmpEq false false 1 8 16, .fcmpNe false false 1 8 16,
   .fcmpLt false false 1 8 16, .fcmpLe false false 1 8 16, .fcmpGt false false 1 8 16, .fcmpGe false false 1 8 16,
   .fcmpUnord false false 1 8 16, .fcmpOrd false false 1 8 16, .haddF16x2 false false 8 16 24, .hmulF16x2 false false 8 16 24,
   .hfmaF16x2 false false 8 16 24, .haddBf16x2 false false 8 16 24, .hmulBf16x2 false false 8 16 24,
   .hfmaBf16x2 false false 8 16 24, .hminF16x2 false false 8 16 24, .hmaxF16x2 false false 8 16 24, .frcp false false 8 16,
   .frsq false false 8 16, .fsqrt false false 8 16, .fexp2 false false 8 16, .flog2 false false 8 16, .fsin false false 8 16,
   .fcos false false 8 16, .ftanh false false 8 16, .dadd false false 8 16 24, .dsub false false 8 16 24,
   .dmul false false 8 16 24, .dfma false false 8 16 24, .dmin false false 8 16 24, .dmax false false 8 16 24]
theorem test_float_words_1 : ∀ i ∈ floatWords1, ruleMet floatRule i = true := by decide +kernel

noncomputable def floatWords2 : List Instr :=
  [.drcp false false 8 16, .dsqrt false false 8 16, .dcmpEq false false 1 8 16, .dcmpLt false false 1 8 16,
   .dcmpLe false false 1 8 16, .dcmpUnord false false 1 8 16]
theorem test_float_words_2 : ∀ i ∈ floatWords2, ruleMet floatRule i = true := by decide +kernel

noncomputable def convertWords : List Instr :=
  [.cvt false false 0 8 16 1 3, .cvtnE4m3 false false 8 16, .cvtnE4m3Sr false false 8 16, .cvtnE5m2 false false 8 16,
   .cvtnE5m2Sr false false 8 16, .cvtnE2m1b false false 8 16 24, .cvtnE2m1bSr false false 8 16 24, .cvtwE4m3 false false 8 16,
   .cvtwE5m2 false false 8 16, .xrel false false 8 16 8, .xrel3 false false 8 16 8]
theorem test_convert_words : ∀ i ∈ convertWords, ruleMet convertRule i = true := by decide +kernel

noncomputable def laneWords : List Instr :=
  [.shflIdx false false 8 16 24, .shflUp false false 8 16 24, .shflDown false false 8 16 24, .shflXor false false 8 16 24,
   .voteAny false false 8 1, .voteAll false false 8 1, .voteBallot false false 8 1, .qswz false false 8 16 1,
   .redAddS32 false false 8 16, .redAddF32 false false 8 16, .redMinF32 false false 8 16, .redMaxF32 false false 8 16,
   .scanAddS32 false false 8 16, .scanAddF32 false false 8 16, .redAnd false false 8 16, .redOr false false 8 16,
   .ddx false false 8 16 24, .ddy false false 8 16 24]
theorem test_lane_words : ∀ i ∈ laneWords, ruleMet laneRule i = true := by decide +kernel

noncomputable def controlWords1 : List (Instr × State × Nat) :=
  [(.nop false, s0, 0),
   (.lit false 5, s0, 0),
   (.bra false 5 none, s0, 1),
   (.bra false 5 none, withG (fun g => { g with active := 0 }), 0),
   (.brc false 0 5 none, s0, 2),
   (.brc false 1 5 none, s0, 0),
   (.brc false 7 5 none, s0, 1),
   (.brc false 0 5 none, withG (fun g => { g with depth := 16 }), 3),
   (.brcn false 0 5 none, s0, 2),
   (.brcn false 1 5 none, s0, 1),
   (.brcn false 7 5 none, s0, 0),
   (.brcn false 0 5 none, withG (fun g => { g with depth := 16 }), 3),
   (.bru false 0 5 (some 3), s0, 1),
   (.bru false 1 5 none, s0, 0),
   (.join false, s0, 0),
   (.join false, withG (fun g => { g with held := [{ kind := .call, mask := 1 }], depth := 1 }), 1),
   (.join false, withG (fun g => { g with held := [{ kind := .trap, mask := 1, cause := 0x0B }], depth := 1 }), 2),
   (.join false, withG (fun g => { g with held := [{ kind := .div, mask := 5, pmask := 1, ppc := 128 }], depth := 1 }), 4),
   (.join false, withG (fun g => { g with held := [{ kind := .div, mask := 5, rpc := 128 }], depth := 1, paths := [(0, (0, none))] }) (awaiting s0), 5),
   (.join false, withG (fun g => { g with held := [{ kind := .div, mask := 5, rpc := 128 }], depth := 1 }), 6),
   (.join false, withG (fun g => { g with held := [{ kind := .div, mask := 0, rpc := 128 }], depth := 1 }), 7),
   (.brx false 4, withG (fun g => { g with sregs := [(4, 64)] }), 0),
   (.brx false 4, withG (fun g => { g with sregs := [(4, 65)] }), 1),
   (.loop false 7 5 none, s0, 0),
   (.loop false 0 5 none, s0, 1),
   (.loop false 0 5 none, withG (fun g => { g with depth := 16 }), 2),
   (.loop false 1 5 none, s0, 3),
   (.loop false 0 5 none, withG (fun g => { g with held := [{ kind := .div, mask := 5, pmask := 1, ppc := 68, rpc := 68 }], depth := 1 }), 4),
   (.loop false 1 5 none, withG (fun g => { g with held := [{ kind := .div, mask := 5, pmask := 1, ppc := 68, rpc := 68 }], depth := 1 }), 5),
   (.call false 5 none, s0, 0),
   (.call false 5 none, withG (fun g => { g with depth := 16 }), 1),
   (.ret false, s0, 0),
   (.ret false, withG (fun g => { g with held := [{ kind := .call, mask := 5, rpc := 128 }], depth := 1 }), 1),
   (.ret false, withG (fun g => { g with held := [{ kind := .call, mask := 0, rpc := 128 }], depth := 1 }), 2),
   (.exit false 0, s0, 0),
   (.exit false 7, s0, 1),
   (.trap false 0, s0, 1),
   (.trap false 1, s0, 0),
   (.brk false 0, s0, 1),
   (.brk false 1, s0, 0),
   (.yield false, s0, 0)]
noncomputable def controlWords2 : List (Instr × State × Nat) :=
  [(.sleep false 0, s0, 0),
   (.join false, withG (fun g => { g with mode := 2, held := [{ kind := .trap, mask := 1, rpc := 128 }], depth := 1 }), 3),
   (.join false, withG (fun g => { g with held := [{ kind := .div, mask := 0, rpc := 128 }, { kind := .bad, mask := 0 }], depth := 2 }), 8),
   (.ret false, withG (fun g => { g with held := [{ kind := .call, mask := 0, rpc := 128 }, { kind := .bad, mask := 0 }], depth := 2 }), 3),
   (.exit false 7, withG (fun g => { g with held := [{ kind := .bad, mask := 0 }], depth := 1 }), 2),
   (.trap false 0, withG (fun g => { g with held := List.replicate 16 { kind := .div, mask := 1 }, depth := 16, rsbase := 0x8000000001 }), 1),
   (.brk false 0, withG (fun g => { g with held := List.replicate 16 { kind := .div, mask := 1 }, depth := 16, rsbase := 0x8000000001 }), 1)]
theorem test_control_words1 : ∀ x ∈ controlWords1, met controlCases x = true := by decide +kernel
theorem test_control_words2 : ∀ x ∈ controlWords2, met controlCases x = true := by decide +kernel

noncomputable def specialWords : List (Instr × State × Nat) :=
  [(.getsr false 3 0, s0, 0),
   (.getsr false 2 14, withG (fun g => { g with mode := 1 }), 1),
   (.getsr false 3 1, s0, 2),
   (.getsr false 2 6, s0, 3),
   (.getsr false 2 11, s0, 4),
   (.getsr false 2 14, s0, 5),
   (.getsr false 2 15, s0, 6),
   (.setsr false 7 8, s0, 0),
   (.setsr false 12 4, s0, 1),
   (.setsr false 11 4, s0, 2),
   (.setsr false 6 4, s0, 3)]
theorem test_special_words : ∀ x ∈ specialWords, met specialCases x = true := by decide +kernel

noncomputable def indexedWords : List (Instr × State × Nat) :=
  [(.vrd false false 1 2 3, withG (fun g => { g with pending := [(.vec 5, 3)] }), 0),
   (.vrd false false 1 2 3, s0, 1),
   (.vrd false true 1 127 3, odd, 2),
   (.vwr false false 1 2 3, withG (fun g => { g with pending := [(.vec 5, 3)] }), 0),
   (.vwr false false 1 2 3, s0, 1),
   (.vwr false false 1 2 3, withG (fun g => { g with vregs := [(96, 200)] }), 2)]
theorem test_indexed_words : ∀ x ∈ indexedWords, met indexedCases x = true := by decide +kernel

noncomputable def laneAccessWords1 : List (Instr × State × Nat) :=
  [(.ld false false 4 32 64 1 0 none, s0, 0),
   (.ld false true 5 32 64 1 0 none, odd, 2),
   (.ld false true 5 32 64 1 0 none, far, 3),
   (.ld false false 4 32 64 1 0 none, laneTo 2, 4),
   (.ld false false 4 32 64 1 0 none, pooled (laneTo 0x40000000), 5),
   (.ld false false 4 32 64 1 0 none, laneTo 0x40000000, 6),
   (.ld false false 4 32 64 2 0 none, s0, 6),
   (.st false false 4 32 64 1 0 none, s0, 0),
   (.st false true 5 32 64 1 0 none, odd, 2),
   (.st false true 5 32 64 1 0 none, far, 3),
   (.st false false 4 32 64 1 0 none, laneTo 2, 4),
   (.st false false 4 32 64 1 0 none, pooled (laneTo 0x40000000), 5),
   (.st false false 4 32 64 1 0 none, laneTo 0x40000000, 6),
   (.st false false 4 32 64 2 0 none, s0, 6)]
noncomputable def laneAccessWords2 : List (Instr × State × Nat) :=
  [(.ldg false false 4 32 64 0 none, s0, 0),
   (.ldg false true 5 32 64 0 none, odd, 2),
   (.ldg false true 5 32 64 0 none, far, 3),
   (.ldg false false 4 32 64 0 none, laneTo 2, 4),
   (.ldg false false 4 32 64 0 none, pooled (laneTo 0x40000000), 5),
   (.ldg false false 4 32 64 0 none, laneTo 0x40000000, 6),
   (.ldg false false 4 32 64 0 none, withG (fun g => { g with vregs := [(65 * 32, 0x01000000)] }), 6),
   (.stg false false 4 32 64 0 none, s0, 0),
   (.stg false true 5 32 64 0 none, odd, 2),
   (.stg false true 5 32 64 0 none, far, 3),
   (.stg false false 4 32 64 0 none, laneTo 2, 4),
   (.stg false false 4 32 64 0 none, pooled (laneTo 0x40000000), 5),
   (.stg false false 4 32 64 0 none, laneTo 0x40000000, 6),
   (.stg false false 4 32 64 0 none, withG (fun g => { g with vregs := [(65 * 32, 0x01000000)] }), 6)]
noncomputable def laneAccessWords3 : List (Instr × State × Nat) :=
  [(.lds false false 4 32 64 0 none, s0, 0),
   (.lds false true 5 32 64 0 none, odd, 2),
   (.lds false true 5 32 64 0 none, far, 3),
   (.lds false false 4 32 64 0 none, laneTo 2, 4),
   (.lds false false 4 32 64 0 none, laneTo 0x40000000, 6),
   (.sts false false 4 32 64 0 none, s0, 0),
   (.sts false true 5 32 64 0 none, odd, 2),
   (.sts false true 5 32 64 0 none, far, 3),
   (.sts false false 4 32 64 0 none, laneTo 2, 4),
   (.sts false false 4 32 64 0 none, laneTo 0x40000000, 6)]
noncomputable def laneAccessWords4 : List (Instr × State × Nat) :=
  [(.atom false false 0 32 64 1 0 1, s0, 0),
   (.atom false true 1 32 64 1 0 1, odd, 2),
   (.atom false true 1 32 64 1 0 1, far, 3),
   (.atom false false 0 32 64 1 0 1, laneTo 2, 4),
   (.atom false false 0 32 64 1 0 1, pooled (laneTo 0x40000000), 5),
   (.atom false false 0 32 64 1 0 1, laneTo 0x40000000, 6),
   (.atom false false 0 32 64 2 0 1, s0, 6),
   (.atoms false false 0 32 64 0 1, s0, 0),
   (.atoms false true 1 32 64 0 1, odd, 2),
   (.atoms false true 1 32 64 0 1, far, 3),
   (.atoms false false 0 32 64 0 1, laneTo 2, 4),
   (.atoms false false 0 32 64 0 1, laneTo 0x40000000, 6)]
noncomputable def laneAccessWords5 : List (Instr × State × Nat) :=
  [(.sts false false 4 32 64 0 none, ownRemotely s0, 1),
   (.lds false false 4 32 64 0 none, ownRemotely s0, 1),
   (.atoms false false 0 32 64 0 1, ownRemotely s0, 1),
   (.ld false false 4 32 64 1 0 none, withG (fun g => { g with windows := [(1, { win with tag := 0xFE })] }) (ownRemotely s0), 1),
   (.st false false 4 32 64 1 0 none, withG (fun g => { g with windows := [(1, { win with tag := 0xFE })] }) (ownRemotely s0), 1),
   (.atom false false 0 32 64 1 0 1, withG (fun g => { g with windows := [(1, { win with tag := 0xFE })] }) (ownRemotely s0), 1),
   (.ldg false false 4 32 64 0 none, withG (fun g => { g with vregs := [(65 * 32, 0xFE000000)] }) (ownRemotely s0), 1),
   (.stg false false 4 32 64 0 none, withG (fun g => { g with vregs := [(65 * 32, 0xFE000000)] }) (ownRemotely s0), 1)]
theorem test_lane_access_words1 : ∀ x ∈ laneAccessWords1, met laneAccessCases x = true := by decide +kernel
theorem test_lane_access_words2 : ∀ x ∈ laneAccessWords2, met laneAccessCases x = true := by decide +kernel
theorem test_lane_access_words3 : ∀ x ∈ laneAccessWords3, met laneAccessCases x = true := by decide +kernel
theorem test_lane_access_words4 : ∀ x ∈ laneAccessWords4, met laneAccessCases x = true := by decide +kernel
theorem test_lane_access_words5 : ∀ x ∈ laneAccessWords5, met laneAccessCases x = true := by decide +kernel

noncomputable def uniformWords : List (Instr × State × Nat) :=
  [(.bind false 1 4, s0, 0),
   (.unbind false 1, s0, 0),
   (.wquery false 16 1, s0, 0),
   (.ldc false 4 16 4 8, withG (fun g => { g with sregs := [(4, 0x600000)] }), 0),
   (.ldc false 5 16 4 8, s0, 1),
   (.ldc false 4 16 4 8, at4 0 0xFE000000 (ownRemotely s0), 2),
   (.ldc false 4 16 4 8, at4 0 0x01000000, 3),
   (.ldc false 4 16 4 8, pooled (at4 0x40000000 0), 3),
   (.ldc false 4 16 4 8, at4 0x40000000 0, 3),
   (.bind false 1 4, at4 0 0x01000000, 0),
   (.bind false 1 4, at4 0x40000000 0, 0)]
theorem test_uniform_words : ∀ x ∈ uniformWords, met uniformCases x = true := by decide +kernel

noncomputable def fenceWords : List (Instr × State × Nat) :=
  [(.fenceAcq false 2, s0, 0),
   (.fenceAcq false 2, awaiting s0, 1),
   (.fenceRel false 0, s0, 0),
   (.fenceRel false 0, awaiting s0, 1),
   (.fenceAr false 2, s0, 0),
   (.fenceAr false 2, awaiting s0, 1),
   (.cinv false, s0, 0),
   (.cwb false 4 16, s0, 0),
   (.cwb false 4 8, s0, 1),
   (.pf false false 64 1, s0, 0),
   (.pf false false 64 2, s0, 1)]
theorem test_fence_words : ∀ x ∈ fenceWords, met fenceCases x = true := by decide +kernel

noncomputable def tieredWords1 : List (Instr × State × Nat) :=
  [(.resfence false, s0, 0),
   (.resfence false, onCore 0 (fun c => { c with resInval := [(5, 64)] }) s0, 1)]
noncomputable def tieredWords2 : List (Instr × State × Nat) :=
  [(.ldt false false 2 32 64 3, withG (fun g => { g with active := 1 }) tiered, 0),
   (.smpPoint false false 32 64 3 0 0, withG (fun g => { g with active := 1 }) tiered, 0)]
noncomputable def tieredWords3 : List (Instr × State × Nat) :=
  [(.smpBilinear false false 32 64 3 0 0, withG (fun g => { g with active := 1 }) tiered, 0),
   (.smpTrilinear false false 32 64 3 0 0, withG (fun g => { g with active := 1 }) tiered, 0)]
noncomputable def tieredWords4 : List (Instr × State × Nat) :=
  [(.resset false false 64 3, withG (fun g => { g with active := 1 }) tiered, 1),
   (.resset false false 64 3, withG (fun g => { g with active := 1 }) (awaiting tiered), 0)]
noncomputable def tieredWords5 : List (Instr × State × Nat) :=
  [(.resclr false false 64 3, withG (fun g => { g with active := 1 }) (tiered s0 1 1), 0),
   (.resq false false 32 64 3 0, withG (fun g => { g with active := 1 }) tiered, 0)]
theorem test_tiered_words1 : ∀ x ∈ tieredWords1, met tieredCases x = true := by decide +kernel
theorem test_tiered_words2 : ∀ x ∈ tieredWords2, met tieredCases x = true := by decide +kernel
theorem test_tiered_words3 : ∀ x ∈ tieredWords3, met tieredCases x = true := by decide +kernel
theorem test_tiered_words4 : ∀ x ∈ tieredWords4, met tieredCases x = true := by decide +kernel
theorem test_tiered_words5 : ∀ x ∈ tieredWords5, met tieredCases x = true := by decide +kernel

noncomputable def copyWords1 : List (Instr × State × Nat) :=
  [(.cpa false false 0 2 1 0 0, s0, 1),
   (.cpa false false 0 2 1 0 1, withG (fun g => { g with active := 0 }), 0),
   (.cpa false false 0 2 1 0 1, withG (fun g => { g with cpTags := [(0, { count := 63 })] }), 2),
   (.cpseal false, s0, 0),
   (.cpseal false, withG (fun g => { g with cpTags := [(1, { count := 1 })] }), 1),
   (.cpwait false 1, s0, 1),
   (.cpwait false 1, withG (fun g => { g with cpTags := [(1, { count := 1 })] }), 0),
   (.cpwait false 1, withG (fun g => { g with cpTags := [(1, { fail := true, fmask := 4 })] }), 2)]
noncomputable def copyWords2 : List (Instr × State × Nat) :=
  [(.cpstat false 3, s0, 0),
   (.cpbulk false 4 10 12, withT (fun t => { t with scratch := plainDesc }), 0),
   (.cpbulk false 4 10 12, s0, 2),
   (.cpbulk false 4 10 12, withT (fun t => { t with scratch := plainDesc }) (ownRemotely s0), 1),
   (.cpq false 4 10 12, withT (fun t => { t with scratch := quantDesc }), 0),
   (.cpq false 4 10 12, s0, 2),
   (.cpq false 4 10 12, ownRemotely s0, 1)]
theorem test_copy_words1 : ∀ x ∈ copyWords1, met copyCases x = true := by decide +kernel
theorem test_copy_words2 : ∀ x ∈ copyWords2, met copyCases x = true := by decide +kernel

noncomputable def tbarWords : List (Instr × State × Nat) :=
  [(.tbinit false 10 8, s0, 0),
   (.tbinit false 8 8, s0, 1),
   (.tbinit false 4 8, s0, 2),
   (.tbarrive false 10 8, s0, 1),
   (.tbarrive false 8 8, s0, 2),
   (.tbarrive false 4 8, s0, 3),
   (.tbarrive false 10 8, awaiting s0, 0),
   (.tbexpect false 10 8, s0, 0),
   (.tbexpect false 8 8, s0, 1),
   (.tbexpect false 4 8, s0, 2),
   (.tbwait false 10 3, s0, 0),
   (.tbwait false 10 8, s0, 1),
   (.tbwait false 10 8, withT (fun t => { t with scratch := lostBar }), 2),
   (.tbwait false 8 8, s0, 3),
   (.tbwait false 4 8, s0, 4),
   (.tbtest false 3 10 8, s0, 0),
   (.tbtest false 3 8 8, s0, 1),
   (.tbtest false 3 4 8, s0, 2)]
theorem test_tbar_words : ∀ x ∈ tbarWords, met tbarCases x = true := by decide +kernel

noncomputable def deliveryWords1 : List (Instr × State × Nat) :=
  [(.rarm false false 64 3, s0, 0),
   (.rarm false false 127 3, s0, 2),
   (.rarm false false 64 3, withG (fun g => { g with pending := [(.vec 65, 4)] }), 1),
   (.rdisarm false false 64 3, s0, 0),
   (.rdisarm false false 127 3, s0, 1),
   (.rtest false false 3 64, s0, 0),
   (.rtest false true 3 127, withG (fun g => { g with ix := 1 }), 1),
   (.rtestCount false 3, s0, 0),
   (.mkcap false 16 3, s0, 0),
   (.mkcap false 16 8, withG (fun g => { g with sregs := [(8, 0xFFFFC000)] }), 1),
   (.rrevoke false 3, s0, 0),
   (.rrevoke false 3, onMem (fun m => putNat m 0x40020 8 0xFFF00) s0, 1),
   (.rsend false false 16 64 0, s0, 0),
   (.rsend false true 16 127 0, odd, 3),
   (.rsendT false false 16 64 0, s0, 1),
   (.rsendT false true 16 127 0, odd, 3),
   (.rsendT false false 16 64 0, answered 0, 0),
   (.rsendT false false 16 64 0, answered 3, 1),
   (.rsendT false false 16 64 0, answered 4, 2)]
noncomputable def deliveryWords2 : List (Instr × State × Nat) :=
  [(.rsendRel false false 16 64 0, s0, 0),
   (.rsendRel false false 16 64 0, awaiting s0, 2),
   (.rsendRel false true 16 127 0, odd, 3),
   (.rsendRelT false false 16 64 0, s0, 1),
   (.rsendRelT false false 16 64 0, awaiting s0, 2),
   (.rsendRelT false true 16 127 0, odd, 3),
   (.rsendRelT false false 16 64 0, answered 0, 0),
   (.rsendRelT false false 16 64 0, answered 3, 1),
   (.rsendRelT false false 16 64 0, answered 4, 2),
   (.mring false 1 10 14, s0, 0),
   (.mring false 1 10 14, withT (fun t => { t with rings := [(1, { en := true, base := 64, log := 2, slot := 0, head := 1, next := 1, taken := [(0, 64)] })] }), 1),
   (.mring false 1 8 14, s0, 2),
   (.mring false 1 4 14, s0, 3),
   (.msend false 3 4 10, s0, 0),
   (.msend false 3 4 8, s0, 2),
   (.msend false 2 4 6, s0, 3),
   (.msend false 3 4 10, ownRemotely s0, 1),
   (.mwait false 3 1, s0, 1),
   (.mwait false 3 1, withT (fun t => { t with rings := [(1, { en := true, base := 64, log := 2, slot := 0, head := 1 })] }), 0)]
theorem test_delivery_words1 : ∀ x ∈ deliveryWords1, met deliveryCases x = true := by decide +kernel
theorem test_delivery_words2 : ∀ x ∈ deliveryWords2, met deliveryCases x = true := by decide +kernel

noncomputable def taskWords : List (Instr × State × Nat) :=
  [(.bar false, s0, 0),
   (.bar false, withT (fun t => { t with barIn := 1 }), 1),
   (.barPub false, s0, 0),
   (.barPub false, awaiting s0, 1),
   (.barRealloc false 3 8, s0, 0),
   (.barRealloc false 3 8, awaiting s0, 1),
   (.barArrive false, s0, 0),
   (.barArrive false, withT (fun t => { t with barIn := 1 }), 1),
   (.barWait false, s0, 1),
   (.barWait false, withG (fun g => { g with arrived := some 0 }), 0),
   (.post false 0 4, s0, 0),
   (.post false 1 8, s0, 3),
   (.lgrow false 3 8, s0, 2),
   (.lgrow false 3 8, withD (fun d => { d with cards := [(0, { bits := 0, addr := 0x8000, ctx := 1, posted := 0, st := .serving, noGrow := true })] }), 0),
   (.lgrow false 3 8, withD (fun d => { d with cards := [(0, { bits := 0, addr := 0x8000, ctx := 1, posted := 0, st := .serving, count := 0xFFFFFFFF })] }), 1),
   (.evpost false 4, s0, 0),
   (.depdec false 8, s0, 0),
   (.depset false 8 12, s0, 0),
   (.post false 2 4, awaitingStore 0x600000 s0, 2),
   (.evpost false 4, withD (fun d => { d with events := List.replicate 1024 { bits := 5, ctx := 1, region := 0 } }), 1),
   (.post false 0 4, withD (fun d => { d with cards := (List.range 4096).map fun i => (i, { bits := 0, addr := 0x8000, ctx := 1, posted := 0, st := .serving }) }), 1)]
theorem test_task_words : ∀ x ∈ taskWords, met taskCases x = true := by decide +kernel

noncomputable def systemWords : List (Instr × State × Nat) :=
  [(.tlbinv false 4 6 8, withG (fun g => { g with mode := 1 }), 0),
   (.tlbinv false 4 6 8, withG (fun g => { g with mode := 1 }) (awaiting s0), 2),
   (.tlbinv false 4 6 8, withG (fun g => { g with mode := 1, sregs := [(5, 0x11000000)] }), 4),
   (.tlbinv false 4 6 8, s0, 1),
   (.winv false 4 6, withG (fun g => { g with mode := 1 }), 0),
   (.winv false 4 6, s0, 1),
   (.hmask false 1 4 16, withG (fun g => { g with mode := 1 }), 0),
   (.hmask false 1 4 16, s0, 1),
   (.evict false 3 8 16, withG (fun g => { g with mode := 1 }), 2),
   (.evict false 3 8 4, s0, 3),
   (.evict false 3 8 4, evictable s0, 6),
   (.evict false 3 8 4, evicting s0, 0),
   (.evict false 3 8 20, restorable s0, 8),
   (.snap false, withG (fun g => { g with mode := 1 }), 0),
   (.snap false, s0, 1),
   (.pgmap false 3, withG (fun g => { g with mode := 1 }), 0),
   (.pgmap false 3, s0, 1),
   (.tlbinv false 4 6 8, withG (fun g => { g with sregs := [(5, 0x11000000)] }), 5),
   (.evict false 3 8 4, withG (fun g => { g with sregs := [(8, 0x100009), (5, 0xC0)] }) (unparked s0), 4),
   (.tlbinv false 4 6 8, awaiting s0, 3),
   (.evict false 3 8 4, withG (fun g => { g with mode := 0 }) (evictable s0), 7),
   (.evict false 3 8 4, withG (fun g => { g with mode := 0 }) (evicting s0), 1),
   (.evict false 3 8 20, withG (fun g => { g with mode := 0 }) (restorable s0), 9),
   (.evict false 3 8 4, withG (fun g => { g with mode := 0, sregs := [(8, 0x100009), (5, 0xC0)] }) (unparked s0), 5)]
theorem test_system_words : ∀ x ∈ systemWords, met systemCases x = true := by decide +kernel

noncomputable def matrixWords1 : List (Instr × State × Nat) :=
  [(.mmq false 32 16 8 0, withG (fun g => { g with sregs := [] }) (slot0 { held := true, valid := true }), 0),
   (.mmq false 32 16 8 1, withG (fun g => { g with sregs := [] }) s0, 3),
   (.mmq false 32 16 8 0, withG (fun g => { g with sregs := [] }) (noToken (slot0 { held := true, valid := true })), 1),
   (.mmq false 32 16 8 0, withG (fun g => { g with sregs := [] }) (slot0 { held := true, loading := true }), 2),
   (.mmqs false 32 16 8 0, withG (fun g => { g with sregs := [] }) (slot0 { held := true, valid := true }), 0),
   (.mmqs false 32 16 8 1, withG (fun g => { g with sregs := [] }) s0, 3),
   (.mmqs false 32 16 8 0, withG (fun g => { g with sregs := [] }) (noToken (slot0 { held := true, valid := true })), 1),
   (.mmqs false 32 16 8 0, withG (fun g => { g with sregs := [] }) (slot0 { held := true, loading := true }), 2),
   (.mmqg false 32 16 8 0, withG (fun g => { g with sregs := [] }) (slot0 { held := true, valid := true }), 0)]
noncomputable def matrixWords2 : List (Instr × State × Nat) :=
  [(.mmqg false 32 16 8 1, withG (fun g => { g with sregs := [] }) s0, 3),
   (.mmqg false 32 16 8 0, withG (fun g => { g with sregs := [] }) (noToken (slot0 { held := true, valid := true })), 1),
   (.mmqg false 32 16 8 0, withG (fun g => { g with sregs := [] }) (slot0 { held := true, loading := true }), 2),
   (.mtile false 32 10 0, command (slot0 { held := true, valid := true }), 2),
   (.mtile false 32 10 0, withG (fun g => { g with sregs := [(10, 1024), (11, 1)] }) (command (slot0 { held := true, valid := true })), 1),
   (.mtile false 32 10 0, withG (fun g => { g with waiting := some .mtileDone }) s0, 0),
   (.mtile false 32 10 0, s0, 4),
   (.mtile false 32 10 0, withG (fun g => { g with sregs := [(10, 1026)] }) (command (slot0 { held := true, valid := true })), 5),
   (.wbld false 4 14, s0, 2),
   (.wbld false 4 14, withG (fun g => { g with sregs := [(4, 0x600000)] }) (slot0 { held := true, loading := true }), 0)]
noncomputable def matrixWords3 : List (Instr × State × Nat) :=
  [(.wbld false 4 14, withT (fun t => { t with wslots := (List.range 512).map fun i => (i + 3, { held := true, half := i % 2 == 0 }) }), 1),
   (.wbinv false 14, s0, 0),
   (.wbinv false 14, withG (fun g => { g with sregs := [] }) (slot0 { held := true, loading := true }), 1),
   (.wbstat false 3 14, s0, 0),
   (.mtile false 32 10 0, noToken s0, 3)]
theorem test_matrix_words1 : ∀ x ∈ matrixWords1, met matrixCases x = true := by decide +kernel
theorem test_matrix_words2 : ∀ x ∈ matrixWords2, met matrixCases x = true := by decide +kernel
theorem test_matrix_words3 : ∀ x ∈ matrixWords3, met matrixCases x = true := by decide +kernel

/-- The products of R251's example of a chunk. -/
def chunk : List Num.FV := [.fin false 1 30, .fin true 1 30] ++ List.replicate 30 (.fin false 1 (-32))

/-- R251: its sum is 0, where the exact one is not. -/
theorem test_chunk_sum : Num.chunkSum chunk = .fin false 0 (-22) := by decide +kernel

/-- What `ChunkSums` asks of finite products, met by that example with E = 30. -/
theorem test_chunk_meets : (∀ p ∈ chunk, ∃ n m e, p = Num.FV.fin n m e) ∧
    (∃ p ∈ chunk, (2 : ℚ) ^ (30 : ℤ) ≤ |valueOf p|) ∧ ∀ p ∈ chunk, |valueOf p| < (2 : ℚ) ^ ((30 : ℤ) + 1) := by
  simp [chunk, valueOf]
  norm_num

/-- The other cases of `ChunkSums`: a NaN, an infinity alone, both, and zeros. -/
theorem test_chunk_specials :
    [[Num.FV.nan, .inf true], [.inf true, .fin false 1 0], [.inf true, .inf false], [.fin true 0 3, .fin false 0 0]].map Num.chunkSum =
      [Num.FV.nan, Num.FV.inf true, Num.FV.nan, Num.zero] := by decide +kernel

noncomputable def transformWords : List (Instr × State × Nat) :=
  [(.had16 false false 32 64 0, s0, 0),
   (.had32 false false 32 64 1, s0, 0),
   (.had64 false false 32 64 2, s0, 0),
   (.had16 false false 32 64 3, s0, 1),
   (.had32 false false 32 64 3, s0, 1),
   (.had64 false false 32 64 3, s0, 1),
   (.absmax false false 32 64 0, s0, 0),
   (.absmax false false 32 64 3, s0, 1),
   (.quant false false 32 64 0, s0, 0),
   (.quant false false 32 64 3, s0, 1),
   (.bmenc false false 32 64 0, s0, 0),
   (.bmenc false false 32 64 4, s0, 1),
   (.bmdec false false 32 64 0, s0, 0),
   (.bmdec false false 32 64 4, s0, 1),
   (.pscan false false 32 64 0, s0, 0),
   (.pscan false false 32 64 3, s0, 1),
   (.lztok false false 32 64, s0, 0)]
theorem test_transform_words : ∀ x ∈ transformWords, met transformCases x = true := by decide +kernel

noncomputable def graphicsWords1 : List (Instr × State × Nat) :=
  [(.memitV false false 32 64 0, withG (fun g => { g with active := 1 }) meshTeam, 0),
   (.memitV false false 32 64 0, s0, 1),
   (.memitP false false 32 64, withG (fun g => { g with active := 1 }) meshTeam, 0),
   (.memitP false false 32 64, s0, 1),
   (.tamp false false 32 64 96, taskTeam, 0)]
noncomputable def graphicsWords2 : List (Instr × State × Nat) :=
  [(.tamp false false 32 64 96, withG (fun g => { g with vregs := [(64 * 32, 3)] }) taskTeam, 1),
   (.tamp false false 32 64 96, s0, 2),
   (.tload false false 32 64, tileTeam, 0),
   (.tload false false 32 64, s0, 1),
   (.tstore false false 32 64, withG (fun g => { g with active := 1 }) tileTeam, 0)]
noncomputable def graphicsWords3 : List (Instr × State × Nat) :=
  [(.tstore false false 32 64, s0, 1),
   (.tstore false false 32 64, noticed tileTeam, 2),
   (.tseal false, tileTeam, 0),
   (.tseal false, noticed tileTeam, 1),
   (.gzrd false false 32 64, s0, 0)]
noncomputable def graphicsWords4 : List (Instr × State × Nat) :=
  [(.ipa false false 32 64 0, tileTeam, 0),
   (.ipac false false 32 64 0, tileTeam, 0)]
theorem test_graphics_words1 : ∀ x ∈ graphicsWords1, met graphicsCases x = true := by decide +kernel
theorem test_graphics_words2 : ∀ x ∈ graphicsWords2, met graphicsCases x = true := by decide +kernel
theorem test_graphics_words3 : ∀ x ∈ graphicsWords3, met graphicsCases x = true := by decide +kernel
theorem test_graphics_words4 : ∀ x ∈ graphicsWords4, met graphicsCases x = true := by decide +kernel

noncomputable def rayWords : List (Instr × State × Nat) :=
  [(.rtravInit false false 16 64 96, s0, 0),
   (.rtravStep false false 16, withG (fun g => { g with active := 1 }) s0, 0),
   (.rhit false false 16, s0, 0),
   (.rtravStep false false 16, toNode (awaitingStore 0x600000 s0), 1)]
theorem test_ray_words : ∀ x ∈ rayWords, met rayCases x = true := by decide +kernel

/-! The hypotheses of the statements about device steps are met. -/

def metStep (cases : Instr → State → List StepCase) (x : Instr × State × Nat) : Bool := ((cases x.1 x.2.1)[x.2.2]?).any (·.ok)
def metFact (facts : Instr → State → List StepFact) (x : Instr × State × Nat) : Bool := ((facts x.1 x.2.1)[x.2.2]?).any (·.ok)

theorem metStep_holds {cases : Instr → State → List StepCase} {x : Instr × State × Nat} (h : metStep cases x = true) :
    ∃ k ∈ cases x.1 x.2.1, k.ok = true := by
  obtain ⟨k, hk, hok⟩ : ∃ k, (cases x.1 x.2.1)[x.2.2]? = some k ∧ k.ok = true := by simpa [metStep, Option.any_eq_true] using h
  exact ⟨k, List.mem_of_getElem? hk, hok⟩

theorem metFact_holds {facts : Instr → State → List StepFact} {x : Instr × State × Nat} (h : metFact facts x = true) :
    ∃ k ∈ facts x.1 x.2.1, k.ok = true := by
  obtain ⟨k, hk, hok⟩ : ∃ k, (facts x.1 x.2.1)[x.2.2]? = some k ∧ k.ok = true := by simpa [metFact, Option.any_eq_true] using h
  exact ⟨k, List.mem_of_getElem? hk, hok⟩

noncomputable def requestSteps1 : List (Instr × State × Nat) :=
  [(.llcRequest 3, req id, 3),
   (.llcRequest 3, req id (mem (fun m => { m with domSw := some (domSwitch 1 0 none) })), 0),
   (.llcRequest 3, req id (mem (fun m => { m with idw := [] })), 1),
   (.llcRequest 3, req id (mem (fun m => { m with missing := [0x18000] })), 4),
   (.llcRequest 3, req id (cached p0), 10),
   (.llcRequest 3, req (fun r => { r with op := .store }) (cached p0), 10),
   (.llcRequest 3, req (fun r => { r with op := .atom 0 true 100 }) (cached p0), 10),
   (.llcRequest 3, req (fun r => { r with op := .resbit true 3 }) (cached p0), 10),
   (.llcRequest 3, req (fun r => { r with op := .resq 100 3 false }) (cached p0), 10),
   (.llcRequest 3, req (fun r => { r with op := .store }) (viewed (cached p0)), 8),
   (.llcRequest 3, req id (mem (fun m => { m with poison := [0x18000] }) (cached p0)), 7),
   (.llcRequest 3, mem (fun m => { m with missing := [0x18000], net := (List.range 17).map (fun i => (i + 100, { reqAt .llc 0x600000 with st := .miss, core := 1 })) ++ m.net }) (req id), 5),
   (.llcRequest 3, mem (fun m => { m with missing := [0x18000], net := (List.range 33).map (fun i => (i + 100, { reqAt .llc 0x600000 with st := if i < 17 then .miss else .conflict, core := 1 })) ++ m.net }) (req id), 6),
   (.nackResend 3, req (fun r => { r with st := .nackBusy 900 }), 0),
   (.domainNackResend 3, req (fun r => { r with st := .nackDomain }), 0),
   (.domainNackResend 3, req (fun r => { r with st := .nackDomain }) (mem (fun m => { m with idw := [] })), 1),
   (.remoteScratchAccess 3, noCtx (toTeam id), 0),
   (.remoteScratchAccess 3, noCtx (toTeam fun r => { r with origin := some (4, 5) }), 1),
   (.remoteScratchAccess 3, toTeam id, 2),
   (.remoteScratchAccess 3, toTeam id (there 0), 2),
   (.remoteScratchAccess 3, toTeam id (there 1), 3),
   (.remoteScratchAccess 3, toTeam id away, 4),
   (.remoteScratchAccess 3, mem (fun m => { m with poison := [0x940000 / 64] }) (toTeam id away), 5),
   (.remoteScratchAccess 3, toTeam (fun r => { r with op := .store }) (there 1), 3),
   (.remoteScratchAccess 3, toTeam (fun r => { r with op := .store }) away, 4),
   (.remoteScratchAccess 3, toTeam (fun r => { r with op := .atom 0 true 100 }) (there 1), 3),
   (.remoteScratchAccess 3, toTeam (fun r => { r with op := .atom 0 true 100 }) away, 4),
   (.memoryReply 3, req (fun r => { r with st := .done }), 1),
   (.memoryReply 3, req (fun r => { r with space := .dev, pa := 0x3F0000000000 }), 2),
   (.lateFailure 3, req (fun r => { r with st := .failed .nophys }), 0),
   (.lateFailure 3, req (fun r => { r with st := .failed .nophys, live := false }), 1),
   (.coreReset 0, onCore 0 (fun c => { c with refusing := true }) p0, 0)]
noncomputable def requestSteps2 : List (Instr × State × Nat) :=
  [(.domainSwitchPhase, mem (fun m => { m with domSw := some (domSwitch 1 1 none) }), 0),
   (.domainSwitchPhase, mem (fun m => { m with domSw := some (domSwitch 2 1 none) }), 1),
   (.llcRequest 3, cut (req (fun r => { r with core := 24 })), 2),
   (.llcRequest 3, mem (fun m => { m with errs := [(.llc 0x18000, .lasting)], llc := [(0x18000, { data := 77, dirty := true })] }) (req id), 9),
   (.memoryReply 3, cut (req (fun r => { r with core := 24, st := .done })), 0)]
theorem test_request_steps1 : ∀ x ∈ requestSteps1, metStep requestCases x = true := by decide +kernel
theorem test_request_steps2 : ∀ x ∈ requestSteps2, metStep requestCases x = true := by decide +kernel

noncomputable def fillFactSteps : List (Instr × State × Nat) :=
  [(.llcMissFill 0x18000, req (fun r => { r with st := .miss }) (mem (fun m => { m with missing := [0x18000] })), 0),
   (.llcMissFill 0x18000, req (fun r => { r with st := .miss }) (viewed (mem (fun m => { m with missing := [0x18000], poison := [0x1C000] }))), 1)]
theorem test_fill_fact_steps : ∀ x ∈ fillFactSteps, metFact fillFacts x = true := by decide +kernel

noncomputable def registerSteps1 : List (Instr × State × Nat) :=
  [(.dsctlWrite 0 0x3E808, p0, 0),
   (.dsctlWrite 0 0x3E809, p0, 1),
   (.rcbinvWrite 0 0x100000, p0, 2),
   (.rcbinvWrite 0 0x100000, die (fun d => { d with rcbCache := [(1, 0)] }), 1),
   (.rcbinvWrite 0 0x100000, die (fun d => { d with rcbinv := 0x80000 }), 0),
   (.rcbInvalidationDone 0, die (fun d => { d with rcbinv := 0x180000, rcbCache := [(1, 0)] }), 0),
   (.nrbaseWrite 0 0x700001, p0, 1),
   (.nrbaseWrite 0 0x700001, die (fun d => { d with nrbase := 0x600001 }), 0),
   (.embctlWrite 0 6, p0, 2),
   (.embctlWrite 0 7, p0, 0),
   (.dspostWrite 0 2 (1 * 2 ^ 52 + 0x608000), p0, 3),
   (.dspostWrite 0 2 (1 * 2 ^ 52 + 0x608000), die (fun d => { d with heldReset := true }), 0),
   (.dspostWrite 0 2 (1 * 2 ^ 52 + 0x608000), mem (fun m => { m with poison := [0x608000 / 64] }), 1),
   (.dspostWrite 0 2 (1 * 2 ^ 52 + 0x608000), mem (fun m => { m with idw := [] }), 1),
   (.dspostWrite 0 2 (5 * 2 ^ 52 + 0x608000), p0, 2),
   (.dspostWrite 0 2 (1 * 2 ^ 52 + 0x608000), die (fun d => { d with cards := (List.range 4096).map fun i => (i, c0) }), 4),
   (.dctrSet 0 5 2 0x4000000000000007, p0, 0),
   (.dctrDecrement 0 5 2 0x8000000000000000, p0, 0),
   (.snapctlClr 3 5, p0, 0),
   (.thermctlRelease 0 1, p0, 0)]
noncomputable def registerSteps2 : List (Instr × State × Nat) :=
  [(.thermctlRelease 0 1, die (fun d => { d with heldReset := true, temp := 89 }), 1),
   (.lcctlCntclr (.port 3) 0x18, p0, 0),
   (.lcctlTcdis (.port 3) 0x10, p0, 0),
   (.domswWrite 1, mem (fun m => { m with domSw := some (domSwitch 1 0 none) }), 0),
   (.domswWrite 1, mem (fun m => { m with idws := [(1, 2 ^ 56)] }), 1),
   (.domswWrite 1, mem (fun m => { m with idws := [(0, 0x80000000001C0000#64)] }), 2),
   (.fwWrite (some 3) 2 0 77, p0, 0),
   (.fwWrite (some 3) 2 3 77, p0, 1),
   (.serclkWrite 0x00010401, p0, 1),
   (.serclkWrite 0x00000401, p0, 0),
   (.serclkWrite 0x00010800, { p0 with display := { serclk := 0x00010401 } }, 2),
   (.vobWrite 0 6 77, p0, 0),
   (.vrecWrite 0 0x600001, p0, 0),
   (.gazeWrite 0 0x200020, p0, 0),
   (.deviceRegisterWrite 0x3F0000000100 true 0x12345678, p0, 0),
   (.embctlWrite 0 1, p0, 1)]
theorem test_register_steps1 : ∀ x ∈ registerSteps1, metStep registerCases x = true := by decide +kernel
theorem test_register_steps2 : ∀ x ∈ registerSteps2, metStep registerCases x = true := by decide +kernel

noncomputable def broadcastFactSteps : List (Instr × State × Nat) :=
  [(.fwWrite none 2 3 77, p0, 0)]
theorem test_broadcast_fact_steps : ∀ x ∈ broadcastFactSteps, metFact broadcastFacts x = true := by decide +kernel

noncomputable def vobFactSteps : List (Instr × State × Nat) :=
  [(.vobWrite 0 7 77, p0, 1),
   (.vobWrite 0 7 77, view fun v => { v with vob := BitVec.ofNat 512 (4000000 * 2 ^ 224) }, 0)]
theorem test_vob_fact_steps : ∀ x ∈ vobFactSteps, metFact vobFacts x = true := by decide +kernel

noncomputable def replaySteps : List (Instr × State × Nat) :=
  [(.wtreplayByPage 0 (2 * 2 ^ 40 + 0x61), parkedState 7 waitEntry, 0),
   (.wtreplayByToken 0 (2 ^ 62 + 8), parkedState 7 waitEntry, 0),
   (.wtreplayByAsid 0 (2 ^ 63 + 3 * 2 ^ 40), parkedState 7 waitEntry, 0)]
theorem test_replay_steps : ∀ x ∈ replaySteps, metStep replayCases x = true := by decide +kernel

noncomputable def replayFactSteps : List (Instr × State × Nat) :=
  [(.wtreplayByPage 0 (2 * 2 ^ 40 + 0x60), parkedState 7 waitEntry, 0),
   (.wtreplayByPage 0 (2 ^ 61 + 2 * 2 ^ 40 + 0x60), parkedState 7 waitEntry, 1),
   (.wtreplayByToken 0 (2 ^ 62 + 7), parkedState 7 waitEntry, 0),
   (.wtreplayByToken 0 (2 ^ 62 + 2 ^ 61 + 7), parkedState 7 waitEntry, 1),
   (.wtreplayByAsid 0 (2 ^ 63 + 2 * 2 ^ 40), parkedState 7 waitEntry, 0),
   (.wtreplayByAsid 0 (2 ^ 63 + 2 ^ 61 + 2 * 2 ^ 40), parkedState 7 waitEntry, 1)]
theorem test_replay_fact_steps : ∀ x ∈ replayFactSteps, metFact replayFacts x = true := by decide +kernel

noncomputable def rewalkFactSteps : List (Instr × State × Nat) :=
  [(.waitTableRewalk 0 7, parkedState 7 waitEntry, 0)]
theorem test_rewalk_fact_steps : ∀ x ∈ rewalkFactSteps, metFact rewalkFacts x = true := by decide +kernel

noncomputable def groupSteps1 : List (Instr × State × Nat) :=
  [(.waitTableRewalk 0 7, parkedState 7 { waitEntry with page := 0x6000000 }, 0),
   (.siblingStop 64, withG (fun g => { g with haltSeen := some 0 }) p0, 0),
   (.sibhaltPop 64, withG (fun g => { g with halted := true, held := [{ kind := .trap, mask := 5, rpc := 128, cause := 0x0D }], depth := 1 }) p0, 0),
   (.sleepExpiry 64, withG (fun g => { g with sleepTo := some 1000 }) p0, 0),
   (.tokenHop 0 0, die (fun d => { d with tokens := [token (some 900), token none], embTcnt := 1 }), 0),
   (.tokenHop 0 0, die (fun d => { d with tokens := [token (some 900)] }), 3),
   (.tokenHop 0 0, withG (fun g => { g with wants := true }) (die (fun d => { d with tokens := [token (some 900)] })), 1)]
noncomputable def groupSteps2 : List (Instr × State × Nat) :=
  [(.tokenHop 0 0, withG (fun g => { g with wants := true }) (plain (die (fun d => { d with tokens := [token (some 900)] }))), 2),
   (.tokenHop 0 0, withG (fun g => { g with wants := true }) (die (fun d => { d with tokens := [{ cluster := 1, arrives := some 900 }] })), 4),
   (.burstEnd 0 0, die (fun d => { d with embTcnt := 1, tokens := [{ cluster := 0, arrives := none, start := 10, idle := 10 }, token none] }), 0),
   (.burstEnd 0 0, { die (fun d => { d with tokens := [{ cluster := 0, arrives := none, start := 10, idle := 10 }] }) with clock := 100000 }, 3)]
theorem test_group_steps1 : ∀ x ∈ groupSteps1, metStep groupCases x = true := by decide +kernel
theorem test_group_steps2 : ∀ x ∈ groupSteps2, metStep groupCases x = true := by decide +kernel

noncomputable def heatFactSteps : List (Instr × State × Nat) :=
  [(.thermalReset 0 110, card { c0 with st := .serving }, 0)]
theorem test_heat_fact_steps : ∀ x ∈ heatFactSteps, metFact heatFacts x = true := by decide +kernel

noncomputable def heatSteps : List (Instr × State × Nat) :=
  [(.thermalThrottle 0 100, p0, 0),
   (.thermalTokenRestore 0 94, die (fun d => { d with tokenSave := some 4, embTcnt := 1 }), 1),
   (.thermalTokenRestore 0 94, die (fun d => { d with tokenSave := some 1, embTcnt := 1 }), 0)]
theorem test_heat_steps : ∀ x ∈ heatSteps, metStep heatCases x = true := by decide +kernel

noncomputable def reallocFactSteps : List (Instr × State × Nat) :=
  [(.reallocDecision 2, realloc 0x10000, 0),
   (.reallocDecision 2, realloc 0x6000, 2),
   (.reallocDecision 2, realloc 0, 4),
   (.reallocDecision 2, withT (fun t => { t with ngroups := 2, reallocs := [(0, 3), (1, 2)], barIn := 3 }) (realloc 3), 1),
   (.reallocDecision 2, { realloc 15 with teams := [(2, { ctx := 1, regs := 16, scr := 1, ngroups := 1, barIn := 1, reallocs := [(0, 15)] }), (5, { ctx := 1, regs := 256, scr := 1, ngroups := 64 })] }, 3)]
theorem test_realloc_fact_steps : ∀ x ∈ reallocFactSteps, metFact reallocFacts x = true := by decide +kernel

noncomputable def contextSteps : List (Instr × State × Nat) :=
  [(.ctxCreate 0, p0, 0),
   (.ctxCreate 3, p0, 2),
   (.ctxCreate 3, poke 0x10C0 1 6 p0, 3),
   (.ctxCreate 3, poke 0x10C0 1 16 p0, 1),
   (.ctxKill 0x1000003, p0, 0),
   (.ctxDestroy 0x2000001, p0, 1),
   (.ctxDestroy 0x2000003, p0, 0),
   (.ctxDestroy 0x2000001, { p0 with teams := [], groups := [] }, 2)]
theorem test_context_steps : ∀ x ∈ contextSteps, metStep contextCases x = true := by decide +kernel

noncomputable def contextFactSteps : List (Instr × State × Nat) :=
  [(.ctxKill 0x1000001, p0, 0)]
theorem test_context_fact_steps : ∀ x ∈ contextFactSteps, metFact contextFacts x = true := by decide +kernel

noncomputable def launchSteps1 : List (Instr × State × Nat) :=
  [(.cardPostArrival 0, die (fun d => { d with posts := [{ rank := 5, bits := cardOf 0, addr := 0x8000, ctx := 1, region := some 0 }] }), 2),
   (.cardPostArrival 0, die (fun d => { d with posts := [{ rank := 5, bits := cardOf (2 ^ 303), addr := 0x8000, ctx := 1, region := some 0 }] }), 3)]
noncomputable def launchSteps2 : List (Instr × State × Nat) :=
  [(.cardPostArrival 0, die (fun d => { d with posts := [{ rank := 5, bits := 0, addr := 0x8000, ctx := 1, region := some 0 }] }), 1),
   (.cardPostArrival 0, die (fun d => { d with heldReset := true, posts := [{ rank := 5, bits := cardOf 0, addr := 0x8000, ctx := 1, region := some 0 }] }), 0)]
noncomputable def launchSteps3 : List (Instr × State × Nat) :=
  [(.cardStoreEntryFreed 0, die (fun d => { d with posts := [{ rank := 5, bits := cardOf 0, addr := 0x8000, ctx := 1, region := some 0, held := true, group := some 64 }] }), 0),
   (.counterUpdate 0 5, oneOp (.set 0) (.control 2) 7, 0)]
noncomputable def launchSteps4 : List (Instr × State × Nat) :=
  [(.counterUpdate 0 5, oneOp (.set 9) (.control 2) 7, 1),
   (.counterUpdate 0 5, oneOp .dec (.retire 1 0 0 none) 0, 2)]
noncomputable def launchSteps5 : List (Instr × State × Nat) :=
  [(.cardReady 0, card c0, 0),
   (.cardReady 0, card { c0 with bits := cardOf (0x600000 * 2 ^ 448 + 8 * 2 ^ 424) }, 1)]
noncomputable def launchSteps6 : List (Instr × State × Nat) :=
  [(.teamPlacement 0, placeable (card { c0 with st := .ready 1, bits := BitVec.ofNat 512 (2 ^ 256 + 2 ^ 224 + 2 ^ 208 + 2 ^ 192 + 0x600000 * 2 ^ 64 + 0xDC00000000000000) }), 0),
   (.admholdExpiry 0, { card { c0 with st := .ready 1, bits := cardOf (2 ^ 378), firstAt := some 5 } with clock := 2000000 }, 0)]
noncomputable def launchSteps7 : List (Instr × State × Nat) :=
  [(.launchRetirement 0 2, card { c0 with st := .ready 1, next := 1 }, 1),
   (.launchRetirement 0 2, card { c0 with st := .ready 1, next := 1, bits := cardOf (0x600000 * 2 ^ 128 + 0x8005 * 2 ^ 304) }, 2)]
noncomputable def launchSteps8 : List (Instr × State × Nat) :=
  [(.launchRetirement 0 2, card { c0 with st := .ready 1, next := 1, killed := true }, 0),
   (.eventRecord 0, die (fun d => { d with events := [event 0] }), 0)]
noncomputable def launchSteps9 : List (Instr × State × Nat) :=
  [(.eventRecord 0, die (fun d => { d with events := [event (2 ^ 27 + 0x8005)] }), 1),
   (.eventRecord 0, die (fun d => { d with events := [{ event (2 ^ 27 + 0x8005) with stuck := true }] }), 2),
   (.eventRecord 0, die (fun d => { d with events := [event (2 ^ 27 + 0x9005)] }), 2),
   (.eventRecord 0, die (fun d => { d with events := [event (2 ^ 27 + 2 ^ 25 + 2 ^ 22 * 3)] }), 3)]
noncomputable def launchSteps10 : List (Instr × State × Nat) :=
  [(.eventRecord 0, die (fun d => { d with events := [event (2 ^ 27 + 2 ^ 25 + 0x608000 * 2 ^ 64)] }), 5),
   (.eventRecord 0, die (fun d => { d with events := [event (2 ^ 27 + 2 ^ 25 + 0x608000 * 2 ^ 64)], cards := (List.range 4096).map fun i => (i, c0) }), 4),
   (.eventRecord 0, die (fun d => { d with events := [event (2 ^ 27 + 2 ^ 25 + 0x8000000000 * 2 ^ 64)] }), 4)]
noncomputable def launchSteps11 : List (Instr × State × Nat) :=
  [(.eventQueueSlotFreed 0, die (fun d => { d with heldEvents := [event 9] }), 0)]
theorem test_launch_steps1 : ∀ x ∈ launchSteps1, metStep launchCases x = true := by decide +kernel
theorem test_launch_steps2 : ∀ x ∈ launchSteps2, metStep launchCases x = true := by decide +kernel
theorem test_launch_steps3 : ∀ x ∈ launchSteps3, metStep launchCases x = true := by decide +kernel
theorem test_launch_steps4 : ∀ x ∈ launchSteps4, metStep launchCases x = true := by decide +kernel
theorem test_launch_steps5 : ∀ x ∈ launchSteps5, metStep launchCases x = true := by decide +kernel
theorem test_launch_steps6 : ∀ x ∈ launchSteps6, metStep launchCases x = true := by decide +kernel
theorem test_launch_steps7 : ∀ x ∈ launchSteps7, metStep launchCases x = true := by decide +kernel
theorem test_launch_steps8 : ∀ x ∈ launchSteps8, metStep launchCases x = true := by decide +kernel
theorem test_launch_steps9 : ∀ x ∈ launchSteps9, metStep launchCases x = true := by decide +kernel
theorem test_launch_steps10 : ∀ x ∈ launchSteps10, metStep launchCases x = true := by decide +kernel
theorem test_launch_steps11 : ∀ x ∈ launchSteps11, metStep launchCases x = true := by decide +kernel

noncomputable def counterFactSteps : List (Instr × State × Nat) :=
  [(.counterUpdate 0 5, oneOp (.set 0) (.control 2) 7, 0)]
theorem test_counter_fact_steps : ∀ x ∈ counterFactSteps, metFact counterFacts x = true := by decide +kernel

noncomputable def placeFactSteps : List (Instr × State × Nat) :=
  [(.teamPlacement 0, placeable (card { c0 with st := .ready 1 }), 0)]
theorem test_place_fact_steps : ∀ x ∈ placeFactSteps, metFact placeFacts x = true := by decide +kernel

noncomputable def drainFactSteps : List (Instr × State × Nat) :=
  [(.drainDeadline 2, withT (fun t => { t with drainAt := some 900 }) (onCore 0 (fun c => { c with draining := some (0, 0) }) (card { c0 with st := .ready 1, bits := cardOf (2 ^ 379) })), 0)]
theorem test_drain_fact_steps : ∀ x ∈ drainFactSteps, metFact drainFacts x = true := by decide +kernel

noncomputable def retireFactSteps : List (Instr × State × Nat) :=
  [(.launchRetirement 0 2, card { c0 with st := .ready 1, next := 1 }, 0)]
theorem test_retire_fact_steps : ∀ x ∈ retireFactSteps, metFact retireFacts x = true := by decide +kernel

noncomputable def jobEndFactSteps : List (Instr × State × Nat) :=
  [(.decompressionJobEnd 0 2, die (fun d => { d with jobs := [{ slot := 2 }] }) (card { c0 with st := .engine }), 0),
   (.decompressionJobEnd 0 2, die (fun d => { d with jobs := [{ slot := 2 }], events := List.replicate 1024 (event 9) }) (card { c0 with st := .engine }), 1),
   (.decompressionJobEnd 0 2, jobAt 0x600000 (poke 0x60001D 1 1 p0), 2),
   (.decompressionJobEnd 0 2, jobAt 0x8000000000 p0, 0)]
theorem test_job_end_fact_steps : ∀ x ∈ jobEndFactSteps, metFact jobEndFacts x = true := by decide +kernel

noncomputable def outerSteps1 : List (Instr × State × Nat) :=
  [(.faultRecordWrite 0, withRec p0, 0),
   (.faultRecordWrite 0, withRec (queue 0x700000 p0), 2),
   (.faultRecordWrite 0, withRec (poke 0x700000 4 5 (queue 0x700000 p0)), 3)]
noncomputable def outerSteps2 : List (Instr × State × Nat) :=
  [(.faultRecordWrite 0, withRec (poke 0x700000 4 62 (queue 0x700000 p0)), 1),
   (.flueRecordWrite 0, withFlue p0, 0),
   (.flueRecordWrite 0, withFlue (flueRing p0), 1)]
noncomputable def outerSteps3 : List (Instr × State × Nat) :=
  [(.flueRecordWrite 0, withFlue (poke 0x700000 4 5 (flueRing p0)), 2),
   (.residencyInvalidation 0 5, onCore 0 (fun c => { c with resInval := [(5, 64)] }) p0, 0),
   (.snapshotLatch 3, snap { due := [(4, 3)], hold := true, full := true }, 0)]
noncomputable def outerSteps4 : List (Instr × State × Nat) :=
  [(.snapshotLatch 3, snap { due := [(4, 3)], hold := true, full := true, missed := 255 }, 1),
   (.snapshotLatch 3, snap { due := [(4, 3)] }, 2),
   (.flitReceive (.port 3) (makeFlit {} 1 payload).header (makeFlit {} 1 payload).beats, link { st := .up }, 3)]
noncomputable def outerSteps5 : List (Instr × State × Nat) :=
  [(.flitReceive (.port 3) 5 [], link { st := .up }, 0),
   (.flitReceive (.port 3) (makeFlit {} 1 payload).header (makeFlit {} 1 payload).beats, link { st := .up, rxAny := true }, 2),
   (.replacementNotice 2, { p0 with display := { notices := [(2, 0)] } }, 0)]
noncomputable def outerSteps6 : List (Instr × State × Nat) :=
  [(.dmaRequest 0 0 false 0x600000 8 [], endpoint 0, 1),
   (.dmaRequest 0 0 true 0x600000 4 [1, 2, 3, 4], endpoint 0, 0),
   (.dmaRequest 0 0 false 0x600000 8 [], endpoint 7, 3)]
noncomputable def outerSteps7 : List (Instr × State × Nat) :=
  [(.dmaRequest 0 0 true 0x600000 4 [1, 2, 3, 4], endpoint 7, 2),
   (.pcieWindowCompletion 3 true 0x123456789, req (fun r => { r with space := .pcie }), 0),
   (.pcieWindowCompletion 3 false 0, req (fun r => { r with space := .pcie }), 1)]
noncomputable def outerSteps8 : List (Instr × State × Nat) :=
  [(.measureComponent 7 [1, 2, 3], p0, 0),
   (.flitReceive (.port 3) ((sendAck { rxAny := true, rxSeq := 5 }).sent.head?.map (·.header)).get! [], link { st := .up }, 1)]
theorem test_outer_steps1 : ∀ x ∈ outerSteps1, metStep outerCases x = true := by decide +kernel
theorem test_outer_steps2 : ∀ x ∈ outerSteps2, metStep outerCases x = true := by decide +kernel
theorem test_outer_steps3 : ∀ x ∈ outerSteps3, metStep outerCases x = true := by decide +kernel
theorem test_outer_steps4 : ∀ x ∈ outerSteps4, metStep outerCases x = true := by decide +kernel
theorem test_outer_steps5 : ∀ x ∈ outerSteps5, metStep outerCases x = true := by decide +kernel
theorem test_outer_steps6 : ∀ x ∈ outerSteps6, metStep outerCases x = true := by decide +kernel
theorem test_outer_steps7 : ∀ x ∈ outerSteps7, metStep outerCases x = true := by decide +kernel
theorem test_outer_steps8 : ∀ x ∈ outerSteps8, metStep outerCases x = true := by decide +kernel

noncomputable def triggerFactSteps : List (Instr × State × Nat) :=
  [(.snapTriggerRoot, { p0 with io := { p0.io with triggers := 1 } }, 0)]
theorem test_trigger_fact_steps : ∀ x ∈ triggerFactSteps, metFact triggerFacts x = true := by decide +kernel

noncomputable def flitFactSteps : List (Instr × State × Nat) :=
  [(.flitSend (.port 3) 1 payload, named (link { st := .up, queued := [(1, payload)] }), 1),
   (.flitSend (.port 3) 0 [], link { st := .up, ackDue := true }, 0)]
theorem test_flit_fact_steps : ∀ x ∈ flitFactSteps, metFact flitFacts x = true := by decide +kernel

noncomputable def retrainSteps : List (Instr × State × Nat) :=
  [(.linkRetrain (.port 3), link { st := .up, retryAt := List.range 9, window := 999999 }, 0),
   (.retrainComplete (.port 3), link { st := .retraining 3 }, 0),
   (.retrainingAttemptFailure (.port 3), link { st := .retraining 2 }, 0),
   (.retrainingAttemptFailure (.port 3), link { st := .retraining 3 }, 1)]
theorem test_retrain_steps : ∀ x ∈ retrainSteps, metStep retrainCases x = true := by decide +kernel

noncomputable def downFactSteps : List (Instr × State × Nat) :=
  [(.linkDown (.port 3), link { st := .retraining 4 } (req id), 0)]
theorem test_down_fact_steps : ∀ x ∈ downFactSteps, metFact downFacts x = true := by decide +kernel

noncomputable def stripFactSteps : List (Instr × State × Nat) :=
  [(.stripStart 0, running {} 1000000, 0),
   (.stripStart 0, running {} 1000000, 1)]
theorem test_strip_fact_steps : ∀ x ∈ stripFactSteps, metFact stripFacts x = true := by decide +kernel

noncomputable def sealFactSteps : List (Instr × State × Nat) :=
  [(.sealArrival, sealed { opened := true, geo := { rec_ := viewRecord } }, 0),
   (.sealArrival, sealed {}, 1)]
theorem test_seal_fact_steps : ∀ x ∈ sealFactSteps, metFact sealFacts x = true := by decide +kernel

noncomputable def replaceFactSteps : List (Instr × State × Nat) :=
  [(.replacementInstant 0, running { opened := true, geo := { rec_ := viewRecord }, deadline := 1000 } 1000, 0)]
theorem test_replace_fact_steps : ∀ x ∈ replaceFactSteps, metFact replaceFacts x = true := by decide +kernel

noncomputable def bootFactSteps : List (Instr × State × Nat) :=
  [(.powerOn, State.reset, 1),
   (.lifetimeFlush, { p0 with clock := 105000000000 }, 0),
   (.powerLoss, p0, 0),
   (.powerOn, starting 0, 0),
   (.powerOn, starting 3, 2),
   (.powerOn, starting 10, 3),
   (.powerOn, starting 11, 4),
   (.powerOn, starting 12, 5),
   (.powerOn, starting 13, 6)]
theorem test_boot_fact_steps : ∀ x ∈ bootFactSteps, metFact bootFacts x = true := by decide +kernel

noncomputable def commandFactSteps : List (Instr × State × Nat) :=
  [(.status [1, 0, 1, 0, 0, 0, 0, 0], waiting, 3),
   (.status [1, 2, 1, 0, 0, 0, 0, 0], waiting, 2),
   (.reset [2, 0, 1, 0, 0, 0, 0, 0], waiting, 3),
   (.reset [2, 2, 1, 0, 0, 0, 0, 0], waiting, 2),
   (.loadimg ([3, 0, 1, 0, 0, 0, 9, 0] ++ [7, 0, 0, 0, 0, 0, 0, 0, 1]), waiting, 3),
   (.loadimg ([3, 0, 1, 0, 0, 0, 9, 0] ++ [0, 0, 0, 0, 0, 0, 0, 0, 1]), waiting, 4),
   (.loadimg ([3, 0, 1, 0, 0, 0, 9, 0] ++ [0, 0, 0, 0, 1, 0, 0, 0, 1]), waiting, 5),
   (.loadimg ([3, 0, 1, 0, 0, 0, 0, 0]), waiting, 2)]
theorem test_command_fact_steps : ∀ x ∈ commandFactSteps, metFact commandFacts x = true := by decide +kernel

noncomputable def discardSteps : List (Instr × State × Nat) :=
  [(.status [1, 0, 0, 0, 0, 0, 0, 0], waiting, 0),
   (.reset [2, 0, 1, 0, 0, 0, 0, 0], p0, 0),
   (.loadimg ([3, 0, 1, 0, 0, 0, 0, 0]), p0, 0)]
theorem test_discard_steps : ∀ x ∈ discardSteps, metStep discardCases x = true := by decide +kernel

noncomputable def moverSteps1 : List (Instr × State × Nat) :=
  [(.cpaCopyComplete 5, copyState { toGlobal := true }, 0),
   (.cpaCopyComplete 5, copyState {}, 1),
   (.xfmReply 5, { p0 with xfms := [(5, { group := 64, writes := [(32, 7)] })] }, 0),
   (.sendAtRelay 5, withSend (fun x => { x with rnc := 0 }) 0x80000, 1),
   (.sendAtRelay 5, withSend id 0x80000, 4),
   (.sendAtRelay 5, named (withSend (fun x => { x with remote := some 7 }) 0x80000), 0),
   (.sendAtRelay 5, withSend id 0x80000 (evictedTlt 0 p0), 3),
   (.sendAtRelay 5, withSend id 0x80000 (evictedTlt 256 p0), 2),
   (.messageAtRelay 5, withSend (fun x => { x with msg := true, rnc := 0 }) 0x80000, 1),
   (.messageAtRelay 5, withSend (fun x => { x with msg := true, bytes := List.replicate 16 1 }) 0x98000, 2)]
noncomputable def moverSteps2 : List (Instr × State × Nat) :=
  [(.messageAtRelay 5, withSend (fun x => { x with msg := true, bytes := List.replicate 16 1 }) 0x98000 (ringed 0 (residentTlt p0)), 5),
   (.messageAtRelay 5, withSend (fun x => { x with msg := true, bytes := List.replicate 16 1 }) 0x98000 (ringed 4 (residentTlt p0)), 3),
   (.messageAtRelay 5, withSend (fun x => { x with msg := true, bytes := List.replicate 16 1 }) 0x98000 (poke 0x800050 8 (64 + 2 * 2 ^ 32 + 2 ^ 48) (evictedTlt 0 p0)), 4),
   (.messageAtRelay 5, named (withSend (fun x => { x with msg := true, remote := some 7 }) 0x98000), 0),
   (.sendArrival 5, withSend (fun x => { x with st := .toCore }) 0x80000, 2),
   (.sendArrival 5, withSend (fun x => { x with st := .toCore }) 0x80000 (withG (fun g => { g with await := 2 }) (residentTlt p0)), 1),
   (.sendArrival 5, withSend (fun x => { x with st := .toCore }) 0x8000000, 0),
   (.sendMoved 5, withSend (fun x => { x with st := .toCore, core := 9 }) 0x80000, 0),
   (.sendStatusReply 5 none, withSend (fun x => { x with st := .replied 0 }) 0x80000, 1),
   (.sendStatusReply 5 none, withSend (fun x => { x with st := .replied 0, live := false }) 0x80000, 0)]
noncomputable def moverSteps3 : List (Instr × State × Nat) :=
  [(.sendStatusReply 5 none, withSend (fun x => { x with st := .replied 3, trap := true }) 0x80000 (withG (fun g => { g with waiting := some (.send 5) }) (residentTlt p0)), 1),
   (.teamEviction 2, withT (fun t => { t with evicting := some (0x800000, 64) }) (withG (fun g => { g with halted := true }) (residentTlt p0)), 0)]
theorem test_mover_steps1 : ∀ x ∈ moverSteps1, metStep moverCases x = true := by decide +kernel
theorem test_mover_steps2 : ∀ x ∈ moverSteps2, metStep moverCases x = true := by decide +kernel
theorem test_mover_steps3 : ∀ x ∈ moverSteps3, metStep moverCases x = true := by decide +kernel

noncomputable def laneCopyFactSteps : List (Instr × State × Nat) :=
  [(.cpaCopyComplete 5, copyState { toGlobal := true }, 0),
   (.cpaCopyComplete 5, copyState { off := 0xFFFFFFFF }, 1)]
theorem test_lane_copy_fact_steps : ∀ x ∈ laneCopyFactSteps, metFact laneCopyFacts x = true := by decide +kernel

noncomputable def arrivalFactSteps : List (Instr × State × Nat) :=
  [(.sendArrival 5, withSend (fun x => { x with st := .toCore }) 0x80000 (withG (fun g => { g with await := 2 }) (residentTlt p0)), 0)]
theorem test_arrival_fact_steps : ∀ x ∈ arrivalFactSteps, metFact arrivalFacts x = true := by decide +kernel

noncomputable def bulkFactSteps : List (Instr × State × Nat) :=
  [(.bulkCopyComplete 5, bulkState 0, 0),
   (.bulkCopyComplete 5, bulkState 0, 1)]
theorem test_bulk_fact_steps : ∀ x ∈ bulkFactSteps, metFact bulkFacts x = true := by decide +kernel

noncomputable def weightFactSteps : List (Instr × State × Nat) :=
  [(.wbldComplete 2 2, withT (fun t => { t with wslots := [(2, { held := true, loading := true, image := 0x600000, pa := 0x600000 })] }) p0, 0)]
theorem test_weight_fact_steps : ∀ x ∈ weightFactSteps, metFact weightFacts x = true := by decide +kernel

noncomputable def tileFactSteps : List (Instr × State × Nat) :=
  [(.mtileStep 64, tileState, 0)]
theorem test_tile_fact_steps : ∀ x ∈ tileFactSteps, metFact tileFacts x = true := by decide +kernel

noncomputable def evictionFactSteps : List (Instr × State × Nat) :=
  [(.teamEviction 2, withT (fun t => { t with evicting := some (0x800000, 65) }) (moveTlt p0), 0)]
theorem test_eviction_fact_steps : ∀ x ∈ evictionFactSteps, metFact evictionFacts x = true := by decide +kernel

noncomputable def restoreFactSteps : List (Instr × State × Nat) :=
  [(.teamRestore 2, restoreState, 0)]
theorem test_restore_fact_steps : ∀ x ∈ restoreFactSteps, metFact restoreFacts x = true := by decide +kernel

noncomputable def meshSteps : List (Instr × State × Nat) :=
  [(.meshRingEntry 0, die (fun d => { d with meshReqs := [{ group := some 64, slot := 2, n := 3, payload := 77 }] }) (card { c0 with st := .serving }), 0)]
theorem test_mesh_steps : ∀ x ∈ meshSteps, metStep meshCases x = true := by decide +kernel

noncomputable def cullFactSteps : List (Instr × State × Nat) :=
  [(.cullInstance 0, cullState 0 4, 1),
   (.cullInstance 0, poke 0x110030 1 1 (cullState 0 4), 0)]
theorem test_cull_fact_steps : ∀ x ∈ cullFactSteps, metFact cullFacts x = true := by decide +kernel

noncomputable def cullSteps : List (Instr × State × Nat) :=
  [(.cullInstance 0, cullState 4 4, 0)]
theorem test_cull_steps : ∀ x ∈ cullSteps, metStep cullCases x = true := by decide +kernel

noncomputable def binSteps : List (Instr × State × Nat) :=
  [(.primitiveAtBinner 0, binState [], 0)]
theorem test_bin_steps : ∀ x ∈ binSteps, metStep binCases x = true := by decide +kernel

noncomputable def binFactSteps : List (Instr × State × Nat) :=
  [(.primitiveAtBinner 0, binState [0], 0)]
theorem test_bin_fact_steps : ∀ x ∈ binFactSteps, metFact binFacts x = true := by decide +kernel

noncomputable def ownerFactSteps : List (Instr × State × Nat) :=
  [(.primitiveAtOwner 0, ownState 65536 id, 1),
   (.primitiveAtOwner 0, ownState 65536 (fun t => { t with late := true }), 0),
   (.primitiveAtOwner 0, ownState 256 (fun t => { t with prims := [viewPrim, viewPrim] }), 2)]
theorem test_owner_fact_steps : ∀ x ∈ ownerFactSteps, metFact ownerFacts x = true := by decide +kernel

noncomputable def markerFactSteps : List (Instr × State × Nat) :=
  [(.drawEndMarker 0, die (fun d => { d with binMsgs := [.marker 0x100000 9 1 0 0] }), 0)]
theorem test_marker_fact_steps : ∀ x ∈ markerFactSteps, metFact markerFacts x = true := by decide +kernel

noncomputable def applyFactSteps : List (Instr × State × Nat) :=
  [(.primitiveApply 0 (tileKey 1 0x100000 9 0 0 0 0), applyState, 0)]
theorem test_apply_fact_steps : ∀ x ∈ applyFactSteps, metFact applyFacts x = true := by decide +kernel

noncomputable def depthFactSteps : List (Instr × State × Nat) :=
  [(.primitiveApply 0 (tileKey 1 0x100000 9 0 0 0 0), applyState, 0)]
theorem test_depth_fact_steps : ∀ x ∈ depthFactSteps, metFact depthFacts x = true := by decide +kernel

/-! Commands signed with a key pair of the operator (R51): the signatures were computed outside Lean by the formulas of SM2. -/

def orderAttest : List Byte := order 4 (List.replicate 36 0)
  0x36E8D8BEFA15229D1F93F55D8421CEB3E1601EE791F3B554BE60B9485A4FFE61648B93A002F56EB1703605513DEF18A5C851E041C7E927EB4AAD9D606FC2A162
def orderSnap : List Byte := order 5 ([])
  0x35E834B5CC5CEA6D2633E29CCBCEC1A7CB4C4C0773D6FF2AFDE03936C0DE94F7650BE5A499D18AC96CE60EB19A189F2BD35BC9B1D6F783002AEDDD693C7B5617
def orderRdsnap : List Byte := order 6 ([0, 0, 0, 0, 0])
  0xB5C82BABCE75E33F74F31A0905AC52A4F1D7BD745B00366592B4B1877FB46E56A51BEA2918C50E60458672FB7D29D6ACF91800B0F445E9F88A619B4579FB09F9
def orderRdlife : List Byte := order 7 ([0, 0, 0, 0])
  0x691BE4965E49F7AB51DCF315764EAD7DB8944C996A92BAF59136AE79B0CDBC094B720DB450DB042A5711867544D8A940DCB7C968DB99A51AE142A2C7C483C28E
def orderSetpkg : List Byte := order 8 ([5, 0])
  0x9E5FEBD0002ACFA604A9A9E0EDAD0D4AD7D641D205039E1DEF1D5DD6A7C323E530D00A177FEA982CFDAB2B0F8929795A4D16CECC8E613386B24F4B1949090EA0
def orderKillctx : List Byte := order 9 ([1, 0])
  0x2C407A37FB55D47BA7D8DD9AC39AFF070EF99BC7D2B2AE9B979330699F81176EE9DFC2E3025515C22C1391329E32807BEA871187386CADDD87F25BD46A14B56D
def orderUnknown : List Byte := order 12 ([])
  0xEDA2926CC5F594769760D91B0820D6EE8C7EA7BE3C18D31171FFB57E9737DF6D092EB6C91D0535C4B44F93727BEF948872C29BD672D6990CF0DE1F45514EB0DC
def orderBadBody : List Byte := order 8 ([5, 4])
  0x12D758ED4901BCCF0D994DEF426602600C3016251ECFE7830274BDD5952DBAFD76945388DB7F2198793359085ECCFECFB2E9E4A3017B0ED428A39B19D253C314

/-- Is a datagram signed with the operator's key, and its number above 0? -/
def signedOk (d : List Byte) : Bool :=
  let n := 8 + dgNat d 6 2
  bitN (dgNat d 1 1) 0 && decide (n + 64 ≤ d.length) && decide (0 < dgNat d 2 4) &&
    Sm2.quickVerifies operatorKey (Sm2.digest mgmtId operatorKey (d.take n)) (BitVec.ofNat 512 (beNat ((d.drop n).take 64)))

theorem accepted_of {b : Boot} {d : List Byte} (k : b.opKeys = [operatorKey]) (q : b.lastSeq = 0) (h : signedOk d = true) :
    accepted b d = true := by
  simp only [signedOk, Bool.and_eq_true, decide_eq_true_eq, ← Sm2.verifies_eq] at h
  obtain ⟨⟨⟨h1, h2⟩, h3⟩, h4⟩ := h
  simp [accepted, k, q, h1, h2, h3, h4]
  omega

theorem signed_attest : signedOk orderAttest = true := by decide +kernel
theorem signed_snap : signedOk orderSnap = true := by decide +kernel
theorem signed_rdsnap : signedOk orderRdsnap = true := by decide +kernel
theorem signed_rdlife : signedOk orderRdlife = true := by decide +kernel
theorem signed_setpkg : signedOk orderSetpkg = true := by decide +kernel
theorem signed_killctx : signedOk orderKillctx = true := by decide +kernel
theorem signed_unknown : signedOk orderUnknown = true := by decide +kernel
theorem signed_badbody : signedOk orderBadBody = true := by decide +kernel

theorem test_command_attest_0 : metFact commandFacts (.attest orderAttest, operated, 4) = true := by
  have h : accepted (operated).boot orderAttest = true := accepted_of rfl rfl signed_attest
  simp only [metFact, commandFacts, datagramOf, h]
  decide +kernel

theorem test_command_attest_1 : metFact commandFacts (.attest orderAttest, { operated with boot := { operated.boot with quoteFor := some (List.replicate 32 0), quote := List.replicate 200 7 } }, 3) = true := by
  have h : accepted ({ operated with boot := { operated.boot with quoteFor := some (List.replicate 32 0), quote := List.replicate 200 7 } }).boot orderAttest = true := accepted_of rfl rfl signed_attest
  simp only [metFact, commandFacts, datagramOf, h]
  decide +kernel

theorem test_command_attest_2 : metFact commandFacts (.attest orderAttest, { operated with boot := { operated.boot with phase := .waiting } }, 1) = true := by
  have h : accepted ({ operated with boot := { operated.boot with phase := .waiting } }).boot orderAttest = true := accepted_of rfl rfl signed_attest
  simp only [metFact, commandFacts, datagramOf, h]
  decide +kernel

theorem test_command_snap_3 : metFact commandFacts (.snapCommand orderSnap, operated, 4) = true := by
  have h : accepted (operated).boot orderSnap = true := accepted_of rfl rfl signed_snap
  simp only [metFact, commandFacts, datagramOf, h]
  decide +kernel

theorem test_command_snap_merged : metFact commandFacts (.snapCommand orderSnap, { operated with io := { operated.io with trigAt := 1001 } }, 3) = true := by
  have h : accepted ({ operated with io := { operated.io with trigAt := 1001 } }).boot orderSnap = true := accepted_of rfl rfl signed_snap
  simp only [metFact, commandFacts, datagramOf, h]
  decide +kernel

theorem test_command_rdsnap_4 : metFact commandFacts (.rdsnap orderRdsnap, operated, 3) = true := by
  have h : accepted (operated).boot orderRdsnap = true := accepted_of rfl rfl signed_rdsnap
  simp only [metFact, commandFacts, datagramOf, h]
  decide +kernel

theorem test_command_rdlife_5 : metFact commandFacts (.rdlife orderRdlife, operated, 3) = true := by
  have h : accepted (operated).boot orderRdlife = true := accepted_of rfl rfl signed_rdlife
  simp only [metFact, commandFacts, datagramOf, h]
  decide +kernel

theorem test_command_setpkg_6 : metFact commandFacts (.setpkg orderSetpkg, operated, 3) = true := by
  have h : accepted (operated).boot orderSetpkg = true := accepted_of rfl rfl signed_setpkg
  simp only [metFact, commandFacts, datagramOf, h]
  decide +kernel

theorem test_command_killctx_7 : metFact commandFacts (.killctx orderKillctx, { operated with io := { operated.io with ctxbase := 0x900000 } }, 3) = true := by
  have h : accepted ({ operated with io := { operated.io with ctxbase := 0x900000 } }).boot orderKillctx = true := accepted_of rfl rfl signed_killctx
  simp only [metFact, commandFacts, datagramOf, h]
  decide +kernel

theorem test_command_killctx_8 : metFact commandFacts (.killctx orderKillctx, operated, 4) = true := by
  have h : accepted (operated).boot orderKillctx = true := accepted_of rfl rfl signed_killctx
  simp only [metFact, commandFacts, datagramOf, h]
  decide +kernel

theorem test_command_unknown_9 : metFact commandFacts (.unknownCommand orderUnknown, operated, 0) = true := by
  have h : accepted (operated).boot orderUnknown = true := accepted_of rfl rfl signed_unknown
  simp only [metFact, commandFacts, datagramOf, h]
  decide +kernel

theorem test_command_badbody_10 : metFact commandFacts (.setpkg orderBadBody, operated, 2) = true := by
  have h : accepted (operated).boot orderBadBody = true := accepted_of rfl rfl signed_badbody
  simp only [metFact, commandFacts, datagramOf, h]
  decide +kernel

/-! Control cores. -/

def metCtl (x : CtlOp × State × Nat) : Bool := ((ctlCases 2 x.1 x.2.1)[x.2.2]?).any (·.ok)
/-- A package whose control core 2 runs; with a load of it on its way; in supervisor mode with interrupt 1 pending in its supervisor file. -/
def ctlUp (s : State := p0) : State := { s with ctl := [(2, { up := true })] }
def ctlLoads : State := ctlUp (req fun _ => ctlReq 2 0x600000 8 (.load 0 0) 0)
def ctlCalled : State :=
  let n := 18 * 4096 + 1
  { ctlUp { p0 with io := { p0.io with imsic := [(n, true)], imsicOn := [(n, true)], imsicDeliver := [(18, true)] } } with
    ctl := [(2, { up := true, mode := .supervisor })] }

theorem test_ctl : ∀ x ∈ [(CtlOp.time, p0, 0), (.load 0x600000 8, ctlUp, 2), (.load 0xC000000000 8, ctlUp, 1), (.load 0x3F0000000000 8, ctlUp, 2),
    (.store 0x600000 4 5, ctlUp, 2), (.store 0xC000000000 4 5, ctlUp, 1), (.fence .acq, ctlUp, 2), (.fence .ar, ctlUp, 2), (.fence .rel, ctlLoads, 1),
    (.fence .acq, ctlLoads, 1), (.mode .user, ctlUp, 1), (.time, ctlUp, 1), (.enable true 1 true, ctlUp, 1), (.enable true 4096 true, ctlUp, 2),
    (.claim true, ctlUp, 1), (.claim true, ctlCalled, 2)], metCtl x = true := by decide +kernel

/-! The hypotheses of the other statements are met. -/

/-- The hypotheses of StepRunsDecodedInstruction. -/
noncomputable def stepRuns (s : State) (k e : Nat) (ws : List Word) (i : Instr) : Bool :=
  let a := chooseMove s
  let b := coreStoreError k (meetCaches (teamAt a.2 (handleOf k)).core a.2)
  let c := fetchBlock k (turnBegun k b.2)
  (match a.1, c.1, Maps.find c.2.groups k, decode ws with
    | .group j, .line l, some g, .ok (i', []) => j == k && chainWords g l == some (ws, e) && unitsFree c.2 (curTeam c.2) g ws && i' == i &&
        (match exec i (beforeChain k g e c.2) with
          | .next _ => true
          | _ => false)
    | _, _, _, _ => false) && b.1.isNone && (takePending { b.2 with cur := k }).isNone && !pipeClash ws

theorem stepRuns_holds {s : State} {k e : Nat} {ws : List Word} {i : Instr} (h : stepRuns s k e ws i = true) :
    ∃ s0 s1 s2 t l g, chooseMove s = (.group k, s0) ∧ coreStoreError k (meetCaches (teamAt s0 (handleOf k)).core s0) = (none, s1) ∧
      takePending { s1 with cur := k } = none ∧ fetchBlock k (turnBegun k s1) = (.line l, s2) ∧ Maps.find s2.groups k = some g ∧
      chainWords g l = some (ws, e) ∧ unitsFree s2 (curTeam s2) g ws = true ∧ pipeClash ws = false ∧ decode ws = .ok (i, []) ∧
      exec i (beforeChain k g e s2) = .next t := by
  simp only [stepRuns, Bool.and_eq_true, Bool.not_eq_true', Option.isNone_iff_eq_none] at h
  obtain ⟨⟨⟨h, hb⟩, hp⟩, hc⟩ := h
  split at h
  · next j l g i' ha hf hg hd =>
    simp only [Bool.and_eq_true, beq_iff_eq] at h
    obtain ⟨⟨⟨⟨hj, hw⟩, hu⟩, hi⟩, he⟩ := h
    subst hj hi
    split at he
    · next t ht => exact ⟨_, _, _, t, l, g, Prod.ext ha rfl, Prod.ext hb rfl, hp, Prod.ext hf rfl, hg, hw, hu, hc, hd, ht⟩
    · exact absurd he (by simp)
  · exact absurd h (by simp)

/-- `iadd v3, v4, v5` in the one packet of a package otherwise at rest; NOPs follow it. -/
theorem test_step_runs : stepRuns (State.reset.withFetchWord 32 0b0_000001_0_000_0000011_0000100_0000101) 0 1
    [0b0_000001_0_000_0000011_0000100_0000101#32] (.iadd false false 3 4 5) = true := by decide +kernel

theorem test_step_keeps_form : State.Inv (State.reset.withFetchWord 32 0) ∧
    (match step (State.reset.withFetchWord 32 0) with
      | .next _ => true
      | _ => false) = true := by decide +kernel

/-- ScoreboardHolds. -/
def sPending : State := withG fun g => { g with pending := [(.vec 4, 9)] }
theorem test_scoreboard : ∃ i w g r, wordRule i = some w ∧ Maps.find sPending.groups sPending.cur = some g ∧ sPending.issue = .alone ∧
    r ∈ w.regs g ∧ g.busy r = true :=
  ⟨.iadd false false 3 4 5, _, { g0 with pending := [(.vec 4, 9)] }, .vec 4, rfl, by decide +kernel, by decide +kernel, by decide +kernel,
    by decide +kernel⟩

/-- OperandBoundsTrap, its two clauses. -/
def smallTeam : State := withT fun t => { t with regs := 16 }
theorem test_misaligned : ∃ i w, wordRule i = some w ∧ Ready s0 g0 (w.regs g0) ∧ ∃ r ∈ w.dst ++ w.src, ea w.x r.1 g0 % r.2.2 ≠ 0 :=
  ⟨.mov64 false false 3 4, _, rfl, ready_of (by decide +kernel) (by decide +kernel), by decide +kernel⟩
theorem test_beyond : ∃ i w, wordRule i = some w ∧ Ready smallTeam g0 (w.regs g0) ∧ (∀ r ∈ w.dst ++ w.src, ea w.x r.1 g0 % r.2.2 = 0) ∧
    ∃ r ∈ w.dst ++ w.src, allot smallTeam < ea w.x r.1 g0 + r.2.1 :=
  ⟨.iadd false false 3 4 16, _, rfl, ready_of (by decide +kernel) (by decide +kernel), by decide +kernel, by decide +kernel⟩

/-- ChainReadsBeforeWriting. -/
theorem test_chain : ∃ i j w v, wordRule i = some w ∧ scalarRule i = none ∧ scalarRule j = some v ∧ Ready s0 g0 (w.regs g0) ∧
    Ready s0 g0 (v.regs g0) ∧ w.fits s0 g0 ∧ g0.tileSrc = none ∧ destClash [collectOne i s0, collectOne j s0] = false :=
  ⟨.movs true false 3 4, .sadd false 4 6 8, _, _, rfl, rfl, rfl, ready_of (by decide +kernel) (by decide +kernel),
    ready_of (by decide +kernel) (by decide +kernel), by unfold WordRule.fits; decide +kernel, rfl, by decide +kernel⟩

/-- TrapEntry and FullStackKillsTeam: an empty stack; a full set of held entries below capacity; the spare position in use. -/
def spilling : State :=
  withG fun g => { g with held := List.replicate 16 { kind := .div, mask := 1 }, depth := 16, rsbase := 0x600001 }
def spared : State := withG fun g => { g with held := List.replicate 17 { kind := .div, mask := 1 }, depth := 17 }
theorem test_trap_entry : Maps.find s0.groups 64 = some g0 ∧ g0.depth ≤ stackCap g0 ∧ g0.haltSeen = none ∧ spills g0 = false := by decide +kernel
theorem test_trap_spill : ∃ g low, Maps.find spilling.groups 64 = some g ∧ g.depth ≤ stackCap g ∧ g.haltSeen = none ∧ spills g = true ∧
    g.held.getLast? = some low ∧ homeFault spilling 64 (stackHome g (g.depth - g.held.length)) .store = none :=
  ⟨{ g0 with held := List.replicate 16 { kind := .div, mask := 1 }, depth := 16, rsbase := 0x600001 }, { kind := .div, mask := 1 },
    by decide +kernel, by decide +kernel, by decide +kernel, by decide +kernel, by decide +kernel, by decide +kernel⟩
theorem test_trap_kills : ∃ g T, Maps.find spared.groups 64 = some g ∧ Maps.find spared.teams (handleOf 64) = some T ∧ stackCap g < g.depth :=
  ⟨{ g0 with held := List.replicate 17 { kind := .div, mask := 1 }, depth := 17 }, { ctx := 1, regs := 128, scr := 1, ngroups := 1 },
    by decide +kernel, by decide +kernel, by decide +kernel⟩

/-- TrapReturn: without ADV, with it, and with cause 0x0D. -/
def inHandler (cause : Byte) (mode : Word) : State :=
  withG fun g => { g with mode := mode, held := [{ kind := .trap, mask := 1, rpc := 128, cause := cause }], depth := 1 }
def returns (cause : Byte) (mode : Word) : Bool :=
  match Maps.find (inHandler cause mode).groups 64 with
  | some g => readyB (inHandler cause mode) g [] && decide (g.depth ≤ g.held.length) && (g.held.head?.map (·.kind)) == some .trap &&
      (match (fetchFor { g with pc := 128, mode := 0 } 64 (inHandler cause mode)).1 with
        | .line _ => true
        | _ => false)
  | none => false
theorem test_trap_return : returns 0x0B 1 = true ∧ returns 0x0B 3 = true ∧ returns 0x0D 1 = true := by decide +kernel
theorem test_chain_after : startsChain (packetWords 0 0) 0 = true ∧ (2 : Nat) ≤ 3 := by decide +kernel

/-- StackEntriesReadBack and StoresReadBack. -/
theorem test_entry_reads_back : ∃ e : StackEntry, e.kind ≠ .bad ∧ ∀ a ∈ [e.rpc, e.ppc],
    a = 0 ∨ (vaLow a ≠ 0 ∧ vaTag a = if e.kind = .trap then (if e.mode.getLsbD 0 then 0xFF else 0) else vaTag 0) := by
  refine ⟨{ kind := .trap, mask := 5, rpc := 0x1234#64, cause := 3 }, by simp, ?_⟩
  intro a ha
  simp only [List.mem_cons, List.not_mem_nil, or_false] at ha
  rcases ha with rfl | rfl
  · exact .inr (by decide)
  · exact .inl rfl
theorem test_stores : ∀ i < 8, (Maps.find ({} : Mem).llc ((0x600000 + i) / 64)).isSome = true ∨ viewOf {} (0x600000 + i) = none := by decide +kernel

/-- SelectWord, QuadExchange and ShuffleWords. -/
theorem test_ready_words : Ready s0 g0 ([.vec (ea false 3 g0), .vec (ea false 4 g0), .vec (ea false 5 g0)] ++ predRegs 2 ++ []) ∧
    ea false 3 g0 < allot s0 ∧ ea false 4 g0 < allot s0 ∧ ea false 5 g0 < allot s0 :=
  ⟨ready_of (by decide +kernel) (by decide +kernel), by decide +kernel, by decide +kernel, by decide +kernel⟩

/-- EncodeOfDecode and DecodeOfEncode: a word of two with its LIT. -/
theorem test_encode : (Instr.iaddi true false 3 4 7 (some 1)).wellFormed = true ∧ encode (.iaddi true false 3 4 7 (some 1)) ≠ [] := by decide +kernel

/-- DeviceStepsFrame. -/
theorem test_device_frame : (touched (.lifetimeFlush)).isSome = true ∧ Part.boot ∈ (touched (.lifetimeFlush)).getD [] := by decide +kernel

/-- DecodesWrittenWords and ResetState hold where they can be computed. -/
theorem test_reset : State.reset.boot.phase = .off ∧ (dieAt State.reset 3).dsctl = 0x0003E800#32 ∧ State.reset.display.serclk = 0x00010400#32 ∧
    State.Inv State.reset := by decide +kernel

/-! Values worked from the rules. -/

def vectorOf (rs : List (Nat × Word)) : Group := { g0 with active := 1, vregs := rs.map fun r => (32 * r.1, r.2) }
/-- Lane 0 of a register after a word of a rule table. -/
def lane0 (rule : Instr → Option WordRule) (i : Instr) (g : Group) (r : Nat) : Option Word := (rule i).map fun w => (w.out g).v r 0

/-- R339: sums are modulo 2^32; the borrow and the high half; R344: a shift count of 32 or more. -/
theorem test_integer_values :
    lane0 integerRule (.iadd false false 3 4 5) (vectorOf [(4, 0xFFFFFFFF), (5, 2)]) 3 = some 1 ∧
    lane0 integerRule (.imulhS false false 3 4 5) (vectorOf [(4, 0xFFFFFFFF), (5, 2)]) 3 = some 0xFFFFFFFF ∧
    lane0 integerRule (.imulhN false false 3 4 5) (vectorOf [(4, 0xFFFFFFFF), (5, 2)]) 3 = some 1 ∧
    lane0 integerRule (.iaddi false false 4 4 0x3FF none) (vectorOf [(4, 5)]) 4 = some 4 ∧
    lane0 integerRule (.clz false false 3 4) (vectorOf [(4, 0)]) 3 = some 32 := by decide +kernel

/-- R239, R244: 1 + 2^-24 is a tie and goes to the even 1; 1 + 3 x 2^-24 goes up; infinity less infinity is the canonical NaN. -/
theorem test_float_values :
    lane0 floatRule (.fadd false false 3 4 5) (vectorOf [(4, 0x3F800000), (5, 0x33800000)]) 3 = some 0x3F800000 ∧
    lane0 floatRule (.fadd false false 3 4 5) (vectorOf [(4, 0x3F800001), (5, 0x33800000)]) 3 = some 0x3F800002 ∧
    lane0 floatRule (.fsub false false 3 4 5) (vectorOf [(4, 0x7F800000), (5, 0x7F800000)]) 3 = some 0x7FC00000 ∧
    lane0 floatRule (.fmin false false 3 4 5) (vectorOf [(4, 0x80000000), (5, 0)]) 3 = some 0x80000000 := by decide +kernel

/-! The spec's own worked examples. -/

/-- The warp of the example in 04_frame_geometry_and_raster.md: breakpoints from -0.75 to 0.75, density word 0xE41B. -/
def exampleWarp : List Byte := [0, 0xD0, 0, 0xE0, 0, 0xF0, 0, 0, 0, 0x10, 0, 0x20, 0, 0x30, 0x1B, 0xE4]
/-- A[0] to A[8] of its axis at a gaze and a full resolution. -/
def exampleAxis (g : Half) (full : Nat) : List Int := (List.range 9).map fun j => fvInt .ru ((axisOf exampleWarp g full).at j)

/-- R117, by the table of that example, and of R484: gaze 0 and 0.5. -/
theorem test_warp_axis :
    exampleAxis 0 2048 = [0, 32, 96, 224, 480, 736, 864, 928, 960] ∧ exampleAxis 0x4000 2048 = [0, 96, 160, 288, 544, 800, 928, 928, 928] ∧
    exampleAxis 0 512 = [0, 8, 24, 56, 120, 184, 216, 232, 240] ∧ exampleAxis 0x4000 512 = [0, 24, 40, 72, 136, 200, 232, 232, 232] := by decide +kernel

/-- The point u = 0.625 of that example lies at 896, and under the second gaze at 672. -/
theorem test_warp_point :
    fvInt .ru ((axisOf exampleWarp 0 2048).warp 20480) = 896 ∧ fvInt .ru ((axisOf exampleWarp 0x4000 2048).warp 20480) = 672 := by decide +kernel

/-- R211, by the table of domain values of 23_programs_domains_and_wavefront.md: the line moves from slice 72 to slice 64. -/
theorem test_slice_moves :
    sliceUnder 0x804040001C014040 0xF0F 0x1000048280 = 72 ∧ sliceUnder 0x804030001C012040 0x707 0x1000048280 = 64 := by decide +kernel

/-- R463, by the first sequence of the block of 21_programs_decompression_and_copies.md. -/
theorem test_lz_header :
    lzHeader ([0x68, 0x4C, 0x49, 0x4D, 0x45, 0x4C, 0x4D, 0x03, 0x00] ++ List.replicate 55 0) 31 = [6, 3, 12, 9, 1] := by decide +kernel

/-- The descriptor of the example of a padded window in 19_async_and_delivery_instructions.md. -/
def windowDesc : List Byte :=
  [4, 9, 0, 0, 0, 0x10, 0, 0] ++ List.replicate 56 0 ++
  ([0x11000006FFFFFFFF, 0x1000000800000002, 0x2000000000000004, 0x2100000000000020, 0x3000000000000001, 0x3110000000000001,
    0x4010000000000003, 0x4000000000000004, 0x5000000000000000] : List Nat).flatMap (fun w => Maps.natLe w 8) ++ List.replicate 56 0

/-- R427 to R430: it is good, its twelve elements are two sectors; a row of padding, then columns 2 to 5 of rows 0 and 1. -/
theorem test_padded_window :
    (descOk false windowDesc 0x600000 && decide (descN windowDesc = 12)) = true ∧
    ((List.range 12).map fun n => (elementAt windowDesc 0x600000 n).1) = [true, true, true, true, false, false, false, false, false, false, false, false] ∧
    ((List.range 8).map fun n => (elementAt windowDesc 0x600000 (n + 4)).2) =
      [0x600008, 0x60000C, 0x600010, 0x600014, 0x600028, 0x60002C, 0x600030, 0x600034] := by decide +kernel

/-- R433, by the table of that example: the arrival does not flip the barrier, the copy's two sectors do. -/
theorem test_barrier_example :
    let b := (TBar.arrive 1 (TBar.expect 2 (TBar.init 1 (TBar.read 0)))).flip
    (b.arr = 0 ∧ b.sect = 2 ∧ b.phase = 0) ∧
    ((TBar.deliver 2 false b).flip.arr = 1 ∧ (TBar.deliver 2 false b).flip.sect = 0 ∧ (TBar.deliver 2 false b).flip.phase = 1) := by decide +kernel

/-- R142 and the example of 05_tiles_reconstruction_display.md: LEADMIN of a view of 2,048 by 2,048 at 400 MHz. -/
theorem test_lead_example :
    let v : View := { vob := BitVec.ofNat 512 (4000000 * 2 ^ 224), record := some (List.replicate 216 0 ++ [0, 8, 0, 8] ++ List.replicate 36 0) }
    leadMin { State.reset with display := { serclk := 0x00010401, views := [(0, v)] } } v = 9320 := by decide +kernel

end Sys2Proof.Tests
end

namespace Sys2Proof.Machine

/-- A die pair that has not been touched since reset is in its reset state. -/
@[simp] theorem dieAt_reset (d : Nat) : dieAt State.reset d = {} := rfl

/-- Settles O1: every register named is a field of `State.reset`, and a sparse map of it lists nothing. -/
theorem resetState : Obligations.ResetState := by
  unfold Obligations.ResetState
  refine ⟨rfl, rfl, rfl, rfl, fun d => ?_, fun k => ⟨rfl, rfl, rfl⟩, rfl, rfl, rfl, rfl, fun v => rfl, rfl, rfl, rfl⟩
  rw [dieAt_reset]
  exact ⟨rfl, rfl, rfl, rfl, rfl, rfl, rfl⟩

/-- Settles O4: no cell of HBM is listed after reset. -/
theorem resetKeepsMemoryForm : Obligations.ResetKeepsMemoryForm := wf_nil

end Sys2Proof.Machine

namespace Sys2Proof.Machine

/-! Every step keeps memory in its one form: what it is for a state, for an operation, for a word and for an outcome to keep it, and
the rules for the shapes in which the model builds states (a choice, a loop, a pair, an update of one field). -/

/-- The invariant of a state, kept as one fact: its HBM cells are in their one form. -/
def Formed (s : State) : Prop := Memory.wf s.mem.hbm

/-- An operation on the state keeps memory in its form. -/
def Keeps (f : State → State) : Prop := ∀ ⦃s : State⦄, Formed s → Formed (f s)

/-- Everything that a word may do to the state keeps memory in its form. -/
structure WordOut.Forms (w : WordOut) : Prop where
  onAwait : Keeps w.onAwait
  onStall : Keeps w.onStall
  effect  : Keeps w.effect
  ctl     : ∀ f, w.ctl = some f → Keeps f
  last    : Keeps w.last
  onFault : Keeps w.onFault

/-- Where an operation that may give no state gives one, it is formed. -/
def OptFormed (o : Option State) : Prop := ∀ t, o = some t → Formed t

/-- Where a step is made, the state after it is formed. -/
def OutFormed (o : Out) : Prop := ∀ t, o = .next t → Formed t

variable {s t : State} {α β : Type}

theorem outFormed_next (h : Formed t) : OutFormed (.next t) := fun _ e => Host.Outcome.next.inj e ▸ h
theorem outFormed_refused (r : Refusal) : OutFormed (.refused r) := fun _ e => nomatch e
theorem outFormed_fault (r : Fault) : OutFormed (.fault r) := fun _ e => nomatch e
theorem optFormed_some (h : Formed t) : OptFormed (some t) := fun _ e => Option.some.inj e ▸ h
theorem optFormed_none : OptFormed none := fun _ e => nomatch e

theorem formed_ite {c : Prop} [Decidable c] {u : State} (h : Formed t) (h' : Formed u) : Formed (if c then t else u) :=
  iteInduction (motive := Formed) (fun _ => h) (fun _ => h')
theorem outFormed_ite {c : Prop} [Decidable c] {o p : Out} (h : OutFormed o) (h' : OutFormed p) : OutFormed (if c then o else p) :=
  iteInduction (motive := OutFormed) (fun _ => h) (fun _ => h')
theorem optFormed_ite {c : Prop} [Decidable c] {o p : Option State} (h : OptFormed o) (h' : OptFormed p) :
    OptFormed (if c then o else p) :=
  iteInduction (motive := OptFormed) (fun _ => h) (fun _ => h')
theorem forms_ite {c : Prop} [Decidable c] {w v : WordOut} (h : w.Forms) (h' : v.Forms) : (if c then w else v).Forms :=
  iteInduction (motive := WordOut.Forms) (fun _ => h) (fun _ => h')
theorem formed_ite_snd {c : Prop} [Decidable c] {p q : α × State} (h : Formed p.2) (h' : Formed q.2) :
    Formed (if c then p else q).2 :=
  iteInduction (motive := fun p : α × State => Formed p.2) (fun _ => h) (fun _ => h')

/-- A loop whose every turn keeps the form. -/
theorem formed_foldl {f : State → β → State} {l : List β} (hf : ∀ t b, Formed t → Formed (f t b)) (h : Formed s) :
    Formed (l.foldl f s) :=
  foldl_keeps (P := Formed) hf l s h

theorem formed_getD {o : Option State} (ho : OptFormed o) (h : Formed s) : Formed (o.getD s) := by
  cases o with
  | none => exact h
  | some t => exact ho t rfl

/-- The state of a pair that an operation gives. -/
theorem formed_of_pair {p : α × State} {a : α} (e : p = (a, t)) (h : Formed p.2) : Formed t := by subst e; exact h

/-- A state is formed by its memory alone. -/
theorem formed_mk {clock draws cur nextPc issue groups teams cores dies mem copies bulks xfms samples sends saved savedGroups display io
    boot ctl inbox} (h : Memory.wf mem.hbm) :
    Formed (State.mk clock draws cur nextPc issue groups teams cores dies mem copies bulks xfms samples sends saved savedGroups display io
      boot ctl inbox) := h

/-- Memory is in its form by its HBM cells alone. -/
theorem wf_mk {hbm llc poison errs retired missing net nextId idw hmask idws hmasks domReg domRefused domSw domQueue domHeld fw fwStage
    nacks hits misses mcReads mcWrites mcDecodes} (h : Memory.wf hbm) :
    Memory.wf (Mem.hbm (Mem.mk hbm llc poison errs retired missing net nextId idw hmask idws hmasks domReg domRefused domSw domQueue domHeld
      fw fwStage nacks hits misses mcReads mcWrites mcDecodes)) := h

theorem wf_ite {c : Prop} [Decidable c] {m n : Mem} (h : Memory.wf m.hbm) (h' : Memory.wf n.hbm) :
    Memory.wf (if c then m else n).hbm :=
  iteInduction (motive := fun m : Mem => Memory.wf m.hbm) (fun _ => h) (fun _ => h')

theorem wf_foldl {f : Mem → β → Mem} {l : List β} {m : Mem} (hf : ∀ m b, Memory.wf m.hbm → Memory.wf (f m b).hbm)
    (h : Memory.wf m.hbm) : Memory.wf (l.foldl f m).hbm :=
  foldl_keeps (P := fun m : Mem => Memory.wf m.hbm) hf l m h

theorem formed_id (h : Formed s) : Formed (id s) := h

theorem formed_ite_app {c : Prop} [Decidable c] {f g : State → State} (h : Formed (f s)) (h' : Formed (g s)) :
    Formed ((if c then f else g) s) :=
  iteInduction (motive := fun f : State → State => Formed (f s)) (fun _ => h) (fun _ => h')

theorem formed_onMem {f : Mem → Mem} (hf : Memory.wf (f s.mem).hbm) : Formed (onMem f s) := hf
theorem formed_onGroup {k : Nat} {f : Group → Group} (h : Formed s) : Formed (onGroup k f s) := h
theorem formed_onTeam {k : Nat} {f : Team → Team} (h : Formed s) : Formed (onTeam k f s) := h
theorem formed_onCore {n : Nat} {f : Core → Core} (h : Formed s) : Formed (onCore n f s) := h
theorem formed_onCur {f : Group → Group} (h : Formed s) : Formed (onCur f s) := h
theorem formed_onDie {d : Nat} {f : Die → Die} (h : Formed s) : Formed (onDie d f s) := h

/-- A word record with other checks and registers. -/
theorem forms_checks {w : WordOut} (hw : w.Forms) {a b c : Bool} {rs ns : List Raise} {ps : List ParkReq} {as : List (Nat × Dword)}
    {us ds : List RegId} :
    WordOut.Forms { w with stall := a, await := b, starts := c, raises := rs, parks := ps, addrs := as, nexts := ns, uses := us, dests := ds } :=
  { onAwait := hw.onAwait, onStall := hw.onStall, effect := hw.effect, ctl := hw.ctl, last := hw.last, onFault := hw.onFault }

/-- A word record with another effect. -/
theorem forms_effect {w : WordOut} (hw : w.Forms) {e : State → State} (he : Keeps e) {a b c : Bool} {rs ns : List Raise}
    {ps : List ParkReq} {as : List (Nat × Dword)} {us ds : List RegId} :
    WordOut.Forms { w with
      stall := a, await := b, starts := c, raises := rs, parks := ps, addrs := as, nexts := ns, uses := us, dests := ds, effect := e } :=
  { onAwait := hw.onAwait, onStall := hw.onStall, effect := he, ctl := hw.ctl, last := hw.last, onFault := hw.onFault }

/-- A word record with other checks, and another deed when it fails. -/
theorem forms_onFault {w : WordOut} (hw : w.Forms) {f : State → State} (hf : Keeps f) {a b c : Bool} {rs ns : List Raise}
    {ps : List ParkReq} {as : List (Nat × Dword)} {us ds : List RegId} :
    WordOut.Forms { w with
      stall := a, await := b, starts := c, raises := rs, parks := ps, addrs := as, nexts := ns, uses := us, dests := ds, onFault := f } :=
  { onAwait := hw.onAwait, onStall := hw.onStall, effect := hw.effect, ctl := hw.ctl, last := hw.last, onFault := hf }

/-- What a word does at the end of its chain. -/
theorem keeps_ctl {g : State → State} (h : Keeps g) : ∀ f, some g = some f → Keeps f := fun _ e => Option.some.inj e ▸ h
theorem keeps_none : ∀ f, (none : Option (State → State)) = some f → Keeps f := fun _ e => nomatch e
theorem keeps_id : Keeps id := fun _ h => h

/-- A word that does nothing but its effect. -/
theorem forms_of_effect {e : State → State} (he : Keeps e) {a b c : Bool} {rs ns : List Raise} {ps : List ParkReq}
    {as : List (Nat × Dword)} {us ds : List RegId} :
    WordOut.Forms {
      stall := a, await := b, starts := c, raises := rs, parks := ps, addrs := as, nexts := ns, uses := us, dests := ds, effect := e } :=
  ⟨keeps_id, keeps_id, he, keeps_none, keeps_id, keeps_id⟩

/-- A word that does nothing. -/
theorem forms_still {a b c : Bool} {rs ns : List Raise} {ps : List ParkReq} {as : List (Nat × Dword)} {us ds : List RegId} :
    WordOut.Forms {
      stall := a, await := b, starts := c, raises := rs, parks := ps, addrs := as, nexts := ns, uses := us, dests := ds } :=
  forms_of_effect keeps_id

/-! What each operation of the model keeps: one fact for each, in the order in which the operations use each other. `formed_f` is about
an operation on states, `wf_f` about one on memory, `forms_f` about the record of a word. -/

theorem formed_launchLoses {die slot core : Nat} {s : State} (h : Formed s) : Formed (launchLoses die slot core s) := by
  unfold launchLoses
  exact formed_onDie h

theorem formed_unwant {s : State} (h : Formed s) : Formed (unwant s) := by
  unfold unwant
  exact formed_onCur h

theorem formed_holdIssue {s : State} (h : Formed s) : Formed (holdIssue s) := by
  unfold holdIssue
  exact formed_onCur h

theorem formed_dropTrs {k : Nat} {addrs : List (Nat × Dword)} {s : State} (h : Formed s) : Formed (dropTrs k addrs s) := by
  unfold dropTrs
  exact formed_ite h (formed_onCore h)

theorem formed_keepAddrs {k : Nat} {m : Word} {addrs : List (Nat × Dword)} {s : State} (h : Formed s)
    : Formed (keepAddrs k m addrs s) := by
  unfold keepAddrs
  exact formed_onGroup (formed_dropTrs h)

theorem formed_record {die : Nat} {r : FaultRec} {s : State} (h : Formed s) : Formed (record die r s) := by
  unfold record
  exact formed_onDie h

theorem formed_meshEnds {lost : Bool} {t : Team} {s : State} (h : Formed s) : Formed (meshEnds lost t s) := by
  unfold meshEnds
  dsimp only
  split
  · exact formed_onDie h
  · exact h

theorem formed_setTlt {c h' tsa st : Nat} {move : Bool} {gen core : Nat} {s : State} (h : Formed s)
    : Formed (setTlt c h' tsa st move gen core s) := by
  unfold setTlt
  exact formed_onMem (wf_putNat h _ _ _)

theorem formed_freeHandle {c h' : Nat} {s : State} (h : Formed s) : Formed (freeHandle c h' s) := by
  unfold freeHandle
  exact formed_onDie (formed_ite (formed_setTlt h) (formed_setTlt h))

theorem formed_putCused {c h' : Nat} {s : State} (h : Formed s) : Formed (putCused c h' s) := by
  unfold putCused
  refine formed_foldl ?_ h
  intro t1 x2 h3
  split
  · exact formed_onMem (wf_putNat h3 _ _ _)
  · exact h3

theorem formed_dropRequests {kill : Bool} {p : Nat → Bool} {s : State} (h : Formed s) : Formed (dropRequests kill p s) := by
  unfold dropRequests
  exact formed_onMem (wf_mk (formed_ite (formed_mk h) h))

theorem formed_endMoves {h' : Nat} {s : State} (h : Formed s) : Formed (endMoves h' s) := by
  unfold endMoves
  refine formed_mk ?_
  dsimp only
  split
  · exact formed_onGroup h
  · exact h

theorem formed_sweepWaits {d : Nat} {s : State} (h : Formed s) : Formed (sweepWaits d s) := by
  unfold sweepWaits
  exact formed_onDie h

theorem formed_dropTeam {kill : Bool} {h' : Nat} {s : State} (h : Formed s) : Formed (dropTeam kill h' s) := by
  unfold dropTeam
  exact formed_sweepWaits (formed_mk (formed_mk (formed_dropRequests (formed_endMoves h))))

theorem formed_killTeam {h' : Nat} {s : State} (h : Formed s) : Formed (killTeam h' s) := by
  unfold killTeam
  dsimp only
  split
  · exact h
  · exact formed_freeHandle (formed_putCused (formed_dropTeam (formed_onDie (formed_meshEnds (formed_launchLoses h)))))

theorem formed_overflowKill {k : Nat} {rp : Dword} {s : State} (h : Formed s) : Formed (overflowKill k rp s) := by
  unfold overflowKill
  exact formed_killTeam (formed_record h)

theorem formed_signalHalt {k : Nat} {s : State} (h : Formed s) : Formed (signalHalt k s) := by
  unfold signalHalt
  exact formed_mk h

theorem formed_park {k : Nat} {p : ParkReq} {s : State} (h : Formed s) : Formed (park k p s) := by
  unfold park
  exact formed_ite (formed_signalHalt (formed_onTeam (formed_onGroup (formed_ite h (formed_record (formed_onDie h)))))) (formed_onTeam
      (formed_onGroup (formed_ite h (formed_record (formed_onDie h)))))

theorem formed_parkWith {k : Nat} {p : ParkReq} {addrs : List (Nat × Dword)} {s : State} (h : Formed s)
    : Formed (parkWith k p addrs s) := by
  unfold parkWith
  exact formed_park (formed_keepAddrs h)

theorem formed_pushTrap {k : Nat} {rp : Dword} {s : State} {go : State → State} (h : Formed s) (h_go : Keeps go)
    : Formed (pushTrap k rp s go) := by
  unfold pushTrap
  refine formed_ite (formed_overflowKill h) ?_
  split
  · exact formed_onGroup h
  · exact formed_parkWith (formed_onGroup h)
  · exact h_go h

theorem formed_dropL1 {core : Nat} {s : State} (h : Formed s) : Formed (dropL1 core s) := by
  unfold dropL1
  exact formed_onMem (wf_mk (formed_onCore h))

theorem formed_keepTr {core : Nat} {tr : Option TlbEntry} {s : State} (h : Formed s) : Formed (keepTr core tr s) := by
  unfold keepTr
  split
  · exact h
  · exact formed_onCore (formed_dropL1 h)

theorem formed_setLink {l : LinkId} {k : Link} {s : State} (h : Formed s) : Formed (setLink l k s) := by
  unfold setLink
  exact formed_mk h

theorem formed_passModule {l : Option LinkId} {tc : BitVec 2} {s : State} (h : Formed s) : Formed (passModule l tc s) := by
  unfold passModule
  split
  · exact formed_setLink (formed_mk h)
  · exact h

theorem formed_crossBack {w : Way} {s : State} (h : Formed s) : Formed (crossBack w s) := by
  unfold crossBack
  split
  · exact formed_passModule h
  · exact h

theorem formed_crossTo {w : Way} {tc : BitVec 2} {s : State} (h : Formed s) : Formed (crossTo w tc s) := by
  unfold crossTo
  split
  · exact formed_passModule h
  · exact h

theorem formed_crossBoth {w : Way} {tc : BitVec 2} {s : State} (h : Formed s) : Formed (crossBoth w tc s) := by
  unfold crossBoth
  exact formed_crossBack (formed_crossTo h)

theorem formed_crossLines {inp : Nat} {tc : BitVec 2} {pa n : Nat} {s : State} (h : Formed s) : Formed (crossLines inp tc pa n s) := by
  unfold crossLines
  exact formed_foldl (fun t1 x2 h3 => formed_crossBoth h3) h

theorem formed_writeVia {inp : Nat} {tc : BitVec 2} {pa : Nat} {bs : List Byte} {s : State} (h : Formed s)
    : Formed (writeVia inp tc pa bs s) := by
  unfold writeVia
  exact formed_onMem (wf_storeRange (formed_crossLines h) _ _)

theorem formed_draw {s : State} (h : Formed s) : Formed (draw s).2 := by
  unfold draw
  exact formed_mk h

theorem formed_fillL1 {core la : Nat} {l : Line} {s : State} (h : Formed s) : Formed (fillL1 core la l s) := by
  unfold fillL1
  exact formed_ite h (formed_ite (formed_onCore h) (formed_onCore (formed_mk h)))

theorem formed_keepLine {core la : Nat} {l : Option Line} {s : State} (h : Formed s) : Formed (keepLine core la l s) := by
  unfold keepLine
  dsimp only
  split
  · exact formed_fillL1 (formed_onMem (wf_mk h))
  · exact formed_onCore (formed_onMem (wf_mk h))

theorem formed_touchL1 {core : Nat} {s : State} {la : Nat} (h : Formed s) : Formed (touchL1 core s la) := by
  unfold touchL1
  exact formed_ite (formed_keepLine h) (formed_keepLine h)

theorem formed_storeNow {k : Nat} {va : Dword} {bs : List Byte} {s : State} (h : Formed s) : Formed (storeNow k va bs s) := by
  unfold storeNow
  dsimp only
  split
  · exact formed_foldl (fun t1 x2 h3 => formed_touchL1 h3) (formed_keepTr (formed_writeVia h))
  · exact formed_onTeam h
  · exact h

theorem formed_push {k : Nat} {e : StackEntry} {s : State} (h : Formed s) : Formed (push k e s) := by
  unfold push
  refine formed_onGroup ?_
  split
  · exact formed_storeNow h
  · exact h

theorem formed_stopSibling {k skid : Nat} {s : State} (h : Formed s) : Formed (stopSibling k skid s) := by
  unfold stopSibling
  exact formed_pushTrap h (fun t1 h2 => formed_onGroup (formed_push h2))

theorem formed_takeTrap {k : Nat} {c : Cause} {rp : Dword} {m : Word} {s : State} (h : Formed s) : Formed (takeTrap k c rp m s) := by
  unfold takeTrap
  refine formed_pushTrap h ?_
  intro t1 h2
  dsimp only
  split
  · exact formed_stopSibling (formed_onGroup (formed_push h2))
  · exact formed_onGroup (formed_push h2)

theorem formed_deliver {k : Nat} {r : Raise} {rp : Dword} {addrs : List (Nat × Dword)} {s : State} (h : Formed s)
    : Formed (deliver k r rp addrs s) := by
  unfold deliver
  exact formed_takeTrap (formed_ite (formed_record (formed_ite (formed_keepAddrs h) h)) (formed_ite (formed_keepAddrs h) h))

theorem formed_failChain {rs : List Raise} {ps : List ParkReq} {addrs : List (Nat × Dword)} {s : State} (h : Formed s)
    : Formed (failChain rs ps addrs s) := by
  unfold failChain
  dsimp only
  split
  · exact formed_deliver h
  · split
    · exact formed_parkWith h
    · exact h

theorem formed_awaitWord {starts : Bool} {s : State} (h : Formed s) : Formed (awaitWord starts s) := by
  unfold awaitWord
  exact formed_ite h (formed_holdIssue h)

theorem formed_acquireUses {w : WordOut} {s : State} (h_s : Formed s) : Formed (acquireUses w s) := by
  unfold acquireUses
  exact formed_ite h_s (formed_ite (formed_dropL1 (formed_onCur h_s)) (formed_onCur h_s))

theorem formed_deliverHere {k : Nat} {r : Raise} {s : State} (h : Formed s) : Formed (deliverHere k r s) := by
  unfold deliverHere
  exact formed_ite (formed_onGroup (formed_deliver h)) (formed_deliver h)

theorem formed_takeNexts {rs : List Raise} {s : State} (h : Formed s) : Formed (takeNexts rs s) := by
  unfold takeNexts
  split
  · exact formed_ite h (formed_ite (formed_onCur h) (formed_deliverHere h))
  · exact h

theorem formed_advance {s : State} (h : Formed s) : Formed (advance s) := by
  unfold advance
  exact formed_onCur h

theorem forms_regWord {s : State} {g : Group} {x : Bool} {dst src : List VR} {ss sd sp dp : List Nat}
    : (regWord s g x dst src ss sd sp dp).Forms := by
  unfold regWord
  exact forms_still

theorem formed_chargeTag {die slot tag : Nat} {ev : Num.Ev} {s : State} (h : Formed s) : Formed (chargeTag die slot tag ev s) := by
  unfold chargeTag
  exact formed_ite h (formed_onDie h)

theorem formed_charge {tag : Word} {ev : Num.Ev} {s : State} (h : Formed s) : Formed (charge tag ev s) := by
  unfold charge
  exact formed_chargeTag h

theorem formed_writePairsEv {g : Group} {d : Nat} {f : Nat → Nat × Num.Ev} {s : State} (h : Formed s)
    : Formed (writePairsEv g d f s) := by
  unfold writePairsEv
  exact formed_charge (formed_onCur h)

theorem formed_writeLanes {g : Group} {d : Nat} {f : Nat → Word} {a : State} (h : Formed a) : Formed (writeLanes g d f a) := by
  unfold writeLanes
  exact formed_onCur h

theorem formed_writeLanesEv {g : Group} {d : Nat} {f : Nat → Nat × Num.Ev} {s : State} (h : Formed s)
    : Formed (writeLanesEv g d f s) := by
  unfold writeLanesEv
  exact formed_charge (formed_writeLanes h)

theorem forms_cvtWord {x : Bool} {t : BitVec 3} {d a : BitVec 7} {r sb : BitVec 3} {g : Group} {s : State}
    : (cvtWord x t d a r sb g s).Forms := by
  unfold cvtWord
  exact forms_effect forms_regWord (fun t1 h2 => formed_ite_app (formed_writePairsEv h2) (formed_writeLanesEv h2))

theorem forms_setIxWord {a : BitVec 6} {f : BitVec 8 → BitVec 8} {g : Group} {x : State} : (setIxWord a f g x).Forms := by
  unfold setIxWord
  exact forms_of_effect fun t1 h2 => formed_onCur h2

theorem formed_setPending {file irq : Nat} {s : State} (h : Formed s) : Formed (setPending file irq s) := by
  unfold setPending
  exact formed_mk h

theorem formed_writeDsctl {d : Nat} {w : Word} {s : State} (h : Formed s) : Formed (writeDsctl d w s) := by
  unfold writeDsctl
  exact formed_onDie h

theorem formed_startRcbinv {d : Nat} {w : Word} {s : State} (h : Formed s) : Formed (startRcbinv d w s) := by
  unfold startRcbinv
  exact formed_onDie h

theorem formed_writeRcbinv {d : Nat} {w : Word} {s : State} (h : Formed s) : Formed (writeRcbinv d w s) := by
  unfold writeRcbinv
  exact formed_ite (formed_onDie h) (formed_startRcbinv h)

theorem formed_endHalt {h' : Nat} {s : State} (h : Formed s) : Formed (endHalt h' s) := by
  unfold endHalt
  exact formed_ite (formed_mk (formed_onTeam h)) h

theorem formed_wake {act : Bool} {k : Nat} {s : State} (h : Formed s) : Formed (wake act k s) := by
  unfold wake
  dsimp only
  split
  · exact h
  · refine formed_ite ?_ ?_
    · refine formed_endHalt ?_
      split
      · exact formed_deliverHere (formed_onGroup (formed_onTeam h))
      · exact formed_onGroup (formed_onTeam h)
    · refine formed_ite ?_ ?_
      · refine formed_stopSibling ?_
        split
        · exact formed_deliverHere (formed_onGroup (formed_onTeam h))
        · exact formed_onGroup (formed_onTeam h)
      · split
        · exact formed_deliverHere (formed_onGroup (formed_onTeam h))
        · exact formed_onGroup (formed_onTeam h)

theorem formed_writeNrbase {d : Nat} {w : Dword} {s : State} (h : Formed s) : Formed (writeNrbase d w s) := by
  unfold writeNrbase
  exact formed_ite h (formed_onDie h)

theorem formed_writeEmbctl {die : Nat} {w : Word} {s : State} (h : Formed s) : Formed (writeEmbctl die w s) := by
  unfold writeEmbctl
  refine formed_ite h ?_
  dsimp only
  exact formed_onDie (formed_ite_snd h (formed_draw h))

theorem formed_writeSnapctl {d : Nat} {w : Word} {s : State} (h : Formed s) : Formed (writeSnapctl d w s) := by
  unfold writeSnapctl
  exact formed_mk h

theorem formed_countLife {i : LifeItem} {n : Nat} {s : State} (h : Formed s) : Formed (countLife i n s) := by
  unfold countLife
  exact formed_mk h

theorem formed_retireRow {e : Dword} {s : State} (h : Formed s) : Formed (retireRow e s) := by
  unfold retireRow
  exact formed_ite (formed_mk (formed_onMem (wf_mk h))) (formed_onMem (wf_mk h))

theorem formed_meetErr {p : EccPlace} {dirty keep : Bool} {s : State} (h : Formed s) : Formed (meetErr p dirty keep s) := by
  unfold meetErr
  dsimp only
  split
  · exact h
  · refine formed_onMem ?_
    refine wf_mk ?_
    split
    · exact formed_countLife h
    · exact h
  · exact formed_onMem (wf_mk (formed_countLife h))
  · exact formed_ite (formed_ite h (formed_ite (formed_retireRow (formed_countLife h)) (formed_countLife h))) (formed_onMem (wf_mk
        (formed_ite h (formed_ite (formed_retireRow (formed_countLife h)) (formed_countLife h)))))

theorem formed_loseLine {la : Nat} {dirty : Bool} {s : State} (h : Formed s) : Formed (loseLine la dirty s) := by
  unfold loseLine
  exact formed_onMem (wf_mk (formed_meetErr h))

theorem formed_meetRange {pa n : Nat} {s : State} (h : Formed s) : Formed (meetRange pa n s) := by
  unfold meetRange
  refine formed_foldl ?_ h
  intro t1 x2 h3
  dsimp only
  split
  · exact formed_ite (formed_ite (formed_loseLine h3) (formed_meetErr h3)) h3
  · exact formed_ite (formed_meetErr h3) h3
  · exact h3

theorem formed_fillLlc {la : Nat} {l : Line} {s : State} (h : Formed s) : Formed (fillLlc la l s) := by
  unfold fillLlc
  refine formed_onMem ?_
  refine wf_mk ?_
  dsimp only
  split
  · exact h
  · exact formed_onMem (wf_evictLine (formed_draw h) _)

theorem wf_countFill {la : Nat} {m : Mem} (h : Memory.wf m.hbm) : Memory.wf (countFill la m).hbm := by
  unfold countFill
  exact wf_ite h h

theorem formed_cleanDie {d : Nat} {boot : Bool} {s : State} (h : Formed s) : Formed (cleanDie d boot s) := by
  unfold cleanDie
  exact formed_onMem (wf_mk h)

theorem formed_writeThermctl {die : Nat} {w : Word} {s : State} (h : Formed s) : Formed (writeThermctl die w s) := by
  unfold writeThermctl
  exact formed_ite (formed_onDie (formed_cleanDie h)) h

theorem formed_pushCtr {d : Nat} {op : CtrOp} {s : State} (h : Formed s) : Formed (pushCtr d op s) := by
  unfold pushCtr
  exact formed_onDie h

theorem formed_writeDctr {d n cc : Nat} {w : Dword} {s : State} (h : Formed s) : Formed (writeDctr d n cc w s) := by
  unfold writeDctr
  dsimp only
  split
  · exact formed_pushCtr h
  · exact formed_pushCtr h
  · exact h

theorem wf_dropLlc {p : Nat → Bool} {m : Mem} (h : Memory.wf m.hbm) : Memory.wf (dropLlc p m).hbm := by
  unfold dropLlc
  exact h

theorem formed_takeFw {mc k v : Nat} {s : State} (h : Formed s) : Formed (takeFw mc k v s) := by
  unfold takeFw
  dsimp only
  exact formed_onMem (wf_mk (wf_ite (wf_flushLines (formed_ite_snd (formed_draw h) h) _) (wf_dropLlc (formed_ite_snd (formed_draw h) h))))

theorem formed_writeFw {mc : Option Nat} {k part w : Nat} {s : State} (h : Formed s) : Formed (writeFw mc k part w s) := by
  unfold writeFw
  refine formed_ite (formed_onMem (wf_mk h)) ?_
  dsimp only
  split
  · exact formed_takeFw (formed_onMem (wf_mk h))
  · exact formed_onMem (wf_mk (formed_foldl (fun t1 x2 h3 => formed_takeFw h3) (formed_onMem (wf_mk h))))

theorem formed_writeLcctl {l : LinkId} {w : Word} {s : State} (h : Formed s) : Formed (writeLcctl l w s) := by
  unfold writeLcctl
  exact formed_setLink h

theorem formed_setCtxField {s : State} {c hi lo v : Nat} (h : Formed s) : Formed (setCtxField s c hi lo v) := by
  unfold setCtxField
  exact formed_onMem (wf_putNat h _ _ _)

theorem formed_killTeams {p : Nat → Team → Bool} {s : State} (h : Formed s) : Formed (killTeams p s) := by
  unfold killTeams
  exact formed_foldl (fun t1 x2 h3 => formed_killTeam h3) h

theorem formed_stray {c n : Nat} {s : State} (h : Formed s) : Formed (stray c n s) := by
  unfold stray
  exact formed_setCtxField h

theorem formed_killEvicted {h' : Nat} {s : State} (h : Formed s) : Formed (killEvicted h' s) := by
  unfold killEvicted
  dsimp only
  split
  · exact h
  · exact formed_freeHandle (formed_mk (formed_onDie (formed_meshEnds (formed_launchLoses (formed_stray h)))))

theorem formed_dropMesh {s : State} (h : Formed s) : Formed (dropMesh s) := by
  unfold dropMesh
  exact formed_mk h

theorem formed_dropCards {queued : Bool} {p : Nat → Card → Bool} {s : State} (h : Formed s) : Formed (dropCards queued p s) := by
  unfold dropCards
  exact formed_mk h

theorem formed_setFaulted {c : Nat} {r : Reason} {s : State} (h : Formed s) : Formed (setFaulted c r s) := by
  unfold setFaulted
  exact formed_ite (formed_setCtxField (formed_setCtxField h)) (formed_setCtxField h)

theorem formed_killContext {c : Nat} {s : State} (h : Formed s) : Formed (killContext c s) := by
  unfold killContext
  exact formed_record (formed_setFaulted (formed_dropMesh (formed_dropCards (formed_foldl (fun t1 x2 h3 => formed_killEvicted h3)
      (formed_killTeams h)))))

theorem formed_ctxCommand {op c : Nat} {s : State} (h : Formed s) : Formed (ctxCommand op c s).2 := by
  unfold ctxCommand
  refine formed_ite_snd h ?_
  refine formed_ite_snd h ?_
  dsimp only
  split
  · exact formed_ite_snd h (formed_ite_snd h (formed_setCtxField (formed_setCtxField (formed_setCtxField (formed_setCtxField h)))))
  · exact formed_killContext h
  · exact formed_ite_snd h (formed_mk (formed_setCtxField h))

theorem formed_writeCtxcmd {w : Word} {s : State} (h : Formed s) : Formed (writeCtxcmd w s) := by
  unfold writeCtxcmd
  dsimp only
  exact formed_mk (formed_ctxCommand h)

theorem formed_queueSwitch {x : DomSwitch} {s : State} (h : Formed s) : Formed (queueSwitch x s) := by
  unfold queueSwitch
  exact formed_onMem (wf_mk h)

theorem formed_answerSwitch {x : DomSwitch} {refused : Bool} {s : State} (h : Formed s) : Formed (answerSwitch x refused s) := by
  unfold answerSwitch
  dsimp only
  split
  · exact formed_onGroup h
  · exact formed_onMem (wf_mk h)

theorem formed_writeSerclk {w : Word} {s : State} (h : Formed s) : Formed (writeSerclk w s) := by
  unfold writeSerclk
  refine formed_ite h ?_
  dsimp only
  exact formed_mk h

theorem formed_onView {v : Nat} {f : View → View} {s : State} (h : Formed s) : Formed (onView v f s) := by
  unfold onView
  exact formed_mk h

theorem formed_writeGaze {v : Nat} {w : Word} {s : State} (h : Formed s) : Formed (writeGaze v w s) := by
  unfold writeGaze
  exact formed_onView h

theorem formed_writeVob {v part : Nat} {w : Dword} {s : State} (h : Formed s) : Formed (writeVob v part w s) := by
  unfold writeVob
  exact formed_ite (formed_onView h) (formed_onView h)

theorem formed_writeVrec {v : Nat} {w : Dword} {s : State} (h : Formed s) : Formed (writeVrec v w s) := by
  unfold writeVrec
  exact formed_onView h

theorem formed_writeFrtab {n part w : Nat} {s : State} (h : Formed s) : Formed (writeFrtab n part w s) := by
  unfold writeFrtab
  exact formed_ite (formed_mk h) (formed_mk h)

theorem formed_onReq {i : Nat} {f : Req → Req} {s : State} (h : Formed s) : Formed (onReq i f s) := by
  unfold onReq
  exact formed_onMem (wf_mk h)

theorem formed_dropLate {ps : List ViewPrim} {s : State} (h : Formed s) : Formed (dropLate ps s) := by
  unfold dropLate
  exact formed_foldl (fun t1 x2 h3 => formed_onDie h3) h

theorem formed_keepFirsts {die : Nat} {s : State} (h : Formed s) : Formed (keepFirsts die s) := by
  unfold keepFirsts
  exact formed_onDie h

theorem formed_coreStoreError {k : Nat} {s : State} (h : Formed s) : Formed (coreStoreError k s).2 := by
  unfold coreStoreError
  dsimp only
  split
  · exact h
  · exact formed_meetErr h
  · exact formed_meetErr h
  · exact formed_record (formed_onCore (formed_meetErr h))

theorem formed_dropLines {core pa n : Nat} {s : State} (h : Formed s) : Formed (dropLines core pa n s) := by
  unfold dropLines
  exact formed_onMem (wf_mk (formed_onCore h))

theorem formed_meetCaches {core : Nat} {s : State} (h : Formed s) : Formed (meetCaches core s) := by
  unfold meetCaches
  refine formed_foldl ?_ h
  intro t1 x2 h3
  dsimp only
  split
  · exact formed_ite (formed_meetErr (formed_ite (formed_dropLines h3) h3)) h3
  · exact formed_ite (formed_meetErr (formed_ite (formed_onCore h3) h3)) h3
  · exact formed_ite (formed_meetErr (formed_ite (formed_onCore h3) h3)) h3
  · exact formed_ite (formed_meetErr (formed_ite (formed_onCore h3) h3)) h3
  · exact h3

theorem formed_takePending {s : State} (h : Formed s) : OptFormed (takePending s) := by
  unfold takePending
  dsimp only
  split
  · exact optFormed_none
  · exact optFormed_none
  · exact optFormed_some (formed_ite (formed_holdIssue h) (formed_deliverHere (formed_onCur (formed_onCur h))))
  · exact optFormed_some (formed_ite (formed_holdIssue h) (formed_takeTrap (formed_ite (formed_onCur h) (formed_onCur (formed_onCur h)))))

theorem formed_trapHere {c : Cause} {r : Reason} {addr : Dword} {info : Nat} {s : State} (h : Formed s)
    : Formed (trapHere c r addr info s) := by
  unfold trapHere
  exact formed_failChain (formed_onCur h)

theorem formed_countIssue {core sched : Nat} {first : Bool} {s : State} (h : Formed s) : Formed (countIssue core sched first s) := by
  unfold countIssue
  exact formed_onCore h

theorem formed_occupy {core : Nat} {us : List (Nat × Nat)} {halves : List Bool} {active : Word} {s : State} (h : Formed s)
    : Formed (occupy core us halves active s) := by
  unfold occupy
  refine formed_ite h ?_
  dsimp only
  exact formed_onCore (formed_ite_snd (formed_draw h) h)

theorem formed_occupyUnits {t : Team} {g : Group} {ws : List Word} {s : State} (h : Formed s) : Formed (occupyUnits t g ws s) := by
  unfold occupyUnits
  exact formed_occupy h

theorem formed_endIssue {k : Nat} {t : Team} {before : Group} {ws : List Word} {s : State} (h : Formed s)
    : Formed (endIssue k t before ws s) := by
  unfold endIssue
  dsimp only
  split
  · exact formed_ite h (formed_countIssue (formed_occupyUnits h))
  · exact formed_ite (formed_ite (formed_onGroup h) h) (formed_ite (formed_onGroup h) (formed_countIssue (formed_occupyUnits
        (formed_onGroup h))))

theorem forms_lane2 {x : Bool} {d a b : BitVec 7} {f : Word → Word → Word} {g : Group} {s : State} : (lane2 x d a b f g s).Forms := by
  unfold lane2
  exact forms_effect forms_regWord (fun t1 h2 => formed_writeLanes h2)

theorem forms_carryWord {sub x : Bool} {d a : BitVec 7} {src : List VR} {ss : List Nat} {b : Nat → Word} {g : Group} {s : State}
    : (carryWord sub x d a src ss b g s).Forms := by
  unfold carryWord
  exact forms_effect forms_regWord (fun t1 h2 => formed_onCur h2)

theorem forms_laneS {x : Bool} {d a : BitVec 7} {sb : BitVec 6} {f : Word → Word → Word} {g : Group} {s : State}
    : (laneS x d a sb f g s).Forms := by
  unfold laneS
  exact forms_effect forms_regWord (fun t1 h2 => formed_writeLanes h2)

theorem forms_lane3 {x : Bool} {d a b : BitVec 7} {f : Word → Word → Word → Word} {g : Group} {s : State}
    : (lane3 x d a b f g s).Forms := by
  unfold lane3
  exact forms_effect forms_regWord (fun t1 h2 => formed_writeLanes h2)

theorem forms_lane1 {x : Bool} {d a : BitVec 7} {f : Word → Word} {g : Group} {s : State} : (lane1 x d a f g s).Forms := by
  unfold lane1
  exact forms_effect forms_regWord (fun t1 h2 => formed_writeLanes h2)

theorem forms_laneP {x : Bool} {p : BitVec 3} {a b : BitVec 7} {f : Word → Word → Bool} {g : Group} {s : State}
    : (laneP x p a b f g s).Forms := by
  unfold laneP
  exact forms_effect forms_regWord (fun t1 h2 => formed_onCur h2)

theorem forms_selWord {x : Bool} {p : BitVec 3} {d a b : BitVec 7} {g : Group} {s : State} : (selWord x p d a b g s).Forms := by
  unfold selWord
  exact forms_effect forms_regWord (fun t1 h2 => formed_writeLanes h2)

theorem forms_mov64Word {x : Bool} {d a : BitVec 7} {g : Group} {s : State} : (mov64Word x d a g s).Forms := by
  unfold mov64Word
  exact forms_effect forms_regWord (fun t1 h2 => formed_onCur h2)

theorem forms_movsWord {x : Bool} {d : BitVec 7} {sb : BitVec 6} {g : Group} {s : State} : (movsWord x d sb g s).Forms := by
  unfold movsWord
  exact forms_effect forms_regWord (fun t1 h2 => formed_writeLanes h2)

theorem forms_vrdWord {x : Bool} {d a b : BitVec 7} {g : Group} {s : State} : (vrdWord x d a b g s).Forms := by
  unfold vrdWord
  exact forms_effect forms_regWord (fun t1 h2 => formed_writeLanes h2)

theorem forms_vwrWord {x : Bool} {d a b : BitVec 7} {g : Group} {s : State} : (vwrWord x d a b g s).Forms := by
  unfold vwrWord
  exact forms_effect forms_regWord (fun t1 h2 => formed_onCur h2)

theorem forms_pmovWord {x : Bool} {p : BitVec 3} {a : BitVec 7} {g : Group} {s : State} : (pmovWord x p a g s).Forms := by
  unfold pmovWord
  exact forms_effect forms_regWord (fun t1 h2 => formed_onCur h2)

theorem forms_pgetWord {x : Bool} {d : BitVec 7} {p : BitVec 3} {g : Group} {s : State} : (pgetWord x d p g s).Forms := by
  unfold pgetWord
  exact forms_effect forms_regWord (fun t1 h2 => formed_writeLanes h2)

theorem forms_moviWord {x : Bool} {d : BitVec 7} {v : Word} {g : Group} {s : State} : (moviWord x d v g s).Forms := by
  unfold moviWord
  exact forms_effect forms_regWord (fun t1 h2 => formed_writeLanes h2)

theorem forms_laneEv2 {x : Bool} {d a b : BitVec 7} {f : Nat → Nat → Nat × Num.Ev} {g : Group} {s : State}
    : (laneEv2 x d a b f g s).Forms := by
  unfold laneEv2
  exact forms_effect forms_regWord (fun t1 h2 => formed_writeLanesEv h2)

theorem forms_laneEv1 {x : Bool} {d a : BitVec 7} {f : Nat → Nat × Num.Ev} {g : Group} {s : State} : (laneEv1 x d a f g s).Forms := by
  unfold laneEv1
  exact forms_effect forms_regWord (fun t1 h2 => formed_writeLanesEv h2)

theorem forms_laneEvS {x : Bool} {d a : BitVec 7} {sb : BitVec 6} {f : Nat → Nat → Nat × Num.Ev} {g : Group} {s : State}
    : (laneEvS x d a sb f g s).Forms := by
  unfold laneEvS
  exact forms_effect forms_regWord (fun t1 h2 => formed_writeLanesEv h2)

theorem forms_laneEv3 {x : Bool} {d a b : BitVec 7} {f : Nat → Nat → Nat → Nat × Num.Ev} {g : Group} {s : State}
    : (laneEv3 x d a b f g s).Forms := by
  unfold laneEv3
  exact forms_effect forms_regWord (fun t1 h2 => formed_writeLanesEv h2)

theorem forms_laneEvS3 {x : Bool} {d a : BitVec 7} {sb : BitVec 6} {f : Nat → Nat → Nat → Nat × Num.Ev} {g : Group} {s : State}
    : (laneEvS3 x d a sb f g s).Forms := by
  unfold laneEvS3
  exact forms_effect forms_regWord (fun t1 h2 => formed_writeLanesEv h2)

theorem forms_fcmpWord {rel : Option Ordering → Bool} {x : Bool} {p : BitVec 3} {a b : BitVec 7} {g : Group} {s : State}
    : (fcmpWord rel x p a b g s).Forms := by
  unfold fcmpWord
  exact forms_laneP

theorem forms_dWord {x : Bool} {d : BitVec 7} {src : List (BitVec 7)} {f : Nat → Nat × Num.Ev} {g : Group} {s : State}
    : (dWord x d src f g s).Forms := by
  unfold dWord
  exact forms_effect forms_regWord (fun t1 h2 => formed_writePairsEv h2)

theorem forms_d2 {x : Bool} {d a b : BitVec 7} {f : Nat → Nat → Nat × Num.Ev} {g : Group} {s : State} : (d2 x d a b f g s).Forms := by
  unfold d2
  exact forms_dWord

theorem forms_d1 {x : Bool} {d a : BitVec 7} {op : Num.FV → Num.FV} {g : Group} {s : State} : (d1 x d a op g s).Forms := by
  unfold d1
  exact forms_dWord

theorem forms_cvtnWord {f : Num.Fmt} {sr : Bool} {fze : Group → Bool} {x : Bool} {d a : BitVec 7} {g : Group} {s : State}
    : (cvtnWord f sr fze x d a g s).Forms := by
  unfold cvtnWord
  exact forms_effect forms_regWord (fun t1 h2 => formed_ite_app (formed_onCur (formed_writeLanesEv h2)) (formed_id (formed_writeLanesEv
      h2)))

theorem forms_cvtnBlockWord {sr x : Bool} {d a b : BitVec 7} {g : Group} {s : State} : (cvtnBlockWord sr x d a b g s).Forms := by
  unfold cvtnBlockWord
  exact forms_effect forms_regWord (fun t1 h2 => formed_ite_app (formed_onCur (formed_writePairsEv h2)) (formed_id (formed_writePairsEv
      h2)))

theorem forms_cvtwWord {f : Num.Fmt} {fze : Group → Bool} {x : Bool} {d a : BitVec 7} {g : Group} {s : State}
    : (cvtwWord f fze x d a g s).Forms := by
  unfold cvtwWord
  exact forms_effect forms_regWord (fun t1 h2 => formed_foldl (fun t3 x4 h5 => formed_writeLanesEv h5) h2)

theorem forms_xrelWord {n : Nat} {x : Bool} {d a : BitVec 7} {sb : BitVec 6} {g : Group} {s : State}
    : (xrelWord n x d a sb g s).Forms := by
  unfold xrelWord
  exact forms_effect forms_regWord (fun t1 h2 => formed_foldl (fun t3 x4 h5 => formed_writeLanesEv h5) h2)

theorem forms_dcmpWord {rel : Option Ordering → Bool} {x : Bool} {p : BitVec 3} {a b : BitVec 7} {g : Group} {s : State}
    : (dcmpWord rel x p a b g s).Forms := by
  unfold dcmpWord
  exact forms_effect forms_regWord (fun t1 h2 => formed_onCur h2)

theorem forms_shflWord {src : Nat → Nat → Nat} {x : Bool} {d a b : BitVec 7} {g : Group} {s : State}
    : (shflWord src x d a b g s).Forms := by
  unfold shflWord
  exact forms_effect forms_regWord (fun t1 h2 => formed_writeLanes h2)

theorem forms_voteWord {f : Word → Word → Word} {x : Bool} {d : BitVec 7} {p : BitVec 3} {g : Group} {s : State}
    : (voteWord f x d p g s).Forms := by
  unfold voteWord
  exact forms_effect forms_regWord (fun t1 h2 => formed_writeLanes h2)

theorem forms_qswzWord {x : Bool} {d a : BitVec 7} {k : BitVec 2} {g : Group} {s : State} : (qswzWord x d a k g s).Forms := by
  unfold qswzWord
  exact forms_effect forms_regWord (fun t1 h2 => formed_writeLanes h2)

theorem forms_redInt {scan : Bool} {f : Word → Word → Word} {x : Bool} {d a : BitVec 7} {g : Group} {s : State}
    : (redInt scan f x d a g s).Forms := by
  unfold redInt
  exact forms_effect forms_regWord (fun t1 h2 => formed_writeLanes h2)

theorem forms_redF {scan : Bool} {f : Group → Nat → Nat → Nat × Num.Ev} {x : Bool} {d a : BitVec 7} {g : Group} {s : State}
    : (redF scan f x d a g s).Forms := by
  unfold redF
  exact forms_effect forms_regWord (fun t1 h2 => formed_writeLanesEv h2)

theorem forms_derivWord {vert x : Bool} {d a b : BitVec 7} {g : Group} {s : State} : (derivWord vert x d a b g s).Forms := by
  unfold derivWord
  exact forms_effect forms_regWord (fun t1 h2 => formed_writeLanesEv h2)

theorem forms_ipaWord {mean x : Bool} {d a n : BitVec 7} {g : Group} {s : State} : (ipaWord mean x d a n g s).Forms := by
  unfold ipaWord
  exact forms_effect forms_regWord (fun t1 h2 => formed_writeLanesEv (formed_mk h2))

theorem forms_rtravInitWord {x : Bool} {d a b : BitVec 7} {g : Group} {s : State} : (rtravInitWord x d a b g s).Forms := by
  unfold rtravInitWord
  exact forms_effect forms_regWord (fun t1 h2 => formed_onCur h2)

theorem formed_rayView {s : State} {g : Group} {dr : Nat} (h : Formed s) : Formed (rayView s g dr) := by
  unfold rayView
  exact formed_ite (formed_dropL1 h) h

theorem forms_accessWord {w : WordOut} {g : Group} {z : Nat} {acc : Acc} {las : List LaneAt} {eff : State → State} (h_w : WordOut.Forms w)
    (h_eff : Keeps eff) : (accessWord w g z acc las eff).Forms := by
  unfold accessWord
  exact forms_effect h_w (fun t1 h2 => h_w.effect (h_eff h2))

theorem forms_rhitWord {x : Bool} {d : BitVec 7} {g : Group} {s : State} : (rhitWord x d g s).Forms := by
  unfold rhitWord
  exact forms_effect forms_regWord (fun t1 h2 => formed_onCur h2)

theorem forms_scalarWord {ss sd : List Nat} {f : Group → Group} : (scalarWord ss sd f).Forms := by
  unfold scalarWord
  exact forms_of_effect fun t1 h2 => formed_onCur h2

theorem forms_salu2 {d a b : BitVec 6} {f : Word → Word → Word} {g : Group} {x : State} : (salu2 d a b f g x).Forms := by
  unfold salu2
  exact forms_scalarWord

theorem forms_smovWord {d a : BitVec 6} {g : Group} {x : State} : (smovWord d a g x).Forms := by
  unfold smovWord
  exact forms_scalarWord

theorem forms_salu64 {d a b : BitVec 6} {f : Dword → Dword → Dword} {g : Group} {x : State} : (salu64 d a b f g x).Forms := by
  unfold salu64
  exact forms_scalarWord

theorem forms_simmWord {d : BitVec 6} {f : Word → Word} {g : Group} {x : State} : (simmWord d f g x).Forms := by
  unfold simmWord
  exact forms_scalarWord

theorem forms_scmpWord {rel : Word → Word → Bool} {p : BitVec 3} {a b : BitVec 6} {g : Group} {x : State}
    : (scmpWord rel p a b g x).Forms := by
  unfold scmpWord
  exact forms_of_effect fun t1 h2 => formed_onCur h2

theorem forms_sselWord {d a b : BitVec 6} {g : Group} {x : State} : (sselWord d a b g x).Forms := by
  unfold sselWord
  exact forms_scalarWord

theorem forms_getsrWord {d n : BitVec 6} {g : Group} {s : State} : (getsrWord d n g s).Forms := by
  unfold getsrWord
  dsimp only
  split
  · exact forms_effect forms_regWord (fun t1 h2 => formed_onCur h2)
  · exact forms_effect forms_regWord (fun t1 h2 => formed_onCur h2)
  · exact forms_ite (forms_checks forms_scalarWord) (forms_checks forms_scalarWord)

theorem forms_setsrWord {n b : BitVec 6} {g : Group} {x : State} : (setsrWord n b g x).Forms := by
  unfold setsrWord
  exact ⟨keeps_id, keeps_id, keeps_id, keeps_none, fun t1 h2 => formed_onCur h2, keeps_id⟩

theorem formed_walkedWindow {w : Window} {s : State} (h : Formed s) : Formed (walkedWindow w s) := by
  unfold walkedWindow
  exact formed_ite h (formed_dropL1 h)

theorem forms_uniformWord {w : WordOut} {g : Group} {va : Dword} {f : Option (Raise ⊕ ParkReq)} (h_w : WordOut.Forms w)
    : (uniformWord w g va f).Forms := by
  unfold uniformWord
  split
  · exact h_w
  · exact forms_checks h_w

theorem forms_wqueryWord {d : BitVec 6} {w : BitVec 3} {g : Group} {x : State} : (wqueryWord d w g x).Forms := by
  unfold wqueryWord
  exact forms_of_effect fun t1 h2 => formed_onCur h2

theorem formed_sendPcie {r : Req} {s : State} (h : Formed s) : Formed (sendPcie r s) := by
  unfold sendPcie
  exact formed_mk h

theorem formed_putReq {r : Req} {s : State} (h : Formed s) : Formed (putReq r s) := by
  unfold putReq
  exact formed_onMem (wf_mk (formed_ite (formed_sendPcie (formed_crossTo h)) h))

theorem formed_addReq {r : Req} {s : State} (h : Formed s) : Formed (addReq r s) := by
  unfold addReq
  exact formed_putReq h

theorem formed_addLoad {r : Req} {rs : List RegId} {s : State} (h : Formed s) : Formed (addLoad r rs s) := by
  unfold addLoad
  exact formed_onCur (formed_addReq h)

theorem formed_loadPart {words : List Nat} {d : Nat} {a : LaneAt} {p : Nat × Nat × Nat × BitVec 3} {s : State} (h : Formed s)
    : Formed (loadPart words d a p s) := by
  unfold loadPart
  dsimp only
  split
  · exact formed_onCur h
  · split
    · exact formed_onCur (formed_keepTr h)
    · exact formed_addLoad (formed_keepTr h)
  · exact formed_addLoad h
  · exact h

theorem formed_runLoads {d : Nat} {code : BitVec 3} {las : List LaneAt} {s : State} (h : Formed s) : Formed (runLoads d code las s) := by
  unfold runLoads
  exact formed_foldl (fun t1 x2 h3 => formed_foldl (fun t4 x5 h6 => formed_loadPart h6) h3) h

theorem formed_keepWindow {n : Nat} {rw : Window ⊕ Target} {s : State} (h : Formed s) : Formed (keepWindow n rw s) := by
  unfold keepWindow
  dsimp only
  split
  · exact formed_onCur (formed_ite h (formed_walkedWindow h))
  · exact h

theorem forms_ldWord {x : Bool} {z : BitVec 3} {d a : BitVec 7} {w : BitVec 3} {imm : Dword} {g : Group} {s : State}
    : (ldWord x z d a w imm g s).Forms := by
  unfold ldWord
  exact forms_checks (forms_accessWord (forms_checks forms_regWord) (fun t1 h2 => formed_runLoads (formed_keepWindow h2)))

theorem formed_laneOrder {las : List LaneAt} {s : State} (h : Formed s) : Formed (laneOrder las s).2 := by
  unfold laneOrder
  exact formed_ite_snd h (formed_mk h)

theorem formed_onCurTeam {f : Team → Team} {s : State} (h : Formed s) : Formed (onCurTeam f s) := by
  unfold onCurTeam
  exact formed_onTeam h

theorem formed_storePart {a : LaneAt} {v : Nat} {p : Nat × Nat × Nat × BitVec 3} {s : State} (h : Formed s)
    : Formed (storePart a v p s) := by
  unfold storePart
  dsimp only
  split
  · exact formed_onCurTeam h
  · exact formed_addReq (formed_keepTr h)
  · exact formed_addReq h
  · exact h

theorem formed_runStores {z : Nat} {v : Nat → Nat} {las : List LaneAt} {s : State} (h : Formed s) : Formed (runStores z v las s) := by
  unfold runStores
  dsimp only
  exact formed_foldl (fun t1 x2 h3 => formed_foldl (fun t4 x5 h6 => formed_storePart h6) h3) (formed_laneOrder h)

theorem forms_stWord {x : Bool} {z : BitVec 3} {d a : BitVec 7} {w : BitVec 3} {imm : Dword} {g : Group} {s : State}
    : (stWord x z d a w imm g s).Forms := by
  unfold stWord
  exact forms_checks (forms_accessWord (forms_checks forms_regWord) (fun t1 h2 => formed_runStores (formed_keepWindow h2)))

theorem forms_scratchWord {base : WordOut} {a : Nat} {imm : Dword} {z : Nat} {acc : Acc} {run : List LaneAt → State → State} {g : Group}
    {s : State} (h_base : WordOut.Forms base) (h_run : ∀ x0 t1, Formed t1 → Formed (run x0 t1))
    : (scratchWord base a imm z acc run g s).Forms := by
  unfold scratchWord
  exact forms_checks (forms_accessWord h_base (fun t1 h2 => h_run _ _ h2))

theorem formed_uloadPart {d : Nat} {mask : Word} {va : Dword} {tg : Target} {p : Nat × Nat × Nat × BitVec 3} {s : State} (h : Formed s)
    : Formed (uloadPart d mask va tg p s) := by
  unfold uloadPart
  dsimp only
  split
  · exact formed_onCur h
  · split
    · exact formed_onCur (formed_keepTr h)
    · exact formed_addLoad (formed_keepTr h)
  · exact formed_addLoad h
  · exact h

theorem forms_ldcWord {z : BitVec 4} {d a b : BitVec 6} {g : Group} {s : State} : (ldcWord z d a b g s).Forms := by
  unfold ldcWord
  exact forms_uniformWord (forms_of_effect fun t1 h2 => formed_foldl (fun t3 x4 h5 => formed_uloadPart h5) h2)

theorem formed_atomLane {op : BitVec 4} {ret : Bool} {d v : Nat} {a : LaneAt} {s : State} (h : Formed s)
    : Formed (atomLane op ret d v a s) := by
  unfold atomLane
  dsimp only
  split
  · exact formed_ite (formed_onCur (formed_onCurTeam h)) (formed_onCurTeam h)
  · exact formed_addLoad (formed_ite (formed_onCore (formed_keepTr h)) (formed_keepTr h))
  · exact formed_addLoad h
  · exact h

theorem formed_runAtoms {op : BitVec 4} {ret : Bool} {d : Nat} {v : Nat → Nat} {las : List LaneAt} {s : State} (h : Formed s)
    : Formed (runAtoms op ret d v las s) := by
  unfold runAtoms
  dsimp only
  exact formed_foldl (fun t1 x2 h3 => formed_atomLane h3) (formed_laneOrder h)

theorem forms_atomWord {x ret : Bool} {o : BitVec 4} {d a : BitVec 7} {extra : List RegId} {las : List LaneAt} {pre : State → State}
    {g : Group} {s : State} (h_pre : Keeps pre) : (atomWord x ret o d a extra las pre g s).Forms := by
  unfold atomWord
  exact forms_checks (forms_accessWord (forms_checks forms_regWord) (fun t1 h2 => formed_runAtoms (h_pre h2)))

theorem formed_dropFlue {die n ctx : Nat} {s : State} (h : Formed s) : Formed (dropFlue die n ctx s) := by
  unfold dropFlue
  exact formed_ite (formed_onMem (wf_putNat (wf_putNat h _ _ _) _ _ _)) (formed_onDie h)

theorem formed_flue {t : Trd} {f : Nat × Nat × Bool × Nat × Nat} {s : State} (h : Formed s) : Formed (flue t f s) := by
  unfold flue
  dsimp only
  split
  · exact h
  · exact formed_ite (formed_dropFlue (formed_onDie (formed_onCore h))) (formed_onDie (formed_onDie (formed_onCore h)))

theorem forms_tierWord {base : WordOut} {z statReg : Nat} {lane : Nat → Except TierFault (Trd × TierLane)}
    {run : Trd → TierLane → State → State} {g : Group} {x : State} (h_base : WordOut.Forms base)
    (h_run : ∀ x0 x1 t2, Formed t2 → Formed (run x0 x1 t2)) : (tierWord base z statReg lane run g x).Forms := by
  unfold tierWord
  exact forms_accessWord (forms_accessWord (forms_checks h_base) (fun t1 h2 => formed_id h2)) (fun t1 h2 => formed_ite h2 (formed_foldl
      (fun t3 x4 h5 => formed_foldl (fun t6 x7 h8 => formed_flue h8) (formed_onCur (h_run _ _ _ (formed_onCore h5)))) (formed_dropL1 h2)))

theorem forms_ldtWord {x : Bool} {z : BitVec 3} {d a : BitVec 7} {w : BitVec 3} {g : Group} {s : State}
    : (ldtWord x z d a w g s).Forms := by
  unfold ldtWord
  exact forms_tierWord (forms_checks forms_regWord) (fun x1 x2 t3 h4 => formed_foldl (fun t5 x6 h7 => formed_foldl (fun t8 x9 h10 =>
      formed_loadPart h10) h7) h4)

theorem formed_runSample {d : Nat} {t : Trd} {tl : TierLane} {s : State} (h : Formed s) : Formed (runSample d t tl s) := by
  unfold runSample
  refine formed_ite ?_ ?_
  · refine formed_onCur ?_
    refine formed_mk ?_
    refine formed_foldl ?_ (formed_onMem (wf_mk h))
    intro t1 x2 h3
    dsimp only
    split
    · exact formed_mk h3
    · exact formed_addLoad (formed_keepTr h3)
    · exact formed_addLoad h3
    · exact h3
  · refine formed_foldl ?_ (formed_onMem (wf_mk h))
    intro t1 x2 h3
    dsimp only
    split
    · exact formed_mk h3
    · exact formed_addLoad (formed_keepTr h3)
    · exact formed_addLoad h3
    · exact h3

theorem forms_smpWord {filter : Nat} {x : Bool} {d a : BitVec 7} {w : BitVec 3} {v u : BitVec 2} {g : Group} {s : State}
    : (smpWord filter x d a w v u g s).Forms := by
  unfold smpWord
  exact forms_tierWord (forms_checks forms_regWord) (fun x1 x2 t3 h4 => formed_runSample h4)

theorem formed_acquireAt {sc : BitVec 2} {s : State} (h : Formed s) : Formed (acquireAt sc s) := by
  unfold acquireAt
  exact formed_ite (formed_dropL1 h) h

theorem forms_pfWord {x : Bool} {a : BitVec 7} {w : BitVec 3} {g : Group} {s : State} : (pfWord x a w g s).Forms := by
  unfold pfWord
  refine forms_effect forms_regWord ?_
  intro t1 h2
  refine formed_foldl ?_ (formed_keepWindow h2)
  intro t3 x4 h5
  split
  · exact formed_ite (formed_addReq (formed_keepTr h5)) h5
  · exact h5

theorem formed_freshId {s : State} (h : Formed s) : Formed (freshId s).2 := by
  unfold freshId
  exact formed_onMem (wf_mk h)

theorem forms_cpaWord {x : Bool} {df af : BitVec 7} {w : BitVec 3} {size : BitVec 2} {out : Bool} {g : Group} {s : State}
    : (cpaWord x df af w size out g s).Forms := by
  unfold cpaWord
  refine forms_effect forms_regWord ?_
  intro t1 h2
  refine formed_ite h2 ?_
  refine formed_onCur ?_
  refine formed_foldl ?_ (formed_onMem (wf_mk h2))
  intro t3 x4 h5
  exact formed_mk (formed_onMem (wf_mk h5))

theorem forms_cpsealWord {g : Group} {x : State} : (cpsealWord g x).Forms := by
  unfold cpsealWord
  exact forms_of_effect fun t1 h2 => formed_onCur h2

theorem forms_cpwaitWord {t : BitVec 2} {g : Group} {x : State} : (cpwaitWord t g x).Forms := by
  unfold cpwaitWord
  exact forms_of_effect fun t1 h2 => formed_onCur h2

theorem forms_bulkWord {quant : Bool} {df af bf : BitVec 6} {g : Group} {s : State} : (bulkWord quant df af bf g s).Forms := by
  unfold bulkWord
  refine forms_of_effect ?_
  exact fun t1 h2 => formed_mk (formed_onMem (wf_mk h2))

theorem forms_tbarWord {af bf : BitVec 6} {g : Group} {s : State} {w : WordOut} (h_w : WordOut.Forms w)
    : (tbarWord af bf g s w).Forms := by
  unfold tbarWord
  exact forms_checks h_w

theorem forms_tbarDo {af bf : BitVec 6} {f : Word → TBar → TBar} {g : Group} {s : State} : (tbarDo af bf f g s).Forms := by
  unfold tbarDo
  exact forms_tbarWord (forms_of_effect fun t1 h2 => formed_onCurTeam h2)

theorem forms_tbwaitWord {af bf : BitVec 6} {g : Group} {s : State} : (tbwaitWord af bf g s).Forms := by
  unfold tbwaitWord
  exact forms_tbarWord forms_still

theorem forms_tbtestWord {d af bf : BitVec 6} {g : Group} {s : State} : (tbtestWord d af bf g s).Forms := by
  unfold tbtestWord
  exact forms_tbarWord (forms_of_effect fun t1 h2 => formed_onCur h2)

theorem forms_rarmWord {x : Bool} {af : BitVec 7} {n : BitVec 3} {g : Group} {s : State} : (rarmWord x af n g s).Forms := by
  unfold rarmWord
  exact forms_of_effect fun t1 h2 => formed_onCur h2

theorem forms_rdisarmWord {x : Bool} {af : BitVec 7} {n : BitVec 3} {g : Group} {s : State} : (rdisarmWord x af n g s).Forms := by
  unfold rdisarmWord
  exact forms_of_effect fun t1 h2 => formed_onCur h2

theorem forms_mkcapWord {d a : BitVec 6} {g : Group} {s : State} : (mkcapWord d a g s).Forms := by
  unfold mkcapWord
  exact forms_of_effect fun t1 h2 => formed_onCur h2

theorem forms_rsendWord {rel tr x : Bool} {n : BitVec 6} {af : BitVec 7} {k : BitVec 5} {g : Group} {s : State}
    : (rsendWord rel tr x n af k g s).Forms := by
  unfold rsendWord
  dsimp only
  split
  · exact ⟨keeps_id, keeps_id, fun t1 h2 => formed_onCur h2, keeps_none, keeps_id, fun t1 h2 => formed_onCur h2⟩
  · exact ⟨fun t1 h2 => formed_onCur (formed_onCur (formed_mk (formed_freshId h2))), keeps_id, fun t1 h2 => formed_onCur (formed_mk
        (formed_freshId h2)), keeps_none, keeps_id, keeps_id⟩

theorem forms_rrevokeWord {d : BitVec 6} {x : Group} {x' : State} : (rrevokeWord d x x').Forms := by
  unfold rrevokeWord
  exact forms_of_effect fun t1 h2 => formed_ite (formed_onCur h2) (formed_onCur (formed_setTlt h2))

theorem forms_rtestWord {x : Bool} {d : BitVec 6} {af : BitVec 7} {g : Group} {s : State} : (rtestWord x d af g s).Forms := by
  unfold rtestWord
  exact forms_of_effect fun t1 h2 => formed_onCur h2

theorem forms_rtestCountWord {d : BitVec 6} {x : Group} {x' : State} : (rtestCountWord d x x').Forms := by
  unfold rtestCountWord
  exact forms_of_effect fun t1 h2 => formed_onCur h2

theorem forms_mringWord {rf : BitVec 3} {a b : BitVec 6} {g : Group} {s : State} : (mringWord rf a b g s).Forms := by
  unfold mringWord
  exact ⟨fun t1 h2 => formed_onCurTeam h2, keeps_id, fun t1 h2 => formed_onCurTeam h2, keeps_none, keeps_id, keeps_id⟩

theorem forms_msendWord {d a b : BitVec 6} {g : Group} {s : State} : (msendWord d a b g s).Forms := by
  unfold msendWord
  refine forms_of_effect ?_
  exact fun t1 h2 => formed_onCur (formed_mk (formed_onMem (wf_mk h2)))

theorem forms_mwaitWord {d : BitVec 6} {rf : BitVec 3} {x : Group} {s : State} : (mwaitWord d rf x s).Forms := by
  unfold mwaitWord
  exact ⟨fun t1 h2 => formed_onCurTeam h2, keeps_id, fun t1 h2 => formed_onCur (formed_onCurTeam h2), keeps_none, keeps_id, keeps_id⟩

theorem forms_residWord {base : WordOut} {n a : Nat} {clr : Bool} {acc : Acc} {op : Nat → ReqOp} {regs : List RegId}
    {after : State → State} {g : Group} {s : State} (h_base : WordOut.Forms base) (h_after : Keeps after)
    : (residWord base n a clr acc op regs after g s).Forms := by
  unfold residWord
  refine forms_accessWord (forms_checks h_base) ?_
  intro t1 h2
  refine h_after ?_
  refine formed_foldl ?_ h2
  intro t3 x4 h5
  split
  · exact formed_addLoad h5
  · exact h5

theorem formed_clearFlues {core : Nat} {s : State} (h : Formed s) : Formed (clearFlues core s) := by
  unfold clearFlues
  exact formed_onCore h

theorem forms_resqWord {x : Bool} {d a : BitVec 7} {w : BitVec 3} {r : BitVec 1} {g : Group} {s : State}
    : (resqWord x d a w r g s).Forms := by
  unfold resqWord
  exact forms_residWord forms_regWord (fun t1 h2 => formed_ite (formed_clearFlues h2) h2)

theorem formed_writeOrder {g : Group} {f : Nat → List Nat} {s : State} (h : Formed s) : Formed (writeOrder g f s).2 := by
  unfold writeOrder
  exact formed_ite_snd h (formed_mk h)

theorem formed_onDraw {t : Team} {f : Card → Card} {s : State} (h : Formed s) : Formed (onDraw t f s) := by
  unfold onDraw
  exact formed_onDie h

theorem forms_memitWord {x : Bool} {d a : BitVec 7} {n lim : Nat} {bad : Word → Bool} {put : Nat → List Word → Meshlet → Meshlet}
    {drop : Nat → Card → Card} {g : Group} {s : State} : (memitWord x d a n lim bad put drop g s).Forms := by
  unfold memitWord
  refine forms_effect forms_regWord ?_
  intro t1 h2
  dsimp only
  split
  · exact formed_foldl (fun t3 x4 h5 => formed_onCurTeam h5) (formed_writeOrder h2)
  · exact formed_onDraw (formed_foldl (fun t3 x4 h5 => formed_onCurTeam h5) (formed_writeOrder h2))

theorem formed_useRing {die ctx region : Nat} {s : State} (h : Formed s) : Formed (useRing die ctx region s) := by
  unfold useRing
  exact formed_onDie h

theorem forms_tampWord {x : Bool} {d a b : BitVec 7} {g : Group} {s : State} : (tampWord x d a b g s).Forms := by
  unfold tampWord
  exact forms_effect forms_regWord (fun t1 h2 => formed_ite (formed_onCur (formed_ite (formed_ite h2 (formed_useRing h2)) (formed_onDraw
      (formed_ite h2 (formed_useRing h2))))) (formed_onCur (formed_onDie (formed_ite (formed_ite h2 (formed_useRing h2)) (formed_onDraw
      (formed_ite h2 (formed_useRing h2)))))))

theorem forms_tileWord {t : Team} {g : Group} {w : WordOut} (h_w : WordOut.Forms w) : (tileWord t g w).Forms := by
  unfold tileWord
  exact forms_checks h_w

theorem forms_tloadWord {x : Bool} {d a : BitVec 7} {g : Group} {s : State} : (tloadWord x d a g s).Forms := by
  unfold tloadWord
  exact forms_tileWord (forms_effect forms_regWord (fun t1 h2 => formed_onCur h2))

theorem forms_tstoreWord {x : Bool} {d a : BitVec 7} {g : Group} {s : State} : (tstoreWord x d a g s).Forms := by
  unfold tstoreWord
  refine forms_tileWord ?_
  refine forms_effect forms_regWord ?_
  intro t1 h2
  dsimp only
  exact formed_foldl (fun t3 x4 h5 => formed_onCurTeam h5) (formed_writeOrder h2)

theorem forms_tsealWord {g : Group} {s : State} : (tsealWord g s).Forms := by
  unfold tsealWord
  refine forms_tileWord ?_
  refine forms_of_effect ?_
  intro t1 h2
  dsimp only
  split
  · exact formed_onCurTeam (formed_mk (formed_onDie h2))
  · exact h2

theorem forms_gzrdWord {x : Bool} {d a : BitVec 7} {g : Group} {s : State} : (gzrdWord x d a g s).Forms := by
  unfold gzrdWord
  exact forms_effect forms_regWord (fun t1 h2 => formed_onCur h2)

theorem forms_sysWord {g : Group} {w : WordOut} (h_w : WordOut.Forms w) : (sysWord g w).Forms := by
  unfold sysWord
  exact forms_checks h_w

theorem formed_dropTlb {all : Bool} {asid lo hi : Nat} {s : State} (h : Formed s) : Formed (dropTlb all asid lo hi s) := by
  unfold dropTlb
  exact formed_mk h

theorem formed_unliveWindows {p : Window → Bool} {s : State} (h : Formed s) : Formed (unliveWindows p s) := by
  unfold unliveWindows
  exact formed_mk h

theorem formed_purgeCode {lo hi : Nat} {s : State} (h : Formed s) : Formed (purgeCode lo hi s) := by
  unfold purgeCode
  exact formed_mk h

theorem formed_shootdown {all : Bool} {asid tag lo hi : Nat} {code : Bool} {s : State} (h : Formed s)
    : Formed (shootdown all asid tag lo hi code s) := by
  unfold shootdown
  exact formed_ite (formed_purgeCode (formed_unliveWindows (formed_dropTlb h))) (formed_unliveWindows (formed_dropTlb h))

theorem forms_winvWord {d a : BitVec 6} {g : Group} {x : State} : (winvWord d a g x).Forms := by
  unfold winvWord
  exact forms_sysWord (forms_of_effect fun t1 h2 => formed_unliveWindows h2)

theorem forms_hmaskWord {k : BitVec 4} {a b : BitVec 6} {g : Group} {x : State} : (hmaskWord k a b g x).Forms := by
  unfold hmaskWord
  exact forms_sysWord (forms_of_effect fun t1 h2 => formed_onCur (formed_queueSwitch h2))

theorem formed_pickStatus {xs : List Nat} {s : State} (h : Formed s) : Formed (pickStatus xs s).2 := by
  unfold pickStatus
  dsimp only
  split
  · exact h
  · exact formed_draw h

theorem forms_snapWord {g : Group} : (snapWord g).Forms := by
  unfold snapWord
  exact forms_sysWord (forms_of_effect fun t1 h2 => formed_mk h2)

theorem forms_ctlWord {g : Group} {uses : List RegId} {fs : List (Raise ⊕ ParkReq)} {f : State → State} (h_f : Keeps f)
    : (ctlWord g uses fs f).Forms := by
  unfold ctlWord
  exact ⟨keeps_id, keeps_id, keeps_id, keeps_ctl h_f, keeps_id, keeps_id⟩

theorem formed_goto {pc : Dword} {a : State} (h : Formed a) : Formed (goto pc a) := by
  unfold goto
  exact formed_onCur h

theorem forms_branchWord {uses : List RegId} {taken : Word} {o : BitVec 19} {lit : Option (BitVec 25)} {g : Group} {s : State}
    : (branchWord uses taken o lit g s).Forms := by
  unfold branchWord
  exact forms_ite forms_still (forms_ite (forms_ctlWord (fun t1 h2 => formed_goto h2)) (forms_ctlWord (fun t1 h2 => formed_onCur
      (formed_push h2))))

theorem formed_setTop {k : Nat} {e : StackEntry} {s : State} (h : Formed s) : Formed (setTop k e s) := by
  unfold setTop
  exact formed_onGroup h

theorem forms_vacateWord {g : Group} {s : State} {es : List StackEntry} {f : State → State} (h_f : Keeps f)
    : (vacateWord g s es f).Forms := by
  unfold vacateWord
  split
  · exact forms_ite forms_still (forms_ctlWord h_f)
  · exact forms_ctlWord h_f

theorem formed_exitTeam {h' : Nat} {s : State} (h : Formed s) : Formed (exitTeam h' s) := by
  unfold exitTeam
  dsimp only
  split
  · exact h
  · exact formed_freeHandle (formed_putCused (formed_dropTeam (formed_launchLoses (formed_meshEnds h))))

theorem formed_completePhase {h' : Nat} {s : State} (h : Formed s) : Formed (completePhase h' s) := by
  unfold completePhase
  exact formed_mk (formed_onTeam h)

theorem formed_settleBarrier {h' : Nat} {s : State} (h : Formed s) : Formed (settleBarrier h' s) := by
  unfold settleBarrier
  exact formed_ite h (formed_ite h (formed_completePhase h))

theorem formed_exitGroup {k : Nat} {s : State} (h : Formed s) : Formed (exitGroup k s) := by
  unfold exitGroup
  exact formed_ite (formed_exitTeam (formed_onTeam (formed_mk (formed_dropRequests (formed_onGroup h))))) (formed_settleBarrier
      (formed_onTeam (formed_mk (formed_dropRequests (formed_onGroup h)))))

theorem forms_brxWord {sp : BitVec 6} {g : Group} {x : State} : (brxWord sp g x).Forms := by
  unfold brxWord
  exact forms_ite (forms_ctlWord (fun t1 h2 => formed_goto h2)) forms_still

theorem forms_callWord {o : BitVec 19} {lit : Option (BitVec 25)} {g : Group} {s : State} : (callWord o lit g s).Forms := by
  unfold callWord
  exact forms_ctlWord (fun t1 h2 => formed_goto (formed_push h2))

theorem formed_stripSpilled {x : Word} {s : State} {home : Dword} (h : Formed s) : Formed (stripSpilled x s home) := by
  unfold stripSpilled
  exact formed_storeNow h

theorem forms_softTrap {c : Cause} {p : BitVec 3} {g : Group} {x : State} : (softTrap c p g x).Forms := by
  unfold softTrap
  exact forms_still

theorem formed_barrierWait {w : Nat → Wait} {s : State} (h : Formed s) : Formed (barrierWait w s) := by
  unfold barrierWait
  exact formed_settleBarrier (formed_onCur h)

theorem formed_arrive {req : Option Word} {s : State} (h : Formed s) : Formed (arrive req s) := by
  unfold arrive
  exact formed_onCurTeam (formed_onCur h)

theorem forms_barWord {pub : Bool} {x : Group} {s : State} : (barWord pub x s).Forms := by
  unfold barWord
  exact ⟨keeps_id, keeps_id, keeps_id, keeps_ctl (fun t1 h2 => formed_barrierWait (formed_arrive h2)), keeps_id, keeps_id⟩

theorem forms_barReallocWord {d a : BitVec 6} {g : Group} {s : State} : (barReallocWord d a g s).Forms := by
  unfold barReallocWord
  exact ⟨keeps_id, keeps_id, keeps_id, keeps_ctl (fun t1 h2 => formed_barrierWait (formed_arrive h2)), keeps_id, keeps_id⟩

theorem forms_barWaitWord {x : Group} {x' : State} : (barWaitWord x x').Forms := by
  unfold barWaitWord
  refine ⟨keeps_id, keeps_id, keeps_id, ?_, keeps_id, keeps_id⟩
  refine keeps_ctl ?_
  intro t1 h2
  dsimp only
  split
  · exact formed_ite (formed_onCur h2) h2
  · exact h2

theorem forms_lgrowWord {d a : BitVec 6} {g : Group} {x : State} : (lgrowWord d a g x).Forms := by
  unfold lgrowWord
  refine forms_of_effect ?_
  intro t1 h2
  dsimp only
  split
  · exact h2
  · exact formed_onCur (formed_onDie h2)

theorem forms_evpostWord {a : BitVec 6} {g : Group} {s : State} : (evpostWord a g s).Forms := by
  unfold evpostWord
  exact forms_of_effect fun t1 h2 => formed_onDie h2

theorem formed_sendCtr {addr : Nat} {kind : CtrKind} {s : State} (h : Formed s) : Formed (sendCtr addr kind s) := by
  unfold sendCtr
  exact formed_onDie h

theorem forms_depdecWord {a : BitVec 6} {g : Group} {x : State} : (depdecWord a g x).Forms := by
  unfold depdecWord
  exact forms_of_effect fun t1 h2 => formed_onCur (formed_sendCtr h2)

theorem forms_depsetWord {a b : BitVec 6} {g : Group} {x : State} : (depsetWord a b g x).Forms := by
  unfold depsetWord
  exact forms_of_effect fun t1 h2 => formed_sendCtr h2

theorem formed_burnToken {core : Nat} {s : State} (h : Formed s) : Formed (burnToken core s) := by
  unfold burnToken
  exact formed_onDie h

theorem formed_matEffect {g : Group} {d : Nat} {ovr : Bool} {afmt : Nat} {w : WSlot} {shadow : Bool} {rows : Nat → List Byte} {s : State}
    (h : Formed s) : Formed (matEffect g d ovr afmt w shadow rows s) := by
  unfold matEffect
  dsimp only
  split
  · exact h
  · exact formed_occupy (formed_burnToken (formed_charge (formed_onCur h)))

theorem formed_loseSlot {n : Nat} {s : State} (h : Formed s) : Formed (loseSlot n s) := by
  unfold loseSlot
  exact formed_meetErr (formed_onCurTeam h)

theorem forms_matWord {d : BitVec 7} {sf : BitVec 6} {ovr : Bool} {aRegs : List VR} {g : Group} {s : State} {las : List LaneAt}
    {shadow : Bool} {rows : State → Nat → List Byte} {pre : State → State} (h_pre : Keeps pre)
    : (matWord d sf ovr aRegs g s las shadow rows pre).Forms := by
  unfold matWord
  exact forms_accessWord ⟨keeps_id, fun t1 h2 => formed_ite_app (formed_onCur h2) (formed_id h2), fun t1 h2 => formed_matEffect
      (formed_meetErr h2), keeps_none, keeps_id, fun t1 h2 => formed_ite_app (formed_loseSlot h2) (formed_id h2)⟩ h_pre

theorem forms_mmqWord {d a : BitVec 7} {sf : BitVec 6} {ovr : Bool} {g : Group} {s : State} : (mmqWord d a sf ovr g s).Forms := by
  unfold mmqWord
  exact forms_matWord (fun t1 h2 => formed_id h2)

theorem forms_mmqsWord {d a : BitVec 7} {sf : BitVec 6} {ovr : Bool} {g : Group} {s : State} : (mmqsWord d a sf ovr g s).Forms := by
  unfold mmqsWord
  exact forms_checks (forms_matWord (fun t1 h2 => formed_id h2))

theorem forms_mtileWord {d : BitVec 7} {sf : BitVec 6} {ovr : Bool} {g : Group} {s : State} : (mtileWord d sf ovr g s).Forms := by
  unfold mtileWord
  exact forms_ite (forms_of_effect fun t1 h2 => formed_onCur h2) ⟨fun t1 h2 => formed_burnToken (formed_onCur h2), keeps_id, fun t1 h2 =>
      formed_burnToken h2, keeps_none, keeps_id, keeps_id⟩

theorem forms_wbinvWord {a : BitVec 6} {g : Group} {s : State} : (wbinvWord a g s).Forms := by
  unfold wbinvWord
  exact forms_of_effect fun t1 h2 => formed_onCurTeam h2

theorem forms_wbstatWord {d a : BitVec 6} {g : Group} {s : State} : (wbstatWord d a g s).Forms := by
  unfold wbstatWord
  exact forms_of_effect fun t1 h2 => formed_onCur h2

theorem forms_xfmWord {x : Bool} {df af : BitVec 7} {nd na : Nat} {readsD ok : Bool} {f : Nat → Nat → List (Nat × Word) × Num.Ev}
    {g : Group} {s : State} : (xfmWord x df af nd na readsD ok f g s).Forms := by
  unfold xfmWord
  refine forms_effect forms_regWord ?_
  intro t1 h2
  dsimp only
  exact formed_charge (formed_onCur (formed_mk (formed_freshId h2)))

theorem forms_hadWord {n : Nat} {x : Bool} {d a : BitVec 7} {m : BitVec 6} {a' : Group} {a'' : State}
    : (hadWord n x d a m a' a'').Forms := by
  unfold hadWord
  exact forms_xfmWord

theorem forms_absmaxWord {x : Bool} {d a : BitVec 7} {m : BitVec 6} {a' : Group} {a'' : State} : (absmaxWord x d a m a' a'').Forms := by
  unfold absmaxWord
  exact forms_xfmWord

theorem forms_quantWord {x : Bool} {d a : BitVec 7} {m : BitVec 6} {g : Group} {s : State} : (quantWord x d a m g s).Forms := by
  unfold quantWord
  exact forms_effect forms_xfmWord (fun t1 h2 => formed_ite_app (formed_onCur (forms_xfmWord.effect h2)) (formed_id (forms_xfmWord.effect
      h2)))

theorem forms_bmencWord {x : Bool} {d a : BitVec 7} {m : BitVec 6} {a' : Group} {a'' : State} : (bmencWord x d a m a' a'').Forms := by
  unfold bmencWord
  exact forms_xfmWord

theorem forms_bmdecWord {x : Bool} {d a : BitVec 7} {m : BitVec 6} {a' : Group} {a'' : State} : (bmdecWord x d a m a' a'').Forms := by
  unfold bmdecWord
  exact forms_xfmWord

theorem forms_pscanWord {x : Bool} {d a : BitVec 7} {m : BitVec 6} {a' : Group} {a'' : State} : (pscanWord x d a m a' a'').Forms := by
  unfold pscanWord
  exact forms_xfmWord

theorem forms_lztokWord {x : Bool} {d a : BitVec 7} {a' : Group} {a'' : State} : (lztokWord x d a a' a'').Forms := by
  unfold lztokWord
  exact forms_xfmWord

theorem formed_measure {code : BitVec 16} {c : List Byte} {s : State} (h : Formed s) : Formed (measure code c s) := by
  unfold measure
  exact formed_mk h

theorem formed_startCtl {m : CtlMode} {cc : Nat} {s : State} (h : Formed s) : Formed (startCtl m cc s) := by
  unfold startCtl
  exact formed_mk h

theorem formed_releaseDie {d : Nat} {s : State} (h : Formed s) : Formed (releaseDie d s) := by
  unfold releaseDie
  exact formed_onDie (formed_cleanDie h)

theorem formed_startFirmware {img : List Byte} {s : State} (h : Formed s) : Formed (startFirmware img s) := by
  unfold startFirmware
  exact formed_mk (formed_foldl (fun t1 x2 h3 => formed_startCtl h3) (formed_countLife (formed_foldl (fun t1 x2 h3 => formed_measure h3)
      (formed_measure h))))

theorem formed_awaitReload {s : State} (h : Formed s) : Formed (awaitReload s) := by
  unfold awaitReload
  exact formed_mk (formed_countLife h)

theorem formed_runRom {s : State} (h : Formed s) : Formed (runRom s) := by
  unfold runRom
  exact formed_ite (formed_startFirmware (formed_measure (formed_startCtl (formed_releaseDie h)))) (formed_awaitReload (formed_measure
      (formed_startCtl (formed_releaseDie h))))

theorem formed_startHbm {s : State} (h : Formed s) : Formed (startHbm s) := by
  unfold startHbm
  exact formed_onMem (wf_mk (wf_foldl (fun x1 x2 h3 => wf_ite h3 h3) h))

theorem formed_linksUp {p : LinkId → Bool} {s : State} (h : Formed s) : Formed (linksUp p s) := by
  unfold linksUp
  exact formed_foldl (fun t1 x2 h3 => formed_setLink h3) h

theorem formed_queueFlits {l : LinkId} {tc : BitVec 2} {ps : List (List Byte)} {s : State} (h : Formed s)
    : Formed (queueFlits l tc ps s) := by
  unfold queueFlits
  dsimp only
  split
  · exact h
  · exact h
  · exact formed_setLink h

theorem formed_queueMsg {q tc : Nat} {m : FabricMsg} {s : State} (h : Formed s) : Formed (queueMsg q tc m s) := by
  unfold queueMsg
  split
  · exact formed_queueFlits h
  · exact h

theorem formed_serveScratch {j src id c handle off size : Nat} {op : ReqOp} {data : BitVec 128} {s : State} (h : Formed s)
    : Formed (serveScratch j src id c handle off size op data s) := by
  unfold serveScratch
  exact formed_ite h (formed_ite (formed_queueMsg h) (formed_putReq h))

theorem formed_onSend {i : Nat} {f : Send → Send} {s : State} (h : Formed s) : Formed (onSend i f s) := by
  unfold onSend
  exact formed_mk h

theorem formed_answer {i code : Nat} {s : State} (h : Formed s) : Formed (answer i code s) := by
  unfold answer
  exact formed_onSend h

theorem formed_startOs {s : State} (h : Formed s) : Formed (startOs s) := by
  unfold startOs
  exact formed_mk (formed_startCtl (formed_measure h))

theorem wf_storeReach {m : Mem} {pa : Nat} {bs : List Byte} (h : Memory.wf m.hbm) : Memory.wf (storeReach m pa bs).hbm := by
  unfold storeReach
  exact wf_ite (wf_storeRange h _ _) h

theorem formed_createContext0 {s : State} (h : Formed s) : Formed (createContext0 s) := by
  unfold createContext0
  exact formed_setCtxField (formed_setCtxField (formed_setCtxField (formed_setCtxField (formed_onMem (wf_storeReach (formed_mk h))))))

theorem formed_execMeasureComponent {code : BitVec 16} {component : List (BitVec 8)} {s : State} (h : Formed s)
    : OutFormed (execMeasureComponent code component s) := by
  unfold execMeasureComponent
  exact outFormed_ite (outFormed_next (formed_measure h)) (outFormed_refused _)

theorem formed_raiseMsi {cc irq : Nat} {s : State} (h : Formed s) : Formed (raiseMsi cc irq s) := by
  unfold raiseMsi
  exact formed_setPending (formed_mk h)

theorem formed_portMsi {s : State} (h : Formed s) : Formed (portMsi s) := by
  unfold portMsi
  exact formed_ite (formed_raiseMsi h) h

theorem formed_drawNo {s : State} (h : Formed s) : Formed (drawNo s).2 := by
  unfold drawNo
  exact formed_mk h

theorem formed_signed {m : List Byte} {s : State} (h : Formed s) : Formed (signed m s).2 := by
  unfold signed
  exact formed_mk h

theorem formed_respond {d body : List Byte} {s : State} (h : Formed s) : Formed (respond d body s) := by
  unfold respond
  exact formed_mk (formed_mk h)

theorem formed_command {codeOk : Nat → Bool} {bodyOk : List Byte → Bool} {run : List Byte → State → Answer} {d : List Byte} {s : State}
    (h_run : ∀ x0 t1, Formed t1 → Formed (run x0 t1).2.2) (h_s : Formed s) : OutFormed (command codeOk bodyOk run d s) := by
  unfold command
  refine outFormed_ite (outFormed_refused _) ?_
  refine outFormed_ite (outFormed_next (formed_portMsi h_s)) ?_
  dsimp only
  refine outFormed_next ?_
  refine formed_respond ?_
  split
  · exact formed_mk (formed_portMsi h_s)
  · split
    · exact formed_mk (formed_portMsi h_s)
    · exact h_run _ _ (formed_mk (formed_portMsi h_s))

theorem formed_execStatus {dgram : List (BitVec 8)} {s : State} (h : Formed s) : OutFormed (execStatus dgram s) := by
  unfold execStatus
  exact formed_command (fun x1 t2 h3 => h3) h

theorem formed_flushLife {s : State} (h : Formed s) : Formed (flushLife s) := by
  unfold flushLife
  exact formed_mk h

theorem formed_takeImage {img : List Byte} {s : State} (h : Formed s) : Formed (takeImage img s).2.2 := by
  unfold takeImage
  dsimp only
  split
  · exact formed_ite (formed_startFirmware (formed_mk h)) (formed_mk h)
  · exact formed_mk h

theorem formed_takeChunk {b : List Byte} {s : State} (h : Formed s) : Formed (takeChunk b s).2.2 := by
  unfold takeChunk
  dsimp only
  split
  · exact h
  · split
    · exact formed_takeImage (formed_mk h)
    · exact formed_mk h

theorem formed_execLoadimg {dgram : List (BitVec 8)} {s : State} (h : Formed s) : OutFormed (execLoadimg dgram s) := by
  unfold execLoadimg
  exact formed_command (fun x1 t2 h3 => formed_takeChunk h3) h

theorem formed_formQuote {nonce : List Byte} {s : State} (h : Formed s) : Formed (formQuote nonce s) := by
  unfold formQuote
  exact formed_mk (formed_mk h)

theorem formed_execAttest {dgram : List (BitVec 8)} {s : State} (h : Formed s) : OutFormed (execAttest dgram s) := by
  unfold execAttest
  exact formed_command (fun x1 t2 h3 => formed_ite h3 (formed_formQuote h3)) h

theorem formed_broadcast {s : State} (h : Formed s) : Formed (broadcast s) := by
  unfold broadcast
  exact formed_mk h

theorem formed_rootTrigger {s : State} (h : Formed s) : Formed (rootTrigger s) := by
  unfold rootTrigger
  exact formed_ite (formed_broadcast (formed_mk h)) (formed_broadcast (formed_mk (formed_mk h)))

theorem formed_execSnapCommand {dgram : List (BitVec 8)} {s : State} (h : Formed s) : OutFormed (execSnapCommand dgram s) := by
  unfold execSnapCommand
  exact formed_command (fun x1 t2 h3 => formed_ite h3 (formed_rootTrigger (formed_mk h3))) h

theorem formed_execRdsnap {dgram : List (BitVec 8)} {s : State} (h : Formed s) : OutFormed (execRdsnap dgram s) := by
  unfold execRdsnap
  exact formed_command (fun x1 t2 h3 => h3) h

theorem formed_execRdlife {dgram : List (BitVec 8)} {s : State} (h : Formed s) : OutFormed (execRdlife dgram s) := by
  unfold execRdlife
  exact formed_command (fun x1 t2 h3 => h3) h

theorem formed_execSetpkg {dgram : List (BitVec 8)} {s : State} (h : Formed s) : OutFormed (execSetpkg dgram s) := by
  unfold execSetpkg
  exact formed_command (fun x1 t2 h3 => formed_mk h3) h

theorem formed_execKillctx {dgram : List (BitVec 8)} {s : State} (h : Formed s) : OutFormed (execKillctx dgram s) := by
  unfold execKillctx
  exact formed_command (fun x1 t2 h3 => formed_writeCtxcmd h3) h

theorem formed_execUnknownCommand {dgram : List (BitVec 8)} {s : State} (h : Formed s) : OutFormed (execUnknownCommand dgram s) := by
  unfold execUnknownCommand
  exact formed_command (fun x1 t2 h3 => h3) h

theorem formed_execLifetimeFlush {s : State} (h : Formed s) : OutFormed (execLifetimeFlush s) := by
  unfold execLifetimeFlush
  exact outFormed_ite (outFormed_next (formed_flushLife h)) (outFormed_refused _)

theorem formed_execCtxCreate {w : BitVec 32} {s : State} (h : Formed s) : OutFormed (execCtxCreate w s) := by
  unfold execCtxCreate
  exact outFormed_ite (outFormed_next (formed_writeCtxcmd h)) (outFormed_refused _)

theorem formed_execCtxKill {w : BitVec 32} {s : State} (h : Formed s) : OutFormed (execCtxKill w s) := by
  unfold execCtxKill
  exact outFormed_ite (outFormed_next (formed_writeCtxcmd h)) (outFormed_refused _)

theorem formed_execCtxDestroy {w : BitVec 32} {s : State} (h : Formed s) : OutFormed (execCtxDestroy w s) := by
  unfold execCtxDestroy
  exact outFormed_ite (outFormed_next (formed_writeCtxcmd h)) (outFormed_refused _)

theorem formed_execRcbinvWrite {die : BitVec 3} {w : BitVec 32} {s : State} (h : Formed s) : OutFormed (execRcbinvWrite die w s) := by
  unfold execRcbinvWrite
  exact outFormed_next (formed_writeRcbinv h)

theorem formed_execDctrSet {die : BitVec 3} {n : BitVec 12} {cc : BitVec 4} {w : BitVec 64} {s : State} (h : Formed s)
    : OutFormed (execDctrSet die n cc w s) := by
  unfold execDctrSet
  exact outFormed_ite (outFormed_next (formed_writeDctr h)) (outFormed_refused _)

theorem formed_execDctrDecrement {die : BitVec 3} {n : BitVec 12} {cc : BitVec 4} {w : BitVec 64} {s : State} (h : Formed s)
    : OutFormed (execDctrDecrement die n cc w s) := by
  unfold execDctrDecrement
  exact outFormed_ite (outFormed_next (formed_writeDctr h)) (outFormed_refused _)

theorem formed_execLcctlCntclr {link : LinkId} {w : BitVec 32} {s : State} (h : Formed s) : OutFormed (execLcctlCntclr link w s) := by
  unfold execLcctlCntclr
  exact outFormed_ite (outFormed_next (formed_writeLcctl h)) (outFormed_refused _)

theorem formed_execLcctlTcdis {link : LinkId} {w : BitVec 32} {s : State} (h : Formed s) : OutFormed (execLcctlTcdis link w s) := by
  unfold execLcctlTcdis
  exact outFormed_next (formed_writeLcctl h)

theorem formed_execSnapctlClr {die : BitVec 4} {w : BitVec 32} {s : State} (h : Formed s) : OutFormed (execSnapctlClr die w s) := by
  unfold execSnapctlClr
  exact outFormed_ite (outFormed_next (formed_writeSnapctl h)) (outFormed_refused _)

theorem formed_execThermctlRelease {die : BitVec 3} {w : BitVec 32} {s : State} (h : Formed s)
    : OutFormed (execThermctlRelease die w s) := by
  unfold execThermctlRelease
  exact outFormed_ite (outFormed_next (formed_writeThermctl h)) (outFormed_refused _)

theorem formed_execFwWrite {mc : Option (BitVec 5)} {k : BitVec 4} {part : BitVec 2} {w : BitVec 64} {s : State} (h : Formed s)
    : OutFormed (execFwWrite mc k part w s) := by
  unfold execFwWrite
  exact outFormed_ite (outFormed_next (formed_writeFw h)) (outFormed_refused _)

theorem formed_execSerclkWrite {w : BitVec 32} {s : State} (h : Formed s) : OutFormed (execSerclkWrite w s) := by
  unfold execSerclkWrite
  exact outFormed_next (formed_writeSerclk h)

theorem formed_execVobWrite {v : BitVec 4} {part : BitVec 3} {w : BitVec 64} {s : State} (h : Formed s)
    : OutFormed (execVobWrite v part w s) := by
  unfold execVobWrite
  exact outFormed_next (formed_writeVob h)

theorem formed_execVrecWrite {v : BitVec 4} {w : BitVec 64} {s : State} (h : Formed s) : OutFormed (execVrecWrite v w s) := by
  unfold execVrecWrite
  exact outFormed_next (formed_writeVrec h)

theorem formed_execGazeWrite {v : BitVec 4} {w : BitVec 32} {s : State} (h : Formed s) : OutFormed (execGazeWrite v w s) := by
  unfold execGazeWrite
  exact outFormed_next (formed_writeGaze h)

theorem formed_execEmbctlWrite {die : BitVec 3} {w : BitVec 32} {s : State} (h : Formed s) : OutFormed (execEmbctlWrite die w s) := by
  unfold execEmbctlWrite
  exact outFormed_next (formed_writeEmbctl h)

theorem formed_execDsctlWrite {die : BitVec 3} {w : BitVec 32} {s : State} (h : Formed s) : OutFormed (execDsctlWrite die w s) := by
  unfold execDsctlWrite
  exact outFormed_next (formed_writeDsctl h)

theorem formed_execNrbaseWrite {die : BitVec 3} {w : BitVec 64} {s : State} (h : Formed s) : OutFormed (execNrbaseWrite die w s) := by
  unfold execNrbaseWrite
  exact outFormed_next (formed_writeNrbase h)

theorem formed_execFlitSend {link : LinkId} {tc : BitVec 2} {payload : List (BitVec 8)} {s : State} (h : Formed s)
    : OutFormed (execFlitSend link tc payload s) := by
  unfold execFlitSend
  exact outFormed_ite (outFormed_refused _) (outFormed_ite (outFormed_next (formed_setLink h)) (outFormed_next (formed_setLink h)))

theorem formed_beginRetrain {l : LinkId} {n : Nat} {s : State} (h : Formed s) : Formed (beginRetrain l n s) := by
  unfold beginRetrain
  dsimp only
  split
  · exact formed_countLife (formed_setLink h)
  · exact formed_setLink h

theorem formed_execLinkRetrain {link : LinkId} {s : State} (h : Formed s) : OutFormed (execLinkRetrain link s) := by
  unfold execLinkRetrain
  exact outFormed_ite (outFormed_next (formed_beginRetrain h)) (outFormed_refused _)

theorem formed_execRetrainComplete {link : LinkId} {s : State} (h : Formed s) : OutFormed (execRetrainComplete link s) := by
  unfold execRetrainComplete
  dsimp only
  split
  · exact outFormed_ite (outFormed_next (formed_setLink h)) (outFormed_refused _)
  · exact outFormed_refused _

theorem formed_unroute {l : LinkId} {s : State} (h : Formed s) : Formed (unroute l s) := by
  unfold unroute
  dsimp only
  split
  · exact formed_mk h
  · exact h

theorem formed_failOnLink {l : LinkId} {s : State} (h : Formed s) : Formed (failOnLink l s) := by
  unfold failOnLink
  exact formed_mk (formed_onMem (wf_mk h))

theorem formed_takeDown {l : LinkId} {s : State} (h : Formed s) : Formed (takeDown l s) := by
  unfold takeDown
  dsimp only
  split
  · exact formed_countLife (formed_unroute (formed_setLink (formed_failOnLink h)))
  · exact formed_unroute (formed_setLink (formed_failOnLink h))

theorem formed_execLinkDown {link : LinkId} {s : State} (h : Formed s) : OutFormed (execLinkDown link s) := by
  unfold execLinkDown
  exact outFormed_ite (outFormed_next (formed_takeDown h)) (outFormed_refused _)

theorem formed_dmaAnswer {port : Nat} {bs : List Byte} {s : State} (h : Formed s) : Formed (dmaAnswer port bs s) := by
  unfold dmaAnswer
  exact formed_mk h

theorem formed_dmaFail {port rid : Nat} {write : Bool} {addr : Dword} {e : Nat} {s : State} (h : Formed s)
    : Formed (dmaFail port rid write addr e s) := by
  unfold dmaFail
  exact formed_ite (formed_record h) (formed_dmaAnswer (formed_record h))

theorem formed_execPcieWindowCompletion {req : Nat} {ok : Bool} {data : BitVec 64} {s : State} (h : Formed s)
    : OutFormed (execPcieWindowCompletion req ok data s) := by
  unfold execPcieWindowCompletion
  split
  · exact outFormed_ite (outFormed_next (formed_onReq h)) (outFormed_refused _)
  · exact outFormed_refused _

theorem formed_throttle {die : Nat} {s : State} (h : Formed s) : Formed (throttle die s) := by
  unfold throttle
  exact formed_writeEmbctl (formed_onDie h)

theorem formed_setTemp {die : Nat} {temp : BitVec 8} {s : State} (h : Formed s) : Formed (setTemp die temp s) := by
  unfold setTemp
  exact formed_onDie h

theorem formed_execThermalThrottle {die : BitVec 3} {temp : BitVec 8} {s : State} (h : Formed s)
    : OutFormed (execThermalThrottle die temp s) := by
  unfold execThermalThrottle
  exact outFormed_ite (outFormed_next (formed_throttle (formed_setTemp h))) (outFormed_refused _)

theorem formed_freePost {d : Nat} {p : Post} {s : State} (h : Formed s) : Formed (freePost d p s) := by
  unfold freePost
  dsimp only
  split
  · exact formed_onGroup (formed_onDie h)
  · exact formed_onDie h

theorem formed_freePosters {die : Nat} {s : State} (h : Formed s) : Formed (freePosters die s) := by
  unfold freePosters
  exact formed_foldl (fun t1 x2 h3 => formed_ite (formed_freePost h3) h3) h

theorem formed_loseLaunches {die : Nat} {s : State} (h : Formed s) : Formed (loseLaunches die s) := by
  unfold loseLaunches
  exact formed_foldl (fun t1 x2 h3 => formed_ite (formed_record h3) h3) h

theorem formed_thermalHold {die : Nat} {s : State} (h : Formed s) : Formed (thermalHold die s) := by
  unfold thermalHold
  exact formed_onDie (formed_mk (formed_dropMesh (formed_dropCards (formed_freePosters (formed_loseLaunches (formed_countLife
      (formed_foldl (fun t1 x2 h3 => formed_record (formed_setFaulted h3)) (formed_killTeams h))))))))

theorem formed_execThermalReset {die : BitVec 3} {temp : BitVec 8} {s : State} (h : Formed s)
    : OutFormed (execThermalReset die temp s) := by
  unfold execThermalReset
  exact outFormed_ite (outFormed_next (formed_thermalHold (formed_setTemp h))) (outFormed_refused _)

theorem formed_execThermalTokenRestore {die : BitVec 3} {temp : BitVec 8} {s : State} (h : Formed s)
    : OutFormed (execThermalTokenRestore die temp s) := by
  unfold execThermalTokenRestore
  split
  · exact outFormed_ite (outFormed_next (formed_writeEmbctl (formed_onDie (formed_setTemp h)))) (outFormed_refused _)
  · exact outFormed_refused _

theorem formed_storeCard {d : Nat} {c : Card} {s : State} (h : Formed s) : Formed (storeCard d c s) := by
  unfold storeCard
  exact formed_ite (formed_pushCtr (formed_onDie h)) (formed_onDie h)

theorem formed_postArrives {d : Nat} {p : Post} {s : State} (h : Formed s) : Formed (postArrives d p s) := by
  unfold postArrives
  exact formed_ite (formed_record (formed_onDie h)) (formed_ite (formed_storeCard (formed_onDie h)) (formed_record (formed_onDie h)))

theorem formed_execCardPostArrival {die : BitVec 3} {s : State} (h : Formed s) : OutFormed (execCardPostArrival die s) := by
  unfold execCardPostArrival
  split
  · exact outFormed_next (formed_postArrives h)
  · exact outFormed_refused _

theorem formed_execCardStoreEntryFreed {die : BitVec 3} {s : State} (h : Formed s) : OutFormed (execCardStoreEntryFreed die s) := by
  unfold execCardStoreEntryFreed
  split
  · exact outFormed_next (formed_freePost h)
  · exact outFormed_refused _

theorem formed_ctrReply {o : CtrOp} {s : State} (h : Formed s) : Formed (ctrReply o s) := by
  unfold ctrReply
  split
  · exact formed_onGroup h
  · exact h

theorem formed_applyCtr {d : Nat} {o : CtrOp} {rel : Option Nat} {s : State} (h : Formed s) : Formed (applyCtr d o rel s) := by
  unfold applyCtr
  refine formed_ite (formed_ctrReply (formed_record h)) ?_
  dsimp only
  split
  · exact formed_ite (formed_onDie (formed_onDie h)) (formed_onDie h)
  · refine formed_ite ?_ (formed_ite (formed_onDie (formed_onDie (formed_ctrReply h))) (formed_onDie (formed_ctrReply h)))
    split
    · exact formed_onGroup (formed_record (formed_ctrReply h))
    · exact formed_record (formed_ctrReply h)
  · exact formed_onDie h

theorem formed_execAdmholdExpiry {die : BitVec 3} {s : State} (h : Formed s) : OutFormed (execAdmholdExpiry die s) := by
  unfold execAdmholdExpiry
  split
  · exact outFormed_next (formed_onDie h)
  · exact outFormed_refused _

theorem formed_forceReset {h' : Nat} {s : State} (h : Formed s) : Formed (forceReset h' s) := by
  unfold forceReset
  exact formed_record (formed_dropMesh (formed_dropCards (formed_setFaulted (formed_foldl (fun t1 x2 h3 => formed_killTeam h3)
      (formed_countLife h)))))

theorem formed_execDrainDeadline {team : Nat} {s : State} (h : Formed s) : OutFormed (execDrainDeadline team s) := by
  unfold execDrainDeadline
  exact outFormed_ite (outFormed_next (formed_forceReset h)) (outFormed_refused _)

theorem formed_sendMarkers {die : Nat} {c : Card} {s : State} (h : Formed s) : Formed (sendMarkers die c s) := by
  unfold sendMarkers
  exact formed_ite h (formed_foldl (fun t1 x2 h3 => formed_onDie h3) h)

theorem formed_clearStats {die : Nat} {tags : List Nat} {s : State} (h : Formed s) : Formed (clearStats die tags s) := by
  unfold clearStats
  exact formed_onDie h

theorem formed_decSuccessors {die : Nat} {c : Card} {s : State} (h : Formed s) : Formed (decSuccessors die c s) := by
  unfold decSuccessors
  exact formed_foldl (fun t1 x2 h3 => formed_pushCtr h3) h

theorem formed_freeCard {die slot : Nat} {s : State} (h : Formed s) : Formed (freeCard die slot s) := by
  unfold freeCard
  exact formed_onDie h

theorem formed_endCard {die slot n : Nat} {s : State} (h : Formed s) : Formed (endCard die slot n s) := by
  unfold endCard
  exact formed_ite (formed_freeCard h) (formed_onDie h)

theorem formed_retireJob {d : Nat} {job : Option (Nat × Nat)} {s : State} (h : Formed s) : Formed (retireJob d job s) := by
  unfold retireJob
  split
  · exact h
  · split
    · exact formed_ite (formed_endCard (formed_decSuccessors h)) h
    · exact h

theorem formed_eventDec {d : Nat} {e : Event} {s : State} (h : Formed s) : Formed (eventDec d e s) := by
  unfold eventDec
  exact formed_ite (formed_pushCtr h) h

theorem formed_holdEvent {d : Nat} {e : Event} {rest : List Event} {s : State} (h : Formed s) : Formed (holdEvent d e rest s) := by
  unfold holdEvent
  exact formed_ite (formed_retireJob (formed_onDie h)) (formed_onDie h)

theorem formed_notify {d : Nat} {b : BitVec 128} {s : State} (h : Formed s) : Formed (notify d b s) := by
  unfold notify
  exact formed_ite h (formed_ite (formed_onDie h) (formed_ite (formed_onMem (wf_putNat (wf_putNat h _ _ _) _ _ _)) (formed_ite
      (formed_raiseMsi (formed_onMem (wf_putNat (wf_storeReach h) _ _ _))) (formed_onMem (wf_putNat (wf_storeReach h) _ _ _)))))

theorem formed_barrierStepAt {inp c h' gen off n : Nat} {bad : Bool} {s : State} (h : Formed s)
    : Formed (barrierStepAt inp c h' gen off n bad s) := by
  unfold barrierStepAt
  dsimp only
  split
  · exact formed_stray h
  · exact formed_ite (formed_onTeam (formed_crossBoth h)) (formed_onMem (wf_putNat (formed_crossBoth h) _ _ _))

theorem formed_enterEvent {d : Nat} {e : Event} {s : State} (h : Formed s) : Formed (enterEvent d e s) := by
  unfold enterEvent
  refine formed_ite ?_ ?_
  · refine formed_retireJob ?_
    refine formed_record ?_
    split
    · exact formed_barrierStepAt h
    · exact h
  · refine formed_onDie ?_
    split
    · exact formed_barrierStepAt h
    · exact h

theorem formed_dropJob {d slot : Nat} {s : State} (h : Formed s) : Formed (dropJob d slot s) := by
  unfold dropJob
  exact formed_onDie h

theorem formed_execEventQueueSlotFreed {die : BitVec 3} {s : State} (h : Formed s) : OutFormed (execEventQueueSlotFreed die s) := by
  unfold execEventQueueSlotFreed
  refine outFormed_ite (outFormed_refused _) ?_
  split
  · exact outFormed_next (formed_enterEvent (formed_onDie h))
  · split
    · split
      · exact outFormed_next (formed_dropJob (formed_enterEvent h))
      · exact outFormed_refused _
    · exact outFormed_refused _

theorem formed_LzRun_fail {st : Nat} {r : LzRun} (h : Formed r.s) : Formed (LzRun.fail st r).s := by
  unfold LzRun.fail
  exact h

theorem formed_LzRun_fault {e : TrFault} {va : Dword} {r : LzRun} (h : Formed r.s) : Formed (LzRun.fault e va r).s := by
  unfold LzRun.fault
  exact h

theorem formed_jobFault {d : Nat} {c : Card} {e : TrFault} {va : Dword} {s : State} (h : Formed s) : Formed (jobFault d c e va s) := by
  unfold jobFault
  exact formed_record h

theorem formed_execSiblingStop {group : Nat} {s : State} (h : Formed s) : OutFormed (execSiblingStop group s) := by
  unfold execSiblingStop
  exact outFormed_ite (outFormed_ite (outFormed_next (formed_stopSibling (formed_onGroup h))) (outFormed_next (formed_stopSibling h)))
      (outFormed_refused _)

theorem formed_endReq {i : Nat} {r : Req} {s : State} (h : Formed s) : Formed (endReq i r s) := by
  unfold endReq
  exact formed_ite (formed_onGroup (formed_onMem (wf_mk h))) (formed_onMem (wf_mk h))

theorem formed_texelIn {n i v : Nat} {bad : Bool} {s : State} (h : Formed s) : Formed (texelIn n i v bad s) := by
  unfold texelIn
  dsimp only
  split
  · exact h
  · exact formed_ite (formed_onGroup (formed_mk h)) (formed_mk h)

theorem formed_landValue {r : Req} {v : Nat} {bad : Bool} {s : State} (h : Formed s) : Formed (landValue r v bad s) := by
  unfold landValue
  split
  · exact formed_onGroup h
  · exact formed_onGroup h
  · exact formed_ite (formed_onGroup h) h
  · exact formed_onGroup h
  · exact formed_texelIn h
  · exact h

theorem formed_landClear {r : Req} {s : State} (h : Formed s) : Formed (landClear r s) := by
  unfold landClear
  split
  · exact formed_ite h (formed_clearFlues h)
  · exact h

theorem formed_landFar {r : Req} {code v : Nat} {s : State} (h : Formed s) : Formed (landFar r code v s) := by
  unfold landFar
  split
  · exact formed_queueMsg h
  · exact h

theorem formed_landCtl {i : Nat} {r : Req} {v : Nat} {s : State} (h : Formed s) : Formed (landCtl i r v s) := by
  unfold landCtl
  split
  · exact formed_mk h
  · exact h

theorem formed_failLate {i : Nat} {r : Req} {x : Reason} {s : State} (h : Formed s) : Formed (failLate i r x s) := by
  unfold failLate
  exact formed_ite (formed_endReq h) (formed_landClear (formed_endReq (formed_landFar (formed_landCtl (formed_ite (formed_keepAddrs
      (formed_onGroup (formed_landValue (formed_record h)))) (formed_record h))))))

theorem formed_execLateFailure {req : Nat} {s : State} (h : Formed s) : OutFormed (execLateFailure req s) := by
  unfold execLateFailure
  split
  · exact outFormed_next (formed_failLate (formed_ite (formed_crossBack h) h))
  · exact outFormed_refused _

theorem formed_execSleepExpiry {group : Nat} {s : State} (h : Formed s) : OutFormed (execSleepExpiry group s) := by
  unfold execSleepExpiry
  exact outFormed_ite (outFormed_next (formed_onGroup h)) (outFormed_refused _)

theorem formed_moveToken {die i cl : Nat} {mayKeep : Bool} {s : State} (h : Formed s) : Formed (moveToken die i cl mayKeep s) := by
  unfold moveToken
  refine formed_ite (formed_onDie h) ?_
  dsimp only
  split
  · exact formed_ite (formed_onDie h) (formed_onDie h)
  · exact formed_ite (formed_onDie h) (formed_onDie h)

theorem formed_execTokenHop {die : BitVec 3} {token : Nat} {s : State} (h : Formed s) : OutFormed (execTokenHop die token s) := by
  unfold execTokenHop
  split
  · exact outFormed_next (formed_moveToken (formed_onDie h))
  · exact outFormed_refused _

theorem formed_execBurstEnd {die : BitVec 3} {cluster : Nat} {s : State} (h : Formed s) : OutFormed (execBurstEnd die cluster s) := by
  unfold execBurstEnd
  split
  · exact outFormed_next (formed_moveToken h)
  · exact outFormed_refused _

theorem formed_decideRealloc {h' : Nat} {s : State} (h : Formed s) : Formed (decideRealloc h' s) := by
  unfold decideRealloc
  exact formed_onTeam (formed_mk h)

theorem formed_execReallocDecision {team : Nat} {s : State} (h : Formed s) : OutFormed (execReallocDecision team s) := by
  unfold execReallocDecision
  exact outFormed_ite (outFormed_next (formed_decideRealloc h)) (outFormed_refused _)

theorem formed_crossReq {r : Req} {s : State} (h : Formed s) : Formed (crossReq r s) := by
  unfold crossReq
  exact formed_crossTo h

theorem formed_answerReq {i : Nat} {f : Req → Req} {s : State} (h : Formed s) : Formed (answerReq i f s) := by
  unfold answerReq
  exact formed_onReq (formed_onMem (wf_mk h))

theorem formed_failReq {i : Nat} {x : Reason} {v : Nat} {s : State} (h : Formed s) : Formed (failReq i x v s) := by
  unfold failReq
  exact formed_answerReq h

theorem formed_sendInvals {word k : Nat} {s : State} (h : Formed s) : Formed (sendInvals word k s) := by
  unfold sendInvals
  exact formed_mk h

theorem formed_performAt {i : Nat} {r : Req} {s : State} (h : Formed s) : Formed (performAt i r s) := by
  unfold performAt
  dsimp only
  split
  · exact formed_failReq h
  · refine formed_ite (formed_failReq h) ?_
    refine formed_answerReq ?_
    split
    · refine formed_sendInvals ?_
      split
      · exact formed_onMem (wf_putNat h _ _ _)
      · exact h
    · split
      · exact formed_onMem (wf_putNat h _ _ _)
      · exact h

theorem formed_execNackResend {req : Nat} {s : State} (h : Formed s) : OutFormed (execNackResend req s) := by
  unfold execNackResend
  split
  · exact outFormed_ite (outFormed_next (formed_onReq h)) (outFormed_refused _)
  · exact outFormed_refused _

theorem formed_execDomainNackResend {req : Nat} {s : State} (h : Formed s) : OutFormed (execDomainNackResend req s) := by
  unfold execDomainNackResend
  split
  · exact outFormed_ite (outFormed_next (formed_onReq h)) (outFormed_refused _)
  · exact outFormed_refused _

theorem formed_remoteMade {i h' : Nat} {r : Req} {s : State} (h : Formed s) : Formed (remoteMade i h' r s) := by
  unfold remoteMade
  dsimp only
  split
  · exact formed_failReq h
  · refine formed_ite (formed_failReq h) ?_
    refine formed_ite ?_ ?_
    · refine formed_answerReq ?_
      split
      · exact formed_onTeam h
      · exact h
    · refine formed_ite (formed_failReq h) ?_
      refine formed_answerReq ?_
      split
      · exact formed_onMem (wf_putNat h _ _ _)
      · exact h

theorem formed_remoteAccess {i h' : Nat} {r : Req} {s : State} (h : Formed s) : Formed (remoteAccess i h' r s) := by
  unfold remoteAccess
  exact formed_ite (formed_remoteMade (formed_crossReq h)) (formed_ite (formed_endReq (formed_landFar (formed_crossReq h)))
      (formed_failReq (formed_crossReq h)))

theorem formed_execRemoteScratchAccess {req : Nat} {s : State} (h : Formed s) : OutFormed (execRemoteScratchAccess req s) := by
  unfold execRemoteScratchAccess
  split
  · exact outFormed_next (formed_remoteAccess h)
  · exact outFormed_refused _

theorem formed_endLane {id : Nat} {c : LaneCopy} {failed : Bool} {s : State} (h : Formed s) : Formed (endLane id c failed s) := by
  unfold endLane
  exact formed_ite (formed_mk h) (formed_onGroup (formed_mk h))

theorem formed_failLane {id : Nat} {c : LaneCopy} {f : EngFault} {s : State} (h : Formed s) : Formed (failLane id c f s) := by
  unfold failLane
  exact formed_endLane (formed_ite (formed_mk (formed_ite (formed_record h) (formed_keepAddrs (formed_record h)))) (formed_foldl (fun t1
      x2 h3 => formed_ite (formed_onTeam h3) h3) (formed_mk (formed_ite (formed_record h) (formed_keepAddrs (formed_record h))))))

theorem formed_farWrite {b : Bulk} {off : Nat} {bs : List Byte} {s : State} (h : Formed s) : Formed (farWrite b off bs s) := by
  unfold farWrite
  split
  · exact formed_onTeam (formed_crossBoth h)
  · exact formed_writeVia h
  · exact h

theorem formed_putQuant {b : Bulk} {sc : Nat} {ys : List (Nat × Num.Ev)} {all : Bool} {s : State} (h : Formed s)
    : Formed (putQuant b sc ys all s) := by
  unfold putQuant
  refine formed_foldl ?_ (formed_ite h (formed_mk h))
  intro t1 x2 h3
  refine formed_ite ?_ h3
  dsimp only
  exact formed_chargeTag (formed_foldl (fun t4 x5 h6 => formed_farWrite h6) h3)

theorem formed_complete {d : Nat} {e : Event} {s : State} (h : Formed s) : Formed (complete d e s) := by
  unfold complete
  exact formed_ite (formed_enterEvent h) (formed_onDie h)

theorem formed_execXfmReply {reply : Nat} {s : State} (h : Formed s) : OutFormed (execXfmReply reply s) := by
  unfold execXfmReply
  dsimp only
  split
  · exact outFormed_next (formed_onGroup (formed_mk h))
  · exact outFormed_refused _

theorem formed_tileSlots {b : List Byte} {step : Nat} {s : State} (h : Formed s) : Formed (tileSlots b step s) := by
  unfold tileSlots
  refine formed_foldl ?_ h
  intro t1 x2 h3
  dsimp only
  split
  · exact formed_onCurTeam (formed_draw h3)
  · exact formed_draw h3

theorem formed_tileFault {b : List Byte} {step : Nat} {rs : List Raise} {ps : List ParkReq} {addrs : List (Nat × Dword)} {s : State}
    (h : Formed s) : Formed (tileFault b step rs ps addrs s) := by
  unfold tileFault
  exact formed_failChain (formed_onCur (formed_tileSlots h))

theorem formed_routeSend {i q : Nat} {x : Send} {s : State} (h : Formed s) : Formed (routeSend i q x s) := by
  unfold routeSend
  split
  · exact formed_ite (formed_queueMsg (formed_onSend h)) (formed_answer h)
  · exact formed_answer h

theorem formed_crossSend {i : Nat} {x : Send} {s : State} (h : Formed s) : Formed (crossSend i x s) := by
  unfold crossSend
  exact formed_onSend (formed_crossTo h)

theorem formed_logSend {i : Nat} {x : Send} {s : State} (h : Formed s) : Formed (logSend i x s) := by
  unfold logSend
  exact formed_ite (formed_answer h) (formed_answer (formed_onMem (wf_putNat (wf_storeRange h _ _) _ _ _)))

theorem formed_relaySend {i : Nat} {x : Send} {s : State} (h : Formed s) : Formed (relaySend i x s) := by
  unfold relaySend
  exact formed_ite (formed_answer h) (formed_ite (formed_logSend h) (formed_onSend h))

theorem formed_execSendAtRelay {send : Nat} {s : State} (h : Formed s) : OutFormed (execSendAtRelay send s) := by
  unfold execSendAtRelay
  split
  · refine outFormed_next ?_
    refine formed_ite (formed_answer h) ?_
    split
    · exact formed_routeSend (formed_crossSend h)
    · exact formed_relaySend (formed_crossSend h)
  · exact outFormed_refused _

theorem formed_arriveSend {i : Nat} {x : Send} {s : State} (h : Formed s) : Formed (arriveSend i x s) := by
  unfold arriveSend
  refine formed_ite (formed_answer h) ?_
  dsimp only
  exact formed_answer (formed_onGroup h)

theorem formed_execSendArrival {send : Nat} {s : State} (h : Formed s) : OutFormed (execSendArrival send s) := by
  unfold execSendArrival
  split
  · exact outFormed_ite (outFormed_refused _) (outFormed_next (formed_arriveSend h))
  · exact outFormed_refused _

theorem formed_execSendMoved {send : Nat} {s : State} (h : Formed s) : OutFormed (execSendMoved send s) := by
  unfold execSendMoved
  split
  · exact outFormed_ite (outFormed_next (formed_onSend h)) (outFormed_refused _)
  · exact outFormed_refused _

theorem formed_landStatus {i : Nat} {x : Send} {code : Nat} {s : State} (h : Formed s) : Formed (landStatus i x code s) := by
  unfold landStatus
  refine formed_ite ?_ (formed_onGroup (formed_mk h))
  split
  · exact formed_queueMsg (formed_mk h)
  · exact formed_mk h

theorem formed_execSendStatusReply {send : Nat} {far : Option (BitVec 3)} {s : State} (h : Formed s)
    : OutFormed (execSendStatusReply send far s) := by
  unfold execSendStatusReply
  split
  · split
    · exact outFormed_next (formed_landStatus (formed_ite h (formed_crossBack h)))
    · exact outFormed_refused _
  · exact outFormed_refused _

theorem formed_messageToSaved {tsa n : Nat} {bs : List Byte} {s : State} (h : Formed s) : Formed (messageToSaved tsa n bs s).2 := by
  unfold messageToSaved
  dsimp only
  split
  · exact formed_onMem (wf_putNat (wf_storeRange h _ _) _ _ _)
  · exact h

theorem formed_messageToCore {h' n : Nat} {bs : List Byte} {s : State} (h : Formed s) : Formed (messageToCore h' n bs s).2 := by
  unfold messageToCore
  dsimp only
  split
  · exact formed_onTeam h
  · exact h

theorem formed_relayMessage {i : Nat} {x : Send} {s : State} (h : Formed s) : Formed (relayMessage i x s) := by
  unfold relayMessage
  refine formed_ite (formed_answer h) ?_
  dsimp only
  exact formed_answer (formed_ite_snd (formed_messageToSaved h) (formed_messageToCore h))

theorem formed_execMessageAtRelay {send : Nat} {s : State} (h : Formed s) : OutFormed (execMessageAtRelay send s) := by
  unfold execMessageAtRelay
  split
  · refine outFormed_next ?_
    refine formed_ite (formed_answer h) ?_
    split
    · exact formed_routeSend (formed_crossSend h)
    · exact formed_relayMessage (formed_crossSend h)
  · exact outFormed_refused _

theorem formed_setMove {c h' : Nat} {move : Bool} {s : State} (h : Formed s) : Formed (setMove c h' move s) := by
  unfold setMove
  exact formed_setTlt h

theorem formed_finishEvict {h' tsa k : Nat} {s : State} (h : Formed s) : Formed (finishEvict h' tsa k s) := by
  unfold finishEvict
  exact formed_onGroup (formed_putCused (formed_setTlt (formed_sweepWaits (formed_mk h))))

theorem formed_putTsa {pa : Nat} {bs : List Byte} {s : State} (h : Formed s) : Formed (putTsa pa bs s) := by
  unfold putTsa
  exact formed_ite h (formed_onMem (wf_storeRange h _ _))

theorem formed_writeTsa {h' tsa : Nat} {s : State} (h : Formed s) : Formed (writeTsa h' tsa s) := by
  unfold writeTsa
  exact formed_ite (formed_foldl (fun t1 x2 h3 => formed_putTsa h3) (formed_putTsa (formed_foldl (fun t1 x2 h3 => formed_putTsa h3)
      (formed_foldl (fun t1 x2 h3 => formed_putTsa h3) (formed_putTsa (formed_mk h)))))) (formed_putTsa (formed_foldl (fun t1 x2 h3 =>
      formed_putTsa h3) (formed_foldl (fun t1 x2 h3 => formed_putTsa h3) (formed_putTsa (formed_mk h)))))

theorem formed_evictStep {s : State} {h' : Nat} (h : Formed s) : OptFormed (evictStep s h') := by
  unfold evictStep
  dsimp only
  split
  · exact optFormed_none
  · split
    · exact optFormed_none
    · exact optFormed_ite (optFormed_ite (optFormed_some (formed_setMove h)) optFormed_none) (optFormed_ite optFormed_none (optFormed_some
          (formed_finishEvict (formed_writeTsa (formed_ite (formed_record h) h)))))

theorem formed_execTeamEviction {team : Nat} {s : State} (h : Formed s) : OutFormed (execTeamEviction team s) := by
  unfold execTeamEviction
  split
  · exact outFormed_next ((formed_evictStep h) _ ‹_›)
  · exact outFormed_refused _

theorem formed_setCarve {core carve : Nat} {s : State} (h : Formed s) : Formed (setCarve core carve s) := by
  unfold setCarve
  exact formed_ite h (formed_dropL1 (formed_onCore h))

theorem formed_restoreSlot {h' : Nat} {e : Nat × WSlot} {s : State} (h : Formed s) : Formed (restoreSlot h' e s) := by
  unfold restoreSlot
  dsimp only
  split
  · exact h
  · refine formed_ite ?_ (formed_onTeam h)
    split
    · exact formed_onTeam h
    · exact formed_onTeam (formed_draw h)

theorem formed_applyDrift {h' a : Nat} {s : State} (h : Formed s) : Formed (applyDrift h' a s) := by
  unfold applyDrift
  exact formed_onGroup h

theorem formed_applyLog {h' tsa : Nat} {s : State} (h : Formed s) : Formed (applyLog h' tsa s) := by
  unfold applyLog
  exact formed_putTsa (formed_foldl (fun t1 x2 h3 => formed_applyDrift h3) h)

theorem formed_cacheRcb {die c r : Nat} {s : State} (h : Formed s) : Formed (cacheRcb die c r s) := by
  unfold cacheRcb
  exact formed_onDie h

theorem formed_endDrain {die posted : Nat} {s : State} (h : Formed s) : Formed (endDrain die posted s) := by
  unfold endDrain
  exact formed_mk (formed_foldl (fun t1 x2 h3 => formed_onCore h3) h)

theorem formed_restoreTeam {die slot h' core : Nat} {s : State} (h : Formed s) : Formed (restoreTeam die slot h' core s) := by
  unfold restoreTeam
  dsimp only
  split
  · exact formed_endDrain (formed_foldl (fun t1 x2 h3 => formed_cacheRcb h3) (formed_putCused (formed_onDie (formed_setTlt
        (formed_applyLog (formed_dropL1 (formed_foldl (fun t1 x2 h3 => formed_restoreSlot h3) (formed_mk (formed_setCarve h)))))))))
  · exact h

theorem formed_execTeamRestore {team : Nat} {s : State} (h : Formed s) : OutFormed (execTeamRestore team s) := by
  unfold execTeamRestore
  split
  · exact outFormed_next (formed_restoreTeam h)
  · exact outFormed_refused _

theorem formed_writeFlue {die : Nat} {r : FlueRec} {s : State} (h : Formed s) : Formed (writeFlue die r s) := by
  unfold writeFlue
  exact formed_ite (formed_dropFlue h) (formed_ite (formed_dropFlue h) (formed_ite (formed_raiseMsi (formed_onMem (wf_putNat
      (wf_storeRange h _ _) _ _ _))) (formed_onMem (wf_putNat (wf_storeRange h _ _) _ _ _))))

theorem formed_execFlueRecordWrite {die : BitVec 3} {s : State} (h : Formed s) : OutFormed (execFlueRecordWrite die s) := by
  unfold execFlueRecordWrite
  split
  · exact outFormed_next (formed_writeFlue (formed_onDie h))
  · exact outFormed_refused _

theorem formed_invalidate {core word i k : Nat} {s : State} (h : Formed s) : Formed (invalidate core word i k s) := by
  unfold invalidate
  exact formed_onGroup (formed_onCore h)

theorem formed_execResidencyInvalidation {core word : Nat} {s : State} (h : Formed s)
    : OutFormed (execResidencyInvalidation core word s) := by
  unfold execResidencyInvalidation
  dsimp only
  split
  · exact outFormed_next (formed_invalidate h)
  · exact outFormed_refused _

theorem formed_execSnapTriggerRoot {s : State} (h : Formed s) : OutFormed (execSnapTriggerRoot s) := by
  unfold execSnapTriggerRoot
  exact outFormed_ite (outFormed_next (formed_rootTrigger h)) (outFormed_refused _)

theorem formed_latchSnap {d : Nat} {s : State} (h : Formed s) : Formed (latchSnap d s) := by
  unfold latchSnap
  dsimp only
  split
  · exact h
  · exact formed_mk h

theorem formed_execSnapshotLatch {die : BitVec 4} {s : State} (h : Formed s) : OutFormed (execSnapshotLatch die s) := by
  unfold execSnapshotLatch
  exact outFormed_ite (outFormed_refused _) (outFormed_next (formed_latchSnap h))

theorem formed_enterRing {die : Nat} {r : MeshReq} {c : Card} {s : State} (h : Formed s) : Formed (enterRing die r c s) := by
  unfold enterRing
  dsimp only
  split
  · exact formed_onGroup (formed_onDie h)
  · exact formed_onDie h

theorem formed_execMeshRingEntry {die : BitVec 3} {s : State} (h : Formed s) : OutFormed (execMeshRingEntry die s) := by
  unfold execMeshRingEntry
  split
  · exact outFormed_next (formed_enterRing h)
  · exact outFormed_refused _

theorem formed_onCard {die slot : Nat} {f : Card → Card} {s : State} (h : Formed s) : Formed (onCard die slot f s) := by
  unfold onCard
  exact formed_onDie h

theorem formed_requestMesh {die slot : Nat} {c : Card} {i : Nat} {s : State} (h : Formed s) : Formed (requestMesh die slot c i s) := by
  unfold requestMesh
  exact formed_onDie (formed_useRing h)

theorem formed_endTile {d key : Nat} {s : State} (h : Formed s) : Formed (endTile d key s) := by
  unfold endTile
  dsimp only
  split
  · exact h
  · split
    · exact h
    · exact formed_ite h (formed_onTeam (formed_onDie h))

theorem formed_endTiles {d : Nat} {s : State} (h : Formed s) : Formed (endTiles d s) := by
  unfold endTiles
  exact formed_foldl (fun t1 x2 h3 => formed_endTile h3) h

theorem formed_execDrawEndMarker {die : BitVec 3} {s : State} (h : Formed s) : OutFormed (execDrawEndMarker die s) := by
  unfold execDrawEndMarker
  dsimp only
  split
  · exact outFormed_next (formed_endTiles (formed_onDie (formed_crossTo h)))
  · exact outFormed_refused _

theorem formed_tellOwner {o : Option (Nat × Nat × Tile)} {s : State} (h : Formed s) : Formed (tellOwner o s) := by
  unfold tellOwner
  dsimp only
  split
  · exact h
  · split
    · exact formed_mk (formed_dropLate (formed_onDie h))
    · exact formed_dropLate (formed_onDie h)

theorem formed_emit {v : Nat} {ps : List (List Byte)} {s : State} (h : Formed s) : Formed (emit v ps s) := by
  unfold emit
  exact formed_ite (formed_queueFlits h) h

theorem formed_emitTile {v : Nat} {g : StripGeo} {tx ty : Nat} {kind : Option Nat} {px : List Byte} {s : State} (h : Formed s)
    : Formed (emitTile v g tx ty kind px s) := by
  unfold emitTile
  exact formed_emit (formed_onView h)

theorem formed_writeHistory {v : Nat} {s : State} (h : Formed s) : Formed (writeHistory v s) := by
  unfold writeHistory
  exact formed_ite h (formed_ite h (formed_onView (formed_foldl (fun t1 x2 h3 => formed_writeVia h3) h)))

theorem formed_settleCounts {s : State} (h : Formed s) : Formed (settleCounts s) := by
  unfold settleCounts
  exact formed_mk h

theorem formed_takeSeal {x : Seal} {s : State} (h : Formed s) : Formed (takeSeal x s) := by
  unfold takeSeal
  exact formed_ite (formed_emitTile (formed_onView h)) (formed_onView h)

theorem formed_execSealArrival {s : State} (h : Formed s) : OutFormed (execSealArrival s) := by
  unfold execSealArrival
  dsimp only
  split
  · exact outFormed_next (formed_takeSeal (formed_mk h))
  · exact outFormed_refused _

theorem formed_execReplacementNotice {team : Nat} {s : State} (h : Formed s) : OutFormed (execReplacementNotice team s) := by
  unfold execReplacementNotice
  dsimp only
  split
  · exact outFormed_next (formed_onTeam (formed_mk h))
  · exact outFormed_refused _

theorem formed_landLine {r : Req} {s : State} (h : Formed s) : Formed (landLine r s) := by
  unfold landLine
  refine formed_ite h ?_
  dsimp only
  split
  · split
    · exact formed_ite h (formed_onCore h)
    · exact h
  · exact formed_onCore h
  · exact formed_onCore h
  · exact formed_onCore h
  · split
    · exact formed_fillL1 h
    · exact h

theorem formed_failFill {ecc : Bool} {s : State} {i : Nat} (h : Formed s) : Formed (failFill ecc s i) := by
  unfold failFill
  split
  · exact h
  · exact formed_ite (formed_failReq h) (formed_performAt h)

theorem formed_execCoreReset {core : Nat} {s : State} (h : Formed s) : OutFormed (execCoreReset core s) := by
  unfold execCoreReset
  exact outFormed_ite (outFormed_next (formed_onCore h)) (outFormed_refused _)

theorem formed_execRetrainingAttemptFailure {link : LinkId} {s : State} (h : Formed s)
    : OutFormed (execRetrainingAttemptFailure link s) := by
  unfold execRetrainingAttemptFailure
  dsimp only
  split
  · exact outFormed_ite (outFormed_next (formed_beginRetrain h)) (outFormed_ite (outFormed_next (formed_setLink h)) (outFormed_refused _))
  · exact outFormed_refused _

theorem formed_State_reset : Formed (State.reset) := by
  unfold State.reset
  exact formed_mk (wf_mk wf_nil)

theorem formed_takeIrq {cc : Nat} {sup : Bool} {s : State} (h : Formed s) : OptFormed (takeIrq cc sup s) := by
  unfold takeIrq
  refine optFormed_ite optFormed_none ?_
  dsimp only
  split
  · exact optFormed_some (formed_mk h)
  · exact optFormed_none

theorem formed_ctlZero {cc : Nat} {op : ReqOp} {s : State} (h : Formed s) : Formed (ctlZero cc op s) := by
  unfold ctlZero
  exact formed_ite (formed_mk (formed_onMem (wf_mk h))) (formed_onMem (wf_mk h))

theorem formed_ctlAccess {cc pa size : Nat} {op : ReqOp} {data : Nat} {s : State} (h : Formed s)
    : Formed (ctlAccess cc pa size op data s) := by
  unfold ctlAccess
  exact formed_ite (formed_putReq h) (formed_ctlZero (formed_record h))

theorem formed_startDrain {die : Nat} {c : Card} {cores : List Nat} {s : State} (h : Formed s) : Formed (startDrain die c cores s) := by
  unfold startDrain
  exact formed_mk (formed_foldl (fun t1 x2 h3 => formed_onCore h3) h)

theorem formed_takePlan {die : Nat} {p : Plan} {s : State} (h : Formed s) : Formed (takePlan die p s) := by
  unfold takePlan
  exact formed_onDie h

theorem formed_bindTile {h' : Nat} {s : State} (h : Formed s) : Formed (bindTile h' s) := by
  unfold bindTile
  dsimp only
  split
  · exact formed_endTile (formed_onDie (formed_onTeam h))
  · exact h

theorem formed_placeTeam {die : Nat} {p : Plan} {core : Nat} {s : State} (h : Formed s) : Formed (placeTeam die p core s) := by
  unfold placeTeam
  dsimp only
  split
  · exact formed_bindTile (formed_foldl (fun t1 x2 h3 => formed_cacheRcb h3) (formed_putCused (formed_dropL1 (formed_mk (formed_onDie
        (formed_takePlan (formed_setTlt (formed_setCarve h))))))))
  · exact h

theorem formed_chooseMove {s : State} (h : Formed s) : Formed (chooseMove s).2 := by
  unfold chooseMove
  split
  · exact h
  · exact h
  · exact formed_mk h

theorem formed_lookForTokens {s : State} (h : Formed s) : Formed (lookForTokens s) := by
  unfold lookForTokens
  exact formed_mk h

theorem formed_countTime {s : State} (h : Formed s) : Formed (countTime s) := by
  unfold countTime
  exact formed_ite h (formed_ite (formed_countLife (formed_foldl (fun t1 x2 h3 => formed_countLife h3) h)) (formed_foldl (fun t1 x2 h3 =>
      formed_countLife h3) h))

theorem formed_withToken {core : Nat} {s : State} (h : Formed s) : Formed (withToken core s) := by
  unfold withToken
  exact formed_onDie h

theorem formed_ctlDo {cc : Nat} {op : CtlOp} {s : State} (h : Formed s) : OptFormed (ctlDo cc op s) := by
  unfold ctlDo
  refine optFormed_ite optFormed_none ?_
  dsimp only
  split
  · exact optFormed_ite (optFormed_some (formed_ctlAccess h)) optFormed_none
  · exact optFormed_ite (optFormed_some (formed_ctlAccess h)) optFormed_none
  · exact optFormed_ite (optFormed_some (formed_ctlAccess h)) optFormed_none
  · exact optFormed_ite (optFormed_some h) optFormed_none
  · exact optFormed_some (formed_mk h)
  · exact optFormed_some (formed_mk (formed_freshId h))
  · exact optFormed_ite (optFormed_some (formed_mk h)) optFormed_none
  · exact optFormed_some (formed_mk h)
  · exact optFormed_some (formed_mk h)
  · exact formed_takeIrq h

theorem formed_takeTemperature {die : Nat} {t : BitVec 8} {s : State} (h : Formed s) : Formed (takeTemperature die t s) := by
  unfold takeTemperature
  exact formed_ite (formed_setTemp h) h

theorem formed_takeError {p : EccPlace} {e : EccErr} {s : State} (h : Formed s) : Formed (takeError p e s) := by
  unfold takeError
  exact formed_onMem (wf_mk h)

theorem formed_freeRetired {s : State} {die : Nat} (h : Formed s) : Formed (freeRetired s die) := by
  unfold freeRetired
  exact formed_foldl (fun t1 x2 h3 => formed_freeCard h3) h

theorem formed_tick {s : State} (h : Formed s) : Formed (tick s) := by
  unfold tick
  exact formed_countTime (formed_foldl (fun t1 x2 h3 => formed_freeRetired (formed_keepFirsts h3)) (formed_mk (formed_lookForTokens h)))

theorem formed_recordRcb {die c h' : Nat} {s : State} (h : Formed s) : Formed (recordRcb die c h' s) := by
  unfold recordRcb
  exact formed_record (formed_onDie h)

theorem formed_withoutCores {cores : List Nat} {s : State} (h : Formed s) : Formed (withoutCores cores s) := by
  unfold withoutCores
  exact formed_mk h

theorem wf_countWrite {la : Nat} {m : Mem} (h : Memory.wf m.hbm) : Memory.wf (countWrite la m).hbm := by
  unfold countWrite
  exact h

/-! The words and their instructions, the registers, the links, and the commands of the host. A word whose definition matches on a
translation or a range is unfolded at its name alone, so that the kernel compares the two sides as they are written and does not evaluate
them. -/

theorem formed_commitWord {w : WordOut} (hw : w.Forms) (h : Formed s) : Formed (commitWord w s) := by
  unfold commitWord
  dsimp only
  split
  · rename_i f hf
    exact hw.ctl f hf (hw.effect (formed_acquireUses h))
  · exact hw.effect (formed_acquireUses h)

theorem formed_issue {sem : Group → State → WordOut} {s : State} (h_sem : ∀ x0 t1, WordOut.Forms (sem x0 t1)) (h_s : Formed s)
    : OutFormed (issue sem s) := by
  unfold issue
  dsimp only
  split
  · exact outFormed_fault _
  · split
    · exact outFormed_ite (outFormed_next (formed_holdIssue (formed_unwant h_s))) (outFormed_ite (outFormed_next (formed_holdIssue ((h_sem
          _ _).onStall (formed_unwant h_s)))) (outFormed_ite (outFormed_next (formed_failChain ((h_sem _ _).onFault (formed_unwant h_s))))
          (outFormed_ite (outFormed_next (formed_awaitWord ((h_sem _ _).onAwait (formed_acquireUses (formed_unwant h_s)))))
          (outFormed_next (formed_takeNexts ((h_sem _ _).last (formed_commitWord (h_sem _ _) (formed_advance (formed_unwant h_s)))))))))
    · exact outFormed_next (formed_mk h_s)
    · exact outFormed_next (formed_mk (formed_commitWord (h_sem _ _) h_s))
    · exact outFormed_next ((h_sem _ _).last h_s)
    · exact outFormed_next ((h_sem _ _).onFault h_s)
    · exact outFormed_next (formed_ite ((h_sem _ _).onStall h_s) ((h_sem _ _).onAwait (formed_ite (formed_acquireUses h_s) h_s)))

theorem formed_execCvt {c x : Bool} {t : BitVec 3} {d a : BitVec 7} {r sb : BitVec 3} {s : State} (h : Formed s)
    : OutFormed (execCvt c x t d a r sb s) := by
  unfold execCvt
  exact formed_issue (fun x1 t2 => forms_cvtWord) h

theorem formed_execSetix {c : Bool} {a : BitVec 6} {s : State} (h : Formed s) : OutFormed (execSetix c a s) := by
  unfold execSetix
  exact formed_issue (fun x1 t2 => forms_setIxWord) h

theorem formed_wakeAll {act : Bool} (ks : List Nat) : ∀ {s : State}, Formed s → Formed (wakeAll act ks s) := by
  induction ks with
  | nil => exact fun h => h
  | cons k ks ih => exact fun h => ih (formed_wake h)

theorem formed_writeWtreplay {d : Nat} {w : Dword} {s : State} (h : Formed s) : Formed (writeWtreplay d w s) := by
  unfold writeWtreplay
  exact formed_ite h (formed_sweepWaits (formed_wakeAll _ (formed_wakeAll _ h)))

theorem wf_countSlice {pa : Nat} {get : Mem → AMap Nat} {put : AMap Nat → Mem → Mem} {m : Mem} (hput : ∀ c, Memory.wf (put c m).hbm)
    (h : Memory.wf m.hbm) : Memory.wf (countSlice pa get put m).hbm := by
  unfold countSlice
  split
  · exact hput _
  · exact h

theorem wf_countHit {pa : Nat} {m : Mem} (h : Memory.wf m.hbm) : Memory.wf (countHit pa m).hbm := wf_countSlice (fun _ => wf_mk h) h

theorem wf_countMiss {pa : Nat} {m : Mem} (h : Memory.wf m.hbm) : Memory.wf (countMiss pa m).hbm := wf_countSlice (fun _ => wf_mk h) h

theorem formed_readLine {s : State} {la : Nat} (h : Formed s) : Formed (readLine s la) := by
  unfold readLine
  exact formed_ite (formed_onMem (wf_countHit h)) (formed_fillLlc (formed_onMem (wf_countFill (wf_countMiss h))))

theorem formed_readLines {pa n : Nat} {s : State} (h : Formed s) : Formed (readLines pa n s) := by
  unfold readLines
  exact formed_ite (formed_meetRange h) (formed_foldl (fun t1 x2 h3 => formed_readLine h3) (formed_meetRange h))

theorem formed_readVia {inp : Nat} {tc : BitVec 2} {pa n : Nat} {s : State} (h : Formed s) : Formed (readVia inp tc pa n s) := by
  unfold readVia
  exact formed_readLines (formed_crossLines h)

theorem formed_writeDspost {d cc : Nat} {w : Dword} {s : State} (h : Formed s) : Formed (writeDspost d cc w s) := by
  unfold writeDspost
  refine formed_ite (formed_record h) ?_
  dsimp only
  split
  · exact formed_record (formed_ite (formed_readVia h) h)
  · exact formed_ite (formed_record (formed_ite (formed_readVia h) h)) (formed_onDie (formed_ite (formed_readVia h) h))

theorem formed_beginSwitches (n : Nat) : ∀ {s : State}, Formed s → Formed (beginSwitches n s) := by
  induction n with
  | zero => exact fun h => h
  | succ n ih =>
    intro s h
    unfold beginSwitches
    split
    · dsimp only
      split
      · exact ih (formed_answerSwitch (formed_onMem (wf_mk h)))
      · exact formed_onMem (wf_mk (formed_onMem (wf_mk h)))
    · exact h

theorem formed_startDomsw {k : Nat} {s : State} (h : Formed s) : Formed (startDomsw k s) := by
  unfold startDomsw
  exact formed_beginSwitches _ (formed_queueSwitch (formed_onMem (wf_mk h)))

theorem formed_writeDomsw {w : Nat} {s : State} (h : Formed s) : Formed (writeDomsw w s) := by
  unfold writeDomsw
  exact formed_ite (formed_onMem (wf_mk h)) (formed_startDomsw h)

theorem formed_writeReg {cc : Nat} {r : Reg} {n : Nat} {s : State} (h : Formed s) : Formed (writeReg cc r n s) := by
  unfold writeReg
  dsimp only
  split
  · exact formed_writeDsctl h
  · exact formed_writeRcbinv h
  · exact formed_writeWtreplay h
  · exact formed_writeNrbase h
  · exact formed_onDie h
  · exact formed_onDie h
  · exact formed_writeEmbctl h
  · exact formed_writeSnapctl h
  · exact formed_writeDspost h
  · exact formed_writeThermctl h
  · exact formed_writeDctr h
  · exact formed_writeFw h
  · exact formed_ite (formed_writeLcctl h) h
  · exact formed_mk h
  · exact formed_writeCtxcmd h
  · exact formed_writeDomsw h
  · exact formed_onMem (wf_mk h)
  · exact formed_onMem (wf_mk h)
  · exact formed_writeSerclk h
  · exact formed_mk h
  · exact formed_mk h
  · exact formed_writeGaze h
  · exact formed_writeVob h
  · exact formed_writeVrec h
  · exact formed_writeFrtab h
  · exact formed_mk h
  · exact formed_mk h
  · exact h
  · exact h
  · exact h
  · exact h
  · exact h

theorem formed_devStore {cc pa size n : Nat} {s : State} (h : Formed s) : Formed (devStore cc pa size n s) := by
  unfold devStore
  refine formed_ite h ?_
  split
  · exact h
  · exact formed_ite (formed_setPending h) h
  · exact formed_ite h (formed_writeReg h)

theorem formed_devAccess {i : Nat} {r : Req} {s : State} (h : Formed s) : Formed (devAccess i r s) := by
  unfold devAccess
  split
  · split
    · exact formed_record h
    · exact formed_devStore h
  · exact formed_onReq h

theorem formed_fetchFor {g : Group} {k : Nat} {s : State} (h : Formed s) : Formed (fetchFor g k s).2 := by
  unfold fetchFor
  dsimp only
  split
  · exact h
  · refine formed_ite_snd h ?_
    refine formed_ite_snd h ?_
    split
    · exact h
    · refine formed_ite_snd h ?_
      refine formed_ite_snd h ?_
      split
      · exact h
      · exact formed_ite_snd (formed_readVia h) (formed_ite_snd h (formed_onGroup (formed_onCore (formed_keepTr (formed_ite
            (formed_readVia h) h)))))

theorem formed_fetchBlock {k : Nat} {s : State} (h : Formed s) : Formed (fetchBlock k s).2 := by
  unfold fetchBlock
  exact formed_fetchFor h

theorem formed_after {o : Out} (h : Formed s) (ho : OutFormed o) : Formed (after s o) := by
  unfold after
  split
  · exact ho _ rfl
  · exact h

theorem formed_execNop {c : Bool} {s : State} (h : Formed s) : OutFormed (execNop c s) := by
  unfold execNop
  exact formed_issue (fun x1 t2 => forms_still) h

theorem formed_execLit {c : Bool} {l : BitVec 25} {s : State} (h : Formed s) : OutFormed (execLit c l s) := by
  unfold execLit
  exact formed_issue (fun x1 t2 => forms_still) h

theorem formed_execIadd {c x : Bool} {d a b : BitVec 7} {s : State} (h : Formed s) : OutFormed (execIadd c x d a b s) := by
  unfold execIadd
  exact formed_issue (fun x1 t2 => forms_lane2) h

theorem formed_execIsub {c x : Bool} {d a b : BitVec 7} {s : State} (h : Formed s) : OutFormed (execIsub c x d a b s) := by
  unfold execIsub
  exact formed_issue (fun x1 t2 => forms_lane2) h

theorem formed_execIminS {c x : Bool} {d a b : BitVec 7} {s : State} (h : Formed s) : OutFormed (execIminS c x d a b s) := by
  unfold execIminS
  exact formed_issue (fun x1 t2 => forms_lane2) h

theorem formed_execIminN {c x : Bool} {d a b : BitVec 7} {s : State} (h : Formed s) : OutFormed (execIminN c x d a b s) := by
  unfold execIminN
  exact formed_issue (fun x1 t2 => forms_lane2) h

theorem formed_execImaxS {c x : Bool} {d a b : BitVec 7} {s : State} (h : Formed s) : OutFormed (execImaxS c x d a b s) := by
  unfold execImaxS
  exact formed_issue (fun x1 t2 => forms_lane2) h

theorem formed_execImaxN {c x : Bool} {d a b : BitVec 7} {s : State} (h : Formed s) : OutFormed (execImaxN c x d a b s) := by
  unfold execImaxN
  exact formed_issue (fun x1 t2 => forms_lane2) h

theorem formed_execIaddc {c x : Bool} {d a b : BitVec 7} {s : State} (h : Formed s) : OutFormed (execIaddc c x d a b s) := by
  unfold execIaddc
  exact formed_issue (fun x1 t2 => forms_carryWord) h

theorem formed_execIsubb {c x : Bool} {d a b : BitVec 7} {s : State} (h : Formed s) : OutFormed (execIsubb c x d a b s) := by
  unfold execIsubb
  exact formed_issue (fun x1 t2 => forms_carryWord) h

theorem formed_execIaddScalarB {c x : Bool} {d a : BitVec 7} {sb : BitVec 6} {s : State} (h : Formed s)
    : OutFormed (execIaddScalarB c x d a sb s) := by
  unfold execIaddScalarB
  exact formed_issue (fun x1 t2 => forms_laneS) h

theorem formed_execIsubScalarB {c x : Bool} {d a : BitVec 7} {sb : BitVec 6} {s : State} (h : Formed s)
    : OutFormed (execIsubScalarB c x d a sb s) := by
  unfold execIsubScalarB
  exact formed_issue (fun x1 t2 => forms_laneS) h

theorem formed_execIminSScalarB {c x : Bool} {d a : BitVec 7} {sb : BitVec 6} {s : State} (h : Formed s)
    : OutFormed (execIminSScalarB c x d a sb s) := by
  unfold execIminSScalarB
  exact formed_issue (fun x1 t2 => forms_laneS) h

theorem formed_execIminNScalarB {c x : Bool} {d a : BitVec 7} {sb : BitVec 6} {s : State} (h : Formed s)
    : OutFormed (execIminNScalarB c x d a sb s) := by
  unfold execIminNScalarB
  exact formed_issue (fun x1 t2 => forms_laneS) h

theorem formed_execImaxSScalarB {c x : Bool} {d a : BitVec 7} {sb : BitVec 6} {s : State} (h : Formed s)
    : OutFormed (execImaxSScalarB c x d a sb s) := by
  unfold execImaxSScalarB
  exact formed_issue (fun x1 t2 => forms_laneS) h

theorem formed_execImaxNScalarB {c x : Bool} {d a : BitVec 7} {sb : BitVec 6} {s : State} (h : Formed s)
    : OutFormed (execImaxNScalarB c x d a sb s) := by
  unfold execImaxNScalarB
  exact formed_issue (fun x1 t2 => forms_laneS) h

theorem formed_execIaddcScalarB {c x : Bool} {d a : BitVec 7} {sb : BitVec 6} {s : State} (h : Formed s)
    : OutFormed (execIaddcScalarB c x d a sb s) := by
  unfold execIaddcScalarB
  exact formed_issue (fun x1 t2 => forms_carryWord) h

theorem formed_execIsubbScalarB {c x : Bool} {d a : BitVec 7} {sb : BitVec 6} {s : State} (h : Formed s)
    : OutFormed (execIsubbScalarB c x d a sb s) := by
  unfold execIsubbScalarB
  exact formed_issue (fun x1 t2 => forms_carryWord) h

theorem formed_execImul {c x : Bool} {d a b : BitVec 7} {s : State} (h : Formed s) : OutFormed (execImul c x d a b s) := by
  unfold execImul
  exact formed_issue (fun x1 t2 => forms_lane2) h

theorem formed_execImulhS {c x : Bool} {d a b : BitVec 7} {s : State} (h : Formed s) : OutFormed (execImulhS c x d a b s) := by
  unfold execImulhS
  exact formed_issue (fun x1 t2 => forms_lane2) h

theorem formed_execImulhN {c x : Bool} {d a b : BitVec 7} {s : State} (h : Formed s) : OutFormed (execImulhN c x d a b s) := by
  unfold execImulhN
  exact formed_issue (fun x1 t2 => forms_lane2) h

theorem formed_execImad {c x : Bool} {d a b : BitVec 7} {s : State} (h : Formed s) : OutFormed (execImad c x d a b s) := by
  unfold execImad
  exact formed_issue (fun x1 t2 => forms_lane3) h

theorem formed_execImadhS {c x : Bool} {d a b : BitVec 7} {s : State} (h : Formed s) : OutFormed (execImadhS c x d a b s) := by
  unfold execImadhS
  exact formed_issue (fun x1 t2 => forms_lane3) h

theorem formed_execImadhN {c x : Bool} {d a b : BitVec 7} {s : State} (h : Formed s) : OutFormed (execImadhN c x d a b s) := by
  unfold execImadhN
  exact formed_issue (fun x1 t2 => forms_lane3) h

theorem formed_execIabs {c x : Bool} {d a : BitVec 7} {s : State} (h : Formed s) : OutFormed (execIabs c x d a s) := by
  unfold execIabs
  exact formed_issue (fun x1 t2 => forms_lane1) h

theorem formed_execIneg {c x : Bool} {d a : BitVec 7} {s : State} (h : Formed s) : OutFormed (execIneg c x d a s) := by
  unfold execIneg
  exact formed_issue (fun x1 t2 => forms_lane1) h

theorem formed_execAnd {c x : Bool} {d a b : BitVec 7} {s : State} (h : Formed s) : OutFormed (execAnd c x d a b s) := by
  unfold execAnd
  exact formed_issue (fun x1 t2 => forms_lane2) h

theorem formed_execOr {c x : Bool} {d a b : BitVec 7} {s : State} (h : Formed s) : OutFormed (execOr c x d a b s) := by
  unfold execOr
  exact formed_issue (fun x1 t2 => forms_lane2) h

theorem formed_execXor {c x : Bool} {d a b : BitVec 7} {s : State} (h : Formed s) : OutFormed (execXor c x d a b s) := by
  unfold execXor
  exact formed_issue (fun x1 t2 => forms_lane2) h

theorem formed_execAndn {c x : Bool} {d a b : BitVec 7} {s : State} (h : Formed s) : OutFormed (execAndn c x d a b s) := by
  unfold execAndn
  exact formed_issue (fun x1 t2 => forms_lane2) h

theorem formed_execOrn {c x : Bool} {d a b : BitVec 7} {s : State} (h : Formed s) : OutFormed (execOrn c x d a b s) := by
  unfold execOrn
  exact formed_issue (fun x1 t2 => forms_lane2) h

theorem formed_execPopc {c x : Bool} {d a : BitVec 7} {s : State} (h : Formed s) : OutFormed (execPopc c x d a s) := by
  unfold execPopc
  exact formed_issue (fun x1 t2 => forms_lane1) h

theorem formed_execClz {c x : Bool} {d a : BitVec 7} {s : State} (h : Formed s) : OutFormed (execClz c x d a s) := by
  unfold execClz
  exact formed_issue (fun x1 t2 => forms_lane1) h

theorem formed_execCtz {c x : Bool} {d a : BitVec 7} {s : State} (h : Formed s) : OutFormed (execCtz c x d a s) := by
  unfold execCtz
  exact formed_issue (fun x1 t2 => forms_lane1) h

theorem formed_execAndScalarB {c x : Bool} {d a : BitVec 7} {sb : BitVec 6} {s : State} (h : Formed s)
    : OutFormed (execAndScalarB c x d a sb s) := by
  unfold execAndScalarB
  exact formed_issue (fun x1 t2 => forms_laneS) h

theorem formed_execOrScalarB {c x : Bool} {d a : BitVec 7} {sb : BitVec 6} {s : State} (h : Formed s)
    : OutFormed (execOrScalarB c x d a sb s) := by
  unfold execOrScalarB
  exact formed_issue (fun x1 t2 => forms_laneS) h

theorem formed_execXorScalarB {c x : Bool} {d a : BitVec 7} {sb : BitVec 6} {s : State} (h : Formed s)
    : OutFormed (execXorScalarB c x d a sb s) := by
  unfold execXorScalarB
  exact formed_issue (fun x1 t2 => forms_laneS) h

theorem formed_execAndnScalarB {c x : Bool} {d a : BitVec 7} {sb : BitVec 6} {s : State} (h : Formed s)
    : OutFormed (execAndnScalarB c x d a sb s) := by
  unfold execAndnScalarB
  exact formed_issue (fun x1 t2 => forms_laneS) h

theorem formed_execOrnScalarB {c x : Bool} {d a : BitVec 7} {sb : BitVec 6} {s : State} (h : Formed s)
    : OutFormed (execOrnScalarB c x d a sb s) := by
  unfold execOrnScalarB
  exact formed_issue (fun x1 t2 => forms_laneS) h

theorem formed_execShl {c x : Bool} {d a b : BitVec 7} {s : State} (h : Formed s) : OutFormed (execShl c x d a b s) := by
  unfold execShl
  exact formed_issue (fun x1 t2 => forms_lane2) h

theorem formed_execShr {c x : Bool} {d a b : BitVec 7} {s : State} (h : Formed s) : OutFormed (execShr c x d a b s) := by
  unfold execShr
  exact formed_issue (fun x1 t2 => forms_lane2) h

theorem formed_execSar {c x : Bool} {d a b : BitVec 7} {s : State} (h : Formed s) : OutFormed (execSar c x d a b s) := by
  unfold execSar
  exact formed_issue (fun x1 t2 => forms_lane2) h

theorem formed_execRotl {c x : Bool} {d a b : BitVec 7} {s : State} (h : Formed s) : OutFormed (execRotl c x d a b s) := by
  unfold execRotl
  exact formed_issue (fun x1 t2 => forms_lane2) h

theorem formed_execBfeN {c x : Bool} {d a b : BitVec 7} {s : State} (h : Formed s) : OutFormed (execBfeN c x d a b s) := by
  unfold execBfeN
  exact formed_issue (fun x1 t2 => forms_lane2) h

theorem formed_execBfeS {c x : Bool} {d a b : BitVec 7} {s : State} (h : Formed s) : OutFormed (execBfeS c x d a b s) := by
  unfold execBfeS
  exact formed_issue (fun x1 t2 => forms_lane2) h

theorem formed_execBfi {c x : Bool} {d a b : BitVec 7} {s : State} (h : Formed s) : OutFormed (execBfi c x d a b s) := by
  unfold execBfi
  exact formed_issue (fun x1 t2 => forms_lane3) h

theorem formed_execBperm {c x : Bool} {d a b : BitVec 7} {s : State} (h : Formed s) : OutFormed (execBperm c x d a b s) := by
  unfold execBperm
  exact formed_issue (fun x1 t2 => forms_lane3) h

theorem formed_execIcmpEq {c x : Bool} {p : BitVec 3} {a b : BitVec 7} {s : State} (h : Formed s)
    : OutFormed (execIcmpEq c x p a b s) := by
  unfold execIcmpEq
  exact formed_issue (fun x1 t2 => forms_laneP) h

theorem formed_execIcmpNe {c x : Bool} {p : BitVec 3} {a b : BitVec 7} {s : State} (h : Formed s)
    : OutFormed (execIcmpNe c x p a b s) := by
  unfold execIcmpNe
  exact formed_issue (fun x1 t2 => forms_laneP) h

theorem formed_execIcmpLtS {c x : Bool} {p : BitVec 3} {a b : BitVec 7} {s : State} (h : Formed s)
    : OutFormed (execIcmpLtS c x p a b s) := by
  unfold execIcmpLtS
  exact formed_issue (fun x1 t2 => forms_laneP) h

theorem formed_execIcmpLeS {c x : Bool} {p : BitVec 3} {a b : BitVec 7} {s : State} (h : Formed s)
    : OutFormed (execIcmpLeS c x p a b s) := by
  unfold execIcmpLeS
  exact formed_issue (fun x1 t2 => forms_laneP) h

theorem formed_execIcmpGtS {c x : Bool} {p : BitVec 3} {a b : BitVec 7} {s : State} (h : Formed s)
    : OutFormed (execIcmpGtS c x p a b s) := by
  unfold execIcmpGtS
  exact formed_issue (fun x1 t2 => forms_laneP) h

theorem formed_execIcmpGeS {c x : Bool} {p : BitVec 3} {a b : BitVec 7} {s : State} (h : Formed s)
    : OutFormed (execIcmpGeS c x p a b s) := by
  unfold execIcmpGeS
  exact formed_issue (fun x1 t2 => forms_laneP) h

theorem formed_execIcmpLtN {c x : Bool} {p : BitVec 3} {a b : BitVec 7} {s : State} (h : Formed s)
    : OutFormed (execIcmpLtN c x p a b s) := by
  unfold execIcmpLtN
  exact formed_issue (fun x1 t2 => forms_laneP) h

theorem formed_execIcmpGeN {c x : Bool} {p : BitVec 3} {a b : BitVec 7} {s : State} (h : Formed s)
    : OutFormed (execIcmpGeN c x p a b s) := by
  unfold execIcmpGeN
  exact formed_issue (fun x1 t2 => forms_laneP) h

theorem formed_execSel {c x : Bool} {p : BitVec 3} {d a b : BitVec 7} {s : State} (h : Formed s) : OutFormed (execSel c x p d a b s) := by
  unfold execSel
  exact formed_issue (fun x1 t2 => forms_selWord) h

theorem formed_execMov {c x : Bool} {d a : BitVec 7} {s : State} (h : Formed s) : OutFormed (execMov c x d a s) := by
  unfold execMov
  exact formed_issue (fun x1 t2 => forms_lane1) h

theorem formed_execMov64 {c x : Bool} {d a : BitVec 7} {s : State} (h : Formed s) : OutFormed (execMov64 c x d a s) := by
  unfold execMov64
  exact formed_issue (fun x1 t2 => forms_mov64Word) h

theorem formed_execMovs {c x : Bool} {d : BitVec 7} {sb : BitVec 6} {s : State} (h : Formed s) : OutFormed (execMovs c x d sb s) := by
  unfold execMovs
  exact formed_issue (fun x1 t2 => forms_movsWord) h

theorem formed_execVrd {c x : Bool} {d a b : BitVec 7} {s : State} (h : Formed s) : OutFormed (execVrd c x d a b s) := by
  unfold execVrd
  exact formed_issue (fun x1 t2 => forms_vrdWord) h

theorem formed_execVwr {c x : Bool} {d a b : BitVec 7} {s : State} (h : Formed s) : OutFormed (execVwr c x d a b s) := by
  unfold execVwr
  exact formed_issue (fun x1 t2 => forms_vwrWord) h

theorem formed_execPmov {c x : Bool} {p : BitVec 3} {a : BitVec 7} {s : State} (h : Formed s) : OutFormed (execPmov c x p a s) := by
  unfold execPmov
  exact formed_issue (fun x1 t2 => forms_pmovWord) h

theorem formed_execPget {c x : Bool} {d : BitVec 7} {p : BitVec 3} {s : State} (h : Formed s) : OutFormed (execPget c x d p s) := by
  unfold execPget
  exact formed_issue (fun x1 t2 => forms_pgetWord) h

theorem formed_execIaddi {c x : Bool} {d a : BitVec 7} {i : BitVec 10} {lit : Option (BitVec 25)} {s : State} (h : Formed s)
    : OutFormed (execIaddi c x d a i lit s) := by
  unfold execIaddi
  exact formed_issue (fun x1 t2 => forms_lane1) h

theorem formed_execMovi {c x : Bool} {d : BitVec 7} {i : BitVec 10} {lit : Option (BitVec 25)} {s : State} (h : Formed s)
    : OutFormed (execMovi c x d i lit s) := by
  unfold execMovi
  exact formed_issue (fun x1 t2 => forms_moviWord) h

theorem formed_execFadd {c x : Bool} {d a b : BitVec 7} {s : State} (h : Formed s) : OutFormed (execFadd c x d a b s) := by
  unfold execFadd
  exact formed_issue (fun x1 t2 => forms_laneEv2) h

theorem formed_execFsub {c x : Bool} {d a b : BitVec 7} {s : State} (h : Formed s) : OutFormed (execFsub c x d a b s) := by
  unfold execFsub
  exact formed_issue (fun x1 t2 => forms_laneEv2) h

theorem formed_execFmin {c x : Bool} {d a b : BitVec 7} {s : State} (h : Formed s) : OutFormed (execFmin c x d a b s) := by
  unfold execFmin
  exact formed_issue (fun x1 t2 => forms_laneEv2) h

theorem formed_execFmax {c x : Bool} {d a b : BitVec 7} {s : State} (h : Formed s) : OutFormed (execFmax c x d a b s) := by
  unfold execFmax
  exact formed_issue (fun x1 t2 => forms_laneEv2) h

theorem formed_execFabs {c x : Bool} {d a : BitVec 7} {s : State} (h : Formed s) : OutFormed (execFabs c x d a s) := by
  unfold execFabs
  exact formed_issue (fun x1 t2 => forms_lane1) h

theorem formed_execFneg {c x : Bool} {d a : BitVec 7} {s : State} (h : Formed s) : OutFormed (execFneg c x d a s) := by
  unfold execFneg
  exact formed_issue (fun x1 t2 => forms_lane1) h

theorem formed_execFrnd {c x : Bool} {d a : BitVec 7} {s : State} (h : Formed s) : OutFormed (execFrnd c x d a s) := by
  unfold execFrnd
  exact formed_issue (fun x1 t2 => forms_laneEv1) h

theorem formed_execFract {c x : Bool} {d a : BitVec 7} {s : State} (h : Formed s) : OutFormed (execFract c x d a s) := by
  unfold execFract
  exact formed_issue (fun x1 t2 => forms_laneEv1) h

theorem formed_execFaddScalarB {c x : Bool} {d a : BitVec 7} {sb : BitVec 6} {s : State} (h : Formed s)
    : OutFormed (execFaddScalarB c x d a sb s) := by
  unfold execFaddScalarB
  exact formed_issue (fun x1 t2 => forms_laneEvS) h

theorem formed_execFsubScalarB {c x : Bool} {d a : BitVec 7} {sb : BitVec 6} {s : State} (h : Formed s)
    : OutFormed (execFsubScalarB c x d a sb s) := by
  unfold execFsubScalarB
  exact formed_issue (fun x1 t2 => forms_laneEvS) h

theorem formed_execFminScalarB {c x : Bool} {d a : BitVec 7} {sb : BitVec 6} {s : State} (h : Formed s)
    : OutFormed (execFminScalarB c x d a sb s) := by
  unfold execFminScalarB
  exact formed_issue (fun x1 t2 => forms_laneEvS) h

theorem formed_execFmaxScalarB {c x : Bool} {d a : BitVec 7} {sb : BitVec 6} {s : State} (h : Formed s)
    : OutFormed (execFmaxScalarB c x d a sb s) := by
  unfold execFmaxScalarB
  exact formed_issue (fun x1 t2 => forms_laneEvS) h

theorem formed_execFmul {c x : Bool} {d a b : BitVec 7} {s : State} (h : Formed s) : OutFormed (execFmul c x d a b s) := by
  unfold execFmul
  exact formed_issue (fun x1 t2 => forms_laneEv2) h

theorem formed_execFma {c x : Bool} {d a b : BitVec 7} {s : State} (h : Formed s) : OutFormed (execFma c x d a b s) := by
  unfold execFma
  exact formed_issue (fun x1 t2 => forms_laneEv3) h

theorem formed_execFms {c x : Bool} {d a b : BitVec 7} {s : State} (h : Formed s) : OutFormed (execFms c x d a b s) := by
  unfold execFms
  exact formed_issue (fun x1 t2 => forms_laneEv3) h

theorem formed_execFnma {c x : Bool} {d a b : BitVec 7} {s : State} (h : Formed s) : OutFormed (execFnma c x d a b s) := by
  unfold execFnma
  exact formed_issue (fun x1 t2 => forms_laneEv3) h

theorem formed_execFmulScalarB {c x : Bool} {d a : BitVec 7} {sb : BitVec 6} {s : State} (h : Formed s)
    : OutFormed (execFmulScalarB c x d a sb s) := by
  unfold execFmulScalarB
  exact formed_issue (fun x1 t2 => forms_laneEvS) h

theorem formed_execFmaScalarB {c x : Bool} {d a : BitVec 7} {sb : BitVec 6} {s : State} (h : Formed s)
    : OutFormed (execFmaScalarB c x d a sb s) := by
  unfold execFmaScalarB
  exact formed_issue (fun x1 t2 => forms_laneEvS3) h

theorem formed_execFmsScalarB {c x : Bool} {d a : BitVec 7} {sb : BitVec 6} {s : State} (h : Formed s)
    : OutFormed (execFmsScalarB c x d a sb s) := by
  unfold execFmsScalarB
  exact formed_issue (fun x1 t2 => forms_laneEvS3) h

theorem formed_execFnmaScalarB {c x : Bool} {d a : BitVec 7} {sb : BitVec 6} {s : State} (h : Formed s)
    : OutFormed (execFnmaScalarB c x d a sb s) := by
  unfold execFnmaScalarB
  exact formed_issue (fun x1 t2 => forms_laneEvS3) h

theorem formed_execFcmpEq {c x : Bool} {p : BitVec 3} {a b : BitVec 7} {s : State} (h : Formed s)
    : OutFormed (execFcmpEq c x p a b s) := by
  unfold execFcmpEq
  exact formed_issue (fun x1 t2 => forms_fcmpWord) h

theorem formed_execFcmpNe {c x : Bool} {p : BitVec 3} {a b : BitVec 7} {s : State} (h : Formed s)
    : OutFormed (execFcmpNe c x p a b s) := by
  unfold execFcmpNe
  exact formed_issue (fun x1 t2 => forms_fcmpWord) h

theorem formed_execFcmpLt {c x : Bool} {p : BitVec 3} {a b : BitVec 7} {s : State} (h : Formed s)
    : OutFormed (execFcmpLt c x p a b s) := by
  unfold execFcmpLt
  exact formed_issue (fun x1 t2 => forms_fcmpWord) h

theorem formed_execFcmpLe {c x : Bool} {p : BitVec 3} {a b : BitVec 7} {s : State} (h : Formed s)
    : OutFormed (execFcmpLe c x p a b s) := by
  unfold execFcmpLe
  exact formed_issue (fun x1 t2 => forms_fcmpWord) h

theorem formed_execFcmpGt {c x : Bool} {p : BitVec 3} {a b : BitVec 7} {s : State} (h : Formed s)
    : OutFormed (execFcmpGt c x p a b s) := by
  unfold execFcmpGt
  exact formed_issue (fun x1 t2 => forms_fcmpWord) h

theorem formed_execFcmpGe {c x : Bool} {p : BitVec 3} {a b : BitVec 7} {s : State} (h : Formed s)
    : OutFormed (execFcmpGe c x p a b s) := by
  unfold execFcmpGe
  exact formed_issue (fun x1 t2 => forms_fcmpWord) h

theorem formed_execFcmpUnord {c x : Bool} {p : BitVec 3} {a b : BitVec 7} {s : State} (h : Formed s)
    : OutFormed (execFcmpUnord c x p a b s) := by
  unfold execFcmpUnord
  exact formed_issue (fun x1 t2 => forms_fcmpWord) h

theorem formed_execFcmpOrd {c x : Bool} {p : BitVec 3} {a b : BitVec 7} {s : State} (h : Formed s)
    : OutFormed (execFcmpOrd c x p a b s) := by
  unfold execFcmpOrd
  exact formed_issue (fun x1 t2 => forms_fcmpWord) h

theorem formed_execHaddF16x2 {c x : Bool} {d a b : BitVec 7} {s : State} (h : Formed s) : OutFormed (execHaddF16x2 c x d a b s) := by
  unfold execHaddF16x2
  exact formed_issue (fun x1 t2 => forms_laneEv2) h

theorem formed_execHmulF16x2 {c x : Bool} {d a b : BitVec 7} {s : State} (h : Formed s) : OutFormed (execHmulF16x2 c x d a b s) := by
  unfold execHmulF16x2
  exact formed_issue (fun x1 t2 => forms_laneEv2) h

theorem formed_execHfmaF16x2 {c x : Bool} {d a b : BitVec 7} {s : State} (h : Formed s) : OutFormed (execHfmaF16x2 c x d a b s) := by
  unfold execHfmaF16x2
  exact formed_issue (fun x1 t2 => forms_laneEv3) h

theorem formed_execHaddBf16x2 {c x : Bool} {d a b : BitVec 7} {s : State} (h : Formed s) : OutFormed (execHaddBf16x2 c x d a b s) := by
  unfold execHaddBf16x2
  exact formed_issue (fun x1 t2 => forms_laneEv2) h

theorem formed_execHmulBf16x2 {c x : Bool} {d a b : BitVec 7} {s : State} (h : Formed s) : OutFormed (execHmulBf16x2 c x d a b s) := by
  unfold execHmulBf16x2
  exact formed_issue (fun x1 t2 => forms_laneEv2) h

theorem formed_execHfmaBf16x2 {c x : Bool} {d a b : BitVec 7} {s : State} (h : Formed s) : OutFormed (execHfmaBf16x2 c x d a b s) := by
  unfold execHfmaBf16x2
  exact formed_issue (fun x1 t2 => forms_laneEv3) h

theorem formed_execHminF16x2 {c x : Bool} {d a b : BitVec 7} {s : State} (h : Formed s) : OutFormed (execHminF16x2 c x d a b s) := by
  unfold execHminF16x2
  exact formed_issue (fun x1 t2 => forms_laneEv2) h

theorem formed_execHmaxF16x2 {c x : Bool} {d a b : BitVec 7} {s : State} (h : Formed s) : OutFormed (execHmaxF16x2 c x d a b s) := by
  unfold execHmaxF16x2
  exact formed_issue (fun x1 t2 => forms_laneEv2) h

theorem formed_execFrcp {c x : Bool} {d a : BitVec 7} {s : State} (h : Formed s) : OutFormed (execFrcp c x d a s) := by
  unfold execFrcp
  exact formed_issue (fun x1 t2 => forms_laneEv1) h

theorem formed_execFrsq {c x : Bool} {d a : BitVec 7} {s : State} (h : Formed s) : OutFormed (execFrsq c x d a s) := by
  unfold execFrsq
  exact formed_issue (fun x1 t2 => forms_laneEv1) h

theorem formed_execFsqrt {c x : Bool} {d a : BitVec 7} {s : State} (h : Formed s) : OutFormed (execFsqrt c x d a s) := by
  unfold execFsqrt
  exact formed_issue (fun x1 t2 => forms_laneEv1) h

theorem formed_execFexp2 {c x : Bool} {d a : BitVec 7} {s : State} (h : Formed s) : OutFormed (execFexp2 c x d a s) := by
  unfold execFexp2
  exact formed_issue (fun x1 t2 => forms_laneEv1) h

theorem formed_execFlog2 {c x : Bool} {d a : BitVec 7} {s : State} (h : Formed s) : OutFormed (execFlog2 c x d a s) := by
  unfold execFlog2
  exact formed_issue (fun x1 t2 => forms_laneEv1) h

theorem formed_execFsin {c x : Bool} {d a : BitVec 7} {s : State} (h : Formed s) : OutFormed (execFsin c x d a s) := by
  unfold execFsin
  exact formed_issue (fun x1 t2 => forms_laneEv1) h

theorem formed_execFcos {c x : Bool} {d a : BitVec 7} {s : State} (h : Formed s) : OutFormed (execFcos c x d a s) := by
  unfold execFcos
  exact formed_issue (fun x1 t2 => forms_laneEv1) h

theorem formed_execFtanh {c x : Bool} {d a : BitVec 7} {s : State} (h : Formed s) : OutFormed (execFtanh c x d a s) := by
  unfold execFtanh
  exact formed_issue (fun x1 t2 => forms_laneEv1) h

theorem formed_execDadd {c x : Bool} {d a b : BitVec 7} {s : State} (h : Formed s) : OutFormed (execDadd c x d a b s) := by
  unfold execDadd
  exact formed_issue (fun x1 t2 => forms_d2) h

theorem formed_execDsub {c x : Bool} {d a b : BitVec 7} {s : State} (h : Formed s) : OutFormed (execDsub c x d a b s) := by
  unfold execDsub
  exact formed_issue (fun x1 t2 => forms_d2) h

theorem formed_execDmul {c x : Bool} {d a b : BitVec 7} {s : State} (h : Formed s) : OutFormed (execDmul c x d a b s) := by
  unfold execDmul
  exact formed_issue (fun x1 t2 => forms_d2) h

theorem formed_execDfma {c x : Bool} {d a b : BitVec 7} {s : State} (h : Formed s) : OutFormed (execDfma c x d a b s) := by
  unfold execDfma
  exact formed_issue (fun x1 t2 => forms_dWord) h

theorem formed_execDmin {c x : Bool} {d a b : BitVec 7} {s : State} (h : Formed s) : OutFormed (execDmin c x d a b s) := by
  unfold execDmin
  exact formed_issue (fun x1 t2 => forms_d2) h

theorem formed_execDmax {c x : Bool} {d a b : BitVec 7} {s : State} (h : Formed s) : OutFormed (execDmax c x d a b s) := by
  unfold execDmax
  exact formed_issue (fun x1 t2 => forms_d2) h

theorem formed_execDrcp {c x : Bool} {d a : BitVec 7} {s : State} (h : Formed s) : OutFormed (execDrcp c x d a s) := by
  unfold execDrcp
  exact formed_issue (fun x1 t2 => forms_d1) h

theorem formed_execDsqrt {c x : Bool} {d a : BitVec 7} {s : State} (h : Formed s) : OutFormed (execDsqrt c x d a s) := by
  unfold execDsqrt
  exact formed_issue (fun x1 t2 => forms_d1) h

theorem formed_execCvtnE4m3 {c x : Bool} {d a : BitVec 7} {s : State} (h : Formed s) : OutFormed (execCvtnE4m3 c x d a s) := by
  unfold execCvtnE4m3
  exact formed_issue (fun x1 t2 => forms_cvtnWord) h

theorem formed_execCvtnE4m3Sr {c x : Bool} {d a : BitVec 7} {s : State} (h : Formed s) : OutFormed (execCvtnE4m3Sr c x d a s) := by
  unfold execCvtnE4m3Sr
  exact formed_issue (fun x1 t2 => forms_cvtnWord) h

theorem formed_execCvtnE5m2 {c x : Bool} {d a : BitVec 7} {s : State} (h : Formed s) : OutFormed (execCvtnE5m2 c x d a s) := by
  unfold execCvtnE5m2
  exact formed_issue (fun x1 t2 => forms_cvtnWord) h

theorem formed_execCvtnE5m2Sr {c x : Bool} {d a : BitVec 7} {s : State} (h : Formed s) : OutFormed (execCvtnE5m2Sr c x d a s) := by
  unfold execCvtnE5m2Sr
  exact formed_issue (fun x1 t2 => forms_cvtnWord) h

theorem formed_execCvtnE2m1b {c x : Bool} {d a b : BitVec 7} {s : State} (h : Formed s) : OutFormed (execCvtnE2m1b c x d a b s) := by
  unfold execCvtnE2m1b
  exact formed_issue (fun x1 t2 => forms_cvtnBlockWord) h

theorem formed_execCvtnE2m1bSr {c x : Bool} {d a b : BitVec 7} {s : State} (h : Formed s) : OutFormed (execCvtnE2m1bSr c x d a b s) := by
  unfold execCvtnE2m1bSr
  exact formed_issue (fun x1 t2 => forms_cvtnBlockWord) h

theorem formed_execCvtwE4m3 {c x : Bool} {d a : BitVec 7} {s : State} (h : Formed s) : OutFormed (execCvtwE4m3 c x d a s) := by
  unfold execCvtwE4m3
  exact formed_issue (fun x1 t2 => forms_cvtwWord) h

theorem formed_execCvtwE5m2 {c x : Bool} {d a : BitVec 7} {s : State} (h : Formed s) : OutFormed (execCvtwE5m2 c x d a s) := by
  unfold execCvtwE5m2
  exact formed_issue (fun x1 t2 => forms_cvtwWord) h

theorem formed_execXrel {c x : Bool} {d a : BitVec 7} {sb : BitVec 6} {s : State} (h : Formed s) : OutFormed (execXrel c x d a sb s) := by
  unfold execXrel
  exact formed_issue (fun x1 t2 => forms_xrelWord) h

theorem formed_execXrel3 {c x : Bool} {d a : BitVec 7} {sb : BitVec 6} {s : State} (h : Formed s)
    : OutFormed (execXrel3 c x d a sb s) := by
  unfold execXrel3
  exact formed_issue (fun x1 t2 => forms_xrelWord) h

theorem formed_execDcmpEq {c x : Bool} {p : BitVec 3} {a b : BitVec 7} {s : State} (h : Formed s)
    : OutFormed (execDcmpEq c x p a b s) := by
  unfold execDcmpEq
  exact formed_issue (fun x1 t2 => forms_dcmpWord) h

theorem formed_execDcmpLt {c x : Bool} {p : BitVec 3} {a b : BitVec 7} {s : State} (h : Formed s)
    : OutFormed (execDcmpLt c x p a b s) := by
  unfold execDcmpLt
  exact formed_issue (fun x1 t2 => forms_dcmpWord) h

theorem formed_execDcmpLe {c x : Bool} {p : BitVec 3} {a b : BitVec 7} {s : State} (h : Formed s)
    : OutFormed (execDcmpLe c x p a b s) := by
  unfold execDcmpLe
  exact formed_issue (fun x1 t2 => forms_dcmpWord) h

theorem formed_execDcmpUnord {c x : Bool} {p : BitVec 3} {a b : BitVec 7} {s : State} (h : Formed s)
    : OutFormed (execDcmpUnord c x p a b s) := by
  unfold execDcmpUnord
  exact formed_issue (fun x1 t2 => forms_dcmpWord) h

theorem formed_execShflIdx {c x : Bool} {d a b : BitVec 7} {s : State} (h : Formed s) : OutFormed (execShflIdx c x d a b s) := by
  unfold execShflIdx
  exact formed_issue (fun x1 t2 => forms_shflWord) h

theorem formed_execShflUp {c x : Bool} {d a b : BitVec 7} {s : State} (h : Formed s) : OutFormed (execShflUp c x d a b s) := by
  unfold execShflUp
  exact formed_issue (fun x1 t2 => forms_shflWord) h

theorem formed_execShflDown {c x : Bool} {d a b : BitVec 7} {s : State} (h : Formed s) : OutFormed (execShflDown c x d a b s) := by
  unfold execShflDown
  exact formed_issue (fun x1 t2 => forms_shflWord) h

theorem formed_execShflXor {c x : Bool} {d a b : BitVec 7} {s : State} (h : Formed s) : OutFormed (execShflXor c x d a b s) := by
  unfold execShflXor
  exact formed_issue (fun x1 t2 => forms_shflWord) h

theorem formed_execVoteAny {c x : Bool} {d : BitVec 7} {p : BitVec 3} {s : State} (h : Formed s) : OutFormed (execVoteAny c x d p s) := by
  unfold execVoteAny
  exact formed_issue (fun x1 t2 => forms_voteWord) h

theorem formed_execVoteAll {c x : Bool} {d : BitVec 7} {p : BitVec 3} {s : State} (h : Formed s) : OutFormed (execVoteAll c x d p s) := by
  unfold execVoteAll
  exact formed_issue (fun x1 t2 => forms_voteWord) h

theorem formed_execVoteBallot {c x : Bool} {d : BitVec 7} {p : BitVec 3} {s : State} (h : Formed s)
    : OutFormed (execVoteBallot c x d p s) := by
  unfold execVoteBallot
  exact formed_issue (fun x1 t2 => forms_voteWord) h

theorem formed_execQswz {c x : Bool} {d a : BitVec 7} {k : BitVec 2} {s : State} (h : Formed s) : OutFormed (execQswz c x d a k s) := by
  unfold execQswz
  exact formed_issue (fun x1 t2 => forms_qswzWord) h

theorem formed_execRedAddS32 {c x : Bool} {d a : BitVec 7} {s : State} (h : Formed s) : OutFormed (execRedAddS32 c x d a s) := by
  unfold execRedAddS32
  exact formed_issue (fun x1 t2 => forms_redInt) h

theorem formed_execRedAddF32 {c x : Bool} {d a : BitVec 7} {s : State} (h : Formed s) : OutFormed (execRedAddF32 c x d a s) := by
  unfold execRedAddF32
  exact formed_issue (fun x1 t2 => forms_redF) h

theorem formed_execRedMinF32 {c x : Bool} {d a : BitVec 7} {s : State} (h : Formed s) : OutFormed (execRedMinF32 c x d a s) := by
  unfold execRedMinF32
  exact formed_issue (fun x1 t2 => forms_redF) h

theorem formed_execRedMaxF32 {c x : Bool} {d a : BitVec 7} {s : State} (h : Formed s) : OutFormed (execRedMaxF32 c x d a s) := by
  unfold execRedMaxF32
  exact formed_issue (fun x1 t2 => forms_redF) h

theorem formed_execScanAddS32 {c x : Bool} {d a : BitVec 7} {s : State} (h : Formed s) : OutFormed (execScanAddS32 c x d a s) := by
  unfold execScanAddS32
  exact formed_issue (fun x1 t2 => forms_redInt) h

theorem formed_execScanAddF32 {c x : Bool} {d a : BitVec 7} {s : State} (h : Formed s) : OutFormed (execScanAddF32 c x d a s) := by
  unfold execScanAddF32
  exact formed_issue (fun x1 t2 => forms_redF) h

theorem formed_execRedAnd {c x : Bool} {d a : BitVec 7} {s : State} (h : Formed s) : OutFormed (execRedAnd c x d a s) := by
  unfold execRedAnd
  exact formed_issue (fun x1 t2 => forms_redInt) h

theorem formed_execRedOr {c x : Bool} {d a : BitVec 7} {s : State} (h : Formed s) : OutFormed (execRedOr c x d a s) := by
  unfold execRedOr
  exact formed_issue (fun x1 t2 => forms_redInt) h

theorem formed_execDdx {c x : Bool} {d a b : BitVec 7} {s : State} (h : Formed s) : OutFormed (execDdx c x d a b s) := by
  unfold execDdx
  exact formed_issue (fun x1 t2 => forms_derivWord) h

theorem formed_execDdy {c x : Bool} {d a b : BitVec 7} {s : State} (h : Formed s) : OutFormed (execDdy c x d a b s) := by
  unfold execDdy
  exact formed_issue (fun x1 t2 => forms_derivWord) h

theorem formed_execIpa {c x : Bool} {d a n : BitVec 7} {s : State} (h : Formed s) : OutFormed (execIpa c x d a n s) := by
  unfold execIpa
  exact formed_issue (fun x1 t2 => forms_ipaWord) h

theorem formed_execIpac {c x : Bool} {d a n : BitVec 7} {s : State} (h : Formed s) : OutFormed (execIpac c x d a n s) := by
  unfold execIpac
  exact formed_issue (fun x1 t2 => forms_ipaWord) h

theorem formed_execRtravInit {c x : Bool} {d a b : BitVec 7} {s : State} (h : Formed s) : OutFormed (execRtravInit c x d a b s) := by
  unfold execRtravInit
  exact formed_issue (fun x1 t2 => forms_rtravInitWord) h

theorem formed_aKeep {t : Team} {las : List LaneAt} {s : State} (h : Formed s) : Formed (aKeep t las s) := by
  unfold aKeep
  refine formed_foldl ?_ h
  intro t1 x2 h3
  dsimp only
  split
  · exact formed_ite (formed_keepLine (formed_readVia (formed_keepTr h3))) (formed_keepTr h3)
  · exact h3

theorem formed_aFail {s : State} {addr : LaneAt → Target} {las : List LaneAt} {t : State} (h_t : Formed t)
    : Formed (aFail s addr las t) := by
  unfold aFail
  refine formed_foldl ?_ h_t
  intro t1 x2 h3
  split
  · exact formed_ite (formed_readVia h3) h3
  · exact h3

theorem formed_execRhit {c x : Bool} {d : BitVec 7} {s : State} (h : Formed s) : OutFormed (execRhit c x d s) := by
  unfold execRhit
  exact formed_issue (fun x1 t2 => forms_rhitWord) h

theorem formed_execSadd {c : Bool} {d a b : BitVec 6} {s : State} (h : Formed s) : OutFormed (execSadd c d a b s) := by
  unfold execSadd
  exact formed_issue (fun x1 t2 => forms_salu2) h

theorem formed_execSsub {c : Bool} {d a b : BitVec 6} {s : State} (h : Formed s) : OutFormed (execSsub c d a b s) := by
  unfold execSsub
  exact formed_issue (fun x1 t2 => forms_salu2) h

theorem formed_execSmul {c : Bool} {d a b : BitVec 6} {s : State} (h : Formed s) : OutFormed (execSmul c d a b s) := by
  unfold execSmul
  exact formed_issue (fun x1 t2 => forms_salu2) h

theorem formed_execSmulh {c : Bool} {d a b : BitVec 6} {s : State} (h : Formed s) : OutFormed (execSmulh c d a b s) := by
  unfold execSmulh
  exact formed_issue (fun x1 t2 => forms_salu2) h

theorem formed_execSand {c : Bool} {d a b : BitVec 6} {s : State} (h : Formed s) : OutFormed (execSand c d a b s) := by
  unfold execSand
  exact formed_issue (fun x1 t2 => forms_salu2) h

theorem formed_execSor {c : Bool} {d a b : BitVec 6} {s : State} (h : Formed s) : OutFormed (execSor c d a b s) := by
  unfold execSor
  exact formed_issue (fun x1 t2 => forms_salu2) h

theorem formed_execSxor {c : Bool} {d a b : BitVec 6} {s : State} (h : Formed s) : OutFormed (execSxor c d a b s) := by
  unfold execSxor
  exact formed_issue (fun x1 t2 => forms_salu2) h

theorem formed_execSandn {c : Bool} {d a b : BitVec 6} {s : State} (h : Formed s) : OutFormed (execSandn c d a b s) := by
  unfold execSandn
  exact formed_issue (fun x1 t2 => forms_salu2) h

theorem formed_execSshl {c : Bool} {d a b : BitVec 6} {s : State} (h : Formed s) : OutFormed (execSshl c d a b s) := by
  unfold execSshl
  exact formed_issue (fun x1 t2 => forms_salu2) h

theorem formed_execSshr {c : Bool} {d a b : BitVec 6} {s : State} (h : Formed s) : OutFormed (execSshr c d a b s) := by
  unfold execSshr
  exact formed_issue (fun x1 t2 => forms_salu2) h

theorem formed_execSsar {c : Bool} {d a b : BitVec 6} {s : State} (h : Formed s) : OutFormed (execSsar c d a b s) := by
  unfold execSsar
  exact formed_issue (fun x1 t2 => forms_salu2) h

theorem formed_execSmin {c : Bool} {d a b : BitVec 6} {s : State} (h : Formed s) : OutFormed (execSmin c d a b s) := by
  unfold execSmin
  exact formed_issue (fun x1 t2 => forms_salu2) h

theorem formed_execSmax {c : Bool} {d a b : BitVec 6} {s : State} (h : Formed s) : OutFormed (execSmax c d a b s) := by
  unfold execSmax
  exact formed_issue (fun x1 t2 => forms_salu2) h

theorem formed_execSmov {c : Bool} {d a : BitVec 6} {s : State} (h : Formed s) : OutFormed (execSmov c d a s) := by
  unfold execSmov
  exact formed_issue (fun x1 t2 => forms_smovWord) h

theorem formed_execSadd64 {c : Bool} {d a b : BitVec 6} {s : State} (h : Formed s) : OutFormed (execSadd64 c d a b s) := by
  unfold execSadd64
  exact formed_issue (fun x1 t2 => forms_salu64) h

theorem formed_execSsub64 {c : Bool} {d a b : BitVec 6} {s : State} (h : Formed s) : OutFormed (execSsub64 c d a b s) := by
  unfold execSsub64
  exact formed_issue (fun x1 t2 => forms_salu64) h

theorem formed_execSaddi {c : Bool} {d : BitVec 6} {i : BitVec 15} {lit : Option (BitVec 25)} {s : State} (h : Formed s)
    : OutFormed (execSaddi c d i lit s) := by
  unfold execSaddi
  exact formed_issue (fun x1 t2 => forms_simmWord) h

theorem formed_execSandi {c : Bool} {d : BitVec 6} {i : BitVec 15} {lit : Option (BitVec 25)} {s : State} (h : Formed s)
    : OutFormed (execSandi c d i lit s) := by
  unfold execSandi
  exact formed_issue (fun x1 t2 => forms_simmWord) h

theorem formed_execSori {c : Bool} {d : BitVec 6} {i : BitVec 15} {lit : Option (BitVec 25)} {s : State} (h : Formed s)
    : OutFormed (execSori c d i lit s) := by
  unfold execSori
  exact formed_issue (fun x1 t2 => forms_simmWord) h

theorem formed_execSxori {c : Bool} {d : BitVec 6} {i : BitVec 15} {lit : Option (BitVec 25)} {s : State} (h : Formed s)
    : OutFormed (execSxori c d i lit s) := by
  unfold execSxori
  exact formed_issue (fun x1 t2 => forms_simmWord) h

theorem formed_execSshli {c : Bool} {d : BitVec 6} {i : BitVec 15} {lit : Option (BitVec 25)} {s : State} (h : Formed s)
    : OutFormed (execSshli c d i lit s) := by
  unfold execSshli
  exact formed_issue (fun x1 t2 => forms_simmWord) h

theorem formed_execSshri {c : Bool} {d : BitVec 6} {i : BitVec 15} {lit : Option (BitVec 25)} {s : State} (h : Formed s)
    : OutFormed (execSshri c d i lit s) := by
  unfold execSshri
  exact formed_issue (fun x1 t2 => forms_simmWord) h

theorem formed_execSmovi {c : Bool} {d : BitVec 6} {i : BitVec 15} {lit : Option (BitVec 25)} {s : State} (h : Formed s)
    : OutFormed (execSmovi c d i lit s) := by
  unfold execSmovi
  exact formed_issue (fun x1 t2 => forms_scalarWord) h

theorem formed_execSmovhi {c : Bool} {d : BitVec 6} {i : BitVec 15} {lit : Option (BitVec 25)} {s : State} (h : Formed s)
    : OutFormed (execSmovhi c d i lit s) := by
  unfold execSmovhi
  exact formed_issue (fun x1 t2 => forms_scalarWord) h

theorem formed_execScmpEq {c : Bool} {p : BitVec 3} {a b : BitVec 6} {s : State} (h : Formed s) : OutFormed (execScmpEq c p a b s) := by
  unfold execScmpEq
  exact formed_issue (fun x1 t2 => forms_scmpWord) h

theorem formed_execScmpNe {c : Bool} {p : BitVec 3} {a b : BitVec 6} {s : State} (h : Formed s) : OutFormed (execScmpNe c p a b s) := by
  unfold execScmpNe
  exact formed_issue (fun x1 t2 => forms_scmpWord) h

theorem formed_execScmpLtS {c : Bool} {p : BitVec 3} {a b : BitVec 6} {s : State} (h : Formed s) : OutFormed (execScmpLtS c p a b s) := by
  unfold execScmpLtS
  exact formed_issue (fun x1 t2 => forms_scmpWord) h

theorem formed_execScmpLeS {c : Bool} {p : BitVec 3} {a b : BitVec 6} {s : State} (h : Formed s) : OutFormed (execScmpLeS c p a b s) := by
  unfold execScmpLeS
  exact formed_issue (fun x1 t2 => forms_scmpWord) h

theorem formed_execScmpLtN {c : Bool} {p : BitVec 3} {a b : BitVec 6} {s : State} (h : Formed s) : OutFormed (execScmpLtN c p a b s) := by
  unfold execScmpLtN
  exact formed_issue (fun x1 t2 => forms_scmpWord) h

theorem formed_execScmpLeN {c : Bool} {p : BitVec 3} {a b : BitVec 6} {s : State} (h : Formed s) : OutFormed (execScmpLeN c p a b s) := by
  unfold execScmpLeN
  exact formed_issue (fun x1 t2 => forms_scmpWord) h

theorem formed_execSsel {c : Bool} {d a b : BitVec 6} {s : State} (h : Formed s) : OutFormed (execSsel c d a b s) := by
  unfold execSsel
  exact formed_issue (fun x1 t2 => forms_sselWord) h

theorem formed_execGetsr {c : Bool} {d n : BitVec 6} {s : State} (h : Formed s) : OutFormed (execGetsr c d n s) := by
  unfold execGetsr
  exact formed_issue (fun x1 t2 => forms_getsrWord) h

theorem formed_execSetsr {c : Bool} {n b : BitVec 6} {s : State} (h : Formed s) : OutFormed (execSetsr c n b s) := by
  unfold execSetsr
  exact formed_issue (fun x1 t2 => forms_setsrWord) h

theorem formed_execAddix {c : Bool} {a : BitVec 6} {s : State} (h : Formed s) : OutFormed (execAddix c a s) := by
  unfold execAddix
  exact formed_issue (fun x1 t2 => forms_checks forms_setIxWord) h

theorem formed_execGetix {c : Bool} {d : BitVec 6} {s : State} (h : Formed s) : OutFormed (execGetix c d s) := by
  unfold execGetix
  exact formed_issue (fun x1 t2 => forms_of_effect fun t3 h4 => formed_onCur h4) h

theorem forms_bindWord {w : BitVec 3} {a : BitVec 6} {g : Group} {s : State} : (bindWord w a g s).Forms := by
  conv => arg 1; fun; fun; fun; fun; delta bindWord
  extract_lets
  split
  · refine forms_of_effect ?_
    intro t1 h2
    exact formed_onCur (formed_walkedWindow h2)
  · exact forms_uniformWord forms_still

theorem formed_execBind {c : Bool} {w : BitVec 3} {a : BitVec 6} {s : State} (h : Formed s) : OutFormed (execBind c w a s) := by
  unfold execBind
  exact formed_issue (fun x1 t2 => forms_bindWord) h

theorem formed_execUnbind {c : Bool} {w : BitVec 3} {s : State} (h : Formed s) : OutFormed (execUnbind c w s) := by
  unfold execUnbind
  exact formed_issue (fun x1 t2 => forms_of_effect fun t3 h4 => formed_onCur h4) h

theorem formed_execWquery {c : Bool} {d : BitVec 6} {w : BitVec 3} {s : State} (h : Formed s) : OutFormed (execWquery c d w s) := by
  unfold execWquery
  exact formed_issue (fun x1 t2 => forms_wqueryWord) h

theorem formed_execLd {c x : Bool} {z : BitVec 3} {d a : BitVec 7} {w : BitVec 3} {i : BitVec 4} {lit : Option (BitVec 25)} {s : State}
    (h : Formed s) : OutFormed (execLd c x z d a w i lit s) := by
  unfold execLd
  exact formed_issue (fun x1 t2 => forms_ldWord) h

theorem formed_execSt {c x : Bool} {z : BitVec 3} {d a : BitVec 7} {w : BitVec 3} {i : BitVec 4} {lit : Option (BitVec 25)} {s : State}
    (h : Formed s) : OutFormed (execSt c x z d a w i lit s) := by
  unfold execSt
  exact formed_issue (fun x1 t2 => forms_stWord) h

theorem formed_execLds {c x : Bool} {z : BitVec 3} {d a : BitVec 7} {i : BitVec 4} {lit : Option (BitVec 25)} {s : State} (h : Formed s)
    : OutFormed (execLds c x z d a i lit s) := by
  unfold execLds
  exact formed_issue (fun x1 t2 => forms_scratchWord forms_regWord (fun x3 t4 h5 => formed_runLoads h5)) h

theorem formed_execSts {c x : Bool} {z : BitVec 3} {d a : BitVec 7} {i : BitVec 4} {lit : Option (BitVec 25)} {s : State} (h : Formed s)
    : OutFormed (execSts c x z d a i lit s) := by
  unfold execSts
  exact formed_issue (fun x1 t2 => forms_scratchWord forms_regWord (fun x3 t4 h5 => formed_runStores h5)) h

theorem formed_execLdc {c : Bool} {z : BitVec 4} {d a b : BitVec 6} {s : State} (h : Formed s) : OutFormed (execLdc c z d a b s) := by
  unfold execLdc
  exact formed_issue (fun x1 t2 => forms_ldcWord) h

theorem formed_execAtom {c x : Bool} {o : BitVec 4} {d a : BitVec 7} {w : BitVec 3} {sb : BitVec 2} {r : BitVec 1} {s : State}
    (h : Formed s) : OutFormed (execAtom c x o d a w sb r s) := by
  unfold execAtom
  exact formed_issue (fun x1 t2 => forms_atomWord (fun t3 h4 => formed_keepWindow h4)) h

theorem formed_execAtoms {c x : Bool} {o : BitVec 4} {d a : BitVec 7} {sb : BitVec 2} {r : BitVec 1} {s : State} (h : Formed s)
    : OutFormed (execAtoms c x o d a sb r s) := by
  unfold execAtoms
  exact formed_issue (fun x1 t2 => forms_atomWord (fun t3 h4 => formed_id h4)) h

theorem formed_execLdt {c x : Bool} {z : BitVec 3} {d a : BitVec 7} {w : BitVec 3} {s : State} (h : Formed s)
    : OutFormed (execLdt c x z d a w s) := by
  unfold execLdt
  exact formed_issue (fun x1 t2 => forms_ldtWord) h

theorem formed_execSmpPoint {c x : Bool} {d a : BitVec 7} {w : BitVec 3} {v u : BitVec 2} {s : State} (h : Formed s)
    : OutFormed (execSmpPoint c x d a w v u s) := by
  unfold execSmpPoint
  exact formed_issue (fun x1 t2 => forms_smpWord) h

theorem formed_execSmpBilinear {c x : Bool} {d a : BitVec 7} {w : BitVec 3} {v u : BitVec 2} {s : State} (h : Formed s)
    : OutFormed (execSmpBilinear c x d a w v u s) := by
  unfold execSmpBilinear
  exact formed_issue (fun x1 t2 => forms_smpWord) h

theorem formed_execSmpTrilinear {c x : Bool} {d a : BitVec 7} {w : BitVec 3} {v u : BitVec 2} {s : State} (h : Formed s)
    : OutFormed (execSmpTrilinear c x d a w v u s) := by
  unfold execSmpTrilinear
  exact formed_issue (fun x1 t2 => forms_smpWord) h

theorem formed_execFenceAcq {c : Bool} {sb : BitVec 2} {s : State} (h : Formed s) : OutFormed (execFenceAcq c sb s) := by
  unfold execFenceAcq
  exact formed_issue (fun x1 t2 => forms_of_effect fun t3 h4 => formed_acquireAt h4) h

theorem formed_execFenceRel {c : Bool} {sb : BitVec 2} {s : State} (h : Formed s) : OutFormed (execFenceRel c sb s) := by
  unfold execFenceRel
  exact formed_issue (fun x1 t2 => forms_still) h

theorem formed_execFenceAr {c : Bool} {sb : BitVec 2} {s : State} (h : Formed s) : OutFormed (execFenceAr c sb s) := by
  unfold execFenceAr
  exact formed_issue (fun x1 t2 => forms_of_effect fun t3 h4 => formed_acquireAt h4) h

theorem formed_execCinv {c : Bool} {s : State} (h : Formed s) : OutFormed (execCinv c s) := by
  unfold execCinv
  exact formed_issue (fun x1 t2 => forms_of_effect fun t3 h4 => formed_dropL1 h4) h

theorem forms_cwbWord {d a : BitVec 6} {g : Group} {s : State} : (cwbWord d a g s).Forms := by
  conv => arg 1; fun; fun; fun; fun; delta cwbWord
  extract_lets
  refine forms_ite forms_still ?_
  refine forms_ite (forms_uniformWord forms_still) ?_
  refine forms_ite (forms_uniformWord forms_still) ?_
  split
  · extract_lets
    split
    · refine forms_of_effect ?_
      intro t1 h2
      refine formed_onMem ?_
      refine wf_foldl ?_ h2
      intro x3 x4 h5
      exact wf_writeBack h5 _ _
    · refine forms_onFault (forms_uniformWord forms_still) ?_
      intro t1 h2
      refine formed_onMem ?_
      refine wf_foldl ?_ h2
      intro x3 x4 h5
      exact wf_writeBack h5 _ _

theorem formed_execCwb {c : Bool} {d a : BitVec 6} {s : State} (h : Formed s) : OutFormed (execCwb c d a s) := by
  unfold execCwb
  exact formed_issue (fun x1 t2 => forms_cwbWord) h

theorem formed_execPf {c x : Bool} {a : BitVec 7} {w : BitVec 3} {s : State} (h : Formed s) : OutFormed (execPf c x a w s) := by
  unfold execPf
  exact formed_issue (fun x1 t2 => forms_pfWord) h

theorem formed_execResfence {c : Bool} {s : State} (h : Formed s) : OutFormed (execResfence c s) := by
  unfold execResfence
  exact formed_issue (fun x1 t2 => forms_of_effect fun t3 h4 => formed_onCur h4) h

theorem formed_execCpa {c x : Bool} {d a : BitVec 7} {w : BitVec 3} {sb : BitVec 2} {r : BitVec 1} {s : State} (h : Formed s)
    : OutFormed (execCpa c x d a w sb r s) := by
  unfold execCpa
  exact formed_issue (fun x1 t2 => forms_cpaWord) h

theorem formed_execCpseal {c : Bool} {s : State} (h : Formed s) : OutFormed (execCpseal c s) := by
  unfold execCpseal
  exact formed_issue (fun x1 t2 => forms_cpsealWord) h

theorem formed_execCpwait {c : Bool} {t : BitVec 2} {s : State} (h : Formed s) : OutFormed (execCpwait c t s) := by
  unfold execCpwait
  exact formed_issue (fun x1 t2 => forms_cpwaitWord) h

theorem formed_execCpstat {c : Bool} {d : BitVec 6} {s : State} (h : Formed s) : OutFormed (execCpstat c d s) := by
  unfold execCpstat
  exact formed_issue (fun x1 t2 => forms_of_effect fun t3 h4 => formed_onCur h4) h

theorem formed_execCpbulk {c : Bool} {d a b : BitVec 6} {s : State} (h : Formed s) : OutFormed (execCpbulk c d a b s) := by
  unfold execCpbulk
  exact formed_issue (fun x1 t2 => forms_bulkWord) h

theorem formed_execCpq {c : Bool} {d a b : BitVec 6} {s : State} (h : Formed s) : OutFormed (execCpq c d a b s) := by
  unfold execCpq
  exact formed_issue (fun x1 t2 => forms_bulkWord) h

theorem formed_execTbinit {c : Bool} {a b : BitVec 6} {s : State} (h : Formed s) : OutFormed (execTbinit c a b s) := by
  unfold execTbinit
  exact formed_issue (fun x1 t2 => forms_tbarDo) h

theorem formed_execTbarrive {c : Bool} {a b : BitVec 6} {s : State} (h : Formed s) : OutFormed (execTbarrive c a b s) := by
  unfold execTbarrive
  exact formed_issue (fun x1 t2 => forms_checks forms_tbarDo) h

theorem formed_execTbexpect {c : Bool} {a b : BitVec 6} {s : State} (h : Formed s) : OutFormed (execTbexpect c a b s) := by
  unfold execTbexpect
  exact formed_issue (fun x1 t2 => forms_tbarDo) h

theorem formed_execTbwait {c : Bool} {a b : BitVec 6} {s : State} (h : Formed s) : OutFormed (execTbwait c a b s) := by
  unfold execTbwait
  exact formed_issue (fun x1 t2 => forms_tbwaitWord) h

theorem formed_execTbtest {c : Bool} {d a b : BitVec 6} {s : State} (h : Formed s) : OutFormed (execTbtest c d a b s) := by
  unfold execTbtest
  exact formed_issue (fun x1 t2 => forms_tbtestWord) h

theorem formed_execRarm {c x : Bool} {a : BitVec 7} {n : BitVec 3} {s : State} (h : Formed s) : OutFormed (execRarm c x a n s) := by
  unfold execRarm
  exact formed_issue (fun x1 t2 => forms_rarmWord) h

theorem formed_execRdisarm {c x : Bool} {a : BitVec 7} {n : BitVec 3} {s : State} (h : Formed s) : OutFormed (execRdisarm c x a n s) := by
  unfold execRdisarm
  exact formed_issue (fun x1 t2 => forms_rdisarmWord) h

theorem formed_execMkcap {c : Bool} {d a : BitVec 6} {s : State} (h : Formed s) : OutFormed (execMkcap c d a s) := by
  unfold execMkcap
  exact formed_issue (fun x1 t2 => forms_mkcapWord) h

theorem formed_execRsend {c x : Bool} {d : BitVec 6} {a : BitVec 7} {k : BitVec 5} {s : State} (h : Formed s)
    : OutFormed (execRsend c x d a k s) := by
  unfold execRsend
  exact formed_issue (fun x1 t2 => forms_rsendWord) h

theorem formed_execRsendT {c x : Bool} {d : BitVec 6} {a : BitVec 7} {k : BitVec 5} {s : State} (h : Formed s)
    : OutFormed (execRsendT c x d a k s) := by
  unfold execRsendT
  exact formed_issue (fun x1 t2 => forms_rsendWord) h

theorem formed_execRsendRel {c x : Bool} {d : BitVec 6} {a : BitVec 7} {k : BitVec 5} {s : State} (h : Formed s)
    : OutFormed (execRsendRel c x d a k s) := by
  unfold execRsendRel
  exact formed_issue (fun x1 t2 => forms_rsendWord) h

theorem formed_execRsendRelT {c x : Bool} {d : BitVec 6} {a : BitVec 7} {k : BitVec 5} {s : State} (h : Formed s)
    : OutFormed (execRsendRelT c x d a k s) := by
  unfold execRsendRelT
  exact formed_issue (fun x1 t2 => forms_rsendWord) h

theorem formed_execRrevoke {c : Bool} {d : BitVec 6} {s : State} (h : Formed s) : OutFormed (execRrevoke c d s) := by
  unfold execRrevoke
  exact formed_issue (fun x1 t2 => forms_rrevokeWord) h

theorem formed_execRtest {c x : Bool} {d : BitVec 6} {a : BitVec 7} {s : State} (h : Formed s) : OutFormed (execRtest c x d a s) := by
  unfold execRtest
  exact formed_issue (fun x1 t2 => forms_rtestWord) h

theorem formed_execRtestCount {c : Bool} {d : BitVec 6} {s : State} (h : Formed s) : OutFormed (execRtestCount c d s) := by
  unfold execRtestCount
  exact formed_issue (fun x1 t2 => forms_rtestCountWord) h

theorem formed_execMring {c : Bool} {r : BitVec 3} {a b : BitVec 6} {s : State} (h : Formed s) : OutFormed (execMring c r a b s) := by
  unfold execMring
  exact formed_issue (fun x1 t2 => forms_mringWord) h

theorem formed_execMsend {c : Bool} {d a b : BitVec 6} {s : State} (h : Formed s) : OutFormed (execMsend c d a b s) := by
  unfold execMsend
  exact formed_issue (fun x1 t2 => forms_msendWord) h

theorem formed_execMwait {c : Bool} {d : BitVec 6} {r : BitVec 3} {s : State} (h : Formed s) : OutFormed (execMwait c d r s) := by
  unfold execMwait
  exact formed_issue (fun x1 t2 => forms_mwaitWord) h

theorem formed_execResset {c x : Bool} {a : BitVec 7} {w : BitVec 3} {s : State} (h : Formed s) : OutFormed (execResset c x a w s) := by
  unfold execResset
  exact formed_issue (fun x1 t2 => forms_checks (forms_residWord forms_regWord (fun t3 h4 => formed_id h4))) h

theorem formed_execResclr {c x : Bool} {a : BitVec 7} {w : BitVec 3} {s : State} (h : Formed s) : OutFormed (execResclr c x a w s) := by
  unfold execResclr
  exact formed_issue (fun x1 t2 => forms_residWord forms_regWord (fun t3 h4 => formed_id h4)) h

theorem formed_execResq {c x : Bool} {d a : BitVec 7} {w : BitVec 3} {r : BitVec 1} {s : State} (h : Formed s)
    : OutFormed (execResq c x d a w r s) := by
  unfold execResq
  exact formed_issue (fun x1 t2 => forms_resqWord) h

theorem formed_execMemitV {c x : Bool} {d a n : BitVec 7} {s : State} (h : Formed s) : OutFormed (execMemitV c x d a n s) := by
  unfold execMemitV
  exact formed_issue (fun x1 t2 => forms_memitWord) h

theorem formed_execMemitP {c x : Bool} {d a : BitVec 7} {s : State} (h : Formed s) : OutFormed (execMemitP c x d a s) := by
  unfold execMemitP
  exact formed_issue (fun x1 t2 => forms_memitWord) h

theorem formed_execTamp {c x : Bool} {d a b : BitVec 7} {s : State} (h : Formed s) : OutFormed (execTamp c x d a b s) := by
  unfold execTamp
  exact formed_issue (fun x1 t2 => forms_tampWord) h

theorem formed_execTload {c x : Bool} {d a : BitVec 7} {s : State} (h : Formed s) : OutFormed (execTload c x d a s) := by
  unfold execTload
  exact formed_issue (fun x1 t2 => forms_tloadWord) h

theorem formed_execTstore {c x : Bool} {d a : BitVec 7} {s : State} (h : Formed s) : OutFormed (execTstore c x d a s) := by
  unfold execTstore
  exact formed_issue (fun x1 t2 => forms_tstoreWord) h

theorem formed_execTseal {c : Bool} {s : State} (h : Formed s) : OutFormed (execTseal c s) := by
  unfold execTseal
  exact formed_issue (fun x1 t2 => forms_tsealWord) h

theorem formed_execGzrd {c x : Bool} {d a : BitVec 7} {s : State} (h : Formed s) : OutFormed (execGzrd c x d a s) := by
  unfold execGzrd
  exact formed_issue (fun x1 t2 => forms_gzrdWord) h

theorem forms_tlbinvWord {d a b : BitVec 6} {g : Group} {x : State} : (tlbinvWord d a b g x).Forms := by
  conv => arg 1; fun; fun; fun; fun; fun; delta tlbinvWord
  extract_lets
  split
  · refine forms_sysWord ?_
    refine forms_of_effect ?_
    intro t1 h2
    exact formed_ite (formed_shootdown h2) (formed_onCur (formed_shootdown h2))

theorem formed_execTlbinv {c : Bool} {d a b : BitVec 6} {s : State} (h : Formed s) : OutFormed (execTlbinv c d a b s) := by
  unfold execTlbinv
  exact formed_issue (fun x1 t2 => forms_tlbinvWord) h

theorem formed_execWinv {c : Bool} {d a : BitVec 6} {s : State} (h : Formed s) : OutFormed (execWinv c d a s) := by
  unfold execWinv
  exact formed_issue (fun x1 t2 => forms_winvWord) h

theorem formed_execHmask {c : Bool} {k : BitVec 4} {a b : BitVec 6} {s : State} (h : Formed s) : OutFormed (execHmask c k a b s) := by
  unfold execHmask
  exact formed_issue (fun x1 t2 => forms_hmaskWord) h

theorem formed_execSnap {c : Bool} {s : State} (h : Formed s) : OutFormed (execSnap c s) := by
  unfold execSnap
  exact formed_issue (fun x1 t2 => forms_snapWord) h

theorem formed_takeFrame {c pool entry : Nat} {s t : State} {p : Bool × Nat} (e : takeFrame c pool entry s = some (t, p)) (h : Formed s)
    : Formed t := by
  unfold takeFrame at e
  split at e
  · cases e
  · split at e
    · cases e
    · cases e
      exact formed_onMem (wf_putNat (wf_ite (wf_storeRange (wf_putNat h _ _ _) _ _) (wf_putNat h _ _ _)) _ _ _)

theorem formed_touchMap {t : Team} {va : Dword} {lowRec : Nat → FaultRec} {s : State} (h : Formed s)
    : Formed (touchMap t va lowRec s).2 := by
  unfold touchMap
  split
  · exact h
  · dsimp only
    split
    · exact h
    · split
      · exact h
      · rename_i e
        exact formed_ite (formed_record (formed_takeFrame e h)) (formed_takeFrame e h)
  · exact h

theorem formed_pgmapLanes {t : Team} {g : Group} (ls : List Nat)
    : ∀ {m : Word} {s : State}, Formed s → Formed (pgmapLanes t g ls m s).2 := by
  induction ls with
  | nil => exact fun h => h
  | cons l ls ih =>
    intro m s h
    unfold pgmapLanes
    exact formed_ite_snd (ih h) (ih (formed_touchMap h))

theorem forms_pgmapWord {d : BitVec 6} {g : Group} {x : State} : (pgmapWord d g x).Forms := by
  unfold pgmapWord
  refine forms_sysWord ?_
  refine forms_of_effect ?_
  intro t1 h2
  dsimp only
  exact formed_onCur (formed_pgmapLanes _ h2)

theorem formed_execPgmap {c : Bool} {d : BitVec 6} {s : State} (h : Formed s) : OutFormed (execPgmap c d s) := by
  unfold execPgmap
  exact formed_issue (fun x1 t2 => forms_pgmapWord) h

theorem formed_execBra {c : Bool} {o : BitVec 19} {lit : Option (BitVec 25)} {s : State} (h : Formed s)
    : OutFormed (execBra c o lit s) := by
  unfold execBra
  exact formed_issue (fun x1 t2 => forms_branchWord) h

theorem formed_execBrc {c : Bool} {p : BitVec 3} {o : BitVec 19} {lit : Option (BitVec 25)} {s : State} (h : Formed s)
    : OutFormed (execBrc c p o lit s) := by
  unfold execBrc
  exact formed_issue (fun x1 t2 => forms_branchWord) h

theorem formed_execBrcn {c : Bool} {p : BitVec 3} {o : BitVec 19} {lit : Option (BitVec 25)} {s : State} (h : Formed s)
    : OutFormed (execBrcn c p o lit s) := by
  unfold execBrcn
  exact formed_issue (fun x1 t2 => forms_branchWord) h

theorem formed_execBru {c : Bool} {p : BitVec 3} {o : BitVec 19} {lit : Option (BitVec 25)} {s : State} (h : Formed s)
    : OutFormed (execBru c p o lit s) := by
  unfold execBru
  exact formed_issue (fun x1 t2 => forms_branchWord) h

theorem formed_keepRead {k : Nat} {va : Dword} {s : State} (h : Formed s) : Formed (keepRead k va s) := by
  unfold keepRead
  dsimp only
  split
  · exact formed_ite (formed_keepTr h) (formed_keepLine (formed_readVia (formed_keepTr h)))
  · exact h

theorem formed_pop {k : Nat} {s : State} (h : Formed s) : Formed (pop k s) := by
  unfold pop
  exact formed_onGroup (formed_ite (formed_keepRead h) h)

theorem formed_returnTrap {k : Nat} {e : StackEntry} {adv : Bool} {resume : Dword} {s : State} (h : Formed s)
    : Formed (returnTrap k e adv resume s) := by
  unfold returnTrap
  exact formed_onGroup (formed_pop h)

theorem forms_joinTrap {e : StackEntry} {g : Group} {s : State} : (joinTrap e g s).Forms := by
  unfold joinTrap
  refine forms_ite (forms_ctlWord (fun t1 h2 => formed_returnTrap h2)) ?_
  dsimp only
  split
  · exact forms_ctlWord (fun t1 h2 => formed_returnTrap (formed_fetchFor h2))
  · exact forms_still
  · exact forms_ctlWord (fun t1 h2 => formed_id h2)
  · exact forms_ctlWord (fun t1 h2 => formed_id h2)

theorem formed_vacateGo {k : Nat} (n : Nat) : ∀ {s : State}, Formed s → Formed (vacateGo k n s) := by
  induction n with
  | zero => exact fun h => formed_exitGroup h
  | succ n ih =>
    intro s h
    unfold vacateGo
    dsimp only
    split
    · exact formed_exitGroup h
    · exact formed_ite (formed_takeTrap h) (formed_ite (formed_onGroup h) (formed_ite (formed_onGroup (formed_pop h)) (ih (formed_pop
          h))))

theorem formed_vacate {k : Nat} {s : State} (h : Formed s) : Formed (vacate k s) := by
  unfold vacate
  exact formed_vacateGo _ h

theorem forms_joinWord {g : Group} {s : State} : (joinWord g s).Forms := by
  unfold joinWord
  dsimp only
  split
  · exact forms_still
  · split
    · exact forms_still
    · exact forms_still
    · exact forms_ite forms_still forms_joinTrap
    · exact forms_ite (forms_ctlWord (fun t1 h2 => formed_onCur (formed_setTop h2))) (forms_ite (forms_checks (forms_vacateWord (fun t1 h2
          => formed_vacate (formed_onCur (formed_pop h2))))) (forms_checks (forms_ctlWord (fun t1 h2 => formed_onCur (formed_pop h2)))))

theorem formed_execJoin {c : Bool} {s : State} (h : Formed s) : OutFormed (execJoin c s) := by
  unfold execJoin
  exact formed_issue (fun x1 t2 => forms_joinWord) h

theorem formed_execBrx {c : Bool} {sb : BitVec 6} {s : State} (h : Formed s) : OutFormed (execBrx c sb s) := by
  unfold execBrx
  exact formed_issue (fun x1 t2 => forms_brxWord) h

theorem forms_loopWord {p : BitVec 3} {o : BitVec 19} {lit : Option (BitVec 25)} {g : Group} {s : State}
    : (loopWord p o lit g s).Forms := by
  unfold loopWord
  refine forms_ite ?_ ?_
  · refine forms_ite (forms_ctlWord (fun t1 h2 => formed_onCur h2)) ?_
    split
    · exact forms_ctlWord (fun t1 h2 => formed_onCur (formed_setTop h2))
    · exact forms_ctlWord (fun t1 h2 => formed_onCur (formed_push h2))
  · split
    · exact forms_ctlWord (fun t1 h2 => formed_onCur (formed_pop h2))
    · exact forms_still

theorem formed_execLoop {c : Bool} {p : BitVec 3} {o : BitVec 19} {lit : Option (BitVec 25)} {s : State} (h : Formed s)
    : OutFormed (execLoop c p o lit s) := by
  unfold execLoop
  exact formed_issue (fun x1 t2 => forms_loopWord) h

theorem formed_execCall {c : Bool} {o : BitVec 19} {lit : Option (BitVec 25)} {s : State} (h : Formed s)
    : OutFormed (execCall c o lit s) := by
  unfold execCall
  exact formed_issue (fun x1 t2 => forms_callWord) h

theorem forms_retWord {g : Group} {s : State} : (retWord g s).Forms := by
  unfold retWord
  split
  · exact forms_still
  · exact forms_ite forms_still (forms_ite (forms_vacateWord (fun t1 h2 => formed_vacate (formed_onCur (formed_pop h2)))) (forms_ctlWord
        (fun t1 h2 => formed_onCur (formed_pop h2))))

theorem formed_execRet {c : Bool} {s : State} (h : Formed s) : OutFormed (execRet c s) := by
  unfold execRet
  exact formed_issue (fun x1 t2 => forms_retWord) h

theorem formed_exitLanes {x : Word} {s : State} (h : Formed s) : Formed (exitLanes x s) := by
  unfold exitLanes
  exact formed_ite (formed_vacate (formed_onCur (formed_ite h (formed_foldl (fun t1 x2 h3 => formed_stripSpilled h3) h)))) (formed_onCur
      (formed_ite h (formed_foldl (fun t1 x2 h3 => formed_stripSpilled h3) h)))

theorem forms_exitWord {p : BitVec 3} {g : Group} {s : State} : (exitWord p g s).Forms := by
  unfold exitWord
  exact forms_checks (forms_ctlWord (fun t1 h2 => formed_exitLanes h2))

theorem formed_execExit {c : Bool} {p : BitVec 3} {s : State} (h : Formed s) : OutFormed (execExit c p s) := by
  unfold execExit
  exact formed_issue (fun x1 t2 => forms_exitWord) h

theorem formed_execTrap {c : Bool} {p : BitVec 3} {s : State} (h : Formed s) : OutFormed (execTrap c p s) := by
  unfold execTrap
  exact formed_issue (fun x1 t2 => forms_softTrap) h

theorem formed_execBrk {c : Bool} {p : BitVec 3} {s : State} (h : Formed s) : OutFormed (execBrk c p s) := by
  unfold execBrk
  exact formed_issue (fun x1 t2 => forms_softTrap) h

theorem formed_execYield {c : Bool} {s : State} (h : Formed s) : OutFormed (execYield c s) := by
  unfold execYield
  exact formed_issue (fun x1 t2 => ⟨keeps_id, keeps_id, keeps_id, keeps_ctl (fun t3 h4 => formed_onCur h4), keeps_id, keeps_id⟩) h

theorem formed_execSleep {c : Bool} {n : BitVec 19} {s : State} (h : Formed s) : OutFormed (execSleep c n s) := by
  unfold execSleep
  exact formed_issue (fun x1 t2 => ⟨keeps_id, keeps_id, keeps_id, keeps_ctl (fun t3 h4 => formed_onCur h4), keeps_id, keeps_id⟩) h

theorem formed_execBar {c : Bool} {s : State} (h : Formed s) : OutFormed (execBar c s) := by
  unfold execBar
  exact formed_issue (fun x1 t2 => forms_barWord) h

theorem formed_execBarPub {c : Bool} {s : State} (h : Formed s) : OutFormed (execBarPub c s) := by
  unfold execBarPub
  exact formed_issue (fun x1 t2 => forms_barWord) h

theorem formed_execBarRealloc {c : Bool} {d a : BitVec 6} {s : State} (h : Formed s) : OutFormed (execBarRealloc c d a s) := by
  unfold execBarRealloc
  exact formed_issue (fun x1 t2 => forms_barReallocWord) h

theorem formed_execBarArrive {c : Bool} {s : State} (h : Formed s) : OutFormed (execBarArrive c s) := by
  unfold execBarArrive
  exact formed_issue (fun x1 t2 => ⟨keeps_id, keeps_id, keeps_id, keeps_ctl (fun t3 h4 => formed_settleBarrier (formed_arrive h4)),
      keeps_id, keeps_id⟩) h

theorem formed_execBarWait {c : Bool} {s : State} (h : Formed s) : OutFormed (execBarWait c s) := by
  unfold execBarWait
  exact formed_issue (fun x1 t2 => forms_barWaitWord) h

theorem formed_execLgrow {c : Bool} {d a : BitVec 6} {s : State} (h : Formed s) : OutFormed (execLgrow c d a s) := by
  unfold execLgrow
  exact formed_issue (fun x1 t2 => forms_lgrowWord) h

theorem formed_execEvpost {c : Bool} {a : BitVec 6} {s : State} (h : Formed s) : OutFormed (execEvpost c a s) := by
  unfold execEvpost
  exact formed_issue (fun x1 t2 => forms_evpostWord) h

theorem formed_execDepdec {c : Bool} {a : BitVec 6} {s : State} (h : Formed s) : OutFormed (execDepdec c a s) := by
  unfold execDepdec
  exact formed_issue (fun x1 t2 => forms_depdecWord) h

theorem formed_execDepset {c : Bool} {a b : BitVec 6} {s : State} (h : Formed s) : OutFormed (execDepset c a b s) := by
  unfold execDepset
  exact formed_issue (fun x1 t2 => forms_depsetWord) h

theorem formed_execMmq {c : Bool} {d a : BitVec 7} {sb : BitVec 6} {h' : BitVec 1} {s : State} (h : Formed s)
    : OutFormed (execMmq c d a sb h' s) := by
  unfold execMmq
  exact formed_issue (fun x1 t2 => forms_mmqWord) h

theorem formed_execMmqs {c : Bool} {d a : BitVec 7} {sb : BitVec 6} {h' : BitVec 1} {s : State} (h : Formed s)
    : OutFormed (execMmqs c d a sb h' s) := by
  unfold execMmqs
  exact formed_issue (fun x1 t2 => forms_mmqsWord) h

theorem formed_execMtile {c : Bool} {d : BitVec 7} {sb : BitVec 6} {h' : BitVec 1} {s : State} (h : Formed s)
    : OutFormed (execMtile c d sb h' s) := by
  unfold execMtile
  exact formed_issue (fun x1 t2 => forms_mtileWord) h

theorem formed_execWbinv {c : Bool} {a : BitVec 6} {s : State} (h : Formed s) : OutFormed (execWbinv c a s) := by
  unfold execWbinv
  exact formed_issue (fun x1 t2 => forms_wbinvWord) h

theorem formed_execWbstat {c : Bool} {d a : BitVec 6} {s : State} (h : Formed s) : OutFormed (execWbstat c d a s) := by
  unfold execWbstat
  exact formed_issue (fun x1 t2 => forms_wbstatWord) h

theorem formed_execHad16 {c x : Bool} {d a : BitVec 7} {m : BitVec 6} {s : State} (h : Formed s) : OutFormed (execHad16 c x d a m s) := by
  unfold execHad16
  exact formed_issue (fun x1 t2 => forms_hadWord) h

theorem formed_execHad32 {c x : Bool} {d a : BitVec 7} {m : BitVec 6} {s : State} (h : Formed s) : OutFormed (execHad32 c x d a m s) := by
  unfold execHad32
  exact formed_issue (fun x1 t2 => forms_hadWord) h

theorem formed_execHad64 {c x : Bool} {d a : BitVec 7} {m : BitVec 6} {s : State} (h : Formed s) : OutFormed (execHad64 c x d a m s) := by
  unfold execHad64
  exact formed_issue (fun x1 t2 => forms_hadWord) h

theorem formed_execAbsmax {c x : Bool} {d a : BitVec 7} {m : BitVec 6} {s : State} (h : Formed s)
    : OutFormed (execAbsmax c x d a m s) := by
  unfold execAbsmax
  exact formed_issue (fun x1 t2 => forms_absmaxWord) h

theorem formed_execQuant {c x : Bool} {d a : BitVec 7} {m : BitVec 6} {s : State} (h : Formed s) : OutFormed (execQuant c x d a m s) := by
  unfold execQuant
  exact formed_issue (fun x1 t2 => forms_quantWord) h

theorem formed_execBmenc {c x : Bool} {d a : BitVec 7} {m : BitVec 6} {s : State} (h : Formed s) : OutFormed (execBmenc c x d a m s) := by
  unfold execBmenc
  exact formed_issue (fun x1 t2 => forms_bmencWord) h

theorem formed_execBmdec {c x : Bool} {d a : BitVec 7} {m : BitVec 6} {s : State} (h : Formed s) : OutFormed (execBmdec c x d a m s) := by
  unfold execBmdec
  exact formed_issue (fun x1 t2 => forms_bmdecWord) h

theorem formed_execPscan {c x : Bool} {d a : BitVec 7} {m : BitVec 6} {s : State} (h : Formed s) : OutFormed (execPscan c x d a m s) := by
  unfold execPscan
  exact formed_issue (fun x1 t2 => forms_pscanWord) h

theorem formed_execLztok {c x : Bool} {d a : BitVec 7} {s : State} (h : Formed s) : OutFormed (execLztok c x d a s) := by
  unfold execLztok
  exact formed_issue (fun x1 t2 => forms_lztokWord) h

theorem formed_serveAccess {j src id asid pa size : Nat} {op : ReqOp} {data : BitVec 128} {s : State} (h : Formed s)
    : Formed (serveAccess j src id asid pa size op data s) := by
  unfold serveAccess
  refine formed_ite h ?_
  split
  · exact formed_queueMsg (formed_record h)
  · exact formed_ite (formed_queueMsg (formed_record h)) (formed_putReq h)

theorem formed_serveMsg {j src : Nat} {m : FabricMsg} {s : State} (h : Formed s) : Formed (serveMsg j src m s) := by
  unfold serveMsg
  dsimp only
  split
  · exact formed_serveAccess h
  · exact formed_serveScratch h
  · exact formed_mk (formed_freshId h)
  · split
    · exact formed_ite (formed_answer h) h
    · exact h

theorem formed_serveClass {j : BitVec 7} {tc : BitVec 2} (n : Nat) : ∀ {s : State}, Formed s → Formed (serveClass j tc n s) := by
  induction n with
  | zero => exact fun h => h
  | succ n ih =>
    intro s h
    unfold serveClass
    dsimp only
    split
    · exact h
    · exact ih (formed_serveMsg (formed_setLink h))

theorem formed_servePort {l : LinkId} {s : State} (h : Formed s) : Formed (servePort l s) := by
  unfold servePort
  split
  · exact formed_ite h (formed_foldl (fun t1 x2 h3 => formed_serveClass _ h3) h)
  · exact h

theorem formed_assignPackage {s : State} (h : Formed s) : Formed (assignPackage s) := by
  unfold assignPackage
  exact formed_foldl (fun t1 x2 h3 => formed_servePort h3) (formed_mk h)

theorem formed_bringUp {n : Nat} {s : State} (h : Formed s) : Formed (bringUp n s) := by
  unfold bringUp
  exact formed_ite (formed_foldl (fun t1 x2 h3 => formed_startCtl h3) (formed_releaseDie (formed_mk h))) (formed_ite (formed_startHbm
      (formed_mk h)) (formed_ite (formed_releaseDie (formed_mk h)) (formed_ite (formed_linksUp (formed_mk h)) (formed_ite (formed_linksUp
      (formed_mk h)) (formed_ite (formed_assignPackage (formed_mk h)) (formed_startOs (formed_createContext0 (formed_mk h))))))))

theorem formed_execPowerOn {s : State} (h : Formed s) : OutFormed (execPowerOn s) := by
  unfold execPowerOn
  split
  · exact outFormed_next (formed_runRom h)
  · exact outFormed_next (formed_bringUp h)
  · exact outFormed_refused _

theorem formed_resetDevice {s : State} : Formed (resetDevice s) := wf_coldState _

theorem formed_releaseRcbinv {d : Nat} (n : Nat) : ∀ {s : State}, Formed s → Formed (releaseRcbinv d n s) := by
  induction n with
  | zero => exact fun h => h
  | succ n ih =>
    intro s h
    unfold releaseRcbinv
    split
    · exact formed_ite h (ih (formed_startRcbinv (formed_onDie h)))
    · exact h

theorem formed_endRcbinv {d : Nat} {s : State} (h : Formed s) : Formed (endRcbinv d s) := by
  unfold endRcbinv
  exact formed_releaseRcbinv _ (formed_onDie h)

theorem formed_execRcbInvalidationDone {die : BitVec 3} {s : State} (h : Formed s) : OutFormed (execRcbInvalidationDone die s) := by
  unfold execRcbInvalidationDone
  exact outFormed_ite (outFormed_next (formed_endRcbinv h)) (outFormed_refused _)

theorem formed_execWtreplayByPage {die : BitVec 3} {w : BitVec 64} {s : State} (h : Formed s)
    : OutFormed (execWtreplayByPage die w s) := by
  unfold execWtreplayByPage
  exact outFormed_ite (outFormed_next (formed_writeWtreplay h)) (outFormed_refused _)

theorem formed_execWtreplayByToken {die : BitVec 3} {w : BitVec 64} {s : State} (h : Formed s)
    : OutFormed (execWtreplayByToken die w s) := by
  unfold execWtreplayByToken
  exact outFormed_ite (outFormed_next (formed_writeWtreplay h)) (outFormed_refused _)

theorem formed_execWtreplayByAsid {die : BitVec 3} {w : BitVec 64} {s : State} (h : Formed s)
    : OutFormed (execWtreplayByAsid die w s) := by
  unfold execWtreplayByAsid
  exact outFormed_ite (outFormed_next (formed_writeWtreplay h)) (outFormed_refused _)

theorem formed_execDspostWrite {die : BitVec 3} {cc : BitVec 4} {w : BitVec 64} {s : State} (h : Formed s)
    : OutFormed (execDspostWrite die cc w s) := by
  unfold execDspostWrite
  exact outFormed_next (formed_writeDspost h)

theorem formed_execDomswWrite {w : BitVec 32} {s : State} (h : Formed s) : OutFormed (execDomswWrite w s) := by
  unfold execDomswWrite
  exact outFormed_next (formed_writeDomsw h)

theorem formed_execDeviceRegisterWrite {pa : BitVec 46} {wide : Bool} {w : BitVec 64} {s : State} (h : Formed s)
    : OutFormed (execDeviceRegisterWrite pa wide w s) := by
  unfold execDeviceRegisterWrite
  exact outFormed_ite (outFormed_next (formed_devStore h)) (outFormed_refused _)

theorem formed_execFlitReceive {link : LinkId} {header : BitVec 64} {beats : List (BitVec 8)} {s : State} (h : Formed s)
    : OutFormed (execFlitReceive link header beats s) := by
  unfold execFlitReceive
  exact outFormed_ite (outFormed_next (formed_servePort (formed_setLink h))) (outFormed_refused _)

theorem formed_dmaWritePart {port d c : Nat} {p : DmaPart × Nat} {bs : List Byte} {s : State} (h : Formed s)
    : Formed (dmaWritePart port d c p bs s) := by
  unfold dmaWritePart
  split
  · exact formed_writeVia h
  · exact formed_record h
  · exact formed_ite (formed_devStore h) h
  · exact h

theorem formed_dmaWriteAll {port d c : Nat} (ps : List (DmaPart × Nat))
    : ∀ {bs : List Byte} {s : State}, Formed s → Formed (dmaWriteAll port d c ps bs s) := by
  induction ps with
  | nil => exact fun h => h
  | cons p ps ih => exact fun h => ih (formed_dmaWritePart h)

theorem formed_dmaReadPart {port d c : Nat} {p : DmaPart × Nat} {s : State} (h : Formed s) : Formed (dmaReadPart port d c p s).2 := by
  unfold dmaReadPart
  dsimp only
  split
  · exact formed_ite_snd (formed_mk (formed_readVia h)) (formed_readVia h)
  · exact formed_record h
  · exact h

theorem formed_dmaReadAll {port d c : Nat} (ps : List (DmaPart × Nat))
    : ∀ {s : State}, Formed s → Formed (dmaReadAll port d c ps s).2 := by
  induction ps with
  | nil => exact fun h => h
  | cons p ps ih => exact fun h => ih (formed_dmaReadPart h)

theorem formed_dmaServe {port rid : Nat} {write : Bool} {addr : Dword} {n : Nat} {data : List Byte} {s : State} (h : Formed s)
    : Formed (dmaServe port rid write addr n data s) := by
  unfold dmaServe
  refine formed_ite (formed_dmaFail h) ?_
  refine formed_ite (formed_dmaFail h) ?_
  refine formed_ite (formed_dmaWriteAll _ h) ?_
  dsimp only
  exact formed_dmaAnswer (formed_dmaReadAll _ h)

theorem formed_execDmaRequest {port : BitVec 2} {rid : BitVec 16} {write : Bool} {addr : BitVec 64} {len : Nat} {data : List (BitVec 8)}
    {s : State} (h : Formed s) : OutFormed (execDmaRequest port rid write addr len data s) := by
  unfold execDmaRequest
  exact outFormed_ite (outFormed_next (formed_dmaServe h)) (outFormed_refused _)

theorem wf_ringPut {base log : Nat} {bs : List Byte} {m : Mem} (h : Memory.wf m.hbm) : Memory.wf (ringPut base log bs m).1.hbm := by
  unfold ringPut
  dsimp only
  split
  · exact wf_putNat h _ _ _
  · exact wf_putNat (wf_storeReach h) _ _ _

theorem formed_updateCounter {d n : Nat} {s : State} (h : Formed s) : Formed (updateCounter d n s) := by
  unfold updateCounter
  exact foldl_keeps (P := fun a : Option Nat × State => Formed a.2) (fun _ _ ha => formed_applyCtr ha) _ _ (formed_onDie h)

theorem formed_execCounterUpdate {die : BitVec 3} {n : BitVec 12} {s : State} (h : Formed s) : OutFormed (execCounterUpdate die n s) := by
  unfold execCounterUpdate
  exact outFormed_ite (outFormed_next (formed_updateCounter h)) (outFormed_refused _)

theorem formed_engineWrite {d c : Nat} {va : Dword} {bs : List Byte} {s : State} (h : Formed s) : Formed (engineWrite d c va bs s).2 := by
  unfold engineWrite
  refine foldl_keeps (P := fun a : Except (Reason × Dword) Unit × List Byte × State => Formed a.2.2) (fun a p ha => ?_) _ _ h
  obtain ⟨r, rest, t⟩ := a
  dsimp only
  split
  · exact ha
  · split
    · exact ha
    · split
      · exact ha
      · exact formed_writeVia ha

theorem formed_writeDraw {die : Nat} {c : Card} {s : State} (h : Formed s) : Formed (writeDraw die c s) := by
  unfold writeDraw
  exact formed_ite h (formed_ite (formed_engineWrite (formed_engineWrite h)) (formed_engineWrite h))

theorem formed_writeStats {die : Nat} {c : Card} {s : State} (h : Formed s) : Formed (writeStats die c s) := by
  unfold writeStats
  refine formed_ite (formed_clearStats h) ?_
  dsimp only
  split
  · exact formed_record (formed_of_pair ‹_› (formed_engineWrite (formed_clearStats h)))
  · split
    · exact formed_record (formed_of_pair ‹_› (formed_engineWrite (formed_of_pair ‹_› (formed_engineWrite (formed_clearStats h)))))
    · exact formed_of_pair ‹_› (formed_engineWrite (formed_of_pair ‹_› (formed_engineWrite (formed_clearStats h))))

theorem formed_retireLaunch {die slot : Nat} {s : State} (h : Formed s) : Formed (retireLaunch die slot s) := by
  unfold retireLaunch
  dsimp only
  split
  · exact h
  · exact formed_endCard (formed_ite (formed_record (formed_ite (formed_clearStats (formed_ite (formed_sendMarkers (formed_writeDraw h))
        h)) (formed_writeStats (formed_ite (formed_sendMarkers (formed_writeDraw h)) h)))) (formed_decSuccessors (formed_ite
        (formed_clearStats (formed_ite (formed_sendMarkers (formed_writeDraw h)) h)) (formed_writeStats (formed_ite (formed_sendMarkers
        (formed_writeDraw h)) h)))))

theorem formed_execLaunchRetirement {die : BitVec 3} {slot : BitVec 12} {s : State} (h : Formed s)
    : OutFormed (execLaunchRetirement die slot s) := by
  unfold execLaunchRetirement
  split
  · exact outFormed_ite (outFormed_next (formed_retireLaunch h)) (outFormed_refused _)
  · exact outFormed_refused _

theorem formed_jobTr {d : Nat} {c : Card} {va : Dword} {write : Bool} {s : State} (h : Formed s) : Formed (jobTr d c va write s).2 := by
  unfold jobTr
  dsimp only
  split
  · exact h
  · split
    · refine formed_ite_snd h ?_
      split
      · exact formed_of_pair ‹_› (formed_touchMap h)
      · exact formed_of_pair ‹_› (formed_touchMap h)
    · exact h

theorem formed_jobRead {d : Nat} {c : Card} {va : Dword} {n : Nat} {s : State} (h : Formed s) : Formed (jobRead d c va n s).2 := by
  unfold jobRead
  split
  · exact formed_of_pair ‹_› (formed_jobTr h)
  · split
    · exact formed_of_pair ‹_› (formed_jobTr h)
    · exact formed_ite_snd (formed_readVia (formed_of_pair ‹_› (formed_jobTr h))) (formed_ite_snd (formed_readVia (formed_of_pair ‹_›
          (formed_jobTr h))) (formed_readVia (formed_of_pair ‹_› (formed_jobTr h))))

theorem formed_jobWrite {d : Nat} {c : Card} {va : Dword} {bs : List Byte} {s : State} (h : Formed s)
    : Formed (jobWrite d c va bs s).2 := by
  unfold jobWrite
  split
  · exact formed_of_pair ‹_› (formed_jobTr h)
  · split
    · exact formed_of_pair ‹_› (formed_jobTr h)
    · exact formed_writeVia (formed_of_pair ‹_› (formed_jobTr h))

theorem formed_lzOut {j : LzJob} {b : Byte} {r : LzRun} (h : Formed r.s) : Formed (lzOut j b r).s := by
  unfold lzOut
  dsimp only
  split
  · exact formed_LzRun_fault (formed_of_pair ‹_› (formed_jobTr h))
  · split
    · exact formed_LzRun_fault (formed_of_pair ‹_› (formed_jobWrite (formed_of_pair ‹_› (formed_jobTr h))))
    · exact formed_of_pair ‹_› (formed_jobWrite (formed_of_pair ‹_› (formed_jobTr h)))

theorem formed_wakeEntry {act : Bool} {d : Nat} {ks : List Nat} {s : State} (h : Formed s) : Formed (wakeEntry act d ks s) := by
  unfold wakeEntry
  exact formed_sweepWaits (formed_wakeAll _ h)

theorem formed_rewalk {d i : Nat} {e : WaitEntry} {s : State} (h : Formed s) : Formed (rewalk d i e s) := by
  unfold rewalk
  exact formed_ite (formed_wakeEntry (formed_onDie h)) (formed_onDie h)

theorem formed_execWaitTableRewalk {die : BitVec 3} {entry : BitVec 10} {s : State} (h : Formed s)
    : OutFormed (execWaitTableRewalk die entry s) := by
  unfold execWaitTableRewalk
  split
  · exact outFormed_ite (outFormed_next (formed_rewalk h)) (outFormed_refused _)
  · exact outFormed_refused _

theorem formed_resumeSibling {k : Nat} {s : State} (h : Formed s) : Formed (resumeSibling k s) := by
  unfold resumeSibling
  dsimp only
  split
  · exact formed_onGroup (formed_pop h)
  · exact formed_onGroup (formed_keepAddrs h)
  · exact formed_parkWith h
  · exact formed_onGroup h

theorem formed_execSibhaltPop {group : Nat} {s : State} (h : Formed s) : OutFormed (execSibhaltPop group s) := by
  unfold execSibhaltPop
  exact outFormed_ite (outFormed_next (formed_resumeSibling h)) (outFormed_refused _)

theorem wf_countNack {pa : Nat} {m : Mem} (h : Memory.wf m.hbm) : Memory.wf (countNack pa m).hbm := wf_countSlice (fun _ => wf_mk h) h

theorem formed_missAt {i : Nat} {r : Req} {s : State} (h : Formed s) : Formed (missAt i r s) := by
  unfold missAt
  exact formed_ite (formed_ite (formed_onReq (formed_onMem (wf_countMiss h))) (formed_onReq h)) (formed_ite (formed_onReq (formed_onMem
      (wf_countMiss (wf_mk h)))) (formed_onReq h))

theorem formed_serveAt {hit : Bool} {i : Nat} {r : Req} {s : State} (h : Formed s) : Formed (serveAt hit i r s) := by
  unfold serveAt
  dsimp only
  split
  · exact formed_missAt h
  · split
    · exact formed_ite (formed_failReq (formed_loseLine h)) (formed_missAt (formed_loseLine h))
    · exact formed_performAt (formed_meetErr (formed_ite (formed_onMem (wf_countHit h)) h))
    · exact formed_performAt (formed_ite (formed_onMem (wf_countHit h)) h)

theorem formed_arriveReq {i : Nat} {s : State} (h : Formed s) : Formed (arriveReq i s) := by
  unfold arriveReq
  dsimp only
  split
  · refine formed_onReq ?_
    refine formed_onMem ?_
    refine wf_mk ?_
    split
    · exact formed_crossReq h
    · exact h
  · refine formed_ite ?_ ?_
    · refine formed_onReq ?_
      refine formed_onMem ?_
      refine wf_countNack ?_
      refine formed_onReq ?_
      refine formed_onMem ?_
      refine wf_mk ?_
      split
      · exact formed_crossReq h
      · exact h
    · refine formed_ite ?_ ?_
      · refine formed_failReq ?_
        refine formed_onReq ?_
        refine formed_onMem ?_
        refine wf_mk ?_
        split
        · exact formed_crossReq h
        · exact h
      · refine formed_ite ?_ ?_
        · refine formed_onReq ?_
          refine formed_onReq ?_
          refine formed_onMem ?_
          refine wf_mk ?_
          split
          · exact formed_crossReq h
          · exact h
        · refine formed_ite ?_ ?_
          · refine formed_ite ?_ ?_
            · refine formed_onReq ?_
              refine formed_onMem ?_
              refine wf_countNack ?_
              refine formed_onReq ?_
              refine formed_onMem ?_
              refine wf_mk ?_
              split
              · exact formed_crossReq h
              · exact h
            · refine formed_onReq ?_
              refine formed_onReq ?_
              refine formed_onMem ?_
              refine wf_mk ?_
              split
              · exact formed_crossReq h
              · exact h
          · refine formed_serveAt ?_
            refine formed_onReq ?_
            refine formed_onMem ?_
            refine wf_mk ?_
            split
            · exact formed_crossReq h
            · exact h

theorem formed_execLlcRequest {req : Nat} {s : State} (h : Formed s) : OutFormed (execLlcRequest req s) := by
  unfold execLlcRequest
  exact outFormed_ite (outFormed_next (formed_arriveReq h)) (outFormed_refused _)

theorem formed_releaseDomsw (n : Nat) : ∀ {s : State}, Formed s → Formed (releaseDomsw n s) := by
  induction n with
  | zero => exact fun h => h
  | succ n ih =>
    intro s h
    unfold releaseDomsw
    split
    · exact formed_ite h (ih (formed_startDomsw (formed_onMem (wf_mk h))))
    · exact h

theorem formed_switchPhase {x : DomSwitch} {s : State} (h : Formed s) : Formed (switchPhase x s) := by
  unfold switchPhase
  exact formed_ite (formed_onMem (wf_mk (wf_flushLines h _))) (formed_releaseDomsw _ (formed_beginSwitches _ (formed_answerSwitch
      (formed_onMem (wf_mk h)))))

theorem formed_execDomainSwitchPhase {s : State} (h : Formed s) : OutFormed (execDomainSwitchPhase s) := by
  unfold execDomainSwitchPhase
  refine outFormed_ite ?_ (outFormed_refused _)
  split
  · exact outFormed_next (formed_switchPhase h)
  · exact outFormed_next (formed_beginSwitches _ h)

theorem formed_engMeet {a : Actor} {va : Dword} {tg : Target} {n : Nat} {acc : Acc} {s : State} (h : Formed s)
    : Formed (engMeet a va tg n acc s).2 := by
  unfold engMeet
  split
  · exact formed_ite (formed_readVia h) h
  · exact h

theorem formed_engResolve {a : Actor} {f : State → Target} {va : Dword} {n : Nat} {acc : Acc} {s : State} (h : Formed s)
    : Formed (engResolve a f va n acc s).2 := by
  unfold engResolve
  dsimp only
  split
  · split
    · exact formed_engMeet (formed_of_pair ‹_› (formed_touchMap h))
    · exact formed_of_pair ‹_› (formed_touchMap h)
  · exact formed_engMeet h

theorem formed_engWrite {h' core : Nat} {tg : Target} {bs : List Byte} {s : State} (h : Formed s)
    : Formed (engWrite h' core tg bs s) := by
  unfold engWrite
  dsimp only
  split
  · exact formed_ite (formed_dropLines (formed_writeVia h)) (formed_ite (formed_devStore h) (formed_mk h))
  · exact formed_onTeam h
  · exact h

theorem formed_copyWrite {c : LaneCopy} {core : Nat} {tg : Target} {bs : List Byte} {s : State} (h : Formed s)
    : Formed (copyWrite c core tg bs s) := by
  unfold copyWrite
  split
  · exact h
  · exact formed_engWrite h

theorem formed_engRead {t : Team} {tg : Target} {n : Nat} {s : State} (h : Formed s) : Formed (engRead t tg n s).2 := by
  unfold engRead
  dsimp only
  split
  · exact formed_ite_snd (formed_readVia h) (formed_ite_snd h (formed_mk (formed_draw h)))
  · exact h
  · exact h

theorem formed_doLane {id : Nat} {c : LaneCopy} {s : State} (h : Formed s) : Formed (doLane id c s) := by
  unfold doLane
  refine formed_ite ?_ ?_
  · split
    · exact formed_failLane (formed_of_pair ‹_› (formed_engResolve h))
    · exact formed_endLane (formed_copyWrite (formed_of_pair ‹_› (formed_engResolve h)))
  · refine formed_ite (formed_endLane (formed_copyWrite h)) ?_
    dsimp only
    split
    · exact formed_failLane (formed_of_pair ‹_› (formed_engResolve h))
    · exact formed_endLane (formed_copyWrite (formed_engRead (formed_of_pair ‹_› (formed_engResolve h))))

theorem formed_execCpaCopyComplete {copy : Nat} {s : State} (h : Formed s) : OutFormed (execCpaCopyComplete copy s) := by
  unfold execCpaCopyComplete
  split
  · exact outFormed_ite (outFormed_refused _) (outFormed_next (formed_doLane h))
  · exact outFormed_refused _

theorem formed_engVa {a : Actor} {va : Dword} {n : Nat} {acc : Acc} {s : State} (h : Formed s) : Formed (engVa a va n acc s).2 := by
  unfold engVa
  exact formed_ite_snd h (formed_engResolve h)

theorem formed_readElem {b : Bulk} {r : QuantRead} {n : Nat} (h : Formed r.s) : Formed (readElem b r n).s := by
  unfold readElem
  dsimp only
  split
  · exact h
  · split
    · exact h
    · split
      · exact formed_engRead (formed_of_pair ‹_› (formed_engVa h))
      · exact formed_of_pair ‹_› (formed_engVa h)

theorem formed_farMeet {b : Bulk} {off n : Nat} {s : State} (h : Formed s) : Formed (farMeet b off n s) := by
  unfold farMeet
  split
  · exact formed_crossBoth h
  · exact formed_readVia h
  · exact h

theorem formed_moveElem {b : Bulk} {n : Nat} {r : CopyRun} (h : Formed r.s) : Formed (moveElem b n r).s := by
  unfold moveElem
  dsimp only
  split
  · exact h
  · split
    · exact formed_ite (formed_farMeet h) h
    · split
      · split
        · exact h
        · split
          · exact formed_engWrite (formed_of_pair ‹_› (formed_engVa (formed_farMeet h)))
          · exact formed_of_pair ‹_› (formed_engVa (formed_farMeet h))
      · split
        · exact formed_farWrite h
        · split
          · exact formed_farWrite (formed_engRead (formed_of_pair ‹_› (formed_engVa h)))
          · exact formed_of_pair ‹_› (formed_engVa h)

/-! The words of many accesses, the fault rings, and the decompression engine. -/

theorem forms_gatherWord {base : WordOut} {a : Nat} {imm : Dword} {z : Nat} {acc : Acc} {run : List LaneAt → State → State} {g : Group}
    (h_base : base.Forms) (h_run : ∀ las, Keeps (run las)) : (gatherWord base a imm z acc run g s).Forms := by
  unfold gatherWord
  refine forms_onFault (forms_accessWord h_base fun t ht => ?_) fun t ht => ?_
  · exact formed_ite_app (formed_onCur (h_run _ ht)) (h_run _ ht)
  · exact formed_ite_app (formed_onCur (h_run _ ht)) ht

theorem forms_rtravStepWord {x : Bool} {d : BitVec 7} {g : Group} : (rtravStepWord x d g s).Forms := by
  unfold rtravStepWord
  exact forms_onFault (forms_accessWord forms_regWord fun t ht => formed_onCur (formed_aKeep ht)) fun t ht => formed_aFail ht

theorem forms_mmqgWord {d a : BitVec 7} {sf : BitVec 6} {ovr : Bool} {g : Group} : (mmqgWord d a sf ovr g s).Forms := by
  unfold mmqgWord
  have hw := fun las rows => forms_matWord (d := d) (sf := sf) (ovr := ovr) (aRegs := [{ first := a.toNat, count := 2, align := 2 }])
    (g := g) (s := s) (las := las) (shadow := true) (rows := rows) (pre := aKeep (curTeam s) las) fun _ ht => formed_aKeep ht
  exact forms_onFault (hw _ _) fun t ht => (hw _ _).onFault (formed_aFail ht)

theorem formed_writeRecord {r : FaultRec} {seq : Word} (h : Formed s) : Formed (writeRecord r seq s) := by
  unfold writeRecord
  generalize queueOf s r = q
  obtain ⟨base, log, cc, irq⟩ := q
  have hm : Formed { s with mem := (ringPut base log (recordBytes r seq) s.mem).1 } := wf_ringPut h
  exact formed_ite h (formed_ite (formed_raiseMsi hm) hm)

theorem formed_engineMeet {d c : Nat} {va : Dword} {n : Nat} (h : Formed s) : Formed (engineMeet d c va n s) := by
  unfold engineMeet
  refine foldl_keeps (P := fun a : Bool × State => Formed a.2) (fun a p ha => ?_) _ _ h
  split
  · exact ha
  · exact formed_ite_snd ha (formed_readVia ha)

theorem formed_jobRecord {d : Nat} {c : Card} (h : Formed s) : Formed (jobRecord d c s).2 := by
  unfold jobRecord
  refine foldl_keeps (P := fun a : Except TrFault (List Byte) × State => Formed a.2) (fun a p ha => ?_) _ _ h
  split
  · exact ha
  · split <;> exact formed_of_pair ‹_› (formed_jobRead ha)

theorem formed_lzIn {j : LzJob} {i : Nat} {r : LzRun} (h : Formed r.s) : Formed (lzIn j i r).2.s := by
  unfold lzIn
  dsimp only
  split
  · exact formed_of_pair ‹_› (formed_jobRead h)
  · split
    · exact formed_of_pair ‹_› (formed_jobRead h)
    · exact formed_draw (formed_of_pair ‹_› (formed_jobRead h))

/-- A choice of two pairs of which both keep. -/
theorem formed_ite_run {c : Prop} [Decidable c] {p q : α × LzRun} (h : Formed p.2.s) (h' : Formed q.2.s) :
    Formed (if c then p else q).2.s :=
  iteInduction (motive := fun p : α × LzRun => Formed p.2.s) (fun _ => h) (fun _ => h')

theorem formed_lzLen {j : LzJob} (n : Nat) : ∀ {len : Nat} {r : LzRun}, Formed r.s → Formed (lzLen j n len r).2.s := by
  induction n with
  | zero => exact fun h => h
  | succ n ih =>
    intro len r h
    unfold lzLen
    exact formed_ite_run h (formed_ite_run (formed_LzRun_fail h) (formed_ite_run (ih (formed_lzIn h)) (formed_lzIn h)))

theorem formed_lzMatch {j : LzJob} {off : Nat} (n : Nat) : ∀ {r : LzRun}, Formed r.s → Formed (lzMatch j off n r).s := by
  induction n with
  | zero => exact fun h => h
  | succ n ih =>
    intro r h
    unfold lzMatch
    dsimp only
    split
    · exact h
    · split
      · exact formed_LzRun_fault (formed_of_pair ‹_› (formed_jobTr h))
      · exact ih (formed_lzOut (formed_of_pair ‹_› (formed_jobTr h)))

theorem formed_ite_s {c : Prop} [Decidable c] {p q : LzRun} (h : Formed p.s) (h' : Formed q.s) : Formed (if c then p else q).s :=
  iteInduction (motive := fun p : LzRun => Formed p.s) (fun _ => h) (fun _ => h')

theorem formed_lzTail {j : LzJob} {tok : Nat} {r : LzRun} (h : Formed r.s) : Formed (lzTail j tok r).s := by
  unfold lzTail
  refine formed_ite_s h (formed_ite_s (formed_LzRun_fail h) (formed_ite_s (formed_LzRun_fail h) ?_))
  have h1 := formed_lzIn (j := j) (i := r.i) h
  generalize lzIn j r.i r = x at h1
  obtain ⟨b0, r⟩ := x
  have h2 := formed_lzIn (j := j) (i := r.i + 1) h1
  dsimp only
  generalize lzIn j (r.i + 1) r = x at h2
  obtain ⟨b1, r⟩ := x
  refine formed_ite_s h2 (formed_ite_s (formed_LzRun_fail h2) ?_)
  dsimp only
  have h3 : Formed (if tok % 16 = 15 then lzLen j (j.n + 1) 19 { r with i := r.i + 2 }
      else (tok % 16 + 4, { r with i := r.i + 2 })).2.s := formed_ite_run (formed_lzLen _ h2) h2
  exact formed_ite_s h3 (formed_ite_s (formed_LzRun_fail h3) (formed_lzMatch _ h3))

theorem formed_lzLits {j : LzJob} (n : Nat) : ∀ {r : LzRun}, Formed r.s → Formed (lzLits j n r).s := by
  induction n with
  | zero => exact fun h => h
  | succ n ih =>
    intro r h
    unfold lzLits
    exact formed_ite_s h (formed_ite_s (formed_lzIn h) (ih (formed_lzOut (formed_lzIn (r := r) h))))

theorem formed_lzSeq {j : LzJob} {r : LzRun} (h : Formed r.s) : Formed (lzSeq j r).s := by
  unfold lzSeq
  refine formed_ite_s (formed_LzRun_fail h) ?_
  have h1 := formed_lzIn (j := j) (i := r.i) h
  generalize lzIn j r.i r = x at h1
  obtain ⟨tok, r⟩ := x
  refine formed_ite_s h1 ?_
  dsimp only
  have h2 : Formed (if tok.toNat / 16 = 15 then lzLen j (j.n + 1) 15 { r with i := r.i + 1 }
      else (tok.toNat / 16, { r with i := r.i + 1 })).2.s := formed_ite_run (formed_lzLen _ h1) h1
  exact formed_ite_s h2 (formed_ite_s (formed_LzRun_fail h2) (formed_ite_s (formed_LzRun_fail h2) (formed_lzTail (formed_lzLits _ h2))))

theorem formed_lzGo {j : LzJob} (n : Nat) : ∀ {r : LzRun}, Formed r.s → Formed (lzGo j n r).s := by
  induction n with
  | zero => exact fun h => h
  | succ n ih => exact fun h => formed_ite_s h (ih (formed_lzSeq h))

theorem formed_writeJob {d : Nat} {c : Card} {o st : Nat} (h : Formed s) : Formed (writeJob d c o st s).2 := by
  unfold writeJob
  refine foldl_keeps (P := fun a : Option (TrFault × Dword) × List Byte × State => Formed a.2.2) (fun a p ha => ?_) _ _ h
  dsimp only
  split
  · exact ha
  · exact formed_of_pair ‹_› (formed_jobWrite ha)
  · exact formed_of_pair ‹_› (formed_jobWrite ha)

theorem formed_moveElems {b : Bulk} {p : Nat → Bool} (h : Formed s) : Formed (moveElems b p s).s := by
  unfold moveElems
  exact foldl_keeps (P := fun r : CopyRun => Formed r.s) (fun r n hr => by split; exacts [formed_moveElem hr, hr]) _ _ h

/-! Words and units whose results come through a pair of which the state is the second. -/

theorem forms_evictWord {d a b : BitVec 6} {g : Group} : (evictWord d a b g s).Forms := by
  conv => arg 1; fun; fun; fun; fun; fun; delta evictWord
  extract_lets v h c w restore tsa done
  have hd : ∀ {st : Nat} {u : State}, Formed u → Formed (done st u) := fun hu => formed_onCur hu
  clear_value v h c w restore tsa done
  refine forms_sysWord (forms_of_effect fun t ht => ?_)
  generalize evictFailures t _ _ _ _ _ = fs
  cases fs with
  | nil =>
    generalize tsaLaunch t _ = x
    exact formed_ite (hd (formed_onDie ht)) (formed_onCur (formed_onTeam ht))
  | cons f rest => exact hd (formed_pickStatus ht)

theorem forms_postWord {e : BitVec 2} {a : BitVec 6} {g : Group} : (postWord e a g s).Forms := by
  conv => arg 1; fun; fun; fun; fun; delta postWord
  extract_lets +onlyGivenNames va
  generalize structRead s g va 64 = x
  obtain ⟨f, bs⟩ := x
  exact forms_of_effect fun t ht => formed_ite (formed_onCur (formed_onDie ht)) (formed_onDie ht)

theorem forms_wbldWord {d a : BitVec 6} {g : Group} : (wbldWord d a g s).Forms := by
  conv => arg 1; fun; fun; fun; fun; delta wbldWord
  extract_lets va n t w base tg
  have hb : base.Forms := forms_still
  clear_value tg base
  split
  · refine forms_effect hb fun u hu => ?_
    have hk : Formed (keepTr t.core ‹_› u) := formed_keepTr hu
    dsimp only
    split
    · exact formed_onCurTeam hk
    · exact formed_onCurTeam hk
  · exact forms_uniformWord hb

theorem formed_readElems {b : Bulk} {l : List Nat} {r : QuantRead} (h : Formed r.s) : Formed (l.foldl (readElem b) r).s :=
  foldl_keeps (P := fun r : QuantRead => Formed r.s) (fun _ _ hr => formed_readElem hr) l r h

theorem formed_runQuant {b : Bulk} (h : Formed s) : Formed (runQuant b s).s := by
  unfold runQuant
  extract_lets d fail
  have hf : ∀ {f : EngFault} {u : State}, Formed u → Formed (fail f u).s := fun hu => hu
  clear_value d fail
  split
  · exact hf h
  · exact hf (formed_of_pair ‹_› (formed_engVa h))
  · have h1 := formed_of_pair ‹_› (formed_engVa h)
    have h2 := formed_engRead (t := b.actor.team) (tg := ‹Target›) (n := 4) h1
    generalize engRead b.actor.team _ 4 _ = x at h2
    obtain ⟨sb, u⟩ := x
    have h3 := formed_readElems (b := b) (l := List.range (descN d)) (r := { s := u }) h2
    dsimp only
    generalize List.foldl (readElem b) _ _ = r at h3
    split
    · exact hf (formed_putQuant h3)
    · split
      · exact hf (formed_putQuant (formed_of_pair ‹_› (formed_engVa h3)))
      · exact formed_farWrite (formed_putQuant (formed_engWrite (formed_engRead (formed_of_pair ‹_› (formed_engVa h3)))))

theorem formed_runBulk {b : Bulk} (h : Formed s) : Formed (runBulk b s).s := by
  unfold runBulk
  extract_lets r k u bit r'
  have h1 : Formed r.s := formed_moveElems h
  have hu : Formed u := formed_mk h
  have h2 : Formed r'.s := formed_moveElems hu
  clear_value r r'
  split
  · exact h1
  · split
    · exact h2
    · exact formed_moveElems hu

theorem formed_drainDeed {die : Nat} {c : Card} {fits : State → Bool} (h : Formed s) (e : drainDeed s die c fits = some (.served t)) : Formed t := by
  unfold drainDeed at e
  split at e
  · cases e
  · obtain ⟨cs, -, hc⟩ := Option.map_eq_some_iff.mp e
    cases hc
    exact formed_startDrain h

/-! Events, jobs, strips, and the cards of a die. -/

theorem formed_execRtravStep {c x : Bool} {d : BitVec 7} {s : State} (h : Formed s) : OutFormed (execRtravStep c x d s) := by
  unfold execRtravStep
  exact formed_issue (fun x1 t2 => forms_rtravStepWord) h

theorem formed_execLdg {c x : Bool} {z : BitVec 3} {d a : BitVec 7} {i : BitVec 4} {lit : Option (BitVec 25)} {s : State} (h : Formed s)
    : OutFormed (execLdg c x z d a i lit s) := by
  unfold execLdg
  exact formed_issue (fun x1 t2 => forms_gatherWord forms_regWord (fun x3 t4 h5 => formed_runLoads h5)) h

theorem formed_execStg {c x : Bool} {z : BitVec 3} {d a : BitVec 7} {i : BitVec 4} {lit : Option (BitVec 25)} {s : State} (h : Formed s)
    : OutFormed (execStg c x z d a i lit s) := by
  unfold execStg
  exact formed_issue (fun x1 t2 => forms_gatherWord forms_regWord (fun x3 t4 h5 => formed_runStores h5)) h

theorem formed_execEvict {c : Bool} {d a b : BitVec 6} {s : State} (h : Formed s) : OutFormed (execEvict c d a b s) := by
  unfold execEvict
  exact formed_issue (fun x1 t2 => forms_evictWord) h

theorem formed_execPost {c : Bool} {e : BitVec 2} {a : BitVec 6} {s : State} (h : Formed s) : OutFormed (execPost c e a s) := by
  unfold execPost
  exact formed_issue (fun x1 t2 => forms_postWord) h

theorem formed_execMmqg {c : Bool} {d a : BitVec 7} {sb : BitVec 6} {h' : BitVec 1} {s : State} (h : Formed s)
    : OutFormed (execMmqg c d a sb h' s) := by
  unfold execMmqg
  exact formed_issue (fun x1 t2 => forms_mmqgWord) h

theorem formed_execWbld {c : Bool} {d a : BitVec 6} {s : State} (h : Formed s) : OutFormed (execWbld c d a s) := by
  unfold execWbld
  exact formed_issue (fun x1 t2 => forms_wbldWord) h

theorem formed_nextRecord {die : Nat} {s : State} (h : Formed s) : Formed (nextRecord die s) := by
  unfold nextRecord
  dsimp only
  split
  · exact h
  · exact formed_writeRecord (formed_onDie h)

theorem formed_execFaultRecordWrite {die : BitVec 4} {s : State} (h : Formed s) : OutFormed (execFaultRecordWrite die s) := by
  unfold execFaultRecordWrite
  exact outFormed_ite (outFormed_refused _) (outFormed_next (formed_nextRecord h))

theorem formed_predicateMeet {d : Nat} {c : Card} {s : State} (h : Formed s) : Formed (predicateMeet d c s) := by
  unfold predicateMeet
  exact formed_ite h (formed_engineMeet h)

theorem formed_stageMeet {d : Nat} {c : Card} {r : StageRead} {s : State} (h : Formed s) : Formed (stageMeet d c r s) := by
  unfold stageMeet
  refine formed_ite h ?_
  dsimp only
  split
  · exact formed_engineMeet h
  · exact formed_ite (formed_engineMeet (formed_engineMeet h)) (formed_foldl (fun t1 x2 h3 => formed_engineMeet h3) (formed_engineMeet
        (formed_engineMeet h)))

theorem formed_becomeReady {d : Nat} {s : State} {slot : Nat} (h : Formed s) : Formed (becomeReady d s slot) := by
  unfold becomeReady
  dsimp only
  split
  · exact h
  · split
    · exact formed_record (formed_onDie (formed_predicateMeet (formed_stageMeet h)))
    · exact formed_onDie (formed_predicateMeet (formed_stageMeet h))
    · exact formed_ite (formed_record (formed_onDie (formed_predicateMeet (formed_stageMeet h)))) (formed_onDie (formed_predicateMeet
          (formed_stageMeet h)))

theorem formed_readyCards {d : Nat} {s : State} (h : Formed s) : Formed (readyCards d s) := by
  unfold readyCards
  exact formed_onDie (formed_foldl (fun t1 x2 h3 => formed_becomeReady h3) h)

theorem formed_execCardReady {die : BitVec 3} {s : State} (h : Formed s) : OutFormed (execCardReady die s) := by
  unfold execCardReady
  exact outFormed_ite (outFormed_next (formed_readyCards h)) (outFormed_refused _)

theorem formed_eventPost {d : Nat} {e : Event} {s : State} (h : Formed s) : Formed (eventPost d e s) := by
  unfold eventPost
  refine formed_ite (formed_record h) ?_
  dsimp only
  split
  · exact formed_engineMeet (formed_record h)
  · exact formed_engineMeet (formed_onDie h)

theorem formed_takeEvent {d : Nat} {e : Event} {rest : List Event} {s : State} (h : Formed s) : Formed (takeEvent d e rest s) := by
  unfold takeEvent
  exact formed_ite (formed_retireJob (formed_onDie (formed_onDie h))) (formed_ite (formed_holdEvent (formed_ite h (formed_eventDec h)))
      (formed_retireJob (formed_ite (formed_notify (formed_ite (formed_eventPost (formed_onDie (formed_ite h (formed_eventDec h))))
      (formed_onDie (formed_ite h (formed_eventDec h))))) (formed_ite (formed_eventPost (formed_onDie (formed_ite h (formed_eventDec h))))
      (formed_onDie (formed_ite h (formed_eventDec h)))))))

theorem formed_execEventRecord {die : BitVec 3} {s : State} (h : Formed s) : OutFormed (execEventRecord die s) := by
  unfold execEventRecord
  split
  · exact outFormed_next (formed_takeEvent h)
  · exact outFormed_refused _

theorem formed_doBulk {id : Nat} {b : Bulk} {s : State} (h : Formed s) : Formed (doBulk id b s) := by
  unfold doBulk
  refine formed_ite ?_ ?_
  · refine formed_complete ?_
    dsimp only
    split
    · refine formed_record ?_
      split
      · exact formed_runQuant (formed_mk h)
      · exact formed_runBulk (formed_mk h)
    · split
      · exact formed_runQuant (formed_mk h)
      · exact formed_runBulk (formed_mk h)
  · refine formed_barrierStepAt ?_
    dsimp only
    split
    · refine formed_record ?_
      split
      · exact formed_runQuant (formed_mk h)
      · exact formed_runBulk (formed_mk h)
    · split
      · exact formed_runQuant (formed_mk h)
      · exact formed_runBulk (formed_mk h)

theorem formed_execBulkCopyComplete {copy : Nat} {s : State} (h : Formed s) : OutFormed (execBulkCopyComplete copy s) := by
  unfold execBulkCopyComplete
  split
  · exact outFormed_ite (outFormed_refused _) (outFormed_next (formed_doBulk h))
  · exact outFormed_refused _

theorem formed_doWbld {h' n : Nat} {t : Team} {w : WSlot} {s : State} (h : Formed s) : Formed (doWbld h' n t w s) := by
  unfold doWbld
  exact formed_ite (formed_enterEvent (formed_onTeam (formed_readVia h))) (formed_onTeam (formed_readVia h))

theorem formed_execWbldComplete {team : Nat} {slot : BitVec 9} {s : State} (h : Formed s) : OutFormed (execWbldComplete team slot s) := by
  unfold execWbldComplete
  split
  · exact outFormed_next (formed_doWbld h)
  · exact outFormed_refused _

theorem formed_tileStep {k d n : Nat} {ovr : Bool} {b : List Byte} {s : State} (h : Formed s) : Formed (tileStep k d n ovr b s) := by
  unfold tileStep
  dsimp only
  split
  · exact formed_tileFault (formed_mk h)
  · exact formed_ite (formed_tileFault (formed_aFail (formed_onCurTeam (formed_ite (formed_readVia (formed_mk h)) (formed_mk h)))))
        (formed_ite (formed_onCur (formed_matEffect (formed_aKeep (formed_onCurTeam (formed_ite (formed_readVia (formed_mk h)) (formed_mk
        h)))))) (formed_onCur (formed_tileSlots (formed_onCur (formed_matEffect (formed_aKeep (formed_onCurTeam (formed_ite
        (formed_readVia (formed_mk h)) (formed_mk h)))))))))

theorem formed_execMtileStep {group : Nat} {s : State} (h : Formed s) : OutFormed (execMtileStep group s) := by
  unfold execMtileStep
  split
  · exact outFormed_next (formed_tileStep h)
  · exact outFormed_refused _

theorem formed_unitRead {die : Nat} {c : Card} {va : Dword} {n : Nat} {s : State} (h : Formed s) : Formed (unitRead die c va n s).2 := by
  unfold unitRead
  dsimp only
  split
  · exact formed_engineMeet h
  · exact formed_record (formed_engineMeet h)
  · exact formed_mk (formed_engineMeet h)

theorem formed_cullCount {die : Nat} {c : Card} {s : State} (h : Formed s) : Formed (cullCount die c s).2 := by
  unfold cullCount
  refine formed_ite_snd h ?_
  dsimp only
  exact formed_unitRead h

theorem formed_cullIndex {die : Nat} {c : Card} {s : State} (h : Formed s) : Formed (cullIndex die c s).2 := by
  unfold cullIndex
  refine formed_ite_snd h ?_
  dsimp only
  exact formed_unitRead h

theorem formed_setVisible {die : Nat} {c : Card} {i : Nat} {on : Bool} {s : State} (h : Formed s) : Formed (setVisible die c i on s) := by
  unfold setVisible
  dsimp only
  split
  · exact formed_engineMeet h
  · exact formed_engineWrite (formed_engineMeet h)

theorem formed_listReject {die slot : Nat} {c : Card} {i : Nat} {s : State} (h : Formed s) : Formed (listReject die slot c i s) := by
  unfold listReject
  exact formed_ite (formed_requestMesh (formed_setVisible (formed_onCard h))) (formed_onCard (formed_setVisible (formed_engineWrite h)))

theorem formed_sendPrim {die : Nat} {c : Card} {v : Nat} {l : Dword} {p : Prim} {s : State} (h : Formed s)
    : Formed (sendPrim die c v l p s) := by
  unfold sendPrim
  dsimp only
  refine formed_foldl ?_ (formed_unitRead h)
  intro t1 x2 h3
  split
  · exact formed_onDie h3
  · exact h3

theorem formed_binStep {die i : Nat} {p : Prim} {c : Card} {v : Option Nat} {s : State} (h : Formed s)
    : Formed (binStep die i p c v s) := by
  unfold binStep
  dsimp only
  split
  · exact formed_onDie h
  · refine formed_onDie ?_
    split
    · exact formed_sendPrim h
    · exact formed_onCard h

theorem formed_execPrimitiveAtBinner {die : BitVec 3} {s : State} (h : Formed s) : OutFormed (execPrimitiveAtBinner die s) := by
  unfold execPrimitiveAtBinner
  split
  · exact outFormed_next (formed_binStep h)
  · exact outFormed_refused _

theorem formed_scribble {d ctx : Nat} {va : Dword} {n : Nat} {s : State} (h : Formed s) : Formed (scribble d ctx va n s) := by
  unfold scribble
  exact formed_engineWrite (formed_mk h)

theorem formed_joinTile {d : Nat} {fr : Dword} {frame ctx view strip tx ty : Nat} {p : ViewPrim} {s : State} (h : Formed s)
    : Formed (joinTile d fr frame ctx view strip tx ty p s) := by
  unfold joinTile
  exact formed_onDie (formed_scribble h)

theorem formed_bumpFrame {d : Nat} {fr : Dword} {ctx off : Nat} {s : State} (h : Formed s) : Formed (bumpFrame d fr ctx off s) := by
  unfold bumpFrame
  dsimp only
  split
  · exact formed_engineWrite (formed_engineMeet h)
  · exact formed_engineMeet h

theorem formed_flushTile {d key : Nat} {frec : List Byte} {s : State} (h : Formed s) : Formed (flushTile d key frec s) := by
  unfold flushTile
  dsimp only
  split
  · exact h
  · exact formed_ite h (formed_ite (formed_onDie (formed_scribble h)) (formed_bumpFrame (formed_onDie h)))

theorem formed_partialFlush {d : Nat} {fr : Dword} {frame ctx : Nat} {s : State} (h : Formed s)
    : Formed (partialFlush d fr frame ctx s) := by
  unfold partialFlush
  exact formed_bumpFrame (formed_foldl (fun t1 x2 h3 => formed_flushTile h3) h)

theorem formed_ownerStep {d i : Nat} {m : BinMsg} {s : State} (h : Formed s) : Formed (ownerStep d i m s) := by
  unfold ownerStep
  dsimp only
  split
  · exact h
  · split
    · exact formed_onDie (formed_dropLate (formed_crossTo h))
    · exact formed_onDie (formed_crossTo h)
    · exact formed_joinTile (formed_onDie (formed_crossTo h))
    · exact formed_onDie (formed_partialFlush h)
    · exact h

theorem formed_execPrimitiveAtOwner {die : BitVec 3} {s : State} (h : Formed s) : OutFormed (execPrimitiveAtOwner die s) := by
  unfold execPrimitiveAtOwner
  split
  · exact outFormed_next (formed_ownerStep h)
  · exact outFormed_refused _

theorem formed_rateMeet {die ctx : Nat} {trec : List Byte} {t : Team} {p : ViewPrim} {s : State} (h : Formed s)
    : Formed (rateMeet die ctx trec t p s) := by
  unfold rateMeet
  split
  · exact formed_foldl (fun t1 x2 h3 => formed_ite h3 (formed_engineMeet h3)) h
  · exact h

theorem formed_lateRecord {bs : List Byte} {s : State} (h : Formed s) : Formed (lateRecord bs s) := by
  unfold lateRecord
  have hm : ∀ {base log : Nat}, Formed { s with mem := (ringPut base log bs s.mem).1 } := wf_ringPut h
  exact formed_ite h (formed_ite (formed_raiseMsi hm) hm)

theorem formed_meetPixels {ps : List Nat} {s : State} (h : Formed s) : Formed (meetPixels ps s) := by
  unfold meetPixels
  exact formed_foldl (fun t1 x2 h3 => formed_ite h3 (formed_readVia h3)) h

theorem formed_replaceTile {v tx ty : Nat} {s : State} (h : Formed s) : Formed (replaceTile v tx ty s) := by
  unfold replaceTile
  dsimp only
  refine formed_tellOwner ?_
  refine formed_emitTile ?_
  refine formed_meetPixels ?_
  refine formed_lateRecord ?_
  refine formed_onView ?_
  split
  · exact h
  · exact h
  · exact formed_draw h

theorem formed_closeStrip {v : Nat} {s : State} (h : Formed s) : Formed (closeStrip v s) := by
  unfold closeStrip
  exact formed_onView (formed_writeHistory (formed_emit (formed_foldl (fun t1 x2 h3 => formed_replaceTile h3) h)))

theorem formed_meetVrec {v : Nat} {s : State} (h : Formed s) : Formed (meetVrec v s) := by
  unfold meetVrec
  exact formed_ite h (formed_readVia h)

theorem formed_beginStrip {v n : Nat} {s : State} (h : Formed s) : Formed (beginStrip v n s) := by
  unfold beginStrip
  exact formed_settleCounts (formed_mk (formed_mk (formed_emit (formed_onView (formed_meetVrec (formed_ite (formed_closeStrip h) h))))))

theorem formed_execStripStart {view : BitVec 4} {s : State} (h : Formed s) : OutFormed (execStripStart view s) := by
  unfold execStripStart
  split
  · exact outFormed_next (formed_beginStrip h)
  · exact outFormed_refused _

theorem formed_execReplacementInstant {view : BitVec 4} {s : State} (h : Formed s) : OutFormed (execReplacementInstant view s) := by
  unfold execReplacementInstant
  exact outFormed_ite (outFormed_next (formed_closeStrip h)) (outFormed_refused _)

theorem formed_execPowerLoss {s : State} : OutFormed (execPowerLoss s) := outFormed_next (wf_coldState _)

theorem formed_reply {i : Nat} {s : State} (h : Formed s) : Formed (reply i s) := by
  unfold reply
  dsimp only
  split
  · split
    · exact formed_ite (formed_devAccess (formed_crossReq h)) h
    · exact h
  · refine formed_landClear ?_
    refine formed_endReq ?_
    refine formed_ite ?_ ?_
    · refine formed_landValue ?_
      refine formed_landFar ?_
      refine formed_landCtl ?_
      refine formed_landLine ?_
      refine formed_crossBack ?_
      split
      · exact formed_ite (formed_devAccess (formed_crossReq h)) h
      · exact h
    · refine formed_landFar ?_
      refine formed_landCtl ?_
      refine formed_landLine ?_
      refine formed_crossBack ?_
      split
      · exact formed_ite (formed_devAccess (formed_crossReq h)) h
      · exact h

theorem formed_replyOrDown {i : Nat} {s : State} (h : Formed s) : Formed (replyOrDown i s) := by
  unfold replyOrDown
  split
  · exact formed_ite (formed_onReq h) (formed_reply h)
  · exact h

theorem formed_execMemoryReply {req : Nat} {s : State} (h : Formed s) : OutFormed (execMemoryReply req s) := by
  unfold execMemoryReply
  exact outFormed_ite (outFormed_next (formed_replyOrDown h)) (outFormed_refused _)

theorem formed_drainQueue {bank : Option Nat} (n : Nat) : ∀ {s : State}, Formed s → Formed (drainQueue bank n s) := by
  induction n with
  | zero => exact fun h => h
  | succ n ih =>
    intro s h
    unfold drainQueue
    dsimp only
    split
    · split
      · exact ih (formed_serveAt h)
      · exact h
    · exact h

theorem formed_fillMiss {la : Nat} {s : State} (h : Formed s) : Formed (fillMiss la s) := by
  unfold fillMiss
  refine formed_drainQueue _ ?_
  refine formed_ite (formed_foldl (fun t1 x2 h3 => formed_failFill h3) (formed_foldl (fun t1 x2 h3 => formed_meetErr h3) (formed_onMem
      (wf_countFill (wf_mk h))))) ?_
  refine formed_foldl ?_ (formed_fillLlc (formed_foldl (fun t1 x2 h3 => formed_meetErr h3) (formed_onMem (wf_countFill (wf_mk h)))))
  intro t1 x2 h3
  split
  · exact formed_serveAt h3
  · exact h3

theorem formed_execLlcMissFill {line : Nat} {s : State} (h : Formed s) : OutFormed (execLlcMissFill line s) := by
  unfold execLlcMissFill
  exact outFormed_ite (outFormed_next (formed_fillMiss h)) (outFormed_refused _)

theorem formed_placeAll {die slot : Nat} (n : Nat) : ∀ {s : State}, Formed s → OptFormed (placeAll die slot n s) := by
  induction n with
  | zero => exact fun h => optFormed_some h
  | succ n ih =>
    intro s h
    unfold placeAll
    split
    · exact optFormed_none
    · split
      · exact optFormed_some h
      · split
        · exact optFormed_ite (ih (formed_placeTeam h)) optFormed_none
        · exact optFormed_none

/-! The reset command, the end of a job, and the placement of a card. -/

theorem formed_execReset {dgram : List (BitVec 8)} (h : Formed s) : OutFormed (execReset dgram s) := by
  have hc := formed_command (codeOk := (· == 2)) (bodyOk := fun b => b.isEmpty) (run := fun _ s => (0, [], s)) (d := dgram)
    (fun _ _ ht => ht) h
  unfold execReset
  split
  · rename_i u hu
    exact outFormed_next (formed_ite formed_resetDevice (hc u hu))
  · exact hc

theorem formed_endJob {d slot : Nat} {c : Card} (h : Formed s) : Formed (endJob d slot c s) := by
  unfold endJob
  split
  · exact formed_retireJob (formed_dropJob (formed_record (formed_of_pair ‹_› (formed_jobRecord h))))
  · rename_i rec_ u hu
    extract_lets bad j r st u'
    have hr : Formed r.s := formed_ite_s (formed_LzRun_fail (formed_of_pair hu (formed_jobRecord h)))
      (formed_lzGo _ (formed_of_pair hu (formed_jobRecord h)))
    clear_value r
    have hu' : Formed u' := by
      unfold u'
      split
      · exact formed_jobFault hr
      · exact hr
    have hw := formed_writeJob (d := d) (c := c) (o := r.o) (st := st) hu'
    clear_value u' st
    generalize writeJob d c r.o st u' = x at hw
    obtain ⟨f, v⟩ := x
    cases f with
    | none => exact formed_ite (formed_dropJob (formed_enterEvent hw)) (formed_onDie hw)
    | some e =>
      have hj : Formed (jobFault d c e.1 e.2 v) := formed_jobFault hw
      exact formed_ite (formed_dropJob (formed_enterEvent hj)) (formed_onDie hj)

theorem formed_drawViews {die : Nat} {c : Card} (h : Formed s) : Formed (drawViews die c s).2 := by
  unfold drawViews
  exact foldl_keeps (P := fun a : List (List Byte) × State => Formed a.2) (fun _ _ ha => formed_unitRead ha) _ _ h

theorem formed_depthRejects {die : Nat} {c : Card} {view : List Byte} {pyr : Dword} {p : Nat → Num.FV} {r : Num.FV} (h : Formed s) :
    Formed (depthRejects die c view pyr p r s).2 := by
  unfold depthRejects
  refine formed_ite_snd h ?_
  exact foldl_keeps (P := fun a : List Num.FV × State => Formed a.2) (fun _ _ ha => formed_unitRead ha) _ _ h

theorem formed_applyStep {d key : Nat} (h : Formed s) : OptFormed (applyStep s d key) := by
  unfold applyStep
  dsimp only
  split
  · exact optFormed_none
  · split
    · exact optFormed_none
    · refine optFormed_ite optFormed_none (optFormed_ite (optFormed_ite optFormed_none (optFormed_some (formed_endTile (formed_onTeam (formed_onDie h))))) ?_)
      split
      · intro u hu
        obtain ⟨r, -, rfl⟩ := Option.map_eq_some_iff.mp hu
        exact formed_endTile (formed_onTeam (formed_onDie (formed_rateMeet (formed_draw h))))
      · exact optFormed_ite (optFormed_some (formed_endTile h)) optFormed_none

theorem formed_serveCard {die slot : Nat} {c : Card} (h : Formed s) : OptFormed (serveCard s die slot c) := by
  unfold serveCard
  split
  · exact optFormed_none
  · rename_i p _
    intro u hu
    obtain ⟨v, hv, rfl⟩ := Option.map_eq_some_iff.mp hu
    refine formed_endDrain ?_
    split at hv
    · exact formed_placeAll _ h _ hv
    · split at hv
      · cases hv
      · obtain ⟨n, -, rfl⟩ := Option.map_eq_some_iff.mp hv
        exact formed_placeTeam h

theorem formed_cardDeed {s t : State} {die slot : Nat} {c : Card} (h : Formed s) (e : cardDeed s die slot c = some (.served t))
    : Formed t := by
  unfold cardDeed at e
  split at e
  · cases e
  · split at e
    · split at e
      · cases e
      · exact formed_drainDeed h e
    · split at e
      · split at e
        · cases e
          exact formed_onDie h
        · cases e
      · split at e
        · rename_i hs
          cases e
          exact formed_serveCard h _ hs
        · exact formed_drainDeed h e

theorem formed_execTeamPlacement {die : BitVec 3} {s : State} (h : Formed s) : OutFormed (execTeamPlacement die s) := by
  unfold execTeamPlacement
  split
  · rename_i t e
    refine outFormed_next ?_
    unfold dieDeed at e
    split at e
    · cases e
    · split at e
      · cases e
        exact formed_recordRcb h
      · obtain ⟨x, _, hx⟩ := List.exists_of_findSome?_eq_some e
        exact formed_cardDeed h hx
  · exact outFormed_refused _

theorem formed_execDecompressionJobEnd {die : BitVec 3} {slot : BitVec 12} {s : State} (h : Formed s)
    : OutFormed (execDecompressionJobEnd die slot s) := by
  unfold execDecompressionJobEnd
  refine outFormed_ite ?_ (outFormed_refused _)
  split
  · exact outFormed_next (formed_endJob h)
  · exact outFormed_refused _

theorem formed_testView {die : Nat} {c : Card} {inst view : List Byte} {s : State} (h : Formed s)
    : Formed (testView die c inst view s).2 := by
  unfold testView
  refine formed_ite_snd h ?_
  dsimp only
  exact formed_depthRejects h

theorem formed_execPrimitiveApply {die : BitVec 3} {tile : Nat} {s : State} (h : Formed s)
    : OutFormed (execPrimitiveApply die tile s) := by
  unfold execPrimitiveApply
  split
  · exact outFormed_next ((formed_applyStep h) _ ‹_›)
  · exact outFormed_refused _

/-! Every instruction, a chain of them, a group's turn, and a move of the package. -/

theorem formed_testInstance {die : Nat} {c : Card} {inst : List Byte} (h : Formed s) : Formed (testInstance die c inst s).2 := by
  unfold testInstance
  exact foldl_keeps (P := fun a : List (Bool × Bool) × State => Formed a.2) (fun _ _ ha => formed_testView ha) _ _ (formed_drawViews h)

theorem formed_cullOne {die slot : Nat} {c : Card} {i : Nat} (h : Formed s) : Formed (cullOne die slot c i s) := by
  unfold cullOne
  have hu := formed_unitRead (die := die) (c := c) (va := BitVec.ofNat 64 (c.drawF 959 896 + 64 * i)) (n := 64) h
  generalize unitRead die c _ 64 s = x at hu
  obtain ⟨inst, s⟩ := x
  dsimp only
  have ht := formed_testInstance (die := die) (c := c) (inst := inst) hu
  generalize testInstance die c inst s = y at ht
  obtain ⟨⟨ok, depthOnly⟩, u⟩ := y
  exact formed_ite (formed_requestMesh (formed_setVisible (formed_onCard hu))) (formed_ite (formed_requestMesh (formed_setVisible ht))
    (formed_ite (formed_ite (formed_listReject ht) (formed_setVisible ht)) ht))

theorem formed_cullStep {die slot : Nat} {c : Card} (h : Formed s) : Formed (cullStep die slot c s) := by
  unfold cullStep
  exact formed_ite (formed_onCard (formed_cullCount h)) (formed_onCard (formed_cullOne (formed_cullIndex (formed_cullCount h))))

theorem formed_execCullInstance {die : BitVec 3} (h : Formed s) : OutFormed (execCullInstance die s) := by
  unfold execCullInstance
  split
  · exact outFormed_next (formed_cullStep h)
  · exact outFormed_refused _

theorem formed_exec {i : Instr} (h : Formed s) : OutFormed (exec i s) :=
  match i with
  | .nop c => formed_execNop (c := c) h | .lit c l => formed_execLit (c := c) (l := l) h | .iadd c .. => formed_execIadd (c := c) h
  | .isub c .. => formed_execIsub (c := c) h | .iminS c .. => formed_execIminS (c := c) h | .iminN c .. => formed_execIminN (c := c) h
  | .imaxS c .. => formed_execImaxS (c := c) h | .imaxN c .. => formed_execImaxN (c := c) h | .iaddc c .. => formed_execIaddc (c := c) h
  | .isubb c .. => formed_execIsubb (c := c) h | .iaddScalarB c .. => formed_execIaddScalarB (c := c) h
  | .isubScalarB c .. => formed_execIsubScalarB (c := c) h | .iminSScalarB c .. => formed_execIminSScalarB (c := c) h
  | .iminNScalarB c .. => formed_execIminNScalarB (c := c) h | .imaxSScalarB c .. => formed_execImaxSScalarB (c := c) h
  | .imaxNScalarB c .. => formed_execImaxNScalarB (c := c) h | .iaddcScalarB c .. => formed_execIaddcScalarB (c := c) h
  | .isubbScalarB c .. => formed_execIsubbScalarB (c := c) h | .imul c .. => formed_execImul (c := c) h
  | .imulhS c .. => formed_execImulhS (c := c) h | .imulhN c .. => formed_execImulhN (c := c) h | .imad c .. => formed_execImad (c := c) h
  | .imadhS c .. => formed_execImadhS (c := c) h | .imadhN c .. => formed_execImadhN (c := c) h | .iabs c .. => formed_execIabs (c := c) h
  | .ineg c .. => formed_execIneg (c := c) h | .and c .. => formed_execAnd (c := c) h | .or c .. => formed_execOr (c := c) h
  | .xor c .. => formed_execXor (c := c) h | .andn c .. => formed_execAndn (c := c) h | .orn c .. => formed_execOrn (c := c) h
  | .popc c .. => formed_execPopc (c := c) h | .clz c .. => formed_execClz (c := c) h | .ctz c .. => formed_execCtz (c := c) h
  | .andScalarB c .. => formed_execAndScalarB (c := c) h | .orScalarB c .. => formed_execOrScalarB (c := c) h
  | .xorScalarB c .. => formed_execXorScalarB (c := c) h | .andnScalarB c .. => formed_execAndnScalarB (c := c) h
  | .ornScalarB c .. => formed_execOrnScalarB (c := c) h | .shl c .. => formed_execShl (c := c) h | .shr c .. => formed_execShr (c := c) h
  | .sar c .. => formed_execSar (c := c) h | .rotl c .. => formed_execRotl (c := c) h | .bfeN c .. => formed_execBfeN (c := c) h
  | .bfeS c .. => formed_execBfeS (c := c) h | .bfi c .. => formed_execBfi (c := c) h | .bperm c .. => formed_execBperm (c := c) h
  | .icmpEq c .. => formed_execIcmpEq (c := c) h | .icmpNe c .. => formed_execIcmpNe (c := c) h
  | .icmpLtS c .. => formed_execIcmpLtS (c := c) h | .icmpLeS c .. => formed_execIcmpLeS (c := c) h
  | .icmpGtS c .. => formed_execIcmpGtS (c := c) h | .icmpGeS c .. => formed_execIcmpGeS (c := c) h
  | .icmpLtN c .. => formed_execIcmpLtN (c := c) h | .icmpGeN c .. => formed_execIcmpGeN (c := c) h
  | .sel c .. => formed_execSel (c := c) h | .mov c .. => formed_execMov (c := c) h | .mov64 c .. => formed_execMov64 (c := c) h
  | .movs c .. => formed_execMovs (c := c) h | .vrd c .. => formed_execVrd (c := c) h | .vwr c .. => formed_execVwr (c := c) h
  | .pmov c .. => formed_execPmov (c := c) h | .pget c .. => formed_execPget (c := c) h | .iaddi c .. => formed_execIaddi (c := c) h
  | .movi c .. => formed_execMovi (c := c) h | .fadd c .. => formed_execFadd (c := c) h | .fsub c .. => formed_execFsub (c := c) h
  | .fmin c .. => formed_execFmin (c := c) h | .fmax c .. => formed_execFmax (c := c) h | .fabs c .. => formed_execFabs (c := c) h
  | .fneg c .. => formed_execFneg (c := c) h | .frnd c .. => formed_execFrnd (c := c) h | .fract c .. => formed_execFract (c := c) h
  | .faddScalarB c .. => formed_execFaddScalarB (c := c) h | .fsubScalarB c .. => formed_execFsubScalarB (c := c) h
  | .fminScalarB c .. => formed_execFminScalarB (c := c) h | .fmaxScalarB c .. => formed_execFmaxScalarB (c := c) h
  | .fmul c .. => formed_execFmul (c := c) h | .fma c .. => formed_execFma (c := c) h | .fms c .. => formed_execFms (c := c) h
  | .fnma c .. => formed_execFnma (c := c) h | .fmulScalarB c .. => formed_execFmulScalarB (c := c) h
  | .fmaScalarB c .. => formed_execFmaScalarB (c := c) h | .fmsScalarB c .. => formed_execFmsScalarB (c := c) h
  | .fnmaScalarB c .. => formed_execFnmaScalarB (c := c) h | .fcmpEq c .. => formed_execFcmpEq (c := c) h
  | .fcmpNe c .. => formed_execFcmpNe (c := c) h | .fcmpLt c .. => formed_execFcmpLt (c := c) h
  | .fcmpLe c .. => formed_execFcmpLe (c := c) h | .fcmpGt c .. => formed_execFcmpGt (c := c) h
  | .fcmpGe c .. => formed_execFcmpGe (c := c) h | .fcmpUnord c .. => formed_execFcmpUnord (c := c) h
  | .fcmpOrd c .. => formed_execFcmpOrd (c := c) h | .haddF16x2 c .. => formed_execHaddF16x2 (c := c) h
  | .hmulF16x2 c .. => formed_execHmulF16x2 (c := c) h | .hfmaF16x2 c .. => formed_execHfmaF16x2 (c := c) h
  | .haddBf16x2 c .. => formed_execHaddBf16x2 (c := c) h | .hmulBf16x2 c .. => formed_execHmulBf16x2 (c := c) h
  | .hfmaBf16x2 c .. => formed_execHfmaBf16x2 (c := c) h | .hminF16x2 c .. => formed_execHminF16x2 (c := c) h
  | .hmaxF16x2 c .. => formed_execHmaxF16x2 (c := c) h | .frcp c .. => formed_execFrcp (c := c) h
  | .frsq c .. => formed_execFrsq (c := c) h | .fsqrt c .. => formed_execFsqrt (c := c) h | .fexp2 c .. => formed_execFexp2 (c := c) h
  | .flog2 c .. => formed_execFlog2 (c := c) h | .fsin c .. => formed_execFsin (c := c) h | .fcos c .. => formed_execFcos (c := c) h
  | .ftanh c .. => formed_execFtanh (c := c) h | .dadd c .. => formed_execDadd (c := c) h | .dsub c .. => formed_execDsub (c := c) h
  | .dmul c .. => formed_execDmul (c := c) h | .dfma c .. => formed_execDfma (c := c) h | .dmin c .. => formed_execDmin (c := c) h
  | .dmax c .. => formed_execDmax (c := c) h | .drcp c .. => formed_execDrcp (c := c) h | .dsqrt c .. => formed_execDsqrt (c := c) h
  | .cvt c .. => formed_execCvt (c := c) h | .cvtnE4m3 c .. => formed_execCvtnE4m3 (c := c) h
  | .cvtnE4m3Sr c .. => formed_execCvtnE4m3Sr (c := c) h | .cvtnE5m2 c .. => formed_execCvtnE5m2 (c := c) h
  | .cvtnE5m2Sr c .. => formed_execCvtnE5m2Sr (c := c) h | .cvtnE2m1b c .. => formed_execCvtnE2m1b (c := c) h
  | .cvtnE2m1bSr c .. => formed_execCvtnE2m1bSr (c := c) h | .cvtwE4m3 c .. => formed_execCvtwE4m3 (c := c) h
  | .cvtwE5m2 c .. => formed_execCvtwE5m2 (c := c) h | .xrel c .. => formed_execXrel (c := c) h
  | .xrel3 c .. => formed_execXrel3 (c := c) h | .dcmpEq c .. => formed_execDcmpEq (c := c) h
  | .dcmpLt c .. => formed_execDcmpLt (c := c) h | .dcmpLe c .. => formed_execDcmpLe (c := c) h
  | .dcmpUnord c .. => formed_execDcmpUnord (c := c) h | .shflIdx c .. => formed_execShflIdx (c := c) h
  | .shflUp c .. => formed_execShflUp (c := c) h | .shflDown c .. => formed_execShflDown (c := c) h
  | .shflXor c .. => formed_execShflXor (c := c) h | .voteAny c .. => formed_execVoteAny (c := c) h
  | .voteAll c .. => formed_execVoteAll (c := c) h | .voteBallot c .. => formed_execVoteBallot (c := c) h
  | .qswz c .. => formed_execQswz (c := c) h | .redAddS32 c .. => formed_execRedAddS32 (c := c) h
  | .redAddF32 c .. => formed_execRedAddF32 (c := c) h | .redMinF32 c .. => formed_execRedMinF32 (c := c) h
  | .redMaxF32 c .. => formed_execRedMaxF32 (c := c) h | .scanAddS32 c .. => formed_execScanAddS32 (c := c) h
  | .scanAddF32 c .. => formed_execScanAddF32 (c := c) h | .redAnd c .. => formed_execRedAnd (c := c) h
  | .redOr c .. => formed_execRedOr (c := c) h | .ddx c .. => formed_execDdx (c := c) h | .ddy c .. => formed_execDdy (c := c) h
  | .ipa c .. => formed_execIpa (c := c) h | .ipac c .. => formed_execIpac (c := c) h | .rtravInit c .. => formed_execRtravInit (c := c) h
  | .rtravStep c .. => formed_execRtravStep (c := c) h | .rhit c .. => formed_execRhit (c := c) h
  | .sadd c .. => formed_execSadd (c := c) h | .ssub c .. => formed_execSsub (c := c) h | .smul c .. => formed_execSmul (c := c) h
  | .smulh c .. => formed_execSmulh (c := c) h | .sand c .. => formed_execSand (c := c) h | .sor c .. => formed_execSor (c := c) h
  | .sxor c .. => formed_execSxor (c := c) h | .sandn c .. => formed_execSandn (c := c) h | .sshl c .. => formed_execSshl (c := c) h
  | .sshr c .. => formed_execSshr (c := c) h | .ssar c .. => formed_execSsar (c := c) h | .smin c .. => formed_execSmin (c := c) h
  | .smax c .. => formed_execSmax (c := c) h | .smov c .. => formed_execSmov (c := c) h | .sadd64 c .. => formed_execSadd64 (c := c) h
  | .ssub64 c .. => formed_execSsub64 (c := c) h | .saddi c .. => formed_execSaddi (c := c) h | .sandi c .. => formed_execSandi (c := c) h
  | .sori c .. => formed_execSori (c := c) h | .sxori c .. => formed_execSxori (c := c) h | .sshli c .. => formed_execSshli (c := c) h
  | .sshri c .. => formed_execSshri (c := c) h | .smovi c .. => formed_execSmovi (c := c) h | .smovhi c .. => formed_execSmovhi (c := c) h
  | .scmpEq c .. => formed_execScmpEq (c := c) h | .scmpNe c .. => formed_execScmpNe (c := c) h
  | .scmpLtS c .. => formed_execScmpLtS (c := c) h | .scmpLeS c .. => formed_execScmpLeS (c := c) h
  | .scmpLtN c .. => formed_execScmpLtN (c := c) h | .scmpLeN c .. => formed_execScmpLeN (c := c) h
  | .ssel c .. => formed_execSsel (c := c) h | .getsr c .. => formed_execGetsr (c := c) h | .setsr c .. => formed_execSetsr (c := c) h
  | .setix c .. => formed_execSetix (c := c) h | .addix c .. => formed_execAddix (c := c) h | .getix c .. => formed_execGetix (c := c) h
  | .bind c .. => formed_execBind (c := c) h | .unbind c .. => formed_execUnbind (c := c) h | .wquery c .. => formed_execWquery (c := c) h
  | .ld c .. => formed_execLd (c := c) h | .st c .. => formed_execSt (c := c) h | .ldg c .. => formed_execLdg (c := c) h
  | .stg c .. => formed_execStg (c := c) h | .lds c .. => formed_execLds (c := c) h | .sts c .. => formed_execSts (c := c) h
  | .ldc c .. => formed_execLdc (c := c) h | .atom c _ _ _ _ _ sb .. => formed_execAtom (c := c) (sb := sb) h
  | .atoms c _ _ _ _ sb .. => formed_execAtoms (c := c) (sb := sb) h | .ldt c .. => formed_execLdt (c := c) h
  | .smpPoint c .. => formed_execSmpPoint (c := c) h | .smpBilinear c .. => formed_execSmpBilinear (c := c) h
  | .smpTrilinear c .. => formed_execSmpTrilinear (c := c) h | .fenceAcq c .. => formed_execFenceAcq (c := c) h
  | .fenceRel c sb => formed_execFenceRel (c := c) (sb := sb) h | .fenceAr c .. => formed_execFenceAr (c := c) h
  | .cinv c => formed_execCinv (c := c) h | .cwb c .. => formed_execCwb (c := c) h | .pf c .. => formed_execPf (c := c) h
  | .resfence c => formed_execResfence (c := c) h | .cpa c .. => formed_execCpa (c := c) h | .cpseal c => formed_execCpseal (c := c) h
  | .cpwait c .. => formed_execCpwait (c := c) h | .cpstat c .. => formed_execCpstat (c := c) h
  | .cpbulk c .. => formed_execCpbulk (c := c) h | .cpq c .. => formed_execCpq (c := c) h | .tbinit c .. => formed_execTbinit (c := c) h
  | .tbarrive c .. => formed_execTbarrive (c := c) h | .tbexpect c .. => formed_execTbexpect (c := c) h
  | .tbwait c .. => formed_execTbwait (c := c) h | .tbtest c .. => formed_execTbtest (c := c) h | .rarm c .. => formed_execRarm (c := c) h
  | .rdisarm c .. => formed_execRdisarm (c := c) h | .mkcap c .. => formed_execMkcap (c := c) h
  | .rsend c .. => formed_execRsend (c := c) h | .rsendT c .. => formed_execRsendT (c := c) h
  | .rsendRel c .. => formed_execRsendRel (c := c) h | .rsendRelT c .. => formed_execRsendRelT (c := c) h
  | .rrevoke c .. => formed_execRrevoke (c := c) h | .rtest c .. => formed_execRtest (c := c) h
  | .rtestCount c .. => formed_execRtestCount (c := c) h | .mring c .. => formed_execMring (c := c) h
  | .msend c .. => formed_execMsend (c := c) h | .mwait c .. => formed_execMwait (c := c) h | .resset c .. => formed_execResset (c := c) h
  | .resclr c .. => formed_execResclr (c := c) h | .resq c .. => formed_execResq (c := c) h | .memitV c .. => formed_execMemitV (c := c) h
  | .memitP c .. => formed_execMemitP (c := c) h | .tamp c .. => formed_execTamp (c := c) h | .tload c .. => formed_execTload (c := c) h
  | .tstore c .. => formed_execTstore (c := c) h | .tseal c => formed_execTseal (c := c) h | .gzrd c .. => formed_execGzrd (c := c) h
  | .tlbinv c .. => formed_execTlbinv (c := c) h | .winv c .. => formed_execWinv (c := c) h | .hmask c .. => formed_execHmask (c := c) h
  | .evict c .. => formed_execEvict (c := c) h | .snap c => formed_execSnap (c := c) h | .pgmap c .. => formed_execPgmap (c := c) h
  | .bra c .. => formed_execBra (c := c) h | .brc c .. => formed_execBrc (c := c) h | .brcn c .. => formed_execBrcn (c := c) h
  | .bru c .. => formed_execBru (c := c) h | .join c => formed_execJoin (c := c) h | .brx c .. => formed_execBrx (c := c) h
  | .loop c .. => formed_execLoop (c := c) h | .call c .. => formed_execCall (c := c) h | .ret c => formed_execRet (c := c) h
  | .exit c .. => formed_execExit (c := c) h | .trap c .. => formed_execTrap (c := c) h | .brk c .. => formed_execBrk (c := c) h
  | .yield c => formed_execYield (c := c) h | .sleep c .. => formed_execSleep (c := c) h | .bar c => formed_execBar (c := c) h
  | .barPub c => formed_execBarPub (c := c) h | .barRealloc c .. => formed_execBarRealloc (c := c) h
  | .barArrive c => formed_execBarArrive (c := c) h | .barWait c => formed_execBarWait (c := c) h
  | .post c .. => formed_execPost (c := c) h | .lgrow c .. => formed_execLgrow (c := c) h | .evpost c .. => formed_execEvpost (c := c) h
  | .depdec c .. => formed_execDepdec (c := c) h | .depset c .. => formed_execDepset (c := c) h | .mmq c .. => formed_execMmq (c := c) h
  | .mmqs c .. => formed_execMmqs (c := c) h | .mmqg c .. => formed_execMmqg (c := c) h | .mtile c .. => formed_execMtile (c := c) h
  | .wbld c .. => formed_execWbld (c := c) h | .wbinv c .. => formed_execWbinv (c := c) h | .wbstat c .. => formed_execWbstat (c := c) h
  | .had16 c .. => formed_execHad16 (c := c) h | .had32 c .. => formed_execHad32 (c := c) h | .had64 c .. => formed_execHad64 (c := c) h
  | .absmax c .. => formed_execAbsmax (c := c) h | .quant c .. => formed_execQuant (c := c) h | .bmenc c .. => formed_execBmenc (c := c) h
  | .bmdec c .. => formed_execBmdec (c := c) h | .pscan c .. => formed_execPscan (c := c) h | .lztok c .. => formed_execLztok (c := c) h
  | .powerOn => formed_execPowerOn h | .measureComponent .. => formed_execMeasureComponent h | .status .. => formed_execStatus h
  | .reset .. => formed_execReset h | .loadimg .. => formed_execLoadimg h | .attest .. => formed_execAttest h
  | .snapCommand .. => formed_execSnapCommand h | .rdsnap .. => formed_execRdsnap h | .rdlife .. => formed_execRdlife h
  | .setpkg .. => formed_execSetpkg h | .killctx .. => formed_execKillctx h | .unknownCommand .. => formed_execUnknownCommand h
  | .lifetimeFlush => formed_execLifetimeFlush h | .ctxCreate .. => formed_execCtxCreate h | .ctxKill .. => formed_execCtxKill h
  | .ctxDestroy .. => formed_execCtxDestroy h | .rcbinvWrite .. => formed_execRcbinvWrite h
  | .rcbInvalidationDone .. => formed_execRcbInvalidationDone h | .wtreplayByPage .. => formed_execWtreplayByPage h
  | .wtreplayByToken .. => formed_execWtreplayByToken h | .wtreplayByAsid .. => formed_execWtreplayByAsid h
  | .dspostWrite .. => formed_execDspostWrite h | .dctrSet .. => formed_execDctrSet h | .dctrDecrement .. => formed_execDctrDecrement h
  | .lcctlCntclr .. => formed_execLcctlCntclr h | .lcctlTcdis .. => formed_execLcctlTcdis h | .snapctlClr .. => formed_execSnapctlClr h
  | .thermctlRelease .. => formed_execThermctlRelease h | .domswWrite .. => formed_execDomswWrite h | .fwWrite .. => formed_execFwWrite h
  | .serclkWrite .. => formed_execSerclkWrite h | .vobWrite .. => formed_execVobWrite h | .vrecWrite .. => formed_execVrecWrite h
  | .gazeWrite .. => formed_execGazeWrite h | .embctlWrite .. => formed_execEmbctlWrite h | .dsctlWrite .. => formed_execDsctlWrite h
  | .nrbaseWrite .. => formed_execNrbaseWrite h | .deviceRegisterWrite .. => formed_execDeviceRegisterWrite h
  | .flitSend .. => formed_execFlitSend h | .flitReceive .. => formed_execFlitReceive h | .linkRetrain .. => formed_execLinkRetrain h
  | .retrainComplete .. => formed_execRetrainComplete h | .linkDown .. => formed_execLinkDown h
  | .dmaRequest .. => formed_execDmaRequest h | .pcieWindowCompletion .. => formed_execPcieWindowCompletion h
  | .thermalThrottle .. => formed_execThermalThrottle h | .thermalReset .. => formed_execThermalReset h
  | .thermalTokenRestore .. => formed_execThermalTokenRestore h | .faultRecordWrite .. => formed_execFaultRecordWrite h
  | .cardPostArrival .. => formed_execCardPostArrival h | .cardStoreEntryFreed .. => formed_execCardStoreEntryFreed h
  | .counterUpdate .. => formed_execCounterUpdate h | .cardReady .. => formed_execCardReady h
  | .teamPlacement .. => formed_execTeamPlacement h | .admholdExpiry .. => formed_execAdmholdExpiry h
  | .drainDeadline .. => formed_execDrainDeadline h | .launchRetirement .. => formed_execLaunchRetirement h
  | .eventRecord .. => formed_execEventRecord h | .eventQueueSlotFreed .. => formed_execEventQueueSlotFreed h
  | .decompressionJobEnd .. => formed_execDecompressionJobEnd h | .waitTableRewalk .. => formed_execWaitTableRewalk h
  | .siblingStop .. => formed_execSiblingStop h | .sibhaltPop .. => formed_execSibhaltPop h | .lateFailure .. => formed_execLateFailure h
  | .sleepExpiry .. => formed_execSleepExpiry h | .tokenHop .. => formed_execTokenHop h | .burstEnd .. => formed_execBurstEnd h
  | .reallocDecision .. => formed_execReallocDecision h | .llcRequest .. => formed_execLlcRequest h
  | .nackResend .. => formed_execNackResend h | .domainSwitchPhase => formed_execDomainSwitchPhase h
  | .domainNackResend .. => formed_execDomainNackResend h | .remoteScratchAccess .. => formed_execRemoteScratchAccess h
  | .cpaCopyComplete .. => formed_execCpaCopyComplete h | .bulkCopyComplete .. => formed_execBulkCopyComplete h
  | .wbldComplete .. => formed_execWbldComplete h | .xfmReply .. => formed_execXfmReply h | .mtileStep .. => formed_execMtileStep h
  | .sendAtRelay .. => formed_execSendAtRelay h | .sendArrival .. => formed_execSendArrival h | .sendMoved .. => formed_execSendMoved h
  | .sendStatusReply .. => formed_execSendStatusReply h | .messageAtRelay .. => formed_execMessageAtRelay h
  | .teamEviction .. => formed_execTeamEviction h | .teamRestore .. => formed_execTeamRestore h
  | .flueRecordWrite .. => formed_execFlueRecordWrite h | .residencyInvalidation .. => formed_execResidencyInvalidation h
  | .snapTriggerRoot => formed_execSnapTriggerRoot h | .snapshotLatch .. => formed_execSnapshotLatch h
  | .meshRingEntry .. => formed_execMeshRingEntry h | .cullInstance .. => formed_execCullInstance h
  | .primitiveAtBinner .. => formed_execPrimitiveAtBinner h | .primitiveAtOwner .. => formed_execPrimitiveAtOwner h
  | .drawEndMarker .. => formed_execDrawEndMarker h | .primitiveApply .. => formed_execPrimitiveApply h
  | .stripStart .. => formed_execStripStart h | .sealArrival => formed_execSealArrival h
  | .replacementInstant .. => formed_execReplacementInstant h | .replacementNotice .. => formed_execReplacementNotice h
  | .powerLoss => formed_execPowerLoss | .memoryReply .. => formed_execMemoryReply h | .llcMissFill .. => formed_execLlcMissFill h
  | .coreReset .. => formed_execCoreReset h | .retrainingAttemptFailure .. => formed_execRetrainingAttemptFailure h

theorem formed_runWords {is : List Instr} (h : Formed s) : Formed (runWords is s) := by
  unfold runWords
  exact formed_foldl (fun t i ht => formed_ite (formed_after ht (formed_exec ht)) ht) h

theorem formed_runChain {is : List Instr} (h : Formed s) : Formed (runChain is s) := by
  have hr : ∀ {t : State} {m : Issue}, Formed t → Formed { runWords is { t with issue := m } with issue := .alone } :=
    fun ht => formed_mk (formed_runWords (formed_mk ht))
  have hu : Formed (unwant s) := formed_unwant h
  unfold runChain
  refine formed_ite (formed_holdIssue hu) (formed_ite (formed_holdIssue (hr hu)) (formed_ite (formed_failChain (formed_onCur hu))
    (formed_ite (formed_failChain (hr (formed_onCur hu))) (formed_ite (formed_awaitWord (hr hu)) (formed_takeNexts (hr ?_))))))
  exact formed_runWords (formed_mk (formed_advance hu))

theorem formed_issueWords {ws : List Word} (h : Formed s) : Formed (issueWords ws s) := by
  unfold issueWords
  split
  · exact formed_trapHere h
  · split
    · exact formed_trapHere h
    · split
      · exact formed_after h (formed_exec h)
      · exact formed_runChain h

theorem formed_issueAt {l : Line} (h : Formed s) : Formed (issueAt l s) := by
  unfold issueAt
  exact formed_ite (formed_trapHere h) (formed_ite (formed_trapHere h) (formed_ite (formed_trapHere h) (formed_ite (formed_holdIssue h)
    (formed_endIssue (formed_issueWords (formed_onCur (formed_mk h)))))))

theorem formed_groupTurn {k : Nat} (h : Formed s) : Formed (groupTurn k s) := by
  unfold groupTurn
  extract_lets s' g
  have hs : Formed s' := formed_mk h
  clear_value s' g
  split
  · exact formed_takePending hs _ ‹_›
  · have hf : ∀ {f : Group → Group}, Formed (fetchBlock k (onGroup k f s')).2 := formed_fetchBlock (formed_onGroup hs)
    split
    · exact formed_issueAt (formed_of_pair ‹_› hf)
    · exact formed_holdIssue (formed_of_pair ‹_› hf)
    · exact formed_trapHere (formed_of_pair ‹_› hf)
    · exact formed_parkWith (formed_onCur (formed_of_pair ‹_› hf))

/-- What the error in a core's own store leaves where it kills the group's team. -/
theorem formed_coreStoreError_fst {k : Nat} (h : Formed s) : OptFormed (coreStoreError k s).1 := by
  unfold coreStoreError
  dsimp only
  split
  · exact optFormed_none
  · exact optFormed_none
  · exact optFormed_none
  · exact optFormed_some (formed_killTeam (formed_record (formed_onCore (formed_meetErr h))))

theorem formed_issueGroup {k : Nat} (h : Formed s) : Formed (issueGroup k s) := by
  have hm := formed_meetCaches (core := (teamAt s (handleOf k)).core) h
  unfold issueGroup
  split
  · rename_i e
    exact formed_coreStoreError_fst (k := k) hm _ (congrArg Prod.fst e)
  · exact formed_groupTurn (formed_of_pair ‹_› (formed_coreStoreError (k := k) hm))

theorem formed_takeInput {i : Input} (h : Formed s) : Formed (takeInput i s) := by
  cases i with
  | step i => exact formed_ite (formed_after h (formed_exec h)) h
  | relaxed i => exact formed_ite (formed_after h (formed_exec h)) h
  | ctl cc op => exact formed_getD (formed_ctlDo h) h
  | flitRetry l seq => exact formed_setLink h
  | temperature d t => exact formed_takeTemperature h
  | bitError p e => exact formed_takeError h

theorem formed_takeMove {m : Move} (h : Formed s) : OutFormed (takeMove m s) := by
  cases m with
  | group k => exact outFormed_next (formed_issueGroup h)
  | device i => exact formed_exec h
  | input n =>
    unfold takeMove
    dsimp only
    split
    · exact outFormed_next (formed_takeInput (formed_mk h))
    · exact outFormed_next h
  | tick => exact outFormed_next (formed_tick h)

theorem formed_step (h : Formed s) : OutFormed (step s) := formed_takeMove (formed_chooseMove h)

/-- Settles O6: every operation of the model keeps memory in its form, so every move does. -/
theorem stepKeepsMemoryForm : Obligations.StepKeepsMemoryForm := by
  unfold Obligations.StepKeepsMemoryForm
  exact fun s t hs e => formed_step (s := s) hs t e

end Sys2Proof.Machine

namespace Sys2Proof.Machine

open Claims

/-! What a step answers, against a table of its cases or of its facts. -/

/-- An outcome is the one that each case that applies gives. -/
def Answers (o : Out) (ks : List StepCase) : Prop := ∀ k ∈ ks, k.ok = true → o = .next k.after

/-- An outcome is a state in which each fact that applies is so. -/
def Obeys (o : Out) (ks : List StepFact) : Prop := ∀ k ∈ ks, k.ok = true → ∃ t, o = .next t ∧ k.must t = true

variable {o : Out} {s t : State}

@[simp] theorem answers_nil : Answers o [] := fun _ h => nomatch h
@[simp] theorem answers_cons {k : StepCase} {ks : List StepCase} :
    Answers o (k :: ks) ↔ (k.ok = true → o = .next k.after) ∧ Answers o ks := List.forall_mem_cons

theorem answers_single {k : StepCase} (h : k.ok = true → o = .next k.after) : Answers o [k] := answers_cons.mpr ⟨h, answers_nil⟩
theorem answers_append {ks ls : List StepCase} : Answers o (ks ++ ls) ↔ Answers o ks ∧ Answers o ls := List.forall_mem_append

@[simp] theorem obeys_nil : Obeys o [] := fun _ h => nomatch h
@[simp] theorem obeys_cons {k : StepFact} {ks : List StepFact} :
    Obeys o (k :: ks) ↔ (k.ok = true → ∃ t, o = .next t ∧ k.must t = true) ∧ Obeys o ks := List.forall_mem_cons

theorem obeys_single {k : StepFact} (h : k.ok = true → ∃ t, o = .next t ∧ k.must t = true) : Obeys o [k] :=
  obeys_cons.mpr ⟨h, obeys_nil⟩

/-- A table of cases holds if every instruction answers as its row gives. -/
theorem stepHolds_iff {cases : Instr → State → List StepCase} : StepHolds cases ↔ ∀ i s, Answers (exec i s) (cases i s) :=
  ⟨fun h i s k => h i s k, fun h i s k => h i s k⟩

theorem factHolds_iff {facts : Instr → State → List StepFact} : FactHolds facts ↔ ∀ i s, Obeys (exec i s) (facts i s) :=
  ⟨fun h i s k => h i s k, fun h i s k => h i s k⟩

/-- Two changes of a die that agree on it as it stands are one change. -/
theorem onDie_congr {d : Nat} {f g : Die → Die} (h : f (dieAt s d) = g (dieAt s d)) : onDie d f s = onDie d g s := by
  unfold onDie; rw [h]

theorem set_set {α : Type} (k : Nat) (u v : α) : ∀ m : AMap α, Maps.set (Maps.set m k u) k v = Maps.set m k v
  | [] => by simp [Maps.set]
  | (j, w) :: m => by
    by_cases hj : j = k
    · simp [Maps.set, hj]
    · by_cases hk : k < j
      · simp [Maps.set, hj, hk]
      · simp [Maps.set, hj, hk, set_set k u v m]

/-- Changes of one die in turn are one change. -/
theorem onDie_onDie (d : Nat) (f g : Die → Die) : onDie d g (onDie d f s) = onDie d (fun x => g (f x)) s := by
  simp [onDie, dieAt, set_set]

end Sys2Proof.Machine

namespace Sys2Proof.Machine

open Claims

variable {s : State}

/-! Registers of a die pair. -/

theorem bitN_eq_getLsbD {n : Nat} (w : BitVec n) (i : Nat) : bitN w.toNat i = w.getLsbD i := bitN_eq_testBit _ _

theorem dsctlWrite_answers (d : BitVec 3) (w : BitVec 32) : Answers (exec (.dsctlWrite d w) s) (dsctlCases d.toNat w.toNat s) := by
  have he : exec (.dsctlWrite d w) s = .next (writeDsctl d.toNat w s) := rfl
  simp only [dsctlCases, answers_cons, answers_nil, and_true, he, writeDsctl, decide_eq_true_eq]
  refine ⟨fun h => ?_, fun h => ?_⟩
  · have hn : bitsN w.toNat 19 4 * 16 + w.toNat % 16 = w.toNat % 2 ^ 20 := by unfold bitsN; omega
    rw [if_neg (by omega), hn]
  · rw [if_pos h]

theorem rcbinvWrite_answers (d : BitVec 3) (w : BitVec 32) : Answers (exec (.rcbinvWrite d w) s) (rcbinvCases d.toNat w s) := by
  have hb : rcbBusy (dieAt s d.toNat) = (dieAt s d.toNat).rcbinv.getLsbD 19 := bitN_eq_getLsbD _ _
  have hc : bitsN w.toNat 31 20 = w.toNat / 1048576 := by have := w.isLt; unfold bitsN; omega
  have he : exec (.rcbinvWrite d w) s = .next (writeRcbinv d.toNat w s) := rfl
  simp only [rcbinvCases, answers_cons, answers_nil, and_true, he, writeRcbinv, hb, startRcbinv, hc, Bool.and_eq_true, Bool.not_eq_true',
    Nat.reducePow]
  refine ⟨fun h => ?_, fun ⟨h, h'⟩ => ?_, fun ⟨h, h'⟩ => ?_⟩ <;> simp only [h, if_true, Bool.false_eq_true, if_false]
  · exact congrArg Host.Outcome.next (onDie_congr (by simp only [h', if_true, Nat.one_mul]))
  · exact congrArg Host.Outcome.next (onDie_congr (by simp only [h', Bool.false_eq_true, if_false, Nat.zero_mul]))

theorem rcbInvalidationDone_answers (d : BitVec 3) : Answers (exec (.rcbInvalidationDone d) s) (rcbDoneCases d.toNat s) := by
  refine answers_single fun h => ?_
  obtain ⟨hb, hn⟩ := Bool.and_eq_true_iff.mp h
  have hb : rcbBusy (dieAt s d.toNat) = true := (bitN_eq_getLsbD _ _).trans hb
  have hv : bitsN (dieAt s d.toNat).rcbinv.toNat 31 20 = (dieAt s d.toNat).rcbinv.toNat / 2 ^ 20 := by
    have := (dieAt s d.toNat).rcbinv.isLt; unfold bitsN; omega
  have he : exec (.rcbInvalidationDone d) s = .next (endRcbinv d.toNat s) := if_pos hb
  rw [he]
  simp [endRcbinv, hv, List.isEmpty_iff.mp hn, releaseRcbinv]

theorem nrbaseWrite_answers (d : BitVec 3) (w : BitVec 64) : Answers (exec (.nrbaseWrite d w) s) (nrbaseCases d.toNat w s) := by
  have hn : bitsN (bitsN w.toNat 45 8 * 256 + w.toNat % 2) 45 8 = bitsN w.toNat 45 8 := by unfold bitsN; omega
  have he : exec (.nrbaseWrite d w) s = .next (writeNrbase d.toNat w s) := rfl
  simp only [nrbaseCases, answers_cons, answers_nil, and_true, he, writeNrbase, hn]
  refine ⟨fun h => ?_, fun h => ?_⟩
  · simp only [Bool.and_eq_true, decide_eq_true_eq] at h
    rw [if_pos h]
  · rw [if_neg fun h' => by simp [h'] at h]

theorem embctlWrite_answers (d : BitVec 3) (w : BitVec 32) : Answers (exec (.embctlWrite d w) s) (embctlCases d.toNat w s) := by
  have he : exec (.embctlWrite d w) s = .next (writeEmbctl d.toNat w s) := rfl
  simp only [embctlCases, answers_cons, answers_nil, and_true, he, writeEmbctl, decide_eq_true_eq]
  refine ⟨fun h => if_pos h ▸ rfl, fun ⟨h0, h7, hm⟩ => ?_, fun ⟨h0, h7, hm⟩ => ?_⟩ <;> rw [if_neg (by omega)]
  · simp [hm]
  · simp [hm, draw]

theorem reachable_line (m : Mem) (pa : Nat) : reachable m pa 64 = ((domainOf m pa).isSome && (domainOf m (pa + 63)).isSome) := rfl

/-- Why a read of a card's bytes gives none (R81). -/
def postWhy (s : State) (d pa : Nat) : Option Reason :=
  if !((domainOf s.mem pa).isSome && (domainOf s.mem (pa + 63)).isSome) then some Reason.nophys
  else if (lostLink s (enginePort d) pa 64).isSome then some .linkdown
  else if rangeErr s.mem pa 64 ≠ 0 then some .ecc
  else if poisoned s.mem pa 64 then some .poison
  else none

theorem postRead_eq (d pa : Nat) (s : State) : postRead s d pa = match postWhy s d pa with
    | some r => .error r
    | none => .ok (bytesAt s.mem pa 64) := by
  unfold postRead postWhy
  rw [reachable_line]
  split
  · rfl
  · split
    · rfl
    · split
      · rfl
      · split <;> rfl

theorem dspostWrite_answers (d : BitVec 3) (cc : BitVec 4) (w : BitVec 64) :
    Answers (exec (.dspostWrite d cc w) s) (dspostCases d.toNat cc.toNat w s) := by
  have he : exec (.dspostWrite d cc w) s = .next (writeDspost d.toNat cc.toNat w s) := rfl
  have hc : bitsN w.toNat 63 52 = w.toNat / 2 ^ 52 := by have := w.isLt; unfold bitsN; omega
  simp only [dspostCases, answers_cons, answers_nil, and_true, he, writeDspost, hc, postRead_eq, reachable_line]
  generalize bitsN w.toNat 45 6 * 64 = pa
  rw [← postWhy]
  generalize postWhy s d.toNat pa = why
  generalize w.toNat / 2 ^ 52 = c
  cases hr : (dieAt s d.toNat).heldReset <;> cases why <;>
    simp only [Bool.not_true, Bool.not_false, Bool.true_and, Bool.false_and, Bool.and_true, Bool.and_false, Option.isNone_none,
      Option.isNone_some, Bool.false_eq_true, false_implies, true_implies, and_true, true_and, if_true, if_false, Option.getD_some]
  case false.some => rfl
  refine ⟨fun h => ?_, fun h => ?_, fun h => ?_⟩
  · rw [if_pos]
    · rfl
    · cases hv : ctxValid s c <;> cases hf : ctxFaulted s c <;> simp [hv, hf] at h ⊢
      omega
  · simp only [Bool.and_eq_true, Bool.not_eq_true', decide_eq_true_eq] at h
    obtain ⟨⟨⟨hv, hf⟩, hb⟩, hs⟩ := h
    rw [if_neg (by simp [hv, hf, hb]), hs]
    rfl
  · simp only [Bool.and_eq_true, Bool.not_eq_true', decide_eq_true_eq] at h
    obtain ⟨⟨⟨hv, hf⟩, hb⟩, hs⟩ := h
    rw [if_neg (by simp [hv, hf, hb]), hs]
    rfl

theorem pushCtr_answers {d n cc : Nat} {k : CtrKind} {ok : Bool} {o : Out}
    (h : ok = true → o = .next (pushCtr d { idx := n, kind := k, src := .control cc, rank := 200000 + cc } s)) :
    Answers o (dctrCase d n cc k ok s) := answers_single h

theorem dctrSet_answers (d : BitVec 3) (n : BitVec 12) (cc : BitVec 4) (w : BitVec 64) :
    Answers (exec (.dctrSet d n cc w) s) (dctrCase d.toNat n.toNat cc.toNat (.set (w.toNat % 2 ^ 20)) (decide (w.toNat / 2 ^ 62 = 1)) s) := by
  refine pushCtr_answers fun h => ?_
  have hw : bitsN w.toNat 63 62 = 1 := by have := of_decide_eq_true h; unfold bitsN; omega
  have he : exec (.dctrSet d n cc w) s = .next (writeDctr d.toNat n.toNat cc.toNat w s) := if_pos hw
  simp [he, writeDctr, hw]

theorem dctrDecrement_answers (d : BitVec 3) (n : BitVec 12) (cc : BitVec 4) (w : BitVec 64) :
    Answers (exec (.dctrDecrement d n cc w) s) (dctrCase d.toNat n.toNat cc.toNat .dec (decide (w.toNat / 2 ^ 62 = 2)) s) := by
  refine pushCtr_answers fun h => ?_
  have hw : bitsN w.toNat 63 62 = 2 := by have := of_decide_eq_true h; unfold bitsN; omega
  have he : exec (.dctrDecrement d n cc w) s = .next (writeDctr d.toNat n.toNat cc.toNat w s) := if_pos hw
  simp [he, writeDctr, hw]

theorem snapctlClr_answers (d : BitVec 4) (w : BitVec 32) : Answers (exec (.snapctlClr d w) s) (snapctlCases d.toNat w s) := by
  refine answers_single fun h => ?_
  have he : exec (.snapctlClr d w) s = .next (writeSnapctl d.toNat w s) := if_pos h
  replace h : w.getLsbD 2 = true := h
  simp [he, writeSnapctl, h]

theorem thermctlRelease_answers (d : BitVec 3) (w : BitVec 32) : Answers (exec (.thermctlRelease d w) s) (thermctlCases d.toNat w s) := by
  simp only [thermctlCases, answers_cons, answers_nil, and_true, Bool.and_eq_true, Bool.not_eq_true']
  refine ⟨fun ⟨h, h'⟩ => ?_, fun ⟨h, h', h''⟩ => ?_⟩ <;>
    rw [show exec (.thermctlRelease d w) s = .next (writeThermctl d.toNat w s) from if_pos h]
  · rw [writeThermctl, if_neg (by simp [Bool.and_assoc, h'])]
  · rw [writeThermctl, if_pos (by simp [h, h', h''])]
    rfl

/-! Links. -/

theorem writeLcctl_eq (l : LinkId) (w : Word) : writeLcctl l w s =
    setLink l (if w.getLsbD 3 then { linkOf s l with tcdis := BitVec.ofNat 4 (w.toNat / 16), flits := 0, zr := 0, bd := 0, bm := 0, beat := 0 }
      else { linkOf s l with tcdis := BitVec.ofNat 4 (w.toNat / 16) }) s := by
  have hw : BitVec.ofNat 4 (bitsN w.toNat 7 4) = BitVec.ofNat 4 (w.toNat / 16) := by
    apply BitVec.eq_of_toNat_eq; simp only [BitVec.toNat_ofNat, bitsN]; omega
  unfold writeLcctl
  rw [hw]

theorem lcctlCntclr_answers (l : LinkId) (w : BitVec 32) : Answers (exec (.lcctlCntclr l w) s) (lcctlCase l w true s) := by
  refine answers_single fun h => ?_
  have h : w.getLsbD 3 = true := by simpa using h
  rw [show exec (.lcctlCntclr l w) s = .next (writeLcctl l w s) from if_pos h, writeLcctl_eq, if_pos h]
  rfl

theorem lcctlTcdis_answers (l : LinkId) (w : BitVec 32) : Answers (exec (.lcctlTcdis l w) s) (lcctlCase l w false s) := by
  refine answers_single fun h => ?_
  have h : w.getLsbD 3 = false := by simpa using h
  rw [show exec (.lcctlTcdis l w) s = .next (writeLcctl l w s) from rfl, writeLcctl_eq, h]

/-! The display. -/

theorem serclkWrite_answers (w : BitVec 32) : Answers (exec (.serclkWrite w) s) (serclkCases w s) := by
  have he : exec (.serclkWrite w) s = .next (writeSerclk w s) := rfl
  simp only [serclkCases, answers_cons, answers_nil, and_true, he, writeSerclk, Bool.and_eq_true, Bool.not_eq_true', decide_eq_true_eq,
    decide_eq_false_iff_not]
  refine ⟨fun h => ?_, fun ⟨h, h'⟩ => ?_, fun ⟨h, h'⟩ => ?_⟩
  · rw [if_pos (by omega)]
  · rw [if_neg (by omega)]; simp [h']
  · rw [if_neg (by omega)]; simp [h']

theorem vobWrite_answers (v : BitVec 4) (part : BitVec 3) (w : BitVec 64) :
    Answers (exec (.vobWrite v part w) s) (vobCases v.toNat part.toNat w s) := by
  refine answers_single fun h => ?_
  have he : exec (.vobWrite v part w) s = .next (writeVob v.toNat part.toNat w s) := rfl
  rw [he, writeVob, if_pos (of_decide_eq_true h)]

/-! The memory side. -/

theorem domBusy_eq (m : Mem) : domBusy m = ((m.domQueue.any fun x => x.group.isNone) || (m.domSw.any fun x => x.group.isNone)) := by
  unfold domBusy
  cases m.domSw <;> rfl

/-- A write of DOMSW while no switch is in progress or queued. -/
theorem startDomsw_alone {k : Nat} (hq : s.mem.domQueue = []) (hs : s.mem.domSw = none) : startDomsw k s =
    let h : Dword := Maps.get 0 s.mem.hmasks k
    let v := withMcmask (Maps.get 0 s.mem.idws k).toNat (idwOf s.mem k)
    if domainRefused s.mem k v h.toNat then onMem (fun m => { m with domReg := BitVec.ofNat 4 k, domQueue := [], domRefused := true }) s
    else onMem (fun m => { m with
      domReg := BitVec.ofNat 4 k, domQueue := []
      domSw := some { k := k, idw := BitVec.ofNat 64 v, hmask := h, phase := 1, group := none } }) s := by
  unfold startDomsw
  simp only [queueSwitch, mem_onMem, hq, List.nil_append, List.length_singleton]
  unfold beginSwitches
  simp only [mem_onMem, hq, hs, List.nil_append]
  rfl

theorem domswWrite_answers (w : BitVec 32) : Answers (exec (.domswWrite w) s) (domswCases w s) := by
  have he : exec (.domswWrite w) s = .next (writeDomsw w.toNat s) := rfl
  simp only [domswCases, answers_cons, answers_nil, and_true, he, writeDomsw, domBusy_eq, Bool.and_eq_true, Bool.not_eq_true']
  refine ⟨fun h => by rw [if_pos h], fun ⟨⟨hq, hs⟩, h⟩ => ?_, fun ⟨⟨hq, hs⟩, h⟩ => ?_⟩ <;>
    replace hq := List.isEmpty_iff.mp hq <;> replace hs := Option.isNone_iff_eq_none.mp hs <;>
    rw [if_neg (by simp [hq, hs]), startDomsw_alone hq hs]
  · rw [if_pos h]
  · rw [if_neg (by rw [h]; decide)]

/-! Format windows: a value is four words of 64 bits. -/

/-- Four words of 64 bits as one number. -/
def words4 (a b c e : Nat) : Nat := a + b * 2 ^ 64 + c * 2 ^ 128 + e * 2 ^ 192

theorem exists_words4 {v : Nat} (h : v < 2 ^ 256) :
    ∃ a b c e, a < 2 ^ 64 ∧ b < 2 ^ 64 ∧ c < 2 ^ 64 ∧ e < 2 ^ 64 ∧ v = words4 a b c e :=
  ⟨v % 2 ^ 64, v / 2 ^ 64 % 2 ^ 64, v / 2 ^ 128 % 2 ^ 64, v / 2 ^ 192, by omega, by omega, by omega, by omega, by unfold words4; omega⟩

theorem words4_word_zero {a b c e : Nat} (ha : a < 2 ^ 64) : words4 a b c e / 2 ^ (64 * 0) % 2 ^ 64 = a := by unfold words4; omega
theorem words4_word_one {a b c e : Nat} (ha : a < 2 ^ 64) (hb : b < 2 ^ 64) : words4 a b c e / 2 ^ (64 * 1) % 2 ^ 64 = b := by
  unfold words4; omega
theorem words4_word_two {a b c e : Nat} (ha : a < 2 ^ 64) (hb : b < 2 ^ 64) (hc : c < 2 ^ 64) :
    words4 a b c e / 2 ^ (64 * 2) % 2 ^ 64 = c := by
  unfold words4; omega

section
variable {a b c e : Nat} (ha : a < 2 ^ 64) (hb : b < 2 ^ 64) (hc : c < 2 ^ 64) (he : e < 2 ^ 64) (w : Nat)
include ha hb hc he

theorem setPart_words4_zero : setPart (words4 a b c e) 0 w = words4 w b c e := by unfold setPart wordPart bitsN words4; omega
theorem setPart_words4_one : setPart (words4 a b c e) 1 w = words4 a w c e := by unfold setPart wordPart bitsN words4; omega
theorem setPart_words4_two : setPart (words4 a b c e) 2 w = words4 a b w e := by unfold setPart wordPart bitsN words4; omega
theorem setPart_words4_three : setPart (words4 a b c e) 3 w = words4 a b c w := by unfold setPart wordPart bitsN words4; omega
end

/-- A window's new value, by its words (R18). -/
theorem fwStaged_eq (key : Nat) (w : Dword) {old : Nat} (h : old < 2 ^ 256) : fwStaged s.mem key w.toNat old = fwTaken key w s old := by
  obtain ⟨a, b, c, e, ha, hb, hc, he, rfl⟩ := exists_words4 h
  have hf : ∀ x : Dword, x.toNat < 2 ^ 64 := fun x => x.isLt
  simp only [fwStaged, fwTaken, words4_word_zero ha, words4_word_one ha hb, words4_word_two ha hb hc,
    show List.range 3 = [0, 1, 2] from rfl, List.foldl_cons, List.foldl_nil]
  cases Maps.find s.mem.fwStage (4 * key + 0) <;> cases Maps.find s.mem.fwStage (4 * key + 1) <;>
    cases Maps.find s.mem.fwStage (4 * key + 2) <;>
    simp only [setPart_words4_zero, setPart_words4_one, setPart_words4_two, setPart_words4_three, ha, hb, hc, he, hf] <;> rfl

theorem fwOf_lt (m : Mem) (mc k : Nat) : fwOf m mc k < 2 ^ 256 := (Maps.get 0 m.fw (16 * mc + k)).isLt

/-- Lines none of which holds a store leave the LLC without a write (R213). -/
theorem flushLines_clean {p : Nat → Bool} {m : Mem} (h : ∀ e ∈ m.llc, (p e.1 && e.2.dirty) = false) :
    flushLines p m = { m with llc := m.llc.filter fun e => !p e.1 } := by
  have hf : ∀ l : AMap LlcLine, (∀ e ∈ l, (p e.1 && e.2.dirty) = false) →
      l.foldl (fun n e => if p e.1 && e.2.dirty then writeLine e.1 e.2.data n else n) m = m := by
    intro l
    induction l with
    | nil => exact fun _ => rfl
    | cons e l ih =>
      intro hl
      rw [List.foldl_cons, hl e (List.mem_cons_self ..), if_neg (by decide)]
      exact ih fun x hx => hl x (List.mem_cons_of_mem _ hx)
  unfold flushLines
  rw [hf _ h]

/-- A line that a format window's new value makes leave the LLC: it lies in the old or the new view range (R213). -/
def fwGoes (m : Mem) (mc k v la : Nat) : Bool := controllerOf m (64 * la) == mc && (fwCovers (fwOf m mc k) la || fwCovers v la)

/-- Two changes of memory that agree on it as it stands are one change. -/
theorem onMem_congr {f g : Mem → Mem} (h : f s.mem = g s.mem) : onMem f s = onMem g s := by unfold onMem; rw [h]

theorem takeFw_eq (mc k v : Nat) : takeFw mc k v s =
    let x := if s.mem.llc.any fun e => fwGoes s.mem mc k v e.1 && e.2.dirty then draw s else (0, s)
    onMem (fun m =>
      let m := if x.1 % 2 = 0 then flushLines (fwGoes s.mem mc k v) m else dropLlc (fwGoes s.mem mc k v) m
      { m with fw := Maps.put 0 m.fw (16 * mc + k) (BitVec.ofNat 256 v) }) x.2 := rfl

theorem takeFw_clean {mc k v : Nat} (h : ∀ e ∈ s.mem.llc, (fwGoes s.mem mc k v e.1 && e.2.dirty) = false) :
    takeFw mc k v s = onMem (fun m => { m with
      llc := m.llc.filter fun e => !fwGoes s.mem mc k v e.1, fw := Maps.put 0 m.fw (16 * mc + k) (BitVec.ofNat 256 v) }) s := by
  have hd : (s.mem.llc.any fun e => fwGoes s.mem mc k v e.1 && e.2.dirty) = false := List.any_eq_false.mpr fun e he => by simp [h e he]
  rw [takeFw_eq, hd]
  simp only [Bool.false_eq_true, if_false, Nat.zero_mod, if_true]
  exact onMem_congr (by simp only [flushLines_clean h])

theorem fwWrite_answers (mc : Option (BitVec 5)) (k : BitVec 4) (part : BitVec 2) (w : BitVec 64) :
    Answers (exec (.fwWrite mc k part w) s) (fwCases mc k.toNat part.toNat w s) := by
  have he : (mc.map (·.toNat)).getD 0 < 24 → exec (.fwWrite mc k part w) s = .next (writeFw (mc.map (·.toNat)) k.toNat part.toNat w.toNat s) :=
    fun h => if_pos h
  refine answers_cons.mpr ⟨fun h => ?_, ?_⟩
  · obtain ⟨ht, hp⟩ := Bool.and_eq_true_iff.mp h
    have hp : part.toNat < 3 := of_decide_eq_true hp
    rw [he (by cases mc <;> simp_all), writeFw, if_pos hp]
    simp [fwKey]
  · cases mc with
    | none => exact answers_nil
    | some i =>
      refine answers_single fun h => ?_
      simp only [Bool.and_eq_true, decide_eq_true_eq] at h
      obtain ⟨⟨hi, hp⟩, hl⟩ := h
      rw [he hi, writeFw, if_neg (by omega)]
      simp only [Option.map_some, fwStaged_eq _ _ (fwOf_lt ..), fwKey, Option.getD_some]
      have hd : ∀ e ∈ s.mem.llc, (fwGoes s.mem i.toNat k.toNat (fwTaken (16 * i.toNat + k.toNat) w s (fwOf s.mem i.toNat k.toNat)) e.1 &&
          e.2.dirty) = false := fun e he => (Bool.not_eq_true' _).mp (List.all_eq_true.mp hl e he)
      exact congrArg Host.Outcome.next (takeFw_clean
        (s := onMem (fun m => { m with fwStage := m.fwStage.filter fun e => e.1 / 4 != 16 * i.toNat + k.toNat }) s) hd)

/-! The broadcast window. -/

/-- Where a line's controller is depends on the domains alone. -/
theorem controllerOf_congr {m n : Mem} (h : m.idw = n.idw) (pa : Nat) : controllerOf m pa = controllerOf n pa := by
  unfold controllerOf domainOf idwOf; rw [h]

section
variable (p : Nat → Bool) (m : Mem)

/-- Lines written back leave the domains and the windows as they were. -/
theorem idw_fw_flushLines : (flushLines p m).idw = m.idw ∧ (flushLines p m).fw = m.fw := by
  refine foldl_keeps (P := fun n : Mem => n.idw = m.idw ∧ n.fw = m.fw) (fun n e hn => ?_) m.llc m ⟨rfl, rfl⟩
  split
  · exact hn
  · exact hn

theorem llc_flushLines : (flushLines p m).llc = m.llc.filter fun e => !p e.1 := rfl
end

/-- What a window's new value leaves: its own value, the lines that it makes leave the LLC, and the domains (R213). -/
theorem takeFw_leaves (mc k v : Nat) :
    (takeFw mc k v s).mem.idw = s.mem.idw ∧ (takeFw mc k v s).mem.fw = Maps.put 0 s.mem.fw (16 * mc + k) (BitVec.ofNat 256 v) ∧
      (takeFw mc k v s).mem.llc = s.mem.llc.filter fun e => !fwGoes s.mem mc k v e.1 := by
  obtain ⟨hi, hf⟩ := idw_fw_flushLines (fwGoes s.mem mc k v) s.mem
  rw [takeFw_eq]
  have hm : (if s.mem.llc.any fun e => fwGoes s.mem mc k v e.1 && e.2.dirty then draw s else (0, s)).2.mem = s.mem := by
    split <;> rfl
  generalize (if s.mem.llc.any fun e => fwGoes s.mem mc k v e.1 && e.2.dirty then draw s else (0, s)) = x at hm
  simp only [mem_onMem, hm]
  split
  · exact ⟨hi, by rw [hf], rfl⟩
  · exact ⟨rfl, rfl, rfl⟩

theorem fwOf_takeFw (mc k v c : Nat) : fwOf (takeFw mc k v s).mem c k = if c = mc then v % 2 ^ 256 else fwOf s.mem c k := by
  obtain ⟨-, hf, -⟩ := takeFw_leaves (s := s) mc k v
  unfold fwOf
  rw [hf, Maps.get_put]
  by_cases h : c = mc
  · simp [h]
  · rw [if_neg (by omega), if_neg h]

/-- The windows of controllers written in turn, each with a value that depends on the one it held. -/
def takeFws (k : Nat) (new : Nat → Nat) (l : List Nat) (s : State) : State :=
  l.foldl (fun s i => takeFw i k (new (fwOf s.mem i k)) s) s

theorem takeFws_leaves (k : Nat) {new : Nat → Nat} (hnew : ∀ v, new v < 2 ^ 256) (l : List Nat) : ∀ {s : State}, l.Nodup →
    (takeFws k new l s).mem.idw = s.mem.idw ∧
    (∀ c, fwOf (takeFws k new l s).mem c k = if c ∈ l then new (fwOf s.mem c k) else fwOf s.mem c k) ∧
    ∀ e ∈ (takeFws k new l s).mem.llc, e ∈ s.mem.llc ∧
      ∀ c ∈ l, (controllerOf s.mem (64 * e.1) == c && fwCovers (new (fwOf s.mem c k)) e.1) = false := by
  induction l with
  | nil => exact fun _ => ⟨rfl, fun c => by simp [takeFws], fun e he => ⟨he, fun c hc => nomatch hc⟩⟩
  | cons i l ih =>
    intro s hl
    obtain ⟨hil, hl⟩ := List.nodup_cons.mp hl
    obtain ⟨h1, h2, h3⟩ := ih (s := takeFw i k (new (fwOf s.mem i k)) s) hl
    obtain ⟨k1, -, k3⟩ := takeFw_leaves (s := s) i k (new (fwOf s.mem i k))
    have hv : ∀ c, fwOf (takeFw i k (new (fwOf s.mem i k)) s).mem c k = if c = i then new (fwOf s.mem i k) else fwOf s.mem c k := by
      intro c
      rw [fwOf_takeFw, Nat.mod_eq_of_lt (hnew _)]
    refine ⟨h1.trans k1, fun c => ?_, fun e he => ?_⟩
    · refine (h2 c).trans ?_
      rw [hv]
      by_cases hc : c = i
      · subst hc; simp [hil]
      · simp [hc]
    · obtain ⟨hm, hc⟩ := h3 e he
      rw [k3, List.mem_filter] at hm
      obtain ⟨hm, hg⟩ := hm
      refine ⟨hm, fun c hcl => ?_⟩
      rcases List.mem_cons.mp hcl with rfl | hcl
      · simp only [fwGoes, Bool.not_eq_true', Bool.and_eq_false_iff, Bool.or_eq_false_iff] at hg
        rcases hg with hg | ⟨-, hg⟩
        · rw [hg]; rfl
        · rw [hg, Bool.and_false]
      · have hci : c ≠ i := fun h => hil (h ▸ hcl)
        have := hc c hcl
        rwa [hv, if_neg hci, controllerOf_congr k1] at this

theorem fwMask_lt (v : Nat) : fwMask v < 2 ^ 256 := by
  unfold fwMask bitsN
  omega

/-- A write of the highest word through the broadcast window: every controller's window in turn, and the broadcast window's own value. -/
theorem writeFw_broadcast {k part : Nat} (hp : part = 3) (w : Nat) : writeFw none k part w s =
    onMem (fun m => { m with
      fw := Maps.put 0 m.fw (384 + k) (BitVec.ofNat 256 (fwStaged s.mem (384 + k) w (Maps.get 0 m.fw (384 + k)).toNat)) })
      (takeFws k (fwStaged s.mem (384 + k) w) (List.range 24)
        (onMem (fun m => { m with fwStage := m.fwStage.filter fun e => e.1 / 4 != 384 + k }) s)) := by
  rw [writeFw, if_neg (by omega)]
  rfl

/-- New windows leave the domains and the lines as they were. -/
theorem idw_onMem_fw (f : Mem → AMap (BitVec 256)) : (onMem (fun m => { m with fw := f m }) s).mem.idw = s.mem.idw := rfl
theorem llc_onMem_fw (f : Mem → AMap (BitVec 256)) : (onMem (fun m => { m with fw := f m }) s).mem.llc = s.mem.llc := rfl

/-- What such a write leaves: the domains, each window's value, and no line of a controller in the window's new view range (R213). -/
theorem writeFw_broadcast_leaves {k part : Nat} (hp : part = 3) (w : Dword) :
    (writeFw none k part w.toNat s).mem.idw = s.mem.idw ∧ ∀ c ∈ List.range 24,
      fwOf (writeFw none k part w.toNat s).mem c k = fwTaken (384 + k) w s (fwOf s.mem c k) ∧
      ∀ e ∈ (writeFw none k part w.toNat s).mem.llc,
        (controllerOf s.mem (64 * e.1) == c && fwCovers (fwTaken (384 + k) w s (fwOf s.mem c k)) e.1) = false := by
  obtain ⟨h1, h2, h3⟩ := takeFws_leaves (s := onMem (fun m => { m with fwStage := m.fwStage.filter fun e => e.1 / 4 != 384 + k }) s)
    k (new := fwStaged s.mem (384 + k) w.toNat) (fun v => fwMask_lt _) (List.range 24) List.nodup_range
  have hi : ∀ pa, controllerOf (onMem (fun m => { m with fwStage := m.fwStage.filter fun e => e.1 / 4 != 384 + k }) s).mem pa =
      controllerOf s.mem pa := controllerOf_congr rfl
  have hf : ∀ c, fwOf (onMem (fun m => { m with fwStage := m.fwStage.filter fun e => e.1 / 4 != 384 + k }) s).mem c k =
      fwOf s.mem c k := fun c => rfl
  simp only [hi, hf] at h2 h3
  rw [writeFw_broadcast hp]
  generalize takeFws k _ _ _ = u at h1 h2 h3
  refine ⟨(idw_onMem_fw _).trans h1, fun c hc => ?_⟩
  have hv : fwStaged s.mem (384 + k) w.toNat (fwOf s.mem c k) = fwTaken (384 + k) w s (fwOf s.mem c k) := fwStaged_eq _ _ (fwOf_lt ..)
  rw [← hv]
  refine ⟨?_, fun e he => (h3 e (llc_onMem_fw _ ▸ he)).2 c hc⟩
  have hck : 384 + k ≠ 16 * c + k := by have := List.mem_range.mp hc; omega
  have h2 := h2 c
  rw [if_pos hc] at h2
  simp only [fwOf, mem_onMem, Maps.get_put, if_neg hck]
  exact h2

theorem broadcastFacts_obeyed (i : Instr) : Obeys (exec i s) (broadcastFacts i s) := by
  unfold broadcastFacts
  split
  · rename_i k part w
    refine obeys_single fun h => ⟨writeFw none k.toNat part.toNat w.toNat s, rfl, ?_⟩
    obtain ⟨h1, h2⟩ := writeFw_broadcast_leaves (s := s) (k := k.toNat) (part := part.toNat) (by rw [eq_of_beq h]; rfl) w
    generalize writeFw none k.toNat part.toNat w.toNat s = t at h1 h2
    refine List.all_eq_true.mpr fun c hc => ?_
    obtain ⟨hf, hl⟩ := h2 c hc
    refine Bool.and_eq_true_iff.mpr ⟨beq_iff_eq.mpr hf, List.all_eq_true.mpr fun e he => ?_⟩
    rw [controllerOf_congr h1]
    exact (Bool.not_eq_true' _).mpr (hl e he)
  · exact obeys_nil

/-! View output blocks. -/

theorem vrecWrite_answers (v : BitVec 4) (w : BitVec 64) : Answers (exec (.vrecWrite v w) s) (registerCases (.vrecWrite v w) s) :=
  answers_single fun _ => rfl

theorem gazeWrite_answers (v : BitVec 4) (w : BitVec 32) : Answers (exec (.gazeWrite v w) s) (registerCases (.gazeWrite v w) s) :=
  answers_single fun _ => rfl

/-- The staged block with its highest word. -/
theorem vobStaged_last (x : BitVec 512) (w : Dword) :
    (BitVec.ofNat 512 (x.toNat - bitsN x.toNat (64 * 7 + 63) (64 * 7) * 2 ^ (64 * 7) + w.toNat * 2 ^ (64 * 7))).toNat =
      x.toNat % 2 ^ 448 + w.toNat * 2 ^ 448 := by
  have := x.isLt
  have := w.isLt
  rw [BitVec.toNat_ofNat]
  unfold bitsN
  omega

theorem bitsN_lt (v hi lo : Nat) : bitsN v hi lo < 2 ^ (hi + 1 - lo) := Nat.mod_lt _ (Nat.two_pow_pos _)

/-- PERIOD as a write takes it (R141). -/
def perTaken (s : State) (v : View) (n : Nat) : Nat :=
  if bitsN n 255 224 = 0 ∨ 4 * minBudget s ≤ bitsN n 255 224 then bitsN n 255 224 else v.period

theorem perTaken_lt (v : View) (n : Nat) : perTaken s v n < 2 ^ 32 := by
  unfold perTaken
  split
  · exact bitsN_lt ..
  · exact bitsN_lt ..

/-- A view output block by its parts: the bits under PEN, PEN, the bits under PERIOD, PERIOD, and the rest. -/
def vobParts (a b c d e : Nat) : Nat := a + b * 2 ^ 127 + c * 2 ^ 128 + d * 2 ^ 224 + e * 2 ^ 256

theorem exists_vobParts {y : Nat} (h : y < 2 ^ 512) :
    ∃ a b c d e, a < 2 ^ 127 ∧ b < 2 ∧ c < 2 ^ 96 ∧ d < 2 ^ 32 ∧ e < 2 ^ 256 ∧ y = vobParts a b c d e :=
  ⟨y % 2 ^ 127, y / 2 ^ 127 % 2, y / 2 ^ 128 % 2 ^ 96, y / 2 ^ 224 % 2 ^ 32, y / 2 ^ 256, by omega, by omega, by omega, by omega, by omega,
    by unfold vobParts; omega⟩

section
variable {a b c d e : Nat} (ha : a < 2 ^ 127) (hb : b < 2) (hc : c < 2 ^ 96) (hd : d < 2 ^ 32)

include ha in
theorem vobParts_low : bitsN (vobParts a b c d e) 126 0 = a := by unfold bitsN vobParts; omega
include ha hb in
theorem vobParts_pen : bitsN (vobParts a b c d e) 127 127 = b := by unfold bitsN vobParts; omega
include ha hb hc in
theorem vobParts_mid : bitsN (vobParts a b c d e) 223 128 = c := by unfold bitsN vobParts; omega
include ha hb hc hd in
theorem vobParts_period : bitsN (vobParts a b c d e) 255 224 = d := by unfold bitsN vobParts; omega
include ha hb hc hd in
theorem vobParts_high : vobParts a b c d e / 2 ^ 256 = e := by unfold vobParts; omega
include ha in
theorem vobParts_port : bitsN (vobParts a b c d e) 126 120 = a / 2 ^ 120 := by unfold bitsN vobParts; omega
include ha hb hc in
theorem vobParts_budget : bitsN (vobParts a b c d e) 223 192 = c / 2 ^ 64 := by unfold bitsN vobParts; omega
include ha hb in
theorem vobParts_lead : bitsN (vobParts a b c d e) 191 160 = c / 2 ^ 32 % 2 ^ 32 := by unfold bitsN vobParts; omega
include ha hb hc hd in
theorem vobParts_lt (he : e < 2 ^ 256) : vobParts a b c d e < 2 ^ 512 := by unfold vobParts; omega
end

theorem vobParts_setPeriod {a b c d e p : Nat} : vobParts a b c d e - d * 2 ^ 224 + p * 2 ^ 224 = vobParts a b c p e := by
  unfold vobParts; omega
theorem vobParts_setPen {a b c d e q : Nat} : vobParts a b c d e - b * 2 ^ 127 + q * 2 ^ 127 = vobParts a q c d e := by
  unfold vobParts; omega
/-- The block of a view that runs after a write: PERIOD and PEN alone (R141). -/
theorem newVob_running {v : View} (hv : v.period ≠ 0) (x : BitVec 512) : ∃ a b c d e,
    a < 2 ^ 127 ∧ b < 2 ∧ c < 2 ^ 96 ∧ d < 2 ^ 32 ∧ v.vob.toNat = vobParts a b c d e ∧
      (newVob s v x).toNat = vobParts a (bitsN x.toNat 127 127) c (perTaken s v x.toNat) e := by
  obtain ⟨a, b, c, d, e, ha, hb, hc, hd, he, hy⟩ := exists_vobParts v.vob.isLt
  have hp := perTaken_lt (s := s) v x.toNat
  have hn : newVob s v x = BitVec.ofNat 512 (
      let w := v.vob.toNat - bitsN v.vob.toNat 255 224 * 2 ^ 224 + perTaken s v x.toNat * 2 ^ 224
      w - bitsN w 127 127 * 2 ^ 127 + bitsN x.toNat 127 127 * 2 ^ 127) := by
    unfold newVob
    rw [if_pos hv]
    rfl
  refine ⟨a, b, c, d, e, ha, hb, hc, hd, hy, ?_⟩
  rw [hn, hy, vobParts_period ha hb hc hd, vobParts_setPeriod]
  dsimp only
  rw [vobParts_pen ha hb, vobParts_setPen, BitVec.toNat_ofNat]
  exact Nat.mod_eq_of_lt (vobParts_lt ha (bitsN_lt ..) hc hp he)

/-- The port that a write names, the one the view has where it names none (R141). -/
def portTaken (v : View) (n : Nat) : Nat := if bitsN n 126 120 < 64 then bitsN n 126 120 else v.port

theorem portTaken_lt (v : View) (n : Nat) : portTaken v n < 2 ^ 7 := by
  unfold portTaken
  split
  · exact bitsN_lt ..
  · exact bitsN_lt ..

theorem portTaken_shift_lt (v : View) (n : Nat) : portTaken v n * 2 ^ 120 < 2 ^ 127 := by
  have := portTaken_lt v n
  omega

theorem bitsN_shift_lt (n : Nat) : bitsN n 223 160 * 2 ^ 32 < 2 ^ 96 := by
  have := bitsN_lt n 223 160
  omega

/-- The block of a view at rest after a write: the whole of what can be written (R141). -/
theorem newVob_resting {v : View} (hv : v.period = 0) (x : BitVec 512) :
    (newVob s v x).toNat = vobParts (portTaken v x.toNat * 2 ^ 120) (bitsN x.toNat 127 127) (bitsN x.toNat 223 160 * 2 ^ 32)
      (perTaken s v x.toNat) (bitsN x.toNat 511 256) := by
  have hp := perTaken_lt (s := s) v x.toNat
  have hn : newVob s v x = BitVec.ofNat 512 (bitsN x.toNat 511 256 * 2 ^ 256 + perTaken s v x.toNat * 2 ^ 224 +
      bitsN x.toNat 223 160 * 2 ^ 160 + bitsN x.toNat 127 127 * 2 ^ 127 + portTaken v x.toNat * 2 ^ 120) := by
    unfold newVob
    rw [if_neg (by rw [hv]; exact fun h => h rfl)]
    rfl
  have hs : ∀ h p b q r : Nat, h * 2 ^ 256 + p * 2 ^ 224 + b * 2 ^ 160 + q * 2 ^ 127 + r * 2 ^ 120 =
      vobParts (r * 2 ^ 120) q (b * 2 ^ 32) p h := by
    intro h p b q r
    unfold vobParts
    omega
  rw [hn, hs, BitVec.toNat_ofNat]
  exact Nat.mod_eq_of_lt (vobParts_lt (portTaken_shift_lt ..) (bitsN_lt ..) (bitsN_shift_lt _) hp (bitsN_lt ..))

/-- The staged block of a view, its highest word written (R18). -/
def vobLast (v : View) (w : Dword) : BitVec 512 :=
  BitVec.ofNat 512 (v.vobStage.toNat - bitsN v.vobStage.toNat (64 * 7 + 63) (64 * 7) * 2 ^ (64 * 7) + w.toNat * 2 ^ (64 * 7))

theorem vob_writeVob (v : Nat) (w : Dword) : (viewAt (writeVob v 7 w s) v).vob = newVob s (viewAt s v) (vobLast (viewAt s v) w) := by
  unfold writeVob
  rw [if_neg (by decide), viewAt_onView, if_pos rfl]
  rfl

theorem bitsN_single (n i : Nat) : (bitsN n i i == 1) = bitN n i := by
  unfold bitsN bitN
  rw [Nat.add_sub_cancel_left, pow_one]

section
variable {u v : View} {x : BitVec 512} (hu : u.vob = newVob s v x)
include hu

theorem period_running (hv : v.period ≠ 0) :
    bitsN u.vob.toNat 126 0 = bitsN v.vob.toNat 126 0 ∧ bitsN u.vob.toNat 223 128 = bitsN v.vob.toNat 223 128 ∧
      u.vob.toNat / 2 ^ 256 = v.vob.toNat / 2 ^ 256 ∧ u.period = perTaken s v x.toNat ∧ u.pen = bitN x.toNat 127 := by
  obtain ⟨a, b, c, d, e, ha, hb, hc, hd, hy, hn⟩ := newVob_running (s := s) hv x
  have hp := perTaken_lt (s := s) v x.toNat
  have hq := bitsN_lt x.toNat 127 127
  unfold View.period View.pen vobF
  rw [hu, hn, hy, vobParts_low ha, vobParts_low ha, vobParts_mid ha hq hc, vobParts_mid ha hb hc, vobParts_high ha hq hc hp,
    vobParts_high ha hb hc hd, vobParts_period ha hq hc hp, vobParts_pen ha hq, bitsN_single]
  exact ⟨rfl, rfl, rfl, rfl, rfl⟩

theorem period_resting (hv : v.period = 0) :
    u.vob.toNat / 2 ^ 256 = x.toNat / 2 ^ 256 ∧ u.period = perTaken s v x.toNat ∧ u.pen = bitN x.toNat 127 ∧
      u.port = portTaken v x.toNat ∧ u.budgetField = bitsN x.toNat 223 192 ∧ u.leadField = bitsN x.toNat 191 160 := by
  have hp := perTaken_lt (s := s) v x.toNat
  have hq := bitsN_lt x.toNat 127 127
  have ha := portTaken_shift_lt v x.toNat
  have hc := bitsN_shift_lt x.toNat
  have hx := x.isLt
  unfold View.period View.pen View.port View.budgetField View.leadField vobF
  rw [hu, newVob_resting hv, vobParts_high ha hq hc hp, vobParts_period ha hq hc hp, vobParts_pen ha hq, bitsN_single, vobParts_port ha,
    vobParts_budget ha hq hc, vobParts_lead ha hq, Nat.mul_div_cancel _ (by decide)]
  clear hu hq
  refine ⟨?_, rfl, rfl, rfl, ?_, ?_⟩ <;> unfold bitsN <;> omega
end

theorem vobFacts_obeyed (i : Instr) : Obeys (exec i s) (vobFacts i s) := by
  unfold vobFacts
  split
  · rename_i v part w
    have hx : (vobLast (viewAt s v.toNat) w).toNat = (viewAt s v.toNat).vobStage.toNat % 2 ^ 448 + w.toNat * 2 ^ 448 := vobStaged_last _ _
    have hu := vob_writeVob (s := s) v.toNat w
    have he : exec (.vobWrite v 7 w) s = .next (writeVob v.toNat 7 w s) := rfl
    simp only [obeys_cons, obeys_nil, and_true, Bool.and_eq_true, decide_eq_true_eq, beq_iff_eq, ← hx]
    refine ⟨fun ⟨hp, hv⟩ => ?_, fun ⟨hp, hv⟩ => ?_⟩ <;> subst hp
    · obtain ⟨h1, h2, h3, h4, h5⟩ := period_running hu hv
      exact ⟨_, he, ⟨⟨⟨h1, h2⟩, h3⟩, h4⟩, h5⟩
    · obtain ⟨h1, h2, h3, h4, h5, h6⟩ := period_resting hu hv
      rw [perTaken, hv] at h2
      exact ⟨_, he, ⟨⟨⟨⟨h1, h2⟩, h3⟩, h4⟩, h5⟩, h6⟩
  · exact obeys_nil

/-! The registers without rows of their own. -/

/-- A register with no row of its own: the write takes effect (R18). -/
theorem exec_deviceRegisterWrite {pa : BitVec 46} {wide : Bool} {w : BitVec 64}
    (h : otherRow pa.toNat (if wide then 8 else 4) (if wide then w.toNat else w.toNat % 2 ^ 32) = true) :
    exec (.deviceRegisterWrite pa wide w) s =
      .next (devStore 0 pa.toNat (if wide then 8 else 4) (if wide then w.toNat else w.toNat % 2 ^ 32) s) := if_pos h

theorem isDev_of_regAt {pa : Nat} {r : Reg} (h : regAt pa = some r) : isDev pa = true := by
  unfold regAt at h
  by_contra hd
  rw [Bool.not_eq_true] at hd
  simp [hd] at h

theorem otherRow_of_regAt {pa size n : Nat} {r : Reg} (h : regAt pa = some r) (ho : ownRow r n = false) : otherRow pa size n = true := by
  unfold otherRow
  simp [isDev_of_regAt h, h, ho]

theorem devStore_wide {cc pa n : Nat} {r : Reg} (hp : pa % 8 = 0) (h : regAt pa = some r) :
    devStore cc pa 8 n s = writeReg cc r n s := by
  unfold devStore
  simp only [h, hp, ne_eq, not_true_eq_false, and_false, or_self, if_false]
  cases r <;> rfl

theorem deviceRegisterWrite_wide_answers (pa : BitVec 46) (w : BitVec 64) :
    Answers (exec (.deviceRegisterWrite pa true w) s) (otherCases pa.toNat w.toNat s) := by
  have he := fun h => exec_deviceRegisterWrite (s := s) (pa := pa) (wide := true) (w := w) h
  unfold otherCases
  dsimp only
  split
  · exact answers_nil
  · rename_i hp
    replace hp : pa.toNat % 8 = 0 := by omega
    have hs : ∀ {r}, regAt pa.toNat = some r → ownRow r w.toNat = false →
        exec (.deviceRegisterWrite pa true w) s = .next (writeReg 0 r w.toNat s) := fun hr ho =>
      (he (otherRow_of_regAt hr ho)).trans (congrArg _ (devStore_wide hp hr))
    split
    · rename_i hr
      refine answers_single fun h => (he ?_).trans (congrArg _ ?_)
      · simp [otherRow, hr, show isDev pa.toNat = true from h]
      · simp [devStore, hr, hp]
    rotate_right
    · exact answers_nil
    all_goals rename_i hr
    all_goals exact answers_single fun _ => hs hr rfl

theorem deviceRegisterWrite_narrow_answers (pa : BitVec 46) (w : BitVec 64) :
    Answers (exec (.deviceRegisterWrite pa false w) s) (fileCases pa.toNat (w.toNat % 2 ^ 32) s) := by
  unfold fileCases
  split
  · rename_i f hr
    refine answers_single fun h => ?_
    obtain ⟨hp, h0, hn⟩ := of_decide_eq_true h
    rw [exec_deviceRegisterWrite (otherRow_of_regAt hr rfl)]
    have hi : fileIdentity pa.toNat (w.toNat % 2 ^ 32) = w.toNat % 2 ^ 32 := if_neg (by omega)
    have hd : devStore 0 pa.toNat 4 (w.toNat % 2 ^ 32) s = setPending f (w.toNat % 2 ^ 32) s := by
      unfold devStore
      rw [if_neg (by omega), hr]
      simp only [hi, hn, and_self, if_true]
    refine (congrArg _ hd).trans ?_
    have h1 : decide (w.toNat % 2 ^ 32 ≠ 0) = true := decide_eq_true (by omega)
    simp only [setPending, Nat.mod_eq_of_lt hn, h1, Maps.put]
    rfl
  · exact answers_nil

theorem registerCases_answered (i : Instr) : Answers (exec i s) (registerCases i s) := by
  cases i with
  | dsctlWrite d w => exact dsctlWrite_answers d w
  | rcbinvWrite d w => exact rcbinvWrite_answers d w
  | rcbInvalidationDone d => exact rcbInvalidationDone_answers d
  | nrbaseWrite d w => exact nrbaseWrite_answers d w
  | embctlWrite d w => exact embctlWrite_answers d w
  | dspostWrite d cc w => exact dspostWrite_answers d cc w
  | dctrSet d n cc w => exact dctrSet_answers d n cc w
  | dctrDecrement d n cc w => exact dctrDecrement_answers d n cc w
  | snapctlClr d w => exact snapctlClr_answers d w
  | thermctlRelease d w => exact thermctlRelease_answers d w
  | lcctlCntclr l w => exact lcctlCntclr_answers l w
  | lcctlTcdis l w => exact lcctlTcdis_answers l w
  | domswWrite w => exact domswWrite_answers w
  | fwWrite mc k part w => exact fwWrite_answers mc k part w
  | serclkWrite w => exact serclkWrite_answers w
  | vobWrite v part w => exact vobWrite_answers v part w
  | vrecWrite v w => exact vrecWrite_answers v w
  | gazeWrite v w => exact gazeWrite_answers v w
  | deviceRegisterWrite pa wide w =>
    cases wide with
    | true => exact deviceRegisterWrite_wide_answers pa w
    | false => exact deviceRegisterWrite_narrow_answers pa w
  | _ => exact answers_nil

/-- Settles O45: each register's write answers as its cases give. -/
theorem registerWriteSteps : Obligations.RegisterWriteSteps :=
  ⟨stepHolds_iff.mpr fun i _ => registerCases_answered i, factHolds_iff.mpr fun i _ => broadcastFacts_obeyed i,
    factHolds_iff.mpr fun i _ => vobFacts_obeyed i⟩

end Sys2Proof.Machine

namespace Sys2Proof.Machine
open Claims
variable {s : State}

/-! Triggers (R55). -/

/-- Each of a list of dies gets one more trigger. -/
theorem get_foldl_due (q : BitVec 8) (c : Nat) (ds : List Nat) : ∀ (m : AMap Snap), ds.Nodup → ∀ d,
    Maps.get {} (ds.foldl (fun m d => let x := Maps.get {} m d; Maps.set m d { x with due := x.due ++ [(q, c)] }) m) d =
      if d ∈ ds then { Maps.get {} m d with due := (Maps.get {} m d).due ++ [(q, c)] } else Maps.get {} m d := by
  induction ds with
  | nil => exact fun m _ d => by simp
  | cons e ds ih =>
    intro m hn d
    obtain ⟨he, hn⟩ := List.nodup_cons.mp hn
    rw [List.foldl_cons, ih _ hn]
    simp only [Maps.get_set, List.mem_cons]
    by_cases hd : d = e
    · subst hd; simp [he]
    · have : ¬ e = d := fun h => hd h.symm
      simp [hd, this]

theorem broadcast_due (d : Nat) (hd : d ∈ List.range 10) :
    (Maps.get {} (broadcast s).io.snaps d).due = (Maps.get {} s.io.snaps d).due ++ [(s.io.trigSeq + 1, s.clock)] := by
  unfold broadcast
  dsimp only
  rw [get_foldl_due _ _ _ _ List.nodup_range, if_pos hd]

/-- The root takes the triggers of one clock as one: how many stay is free, but none where one came. -/
theorem rootTrigger_eq (h : 1 ≤ s.io.triggers) : ∃ n k, n < s.io.triggers ∧ (s.io.triggers = 1 → n = 0) ∧
    rootTrigger s = broadcast { s with draws := k, io := { s.io with triggers := n } } := by
  unfold rootTrigger
  by_cases h1 : s.io.triggers = 1
  · exact ⟨0, s.draws, h, fun _ => rfl, by rw [if_pos h1]⟩
  · exact ⟨s.io.triggers - 1 - Config.freeNat s.draws % s.io.triggers, s.draws + 1, by omega, fun h => absurd h h1, by rw [if_neg h1]; rfl⟩

theorem triggerFacts_obeyed (i : Instr) : Obeys (exec i s) (triggerFacts i s) := by
  unfold triggerFacts
  split
  · refine obeys_single fun h => ?_
    obtain ⟨h1, h2⟩ := Bool.and_eq_true_iff.mp h
    replace h1 : 1 ≤ s.io.triggers := of_decide_eq_true h1
    have hd : rootDue s = true := Bool.and_eq_true_iff.mpr ⟨by rw [bne_iff_ne]; omega, h2⟩
    have he : exec .snapTriggerRoot s = .next (rootTrigger s) := if_pos hd
    obtain ⟨n, k, hn, h0, ht⟩ := rootTrigger_eq h1
    refine ⟨_, he.trans (congrArg _ ht), ?_⟩
    simp only [Bool.and_eq_true, Bool.or_eq_true, bne_iff_ne, beq_iff_eq, decide_eq_true_eq, List.all_eq_true]
    refine ⟨⟨⟨rfl, hn⟩, ?_⟩, fun d hd => broadcast_due d hd⟩
    by_cases h1 : s.io.triggers = 1
    · exact .inr (h0 h1)
    · exact .inl h1
  · exact obeys_nil

/-! Links given up (R32). -/

/-- The failure of a link is counted last, in the lifetime record alone. -/
theorem takeDown_io_mem_sends (l : LinkId) : ∃ u,
    u = unroute l (setLink l { linkOf s l with st := .down, replay := [], queued := [], failures := (linkOf s l).failures + 1 } (failOnLink l s)) ∧
      (takeDown l s).io = u.io ∧ (takeDown l s).mem = u.mem ∧ (takeDown l s).sends = u.sends := by
  refine ⟨_, rfl, ?_⟩
  unfold takeDown
  dsimp only
  split
  · exact ⟨rfl, rfl, rfl⟩
  · exact ⟨rfl, rfl, rfl⟩

theorem linkOf_of_io {t u : State} (h : t.io = u.io) (l : LinkId) : linkOf t l = linkOf u l := by unfold linkOf; rw [h]

/-- The requests and the sends of a state in which a link's are failed. -/
theorem unroute_leaves (l : LinkId) (t : State) :
    linkOf (unroute l t) l = linkOf t l ∧ (unroute l t).mem = t.mem ∧ (unroute l t).sends = t.sends := by
  cases l <;> exact ⟨rfl, rfl, rfl⟩

/-- Each request that waits to cross the link fails with the link's number. -/
theorem net_failOnLink (l : LinkId) : (failOnLink l s).mem.net = s.mem.net.map fun e => (e.1,
    if (reqWay s e.2).takes s l && (e.2.st == .done || (e.2.st == .flying && !heldMove s e.2)) then
      { e.2 with st := .failed .linkdown, val := BitVec.ofNat 128 (linkNo l) } else e.2) := by
  have h : (failOnLink l s).mem.net = Maps.mapAll s.mem.net fun _ r => if reqOn s l r then r.linkDown (linkNo l) else r := rfl
  rw [h]
  refine List.map_congr_left fun e _ => ?_
  rw [Bool.or_comm]
  rfl

/-- Each send whose flits are on the link, or that waits to cross it, is answered. -/
theorem sends_failOnLink (l : LinkId) : (failOnLink l s).sends = s.sends.map fun e => (e.1,
    if (e.2.st == .toCore && e.2.remote.isSome && (sendFlits e.1 e.2).any fun p =>
        ((linkOf s l).queued.any fun e => e.2 == p) || (linkOf s l).replay.any fun f => (expand f.mode.toNat f.beats).1 == p) ||
        (e.2.st != .toCore && (sendWay s e.2).takes s l) then
      { e.2 with st := .replied 4 } else e.2) := by
  have h : (failOnLink l s).sends = Maps.mapAll s.sends fun i x => if flitsOn (linkOf s l) i x || sendOn s l x then x.answered 4 else x := rfl
  rw [h]
  refine List.map_congr_left fun e _ => ?_
  rw [Bool.and_comm (e.2.st == .toCore), Bool.and_comm (e.2.st != .toCore)]
  rfl

/-- No route through a port outlives it. -/
theorem rtab_unroute_port (j : BitVec 7) (t : State) :
    ((unroute (.port j) t).io.rtab.all fun e => !(e.2.getLsbD 7 && bitsN e.2.toNat 6 0 == j.toNat)) = true := by
  refine List.all_eq_true.mpr fun e he => ?_
  have h := (List.mem_filter.mp he).2
  rwa [bitN_eq_testBit] at h

theorem downFacts_obeyed (i : Instr) : Obeys (exec i s) (downFacts i s) := by
  unfold downFacts
  split
  · rename_i l
    refine obeys_single fun h => ?_
    have he : exec (.linkDown l) s = .next (takeDown l s) := if_pos (eq_of_beq h)
    obtain ⟨u, hu, hio, hmem, hsends⟩ := takeDown_io_mem_sends (s := s) l
    obtain ⟨hl, hm, hs⟩ := unroute_leaves l
      (setLink l { linkOf s l with st := .down, replay := [], queued := [], failures := (linkOf s l).failures + 1 } (failOnLink l s))
    refine ⟨_, he, ?_⟩
    rw [Bool.and_eq_true, Bool.and_eq_true, Bool.and_eq_true, beq_iff_eq, beq_iff_eq, beq_iff_eq]
    refine ⟨⟨⟨?_, ?_⟩, ?_⟩, ?_⟩
    · rw [linkOf_of_io hio, hu, hl, linkOf_setLink, if_pos rfl]
    · rw [hmem, hu, hm, mem_setLink, net_failOnLink]
    · rw [hsends, hu, hs, sends_setLink, sends_failOnLink]
      rfl
    · cases l with
      | port j =>
        rw [hio, hu]
        exact rtab_unroute_port j _
      | ucie d m =>
        rw [hio, hu]
        exact beq_iff_eq.mpr rfl
  · exact obeys_nil

end Sys2Proof.Machine

namespace Sys2Proof.Machine
open Claims
variable {s : State}

/-! Numbers as bytes, and the set of a mask's bits. -/

theorem length_natLe (n : Nat) : ∀ v, (Maps.natLe v n).length = n := by
  induction n with
  | zero => exact fun _ => rfl
  | succ n ih => exact fun v => congrArg (· + 1) (ih (v / 256))

theorem leNat_take_natLe (r : List Byte) (n : Nat) : ∀ v, Maps.leNat ((Maps.natLe v n ++ r).take n) = v % 256 ^ n := by
  induction n with
  | zero => exact fun v => by simp [Maps.leNat, Nat.mod_one]
  | succ n ih =>
    intro v
    have h : Maps.leNat ((Maps.natLe v (n + 1) ++ r).take (n + 1)) = v % 256 + 256 * Maps.leNat ((Maps.natLe (v / 256) n ++ r).take n) := rfl
    rw [h, ih, Nat.pow_succ, Nat.mul_comm (256 ^ n), Nat.mod_mul]

/-- The mask that has the bits below `n` for which `p` holds. -/
def maskBelow (p : Nat → Bool) (n : Nat) : Nat := ((List.range n).filter p).foldl (fun a i => a + 2 ^ i) 0

variable {p : Nat → Bool}

theorem maskBelow_succ (n : Nat) : maskBelow p (n + 1) = if p n then maskBelow p n + 2 ^ n else maskBelow p n := by
  unfold maskBelow
  rw [List.range_succ, List.filter_append, List.foldl_append]
  cases h : p n <;> simp [h]

theorem maskBelow_lt (n : Nat) : maskBelow p n < 2 ^ n := by
  induction n with
  | zero => exact Nat.one_pos
  | succ n ih =>
    rw [maskBelow_succ, Nat.pow_succ]
    split <;> omega

theorem testBit_maskBelow (n i : Nat) : (maskBelow p n).testBit i = (decide (i < n) && p i) := by
  induction n with
  | zero => simp [maskBelow]
  | succ n ih =>
    rw [maskBelow_succ]
    have hl := maskBelow_lt (p := p) n
    rcases Nat.lt_trichotomy i n with h | rfl | h
    · have h' : i < n + 1 := by omega
      split
      · rw [Nat.add_comm, Nat.testBit_two_pow_add_gt h, ih]; simp [h, h']
      · rw [ih]; simp [h, h']
    · split
      · rename_i hp
        rw [Nat.add_comm, Nat.testBit_two_pow_add_eq, Nat.testBit_lt_two_pow hl]; simp [hp]
      · rename_i hp
        rw [Nat.testBit_lt_two_pow hl]; simp [hp]
    · have h' : ¬ i < n + 1 := by omega
      have h2 : 2 ^ (n + 1) ≤ 2 ^ i := Nat.pow_le_pow_right (by omega) h
      have h3 := Nat.pow_succ (n := 2) (m := n)
      rw [Nat.testBit_lt_two_pow]
      · simp [h']
      · split <;> omega

theorem popN_maskBelow (n : Nat) : popN n (maskBelow p n) = ((List.range n).filter p).length := by
  unfold popN setBits
  refine congrArg List.length (List.filter_congr fun i hi => ?_)
  rw [bitN_eq_testBit, testBit_maskBelow, decide_eq_true (List.mem_range.mp hi), Bool.true_and]

/-! A payload's coded form (R24). -/

variable {q e : List Byte}

theorem length_of_deltas {m : Nat} (hm : m = 2) (he : encodeMode q m = some e) : e.length = 20 := by
  unfold encodeMode at he
  split at he
  · omega
  · omega
  · generalize hd : (List.range 16).map (delta q) = ds at he
    obtain ⟨_, h⟩ := Option.ite_none_right_eq_some.mp he
    have hl : ds.length = 16 := by rw [← hd, List.length_map, List.length_range]
    rw [← Option.some.inj h, List.length_append, length_natLe, List.length_map, hl]
  · contradiction

/-- What a mode's form holds is what a receiver reads of it. -/
theorem expand_length {m : Nat} (hq : q.length = 64) (he : encodeMode q m = some e) (r : List Byte) : (expand m (e ++ r)).2 = e.length := by
  match m with
  | 0 =>
    cases he
    exact hq.symm
  | 1 =>
    cases he
    have hn : Maps.leNat (List.take 2 (Maps.natLe (maskBelow (fun i => payWord q i != 0) 16) 2 ++
        (((List.range 16).filter fun i => payWord q i != 0).flatMap fun i => Maps.natLe (payWord q i) 4) ++ r)) =
        maskBelow (fun i => payWord q i != 0) 16 := by
      rw [List.append_assoc, leNat_take_natLe]
      exact Nat.mod_eq_of_lt (maskBelow_lt 16)
    show 2 + 4 * popN 16 (Maps.leNat (List.take 2 _)) = _
    refine (congrArg (fun x => 2 + 4 * popN 16 x) hn).trans ?_
    rw [popN_maskBelow, List.length_append, length_natLe, List.length_flatMap]
    simp only [length_natLe, List.map_const', List.sum_replicate, smul_eq_mul]
    omega
  | 2 =>
    exact (length_of_deltas rfl he).symm
  | k + 3 =>
    cases he
    have hn : Maps.leNat (List.take 8 (Maps.natLe (maskBelow (fun i => payByte q i != 0) 64) 8 ++
        ((List.range 64).filter fun i => payByte q i != 0).map (payByte q) ++ r)) =
        maskBelow (fun i => payByte q i != 0) 64 := by
      rw [List.append_assoc, leNat_take_natLe]
      exact Nat.mod_eq_of_lt (maskBelow_lt 64)
    show 8 + popN 64 (Maps.leNat (List.take 8 _)) = _
    refine (congrArg (fun x => 8 + popN 64 x) hn).trans ?_
    rw [popN_maskBelow, List.length_append, length_natLe, List.length_map]

/-- No form is empty: a mask, or the raw bytes. -/
theorem encodeMode_pos {m : Nat} (hq : q.length = 64) (he : encodeMode q m = some e) : 0 < e.length := by
  match m with
  | 0 => cases he; omega
  | 1 => cases he; rw [List.length_append, length_natLe]; omega
  | 2 => rw [length_of_deltas rfl he]; omega
  | k + 3 => cases he; rw [List.length_append, length_natLe]; omega

/-- A mode that has a form of the payload in no more beats than the raw one. -/
def Coded (q : List Byte) (m : Nat) : Prop := m < 4 ∧ ∃ e, encodeMode q m = some e ∧ beatsOf e ≤ beatsOf q

theorem coded_zero (q : List Byte) : Coded q 0 := ⟨by omega, q, rfl, Nat.le_refl _⟩

theorem coded_bestMode (q : List Byte) : Coded q (bestMode q) := by
  unfold bestMode
  refine List.foldlRecOn _ _ (coded_zero q) fun b hb m hm => ?_
  obtain ⟨_, f, hf, hfq⟩ := hb
  split
  · rename_i e f' he hf'
    split
    · rename_i hlt
      cases hf.symm.trans hf'
      exact ⟨List.mem_range.mp hm, e, he, by omega⟩
    · exact ⟨by assumption, f, hf, hfq⟩
  · exact ⟨by assumption, f, hf, hfq⟩

/-! Headers (R24, R25). -/

theorem xor_mod_lt {a b : Nat} (ha : a < 2 ^ 32) (hb : b < 2 ^ 32) : Nat.xor a b < 2 ^ 32 := Nat.xor_lt_two_pow ha hb

theorem crcBits_lt (n : Nat) : ∀ c, c < 2 ^ 32 → crcBits n c < 2 ^ 32 := by
  induction n with
  | zero => exact fun _ h => h
  | succ n ih =>
    intro c h
    refine ih _ ?_
    split
    · exact xor_mod_lt (by omega) (by omega)
    · omega

theorem crc32c_lt (bs : List Byte) : crc32c bs < 2 ^ 32 := by
  refine xor_mod_lt (by omega) (List.foldlRecOn (motive := fun c => c < 2 ^ 32) _ _ (by omega) fun c hc b _ => crcBits_lt 8 _ (xor_mod_lt hc ?_))
  have := b.isLt
  omega

/-- What a flit sent acknowledges: the latest sequence number received, or all ones. -/
def ackOf (k : Link) : Nat := if k.rxAny then k.rxSeq.toNat else 0xFFF

theorem ackOf_lt (k : Link) : ackOf k < 2 ^ 12 := by
  unfold ackOf
  have := k.rxSeq.isLt
  split <;> omega

/-- The fields of a header of bounded parts. -/
theorem header_fields {b m t n a c : Nat} (hb : b < 16) (hm : m < 4) (ht : t < 4) (hn : n < 2 ^ 12) (ha : a < 2 ^ 12) (hc : c < 2 ^ 32) :
    let low := n + t * 2 ^ 12 + m * 2 ^ 14 + b * 2 ^ 16 + a * 2 ^ 20
    let v := (BitVec.ofNat 64 (low + c * 2 ^ 32)).toNat
    v % 2 ^ 32 = low ∧ bitsN v 63 32 = c ∧ bitsN v 31 20 = a ∧ bitsN v 19 16 = b ∧ bitsN v 15 14 = m ∧ bitsN v 13 12 = t ∧
      bitsN v 11 0 = n := by
  intro low v
  have hl : low = n + t * 4096 + m * 16384 + b * 65536 + a * 1048576 := rfl
  have hv : v = low + c * 4294967296 := by
    refine (BitVec.toNat_ofNat _ _).trans (Nat.mod_eq_of_lt ?_)
    omega
  clear_value low v
  simp only [bitsN]
  refine ⟨?_, ?_, ?_, ?_, ?_, ?_, ?_⟩ <;> omega

/-- The acknowledgement flit is a header alone. -/
theorem sendAck_flit (k : Link) : ∃ f : Flit, sendAck k = { k with sent := k.sent ++ [f], ackDue := false } ∧ f.beats = [] ∧
    flitOk f.header [] = true ∧ bitsN f.header.toNat 31 20 = ackOf k := by
  obtain ⟨hlow, hcrc, hack, hb, hm, _, _⟩ := header_fields (b := 0) (m := 0) (t := 0) (n := 0)
    (c := crc32c (Maps.natLe (headerLow k 0 0 0 0) 4)) (by omega) (by omega) (by omega) (by omega) (ackOf_lt k) (crc32c_lt _)
  refine ⟨_, rfl, rfl, ?_, hack⟩
  unfold flitOk
  simp only [Bool.and_eq_true, beq_iff_eq, List.append_nil]
  refine ⟨⟨?_, ?_⟩, ?_⟩
  · exact (congrArg (16 * ·) hb).symm
  · exact (congrArg (fun x => crc32c (Maps.natLe x 4)) hlow).trans hcrc.symm
  · exact (if_pos hb).trans (beq_iff_eq.mpr hm)

/-- The mode that a class's flits take. -/
def modeFor (k : Link) (tc : BitVec 2) (q : List Byte) : Nat := if k.tcdis.getLsbD tc.toNat then 0 else bestMode q

theorem coded_modeFor (k : Link) (tc : BitVec 2) (q : List Byte) : Coded q (modeFor k tc q) := by
  unfold modeFor
  split
  · exact coded_zero q
  · exact coded_bestMode q

/-- A flit made of a payload is one that a receiver takes. -/
theorem makeFlit_fields (k : Link) (tc : BitVec 2) (hq : q.length = 64) :
    (makeFlit k tc q).seq = k.txSeq ∧ (makeFlit k tc q).tc = tc ∧
    (k.tcdis.getLsbD tc.toNat = true → (makeFlit k tc q).mode = 0 ∧ (makeFlit k tc q).beats = q) ∧
    flitOk (makeFlit k tc q).header (makeFlit k tc q).beats = true ∧
    bitsN (makeFlit k tc q).header.toNat 11 0 = k.txSeq.toNat ∧ bitsN (makeFlit k tc q).header.toNat 13 12 = tc.toNat ∧
    bitsN (makeFlit k tc q).header.toNat 31 20 = ackOf k := by
  obtain ⟨hm4, e, he, hle⟩ := coded_modeFor k tc q
  have hb : beatsOf e ≤ 4 := by rw [show beatsOf q = 4 by unfold beatsOf; rw [hq]] at hle; exact hle
  have hpos := encodeMode_pos hq he
  have hmk : makeFlit k tc q = 
      { seq := k.txSeq, tc := tc, mode := BitVec.ofNat 2 (modeFor k tc q)
        header := BitVec.ofNat 64 (headerLow k (beatsOf e) (modeFor k tc q) tc.toNat k.txSeq.toNat +
          crc32c (Maps.natLe (headerLow k (beatsOf e) (modeFor k tc q) tc.toNat k.txSeq.toNat) 4 ++
            (e ++ List.replicate (16 * beatsOf e - e.length) 0)) * 2 ^ 32)
        beats := e ++ List.replicate (16 * beatsOf e - e.length) 0 } := by
    have : (encodeMode q (modeFor k tc q)).getD q = e := by rw [he]; rfl
    unfold makeFlit
    dsimp only
    rw [← modeFor, this]
  obtain ⟨hlow, hcrc, hack, hbe, hm, htc, hseq⟩ := header_fields (b := beatsOf e) (m := modeFor k tc q) (t := tc.toNat) (n := k.txSeq.toNat)
    (a := ackOf k) (c := crc32c (Maps.natLe (headerLow k (beatsOf e) (modeFor k tc q) tc.toNat k.txSeq.toNat) 4 ++
            (e ++ List.replicate (16 * beatsOf e - e.length) 0))) (by omega) hm4 tc.isLt k.txSeq.isLt (ackOf_lt k) (crc32c_lt _)
  rw [hmk]
  refine ⟨rfl, rfl, fun hraw => ?_, ?_, hseq, htc, hack⟩
  · have h0 : modeFor k tc q = 0 := if_pos hraw
    rw [h0] at he
    cases he
    refine ⟨congrArg (BitVec.ofNat 2) h0, ?_⟩
    simp [beatsOf, hq]
  · unfold flitOk
    have hbo : beatsOf e = (e.length + 15) / 16 := rfl
    simp only [Bool.and_eq_true, beq_iff_eq]
    refine ⟨⟨?_, ?_⟩, ?_⟩
    · refine Eq.trans ?_ (congrArg (16 * ·) hbe).symm
      rw [List.length_append, List.length_replicate]
      omega
    · exact (congrArg (fun x => crc32c (Maps.natLe x 4 ++ (e ++ List.replicate (16 * beatsOf e - e.length) 0))) hlow).trans hcrc.symm
    · refine (if_neg ?_).trans (beq_iff_eq.mpr ?_)
      · intro h; have := hbe.symm.trans h; omega
      · refine hbe.trans ?_
        refine Eq.trans ?_ (congrArg (fun x => ((expand x (e ++ List.replicate (16 * beatsOf e - e.length) 0)).2 + 15) / 16) hm).symm
        rw [expand_length hq he, hbo]

end Sys2Proof.Machine

namespace Sys2Proof.Machine
open Claims
variable {s : State}

/-- What is left of a class's turn, as the facts say it. -/
def leftOf (k : Link) (c : Nat) : Nat := Maps.get (match c with
  | 1 => 4
  | 2 => 2
  | _ => 1) k.credits c

theorem creditOf_eq_leftOf (k : Link) {tc : BitVec 2} (h : tc ≠ 0) : creditOf k tc = leftOf k tc.toNat := by
  have : tc = 1 ∨ tc = 2 ∨ tc = 3 := by
    revert tc
    decide
  rcases this with rfl | rfl | rfl <;> rfl

theorem turnOver_eq (k : Link) :
    turnOver k = [1, 2, 3].all fun c => !(k.queued.any fun e => e.1 == BitVec.ofNat 2 c) || leftOf k c == 0 := by
  simp only [turnOver, waits, List.all_cons, creditOf_eq_leftOf k (tc := 1) (by decide), creditOf_eq_leftOf k (tc := 2) (by decide),
    creditOf_eq_leftOf k (tc := 3) (by decide)]
  rfl

/-- A turn keeps all of a link but its credits, and takes one of the class's own where the turn goes on. -/
theorem useTurn_eq (tc : BitVec 2) (k : Link) : ∃ cr, useTurn tc k = { k with credits := cr } ∧
    (tc = 0 ∨ turnOver k = true ∨ Maps.get 0 cr tc.toNat = leftOf k tc.toNat - 1) := by
  unfold useTurn
  by_cases h : tc = 0
  · exact ⟨k.credits, if_pos h, .inl h⟩
  · rw [if_neg h]
    by_cases ht : turnOver k = true
    · exact ⟨_, by rw [if_pos ht], .inr (.inl ht)⟩
    · refine ⟨_, by rw [if_neg ht], .inr (.inr ?_)⟩
      rw [Maps.get_set, if_pos rfl, creditOf_eq_leftOf k h]

/-- A link that carries is neither down nor due to retrain. -/
theorem carries_of_carriesNow {k : Link} (h : carriesNow k = true) : k.carries = true := by
  unfold carriesNow at h
  unfold Link.carries retrainDue
  obtain ⟨hu, hr⟩ := Bool.and_eq_true_iff.mp h
  rw [hu, Bool.true_and, Bool.true_and]
  exact hr

theorem execFlitSend_ack {l : LinkId} {tc : BitVec 2} {p : List Byte} (hm : maySend s l tc p = true) (hp : p.isEmpty = true) :
    execFlitSend l tc p s = .next (setLink l (sendAck (linkOf s l)) s) := by
  unfold execFlitSend
  dsimp only
  rw [hm, hp]
  rfl

theorem execFlitSend_payload {l : LinkId} {tc : BitVec 2} {p : List Byte} (hm : maySend s l tc p = true) (hp : p.isEmpty = false) :
    execFlitSend l tc p s = .next (setLink l (sendFlit tc p
      { useTurn tc (linkOf s l) with queued := takeQueued tc (linkOf s l).queued }) s) := by
  unfold execFlitSend
  dsimp only
  rw [hm, hp]
  rfl

theorem maySend_ack {l : LinkId} {p : List Byte} (hc : (linkOf s l).carries = true) (hp : p.isEmpty = true)
    (ha : (linkOf s l).ackDue = true) (hq : (linkOf s l).queued.isEmpty = true) : maySend s l 0 p = true := by
  simp [maySend, hc, hp, ha, hq]

theorem classTurn_eq (k : Link) (tc : BitVec 2) :
    classTurn k tc = (tc == 0 || (!(k.queued.any fun e => e.1 == 0) && (turnOver k || decide (0 < leftOf k tc.toNat)))) := by
  unfold classTurn
  by_cases h : tc = 0
  · rw [h]; rfl
  · rw [creditOf_eq_leftOf k h]; rfl

/-- A payload goes where the classes' turns give it the port, and on a die-to-die module at once. -/
theorem maySend_payload {l : LinkId} {tc : BitVec 2} {p : List Byte} (hc : (linkOf s l).carries = true) (hl : p.length = 64)
    (hr : (linkOf s l).replay.length < 2048)
    (hf : ∀ j, l = .port j → s.boot.pkg.isSome = true ∧ ((linkOf s l).queued.find? fun e => e.1 == tc).map (·.2) = some p ∧
      classTurn (linkOf s l) tc = true) : maySend s l tc p = true := by
  have hp : p.isEmpty = false := by rw [List.isEmpty_eq_false_iff]; rintro rfl; cases hl
  unfold maySend
  dsimp only
  rw [hc, hp, hl, decide_eq_true hr]
  cases l with
  | port j =>
    obtain ⟨hk, hq, ht⟩ := hf j rfl
    obtain ⟨e, he, rfl⟩ := Option.map_eq_some_iff.mp hq
    simp [hk, ht, he]
  | ucie d m => rfl

/-- What is left of a turn that is used. -/
theorem turn_facts {tc : BitVec 2} {b : Bool} {x y : Nat} (h : tc = 0 ∨ b = true ∨ x = y - 1) :
    ((tc == 0 || b) || y == 0 || x + 1 == y) = true := by
  rcases h with rfl | rfl | h
  · rfl
  · simp
  · simp only [Bool.or_eq_true, beq_iff_eq]
    omega

/-- What a receiver reads of a flit that carries payload `p`. -/
def Carries (k : Link) (tc : BitVec 2) (p : List Byte) (f : Flit) : Prop :=
  f.seq = k.txSeq ∧ f.tc = tc ∧ (k.tcdis.getLsbD tc.toNat = true → f.mode = 0 ∧ f.beats = p) ∧ flitOk f.header f.beats = true ∧
    bitsN f.header.toNat 11 0 = k.txSeq.toNat ∧ bitsN f.header.toNat 13 12 = tc.toNat ∧ bitsN f.header.toNat 31 20 = ackOf k

/-- A payload sent: one flit more in the replay buffer, and its class's turn used. -/
theorem sendFlit_useTurn (k : Link) (tc : BitVec 2) {p : List Byte} (hp : p.length = 64) : ∃ f cr zr bd bm beat,
    sendFlit tc p { useTurn tc k with queued := takeQueued tc k.queued } = { k with
      txSeq := k.txSeq + 1, replay := k.replay ++ [f], sent := k.sent ++ [f], window := k.window + 1, queued := takeQueued tc k.queued
      ackDue := false, flits := bump k.flits 1, zr := zr, bd := bd, bm := bm, beat := beat, credits := cr } ∧ Carries k tc p f ∧
    (tc = 0 ∨ turnOver k = true ∨ Maps.get 0 cr tc.toNat = leftOf k tc.toNat - 1) := by
  obtain ⟨cr, hturn, hleft⟩ := useTurn_eq tc k
  have hf : Carries k tc p (makeFlit { k with credits := cr, queued := takeQueued tc k.queued } tc p) := makeFlit_fields _ tc hp
  rw [hturn]
  exact ⟨_, cr, _, _, _, _, rfl, hf, hleft⟩

theorem flitFacts_obeyed (i : Instr) : Obeys (exec i s) (flitFacts i s) := by
  unfold flitFacts
  split
  · rename_i l tc p
    refine obeys_cons.mpr ⟨fun h => ?_, obeys_single fun h => ?_⟩
    · simp only [Bool.and_eq_true, beq_iff_eq] at h
      obtain ⟨⟨⟨⟨hc, hp⟩, rfl⟩, ha⟩, hq⟩ := h
      obtain ⟨f, hf, hb, hok, hack⟩ := sendAck_flit (linkOf s l)
      refine ⟨_, execFlitSend_ack (maySend_ack (carries_of_carriesNow hc) hp ha hq) hp, ?_⟩
      rw [hf]
      simp only [linkOf_setLink, if_true, List.getLast?_concat, beq_self_eq_true, Bool.true_and, hb, hok, List.isEmpty_nil, hack, ackOf]
    · simp only [Bool.and_eq_true, decide_eq_true_eq] at h
      obtain ⟨⟨⟨hc, hlen⟩, hr⟩, hfirst⟩ := h
      have hp : p.isEmpty = false := by rw [List.isEmpty_eq_false_iff]; rintro rfl; cases hlen
      have hm : maySend s l tc p = true := by
        refine maySend_payload (carries_of_carriesNow hc) hlen hr fun j hj => ?_
        subst hj
        simp only [Bool.and_eq_true, beq_iff_eq] at hfirst
        obtain ⟨⟨hk, hq⟩, ht⟩ := hfirst
        exact ⟨hk, hq, by rw [classTurn_eq, turnOver_eq]; exact ht⟩
      refine ⟨_, execFlitSend_payload hm hp, ?_⟩
      obtain ⟨f, cr, zr, bd, bm, beat, hsend, ⟨hseq, htc, hraw, hok, hn, ht, hack⟩, hleft⟩ := sendFlit_useTurn (linkOf s l) tc hlen
      rw [hsend]
      simp only [linkOf_setLink, if_true, List.getLast?_concat, beq_self_eq_true, Bool.true_and, Bool.and_true, Bool.not_false, hseq, htc,
        hok, hn, ht, hack, ackOf]
      rw [turnOver_eq] at hleft
      refine Bool.and_eq_true_iff.mpr ⟨turn_facts hleft, ?_⟩
      cases hr : (linkOf s l).tcdis.getLsbD tc.toNat with
      | false => rfl
      | true => simp [hraw hr]
  · exact obeys_nil
/-- Settles O52: a link's facts, from the flit that is made, the turns of the classes and what a failed link leaves. -/
theorem linkFacts : Obligations.LinkFacts :=
  ⟨factHolds_iff.mpr fun i _ => triggerFacts_obeyed i, factHolds_iff.mpr fun i _ => flitFacts_obeyed i,
    factHolds_iff.mpr fun i _ => downFacts_obeyed i⟩

end Sys2Proof.Machine

namespace Sys2Proof.Machine
open Claims
variable {s : State}

/-- Two changes of a group that agree on it as it stands are one change. -/
theorem onGroup_congr {k : Nat} {g : Group} (hg : Maps.find s.groups k = some g) {f f' : Group → Group} (h : f g = f' g) :
    onGroup k f s = onGroup k f' s := by
  unfold onGroup
  rw [Maps.modify_of_find hg f, Maps.modify_of_find hg f', h]

/-! The wait table (R194). -/

theorem rewalk_answers (d : BitVec 3) (n : BitVec 10) {e : WaitEntry} (he : Maps.find (dieAt s d.toNat).waits n.toNat = some e) :
    Answers (exec (.waitTableRewalk d n) s) (rewalkCases d.toNat n.toNat e s) := by
  refine answers_single fun h => ?_
  obtain ⟨hr, hw⟩ := Bool.and_eq_true_iff.mp h
  have hx : exec (.waitTableRewalk d n) s = execWaitTableRewalk d n s := rfl
  have hn : rewalk d.toNat n.toNat e s =
      onDie d.toNat (fun x => { x with waits := Maps.modify x.waits n.toNat fun e => { e with rewalk := false } }) s := by
    refine if_neg ?_
    rw [Bool.not_eq_true']  at hw
    rw [show rewalkOk (onDie _ _ s) e = rewalkOk s e from rfl, hw]
    exact Bool.false_ne_true
  rw [hx, execWaitTableRewalk, he]
  exact (if_pos hr).trans (congrArg _ hn)

/-! Siblings (R173, R175). -/

/-- A push of a trap entry that spills nothing. -/
theorem push_trap_eq {k : Nat} {g : Group} (hg : Maps.find s.groups k = some g) (hs : spills g = false) {e : StackEntry} (he : e.kind = .trap) :
    push k e s = onGroup k (fun g => { g with held := e :: g.held, depth := g.depth + 1 }) s := by
  have hk : ¬ e.kind = .div := by rw [he]; decide
  unfold push
  simp only [groupOf_of_find s hg, hs]
  exact onGroup_congr hg (by simp only [hs, if_neg hk, Bool.false_eq_true, if_false])

/-- A stack with room where nothing is spilt takes the SIBHALT entry. -/
theorem stopSibling_eq {k : Nat} {g : Group} (hg : Maps.find s.groups k = some g) (skid : Nat) (hh : g.held.length < 16)
    (hd : g.depth ≤ stackCap g) :
    stopSibling k skid s = onGroup k (fun g => { g with
      halted := true, haltSeen := none, sleepTo := none, depth := g.depth + 1
      held := { kind := .trap, mask := g.active, rpc := g.pc, cause := 0x0D, skid := BitVec.ofNat 2 skid, mode := g.mode.setWidth 8 } :: g.held }) s := by
  have hs : spills g = false := by
    unfold spills
    rw [decide_eq_false (by omega), Bool.false_and]
  have hf : spillFault s k = none := by
    unfold spillFault
    rw [groupOf_of_find s hg]
    exact if_neg (by rw [hs]; exact Bool.false_ne_true)
  unfold stopSibling pushTrap
  dsimp only
  rw [groupOf_of_find s hg, if_neg (Nat.not_lt.mpr hd), hf]
  dsimp only
  rw [push_trap_eq hg hs rfl, onGroup_onGroup]
  exact onGroup_congr hg rfl

/-- May a sibling that has come to a packet boundary stop, with room on its stack? -/
def Stops (s : State) (k : Nat) (g : Group) : Prop :=
  (!inProgress g && !g.exited && g.parked.isNone && !g.halted && !g.stalled && !stackBusy s k &&
    decide (g.held.length < 16 ∧ g.depth ≤ stackCap g)) = true

theorem stopDue_of_stops {k n : Nat} {g : Group} (hg : Maps.find s.groups k = some g) (hn : g.haltSeen = some n) (h : Stops s k g)
    (hp : (isPacketStart g.pc || inTile g) = true) : stopDue s k = true := by
  unfold Stops at h
  obtain ⟨h, -⟩ := Bool.and_eq_true_iff.mp h
  unfold stopDue
  rw [hg]
  dsimp only
  rw [hn, hp]
  simp only [Bool.and_eq_true] at h ⊢
  obtain ⟨⟨⟨⟨⟨h1, h2⟩, h3⟩, h4⟩, h5⟩, h6⟩ := h
  exact ⟨⟨⟨⟨⟨⟨⟨rfl, trivial⟩, h1⟩, h2⟩, h3⟩, h4⟩, h5⟩, h6⟩

/-- The packets of SKID (R173, R386). -/
def skidOf (n : Nat) : Nat := if n = 4 then 0 else min 2 n

theorem execSiblingStop_eq {k n : Nat} {g : Group} (hg : Maps.find s.groups k = some g) (hn : g.haltSeen = some n) (hd : stopDue s k = true) :
    execSiblingStop k s = .next (if inTile g then
      stopSibling k (max 1 (skidOf n)) (onGroup k (fun g => { g with waiting := none, tileSrc := none }) s) else stopSibling k (skidOf n) s) := by
  have hk : (if g.haltSeen = some 4 then 0 else min 2 (g.haltSeen.getD 0)) = skidOf n := by
    rw [hn]
    simp only [Option.some.injEq, Option.getD_some, skidOf]
  unfold execSiblingStop
  rw [if_pos hd, groupOf_of_find s hg]
  dsimp only
  rw [hk]
  split <;> rfl

theorem siblingStop_answers (k : Nat) : Answers (exec (.siblingStop k) s) (stopCases k s) := by
  unfold stopCases
  split
  · exact answers_nil
  · rename_i g hg
    split
    · exact answers_nil
    · rename_i n hn
      have he : exec (.siblingStop k) s = execSiblingStop k s := rfl
      dsimp only
      split
      · rename_i hw
        refine answers_single fun h => ?_
        have ht : inTile g = true := by unfold inTile; rw [hw]
        obtain ⟨-, hroom⟩ := Bool.and_eq_true_iff.mp h
        obtain ⟨hh, hdep⟩ := of_decide_eq_true hroom
        have hg' : Maps.find (onGroup k (fun g => { g with waiting := none, tileSrc := none }) s).groups k =
            some { g with waiting := none, tileSrc := none } := by
          rw [groups_onGroup, Maps.find_modify, if_pos rfl, hg]
          rfl
        rw [he, execSiblingStop_eq hg hn (stopDue_of_stops hg hn h (by rw [ht, Bool.or_true])), if_pos ht, stopSibling_eq hg' _ hh hdep,
          onGroup_onGroup]
        rfl
      · rename_i hw
        refine answers_single fun h => ?_
        obtain ⟨h, hp⟩ := Bool.and_eq_true_iff.mp h
        have ht : inTile g = false := by
          unfold inTile
          split
          · rename_i _ _ _ _ hm
            exact absurd hm (hw _ _ _ _)
          · rfl
        obtain ⟨-, hroom⟩ := Bool.and_eq_true_iff.mp h
        obtain ⟨hh, hdep⟩ := of_decide_eq_true hroom
        rw [he, execSiblingStop_eq hg hn (stopDue_of_stops hg hn h (by rw [hp]; rfl)), if_neg (by rw [ht]; exact Bool.false_ne_true),
          stopSibling_eq hg _ hh hdep]
        exact congrArg _ (onGroup_congr hg rfl)

/-! Resumption (R175). -/

/-- A stack all of whose entries are held is popped without a fill. -/
theorem pop_held_eq {k : Nat} {g : Group} (hg : Maps.find s.groups k = some g) (hd : g.depth ≤ g.held.length) :
    pop k s = onGroup k (fun g => { g with held := g.held.tail, depth := g.depth - 1, paths := Maps.del g.paths (g.depth - 1) }) s := by
  have h1 : ¬ (g.held.length - 1 < g.depth - 1 ∧ g.held.length - 1 < 16) := by omega
  have h2 : ¬ (g.held.tail.length < g.depth - 1 ∧ g.held.tail.length < 16) := by rw [List.length_tail]; exact h1
  have hr : refill s k g.held.tail (g.depth - 1) = g.held.tail := if_neg h2
  unfold pop
  dsimp only
  rw [groupOf_of_find s hg, if_neg h1, hr]
  exact onGroup_congr hg rfl

theorem fillFault_held_eq {k : Nat} {g : Group} (hg : Maps.find s.groups k = some g) (hd : g.depth ≤ g.held.length) : fillFault s k = none := by
  unfold fillFault
  rw [groupOf_of_find s hg]
  exact if_neg (by omega)

theorem sibhaltPop_answers (k : Nat) : Answers (exec (.sibhaltPop k) s) (popCases k s) := by
  unfold popCases
  split
  · exact answers_nil
  · rename_i g hg
    split
    · exact answers_nil
    · rename_i e rest hh
      refine answers_single fun h => ?_
      obtain ⟨h, hd⟩ := Bool.and_eq_true_iff.mp h
      replace hd : g.depth ≤ g.held.length := of_decide_eq_true hd
      have he : exec (.sibhaltPop k) s = execSibhaltPop k s := rfl
      have hdue : popDue s k = true := by
        unfold popDue
        rw [hg]
        exact h
      rw [he, execSibhaltPop, if_pos hdue]
      unfold resumeSibling
      dsimp only
      rw [groupOf_of_find s hg, fillFault_held_eq hg hd, hh, pop_held_eq hg hd]
      dsimp only [List.head?_cons]
      rw [onGroup_onGroup]
      exact congrArg _ (onGroup_congr hg (by rw [hh]; rfl))

/-! Sleep (R386). -/

theorem sleepExpiry_answers (k : Nat) {g : Group} (hg : Maps.find s.groups k = some g) :
    Answers (exec (.sleepExpiry k) s)
      [{ ok := g.sleepTo.any fun t => decide (t ≤ s.clock), after := onGroup k (fun g => { g with sleepTo := none }) s }] := by
  refine answers_single fun h => ?_
  have hd : wakeSleepDue s k = true := by
    unfold wakeSleepDue
    rw [hg]
    dsimp only at h ⊢
    cases hs : g.sleepTo with
    | none => rw [hs] at h; exact h
    | some t => rw [hs] at h; exact h
  exact if_pos hd

/-! Tokens (R177, R179). -/

/-- A token moves as its case gives, at a hop's end or a burst's. -/
theorem moveToken_answers {d i c : Nat} {keep ok : Bool} {o : Out} (h : ok = true → o = .next (moveToken d i c keep s)) :
    Answers o (tokenCases ok d i c keep s) := by
  have hk : clusterHolds (dieAt s d) c = (dieAt s d).tokens.any fun t => t.cluster == c && t.arrives.isNone := rfl
  unfold moveToken at h
  unfold tokenCases
  dsimp only at h ⊢
  rw [← hk]
  simp only [answers_append, answers_cons, answers_nil, and_true, Bool.and_eq_true, Bool.not_eq_true', decide_eq_true_eq, decide_eq_false_iff_not]
  refine ⟨⟨fun ⟨ho, hs⟩ => ?_, fun ⟨⟨⟨ho, hs⟩, hn⟩, hp, hc⟩ => ?_, fun ⟨⟨⟨⟨ho, hs⟩, hn⟩, hp, hc⟩, hw⟩ => ?_,
    fun ⟨⟨⟨ho, hs⟩, hn⟩, hpw⟩ => ?_⟩, ?_⟩
  · rw [h ho, if_pos hs]; rfl
  · rw [h ho, if_neg hs, eq_of_beq hn]
    exact congrArg _ (if_pos (by rw [hp, hc]; exact beq_self_eq_true c))
  · rw [h ho, if_neg hs, Option.isNone_iff_eq_none.mp hn]
    exact congrArg _ (if_pos (by rw [hp, hc, hw]; rfl))
  · rw [h ho, if_neg hs, Option.isNone_iff_eq_none.mp hn]
    exact congrArg _ (if_neg (by rw [hpw]; exact Bool.false_ne_true))
  · split
    · exact answers_nil
    · rename_i n hn
      refine answers_single fun h' => ?_
      simp only [Bool.and_eq_true, Bool.not_eq_true', decide_eq_false_iff_not] at h'
      obtain ⟨⟨ho, hs⟩, hpn⟩ := h'
      rw [h ho, if_neg hs, hn]
      exact congrArg _ (if_neg (by rw [hpn]; exact Bool.false_ne_true))

theorem tokenHop_answers (d : BitVec 3) (i : Nat) {t : Token} (ht : (dieAt s d.toNat).tokens[i]? = some t) :
    Answers (exec (.tokenHop d i) s)
      (tokenCases ((dieAt s d.toNat).running && !(dieAt s d.toNat).heldReset && t.arrives.any fun c => decide (c ≤ s.clock)) d.toNat i t.cluster true
        (onDie d.toNat (fun x => { x with hearthReq := x.hearthReq.filter (· != t.cluster) }) s)) := by
  refine moveToken_answers fun h => ?_
  obtain ⟨hup, hc⟩ := Bool.and_eq_true_iff.mp h
  have he : exec (.tokenHop d i) s = execTokenHop d i s := rfl
  obtain ⟨hr, hh⟩ := Bool.and_eq_true_iff.mp hup
  have hn : ¬ (!(dieAt s d.toNat).running || (dieAt s d.toNat).heldReset) = true := by
    rw [Bool.not_eq_true'] at hh
    rw [hr, hh]
    exact Bool.false_ne_true
  have hd : hopDue s d.toNat i = some t := by
    unfold hopDue
    rw [if_neg hn, ht]
    dsimp only at hc ⊢
    cases ha : t.arrives with
    | none => rw [ha] at hc; cases hc
    | some c => rw [ha] at hc; exact if_pos (of_decide_eq_true hc)
  rw [he, execTokenHop, hd]

theorem burstEnd_answers (d : BitVec 3) (c : Nat) {i : Nat} (hi : burstDue s d.toNat c = some i) :
    Answers (exec (.burstEnd d c) s) (tokenCases true d.toNat i c false s) := by
  refine moveToken_answers fun _ => ?_
  have he : exec (.burstEnd d c) s = execBurstEnd d c s := rfl
  rw [he, execBurstEnd, hi]

theorem groupCases_answered (i : Instr) : Answers (exec i s) (groupCases i s) := by
  unfold groupCases
  split
  · split
    · rename_i he
      exact rewalk_answers _ _ he
    · exact answers_nil
  · exact siblingStop_answers _
  · exact sibhaltPop_answers _
  · split
    · rename_i hg
      exact sleepExpiry_answers _ hg
    · exact answers_nil
  · split
    · rename_i ht
      exact tokenHop_answers _ _ ht
    · exact answers_nil
  · split
    · rename_i hi
      exact burstEnd_answers _ _ hi
    · exact answers_nil
  · exact answers_nil

end Sys2Proof.Machine

namespace Sys2Proof.Machine
open Claims
variable {s : State}

/-! What a renegotiation asks for, by the order of its rules (R163). -/

/-- The first request word of a team. -/
def askOf (s : State) (h : Nat) : Word := (asksOf s h).head?.getD 0

def asksMalformed (s : State) (h : Nat) : Bool :=
  (asksOf s h).any fun w => decide (w.toNat / 2 ^ 15 ≠ 0 ∨ bitsN w.toNat 7 4 ≠ 0 ∨ 96 < bitsN w.toNat 14 8)
def asksEqual (s : State) (h : Nat) : Bool := (asksOf s h).all (· == askOf s h)
def asksBeyond (s : State) (h : Nat) : Bool :=
  (((regionChain s (teamAt s h).ctx (teamAt s h).region).getD []).any fun r =>
    (r == 0 || decide (rcbField s (teamAt s h).ctx r 18 18 = 1)) && decide (rcbField s (teamAt s h).ctx r 55 49 < askScr (askOf s h))) ||
  decide ((carveSizes (coreAt s (teamAt s h).core).carve).1 * 1024 < (teamAt s h).ngroups * 128 * askRegs (askOf s h) ∨
    (carveSizes (coreAt s (teamAt s h).core).carve).2 / 64 < askScr (askOf s h))
def asksTight (s : State) (h : Nat) : Bool :=
  decide ((carveSizes (coreAt s (teamAt s h).core).carve).1 * 1024 < regsUsed s (teamAt s h).core -
    (teamAt s h).ngroups * 128 * (teamAt s h).regs + (teamAt s h).ngroups * 128 * askRegs (askOf s h) ∨
    (carveSizes (coreAt s (teamAt s h).core).carve).2 / 64 < scrUsed s (teamAt s h).core - (teamAt s h).scr + askScr (askOf s h))

theorem askBad_eq (w : Word) : askBad w = decide (w.toNat / 2 ^ 15 ≠ 0 ∨ bitsN w.toNat 7 4 ≠ 0 ∨ 96 < bitsN w.toNat 14 8) := by
  have h := w.isLt
  have hd : bitsN w.toNat 31 15 = w.toNat / 2 ^ 15 := by unfold bitsN; omega
  unfold askBad askScr
  rw [hd]
  simp only [Bool.decide_or, bne, decide_not, Bool.or_assoc]
  rfl

theorem reallocStatus_eq (h : Nat) : reallocStatus s h = if asksMalformed s h then 4 else if !asksEqual s h then 3 else
    if asksBeyond s h then 2 else if asksTight s h then 1 else 0 := by
  have hb : (asksOf s h).any askBad = asksMalformed s h := congrArg (asksOf s h).any (funext askBad_eq)
  have he : (asksOf s h).any (· != askOf s h) = !asksEqual s h := by
    unfold asksEqual
    rw [List.not_all_eq_any_not]
    rfl
  rw [← hb, ← he]
  unfold reallocStatus asksBeyond asksTight
  simp only [Bool.or_eq_true, decide_eq_true_eq, ← or_assoc]
  rfl

/-! What the decision leaves (R163, R164). -/

theorem find_mapAll {α : Type} (f : Nat → α → α) (k : Nat) : ∀ m : AMap α, Maps.find (Maps.mapAll m f) k = (Maps.find m k).map (f k)
  | [] => rfl
  | (j, u) :: m => by
    have ih := find_mapAll f k m
    unfold Maps.mapAll at ih ⊢
    rw [List.map_cons, Maps.find_cons, Maps.find_cons, ih]
    split
    · next h => rw [h]; rfl
    · rfl

theorem isSome_find_of_mem {α : Type} {m : AMap α} {e : Nat × α} (h : e ∈ m) : (Maps.find m e.1).isSome = true := by
  induction m with
  | nil => cases h
  | cons x m ih =>
    obtain ⟨j, u⟩ := x
    rw [Maps.find_cons]
    split
    · rfl
    · next hj =>
      rcases List.mem_cons.mp h with rfl | h
      · exact absurd rfl hj
      · exact ih h

/-- The allotment that a status of 0 changes. -/
def granted (s : State) (h : Nat) (g : Group) : Group := if reallocStatus s h = 0 then g.shrink (askRegs (askOf s h)) else g

/-- A group that asked has the status. -/
theorem find_decideRealloc {h k d : Nat} {g : Group} (hk : handleOf k = h) (hg : Maps.find s.groups k = some g) (hw : g.waiting = some (.realloc d)) :
    Maps.find (decideRealloc h s).groups k = some { (granted s h g).setS d (BitVec.ofNat 32 (reallocStatus s h)) with waiting := none } := by
  have hx : (granted s h g).waiting = some (.realloc d) := by unfold granted; split <;> exact hw
  unfold decideRealloc
  dsimp only
  rw [groups_onTeam, find_mapAll, hg, Option.map_some, if_pos hk]
  change some (match (granted s h g).waiting with
    | some (.realloc d) => { (granted s h g).setS d (BitVec.ofNat 32 (reallocStatus s h)) with waiting := none }
    | _ => granted s h g) = _
  rw [hx]

theorem teamAt_onTeam_listed {h : Nat} (ht : (Maps.find s.teams h).isSome = true) (f : Team → Team) :
    teamAt (onTeam h f s) h = f (teamAt s h) := by
  obtain ⟨t, hf⟩ := Option.isSome_iff_exists.mp ht
  unfold teamAt Maps.get
  rw [teams_onTeam, Maps.find_modify, if_pos rfl, hf]
  rfl

/-- The team's next phase, and its allotment. -/
theorem teamAt_decideRealloc {h : Nat} (ht : (Maps.find s.teams h).isSome = true) :
    teamAt (decideRealloc h s) h = { (if reallocStatus s h = 0 then (teamAt s h).grant (askOf s h) else teamAt s h) with
      barPhase := (teamAt s h).barPhase + 1, barIn := 0, reallocs := [] } := by
  unfold decideRealloc
  exact teamAt_onTeam_listed (s := { s with groups := _ }) ht _

/-- Every group that asked is toldStatus the status, by a group that `f` gives. -/
def toldStatus (s : State) (h st : Nat) (f : Group → Group) (u : State) : Bool := (liveGroups s h).all fun k =>
  match Maps.find s.groups k, Maps.find u.groups k with
  | some g, some x => (match g.waiting with
    | some (.realloc d) => decide (x = { (f g).setS d (BitVec.ofNat 32 st) with waiting := none })
    | _ => true)
  | _, _ => false

theorem toldStatus_decideRealloc (h : Nat) : toldStatus s h (reallocStatus s h) (granted s h) (decideRealloc h s) = true := by
  refine List.all_eq_true.mpr fun k hk => ?_
  obtain ⟨e, he, rfl⟩ := List.mem_map.mp hk
  have hh : handleOf e.1 = h := by
    have := (List.mem_filter.mp he).2
    exact eq_of_beq (Bool.and_eq_true_iff.mp this).1
  obtain ⟨g, hg⟩ := Option.isSome_iff_exists.mp (isSome_find_of_mem (List.mem_filter.mp he).1)
  dsimp only
  rw [hg]
  have hu : (Maps.find (decideRealloc h s).groups e.1).isSome = true := by
    unfold decideRealloc
    dsimp only
    rw [groups_onTeam, find_mapAll, hg]
    rfl
  obtain ⟨x, hx⟩ := Option.isSome_iff_exists.mp hu
  rw [hx]
  dsimp only
  split
  · rename_i d hw
    rw [find_decideRealloc hh hg hw] at hx
    exact decide_eq_true (Option.some.inj hx).symm
  · rfl

/-- The barrier's next phase. -/
def phased (s : State) (h : Nat) (u : State) : Bool :=
  decide ((teamAt u h).barPhase = (teamAt s h).barPhase + 1) && decide ((teamAt u h).barIn = 0) && (teamAt u h).reallocs.isEmpty

/-- The allotment as it was, and as the request asks (its registers and units, and the bytes that they keep). -/
def allotKept (s : State) (h : Nat) (u : State) : Bool :=
  decide ((teamAt u h).regs = (teamAt s h).regs ∧ (teamAt u h).scr = (teamAt s h).scr) && decide ((teamAt u h).scratch = (teamAt s h).scratch)
def allotResized (s : State) (h : Nat) (u : State) : Bool :=
  decide ((teamAt u h).regs = 16 * ((askOf s h).toNat % 16 + 1) ∧ (teamAt u h).scr = bitsN (askOf s h).toNat 14 8)
def scratchCut (s : State) (h : Nat) (u : State) : Bool :=
  decide ((teamAt u h).scratch = Maps.below (teamAt s h).scratch (65536 * askScr (askOf s h)))

theorem statusFacts_eq (h : Nat) : statusFacts h s =
    [{ ok := reallocDue s h && asksMalformed s h, must := fun u => toldStatus s h 4 id u && phased s h u && allotKept s h u },
     { ok := reallocDue s h && (!asksMalformed s h && !asksEqual s h), must := fun u => toldStatus s h 3 id u && phased s h u && allotKept s h u },
     { ok := reallocDue s h && (!asksMalformed s h && asksEqual s h && asksBeyond s h)
       must := fun u => toldStatus s h 2 id u && phased s h u && allotKept s h u },
     { ok := reallocDue s h && (!asksMalformed s h && asksEqual s h && !asksBeyond s h && asksTight s h)
       must := fun u => toldStatus s h 1 id u && phased s h u && allotKept s h u },
     { ok := reallocDue s h && !asksMalformed s h && asksEqual s h && !asksBeyond s h && !asksTight s h
       must := fun u => toldStatus s h 0 (Group.shrink (askRegs (askOf s h))) u && phased s h u && allotResized s h u && scratchCut s h u }] := by
  unfold statusFacts
  dsimp only
  rfl

theorem phased_decideRealloc {h : Nat} (ht : (Maps.find s.teams h).isSome = true) : phased s h (decideRealloc h s) = true := by
  unfold phased
  rw [teamAt_decideRealloc ht]
  simp

theorem isSome_of_reallocDue {h : Nat} (hd : reallocDue s h = true) : (Maps.find s.teams h).isSome = true := by
  simp only [reallocDue, Bool.and_eq_true] at hd
  obtain ⟨⟨⟨⟨⟨ht, -⟩, -⟩, -⟩, -⟩, -⟩ := hd
  exact ht

/-- A renegotiation denied: the groups are toldStatus, and the allotment stays. -/
theorem realloc_denied {h st : Nat} (hd : reallocDue s h = true) (hs : reallocStatus s h = st) (h0 : st ≠ 0) :
    ∃ u, exec (.reallocDecision h) s = .next u ∧ (toldStatus s h st id u && phased s h u && allotKept s h u) = true := by
  have ht := isSome_of_reallocDue hd
  have hf : granted s h = id := funext fun g => if_neg (by rw [hs]; exact h0)
  have htold := toldStatus_decideRealloc (s := s) h
  rw [hs, hf] at htold
  refine ⟨decideRealloc h s, if_pos hd, ?_⟩
  rw [htold, phased_decideRealloc ht]
  unfold allotKept
  rw [teamAt_decideRealloc ht, if_neg (by rw [hs]; exact h0)]
  simp

/-- A renegotiation granted. -/
theorem realloc_granted {h : Nat} (hd : reallocDue s h = true) (hs : reallocStatus s h = 0) :
    ∃ u, exec (.reallocDecision h) s = .next u ∧
      (toldStatus s h 0 (Group.shrink (askRegs (askOf s h))) u && phased s h u && allotResized s h u && scratchCut s h u) = true := by
  have ht := isSome_of_reallocDue hd
  have hf : granted s h = Group.shrink (askRegs (askOf s h)) := funext fun g => if_pos hs
  have htold := toldStatus_decideRealloc (s := s) h
  rw [hs, hf] at htold
  refine ⟨decideRealloc h s, if_pos hd, ?_⟩
  rw [htold, phased_decideRealloc ht]
  unfold allotResized scratchCut
  rw [teamAt_decideRealloc ht, if_pos hs]
  simp [Team.grant, askRegs, askScr]

theorem statusFacts_obeyed (h : Nat) : Obeys (exec (.reallocDecision h) s) (statusFacts h s) := by
  have hs := reallocStatus_eq (s := s) h
  rw [statusFacts_eq]
  simp only [obeys_cons, obeys_nil, and_true]
  refine ⟨fun hk => ?_, fun hk => ?_, fun hk => ?_, fun hk => ?_, fun hk => ?_⟩
  · obtain ⟨hd, h4⟩ := Bool.and_eq_true_iff.mp hk
    exact realloc_denied hd (by rw [hs, h4]; rfl) (by decide)
  · obtain ⟨hd, hk⟩ := Bool.and_eq_true_iff.mp hk
    simp only [Bool.and_eq_true, Bool.not_eq_true'] at hk
    obtain ⟨h4, h3⟩ := hk
    exact realloc_denied hd (by rw [hs, h4, h3]; rfl) (by decide)
  · obtain ⟨hd, hk⟩ := Bool.and_eq_true_iff.mp hk
    simp only [Bool.and_eq_true, Bool.not_eq_true'] at hk
    obtain ⟨⟨h4, h3⟩, h2⟩ := hk
    exact realloc_denied hd (by rw [hs, h4, h3, h2]; rfl) (by decide)
  · obtain ⟨hd, hk⟩ := Bool.and_eq_true_iff.mp hk
    simp only [Bool.and_eq_true, Bool.not_eq_true'] at hk
    obtain ⟨⟨⟨h4, h3⟩, h2⟩, h1⟩ := hk
    exact realloc_denied hd (by rw [hs, h4, h3, h2, h1]; rfl) (by decide)
  · simp only [Bool.and_eq_true, Bool.not_eq_true'] at hk
    obtain ⟨⟨⟨⟨hd, h4⟩, h3⟩, h2⟩, h1⟩ := hk
    exact realloc_granted hd (by rw [hs, h4, h3, h2, h1]; rfl)

theorem reallocFacts_obeyed (i : Instr) : Obeys (exec i s) (reallocFacts i s) := by
  unfold reallocFacts
  split
  · exact statusFacts_obeyed _
  · exact obeys_nil

end Sys2Proof.Machine

namespace Sys2Proof.Machine
open Claims
variable {s t u : State} {d : Nat}

/-! What the loss of a die's work leaves of its records and of the teams elsewhere (R37). -/

/-- A die as warm as before, that has lost no fault record. -/
def Warm (x y : Die) : Prop := y.temp = x.temp ∧ ∀ r ∈ x.frecs, r ∈ y.frecs

theorem warm_of_eq {x y : Die} (ht : y.temp = x.temp) (hf : y.frecs = x.frecs) : Warm x y := ⟨ht, fun r hr => by rwa [hf]⟩

theorem Warm.refl (x : Die) : Warm x x := ⟨rfl, fun _ h => h⟩
theorem Warm.trans {x y z : Die} (h : Warm x y) (h' : Warm y z) : Warm x z := ⟨h'.1.trans h.1, fun r hr => h'.2 r (h.2 r hr)⟩

/-- Die `d` stays as warm and keeps its records, and no team comes to another core. -/
structure Cools (d : Nat) (s t : State) : Prop where
  die : Warm (dieAt s d) (dieAt t d)
  teams : ∀ e ∈ t.teams, ∃ e' ∈ s.teams, e'.1 = e.1 ∧ e'.2.core = e.2.core

theorem Cools.refl (d : Nat) (s : State) : Cools d s s := ⟨.refl _, fun e he => ⟨e, he, rfl, rfl⟩⟩

theorem Cools.trans (h : Cools d s t) (h' : Cools d t u) : Cools d s u where
  die := h.die.trans h'.die
  teams e he := by
    obtain ⟨e', he', h1, h2⟩ := h'.teams e he
    obtain ⟨e'', he'', h3, h4⟩ := h.teams e' he'
    exact ⟨e'', he'', h3.trans h1, h4.trans h2⟩

theorem cools_of_eq (hd : t.dies = s.dies) (ht : t.teams = s.teams) : Cools d s t where
  die := by unfold dieAt; rw [hd]; exact .refl _
  teams e he := ⟨e, by rwa [ht] at he, rfl, rfl⟩

theorem cools_onDie {f : Die → Die} (h : ∀ x, Warm x (f x)) (j : Nat) : Cools d s (onDie j f s) where
  die := by
    unfold dieAt
    rw [dies_onDie, Maps.get_set]
    split
    · next hj => rw [← hj]; exact h _
    · exact .refl _
  teams e he := ⟨e, he, rfl, rfl⟩

theorem cools_mapDies {f : Nat → Die → Die} (h : ∀ k x, Warm x (f k x)) : Cools d s { s with dies := Maps.mapAll s.dies f } where
  die := by
    unfold dieAt Maps.get
    rw [find_mapAll]
    cases Maps.find s.dies d with
    | none => exact .refl _
    | some x => exact h d x
  teams e he := ⟨e, he, rfl, rfl⟩

theorem cools_foldl {α : Type} {f : State → α → State} (h : ∀ s a, Cools d s (f s a)) : ∀ (as : List α) (s : State), Cools d s (as.foldl f s)
  | [], s => .refl _ s
  | a :: as, s => (h s a).trans (cools_foldl h as (f s a))

theorem cools_onMem (f : Mem → Mem) : Cools d s (onMem f s) := cools_of_eq rfl rfl

theorem cools_record (j : Nat) (r : FaultRec) : Cools d s (record j r s) :=
  cools_onDie (f := fun x => { x with frecs := x.frecs ++ [r] }) (fun _ => ⟨rfl, fun _ h => List.mem_append_left _ h⟩) j

theorem mem_frecs_record (r : FaultRec) : r ∈ (dieAt (record d r s) d).frecs := by
  unfold record dieAt
  rw [dies_onDie, Maps.get_set, if_pos rfl]
  exact List.mem_append_right _ (List.mem_singleton_self r)

theorem cools_setCtxField (c hi lo v : Nat) : Cools d s (setCtxField s c hi lo v) := by
  unfold setCtxField
  exact cools_onMem _

theorem cools_setFaulted (c : Nat) (r : Reason) : Cools d s (setFaulted c r s) := by
  unfold setFaulted
  dsimp only
  split
  · exact (cools_setCtxField _ _ _ _).trans (cools_setCtxField _ _ _ _)
  · exact cools_setCtxField _ _ _ _

theorem cools_sweepWaits (j : Nat) : Cools d s (sweepWaits j s) := by
  unfold sweepWaits
  refine cools_onDie (fun x => ?_) j
  exact warm_of_eq rfl rfl

theorem cools_endMoves (h : Nat) : Cools d s (endMoves h s) where
  die := by
    unfold endMoves
    dsimp only
    split <;> exact .refl _
  teams e he := by
    have hm : ∃ e' ∈ s.teams, e = (e'.1, match e'.2.evicting with
        | some (tsa, k) => if handleOf k = h then { e'.2 with evicting := some (tsa, noIssuer) } else e'.2
        | none => e'.2) := by
      unfold endMoves at he
      dsimp only at he
      split at he <;> obtain ⟨e', h1, h2⟩ := List.mem_map.mp he <;> exact ⟨e', h1, h2.symm⟩
    obtain ⟨e', h1, rfl⟩ := hm
    refine ⟨e', h1, rfl, ?_⟩
    dsimp only
    split
    · split <;> rfl
    · rfl

theorem cools_dropRequests (kill : Bool) (p : Nat → Bool) : Cools d s (dropRequests kill p s) := by
  unfold dropRequests
  dsimp only
  split <;> exact cools_of_eq rfl rfl

/-- A state without a team's posts, and with the teams that remain. -/
theorem cools_delTeam (h : Nat) {f : Nat → Die → Die} (hd : t.dies = Maps.mapAll s.dies f) (ht : t.teams = Maps.del s.teams h)
    (hf : ∀ k x, Warm x (f k x)) : Cools d s t where
  die := by
    unfold dieAt
    rw [hd]
    exact (cools_mapDies (s := s) (d := d) hf).die
  teams e he := ⟨e, Maps.mem_of_mem_del (by rwa [ht] at he), rfl, rfl⟩

/-- A die without the posts that a team's groups wait to make. -/
def withoutPosts (h : Nat) (x : Die) : Die := { x with posts := x.posts.filter fun p =>
  !(p.held && (match p.group with
    | some k => handleOf k == h
    | none => false)) }

theorem cools_dropTeam (h : Nat) : Cools d s (dropTeam true h s) := by
  unfold dropTeam
  dsimp only
  refine Cools.trans ?_ (cools_sweepWaits _)
  have hu : Cools d s (dropRequests true (fun k => handleOf k == h) (endMoves h s)) := (cools_endMoves h).trans (cools_dropRequests true _)
  revert hu
  generalize dropRequests true (fun k => handleOf k == h) (endMoves h s) = u
  exact fun hu => hu.trans (cools_delTeam h (f := fun _ => withoutPosts h) rfl rfl fun _ _ => warm_of_eq rfl rfl)

theorem teams_dropTeam (h : Nat) :
    (dropTeam true h s).teams = Maps.del (dropRequests true (fun k => handleOf k == h) (endMoves h s)).teams h := rfl

theorem warm_passMeshlets (slot : Nat) : ∀ (n : Nat) (x : Die), Warm x (passMeshlets slot n x)
  | 0, x => .refl x
  | n + 1, x => by
    unfold passMeshlets
    split
    · exact .refl x
    · split
      · exact .refl x
      · refine Warm.trans ?_ (warm_passMeshlets slot n _)
        exact warm_of_eq rfl rfl

theorem cools_meshEnds (lost : Bool) (x : Team) : Cools d s (meshEnds lost x s) := by
  unfold meshEnds
  split
  · refine cools_onDie (fun x => ?_) _
    refine Warm.trans ?_ (warm_passMeshlets _ _ _)
    exact warm_of_eq rfl rfl
  · exact .refl _ _

theorem cools_putCused (c h : Nat) : Cools d s (putCused c h s) := by
  refine cools_foldl (fun s r => ?_) _ s
  split
  · exact cools_onMem _
  · exact .refl _ _

theorem cools_setTlt (c h tsa st : Nat) (move : Bool) (gen core : Nat) : Cools d s (setTlt c h tsa st move gen core s) := by
  unfold setTlt
  exact cools_onMem _

theorem cools_freeHandle (c h : Nat) : Cools d s (freeHandle c h s) := by
  unfold freeHandle
  dsimp only
  split
  · refine (cools_setTlt _ _ _ _ _ _ _).trans (cools_onDie (fun x => ?_) _)
    exact warm_of_eq rfl rfl
  · refine (cools_setTlt _ _ _ _ _ _ _).trans (cools_onDie (fun x => ?_) _)
    exact warm_of_eq rfl rfl

theorem cools_launchLoses (j slot core : Nat) : Cools d s (launchLoses j slot core s) := by
  unfold launchLoses
  refine cools_onDie (fun x => ?_) _
  exact warm_of_eq rfl rfl

theorem not_mem_del {α : Type} {m : AMap α} {k : Nat} {e : Nat × α} (h : e ∈ Maps.del m k) : e.1 ≠ k := by
  have h1 := isSome_find_of_mem h
  rw [Maps.find_del] at h1
  rintro rfl
  simp at h1

theorem cools_killTeam (h : Nat) : Cools d s (killTeam h s) ∧ ∀ e ∈ (killTeam h s).teams, e.1 ≠ h := by
  unfold killTeam
  split
  · next hf =>
    refine ⟨.refl _ _, fun e he heq => ?_⟩
    have := isSome_find_of_mem he
    rw [heq, hf] at this
    cases this
  · next x hf =>
    dsimp only
    have h2 (t : State) : Cools d t (onDie x.die (fun d => { d with cards := Maps.modify d.cards x.slot fun c => { c with killed := true } })
        (meshEnds true x (launchLoses x.die x.slot x.core t))) := by
      refine ((cools_launchLoses _ _ _).trans (cools_meshEnds _ _)).trans (cools_onDie (fun y => ?_) _)
      exact warm_of_eq rfl rfl
    have h3 (t : State) : Cools d t (freeHandle x.ctx h (putCused x.ctx x.region t)) := (cools_putCused _ _).trans (cools_freeHandle _ _)
    refine ⟨((h2 s).trans (cools_dropTeam h)).trans (h3 _), fun e he => ?_⟩
    obtain ⟨e', he', h4, -⟩ := (h3 _).teams e he
    rw [← h4]
    rw [teams_dropTeam] at he'
    exact not_mem_del he'

/-- No team that `p` picked is left, and those left stand where they stood. -/
theorem cools_killTeams (p : Nat → Team → Bool) : Cools d s (killTeams p s) ∧ ∀ e ∈ (killTeams p s).teams, e.1 ∉ Maps.keys s.teams p := by
  unfold killTeams
  generalize Maps.keys s.teams p = ks
  induction ks generalizing s with
  | nil => exact ⟨.refl _ _, fun e _ h => nomatch h⟩
  | cons k ks ih =>
    obtain ⟨h1, h2⟩ := cools_killTeam (d := d) (s := s) k
    obtain ⟨h3, h4⟩ := ih (s := killTeam k s)
    refine ⟨h1.trans h3, fun e he hk => ?_⟩
    rcases List.mem_cons.mp hk with rfl | hk
    · obtain ⟨e', he', h5, -⟩ := h3.teams e he
      exact h2 e' he' h5
    · exact h4 e he hk

theorem cools_onGroup (k : Nat) (f : Group → Group) : Cools d s (onGroup k f s) := cools_of_eq rfl rfl

theorem cools_countLife (i : LifeItem) (n : Nat) : Cools d s (countLife i n s) := cools_of_eq rfl rfl

theorem cools_loseLaunches (j : Nat) : Cools d s (loseLaunches j s) := by
  refine cools_foldl (fun s e => ?_) _ s
  split
  · exact cools_record _ _
  · exact .refl _ _

theorem cools_freePost (j : Nat) (p : Post) : Cools d s (freePost j p s) := by
  unfold freePost
  dsimp only
  split
  · refine Cools.trans (cools_onDie (fun x => ?_) _) (cools_onGroup _ _)
    exact warm_of_eq rfl rfl
  · refine cools_onDie (fun x => ?_) _
    exact warm_of_eq rfl rfl

theorem cools_freePosters (j : Nat) : Cools d s (freePosters j s) := by
  refine cools_foldl (fun s p => ?_) _ s
  split
  · exact cools_freePost _ _
  · exact .refl _ _

theorem cools_dropCards (queued : Bool) (p : Nat → Card → Bool) : Cools d s (dropCards queued p s) :=
  cools_mapDies fun _ _ => warm_of_eq rfl rfl

theorem cools_dropMesh : Cools d s (dropMesh s) :=
  cools_mapDies fun _ _ => warm_of_eq rfl rfl

/-- The contexts named in turn are faulted, each with a record (R37). -/
def recordThermal (d : Nat) (cs : List Nat) (s : State) : State :=
  cs.foldl (fun s c => record d (unitRecord d .thermal c 0 0 d true) (setFaulted c .thermal s)) s

theorem cools_recordThermal (cs : List Nat) : Cools d s (recordThermal d cs s) :=
  cools_foldl (fun _ _ => (cools_setFaulted _ _).trans (cools_record _ _)) cs s

theorem recordThermal_cons (c : Nat) (cs : List Nat) :
    recordThermal d (c :: cs) s = recordThermal d cs (record d (unitRecord d .thermal c 0 0 d true) (setFaulted c .thermal s)) := List.foldl_cons ..

theorem mem_recordThermal {c : Nat} {cs : List Nat} (h : c ∈ cs) :
    unitRecord d .thermal c 0 0 d true ∈ (dieAt (recordThermal d cs s) d).frecs := by
  induction cs generalizing s with
  | nil => cases h
  | cons b cs ih =>
    rw [recordThermal_cons]
    rcases List.mem_cons.mp h with rfl | h
    · exact (cools_recordThermal cs).die.2 _ (mem_frecs_record _)
    · exact ih h

/-- What a die's hold goes through before the die is emptied. -/
def heldWork (d : Nat) (s : State) : State :=
  dropMesh (dropCards false (fun _ k => (dieContexts s d).contains k.ctx) (freePosters d (loseLaunches d (countLife (.thermalResets d) 1
    (recordThermal d (dieContexts s d) (killTeams (fun _ t => dieOfCore t.core == d) s))))))

theorem thermalHold_eq (d : Nat) (s : State) : thermalHold d s =
    onDie d emptyDie { heldWork d s with cores := (heldWork d s).cores.filter fun e => dieOfCore e.1 != d } := rfl

theorem cools_afterRecords (cs : List Nat) (i : LifeItem) : Cools d s (dropMesh (dropCards false (fun _ k => cs.contains k.ctx)
    (freePosters d (loseLaunches d (countLife i 1 s))))) :=
  (cools_countLife i 1).trans ((cools_loseLaunches d).trans ((cools_freePosters d).trans ((cools_dropCards false _).trans cools_dropMesh)))

end Sys2Proof.Machine

namespace Sys2Proof.Machine
open Claims
variable {s t u : State} {d : Nat}

/-- The work of a die ended: as warm as it was, no team of its own, and a THERMAL record for each context with work there. -/
theorem heldWork_leaves (d : Nat) (s : State) :
    (dieAt (heldWork d s) d).temp = (dieAt s d).temp ∧ (∀ e ∈ (heldWork d s).teams, dieOfCore e.2.core ≠ d) ∧
    ∀ c ∈ dieContexts s d, unitRecord d .thermal c 0 0 d true ∈ (dieAt (heldWork d s) d).frecs := by
  obtain ⟨hk, hnone⟩ := cools_killTeams (d := d) (s := s) fun _ t => dieOfCore t.core == d
  have hr := cools_recordThermal (d := d) (s := killTeams (fun _ t => dieOfCore t.core == d) s) (dieContexts s d)
  have ha := cools_afterRecords (d := d) (s := recordThermal d (dieContexts s d) (killTeams (fun _ t => dieOfCore t.core == d) s))
    (dieContexts s d) (.thermalResets d)
  refine ⟨((hk.trans hr).trans ha).die.1, fun e he heq => ?_, fun c hc => ha.die.2 _ (mem_recordThermal hc)⟩
  obtain ⟨e', he', h1, h2⟩ := (hr.trans ha).teams e he
  obtain ⟨e'', he'', h3, h4⟩ := hk.teams e' he'
  refine hnone e' he' (List.mem_map.mpr ⟨e'', List.mem_filter.mpr ⟨he'', ?_⟩, h3⟩)
  dsimp only
  rw [h4, h2, heq]
  exact beq_self_eq_true d

theorem mem_dieContexts {c : Nat} : c ∈ dieContexts s d ↔
    (∃ e ∈ s.teams, dieOfCore e.2.core = d ∧ e.2.ctx = c) ∨ ∃ e ∈ (dieAt s d).cards, e.2.ctx = c := by
  unfold dieContexts
  simp only [List.mem_eraseDups, List.mem_append, List.mem_map, List.mem_filter, beq_iff_eq, and_assoc]

/-- A THERMAL record of a context is on its way from the die. -/
theorem any_thermal {c : Nat} {rs : List FaultRec} (h : unitRecord d .thermal c 0 0 d true ∈ rs) :
    (rs.any fun r => r.reason == .thermal && r.ctx == c) = true :=
  List.any_eq_true.mpr ⟨_, h, by simp [unitRecord]⟩

/-- A die held in reset: empty, as warm as it was, without teams, and its contexts' records kept. -/
theorem thermalHold_leaves (d : Nat) (s : State) : ∃ x, dieAt (thermalHold d s) d = emptyDie x ∧ x.temp = (dieAt s d).temp ∧
    (∀ e ∈ (thermalHold d s).teams, dieOfCore e.2.core ≠ d) ∧ ∀ c ∈ dieContexts s d, unitRecord d .thermal c 0 0 d true ∈ x.frecs := by
  obtain ⟨htemp, hteams, hrecs⟩ := heldWork_leaves d s
  refine ⟨dieAt (heldWork d s) d, ?_, htemp, ?_, hrecs⟩
  · rw [thermalHold_eq]
    unfold dieAt
    rw [dies_onDie, Maps.get_set, if_pos rfl]
    rfl
  · rw [thermalHold_eq, teams_onDie]
    exact hteams

theorem dieAt_setTemp (temp : BitVec 8) : dieAt (setTemp d temp s) d = { dieAt s d with temp := temp } := by
  unfold setTemp dieAt
  rw [dies_onDie, Maps.get_set, if_pos rfl]
  rfl

theorem heatFacts_obeyed (i : Instr) : Obeys (exec i s) (heatFacts i s) := by
  unfold heatFacts
  split
  · rename_i d temp
    dsimp only
    refine obeys_single fun h => ?_
    simp only [Bool.and_eq_true, decide_eq_true_eq] at h
    obtain ⟨⟨ht, hr⟩, hh⟩ := h
    have he : exec (.thermalReset d temp) s = .next (thermalHold d.toNat (setTemp d.toNat temp s)) := if_pos ⟨ht, hr, hh⟩
    refine ⟨_, he, ?_⟩
    obtain ⟨x, hx, htemp, hteams, hrecs⟩ := thermalHold_leaves d.toNat (setTemp d.toNat temp s)
    rw [dieAt_setTemp] at htemp
    have hctx : ∀ c ∈ dieContexts s d.toNat, unitRecord d.toNat .thermal c 0 0 d.toNat true ∈ x.frecs := by
      intro c hc
      refine hrecs c (mem_dieContexts.mpr ?_)
      rw [dieAt_setTemp]
      exact mem_dieContexts.mp hc
    dsimp only
    rw [hx]
    simp only [emptyDie, htemp, Bool.and_eq_true, List.all_eq_true, bne_iff_ne, Bool.or_eq_true, List.isEmpty_nil, Bool.true_and, beq_self_eq_true,
      decide_true, and_self]
    refine ⟨⟨hteams, fun e he => ?_⟩, fun e he => ⟨.inr (List.any_eq_true.mpr ⟨e, he, beq_self_eq_true _⟩), ?_⟩⟩
    · by_cases hd : dieOfCore e.2.core = d.toNat
      · exact .inr (any_thermal (hctx _ (mem_dieContexts.mpr (.inl ⟨e, he, hd, rfl⟩))))
      · exact .inl hd
    · exact any_thermal (hctx _ (mem_dieContexts.mpr (.inr ⟨e, he, rfl⟩)))
  · exact obeys_nil

/-! The token count of a hot die (R37, R38). -/

theorem length_tokens_pos {x : Die} (h : x.tokens.isEmpty = false) : 1 - x.tokens.length = 0 := by
  have := List.length_pos_iff.mpr (List.isEmpty_eq_false_iff.mp h)
  omega

/-- A count that is asked for where as many tokens are there, and where more are to be let in (R176). -/
theorem writeEmbctl_enough {w : Word} (hw : ¬ (w.toNat % 8 = 0 ∨ w.toNat % 8 = 7)) (hm : w.toNat % 8 - (dieAt s d).tokens.length = 0) :
    writeEmbctl d w s = onDie d (fun x => { x with embTcnt := BitVec.ofNat 3 (w.toNat % 8) }) s := by
  unfold writeEmbctl
  dsimp only
  rw [if_neg hw, if_pos hm, hm]
  refine onDie_congr ?_
  simp only [List.replicate_zero, List.append_nil]

theorem writeEmbctl_more {w : Word} (hw : ¬ (w.toNat % 8 = 0 ∨ w.toNat % 8 = 7)) (hm : ¬ w.toNat % 8 - (dieAt s d).tokens.length = 0) :
    writeEmbctl d w s = onDie d (fun x => { x with
      embTcnt := BitVec.ofNat 3 (w.toNat % 8)
      tokens := x.tokens ++ List.replicate (w.toNat % 8 - (dieAt s d).tokens.length)
        { cluster := 0, arrives := some (s.clock + 1 + Config.freeNat s.draws % 16) } }) { s with draws := s.draws + 1 } := by
  unfold writeEmbctl
  dsimp only
  rw [if_neg hw, if_neg hm]
  rfl

theorem dieAt_onDie_same (f : Die → Die) : dieAt (onDie d f s) d = f (dieAt s d) := by
  unfold dieAt
  rw [dies_onDie, Maps.get_set, if_pos rfl]
  rfl

theorem throttle_setTemp (temp : BitVec 8) (hs : (dieAt s d).tokenSave.isNone = true) (ht : (dieAt s d).tokens.isEmpty = false) :
    throttle d (setTemp d temp s) = onDie d (fun x => { x with temp := temp, tokenSave := some x.embTcnt, embTcnt := 1 }) s := by
  unfold throttle
  rw [dieAt_setTemp]
  unfold setTemp
  dsimp only
  rw [onDie_onDie, writeEmbctl_enough (by decide) (by rw [dieAt_onDie_same]; exact length_tokens_pos ht), onDie_onDie]
  refine onDie_congr ?_
  rw [Option.isNone_iff_eq_none.mp hs]
  rfl

/-- The count that is restored (R37, R38). -/
theorem restored_toNat {n : BitVec 3} (h1 : 1 ≤ n.toNat) (h6 : n.toNat ≤ 6) :
    (n.setWidth 32).toNat % 8 = n.toNat ∧ ¬ ((n.setWidth 32).toNat % 8 = 0 ∨ (n.setWidth 32).toNat % 8 = 7) := by
  have h : (n.setWidth 32).toNat % 8 = n.toNat := by
    rw [BitVec.toNat_setWidth]
    omega
  exact ⟨h, by omega⟩

theorem thermalTokenRestore_answers (d : BitVec 3) (temp : BitVec 8) {n : BitVec 3} (hn : (dieAt s d.toNat).tokenSave = some n)
    (ht : temp.toNat < 95) (hh : (dieAt s d.toNat).heldReset = false) :
    exec (.thermalTokenRestore d temp) s = .next (writeEmbctl d.toNat (n.setWidth 32)
      (onDie d.toNat (fun x => { x with temp := temp, tokenSave := none }) s)) := by
  have he : exec (.thermalTokenRestore d temp) s = execThermalTokenRestore d temp s := rfl
  rw [he]
  unfold execThermalTokenRestore
  rw [hn]
  dsimp only
  rw [if_pos ⟨ht, by rw [hh]; rfl⟩]
  unfold setTemp
  rw [onDie_onDie]

theorem heatCases_answered (i : Instr) : Answers (exec i s) (heatCases i s) := by
  unfold heatCases
  split
  · rename_i d temp
    refine answers_single fun h => ?_
    simp only [Bool.and_eq_true, decide_eq_true_eq, Bool.not_eq_true'] at h
    obtain ⟨⟨⟨ht, hs⟩, hh⟩, hk⟩ := h
    have he : exec (.thermalThrottle d temp) s = .next (throttle d.toNat (setTemp d.toNat temp s)) := if_pos ⟨ht, hs, by rw [hh]; rfl⟩
    rw [he, throttle_setTemp temp hs hk]
  · rename_i d temp
    dsimp only
    split
    · exact answers_nil
    · rename_i n hn
      have hlen : (dieAt (onDie d.toNat (fun x => { x with temp := temp, tokenSave := none }) s) d.toNat).tokens = (dieAt s d.toNat).tokens := by
        rw [dieAt_onDie_same]
      refine answers_cons.mpr ⟨fun h => ?_, answers_single fun h => ?_⟩
      · simp only [Bool.and_eq_true, decide_eq_true_eq, Bool.not_eq_true', beq_iff_eq] at h
        obtain ⟨⟨⟨ht, hh⟩, h1, h6⟩, hm⟩ := h
        obtain ⟨hw, hok⟩ := restored_toNat h1 h6
        rw [thermalTokenRestore_answers d temp hn ht hh, writeEmbctl_enough hok (by rw [hw, hlen]; exact hm), onDie_onDie, hw, BitVec.ofNat_toNat,
          BitVec.setWidth_eq]
      · simp only [Bool.and_eq_true, decide_eq_true_eq, Bool.not_eq_true', bne_iff_ne] at h
        obtain ⟨⟨⟨ht, hh⟩, h1, h6⟩, hm⟩ := h
        obtain ⟨hw, hok⟩ := restored_toNat h1 h6
        rw [thermalTokenRestore_answers d temp hn ht hh, writeEmbctl_more hok (by rw [hw, hlen]; exact hm), hw, hlen, BitVec.ofNat_toNat,
          BitVec.setWidth_eq, clock_onDie, draws_onDie]
        exact congrArg _ (onDie_onDie (s := { s with draws := s.draws + 1 }) d.toNat (fun x => { x with temp := temp, tokenSave := none }) _)
  · exact answers_nil

/-- Settles O47: each step of a group, a token or a die's heat, by the case of its table. -/
theorem groupAndThermalSteps : Obligations.GroupAndThermalSteps :=
  ⟨stepHolds_iff.mpr fun i _ => groupCases_answered i, factHolds_iff.mpr fun i _ => reallocFacts_obeyed i,
    stepHolds_iff.mpr fun i _ => heatCases_answered i, factHolds_iff.mpr fun i _ => heatFacts_obeyed i⟩

end Sys2Proof.Machine

namespace Sys2Proof.Machine
open Claims
variable {s : State}

/-! Rings written for software (R68, R269). -/

theorem queue_there {m : Mem} {base : Nat} :
    (base = 0 ∨ (domainOf m base).isNone = true) ↔ ¬ (decide (base ≠ 0) && (domainOf m base).isSome) = true := by
  rw [Bool.and_eq_true, decide_eq_true_eq]
  cases domainOf m base <;> simp

/-- A record into the queue of its domain, by the ring's state. -/
theorem writeRecord_eq (r : FaultRec) (seq : Word) (u : State) (base log cc irq : Nat) (hq : queueOf u r = (base, log, cc, irq)) :
    writeRecord r seq u = if base = 0 ∨ (domainOf u.mem base).isNone = true then u
      else if (ringPut base log (recordBytes r seq) u.mem).2 then raiseMsi cc irq { u with mem := (ringPut base log (recordBytes r seq) u.mem).1 }
      else { u with mem := (ringPut base log (recordBytes r seq) u.mem).1 } := by
  unfold writeRecord
  rw [hq]

theorem ringPut_full {base log : Nat} {rec_ : List Byte} {m : Mem}
    (h : (natAt m base 4 + 1) % (2 ^ (log + 6) - 1) = natAt m (base + 4) 4 % (2 ^ (log + 6) - 1)) :
    ringPut base log rec_ m = (putNat m (base + 8) 4 (min 0xFFFFFFFF (natAt m (base + 8) 4 + 1)), false) := by
  unfold ringPut
  exact if_pos h

theorem ringPut_room {base log : Nat} {rec_ : List Byte} {m : Mem}
    (h : ¬ (natAt m base 4 + 1) % (2 ^ (log + 6) - 1) = natAt m (base + 4) 4 % (2 ^ (log + 6) - 1)) :
    ringPut base log rec_ m = (putNat (storeReach m (base + 64 * (natAt m base 4 + 1)) rec_) base 4 ((natAt m base 4 + 1) % (2 ^ (log + 6) - 1)),
      decide (natAt m base 4 = natAt m (base + 4) 4 % (2 ^ (log + 6) - 1))) := by
  unfold ringPut
  exact if_neg h

theorem onMem_eq (f : Mem → Mem) (u : State) : onMem f u = { u with mem := f u.mem } := rfl

/-- What a queue's ring gives a record: its counts, at a full one; the record, at one with room; nothing where there is none. -/
theorem writeRecord_answers {r : FaultRec} {u : State} {base log cc irq : Nat} (hq : queueOf u r = (base, log, cc, irq)) (seq : Word) {o : Out}
    (ho : o = .next (writeRecord r seq u)) :
    let there : Bool := decide (base ≠ 0) && (domainOf u.mem base).isSome
    let cap := 2 ^ (log + 6) - 1
    let w := natAt u.mem base 4
    let rd := natAt u.mem (base + 4) 4 % cap
    let full : Bool := decide ((w + 1) % cap = rd)
    let put := onMem (fun m => putNat (storeReach m (base + 64 * (w + 1)) (recordBytes r seq)) base 4 ((w + 1) % cap)) u
    Answers o [{ ok := !there, after := u },
      { ok := there && full, after := onMem (fun m => putNat m (base + 8) 4 (min 0xFFFFFFFF (natAt m (base + 8) 4 + 1))) u },
      { ok := there && !full && decide (w = rd), after := raiseMsi cc irq put },
      { ok := there && !full && decide (w ≠ rd), after := put }] := by
  intro there cap w rd full put
  rw [ho, writeRecord_eq r seq u base log cc irq hq]
  simp only [answers_cons, answers_nil, and_true]
  refine ⟨fun h => ?_, fun h => ?_, fun h => ?_, fun h => ?_⟩
  · rw [if_pos (queue_there.mpr (by rw [Bool.not_eq_true'] at h; exact fun ht => Bool.false_ne_true (h.symm.trans ht)))]
  · obtain ⟨ht, hf⟩ := Bool.and_eq_true_iff.mp h
    rw [if_neg (fun hn => queue_there.mp hn ht), ringPut_full (of_decide_eq_true hf), onMem_eq]
    rfl
  · obtain ⟨h, hw⟩ := Bool.and_eq_true_iff.mp h
    obtain ⟨ht, hf⟩ := Bool.and_eq_true_iff.mp h
    rw [Bool.not_eq_true'] at hf
    rw [if_neg (fun hn => queue_there.mp hn ht), ringPut_room (of_decide_eq_false hf)]
    dsimp only
    rw [if_pos hw]
    rfl
  · obtain ⟨h, hw⟩ := Bool.and_eq_true_iff.mp h
    obtain ⟨ht, hf⟩ := Bool.and_eq_true_iff.mp h
    rw [Bool.not_eq_true'] at hf
    rw [if_neg (fun hn => queue_there.mp hn ht), ringPut_room (of_decide_eq_false hf)]
    dsimp only
    rw [if_neg (fun hn => of_decide_eq_true hw (of_decide_eq_true hn))]
    rfl

theorem faultRing_answers (d : BitVec 4) : Answers (exec (.faultRecordWrite d) s) (faultRingCases d.toNat s) := by
  unfold faultRingCases
  split
  · exact answers_nil
  · rename_i r rest hf
    have he : exec (.faultRecordWrite d) s = .next (writeRecord r (dieAt s d.toNat).fseq
        (onDie d.toNat (fun x => { x with frecs := rest, fseq := x.fseq + 1 }) s)) := by
      have hx : exec (.faultRecordWrite d) s = execFaultRecordWrite d s := rfl
      rw [hx]
      unfold execFaultRecordWrite nextRecord
      rw [hf]
      rfl
    obtain ⟨⟨base, log, cc, irq⟩, hq⟩ : ∃ q, queueOf (onDie d.toNat (fun x => { x with frecs := rest, fseq := x.fseq + 1 }) s) r = q := ⟨_, rfl⟩
    have h := writeRecord_answers hq _ he
    dsimp only
    rw [hq]
    exact h

/-! Flue records (R268, R269). -/

theorem flueRing_answers (d : BitVec 3) : Answers (exec (.flueRecordWrite d) s) (flueRingCases d.toNat s) := by
  unfold flueRingCases
  split
  · exact answers_nil
  · rename_i r rest hf
    have he : exec (.flueRecordWrite d) s = .next (writeFlue d.toNat r (onDie d.toNat (fun x => { x with flues := rest }) s)) := by
      have hx : exec (.flueRecordWrite d) s = execFlueRecordWrite d s := rfl
      rw [hx]
      unfold execFlueRecordWrite
      rw [hf]
    dsimp only
    have hm : (onDie d.toNat (fun x => { x with flues := rest }) s).mem = s.mem := rfl
    rw [he]
    revert hm
    generalize onDie d.toNat (fun x => { x with flues := rest }) s = u
    intro hm
    rw [← hm]
    simp only [answers_cons, answers_nil, and_true]
    unfold writeFlue
    dsimp only
    refine ⟨fun h => ?_, fun h => ?_, fun h => ?_⟩
    · split
      · rfl
      · next hu =>
        rw [Bool.not_eq_true, Bool.not_eq_false'] at hu
        rw [hu, Bool.not_true, Bool.false_or] at h
        rw [if_pos (of_decide_eq_true h)]
    · obtain ⟨h, hw⟩ := Bool.and_eq_true_iff.mp h
      obtain ⟨hu, hf⟩ := Bool.and_eq_true_iff.mp h
      rw [Bool.not_eq_true'] at hf
      rw [if_neg (by rw [hu]; exact Bool.false_ne_true), if_neg (of_decide_eq_false hf), if_pos (of_decide_eq_true hw)]
    · obtain ⟨h, hw⟩ := Bool.and_eq_true_iff.mp h
      obtain ⟨hu, hf⟩ := Bool.and_eq_true_iff.mp h
      rw [Bool.not_eq_true'] at hf
      rw [if_neg (by rw [hu]; exact Bool.false_ne_true), if_neg (of_decide_eq_false hf), if_neg (of_decide_eq_true hw)]

end Sys2Proof.Machine

namespace Sys2Proof.Machine
open Claims
variable {s : State}

/-! Residency caches (R262). -/

/-- Two changes of a core that agree on it as it stands are one change. -/
theorem onCore_congr {n : Nat} {f g : Core → Core} (h : f (coreAt s n) = g (coreAt s n)) : onCore n f s = onCore n g s := by
  unfold onCore; rw [h]

theorem invalidate_head {c w k : Nat} {e : Nat × Nat} {rest : List (Nat × Nat)} (hr : (coreAt s c).resInval = e :: rest) :
    invalidate c w 0 k s = onGroup k (fun g => { g with resWait := g.resWait ++ Maps.keys s.mem.net fun _ r => r.core == c && r.words.contains w })
      (onCore c (fun c => { c with resInval := rest, resCache := Maps.del c.resCache w }) s) := by
  unfold invalidate
  dsimp only
  rw [onCore_congr (g := fun c => { c with resInval := rest, resCache := Maps.del c.resCache w })]
  rw [hr]
  rfl

theorem residencyInvalidation_answers (c w : Nat) : Answers (exec (.residencyInvalidation c w) s) (residencyCases c w s) := by
  unfold residencyCases
  split
  · rename_i v k rest hr
    refine answers_single fun h => ?_
    have hx : exec (.residencyInvalidation c w) s = execResidencyInvalidation c w s := rfl
    have hf : (coreAt s c).resInval.findIdx? (fun e => e.1 == w) = some 0 := by
      rw [hr, List.findIdx?_cons]
      exact if_pos h
    rw [hx]
    unfold execResidencyInvalidation
    dsimp only
    rw [hf]
    dsimp only
    rw [hr, invalidate_head hr]
    rfl
  · exact answers_nil

/-! Snapshots (R55 to R57). -/

/-- The count of misses stops at 255 (R57). -/
theorem missed_next {m : BitVec 8} (h : m.toNat < 255) : BitVec.ofNat 8 (min 255 (m.toNat + 1)) = m + 1 := by
  rw [Nat.min_eq_right (by omega)]
  exact BitVec.eq_of_toNat_eq (by rw [BitVec.toNat_ofNat, BitVec.toNat_add]; rfl)

theorem missed_last {m : BitVec 8} (h : m = 255) : BitVec.ofNat 8 (min 255 (m.toNat + 1)) = m := by rw [h]; rfl

theorem snapshotLatch_answers (d : BitVec 4) : Answers (exec (.snapshotLatch d) s) (latchCases d.toNat s) := by
  have hx : exec (.snapshotLatch d) s = execSnapshotLatch d s := rfl
  unfold latchCases
  dsimp only
  split
  · exact answers_nil
  · rename_i q c rest hd
    have hn : ¬ (Maps.get {} s.io.snaps d.toNat).due.isEmpty = true := by rw [hd]; exact Bool.false_ne_true
    rw [hx]
    unfold execSnapshotLatch latchSnap
    rw [if_neg hn]
    dsimp only
    rw [hd]
    dsimp only
    simp only [answers_cons, answers_nil, and_true]
    refine ⟨fun h => ?_, fun h => ?_, fun h => ?_⟩
    · obtain ⟨hk, hm⟩ := Bool.and_eq_true_iff.mp h
      rw [if_pos hk, missed_next (of_decide_eq_true hm)]
    · obtain ⟨hk, hm⟩ := Bool.and_eq_true_iff.mp h
      rw [if_pos hk, missed_last (eq_of_beq hm)]
    · rw [Bool.not_eq_true'] at h
      rw [if_neg (by rw [h]; exact Bool.false_ne_true)]

/-! Flits received (R22, R26). -/

theorem flitOk_eq (h : Dword) (beats : List Byte) : flitOk h beats =
    (decide (beats.length = 16 * bitsN h.toNat 19 16) && crc32c (Maps.natLe (h.toNat % 2 ^ 32) 4 ++ beats) == h.toNat / 2 ^ 32 &&
      (if bitsN h.toNat 19 16 = 0 then bitsN h.toNat 15 14 == 0 else
        bitsN h.toNat 19 16 == ((expand (bitsN h.toNat 15 14) beats).2 + 15) / 16)) := by
  have hd : bitsN h.toNat 63 32 = h.toNat / 2 ^ 32 := by
    have := h.isLt
    unfold bitsN
    omega
  unfold flitOk
  dsimp only
  rw [hd]
  rfl

/-- The number that follows the latest one received (R22). -/
theorem nextSeq_iff (k : Link) (v : Nat) : BitVec.ofNat 12 v = (if k.rxAny then k.rxSeq + 1 else 0) ↔
    (v % 4096 == (if k.rxAny then (k.rxSeq.toNat + 1) % 4096 else 0)) = true := by
  rw [beq_iff_eq, ← BitVec.toNat_inj, BitVec.toNat_ofNat]
  split
  · rw [BitVec.toNat_add]; rfl
  · rfl

theorem receive_cases (h : Dword) (beats : List Byte) (k : Link) :
    receive h beats k =
      if flitOk h beats = false then { k with
        window := k.window + 1, ackDue := true, retryAt := (k.retryAt ++ [k.window + 1]).drop (k.retryAt.length - 8) }
      else if bitsN h.toNat 19 16 = 0 then { k with window := k.window + 1, replay := ackFlits (bitsN h.toNat 31 20) k.replay }
      else if BitVec.ofNat 12 h.toNat = (if k.rxAny then k.rxSeq + 1 else 0) then { k with
        window := k.window + 1, replay := ackFlits (bitsN h.toNat 31 20) k.replay, rxSeq := BitVec.ofNat 12 h.toNat, rxAny := true, ackDue := true
        received := k.received ++ [(BitVec.ofNat 2 (bitsN h.toNat 13 12), (expand (bitsN h.toNat 15 14) beats).1)] }
      else { k with window := k.window + 1, replay := ackFlits (bitsN h.toNat 31 20) k.replay, ackDue := true } := by
  unfold receive failFlit countRetry
  dsimp only
  cases flitOk h beats
  · rfl
  · simp only [Bool.not_true, Bool.false_eq_true, if_false, Bool.true_eq_false, ne_eq, ite_not]

theorem flitReceive_answers (l : LinkId) (h : Dword) (beats : List Byte) :
    Answers (exec (.flitReceive l h beats) s) (receiveCases l h beats s) := by
  have hx : exec (.flitReceive l h beats) s = execFlitReceive l h beats s := rfl
  have he (hc : carriesNow (linkOf s l) = true) : exec (.flitReceive l h beats) s =
      .next (servePort l (setLink l (receive h beats (linkOf s l)) s)) := by
    rw [hx]
    unfold execFlitReceive
    exact if_pos (carries_of_carriesNow hc)
  unfold receiveCases
  dsimp only
  rw [← flitOk_eq]
  simp only [answers_cons, answers_nil, and_true]
  refine ⟨fun hk => ?_, fun hk => ?_, fun hk => ?_, fun hk => ?_⟩
  · obtain ⟨hc, hf⟩ := Bool.and_eq_true_iff.mp hk
    rw [Bool.not_eq_true'] at hf
    rw [he hc, receive_cases, if_pos hf]
  · obtain ⟨hk, hn⟩ := Bool.and_eq_true_iff.mp hk
    obtain ⟨hc, hf⟩ := Bool.and_eq_true_iff.mp hk
    rw [he hc, receive_cases, if_neg (by rw [hf]; decide), if_pos (eq_of_beq hn)]
  · obtain ⟨hk, hs⟩ := Bool.and_eq_true_iff.mp hk
    obtain ⟨hk, hn⟩ := Bool.and_eq_true_iff.mp hk
    obtain ⟨hc, hf⟩ := Bool.and_eq_true_iff.mp hk
    rw [Bool.not_eq_true'] at hs
    rw [he hc, receive_cases, if_neg (by rw [hf]; decide), if_neg (bne_iff_ne.mp hn),
      if_neg (fun hq => Bool.false_ne_true (hs.symm.trans ((nextSeq_iff _ _).mp hq)))]
  · obtain ⟨hk, hs⟩ := Bool.and_eq_true_iff.mp hk
    obtain ⟨hk, hn⟩ := Bool.and_eq_true_iff.mp hk
    obtain ⟨hc, hf⟩ := Bool.and_eq_true_iff.mp hk
    rw [he hc, receive_cases, if_neg (by rw [hf]; decide), if_neg (bne_iff_ne.mp hn), if_pos ((nextSeq_iff _ _).mpr hs)]

/-! Retraining (R31, R32). -/

theorem beginRetrain_eq (l : LinkId) (n : Nat) : beginRetrain l n s = match lifeLink l with
    | some i => countLife (.retrains i) 1 (setLink l { linkOf s l with
        st := .retraining n, retrains := (linkOf s l).retrains + 1, since := s.clock } s)
    | none => setLink l { linkOf s l with st := .retraining n, retrains := (linkOf s l).retrains + 1, since := s.clock } s := rfl

theorem retrain_answers (i : Instr) : Answers (exec i s) (retrainCases i s) := by
  unfold retrainCases
  split
  · rename_i l
    refine answers_single fun h => ?_
    have hd : retrainDue (linkOf s l) = true := h
    have he : exec (.linkRetrain l) s = .next (beginRetrain l 0 s) := if_pos hd
    exact he.trans (congrArg (fun t => (.next t : Out)) (beginRetrain_eq l 0))
  · rename_i l
    dsimp only
    split
    · rename_i n hn
      refine answers_single fun h => ?_
      have hx : exec (.retrainComplete l) s = execRetrainComplete l s := rfl
      rw [hx]
      unfold execRetrainComplete
      dsimp only
      rw [hn]
      exact if_pos (of_decide_eq_true h)
    · exact answers_nil
  · rename_i l
    dsimp only
    have hx : exec (.retrainingAttemptFailure l) s = execRetrainingAttemptFailure l s := rfl
    split
    · rename_i n hn
      rw [hx]
      unfold execRetrainingAttemptFailure
      rw [hn]
      dsimp only
      refine answers_cons.mpr ⟨fun h => ?_, answers_single fun h => ?_⟩
      · exact (if_pos (of_decide_eq_true h)).trans (congrArg (fun t => (.next t : Out)) (beginRetrain_eq l (n + 1)))
      · have h3 : n = 3 := eq_of_beq h
        rw [if_neg (by omega), if_pos h3]
    · exact answers_nil
  · exact answers_nil

end Sys2Proof.Machine

namespace Sys2Proof.Machine
open Claims
variable {s : State}

/-! Notices, windows and measurement. -/

theorem replacementNotice_answers (h : Nat) : Answers (exec (.replacementNotice h) s) (noticeCases h s) := by
  have hx : exec (.replacementNotice h) s = execReplacementNotice h s := rfl
  unfold noticeCases
  split
  · rename_i j gen hf
    refine answers_single fun _ => ?_
    have hj : j = h := eq_of_beq (List.find?_some (p := fun n : Nat × Nat => n.1 == h) hf)
    have ht : (fun t : Team => if t.gen = gen then { t with noticed := true } else t) =
        fun t => { t with noticed := t.noticed || t.gen == gen } := by
      funext t
      by_cases hg : t.gen = gen
      · rw [if_pos hg, beq_iff_eq.mpr hg, Bool.or_true]
      · rw [if_neg hg, beq_eq_false_iff_ne.mpr hg, Bool.or_false]
    rw [hx]
    unfold execReplacementNotice
    rw [hf]
    dsimp only
    rw [ht, hj]
  · exact answers_nil

theorem pcieWindow_answers (i : Nat) (ok : Bool) (v : Dword) : Answers (exec (.pcieWindowCompletion i ok v) s) (windowCases i ok v s) := by
  have hx : exec (.pcieWindowCompletion i ok v) s = execPcieWindowCompletion i ok v s := rfl
  unfold windowCases
  split
  · exact answers_nil
  · rename_i r hr
    have he (h : (r.space == .pcie && r.st == .flying) = true) : exec (.pcieWindowCompletion i ok v) s = .next
        (onReq i (fun r => if ok then { r with st := .done, val := BitVec.ofNat 128 (v.toNat % 2 ^ (8 * r.size)) }
          else { r with st := .failed .nophys }) s) := by
      rw [hx]
      unfold execPcieWindowCompletion
      rw [hr]
      simp only [Bool.and_eq_true, beq_iff_eq] at h
      exact if_pos h
    refine answers_cons.mpr ⟨fun h => ?_, answers_single fun h => ?_⟩
    · obtain ⟨hd, hok⟩ := Bool.and_eq_true_iff.mp h
      rw [he hd, hok]
      rfl
    · obtain ⟨hd, hok⟩ := Bool.and_eq_true_iff.mp h
      rw [Bool.not_eq_true'] at hok
      rw [he hd, hok]
      rfl

theorem measureComponent_answers (c : BitVec 16) (bs : List Byte) : Answers (exec (.measureComponent c bs) s) (measureCases c bs s) := by
  refine answers_single fun h => ?_
  have he : exec (.measureComponent c bs) s = .next (measure c bs s) := if_pos (eq_of_beq h)
  rw [he]
  rfl

/-! Endpoints' requests (R34). -/

theorem dmaRequest_exec {p : BitVec 2} {r : BitVec 16} {w : Bool} {a : Dword} {n : Nat} {bs : List Byte}
    (h : (decide (0 < n ∧ n ≤ 4096) && (!w || decide (bs.length = n)) && s.boot.phase == .running && !inputHeld s (248 + p.toNat)) = true) :
    exec (.dmaRequest p r w a n bs) s = .next (dmaServe p.toNat r.toNat w a n bs s) := by
  have hx : exec (.dmaRequest p r w a n bs) s = execDmaRequest p r w a n bs s := rfl
  simp only [Bool.and_eq_true, decide_eq_true_eq, beq_iff_eq] at h
  obtain ⟨⟨⟨⟨h0, hn⟩, hw⟩, hr⟩, hh⟩ := h
  rw [hx]
  exact if_pos ⟨h0, hn, hw, hr, hh⟩

theorem dmaServe_denied {p r : Nat} {w : Bool} {a : Dword} {n : Nat} {bs : List Byte} (h : dmaAllowed s (dmaEntry s p r) w = false) :
    dmaServe p r w a n bs s = dmaFail p r w a (dmaEntry s p r) s := by
  unfold dmaServe
  dsimp only
  rw [h]
  rfl

/-- A request within one page. -/
theorem dmaServe_part {p r : Nat} {w : Bool} {a : Dword} {n k : Nat} {bs : List Byte} {x : DmaPart}
    (h : dmaAllowed s (dmaEntry s p r) w = true) (hp : dmaParts s p (bitsN (dmaEntry s p r) 63 52) a n w = [(x, k)]) :
    dmaServe p r w a n bs s = if x = .fails then dmaFail p r w a (dmaEntry s p r) s
      else if w then dmaWritePart p (8 + p / 2) (bitsN (dmaEntry s p r) 63 52) (x, k) (bs.take k) s
      else dmaAnswer p (dmaReadPart p (8 + p / 2) (bitsN (dmaEntry s p r) 63 52) (x, k) s).1
        (dmaReadPart p (8 + p / 2) (bitsN (dmaEntry s p r) 63 52) (x, k) s).2 := by
  unfold dmaServe
  dsimp only
  rw [h, hp]
  simp only [Bool.not_true, Bool.false_eq_true, if_false, List.any_cons, List.any_nil, Bool.or_false, beq_iff_eq, dmaWriteAll, dmaReadAll,
    List.append_nil]

theorem dmaFail_write {p r e : Nat} {a : Dword} : dmaFail p r true a e s =
    record (8 + p / 2) (unitRecord (8 + p / 2) .dmafault (if bitN e 0 then bitsN e 63 52 else 0) 0 a r true) s := rfl

theorem dmaFail_read {p r e : Nat} {a : Dword} : dmaFail p r false a e s =
    dmaAnswer p [] (record (8 + p / 2) (unitRecord (8 + p / 2) .dmafault (if bitN e 0 then bitsN e 63 52 else 0) 0 a r true) s) := rfl

/-- May a DMA request be made, and has its entry the permission (R34)? -/
def dmaHere (s : State) (p : Nat) (w : Bool) (n : Nat) (bs : List Byte) : Bool :=
  decide (0 < n ∧ n ≤ 4096) && (!w || decide (bs.length = n)) && s.boot.phase == .running && !inputHeld s (248 + p)

/-- A request whose entry does not allow it. -/
theorem dmaDenied_answers (p : BitVec 2) (r : BitVec 16) (w : Bool) (a : Dword) (n : Nat) (bs : List Byte) {fails : State}
    (hf : fails = record (8 + p.toNat / 2) (unitRecord (8 + p.toNat / 2) .dmafault
      (if bitN (dmaEntry s p.toNat r.toNat) 0 then bitsN (dmaEntry s p.toNat r.toNat) 63 52 else 0) 0 a r.toNat true) s) :
    Answers (exec (.dmaRequest p r w a n bs) s)
      [{ ok := dmaHere s p.toNat w n bs && !dmaAllowed s (dmaEntry s p.toNat r.toNat) w && w, after := fails },
       { ok := dmaHere s p.toNat w n bs && !dmaAllowed s (dmaEntry s p.toNat r.toNat) w && !w, after := dmaAnswer p.toNat [] fails }] := by
  subst hf
  refine answers_cons.mpr ⟨fun h => ?_, answers_single fun h => ?_⟩
  · obtain ⟨h, hw⟩ := Bool.and_eq_true_iff.mp h
    obtain ⟨hh, ha⟩ := Bool.and_eq_true_iff.mp h
    rw [Bool.not_eq_true'] at ha
    rw [dmaRequest_exec hh, dmaServe_denied ha, hw, dmaFail_write]
  · obtain ⟨h, hw⟩ := Bool.and_eq_true_iff.mp h
    obtain ⟨hh, ha⟩ := Bool.and_eq_true_iff.mp h
    rw [Bool.not_eq_true'] at ha hw
    rw [dmaRequest_exec hh, dmaServe_denied ha, hw, dmaFail_read]

/-- A request within one page that is allowed. -/
theorem dmaRequest_part {p : BitVec 2} {r : BitVec 16} {w : Bool} {a : Dword} {n k : Nat} {bs : List Byte} {x : DmaPart}
    (hp : dmaParts s p.toNat (bitsN (dmaEntry s p.toNat r.toNat) 63 52) a n w = [(x, k)])
    (h : (dmaHere s p.toNat w n bs && dmaAllowed s (dmaEntry s p.toNat r.toNat) w) = true) :
    exec (.dmaRequest p r w a n bs) s = .next (if x = .fails then dmaFail p.toNat r.toNat w a (dmaEntry s p.toNat r.toNat) s
      else if w then dmaWritePart p.toNat (8 + p.toNat / 2) (bitsN (dmaEntry s p.toNat r.toNat) 63 52) (x, k) (bs.take k) s
      else dmaAnswer p.toNat (dmaReadPart p.toNat (8 + p.toNat / 2) (bitsN (dmaEntry s p.toNat r.toNat) 63 52) (x, k) s).1
        (dmaReadPart p.toNat (8 + p.toNat / 2) (bitsN (dmaEntry s p.toNat r.toNat) 63 52) (x, k) s).2) := by
  obtain ⟨hh, ha⟩ := Bool.and_eq_true_iff.mp h
  rw [dmaRequest_exec hh, dmaServe_part ha hp]

/-- The bytes of a write are as many as it says. -/
theorem take_of_dmaHere {p n : Nat} {bs : List Byte} (h : dmaHere s p true n bs = true) : bs.take n = bs ∧ bs.length = n := by
  have hl : bs.length = n := by
    simp only [dmaHere, Bool.and_eq_true, Bool.not_true, Bool.false_or, decide_eq_true_eq] at h
    obtain ⟨⟨⟨-, hl⟩, -⟩, -⟩ := h
    exact hl
  exact ⟨List.take_of_length_le (Nat.le_of_eq hl), hl⟩

theorem dmaRequest_answers (p : BitVec 2) (r : BitVec 16) (w : Bool) (a : Dword) (n : Nat) (bs : List Byte) :
    Answers (exec (.dmaRequest p r w a n bs) s) (dmaCases p.toNat r.toNat w a n bs s) := by
  unfold dmaCases
  dsimp only
  refine answers_append.mpr ⟨dmaDenied_answers p r w a n bs rfl, ?_⟩
  split
  · rename_i k hp
    refine answers_cons.mpr ⟨fun h => ?_, answers_single fun h => ?_⟩
    · obtain ⟨hh, hw⟩ := Bool.and_eq_true_iff.mp h
      rw [dmaRequest_part hp hh, if_pos rfl, hw, dmaFail_write]
    · obtain ⟨hh, hw⟩ := Bool.and_eq_true_iff.mp h
      rw [Bool.not_eq_true'] at hw
      rw [dmaRequest_part hp hh, if_pos rfl, hw, dmaFail_read]
      rfl
  · rename_i pa k hp
    refine answers_cons.mpr ⟨fun h => ?_, answers_single fun h => ?_⟩
    · obtain ⟨h, hk⟩ := Bool.and_eq_true_iff.mp h
      obtain ⟨hh, hw⟩ := Bool.and_eq_true_iff.mp h
      subst hw
      obtain ⟨ht, -⟩ := take_of_dmaHere (Bool.and_eq_true_iff.mp hh).1
      rw [dmaRequest_part hp hh, if_neg nofun, if_pos rfl, eq_of_beq hk, ht]
      rfl
    · obtain ⟨h, he⟩ := Bool.and_eq_true_iff.mp h
      obtain ⟨h, hpo⟩ := Bool.and_eq_true_iff.mp h
      obtain ⟨hh, hw⟩ := Bool.and_eq_true_iff.mp h
      rw [Bool.not_eq_true'] at hw hpo
      subst hw
      have hr : dmaReadPart p.toNat (8 + p.toNat / 2) (bitsN (dmaEntry s p.toNat r.toNat) 63 52) (.mem pa, k) s =
          (bytesAt s.mem pa k, readVia (248 + p.toNat) 2 pa k s) := by
        unfold dmaReadPart
        dsimp only
        rw [if_neg (by rw [hpo, eq_of_beq he]; decide)]
        rfl
      rw [dmaRequest_part hp hh, if_neg nofun, if_neg (by decide), hr]
      rfl
  · rename_i pa k hp
    refine answers_cons.mpr ⟨fun h => ?_, answers_single fun h => ?_⟩
    · obtain ⟨hh, hw⟩ := Bool.and_eq_true_iff.mp h
      subst hw
      rw [dmaRequest_part hp hh, if_neg nofun, if_pos rfl]
      rfl
    · obtain ⟨hh, hw⟩ := Bool.and_eq_true_iff.mp h
      rw [Bool.not_eq_true'] at hw
      subst hw
      rw [dmaRequest_part hp hh, if_neg nofun, if_neg (by decide)]
      rfl
  · rename_i pa k hp
    refine answers_cons.mpr ⟨fun h => ?_, answers_single fun h => ?_⟩
    · obtain ⟨h, hn⟩ := Bool.and_eq_true_iff.mp h
      obtain ⟨h, hk⟩ := Bool.and_eq_true_iff.mp h
      obtain ⟨hh, hw⟩ := Bool.and_eq_true_iff.mp h
      subst hw
      obtain ⟨ht, hl⟩ := take_of_dmaHere (Bool.and_eq_true_iff.mp hh).1
      rw [dmaRequest_part hp hh, if_neg nofun, if_pos rfl, eq_of_beq hk, ht]
      exact congrArg _ (if_pos (hl.trans (eq_of_beq hn)))
    · obtain ⟨h, hn⟩ := Bool.and_eq_true_iff.mp h
      obtain ⟨h, hk⟩ := Bool.and_eq_true_iff.mp h
      obtain ⟨hh, hw⟩ := Bool.and_eq_true_iff.mp h
      subst hw
      obtain ⟨ht, hl⟩ := take_of_dmaHere (Bool.and_eq_true_iff.mp hh).1
      rw [dmaRequest_part hp hh, if_neg nofun, if_pos rfl, eq_of_beq hk, ht]
      exact congrArg _ (if_neg fun h4 => bne_iff_ne.mp hn (hl.symm.trans h4))
  · exact answers_nil

end Sys2Proof.Machine

namespace Sys2Proof.Machine
open Claims
variable {s : State}

/-! Datagrams that are not accepted (R40, R52). -/

theorem command_discards {codeOk : Nat → Bool} {bodyOk : List Byte → Bool} {run : List Byte → State → Answer} {d : List Byte}
    (hp : s.boot.phase ≠ .off) (hc : codeOk (dgCode d) = true) (ha : accepted s.boot d = false) :
    command codeOk bodyOk run d s = .next (portMsi s) := by
  unfold command
  rw [if_neg (by rw [hc]; simp [hp]), ha]
  rfl

/-- Whatever its body, a datagram of a command's code that is not accepted is dropped. -/
theorem discard_answers {o : Out} {d : List Byte} {code : Bool}
    (h : s.boot.phase ≠ .off → code = true → accepted s.boot d = false → o = .next (portMsi s)) :
    Answers o [{ ok := decide (s.boot.phase ≠ .off) && code && !accepted s.boot d, after := portMsi s }] := by
  refine answers_single fun hk => ?_
  obtain ⟨hk, ha⟩ := Bool.and_eq_true_iff.mp hk
  obtain ⟨hp, hc⟩ := Bool.and_eq_true_iff.mp hk
  exact h (of_decide_eq_true hp) hc (Bool.not_eq_true' _ ▸ ha)

theorem command_code_discards {n : Nat} {bodyOk : List Byte → Bool} {run : List Byte → State → Answer} {d : List Byte}
    (hp : s.boot.phase ≠ .off) (hc : decide (dgNat d 0 1 = n) = true) (ha : accepted s.boot d = false) :
    command (· == n) bodyOk run d s = .next (portMsi s) := command_discards (codeOk := (· == n)) hp hc ha

theorem discard_of_command {o : Out} {n : Nat} {bodyOk : List Byte → Bool} {run : List Byte → State → Answer} {d : List Byte}
    (h : o = command (· == n) bodyOk run d s) :
    Answers o [{ ok := decide (s.boot.phase ≠ .off) && decide (dgNat d 0 1 = n) && !accepted s.boot d, after := portMsi s }] :=
  discard_answers fun hp hc ha => h.trans (command_code_discards hp hc ha)

theorem discard_answered (i : Instr) : Answers (exec i s) (discardCases i s) := by
  unfold discardCases
  cases i with
  | status d => exact discard_of_command (show exec (.status d) s = execStatus d s from rfl)
  | reset d =>
    refine discard_answers fun hp hc ha => ?_
    have hx : exec (.reset d) s = execReset d s := rfl
    rw [hx]
    unfold execReset
    rw [command_code_discards hp hc ha]
    dsimp only
    rw [ha]
    rfl
  | loadimg d => exact discard_of_command (show exec (.loadimg d) s = execLoadimg d s from rfl)
  | attest d => exact discard_of_command (show exec (.attest d) s = execAttest d s from rfl)
  | snapCommand d => exact discard_of_command (show exec (.snapCommand d) s = execSnapCommand d s from rfl)
  | rdsnap d => exact discard_of_command (show exec (.rdsnap d) s = execRdsnap d s from rfl)
  | rdlife d => exact discard_of_command (show exec (.rdlife d) s = execRdlife d s from rfl)
  | setpkg d => exact discard_of_command (show exec (.setpkg d) s = execSetpkg d s from rfl)
  | killctx d => exact discard_of_command (show exec (.killctx d) s = execKillctx d s from rfl)
  | unknownCommand d =>
    have hx : exec (.unknownCommand d) s = execUnknownCommand d s := rfl
    rw [hx]
    unfold execUnknownCommand
    refine discard_answers fun hp hc ha => command_discards hp ?_ ha
    obtain h | h := of_decide_eq_true hc
    · exact Bool.or_eq_true_iff.mpr (.inl (beq_iff_eq.mpr h))
    · exact Bool.or_eq_true_iff.mpr (.inr (decide_eq_true h))
  | _ => exact answers_nil

end Sys2Proof.Machine

namespace Sys2Proof.Machine
open Claims
variable {s : State}

/-! Control cores (R16, R39, R40). -/

/-- The address of an access that reaches nothing (R16). -/
theorem ctlReaches_eq (pa : Nat) {op : ReqOp} (h : op = .store ∨ op.writes = false) :
    ctlReaches s pa op = !(!isDev pa && !isPcie pa && (!isHbm pa || (domainOf s.mem pa).isNone)) := by
  have ho : (op == .store || !op.writes) = true := by
    rcases h with rfl | h
    · rfl
    · rw [h, Bool.not_false, Bool.or_true]
  unfold ctlReaches
  rw [ho]
  cases isDev pa <;> cases isPcie pa <;> cases isHbm pa <;> cases domainOf s.mem pa <;> rfl

/-- What a core's operation does once it is started. -/
theorem ctlDo_down {cc : Nat} (op : CtlOp) (h : (Maps.get {} s.ctl cc).up = false) : ctlDo cc op s = none := by
  unfold ctlDo
  dsimp only
  rw [h]
  rfl

theorem ctlDo_load {cc pa size : Nat} (h : (Maps.get {} s.ctl cc).up = true) (hz : ctlSize pa size = true) :
    ctlDo cc (.load pa size) s = some (ctlAccess cc pa size (.load 0 0) 0 s) := by
  unfold ctlDo
  dsimp only
  rw [h, hz]
  rfl

theorem ctlDo_store {cc pa size : Nat} {data : Dword} (h : (Maps.get {} s.ctl cc).up = true) (hz : ctlSize pa size = true) :
    ctlDo cc (.store pa size data) s = some (ctlAccess cc pa size .store (data.toNat % 2 ^ (8 * size)) s) := by
  unfold ctlDo
  dsimp only
  rw [h, hz]
  rfl

theorem ctlDo_fence {cc : Nat} (f : CtlFence) (h : (Maps.get {} s.ctl cc).up = true) :
    ctlDo cc (.fence f) s = if fenceDone s cc f then some s else none := by
  unfold ctlDo
  dsimp only
  rw [h]
  rfl

theorem ctlAccess_reaches {cc pa size data : Nat} {op : ReqOp} (h : ctlReaches s pa op = true) :
    ctlAccess cc pa size op data s = putReq (ctlReq cc pa size op data) s := if_pos h

theorem ctlAccess_void {cc pa size data : Nat} {op : ReqOp} (h : ctlReaches s pa op = false) :
    ctlAccess cc pa size op data s = ctlZero cc op
      (record (8 + cc / 8) { unitRecord (8 + cc / 8) .nophys 0 0 (BitVec.ofNat 64 pa) 0 true with core := cc } s) :=
  if_neg (by rw [h]; exact Bool.false_ne_true)

/-- Does a fence wait: for the core's loads, or for all its accesses and its held posts (R39)? -/
def fenceWaits (s : State) (cc : Nat) (f : CtlFence) : Bool := match f with
  | .acq => s.mem.net.any fun e => e.2.ctl == some cc && e.2.op.returns
  | _ => (s.mem.net.any fun e => e.2.ctl == some cc && true) || (List.range 8).any fun d => postHeld s cc d

theorem fenceDone_eq (cc : Nat) (f : CtlFence) : fenceDone s cc f = !fenceWaits s cc f := by
  cases f with
  | acq => rfl
  | ar => exact (Bool.not_or _ _).symm
  | rel => exact (Bool.not_or _ _).symm

/-- The interrupt taken, where the level and its file let one through. -/
theorem takeIrq_none {cc : Nat} {sup : Bool} (h : (sup && (Maps.get {} s.ctl cc).mode == .machine ||
    !Maps.get false s.io.imsicDeliver (fileOf cc sup) || (topIrq s (fileOf cc sup)).isNone) = true) : takeIrq cc sup s = none := by
  unfold takeIrq
  dsimp only
  split
  · rfl
  · next hd =>
    rw [Bool.not_eq_true] at hd
    rw [hd, Bool.false_or] at h
    split
    · next h1 h2 => rw [h1, h2] at h; cases h
    · rfl

theorem takeIrq_some {cc i : Nat} {sup : Bool} (hd : (sup && (Maps.get {} s.ctl cc).mode == .machine) = false)
    (ho : Maps.get false s.io.imsicDeliver (fileOf cc sup) = true) (hi : topIrq s (fileOf cc sup) = some i) :
    takeIrq cc sup s = some { s with
      io := { s.io with imsic := Maps.put false s.io.imsic (fileOf cc sup * 4096 + i) false }
      ctl := Maps.modify s.ctl cc fun c => { c with
        mode := if sup then .supervisor else .machine, taken := c.taken ++ [(fileOf cc sup, i)] } } := by
  unfold takeIrq
  dsimp only
  rw [hd, ho, hi]
  rfl

theorem ctlDo_claim {cc : Nat} (sup : Bool) (h : (Maps.get {} s.ctl cc).up = true) : ctlDo cc (.claim sup) s = takeIrq cc sup s := by
  unfold ctlDo
  dsimp only
  rw [h]
  rfl

/-- An access of a core that is started, of a size that it makes. -/
theorem up_size_of_whole {cc pa size : Nat} (h : ((Maps.get {} s.ctl cc).up && decide (pa < 2 ^ 46) && [1, 2, 4, 8].contains size &&
    (isDev pa || pa % size == 0)) = true) : (Maps.get {} s.ctl cc).up = true ∧ ctlSize pa size = true := by
  rw [Bool.and_assoc, Bool.and_assoc, Bool.and_eq_true, ← Bool.and_assoc] at h
  exact h

/-- The value of a load that reaches nothing, and a store that reaches nothing: each takes a number. -/
theorem ctlZero_load {cc : Nat} : ctlZero cc (.load 0 0) s = { s with
    mem := { s.mem with nextId := s.mem.nextId + 1 }
    ctl := Maps.modify s.ctl cc fun c => { c with loads := Maps.set c.loads s.mem.nextId 0 } } := rfl

theorem ctlZero_store {cc : Nat} : ctlZero cc .store s = { s with mem := { s.mem with nextId := s.mem.nextId + 1 } } := rfl

theorem ctl_answers (cc : Nat) (op : CtlOp) (k : CtlCase) (hk : k ∈ ctlCases cc op s) (hok : k.ok = true) : ctlDo cc op s = k.after := by
  unfold ctlCases at hk
  dsimp only at hk
  rcases List.mem_cons.mp hk with rfl | hk
  · exact ctlDo_down op ((Bool.not_eq_true' _).mp hok)
  cases op with
  | load pa size =>
    simp only [List.mem_cons, List.not_mem_nil, or_false] at hk
    rcases hk with rfl | rfl
    · obtain ⟨hw, hv⟩ := Bool.and_eq_true_iff.mp hok
      obtain ⟨hu, hz⟩ := up_size_of_whole hw
      rw [ctlDo_load hu hz, ctlAccess_void (by rw [ctlReaches_eq pa (.inr rfl), hv]; rfl), ctlZero_load]
      rfl
    · obtain ⟨hw, hv⟩ := Bool.and_eq_true_iff.mp hok
      obtain ⟨hu, hz⟩ := up_size_of_whole hw
      rw [ctlDo_load hu hz, ctlAccess_reaches (by rw [ctlReaches_eq pa (.inr rfl), hv])]
  | store pa size data =>
    simp only [List.mem_cons, List.not_mem_nil, or_false] at hk
    rcases hk with rfl | rfl
    · obtain ⟨hw, hv⟩ := Bool.and_eq_true_iff.mp hok
      obtain ⟨hu, hz⟩ := up_size_of_whole hw
      rw [ctlDo_store hu hz, ctlAccess_void (by rw [ctlReaches_eq pa (.inl rfl), hv]; rfl), ctlZero_store]
    · obtain ⟨hw, hv⟩ := Bool.and_eq_true_iff.mp hok
      obtain ⟨hu, hz⟩ := up_size_of_whole hw
      rw [ctlDo_store hu hz, ctlAccess_reaches (by rw [ctlReaches_eq pa (.inl rfl), hv])]
  | fence f =>
    simp only [List.mem_cons, List.not_mem_nil, or_false] at hk
    rcases hk with rfl | rfl
    · obtain ⟨hu, hw⟩ := Bool.and_eq_true_iff.mp hok
      have hw : fenceWaits s cc f = true := hw
      rw [ctlDo_fence f hu, fenceDone_eq, hw]
      rfl
    · obtain ⟨hu, hw⟩ := Bool.and_eq_true_iff.mp hok
      have hw : (!fenceWaits s cc f) = true := hw
      rw [ctlDo_fence f hu, fenceDone_eq, hw]
      rfl
  | mode m =>
    obtain rfl := List.mem_singleton.mp hk
    have hu : (Maps.get {} s.ctl cc).up = true := hok
    unfold ctlDo
    dsimp only
    rw [hu]
    rfl
  | time =>
    obtain rfl := List.mem_singleton.mp hk
    have hu : (Maps.get {} s.ctl cc).up = true := hok
    unfold ctlDo
    dsimp only
    rw [hu]
    rfl
  | enable sup i on =>
    simp only [List.mem_cons, List.not_mem_nil, or_false] at hk
    rcases hk with rfl | rfl
    · obtain ⟨hu, hi⟩ := Bool.and_eq_true_iff.mp hok
      unfold ctlDo
      dsimp only
      rw [hu]
      exact if_pos (of_decide_eq_true hi)
    · obtain ⟨hu, hi⟩ := Bool.and_eq_true_iff.mp hok
      unfold ctlDo
      dsimp only
      rw [hu]
      have hi := of_decide_eq_true hi
      exact if_neg (show ¬ (0 < i ∧ i < 4096) by omega)
  | claim sup =>
    dsimp only at hk
    generalize ho : List.find? _ (List.range 4096) = offered at hk
    have hi : topIrq s (fileOf cc sup) = offered := by
      unfold topIrq fileOf
      exact ho
    clear ho
    rcases List.mem_cons.mp hk with rfl | hk
    · obtain ⟨hu, hw⟩ := Bool.and_eq_true_iff.mp hok
      rw [ctlDo_claim sup hu]
      refine takeIrq_none ?_
      rw [hi]
      exact hw
    · split at hk
      · rename_i i
        obtain rfl := List.mem_singleton.mp hk
        obtain ⟨h, ho⟩ := Bool.and_eq_true_iff.mp hok
        obtain ⟨hu, hd⟩ := Bool.and_eq_true_iff.mp h
        rw [Bool.not_eq_true'] at hd
        rw [ctlDo_claim sup hu, takeIrq_some hd ho hi]
        rfl
      · cases hk
  | _ => cases hk

end Sys2Proof.Machine

namespace Sys2Proof.Machine
open Claims
variable {s : State}

theorem outerCases_answered (i : Instr) : Answers (exec i s) (outerCases i s) := by
  unfold outerCases
  split
  · exact faultRing_answers _
  · exact flueRing_answers _
  · exact residencyInvalidation_answers _ _
  · exact snapshotLatch_answers _
  · exact flitReceive_answers _ _ _
  · exact replacementNotice_answers _
  · exact dmaRequest_answers _ _ _ _ _ _
  · exact pcieWindow_answers _ _ _
  · exact measureComponent_answers _ _
  · exact answers_nil

/-- Settles O51: each step of an I/O die by the case of its table, and each operation of a control core by its own. -/
theorem ioDieSteps : Obligations.IoDieSteps :=
  ⟨stepHolds_iff.mpr fun i _ => outerCases_answered i, stepHolds_iff.mpr fun i _ => retrain_answers i,
    stepHolds_iff.mpr fun i _ => discard_answered i, fun cc op _ k hk hok => ctl_answers cc op k hk hok⟩

end Sys2Proof.Machine

namespace Sys2Proof.Machine
open Claims
variable {s t u : State} {c : Nat}

/-! What the end of a context's work leaves of its teams, and of boot (R43, R302). -/

/-- No team comes, none changes its context, no evicted team comes, and boot is as it was. -/
structure Kills (s t : State) : Prop where
  teams : ∀ e ∈ t.teams, ∃ e' ∈ s.teams, e'.1 = e.1 ∧ e'.2.ctx = e.2.ctx
  saved : ∀ e ∈ t.saved, e ∈ s.saved
  boot : t.boot = s.boot

theorem kills_of_eq (ht : t.teams = s.teams) (hv : t.saved = s.saved) (hb : t.boot = s.boot) : Kills s t where
  teams e he := ⟨e, by rwa [ht] at he, rfl, rfl⟩
  saved e he := by rwa [hv] at he
  boot := hb

theorem Kills.refl (s : State) : Kills s s := kills_of_eq rfl rfl rfl

theorem Kills.trans (h : Kills s t) (h' : Kills t u) : Kills s u where
  teams e he := by
    obtain ⟨e', he', h1, h2⟩ := h'.teams e he
    obtain ⟨e'', he'', h3, h4⟩ := h.teams e' he'
    exact ⟨e'', he'', h3.trans h1, h4.trans h2⟩
  saved e he := h.saved e (h'.saved e he)
  boot := h'.boot.trans h.boot

theorem kills_foldl {α : Type} {f : State → α → State} (h : ∀ s a, Kills s (f s a)) (as : List α) : Kills s (as.foldl f s) :=
  foldl_keeps (P := Kills s) (fun t a ht => ht.trans (h t a)) as s (.refl s)

theorem kills_onDie (d : Nat) (f : Die → Die) : Kills s (onDie d f s) := kills_of_eq rfl rfl rfl

theorem kills_onMem (f : Mem → Mem) : Kills s (onMem f s) := kills_of_eq rfl rfl rfl

theorem kills_meshEnds (lost : Bool) (x : Team) : Kills s (meshEnds lost x s) := by
  unfold meshEnds
  split
  · exact kills_onDie _ _
  · exact .refl s

theorem kills_launchLoses (j slot core : Nat) : Kills s (launchLoses j slot core s) := kills_onDie _ _

theorem kills_putCused (c r : Nat) : Kills s (putCused c r s) := by
  refine kills_foldl (fun s r => ?_) _
  split
  · exact kills_onMem _
  · exact .refl s

theorem kills_freeHandle (c h : Nat) : Kills s (freeHandle c h s) := by
  have hset (st g : Nat) : Kills s (setTlt c h 0 st false g 0 s) := kills_onMem _
  unfold freeHandle
  dsimp only
  split
  · exact (hset _ _).trans (kills_onDie _ _)
  · exact (hset _ _).trans (kills_onDie _ _)

/-- The teams of other asked evictions go on as they are but for whom they answer. -/
theorem teams_endMoves (h : Nat) : ∃ f : Nat → Team → Team, (∀ k x, (f k x).ctx = x.ctx) ∧ (endMoves h s).teams = Maps.mapAll s.teams f := by
  refine ⟨fun _ x => match x.evicting with
    | some (tsa, k) => if handleOf k = h then { x with evicting := some (tsa, noIssuer) } else x
    | none => x, fun _ x => ?_, ?_⟩
  · dsimp only
    split
    · split <;> rfl
    · rfl
  · unfold endMoves
    dsimp only
    split <;> rfl

theorem kills_endMoves (h : Nat) : Kills s (endMoves h s) where
  teams e he := by
    obtain ⟨f, hf, ht⟩ := teams_endMoves (s := s) h
    rw [ht] at he
    obtain ⟨e', he', rfl⟩ := List.mem_map.mp he
    exact ⟨e', he', rfl, (hf _ _).symm⟩
  saved e he := by
    unfold endMoves at he
    dsimp only at he
    split at he <;> exact he
  boot := by
    unfold endMoves
    dsimp only
    split <;> rfl

theorem kills_dropRequests (kill : Bool) (p : Nat → Bool) : Kills s (dropRequests kill p s) := by
  unfold dropRequests
  dsimp only
  split <;> exact kills_of_eq rfl rfl rfl

theorem kills_dropTeam (h : Nat) : Kills s (dropTeam true h s) := by
  have hu : Kills s (dropRequests true (fun k => handleOf k == h) (endMoves h s)) := (kills_endMoves h).trans (kills_dropRequests true _)
  exact hu.trans ⟨fun e he => ⟨e, Maps.mem_of_mem_del (teams_dropTeam h ▸ he), rfl, rfl⟩, fun _ he => he, rfl⟩

theorem kills_killTeam (h : Nat) : Kills s (killTeam h s) := by
  unfold killTeam
  split
  · exact .refl s
  · exact ((kills_launchLoses _ _ _).trans ((kills_meshEnds true _).trans (kills_onDie _ _))).trans
      ((kills_dropTeam h).trans ((kills_putCused _ _).trans (kills_freeHandle _ _)))

theorem kills_setCtxField (c hi lo v : Nat) : Kills s (setCtxField s c hi lo v) := by
  unfold setCtxField
  exact kills_onMem _

theorem kills_stray (c n : Nat) : Kills s (stray c n s) := kills_setCtxField _ _ _ _

theorem kills_killEvicted (h : Nat) : Kills s (killEvicted h s) := by
  unfold killEvicted
  split
  · exact .refl s
  · extract_lets u1 u2 u3
    have h1 : Kills s u1 := kills_stray _ _
    have h2 : Kills u1 u2 := (kills_launchLoses _ _ _).trans (kills_meshEnds true _)
    have h3 : Kills u2 u3 := kills_onDie _ _
    refine (h1.trans (h2.trans h3)).trans (Kills.trans ?_ (kills_freeHandle _ _))
    exact ⟨fun e he => ⟨e, he, rfl, rfl⟩, fun e he => Maps.mem_of_mem_del he, rfl⟩

/-- No evicted team is left under the handle. -/
theorem saved_killEvicted {h : Nat} {e : Nat × Team} (he : e ∈ (killEvicted h s).saved) : e.1 ≠ h := by
  unfold killEvicted at he
  split at he
  · next hf =>
    rintro rfl
    exact absurd (isSome_find_of_mem he) (by rw [hf]; exact Bool.false_ne_true)
  · exact not_mem_del ((kills_freeHandle _ _).saved e he)

/-- What `f` takes away for each of its handles stays away. -/
theorem gone_foldl {α : Type} {get : State → AMap α} {f : State → Nat → State} (hf : ∀ s h, Kills s (f s h))
    (hmem : ∀ {s t : State}, Kills s t → ∀ e ∈ get t, ∃ e' ∈ get s, e'.1 = e.1) (hgone : ∀ s h, ∀ e ∈ get (f s h), e.1 ≠ h)
    (hs : List Nat) : ∀ s, ∀ e ∈ get (hs.foldl f s), e.1 ∉ hs := by
  induction hs with
  | nil => exact fun _ _ _ => List.not_mem_nil
  | cons h hs ih =>
    intro s e he hm
    rcases List.mem_cons.mp hm with rfl | hm
    · obtain ⟨e', he', hk⟩ := hmem (kills_foldl hf hs) e he
      exact hgone s _ e' he' hk
    · exact ih _ e he hm

theorem kills_setFaulted (c : Nat) (r : Reason) : Kills s (setFaulted c r s) := by
  unfold setFaulted
  dsimp only
  split
  · exact (kills_setCtxField _ _ _ _).trans (kills_setCtxField _ _ _ _)
  · exact kills_setCtxField _ _ _ _

/-! A context killed (R43). -/

/-- The context's resident teams gone, and then its evicted ones. -/
def withoutTeams (c : Nat) (s : State) : State := killTeams (fun _ x => x.ctx == c) s
def withoutSaved (c : Nat) (s : State) : State := (Maps.keys s.saved fun _ x => x.ctx == c).foldl (fun s h => killEvicted h s) s

/-- The context's cards gone or lost, its mesh work with them. -/
def withoutCards (c : Nat) (s : State) : State := dropMesh (dropCards true (fun _ k => k.ctx == c) s)

theorem killContext_eq (c : Nat) (s : State) : killContext c s =
    record 8 (unitRecord 8 .killed c 0 0 0 true) (setFaulted c .killed (withoutCards c (withoutSaved c (withoutTeams c s)))) := rfl

theorem kills_withoutTeams (c : Nat) : Kills s (withoutTeams c s) := kills_foldl (fun _ h => kills_killTeam h) _
theorem kills_withoutSaved (c : Nat) : Kills s (withoutSaved c s) := kills_foldl (fun _ h => kills_killEvicted h) _

theorem kills_afterSaved (c : Nat) (s : State) : Kills s (record 8 (unitRecord 8 .killed c 0 0 0 true) (setFaulted c .killed (withoutCards c s))) :=
  have h : Kills s (withoutCards c s) := kills_of_eq rfl rfl rfl
  (h.trans (kills_setFaulted c .killed)).trans (kills_onDie _ _)

theorem kills_killContext (c : Nat) (s : State) : Kills s (killContext c s) :=
  (kills_withoutTeams c).trans ((kills_withoutSaved c).trans (kills_afterSaved c _))

theorem mem_keys {α : Type} {m : AMap α} {p : Nat → α → Bool} {e : Nat × α} (he : e ∈ m) (hp : p e.1 e.2 = true) : e.1 ∈ Maps.keys m p :=
  List.mem_map.mpr ⟨e, List.mem_filter.mpr ⟨he, hp⟩, rfl⟩

theorem teams_withoutTeams {e : Nat × Team} (he : e ∈ (withoutTeams c s).teams) : e.2.ctx ≠ c := by
  intro hc
  obtain ⟨e', he', hk, hx⟩ := (kills_withoutTeams c).teams e he
  refine (cools_killTeams (d := 0) fun _ x => x.ctx == c).2 e he ?_
  rw [← hk]
  exact mem_keys he' (beq_iff_eq.mpr (hx.trans hc))

theorem saved_withoutSaved {e : Nat × Team} (he : e ∈ (withoutSaved c s).saved) : e.2.ctx ≠ c := by
  intro hc
  refine gone_foldl (get := State.saved) (fun _ h => kills_killEvicted h) (fun h e he => ⟨e, h.saved e he, rfl⟩)
    (fun _ _ _ he => saved_killEvicted he) _ s e he ?_
  exact mem_keys ((kills_withoutSaved c).saved e he) (beq_iff_eq.mpr hc)

theorem teams_killContext {e : Nat × Team} (he : e ∈ (killContext c s).teams) : e.2.ctx ≠ c := by
  obtain ⟨e', he', -, hx⟩ := ((kills_withoutSaved c).trans (kills_afterSaved c _)).teams e he
  exact hx ▸ teams_withoutTeams he'

theorem saved_killContext {e : Nat × Team} (he : e ∈ (killContext c s).saved) : e.2.ctx ≠ c :=
  saved_withoutSaved ((kills_afterSaved c _).saved e he)

/-- No card of a context waits in a die: those left are lost, or hold their engine. -/
def Idle (c : Nat) (d : Die) : Prop := ∀ e ∈ d.cards, e.2.ctx ≠ c ∨ e.2.lost = true ∨ e.2.st = .engine

theorem idle_dropCards {d : Nat × Die} (hd : d ∈ (withoutCards c s).dies) : Idle c d.2 := by
  obtain ⟨d', hd', rfl⟩ := List.mem_map.mp hd
  obtain ⟨d'', -, rfl⟩ := List.mem_map.mp hd'
  intro e he
  obtain ⟨e', -, rfl⟩ := List.mem_map.mp he
  dsimp only
  split
  · exact .inr (.inl rfl)
  · next h =>
    by_cases hc : e'.2.ctx = c
    · exact .inr (.inr (by simpa [hc] using h))
    · exact .inl hc

theorem dies_setFaulted (c : Nat) (r : Reason) : (setFaulted c r s).dies = s.dies := by
  unfold setFaulted
  dsimp only
  split <;> rfl

theorem idle_record {j : Nat} {r : FaultRec} (h : ∀ d ∈ s.dies, Idle c d.2) {d : Nat × Die} (hd : d ∈ (record j r s).dies) : Idle c d.2 := by
  rcases Maps.mem_of_mem_set hd with rfl | hd
  · have hj : Idle c (dieAt s j) := by
      unfold dieAt Maps.get
      cases hf : Maps.find s.dies j with
      | none => exact fun _ he => nomatch he
      | some x => exact h _ (Maps.find_some_mem hf)
    exact hj
  · exact h d hd

theorem idle_killContext {d : Nat × Die} (hd : d ∈ (killContext c s).dies) : Idle c d.2 := by
  refine idle_record (fun d hd => ?_) hd
  rw [dies_setFaulted] at hd
  exact idle_dropCards hd

theorem frecs_killContext (c : Nat) (s : State) :
    (dieAt (killContext c s) 8).frecs.getLast? = some (unitRecord 8 .killed c 0 0 0 true) := by
  rw [killContext_eq]
  unfold record
  rw [dieAt_onDie_same]
  exact List.getLast?_concat

/-! A write of CTXCMD (R43). -/

theorem writeCtxcmd_eq (w : Word) {op : Nat} (h : bitsN w.toNat 25 24 = op) (s : State) : writeCtxcmd w s =
    ctxStatus (ctxCommand op (w.toNat % 4096) s).1 op (w.toNat % 4096) (ctxCommand op (w.toNat % 4096) s).2 := by
  subst h
  rfl

/-- Context 0, a valid context to be created, and one that is not valid to be killed or destroyed. -/
theorem ctxCommand_refused {op : Nat} (h : op ≠ 3) (hc : c = 0 ∨ ctxValid s c = (op == 0)) : ctxCommand op c s = (4, s) := by
  unfold ctxCommand
  rw [if_neg h, if_pos hc]

theorem ctxCommand_create (hc : c ≠ 0) (hv : ctxValid s c = false) : ctxCommand 0 c s =
    if ctxReserved s c then (2, s)
    else if ctxClass s c = 0 ∧ hearthExists s c then (1, s)
    else (0, setCtxField (setCtxField (setCtxField (setCtxField s c 383 320 0) c 71 64 0) c 3 3 0) c 0 0 1) := by
  unfold ctxCommand
  rw [if_neg (by decide), if_neg (by simp [hc, hv])]
  rfl

theorem ctxCommand_kill (hc : c ≠ 0) (hv : ctxValid s c = true) : ctxCommand 1 c s = (0, killContext c s) := by
  unfold ctxCommand
  rw [if_neg (by decide), if_neg (by simp [hc, hv])]
  rfl

/-- What a destroyed context leaves: its entry invalid, no translation of its address space (R43). -/
def destroyed (c : Nat) (s : State) : State :=
  let u := setCtxField s c 0 0 0
  { u with cores := Maps.mapAll u.cores fun _ k => { k with tlb := k.tlb.filter fun e => e.asid != ctxAsid s c } }

theorem ctxCommand_destroy (hc : c ≠ 0) (hv : ctxValid s c = true) :
    ctxCommand 2 c s = if ctxBusy s c then (3, s) else (0, destroyed c s) := by
  unfold ctxCommand
  rw [if_neg (by decide), if_neg (by simp [hc, hv])]
  rfl

/-- The command of a write of CTXCMD, by what it answers. -/
theorem exec_ctxcmd {o : Out} {w : Word} {op st : Nat} {u : State} (ho : bitsN w.toNat 25 24 = op → o = .next (writeCtxcmd w s))
    (hw : bitsN w.toNat 25 24 = op) (hx : ctxCommand op (w.toNat % 4096) s = (st, u)) : o = .next (ctxStatus st op (w.toNat % 4096) u) := by
  rw [ho hw, writeCtxcmd_eq w hw, hx]

theorem ctxCreate_answers (w : BitVec 32) : Answers (exec (.ctxCreate w) s) (contextCases (.ctxCreate w) s) := by
  have ho : bitsN w.toNat 25 24 = 0 → exec (.ctxCreate w) s = .next (writeCtxcmd w s) := fun h => if_pos h
  simp only [contextCases, answers_cons, answers_nil, and_true, Bool.and_eq_true, Bool.or_eq_true, Bool.not_eq_true', decide_eq_true_eq,
    beq_iff_eq, and_imp]
  refine ⟨fun hw hc => ?_, fun hw hc hv hr => ?_, fun hw hc hv hr h2 hh => ?_, fun hw hc hv hr hh => ?_⟩
  · exact exec_ctxcmd ho hw (ctxCommand_refused (by decide) hc)
  · exact exec_ctxcmd ho hw (by rw [ctxCommand_create hc hv, if_pos hr])
  · exact exec_ctxcmd ho hw (by rw [ctxCommand_create hc hv, if_neg (by simp [hr]), if_pos ⟨h2, hh⟩])
  · exact exec_ctxcmd ho hw (by
      rw [ctxCommand_create hc hv, if_neg (by simp [hr]), if_neg]
      rintro ⟨h2, h3⟩
      rw [decide_eq_true h2, h3] at hh
      cases hh)

theorem ctxKill_answers (w : BitVec 32) : Answers (exec (.ctxKill w) s) (contextCases (.ctxKill w) s) := by
  refine answers_single fun h => ?_
  simp only [Bool.and_eq_true, Bool.or_eq_true, Bool.not_eq_true', decide_eq_true_eq, beq_iff_eq] at h
  exact exec_ctxcmd (fun h => if_pos h) h.1 (ctxCommand_refused (by decide) h.2)

theorem ctxDestroy_answers (w : BitVec 32) : Answers (exec (.ctxDestroy w) s) (contextCases (.ctxDestroy w) s) := by
  have ho : bitsN w.toNat 25 24 = 2 → exec (.ctxDestroy w) s = .next (writeCtxcmd w s) := fun h => if_pos h
  simp only [contextCases, answers_cons, answers_nil, and_true, Bool.and_eq_true, Bool.or_eq_true, Bool.not_eq_true', decide_eq_true_eq,
    beq_iff_eq, and_imp]
  refine ⟨fun hw hc => ?_, fun hw hc hv hb => ?_, fun hw hc hv hb => ?_⟩
  · exact exec_ctxcmd ho hw (ctxCommand_refused (by decide) hc)
  · exact exec_ctxcmd ho hw (by rw [ctxCommand_destroy hc hv, if_pos hb])
  · exact exec_ctxcmd ho hw (by rw [ctxCommand_destroy hc hv, if_neg (by simp [hb])]; rfl)

theorem contextCases_answered (i : Instr) : Answers (exec i s) (contextCases i s) := by
  cases i with
  | ctxCreate w => exact ctxCreate_answers w
  | ctxKill w => exact ctxKill_answers w
  | ctxDestroy w => exact ctxDestroy_answers w
  | _ => exact answers_nil

theorem contextFacts_obeyed (i : Instr) : Obeys (exec i s) (contextFacts i s) := by
  unfold contextFacts
  split
  · rename_i w
    refine obeys_single fun h => ?_
    simp only [Bool.and_eq_true, decide_eq_true_eq] at h
    obtain ⟨⟨hw, hc⟩, hv⟩ := h
    refine ⟨_, exec_ctxcmd (fun h => if_pos h) hw (ctxCommand_kill hc hv), ?_⟩
    simp only [Bool.and_eq_true, Bool.or_eq_true, List.all_eq_true, bne_iff_ne, beq_iff_eq]
    refine ⟨⟨⟨⟨fun e he => teams_killContext he, fun e he => saved_killContext he⟩, fun d hd e he => or_assoc.mpr (idle_killContext hd e he)⟩, ?_⟩, ?_⟩
    · have hr : (dieAt (ctxStatus 0 1 (w.toNat % 4096) (killContext (w.toNat % 4096) s)) 8).frecs.getLast? = _ :=
        frecs_killContext (w.toNat % 4096) s
      rw [hr]
      exact beq_self_eq_true _
    · exact congrArg (BitVec.ofNat 32) (by omega)
  · exact obeys_nil

/-- Settles O48: each context command by its status; a killed context's teams, evicted teams and cards are followed through what killing
each of them leaves of the others. -/
theorem contextCommands : Obligations.ContextCommands :=
  ⟨stepHolds_iff.mpr fun i _ => contextCases_answered i, factHolds_iff.mpr fun i _ => contextFacts_obeyed i⟩

end Sys2Proof.Machine

namespace Sys2Proof.Machine
open Claims
variable {s t u : State} {d : List Byte}

/-! What comes before a command's own effect, and what comes after (R51, R52). -/

theorem obeys_append {o : Out} {ks ls : List StepFact} : Obeys o (ks ++ ls) ↔ Obeys o ks ∧ Obeys o ls := List.forall_mem_append

/-- The state in which an accepted datagram's command runs: the port's interrupt raised, the sequence number taken. -/
def heard (d : List Byte) (s : State) : State := { portMsi s with boot := { (portMsi s).boot with lastSeq := dgNat d 2 4 } }

/-- The port's interrupt changes the interrupt files alone. -/
theorem portMsi_eq (s : State) : ∃ ms im, portMsi s = { s with io := { s.io with msis := ms, imsic := im } } := by
  unfold portMsi
  split
  · exact ⟨_, _, rfl⟩
  · exact ⟨_, _, rfl⟩

theorem heard_eq (d : List Byte) (s : State) : ∃ ms im, heard d s =
    { s with io := { s.io with msis := ms, imsic := im }, boot := { s.boot with lastSeq := dgNat d 2 4 } } := by
  unfold heard
  obtain ⟨ms, im, h⟩ := portMsi_eq s
  rw [h]
  exact ⟨ms, im, rfl⟩

@[simp] theorem boot_heard : (heard d s).boot = { s.boot with lastSeq := dgNat d 2 4 } := by
  obtain ⟨ms, im, h⟩ := heard_eq d s
  rw [h]

/-- The answer of a command, sent. -/
def replied (d : List Byte) (a : Answer) : State := respond d (Maps.natLe a.1 1 ++ a.2.1) a.2.2

/-- A response changes the replies, and counts a draw. -/
theorem respond_eq (d body : List Byte) (s : State) : ∃ sig : BitVec 512, respond d body s = { s with
    draws := s.draws + 1
    boot := { s.boot with replies := s.boot.replies ++ [Maps.natLe (dgCode d + 0x80) 1 ++ [1#8] ++ Maps.natLe (dgNat d 2 4) 4 ++
      Maps.natLe body.length 2 ++ body ++ beBytes sig.toNat 64] } } := ⟨_, rfl⟩

theorem length_beBytes (v n : Nat) : (beBytes v n).length = n := (List.length_reverse ..).trans (length_natLe n v)

/-- A command's answer is one response more than there were. -/
theorem responds_replied {st : Nat} {fields : List Byte} (hr : u.boot.replies = s.boot.replies) :
    responds s (replied d (st, fields, u)) d st fields = true := by
  obtain ⟨sig, h⟩ := respond_eq d (Maps.natLe st 1 ++ fields) u
  have hl : (Maps.natLe st 1 ++ fields).length = 1 + fields.length := by rw [List.length_append, length_natLe]
  have hb : (replied d (st, fields, u)).boot.replies = s.boot.replies ++ [Maps.natLe (dgNat d 0 1 + 0x80) 1 ++ [1#8] ++
      Maps.natLe (dgNat d 2 4) 4 ++ Maps.natLe (1 + fields.length) 2 ++ Maps.natLe st 1 ++ fields ++ beBytes sig.toNat 64] := by
    unfold replied
    dsimp only
    rw [h, ← hr, hl, ← List.append_assoc _ (Maps.natLe st 1)]
    rfl
  unfold responds
  dsimp only
  rw [hb]
  generalize Maps.natLe (dgNat d 0 1 + 0x80) 1 ++ [1#8] ++ Maps.natLe (dgNat d 2 4) 4 ++ Maps.natLe (1 + fields.length) 2 ++
    Maps.natLe st 1 ++ fields = head
  split
  · next h0 => exact absurd h0 (by simp)
  · rw [List.dropLast_concat, List.getLast?_concat]
    simp [length_beBytes]

/-- What most commands leave: the sequence number taken; the flash, groups and teams as they were. -/
def keepsWork (s : State) (d : List Byte) (t : State) : Bool :=
  decide (t.boot.lastSeq = dgNat d 2 4) && t.boot.flash == s.boot.flash && t.groups == s.groups && t.teams == s.teams

/-- A state that a command's effect may leave so: the response comes on top of those there were. -/
structure Working (s : State) (d : List Byte) (u : State) : Prop where
  seq : u.boot.lastSeq = dgNat d 2 4
  flash : u.boot.flash = s.boot.flash
  groups : u.groups = s.groups
  teams : u.teams = s.teams
  replies : u.boot.replies = s.boot.replies

theorem working_heard : Working s d (heard d s) := by
  obtain ⟨ms, im, h⟩ := heard_eq d s
  rw [h]
  exact ⟨rfl, rfl, rfl, rfl, rfl⟩

theorem Working.answers (h : Working s d u) (st : Nat) (fields : List Byte) :
    (keepsWork s d (replied d (st, fields, u)) && responds s (replied d (st, fields, u)) d st fields) = true := by
  have hk : keepsWork s d (replied d (st, fields, u)) = keepsWork s d u := rfl
  rw [hk, responds_replied h.replies]
  simp [keepsWork, h.seq, h.flash, h.groups, h.teams]

/-! Which answer an accepted datagram has (R51, R54). -/

/-- A datagram that the port takes. -/
structure Taken (s : State) (d : List Byte) : Prop where
  on : s.boot.phase ≠ .off
  accepted : accepted s.boot d = true

/-- A code of the table. -/
abbrev Known (d : List Byte) : Prop := 1 ≤ dgCode d ∧ dgCode d ≤ 9

/-- The device waits for a reload, and the command is none of those that reload it. -/
def Barred (s : State) (d : List Byte) : Prop := s.boot.phase = .waiting ∧ Known d ∧ 3 < dgCode d

/-- The flags are a command's, and so is the body. -/
def Fine (ok : Bool) (d : List Byte) : Prop := dgNat d 1 1 < 2 ∧ ok = true

section
variable {codeOk : Nat → Bool} {bodyOk : List Byte → Bool} {run : List Byte → State → Answer}

theorem barred_iff : (heard d s).boot.phase = .waiting ∧ 1 ≤ dgCode d ∧ dgCode d ≤ 9 ∧ (!recovery (heard d s).boot (dgCode d)) = true ↔
    Barred s d := by
  rw [boot_heard]
  unfold Barred Known recovery
  constructor
  · rintro ⟨hp, h1, h9, hr⟩
    replace hp : s.boot.phase = .waiting := hp
    refine ⟨hp, ⟨h1, h9⟩, ?_⟩
    simpa [hp, h1] using hr
  · rintro ⟨hp, ⟨h1, h9⟩, h3⟩
    exact ⟨hp, h1, h9, by simp [h3]⟩

theorem command_eq (hc : codeOk (dgCode d) = true) (h : Taken s d) : command codeOk bodyOk run d s = .next (replied d (
    if (heard d s).boot.phase = .waiting ∧ 1 ≤ dgCode d ∧ dgCode d ≤ 9 ∧ !recovery (heard d s).boot (dgCode d) then (4, [], heard d s)
    else if dgCode d ≤ 9 ∧ dgCode d ≠ 0 ∧ (dgNat d 1 1 ≥ 2 ∨ !bodyOk (dgBody d)) then (3, [], heard d s)
    else run (dgBody d) (heard d s))) := by
  unfold command
  rw [if_neg (by simp [hc, h.on]), if_neg (by simp [h.accepted])]
  rfl

theorem command_barred (hc : codeOk (dgCode d) = true) (h : Taken s d) (hb : Barred s d) :
    command codeOk bodyOk run d s = .next (replied d (4, [], heard d s)) := by
  rw [command_eq hc h, if_pos (barred_iff.mpr hb)]

theorem command_malformed (hc : codeOk (dgCode d) = true) (h : Taken s d) (hk : Known d) (hb : ¬ Barred s d)
    (hf : ¬ Fine (bodyOk (dgBody d)) d) : command codeOk bodyOk run d s = .next (replied d (3, [], heard d s)) := by
  obtain ⟨h1, h9⟩ := hk
  have hm : dgNat d 1 1 ≥ 2 ∨ (!bodyOk (dgBody d)) = true := by
    rw [Bool.not_eq_true', ← Bool.not_eq_true]
    by_contra hn
    rw [not_or, not_not] at hn
    exact hf ⟨by omega, hn.2⟩
  rw [command_eq hc h, if_neg (mt barred_iff.mp hb), if_pos ⟨h9, by omega, hm⟩]

theorem command_runs (hc : codeOk (dgCode d) = true) (h : Taken s d) (hb : ¬ Barred s d) (hf : Known d → Fine (bodyOk (dgBody d)) d) :
    command codeOk bodyOk run d s = .next (replied d (run (dgBody d) (heard d s))) := by
  rw [command_eq hc h, if_neg (mt barred_iff.mp hb), if_neg]
  rintro ⟨h9, h0, hm⟩
  obtain ⟨h2, hok⟩ := hf ⟨by omega, h9⟩
  rcases hm with hm | hm
  · omega
  · rw [hok] at hm
    cases hm

end

/-- The facts that every command shares: an unknown code, a command that a waiting device does not take, a malformed one. -/
def sharedFacts (s : State) (d : List Byte) (code ok : Bool) : List StepFact :=
  let b := s.boot
  let taken : Bool := decide (b.phase ≠ .off) && code && accepted b d
  let n := dgNat d 0 1
  let known : Bool := decide (1 ≤ n ∧ n ≤ 9)
  let barred : Bool := b.phase == .waiting && known && decide (3 < n)
  let fine : Bool := decide (dgNat d 1 1 < 2) && ok
  [{ ok := taken && !known, must := fun t => keepsWork s d t && responds s t d 2 [] },
   { ok := taken && barred, must := fun t => keepsWork s d t && responds s t d 4 [] },
   { ok := taken && known && !barred && !fine, must := fun t => keepsWork s d t && responds s t d 3 [] }]

/-- Does the datagram run its command? -/
def runsNow (s : State) (d : List Byte) (code ok : Bool) : Bool :=
  let b := s.boot
  let known : Bool := decide (1 ≤ dgNat d 0 1 ∧ dgNat d 0 1 ≤ 9)
  decide (b.phase ≠ .off) && code && accepted b d && known && !(b.phase == .waiting && known && decide (3 < dgNat d 0 1)) &&
    (decide (dgNat d 1 1 < 2) && ok)

theorem taken_iff {code : Bool} : (decide (s.boot.phase ≠ .off) && code && accepted s.boot d) = true ↔ Taken s d ∧ code = true := by
  rw [Bool.and_eq_true, Bool.and_eq_true, decide_eq_true_eq]
  exact ⟨fun ⟨⟨h1, h2⟩, h3⟩ => ⟨⟨h1, h3⟩, h2⟩, fun ⟨⟨h1, h3⟩, h2⟩ => ⟨⟨h1, h2⟩, h3⟩⟩

theorem barred_decide : (s.boot.phase == .waiting && decide (1 ≤ dgNat d 0 1 ∧ dgNat d 0 1 ≤ 9) && decide (3 < dgNat d 0 1)) = true ↔
    Barred s d := by
  rw [Bool.and_eq_true, Bool.and_eq_true, beq_iff_eq, decide_eq_true_eq, decide_eq_true_eq, and_assoc]
  rfl

theorem fine_decide {ok : Bool} : (decide (dgNat d 1 1 < 2) && ok) = true ↔ Fine ok d := by
  rw [Bool.and_eq_true, decide_eq_true_eq]
  rfl

theorem runsNow_iff {code ok : Bool} : runsNow s d code ok = true ↔ Taken s d ∧ code = true ∧ Known d ∧ ¬ Barred s d ∧ Fine ok d := by
  unfold runsNow
  dsimp only
  rw [Bool.and_eq_true, Bool.and_eq_true, Bool.and_eq_true, taken_iff, Bool.not_eq_true', ← Bool.not_eq_true, barred_decide, fine_decide,
    decide_eq_true_eq]
  unfold Known
  exact ⟨fun ⟨⟨⟨⟨h1, h2⟩, h3⟩, h4⟩, h5⟩ => ⟨h1, h2, h3, h4, h5⟩, fun ⟨h1, h2, h3, h4, h5⟩ => ⟨⟨⟨⟨h1, h2⟩, h3⟩, h4⟩, h5⟩⟩

theorem sharedFacts_obeyed {o : Out} {code ok : Bool}
    (hu : Taken s d → code = true → ¬ Known d → o = .next (replied d (2, [], heard d s)))
    (hb : Taken s d → code = true → Barred s d → o = .next (replied d (4, [], heard d s)))
    (hm : Taken s d → code = true → Known d → ¬ Barred s d → ¬ Fine ok d → o = .next (replied d (3, [], heard d s))) :
    Obeys o (sharedFacts s d code ok) := by
  have hr (st : Nat) := working_heard (s := s) (d := d).answers st []
  refine obeys_cons.mpr ⟨fun h => ?_, obeys_cons.mpr ⟨fun h => ?_, obeys_single fun h => ?_⟩⟩
  · obtain ⟨ht, hk⟩ := Bool.and_eq_true_iff.mp h
    obtain ⟨ht, hc⟩ := taken_iff.mp ht
    exact ⟨_, hu ht hc (of_decide_eq_false (Bool.not_eq_true' _ ▸ hk)), hr 2⟩
  · obtain ⟨ht, hk⟩ := Bool.and_eq_true_iff.mp h
    obtain ⟨ht, hc⟩ := taken_iff.mp ht
    exact ⟨_, hb ht hc (barred_decide.mp hk), hr 4⟩
  · obtain ⟨h, hf⟩ := Bool.and_eq_true_iff.mp h
    obtain ⟨h, hnb⟩ := Bool.and_eq_true_iff.mp h
    obtain ⟨ht, hk⟩ := Bool.and_eq_true_iff.mp h
    obtain ⟨ht, hc⟩ := taken_iff.mp ht
    rw [Bool.not_eq_true', ← Bool.not_eq_true] at hf hnb
    exact ⟨_, hm ht hc (of_decide_eq_true hk) (mt barred_decide.mpr hnb) (mt fine_decide.mpr hf), hr 3⟩

section
variable {n : Nat} {bodyOk : List Byte → Bool} {run : List Byte → State → Answer} {o : Out} {ok : Bool} {ks : List StepFact}

theorem command_code_runs (hr : runsNow s d (decide (dgNat d 0 1 = n)) (bodyOk (dgBody d)) = true) :
    command (· == n) bodyOk run d s = .next (replied d (run (dgBody d) (heard d s))) := by
  obtain ⟨ht, hc, -, hb, hf⟩ := runsNow_iff.mp hr
  exact command_runs hc ht hb fun _ => hf

/-- A command of the table obeys the shared facts, and its own where it answers as it runs. -/
theorem command_obeyed (hn : 1 ≤ n ∧ n ≤ 9) (hok : bodyOk (dgBody d) = ok) (ho : o = command (· == n) bodyOk run d s)
    (hks : (runsNow s d (decide (dgNat d 0 1 = n)) ok = true → o = .next (replied d (run (dgBody d) (heard d s)))) → Obeys o ks) :
    Obeys o (sharedFacts s d (decide (dgNat d 0 1 = n)) ok ++ ks) := by
  subst hok
  refine obeys_append.mpr ⟨sharedFacts_obeyed (fun _ hc hk => ?_) (fun ht hc hb => ?_) fun ht hc hk hb hf => ?_, hks fun hr => ?_⟩
  · have hd : dgCode d = n := of_decide_eq_true hc
    exact absurd (⟨by omega, by omega⟩ : Known d) hk
  · exact ho.trans (command_barred hc ht hb)
  · exact ho.trans (command_malformed hc ht hk hb hf)
  · exact ho.trans (command_code_runs hr)

end

/-! The commands' own effects (R53, R54). -/

theorem obeys_replied {o : Out} {ok : Bool} {must : State → Bool} {d : List Byte} {a : Answer}
    (ho : ok = true → o = .next (replied d a)) (hm : ok = true → must (replied d a) = true) : Obeys o [{ ok := ok, must := must }] :=
  obeys_single fun h => ⟨_, ho h, hm h⟩

theorem statusFields_heard : statusFields (heard d s) = statusFields s := by
  obtain ⟨ms, im, h⟩ := heard_eq d s
  rw [h]
  rfl

theorem snapBytes_heard (k : Nat) : snapBytes (heard d s) k = snapBytes s k := by
  obtain ⟨ms, im, h⟩ := heard_eq d s
  rw [h]
  rfl

theorem status_obeyed : Obeys (exec (.status d) s) (commandFacts (.status d) s) :=
  command_obeyed (n := 1) ⟨by decide, by decide⟩ rfl (show exec (.status d) s = execStatus d s from rfl) fun ho =>
    obeys_replied ho fun _ => statusFields_heard (s := s) (d := d) ▸ working_heard.answers _ _

theorem rdsnap_obeyed : Obeys (exec (.rdsnap d) s) (commandFacts (.rdsnap d) s) := by
  refine command_obeyed (n := 6) ⟨by decide, by decide⟩ ?_ (show exec (.rdsnap d) s = execRdsnap d s from rfl) fun ho =>
    obeys_replied ho fun _ => ?_
  · exact (Bool.decide_and _ _).symm
  · rw [snapBytes_heard]
    exact working_heard.answers _ _

theorem rdlife_obeyed : Obeys (exec (.rdlife d) s) (commandFacts (.rdlife d) s) := by
  refine command_obeyed (n := 7) ⟨by decide, by decide⟩ rfl (show exec (.rdlife d) s = execRdlife d s from rfl) fun ho =>
    obeys_replied ho fun _ => ?_
  rw [boot_heard]
  exact working_heard.answers _ _

theorem setpkg_obeyed : Obeys (exec (.setpkg d) s) (commandFacts (.setpkg d) s) := by
  have hw := working_heard (s := s) (d := d)
  refine command_obeyed (n := 8) ⟨by decide, by decide⟩ ?_ (show exec (.setpkg d) s = execSetpkg d s from rfl) fun ho =>
    obeys_replied ho fun _ => ?_
  · exact (Bool.decide_and _ _).symm
  · rw [Bool.and_right_comm, Bool.and_eq_true]
    have hu : Working s d { heard d s with boot := { (heard d s).boot with pkgPending := some (BitVec.ofNat 10 (dgNat (dgBody d) 0 2)) } } :=
      ⟨hw.seq, hw.flash, hw.groups, hw.teams, hw.replies⟩
    exact ⟨hu.answers _ _, beq_iff_eq.mpr rfl⟩

theorem unknownCommand_obeyed : Obeys (exec (.unknownCommand d) s) (commandFacts (.unknownCommand d) s) := by
  have hx : exec (.unknownCommand d) s = execUnknownCommand d s := rfl
  have hno {p : Prop} (hc : decide (dgNat d 0 1 = 0 ∨ 10 ≤ dgNat d 0 1) = true) (hk : Known d) : p := by
    have hd : dgCode d = 0 ∨ 10 ≤ dgCode d := of_decide_eq_true hc
    omega
  have hs : Obeys (exec (.unknownCommand d) s) (sharedFacts s d (decide (dgNat d 0 1 = 0 ∨ 10 ≤ dgNat d 0 1)) true) := by
    refine sharedFacts_obeyed (fun ht hc hk => ?_) (fun _ hc hb => hno hc hb.2.1) fun _ hc hk _ _ => hno hc hk
    rw [hx]
    refine command_runs ?_ ht (fun hb => hk hb.2.1) fun hk' => absurd hk' hk
    exact (Bool.decide_or _ _).symm.trans hc
  exact obeys_append.mpr ⟨hs, obeys_nil⟩

/-- A quote begins with its nonce and the measurement. -/
theorem formQuote_eq (nonce : List Byte) (s : State) : ∃ q, formQuote nonce s = { s with
    draws := s.draws + 1
    boot := { s.boot with quoteFor := some nonce, quote := nonce ++ beBytes s.boot.meas.toNat 32 ++ q } } := by
  unfold formQuote
  dsimp only
  simp only [List.append_assoc]
  exact ⟨_, rfl⟩

theorem working_formQuote (nonce : List Byte) : Working s d (formQuote nonce (heard d s)) := by
  have hw := working_heard (s := s) (d := d)
  obtain ⟨q, hform⟩ := formQuote_eq nonce (heard d s)
  rw [hform]
  exact ⟨hw.seq, hw.flash, hw.groups, hw.teams, hw.replies⟩

theorem take_quote {nonce : List Byte} (h : nonce.length = 32) (s : State) :
    (formQuote nonce s).boot.quote.take 64 = nonce ++ beBytes s.boot.meas.toNat 32 := by
  obtain ⟨q, hform⟩ := formQuote_eq nonce s
  rw [hform]
  exact List.take_left' (by rw [List.length_append, h, length_beBytes])

theorem attest_obeyed : Obeys (exec (.attest d) s) (commandFacts (.attest d) s) := by
  have hw := working_heard (s := s) (d := d)
  have hfor : (heard d s).boot.quoteFor = s.boot.quoteFor := by rw [boot_heard]
  have hquote : (heard d s).boot.quote = s.boot.quote := by rw [boot_heard]
  have hmeas : (heard d s).boot.meas = s.boot.meas := by rw [boot_heard]
  refine command_obeyed (n := 4) ⟨by decide, by decide⟩ rfl (show exec (.attest d) s = execAttest d s from rfl) fun ho =>
    obeys_cons.mpr ⟨fun h => ?_, obeys_single fun h => ?_⟩
  · obtain ⟨hr, hq⟩ := Bool.and_eq_true_iff.mp h
    refine ⟨_, ho hr, ?_⟩
    rw [if_pos (hfor.trans (of_decide_eq_true hq)), Bool.and_eq_true]
    exact ⟨hquote ▸ hw.answers _ _, beq_iff_eq.mpr hquote⟩
  · obtain ⟨hr, hq⟩ := Bool.and_eq_true_iff.mp h
    obtain ⟨-, -, -, -, -, hok⟩ := runsNow_iff.mp hr
    have hlen : ((dgBody d).take 32).length = 32 := by
      rw [List.length_take, of_decide_eq_true hok]
      rfl
    obtain ⟨hk, hres⟩ := Bool.and_eq_true_iff.mp ((working_formQuote (s := s) (d := d) ((dgBody d).take 32)).answers 0
      (partOf (formQuote ((dgBody d).take 32) (heard d s)).boot.quote (dgNat (dgBody d) 32 4)))
    refine ⟨_, ho hr, ?_⟩
    rw [if_neg (hfor ▸ of_decide_eq_true hq), Bool.and_eq_true, Bool.and_eq_true, Bool.and_eq_true]
    exact ⟨⟨⟨hk, beq_iff_eq.mpr rfl⟩, beq_iff_eq.mpr ((take_quote hlen _).trans (by rw [hmeas]))⟩, hres⟩

end Sys2Proof.Machine

namespace Sys2Proof.Machine
open Claims
variable {s t u : State} {d : List Byte}

theorem replied_congr {o : Out} {a b : Answer} (h : o = .next (replied d a)) (e : a = b) : o = .next (replied d b) := e ▸ h

theorem rootTrigger_one (h : s.io.triggers = 1) : rootTrigger s = broadcast { s with io := { s.io with triggers := 0 } } := if_pos h

@[simp] theorem io_replied (a : Answer) : (replied d a).io = a.2.2.io := rfl

/-- What a trigger by command leaves at the root: it is sent at once. -/
def triggered (d : List Byte) (s : State) : State := broadcast { heard d s with io := { (heard d s).io with triggers := 0 } }

theorem working_triggered : Working s d (triggered d s) :=
  have hw := working_heard (s := s) (d := d)
  ⟨hw.seq, hw.flash, hw.groups, hw.teams, hw.replies⟩

/-- Triggers that come in one clock are one. -/
theorem snapCommand_obeyed : Obeys (exec (.snapCommand d) s) (commandFacts (.snapCommand d) s) := by
  have hw := working_heard (s := s) (d := d)
  obtain ⟨ms, im, hh⟩ := heard_eq d s
  have hseq : (heard d s).io.trigSeq = s.io.trigSeq := by rw [hh]
  have hsnaps : (heard d s).io.snaps = s.io.snaps := by rw [hh]
  have hclock : (heard d s).clock = s.clock := by rw [hh]
  have hat : (heard d s).io.trigAt = s.io.trigAt := by rw [hh]
  have htr : (heard d s).io.triggers = s.io.triggers := by rw [hh]
  clear hh
  refine command_obeyed (n := 5) ⟨by decide, by decide⟩ rfl (show exec (.snapCommand d) s = execSnapCommand d s from rfl) fun ho =>
    obeys_cons.mpr ⟨fun h => ?_, obeys_single fun h => ?_⟩
  · obtain ⟨hr, ht⟩ := Bool.and_eq_true_iff.mp h
    obtain ⟨hk, hres⟩ := Bool.and_eq_true_iff.mp (hw.answers 0 [s.io.trigSeq])
    refine ⟨_, replied_congr (b := (0, [s.io.trigSeq], heard d s)) (ho hr) ?_, ?_⟩
    · dsimp only
      rw [if_pos (by rw [hat, hclock]; exact beq_iff_eq.mp ht), hseq]
    · rw [Bool.and_eq_true, Bool.and_eq_true, io_replied]
      exact ⟨⟨hk, beq_iff_eq.mpr hsnaps⟩, hres⟩
  · obtain ⟨h, ht⟩ := Bool.and_eq_true_iff.mp h
    obtain ⟨hr, h0⟩ := Bool.and_eq_true_iff.mp h
    obtain ⟨hk, hres⟩ := Bool.and_eq_true_iff.mp (working_triggered.answers (s := s) (d := d) 0 [s.io.trigSeq + 1])
    have hsent : (triggered d s).io.trigSeq = s.io.trigSeq + 1 := congrArg (· + 1) hseq
    have hone : (heard d s).io.triggers + 1 = 1 := by rw [htr, beq_iff_eq.mp h0]
    refine ⟨_, replied_congr (b := (0, [s.io.trigSeq + 1], triggered d s)) (ho hr) ?_, ?_⟩
    · dsimp only
      rw [if_neg (by rw [hat, hclock]; exact bne_iff_ne.mp ht), rootTrigger_one hone, ← hsent]
      rfl
    · rw [Bool.and_eq_true, Bool.and_eq_true, Bool.and_eq_true, io_replied]
      refine ⟨⟨⟨hk, beq_iff_eq.mpr hsent⟩, hres⟩, List.all_eq_true.mpr fun k hk => beq_iff_eq.mpr ((broadcast_due k hk).trans ?_)⟩
      dsimp only
      rw [hseq, hsnaps, hclock]

end Sys2Proof.Machine

namespace Sys2Proof.Machine
open Claims
variable {s t u : State} {d : List Byte}

@[simp] theorem teams_replied (a : Answer) : (replied d a).teams = a.2.2.teams := rfl

/-- The word of CTXCMD that kills a context, and the status that it leaves there. -/
theorem killWord_fields {c : Nat} (h : c < 4096) :
    bitsN (BitVec.ofNat 32 (2 ^ 24 + c)).toNat 25 24 = 1 ∧ (BitVec.ofNat 32 (2 ^ 24 + c)).toNat % 4096 = c := by
  rw [BitVec.toNat_ofNat]
  unfold bitsN
  omega

theorem ctxStatus_field {st c : Nat} (hs : st < 16) (h : c < 4096) (u : State) :
    bitsN (ctxStatus st 1 c u).io.ctxcmd.toNat 31 28 = st := by
  have hx : (ctxStatus st 1 c u).io.ctxcmd.toNat = st * 2 ^ 28 + 1 * 2 ^ 24 + c := by
    refine (BitVec.toNat_ofNat _ _).trans (Nat.mod_eq_of_lt ?_)
    omega
  rw [hx]
  unfold bitsN
  omega

/-- A KILLCTX answers with the status that CTXCMD keeps. -/
theorem killctx_answer {st c : Nat} (hs : st < 16) (h : c < 4096) (hc : ctxCommand 1 c s = (st, u)) :
    writeCtxcmd (BitVec.ofNat 32 (2 ^ 24 + c)) s = ctxStatus st 1 c u ∧
      Maps.natLe (bitsN (ctxStatus st 1 c u).io.ctxcmd.toNat 31 28) 1 = Maps.natLe st 1 := by
  obtain ⟨hop, hi⟩ := killWord_fields h
  rw [writeCtxcmd_eq _ hop, hi, hc, ctxStatus_field hs h]
  exact ⟨rfl, rfl⟩

theorem ctxValid_heard (c : Nat) : ctxValid (heard d s) c = ctxValid s c := by
  obtain ⟨ms, im, h⟩ := heard_eq d s
  rw [h]
  rfl

theorem killctx_obeyed : Obeys (exec (.killctx d) s) (commandFacts (.killctx d) s) := by
  have hw := working_heard (s := s) (d := d)
  refine command_obeyed (n := 9) ⟨by decide, by decide⟩ (Bool.decide_and _ _).symm
    (show exec (.killctx d) s = execKillctx d s from rfl) fun ho => obeys_cons.mpr ⟨fun h => ?_, obeys_single fun h => ?_⟩
  · obtain ⟨hr, hc⟩ := Bool.and_eq_true_iff.mp h
    obtain ⟨-, -, -, -, -, hok⟩ := runsNow_iff.mp hr
    obtain ⟨-, hlt⟩ := of_decide_eq_true hok
    have hgone : dgNat (dgBody d) 0 2 = 0 ∨ ctxValid (heard d s) (dgNat (dgBody d) 0 2) = (1 == 0) := by
      rw [ctxValid_heard]
      simpa [imp_iff_not_or] using hc
    obtain ⟨hcmd, hst⟩ := killctx_answer (by decide) hlt (ctxCommand_refused (by decide) hgone)
    have hu : Working s d (ctxStatus 4 1 (dgNat (dgBody d) 0 2) (heard d s)) := ⟨hw.seq, hw.flash, hw.groups, hw.teams, hw.replies⟩
    refine ⟨_, replied_congr (b := (0, [4], ctxStatus 4 1 (dgNat (dgBody d) 0 2) (heard d s))) (ho hr) ?_, ?_⟩
    · dsimp only
      rw [hcmd, hst]
      rfl
    · rw [Bool.and_eq_true, io_replied]
      exact ⟨hu.answers 0 [4], beq_iff_eq.mpr rfl⟩
  · obtain ⟨hr, hc⟩ := Bool.and_eq_true_iff.mp h
    obtain ⟨hc, hv⟩ := Bool.and_eq_true_iff.mp hc
    obtain ⟨-, -, -, -, -, hok⟩ := runsNow_iff.mp hr
    obtain ⟨-, hlt⟩ := of_decide_eq_true hok
    obtain ⟨hcmd, hst⟩ := killctx_answer (by decide) hlt (ctxCommand_kill (of_decide_eq_true hc) ((ctxValid_heard _).trans hv))
    refine ⟨_, replied_congr (b := (0, [0], ctxStatus 0 1 (dgNat (dgBody d) 0 2) (killContext (dgNat (dgBody d) 0 2) (heard d s)))) (ho hr) ?_, ?_⟩
    · dsimp only
      rw [hcmd, hst]
      rfl
    · rw [Bool.and_eq_true, Bool.and_eq_true, io_replied, teams_replied]
      refine ⟨⟨responds_replied ?_, beq_iff_eq.mpr (congrArg (BitVec.ofNat 32) (by omega))⟩,
        List.all_eq_true.mpr fun e he => bne_iff_ne.mpr (teams_killContext he)⟩
      exact (congrArg Boot.replies (kills_killContext _ (heard d s)).boot).trans hw.replies

/-! Images (R47, R54). -/

/-- The bytes of an image so far, with a chunk's. -/
def joined (b : List Byte) (s : State) : List Byte := (if dgNat b 0 4 = 0 then [] else s.boot.stream) ++ b.drop 8

/-- A state with the image's bytes so far. -/
def streaming (img : List Byte) (s : State) : State := { s with boot := { s.boot with stream := img } }

theorem takeChunk_gap {b : List Byte} (h : ¬ (dgNat b 0 4 = 0 ∨ dgNat b 0 4 = s.boot.stream.length)) : takeChunk b s = (3, [], s) := by
  unfold takeChunk
  exact if_pos (not_or.mp h)

theorem takeChunk_follows {b : List Byte} (h : dgNat b 0 4 = 0 ∨ dgNat b 0 4 = s.boot.stream.length) : takeChunk b s =
    if bitN (dgNat b 4 1) 0 then takeImage (joined b s) (streaming (joined b s) s) else (0, [], streaming (joined b s) s) := by
  unfold takeChunk
  exact if_neg (by rwa [← not_or, not_not])

/-- The image stands in flash, and no bytes of another are held. -/
def flashed (img : List Byte) (s : State) : State := { s with boot := { s.boot with stream := [], flash := img } }

/-- What the ROM checks of an image rests on the fuses alone. -/
theorem imagePasses_congr {b b' : Boot} (hk : b.keyDigest = b'.keyDigest) (hr : b.rollback = b'.rollback) (img : List Byte) :
    imagePasses b img = imagePasses b' img := by
  unfold imagePasses
  rw [hk, hr]

theorem imagePasses_streaming (x img : List Byte) (s : State) : imagePasses (streaming x s).boot img = imagePasses s.boot img :=
  imagePasses_congr rfl rfl img

theorem takeImage_eq (img : List Byte) (s : State) : takeImage img s =
    if imagePasses (streaming [] s).boot img then
      (0, [], if (flashed img s).boot.phase = .waiting then startFirmware img (flashed img s) else flashed img s)
    else (1, [], streaming [] s) := rfl

/-- `n` components measured: as many entries more in the log. -/
def Measured (n : Nat) (s t : State) : Prop :=
  ∃ me l, l.length = n ∧ t = { s with boot := { s.boot with meas := me, mlog := s.boot.mlog ++ l } }

theorem measured_measure (code : BitVec 16) (c : List Byte) (s : State) : Measured 1 s (measure code c s) :=
  ⟨sm3 (beBytes s.boot.meas.toNat 32 ++ beBytes (sm3 c).toNat 32), [(code, sm3 c)], rfl, rfl⟩

theorem Measured.trans {n m : Nat} (h : Measured n s t) (h' : Measured m t u) : Measured (n + m) s u := by
  obtain ⟨me, l, rfl, rfl⟩ := h
  obtain ⟨me', l', rfl, rfl⟩ := h'
  exact ⟨me', l ++ l', List.length_append, by rw [← List.append_assoc]⟩

theorem measured_foldl (code : Nat → BitVec 16) (part : Nat → List Byte) (is : List Nat) : ∀ s : State,
    Measured is.length s (is.foldl (fun s i => measure (code i) (part i) s) s) := by
  induction is with
  | nil => exact fun s => ⟨s.boot.meas, [], rfl, by rw [List.append_nil]; rfl⟩
  | cons i is ih =>
    intro s
    rw [List.length_cons, Nat.add_comm]
    exact (measured_measure (code i) (part i) s).trans (ih _)

theorem countLife_eq (i : LifeItem) (n : Nat) (s : State) : ∃ sr, countLife i n s = { s with boot := { s.boot with sram := sr } } := ⟨_, rfl⟩

/-- Control cores begun in a mode. -/
def upCtls (m : CtlMode) (cs : List Nat) (ctl : AMap CtlCore) : AMap CtlCore := cs.foldl (fun c i => Maps.set c i { up := true, mode := m }) ctl

theorem foldl_startCtl (m : CtlMode) (f : Nat → Nat) (is : List Nat) : ∀ s : State,
    is.foldl (fun s i => startCtl m (f i) s) s = { s with ctl := upCtls m (is.map f) s.ctl } := by
  induction is with
  | nil => exact fun _ => rfl
  | cons i is ih => exact fun s => ih (startCtl m (f i) s)

/-- The firmware's components measured, and control cores 0 to 7 begun. -/
def firmwareRuns (img : List Byte) (s : State) : State :=
  (List.range 8).foldl (fun s cc => startCtl .machine cc s) (countLife .boots 1
    ((List.range 3).foldl (fun s i => measure (Config.componentCode (2 + i)) (Config.bodyPart i (imageBody img)) s)
      (measure (Config.componentCode 1) (img.take 128) s)))

theorem startFirmware_runs (img : List Byte) (s : State) : startFirmware img s = { firmwareRuns img s with
    boot := { (firmwareRuns img s).boot with
      phase := .starting 0, image := img, opKeys := (Config.operatorKeys (imageBody img)).take 4, addresses := Config.mgmtAddresses (imageBody img)
      svn := imageSvn img, lastSeq := 0, stream := []
      rollback := max (firmwareRuns img s).boot.rollback (min 64 (Config.fusesToBlow (imageBody img))) } } := rfl

theorem firmwareRuns_eq (img : List Byte) (s : State) : ∃ me l sr, l.length = 4 ∧ firmwareRuns img s = { s with
    ctl := upCtls .machine (List.range 8) s.ctl, boot := { s.boot with meas := me, mlog := s.boot.mlog ++ l, sram := sr } } := by
  have hctl : ∀ v, (List.range 8).foldl (fun s cc => startCtl .machine cc s) v = { v with ctl := upCtls .machine (List.range 8) v.ctl } :=
    foldl_startCtl .machine (fun i => i) (List.range 8)
  obtain ⟨me, l, hl, h⟩ := (measured_measure (Config.componentCode 1) (img.take 128) s).trans
    (measured_foldl (fun i => Config.componentCode (2 + i)) (fun i => Config.bodyPart i (imageBody img)) (List.range 3) _)
  unfold firmwareRuns
  rw [h, hctl]
  obtain ⟨sr, h'⟩ := countLife_eq .boots 1 { s with boot := { s.boot with meas := me, mlog := s.boot.mlog ++ l } }
  rw [h']
  exact ⟨me, l, sr, hl, rfl⟩

/-- What the firmware's start leaves (R46, R49). -/
structure Started (img : List Byte) (s t : State) : Prop where
  phase : t.boot.phase = .starting 0
  seq : t.boot.lastSeq = 0
  image : t.boot.image = img
  svn : t.boot.svn = imageSvn img
  stream : t.boot.stream = []
  flash : t.boot.flash = s.boot.flash
  replies : t.boot.replies = s.boot.replies
  mlog : t.boot.mlog.length = s.boot.mlog.length + 4
  rollback : s.boot.rollback ≤ t.boot.rollback
  ctl : t.ctl = upCtls .machine (List.range 8) s.ctl
  dies : t.dies = s.dies

theorem started_startFirmware (img : List Byte) (s : State) : Started img s (startFirmware img s) := by
  obtain ⟨me, l, sr, hl, h⟩ := firmwareRuns_eq img s
  rw [startFirmware_runs, h]
  exact ⟨rfl, rfl, rfl, rfl, rfl, rfl, rfl, by rw [← hl]; exact List.length_append, Nat.le_max_left _ _, rfl, rfl⟩

/-- A whole image taken: it starts where the device waits for it. -/
theorem takeImage_leaves {img : List Byte} (h : imagePasses s.boot img = true) : ∃ u, takeImage img s = (0, [], u) ∧
    u.boot.replies = s.boot.replies ∧ u.boot.flash = img ∧ u.boot.stream = [] ∧
    u.boot.phase = if s.boot.phase = .waiting then .starting 0 else s.boot.phase := by
  refine ⟨_, by rw [takeImage_eq, imagePasses_streaming, if_pos h], ?_⟩
  have hphase : (flashed img s).boot.phase = s.boot.phase := rfl
  rw [hphase]
  by_cases hw : s.boot.phase = .waiting
  · have hs := started_startFirmware img (flashed img s)
    rw [if_pos hw, if_pos hw]
    exact ⟨hs.replies, hs.flash, hs.stream, hs.phase⟩
  · rw [if_neg hw, if_neg hw]
    exact ⟨rfl, rfl, rfl, rfl⟩

theorem takeImage_fails {img : List Byte} (h : imagePasses s.boot img = false) : takeImage img s = (1, [], streaming [] s) := by
  rw [takeImage_eq, imagePasses_streaming, h]
  rfl

theorem loadimg_obeyed : Obeys (exec (.loadimg d) s) (commandFacts (.loadimg d) s) := by
  have hw := working_heard (s := s) (d := d)
  have hstream : (heard d s).boot.stream = s.boot.stream := by rw [boot_heard]
  have hphase : (heard d s).boot.phase = s.boot.phase := by rw [boot_heard]
  have hpass (x img : List Byte) : imagePasses (streaming x (heard d s)).boot img = imagePasses s.boot img := by
    rw [imagePasses_streaming, boot_heard]
    exact imagePasses_congr rfl rfl img
  have hwork (img : List Byte) : Working s d (streaming img (heard d s)) := ⟨hw.seq, hw.flash, hw.groups, hw.teams, hw.replies⟩
  have hchunk (h : decide (dgNat (dgBody d) 0 4 = 0 ∨ dgNat (dgBody d) 0 4 = s.boot.stream.length) = true) :
      takeChunk (dgBody d) (heard d s) = if bitN (dgNat (dgBody d) 4 1) 0 then
        takeImage (joined (dgBody d) s) (streaming (joined (dgBody d) s) (heard d s))
        else (0, [], streaming (joined (dgBody d) s) (heard d s)) := by
    rw [takeChunk_follows (by rw [hstream]; exact of_decide_eq_true h)]
    unfold joined
    rw [hstream]
  refine command_obeyed (n := 3) ⟨by decide, by decide⟩ ?_ (show exec (.loadimg d) s = execLoadimg d s from rfl) fun ho => ?_
  · simp only [Bool.decide_and, Bool.and_assoc]
    rfl
  · refine obeys_cons.mpr ⟨fun h => ?_, obeys_cons.mpr ⟨fun h => ?_, obeys_cons.mpr ⟨fun h => ?_, obeys_single fun h => ?_⟩⟩⟩
    · obtain ⟨hr, hf⟩ := Bool.and_eq_true_iff.mp h
      refine ⟨_, replied_congr (ho hr) (takeChunk_gap (by rw [hstream]; simpa using hf)), ?_⟩
      rw [Bool.and_eq_true]
      exact ⟨hw.answers 3 [], beq_iff_eq.mpr hstream⟩
    · obtain ⟨h, hl⟩ := Bool.and_eq_true_iff.mp h
      obtain ⟨hr, hf⟩ := Bool.and_eq_true_iff.mp h
      refine ⟨_, replied_congr (ho hr) ((hchunk hf).trans (if_neg (by simpa using hl))), ?_⟩
      rw [Bool.and_eq_true]
      exact ⟨(hwork _).answers 0 [], beq_iff_eq.mpr rfl⟩
    · obtain ⟨h, hp⟩ := Bool.and_eq_true_iff.mp h
      obtain ⟨h, hl⟩ := Bool.and_eq_true_iff.mp h
      obtain ⟨hr, hf⟩ := Bool.and_eq_true_iff.mp h
      refine ⟨_, replied_congr (ho hr) ((hchunk hf).trans ((if_pos hl).trans (takeImage_fails ?_))), ?_⟩
      · rw [hpass]
        exact Bool.not_eq_true' _ ▸ hp
      · rw [Bool.and_eq_true]
        exact ⟨(hwork []).answers 1 [], rfl⟩
    · obtain ⟨h, hp⟩ := Bool.and_eq_true_iff.mp h
      obtain ⟨h, hl⟩ := Bool.and_eq_true_iff.mp h
      obtain ⟨hr, hf⟩ := Bool.and_eq_true_iff.mp h
      obtain ⟨u, hu, hrep, hflash, hempty, hph⟩ := takeImage_leaves ((hpass (joined (dgBody d) s) (joined (dgBody d) s)).trans hp)
      refine ⟨_, replied_congr (ho hr) ((hchunk hf).trans ((if_pos hl).trans hu)), ?_⟩
      rw [Bool.and_eq_true, Bool.and_eq_true, Bool.and_eq_true]
      refine ⟨⟨⟨responds_replied (hrep.trans hw.replies), beq_iff_eq.mpr hflash⟩, List.isEmpty_iff.mpr hempty⟩, beq_iff_eq.mpr (hph.trans ?_)⟩
      have hv : (streaming (joined (dgBody d) s) (heard d s)).boot.phase = s.boot.phase := hphase
      simp only [hv, beq_iff_eq]

/-! RESET (R53, R62). -/

/-- What a reset leaves of the package. -/
theorem reset_leaves (t : State) : (resetDevice t).groups = [] ∧ (resetDevice t).teams = [] ∧ (resetDevice t).dies = [] ∧
    (resetDevice t).mem.llc = [] ∧ (resetDevice t).boot.phase = .off ∧ (resetDevice t).boot.flash = t.boot.flash ∧
    (resetDevice t).boot.stream = [] ∧ (resetDevice t).boot.pkgPending = t.boot.pkgPending ∧ (resetDevice t).boot.replies = t.boot.replies ∧
    (resetDevice t).io = {} ∧ (resetDevice t).ctl = [] := ⟨rfl, rfl, rfl, rfl, rfl, rfl, rfl, rfl, rfl, rfl, rfl⟩

theorem execReset_of_command (h : command (· == 2) (fun b => b.isEmpty) (fun _ s => (0, [], s)) d s = .next t) :
    execReset d s = .next (if accepted s.boot d && (dgBody d).isEmpty && decide (dgNat d 1 1 < 2) then resetDevice t else t) := by
  unfold execReset
  rw [h]

theorem responds_congr {st : Nat} {fields : List Byte} (h : t.boot.replies = u.boot.replies) :
    responds s t d st fields = responds s u d st fields := by
  unfold responds
  rw [h]

theorem reset_obeyed : Obeys (exec (.reset d) s) (commandFacts (.reset d) s) := by
  have hx : exec (.reset d) s = execReset d s := rfl
  have hn (hc : decide (dgNat d 0 1 = 2) = true) : dgCode d = 2 := of_decide_eq_true hc
  refine obeys_append.mpr ⟨sharedFacts_obeyed (fun _ hc hk => ?_) (fun _ hc hb => ?_) (fun ht hc hk hb hf => ?_), obeys_single fun h => ?_⟩
  · have := hn hc
    exact absurd (⟨by omega, by omega⟩ : Known d) hk
  · have := hn hc
    have := hb.2.2
    omega
  · rw [hx, execReset_of_command (command_malformed hc ht hk hb hf), if_neg]
    rw [Bool.and_assoc, Bool.and_eq_true, Bool.and_comm]
    exact fun h => hf (fine_decide.mp h.2)
  · obtain ⟨ht, hc, -, -, hf⟩ := runsNow_iff.mp h
    refine ⟨_, hx.trans (execReset_of_command (command_code_runs h)), ?_⟩
    rw [if_pos (by rw [Bool.and_assoc, ht.accepted, Bool.true_and, Bool.and_comm]; exact fine_decide.mpr hf)]
    obtain ⟨hg, htm, hd, hl, hp, hfl, hst, hpp, hrep, hio, hctl⟩ := reset_leaves (replied d (0, [], heard d s))
    have hres : responds s (resetDevice (replied d (0, [], heard d s))) d 0 [] = true :=
      (responds_congr hrep).trans (responds_replied working_heard.replies)
    have hflash : (replied d (0, [], heard d s)).boot.flash = s.boot.flash := (working_heard (d := d)).flash
    have hpend : (replied d (0, [], heard d s)).boot.pkgPending = s.boot.pkgPending :=
      (congrArg Boot.pkgPending (boot_heard (d := d) (s := s))).trans rfl
    simp only [hres, hg, htm, hd, hl, hp, hfl, hst, hpp, hio, hctl, hflash, hpend, List.isEmpty_nil, beq_self_eq_true, Bool.and_self]

theorem commandFacts_obeyed (i : Instr) : Obeys (exec i s) (commandFacts i s) := by
  cases i with
  | status d => exact status_obeyed
  | reset d => exact reset_obeyed
  | loadimg d => exact loadimg_obeyed
  | attest d => exact attest_obeyed
  | snapCommand d => exact snapCommand_obeyed
  | rdsnap d => exact rdsnap_obeyed
  | rdlife d => exact rdlife_obeyed
  | setpkg d => exact setpkg_obeyed
  | killctx d => exact killctx_obeyed
  | unknownCommand d => exact unknownCommand_obeyed
  | _ => exact obeys_nil

/-- Settles O55: an accepted datagram has the shared answers by its code, flags and body, else its command's own. -/
theorem managementCommands : Obligations.ManagementCommands := factHolds_iff.mpr fun i _ => commandFacts_obeyed i

end Sys2Proof.Machine

namespace Sys2Proof.Machine
open Claims
variable {s t u : State}

/-! What a port serves leaves boot as it was (R27, R28). -/

theorem boot_queueMsg (q tc : Nat) (m : FabricMsg) : (queueMsg q tc m s).boot = s.boot := by
  unfold queueMsg queueFlits
  dsimp only
  split
  · split <;> rfl
  · rfl

theorem boot_passModule (l : Option LinkId) (tc : BitVec 2) : (passModule l tc s).boot = s.boot := by
  cases l <;> rfl

theorem boot_crossTo (w : Way) (tc : BitVec 2) : (crossTo w tc s).boot = s.boot := by
  unfold crossTo
  split
  · exact boot_passModule _ _
  · rfl

theorem boot_sent (p : Bool) (r : Req) (w : Way) : (if p then sendPcie r (crossTo w 2 s) else s).boot = s.boot := by
  cases p
  · rfl
  · exact boot_crossTo w 2

theorem boot_putReq (r : Req) : (putReq r s).boot = s.boot := boot_sent _ _ _

theorem boot_serveAccess (j src id asid pa size : Nat) (op : ReqOp) (data : BitVec 128) :
    (serveAccess j src id asid pa size op data s).boot = s.boot := by
  unfold serveAccess
  dsimp only
  split
  · rfl
  · split
    · exact boot_queueMsg _ _ _
    · split
      · exact boot_queueMsg _ _ _
      · exact boot_putReq _

theorem boot_serveScratch (j src id c handle off size : Nat) (op : ReqOp) (data : BitVec 128) :
    (serveScratch j src id c handle off size op data s).boot = s.boot := by
  unfold serveScratch
  split
  · rfl
  · split
    · exact boot_queueMsg _ _ _
    · exact boot_putReq _

theorem boot_serveMsg (j src : Nat) (m : FabricMsg) : (serveMsg j src m s).boot = s.boot := by
  unfold serveMsg
  cases m with
  | access => exact boot_serveAccess _ _ _ _ _ _ _ _
  | scratch => exact boot_serveScratch _ _ _ _ _ _ _ _ _
  | send =>
    dsimp only
    unfold freshId
    rfl
  | reply =>
    dsimp only
    split
    · split <;> rfl
    · rfl

theorem boot_serveClass (j : BitVec 7) (tc : BitVec 2) (n : Nat) : ∀ s : State, (serveClass j tc n s).boot = s.boot := by
  induction n with
  | zero => exact fun _ => rfl
  | succ n ih =>
    intro s
    unfold serveClass
    dsimp only
    split
    · rfl
    · rw [ih, boot_serveMsg, boot_setLink]

theorem boot_servePort (l : LinkId) : (servePort l s).boot = s.boot := by
  unfold servePort
  split
  · split
    · rfl
    · exact foldl_keeps (P := fun t : State => t.boot = s.boot) (fun t tc h => (boot_serveClass _ _ _ t).trans h) _ s rfl
  · rfl

/-! The device brought up (R48). -/

theorem get_upCtls_of_not_mem {m : CtlMode} {i : Nat} {cs : List Nat} : ∀ {c : AMap CtlCore}, i ∉ cs →
    Maps.get {} (upCtls m cs c) i = Maps.get {} c i := by
  induction cs with
  | nil => exact fun _ => rfl
  | cons j cs ih =>
    intro c h
    rw [List.mem_cons, not_or] at h
    obtain ⟨hj, hcs⟩ := h
    exact (ih hcs).trans (by rw [Maps.get_set, if_neg (Ne.symm hj)])

theorem get_upCtls {m : CtlMode} {i : Nat} {cs : List Nat} : ∀ {c : AMap CtlCore}, i ∈ cs →
    Maps.get {} (upCtls m cs c) i = { up := true, mode := m } := by
  induction cs with
  | nil => exact fun h => nomatch h
  | cons j cs ih =>
    intro c h
    by_cases hm : i ∈ cs
    · exact ih hm
    · obtain rfl := (List.mem_cons.mp h).resolve_right hm
      exact (get_upCtls_of_not_mem hm).trans (by rw [Maps.get_set, if_pos rfl])

theorem dieAt_releaseDie (d : Nat) (s : State) : dieAt (releaseDie d s) d = if d < 8 then
    { dieAt s d with running := true, cycleBase := s.clock, slipAt := s.clock, tokens := freshTokens s.clock } else
    { dieAt s d with running := true } := dieAt_onDie_same _

theorem running_releaseDie (d : Nat) (s : State) : (dieAt (releaseDie d s) d).running = true := by
  rw [dieAt_releaseDie]
  split <;> rfl

theorem st_foldl_up (l : LinkId) (ls : List LinkId) : ∀ s : State,
    (linkOf (ls.foldl (fun s l => setLink l { linkOf s l with st := .up } s) s) l).st = if l ∈ ls then .up else (linkOf s l).st := by
  induction ls with
  | nil => exact fun s => by rw [if_neg List.not_mem_nil]; rfl
  | cons j ls ih =>
    intro s
    rw [List.foldl_cons, ih, linkOf_setLink]
    by_cases hj : l = j
    · simp [hj]
    · simp [hj]

/-- The links that are picked come up, and no other changes its state. -/
theorem st_linksUp (p : LinkId → Bool) {l : LinkId} (hl : l ∈ allLinks) :
    (linkOf (linksUp p s) l).st = if p l then .up else (linkOf s l).st := by
  unfold linksUp
  rw [st_foldl_up]
  simp only [List.mem_filter, hl, true_and]

theorem boot_linksUp (p : LinkId → Bool) : (linksUp p s).boot = s.boot :=
  foldl_keeps (P := fun t : State => t.boot = s.boot) (f := fun s l => setLink l { linkOf s l with st := .up } s) (fun _ _ h => h) _ s rfl

/-- The state in which step `n` of the boot is made. -/
def nextPhase (n : Nat) (s : State) : State := { s with boot := { s.boot with phase := .starting (n + 1) } }

theorem exec_powerOn_starting {n : Nat} (h : s.boot.phase = .starting n) : exec .powerOn s = .next (bringUp n s) := by
  have hx : exec .powerOn s = execPowerOn s := rfl
  rw [hx]
  unfold execPowerOn
  rw [h]

theorem boot_assignPackage : (assignPackage s).boot = { s.boot with
    pkgPending := none, pkg := s.boot.pkgPending.or (Config.configuredPkg (imageBody s.boot.image)) } := by
  unfold assignPackage
  dsimp only
  refine (foldl_keeps (P := fun t : State => t.boot = _) (fun t l h => (boot_servePort l).trans h) _ _ rfl).trans ?_
  cases s.boot.pkgPending <;> rfl

theorem bringUp_zero : bringUp 0 s = { releaseDie 9 (nextPhase 0 s) with ctl := upCtls .machine ((List.range 8).map (8 + ·)) s.ctl } :=
  foldl_startCtl .machine (8 + ·) _ _

theorem bringUp_one : bringUp 1 s = startHbm (nextPhase 1 s) := rfl

theorem bringUp_die {n : Nat} (h : 2 ≤ n ∧ n < 10) : bringUp n s = releaseDie (n - 2) (nextPhase n s) := by
  unfold bringUp
  rw [if_neg (by omega), if_neg (by omega), if_pos h.2]
  rfl

theorem bringUp_ten : bringUp 10 s = linksUp (fun l => !isPort l) (nextPhase 10 s) := rfl

theorem bringUp_eleven : bringUp 11 s = linksUp isPort (nextPhase 11 s) := rfl

theorem bringUp_twelve : bringUp 12 s = assignPackage (nextPhase 12 s) := rfl

theorem bringUp_last {n : Nat} (h : 13 ≤ n) : bringUp n s = startOs (createContext0 (nextPhase n s)) := by
  unfold bringUp
  rw [if_neg (by omega), if_neg (by omega), if_neg (by omega), if_neg (by omega), if_neg (by omega), if_neg (by omega)]
  rfl

theorem boot_createContext0 : (createContext0 s).boot = s.boot := by
  unfold createContext0
  dsimp only
  simp only [(kills_setCtxField _ _ _ _).boot, boot_onMem]

/-- The operating system is measured and runs on control core 0 in S mode. -/
theorem started_startOs (s : State) : (startOs s).boot.phase = .running ∧ (startOs s).boot.mlog.length = s.boot.mlog.length + 1 ∧
    Maps.get {} (startOs s).ctl 0 = { up := true, mode := .supervisor } :=
  ⟨rfl, List.length_append, by unfold startOs startCtl; rw [Maps.get_set, if_pos rfl]⟩

theorem linksUp_facts {n : Nat} (p : LinkId → Bool) : ((linksUp p (nextPhase n s)).boot.phase == .starting (n + 1) &&
    allLinks.all fun l => (linkOf (linksUp p (nextPhase n s)) l).st == (if p l then .up else (linkOf s l).st)) = true := by
  rw [Bool.and_eq_true, boot_linksUp]
  exact ⟨beq_iff_eq.mpr rfl, List.all_eq_true.mpr fun l hl => beq_iff_eq.mpr (st_linksUp _ hl)⟩

/-- Each step of the boot does what R48 gives for its number. -/
theorem bringUpFacts_obeyed {n : Nat} {o : Out} (h : o = .next (bringUp n s)) : Obeys o (bringUpFacts n s) := by
  refine obeys_cons.mpr ⟨fun hn => ?_, obeys_cons.mpr ⟨fun hn => ?_, obeys_cons.mpr ⟨fun hn => ?_, obeys_cons.mpr ⟨fun hn => ?_,
    obeys_cons.mpr ⟨fun hn => ?_, obeys_cons.mpr ⟨fun hn => ?_, obeys_single fun hn => ?_⟩⟩⟩⟩⟩⟩
  · obtain rfl : n = 0 := beq_iff_eq.mp hn
    refine ⟨_, h.trans (congrArg _ bringUp_zero), Bool.and_eq_true_iff.mpr ⟨Bool.and_eq_true_iff.mpr ⟨beq_iff_eq.mpr rfl, running_releaseDie 9 _⟩,
      List.all_eq_true.mpr fun i hi => decide_eq_true ?_⟩⟩
    rw [get_upCtls (List.mem_map_of_mem hi)]
    exact ⟨rfl, rfl⟩
  · obtain rfl : n = 1 := beq_iff_eq.mp hn
    refine ⟨_, h.trans (congrArg _ bringUp_one), ?_⟩
    dsimp only
    rw [Bool.and_eq_true]
    exact ⟨beq_iff_eq.mpr rfl, beq_iff_eq.mpr rfl⟩
  · have hd := of_decide_eq_true hn
    refine ⟨_, h.trans (congrArg _ (bringUp_die hd)), ?_⟩
    dsimp only
    rw [dieAt_releaseDie, if_pos (by omega)]
    simp only [Bool.and_eq_true]
    exact ⟨⟨⟨beq_iff_eq.mpr rfl, trivial⟩, decide_eq_true rfl⟩, beq_iff_eq.mpr rfl⟩
  · obtain rfl : n = 10 := beq_iff_eq.mp hn
    refine ⟨_, h.trans (congrArg _ bringUp_ten), ?_⟩
    dsimp only
    exact linksUp_facts _
  · obtain rfl : n = 11 := beq_iff_eq.mp hn
    refine ⟨_, h.trans (congrArg _ bringUp_eleven), ?_⟩
    dsimp only
    exact linksUp_facts _
  · obtain rfl : n = 12 := beq_iff_eq.mp hn
    refine ⟨_, h.trans (congrArg _ bringUp_twelve), ?_⟩
    dsimp only
    rw [boot_assignPackage, Bool.and_eq_true, Bool.and_eq_true]
    exact ⟨⟨beq_iff_eq.mpr rfl, rfl⟩, beq_iff_eq.mpr rfl⟩
  · have hl := of_decide_eq_true hn
    obtain ⟨hphase, hlog, hctl⟩ := started_startOs (createContext0 (nextPhase n s))
    rw [boot_createContext0] at hlog
    refine ⟨_, h.trans (congrArg _ (bringUp_last hl)), ?_⟩
    dsimp only
    rw [hctl, hphase]
    simp only [Bool.and_eq_true]
    exact ⟨⟨⟨beq_iff_eq.mpr rfl, decide_eq_true hlog⟩, trivial⟩, rfl⟩

/-! The ROM (R46), the lifetime record (R62), the loss of the supply (R60). -/

/-- The device as the ROM finds it: I/O die 8 up, its first control core in M mode, the ROM measured. -/
def romRun (s : State) : State := measure (Config.componentCode 0) Config.romVersion (startCtl .machine 0 (releaseDie 8 s))

theorem runRom_eq (s : State) : runRom s =
    if imagePasses (romRun s).boot (romRun s).boot.flash then startFirmware (romRun s).boot.flash (romRun s) else awaitReload (romRun s) := rfl

/-- What the ROM's own run leaves. -/
theorem romRun_leaves (s : State) : ∃ me l, l.length = 1 ∧ (romRun s).boot = { s.boot with meas := me, mlog := s.boot.mlog ++ l } ∧
    (romRun s).groups = s.groups ∧ (dieAt (romRun s) 8).running = true := by
  obtain ⟨me, l, hl, h⟩ := measured_measure (Config.componentCode 0) Config.romVersion (startCtl .machine 0 (releaseDie 8 s))
  refine ⟨me, l, hl, ?_⟩
  unfold romRun
  rw [h]
  exact ⟨rfl, rfl, running_releaseDie 8 s⟩

theorem exec_powerOn_off (h : s.boot.phase = .off) : exec .powerOn s = .next (runRom s) := by
  have hx : exec .powerOn s = execPowerOn s := rfl
  rw [hx]
  unfold execPowerOn
  rw [h]

theorem imagePasses_romRun (s : State) : imagePasses (romRun s).boot (romRun s).boot.flash = imagePasses s.boot s.boot.flash := by
  obtain ⟨me, l, -, hb, -, -⟩ := romRun_leaves s
  rw [hb]
  exact imagePasses_congr rfl rfl _

/-- What a device that waits for a reload has. -/
theorem awaitReload_leaves (s : State) : (awaitReload s).boot.phase = .waiting ∧ (awaitReload s).boot.lastSeq = 0 ∧
    (awaitReload s).boot.flash = s.boot.flash ∧ (awaitReload s).boot.mlog = s.boot.mlog ∧ (awaitReload s).boot.rollback = s.boot.rollback ∧
    (awaitReload s).groups = s.groups ∧ (awaitReload s).dies = s.dies ∧
    Maps.get 0 (awaitReload s).boot.sram.counts LifeItem.bootFailures.key =
      min (2 ^ 32 - 1) (Maps.get 0 s.boot.sram.counts LifeItem.bootFailures.key + 1) :=
  ⟨rfl, rfl, rfl, rfl, rfl, rfl, rfl, (Maps.get_set ..).trans (if_pos rfl)⟩

theorem powerOn_passes (h : s.boot.phase = .off) (hp : imagePasses s.boot s.boot.flash = true) :
    ∃ t, exec .powerOn s = .next t ∧ (dieAt t 8).running = true ∧ t.boot.phase = .starting 0 ∧ t.boot.lastSeq = 0 ∧
      t.boot.flash = s.boot.flash ∧ t.boot.image = s.boot.flash ∧ t.boot.svn = imageSvn s.boot.flash ∧
      t.boot.mlog.length = s.boot.mlog.length + 5 ∧ s.boot.rollback ≤ t.boot.rollback ∧
      ∀ i ∈ List.range 8, (Maps.get {} t.ctl i).up = true ∧ (Maps.get {} t.ctl i).mode = .machine := by
  obtain ⟨me, l, hl, hb, -, hd⟩ := romRun_leaves s
  have hs := started_startFirmware (romRun s).boot.flash (romRun s)
  rw [← imagePasses_romRun] at hp
  have hflash : (romRun s).boot.flash = s.boot.flash := by rw [hb]
  refine ⟨_, (exec_powerOn_off h).trans (congrArg _ ((runRom_eq s).trans (if_pos hp))), ?_, hs.phase, hs.seq, hs.flash.trans hflash,
    hs.image.trans hflash, hs.svn.trans (congrArg imageSvn hflash), ?_, ?_, fun i hi => ?_⟩
  · unfold dieAt at hd ⊢
    rw [hs.dies, hd]
  · have hlen : (romRun s).boot.mlog.length = s.boot.mlog.length + 1 := by
      rw [hb, ← hl]
      exact List.length_append
    rw [hs.mlog, hlen]
  · exact le_trans (by rw [hb]) hs.rollback
  · rw [hs.ctl, get_upCtls hi]
    exact ⟨rfl, rfl⟩

theorem powerOn_fails (h : s.boot.phase = .off) (hp : imagePasses s.boot s.boot.flash = false) :
    ∃ t, exec .powerOn s = .next t ∧ (dieAt t 8).running = true ∧ t.boot.phase = .waiting ∧ t.boot.lastSeq = 0 ∧
      t.boot.flash = s.boot.flash ∧ t.boot.mlog.length = s.boot.mlog.length + 1 ∧ t.boot.rollback = s.boot.rollback ∧ t.groups = s.groups ∧
      Maps.get 0 t.boot.sram.counts LifeItem.bootFailures.key =
        min (2 ^ 32 - 1) (Maps.get 0 s.boot.sram.counts LifeItem.bootFailures.key + 1) := by
  obtain ⟨me, l, hl, hb, hg, hd⟩ := romRun_leaves s
  obtain ⟨hph, hseq, hfl, hml, hrb, hgr, hdies, hcount⟩ := awaitReload_leaves (romRun s)
  rw [← imagePasses_romRun, ← Bool.not_eq_true] at hp
  refine ⟨_, (exec_powerOn_off h).trans (congrArg _ ((runRom_eq s).trans (if_neg hp))), ?_, hph, hseq, ?_, ?_, ?_, hgr.trans hg, ?_⟩
  · unfold dieAt at hd ⊢
    rw [hdies, hd]
  · rw [hfl, hb]
  · rw [hml, hb, ← hl]
    exact List.length_append
  · rw [hrb, hb]
  · rw [hcount, hb]

theorem powerOn_obeyed : Obeys (exec .powerOn s) (bootFacts .powerOn s) := by
  refine obeys_append.mpr ⟨?_, obeys_cons.mpr ⟨fun h => ?_, obeys_single fun h => ?_⟩⟩
  · split
    · next n hn => exact bringUpFacts_obeyed (exec_powerOn_starting hn)
    · exact obeys_nil
  · obtain ⟨hoff, hp⟩ := Bool.and_eq_true_iff.mp h
    obtain ⟨t, ht, hdie, hph, hseq, hfl, him, hsvn, hml, hrb, hctl⟩ := powerOn_passes (beq_iff_eq.mp hoff) hp
    refine ⟨t, ht, ?_⟩
    simp only [hdie, hph, hseq, hfl, him, hsvn, hml, hrb, and_self, decide_true, beq_self_eq_true, Bool.and_self, Bool.true_and]
    exact List.all_eq_true.mpr fun i hi => decide_eq_true (hctl i hi)
  · obtain ⟨hoff, hp⟩ := Bool.and_eq_true_iff.mp h
    obtain ⟨t, ht, hdie, hph, hseq, hfl, hml, hrb, hg, hc⟩ := powerOn_fails (beq_iff_eq.mp hoff) (Bool.not_eq_true' _ ▸ hp)
    refine ⟨t, ht, ?_⟩
    simp only [hdie, hph, hseq, hfl, hml, hrb, hg, hc, and_self, decide_true, beq_self_eq_true, Bool.and_self]

theorem lifetimeFlush_obeyed : Obeys (exec .lifetimeFlush s) (bootFacts .lifetimeFlush s) := by
  refine obeys_single fun h => ?_
  obtain ⟨hp, hc⟩ := Bool.and_eq_true_iff.mp h
  have hdue : flushDue s = true := by
    unfold flushDue
    rw [beq_iff_eq.mp hp, hc]
    rfl
  have hx : exec .lifetimeFlush s = execLifetimeFlush s := rfl
  refine ⟨flushLife s, hx.trans (if_pos hdue), ?_⟩
  simp only [Bool.and_eq_true]
  exact ⟨⟨⟨⟨⟨beq_iff_eq.mpr rfl, decide_eq_true rfl⟩, beq_iff_eq.mpr rfl⟩, decide_eq_true rfl⟩, decide_eq_true rfl⟩, beq_iff_eq.mpr rfl⟩

/-- What the loss of the supply leaves. -/
theorem coldState_leaves (s : State) : (coldState s).groups = [] ∧ (coldState s).teams = [] ∧ (coldState s).cores = [] ∧
    (coldState s).dies = [] ∧ (coldState s).mem.llc = [] ∧ (coldState s).mem.net = [] ∧ (coldState s).io = {} ∧ (coldState s).display = {} ∧
    (coldState s).ctl = [] ∧ (coldState s).boot.phase = .off ∧ (coldState s).boot.flash = s.boot.flash ∧
    (coldState s).boot.keyDigest = s.boot.keyDigest ∧ (coldState s).boot.rollback = s.boot.rollback ∧ (coldState s).boot.nv = s.boot.nv ∧
    (coldState s).boot.sram = {} ∧ (coldState s).boot.pkgPending = s.boot.pkgPending :=
  ⟨rfl, rfl, rfl, rfl, rfl, rfl, rfl, rfl, rfl, rfl, rfl, rfl, rfl, rfl, rfl, rfl⟩

theorem powerLoss_obeyed : Obeys (exec .powerLoss s) (bootFacts .powerLoss s) := by
  have hx : exec .powerLoss s = .next (coldState s) := rfl
  refine obeys_single fun _ => ⟨coldState s, hx, ?_⟩
  obtain ⟨hg, ht, hco, hd, hl, hn, hio, hdi, hct, hp, hf, hk, hr, hnv, hsr, hpp⟩ := coldState_leaves s
  simp only [hg, ht, hco, hd, hl, hn, hio, hdi, hct, hp, hf, hk, hr, hnv, hsr, hpp, List.isEmpty_nil, decide_true, beq_self_eq_true,
    Bool.and_self]

theorem bootFacts_obeyed (i : Instr) : Obeys (exec i s) (bootFacts i s) := by
  cases i with
  | powerOn => exact powerOn_obeyed
  | lifetimeFlush => exact lifetimeFlush_obeyed
  | powerLoss => exact powerLoss_obeyed
  | _ => exact obeys_nil

/-- Settles O54: the ROM's two ends at power-on, each step of R48 by its number, the record's write and the loss of supply. -/
theorem bootSteps : Obligations.BootSteps := factHolds_iff.mpr fun i _ => bootFacts_obeyed i

end Sys2Proof.Machine

namespace Sys2Proof.Machine
open Claims

/-! A reply to a uniform load of 16 bytes (R410). -/

/-- A uniform load of 16 bytes into scalars 0 to 3, answered by its slice with 1 in scalar 1. -/
def quadRequest : Req :=
  { group := 0, core := 0, lane := 0, op := .uload 0, space := .llc, pa := 0, va := 0, size := 16, st := .done, val := 2 ^ 32 }

/-- A device with one group, whose load is on its way back. -/
def quadReply : State :=
  { State.reset with groups := [(0, {})], mem := { net := [(0, quadRequest)] } }

theorem replyDue_quadReply : replyDue quadReply 0 = true := by decide +kernel

theorem exec_quadReply : exec (.memoryReply 0) quadReply = .next (replyOrDown 0 quadReply) := by
  have hx : exec (.memoryReply 0) quadReply = execMemoryReply 0 quadReply := rfl
  rw [hx]
  unfold execMemoryReply
  exact if_pos replyDue_quadReply

/-- The reply writes scalar 1. -/
theorem scalar_replyOrDown_quadReply : (groupOf (replyOrDown 0 quadReply) 0).s 1 = 1 := by decide +kernel

/-- The case that the table gives for the reply writes scalar 0 alone. -/
theorem case_quadReply :
    ((requestCases (.memoryReply 0) quadReply)[1]?).map (fun k => (k.ok, (groupOf k.after 0).s 1)) = some (true, 0) := by decide +kernel

/-- Refutes O44: R410 loads four scalars from 16 bytes, and so does the reply, but the reply's case writes one scalar for every size
other than 8. The counterexample is such a request on its way back from a slice. The issuing word never sends it whole there, since
R217 halves a 16-byte access of memory; the statement speaks of every state, also of those that no run reaches. -/
theorem not_requestSteps : ¬ Obligations.RequestSteps := by
  unfold Obligations.RequestSteps
  rintro ⟨hsteps, -⟩
  obtain ⟨k, hk, hcase⟩ := Option.map_eq_some_iff.mp case_quadReply
  obtain ⟨hok, hzero⟩ := Prod.mk.inj hcase
  have hnext := hsteps (.memoryReply 0) quadReply k (List.mem_of_getElem? hk) hok
  rw [exec_quadReply] at hnext
  injection hnext with hafter
  rw [← hafter, scalar_replyOrDown_quadReply] at hzero
  exact absurd hzero (by decide)

end Sys2Proof.Machine

namespace Sys2Proof.Maps

/-! Bytes of a range after a write. -/

variable {m : AMap Byte}

theorem get_writeBytes_apart : ∀ {bs : List Byte} {m : AMap Byte} {a k : Nat}, k < a ∨ a + bs.length ≤ k →
    get 0 (writeBytes m a bs) k = get 0 m k
  | [], _, _, _, _ => rfl
  | b :: bs, m, a, k, h => by
    rw [List.length_cons] at h
    rw [writeBytes, get_writeBytes_apart (by omega), get_put, if_neg (by omega)]

theorem readBytes_congr {m' : AMap Byte} : ∀ {n o : Nat}, (∀ k, o ≤ k → k < o + n → get 0 m k = get 0 m' k) →
    readBytes m o n = readBytes m' o n
  | 0, _, _ => rfl
  | n + 1, o, h => by
    rw [readBytes, readBytes, h o (by omega) (by omega), readBytes_congr fun k hl hu => h k (by omega) (by omega)]

theorem readBytes_writeBytes_apart {bs : List Byte} {a o n : Nat} (h : o + n ≤ a ∨ a + bs.length ≤ o) :
    readBytes (writeBytes m a bs) o n = readBytes m o n :=
  readBytes_congr fun _ _ _ => get_writeBytes_apart (by omega)

theorem readBytes_writeBytes_same : ∀ {bs : List Byte} {m : AMap Byte} {a : Nat}, readBytes (writeBytes m a bs) a bs.length = bs
  | [], _, _ => rfl
  | b :: bs, m, a => by
    rw [List.length_cons, readBytes, writeBytes, get_writeBytes_apart (by omega), get_put, if_pos rfl, readBytes_writeBytes_same]

end Sys2Proof.Maps

namespace Sys2Proof.Machine

open Claims

variable {s : State} {t : Team}

/-! A team's scratchpad and its quad ring after a write into the scratchpad, and after records appended (R132, R288). -/

theorem leNat_natLe {n v : Nat} (h : v < 256 ^ n) : Maps.leNat (Maps.natLe v n) = v := by
  have hl := leNat_take_natLe [] n v
  rwa [List.append_nil, List.take_of_length_le (length_natLe n v).le, Nat.mod_eq_of_lt h] at hl

theorem scrRead_scrWrite_same {o n v : Nat} (h : v < 256 ^ n) : scrRead (scrWrite o n v t) o n = v := by
  have hb := Maps.readBytes_writeBytes_same (bs := Maps.natLe v n) (m := t.scratch) (a := o)
  rw [length_natLe] at hb
  exact (congrArg Maps.leNat hb).trans (leNat_natLe h)

theorem scrRead_scrWrite_apart {a k v o n : Nat} (h : o + n ≤ a ∨ a + k ≤ o) : scrRead (scrWrite a k v t) o n = scrRead t o n :=
  congrArg Maps.leNat (Maps.readBytes_writeBytes_apart (by rwa [length_natLe]))

theorem scrRead_deviceBytes_apart {kind a k o n : Nat} (h : o + n ≤ a ∨ a + k ≤ o) : scrRead (deviceBytes kind a k t) o n = scrRead t o n :=
  congrArg Maps.leNat (Maps.readBytes_writeBytes_apart (by rwa [List.length_map, List.length_range]))

/-- A ring into which `n` more records have come. -/
def grown (r : Ring) (n : Nat) : Ring := { r with head := r.head + n }

@[simp] theorem base_grown (r : Ring) (n : Nat) : (grown r n).base = r.base := rfl
@[simp] theorem head_grown (r : Ring) (n : Nat) : (grown r n).head = r.head + n := rfl

theorem ringOf_setRing (n : Nat) (r : Ring) : ringOf (setRing n r t) n = r := by simp [ringOf, setRing]

@[simp] theorem ringOf_appendQuad (q : Nat) : ringOf (appendQuad q t) 0 = grown (ringOf t 0) 1 := ringOf_setRing _ _

/-- A record is written at or above the ring's base, so it changes nothing below. -/
theorem scrRead_appendQuad {q o n : Nat} (h : o + n ≤ (ringOf t 0).base) : scrRead (appendQuad q t) o n = scrRead t o n :=
  scrRead_scrWrite_apart (t := t) (.inl (h.trans (Nat.le_add_right _ _)))

theorem ringOf_foldl_appendQuad (qs : List Nat) : ∀ t : Team, ringOf (qs.foldl (fun t q => appendQuad q t) t) 0 = grown (ringOf t 0) qs.length := by
  induction qs with
  | nil => exact fun _ => rfl
  | cons q qs ih =>
    intro t
    rw [List.foldl_cons, ih, ringOf_appendQuad, List.length_cons, Nat.add_comm qs.length]
    simp only [grown, Nat.add_assoc]

theorem scrRead_foldl_appendQuad {o n : Nat} (qs : List Nat) : ∀ t : Team, o + n ≤ (ringOf t 0).base →
    scrRead (qs.foldl (fun t q => appendQuad q t) t) o n = scrRead t o n := by
  induction qs with
  | nil => exact fun _ _ => rfl
  | cons q qs ih =>
    intro t h
    rw [List.foldl_cons, ih _ (by rwa [ringOf_appendQuad]), scrRead_appendQuad h]

theorem ringOf_appendQuads (qs : List Nat) : ringOf (appendQuads qs t).1 0 = grown (ringOf t 0) (min qs.length (ringFree t)) := by
  rw [Nat.min_comm, ← List.length_take]
  exact ringOf_foldl_appendQuad _ t

theorem scrRead_appendQuads {qs : List Nat} {o n : Nat} (h : o + n ≤ (ringOf t 0).base) :
    scrRead (appendQuads qs t).1 o n = scrRead t o n := scrRead_foldl_appendQuad _ t h

/-! The dies and the teams of a state: what an engine's reads leave as they are (R25, R56, R58 to R60). -/

/-- The dies and the resident teams. -/
def diesTeams (s : State) : AMap Die × AMap Team := (s.dies, s.teams)

theorem diesTeams_foldl {α : Type} {f : State → α → State} (h : ∀ s a, diesTeams (f s a) = diesTeams s) (as : List α) :
    diesTeams (as.foldl f s) = diesTeams s :=
  foldl_keeps (P := fun t => diesTeams t = diesTeams s) (fun t a ht => (h t a).trans ht) as s rfl

theorem diesTeams_passModule (l : Option LinkId) (tc : BitVec 2) : diesTeams (passModule l tc s) = diesTeams s := by
  unfold passModule
  split <;> rfl

theorem diesTeams_crossTo (w : Way) (tc : BitVec 2) : diesTeams (crossTo w tc s) = diesTeams s := by
  unfold crossTo
  split
  · exact diesTeams_passModule _ _
  · rfl

theorem diesTeams_crossBack (w : Way) : diesTeams (crossBack w s) = diesTeams s := by
  unfold crossBack
  split
  · exact diesTeams_passModule _ _
  · rfl

theorem diesTeams_crossLines (inp : Nat) (tc : BitVec 2) (pa n : Nat) : diesTeams (crossLines inp tc pa n s) = diesTeams s :=
  diesTeams_foldl (fun _ _ => (diesTeams_crossBack _).trans (diesTeams_crossTo _ _)) _

theorem diesTeams_retireRow (e : Dword) : diesTeams (retireRow e s) = diesTeams s := by
  unfold retireRow
  dsimp only
  split <;> rfl

theorem diesTeams_countLife (i : LifeItem) (n : Nat) : diesTeams (countLife i n s) = diesTeams s := rfl

theorem diesTeams_onMem (f : Mem → Mem) : diesTeams (onMem f s) = diesTeams s := rfl

theorem diesTeams_meetErr (p : EccPlace) (dirty keep : Bool) : diesTeams (meetErr p dirty keep s) = diesTeams s := by
  unfold meetErr
  cases errAt s.mem p with
  | none => rfl
  | some e =>
    cases e with
    | single => cases errBank s p <;> rfl
    | transient => rfl
    | lasting =>
      dsimp only
      split <;> split <;> simp only [diesTeams_onMem, diesTeams_retireRow, diesTeams_countLife, apply_ite diesTeams, ite_self]

theorem diesTeams_loseLine (la : Nat) (dirty : Bool) : diesTeams (loseLine la dirty s) = diesTeams s := diesTeams_meetErr _ _ _

theorem diesTeams_meetRange (pa n : Nat) : diesTeams (meetRange pa n s) = diesTeams s := by
  refine diesTeams_foldl (fun s e => ?_) _
  split
  · dsimp only
    split
    · split
      · exact diesTeams_loseLine _ _
      · exact diesTeams_meetErr _ _ _
    · rfl
  · split
    · exact diesTeams_meetErr _ _ _
    · rfl
  · rfl

theorem diesTeams_fillLlc (la : Nat) (l : Line) : diesTeams (fillLlc la l s) = diesTeams s := by
  unfold fillLlc
  dsimp only
  rw [diesTeams_onMem]
  split <;> rfl

theorem diesTeams_readLine (la : Nat) : diesTeams (readLine s la) = diesTeams s := by
  unfold readLine
  split
  · rfl
  · exact diesTeams_fillLlc _ _

theorem diesTeams_readVia (inp : Nat) (tc : BitVec 2) (pa n : Nat) : diesTeams (readVia inp tc pa n s) = diesTeams s := by
  unfold readVia readLines
  dsimp only
  split
  · rw [diesTeams_meetRange, diesTeams_crossLines]
  · rw [diesTeams_foldl (fun _ => diesTeams_readLine), diesTeams_meetRange, diesTeams_crossLines]

theorem diesTeams_engineMeet (d c : Nat) (va : Dword) (n : Nat) : diesTeams (engineMeet d c va n s) = diesTeams s := by
  unfold engineMeet
  refine foldl_keeps (P := fun a : Bool × State => diesTeams a.2 = diesTeams s) (fun a p ha => ?_) _ (false, s) rfl
  split
  · exact ha
  · split
    · exact ha
    · exact (diesTeams_readVia _ _ _ _).trans ha

theorem diesTeams_rateMeet (die ctx : Nat) (trec : List Byte) (p : ViewPrim) : diesTeams (rateMeet die ctx trec t p s) = diesTeams s := by
  unfold rateMeet
  split
  · refine diesTeams_foldl (fun _ _ => ?_) _
    split
    · rfl
    · exact diesTeams_engineMeet _ _ _ _
  · rfl

/-! A tile and its team after the raster engine's step (R131, R132, R483). -/

theorem team_of_boundTeam {x : Tile} {h : Nat} {tm : Team} (hb : boundTeam s x = some (h, tm)) : x.team = some h := by
  unfold boundTeam at hb
  split at hb
  · cases hb
  · next hx =>
    obtain ⟨_, _, he⟩ := Option.map_eq_some_iff.mp hb
    rw [hx, (Prod.mk.inj he).1]

theorem find_tiles_onDie {d key : Nat} {x : Tile} (hx : Maps.find (dieAt s d).tiles key = some x) (f : Tile → Tile) :
    Maps.find (dieAt (onDie d (fun y => { y with tiles := Maps.modify y.tiles key f }) s) d).tiles key = some (f x) := by simp [hx]

/-- Tile `key` of die `d` is `x`, and the team that it is bound to, `h`, is `tm`. -/
structure TileTeam (s : State) (d key h : Nat) (x : Tile) (tm : Team) : Prop where
  tile : Maps.find (dieAt s d).tiles key = some x
  bound : x.team = some h
  team : Maps.find s.teams h = some tm

variable {d key h : Nat} {x : Tile} {tm : Team}

theorem TileTeam.congr {u : State} (ht : TileTeam s d key h x tm) (hu : diesTeams u = diesTeams s) : TileTeam u d key h x tm := by
  obtain ⟨hd, hm⟩ := Prod.mk.inj hu
  exact ⟨by unfold dieAt; rw [hd]; exact ht.tile, ht.bound, by rw [hm]; exact ht.team⟩

theorem TileTeam.onTile (ht : TileTeam s d key h x tm) {f : Tile → Tile} (hf : (f x).team = x.team) :
    TileTeam (onDie d (fun y => { y with tiles := Maps.modify y.tiles key f }) s) d key h (f x) tm :=
  ⟨find_tiles_onDie ht.tile f, hf.trans ht.bound, ht.team⟩

theorem TileTeam.onTeam (ht : TileTeam s d key h x tm) (f : Team → Team) : TileTeam (onTeam h f s) d key h x (f tm) :=
  ⟨ht.tile, ht.bound, by simp [ht.team]⟩

theorem TileTeam.teamAt (ht : TileTeam s d key h x tm) : teamAt s h = tm := by simp [Machine.teamAt, Maps.get, ht.team]

/-- The end-of-tile record of R132, as a number. -/
def endRecord : Nat := 2 * 2 ^ 72

/-- A tile is as it was with its team, or its end-of-tile record has been appended. -/
theorem endTile_cases (ht : TileTeam s d key h x tm) :
    TileTeam (endTile d key s) d key h x tm ∨ TileTeam (endTile d key s) d key h { x with ended := true } (appendQuad endRecord tm) := by
  unfold endTile
  dsimp only
  rw [ht.tile]
  dsimp only
  split
  · exact .inl ht
  · next h' tm' hb =>
    split
    · exact .inl ht
    · obtain rfl : h' = h := Option.some.inj ((team_of_boundTeam hb).symm.trans ht.bound)
      exact .inr ((ht.onTile (f := fun t => { t with ended := true }) rfl).onTeam _)

/-- What the raster engine's work on a tile leaves: the tile changed by `f` with the records left over, the team with what was written, and
the end-of-tile record where it is due. -/
def rastered (d key h : Nat) (f : Tile → Tile) (r : Team × List Nat) (s : State) : State :=
  endTile d key (onTeam h (fun _ => r.1) (onDie d (fun x => { x with tiles := Maps.modify x.tiles key fun t => { f t with quads := r.2 } }) s))

theorem rastered_cases (ht : TileTeam s d key h x tm) {f : Tile → Tile} (hf : (f x).team = x.team) (r : Team × List Nat) :
    TileTeam (rastered d key h f r s) d key h { f x with quads := r.2 } r.1 ∨
      TileTeam (rastered d key h f r s) d key h { f x with quads := r.2, ended := true } (appendQuad endRecord r.1) :=
  endTile_cases ((ht.onTile (f := fun t => { f t with quads := r.2 }) hf).onTeam fun _ => r.1)

/-- The tile's next primitive gone from its lists (R124). -/
def dropPrim (p : ViewPrim) (t : Tile) : Tile :=
  { t with prims := removeFirst (· == p) t.prims, moved := removeFirst (· == p) t.moved }

/-! Where the raster engine works (R131). -/

theorem working_spec (hw : working s d key = some (x, h, tm)) :
    TileTeam s d key h x tm ∧ boundTeam s x = some (h, tm) ∧ (tltMove s tm.ctx h || (dieAt s d).heldReset) = false := by
  unfold working at hw
  dsimp only at hw
  split at hw
  · cases hw
  next x' hx =>
  split at hw
  · cases hw
  next h' hh =>
  split at hw
  next tm' htm =>
    split at hw
    · cases hw
    next hc =>
      cases hw
      simp only [Bool.or_eq_true, bne_iff_ne, not_or, not_not, Bool.not_eq_true] at hc
      obtain ⟨⟨⟨hgen, hctx⟩, hmove⟩, hheld⟩ := hc
      refine ⟨⟨hx, hh, htm⟩, ?_, by rw [hmove, hheld]; rfl⟩
      unfold boundTeam
      rw [hh]
      simp [htm, hgen, hctx]
  · cases hw

theorem exec_primitiveApply {die : BitVec 3} {u : State} (hu : applyStep s die.toNat key = some u) :
    exec (.primitiveApply die key) s = .next u := by
  change execPrimitiveApply die key s = _
  unfold execPrimitiveApply
  rw [hu]

theorem applyStep_leftover (hw : working s d key = some (x, h, tm)) (hq : x.quads.isEmpty = false) (hf : ringFree tm ≠ 0) :
    applyStep s d key = some (rastered d key h id (appendQuads x.quads tm) s) := by
  obtain ⟨ht, hb, hfree⟩ := working_spec hw
  unfold applyStep
  simp only [ht.tile, hb, hfree, hq, if_neg hf]
  rfl

theorem applying_spec {g : StripGeo} {p : ViewPrim} (ha : applying s d key = some (x, h, tm, g, p)) :
    working s d key = some (x, h, tm) ∧ nextPrim (dieAt s d) x = some p ∧ (∃ tx ty fr, tm.kind = .tile g tx ty fr) ∧
      x.quads.isEmpty = true ∧ (∃ o, freePlane tm = some o) ∧ 1024 ≤ ringFree tm := by
  unfold applying at ha
  split at ha
  next x' h' tm' hw =>
    split at ha
    next p' g' tx ty fr hp hk =>
      split at ha
      next hc =>
        cases ha
        simp only [Bool.and_eq_true, decide_eq_true_eq] at hc
        obtain ⟨⟨hq, ho⟩, hr⟩ := hc
        exact ⟨hw, hp, ⟨tx, ty, fr, hk⟩, hq, Option.isSome_iff_exists.mp ho, hr⟩
      · cases ha
    · cases ha
  · cases ha

theorem applyStep_next {g : StripGeo} {p : ViewPrim} (ha : applying s d key = some (x, h, tm, g, p)) {n : Nat} {u : State} {r : Team × List Nat}
    (hn : draw s = (n, u)) (hr : applyPrim u d tm.ctx (teamTile u tm) n p tm = some r) :
    applyStep s d key = some (rastered d key h (dropPrim p) r (rateMeet d tm.ctx (teamTile u tm) tm p u)) := by
  obtain ⟨hw, hp, -, hq, -, -⟩ := applying_spec ha
  obtain ⟨ht, hb, hfree⟩ := working_spec hw
  unfold applyStep
  simp only [ht.tile, hb, hfree, hq, hp, hn, hr]
  rfl

/-! The samples that a primitive passes (R131). -/

theorem packRne_f32_lt (v : Num.FV) : Num.packRne Num.f32 v < 2 ^ 32 := by
  have hsign (neg : Bool) {g : Nat} (hg : g < 2 ^ 31) : Num.withSign Num.f32 neg g < 2 ^ 32 := by
    unfold Num.withSign
    split
    · change g + 2 ^ 31 < _; omega
    · omega
  unfold Num.packRne Num.pack
  cases v with
  | nan => decide
  | inf neg => exact hsign neg (by decide)
  | fin neg m e =>
    dsimp only
    split
    · exact hsign neg (by decide)
    · split
      · exact hsign neg (by decide)
      · dsimp only
        split
        · exact hsign neg (g := 0x7F800000) (by decide)
        · next hg => exact hsign neg (by change ¬ _ > 0x7F7FFFFF at hg; omega)

/-- The depth of a primitive at a sample of a tile, if it covers it. -/
def sampleDepth (g : StripGeo) (tx ty : Nat) (u : Setup) (k : Nat × Nat) : Option Nat :=
  (sampleAt g g.axisX g.axisY tx ty (k.1 % 32) (k.1 / 32) k.2).bind fun x => u.depthAt x.1 x.2

theorem mem_passedSamples {g : StripGeo} {tx ty : Nat} {u : Setup} {e : (Nat × Nat) × Nat} (he : e ∈ passedSamples t g tx ty u) :
    e.1.1 < 1024 ∧ e.1.2 < g.samples ∧ sampleDepth g tx ty u e.1 = some e.2 := by
  obtain ⟨p, hp, he⟩ := List.mem_flatMap.mp he
  obtain ⟨i, hi, he⟩ := List.mem_filterMap.mp he
  split at he
  · cases he
  next x y hxy =>
  split at he
  · cases he
  next z hz =>
  split at he
  · cases he
    exact ⟨List.mem_range.mp hp, List.mem_range.mp hi, by simp [sampleDepth, hxy, hz]⟩
  · cases he

theorem sampleDepth_lt {g : StripGeo} {tx ty : Nat} {u : Setup} {k : Nat × Nat} {z : Nat} (hz : sampleDepth g tx ty u k = some z) : z < 2 ^ 32 := by
  obtain ⟨_, -, hz⟩ := Option.bind_eq_some_iff.mp hz
  obtain ⟨_, -, rfl⟩ := Option.map_eq_some_iff.mp hz
  exact packRne_f32_lt _

/-! Quads over a cell (R132): at most one for each 2×2 pixels, and one wherever a sample of the cell has passed. -/

theorem rateW_cases (r : Nat) : rateW r = 1 ∨ rateW r = 2 ∨ rateW r = 4 := by
  have hm : min 2 (r % 4) = 0 ∨ min 2 (r % 4) = 1 ∨ min 2 (r % 4) = 2 := by omega
  unfold rateW
  rcases hm with h | h | h <;> simp [h]

theorem rateH_cases (r : Nat) : rateH r = 1 ∨ rateH r = 2 ∨ rateH r = 4 := rateW_cases (r / 4)

theorem length_flatMap_le {α β : Type} {f : α → List β} {n : Nat} : ∀ {as : List α}, (∀ a ∈ as, (f a).length ≤ n) →
    (as.flatMap f).length ≤ as.length * n
  | [], _ => Nat.zero_le _
  | a :: as, h => by
    have h1 := h a List.mem_cons_self
    have h2 := length_flatMap_le fun b hb => h b (List.mem_cons_of_mem a hb)
    rw [List.flatMap_cons, List.length_append, List.length_cons, Nat.succ_mul]
    omega

theorem length_cellQuads (c r : Nat) (hit : Nat → Nat → Bool) : (cellQuads c r hit).length ≤ 64 := by
  have hrows : 16 / (2 * rateH r) ≤ 8 := by rcases rateH_cases r with h | h | h <;> rw [h] <;> decide
  have hcols : 16 / (2 * rateW r) ≤ 8 := by rcases rateW_cases r with h | h | h <;> rw [h] <;> decide
  refine (length_flatMap_le (n := 8) fun j _ => ?_).trans ?_
  · exact (List.length_filterMap_le _ _).trans (by rwa [List.length_range])
  · rw [List.length_range]; omega

theorem le_foldl {α : Type} {f : Nat → α → Nat} (h : ∀ a x, a ≤ f a x) (as : List α) (a : Nat) : a ≤ as.foldl f a :=
  foldl_keeps (P := fun b => a ≤ b) (fun b x hb => hb.trans (h b x)) as a (Nat.le_refl a)

theorem foldl_pos {α : Type} {f : Nat → α → Nat} (h : ∀ a x, a ≤ f a x) {x : α} (hx : ∀ a, 0 < f a x) :
    ∀ {as : List α}, x ∈ as → ∀ a, 0 < as.foldl f a
  | y :: as, hm, a => by
    rw [List.foldl_cons]
    rcases List.mem_cons.mp hm with rfl | hm
    · exact (hx a).trans_le (le_foldl h as _)
    · exact foldl_pos h hx hm _

/-- The coverage of a quad of R132: bit (k × 16 + p) × 4 + m for sample m of pixel p of fragment k. -/
def quadCov (w h qx qy : Nat) (hit : Nat → Nat → Bool) : Nat :=
  (List.range 4).foldl (fun a k => (List.range (w * h)).foldl (fun a p => (List.range 4).foldl (fun a m =>
    if hit (32 * (qy + k / 2 * h + p / w) + (qx + k % 2 * w + p % w)) m then a + 2 ^ ((k * 16 + p) * 4 + m) else a) a) a) 0

theorem quadCov_pos {w h qx qy k p m : Nat} {hit : Nat → Nat → Bool} (hk : k < 4) (hp : p < w * h) (hm : m < 4)
    (hh : hit (32 * (qy + k / 2 * h + p / w) + (qx + k % 2 * w + p % w)) m = true) : 0 < quadCov w h qx qy hit := by
  have hbit (b : Bool) (a e : Nat) : a ≤ if b then a + 2 ^ e else a := by
    split
    · exact Nat.le_add_right _ _
    · exact Nat.le_refl a
  refine foldl_pos (fun a _ => le_foldl (fun a _ => le_foldl (fun a _ => hbit _ a _) _ a) _ a) (x := k) (fun a => ?_) (List.mem_range.mpr hk) 0
  refine foldl_pos (fun a _ => le_foldl (fun a _ => hbit _ a _) _ a) (x := p) (fun a => ?_) (List.mem_range.mpr hp) a
  refine foldl_pos (fun a _ => hbit _ a _) (x := m) (fun a => ?_) (List.mem_range.mpr hm) a
  rw [if_pos hh]
  exact Nat.add_pos_right _ (Nat.two_pow_pos _)

theorem mem_cellQuads {c r i j : Nat} {hit : Nat → Nat → Bool} (hj : j < 16 / (2 * rateH r)) (hi : i < 16 / (2 * rateW r))
    (hc : 0 < quadCov (rateW r) (rateH r) (16 * (c % 2) + 2 * rateW r * i) (16 * (c / 2) + 2 * rateH r * j) hit) :
    ∃ q, q ∈ cellQuads c r hit :=
  ⟨_, List.mem_flatMap.mpr ⟨j, List.mem_range.mpr hj, List.mem_filterMap.mpr ⟨i, List.mem_range.mpr hi, if_neg hc.ne'⟩⟩⟩

/-- A coordinate within a cell at a rate of `w`: its quad, the fragment within it, and the pixel within that. -/
theorem cell_split {w z : Nat} (o : Nat) (hw : w = 1 ∨ w = 2 ∨ w = 4) (hz : z < 16) :
    z / (2 * w) < 16 / (2 * w) ∧ z / w % 2 < 2 ∧ z % w < w ∧ o + 2 * w * (z / (2 * w)) + z / w % 2 * w + z % w = o + z := by
  rcases hw with rfl | rfl | rfl <;> omega

theorem mod_div_of_lt {a b w : Nat} (ha : a < w) : (a + w * b) % w = a ∧ (a + w * b) / w = b := by
  rw [Nat.add_mul_mod_self_left, Nat.mod_eq_of_lt ha, Nat.add_mul_div_left _ _ (by omega), Nat.div_eq_of_lt ha, Nat.zero_add]
  exact ⟨rfl, rfl⟩

/-- The quads of a cell cover every pixel of it, whatever the rate. -/
theorem cellQuads_of_hit {c r x y m : Nat} {hit : Nat → Nat → Bool} (hx : x < 16) (hy : y < 16) (hm : m < 4)
    (hh : hit (32 * (16 * (c / 2) + y) + (16 * (c % 2) + x)) m = true) : ∃ q, q ∈ cellQuads c r hit := by
  obtain ⟨hi, hkx, hpx, hex⟩ := cell_split (16 * (c % 2)) (rateW_cases r) hx
  obtain ⟨hj, hky, hpy, hey⟩ := cell_split (16 * (c / 2)) (rateH_cases r) hy
  refine mem_cellQuads hj hi (quadCov_pos (k := x / rateW r % 2 + 2 * (y / rateH r % 2)) (p := x % rateW r + rateW r * (y % rateH r))
    (by omega) ?_ hm ?_)
  · calc x % rateW r + rateW r * (y % rateH r) < rateW r * (y % rateH r + 1) := by rw [Nat.mul_succ]; omega
      _ ≤ rateW r * rateH r := Nat.mul_le_mul_left _ hpy
  · obtain ⟨hmodk, hdivk⟩ := mod_div_of_lt (b := y / rateH r % 2) hkx
    obtain ⟨hmodp, hdivp⟩ := mod_div_of_lt (b := y % rateH r) hpx
    rw [hmodk, hdivk, hmodp, hdivp, hex, hey]
    exact hh

/-! A primitive applied in its team (R131, R132). -/

/-- The quads of a tile at its four cells' rates. -/
def tileQuads (rate : Nat → Nat) (hits : List ((Nat × Nat) × Nat)) : List ((Nat × Nat × Nat) × Nat) :=
  (List.range 4).flatMap fun c => (cellQuads c (rate c) fun px m => hits.any fun h => h.1 == (px, m)).map fun q => (q, rate c)

theorem length_tileQuads (rate : Nat → Nat) (hits : List ((Nat × Nat) × Nat)) : (tileQuads rate hits).length ≤ 256 :=
  length_flatMap_le (n := 64) (as := List.range 4) fun c _ => by rw [List.length_map]; exact length_cellQuads _ _ _

/-- A tile in which a sample has passed has a quad. -/
theorem tileQuads_ne_nil {rate : Nat → Nat} {hits : List ((Nat × Nat) × Nat)} {e : (Nat × Nat) × Nat} (he : e ∈ hits) (hq : e.1.1 < 1024)
    (hm : e.1.2 < 4) : (tileQuads rate hits).isEmpty = false := by
  obtain ⟨c, hc, hpx⟩ : ∃ c < 4, 32 * (16 * (c / 2) + e.1.1 / 32 % 16) + (16 * (c % 2) + e.1.1 % 16) = e.1.1 :=
    ⟨e.1.1 % 32 / 16 + 2 * (e.1.1 / 32 / 16), by omega, by omega⟩
  obtain ⟨q, hq⟩ := cellQuads_of_hit (c := c) (r := rate c) (x := e.1.1 % 16) (y := e.1.1 / 32 % 16)
    (hit := fun px m => hits.any fun h => h.1 == (px, m)) (by omega) (by omega) hm (List.any_eq_true.mpr ⟨e, he, by rw [hpx]; exact beq_self_eq_true _⟩)
  have hmem : (q, rate c) ∈ tileQuads rate hits := List.mem_flatMap.mpr ⟨c, List.mem_range.mpr hc, List.mem_map_of_mem hq⟩
  exact Bool.eq_false_iff.mpr fun hn => absurd (List.isEmpty_iff.mp hn ▸ hmem) List.not_mem_nil

/-- One sample's depth and its tag written (R131). -/
def writeSample (n : Nat) (p : ViewPrim) (t : Team) (e : (Nat × Nat) × Nat) : Team :=
  let k := e.1.1 * n + e.1.2
  let t := scrWrite (depthOff n e.1.1 e.1.2) 4 e.2 t
  deviceBytes 1 (12288 * n + 4 * k) 4 { t with tags := Maps.set t.tags k (tagKey p.draw p.ord) }

/-- The depths and tags of the samples passed, then the primitive's plane block at `o` (R131, R472). -/
def shaded (n o : Nat) (p : ViewPrim) (coeffs : List Word) (hits : List ((Nat × Nat) × Nat)) (t : Team) : Team :=
  deviceBytes 2 o 256 { hits.foldl (writeSample n p) t with planes := Maps.set (hits.foldl (writeSample n p) t).planes o coeffs }

theorem ringOf_shaded (n o : Nat) (p : ViewPrim) (coeffs : List Word) (hits : List ((Nat × Nat) × Nat)) (r : Nat) :
    ringOf (shaded n o p coeffs hits t) r = ringOf t r :=
  foldl_keeps (P := fun u => ringOf u r = ringOf t r) (f := writeSample n p) (fun _ _ hu => hu) hits t rfl

/-- A plane block lies above the depths, so they are those that the samples have written. -/
theorem scrRead_shaded {n o a k : Nat} (p : ViewPrim) (coeffs : List Word) (hits : List ((Nat × Nat) × Nat)) (h : a + k ≤ o) :
    scrRead (shaded n o p coeffs hits t) a k = scrRead (hits.foldl (writeSample n p) t) a k :=
  scrRead_deviceBytes_apart (.inl h)

/-- What applying a primitive leaves where the ring and the plane blocks have room: nothing, of one that passes nowhere, else its depths,
tags, plane block and records. -/
theorem applyPrim_eq {g : StripGeo} {tx ty : Nat} {fr : Dword} (hk : t.kind = .tile g tx ty fr) {o : Nat} (ho : freePlane t = some o)
    (hf : ringFree t ≠ 0) (ctx : Nat) (trec : List Byte) (free : Nat) (p : ViewPrim) :
    let hits := passedSamples t g tx ty (setup g p)
    let quads := tileQuads (fun c => cellRate s d ctx trec g tx ty c p) hits
    applyPrim s d ctx trec free p t = some (if quads.isEmpty then (t, []) else
      appendQuads (quads.map fun q => quadNum p q.1.1 q.1.2.1 q.2 (free % 2) o q.1.2.2) (shaded g.samples o p (setup g p).coeffs hits t)) := by
  unfold applyPrim
  rw [hk]
  dsimp only
  rw [if_neg hf, ho, apply_ite some]
  rfl

theorem le_of_freePlane {o : Nat} (ho : freePlane t = some o) : 131072 ≤ o := by
  obtain ⟨i, -, rfl⟩ := List.mem_map.mp (List.mem_of_find?_eq_some ho)
  omega

/-! Depths (R131). -/

/-- The depths lie below the tags. -/
theorem depthOff_add_le {n q m : Nat} (hq : q < 1024) (hm : m < n) : depthOff n q m + 4 ≤ 12288 * n := by
  have hpixels : q * n + n ≤ 1024 * n := by rw [← Nat.succ_mul]; exact Nat.mul_le_mul_right n hq
  unfold depthOff
  omega

/-- A sample written reads its new depth, and no other sample's depth changes. -/
theorem scrRead_writeSample {n q m : Nat} {e : (Nat × Nat) × Nat} (p : ViewPrim) (hq : q < 1024) (hm : m < n) (he : e.1.2 < n) (hz : e.2 < 2 ^ 32) :
    scrRead (writeSample n p t e) (depthOff n q m) 4 = if e.1 = (q, m) then e.2 else scrRead t (depthOff n q m) 4 := by
  obtain ⟨⟨q', m'⟩, z⟩ := e
  dsimp only at he hz
  have hin := depthOff_add_le hq hm
  have htag : scrRead (writeSample n p t ((q', m'), z)) (depthOff n q m) 4 = scrRead (scrWrite (depthOff n q' m') 4 z t) (depthOff n q m) 4 :=
    scrRead_deviceBytes_apart (.inl (by omega))
  rw [htag]
  by_cases h : (q', m') = (q, m)
  · obtain ⟨rfl, rfl⟩ := Prod.mk.inj h
    rw [if_pos h, scrRead_scrWrite_same hz]
  · rw [if_neg h]
    have hne : q * n + m ≠ q' * n + m' := fun hc => h <| by
      have hn : 0 < n := by omega
      have h1 := congrArg (· / n) hc
      have h2 := congrArg (· % n) hc
      simp only [Nat.mul_comm _ n, Nat.mul_add_div hn, Nat.mul_add_mod, Nat.div_eq_of_lt hm, Nat.div_eq_of_lt he, Nat.mod_eq_of_lt hm,
        Nat.mod_eq_of_lt he, Nat.add_zero] at h1 h2
      rw [h1, h2]
    exact scrRead_scrWrite_apart (by unfold depthOff; omega)

/-- The depth of sample `m` of pixel `q` after samples have passed, `old` before. -/
def depthAfter (hits : List ((Nat × Nat) × Nat)) (q m old : Nat) : Nat := ((hits.find? fun e => e.1 == (q, m)).map (·.2)).getD old

/-- Samples whose depths one function gives, written in turn: the first of the list at a sample says what it reads. -/
theorem scrRead_foldl_writeSample {n q m : Nat} (p : ViewPrim) (hq : q < 1024) (hm : m < n) {depth : Nat × Nat → Option Nat} :
    ∀ (hits : List ((Nat × Nat) × Nat)) (t : Team), (∀ e ∈ hits, e.1.2 < n ∧ e.2 < 2 ^ 32 ∧ depth e.1 = some e.2) →
      scrRead (hits.foldl (writeSample n p) t) (depthOff n q m) 4 = depthAfter hits q m (scrRead t (depthOff n q m) 4)
  | [], _, _ => rfl
  | e :: hits, t, h => by
    obtain ⟨hi, hz, hd⟩ := h e List.mem_cons_self
    rw [List.foldl_cons, scrRead_foldl_writeSample p hq hm hits _ fun e he => h e (List.mem_cons_of_mem _ he),
      scrRead_writeSample p hq hm hi hz, depthAfter, depthAfter, List.find?_cons]
    by_cases hk : e.1 = (q, m)
    · rw [if_pos hk, beq_iff_eq.mpr hk]
      cases hf : hits.find? (fun e => e.1 == (q, m)) with
      | none => rfl
      | some e' =>
        obtain ⟨-, -, hd'⟩ := h e' (List.mem_cons_of_mem _ (List.mem_of_find?_eq_some hf))
        have hk' : e'.1 = (q, m) := beq_iff_eq.mp (List.find?_some (p := fun e : (Nat × Nat) × Nat => e.1 == (q, m)) hf)
        rw [hk'] at hd'
        rw [hk] at hd
        exact Option.some.inj (hd'.symm.trans hd)
    · rw [if_neg hk, beq_eq_false_iff_ne.mpr hk]

/-- A sample that has passed has its depth, and every other sample has the depth that it had. -/
def DepthsWritten (n : Nat) (hits : List ((Nat × Nat) × Nat)) (t u : Team) : Prop := ∀ q m, q < 1024 → m < n →
  scrRead u (depthOff n q m) 4 = depthAfter hits q m (scrRead t (depthOff n q m) 4)

theorem depthsWritten_applyPrim {g : StripGeo} {tx ty : Nat} {fr : Dword} (hk : t.kind = .tile g tx ty fr) {o : Nat} (ho : freePlane t = some o)
    (hf : ringFree t ≠ 0) (hb : (ringOf t 0).base = 65536) (hn : g.samples ≤ 4) {ctx : Nat} {trec : List Byte} {free : Nat} {p : ViewPrim}
    {r : Team × List Nat} (hr : applyPrim s d ctx trec free p t = some r) :
    DepthsWritten g.samples (passedSamples t g tx ty (setup g p)) t r.1 := by
  intro q m hq hm
  have hin := depthOff_add_le hq hm
  rw [applyPrim_eq hk ho hf] at hr
  obtain rfl := Option.some.inj hr
  split
  · next hempty =>
    have hnone : passedSamples t g tx ty (setup g p) = [] := List.eq_nil_iff_forall_not_mem.mpr fun e he => by
      obtain ⟨hq, hm, -⟩ := mem_passedSamples he
      rw [tileQuads_ne_nil he hq (by omega)] at hempty
      cases hempty
    rw [hnone]
    rfl
  · rw [scrRead_appendQuads (by rw [ringOf_shaded, hb]; omega)]
    have hplane := le_of_freePlane ho
    rw [scrRead_shaded p _ _ (by omega)]
    exact scrRead_foldl_writeSample (depth := sampleDepth g tx ty (setup g p)) p hq hm _ t fun e he => by
      obtain ⟨-, hi, hz⟩ := mem_passedSamples he
      exact ⟨hi, sampleDepth_lt hz, hz⟩

theorem ringOf_applyPrim {g : StripGeo} {tx ty : Nat} {fr : Dword} (hk : t.kind = .tile g tx ty fr) {o : Nat} (ho : freePlane t = some o)
    (hf : ringFree t ≠ 0) {ctx : Nat} {trec : List Byte} {free : Nat} {p : ViewPrim} {r : Team × List Nat}
    (hr : applyPrim s d ctx trec free p t = some r) : ∃ n ≤ 256, ringOf r.1 0 = grown (ringOf t 0) n := by
  rw [applyPrim_eq hk ho hf] at hr
  obtain rfl := Option.some.inj hr
  split
  · exact ⟨0, Nat.zero_le _, rfl⟩
  · refine ⟨_, ?_, (ringOf_appendQuads _).trans (by rw [ringOf_shaded])⟩
    rw [List.length_map]
    exact (Nat.min_le_left _ _).trans (length_tileQuads _ _)

/-! The facts of the raster engine's step. -/

/-- What the step leaves where a primitive is applied: the tile without it, the team as `applyPrim` leaves it, and perhaps the end-of-tile
record. -/
theorem exec_applying {die : BitVec 3} {g : StripGeo} {p : ViewPrim} (ha : applying s die.toNat key = some (x, h, tm, g, p)) :
    ∃ u v ctx trec n r, exec (.primitiveApply die key) s = .next u ∧ applyPrim v die.toNat ctx trec n p tm = some r ∧
      (TileTeam u die.toNat key h { dropPrim p x with quads := r.2 } r.1 ∨
        TileTeam u die.toNat key h { dropPrim p x with quads := r.2, ended := true } (appendQuad endRecord r.1)) := by
  obtain ⟨hw, -, ⟨tx, ty, fr, hk⟩, -, ⟨o, ho⟩, hf⟩ := applying_spec ha
  obtain ⟨ht, -, -⟩ := working_spec hw
  have hr := applyPrim_eq (s := (draw s).2) (d := die.toNat) hk ho (by omega : ringFree tm ≠ 0) tm.ctx (teamTile (draw s).2 tm) (draw s).1 p
  have hu : diesTeams (rateMeet die.toNat tm.ctx (teamTile (draw s).2 tm) tm p (draw s).2) = diesTeams s := diesTeams_rateMeet _ _ _ _
  exact ⟨_, _, _, _, _, _, exec_primitiveApply (applyStep_next ha rfl hr), hr, rastered_cases (ht.congr hu) (f := dropPrim p) rfl _⟩

theorem applyFacts_obeyed (i : Instr) : Obeys (exec i s) (applyFacts i s) := by
  unfold applyFacts
  split
  next die key =>
    split
    · exact obeys_nil
    next x h tm g p ha =>
      obtain ⟨-, -, ⟨tx, ty, fr, hk⟩, -, ⟨o, ho⟩, hf⟩ := applying_spec ha
      obtain ⟨u, v, ctx, trec, n, r, hu, hr, hcases⟩ := exec_applying ha
      obtain ⟨k, hk256, hring⟩ := ringOf_applyPrim hk ho (by omega) hr
      refine obeys_single fun _ => ⟨u, hu, ?_⟩
      rcases hcases with ht | ht
      · dsimp only
        rw [ht.tile, ht.teamAt, hring]
        simp [dropPrim]
        omega
      · dsimp only
        rw [ht.tile, ht.teamAt, ringOf_appendQuad, hring]
        simp [dropPrim]
        omega
  · exact obeys_nil

theorem leftoverFacts_obeyed (i : Instr) : Obeys (exec i s) (leftoverFacts i s) := by
  unfold leftoverFacts
  split
  next die key =>
    split
    · exact obeys_nil
    next x h tm hw =>
      refine obeys_single fun hok => ?_
      simp only [Bool.and_eq_true, Bool.not_eq_true', bne_iff_ne] at hok
      obtain ⟨hq, hf⟩ := hok
      obtain ⟨ht, -, -⟩ := working_spec hw
      refine ⟨_, exec_primitiveApply (applyStep_leftover hw hq hf), ?_⟩
      have hleft : (appendQuads x.quads tm).2 = x.quads.drop (min x.quads.length (ringFree tm)) := by
        rw [Nat.min_comm]; exact List.drop_eq_drop_min
      rcases rastered_cases ht (f := id) rfl (appendQuads x.quads tm) with hu | hu
      · dsimp only
        rw [hu.tile, hu.teamAt, ringOf_appendQuads]
        simp [hleft]
      · dsimp only
        rw [hu.tile, hu.teamAt, ringOf_appendQuad, ringOf_appendQuads]
        simp [hleft]
  · exact obeys_nil

theorem depthFacts_obeyed (i : Instr) : Obeys (exec i s) (depthFacts i s) := by
  unfold depthFacts
  split
  next die key =>
    split
    · exact obeys_nil
    next x h tm g p ha =>
      split
      next g' tx ty fr hk =>
        obtain ⟨-, -, ⟨_, _, _, hk'⟩, -, ⟨o, ho⟩, hf⟩ := applying_spec ha
        obtain rfl : g' = g := by rw [hk] at hk'; exact (TeamKind.tile.inj hk').1
        obtain ⟨u, v, ctx, trec, n, r, hu, hr, hcases⟩ := exec_applying ha
        obtain ⟨c, -, hring⟩ := ringOf_applyPrim hk ho (by omega) hr
        refine obeys_single fun hok => ⟨u, hu, ?_⟩
        obtain ⟨hbase, -, -, -, hn⟩ := of_decide_eq_true hok
        have hdepths := depthsWritten_applyPrim hk ho (by omega) hbase hn hr
        have hafter : DepthsWritten g'.samples (passedSamples tm g' tx ty (setup g' p)) tm (teamAt u h) := by
          rcases hcases with ht | ht
          · rw [ht.teamAt]
            exact hdepths
          · intro q m hq hm
            have hin := depthOff_add_le hq hm
            rw [ht.teamAt, scrRead_appendQuad (by rw [hring, base_grown, hbase]; omega), hdepths q m hq hm]
        dsimp only
        refine List.all_eq_true.mpr fun q hq => List.all_eq_true.mpr fun m hm => ?_
        have hread := hafter q m (List.mem_range.mp hq) (List.mem_range.mp hm)
        split
        · next e he => exact beq_iff_eq.mpr (hread.trans (by rw [depthAfter, he]; rfl))
        · next he => exact beq_iff_eq.mpr (hread.trans (by rw [depthAfter, he]; rfl))
      · exact obeys_nil
  · exact obeys_nil

/-- Settles O59: the step's answer is the tile without its primitive and the team with the depths, the plane block and at most 256 records,
to which the end-of-tile record is added where it is due. -/
theorem rasterSteps : Obligations.RasterSteps :=
  ⟨factHolds_iff.mpr fun i _ => applyFacts_obeyed i, factHolds_iff.mpr fun i _ => leftoverFacts_obeyed i,
    factHolds_iff.mpr fun i _ => depthFacts_obeyed i⟩

end Sys2Proof.Machine
